-- ==== Sys2Proof/Word.lean ====
section
/-! DEFINITION. The word types of the SX4 (R4, R11, R73): bytes, 32-bit lanes, 64-bit words, vectors of sixteen lanes,
and lane masks. Arithmetic on them lives in Machine/Bits.lean. -/

namespace Sys2Proof

/-- A byte of memory. -/
abbrev Byte := BitVec 8

/-- A lane: 32 bits (R11). -/
abbrev Lane := BitVec 32

/-- A 64-bit word: an X register, a configuration word, a word of a record. -/
abbrev Word := BitVec 64

/-- A vector of 16 lanes; lane i is bits [32i+31:32i] (Table 1 of R73). -/
abbrev Vec := BitVec 512

/-- One bit for each of the 16 lanes (R73, R78). -/
abbrev Mask := BitVec 16

end Sys2Proof
end

