-- ==== Sys2Proof/Machine/Bits.lean ====
section
/-! DEFINITION. Bits, bytes, lanes and tables: the helpers of R4, R9, R74, R122 that every later file uses. -/

namespace Sys2Proof.Machine

/-- Bits [lo+n−1:lo] of a natural number. -/
def bits (v lo n : Nat) : Nat := v / 2 ^ lo % 2 ^ n

/-- Bit i of a natural number. -/
def bit (v i : Nat) : Bool := v / 2 ^ i % 2 == 1

/-- Wrap(v, w) (R122). -/
def wrap (v : Int) (w : Nat) : Nat := (v % (2 ^ w : Int)).toNat

/-- SignExtend(x, w) (R122). -/
def sext (x w : Nat) : Int :=
  let y := x % 2 ^ w
  if w ≠ 0 ∧ 2 ^ (w - 1) ≤ y then (y : Int) - 2 ^ w else y

/-- SatIw(v) (R122). -/
def satI (v : Int) (w : Nat) : Int := min (max v (-(2 ^ (w - 1) : Int))) (2 ^ (w - 1) - 1)
/-- SatNw(v) (R122). -/
def satN (v : Int) (w : Nat) : Int := min (max v 0) (2 ^ w - 1)

/-- Popcount(x) over w bits (R122). -/
def popcount (x : Nat) : Nat → Nat
  | 0 => 0
  | w + 1 => x % 2 + popcount (x / 2) w

/-- Clz(x, w) (R122). -/
def clz (x w : Nat) : Nat := let y := x % 2 ^ w; if y = 0 then w else w - 1 - Nat.log2 y

/-- Bit i of x moved to bit w − 1 − i. -/
def bitReverse (x : Nat) : Nat → Nat
  | 0 => 0
  | w + 1 => x % 2 * 2 ^ w + bitReverse (x / 2) w

/-- The w-bit code of a word, extended to 64 bits: by its sign, or with zeros (R74, R87 Table 9). -/
def extend (x w : Nat) (signed : Bool) : Word := if signed then BitVec.ofInt 64 (sext x w) else BitVec.ofNat 64 (x % 2 ^ w)

/-- The code of element i of width w of a vector, low part first (R74). -/
def elem (v : Vec) (w i : Nat) : Nat := bits v.toNat (w * i) w

/-- Number of n-element codes laid end to end, element 0 lowest. -/
def packNat (w : Nat) : List Nat → Nat
  | [] => 0
  | x :: xs => x % 2 ^ w + 2 ^ w * packNat w xs

/-- A vector of elements of width w, element 0 lowest (R74). -/
def pack (w : Nat) (xs : List Nat) : Vec := BitVec.ofNat 512 (packNat w xs)

/-- The n elements of width w of a number, element 0 first. -/
def unpackNat (w n v : Nat) : List Nat := (List.range n).map fun i => bits v (w * i) w

/-- Lane i of a vector (R73). -/
def lane (v : Vec) (i : Nat) : Lane := BitVec.ofNat 32 (elem v 32 i)

/-- A vector of lanes, lane 0 first; missing lanes are zero. -/
def ofLanes (xs : List Lane) : Vec := pack 32 (xs.map BitVec.toNat)

/-- The lanes of a vector. -/
def lanesOf (v : Vec) : List Lane := (List.range 16).map (lane v)

/-- A value repeated in every lane. -/
def splat (x : Lane) : Vec := ofLanes (List.replicate 16 x)

/-- The bits of the lanes that a mask selects. -/
def laneBits (m : Mask) : Vec := pack 32 ((List.range 16).map fun i => if m.getLsbD i then 0xFFFFFFFF else 0)

/-- A vector written in the lanes of a mask; other lanes keep their values (R78). -/
def merge (old new : Vec) (m : Mask) : Vec := (old &&& ~~~laneBits m) ||| (new &&& laneBits m)

/-- The mask of lanes for elements of a width: a 64-bit element in lanes (2j, 2j + 1) follows bit 2j (R78). -/
def maskFor (w : Nat) (m : Mask) : Mask :=
  if w = 64 then (m &&& 0x5555) ||| ((m &&& 0x5555) <<< 1) else m

/-- The lanes of a mask, ascending. -/
def lanesIn (m : Mask) : List Nat := (List.range 16).filter fun i => m.getLsbD i

/-- A mask from a test of each lane. -/
def maskOf (p : Nat → Bool) : Mask := BitVec.ofNat 16 (packNat 1 ((List.range 16).map fun i => if p i then 1 else 0))

/-- Little-endian bytes of a number (R4). -/
def bytesOf : Nat → Nat → List Byte
  | 0, _ => []
  | n + 1, v => BitVec.ofNat 8 v :: bytesOf n (v / 256)

/-- The number that little-endian bytes hold (R4). -/
def ofBytes : List Byte → Nat
  | [] => 0
  | b :: bs => b.toNat + 256 * ofBytes bs

/-- A number of 64-bit words, word 0 first (R4). -/
def wordsOf (bs : List Byte) : Nat → List Word
  | 0 => []
  | n + 1 => BitVec.ofNat 64 (ofBytes (bs.take 8)) :: wordsOf (bs.drop 8) n

/-- Word i of a record; a record is zero past its end. -/
def word (ws : List Word) (i : Nat) : Nat := (ws.getD i 0).toNat

/-- Little-endian bytes of words. -/
def bytesOfWords (ws : List Word) : List Byte := ws.flatMap fun w => bytesOf 8 w.toNat

/-- Ceil(a / b) (R122). -/
def ceilDiv (a b : Nat) : Nat := (a + b - 1) / b

/-- An address that is a multiple of n. -/
def aligned (a n : Nat) : Bool := a % n == 0

/-- The positions below n of the list at which a test holds. -/
def positions {α : Type} (p : α → Bool) (xs : List α) : List Nat :=
  (List.range xs.length).filter fun i => match xs[i]? with | some x => p x | none => false

/-- The least position at which a value is greatest. -/
def argMax (xs : List Nat) : Nat := (xs.idxOf (xs.foldl max 0))

end Sys2Proof.Machine
end

