-- ==== Sys2Proof/Machine/Crypto.lean ====
section
/-! DEFINITION. The algorithms that boot and attestation name by their standards (R394, R398, R399): SHA-384 of FIPS 180-4, HMAC,
ECDSA over P-384 of FIPS 186-5, and the deterministic nonce of RFC 6979. The standards' constants are from outside the spec (log
entry 51). -/

namespace Sys2Proof.Machine

/-! ### SHA-384 -/

/-- The greatest a with a ^ k ≤ x, found bit by bit from bit n - 1 down. -/
def rootFrom (k x : Nat) : Nat → Nat → Nat
  | 0, a => a
  | n + 1, a => rootFrom k x n (if (a + 2 ^ n) ^ k ≤ x then a + 2 ^ n else a)

/-- The first 64 bits of the fractional part of the k-th root of x. -/
def rootWord (k x : Nat) : Word := BitVec.ofNat 64 (rootFrom k (x * 2 ^ (64 * k)) 72 0)

/-- The first 80 primes, from whose roots the constants of SHA-384 are taken. -/
def primes : List Nat :=
  [2, 3, 5, 7, 11, 13, 17, 19, 23, 29, 31, 37, 41, 43, 47, 53, 59, 61, 67, 71, 73, 79, 83, 89, 97, 101, 103, 107, 109, 113]
  ++ [127, 131, 137, 139, 149, 151, 157, 163, 167, 173, 179, 181, 191, 193, 197, 199, 211, 223, 227, 229, 233, 239, 241, 251]
  ++ [257, 263, 269, 271, 277, 281, 283, 293, 307, 311, 313, 317, 331, 337, 347, 349, 353, 359, 367, 373, 379, 383, 389, 397, 401, 409]

def rotr (x : Word) (n : Nat) : Word := x.rotateRight n

/-- A number of big-endian bytes. -/
def ofBig (bs : List Byte) : Nat := bs.foldl (fun a b => 256 * a + b.toNat) 0
/-- The n big-endian bytes of a number. -/
def toBig (n x : Nat) : List Byte := (bytesOf n x).reverse

/-- The message schedule, newest word first. -/
def shaSchedule : Nat → List Word → List Word
  | 0, ws => ws
  | n + 1, ws =>
    let at' := fun (i : Nat) => ws.getD i 0
    let s0 := rotr (at' 14) 1 ^^^ rotr (at' 14) 8 ^^^ (at' 14 >>> 7)
    let s1 := rotr (at' 1) 19 ^^^ rotr (at' 1) 61 ^^^ (at' 1 >>> 6)
    shaSchedule n ((s1 + at' 6 + s0 + at' 15) :: ws)

/-- One round: the eight working words with a round constant and a schedule word. -/
def shaRound (v : List Word) (kw : Word) : List Word :=
  match v with
  | [a, b, c, d, e, f, g, h] =>
    let t1 := h + (rotr e 14 ^^^ rotr e 18 ^^^ rotr e 41) + ((e &&& f) ^^^ (~~~e &&& g)) + kw
    let t2 := (rotr a 28 ^^^ rotr a 34 ^^^ rotr a 39) + ((a &&& b) ^^^ (a &&& c) ^^^ (b &&& c))
    [t1 + t2, a, b, c, d + t1, e, f, g]
  | v => v

/-- A block of 128 bytes enters the hash value. -/
def shaBlock (ks : List Word) (h : List Word) (block : List Byte) : List Word :=
  let ws := (List.range 16).map fun i => BitVec.ofNat 64 (ofBig ((block.drop (8 * i)).take 8))
  let kws := List.zipWith (· + ·) ks (shaSchedule 64 ws.reverse).reverse
  List.zipWith (· + ·) h (kws.foldl shaRound h)

def shaBlocks (ks : List Word) : Nat → List Word → List Byte → List Word
  | 0, h, _ => h
  | n + 1, h, bs => shaBlocks ks n (shaBlock ks h (bs.take 128)) (bs.drop 128)

/-- SHA-384 of a byte string (FIPS 180-4). -/
@[irreducible] def sha384 (m : List Byte) : BitVec 384 :=
  let n := m.length
  let padded := m ++ 0x80 :: List.replicate ((239 - n % 128) % 128) 0 ++ toBig 16 (8 * n)
  let h := shaBlocks (primes.map (rootWord 3)) (padded.length / 128) (((primes.drop 8).take 8).map (rootWord 2)) padded
  BitVec.ofNat 384 ((h.take 6).foldl (fun a w => 2 ^ 64 * a + w.toNat) 0)

/-- A digest as 48 bytes, the highest first. -/
def beBytes (x : BitVec 384) : List Byte := toBig 48 x.toNat

/-- HMAC-SHA-384 of a message under a key of at most 128 bytes. -/
def hmac384 (key m : List Byte) : BitVec 384 :=
  let k := key ++ List.replicate (128 - key.length) 0
  sha384 (k.map (· ^^^ 0x5C) ++ beBytes (sha384 (k.map (· ^^^ 0x36) ++ m)))

/-! ### P-384 -/

/-- The prime of the field. -/
def fieldP : Nat := 2 ^ 384 - 2 ^ 128 - 2 ^ 96 + 2 ^ 32 - 1
/-- The order of the group. -/
def orderN : Nat := 0xFFFFFFFFFFFFFFFFFFFFFFFFFFFFFFFFFFFFFFFFFFFFFFFFC7634D81F4372DDF581A0DB248B0A77AECEC196ACCC52973
/-- The coefficient b; a is -3. -/
def curveB : Nat := 0xB3312FA7E23EE7E4988E056BE3F82D19181D9C6EFE8141120314088F5013875AC656398D8A2ED19D2A85C8EDD3EC2AEF
/-- A point of the curve; none at infinity. -/
abbrev Point := Option (Nat × Nat)
/-- The base point. -/
def baseG : Point :=
  some (0xAA87CA22BE8B05378EB1C71EF320AD746E1D3B628BA79B9859F741E082542A385502F25DBF55296C3A545E3872760AB7,
    0x3617DE4A96262C6F5D9E98BF9292DC29F8F41DBD289A147CE9DA3113B5F0B8C00A60B1CE1D7E819D7A431D7C90EA0E5F)

/-- x to an exponent of n bits, modulo m. -/
def powMod (m x e : Nat) : Nat → Nat
  | 0 => 1
  | n + 1 => let r := powMod m x (e / 2) n; if e % 2 = 1 then r * r % m * x % m else r * r % m
/-- The inverse modulo a prime of 384 bits. -/
def invMod (m x : Nat) : Nat := powMod m (x % m) (m - 2) 384

/-- The point on a line of slope l through two points of the curve. -/
def chord (l x1 y1 x2 : Nat) : Nat × Nat :=
  let x3 := (l * l + 2 * fieldP - x1 - x2) % fieldP
  (x3, (l * ((x1 + fieldP - x3) % fieldP) + fieldP - y1) % fieldP)

/-- The sum of two points. -/
def addPoint : Point → Point → Point
  | none, q => q
  | p, none => p
  | some (x1, y1), some (x2, y2) =>
    if x1 = x2 then
      if (y1 + y2) % fieldP = 0 then none
      else some (chord ((3 * x1 * x1 + fieldP - 3) % fieldP * invMod fieldP (2 * y1) % fieldP) x1 y1 x2)
    else some (chord ((y2 + fieldP - y1) % fieldP * invMod fieldP (x2 + fieldP - x1) % fieldP) x1 y1 x2)

/-- A multiple of a point, by a number of n bits. -/
def mulPoint (q : Point) (k : Nat) : Nat → Point
  | 0 => none
  | n + 1 => let r := mulPoint q (k / 2) n; let d := addPoint r r; if k % 2 = 1 then addPoint d q else d

/-- A public key, x then y, as a point of the curve; none where it is not on it. -/
def keyPoint (q : List Byte) : Option (Nat × Nat) :=
  let x := ofBig (q.take 48)
  let y := ofBig (q.drop 48)
  if x < fieldP ∧ y < fieldP ∧ y * y % fieldP = (x * x * x + (fieldP - 3) * x + curveB) % fieldP then some (x, y) else none

/-- ECDSA with SHA-384 (FIPS 186-5): a signature, r then s, over a byte string by a public key, all big-endian. -/
@[irreducible] def ecdsaVerify (q m sig : List Byte) : Bool :=
  let r := ofBig (sig.take 48)
  let s := ofBig (sig.drop 48)
  match keyPoint q with
  | none => false
  | some p =>
    if r = 0 ∨ orderN ≤ r ∨ s = 0 ∨ orderN ≤ s then false
    else
      let w := invMod orderN s
      let e := (sha384 m).toNat
      match addPoint (mulPoint baseG (e * w % orderN) 384) (mulPoint (some p) (r * w % orderN) 384) with
      | some (x, _) => x % orderN == r
      | none => false

/-- The private key of 448 random bits: key-pair generation with extra random bits (FIPS 186-5). -/
def privateKey (c : BitVec 448) : Nat := c.toNat % (orderN - 1) + 1
/-- Its public key, x then y. -/
@[irreducible] def publicKey (c : BitVec 448) : List Byte :=
  match mulPoint baseG (privateKey c) 384 with | some (x, y) => toBig 48 x ++ toBig 48 y | none => []

/-- The signature of a digest by a private key with a nonce; none where the nonce is no number of the group, or gives zero. -/
def signWith (d e k : Nat) : Option (List Byte) :=
  if k = 0 ∨ orderN ≤ k then none
  else match mulPoint baseG k 384 with
    | none => none
    | some (x, _) =>
      let r := x % orderN
      let s := invMod orderN k * ((e + r * d) % orderN) % orderN
      if r = 0 ∨ s = 0 then none else some (toBig 48 r ++ toBig 48 s)

/-- Candidates for the nonce in turn (RFC 6979), from the state K and V of its generator. -/
def signFrom (d e : Nat) : Nat → List Byte → List Byte → List Byte
  | 0, _, _ => []
  | n + 1, K, V =>
    let V := beBytes (hmac384 K V)
    match signWith d e (ofBig V) with
    | some sig => sig
    | none => let K := beBytes (hmac384 K (V ++ [0])); signFrom d e n K (beBytes (hmac384 K V))

/-- The deterministic ECDSA signature of a byte string by the private key of 448 bits (RFC 6979 with SHA-384). -/
@[irreducible] def ecdsaSign (c : BitVec 448) (m : List Byte) : List Byte :=
  let d := privateKey c
  let e := (sha384 m).toNat
  let seed := toBig 48 d ++ toBig 48 (e % orderN)
  let V := List.replicate 48 (1 : Byte)
  let K := beBytes (hmac384 (List.replicate 48 0) (V ++ 0 :: seed))
  let V := beBytes (hmac384 K V)
  let K := beBytes (hmac384 K (V ++ 1 :: seed))
  signFrom d e 64 K (beBytes (hmac384 K V))

end Sys2Proof.Machine
end

