-- ==== Sys2Proof/Machine/Num.lean ====
section
/-! DEFINITION. Number formats and arithmetic (04_number_formats.md, R97 to R121): the exact value of each code, Round
and RoundInt, the IEEE operations of the compute element, block formats, the matrix cell's sums and the seeded basis.
An exact value is a signed fraction of naturals with a power of two apart, so no rounding hides in it. -/

namespace Sys2Proof.Machine

/-! ### Exact values -/

/-- The exact value (−1)^neg × num × 2^exp / den; a zero keeps its sign (R97). -/
structure Q where
  neg : Bool
  num : Nat
  exp : Int
  den : Nat := 1
  deriving DecidableEq, Repr

/-- What a code denotes (R97): a NaN keeps its sign and its fraction, scaled to 52 bits. -/
inductive Val where
  | nan (neg : Bool) (frac : Nat)
  | inf (neg : Bool)
  | fin (q : Q)
  deriving DecidableEq, Repr

namespace Q

def isZero (a : Q) : Bool := a.num == 0
def ofInt (i : Int) : Q := { neg := i < 0, num := i.natAbs, exp := 0 }
def ofNat (n : Nat) : Q := { neg := false, num := n, exp := 0 }
def negate (a : Q) : Q := { a with neg := !a.neg }
def abs (a : Q) : Q := { a with neg := false }
def mul (a b : Q) : Q := { neg := a.neg != b.neg, num := a.num * b.num, exp := a.exp + b.exp, den := a.den * b.den }
/-- Division by a nonzero value. -/
def div (a b : Q) : Q := { neg := a.neg != b.neg, num := a.num * b.den, exp := a.exp - b.exp, den := a.den * b.num }
def scale (a : Q) (e : Int) : Q := { a with exp := a.exp + e }

/-- The numerators of two values over one denominator and one power of two. -/
def align (a b : Q) : Int × Int × Int × Nat :=
  let e := min a.exp b.exp
  let s (q : Q) : Int := if q.neg then -(q.num : Int) else q.num
  (s a * b.den * 2 ^ (a.exp - e).toNat, s b * a.den * 2 ^ (b.exp - e).toNat, e, a.den * b.den)

/-- Exact sum; an exact zero from values that are not both zero is −0 only under RD (R102). -/
def add (down : Bool) (a b : Q) : Q :=
  if a.isZero && b.isZero then { a with neg := if a.neg == b.neg then a.neg else down }
  else
    let (x, y, e, d) := align a b
    let z := x + y
    { neg := if z = 0 then down else z < 0, num := z.natAbs, exp := e, den := d }

/-- a < b by value; the signs of zeros do not count. -/
def lt (a b : Q) : Bool := let (x, y, _, _) := align a b; x < y
def le (a b : Q) : Bool := !lt b a
/-- a = b by value. -/
def eq (a b : Q) : Bool := let (x, y, _, _) := align a b; x == y
def maxQ (a b : Q) : Q := if lt a b then b else a

/-- Floor(Log2(Abs(a))) of a nonzero value. -/
def flog2 (a : Q) : Int :=
  let d : Int := (Nat.log2 a.num : Int) - Nat.log2 a.den
  let ge := if d < 0 then a.den ≤ a.num * 2 ^ (-d).toNat else a.den * 2 ^ d.toNat ≤ a.num
  (if ge then d else d - 1) + a.exp

/-- Abs(a) over a quantum 2^q: the whole part, and the fraction left as remainder and divisor. -/
def quot (a : Q) (q : Int) : Nat × Nat × Nat :=
  let s := a.exp - q
  let n := if s < 0 then a.num else a.num * 2 ^ s.toNat
  let d := if s < 0 then a.den * 2 ^ (-s).toNat else a.den
  (n / d, n % d, d)

end Q

/-! ### Formats -/

/-- A floating-point format (R98 Table 1). `top` is the magnitude code of MaxFinite. -/
structure Fmt where
  width : Nat
  pf    : Nat
  emin  : Int
  top   : Nat
  inf   : Bool
  nan   : Bool
  deriving DecidableEq, Repr

def fp64 : Fmt := ⟨64, 53, -1022, 0x7FEFFFFFFFFFFFFF, true, true⟩
def fp32 : Fmt := ⟨32, 24, -126, 0x7F7FFFFF, true, true⟩
def fp16 : Fmt := ⟨16, 11, -14, 0x7BFF, true, true⟩
def bf16 : Fmt := ⟨16, 8, -126, 0x7F7F, true, true⟩
def e5m2 : Fmt := ⟨8, 3, -14, 0x7B, true, true⟩
def e4m3 : Fmt := ⟨8, 4, -6, 0x7E, false, true⟩
def e3m2 : Fmt := ⟨6, 3, -2, 0x1F, false, false⟩
def e2m3 : Fmt := ⟨6, 4, 0, 0x1F, false, false⟩
def e2m1 : Fmt := ⟨4, 2, 0, 0x7, false, false⟩

/-- The format of a floating-point type code (R87 Table 9). -/
def fmtOfTy (ty : Nat) : Fmt := match ty with | 8 => fp16 | 9 => bf16 | 10 => fp32 | _ => fp64
/-- The format of a Table 12 code from 0 to 7 (R87). -/
def fmtOfCode (c : Nat) : Fmt :=
  match c with | 0 => fp32 | 1 => bf16 | 2 => fp16 | 3 => e4m3 | 4 => e5m2 | 5 => e3m2 | 6 => e2m3 | _ => e2m1

namespace Fmt

/-- Bits of the fraction field. -/
def fbits (f : Fmt) : Nat := f.pf - 1
/-- The sign bit of a code. -/
def signBit (f : Fmt) : Nat := 2 ^ (f.width - 1)
def withSign (f : Fmt) (s : Bool) (m : Nat) : Nat := if s then f.signBit + m else m
/-- MaxFinite(F) with a sign. -/
def maxFinite (f : Fmt) (s : Bool) : Nat := f.withSign s f.top
/-- Inf(F, s). -/
def infinity (f : Fmt) (s : Bool) : Nat := f.withSign s (f.top + 1)
/-- A NaN of the format: quieted, with its sign and high fraction bits (R103); E4M3 has one code for each sign. -/
def nanCode (f : Fmt) (s : Bool) (frac : Nat) : Nat :=
  if f.inf then
    let q := 2 ^ (f.fbits - 1)
    f.withSign s (f.top + 1 + (q + frac / 2 ^ (52 - f.fbits) % q))
  else if f.nan then f.withSign s (f.top + 1) else 0
/-- DefaultNaN(F) (R103). -/
def defaultNaN (f : Fmt) : Nat := f.nanCode false 0

/-- The exact value of a code (R98 to R100); a NaN keeps its sign and fraction bits (R103, R107). -/
def value (f : Fmt) (c : Nat) : Val :=
  let s := bit c (f.width - 1)
  let m := c % f.signBit
  if f.top < m then
    if f.inf && m == f.top + 1 then .inf s
    else .nan s (m % 2 ^ f.fbits * 2 ^ (52 - f.fbits))
  else
    let e := m / 2 ^ f.fbits
    let fr := m % 2 ^ f.fbits
    if e = 0 then .fin { neg := s, num := fr, exp := f.emin - f.fbits }
    else .fin { neg := s, num := fr + 2 ^ f.fbits, exp := f.emin - f.fbits + (e - 1 : Nat) }

/-- Quiet(c) of a NaN code (R103). -/
def quiet (f : Fmt) (c : Nat) : Nat :=
  match f.value c with
  | .nan s fr => f.nanCode s fr
  | _ => c

end Fmt

/-! ### Rounding -/

/-- Which of the two neighbours of a value is taken: whether the one farther from zero, from the whole part k, the
remainder r of a division by d, the sign, the mode and the SR draw (R109). -/
def roundUp (k r d : Nat) (neg : Bool) (rm draw : Nat) : Bool :=
  if r = 0 then false
  else match rm with
    | 0 => d < 2 * r || (2 * r == d && k % 2 == 1)
    | 1 => false
    | 2 => !neg
    | 3 => neg
    | 4 => d ≤ 2 * r
    | _ => draw < r * 2 ^ 16 / d

/-- Round(v, F, rm, sat) (R109), with the SR draw supplied. -/
def round (f : Fmt) (rm : Nat) (sat : Bool) (draw : Nat) (v : Q) : Nat :=
  if v.num = 0 then f.withSign v.neg 0
  else
    let e := max v.flog2 f.emin
    let (k, r, d) := v.quot (e - f.fbits)
    let m := if roundUp k r d v.neg rm draw then k + 1 else k
    let code := (e - f.emin).toNat * 2 ^ f.fbits + m
    if f.top < code then
      if !f.inf || sat || rm == 1 || (rm == 2 && v.neg) || (rm == 3 && !v.neg) then f.maxFinite v.neg
      else f.infinity v.neg
    else f.withSign v.neg code

/-- RoundInt(v, rm) (R109): an exact signed integer, its sign kept apart. -/
def roundInt (rm draw : Nat) (v : Q) : Bool × Nat :=
  let (k, r, d) := v.quot 0
  (v.neg, if roundUp k r d v.neg rm draw then k + 1 else k)

def signed (s : Bool) (n : Nat) : Int := if s then -(n : Int) else n

/-- A value rounded into a format whose infinities stand whatever sat says (R102). -/
def roundVal (f : Fmt) (rm : Nat) (sat : Bool) (draw : Nat) (v : Val) : Nat :=
  match v with
  | .nan s fr => f.nanCode s fr
  | .inf s => f.infinity s
  | .fin q => round f rm sat draw q

/-- Conversion of a floating-point value to a floating-point format (R112 Table 8); an 8-bit format has one NaN of each sign. -/
def convert (f : Fmt) (rm : Nat) (sat : Bool) (draw : Nat) (v : Val) : Nat :=
  match v with
  | .nan s fr => f.nanCode s (if f.width = 8 then 0 else fr)
  | .inf s =>
    if f.inf then (if sat then f.maxFinite s else f.infinity s)
    else if f.nan && !sat then f.withSign s (f.top + 1)
    else f.maxFinite s
  | .fin q => round f rm sat draw q

/-- SatT(v) of an integer type of width w (R122). -/
def satT (int : Bool) (w : Nat) (v : Int) : Int := if int then satI v w else satN v w

/-- Conversion of a floating-point value to an integer type (R112 Table 8): the code. -/
def toInteger (int : Bool) (w rm draw : Nat) (v : Val) : Nat :=
  match v with
  | .nan _ _ => 0
  | .inf s => wrap (satT int w (if s then -(2 ^ 64) else 2 ^ 64)) w
  | .fin q => let (s, n) := roundInt rm draw q; wrap (satT int w (signed s n)) w

/-! ### IEEE operations (R102, R103) -/

namespace Val

def isNan : Val → Bool | .nan _ _ => true | _ => false
def default : Val := .nan false (2 ^ 51)

/-- The first NaN among the operands, if there is one (R103). -/
def firstNan : List Val → Option Val
  | [] => none
  | v :: vs => if v.isNan then some v else firstNan vs

def neg : Val → Val
  | .nan s f => .nan s f
  | .inf s => .inf (!s)
  | .fin q => .fin q.negate

def add (down : Bool) : Val → Val → Val
  | .nan s f, _ => .nan s f
  | _, .nan s f => .nan s f
  | .fin a, .fin b => .fin (Q.add down a b)
  | .inf s, .inf t => if s == t then .inf s else default
  | .inf s, _ => .inf s
  | _, .inf t => .inf t

def sign : Val → Bool
  | .nan s _ => s
  | .inf s => s
  | .fin q => q.neg

def isZero : Val → Bool | .fin q => q.isZero | _ => false

def mul (a b : Val) : Val :=
  match a, b with
  | .nan s f, _ => .nan s f
  | _, .nan s f => .nan s f
  | .fin x, .fin y => .fin (x.mul y)
  | _, _ => if a.isZero || b.isZero then default else .inf (a.sign != b.sign)

def div (a b : Val) : Val :=
  match a, b with
  | .inf _, .inf _ => default
  | .inf s, y => .inf (s != y.sign)
  | x, .inf t => .fin { neg := x.sign != t, num := 0, exp := 0 }
  | .fin x, .fin y =>
    if y.isZero then (if x.isZero then default else .inf (x.neg != y.neg)) else .fin (x.div y)
  | x, _ => x

end Val

/-- The integer square root by bits, from bit i down. -/
def isqrtFrom (n : Nat) : Nat → Nat → Nat
  | 0, r => r
  | i + 1, r => let r' := r + 2 ^ i; isqrtFrom n i (if r' * r' ≤ n then r' else r)

/-- Floor of the square root. -/
def isqrt (n : Nat) : Nat := isqrtFrom n (Nat.log2 n / 2 + 1) 0

/-- The square root of a positive value num × 2^exp / den, exact or with one sticky bit far below every quantum, so
that Round of it is Round of the root. -/
def rootQ (a : Q) : Q :=
  let e := a.exp - 400 - (a.exp % 2)
  let n := a.num * 2 ^ (a.exp - e).toNat
  let whole := n / a.den
  let s := isqrt whole
  let exact := s * s == whole && whole * a.den == n
  { neg := false, num := 2 * s + (if exact then 0 else 1), exp := e / 2 - 1 }

def Val.sqrt : Val → Val
  | .inf s => if s then Val.default else .inf false
  | .fin q => if q.isZero then .fin q else if q.neg then Val.default else .fin (rootQ q)
  | v => v

/-- 1 / √a (R138). -/
def Val.rsqrt : Val → Val
  | .inf s => if s then Val.default else .fin { neg := false, num := 0, exp := 0 }
  | .fin q => if q.isZero then .inf q.neg else if q.neg then Val.default else .fin (rootQ ((Q.ofNat 1).div q))
  | v => v

/-- FMIN and FMAX on codes (R140): the first NaN quieted, else the smaller or larger with −0 below +0. -/
def fminmax (f : Fmt) (max : Bool) (a b : Nat) : Nat :=
  let x := f.value a
  let y := f.value b
  if x.isNan then f.quiet a else if y.isNan then f.quiet b
  else
    let key (c : Nat) : Int := if bit c (f.width - 1) then -((c % f.signBit : Nat) : Int) - 1 else ((c % f.signBit : Nat) : Int)
    if max then (if key a < key b then b else a) else (if key b < key a then b else a)

/-- Order of two numbers: −1, 0 or 1; the signs of zeros do not count (R140). -/
def fcompare : Val → Val → Int
  | .fin a, .fin b => if a.lt b then -1 else if b.lt a then 1 else 0
  | .inf s, .inf t => if s == t then 0 else if s then -1 else 1
  | .inf s, _ => if s then -1 else 1
  | _, .inf t => if t then 1 else -1
  | _, _ => 0

/-- FCMP (R140). -/
def fcmpHolds (cc : Nat) (a b : Val) : Bool :=
  if a.isNan || b.isNan then cc == 1 || cc == 6
  else
    let o := fcompare a b
    match cc with
    | 0 => o == 0 | 1 => o != 0 | 2 => o < 0 | 3 => o ≤ 0 | 4 => 0 < o | 5 => 0 ≤ o | 6 => false | _ => true

/-- FCLASS (R140). -/
def fclassOf (f : Fmt) (c : Nat) : Nat :=
  let s := bit c (f.width - 1)
  let m := c % f.signBit
  match f.value c with
  | .nan _ _ => if bit c (f.fbits - 1) then 2 else 1
  | .inf _ => if s then 4 else 512
  | .fin q =>
    if q.isZero then (if s then 32 else 64)
    else if m < 2 ^ f.fbits then (if s then 16 else 128)
    else if s then 8 else 256

/-- The roots 2^(2^−i), i = 1, 2, …, each scaled by 2^160. -/
def rootTable : Nat → Nat → List Nat
  | 0, _ => []
  | n + 1, r => let r' := isqrt (r * 2 ^ 160); r' :: rootTable n r'

/-- The product of the roots that the bits of a fraction of n bits select, high bit first. -/
def expProduct (x : Nat) : Nat → List Nat → Nat → Nat
  | _, [], p => p
  | n, r :: rs, p => expProduct x (n - 1) rs (if bit x (n - 1) then p * r / 2 ^ 160 else p)

/-- FEXP2F (R141): 2^a rounded to FP32 with RN, for Abs(a) ≤ 0.5. A value with Abs(a) below 2^−25 rounds to 1.0. The
fraction of any other has at most 48 bits, and 2^a is then found to within 2^−150, far inside the distance of any such
power from a midpoint. -/
def exp2f (c : Nat) : Nat :=
  match fp32.value c with
  | .nan s fr => fp32.nanCode s fr
  | .inf _ => fp32.defaultNaN
  | .fin q =>
    if Q.lt { neg := false, num := 1, exp := -1 } q.abs then fp32.defaultNaN
    else if q.isZero || q.flog2 < -25 then 0x3F800000
    else
      let x := (q.quot (-48)).1
      let frac := if q.neg then 2 ^ 48 - x else x
      let p := expProduct frac 48 (rootTable 48 (2 * 2 ^ 160)) (2 ^ 160)
      round fp32 0 false 0 { neg := false, num := 2 * p + 1, exp := (if q.neg then -162 else -161) }

/-! ### Stochastic rounding and the seeded basis -/

/-- GaloisStep (R110). -/
def galoisStep (g : BitVec 32) : BitVec 32 := if g.getLsbD 0 then (g >>> 1) ^^^ 0x80200003 else g >>> 1

def galoisSteps : Nat → BitVec 32 → BitVec 32
  | 0, g => g
  | n + 1, g => galoisSteps n (galoisStep g)

/-- SrDraw (R111): the state after it, and the draw. -/
def srDraw (g : BitVec 32) : BitVec 32 × Nat := let g' := galoisSteps 16 g; (g', g'.toNat % 2 ^ 16)

/-- n draws in order. -/
def srDraws : Nat → BitVec 32 → BitVec 32 × List Nat
  | 0, g => (g, [])
  | n + 1, g => let (g1, r) := srDraw g; let (g2, rs) := srDraws n g1; (g2, r :: rs)

/-- The initial g_sr of a tile (R110). -/
def gsrInit (lo0 dx dy : Nat) : BitVec 32 :=
  let g := 0x6A09E667#32 ^^^ BitVec.ofNat 32 (lo0 * 0x9E3779B9) ^^^ BitVec.ofNat 32 (dx + 256 * dy)
  if g = 0 then 0xFFFFFFFF else g

/-- The signs of basis j of a seed, element 0 first: true for −1 (R119, R120). -/
def basisSigns (n : Nat) (g : BitVec 32) : List Bool :=
  match n with
  | 0 => []
  | n + 1 => let g' := galoisStep g; g'.getLsbD 0 :: basisSigns n g'

def basisStart (seed : BitVec 32) (j : Nat) : BitVec 32 :=
  let g := seed ^^^ BitVec.ofNat 32 (j * 0x9E3779B9)
  if g = 0 then 0xFFFFFFFF else g

/-- BasisSign(σ, j, ·) as the list of its 1,024 elements, row-major in (k, n). -/
def basis (seed : BitVec 32) (j : Nat) : List Bool := basisSigns 1024 (basisStart seed j)

/-! ### Matrix operand values (R99 to R107) -/

/-- The plain integer formats of Table 12: width and whether signed; none for the others. -/
def intFmt (c : Nat) : Option (Bool × Nat) :=
  match c with
  | 9 => some (true, 16) | 10 => some (true, 8) | 11 => some (false, 8) | 12 => some (true, 4) | 13 => some (false, 4)
  | 14 => some (true, 2) | _ => none

/-- The element format of a block format (R104 Table 6). -/
def elemFmt (c : Nat) : Fmt :=
  match c with | 15 => e4m3 | 16 => e5m2 | 17 => e3m2 | 18 => e2m3 | _ => e2m1

/-- Bytes of a block's side record (R104). -/
def sideBytes (c : Nat) : Nat := match c with | 21 => 2 | 22 => 2 | _ => 1
/-- Elements in a block (R104). -/
def blockLen (c : Nat) : Nat := if c = 8 ∨ c = 21 then 16 else 32
/-- Formats that come in blocks. -/
def inBlocks (c : Nat) : Bool := c == 8 || (15 ≤ c && c ≤ 22)
/-- Bits of an element (R98 to R105). -/
def elemBits (c : Nat) : Nat :=
  match c with
  | 0 => 32 | 1 => 16 | 2 => 16 | 3 => 8 | 4 => 8 | 5 => 6 | 6 => 6 | 7 => 4 | 8 => 4 | 9 => 16 | 10 => 8 | 11 => 8
  | 12 => 4 | 13 => 4 | 14 => 2 | 15 => 8 | 16 => 8 | 17 => 6 | 18 => 6 | 19 => 4 | 20 => 8 | 21 => 4 | 22 => 4 | _ => 0

/-- The scale of a block, from its side record; none for a NaN scale (R106). -/
def blockScale (c side : Nat) : Option Val :=
  match c with
  | 8 => some (.fin (Q.ofNat 1))
  | 21 => match e4m3.value (side % 256) with | .nan _ _ => none | v => some v
  | 22 => match fp16.value side with | .nan _ _ => none | v => some v
  | _ => if side % 256 = 0xFF then none else some (.fin { neg := false, num := 1, exp := (side % 256 : Nat) - 127 })

/-- The value of an element code of a block by itself (R104, R107): code 0b1000 of E2M1X takes the special. -/
def blockElem (c side code : Nat) : Val :=
  match c with
  | 20 => .fin { (Q.ofInt (sext code 8)) with exp := -6 }
  | 22 => .fin (Q.ofInt (sext code 4))
  | 8 => if code = 8 then e4m3.value (side % 256) else e2m1.value code
  | 21 => if code = 8 then e4m3.value (side / 256 % 256) else e2m1.value code
  | _ => (elemFmt c).value code

/-- The value of an element of a block with its scale (R106, R107). -/
def blockValue (c side code : Nat) : Val :=
  match blockScale c side with
  | none => Val.default
  | some s =>
    match blockElem c side code, s with
    | .nan n f, .fin _ => .nan n f
    | .nan _ _, _ => Val.default
    | e, s => e.mul s

/-- The value of a code of a plain format (R99 to R101). -/
def plainValue (c code : Nat) : Val :=
  match intFmt c with
  | some (int, w) => .fin (Q.ofInt (if int then sext code w else code % 2 ^ w))
  | none => (fmtOfCode c).value code

/-! ### Packing blocks (R113, R114) -/

/-- The magnitudes of E2M1 in halves, by code. -/
def e2m1Halves : List Nat := [0, 1, 2, 3, 4, 6, 8, 12]

def halves (n : Nat) : Q := { neg := false, num := n, exp := -1 }

/-- E2M1XSpecial (R114): the E4M3 code. -/
def e2m1xSpecial (ys : List Q) : Nat :=
  let off (y : Q) : Bool := !(e2m1Halves.any fun h => Q.eq y.abs (halves h))
  let us := ys.filter off
  match us with
  | [] => 0
  | u :: rest =>
    let best := rest.foldl (fun (b : Q) y => if Q.lt b.abs y.abs then y else b) u
    round e4m3 0 true 0 best

/-- The grid of EncodeX: values with their codes, the E2M1 codes before the special (R114). -/
def gridX (sp : Nat) : List (Q × Nat) :=
  let pos := (List.range 8).map fun c => (halves (e2m1Halves.getD c 0), c)
  let neg := (List.range 7).map fun c => ((halves (e2m1Halves.getD (c + 1) 0)).negate, c + 9)
  match e4m3.value sp with
  | .fin q => pos ++ neg ++ [(q, 8)]
  | _ => pos ++ neg

/-- EncodeX (R114). -/
def encodeX (y : Q) (sp rm draw : Nat) : Nat :=
  let g := gridX sp
  match g.find? (fun p => Q.eq p.1 y) with
  | some p => p.2
  | none =>
    let below := g.filter fun p => Q.lt p.1 y
    let above := g.filter fun p => Q.lt y p.1
    let lo? := below.foldl (fun (b : Option (Q × Nat)) p =>
      match b with | none => some p | some x => if Q.lt x.1 p.1 then some p else some x) none
    let hi? := above.foldl (fun (b : Option (Q × Nat)) p =>
      match b with | none => some p | some x => if Q.lt p.1 x.1 then some p else some x) none
    match lo?, hi? with
    | none, none => 0
    | some p, none => p.2
    | none, some p => p.2
    | some l, some h =>
      let near := if y.neg then h else l            -- the neighbour nearer zero
      let far := if y.neg then l else h
      let dl := Q.add false y l.1.negate
      let dh := Q.add false h.1 y.negate
      let nearer := if Q.lt dl dh then some l else if Q.lt dh dl then some h else none
      match rm with
      | 0 =>
        match nearer with
        | some p => p.2
        | none =>
          if l.2 = 8 then h.2 else if h.2 = 8 then l.2 else if l.2 % 2 = 0 then l.2 else h.2
      | 1 => near.2
      | 2 => h.2
      | 3 => l.2
      | 4 => match nearer with | some p => p.2 | none => far.2
      | _ =>
        let num := Q.add false y near.1.negate
        let den := Q.add false far.1 near.1.negate
        let t := ((num.abs.div den.abs).scale 16).quot 0
        if draw < t.1 then far.2 else near.2

/-- EmaxE of an MX format (R113). -/
def emaxE (c : Nat) : Int := match c with | 15 => 8 | 16 => 15 | 17 => 4 | 18 => 2 | 19 => 2 | _ => 0

def largest (xs : List Q) : Q := xs.foldl (fun b x => Q.maxQ b x.abs) (Q.ofNat 0)

/-- Each value with its draw; draws are zero unless the mode is SR. -/
def withDraws (xs : List Q) (draws : List Nat) : List (Q × Nat) := (List.range xs.length).map fun i => (xs.getD i (Q.ofNat 0), draws.getD i 0)

/-- The finite part of PackBlock (R113): the element codes and the side record. -/
def packFinite (c rm : Nat) (xs : List Q) (draws : List Nat) : List Nat × Nat :=
  let a := largest xs
  let xd := withDraws xs draws
  match c with
  | 22 =>
    let sc := round fp16 2 true 0 (a.div (Q.ofNat 7))
    let codes := xd.map fun (x, r) =>
      match fp16.value sc with
      | .fin s => if s.isZero then 0 else let (n, k) := roundInt rm r (x.div s); wrap (satI (signed n k) 4) 4
      | _ => 0
    (codes, sc)
  | 21 =>
    let sc := round e4m3 2 true 0 (a.div (Q.ofNat 6))
    let ys := xs.map fun x => match e4m3.value sc with
      | .fin s => if s.isZero then { x with num := 0 } else x.div s
      | _ => Q.ofNat 0
    let sp := e2m1xSpecial ys
    ((withDraws ys draws).map fun (y, r) => encodeX y sp rm r, sc + 256 * sp)
  | 8 =>
    let sp := e2m1xSpecial xs
    (xd.map fun (y, r) => encodeX y sp rm r, sp)
  | _ =>
    let x0 : Int := if a.isZero then -127 else min (max (a.flog2 - emaxE c) (-127)) 127
    let codes := xd.map fun (x, r) =>
      if c = 20 then let (n, k) := roundInt rm r (x.scale (6 - x0)); wrap (satI (signed n k) 8) 8
      else round (elemFmt c) rm true r (x.scale (-x0))
    (codes, (x0 + 127).toNat)

/-- The side record of a block that holds a NaN or an infinity (R113). -/
def nanSide (c : Nat) : Nat := match c with | 21 => 0x007F | 22 => 0x7E00 | _ => 0xFF

/-- PackBlock (R113), with its draws supplied: the element codes and the side record. -/
def packBlock (c rm : Nat) (xs : List Val) (draws : List Nat) : List Nat × Nat :=
  let special (v : Val) : Bool := match v with | .fin _ => false | _ => true
  if c ≠ 8 ∧ xs.any special then (xs.map fun _ => 0, nanSide c)
  else packFinite c rm (xs.map fun v => match v with
    | .fin q => q
    | .inf s => { neg := s, num := 448, exp := 0 }
    | .nan _ _ => Q.ofNat 0) draws

/-! ### The matrix cell's sums (R115 to R117) -/

/-- The chunk entry of R115 Table 9. -/
def chunkK (a b : Nat) : Nat :=
  if a = 0 ∨ b = 0 then 2 else if [1, 2, 9].contains a || [1, 2, 9].contains b then 8 else 32

/-- Both formats are integer formats (R115). -/
def bothInt (a b : Nat) : Bool := (intFmt a).isSome && (intFmt b).isSome

/-- One chunk of R116: the new FP32 accumulator from the products of the chunk. -/
def chunkFp (acc : Nat) (ps : List Val) : Nat :=
  let v := fp32.value acc
  let anyInf (s : Bool) : Bool := ps.any fun p => match p with | .inf t => t == s | _ => false
  if v.isNan || ps.any Val.isNan || (anyInf true && anyInf false) then 0x7FC00000
  else if anyInf true || anyInf false then
    let s := anyInf true
    match v with
    | .inf t => if t == s then acc else 0x7FC00000
    | _ => fp32.infinity s
  else match v with
    | .fin q =>
      let qs := ps.map fun p => match p with | .fin x => x | _ => Q.ofNat 0
      match qs with
      | [] => round fp32 0 false 0 (Q.add false q (Q.ofNat 0))
      | x :: xs => round fp32 0 false 0 (Q.add false q (xs.foldl (Q.add false) x))
    | _ => acc

/-- One chunk of R117: the new INT32 accumulator. -/
def chunkInt (acc : Nat) (sat : Bool) (s : Int) : Nat :=
  let t := sext acc 32 + s
  if sat then wrap (satI t 32) 32 else wrap t 32

/-- The exact signed integer of a value that has no fraction. -/
def Val.toInt : Val → Int
  | .fin q => signed q.neg (q.quot 0).1
  | _ => 0

/-- The products of an output element, cut into chunks and summed (R116, R117). -/
def sumChunks (int sat : Bool) (acc : Nat) : List (List Val) → Nat
  | [] => acc
  | c :: cs =>
    sumChunks int sat (if int then chunkInt acc sat ((c.map Val.toInt).foldl (· + ·) 0) else chunkFp acc c) cs

/-! ### Seed records (R121) -/

/-- The value of element (k, n) of a seed record's tile from its scale, its coefficients below C and their signs. A sum that is zero
is +0 unless every term is −0. DESIGN CHOICE: R121 states a sign only for C = 0 (log entry 55). -/
def seedValue (scale : Nat) (coefs : List Nat) (minus : List Bool) : Val :=
  let terms := (List.range coefs.length).map fun i =>
    let v := bf16.value (coefs.getD i 0)
    if minus.getD i false then v.neg else v
  if scale = 0xFF then Val.default
  else if terms.any Val.isNan then Val.default
  else match terms with
    | [] => .fin (Q.ofNat 0)
    | t :: ts =>
      match ts.foldl (Val.add false) t with
      | .fin q => .fin (q.scale ((scale : Int) - 127))
      | .inf s => .inf s
      | .nan _ _ => Val.default

end Sys2Proof.Machine
end

