-- ==== Sys2Proof/Config.lean ====
section
/-! DEFINITION. What the spec leaves to an implementation, as constants with no body: nothing can be proved of a value
of theirs. The assumption log names each one. -/

namespace Sys2Proof.Config

/-- A free value: the value the spec does not state at the n-th place that draws one. -/
opaque freeWord : Nat → Word
/-- A free byte, likewise. -/
opaque freeByte : Nat → Byte

/-- Whether a cache of translations drops an entry for want of room at the end of a clk (R373): by cache, clk, context, address. The
caches are the leaves of the walker of die d (d), its table pointers (4 + d) and the leaves of the ISE of stack k (8 + k). -/
opaque evicted : Nat → Nat → Nat → Nat → Bool
/-- Whether two address signatures report a conflict that does not exist (R275): by the two tasks' handles and the clk. -/
opaque falseConflict : Nat → Nat → Nat → Bool
/-- Whether the signatures of two tasks in flight, by handle, meet where no location of theirs does, by the number of commits (R38). -/
opaque falseMeeting : Nat → Nat → Nat → Bool
/-- A byte of the memory of another package, as a remote read finds it (R412): by package, address and draw. -/
opaque remoteByte : Nat → Nat → Nat → Byte
/-- Whether another package refuses an access, because it lies in the pool of an ACTIVE context there (R412): by package, address and
draw. -/
opaque refuses : Nat → Nat → Nat → Bool
/-- Entries of a shared queue beyond the least that R30 lets it have, as multiples of 5. -/
opaque poolSize : Nat
/-- Which of the 48 memory-interface tiles of a die a block is read through (R2): by block. -/
opaque mitPort : Nat → Nat
/-- How many of a node's tree ATOMs merge before its hold ends is the network's own (R235): whether one more is merged. -/
opaque mergesNow : Nat → Nat → Bool

/-- Which node of the pool is the root of a partition (R196): by descriptor, partition and version. -/
opaque rootNode : Nat → Nat → Nat → Nat

/-- The place of a kind of event among the source codes of its group: Table 2 of R417 gives the groups of codes, not the codes. -/
opaque eventCode : Nat → Nat

/-- The check bits of a beat, whose code R11 does not give: by its data and the rest of its sideband. -/
opaque checkBits : BitVec 512 → Nat → BitVec 11

/-- The digest of the ROM (R398). -/
opaque romDigest : BitVec 384
/-- The SHA-384 digest of the drain configuration's image (R398). -/
opaque drainDigest : BitVec 384
/-- The device secret (R399). -/
opaque uds : BitVec 384
/-- The fused hashes of the vendor keys (R394). -/
opaque keyHash : Nat → BitVec 384
/-- The DIK certificate signed at manufacture (R399). -/
opaque dikCertificate : List Byte
/-- What a die draws in watts, and its hottest junction in degrees Celsius (R404): by die and clk. -/
opaque watts : Nat → Nat → Nat
opaque celsius : Nat → Nat → Nat

/-- Whether the neighbour acknowledges the oldest flit of a port, and returns a credit of a port's channel and class (R411): by port, or
by the key of the credit, and clk. -/
opaque acknowledged : Nat → Nat → Bool
opaque credited : Nat → Nat → Bool
/-- Whether a package that is no neighbour has left the pod, as the routes recomputed here show (R413, R422): by package and clk. -/
opaque departed : Nat → Nat → Bool

/-- The alias certificate that the ROM signs with the DIK (R399): by the DIK's and the alias key's 448 bits. -/
opaque aliasCertificate : BitVec 448 → BitVec 448 → List Byte

end Sys2Proof.Config
end

