-- ==== Sys2Proof/Syntax.lean ====
section
/-! DEFINITION. The syntax of the SX4: the six instruction formats of Kymon (R80 to R85), the operands of the events
of the part, and `Instr`, one constructor for each row of spec/opcode_table.json. A row that a configuration word
encodes carries that word's fields; a row that is an event of the part carries the place it happens at (see the
numbering of places in Machine/State.lean). -/

namespace Sys2Proof

/-- Format A, register (R80 Table 4), without op and fn. -/
structure FmtA where
  dst : BitVec 6
  sa  : BitVec 6
  sb  : BitVec 6
  sc  : BitVec 6
  fe  : BitVec 3
  pg  : BitVec 3
  ps  : BitVec 1
  ty  : BitVec 5
  rm  : BitVec 3
  sat : BitVec 1
  mod : BitVec 10
  deriving DecidableEq, Repr

/-- Format I, immediate (R81 Table 5). The reserved bit [32] is not held: decoding refuses a word that sets it. -/
structure FmtI where
  dst : BitVec 6
  sa  : BitVec 6
  fe  : BitVec 1
  pg  : BitVec 3
  ps  : BitVec 1
  imm : BitVec 32
  deriving DecidableEq, Repr

/-- Format M, memory (R82 Table 6). -/
structure FmtM where
  reg   : BitVec 6
  base  : BitVec 6
  fe    : BitVec 2
  pg    : BitVec 3
  ps    : BitVec 1
  sz    : BitVec 4
  off   : BitVec 20
  space : BitVec 3
  scope : BitVec 3
  ord   : BitVec 2
  deriving DecidableEq, Repr

/-- Format C, route and bead control (R83 Table 7), without the reserved bits [10:0]. -/
structure FmtC where
  pin   : BitVec 4
  pout  : BitVec 4
  smask : BitVec 8
  pg    : BitVec 3
  ps    : BitVec 1
  fe    : BitVec 1
  sa    : BitVec 6
  tgt   : BitVec 8
  lvl   : BitVec 4
  deriving DecidableEq, Repr

/-- Format X, matrix (R84 Table 8), without the reserved bits [2:0]. nsp and sd are fixed by op and fn (R88). -/
structure FmtX where
  acc  : BitVec 1
  ak   : BitVec 1
  sa   : BitVec 6
  bk   : BitVec 1
  sb   : BitVec 6
  fmtA : BitVec 5
  fmtB : BitVec 5
  mc   : BitVec 3
  nc   : BitVec 3
  kc   : BitVec 3
  sc   : BitVec 6
  pg   : BitVec 3
  ps   : BitVec 1
  fe   : BitVec 1
  deriving DecidableEq, Repr

/-- Format Y, synchronisation and engine (R85 Table 9a). -/
structure FmtY where
  dst   : BitVec 6
  sa    : BitVec 6
  sb    : BitVec 6
  sc    : BitVec 6
  fe    : BitVec 3
  pg    : BitVec 3
  ps    : BitVec 1
  aop   : BitVec 4
  scope : BitVec 3
  ord   : BitVec 2
  flg   : BitVec 5
  tmo   : BitVec 5
  deriving DecidableEq, Repr

/-- The fields of a host transaction header (R344 Table 2). Each row carries its own kind of Table 3 of R345, or a reserved one. -/
structure TxHdr where
  addr : BitVec 56
  rsv  : BitVec 27      -- the three reserved fields together; nonzero breaks Table 2
  tag  : BitVec 16
  len  : BitVec 5
  ocls : BitVec 4
  ctx  : BitVec 3
  priv : BitVec 1
  status : BitVec 4
  astat  : BitVec 8
  kind   : BitVec 4
  deriving DecidableEq, Repr

/-- What the self-tests and the HBM training of INIT find besides dies that fail whole (R395, R418). -/
structure InitParts where
  memory   : BitVec 4     -- dies whose HBM fails training
  tiles    : List Nat     -- tiles that fail their self-test
  channels : List Nat     -- HBM channels that fail training
  deriving DecidableEq, Repr

/-- The four words of a command block write (R380 Table 7). -/
structure CmdWords where
  w0 : Word
  w1 : Word
  w2 : Word
  w3 : Word
  deriving DecidableEq, Repr

/-- A lattice flit (R408): its 8-byte header's fields, its data beat and its sideband. -/
structure Flit where
  dest : BitVec 11
  ctx  : BitVec 3       -- channel: user slots 0 to 3, 4 the system slot
  cls  : BitVec 1       -- dateline class (R410)
  kind : BitVec 8
  dim  : BitVec 2       -- the dimension the flit travels in: 0 X, 1 Y, 2 Z, 3 none yet
  data : BitVec 512
  side : BitVec 64
  crcOk : Bool
  deriving DecidableEq, Repr

/-- A 64-bit word of a tile's registers, banks and buffers (R401 Table 5). -/
inductive EccCell where
  | x (n : Nat)                        -- x register n
  | v (n word : Nat)                   -- a word of v register n
  | slot (bead k word : Nat)           -- a word of slot k of a bead in flight, oldest first
  | acc (bank word : Nat)              -- two accumulators of bank a0 or a1
  | beat (code k word : Nat)           -- a word of the k-th beat of an input queue
  deriving DecidableEq, Repr

/-- Where a storage error lies (R401 Table 5); places are numbered as in Machine/State.lean. -/
inductive EccSite where
  | memWord (pa : Nat)                 -- vault SRAM, HBM, a SYNC word
  | treeNode (desc part : Nat)         -- a node of a partition of the tree at a descriptor
  | tag (block : Nat)                  -- compression tag store
  | scratch (t off : Nat)              -- tile scratchpad
  | element (t : Nat) (c : EccCell)    -- registers, matrix banks, bead and queue buffers of a tile
  | link (t link : Nat)                -- a stream link
  | config (t bank word : Nat)         -- configuration store
  | cache (d : Nat)                    -- TLBs, walker caches, stream buffers, staging areas of a die
  | controller (d : Nat)               -- die-controller SRAM
  deriving DecidableEq, Repr

/-- One constructor for each row of spec/opcode_table.json. -/
inductive Instr where
  /-- NOP (R145): The all-zero word does nothing and never blocks. -/
  | nop
  /-- TRAP (R260): Raises the precise fault TRAP with the immediate in the record. -/
  | trap (f : FmtI)
  /-- HALT (R260): Stops every source of the region; the work inside runs to retirement and the task commits on quiescence. -/
  | halt (f : FmtI)
  /-- SYSRD (R260): Writes a system value selected by code (part id, live mask, task priority and so on) to an X register. -/
  | sysrd (f : FmtI)
  /-- ADD (R128): Integer add of two registers, wrapping or saturating. -/
  | add (f : FmtA)
  /-- SUB (R128): Integer subtract of two registers. -/
  | sub (f : FmtA)
  /-- ADDS (R128): Integer add of a plus b shifted left by s. -/
  | adds (f : FmtA)
  /-- SUBS (R128): Integer subtract of b shifted left by s. -/
  | subs (f : FmtA)
  /-- MUL (R128): Integer multiply, low half. -/
  | mul (f : FmtA)
  /-- MULH (R128): High half of the exact integer product. -/
  | mulh (f : FmtA)
  /-- MAD (R128): Integer multiply-add a times b plus c. -/
  | mad (f : FmtA)
  /-- DIV (R129): Integer division truncating toward zero, never faulting. -/
  | div (f : FmtA)
  /-- REM (R129): Integer remainder with the sign of the dividend, never faulting. -/
  | rem (f : FmtA)
  /-- NEG (R128): Integer negation. -/
  | neg (f : FmtA)
  /-- ABS (R128): Integer absolute value. -/
  | abs (f : FmtA)
  /-- MIN (R128): Integer minimum of two registers. -/
  | min (f : FmtA)
  /-- MAX (R128): Integer maximum of two registers. -/
  | max (f : FmtA)
  /-- ADD_IMM (R130): Integer add of a sign-extended immediate. -/
  | addImm (f : FmtI)
  /-- SUB_IMM (R130): Integer subtract of a sign-extended immediate. -/
  | subImm (f : FmtI)
  /-- MUL_IMM (R130): Integer multiply by a sign-extended immediate. -/
  | mulImm (f : FmtI)
  /-- MIN_IMM (R130): Signed minimum with an immediate. -/
  | minImm (f : FmtI)
  /-- MAX_IMM (R130): Signed maximum with an immediate. -/
  | maxImm (f : FmtI)
  /-- AND (R131): Bitwise AND of two registers. -/
  | and (f : FmtA)
  /-- OR (R131): Bitwise OR of two registers. -/
  | or (f : FmtA)
  /-- XOR (R131): Bitwise XOR of two registers. -/
  | xor (f : FmtA)
  /-- NOT (R131): Bitwise complement. -/
  | not (f : FmtA)
  /-- ANDN (R131): a AND NOT b. -/
  | andn (f : FmtA)
  /-- SHL (R131): Shift left by a register amount. -/
  | shl (f : FmtA)
  /-- SHR (R131): Logical shift right by a register amount. -/
  | shr (f : FmtA)
  /-- SHA (R131): Arithmetic shift right by a register amount. -/
  | sha (f : FmtA)
  /-- ROT (R131): Rotate left by a register amount modulo the width. -/
  | rot (f : FmtA)
  /-- CLZ (R131): Count leading zeros. -/
  | clz (f : FmtA)
  /-- POPC (R131): Population count. -/
  | popc (f : FmtA)
  /-- BREV (R131): Bit reversal. -/
  | brev (f : FmtA)
  /-- BEXT (R132): Bit-field extract at a register position. -/
  | bext (f : FmtA)
  /-- BINS (R132): Bit-field insert at a register position. -/
  | bins (f : FmtA)
  /-- AND_IMM (R131): Bitwise AND with an immediate. -/
  | andImm (f : FmtI)
  /-- OR_IMM (R131): Bitwise OR with an immediate. -/
  | orImm (f : FmtI)
  /-- XOR_IMM (R131): Bitwise XOR with an immediate. -/
  | xorImm (f : FmtI)
  /-- ANDN_IMM (R131): a AND NOT immediate. -/
  | andnImm (f : FmtI)
  /-- SHL_IMM (R131): Shift left by an immediate. -/
  | shlImm (f : FmtI)
  /-- SHR_IMM (R131): Logical shift right by an immediate. -/
  | shrImm (f : FmtI)
  /-- SHA_IMM (R131): Arithmetic shift right by an immediate. -/
  | shaImm (f : FmtI)
  /-- ROT_IMM (R131): Rotate left by an immediate. -/
  | rotImm (f : FmtI)
  /-- CMP (R133): Integer compare writing a predicate register. -/
  | cmp (f : FmtA)
  /-- SEL (R134): Selects per lane between two sources under a predicate. -/
  | sel (f : FmtA)
  /-- MOV (R134): Copies a register to a register of a permitted class. -/
  | mov (f : FmtA)
  /-- MOV_LANE (R134): Extracts one lane or lane pair of a V register into an X register. -/
  | movLane (f : FmtA)
  /-- MOVID (R76): Copies an identifier register into an X or V register. -/
  | movid (f : FmtA)
  /-- LEA (R134): Computes xa plus xb shifted plus a displacement. -/
  | lea (f : FmtA)
  /-- MOVI (R81): Writes an immediate to an X or V destination. -/
  | movi (f : FmtI)
  /-- MOVHI (R81): Writes the immediate into bits 63 to 32 of an X register, keeping the low bits. -/
  | movhi (f : FmtI)
  /-- PFX (R136): Prefix operation over active lanes in ascending order. -/
  | pfx (f : FmtA)
  /-- LNRED (R136): Reduction over active lanes written to every active lane. -/
  | lnred (f : FmtA)
  /-- BCAST (R135): Broadcasts one lane to every active lane. -/
  | bcast (f : FmtA)
  /-- SHUF (R135): Shuffles lanes by per-lane indices. -/
  | shuf (f : FmtA)
  /-- COMPACT (R135): Packs the lanes selected by a predicate toward lane 0. -/
  | compact (f : FmtA)
  /-- EXPAND (R135): Spreads leading lanes to the positions selected by a predicate. -/
  | expand (f : FmtA)
  /-- PAND (R137): Predicate AND, optionally removing failing lanes from the bead. -/
  | pand (f : FmtA)
  /-- POR (R137): Predicate OR. -/
  | por (f : FmtA)
  /-- PXOR (R137): Predicate XOR. -/
  | pxor (f : FmtA)
  /-- PNOT (R137): Predicate complement. -/
  | pnot (f : FmtA)
  /-- PCNT (R137): Writes the popcount of a predicate AND lmask to every active lane. -/
  | pcnt (f : FmtA)
  /-- FADD (R138): Floating-point add with one rounding. -/
  | fadd (f : FmtA)
  /-- FSUB (R138): Floating-point subtract. -/
  | fsub (f : FmtA)
  /-- FMUL (R138): Floating-point multiply. -/
  | fmul (f : FmtA)
  /-- FMA (R138): Fused multiply-add with one rounding. -/
  | fma (f : FmtA)
  /-- FMS (R138): Fused multiply-subtract with one rounding. -/
  | fms (f : FmtA)
  /-- FNMA (R138): Negated fused multiply plus addend. -/
  | fnma (f : FmtA)
  /-- FDIV (R138): Correctly rounded floating-point division. -/
  | fdiv (f : FmtA)
  /-- FSQRT (R138): Correctly rounded square root. -/
  | fsqrt (f : FmtA)
  /-- FRCP (R138): Correctly rounded reciprocal. -/
  | frcp (f : FmtA)
  /-- FRSQ (R138): Correctly rounded reciprocal square root. -/
  | frsq (f : FmtA)
  /-- FMIN (R140): Floating-point minimum with NaN propagation. -/
  | fmin (f : FmtA)
  /-- FMAX (R140): Floating-point maximum with NaN propagation. -/
  | fmax (f : FmtA)
  /-- FABS (R138): Clears the sign bit. -/
  | fabs (f : FmtA)
  /-- FNEG (R138): Inverts the sign bit. -/
  | fneg (f : FmtA)
  /-- FCMP (R140): Floating-point compare writing a predicate register. -/
  | fcmp (f : FmtA)
  /-- FCLASS (R140): Writes a one-hot class of the value. -/
  | fclass (f : FmtA)
  /-- FRINT (R141): Rounds to an integral value exactly. -/
  | frint (f : FmtA)
  /-- FGETEXP (R141): Writes the exact exponent of the value. -/
  | fgetexp (f : FmtA)
  /-- FEXP2F (R141): Computes 2 to the power a for a in [-0.5, 0.5]. -/
  | fexp2f (f : FmtA)
  /-- FEXPINS (R141): Scales by 2 to the power n with one rounding. -/
  | fexpins (f : FmtA)
  /-- FCVT (R143): Converts from a compute-element float type to a format of Table 12. -/
  | fcvt (f : FmtA)
  /-- FCVT_FROM (R143): Converts from a format of Table 12 to a compute-element float type (mod[9] = 1). -/
  | fcvtFrom (f : FmtA)
  /-- FTOI (R143): Converts floating point to a saturated integer. -/
  | ftoi (f : FmtA)
  /-- ITOF (R143): Converts an integer to floating point. -/
  | itof (f : FmtA)
  /-- FPACK (R144): Packs FP32 lanes into one block of a block format with PackBlock. -/
  | fpack (f : FmtA)
  /-- FUNPACK (R144): Unpacks a block of a block format to FP32 lanes. -/
  | funpack (f : FmtA)
  /-- EMIT (R148): Emits the bead or its slots as tokens on the named output ports. -/
  | emit (f : FmtC)
  /-- ROUTE (R148): Sets the tag and emits the bead on the port a register names; the bead leaves. -/
  | route (f : FmtC)
  /-- SPLIT (R149): Splits the bead by a predicate into two beads and emits them. -/
  | split (f : FmtC)
  /-- MERGE (R149): Consumes the partner bead at a side input and merges its lanes. -/
  | merge (f : FmtC)
  /-- RECIRC (R148): Emits the bead on a loop back edge with loopc incremented. -/
  | recirc (f : FmtC)
  /-- ACCEPT (R148): Waits for and consumes a beat at a token side input into a V register and a predicate. -/
  | accept (f : FmtC)
  /-- DROP (R148): Removes the effective-mask lanes from the bead, retiring it if none remain. -/
  | drop (f : FmtC)
  /-- HOLD (R150): Makes the bead wait until older beads and earlier long-latency operations are done. -/
  | hold (f : FmtC)
  /-- NEWB (R148): Emits a new bead built from V registers. -/
  | newb (f : FmtC)
  /-- ENDB (R148): Retires the bead. -/
  | endb (f : FmtC)
  /-- TOK (R148): Emits a STOP of a level, or DONE, on the named ports. -/
  | tok (f : FmtC)
  /-- BARI (R148): Emits a BAR token with a tag on the named ports. -/
  | bari (f : FmtC)
  /-- SWI (R150): Injects SW once shadow-ready holds and switches the element's bank. -/
  | swi (f : FmtC)
  /-- LD (R151): Loads and extends a scalar from a memory space; long latency. -/
  | ld (f : FmtM)
  /-- ST (R151): Stores a scalar, speculatively for PLAIN and VLT. -/
  | st (f : FmtM)
  /-- LDV (R151): Loads 64 bytes into the active lanes of a V register; long latency. -/
  | ldv (f : FmtM)
  /-- STV (R151): Stores the bytes of the active lanes. -/
  | stv (f : FmtM)
  /-- PLD (R154): Presence load, deferred at the bank until the word is written. -/
  | pld (f : FmtM)
  /-- PST (R154): Irrevocable presence store setting presence bits, or PRESDUP. -/
  | pst (f : FmtM)
  /-- PCLEAR (R154): Clears the presence bits of a range. -/
  | pclear (f : FmtM)
  /-- SLD (R197): Reads the value of a key, or 16 keys, of a sparse-tensor region. -/
  | sld (f : FmtM)
  /-- SST (R198): Speculatively inserts, updates or deletes a key of a sparse-tensor region. -/
  | sst (f : FmtM)
  /-- PFETCH (R157): Stages the 256-byte block of an address in the home vault, silently. -/
  | pfetch (f : FmtM)
  /-- FENCE (R156): Orders the element's accesses at a scope, blocking until the condition holds. -/
  | fence (f : FmtM)
  /-- TFENCE (R158): Publishes page-table stores and invalidates overlapping translations within a scope. -/
  | tfence (f : FmtM)
  /-- ATOM (R234): Read-modify-write of a SYNC word at its home sequencer. -/
  | atom (f : FmtY)
  /-- ATOM_TREE (R235): Atomic sent through the combining networks and merged with others before applying. -/
  | atomTree (f : FmtY)
  /-- WAIT (R237): Evaluates a condition on a SYNC word at its home and arms itself until met or timed out. -/
  | wait (f : FmtY)
  /-- HBAR_ARRIVE (R240): Arrives at a barrier word as a release and returns its arrival generation. -/
  | hbarArrive (f : FmtY)
  /-- HBAR_WAIT (R240): Waits until the barrier generation moves past a value. -/
  | hbarWait (f : FmtY)
  /-- HBAR_AW (R240): Arrives at a barrier and waits past its own generation. -/
  | hbarAw (f : FmtY)
  /-- BSYNC (R241): Reckoning bar: waits for the region's engines and atomics, commits, then arrives and waits. -/
  | bsync (f : FmtY)
  /-- CNTR_EV (R242): Reads a die event counter. -/
  | cntrEv (f : FmtY)
  /-- CNTR_TASK (R242): Reads a task counter: replays, split depth, aborts or allowance used. -/
  | cntrTask (f : FmtY)
  /-- TIME (R242): Reads the package time. -/
  | time (f : FmtY)
  /-- TIME_LEFT (R242): Reads the remaining time allowance. -/
  | timeLeft (f : FmtY)
  /-- CPY (R246): Queues a copy command on a copy engine and returns its ticket. -/
  | cpy (f : FmtY)
  /-- DENSE (R246): Queues a command that reads a box of a sparse region into a dense array. -/
  | dense (f : FmtY)
  /-- SPARSIFY (R246): Queues a command that stores the nonzeros of a dense array into a sparse region. -/
  | sparsify (f : FmtY)
  /-- A2A (R247): Queues a command that sends records to destination queues. -/
  | a2a (f : FmtY)
  /-- COLL (R248): Queues a collective among the members of a group. -/
  | coll (f : FmtY)
  /-- CPY_CHAIN (R249): Writes a copy command as a chain entry and appends it to a chain. -/
  | cpyChain (f : FmtY)
  /-- DENSE_CHAIN (R249): Writes a DENSE command as a chain entry and appends it. -/
  | denseChain (f : FmtY)
  /-- SPARSIFY_CHAIN (R249): Writes a SPARSIFY command as a chain entry and appends it. -/
  | sparsifyChain (f : FmtY)
  /-- A2A_CHAIN (R249): Writes an A2A command as a chain entry and appends it. -/
  | a2aChain (f : FmtY)
  /-- COLL_CHAIN (R249): Writes a COLL command as a chain entry and appends it. -/
  | collChain (f : FmtY)
  /-- CHAPP (R252): Appends an entry to a command chain at the descriptor's home sequencer. -/
  | chapp (f : FmtY)
  /-- TASKQ (R254): Enqueues a tile-task from a record, speculatively, returning a handle or 0. -/
  | taskq (f : FmtY)
  /-- LPATCH (R258): Speculatively patches one word of a launch record, applied at commit. -/
  | lpatch (f : FmtY)
  /-- LARM (R259): Irrevocably arms a launch record and returns the arm status. -/
  | larm (f : FmtY)
  /-- MMA (R216): Matrix multiply-accumulate into an accumulator bank. -/
  | mma (f : FmtX)
  /-- MMAS (R218): Matrix multiply-accumulate with an N:32 structured-sparse A operand. -/
  | mmas (f : FmtX)
  /-- MMAW (R217): Matrix multiply-accumulate with B expanded from seed records. -/
  | mmaw (f : FmtX)
  /-- ACCZ (R220): Zeros part of a bank and sets its saturation mode. -/
  | accz (f : FmtX)
  /-- ACCRD (R220): Reads a half row of a bank into a V register. -/
  | accrd (f : FmtX)
  /-- ACCWR (R220): Writes a half row of a bank from a V register. -/
  | accwr (f : FmtX)
  /-- ACCCVT (R221): Reads a bank row and converts it into a V register. -/
  | acccvt (f : FmtX)
  /-- SEEDX (R225): Expands a seed record into a tile in memory. -/
  | seedx (f : FmtX)
  /-- SFIT (R226): Fits coefficients of a seed to a target tile and writes the record. -/
  | sfit (f : FmtX)
  /-- SSRCH (R227): Fits a run of seeds and keeps the record of lowest residual norm. -/
  | ssrch (f : FmtX)
  /-- LSHB (R228): Hashes keys into bucket bits by seeded random projections. -/
  | lshb (f : FmtX)
  /-- TPOSE (R229): Writes the transpose of a tile. -/
  | tpose (f : FmtX)
  /-- QUANT (R229): Quantises FP32 rows into a target format. -/
  | quant (f : FmtX)
  /-- DEQ (R229): Dequantises a tile into FP32, BF16 or FP16. -/
  | deq (f : FmtX)
  /-- LONG_LATENCY_RESULT (R20): A long-latency result arrives, writes its register and sets it full, unblocking readers. -/
  | longLatencyResult (t k : Nat)
  /-- BEADH_ARRIVAL (R18): A bead arrives at a CE input and is accepted if fewer than 8 are in flight. -/
  | beadhArrival (t port : Nat)
  /-- BEAD_START (R126): The CE runs its node program for the next bead in arrival order. -/
  | beadStart (t : Nat)
  /-- TOKEN_BEAD_FORM (R146): At token join inputs, one data beat per input forms a bead. -/
  | tokenBeadForm (t : Nat)
  /-- CE_CONTROL_TOKEN (R147): Matching STOP or DONE tokens at a CE's join inputs are consumed once and copied to every output. -/
  | ceControlToken (t : Nat)
  /-- SEL_JOIN_FIRE (R423): A SEL join takes a control bead and the bead of the input it names. -/
  | selJoinFire (t : Nat)
  /-- ELEMENT_SWITCH (R26): An element that has SW on every input and has drained switches bank and emits SW. -/
  | elementSwitch (t u : Nat)
  /-- BAR_FORWARD (R41): A unit forwards one BAR once it has arrived on all its inputs, counting tag mismatches. -/
  | barForward (t u : Nat)
  /-- LINK_BEAT_RECEIVE (R11): A beat is received on a link, checked and corrected, or refused as malformed with LNKERR. -/
  | linkBeatReceive (t link flips : Nat)
  /-- SW_RT (R165): A switch route word passes a beat from source to destination on credit. -/
  | swRt (t w : Nat)
  /-- SW_FORK (R166): A fork copies a beat to all its destinations once all hold credit. -/
  | swFork (t w : Nat)
  /-- SW_JOIN (R167): A switch join moves the next granule from one of two sources. -/
  | swJoin (t w : Nat)
  /-- ROOT_SOURCE_START (R162): A root stream unit starts its stream in the clk after the region switches. -/
  | rootSourceStart (t u : Nat)
  /-- SCANNER_REF (R174): A scanner takes a REF and emits the fibre's coordinates and references. -/
  | scannerRef (t u : Nat)
  /-- SCANNER_STOP (R174): A scanner takes an input stop and emits it one level higher. -/
  | scannerStop (t u : Nat)
  /-- SCANNER_DONE (R174): A scanner takes DONE or BAR, emits a pending S0 and ends the stream. -/
  | scannerDone (t u : Nat)
  /-- SCANNER_SKIP (R175): A SKIP at skip_in advances the scanner to the first coordinate at least c, or is discarded. -/
  | scannerSkip (t u : Nat)
  /-- SCN_T_SEEK (R201): An index-tree scanner seeks the next committed key and emits its coordinate. -/
  | scnTSeek (t u : Nat)
  /-- MRG_I (R177): An intersecting merge step on the two side heads. -/
  | mrgI (t : Nat)
  /-- MRG_U (R178): A union merge step on the two side heads. -/
  | mrgU (t : Nat)
  /-- RPT_CRD (R180): The repeater emits its held reference for a driving coordinate. -/
  | rptCrd (t : Nat)
  /-- RPT_STOP (R180): The repeater releases its held reference at a driving stop. -/
  | rptStop (t : Nat)
  /-- RPT_DONE (R180): The repeater consumes ref_in up to its DONE and emits DONE. -/
  | rptDone (t : Nat)
  /-- RDC_VAL (R182): The reducer folds the valid lanes of a VAL beat. -/
  | rdcVal (t : Nat)
  /-- RDC_STOP (R182): The reducer emits the fibre's value at a stop. -/
  | rdcStop (t : Nat)
  /-- RDC_DONE (R182): The reducer emits any open value and DONE. -/
  | rdcDone (t : Nat)
  /-- LWR_ENTRY (R184): A level writer writes a coordinate and value pair. -/
  | lwrEntry (t : Nat)
  /-- LWR_STOP (R184): A level writer closes a fibre, writing segments or held stops. -/
  | lwrStop (t : Nat)
  /-- LWR_DONE (R184): A level writer completes its writes and passes DONE. -/
  | lwrDone (t : Nat)
  /-- LWR_T_STORE (R202): LWR.T forms a key and performs a speculative tree store. -/
  | lwrTStore (t : Nat)
  /-- AG_AFF (R187): An AG port produces an affine pass or a value by reference. -/
  | agAff (t p : Nat)
  /-- AG_IND (R188): An AG port hands an indirect stream to the ISE. -/
  | agInd (t p : Nat)
  /-- ISE_PARAM_READ (R189): The ISE reads and checks the parameter block at the start of a configuration period. -/
  | iseParamRead (t p : Nat)
  /-- ISE_VALUE_RETURN (R189): The ISE returns gathered values in index order. -/
  | iseValueReturn (t p : Nat)
  /-- AG_WR (R190): An AG port writes received values affinely or by reference. -/
  | agWr (t p : Nat)
  /-- XF_TPOSE (R191): A transform node transposes groups of beats. -/
  | xfTpose (t : Nat)
  /-- XF_QUANT (R191): A transform node packs FP32 lanes into blocks. -/
  | xfQuant (t : Nat)
  /-- XF_SCALE (R191): A transform node scales each VAL lane by a constant. -/
  | xfScale (t : Nat)
  /-- XF_BMAP (R191): A transform node turns coordinate fibres into bitmap words. -/
  | xfBmap (t : Nat)
  /-- MATRIX_OPERAND_PHASE (R214): The matrix cell reads and checks all operands of an instruction, faulting precisely. -/
  | matrixOperandPhase (t : Nat)
  /-- MATRIX_COMPUTE_COMPLETE (R206): A compute phase completes and updates its bank. -/
  | matrixComputeComplete (t : Nat)
  /-- HSQ_ATOM_APPLY (R234): The home sequencer applies an atomic as one step and re-evaluates armed waits. -/
  | hsqAtomApply (v : Nat)
  /-- HSQ_BARRIER_ARRIVAL (R240): The home sequencer applies a combined group of barrier arrivals. -/
  | hsqBarrierArrival (v : Nat)
  /-- COMBINING_ARRIVAL (R41): A combining node forwards one arrival once all participants below have arrived. -/
  | combiningArrival (k : Nat)
  /-- TREE_HOLD_EXPIRY (R235): A combining node's 8-clk hold of tree atomics expires and it forwards the merged group. -/
  | treeHoldExpiry (k : Nat)
  /-- WAIT_TIMEOUT (R237): An armed wait's deadline passes and it is released with TIMEOUT. -/
  | waitTimeout (k : Nat)
  /-- WAIT_DEQUEUE (R238): A queued WAIT reaches the head of its HSQ queue and is evaluated. -/
  | waitDequeue (v c : Nat)
  /-- BSYNC_PROCEED (R241): Once the region's engines and atomics are done, BSYNC commits and arrives. -/
  | bsyncProceed (r : Nat)
  /-- IDXFULL_REISSUE (R200): A unit stopped on IDXFULL is reissued when nodes are freed. -/
  | idxfullReissue (r : Nat)
  /-- ENGINE_COMMAND_START (R245): A command reaches the head of its engine queue, is checked and started. -/
  | engineCommandStart (d e c : Nat)
  /-- ENGINE_COMMAND_COMPLETE (R244): A command completes: release, cw write and sequence advance. -/
  | engineCommandComplete (d e c : Nat)
  /-- ENGINE_FAULT (R250): A command faults part-way and stops or waits for replay. -/
  | engineFault (d e c : Nat)
  /-- A2A_DELIVERY (R247): A record is delivered whole to a queue or ring at its home sequencer, or held. -/
  | a2aDelivery (d e c : Nat)
  /-- A2A_RESUME (R247): A held A2A command resumes when the consumer frees space. -/
  | a2aResume (d e c : Nat)
  /-- COLL_MATCH (R248): Matching COLLs of a group run the collective and check agreement. -/
  | collMatch (d e c : Nat)
  /-- CHAIN_WALK (R366): An engine runs the entry at a chain's head and advances the chain at completion. -/
  | chainWalk (d e c : Nat)
  /-- MIT_BLOCK_READ (R288): The MIT fetches a compressed block by its tag and checks it. -/
  | mitBlockRead (k : Nat)
  /-- MIT_REFETCH (R288): A malformed block is refetched, then read from the replica, then DECMP. -/
  | mitRefetch (k : Nat)
  /-- COUNTER_HALVING (R289): Every 2^26 clk every access counter of the die is halved. -/
  | counterHalving (d : Nat)
  /-- TFENCE_ACK (R158): A unit acknowledges a translation fence after invalidating entries. -/
  | tfenceAck (k : Nat)
  /-- TIME_ALLOWANCE_EXPIRY (R34): A task's time allowance runs out and it exhausts. -/
  | timeAllowanceExpiry (r : Nat)
  /-- ADMISSION_AGE_EXPIRY (R37): A ready task reaches its admission age and splits or gains a reservation. -/
  | admissionAgeExpiry (h : Nat)
  /-- EXHAUSTION (R35): An exhausted speculative task stops its sources and starts a drain; an irrevocable one raises RESX. -/
  | exhaustion (r cause : Nat)
  /-- QUIESCENCE_REPORT (R24): The occupancy tree reports the region empty, allowing commit, swap or release. -/
  | quiescenceReport (r : Nat)
  /-- DEPENDENCE_DECREMENT (R361): A predecessor's completion decrements a dependent task's count. -/
  | dependenceDecrement (h : Nat)
  /-- ALLOCATE (R362): The die allocator places ready tasks on free rectangles of a variant. -/
  | allocate (d : Nat)
  /-- LOADER_READ (R59): The loader reads up to 16 frame entries and sends them to their tiles. -/
  | loaderRead (r : Nat)
  /-- VERIFICATION_PASS (R60): After the last write the loader verifies switch words and the signature and sets shadow-ready. -/
  | verificationPass (r : Nat)
  /-- SUCCESSOR_PRELOAD (R47): The loader starts a shadow load of the successor image once the region has switched. -/
  | successorPreload (r : Nat)
  /-- CONFIG_SCRUB (R69): Every 2^20 clk the region signature is recomputed over the active bank. -/
  | configScrub (r : Nat)
  /-- CONFIG_REPAIR_COMPLETE (R70): The rewritten bank's signature is compared and the region resumes or the tile is fenced. -/
  | configRepairComplete (r : Nat)
  /-- LAUNCH_ARM (R352): A host write covering w14 of a launch record arms it. -/
  | launchArm (c n : Nat)
  /-- LAUNCH_START (R257): An idle record with dcnt 0 becomes RUNNING and sends its launch packet. -/
  | launchStart (c n : Nat)
  /-- LAUNCH_PACKET (R358): A die receives a launch packet and enqueues its pieces. -/
  | launchPacket (d k : Nat)
  /-- PENDING_PIECE_ENQUEUE (R360): A pending piece enters its queue when two slots free. -/
  | pendingPieceEnqueue (d : Nat)
  /-- DIE_REPORT (R359): A die reports when all its tasks of the launch have completed. -/
  | dieReport (d k : Nat)
  /-- REMOVAL_COMPLETE (R390): The removal steps end and the context becomes FREE. -/
  | removalComplete (c : Nat)
  /-- FAULT_POST (R354): A fault record is written to the ring and fqtail advances, or it is held or dropped. -/
  | faultPost (d c : Nat)
  /-- HELD_RECORD_POST (R354): A held record is posted when a ring slot frees. -/
  | heldRecordPost (d c : Nat)
  /-- PREEMPT_END (R385): A boundary or abort pre-emption ends when no task of the context runs. -/
  | preemptEnd (c : Nat)
  /-- SAVE_COMPLETE (R387): Scan-out of a region ends, its directory entry is written and it is released. -/
  | saveComplete (r : Nat)
  /-- REGION_RESTORE (R388): A saved region is placed, read back, rebased and resumed. -/
  | regionRestore (c : Nat)
  /-- CHECK_COMPLETE (R395): The image fetch and checks end, entering INIT or RECOVERY. -/
  | checkComplete
  /-- WATCHDOG_EXPIRY (R396): A controller's watchdog lapses and the package enters RECOVERY. -/
  | watchdogExpiry (d : Nat)
  /-- ATTEST_RESPONSE (R400): The response is written and attst becomes done or error. -/
  | attestResponse (ok : Bool)
  /-- POWER_SAMPLE (R404): Every 2^16 clk each controller samples power and temperatures. -/
  | powerSample (d watts celsius : Nat)
  /-- THROTTLE_UPDATE (R404): Once per millisecond the throttle state is chosen. -/
  | throttleUpdate
  /-- PATROL_SCRUB (R403): Scrubbers read every word each 2^34 clk and write back corrections. -/
  | patrolScrub (a : Nat)
  /-- POD_BARRIER_RELEASE (R416): The pod root releases a combined barrier down the tree. -/
  | podBarrierRelease (k : Nat)
  /-- BSYNC_DEADLINE (R241): The 2^tmo deadline of a BSYNC passes while it is still in step 1, and BSYNC returns TIMEOUT without committing or
  arriving. -/
  | bsyncDeadline (r : Nat)
  /-- OUTPUT_BEAT_8_CLK (R161): A stream unit closes and emits its partial output beat when 8 clk pass without another token of the fibre. -/
  | outputBeat8Clk (t u : Nat)
  /-- RD (R345): A read transaction returning words in a completion. -/
  | rd (h : TxHdr)
  /-- WR (R345): A posted write transaction. -/
  | wr (h : TxHdr) (data : List Word)
  /-- WRC (R345): A non-posted write transaction returning a status. -/
  | wrc (h : TxHdr) (data : List Word)
  /-- APPEND (R367): A host append of an entry to a command chain. -/
  | append (h : TxHdr) (data : List Word)
  /-- FLUSH (R345): Completes when every earlier transaction of its class is performed. -/
  | flush (h : TxHdr)
  /-- HOST_TFENCE (R375): A host translation fence invalidating translations package-wide. -/
  | hostTfence (h : TxHdr) (data : List Word)
  /-- CPL (R345): A completion for an earlier request arrives. -/
  | cpl (h : TxHdr) (data : List Word)
  /-- UCIE_CRC_REPLAY (R344): A link unit whose CRC fails is replayed. -/
  | ucieCrcReplay (m : Nat)
  /-- UCIE_MODULE_FAIL (R343): A UCIe module fails training and the link runs on the rest. -/
  | ucieModuleFail (m : Nat)
  /-- CONTEXT_ACTIVATE (R350): A write of state 1 checks and activates a context. -/
  | contextActivate (c : Nat)
  /-- CONTEXT_REMOVE (R390): A write of state 2 starts removal of a context. -/
  | contextRemove (c : Nat)
  /-- FQHEAD_WRITE (R355): The host writes fqhead, clearing notify pending and renotifying if records remain. -/
  | fqheadWrite (c : Nat) (v : Word)
  /-- HERR_CLEAR (R348): A write of 0 to HERR clears the host error log. -/
  | herrClear
  /-- REGISTER_WRITE (R348): A write to a control-block register without its own behaviour, refused if out of range. -/
  | registerWrite (off : Nat) (v : Word)
  /-- RESUME (R381): Reissues the faulting access or continues a frozen task, loader or engine. -/
  | resume (k : CmdWords)
  /-- ABORT (R381): Aborts a frozen speculative task and re-enqueues it whole. -/
  | abort (k : CmdWords)
  /-- KILL (R381): Drains a frozen task and completes its launch with FAULT, or fails an engine command. -/
  | kill (k : CmdWords)
  /-- SKIP (R381): Skips a faulted engine command, as KILL for an engine. -/
  | skip (k : CmdWords)
  /-- RETRY (R381): Re-enqueues a SMALLEST task whole. -/
  | retry (k : CmdWords)
  /-- PREEMPT_BOUNDARY (R385): Stops issue of a context and lets running tasks end. -/
  | preemptBoundary (k : CmdWords)
  /-- PREEMPT_ABORT (R385): Stops issue and aborts speculative tasks of a context. -/
  | preemptAbort (k : CmdWords)
  /-- PREEMPT_FREEZE_SAVE (R385): Stops and saves every region of a context on the named dies. -/
  | preemptFreezeSave (k : CmdWords)
  /-- RESUMECTX (R388): Restores the saved regions of a context and re-enables issue. -/
  | resumectx (k : CmdWords)
  /-- GO (R395): A write of go starts the firmware fetch and check. -/
  | go
  /-- RESET (R396): A write of reset returns the package to ROM. -/
  | reset
  /-- POWER_ON_RESET (R395): The package powers up and runs the ROM stage. -/
  | powerOnReset (failed : BitVec 4)
  /-- INIT_COMPLETE (R395): INIT ends with LIVE formed and the package READY. Dies, tiles and HBM channels that failed their tests. -/
  | initComplete (failed : BitVec 4) (parts : InitParts)
  /-- ATTEST_QUOTE (R400): attop 1 requests a signed quote of the measurements. -/
  | attestQuote
  /-- ATTEST_CERT_CHAIN (R400): attop 2 requests the DIK and alias certificates. -/
  | attestCertChain
  /-- THERMAL_TRIP (R407): A junction at 115 °C stops firing and enters RECOVERY. -/
  | thermalTrip (d : Nat)
  /-- ECC_ERROR (R401): A storage error is corrected or becomes uncorrectable with its listed outcome. -/
  | eccError (e : EccSite) (double : Bool)
  /-- TILE_FENCE (R418): A tile is fenced and its task handled. -/
  | tileFence (t : Nat)
  /-- VAULT_FENCE (R418): A vault and its 9 tiles are fenced. -/
  | vaultFence (v : Nat)
  /-- HBM_CHANNEL_FENCE (R418): An HBM channel is fenced. -/
  | hbmChannelFence (stack ch : Nat)
  /-- DIE_FENCE (R419): A die leaves LIVE and its work is moved or ended. -/
  | dieFence (d : Nat)
  /-- PORT_FENCE (R418): A lattice port is fenced and routing changes. -/
  | portFence (p : Nat)
  /-- FLIT_RECEIVE (R408): A lattice flit is received and routed. -/
  | flitReceive (p : Nat) (f : Flit)
  /-- FLIT_CRC_RETRY (R408): A flit whose CRC fails is retried on its link. -/
  | flitCrcRetry (p : Nat)
  /-- PORT_RETRAIN (R408): A lattice port retrains. -/
  | portRetrain (p : Nat) (ok : Bool)
  /-- KEEPALIVE_LOSS (R413): Missed keep-alives show a lost neighbour and its ports are fenced. -/
  | keepaliveLoss (p : Nat)
  /-- PODCFG_WRITE (R414): A write of pod configuration, performed only in READY with every context FREE. -/
  | podcfgWrite (v : Word)
  /-- MONCTL_SET (R417): Sets the source of an event counter and clears it. -/
  | monctlSet (v : Word)
  /-- MONCTL_CLR (R417): Clears an event counter. -/
  | monctlClr (v : Word)
  /-- PORT_TRAINING_COMPLETE (R414): A lattice port finishes training and goes from training to up, so routing can use it, for example toward a
  spare package. -/
  | portTrainingComplete (p : Nat)
  deriving DecidableEq, Repr

end Sys2Proof
end

