-- ==== Sys2Proof/Machine/Checks.lean ====
section
/-! DEFINITION. Which words the loader accepts, apart from what the element's header decides (R74, R79 to R87, R127,
and each instruction's own entry). A word may break several checks; `Flaws.reason` names the one with the lowest
reason code of Table 7 of R64 (OPC 0, RSVF 1, REG 2, FMT 3). An event of the part has no word and is accepted as it
stands. -/

namespace Sys2Proof

/-- Reasons for which a word is refused at load (R64 Table 7, codes 0 to 3). -/
inductive Reject where
  | opc | rsvf | reg | fmt
  deriving DecidableEq, Repr

/-- What is wrong with a word: one flag for each of RSVF, REG and FMT. -/
structure Flaws where
  rsvf : Bool := false
  reg  : Bool := false
  fmt  : Bool := false
  deriving DecidableEq, Repr

/-- The reason reported: the lowest code among the flaws (R64). -/
def Flaws.reason (f : Flaws) : Option Reject :=
  if f.rsvf then some .rsvf else if f.reg then some .reg else if f.fmt then some .fmt else none

def Flaws.or (a b : Flaws) : Flaws :=
  { rsvf := a.rsvf || b.rsvf, reg := a.reg || b.reg, fmt := a.fmt || b.fmt }

/-- Operand classes (R74). -/
inductive Cls where
  | none | x | v | s | p | id
  deriving DecidableEq, Repr

namespace Spec

/-- x0 to x31 are specifiers 0 to 31 (Table 2 of R74). -/
def isX (r : BitVec 6) : Bool := r.toNat < 32
/-- v0 to v15 or b0 to b7. -/
def isV (r : BitVec 6) : Bool := 32 ≤ r.toNat && r.toNat < 56
/-- p0 to p7. -/
def isP (r : BitVec 6) : Bool := 56 ≤ r.toNat
/-- A slot register b0 to b7. -/
def isB (r : BitVec 6) : Bool := 48 ≤ r.toNat && r.toNat < 56

/-- A specifier outside its operand's class raises REG; a field not used is reserved. -/
def clsFlaw (c : Cls) (r : BitVec 6) : Flaws :=
  match c with
  | .none => { rsvf := r != 0 }
  | .x => { reg := !isX r }
  | .v => { reg := !isV r }
  | .s => { reg := !(isX r || isV r) }
  | .p => { reg := !isP r }
  | .id => { reg := 10 < r.toNat }

/-- The width in bits of a type code of Table 9 (R87); 0 for a reserved code. -/
def tyWidth (ty : Nat) : Nat :=
  match ty with
  | 0 => 8 | 1 => 16 | 2 => 32 | 3 => 64 | 4 => 8 | 5 => 16 | 6 => 32 | 7 => 64
  | 8 => 16 | 9 => 16 | 10 => 32 | 11 => 64 | _ => 0

/-- Whether a type code is an INT type (two's complement). -/
def tyInt (ty : Nat) : Bool := ty < 4

/-- pg = 0 with ps = 1 raises FMT (R78). -/
def predFlaw (pg : BitVec 3) (ps : BitVec 1) : Flaws := { fmt := pg == 0 && ps == 1 }

/-- What an entry of Format A accepts. -/
structure AEntry where
  dst : Cls
  sa  : Cls
  sb  : Cls := .none
  sc  : Cls := .none
  tys : List Nat := [0]     -- [0]: a dash, ty must be 0
  rms : List Nat := [0]     -- [0]: a dash, rm must be 0
  sat : Bool := false
  mods : BitVec 10 := 0     -- the modifier bits the entry names

def feFlaw (f : FmtA) (e : AEntry) : Flaws :=
  { rsvf := (f.fe.getLsbD 2 && e.sa == .none) || (f.fe.getLsbD 1 && e.sb == .none) || (f.fe.getLsbD 0 && e.sc == .none) }

/-- In scalar shape every register source is of class X (R123); P sources and identifiers are apart from this. -/
def shapeFlaw (f : FmtA) (e : AEntry) : Flaws :=
  let bad (c : Cls) (r : BitVec 6) : Bool := c == .s && isV r
  { reg := e.dst == .s && isX f.dst && (bad e.sa f.sa || bad e.sb f.sb || bad e.sc f.sc) }

def aFlaw (e : AEntry) (f : FmtA) : Flaws :=
  (clsFlaw e.dst f.dst).or <| (clsFlaw e.sa f.sa).or <| (clsFlaw e.sb f.sb).or <| (clsFlaw e.sc f.sc).or <|
  (predFlaw f.pg f.ps).or <| (feFlaw f e).or <| (shapeFlaw f e).or
  { rsvf := (f.mod &&& ~~~e.mods) != 0
    fmt := !e.tys.contains f.ty.toNat || !e.rms.contains f.rm.toNat || (f.sat == 1 && !e.sat) }

def ints : List Nat := [0, 1, 2, 3, 4, 5, 6, 7]
def floats : List Nat := [8, 9, 10, 11]
def ieeeRm : List Nat := [0, 1, 2, 3]

/-- Table 1 of R128. -/
def arith (n : Nat) (sat : Bool) (f : FmtA) : Flaws :=
  aFlaw { dst := .s, sa := .s, sb := if n ≥ 2 then .s else .none, sc := if n ≥ 3 then .s else .none, tys := ints, sat := sat } f

/-- ADDS and SUBS: mod[5:0] is s < w. -/
def arithShift (f : FmtA) : Flaws :=
  (aFlaw { dst := .s, sa := .s, sb := .s, tys := ints, sat := true, mods := 0x3F } f).or
  { fmt := ints.contains f.ty.toNat && tyWidth f.ty.toNat ≤ (f.mod.extractLsb' 0 6).toNat }

/-- BEXT and BINS: mod[5:0] is len − 1 with len ≤ w. -/
def bitField (n : Nat) (f : FmtA) : Flaws :=
  (aFlaw { dst := .s, sa := .s, sb := .s, sc := if n ≥ 3 then .s else .none, tys := ints, mods := 0x3F } f).or
  { fmt := ints.contains f.ty.toNat && tyWidth f.ty.toNat < (f.mod.extractLsb' 0 6).toNat + 1 }

/-- CMP (R133) and FCMP (R140): both X, or V with a type of 32 or 64 bits. -/
def compare (tys : List Nat) (ccs : Nat) (f : FmtA) : Flaws :=
  (aFlaw { dst := .p, sa := .s, sb := .s, tys := tys, mods := 0xF } f).or
  { fmt := ccs ≤ (f.mod.extractLsb' 0 4).toNat || ((isV f.sa || isV f.sb) && tyWidth f.ty.toNat < 32) }

/-- MOV without a lane (R134 Table 3): X from X, V from S, P from P. -/
def mov (f : FmtA) : Flaws :=
  let ok := (isX f.dst && isX f.sa) || (isV f.dst && (isX f.sa || isV f.sa)) || (isP f.dst && isP f.sa)
  (clsFlaw .none f.sb).or <| (clsFlaw .none f.sc).or <| (predFlaw f.pg f.ps).or
  { reg := !ok, rsvf := f.mod != 0 || f.fe.getLsbD 1 || f.fe.getLsbD 0, fmt := f.sat == 1 || f.ty != 0 || f.rm != 0 }

/-- MOV of a lane or a lane pair (R134 Table 3). -/
def movLane (f : FmtA) : Flaws :=
  (aFlaw { dst := .x, sa := .v, tys := [2, 6, 10, 3, 7, 11], mods := 0xF } f).or
  { fmt := tyWidth f.ty.toNat == 64 && f.mod.getLsbD 0 }

/-- PFX and LNRED (R135): op in mod[3:1]; FP32 accepts add, min and max. -/
def laneOp (excl : Bool) (f : FmtA) : Flaws :=
  let op := (f.mod.extractLsb' 1 3).toNat
  let fp := f.ty == 0x0A
  (aFlaw { dst := .v, sa := .v, tys := [2, 6, 10], rms := ieeeRm, sat := true, mods := 0xF } f).or
  { fmt := op > 5 || (fp && op > 2) || (f.sat == 1 && (fp || op != 0)) || (f.rm != 0 && !(fp && op == 0))
      || (!excl && f.mod.getLsbD 0) }

/-- A floating-point entry of Table 5 of R138 with n sources. -/
def fp (n : Nat) (rms : List Nat) (sat : Bool) (f : FmtA) : Flaws :=
  aFlaw { dst := .s, sa := .s, sb := if n ≥ 2 then .s else .none, sc := if n ≥ 3 then .s else .none,
          tys := floats, rms := rms, sat := sat } f

/-- The element width of a matrix format code that FCVT takes (Table 12 of R87, codes 0 to 7). -/
def cvtWidth (c : Nat) : Nat :=
  match c with
  | 0 => 32 | 1 => 16 | 2 => 16 | 3 => 8 | 4 => 8 | 5 => 6 | 6 => 6 | 7 => 4 | _ => 0

/-- The part p of R142 and the rule on 6-bit formats in vector shape. -/
def partFlaw (f : FmtA) (wS wD : Nat) : Flaws :=
  let p := (f.mod.extractLsb' 6 3).toNat
  let hi := max wS wD
  let lo := min wS wD
  { fmt := if wS = 0 ∨ wD = 0 then true
      else if isX f.dst then p != 0
      else lo == 6 || (lo != 0 && hi / lo ≤ p) }

def fcvt (f : FmtA) : Flaws :=
  let w := f.mod.getLsbD 5
  let c := (f.mod.extractLsb' 0 5).toNat
  (aFlaw { dst := .s, sa := .s, tys := floats, rms := [0, 1, 2, 3, 4, 5], sat := true, mods := 0x1FF } f).or <|
  (partFlaw f (tyWidth f.ty.toNat) (if w then 64 else cvtWidth c)).or
  { fmt := (if w then c != 0 else c > 7) || (f.rm.toNat > 3 && (w || cvtWidth c > 8)) }

def fcvtFrom (f : FmtA) : Flaws :=
  let c := (f.mod.extractLsb' 0 5).toNat
  (aFlaw { dst := .s, sa := .s, tys := floats, rms := ieeeRm, sat := true, mods := 0x3FF } f).or <|
  (partFlaw f (cvtWidth c) (tyWidth f.ty.toNat)).or { fmt := c > 7 || f.mod.getLsbD 5 }

def ftoi (f : FmtA) : Flaws :=
  (aFlaw { dst := .s, sa := .s, tys := floats, rms := ieeeRm, mods := 0x1DF } f).or <|
  (partFlaw f (tyWidth f.ty.toNat) (tyWidth (f.mod.extractLsb' 0 3).toNat)).or
  { fmt := f.mod.extractLsb' 3 2 != 0 }

def itof (f : FmtA) : Flaws :=
  let w := f.mod.getLsbD 5
  let c := (f.mod.extractLsb' 0 5).toNat
  (aFlaw { dst := .s, sa := .s, tys := ints, rms := ieeeRm, sat := true, mods := 0x1FF } f).or <|
  (partFlaw f (tyWidth f.ty.toNat) (if w then 64 else cvtWidth c)).or { fmt := if w then c != 0 else c > 2 }

/-- Block formats: code 8 and codes 15 to 22 (R144). -/
def isBlock (c : Nat) : Bool := c == 8 || (15 ≤ c && c ≤ 22)
/-- Elements in a block (R104 Table 6). -/
def blockSize (c : Nat) : Nat := if c == 8 || c == 21 then 16 else 32

def fpack (f : FmtA) : Flaws :=
  let c := (f.mod.extractLsb' 0 5).toNat
  (aFlaw { dst := .v, sa := .v, sb := if blockSize c = 16 then .none else .v, tys := [10], rms := [0, 1, 2, 3, 4, 5], mods := 0x1F } f).or
  { fmt := !isBlock c }

def funpack (f : FmtA) : Flaws :=
  let c := (f.mod.extractLsb' 0 5).toNat
  (aFlaw { dst := .v, sa := .v, tys := [10], rms := ieeeRm, sat := true, mods := 0x5F } f).or
  { fmt := !isBlock c || (f.mod.getLsbD 6 && blockSize c == 16) }

/-- Format I with a register source (R130, R131, R81). -/
def immOp (shift : Bool) (f : FmtI) : Flaws :=
  (clsFlaw .s f.dst).or <| (clsFlaw .s f.sa).or <| (predFlaw f.pg f.ps).or
  { reg := isX f.dst && isV f.sa, fmt := shift && (if isX f.dst then 64 ≤ f.imm.toNat else 32 ≤ f.imm.toNat) }

def sysI (dst : Cls) (immOk : Bool) (immUsed : Bool) (f : FmtI) : Flaws :=
  (clsFlaw dst f.dst).or <| (clsFlaw .none f.sa).or <| (predFlaw f.pg f.ps).or
  { rsvf := f.fe == 1 || (!immUsed && f.imm != 0), fmt := immUsed && !immOk }

def popc4 (b : BitVec 4) : Nat :=
  (if b.getLsbD 0 then 1 else 0) + (if b.getLsbD 1 then 1 else 0) + (if b.getLsbD 2 then 1 else 0) + (if b.getLsbD 3 then 1 else 0)

/-- Which fields an entry of Format C names (Table 8 of R148). -/
structure CEntry where
  pin : Bool := false
  pout : Bool := false
  smask : Bool := false
  sa : Cls := .none
  feOk : Bool := false
  tgt : BitVec 8 := 0
  lvl : Bool := false

def cFlaw (e : CEntry) (f : FmtC) : Flaws :=
  (clsFlaw e.sa f.sa).or <| (predFlaw f.pg f.ps).or
  { rsvf := (!e.pin && f.pin != 0) || (!e.pout && f.pout != 0) || (!e.smask && f.smask != 0)
      || (f.tgt &&& ~~~e.tgt) != 0 || (!e.lvl && f.lvl != 0) || (f.fe == 1 && !e.feOk) }

def onePin (f : FmtC) : Flaws := { fmt := popc4 f.pin != 1 }
def onePout (f : FmtC) : Flaws := { fmt := popc4 f.pout != 1 }

/-- Which values an entry of Format M accepts (Table 9 of R151). -/
structure MEntry where
  xs : List Nat := []       -- sizes with an X register
  vs : List Nat := []       -- sizes with a V register
  regUsed : Bool := true
  regSrc : Bool := false
  baseUsed : Bool := true
  pair : Bool := false      -- SLD and SST: a size the register's class does not take is a field value (R197)
  spaces : List Nat
  ords : List Nat

/-- What breaks an entry of Format M. A nonzero reg or sz of PFETCH is a value outside the lists of R151: FMT. The unused fields of FENCE are
RSVF. -/
def mFlaw (e : MEntry) (f : FmtM) : Flaws :=
  let sz := f.sz.toNat
  (predFlaw f.pg f.ps).or
  { rsvf := (!e.baseUsed && !e.regUsed && f.reg != 0) || (!e.baseUsed && (f.base != 0 || f.off != 0 || f.sz != 0 || f.space != 0))
      || (f.fe.getLsbD 1 && !e.regSrc) || (f.fe.getLsbD 0 && !e.baseUsed)
    reg := (e.baseUsed && !isX f.base)
      || (e.regUsed && (if e.vs.isEmpty then !isX f.reg else if e.xs.isEmpty then !isV f.reg else
          !(isX f.reg || isV f.reg) || (!e.pair && (isX f.reg && e.vs.contains sz || isV f.reg && e.xs.contains sz))))
    fmt := (e.regUsed && !(e.xs.contains sz || e.vs.contains sz))
      || (e.pair && (isX f.reg && e.vs.contains sz || isV f.reg && e.xs.contains sz)) || (!e.regUsed && e.baseUsed && (f.reg != 0 || sz != 0))
      || (e.baseUsed && !e.spaces.contains f.space.toNat) || !e.ords.contains f.ord.toNat || f.scope == 7 }

/-- SLD and SST name an even base register pair x2 to x30 (R197). -/
def pairBase (f : FmtM) : Flaws := { reg := !(isX f.base && f.base.getLsbD 0 == false && f.base != 0) }

/-- Which fields an entry of Format Y uses. -/
structure YEntry where
  dst : Cls := .x
  sa : Cls := .x
  sb : Cls := .none
  sc : Cls := .none
  aops : List Nat := [0]
  scopes : List Nat := [0, 1, 2, 3, 4, 5, 6]   -- [0] alone: the scope field is reserved
  ords : List Nat := [0]
  flg : BitVec 5 := 0
  tmo : Bool := false

def yFlaw (e : YEntry) (f : FmtY) : Flaws :=
  (clsFlaw e.dst f.dst).or <| (clsFlaw e.sa f.sa).or <| (clsFlaw e.sb f.sb).or <| (clsFlaw e.sc f.sc).or <| (predFlaw f.pg f.ps).or
  { rsvf := (f.fe.getLsbD 2 && e.sa == .none) || (f.fe.getLsbD 1 && e.sb == .none) || (f.fe.getLsbD 0 && e.sc == .none)
      || (f.flg &&& ~~~e.flg) != 0 || (!e.tmo && f.tmo != 0) || (e.aops == [0] && f.aop != 0) || (e.scopes == [0] && f.scope != 0)
      || (e.ords == [0] && f.ord != 0)
    fmt := (e.aops != [0] && !e.aops.contains f.aop.toNat) || (e.scopes != [0] && !e.scopes.contains f.scope.toNat)
      || (e.ords != [0] && !e.ords.contains f.ord.toNat) }

/-- ATOM (R233); flg bits are word bits 5 to 9. -/
def atom (f : FmtY) : Flaws :=
  (yFlaw { sb := .x, sc := if f.aop == 8 then .x else .none, aops := [0, 1, 2, 3, 4, 5, 6, 7, 8], ords := [0, 1, 2, 3], flg := 0x0F } f).or
  { fmt := f.flg.getLsbD 1 || (f.flg.getLsbD 2 && !(f.aop == 2 || f.aop == 3)) }

/-- A tree ATOM (R235). -/
def atomTree (f : FmtY) : Flaws :=
  (atom f).or { reg := f.dst != 0, fmt := f.aop.toNat > 6 || (f.aop == 1 && !f.flg.getLsbD 0) || f.ord.getLsbD 0 || f.scope.toNat < 2 || f.scope.toNat > 5 }

/-- WAIT (R236). -/
def wait (f : FmtY) : Flaws :=
  (yFlaw { sb := .x, aops := [0, 1, 2, 3, 4, 5, 6, 7], ords := [0, 1], flg := 0x07, tmo := true } f).or
  { reg := f.dst == 0, fmt := f.flg.getLsbD 1 || (f.flg.getLsbD 2 && !(2 ≤ f.aop.toNat && f.aop.toNat ≤ 5)) }

/-- HBAR (R239): aop tells the form. -/
def hbar (f : FmtY) : Flaws :=
  yFlaw { sb := .x, aops := [0, 1, 2], scopes := [2, 3, 4, 5], tmo := f.aop != 0 } f

def bsync (f : FmtY) : Flaws := yFlaw { sb := .x, scopes := [3, 4, 5], tmo := true } f
def cntr (f : FmtY) : Flaws := yFlaw { sa := .none, sb := .x, aops := [0, 1], scopes := [0] } f
def time (f : FmtY) : Flaws := yFlaw { sa := .none, aops := [0, 1], scopes := [0] } f

/-- The engine commands (R243): flg bit 0 is word bit 5, the chain form. -/
def engine (coll : Bool) (f : FmtY) : Flaws :=
  yFlaw { sb := .v, sc := if f.flg.getLsbD 0 then .x else .none, aops := if coll then [0, 1, 2, 3, 4] else [0],
          ords := [0, 1, 2, 3], flg := 0x01 } f

def chapp (f : FmtY) : Flaws := yFlaw { sb := .x, ords := [0, 2] } f
def taskq (f : FmtY) : Flaws := yFlaw { scopes := [0] } f
def lpatch (f : FmtY) : Flaws :=
  (yFlaw { sb := .x, scopes := [0], flg := 0x1F } f).or
  { fmt := !(f.flg.toNat ≤ 10 || (15 ≤ f.flg.toNat && f.flg.toNat ≤ 22)) }
def larm (f : FmtY) : Flaws := yFlaw { ords := [0, 2] } f

/-- The pair rule of R84: even, from 2 to 30. -/
def pairFlaw (r : BitVec 6) : Flaws := { reg := !(isX r && !r.getLsbD 0 && r != 0) }
def operandFlaw (kind : BitVec 1) (r : BitVec 6) : Flaws := if kind = 1 then pairFlaw r else clsFlaw .v r

/-- Bits of an element of a matrix format, side records apart (R98 to R105). -/
def matWidth (c : Nat) : Nat :=
  match c with
  | 0 => 32 | 1 => 16 | 2 => 16 | 3 => 8 | 4 => 8 | 5 => 6 | 6 => 6 | 7 => 4 | 8 => 4 | 9 => 16 | 10 => 8 | 11 => 8
  | 12 => 4 | 13 => 4 | 14 => 2 | 15 => 8 | 16 => 8 | 17 => 6 | 18 => 6 | 19 => 4 | 20 => 8 | 21 => 4 | 22 => 4 | _ => 0

/-- Formats a register operand may have (R208): 0 to 7 and 9 to 14. -/
def plainFmt (c : Nat) : Bool := c ≤ 7 || (9 ≤ c && c ≤ 14)
/-- The accepted formats of an operand, 0 to 22, or ANY. -/
def anyFmt (c : Nat) : Bool := c ≤ 22 || c == 31

def shapeM (mc : BitVec 3) : Nat := 2 ^ (mc.toNat + 2)
def shapeK (kc : BitVec 3) : Nat := 2 ^ (kc.toNat + 3)

/-- Shape codes mc, nc from 0 to 3 and kc from 0 to 6 (R84). -/
def shapeFlawX (f : FmtX) : Flaws := { fmt := f.mc.toNat > 3 || f.nc.toNat > 3 || f.kc.toNat > 6 }

/-- A register operand of `rows` × `k` elements: its format and its size (R208). -/
def regTile (kind : BitVec 1) (c rows k : Nat) : Flaws :=
  { fmt := kind == 0 && (!plainFmt c || rows * k * matWidth c > 512) }

/-- k at least one block of the format (R215). -/
def blockK (c k : Nat) : Flaws := { fmt := isBlock c && k < blockSize c }

def xBase (f : FmtX) : Flaws := predFlaw f.pg f.ps

/-- MMA, MMAS and MMAW (R215 Table 4); form 0, 1 or 2. A nonzero sc or fe that the table gives as 0 is a field not in use, RSVF, and not
a code outside the table; so also in Tables 7 and 8 (log entry 54). -/
def mma (form : Nat) (f : FmtX) : Flaws :=
  let k := shapeK f.kc
  (xBase f).or <| (shapeFlawX f).or <| (operandFlaw f.ak f.sa).or <| (operandFlaw f.bk f.sb).or <|
  (if form = 1 then pairFlaw f.sc else clsFlaw .none f.sc).or <|
  (regTile f.ak f.fmtA.toNat (shapeM f.mc) k).or <|
  (if form = 2 then ({ fmt := !(f.fmtB == 23 || (f.fmtB == 31 && f.bk == 1)) || k < 32 || (f.bk == 0 && k > 64) } : Flaws)
   else (regTile f.bk f.fmtB.toNat (shapeM f.nc) k).or <| (blockK f.fmtB.toNat k).or { fmt := !anyFmt f.fmtB.toNat }).or <|
  (blockK f.fmtA.toNat k).or
  { rsvf := f.fe == 1 && form != 1
    fmt := (if form = 1 then !(plainFmt f.fmtA.toNat || f.fmtA == 31) || f.ak == 0 else !anyFmt f.fmtA.toNat)
      || (form != 0 && f.kc.toNat < 2) }

/-- ACCZ, ACCRD, ACCWR and ACCCVT (R220 Table 5). -/
def accz (f : FmtX) : Flaws :=
  (xBase f).or { rsvf := f.ak == 1 || f.bk == 1 || f.sa != 0 || f.sb != 0 || f.sc != 0 || f.fmtA != 0 || f.fmtB != 0 || f.fe == 1
                 fmt := f.mc.toNat > 3 || f.nc.toNat > 3 || f.kc.toNat > 1 }
def accrw (write : Bool) (f : FmtX) : Flaws :=
  (xBase f).or <| (clsFlaw .x f.sa).or <| (clsFlaw .v f.sc).or
  { rsvf := f.ak == 1 || f.bk == 1 || f.sb != 0 || f.fmtA != 0 || f.fmtB != 0 || f.mc != 0 || f.nc != 0 || f.kc != 0 || (f.fe == 1 && !write) }
def acccvt (f : FmtX) : Flaws :=
  (xBase f).or <| (clsFlaw .x f.sa).or <| (clsFlaw .v f.sc).or
  { rsvf := f.ak == 1 || f.bk == 1 || f.sb != 0 || f.fmtB != 0 || f.fe == 1
    fmt := !(f.fmtA.toNat ≤ 4 || (9 ≤ f.fmtA.toNat && f.fmtA.toNat ≤ 11)) || f.mc.toNat > 1 || f.nc.toNat > 1 || f.kc.toNat > 3 }

/-- SEEDX, SFIT and SSRCH (R224 Table 7): form 0, or 1 for the two fits. sc, acc and fe as at `mma`; a nonzero mc is a code outside the
table (log entry 54). -/
def seeded (fit : Bool) (f : FmtX) : Flaws :=
  let k := shapeK f.kc
  (xBase f).or <| (operandFlaw f.ak f.sa).or <| (operandFlaw f.bk f.sb).or <|
  (if fit then clsFlaw .v f.sc else clsFlaw .none f.sc).or <|
  (if fit then regTile f.ak f.fmtA.toNat (shapeM f.nc) k else {}).or
  { rsvf := f.acc == 1 || f.fe == 1
    fmt := f.mc != 0 || f.fmtB != 23 || f.kc.toNat > 2 || f.nc.toNat > 3 || !(plainFmt f.fmtA.toNat || f.fmtA == 31)
      || (if fit then f.bk == 1 else f.ak == 0) }

/-- LSHB (R228). bk = 1 with an X register in sb breaks two checks, and REG is the lower code; likewise ak or bk = 0 with a V
register in `xform`. DESIGN CHOICE: the entries name FMT for any other value (log entry 54). -/
def lshb (f : FmtX) : Flaws :=
  (xBase f).or <| (operandFlaw f.ak f.sa).or <| (clsFlaw .v f.sb).or <| (clsFlaw .v f.sc).or <|
  (regTile f.ak f.fmtA.toNat (shapeM f.mc) 32).or
  { rsvf := f.acc == 1 || f.fe == 1
    fmt := f.fmtB != 23 || f.bk == 1 || f.kc != 2 || f.mc.toNat > 2 || f.nc.toNat > 3 || !(plainFmt f.fmtA.toNat || f.fmtA == 31) }

/-- TPOSE, QUANT and DEQ (R229 Table 8): form 0, 1 or 2. The reason for a wrong kind bit is as at `lshb`, and that for sc and fe as
at `mma` (log entry 54). -/
def xform (form : Nat) (f : FmtX) : Flaws :=
  let k := shapeK f.kc
  let a := f.fmtA.toNat
  let b := f.fmtB.toNat
  let rm := f.sc.toNat
  (xBase f).or <| (pairFlaw f.sa).or <| (pairFlaw f.sb).or
  { rsvf := f.acc == 1 || f.fe == 1 || f.nc != 0 || (form = 0 && f.sc != 0)
    fmt := f.ak == 0 || f.bk == 0 || f.mc.toNat > 3 || f.kc.toNat > 6 ||
      (match form with
       | 0 => !(plainFmt a || a == 31) || b != a || k > 32
       | 1 => !(a == 0 || a == 31) || b == 0 || b > 22 || (isBlock b && k % blockSize b != 0)
                || rm > 5 || (rm > 3 && matWidth b > 8)
       | _ => !anyFmt a || b > 2 || (isBlock a && k % blockSize a != 0) || rm > 3) }

end Spec

/-- Everything wrong with an instruction as a word, apart from what its element's header decides. ACCEPT's sa is a destination,
and its fe must be 0. DESIGN CHOICE: Table 7 of R83 says 0 unless sa is in use (log entry 54). -/
def Instr.flaws (i : Instr) : Flaws :=
  match i with
  | .trap f => Spec.sysI .none true true f
  | .halt f => Spec.sysI .none true false f
  | .sysrd f => Spec.sysI .x (f.imm.toNat ≤ 9) true f
  | .add f | .sub f | .mul f | .div f => Spec.arith 2 true f
  | .adds f | .subs f => Spec.arithShift f
  | .mulh f | .rem f | .min f | .max f => Spec.arith 2 false f
  | .mad f => Spec.arith 3 true f
  | .neg f | .abs f => Spec.arith 1 true f
  | .addImm f | .subImm f | .mulImm f | .minImm f | .maxImm f | .andImm f | .orImm f | .xorImm f | .andnImm f => Spec.immOp false f
  | .shlImm f | .shrImm f | .shaImm f | .rotImm f => Spec.immOp true f
  | .and f | .or f | .xor f | .andn f | .shl f | .shr f | .sha f | .rot f => Spec.arith 2 false f
  | .not f | .clz f | .popc f | .brev f => Spec.arith 1 false f
  | .bext f => Spec.bitField 2 f
  | .bins f => Spec.bitField 3 f
  | .cmp f => Spec.compare Spec.ints 6 f
  | .sel f => Spec.aFlaw { dst := .s, sa := .s, sb := .s, sc := .p } f
  | .mov f => Spec.mov f
  | .movLane f => Spec.movLane f
  | .movid f => Spec.aFlaw { dst := .s, sa := .id } f
  | .lea f => Spec.aFlaw { dst := .x, sa := .x, sb := .x, mods := 0x3FF } f
  | .movi f => (Spec.clsFlaw .s f.dst).or <| (Spec.clsFlaw .none f.sa).or <| (Spec.predFlaw f.pg f.ps).or { rsvf := f.fe == 1 }
  | .movhi f => (Spec.clsFlaw .x f.dst).or <| (Spec.clsFlaw .none f.sa).or (Spec.predFlaw f.pg f.ps)
  | .pfx f => Spec.laneOp true f
  | .lnred f => Spec.laneOp false f
  | .bcast f => Spec.aFlaw { dst := .v, sa := .v, mods := 0xF } f
  | .shuf f => Spec.aFlaw { dst := .v, sa := .v, sb := .v } f
  | .compact f | .expand f => Spec.aFlaw { dst := .v, sa := .v, sc := .p } f
  | .pand f => Spec.aFlaw { dst := .p, sa := .p, sb := .p, mods := 1 } f
  | .por f | .pxor f => Spec.aFlaw { dst := .p, sa := .p, sb := .p } f
  | .pnot f => Spec.aFlaw { dst := .p, sa := .p } f
  | .pcnt f => Spec.aFlaw { dst := .v, sa := .p } f
  | .fadd f | .fsub f | .fmul f | .fdiv f => Spec.fp 2 Spec.ieeeRm true f
  | .fma f | .fms f | .fnma f => Spec.fp 3 Spec.ieeeRm true f
  | .fsqrt f | .frcp f | .frsq f => Spec.fp 1 Spec.ieeeRm true f
  | .fmin f | .fmax f => Spec.fp 2 [0] false f
  | .fabs f | .fneg f | .fclass f | .fgetexp f => Spec.fp 1 [0] false f
  | .fcmp f => Spec.compare Spec.floats 8 f
  | .frint f => Spec.fp 1 Spec.ieeeRm false f
  | .fexp2f f => Spec.aFlaw { dst := .s, sa := .s, tys := [10], rms := [0] } f
  | .fexpins f => Spec.fp 2 Spec.ieeeRm true f
  | .fcvt f => Spec.fcvt f
  | .fcvtFrom f => Spec.fcvtFrom f
  | .ftoi f => Spec.ftoi f
  | .itof f => Spec.itof f
  | .fpack f => Spec.fpack f
  | .funpack f => Spec.funpack f
  | .emit f => (Spec.cFlaw { pout := true, smask := true, tgt := 3 } f).or { fmt := f.tgt.extractLsb' 0 2 == 3 }
  | .route f => Spec.cFlaw { pout := true, sa := .x, feOk := true, tgt := 0xFF } f
  | .split f => (Spec.cFlaw { pout := true, sa := .p, feOk := true } f).or { fmt := Spec.popc4 f.pout == 0 || Spec.popc4 f.pout > 2 }
  | .merge f => (Spec.cFlaw { pin := true } f).or (Spec.onePin f)
  | .recirc f => (Spec.cFlaw { pout := true, tgt := 0xFF } f).or <| (Spec.onePout f).or { fmt := f.tgt.toNat == 0 || f.tgt.toNat > 15 }
  | .accept f => (Spec.cFlaw { pin := true, sa := .v, tgt := 7 } f).or <| (Spec.onePin f).or { fmt := f.tgt.extractLsb' 0 3 == 0 }
  | .drop f | .hold f | .endb f => Spec.cFlaw {} f
  | .newb f => (Spec.cFlaw { pout := true, sa := .v, feOk := true, tgt := 0xFF } f).or <| (Spec.onePout f).or { reg := Spec.isB f.sa }
  | .tok f => Spec.cFlaw { pout := true, lvl := true } f
  | .bari f => Spec.cFlaw { pout := true, tgt := 0xFF } f
  | .swi f => Spec.cFlaw { pout := true } f
  | .ld f => Spec.mFlaw { xs := [0, 1, 2, 3, 4, 5, 6], spaces := [0, 1, 2, 3], ords := [0, 1] } f
  | .st f => Spec.mFlaw { xs := [0, 1, 2, 3, 4, 5, 6], regSrc := true, spaces := [0, 1, 3], ords := [0, 2] } f
  | .ldv f => Spec.mFlaw { vs := [7], spaces := [0, 1, 2, 3], ords := [0, 1] } f
  | .stv f => Spec.mFlaw { vs := [7], regSrc := true, spaces := [0, 1, 3], ords := [0, 2] } f
  | .pld f => Spec.mFlaw { xs := [3], vs := [7], spaces := [0], ords := [0, 1] } f
  | .pst f => Spec.mFlaw { xs := [3], vs := [7], regSrc := true, spaces := [0], ords := [0, 2] } f
  | .pclear f => Spec.mFlaw { xs := [3], regSrc := true, spaces := [0], ords := [0, 2] } f
  | .sld f => (Spec.mFlaw { pair := true, xs := [0, 1, 2, 3, 4, 5, 6], vs := [7], spaces := [0], ords := [0, 1] } f).or (Spec.pairBase f)
  | .sst f => (Spec.mFlaw { pair := true, xs := [0, 1, 2, 3, 4, 5, 6], vs := [7], regSrc := true, spaces := [0], ords := [0, 2] } f).or (Spec.pairBase f)
  | .pfetch f => Spec.mFlaw { regUsed := false, spaces := [0, 3], ords := [0] } f
  | .fence f => (Spec.mFlaw { regUsed := false, baseUsed := false, spaces := [0], ords := [1, 2, 3] } f).or { rsvf := f.pg != 0 || f.ps != 0 }
  | .tfence f => Spec.mFlaw { xs := [3], regSrc := true, spaces := [0], ords := [0] } f
  | .atom f => (Spec.atom f).or { rsvf := f.flg.getLsbD 3 }
  | .atomTree f => Spec.atomTree f
  | .wait f => Spec.wait f
  | .hbarArrive f | .hbarWait f | .hbarAw f => Spec.hbar f
  | .bsync f => Spec.bsync f
  | .cntrEv f | .cntrTask f => Spec.cntr f
  | .time f | .timeLeft f => Spec.time f
  | .cpy f | .dense f | .sparsify f | .a2a f | .cpyChain f | .denseChain f | .sparsifyChain f | .a2aChain f => Spec.engine false f
  | .coll f | .collChain f => Spec.engine true f
  | .chapp f => Spec.chapp f
  | .taskq f => Spec.taskq f
  | .lpatch f => Spec.lpatch f
  | .larm f => Spec.larm f
  | .mma f => Spec.mma 0 f
  | .mmas f => Spec.mma 1 f
  | .mmaw f => Spec.mma 2 f
  | .accz f => Spec.accz f
  | .accrd f => Spec.accrw false f
  | .accwr f => Spec.accrw true f
  | .acccvt f => Spec.acccvt f
  | .seedx f => Spec.seeded false f
  | .sfit f | .ssrch f => Spec.seeded true f
  | .lshb f => Spec.lshb f
  | .tpose f => Spec.xform 0 f
  | .quant f => Spec.xform 1 f
  | .deq f => Spec.xform 2 f
  | _ => {}

end Sys2Proof
end

