-- ==== Sys2Proof/WellFormed.lean ====
section
/-! DEFINITION. Well-formed instructions: the row's own discriminating fields, and no reason for the loader to refuse
the word (R64, R74, R79 to R89). The checks themselves are in Machine/Checks.lean. -/

namespace Sys2Proof

/-- The reason for which the loader refuses the word, if it does (R64). -/
def Instr.reject (i : Instr) : Option Reject := i.flaws.reason

/-- The rows that share an op and an fn are told apart by these fields (R85, R134, R143, R235, R239, R242, R243). -/
def Instr.rowOk (i : Instr) : Bool :=
  match i with
  | .mov f => !(Spec.isX f.dst && Spec.isV f.sa)
  | .movLane f => Spec.isX f.dst && Spec.isV f.sa
  | .fcvt f => !f.mod.getLsbD 9
  | .fcvtFrom f => f.mod.getLsbD 9
  | .atom f => !f.flg.getLsbD 3
  | .atomTree f => f.flg.getLsbD 3
  | .hbarArrive f => f.aop == 0
  | .hbarWait f => f.aop == 1
  | .hbarAw f => f.aop == 2
  | .cntrEv f => f.aop == 0
  | .cntrTask f => f.aop == 1
  | .time f => f.aop == 0
  | .timeLeft f => f.aop == 1
  | .cpy f | .dense f | .sparsify f | .a2a f | .coll f => !f.flg.getLsbD 0
  | .cpyChain f | .denseChain f | .sparsifyChain f | .a2aChain f | .collChain f => f.flg.getLsbD 0
  | _ => true

/-- An instruction the loader accepts, apart from the checks that need the element's header. -/
def WellFormed (i : Instr) : Prop := i.rowOk = true ∧ i.reject = none

end Sys2Proof
end

