-- ==== Sys2Proof/Decode.lean ====
section
/-! DEFINITION. Decoding and encoding of Kymon words (R79 to R89). `decode` is total on the 64-bit words of a CE
program frame: it answers the instruction, or the reason of Table 7 of R64 for which the loader refuses the word.
`encode` gives the word of an instruction; an event of the part has none. -/

namespace Sys2Proof

/-- [63:56] (R80 to R86). -/
def opOf (w : Word) : Nat := (w.extractLsb' 56 8).toNat
/-- [55:50]. -/
def fnOf (w : Word) : Nat := (w.extractLsb' 50 6).toNat

/-- Format A (R80 Table 4). -/
def fieldsA (w : Word) : FmtA :=
  { dst := w.extractLsb' 44 6, sa := w.extractLsb' 38 6, sb := w.extractLsb' 32 6, sc := w.extractLsb' 26 6,
    fe := w.extractLsb' 23 3, pg := w.extractLsb' 20 3, ps := w.extractLsb' 19 1, ty := w.extractLsb' 14 5,
    rm := w.extractLsb' 11 3, sat := w.extractLsb' 10 1, mod := w.extractLsb' 0 10 }

/-- Format I (R81 Table 5), apart from the reserved bit 32. -/
def fieldsI (w : Word) : FmtI :=
  { dst := w.extractLsb' 44 6, sa := w.extractLsb' 38 6, fe := w.extractLsb' 37 1, pg := w.extractLsb' 34 3,
    ps := w.extractLsb' 33 1, imm := w.extractLsb' 0 32 }

/-- Format M (R82 Table 6). -/
def fieldsM (w : Word) : FmtM :=
  { reg := w.extractLsb' 44 6, base := w.extractLsb' 38 6, fe := w.extractLsb' 36 2, pg := w.extractLsb' 33 3,
    ps := w.extractLsb' 32 1, sz := w.extractLsb' 28 4, off := w.extractLsb' 8 20, space := w.extractLsb' 5 3,
    scope := w.extractLsb' 2 3, ord := w.extractLsb' 0 2 }

/-- Format C (R83 Table 7), apart from the reserved bits 10 to 0. -/
def fieldsC (w : Word) : FmtC :=
  { pin := w.extractLsb' 46 4, pout := w.extractLsb' 42 4, smask := w.extractLsb' 34 8, pg := w.extractLsb' 31 3,
    ps := w.extractLsb' 30 1, fe := w.extractLsb' 29 1, sa := w.extractLsb' 23 6, tgt := w.extractLsb' 15 8,
    lvl := w.extractLsb' 11 4 }

/-- Format X (R84 Table 8), apart from nsp, sd and the reserved bits 2 to 0. -/
def fieldsX (w : Word) : FmtX :=
  { acc := w.extractLsb' 49 1, ak := w.extractLsb' 48 1, sa := w.extractLsb' 42 6, bk := w.extractLsb' 41 1,
    sb := w.extractLsb' 35 6, fmtA := w.extractLsb' 30 5, fmtB := w.extractLsb' 25 5, mc := w.extractLsb' 22 3,
    nc := w.extractLsb' 19 3, kc := w.extractLsb' 16 3, sc := w.extractLsb' 8 6, pg := w.extractLsb' 5 3,
    ps := w.extractLsb' 4 1, fe := w.extractLsb' 3 1 }

/-- Format Y (R85 Table 9a). -/
def fieldsY (w : Word) : FmtY :=
  { dst := w.extractLsb' 44 6, sa := w.extractLsb' 38 6, sb := w.extractLsb' 32 6, sc := w.extractLsb' 26 6,
    fe := w.extractLsb' 23 3, pg := w.extractLsb' 20 3, ps := w.extractLsb' 19 1, aop := w.extractLsb' 15 4,
    scope := w.extractLsb' 12 3, ord := w.extractLsb' 10 2, flg := w.extractLsb' 5 5, tmo := w.extractLsb' 0 5 }

/-- Op 0x00, System. -/
def cell00 (fn : Nat) (f : FmtI) : Option Instr :=
  match fn with
  | 1 => some (.trap f)
  | 2 => some (.halt f)
  | 3 => some (.sysrd f)
  | _ => none

/-- Op 0x01, Integer. -/
def cell01 (fn : Nat) (f : FmtA) : Option Instr :=
  match fn with
  | 0 => some (.add f)
  | 1 => some (.sub f)
  | 2 => some (.adds f)
  | 3 => some (.subs f)
  | 4 => some (.mul f)
  | 5 => some (.mulh f)
  | 6 => some (.mad f)
  | 7 => some (.div f)
  | 8 => some (.rem f)
  | 9 => some (.neg f)
  | 10 => some (.abs f)
  | 11 => some (.min f)
  | 12 => some (.max f)
  | _ => none

/-- Op 0x02, Logical and bit. -/
def cell02 (fn : Nat) (f : FmtA) : Option Instr :=
  match fn with
  | 0 => some (.and f)
  | 1 => some (.or f)
  | 2 => some (.xor f)
  | 3 => some (.not f)
  | 4 => some (.andn f)
  | 5 => some (.shl f)
  | 6 => some (.shr f)
  | 7 => some (.sha f)
  | 8 => some (.rot f)
  | 9 => some (.clz f)
  | 10 => some (.popc f)
  | 11 => some (.brev f)
  | 12 => some (.bext f)
  | 13 => some (.bins f)
  | _ => none

/-- Op 0x03, Compare and move. -/
def cell03 (fn : Nat) (f : FmtA) : Option Instr :=
  match fn with
  | 0 => some (.cmp f)
  | 1 => some (.sel f)
  | 2 => some (if Spec.isX f.dst && Spec.isV f.sa then .movLane f else .mov f)
  | 3 => some (.movid f)
  | 4 => some (.lea f)
  | _ => none

/-- Op 0x04, Move immediate. -/
def cell04 (fn : Nat) (f : FmtI) : Option Instr :=
  match fn with
  | 0 => some (.movi f)
  | 1 => some (.movhi f)
  | _ => none

/-- Op 0x05, Integer immediate. -/
def cell05 (fn : Nat) (f : FmtI) : Option Instr :=
  match fn with
  | 0 => some (.addImm f)
  | 1 => some (.subImm f)
  | 4 => some (.mulImm f)
  | 11 => some (.minImm f)
  | 12 => some (.maxImm f)
  | _ => none

/-- Op 0x06, Logical immediate. -/
def cell06 (fn : Nat) (f : FmtI) : Option Instr :=
  match fn with
  | 0 => some (.andImm f)
  | 1 => some (.orImm f)
  | 2 => some (.xorImm f)
  | 4 => some (.andnImm f)
  | 5 => some (.shlImm f)
  | 6 => some (.shrImm f)
  | 7 => some (.shaImm f)
  | 8 => some (.rotImm f)
  | _ => none

/-- Op 0x08, Lanes. -/
def cell08 (fn : Nat) (f : FmtA) : Option Instr :=
  match fn with
  | 0 => some (.pfx f)
  | 1 => some (.lnred f)
  | 2 => some (.bcast f)
  | 3 => some (.shuf f)
  | 4 => some (.compact f)
  | 5 => some (.expand f)
  | _ => none

/-- Op 0x09, Predicates. -/
def cell09 (fn : Nat) (f : FmtA) : Option Instr :=
  match fn with
  | 0 => some (.pand f)
  | 1 => some (.por f)
  | 2 => some (.pxor f)
  | 3 => some (.pnot f)
  | 4 => some (.pcnt f)
  | _ => none

/-- Op 0x10, Floating point. -/
def cell10 (fn : Nat) (f : FmtA) : Option Instr :=
  match fn with
  | 0 => some (.fadd f)
  | 1 => some (.fsub f)
  | 2 => some (.fmul f)
  | 3 => some (.fma f)
  | 4 => some (.fms f)
  | 5 => some (.fnma f)
  | 6 => some (.fdiv f)
  | 7 => some (.fsqrt f)
  | 8 => some (.frcp f)
  | 9 => some (.frsq f)
  | 10 => some (.fmin f)
  | 11 => some (.fmax f)
  | 12 => some (.fabs f)
  | 13 => some (.fneg f)
  | 14 => some (.fcmp f)
  | 15 => some (.fclass f)
  | 16 => some (.frint f)
  | 17 => some (.fgetexp f)
  | 18 => some (.fexp2f f)
  | 19 => some (.fexpins f)
  | _ => none

/-- Op 0x11, Conversion. -/
def cell11 (fn : Nat) (f : FmtA) : Option Instr :=
  match fn with
  | 0 => some (if f.mod.getLsbD 9 then .fcvtFrom f else .fcvt f)
  | 1 => some (.ftoi f)
  | 2 => some (.itof f)
  | 3 => some (.fpack f)
  | 4 => some (.funpack f)
  | _ => none

/-- Op 0x20, Bead control. -/
def cell20 (fn : Nat) (f : FmtC) : Option Instr :=
  match fn with
  | 0 => some (.emit f)
  | 1 => some (.route f)
  | 2 => some (.split f)
  | 3 => some (.merge f)
  | 4 => some (.recirc f)
  | 5 => some (.accept f)
  | 6 => some (.drop f)
  | 7 => some (.hold f)
  | 8 => some (.newb f)
  | 9 => some (.endb f)
  | 10 => some (.tok f)
  | 11 => some (.bari f)
  | 12 => some (.swi f)
  | _ => none

/-- Op 0x30, Memory. -/
def cell30 (fn : Nat) (f : FmtM) : Option Instr :=
  match fn with
  | 0 => some (.ld f)
  | 1 => some (.st f)
  | 2 => some (.ldv f)
  | 3 => some (.stv f)
  | 4 => some (.pld f)
  | 5 => some (.pst f)
  | 6 => some (.pclear f)
  | 7 => some (.sld f)
  | 8 => some (.sst f)
  | 9 => some (.pfetch f)
  | 10 => some (.fence f)
  | 11 => some (.tfence f)
  | _ => none

/-- Op 0x38, Synchronisation. -/
def cell38 (fn : Nat) (f : FmtY) : Option Instr :=
  match fn with
  | 0 => some (if f.flg.getLsbD 3 then .atomTree f else .atom f)
  | 1 => some (.wait f)
  | 2 => some (if f.aop == 1 then .hbarWait f else if f.aop == 2 then .hbarAw f else .hbarArrive f)
  | 3 => some (.bsync f)
  | 4 => some (if f.aop == 1 then .cntrTask f else .cntrEv f)
  | 5 => some (if f.aop == 1 then .timeLeft f else .time f)
  | _ => none

/-- Op 0x39, Engines and launches. -/
def cell39 (fn : Nat) (f : FmtY) : Option Instr :=
  match fn with
  | 0 => some (if f.flg.getLsbD 0 then .cpyChain f else .cpy f)
  | 1 => some (if f.flg.getLsbD 0 then .denseChain f else .dense f)
  | 2 => some (if f.flg.getLsbD 0 then .sparsifyChain f else .sparsify f)
  | 3 => some (if f.flg.getLsbD 0 then .a2aChain f else .a2a f)
  | 4 => some (if f.flg.getLsbD 0 then .collChain f else .coll f)
  | 5 => some (.chapp f)
  | 6 => some (.taskq f)
  | 7 => some (.lpatch f)
  | 8 => some (.larm f)
  | _ => none

/-- Op 0x40, Matrix. -/
def cell40 (fn : Nat) (f : FmtX) : Option Instr :=
  match fn with
  | 0 => some (.mma f)
  | 1 => some (.mmas f)
  | 2 => some (.mmaw f)
  | 3 => some (.accz f)
  | 4 => some (.accrd f)
  | 5 => some (.accwr f)
  | 6 => some (.acccvt f)
  | _ => none

/-- Op 0x41, Weights and transforms. -/
def cell41 (fn : Nat) (f : FmtX) : Option Instr :=
  match fn with
  | 0 => some (.seedx f)
  | 1 => some (.sfit f)
  | 2 => some (.ssrch f)
  | 3 => some (.lshb f)
  | 4 => some (.tpose f)
  | 5 => some (.quant f)
  | 6 => some (.deq f)
  | _ => none

/-- The cell of Table 11 (R88) that a word's op and fn name, in its fields; none for an unassigned cell (R89) and for
the cells that no CE program frame accepts. -/
def cellOf (op fn : Nat) (w : Word) : Option Instr :=
  match op with
  | 0x00 => if fn = 0 then some .nop else cell00 fn (fieldsI w)
  | 0x01 => cell01 fn (fieldsA w)
  | 0x02 => cell02 fn (fieldsA w)
  | 0x03 => cell03 fn (fieldsA w)
  | 0x04 => cell04 fn (fieldsI w)
  | 0x05 => cell05 fn (fieldsI w)
  | 0x06 => cell06 fn (fieldsI w)
  | 0x08 => cell08 fn (fieldsA w)
  | 0x09 => cell09 fn (fieldsA w)
  | 0x10 => cell10 fn (fieldsA w)
  | 0x11 => cell11 fn (fieldsA w)
  | 0x20 => cell20 fn (fieldsC w)
  | 0x30 => cell30 fn (fieldsM w)
  | 0x38 => cell38 fn (fieldsY w)
  | 0x39 => cell39 fn (fieldsY w)
  | 0x40 => cell40 fn (fieldsX w)
  | 0x41 => cell41 fn (fieldsX w)
  | _ => none

/-- The cells of Format S and the extension word, which no CE program frame accepts (R86, R88). -/
def streamCell (op fn : Nat) : Bool :=
  match op with
  | 0x80 => fn < 5 | 0x81 => fn < 2 | 0x82 => fn = 0 | 0x83 => fn = 0 | 0x84 => fn < 4 | 0x85 => fn < 3
  | 0x86 => fn < 3 | 0x87 => fn = 0 | 0xFE => true
  | _ => false

/-- nsp and sd as an X cell fixes them (R88 Table 11). -/
def nspSd (op fn : Nat) : BitVec 1 × BitVec 1 :=
  match op, fn with
  | 0x40, 1 => (1, 0)
  | 0x40, 2 => (0, 1)
  | 0x41, 0 => (0, 1)
  | 0x41, 1 => (0, 1)
  | 0x41, 2 => (0, 1)
  | 0x41, 3 => (0, 1)
  | _, _ => (0, 0)

/-- What is wrong with the bits of a word that its format's fields do not hold: the reserved bits (R79), and nsp and
sd (R84). NOP uses no field at all (R88). -/
def wordFlaws (op fn : Nat) (w : Word) : Flaws :=
  match op with
  | 0x00 => { rsvf := if fn = 0 then w != 0 else w.getLsbD 32 }
  | 0x04 | 0x05 | 0x06 => { rsvf := w.getLsbD 32 }
  | 0x20 => { rsvf := w.extractLsb' 0 11 != 0 }
  | 0x40 | 0x41 =>
    { rsvf := w.extractLsb' 0 3 != 0
      fmt := (w.extractLsb' 15 1, w.extractLsb' 14 1) != nspSd op fn }
  | _ => {}

/-- Decoding of a word of a CE program frame: the instruction, or the reason to refuse it (R64, R79, R89). -/
def decode (w : Word) : Except Reject Instr :=
  match cellOf (opOf w) (fnOf w) w with
  | some i =>
    match ((wordFlaws (opOf w) (fnOf w) w).or i.flaws).reason with
    | none => .ok i
    | some r => .error r
  | none => .error (if streamCell (opOf w) (fnOf w) then .fmt else .opc)

/-- The word of a Format A instruction. -/
def wordA (op : BitVec 8) (fn : BitVec 6) (f : FmtA) : Word :=
  op ++ fn ++ f.dst ++ f.sa ++ f.sb ++ f.sc ++ f.fe ++ f.pg ++ f.ps ++ f.ty ++ f.rm ++ f.sat ++ f.mod
/-- The word of a Format I instruction. -/
def wordI (op : BitVec 8) (fn : BitVec 6) (f : FmtI) : Word :=
  op ++ fn ++ f.dst ++ f.sa ++ f.fe ++ f.pg ++ f.ps ++ 0#1 ++ f.imm
/-- The word of a Format M instruction. -/
def wordM (op : BitVec 8) (fn : BitVec 6) (f : FmtM) : Word :=
  op ++ fn ++ f.reg ++ f.base ++ f.fe ++ f.pg ++ f.ps ++ f.sz ++ f.off ++ f.space ++ f.scope ++ f.ord
/-- The word of a Format C instruction. -/
def wordC (op : BitVec 8) (fn : BitVec 6) (f : FmtC) : Word :=
  op ++ fn ++ f.pin ++ f.pout ++ f.smask ++ f.pg ++ f.ps ++ f.fe ++ f.sa ++ f.tgt ++ f.lvl ++ 0#11
/-- The word of a Format X instruction. -/
def wordX (op : BitVec 8) (fn : BitVec 6) (nsp sd : BitVec 1) (f : FmtX) : Word :=
  op ++ fn ++ f.acc ++ f.ak ++ f.sa ++ f.bk ++ f.sb ++ f.fmtA ++ f.fmtB ++ f.mc ++ f.nc ++ f.kc ++ nsp ++ sd ++ f.sc
    ++ f.pg ++ f.ps ++ f.fe ++ 0#3
/-- The word of a Format Y instruction. -/
def wordY (op : BitVec 8) (fn : BitVec 6) (f : FmtY) : Word :=
  op ++ fn ++ f.dst ++ f.sa ++ f.sb ++ f.sc ++ f.fe ++ f.pg ++ f.ps ++ f.aop ++ f.scope ++ f.ord ++ f.flg ++ f.tmo

/-- The word of an instruction; an event of the part has none. -/
def encode (i : Instr) : Option Word :=
  match i with
  | .nop => some 0
  | .trap f => some (wordI 0x00 1 f)
  | .halt f => some (wordI 0x00 2 f)
  | .sysrd f => some (wordI 0x00 3 f)
  | .add f => some (wordA 0x01 0 f)
  | .sub f => some (wordA 0x01 1 f)
  | .adds f => some (wordA 0x01 2 f)
  | .subs f => some (wordA 0x01 3 f)
  | .mul f => some (wordA 0x01 4 f)
  | .mulh f => some (wordA 0x01 5 f)
  | .mad f => some (wordA 0x01 6 f)
  | .div f => some (wordA 0x01 7 f)
  | .rem f => some (wordA 0x01 8 f)
  | .neg f => some (wordA 0x01 9 f)
  | .abs f => some (wordA 0x01 10 f)
  | .min f => some (wordA 0x01 11 f)
  | .max f => some (wordA 0x01 12 f)
  | .and f => some (wordA 0x02 0 f)
  | .or f => some (wordA 0x02 1 f)
  | .xor f => some (wordA 0x02 2 f)
  | .not f => some (wordA 0x02 3 f)
  | .andn f => some (wordA 0x02 4 f)
  | .shl f => some (wordA 0x02 5 f)
  | .shr f => some (wordA 0x02 6 f)
  | .sha f => some (wordA 0x02 7 f)
  | .rot f => some (wordA 0x02 8 f)
  | .clz f => some (wordA 0x02 9 f)
  | .popc f => some (wordA 0x02 10 f)
  | .brev f => some (wordA 0x02 11 f)
  | .bext f => some (wordA 0x02 12 f)
  | .bins f => some (wordA 0x02 13 f)
  | .cmp f => some (wordA 0x03 0 f)
  | .sel f => some (wordA 0x03 1 f)
  | .mov f => some (wordA 0x03 2 f)
  | .movLane f => some (wordA 0x03 2 f)
  | .movid f => some (wordA 0x03 3 f)
  | .lea f => some (wordA 0x03 4 f)
  | .movi f => some (wordI 0x04 0 f)
  | .movhi f => some (wordI 0x04 1 f)
  | .addImm f => some (wordI 0x05 0 f)
  | .subImm f => some (wordI 0x05 1 f)
  | .mulImm f => some (wordI 0x05 4 f)
  | .minImm f => some (wordI 0x05 11 f)
  | .maxImm f => some (wordI 0x05 12 f)
  | .andImm f => some (wordI 0x06 0 f)
  | .orImm f => some (wordI 0x06 1 f)
  | .xorImm f => some (wordI 0x06 2 f)
  | .andnImm f => some (wordI 0x06 4 f)
  | .shlImm f => some (wordI 0x06 5 f)
  | .shrImm f => some (wordI 0x06 6 f)
  | .shaImm f => some (wordI 0x06 7 f)
  | .rotImm f => some (wordI 0x06 8 f)
  | .pfx f => some (wordA 0x08 0 f)
  | .lnred f => some (wordA 0x08 1 f)
  | .bcast f => some (wordA 0x08 2 f)
  | .shuf f => some (wordA 0x08 3 f)
  | .compact f => some (wordA 0x08 4 f)
  | .expand f => some (wordA 0x08 5 f)
  | .pand f => some (wordA 0x09 0 f)
  | .por f => some (wordA 0x09 1 f)
  | .pxor f => some (wordA 0x09 2 f)
  | .pnot f => some (wordA 0x09 3 f)
  | .pcnt f => some (wordA 0x09 4 f)
  | .fadd f => some (wordA 0x10 0 f)
  | .fsub f => some (wordA 0x10 1 f)
  | .fmul f => some (wordA 0x10 2 f)
  | .fma f => some (wordA 0x10 3 f)
  | .fms f => some (wordA 0x10 4 f)
  | .fnma f => some (wordA 0x10 5 f)
  | .fdiv f => some (wordA 0x10 6 f)
  | .fsqrt f => some (wordA 0x10 7 f)
  | .frcp f => some (wordA 0x10 8 f)
  | .frsq f => some (wordA 0x10 9 f)
  | .fmin f => some (wordA 0x10 10 f)
  | .fmax f => some (wordA 0x10 11 f)
  | .fabs f => some (wordA 0x10 12 f)
  | .fneg f => some (wordA 0x10 13 f)
  | .fcmp f => some (wordA 0x10 14 f)
  | .fclass f => some (wordA 0x10 15 f)
  | .frint f => some (wordA 0x10 16 f)
  | .fgetexp f => some (wordA 0x10 17 f)
  | .fexp2f f => some (wordA 0x10 18 f)
  | .fexpins f => some (wordA 0x10 19 f)
  | .fcvt f => some (wordA 0x11 0 f)
  | .fcvtFrom f => some (wordA 0x11 0 f)
  | .ftoi f => some (wordA 0x11 1 f)
  | .itof f => some (wordA 0x11 2 f)
  | .fpack f => some (wordA 0x11 3 f)
  | .funpack f => some (wordA 0x11 4 f)
  | .emit f => some (wordC 0x20 0 f)
  | .route f => some (wordC 0x20 1 f)
  | .split f => some (wordC 0x20 2 f)
  | .merge f => some (wordC 0x20 3 f)
  | .recirc f => some (wordC 0x20 4 f)
  | .accept f => some (wordC 0x20 5 f)
  | .drop f => some (wordC 0x20 6 f)
  | .hold f => some (wordC 0x20 7 f)
  | .newb f => some (wordC 0x20 8 f)
  | .endb f => some (wordC 0x20 9 f)
  | .tok f => some (wordC 0x20 10 f)
  | .bari f => some (wordC 0x20 11 f)
  | .swi f => some (wordC 0x20 12 f)
  | .ld f => some (wordM 0x30 0 f)
  | .st f => some (wordM 0x30 1 f)
  | .ldv f => some (wordM 0x30 2 f)
  | .stv f => some (wordM 0x30 3 f)
  | .pld f => some (wordM 0x30 4 f)
  | .pst f => some (wordM 0x30 5 f)
  | .pclear f => some (wordM 0x30 6 f)
  | .sld f => some (wordM 0x30 7 f)
  | .sst f => some (wordM 0x30 8 f)
  | .pfetch f => some (wordM 0x30 9 f)
  | .fence f => some (wordM 0x30 10 f)
  | .tfence f => some (wordM 0x30 11 f)
  | .atom f => some (wordY 0x38 0 f)
  | .atomTree f => some (wordY 0x38 0 f)
  | .wait f => some (wordY 0x38 1 f)
  | .hbarArrive f => some (wordY 0x38 2 f)
  | .hbarWait f => some (wordY 0x38 2 f)
  | .hbarAw f => some (wordY 0x38 2 f)
  | .bsync f => some (wordY 0x38 3 f)
  | .cntrEv f => some (wordY 0x38 4 f)
  | .cntrTask f => some (wordY 0x38 4 f)
  | .time f => some (wordY 0x38 5 f)
  | .timeLeft f => some (wordY 0x38 5 f)
  | .cpy f => some (wordY 0x39 0 f)
  | .cpyChain f => some (wordY 0x39 0 f)
  | .dense f => some (wordY 0x39 1 f)
  | .denseChain f => some (wordY 0x39 1 f)
  | .sparsify f => some (wordY 0x39 2 f)
  | .sparsifyChain f => some (wordY 0x39 2 f)
  | .a2a f => some (wordY 0x39 3 f)
  | .a2aChain f => some (wordY 0x39 3 f)
  | .coll f => some (wordY 0x39 4 f)
  | .collChain f => some (wordY 0x39 4 f)
  | .chapp f => some (wordY 0x39 5 f)
  | .taskq f => some (wordY 0x39 6 f)
  | .lpatch f => some (wordY 0x39 7 f)
  | .larm f => some (wordY 0x39 8 f)
  | .mma f => some (wordX 0x40 0 0 0 f)
  | .mmas f => some (wordX 0x40 1 1 0 f)
  | .mmaw f => some (wordX 0x40 2 0 1 f)
  | .accz f => some (wordX 0x40 3 0 0 f)
  | .accrd f => some (wordX 0x40 4 0 0 f)
  | .accwr f => some (wordX 0x40 5 0 0 f)
  | .acccvt f => some (wordX 0x40 6 0 0 f)
  | .seedx f => some (wordX 0x41 0 0 1 f)
  | .sfit f => some (wordX 0x41 1 0 1 f)
  | .ssrch f => some (wordX 0x41 2 0 1 f)
  | .lshb f => some (wordX 0x41 3 0 1 f)
  | .tpose f => some (wordX 0x41 4 0 0 f)
  | .quant f => some (wordX 0x41 5 0 0 f)
  | .deq f => some (wordX 0x41 6 0 0 f)
  | _ => none

/-- The instruction the decoder reads from an instruction whose bits are w: every instruction is one 64-bit word,
stored little-endian in a configuration frame, so the word is w itself whatever the number of bits the table gives. -/
def decodeTableWord (_nbits w : Nat) : Option Instr :=
  match decode (BitVec.ofNat 64 w) with
  | .ok i => some i
  | .error _ => none

end Sys2Proof
end

