-- ==== Sys2Proof/Machine/State.lean ====
section
/-! DEFINITION. The state of an SX4 package, as plain data: every piece the spec gives the machine, the machine after
reset, and the reasons a step can stop. Places are numbered so: tile = die × 576 + ty × 24 + tx (R7); vault = die × 64 +
its index on the die (R1, R66); a unit of a tile is 0 CE (or transform node), 1 SCN0, 2 SCN1, 3 MRG, 4 RPT, 5 RDC, 6 LWR and
7 + p for AG port p (R50 Table 4); a queue of a tile is named by its switch code (R160 Table 1): 8 × unit + port for a
port of a unit, 64 + 16 × side + index for a link. A table is a list of pairs of a key and an entry. -/

namespace Sys2Proof.Machine

/-- A table: entries by key; a key is listed at most once by the operations of Machine/Ops.lean. -/
abbrev Tab (α : Type) := List (Nat × α)

/-- Why the machine stops. Safe: the hardware goes on, the model makes no claim. -/
inductive Fault where
  /-- A host transaction under ctx 4 names a physical address that R369, R348 and R412 place nowhere. Raised by RD, WR
  and WRC. Safe: nothing is claimed of such an access. -/
  | noSuchAddress
  deriving DecidableEq, Repr

/-- Why an instruction has no meaning here. -/
inductive Refusal where
  /-- An instruction the model does not give its meaning. Raised by the arm of `exec` alone. Safe. -/
  | notModelled (mnemonic : String)
  /-- The word at a bead's index does not decode. R89: execution never meets such a word, because the loader has
  checked every word; a state built by hand can hold one. Raised by `step`. Safe. -/
  | undecodable
  deriving DecidableEq, Repr

/-! ### Elements -/

/-- An x register with its full/empty bit (R73, R20). -/
structure XReg where
  val  : Word
  full : Bool
  deriving DecidableEq, Repr

/-- A v or b register with its full/empty bit (R73, R20). -/
structure VReg where
  val  : Vec
  full : Bool
  deriving DecidableEq, Repr

/-- A beat: its data lanes and sideband fields (R11 Table 2, R12). -/
structure Beat where
  kind  : Nat       -- 0 CRD, 1 REF, 2 VAL, 3 STOP, 4 DONE, 5 BAR, 6 SW, 7 BEADH, 8 SKIP
  count : Nat
  stop  : Nat
  slot  : Nat
  ctx   : Nat
  rsv   : Nat
  data  : Vec
  deriving DecidableEq, Repr

/-- A buffer of beats, head first; `used` lanes of the head beat have been consumed (R11, R30, R161). -/
structure Queue where
  beats : List Beat
  used  : Nat
  deriving DecidableEq, Repr

/-- A bead in flight in an element: its header (R17 Table 5), its slots and where it is in the node program. -/
structure Bead where
  lmask   : Mask
  loopc   : BitVec 8
  bseq    : BitVec 16
  tag     : BitVec 8
  slots   : List VReg
  pc      : Nat       -- instruction index (R54, R126)
  started : Bool      -- BEAD_START has run
  num     : Nat       -- arrival number in the element (R18)
  stamp   : Nat       -- when its header entered the element's input buffer, for MERGE (R149)
  deriving DecidableEq, Repr

/-- Where a long-latency result goes (R20). -/
inductive Dest where
  | none                       -- x0, or a destination a later producer has taken over
  | x (r : Nat)
  | v (r : Nat)
  | b (bead k : Nat)           -- slot k of the bead with that arrival number
  deriving DecidableEq, Repr

/-- What a long-latency operation waits for; a freeze-save treats each its own way (R154, R261). -/
inductive OpKind where
  | load | pld | matrix | atom | wait | arrive | bsync | ticket | chapp | taskq | lpatch | larm
  deriving DecidableEq, Repr

/-- A long-latency operation an element has issued and whose result has not been written (R20, R125). -/
structure LongOp where
  num   : Nat                  -- issue number in the element
  kind  : OpKind
  dest  : Dest
  lanes : Mask                 -- lanes of a V destination that the result writes
  value : Option Vec           -- the result, once it has arrived at the element
  acq   : Bool                 -- later accesses wait for it (R155, R237)
  instr : Instr                -- the instruction, for a reissue on restore
  deriving DecidableEq, Repr

/-- One bank of the matrix cell: 32 rows of 32 elements, row-major, and its saturation mode (R204). -/
structure AccBank where
  elems : Tab Lane             -- by 32 × row + column; unlisted elements are zero
  sat   : Bool
  deriving DecidableEq, Repr

/-- The unit a fault record names (R376 Table 5), at a tile. -/
structure Site where
  t    : Nat
  unit : Nat
  sub  : Nat
  widx : Nat
  deriving DecidableEq, Repr

/-- A held, speculative effect of a tile-task (R31, R199, R258, R424). A store keeps its writer and its virtual address, for the record
of a commit that finds its home malformed or broken (R288, R402). -/
inductive HeldStore where
  | bytes (p : Site) (va : Nat) (cells : List (Nat × Byte)) (cmp : Bool)             -- a store, by physical byte
  | key (p : Site) (va desc key : Nat) (value : Word) (nodes : Nat)                  -- an SST or LWR.T store and the nodes it reserved
  | patch (p : Site) (idx k : Nat) (w : Word) (op : Nat)            -- an LPATCH and the result it owes to its element
  | mark (t op : Nat)                                              -- no store: a tile, counted within the region, has issued an engine command
                                                                   -- as this operation; its stores ahead of it precede the command (R244)
  deriving DecidableEq, Repr

/-- A matrix instruction in the cell's queue, with the register operands read at issue (R206, R207). -/
structure MatOp where
  instr   : Instr
  lanes   : Mask
  a       : List Word          -- the 64-byte string of a V operand (8 words) or the two words of a pair
  b       : List Word
  c       : List Word          -- the metadata pair, the source register, rounding draws, or empty
  op      : Option Nat         -- issue number of its long-latency result
  staged  : Bool               -- its operand phase is done
  widx    : Nat                -- instruction index, for the record
  due     : Nat                -- when its compute phase ends
  fa      : Nat                -- formats of the operands, resolved
  fb      : Nat
  ta      : List Word          -- staged A elements (R205): code, side record at bit 32, N:32 position at bit 48
  tb      : List Word          -- staged B elements, or seed records
  res     : Vec                -- a result that no bank enters
  scrbase : Nat                -- the carve-out and nmoff of its header, under which it was issued (R205)
  scrkib  : Nat
  nmoff   : Bool
  held    : List HeldStore     -- stores to perform at completion
  cells   : List (Nat × Byte)  -- carve-out bytes to write at completion
  deriving DecidableEq, Repr

/-- The matrix cell (R204). -/
structure Mxc where
  a0    : AccBank
  a1    : AccBank
  queue : List MatOp
  deriving DecidableEq, Repr

/-- Per-stream state of a unit (R162), and what it keeps through a configuration period. Each unit uses the fields its
rules name. -/
structure UState where
  started  : Bool              -- a root source has begun its stream (R162); seg[0] is written (R184)
  ended    : Bool              -- the stream has ended and nothing new has begun (R192)
  pending  : Bool              -- an S0 not yet emitted (R174)
  fibre    : Nat               -- fibres opened, or stops consumed, in the stream (R174, R179, R184)
  stream   : Nat               -- stream index, modulo 2^32 (R175, R179)
  fibre1   : Nat               -- the same of side 1 of a merge unit
  stream1  : Nat
  skip0    : Option Nat        -- outstanding SKIP to side 0 of a merge unit (R179)
  skip1    : Option Nat
  held     : Option Nat        -- held stop (R16)
  ref      : Option Nat        -- the open fibre's reference, the held reference (R174, R180, R187, R202)
  pos      : Nat               -- position in the open fibre, the write position (R171, R184, R187)
  lim      : Nat               -- end of the open fibre
  floor    : Nat               -- coordinates below it are skipped (R175)
  mark     : Nat               -- bitmap tiles checked in the fibre (R172); entries written when it opened (R184)
  checked  : Bool              -- the descriptor or the parameter block has been read (R189, R201)
  acc      : Option Lane       -- the open value of a reducer (R182)
  lanes    : List Lane         -- an open block of a transform node (R191)
  group    : List (Nat × Vec)  -- beats of an open group (R191)
  entries  : List (Nat × Lane) -- coordinates and values of the open fibre of a level writer (R184)
  block    : List Word         -- the ISE parameter block in use (R189)
  served   : Nat               -- the join input served last plus 1, the granule side (R22, R167)
  due      : Nat               -- clk at which the memory reads of a bitmap tile return; 0 while none are asked for (R172)
  switched : Bool              -- the unit has switched in the rolling switch in progress (R26)
  deriving DecidableEq, Repr

/-- An output beat being filled: its tokens and the clk of the last one (R161). -/
structure Partial where
  kind  : Nat
  lanes : List Lane
  last  : Nat
  deriving DecidableEq, Repr

/-- One configuration bank: frames by index (0 CE header or XF, 1 to 8 CE program, 9 to 14 the stream units SCN0 to LWR,
15 to 18 the AG ports, 19 to 26 the switch), each of four words; unlisted frames are zero (R54 to R58). -/
structure Bank where
  frames : Tab (List Word)
  xf     : Bool                -- frame 0 holds an XF word (R55)
  drain  : Bool                -- it holds the drain configuration, under which every node discards its inputs (R40)
  deriving DecidableEq, Repr

/-- A bank of zeros. -/
def Bank.empty : Bank := { frames := [], xf := false, drain := false }
/-- The drain configuration (R40). -/
def Bank.draining : Bank := { frames := [], xf := false, drain := true }

/-- A tile: its element, cell, stream units, queues and configuration store. -/
structure Tile where
  region  : Option Nat         -- the region that holds the tile
  x       : List XReg          -- x0 to x31 (R73)
  v       : List VReg          -- v0 to v15
  p       : List Mask          -- p0 to p7
  ids     : List Word          -- identifier registers, codes 0 to 10 (R76)
  array   : Nat × Nat          -- columns and rows of the array node that the element belongs to (R51)
  was     : Option ((Nat × Nat) × (Nat × Nat))  -- its place in its array node, and the node's size, before a rolling switch in progress (R26)
  gsr     : BitVec 32          -- the stochastic-rounding generator (R110, R111)
  beads   : List Bead          -- in flight, oldest first (R18)
  ops     : List LongOp        -- outstanding long-latency operations (R20)
  nbead   : Nat                -- next arrival number
  nop     : Nat                -- next issue number
  bseq    : List (BitVec 16)   -- counters of output ports 0 to 3, and of token-formed beads (R146, R148)
  mxc     : Mxc
  units   : Tab UState         -- by unit; unlisted is fresh
  outs    : Tab Partial        -- partial output beats by queue code
  inq     : Tab Queue          -- unit inputs (8 × unit + port) and incoming links (64 + …)
  outq    : Tab Queue          -- unit outputs
  wire    : Tab Queue          -- beats sent on an incoming link and not yet received
  stamps  : Tab (List Nat)     -- stamps of the bead headers in the CE's input buffers, by port (R149)
  nstamp  : Nat
  joins   : Tab Nat            -- SW.JOIN state by switch word: 2 × source served last, plus 1 while its granule is open (R167)
  swsrc   : List Nat           -- switch sources that SW has passed in the rolling switch in progress (R26)
  relFence : Bool              -- a FENCE.rel has made the next irrevocable action a release (R156, R267)
  bank    : Bool               -- the active physical bank (R25)
  bank0   : Bank
  bank1   : Bank
  scratch : List (Nat × Byte)  -- tile scratchpad bytes that are not zero, by offset, rising (R152)
  owner   : Option Nat         -- the context that used the carve-out last (R152)
  spSites : List Nat           -- scratchpad words with an uncorrectable error (R401)
  fenced  : Bool               -- (R418)
  cfgErr  : Option Nat         -- clk of the last uncorrectable configuration error (R71)
  corr    : List Nat           -- clks of the corrected errors that count toward fencing (R418)
  deriving DecidableEq, Repr

/-! ### Regions, tasks and launches -/

/-- A location of an address signature (R38, R272): an 8-byte physical word, or a (descriptor, key) pair. -/
inductive Loc where
  | word (n : Nat)
  | key (desc key : Nat)
  deriving DecidableEq, Repr

/-- Where a load of a configuration stands (R59 to R63). -/
inductive LoadPhase where
  | idle | reading | verifying | ready | failed | faulted
  deriving DecidableEq, Repr

/-- The loader of a region (R59, R63). -/
structure Loader where
  phase   : LoadPhase
  img     : Nat
  variant : Nat
  succ    : Bool               -- a successor shadow load (R47)
  entries : List (List Word)   -- entries read so far: address word and four body words
  due     : Nat                -- when the verification pass ends (R62); once faulted, the number of its record (R63)
  hdr     : List Word          -- of a successor, the header as the checks of its preload read it (R47)
  deriving DecidableEq, Repr

/-- A BSYNC in progress (R241). -/
structure Bsync where
  t        : Nat
  op       : Nat
  n        : Nat
  scope    : Nat
  deadline : Nat
  arrived  : Bool
  va       : Nat               -- the address and the instruction, for a record
  widx     : Nat
  deriving DecidableEq, Repr

/-- Why a region is drained (R40). -/
inductive Drain where
  | split | abort | kill | remove | dieFence
  deriving DecidableEq, Repr

/-- A live record that freezes a region (R379): its number, its code, the unit, its address and detail. -/
structure LiveRecord where
  seq    : Nat
  code   : Nat
  t      : Nat
  unit   : Nat
  va     : Nat
  detail : Nat
  stores : Nat                 -- stores of a nonzero value that wait with an IDXFULL (R200)
  sub    : Nat                 -- the unit's number, and the word, as the record has them (R376)
  deriving DecidableEq, Repr

/-- A region (R10, R24 to R28, R31, R38). -/
structure Region where
  die      : Nat
  ox       : Nat
  oy       : Nat
  w        : Nat
  h        : Nat
  quad     : Bool
  variant  : Nat
  img      : Nat
  ctx      : Nat
  task     : Nat               -- handle
  running  : Bool              -- the configuration has been switched in and the argument has entered
  stopped  : Bool              -- sources stopped (R260, R40)
  drain    : Option Drain      -- the drain configuration is in force (R40)
  frozen   : Bool              -- stopped by a fault, a repair or the stop wave (R163, R70, R386)
  records  : List LiveRecord   -- its live records with frz = 1 (R379)
  shadow   : Bool              -- shadow-ready (R25)
  switching : Bool             -- a rolling switch is in progress (R26)
  gen      : Word              -- sequence number of the image in the shadow banks (R44)
  loader   : Loader
  nxt      : Nat               -- successor image to preload (R47); 0 none
  nxtv     : Nat
  sig      : Word              -- region signature (R69)
  scrubAt  : Nat               -- next configuration scrub (R69)
  repair   : List Nat          -- tiles whose bank is to be rewritten (R70)
  first    : Nat × Nat         -- the image and the variant it was first switched to (R38)
  buffer   : List HeldStore    -- speculative store buffer, oldest first (R31, R424)
  used     : Nat               -- entries of it in use (R424)
  reads    : List Loc          -- read signature (R38)
  writes   : List Loc          -- write signature
  begun    : Nat               -- commits made when the interval began (R275)
  clk      : Nat               -- allowance used (R33)
  quiet    : Bool              -- quiescence has been reported (R24)
  bsync    : Option Bsync
  chained  : List (Nat × Nat × Nat × Nat) -- commands issued in the chain form: descriptor, sequence number, tile within the region and operation (R241, R249)
  cause    : Nat               -- exhaustion causes met, bits of R378 (R34)
  scr      : Nat               -- carve-out limit of the variant in KiB
  argAt    : Nat               -- tile of the argument port (R45)
  argUnit  : Nat
  argPort  : Nat
  protect  : List (Nat × Nat)  -- successor images whose pages are store-protected: base and length (R47)
  stopWave : Bool              -- stopped by a stop wave (R386, R390)
  moving   : Bool              -- to be restored off a fenced tile (R71)
  marks    : List (Nat × Option (Nat × Nat × Nat)) -- tiles with an error found while stopped: in the configuration, or in the
                                                   -- state of a unit, which its record names by unit, sub and word (R403)
  deriving DecidableEq, Repr

/-- Where a tile-task stands. -/
inductive TaskPhase where
  | held                       -- enqueued by a speculative task that has not committed (R254)
  | waiting                    -- its dependence count is not 0 (R361)
  | ready
  | running (region : Nat)
  | split                      -- aborted; its children are open (R36)
  | smallest                   -- held until RETRY or KILL (R381)
  | saved                      -- freeze-saved (R385)
  | done
  deriving DecidableEq, Repr

/-- A tile-task (R10, R33 to R38, R253, R254). -/
structure Task where
  ctx      : Nat
  idx      : Nat               -- index of its launch record
  lseq     : Nat
  die      : Nat
  dom      : List (Nat × Nat)  -- lo and hi of each dimension
  texp     : Nat
  prio     : Nat
  args     : List Word
  phase    : TaskPhase
  deps     : Nat
  succs    : List Nat          -- tasks that wait for it (R361)
  irrev    : Bool
  replays  : Nat
  depth    : Nat
  parent   : Option Nat
  kids     : Nat               -- open children
  readyAt  : Nat               -- clk at which it became ready (R363)
  aged     : Bool              -- has reached the admission age
  reserved : Bool              -- holds one further queue slot (R360)
  by_      : Option Nat        -- the region whose commit releases the enqueue
  record   : Nat               -- the SMALLEST record it is held by (R381)
  deriving DecidableEq, Repr

/-- A launch that has been armed and has not completed (R256, R257, R357 to R359). -/
structure Launch where
  ctx     : Nat
  idx     : Nat               -- index of its launch record
  lseq    : Nat
  snap    : List Word          -- the snapshot, words 0 to 31 of the record
  hdr     : List Word          -- the header of its image, as the arm's checks read it (R44)
  running : Bool
  live    : BitVec 4           -- L of its packet
  pieces  : Nat
  reported : List Nat          -- dies that have reported (R359)
  sent    : List Nat           -- dies that have received the packet (R358)
  result  : Nat
  aborts  : Nat
  stopped : Bool               -- a CFGINV ended it: none of its tasks issue (R65)
  deriving DecidableEq, Repr

/-! ### The package -/

/-- A context block (R349) and what the device keeps for the context. -/
structure Ctx where
  state   : Nat                -- 0 FREE, 1 ACTIVE, 2 STOPPING
  ptroot  : Nat
  pool    : Nat
  fqbase  : Nat
  fqn     : Nat
  fqhead  : BitVec 32
  fqtail  : BitVec 32
  naddr   : Nat
  ndata   : Word
  hdl     : BitVec 13
  vgrant  : List Word
  visible : Bool               -- ctrl[0]
  notify  : Bool               -- ctrl[1], notify pending
  lost    : BitVec 32
  nlseq   : Nat                -- next launch sequence number (R368)
  nseq    : Nat                -- next record sequence number (R376)
  cmds    : List CmdWords      -- commands accepted and not yet performed (R380)
  preempt : Option CmdWords    -- a pre-emption in progress (R385)
  acting  : Option (CmdWords × Nat) -- an ABORT or a KILL whose region is being drained, with the region (R382)
  stop    : BitVec 4           -- dies on which issue is stopped (R385)
  saving  : Nat                -- bytes of the save area in use (R387)
  nsaved  : Nat
  restore : List Nat           -- offsets of regions yet to restore (R388)
  restoring : Option CmdWords
  badsave : Bool
  colls   : List (Nat × Nat × Nat)  -- COLLs seen per group address and member (R248)
  deriving DecidableEq, Repr

/-- A cached translation (R373). -/
structure TlbEntry where
  ctx  : Nat
  va   : Nat                   -- base of the page
  size : Nat                   -- page size as an exponent of 2
  pte  : Word
  deriving DecidableEq, Repr

/-- A command in an engine, from its port queue or a chain entry (R243 to R252). -/
structure EngCmd where
  fn     : Nat                 -- 0 CPY, 1 DENSE, 2 SPARSIFY, 3 A2A, 4 COLL
  aop    : Nat
  scope  : Nat
  acq    : Bool
  rel    : Bool
  body   : Vec
  ticket : Nat
  task   : Option Nat          -- the task whose region issued it
  by_    : Option (Nat × Nat)  -- the tile within the region of that task whose element issued it, and its operation: what that element did
                               -- before comes first (R244)
  entry  : Option Nat          -- chain entry address
  chain  : Nat                 -- chain descriptor address
  prog   : Nat                 -- progress offset (R250)
  started : Bool
  held   : Bool                -- an A2A held under R247
  qovf   : Bool                -- it has recorded QOVF
  ord    : Nat                 -- which COLL of its group on its member it is (R248)
  out    : Option (List Byte)  -- a COLL's result, once matched; what a CPY into its own source has read of it
  deriving DecidableEq, Repr

/-- One copy engine's queue for one context (R244, R250, R366). -/
structure Engine where
  queue   : List EngCmd
  cur     : Option EngCmd
  stopped : Option Nat         -- the record it waits on
  full    : Bool               -- that record is an IDXFULL (R200)
  next    : Nat                -- next ticket
  done    : Nat                -- sequence number completed
  chains  : List (Nat × Nat)   -- chain descriptors that have been woken: physical and virtual address
  turn    : Bool               -- round-robin between the chains and the queue
  deriving DecidableEq, Repr

/-- A fault record: its sixteen words (R376). -/
abbrev Record := List Word

/-- A die and its controller. -/
structure Die where
  age      : Nat               -- (R348)
  migr     : Nat
  counters : Tab (Nat × Word)  -- event counters: source and value (R417)
  tlb      : List TlbEntry     -- the walker's leaves (R373)
  ptrs     : List TlbEntry     -- and its table pointers: what a table covers, and the entry that points to it
  ise      : List (List TlbEntry) -- the leaves of the ISEs of local stacks 0 and 1 (R262, R373)
  access   : Tab Nat           -- access counters by 64 KiB granule (R289)
  vaulted  : List Nat          -- granules of vaults that have been accessed, in order (R418)
  halveAt  : Nat
  queues   : List (List Nat)   -- tasks that hold a slot, by priority, in arrival order (R360)
  pending  : List (Nat × List (Nat × Nat))  -- pending pieces: launch key and domain (R360)
  reserve  : List (Option (Nat × Nat × Nat × Nat))  -- reservation by priority: task, variant, ox, oy (R37)
  posts    : List (Nat × Record)            -- records detected and not yet posted, oldest first (R354)
  holds    : List (Nat × Record)            -- records held for a ring slot
  engines  : Tab Engine        -- by 4 × engine + context
  vaultF   : Word              -- fenced vaults
  hbmF     : Word              -- fenced channels of local stacks 0 and 1
  serviced : Nat               -- clk at which the watchdog was last serviced (R396)
  watts    : Nat
  celsius  : Nat
  sampleAt : Nat
  failed   : Bool              -- excluded at boot or fenced (R397, R418)
  hung     : Bool              -- its controller no longer services the watchdog (R396, R401)
  uncorr   : Tab (List Nat)    -- clks of uncorrectable errors by vault (0 to 63) and channel (64 + …) (R418)
  scrubbed : Tab Nat           -- corrected errors of the scrub pass, likewise
  image    : Option (List Byte) -- the controller's copy of the firmware image, once it has been read (R395)
  refetched : Bool             -- it has been read a second time
  deriving DecidableEq, Repr

/-- A partition of an index tree (R193 to R196): its keys as leaves, and the child counts of each internal level from
the leaves up. -/
structure Part where
  leaves   : List (List (Nat × Word))
  levels   : List (List Nat)
  reserved : Nat
  broken   : Bool              -- (R402)
  deriving DecidableEq, Repr

/-- A sparse-tensor region that has been accessed, by the physical address of its descriptor (R193, R195). -/
structure Tree where
  ok    : Bool                 -- its checks passed
  parts : List Part
  vseq  : Nat
  words : List Nat             -- of one that failed them, the descriptor as it was then
  deriving DecidableEq, Repr

/-- What a request at a home sequencer asks for. -/
inductive HsqReq where
  | atom (aop width : Nat) (unsigned : Bool) (b c : Word)
  | atoms (aop width : Nat) (unsigned : Bool) (items : List (Word × Nat × Nat))   -- a merged group: operand, tile, operation (R235)
  | arrive (n more : Nat) (members : List (Nat × Nat × Option (Option Nat)))   -- arrivals of other packages; tile, operation, and
                                                                          -- for one that goes on to wait its deadline, or one
                                                                          -- evaluation
  | wait (cc width : Nat) (unsigned : Bool) (b : Word) (deadline : Nat) (once acq : Bool)
  | chapp (cmd : Bool) (entry pa : Nat) (cmp : Bool) (cells : List (Nat × Byte))   -- `cmd`: a command in the chain form (R249); the entry's
                                                                          -- address, where it lies, and bytes of it to be written
  deriving DecidableEq, Repr

/-- A request in the queue of a home sequencer (R30, R234, R238). -/
structure HsqEntry where
  ctx : Nat
  pa  : Nat                    -- the word
  t   : Nat                    -- issuing tile
  op  : Option Nat             -- the long-latency operation that receives the result
  va  : Nat                    -- the address and the instruction, for a record
  widx : Nat
  req : HsqReq
  scope : Nat                  -- of a tree ATOM or an arrival, up to which it combines (R235, R240); else 0
  deriving DecidableEq, Repr

/-- An armed WAIT (R237). -/
structure Armed where
  ctx      : Nat
  pa       : Nat
  cc       : Nat
  width    : Nat
  unsigned : Bool
  b        : Word
  deadline : Nat
  t        : Nat
  op       : Nat
  va       : Nat               -- the address and the instruction, for a reissue and a record
  widx     : Nat
  again    : Bool              -- restored: it is to be translated again (R261, R388)
  deriving DecidableEq, Repr

/-- A combining node that holds arrivals or tree atomics of one word (R41, R235, R240, R416). -/
structure Comb where
  level  : Nat                 -- 2 quad, 3 die, 4 package, 5 pod
  place  : Nat                 -- the quad, die or package
  scope  : Nat
  until_ : Nat                 -- a tree ATOM is held to this clk
  entry  : HsqEntry
  deriving DecidableEq, Repr

/-- A PLD deferred at its bank (R154). -/
structure Deferred where
  ctx   : Nat
  t     : Nat
  op    : Nat
  va    : Nat
  pa    : Option Nat           -- none while it is to be translated again
  cmp   : Bool                 -- the page is compressed
  words : List Nat             -- the words it needs, as offsets in words, in lane order
  lanes : Mask
  widx  : Nat
  deriving DecidableEq, Repr

/-- A block read at the MIT for an element's load (R287, R288). -/
structure MitReq where
  t      : Nat
  op     : Nat
  ctx    : Nat
  pa     : Nat
  va     : Nat
  size   : Nat
  signed : Bool
  cmp    : Bool                -- the page is compressed
  phase  : Nat                 -- 0 to be fetched; 1 to be fetched once more, as the first fetch was malformed; 2 to be made again after a
                               -- DECMP, as a new request (R288, R289)
  widx   : Nat
  deriving DecidableEq, Repr

/-- A value that an ISE returns to an AG port (R30, R189). -/
structure IseReturn where
  stack : Nat                  -- the HBM stack of the ISE
  t     : Nat
  port  : Nat
  ctx   : Nat
  value : Lane
  last  : Bool                 -- it ends its pass
  deriving DecidableEq, Repr

/-- A region that has been freeze-saved (R387), with what its restore reissues. Tiles are counted within the region, and
deadlines are what is left of them. -/
structure Saved where
  num      : Nat               -- its number, which it keeps
  ctx      : Nat
  area     : Nat               -- physical address of its region area; 0 for one that moves off a fenced tile (R71)
  region   : Region
  tiles    : List Tile
  armed    : List Armed
  deferred : List Deferred
  mit      : List MitReq
  retry    : List HsqEntry
  deriving DecidableEq, Repr

/-- A translation fence in progress (R158, R375). -/
structure Fence where
  ctx   : Nat
  lo    : Nat
  len   : Nat                  -- 0 covers the context
  left  : List Nat             -- dies whose units have not acknowledged
  t     : Option Nat           -- the element that waits; none for the host
  tag   : Nat                  -- the host's transaction, and its order class (R346)
  ocls  : Nat
  deriving DecidableEq, Repr

/-- A completion sent to the host, and a NOTIFY (R344, R345, R355). -/
structure Cpl where
  tag    : Nat
  status : Nat
  astat  : Nat
  data   : List Word
  deriving DecidableEq, Repr

/-- A host transaction that waits, by the kind of R345: RD 0, WR 1, WRC 2, APPEND 3, FLUSH 4, TFENCE 5. -/
structure HostTx where
  kind : Nat
  h    : TxHdr
  data : List Word
  deriving DecidableEq, Repr

/-- The host link and the global registers of the control block (R343 to R348). -/
structure HostLink where
  cpls     : List Cpl
  notifies : List (Nat × Word)
  asked    : List (Nat × Nat × Nat)   -- RDs the device has sent: tag, host address, words
  herrV    : Bool
  herrSt   : BitVec 4
  herrAddr : BitVec 56
  modules  : BitVec 16         -- modules that are up
  replays  : Nat               -- link units replayed
  irqs     : Nat               -- sideband interrupts sent to the host die
  waiting  : List HostTx       -- transactions that wait for a translation fence of their class, in order (R346, R375)
  deriving DecidableEq, Repr

/-- The boot block, the measurements and the firmware (R393 to R400). -/
structure Boot where
  bstate    : Nat
  berr      : Nat
  imgaddr   : BitVec 56
  imglen    : BitVec 32
  nonceaddr : BitVec 56
  nonce     : List Byte        -- as read for the attestation in progress (R400)
  rspaddr   : BitVec 56
  attop     : BitVec 2
  attst     : BitVec 2
  attlen    : BitVec 32
  minseq    : Word
  raises    : Nat              -- fuse raises of minseq made
  plim      : BitVec 12
  tstate    : BitVec 2
  tjmax     : BitVec 8
  pavg      : BitVec 16
  revoked   : BitVec 4
  m0        : BitVec 384
  m1        : BitVec 384
  m2        : BitVec 384
  m3        : BitVec 384
  fwseq     : Word
  live      : BitVec 4
  header    : List Byte        -- header of the image being run
  tripped   : Bool             -- a thermal trip holds go (R407)
  calmAt    : Nat              -- clk since which the row-0 condition has held (R404)
  updateAt  : Nat
  tclk      : List Nat         -- clk spent in each throttle state (R405)
  samples   : List (Nat × Nat × Nat × Nat)   -- of the last 1 ms: clk, die, watts, celsius (R404)
  measured  : Bool             -- the drain configuration, the one system-slot image, has been loaded since boot (R398)
  deriving DecidableEq, Repr

/-- Lattice ports, pod configuration, monitors and REPLACE (R408 to R420). -/
structure Fleet where
  en      : Bool
  dimz    : BitVec 3
  dimy    : BitVec 4
  dimx    : BitVec 4
  pkg     : BitVec 11
  lst     : List Nat           -- 16 ports: 0 down, 1 training, 2 up, 3 fenced
  retrain : List Nat           -- failed retrains in a row
  retries : List (List Nat)    -- clks of the flit retries that count toward fencing (R418)
  missed  : List Nat           -- missed keep-alives
  rx      : List (Nat × Flit)  -- receive buffers: flits with their port, oldest first; 16 more for one that is to be sent again (R411, R421),
                               -- and 32 for the package's own that have no port yet
  tx      : List (Nat × Flit × Flit)   -- flits sent on a port and not yet acknowledged, oldest first: as sent, and as they came, for a
                               -- resending on another port (R410, R421)
  used    : Tab Nat            -- credits in use, by port, channel and dateline class (R411)
  lostPkg : List Nat           -- packages known to be lost (R413)
  monctl  : BitVec 18
  fsel    : BitVec 9
  repl    : Bool
  rlast   : BitVec 8
  rlastAt : Nat                -- clk of that reason (R421)
  rfirst  : BitVec 8
  deriving DecidableEq, Repr

/-- What the next step does. -/
inductive Turn where
  | elem (t : Nat)             -- the element of a tile runs one instruction
  | op (i : Instr)             -- an event of the part, or an input from outside
  | tx (x : HostTx)            -- a host transaction that had to wait
  deriving DecidableEq, Repr

/-- The machine. -/
structure State where
  time     : Nat               -- package time in clk (R242)
  free     : Nat               -- the model's own: how many free values have been drawn
  here     : Nat               -- the model's own: the tile whose element runs
  agenda   : List Turn         -- the model's own: what the next steps do
  mem      : List Host.Cell    -- device physical memory, host memory included (R369)
  pres     : List Nat          -- presence words that are full, rising (R154)
  tags     : Tab Nat           -- compression tags other than 0, by 256-byte block (R287)
  bad      : List Nat          -- 8-byte words with an uncorrectable error (R401)
  zmb      : List Nat          -- blocks of compressed SYNC and SPARSE pages, as the last request that named one said: what its home goes by (R288)
  badTags  : List Nat          -- blocks whose tag has an uncorrectable error
  tiles    : Tab Tile
  regions  : Tab Region
  tasks    : Tab Task          -- by handle
  launches : List Launch       -- in order of arming; a pending arm is one that is not running behind its record's
  nregion  : Nat
  nhandle  : Nat
  ctxs     : List Ctx          -- user slots 0 to 3
  dies     : List Die
  trees    : Tab Tree
  hsq      : Tab (List HsqEntry)   -- request queues by vault
  granted  : Tab Nat           -- the channel that each sequencer has served last, by vault (R30)
  armed    : List Armed        -- in arming order
  combs    : List Comb
  retry    : List HsqEntry     -- requests that met a fault at their home, to be made again when their regions go on (R381)
  deferred : List Deferred
  mit      : List MitReq
  iseq     : List IseReturn    -- the return queues of the ISEs, oldest first (R30)
  fences   : List Fence
  saved    : List Saved
  commits  : List (List Loc)   -- write signatures of the commits made, oldest first (R275)
  host     : HostLink
  boot     : Boot
  fleet    : Fleet
  deriving DecidableEq, Repr

/-! ### Reset -/

/-- A fresh unit (R162). -/
def UState.fresh : UState :=
  { started := false, ended := false, pending := false, fibre := 0, stream := 0, fibre1 := 0, stream1 := 0, skip0 := none,
    skip1 := none, held := none, ref := none, pos := 0, lim := 0, floor := 0, mark := 0, checked := false, acc := none,
    lanes := [], group := [], entries := [], block := [], served := 0, due := 0, switched := false }

/-- A bank of zeros with saturation off (R205). -/
def AccBank.zero : AccBank := { elems := [], sat := false }

/-- A tile no region has taken: registers full and zero (R75), bank 0 active (R25). -/
def Tile.reset : Tile :=
  { region := none, x := List.replicate 32 ⟨0, true⟩, v := List.replicate 16 ⟨0, true⟩,
    p := 0xFFFF :: List.replicate 7 0, ids := List.replicate 11 0, array := (1, 1), was := none, gsr := 0, beads := [], ops := [], nbead := 0, nop := 0,
    bseq := List.replicate 5 0, mxc := ⟨.zero, .zero, []⟩, units := [], outs := [], inq := [], outq := [], wire := [],
    stamps := [], nstamp := 0, joins := [], swsrc := [], relFence := false, bank := false, bank0 := .empty, bank1 := .empty, scratch := [], owner := none,
    spSites := [], fenced := false, cfgErr := none, corr := [] }

/-- A context slot at reset (R349). -/
def Ctx.reset : Ctx :=
  { state := 0, ptroot := 0, pool := 0, fqbase := 0, fqn := 0, fqhead := 0, fqtail := 0, naddr := 0, ndata := 0, hdl := 0,
    vgrant := [0, 0, 0, 0], visible := false, notify := false, lost := 0, nlseq := 1, nseq := 1, cmds := [], preempt := none, acting := none,
    stop := 0, saving := 0, nsaved := 0, restore := [], restoring := none, badsave := false, colls := [] }

/-- A die at reset (R348). -/
def Die.reset : Die :=
  { age := 20, migr := 16, counters := [], tlb := [], ptrs := [], ise := [[], []], access := [], vaulted := [], halveAt := 2 ^ 26,
    queues := [[], [], [], []], pending := [], reserve := [none, none, none, none], posts := [],
    holds := [], engines := [], vaultF := 0, hbmF := 0, serviced := 0, watts := 0, celsius := 0, sampleAt := 2 ^ 16,
    failed := false, hung := false, uncorr := [], scrubbed := [], image := none, refetched := false }

def HostLink.reset : HostLink :=
  { cpls := [], notifies := [], asked := [], herrV := false, herrSt := 0, herrAddr := 0, modules := 0xFFFF, replays := 0,
    irqs := 0, waiting := [] }

def Boot.reset : Boot :=
  { bstate := 0, berr := 0, imgaddr := 0, imglen := 0, nonceaddr := 0, nonce := [], rspaddr := 0, attop := 0, attst := 0, attlen := 0,
    minseq := 0, raises := 0, plim := 3000, tstate := 0, tjmax := 0, pavg := 0, revoked := 0, m0 := 0, m1 := 0, m2 := 0,
    m3 := 0, fwseq := 0, live := 0, header := [], tripped := false, calmAt := 0, updateAt := 1800000,
    tclk := [0, 0, 0, 0], samples := [], measured := false }

def Fleet.reset : Fleet :=
  { en := false, dimz := 0, dimy := 0, dimx := 0, pkg := 0, lst := List.replicate 16 0, retrain := List.replicate 16 0,
    retries := List.replicate 16 [], missed := List.replicate 16 0, rx := [], tx := [], used := [],
    lostPkg := [], monctl := 0, fsel := 0, repl := false, rlast := 0, rlastAt := 0, rfirst := 0 }

/-- The package right after reset: bstate RESET, every context FREE, nothing loaded (R349, R393, R395). -/
def State.reset : State :=
  { time := 0, free := 0, here := 0, agenda := [], mem := [], pres := [], tags := [], bad := [], zmb := [], badTags := [], tiles := [],
    regions := [], tasks := [], launches := [], nregion := 0, nhandle := 1, ctxs := [.reset, .reset, .reset, .reset],
    dies := [.reset, .reset, .reset, .reset], trees := [], hsq := [], granted := [], armed := [], combs := [], retry := [], deferred := [], mit := [],
    iseq := [], fences := [], saved := [], commits := [], host := .reset, boot := .reset, fleet := .reset }

end Sys2Proof.Machine
end

