-- ==== Sys2Proof/Machine/Ops.lean ====
section
/-! DEFINITION. The named operations over tables, memory, registers, beads and regions, the discarding and rerunning of a
speculative interval, and the taking of an exception and the return from one. -/

namespace Sys2Proof.Machine

/-! ### Tables and memory -/

/-- The entry of a key. -/
def tabGet {α : Type} (k : Nat) : Tab α → Option α
  | [] => none
  | (i, a) :: t => if i = k then some a else tabGet k t

/-- A table with the entry of a key replaced or added; keys stay in rising order. -/
def tabSet {α : Type} (k : Nat) (a : α) : Tab α → Tab α
  | [] => [(k, a)]
  | (i, b) :: t => if i = k then (k, a) :: t else if k < i then (k, a) :: (i, b) :: t else (i, b) :: tabSet k a t

/-- A table without a key. -/
def tabErase {α : Type} (k : Nat) (t : Tab α) : Tab α := t.filter fun p => p.1 != k

/-- A byte of a memory; a byte not listed is zero (R269; log entry 2). -/
def memGet (a : Nat) : List Host.Cell → Byte
  | [] => 0
  | (i, b) :: m => if i = a then b else memGet a m

def memErase (a : Nat) (m : List Host.Cell) : List Host.Cell := m.filter fun p => p.1 != a

def memInsert (a : Nat) (b : Byte) : List Host.Cell → List Host.Cell
  | [] => [(a, b)]
  | (i, c) :: m => if a < i then (a, b) :: (i, c) :: m else (i, c) :: memInsert a b m

/-- A byte written. A zero byte is not listed, so that equal memories are equal lists. -/
def memSet (a : Nat) (b : Byte) (m : List Host.Cell) : List Host.Cell :=
  if b = 0 then memErase a m else memInsert a b (memErase a m)

/-- Cells written in order. -/
def memWrite (cells : List Host.Cell) (m : List Host.Cell) : List Host.Cell :=
  cells.foldl (fun m c => memSet c.1 c.2 m) m

/-- n bytes from an address up. -/
def memBytes (a n : Nat) (m : List Host.Cell) : List Byte := (List.range n).map fun i => memGet (a + i) m

/-- The cells of consecutive bytes. -/
def cellsAt (a : Nat) (bs : List Byte) : List Host.Cell := (List.range bs.length).map fun i => (a + i, bs.getD i 0)

/-- The canonical form of a memory: addresses strictly rising, no zero byte listed. -/
abbrev Memory.wf (m : List Host.Cell) : Prop := (m.map Prod.fst).Pairwise (· < ·) ∧ ∀ c ∈ m, c.2 ≠ 0

/-- A number put into a rising list once. -/
def setInsert (a : Nat) : List Nat → List Nat
  | [] => [a]
  | i :: t => if a = i then i :: t else if a < i then a :: i :: t else i :: setInsert a t

/-! ### Places -/

def dieOf (t : Nat) : Nat := t / 576
def tyOf (t : Nat) : Nat := t % 576 / 24
def txOf (t : Nat) : Nat := t % 24
def tileAt (die ty tx : Nat) : Nat := die * 576 + ty * 24 + tx
/-- The vault over a tile (R66). -/
def vaultOf (t : Nat) : Nat := dieOf t * 64 + tyOf t / 3 * 8 + txOf t / 3

/-- The kinds of event that R417 Table 2 names as sources, or that a rule says are counted. -/
inductive Event where
  | issue | commitMade | abortMade | splitMade | replayMade | smallest | resx | taskqRefused | reservation | dcntFloor
  | kindMismatch | skipSent | skipDiscarded | depthOverflow | routeDiscard | mergeOverlap | mergeStop | repeaterDiscard
  | writerDiscard | tagMismatch | stopMismatch | selBad | bmapDiscard | agDiscard
  | pldDeferral | zmbRefetch | decmpRaised | migrationHint | tlbMiss | walkMade | bufferBytes
  | ssrchSeed | operandPhase | macClk (rate : Nat)
  | corrected (structure' : Nat) | scrubWrite | cfgecc | linkRetry
  | flitSent (cls : Nat) | flitReceived (cls : Nat) | creditStall | moduleLost | latticeRetrain
  | throttleClk (state : Nat) | heldEvent | qovf | eventLost
  deriving DecidableEq, Repr

/-- The number of an event kind. -/
def Event.toNat : Event → Nat
  | .issue => 0 | .commitMade => 1 | .abortMade => 2 | .splitMade => 3 | .replayMade => 4 | .smallest => 5 | .resx => 6
  | .taskqRefused => 7 | .reservation => 8 | .dcntFloor => 9 | .kindMismatch => 10 | .skipSent => 11 | .skipDiscarded => 12
  | .depthOverflow => 13 | .routeDiscard => 14 | .mergeOverlap => 15 | .mergeStop => 16 | .repeaterDiscard => 17
  | .writerDiscard => 18 | .tagMismatch => 19 | .stopMismatch => 20 | .selBad => 21 | .bmapDiscard => 22 | .agDiscard => 23
  | .pldDeferral => 24 | .zmbRefetch => 25 | .decmpRaised => 26 | .migrationHint => 27 | .tlbMiss => 28 | .walkMade => 29
  | .bufferBytes => 30 | .ssrchSeed => 31 | .operandPhase => 32 | .scrubWrite => 33 | .cfgecc => 34 | .linkRetry => 35
  | .creditStall => 36 | .moduleLost => 38 | .latticeRetrain => 39 | .heldEvent => 40 | .qovf => 41
  | .eventLost => 42 | .throttleClk k => 50 + k | .corrected k => 60 + k | .macClk k => 70 + k | .flitSent k => 80 + 2 * k
  | .flitReceived k => 81 + 2 * k

/-- The group of source codes of an event (R417 Table 2): its first code, and how many it has. -/
def Event.group : Event → Nat × Nat
  | .issue | .commitMade | .abortMade | .splitMade | .replayMade | .smallest | .resx | .taskqRefused | .reservation | .dcntFloor => (0x00, 32)
  | .pldDeferral | .zmbRefetch | .decmpRaised | .migrationHint | .tlbMiss | .walkMade | .bufferBytes => (0x40, 32)
  | .ssrchSeed | .operandPhase | .macClk _ => (0x60, 32)
  | .corrected _ | .scrubWrite | .cfgecc | .linkRetry => (0x80, 32)
  | .flitSent _ | .flitReceived _ | .creditStall | .moduleLost | .latticeRetrain => (0xA0, 24)
  | .throttleClk _ | .heldEvent | .qovf | .eventLost => (0xB8, 16)
  | .kindMismatch | .skipSent | .skipDiscarded | .depthOverflow | .routeDiscard | .mergeOverlap | .mergeStop | .repeaterDiscard
  | .writerDiscard | .tagMismatch | .stopMismatch | .selBad | .bmapDiscard | .agDiscard => (0x20, 32)

/-- The source code of an event: its group is the spec's, and its place in the group the part's own. -/
def Event.code (e : Event) : Nat := e.group.1 + Config.eventCode e.toNat % e.group.2

namespace State

def tile (s : State) (t : Nat) : Tile := (tabGet t s.tiles).getD Tile.reset
def setTile (s : State) (t : Nat) (T : Tile) : State := { s with tiles := tabSet t T s.tiles }
def onTile (s : State) (t : Nat) (f : Tile → Tile) : State := s.setTile t (f (s.tile t))
/-- The tile whose element runs. -/
def me (s : State) : Tile := s.tile s.here
def onMe (s : State) (f : Tile → Tile) : State := s.onTile s.here f

def region? (s : State) (r : Nat) : Option Region := tabGet r s.regions
def setRegion (s : State) (r : Nat) (g : Region) : State := { s with regions := tabSet r g s.regions }
def onRegion (s : State) (r : Nat) (f : Region → Region) : State :=
  match s.region? r with
  | some g => s.setRegion r (f g)
  | none => s

def task? (s : State) (h : Nat) : Option Task := tabGet h s.tasks
def setTask (s : State) (h : Nat) (k : Task) : State := { s with tasks := tabSet h k s.tasks }
def onTask (s : State) (h : Nat) (f : Task → Task) : State :=
  match s.task? h with
  | some k => s.setTask h (f k)
  | none => s

def ctx (s : State) (c : Nat) : Ctx := s.ctxs.getD c Ctx.reset
def onCtx (s : State) (c : Nat) (f : Ctx → Ctx) : State := { s with ctxs := s.ctxs.modify c f }
def die (s : State) (d : Nat) : Die := s.dies.getD d Die.reset
def onDie (s : State) (d : Nat) (f : Die → Die) : State := { s with dies := s.dies.modify d f }

/-- The region of a tile, with its number. -/
def regionOf (s : State) (t : Nat) : Option (Nat × Region) :=
  match (s.tile t).region with
  | some r => (s.region? r).map fun g => (r, g)
  | none => none

/-- The region of a tile, while its units work: it runs, is not frozen, and no drain is in force (R40, R163). -/
def active (s : State) (t : Nat) : Option (Nat × Region) := (s.regionOf t).filter fun q => q.2.running && !q.2.frozen && q.2.drain.isNone

/-- The context that a tile works for; 0 where no region holds it. -/
def ctxOf (s : State) (t : Nat) : Nat := match s.regionOf t with | some (_, g) => g.ctx | none => 0

/-- The context of the running element. -/
def myCtx (s : State) : Nat := s.ctxOf s.here

/-- A free value (log entry 5): the next draw, and the state that has drawn it. -/
def draw (s : State) : Word × State := (Config.freeWord s.free, { s with free := s.free + 1 })

/-- Turns put at the head of the agenda. -/
def push (s : State) (ts : List Turn) : State := { s with agenda := ts ++ s.agenda }
/-- Turns put at the end of the agenda. -/
def later (s : State) (ts : List Turn) : State := { s with agenda := s.agenda ++ ts }

def memSet (s : State) (cells : List Host.Cell) : State := { s with mem := memWrite cells s.mem }
/-- The 64-bit word of device physical memory at an address. -/
def memWord (s : State) (pa : Nat) : Nat := ofBytes (memBytes pa 8 s.mem)

/-- So many events of a die are counted in the event counters whose source they are (R417). -/
def countBy (s : State) (d : Nat) (e : Event) (n : Nat) : State :=
  s.onDie d fun D => { D with counters := D.counters.map fun c => if c.2.1 = e.code then (c.1, c.2.1, c.2.2 + BitVec.ofNat 64 n) else c }
/-- One event. -/
def count (s : State) (d : Nat) (e : Event) : State := s.countBy d e 1

end State

namespace Region

/-- The tiles of a region, row by row. -/
def tiles (g : Region) : List Nat :=
  (List.range g.h).flatMap fun dy => (List.range g.w).map fun dx => tileAt g.die (g.oy + dy) (g.ox + dx)
def holds (g : Region) (t : Nat) : Bool :=
  dieOf t == g.die && g.oy ≤ tyOf t && tyOf t < g.oy + g.h && g.ox ≤ txOf t && txOf t < g.ox + g.w
/-- A tile counted within its region, row by row; and the tile of a number so counted. -/
def place (g : Region) (t : Nat) : Nat := (tyOf t - g.oy) * g.w + (txOf t - g.ox)
def at_ (g : Region) (i : Nat) : Nat := tileAt g.die (g.oy + i / g.w) (g.ox + i % g.w)
/-- Entries of the speculative store buffer (R424). -/
def capacity (g : Region) : Nat := g.w * g.h * 16384

end Region

/-! ### Configuration of a tile -/

namespace Tile

def unit (T : Tile) (u : Nat) : UState := (tabGet u T.units).getD UState.fresh
def onUnit (T : Tile) (u : Nat) (f : UState → UState) : Tile := { T with units := tabSet u (f (T.unit u)) T.units }

def physBank (T : Tile) (b : Bool) : Bank := if b then T.bank1 else T.bank0
/-- The physical bank a unit runs under: the tile's, or the other once the unit has switched (R25, R26). -/
def bankOf (T : Tile) (u : Nat) : Bool := T.bank != (T.unit u).switched
/-- The unit that a frame of a bank configures; 11 for the switch. -/
def frameUnit (i : Nat) : Nat := if i < 9 then 0 else if i < 15 then i - 8 else if i < 19 then i - 8 else 11
/-- A frame of the bank its unit runs under. -/
def frame (T : Tile) (i : Nat) : List Word := (tabGet i (T.physBank (T.bankOf (frameUnit i))).frames).getD [0, 0, 0, 0]
def hasFrame (T : Tile) (i : Nat) : Bool := (tabGet i (T.physBank (T.bankOf (frameUnit i))).frames).isSome
/-- A word of the CE header (R52 Table 5). -/
def header (T : Tile) (i : Nat) : Nat := word (T.frame 0) i
/-- The CE runs as a transform node (R55). -/
def isXf (T : Tile) : Bool := (T.physBank (T.bankOf 0)).xf
def isCe (T : Tile) : Bool := T.hasFrame 0 && !T.isXf
def inen (T : Tile) : Nat := bits (T.header 0) 60 4
def outen (T : Tile) : Nat := bits (T.header 0) 56 4
def nprog (T : Tile) : Nat := bits (T.header 0) 52 4
def nslot (T : Tile) : Nat := bits (T.header 0) 48 4
def join (T : Tile) : Nat := bits (T.header 0) 46 2
def selin (T : Tile) : Nat := bits (T.header 0) 44 2
def entry (T : Tile) : Nat := bits (T.header 0) 32 8
def nmoff (T : Tile) : Bool := bit (T.header 0) 31
def scrkib (T : Tile) : Nat := bits (T.header 1) 48 16
def scrbase (T : Tile) : Nat := bits (T.header 1) 32 16
/-- Cells written to a scratchpad; a word written whole has valid check bits again (R401). -/
def writeScratch (T : Tile) (cells : List Host.Cell) : Tile :=
  { T with
    scratch := memWrite cells T.scratch
    spSites := T.spSites.filter fun w => !((List.range 8).all fun i => cells.any fun c => c.1 == 8 * w + i) }

/-- The program word of an instruction index (R54). -/
def program (T : Tile) (pc : Nat) : Word := (T.frame (1 + pc / 4)).getD (pc % 4) 0

/-! #### Queues -/

def inQ (T : Tile) (c : Nat) : Queue := (tabGet c T.inq).getD ⟨[], 0⟩
def outQ (T : Tile) (c : Nat) : Queue := (tabGet c T.outq).getD ⟨[], 0⟩
def wireQ (T : Tile) (c : Nat) : Queue := (tabGet c T.wire).getD ⟨[], 0⟩
def setInQ (T : Tile) (c : Nat) (q : Queue) : Tile := { T with inq := tabSet c q T.inq }
def setOutQ (T : Tile) (c : Nat) (q : Queue) : Tile := { T with outq := tabSet c q T.outq }
def setWireQ (T : Tile) (c : Nat) (q : Queue) : Tile := { T with wire := tabSet c q T.wire }
/-- The beat at the head of an input. -/
def inHead (T : Tile) (c : Nat) : Option Beat := (T.inQ c).beats.head?
/-- An input with its head beat taken. -/
def popIn (T : Tile) (c : Nat) : Tile := T.setInQ c ⟨(T.inQ c).beats.drop 1, 0⟩
/-- The input queues of a unit, by port index (R160 Table 1); a stream port of an AG has ref_in and in. -/
def inputCodes (u : Nat) : List Nat :=
  match u with
  | 0 | 3 => (List.range 4).map (· + 8 * u)
  | 1 | 2 => [8 * u, 8 * u + 1]
  | 4 => [32, 33]
  | 5 => [40]
  | 6 => [48, 49, 50]
  | _ => [56 + 2 * (u - 7), 57 + 2 * (u - 7)]
/-- The inputs of a unit that have delivered SW (R26), as bits: SW waits at the head until the unit switches. -/
def swDelivered (T : Tile) (u : Nat) : Nat := packNat 1 ((inputCodes u).map fun c => if (T.inHead c).map Beat.kind == some 6 then 1 else 0)
/-- Beats that arrive at an input buffer; a bead header at a CE input is stamped (R149). -/
def pushIn (T : Tile) (c : Nat) (bs : List Beat) : Tile :=
  let n := (bs.filter fun b => c < 4 && b.kind == 7).length
  let T := T.setInQ c ⟨(T.inQ c).beats ++ bs, (T.inQ c).used⟩
  if n = 0 then T
  else { T with
    stamps := tabSet c ((tabGet c T.stamps).getD [] ++ (List.range n).map (· + T.nstamp)) T.stamps
    nstamp := T.nstamp + n }
/-- The stamp of the first bead header at a CE input. -/
def stampAt (T : Tile) (c : Nat) : Nat := ((tabGet c T.stamps).getD []).headD 0
def popStamp (T : Tile) (c : Nat) : Tile := { T with stamps := tabSet c (((tabGet c T.stamps).getD []).drop 1) T.stamps }
/-- Beats put behind those an output already holds (R13). -/
def pushOut (T : Tile) (c : Nat) (bs : List Beat) : Tile := T.setOutQ c ⟨(T.outQ c).beats ++ bs, (T.outQ c).used⟩
/-- An output holds credit for n more beats (R30; 16 beats, log entry 6). -/
def outRoom (T : Tile) (c n : Nat) : Bool := (T.outQ c).beats.length + n ≤ 16

/-! #### Registers (R73, R74) -/

/-- x0 reads zero. -/
def readX (T : Tile) (r : Nat) : Word := if r = 0 then 0 else (T.x.getD r ⟨0, true⟩).val
/-- p0 reads 0xFFFF. -/
def readP (T : Tile) (k : Nat) : Mask := if k = 0 then 0xFFFF else T.p.getD k 0
/-- The bead being processed (R18): the oldest in flight. -/
def head? (T : Tile) : Option Bead := T.beads.head?
def lmask (T : Tile) : Mask := match T.head? with | some b => b.lmask | none => 0
def pc (T : Tile) : Nat := match T.head? with | some b => b.pc | none => 0
/-- A V register by specifier: v0 to v15, or slot b0 to b7 of the bead; a slot the bead lacks reads empty (R17). -/
def vreg (T : Tile) (r : BitVec 6) : VReg :=
  if r.toNat < 48 then T.v.getD (r.toNat - 32) ⟨0, true⟩
  else match T.head? with
    | some b => b.slots.getD (r.toNat - 48) ⟨0, false⟩
    | none => ⟨0, false⟩
def readV (T : Tile) (r : BitVec 6) : Vec := (T.vreg r).val
/-- The full/empty bit of a register; a predicate register is always full (R73, R77). -/
def full (T : Tile) (r : BitVec 6) : Bool :=
  if Spec.isX r then r == 0 || (T.x.getD r.toNat ⟨0, true⟩).full
  else if Spec.isP r then true
  else (T.vreg r).full

def onHead (T : Tile) (f : Bead → Bead) : Tile :=
  match T.beads with
  | [] => T
  | b :: bs => { T with beads := f b :: bs }

/-- A pending producer of a register gives up its claim to the lanes written over it (R20, R125; log entry 14). -/
def claim (d : Dest) (lanes : Mask) (o : LongOp) : LongOp :=
  if o.dest = d then
    match d with
    | .x _ => { o with dest := .none }
    | _ => { o with lanes := o.lanes &&& ~~~lanes }
  else o

/-- A pending producer before a later long-latency one: with no lane left to write it has nothing to do with the register, whose bit
turns full when the later value arrives (R20). -/
def supersede (d : Dest) (lanes : Mask) (o : LongOp) : LongOp :=
  let o' := claim d lanes o
  if o.dest = d ∧ o'.lanes = 0 then { o' with dest := .none } else o'

def destOf (T : Tile) (r : BitVec 6) : Dest :=
  if Spec.isX r then (if r = 0 then .none else .x r.toNat)
  else if r.toNat < 48 then .v (r.toNat - 32)
  else match T.head? with
    | some b => .b b.num (r.toNat - 48)
    | none => .none

def setVreg (T : Tile) (r : BitVec 6) (x : VReg) : Tile :=
  if r.toNat < 48 then { T with v := T.v.set (r.toNat - 32) x }
  else T.onHead fun b => { b with slots := b.slots.set (r.toNat - 48) x }

/-- A short-latency result in an X register: full, and a pending producer's result is dropped (R20; log entry 14). -/
def writeX (T : Tile) (r : Nat) (v : Word) : Tile :=
  if r = 0 then T
  else { T with x := T.x.set r ⟨v, true⟩, ops := T.ops.map (claim (.x r) 0) }

/-- A short-latency result in the lanes of a V register; its F/E bit is unchanged (R125). -/
def writeV (T : Tile) (r : BitVec 6) (v : Vec) (m : Mask) : Tile :=
  let T' := T.setVreg r ⟨merge (T.readV r) v m, (T.vreg r).full⟩
  { T' with ops := T'.ops.map (claim (T.destOf r) m) }

/-- A predicate register written in the bits of a mask (R123); p0 discards it. -/
def writeP (T : Tile) (k : Nat) (v m : Mask) : Tile :=
  if k = 0 then T else { T with p := T.p.set k ((T.readP k &&& ~~~m) ||| (v &&& m)) }

/-- A long-latency producer marks its destination empty and is recorded as outstanding (R20, R77). -/
def issueOp (T : Tile) (kind : OpKind) (r : BitVec 6) (lanes : Mask) (value : Option Vec) (acq : Bool) (i : Instr) : Tile :=
  let d := T.destOf r
  let T' := match d with
    | .none => T
    | .x k => { T with x := T.x.set k ⟨T.readX k, false⟩ }
    | _ => T.setVreg r ⟨T.readV r, false⟩
  { T' with
    ops := T'.ops.map (supersede d lanes) ++ [⟨T.nop, kind, d, lanes, value, acq, i⟩]
    nop := T.nop + 1 }

/-- A matrix instruction has its operands to read or its stores to perform (R213). -/
def matrixPending (T : Tile) : Bool := T.mxc.queue.any fun o => !o.staged || !o.held.isEmpty || !o.cells.isEmpty
/-- An earlier access of the element that has not been performed (R155, R156). -/
def unperformed (T : Tile) : Bool := (T.ops.any fun o => o.value.isNone && o.kind != .lpatch) || T.matrixPending

/-- The result of an outstanding operation has arrived at the element. -/
def deliver (T : Tile) (n : Nat) (v : Vec) : Tile :=
  { T with ops := T.ops.map fun o => if o.num = n then { o with value := some v } else o }

/-- The value of an outstanding operation written to the lanes it still owes its register, which becomes full unless a later producer is
pending on it (R20). -/
def writeResult (T : Tile) (o : LongOp) (v : Vec) : Tile :=
  let ops := T.ops.filter fun q => q.num != o.num
  let free := !(ops.any fun q => q.dest == o.dest && o.num < q.num)
  let T := { T with ops := ops }
  match o.dest with
  | .none => T
  | .x r => { T with x := T.x.set r ⟨if r = 0 then 0 else v.setWidth 64, free⟩ }
  | .v r => { T with v := T.v.set r ⟨merge (T.v.getD r ⟨0, true⟩).val v o.lanes, free⟩ }
  | .b n k => { T with beads := T.beads.map fun b =>
      if b.num = n then { b with slots := b.slots.set k ⟨merge (b.slots.getD k ⟨0, true⟩).val v o.lanes, free⟩ } else b }

/-- The oldest bead leaves the element; what was outstanding for its slots has nowhere to go. -/
def dropHead (T : Tile) : Tile :=
  match T.beads with
  | [] => T
  | b :: bs =>
    { T with
      beads := bs
      ops := T.ops.map fun o => match o.dest with | .b n _ => if n = b.num then { o with dest := .none } else o | _ => o }

/-- The instruction is complete; after the last one the bead retires (R126). -/
def advance (T : Tile) : Tile :=
  match T.beads with
  | [] => T
  | b :: _ => if 4 * T.nprog ≤ b.pc + 1 then T.dropHead else T.onHead fun b => { b with pc := b.pc + 1 }

/-- An element takes a place in an array node: column and row, and the node's size (R51). -/
def takePlace (T : Tile) (a : (Nat × Nat) × (Nat × Nat)) : Tile :=
  { T with
    ids := (T.ids.set 4 (BitVec.ofNat 64 a.1.1)).set 5 (BitVec.ofNat 64 a.1.2)
    array := a.2 }
/-- The element's place in its array node, and the node's size. -/
def arrayPlace (T : Tile) : (Nat × Nat) × (Nat × Nat) := (((T.ids.getD 4 0).toNat, (T.ids.getD 5 0).toNat), T.array)
/-- An element that a rolling switch in progress has taken over goes back to the place it had before (R38). -/
def undoSwitch (T : Tile) : Tile := match T.was with | some a => { T.takePlace a with was := none } | none => T

/-- The tile as a fresh interval finds it (R75, R110, R204): registers full and zero, no bead, token or operation. The
configuration, the scratchpad and the identifiers stay, those of before a rolling switch in progress. -/
def clear (T : Tile) (g : BitVec 32) : Tile :=
  { T.undoSwitch with
    x := Tile.reset.x, v := Tile.reset.v, p := Tile.reset.p, gsr := g, beads := [], ops := [], bseq := Tile.reset.bseq,
    mxc := Tile.reset.mxc, units := [], outs := [], inq := [], outq := [], wire := [], stamps := [],
    joins := [], swsrc := [], relFence := false }

end Tile

/-! ### Beats (R11 to R17) -/

namespace Beat

def control (kind stop ctx : Nat) (lane0 : Nat) : Beat := ⟨kind, 0, stop, 0, ctx, 0, BitVec.ofNat 512 lane0⟩
/-- A data beat of tokens. -/
def tokens (kind ctx : Nat) (xs : List Lane) : Beat := ⟨kind, xs.length, 0, 0, ctx, 0, ofLanes xs⟩
/-- The header of a bead (R17 Table 5). -/
def beadh (ctx : Nat) (b : Bead) (nslot : Nat) : Beat :=
  ⟨7, 0, 0, 0, ctx, 0,
    BitVec.ofNat 512 (b.lmask.toNat + 2 ^ 16 * nslot + 2 ^ 24 * b.tag.toNat + 2 ^ 32 * b.bseq.toNat + 2 ^ 48 * b.loopc.toNat)⟩
/-- A bead as beats: its header, then a VAL beat for each slot (R17). -/
def ofBead (ctx : Nat) (b : Bead) (slots : List Vec) : List Beat :=
  beadh ctx b slots.length :: (List.range slots.length).map fun k => ⟨2, 16, 0, k, ctx, 0, slots.getD k 0⟩
def lane0 (b : Beat) : Nat := b.data.toNat % 2 ^ 32

end Beat

/-! ### Physical memory: the map of R369, compressed blocks (R286 to R288), uncorrectable words (R401) -/

/-- Table 1 of R369. -/
def inHbm (pa : Nat) : Bool := pa < 2 ^ 39
def vaultBase : Nat := 2 ^ 40
def inVault (pa : Nat) : Bool := vaultBase ≤ pa && pa < vaultBase + 2 ^ 32
def hostBase : Nat := 2 ^ 48
def inHost (pa : Nat) : Bool := hostBase ≤ pa && pa < 2 * hostBase
def dcbBase : Nat := 0xFF000000000000
def inDcb (pa : Nat) : Bool := dcbBase ≤ pa && pa < dcbBase + 0x600
/-- The memory of other packages (R412). -/
def remoteBase : Nat := 0x80000000000000
def inRemote (pa : Nat) : Bool := remoteBase ≤ pa && pa < remoteBase + 2 ^ 53

namespace State

/-! ### Compressed and uncorrectable blocks -/

/-- A page with cmp set is coded only in HBM (R371, R286). -/
def coded (cmp : Bool) (pa : Nat) : Bool := cmp && inHbm pa

/-- The words of a coded block from its mask and the words that follow (R286). -/
def zmbWords (mask : Nat) (body : List Nat) : Nat → Nat → Option (List Nat)
  | 0, _ => some []
  | n + 1, i =>
    if bit mask i then
      match body with
      | w :: ws => if w = 0 then none else (zmbWords mask ws n (i + 1)).map (w :: ·)
      | [] => none
    else (zmbWords mask body n (i + 1)).map (0 :: ·)

/-- Four-byte words of a byte string. -/
def words32 (bs : List Byte) : Nat → List Nat
  | 0 => []
  | n + 1 => ofBytes (bs.take 4) :: words32 (bs.drop 4) n

/-- The 256 bytes that a coded slot holds; none when the block is malformed (R287). -/
def zmbDecode (tag : Nat) (slot : List Byte) : Option (List Byte) :=
  let mask := ofBytes (slot.take 8)
  if 8 < tag || tag != ceilDiv (8 + 4 * popcount mask 64) 32 then none
  else (zmbWords mask (words32 (slot.drop 8) 62) 64 0).map fun ws => ws.flatMap (bytesOf 4)

/-- The coded form of 256 bytes and its tag; raw, tag 0, when it would not fit (R286). -/
def zmbEncode (bs : List Byte) : Nat × List Byte :=
  let ws := words32 bs 64
  let p := (ws.filter (· != 0)).length
  if 62 < p then (0, bs)
  else
    let mask := packNat 1 (ws.map fun w => if w = 0 then 0 else 1)
    (ceilDiv (8 + 4 * p) 32, bytesOf 8 mask ++ (ws.filter (· != 0)).flatMap (bytesOf 4))

/-- The tag of the block of an address. -/
def tagOf (s : State) (pa : Nat) : Nat := (tabGet (pa / 256) s.tags).getD 0

/-- An uncorrectable error lies in the n bytes from an address (R401). -/
def spoiled (s : State) (pa n : Nat) : Bool := s.bad.any fun w => pa < 8 * w + 8 && 8 * w < pa + n

/-- The 256 bytes of a block; none when it is malformed (R287, R401). -/
def block (s : State) (cmp : Bool) (b : Nat) : Option (List Byte) :=
  let tag := if coded cmp b then s.tagOf b else 0
  if coded cmp b && s.badTags.contains (b / 256) then none
  else if s.spoiled b (if tag = 0 then 256 else 32 * tag) then none
  else if tag = 0 then some (memBytes b 256 s.mem) else zmbDecode tag (memBytes b 256 s.mem)

/-- A block that the memory-interface tile has to treat apart: coded, or with an error in it. -/
def needsMit (s : State) (cmp : Bool) (pa : Nat) : Bool :=
  let b := pa / 256 * 256
  (coded cmp b && (s.tagOf b != 0 || s.badTags.contains (b / 256))) || s.spoiled b 256

/-- n committed bytes within one block; none when the block is malformed (R288). -/
def physRead (s : State) (cmp : Bool) (pa n : Nat) : Option (List Byte) :=
  if s.needsMit cmp pa then (s.block cmp (pa / 256 * 256)).map fun bs => (bs.drop (pa % 256)).take n
  else some (memBytes pa n s.mem)

/-- The words of an error list that are not written whole. -/
def unwritten (cells : List Host.Cell) (bad : List Nat) : List Nat :=
  bad.filter fun w => !((List.range 8).all fun i => cells.any fun c => c.1 == 8 * w + i)

/-- Cells of one block written to memory: a coded block is read, changed and written, unless all of it is written (R288); none when
the block that is read is malformed. A word written whole has valid check bits again. -/
def physWrite (s : State) (cmp : Bool) (cells : List Host.Cell) : Option State :=
  match cells with
  | [] => some s
  | (a, _) :: _ =>
    let b := a / 256 * 256
    if coded cmp a then
      match if cells.length = 256 then some [] else s.block cmp b with
      | none => none
      | some bs =>
        let new := memWrite cells (cellsAt b bs)
        let (tag, body) := zmbEncode (memBytes b 256 new)
        some { s with
          mem := memWrite (cellsAt b body) s.mem
          tags := if tag = 0 then tabErase (b / 256) s.tags else tabSet (b / 256) tag s.tags
          bad := s.bad.filter fun w => 8 * w < b || b + (if tag = 0 then 256 else 32 * tag) ≤ 8 * w
          badTags := s.badTags.filter (· != b / 256) }
    else
      some { s with
        mem := memWrite cells s.mem
        bad := unwritten cells s.bad }

/-- A write of cells of one block would find the block malformed (R288). -/
def wouldSpoil (s : State) (cmp : Bool) (cells : List Host.Cell) : Bool :=
  match cells with
  | [] => false
  | (a, _) :: _ => coded cmp a && cells.length != 256 && (s.block cmp (a / 256 * 256)).isNone

/-! #### Words at their home (R287, R288; log entry 58) -/

/-- The block of an address is one of a compressed page, as the last request that named it said. -/
def inCode (s : State) (pa : Nat) : Bool := coded (s.zmb.contains (pa / 256)) pa
/-- The block of an address is one of a compressed page, and malformed. -/
def codeBad (s : State) (pa : Nat) : Bool := s.inCode pa && (s.block true (pa / 256 * 256)).isNone
/-- n bytes of a block as their home reads them. -/
def homeBytes (s : State) (pa n : Nat) : List Byte :=
  if s.inCode pa then (((s.block true (pa / 256 * 256)).getD []).drop (pa % 256)).take n else memBytes pa n s.mem
/-- The word at an address as its home reads it. -/
def homeWord (s : State) (pa : Nat) : Nat := ofBytes (s.homeBytes pa 8)
/-- Cells of one block written as their home writes them; a malformed block is left as it is. A word written whole has valid check bits
again (R402). -/
def homeWrite (s : State) (cells : List Host.Cell) : State := (s.physWrite (s.inCode (cells.headD (0, 0)).1) cells).getD s

end State

/-! ### Trees (R193, R196): what a descriptor shows of them -/

namespace Part

def empty : Part := { leaves := [[]], levels := [], reserved := 0, broken := false }
def height (q : Part) : Nat := q.levels.length + 1
def nodes (q : Part) : Nat := q.leaves.length + (q.levels.map List.length).sum
def keys (q : Part) : List (Nat × Word) := q.leaves.flatten
/-- The free count of a partition of m pool nodes: 8 are the margin of its HSQ (R194). -/
def free (q : Part) (m : Nat) : Nat := m - 8 - q.nodes

end Part

/-- A held store of a region that moves: its writer stands where `move` puts its tile (R388). -/
def HeldStore.moved (move : Nat → Nat) : HeldStore → HeldStore
  | .bytes p va cells cmp => .bytes { p with t := move p.t } va cells cmp
  | .key p va d k v nodes => .key { p with t := move p.t } va d k v nodes
  | .patch p idx k w op => .patch { p with t := move p.t } idx k w op
  | h => h

namespace State

/-- Word i of the region descriptor at a physical address. -/
def descWord (s : State) (d i : Nat) : Nat := s.homeWord (d + 8 * i)
def descParts (s : State) (d : Nat) : Nat := bits (s.descWord d 0) 49 4 + 1
def descNodes (s : State) (d : Nat) : Nat := bits (s.descWord d 4) 0 32
/-- Pool nodes of a partition. -/
def partNodes (s : State) (d : Nat) : Nat := s.descNodes d / s.descParts d

/-- The fields of the descriptor that the home sequencers own, written from the trees (R193). -/
def mirror (s : State) (d : Nat) (tr : Tree) : State :=
  let m := s.partNodes d
  let st := packNat 96 ((List.range 8).map fun p =>
    match tr.parts[p]? with
    | some q => Config.rootNode d p tr.vseq % 2 ^ 32 + 2 ^ 32 * (q.height % 2 ^ 8) + 2 ^ 40 * (q.free m) + 2 ^ 72 * (q.reserved % 2 ^ 24)
    | none => 0)
  let n := (tr.parts.map fun q => q.keys.length).sum
  { s.homeWrite (cellsAt (d + 128) (bytesOf 96 st ++ bytesOf 8 n ++ bytesOf 8 tr.vseq)) with trees := tabSet d tr s.trees }

end State

/-! ### Intervals: discard, rerun, validation (R31, R35, R38, R275) -/

namespace State

/-- The partition of a sparse-tensor region that holds a key: the last whose klo does not exceed it (R193, R194). -/
def partOf (s : State) (desc key : Nat) : Nat :=
  (List.range (s.descParts desc)).foldl (fun p i => if s.descWord desc (5 + i) ≤ key then i else p) 0

/-- Nodes that held stores had reserved are returned (R200). -/
def unreserve (s : State) (buf : List HeldStore) : State :=
  buf.foldl (fun s h =>
    match h with
    | .key _ _ desc key _ nodes =>
      match tabGet desc s.trees with
      | some tr =>
        s.mirror desc { tr with parts := tr.parts.modify (s.partOf desc key) fun q => { q with reserved := q.reserved - nodes } }
      | none => s
    | _ => s) s

/-- Requests of the tiles of a region that wait outside it are cancelled. -/
def cancelOps (s : State) (g : Region) : State :=
  { s with
    deferred := s.deferred.filter fun d => !g.holds d.t
    mit := s.mit.filter fun d => !g.holds d.t
    iseq := s.iseq.filter fun d => !g.holds d.t
    retry := s.retry.filter fun e => !g.holds e.t
    armed := s.armed.filter fun a => !g.holds a.t
    fences := s.fences.filter fun f => match f.t with | some t => !g.holds t | none => true
    hsq := s.hsq.map fun q => (q.1, q.2.filter fun e => match e.req with | .wait .. => !g.holds e.t | _ => true) }

/-- The speculative stores, signatures and TASKQ enqueues of an interval are discarded (R35 step 2, R36). -/
def discard (s : State) (r : Nat) : State :=
  match s.region? r with
  | none => s
  | some g =>
    let s := (s.unreserve g.buffer).cancelOps g
    let s := { s with tasks := s.tasks.filter fun k => !(k.2.phase == TaskPhase.held && k.2.by_ == some r) }
    s.setRegion r { g with buffer := [], used := 0, reads := [], writes := [], begun := s.commits.length }

/-- The argument bead of a task, or the REF beat and DONE of an argument to an AG port (R353). -/
def argumentBeats (unit c : Nat) (args : List Word) : List Beat :=
  let v := BitVec.ofNat 512 (packNat 64 (args.map BitVec.toNat))
  if unit = 0 then Beat.ofBead c ⟨0xFFFF, 0, 0, 0, [], 0, false, 0, 0⟩ [v] else [⟨1, 16, 0, 0, c, 0, v⟩, .control 4 0 c 0]

/-- The argument enters the argument port of a region. -/
def enterArgument (s : State) (r : Nat) : State :=
  match s.region? r with
  | none => s
  | some g =>
    let args := match s.task? g.task with | some k => k.args | none => []
    let code := if g.argUnit = 0 then g.argPort else 56 + 2 * g.argPort
    s.onTile g.argAt fun T => T.pushIn code (argumentBeats g.argUnit g.ctx args)

/-- The rounding generator of a tile of a region for its task (R110). -/
def gsrOf (s : State) (g : Region) (t : Nat) : BitVec 32 :=
  let lo := match s.task? g.task with | some k => (k.dom.getD 0 (0, 0)).1 | none => 0
  let x := 0x6A09E667#32 ^^^ BitVec.ofNat 32 (lo % 2 ^ 32 * 0x9E3779B9) ^^^ BitVec.ofNat 32 (txOf t - g.ox + 256 * (tyOf t - g.oy))
  if x = 0 then 0xFFFFFFFF else x

/-- Every tile of a region is made fresh for an interval. -/
def clearTiles (s : State) (g : Region) : State :=
  g.tiles.foldl (fun s t => s.onTile t fun T => T.clear (s.gsrOf g t)) s

/-- A region loads the image and the variant that its task began with again, as a fresh one does (R38, R59). -/
def reload (s : State) (r : Nat) : State :=
  match s.region? r with
  | none => s
  | some g =>
    let s := g.tiles.foldl (fun s t => s.onTile t fun T => if T.bank then { T with bank0 := .empty } else { T with bank1 := .empty }) s
    s.setRegion r { g with
      running := false
      shadow := false
      img := g.first.1
      variant := g.first.2
      nxt := 0
      loader := ⟨.reading, g.first.1, g.first.2, false, [], 0, []⟩ }

/-- A replay (R38): the interval is discarded and rerun on the same region, with no split, under the configuration that it began with:
a rolling switch in progress is undone, and after one that has ended the task's own image is loaded again. -/
def replay (s : State) (r : Nat) : State :=
  match s.region? r with
  | none => s
  | some g =>
    let s := (s.discard r).clearTiles g
    let s := (s.onTask g.task fun k => { k with replays := k.replays + 1 }).count g.die .replayMade
    let s := s.onRegion r fun g => { g with
      stopped := false
      frozen := g.stopWave || !g.repair.isEmpty
      records := []
      switching := false
      quiet := false
      bsync := none
      chained := []
      cause := 0 }
    if (g.img, g.variant) = g.first then s.enterArgument r else s.reload r

/-- A commit made since the interval began writes what it has read (R275); a false conflict costs a replay. -/
def conflicts (s : State) (g : Region) : Bool :=
  let ws := (s.commits.drop g.begun).flatten
  !g.reads.isEmpty && (g.reads.any (fun l => ws.contains l) || Config.falseConflict g.task s.commits.length s.time)

/-- A commit made since the interval began writes what it has read or written (R38, R284). -/
def overtaken (s : State) (g : Region) : Bool :=
  s.conflicts g || (let ws := (s.commits.drop g.begun).flatten; g.writes.any fun l => ws.contains l)

/-- The task of a region is irrevocable (R31). -/
def irrevocable (s : State) (g : Region) : Bool := match s.task? g.task with | some k => k.irrev | none => false

/-- Validation before a first irrevocable action or the report of a precise fault (R275): the task must replay. -/
def mustReplay (s : State) (g : Region) : Bool := !s.irrevocable g && s.conflicts g

/-- An exhaustion event (R34), which takes effect as its clk ends, after a TRAP of that clk (R261); one that comes after quiescence has
been reported is ignored. Causes: bit 0 store buffer, 1 scratchpad, 2 allowance, 3 admission (R378). -/
def exhaust (s : State) (r cause : Nat) : State :=
  match s.region? r with
  | none => s
  | some g =>
    if g.quiet || g.drain.isSome then s
    else (s.setRegion r { g with cause := g.cause ||| 2 ^ cause }).later [.op (.exhaustion r cause)]

end State

/-! ### Taking an exception, and the return from one (R163, R376 to R379, R384) -/

/-- A fault found by an access or a check: its code, address and detail word (R378). -/
structure Flt where
  code   : Nat
  va     : Nat
  detail : Nat
  deriving DecidableEq, Repr

namespace Flt

/-- The codes of R378 Table 6. -/
def fetrap (spec pos : Nat) : Flt := ⟨0x02, 0, spec + 64 * pos⟩
def pgflt (va kind level : Nat) : Flt := ⟨0x03, va, kind + 8 * level⟩
def pgsz (va bound found : Nat) : Flt := ⟨0x04, va, bound + 4 * found⟩
/-- Details of PROT: 0 class, 1 permission, 2 alignment, 3 space or range, 4 entry bits, 5 protected frame, 6 a
descriptor, body or record check, 7 no valid translation of a completion word. -/
def prot (va d : Nat) : Flt := ⟨0x05, va, d⟩
def presdup (va : Nat) : Flt := ⟨0x06, va, 0⟩
def idxfull (va part : Nat) : Flt := ⟨0x07, va, part⟩
def decmp (va : Nat) : Flt := ⟨0x0F, va, 0⟩
/-- Details of LNKERR: 4 is a package that is lost or cannot be reached. -/
def lnkerr (va d : Nat) : Flt := ⟨0x11, va, d⟩

/-- Freezes a region (frz of Table 6), for a unit of a region. -/
def freezes (f : Flt) : Bool :=
  (0x02 ≤ f.code && f.code ≤ 0x0C) || (0x0E ≤ f.code && f.code ≤ 0x0F) || f.code == 0x11 || f.code == 0x13
/-- PGFLT and IDXFULL are replayable. -/
def replayable (f : Flt) : Bool := f.code == 0x03 || f.code == 0x07
/-- CFGECC, QOVF and MIGR are events. -/
def isEvent (f : Flt) : Bool := f.code == 0x10 || f.code == 0x12 || f.code == 0x20

end Flt

/-- The two record words of an input queue (R377). -/
def queueWords (q : Queue) : List Word :=
  match q.beats with
  | [] => [0, 0]
  | b :: _ =>
    [BitVec.ofNat 64 (min q.beats.length 16 + 2 ^ 5 * b.kind + 2 ^ 9 * b.stop + 2 ^ 13 * b.count
        + 2 ^ 18 * (if b.kind = 2 then b.slot else 0)),
     BitVec.ofNat 64 (b.data.toNat % 2 ^ 64)]

namespace State

/-- The queue words of a record: input queues 0 to 3 of the unit; for an AG those of the port; none for an engine, a home
sequencer or a link (R377). -/
def recordQueues (s : State) (p : Site) : List Word :=
  let T := s.tile p.t
  if p.unit ≤ 6 then (List.range 4).flatMap fun k => queueWords (T.inQ (8 * p.unit + k))
  else if p.unit = 7 || p.unit = 10 then
    queueWords (T.inQ (56 + 2 * p.sub)) ++ queueWords (T.inQ (57 + 2 * p.sub)) ++ [0, 0, 0, 0]
  else List.replicate 8 0

/-- Word 0 of a record (R376 Table 4). -/
def recordWord0 (p : Site) (c : Nat) (f : Flt) (frz repl event : Bool) : Nat :=
  f.code + (if repl then 2 ^ 8 else 0) + (if event then 2 ^ 9 else 0) + (if frz then 2 ^ 10 else 0) + 2 ^ 12 * p.unit
    + 2 ^ 16 * dieOf p.t + 2 ^ 18 * txOf p.t + 2 ^ 23 * tyOf p.t + 2 ^ 28 * p.sub + 2 ^ 31 * p.widx + 2 ^ 36 * c

/-- A record of a context waits at a die to be formed, without a number yet (R354). -/
def unformed (s : State) (d c : Nat) : Bool := (s.die d).posts.any fun q => q.1 == c && word q.2 3 == 0
/-- The sequence number that the next record of a context takes on a die: 0 while its die holds 16 records for it, when a record is
formed, and numbered, only as a hold slot frees, and while an earlier record waits so (R354, R376). -/
def nextSeq (s : State) (d c : Nat) : Nat :=
  if 16 ≤ ((s.die d).holds.filter fun q => q.1 == c).length || s.unformed d c then 0 else (s.ctx c).nseq

/-- A record with these queue words joins the records its die has still to post (R354, R376); its sequence number is the next of the
context. No record is posted for a context that is being removed (R390). -/
def postWith (s : State) (qs : List Word) (p : Site) (c : Nat) (f : Flt) (frz repl event : Bool) (lseq hdl w6 : Nat) : State :=
  if (s.ctx c).state = 2 then s
  else
    let seq := s.nextSeq (dieOf p.t) c
    let rec' : Record :=
      [BitVec.ofNat 64 (recordWord0 p c f frz repl event), BitVec.ofNat 64 (f.va % 2 ^ 56), BitVec.ofNat 64 f.detail,
       BitVec.ofNat 64 seq, BitVec.ofNat 64 lseq, BitVec.ofNat 64 hdl, BitVec.ofNat 64 w6,
       BitVec.ofNat 64 s.time] ++ qs
    (s.onCtx c fun C => { C with nseq := if seq = 0 then C.nseq else C.nseq + 1 }).onDie (dieOf p.t) fun D => { D with posts := D.posts ++ [(c, rec')] }

/-- A record of a unit, with its queues (R376, R377). -/
def post (s : State) (p : Site) (c : Nat) (f : Flt) (frz repl event : Bool) (lseq hdl w6 : Nat) : State :=
  s.postWith (s.recordQueues p) p c f frz repl event lseq hdl w6

/-- A record that no unit makes: the scheduler of a die (SMALLEST, RESX, CFGECC). -/
def postDie (s : State) (d c : Nat) (f : Flt) (frz event : Bool) (lseq hdl : Nat) : State :=
  s.postWith (List.replicate 8 0) ⟨tileAt d 0 0, 0, 0, 0⟩ c f frz false event lseq hdl 0

/-- Word 6 of a record of a region: the bank that is active at its unit, the shadow-ready state, and the inputs of the unit that have
delivered SW (R376). A switch, a link and the loader have the bank of their tile, and no inputs. -/
def recordW6 (s : State) (g : Region) (p : Site) : Nat :=
  let T := s.tile p.t
  let ready := if g.shadow then 2 else 0
  let bank := fun (b : Bool) => if b then 1 else 0
  if p.unit ≤ 6 then bank (T.bankOf p.unit) + ready + 4 * T.swDelivered p.unit
  else if p.unit = 7 ∨ p.unit = 10 then bank (T.bankOf (7 + p.sub)) + ready + 4 * T.swDelivered (7 + p.sub)
  else bank T.bank + ready

/-- Taking an exception. The task is validated first and may replay instead (R275). A precise fault freezes the region
of the unit, saves the state of R376 in a record, and leaves the unit at the faulting access (R163); the record is posted
and the handler armed by FAULT_POST. -/
def raise (s : State) (p : Site) (f : Flt) : State :=
  match s.regionOf p.t with
  | none => s
  | some (r, g) =>
    if s.mustReplay g then s.replay r
    else
      let lseq := match s.task? g.task with | some k => k.lseq | none => 0
      let seq := s.nextSeq (dieOf p.t) g.ctx
      let s := s.post p g.ctx f f.freezes f.replayable f.isEvent lseq g.task (s.recordW6 g p)
      let s := if f.code = 0x0F then s.count g.die .decmpRaised else s
      if f.freezes then s.setRegion r { g with frozen := true, records := g.records ++ [⟨seq, f.code, p.t, p.unit, f.va, f.detail, 0, p.sub⟩] } else s

/-- IDXFULL taken by a unit with so many stores of a nonzero value to the partition (R200). -/
def raiseFull (s : State) (p : Site) (f : Flt) (stores : Nat) : State :=
  match (s.tile p.t).region with
  | none => s
  | some r => (s.raise p f).onRegion r fun g => { g with
      records := g.records.map fun x => if x.code = 0x07 ∧ x.t = p.t ∧ x.unit = p.unit then { x with stores := stores } else x }

/-- A fault of the running element, at its current instruction. -/
def trap (s : State) (f : Flt) : State := s.raise ⟨s.here, 0, 0, s.me.pc⟩ f

/-- A region goes on without the records that a test names: it thaws when none of its freezing records is left (R379). -/
def thawBy (s : State) (r : Nat) (p : LiveRecord → Bool) : State :=
  s.onRegion r fun g =>
    let rs := g.records.filter fun x => !p x
    { g with records := rs, frozen := !rs.isEmpty || g.stopWave || !g.repair.isEmpty }

/-- Return from an exception (R379): the record is acted on, and the access that faulted is then made again. -/
def thaw (s : State) (r seq : Nat) : State := s.thawBy r fun x => x.seq == seq

/-- The running element has completed its instruction. -/
def advance (s : State) : State := s.onMe Tile.advance
/-- The bead of the running element leaves the program (R126, R148). -/
def leave (s : State) : State := s.onMe Tile.dropHead

end State

end Sys2Proof.Machine
end

