-- ==== Sys2Proof/Machine/Operands.lean ====
section
/-! DEFINITION. The operand forms of an element's instructions: sources read as elements of a type, destinations in scalar,
vector and predicate shape, immediates, the pairs and packed operands of the matrix formats (R74, R81, R84, R105, R123, R142). -/

namespace Sys2Proof.Machine

namespace Tile

/-- The code of element i of a source of width w: an X register supplies bits [w−1:0] to every element (R123). -/
def srcElem (T : Tile) (r : BitVec 6) (w i : Nat) : Nat :=
  if Spec.isX r then (T.readX r.toNat).toNat % 2 ^ w else elem (T.readV r) w i

/-- The lanes of a source: an X register repeats bits [31:0] in every lane. -/
def srcVec (T : Tile) (r : BitVec 6) : Vec := if Spec.isX r then splat (BitVec.ofNat 32 (T.readX r.toNat).toNat) else T.readV r

/-- A predicate source. -/
def srcPred (T : Tile) (r : BitVec 6) : Mask := T.readP (r.toNat - 56)

/-- The result of an element-wise operation of width w, given the code of each element: scalar shape writes element 0,
extended; vector shape writes the elements that the mask governs (R74, R123). -/
def writeElems (T : Tile) (dst : BitVec 6) (m : Mask) (w : Nat) (signed : Bool) (g : Nat → Nat) : Tile :=
  if Spec.isX dst then T.writeX dst.toNat (extend (BitVec.ofNat 64 (g 0)).toNat w signed)
  else T.writeV dst (pack w ((List.range (512 / w)).map g)) (maskFor w m)

/-- The number of a pair of X registers, low word first (R84). -/
def pair (T : Tile) (r : BitVec 6) : List Word := [T.readX r.toNat, T.readX (r.toNat + 1)]

/-- The eight words of a V register, or the two of a pair. -/
def matOperand (T : Tile) (kind : BitVec 1) (r : BitVec 6) : List Word :=
  if kind = 1 then T.pair r else (List.range 8).map fun i => BitVec.ofNat 64 (elem (T.readV r) 64 i)

end Tile

/-- The immediate of Format I at the width of its destination: INT64, or INT32 in every lane (R81). -/
def immAt (f : FmtI) (w : Nat) : Nat := wrap (sext f.imm.toNat 32) w
/-- The width at which an immediate form works (R81). -/
def immWidth (f : FmtI) : Nat := if Spec.isX f.dst then 64 else 32

/-- Where a conversion reads element i and where it writes it (R142). -/
def convRead (wS wD p i : Nat) : Nat := if wS < wD then i + 512 / wD * p else i
def convWrite (wS wD p i : Nat) : Nat := if wD < wS then i + 512 / wS * p else i

/-- Element i of packed elements of width w in a byte string (R105), the string as a number. -/
def packedElem (v w i : Nat) : Nat := bits v (w * i) w

end Sys2Proof.Machine
end

