-- ==== Sys2Proof/Machine/Flags.lean ====
section
/-! DEFINITION. What decides whether an instruction of an element runs, waits or traps: the effective mask (R78), the
full/empty bits of its sources (R20, R124), and the flags an element's arithmetic has (R97: none are kept). -/

namespace Sys2Proof.Machine

/-- The effective mask of a predicate selector and a sense: the predicate, inverted or not, in the bead's lanes (R78). -/
def Tile.effMask (T : Tile) (pg : BitVec 3) (ps : BitVec 1) : Mask :=
  (if ps = 1 then ~~~(T.readP pg.toNat) else T.readP pg.toNat) &&& T.lmask

/-- A vector or predicate destination executes for any lane; an X destination, or none, for lane 0 (R78). -/
def executes (m : Mask) (anyLane : Bool) : Bool := if anyLane then m != 0 else m.getLsbD 0

/-- A register source: its specifier, its F/E mode bit, and its operand position in a FETRAP record (R378). -/
structure Src where
  spec : BitVec 6
  fe   : Bool
  pos  : Nat
  deriving DecidableEq, Repr

/-- The sources of a Format A instruction with n register sources (R80). -/
def srcsA (f : FmtA) (n : Nat) : List Src :=
  [⟨f.sa, f.fe.getLsbD 2, 0⟩, ⟨f.sb, f.fe.getLsbD 1, 1⟩, ⟨f.sc, f.fe.getLsbD 0, 2⟩].take n
/-- The sources of a Format Y instruction with n register sources (R85). -/
def srcsY (f : FmtY) (n : Nat) : List Src :=
  [⟨f.sa, f.fe.getLsbD 2, 0⟩, ⟨f.sb, f.fe.getLsbD 1, 1⟩, ⟨f.sc, f.fe.getLsbD 0, 2⟩].take n

/-- What the sources of an instruction allow (R124). -/
inductive Ready where
  | go
  | block
  | trap (spec pos : Nat)
  deriving DecidableEq, Repr

/-- An empty source blocks the element, or traps when the F/E mode bit of any empty source is set (R124); the trap names
the first such source (log entry 15). -/
def ready (T : Tile) (srcs : List Src) : Ready :=
  match srcs.filter fun x => !T.full x.spec with
  | [] => .go
  | e :: es =>
    match (e :: es).find? Src.fe with
    | some x => .trap x.spec.toNat x.pos
    | none => .block

namespace State

/-- One instruction of the running element: with no lane to act on it has no effect; an empty source blocks it or raises
FETRAP; otherwise it takes its effect, which moves the bead on (R78, R124). -/
def issue (s : State) (run : Bool) (srcs : List Src) (effect : State → State) : State :=
  if run then
    match ready s.me srcs with
    | .go => effect s
    | .block => s
    | .trap r p => s.trap (.fetrap r p)
  else s.advance

/-- An instruction of Format A whose effect is on the tile alone: element-wise or register arithmetic. -/
def alu (s : State) (f : FmtA) (n : Nat) (effect : Mask → Tile → Tile) : State :=
  let m := s.me.effMask f.pg f.ps
  s.issue (executes m (!Spec.isX f.dst)) (srcsA f n) fun s => (s.onMe (effect m)).advance

/-- The same for Format I; `src` says whether sa is a source. -/
def aluI (s : State) (f : FmtI) (src : Bool) (effect : Mask → Tile → Tile) : State :=
  let m := s.me.effMask f.pg f.ps
  s.issue (executes m (!Spec.isX f.dst)) (if src then [⟨f.sa, f.fe == 1, 0⟩] else []) fun s => (s.onMe (effect m)).advance

end State

end Sys2Proof.Machine
end

