-- ==== Sys2Proof/Machine/Physical.lean ====
section
/-! DEFINITION. Device physical memory: the homes of its words, other packages (R412), and the access counters with their migration hints
(R289, R290). -/

namespace Sys2Proof.Machine

/-- The vault that homes a physical address: its own, and for HBM and host memory one of the die that it borders (log
entry 21). -/
def homeVault (pa : Nat) : Nat := if inVault pa then (pa - vaultBase) / 2 ^ 24 else if inHbm pa then pa / 2 ^ 37 * 64 else 0

/-- The effective scope of an operation of a tile's element on a word: the one it names, widened to the narrowest whose instance holds
the element and the word's home, which is at a die's vault or in another package (R8, R263; 3 die, 4 package, 5 pod). -/
def effScope (t pa scope : Nat) : Nat := max scope (if inRemote pa then 5 else if homeVault pa / 64 != dieOf t then 4 else 3)

/-- The coordinates of a package in a torus of these sizes (R409). -/
def coords (dx dy p : Nat) : List Nat := [p % dx, p / dx % dy, p / dx / dy]

/-- The dimension of a port (0 X, 1 Y, 2 Z), and whether it leads the + way (R409). -/
def portDir (p : Nat) : Nat × Bool :=
  if p < 3 then (0, true) else if p < 6 then (0, false) else if p < 9 then (1, true) else if p < 12 then (1, false)
  else if p < 14 then (2, true) else (2, false)

/-- Where the package's own flits wait for a port, in the list of receive buffers. -/
def ownPort : Nat := 32

/-- The ports of a direction. -/
def portsOf (dim : Nat) (plus : Bool) : List Nat := (List.range 16).filter fun p => portDir p == (dim, plus)

namespace State

/-- A vault is fenced (R418). -/
def vaultFenced (s : State) (v : Nat) : Bool := bit (s.die (v / 64)).vaultF.toNat (v % 64)
/-- The HBM channel of an address is fenced (R418). -/
def channelFenced (s : State) (pa : Nat) : Bool :=
  bit (s.die (pa / 2 ^ 37)).hbmF.toNat (32 * (pa / 2 ^ 36 % 2) + pa % 2 ^ 36 / 2 ^ 31)

/-! ### Other packages (R412, R413) -/

/-- The package and local address that a remote address names. -/
def remoteOf (pa : Nat) : Nat × Nat := ((pa - remoteBase) / 2 ^ 42, (pa - remoteBase) % 2 ^ 42)
/-- The package's number within the pod; 0 outside a pod (R76). -/
def pkgId (s : State) : Word := if s.fleet.en then s.fleet.pkg.setWidth 64 else 0
/-- Packages in the pod. -/
def podSize (s : State) : Nat := (s.fleet.dimx.toNat + 1) * (s.fleet.dimy.toNat + 1) * (s.fleet.dimz.toNat + 1)
/-- A remote address is one a walk may reach (R412). -/
def remoteOk (s : State) (pa : Nat) : Bool :=
  let (p, a) := remoteOf pa
  s.fleet.en && p < s.podSize && a < 2 ^ 41
/-- An address in the package's own remote range is served locally. -/
def localOf (s : State) (pa : Nat) : Nat :=
  if inRemote pa && (remoteOf pa).1 == s.fleet.pkg.toNat then (remoteOf pa).2 else pa
/-- Bytes of another package: what it answers is its own (log entry 22). -/
def remoteRead (s : State) (pa n : Nat) : List Byte × State :=
  let (p, a) := remoteOf pa
  ((List.range n).map fun i => Config.remoteByte p (a + i) s.free, { s with free := s.free + 1 })
/-- The sizes of the torus. -/
def torus (s : State) : List Nat := [s.fleet.dimx.toNat + 1, s.fleet.dimy.toNat + 1, s.fleet.dimz.toNat + 1]
def coordsOf (s : State) (p : Nat) : List Nat := coords (s.fleet.dimx.toNat + 1) (s.fleet.dimy.toNat + 1) p
/-- Ports of a direction that carry flits. -/
def working (s : State) (dim : Nat) (plus : Bool) : List Nat := (portsOf dim plus).filter fun p => s.fleet.lst.getD p 0 == 2
/-- Every port of a direction is fenced. -/
def closed (s : State) (dim : Nat) (plus : Bool) : Bool := (portsOf dim plus).all fun p => s.fleet.lst.getD p 0 == 3

/-- The direction a flit takes in a dimension (R410): the one it has taken already, else the shorter way, + on a tie; the other way when
every port of that direction is fenced, and none when all are. -/
def direction (s : State) (dim here there : Nat) (taken : Option Bool) : Option Bool :=
  let n := s.torus.getD dim 1
  let up := (there + n - here) % n
  let way : Bool := taken.getD (decide (up ≤ n - up))
  if !s.closed dim way then some way else if !s.closed dim !way then some (!way) else none

/-- The next hop of the way to a package (R410): its dimension and direction; none for the package itself, or where every port both ways
round is fenced. `came` is the dimension and the direction in which a flit on its way travels. -/
def nextHop (s : State) (p : Nat) (came : Option (Nat × Bool)) : Option (Nat × Bool) :=
  let c := s.coordsOf s.fleet.pkg.toNat
  let t := s.coordsOf p
  match (List.range 3).find? fun i => c.getD i 0 != t.getD i 0 with
  | none => none
  | some dim =>
    let taken := (came.filter fun q => q.1 == dim).map Prod.snd
    (s.direction dim (c.getD dim 0) (t.getD dim 0) taken).map fun plus => (dim, plus)
/-- The first hop of the way to a package. -/
def firstHop (s : State) (p : Nat) : Option (Nat × Bool) := s.nextHop p none
/-- The package one hop along a dimension. -/
def nextPackage (s : State) (dim : Nat) (plus : Bool) : Nat :=
  let n := s.torus.getD dim 1
  let c := s.coordsOf s.fleet.pkg.toNat
  let c := c.set dim ((c.getD dim 0 + if plus then 1 else n - 1) % n)
  c.getD 0 0 + s.torus.getD 0 1 * (c.getD 1 0 + s.torus.getD 1 1 * c.getD 2 0)
/-- A package is known to have left the pod (R413). -/
def packageLost (s : State) (p : Nat) : Bool := s.fleet.lostPkg.contains p || Config.departed p s.time
/-- The other package is known to be lost, or no port leads to it (R410, R413). -/
def unreachable (s : State) (pa : Nat) : Bool := s.packageLost (remoteOf pa).1 || (s.firstHop (remoteOf pa).1).isNone
/-- The range at the top of an HBM stack that the firmware keeps, with its compression tags (R287, R369). -/
def inTagStore (pa : Nat) : Bool := inHbm pa && 2 ^ 36 - 2 ^ 28 ≤ pa % 2 ^ 36
/-- The other package refuses the access (R412): its tag store, or, as it alone knows, a pool (log entry 22). -/
def refused (s : State) (pa : Nat) : Bool := inTagStore (remoteOf pa).2 || Config.refuses (remoteOf pa).1 (remoteOf pa).2 s.free
/-- A location of another package that cannot be reached (R410, R413). -/
def cutOff (s : State) (pa : Nat) : Bool := inRemote pa && s.unreachable pa
/-- The fault of an access that goes to another package: LNKERR where no way leads there, PROT where that package refuses it. -/
def barred (s : State) (pa va : Nat) : Option Flt :=
  if s.cutOff pa then some (.lnkerr pa 4) else if inRemote pa && s.refused pa then some (.prot va 5) else none

/-! ### Access counters (R289, R290) -/

/-- A request to another package joins the flits that wait for a lattice port, on the channel of its context (R411, R412). What it
carries beside its package and channel the spec does not lay out (log entry 53). -/
def sendRequest (s : State) (c pa : Nat) : State :=
  let (x, s) := s.draw
  let f : Flit := ⟨BitVec.ofNat 11 (remoteOf pa).1, BitVec.ofNat 3 c, 0, x.setWidth 8, 3, x.setWidth 512, x, true⟩
  { s with fleet := { s.fleet with rx := s.fleet.rx ++ [(ownPort, f)] } }

/-- A request of a unit reaches a granule of HBM or of host memory for its die, where it is performed; reaching 2^t posts a migration
hint (R289). A granule of a vault has no counter; that it has been accessed is kept (R418). A request to another package leaves on the
lattice. -/
def touch (s : State) (p : Site) (c va pa : Nat) : State :=
  if inHbm pa || inHost pa then
    let d := dieOf p.t
    let g := pa / 65536
    let n := (tabGet g (s.die d).access).getD 0
    let n' := min (n + 1) 0xFFFF
    let s := s.onDie d fun D => { D with access := tabSet g n' D.access }
    if n' = 2 ^ (s.die d).migr && n < n' then
      let detail := d * 2 ^ 62 + (if inHost pa then 2 ^ 61 else 0) + (s.die d).migr * 2 ^ 56 + g
      (s.post p c ⟨0x20, va, detail⟩ false false true 0 0 0).count d .migrationHint
    else s
  else if inRemote pa then s.sendRequest c pa
  else if inVault pa then s.onDie (dieOf p.t) fun D => { D with vaulted := setInsert (pa / 65536) D.vaulted }
  else s

/-- A request that finds its block malformed: it reaches its granule all the same (R289), and the block is fetched once more before the
unit raises DECMP (R288 steps 1 and 3, R417). -/
def touchBad (s : State) (p : Site) (c va pa : Nat) : State := (s.touch p c va pa).count (dieOf p.t) .zmbRefetch
/-- A request, other than one for another package: that leaves for it later, combined with others (R235, R416). -/
def touchHere (s : State) (p : Site) (c va pa : Nat) : State := if inRemote pa then s else s.touch p c va pa

end State

end Sys2Proof.Machine
end

