-- ==== Sys2Proof/Machine/Access.lean ====
section
/-! DEFINITION. Translation (R369 to R374), page classes and permissions (R152, R153, R372), the speculative store buffer
and the address signatures (R31, R38, R153, R424). -/

namespace Sys2Proof.Machine

/-! ### Page tables -/

/-- What an access does to a page: 0 read, 1 write, 2 read-modify-write (R378). -/
abbrev AKind := Nat

/-- A leaf as a walk finds it, or as a cache holds it. -/
structure Page where
  pa   : Nat       -- physical address of the access
  size : Nat       -- exponent of the page size
  pte  : Nat
  deriving DecidableEq, Repr

namespace Page
def cmp (p : Page) : Bool := bit p.pte 10
def cls (p : Page) : Nat := bits p.pte 7 3
def wr (p : Page) : Bool := bit p.pte 4
def rd (p : Page) : Bool := bit p.pte 3
/-- rd for reads, wr for writes, both for a read-modify-write (R372). -/
def permits (p : Page) (k : AKind) : Bool := (k == 1 || p.rd) && (k == 0 || p.wr)
end Page

namespace State

/-- Addresses that a table pointer or a leaf may name (R369, R412). -/
def frameOk (s : State) (pa : Nat) : Bool := inHbm pa || inVault pa || inHost pa || inDcb pa || (inRemote pa && s.remoteOk pa)
def tableOk (pa : Nat) : Bool := inHbm pa || inVault pa || inHost pa

/-- Whether [a, a + n) meets [b, b + m). -/
def overlaps (a n b m : Nat) : Bool := a < b + m && b < a + n

/-- Addresses of a fenced vault or of a fenced channel (R418). -/
def fencedFrame (s : State) (pa n : Nat) : Bool :=
  ((List.range 256).any fun v => s.vaultFenced v && overlaps pa n (vaultBase + v * 2 ^ 24) (2 ^ 24))
    || ((List.range 256).any fun c => s.channelFenced (c * 2 ^ 31) && overlaps pa n (c * 2 ^ 31) (2 ^ 31))

/-- A frame no leaf may map: the launch pool of an ACTIVE context, the top of an HBM stack, the control block, and fenced
vaults and channels, under any name they have (R372, R412, R418). -/
def guarded (s : State) (pa n : Nat) : Bool :=
  let pa := s.localOf pa
  (s.ctxs.any fun c => c.state == 1 && overlaps pa n c.pool (2 ^ 20))
    || ((List.range 8).any fun k => overlaps pa n ((k + 1) * 2 ^ 36 - 2 ^ 28) (2 ^ 28))
    || overlaps pa n dcbBase 0x600 || s.fencedFrame pa n

/-- A walk from a table, level by level (R370, R371): the levels left, with the lowest bit and the number of bits indexed. The leaf or
the fault, and the pointers that were followed, each with what its table covers. A root that is not 4 KiB-aligned is taken as it stands (log
entry 66); an entry in a block with an uncorrectable word is malformed with it (R288, R401), and the record has the block of the address that was
translated, since the table has no virtual address (R378; log entry 68). -/
def walkFrom (s : State) (c va : Nat) (k : AKind) : List (Nat × Nat × Nat) → Nat → Bool → Except Flt Page × List TlbEntry
  | [], _, _ => (.error (.prot va 4), [])
  | (lvl, sh, nb) :: rest, table, g64 =>
    let (sh, nb) := if g64 then (16, 5) else (sh, nb)
    let at' := table + 8 * bits va sh nb
    let e := s.memWord at'
    let addr := bits e 12 44 * 4096
    let n := 2 ^ sh
    if !tableOk table then (.error (.prot va 3), [])
    else if s.fencedFrame table 4096 then (.error (.prot va 5), [])
    else if s.spoiled (at' / 256 * 256) 256 then (.error (.decmp (va / 256 * 256)), [])
    else if !bit e 0 then (.error (.pgflt va k lvl), [])
    else if bits e 56 8 != 0 || bit e 11 || bits e 1 2 != 0 then (.error (.prot va 4), [])
    else if !bit e 5 then
      if lvl = 0 || bits e 7 4 != 0 || bits e 3 2 != 0 || (bit e 6 && lvl != 1) then (.error (.prot va 4), [])
      else
        let (r, ps) := walkFrom s c va k rest addr (bit e 6)
        (r, ⟨c, va / n * n, sh, BitVec.ofNat 64 e⟩ :: ps)
    else if lvl ≥ 3 || bit e 6 || addr % n != 0 || 5 < bits e 7 3 then (.error (.prot va 4), [])
    else if s.guarded addr n then (.error (.prot va 5), [])
    else if !(s.frameOk addr && s.frameOk (addr + n - 1)) then (.error (.prot va 3), [])
    else (.ok ⟨addr + va % n, sh, e⟩, [])

/-- The levels of a walk, from the root: the level, the lowest bit that indexes it and how many bits do (R370). -/
def walkLevels : List (Nat × Nat × Nat) := [(4, 48, 8), (3, 39, 9), (2, 30, 9), (1, 21, 9), (0, 12, 9)]

/-- The walk of a context's tables from the root (R370). -/
def walk (s : State) (c va : Nat) (k : AKind) : Except Flt Page :=
  if va / 2 ^ 56 != 0 then .error (.prot va 3) else (s.walkFrom c va k walkLevels (s.ctx c).ptroot false).1

/-! #### The caches of translations (R262, R373) -/

/-- The ISEs, by HBM stack; the walker of a die serves every other unit of it. -/
abbrev Ise := Option Nat

/-- Cached leaves of the walker of a die, or of the ISE of a stack. -/
def cache (s : State) (d : Nat) : Ise → List TlbEntry
  | none => (s.die d).tlb
  | some k => (s.die (k / 2)).ise.getD (k % 2) []
def addLeaf (s : State) (d : Nat) (i : Ise) (e : TlbEntry) : State :=
  match i with
  | none => s.onDie d fun D => { D with tlb := D.tlb ++ [e] }
  | some k => s.onDie (k / 2) fun D => { D with ise := D.ise.modify (k % 2) (· ++ [e]) }

/-- An entry covers an address of a context. -/
def hits (e : TlbEntry) (c va : Nat) : Bool := e.ctx == c && e.va == va / 2 ^ e.size * 2 ^ e.size

/-- A cached leaf that covers an address. -/
def cached (s : State) (d : Nat) (i : Ise) (c va : Nat) : Option TlbEntry :=
  (s.cache d i).find? fun e => hits e c va

/-- The lowest table pointer of the walker that covers an address. -/
def pointer (s : State) (d c va : Nat) : Option TlbEntry :=
  ((s.die d).ptrs.filter fun e => hits e c va).foldl (fun r e =>
    match r with
    | some b => if e.size < b.size then some e else r
    | none => some e) none

/-- The walk that the walker of a die makes: from the lowest table pointer it has cached, or from the root. -/
def walkOf (s : State) (d c va : Nat) (k : AKind) : Except Flt Page × List TlbEntry :=
  if va / 2 ^ 56 != 0 then (.error (.prot va 3), [])
  else match s.pointer d c va with
    | some e => s.walkFrom c va k (walkLevels.filter fun q => q.2.1 < e.size) (bits e.pte.toNat 12 44 * 4096) (bit e.pte.toNat 6)
    | none => s.walkFrom c va k walkLevels (s.ctx c).ptroot false

/-- Translation at a die, or at an ISE whose misses the walker of its die serves (R373, R374): from a cached leaf, or by a walk whose
leaf and pointers are then cached. -/
def xlate (s : State) (d : Nat) (i : Ise) (c va : Nat) (k : AKind) : State × Except Flt Page :=
  match s.cached d i c va with
  | some e => (s, .ok ⟨s.localOf (bits e.pte.toNat 12 44 * 4096 + va % 2 ^ e.size), e.size, e.pte.toNat⟩)
  | none =>
    let d := match i with | some k => k / 2 | none => d
    let (r, ps) := s.walkOf d c va k
    let s := ((s.count d .tlbMiss).count d .walkMade).onDie d fun D => { D with ptrs := D.ptrs ++ ps }
    match r with
    | .ok p => (s.addLeaf d i ⟨c, va / 2 ^ p.size * 2 ^ p.size, p.size, BitVec.ofNat 64 p.pte⟩, .ok { p with pa := s.localOf p.pa })
    | .error f => (s, .error f)

/-- A live launch of a context references the page, or a successor image in use does (R47, R257). -/
def pageLive (s : State) (c va size : Nat) : Bool :=
  let b := va / 2 ^ size * 2 ^ size
  (s.launches.any fun l => l.ctx == c && overlaps b (2 ^ size) (bits (word l.snap 0) 0 56) (bits (word l.hdr 2) 0 32))
    || (s.regions.any fun g => g.2.ctx == c && g.2.protect.any fun p => overlaps b (2 ^ size) p.1 p.2)

end State

/-! ### Page classes -/

/-- What an element or a stream unit wants of a page (R153, R163). -/
inductive Want where
  | load (sz : Nat)
  | store
  | present                    -- PLD
  | setPresent                 -- PST, PCLEAR
  | sync (write : Bool)        -- a read-modify-write of a SYNC word, or a WAIT's read
  | region (write : Bool)      -- the descriptor of a sparse-tensor region
  | spill (write : Bool)       -- an SCR access beyond the carve-out (R284)
  | streamRead
  | streamWrite
  deriving DecidableEq, Repr

def Want.kind : Want → AKind
  | .load _ => 0 | .present => 0 | .streamRead => 0 | .spill w => if w then 1 else 0 | .region w => if w then 1 else 0 | .sync w => if w then 2 else 0 | _ => 1

/-- Table 10 of R153, R163 and R284: the fault of an access that the page's class refuses. `live` says that a live launch
references the page. DESIGN CHOICE: a spill of SCR into a SEEDW page is PROT, as R284 has it for any page that is not PLAIN, also for a
destination of the matrix cell, for which R223 names SEEDW (log entry 68). -/
def classFault (w : Want) (cls va : Nat) (live : Bool) : Option Flt :=
  let no := some (Flt.prot va 0)
  match w, cls with
  | .load _, 0 => none
  | .load sz, 2 => if sz == 3 || ((sz == 2 || sz == 6) && va % 4 == 0) then none else no
  | .load _, 4 => none
  | .load _, 5 => none
  | .store, 0 => none
  | .store, 4 => some ⟨0x0C, va, 0⟩
  | .store, 5 => if live then no else none
  | .present, 1 => none
  | .setPresent, 1 => none
  | .sync _, 2 => none
  | .region _, 3 => none
  | .spill _, 0 => none
  | .streamRead, 0 => none
  | .streamRead, 4 => none
  | .streamRead, 5 => none
  | .streamWrite, 0 => none
  | _, _ => no

namespace State

/-- The blocks of the 64 bytes from an address in a page of a class that home sequencers serve: their home goes by the page's cmp (R288). -/
def noteCmp (s : State) (q : Page) : State :=
  if (q.cls == 2 || q.cls == 3) && inHbm q.pa then
    [q.pa / 256, (q.pa + 63) / 256].foldl (fun (s : State) b =>
      { s with zmb := if q.cmp then setInsert b s.zmb else s.zmb.filter (· != b) }) s
  else s

/-- Translation of an access with its class and permission (R372). -/
def page (s : State) (p : Site) (i : Ise) (c va : Nat) (w : Want) : State × Except Flt Page :=
  match s.xlate (dieOf p.t) i c va w.kind with
  | (s, .error f) => (s, .error f)
  | (s, .ok q) =>
    match classFault w q.cls va (s.pageLive c va q.size) with
    | some f => (s, .error f)
    | none => if q.permits w.kind then (s.noteCmp q, .ok q) else (s, .error (.prot va 1))

/-! ### The speculative store buffer and the signatures -/

/-- The latest buffered store to a byte (R153). -/
def heldByte (buf : List HeldStore) (a : Nat) : Option Byte :=
  buf.foldl (fun r h => match h with
    | .bytes _ _ cells _ => cells.foldl (fun r c => if c.1 = a then some c.2 else r) r
    | _ => r) none

/-- The 8-byte words that cells touch. -/
def wordsTouched (cells : List Host.Cell) : List Nat := cells.foldl (fun ws c => setInsert (c.1 / 8) ws) []

/-- Bytes with the buffered stores to them in front. -/
def overlay (buf : List HeldStore) (pa : Nat) (bs : List Byte) : List Byte :=
  bs.mapIdx fun i b => (heldByte buf (pa + i)).getD b
/-- Those of n bytes that a buffer holds. -/
def heldCells (buf : List HeldStore) (pa n : Nat) : List Host.Cell :=
  (List.range n).filterMap fun i => (heldByte buf (pa + i)).map fun b => (pa + i, b)
/-- A buffer answers all of n bytes. -/
def answers (buf : List HeldStore) (pa n : Nat) : Bool := (List.range n).all fun i => (heldByte buf (pa + i)).isSome
/-- n bytes as a reader with this buffer finds them, of this package or of another: buffered stores first (R153, R244), then committed
memory; none for a malformed block. -/
def heldRead (s : State) (buf : List HeldStore) (cmp : Bool) (pa n : Nat) : Option (List Byte) × State :=
  if answers buf pa n then (some (overlay buf pa (List.replicate n 0)), s)
  else if inRemote pa then let (bs, s) := s.remoteRead pa n; (some (overlay buf pa bs), s)
  else ((s.physRead cmp pa n).map (overlay buf pa), s)

/-- n bytes as a task of a region reads them: its own buffered stores, else committed memory; none for a malformed block. -/
def taskRead (s : State) (g : Region) (cmp : Bool) (pa n : Nat) : Option (List Byte) := (s.heldRead g.buffer cmp pa n).1

/-- A read enters the read signature (R38); locations of another package enter none (R276). -/
def noteRead (s : State) (r : Nat) (locs : List Loc) : State :=
  s.onRegion r fun g => { g with reads := g.reads ++ locs.filter (fun l => !g.reads.contains l) }

def readLocs (pa n : Nat) : List Loc := if inRemote pa then [] else (List.range (ceilDiv (pa % 8 + n) 8)).map fun i => Loc.word (pa / 8 + i)

/-- The entries a buffered store takes (R424). -/
def entriesOf : HeldStore → Nat
  | .bytes _ _ cells _ => (wordsTouched cells).length
  | .key .. => 2
  | .patch .. => 1
  | .mark .. => 0

def storeLocs : HeldStore → List Loc
  | .bytes _ _ cells _ => ((wordsTouched cells).filter fun w => !inRemote (8 * w)).map Loc.word
  | .key _ _ d k _ _ => if inRemote d then [] else [.key d k]
  | .patch .. | .mark .. => []

/-- A buffered store without the bytes from lo up to hi; none when nothing of it is left. -/
def cutStore (lo hi : Nat) : HeldStore → Option HeldStore
  | .bytes p va cs cmp =>
    match cs.filter fun c => c.1 < lo || hi ≤ c.1 with
    | [] => none
    | cs => some (.bytes p va cs cmp)
  | h => some h
/-- A region with another buffer. -/
def withBuffer (g : Region) (buf : List HeldStore) : Region :=
  { g with
    buffer := buf
    used := g.used + (buf.map entriesOf).sum - (g.buffer.map entriesOf).sum }
/-- A region whose buffer holds the bytes from lo up to hi no longer: an append has written them (R249, R252). -/
def cutRegion (lo hi : Nat) (g : Region) : Region := withBuffer g (g.buffer.filterMap (cutStore lo hi))

/-- The tile whose element made a buffered store. -/
def writerOf : HeldStore → Option Nat
  | .bytes p _ _ _ | .key p _ _ _ _ _ => if p.unit = 0 then some p.t else none
  | _ => none
/-- The stores of a buffer that an engine command comes after: those that the element which issued it, a tile counted within the region
and an operation, made before it (R244). -/
def olderStores (g : Region) (by_ : Nat × Nat) : List HeldStore :=
  (g.buffer.take ((g.buffer.findIdx? (· == .mark by_.1 by_.2)).getD 0)).filter fun h => writerOf h == some (g.at_ by_.1)
/-- The buffer with these stores changed. -/
def changeOlder (g : Region) (by_ : Nat × Nat) (f : HeldStore → Option HeldStore) : Region :=
  let n := (g.buffer.findIdx? (· == .mark by_.1 by_.2)).getD 0
  withBuffer g ((g.buffer.take n).filterMap (fun h => if writerOf h == some (g.at_ by_.1) then f h else some h) ++ g.buffer.drop n)
/-- The same in the region that runs a task, freeze-saved or not; `h` is the task with the element and its operation. -/
def cutTask (s : State) (h : Option (Nat × Nat × Nat)) (f : HeldStore → Option HeldStore) : State :=
  match h with
  | none => s
  | some (k, by_) => { s with
      regions := s.regions.map fun q => if q.2.task = k then (q.1, changeOlder q.2 by_ f) else q
      saved := s.saved.map fun x => if x.region.task = k then { x with region := changeOlder x.region by_ f } else x }

/-- Bytes of a buffered store, as the event counters count them (R417). -/
def heldBytes : HeldStore → Nat
  | .bytes _ _ cells _ => cells.length
  | .mark .. => 0
  | _ => 8

/-- A store enters the buffer of a region; one that does not fit is not performed, and the task exhausts (R34, R424). -/
def hold (s : State) (r : Nat) (h : HeldStore) (k : State → State) : State :=
  match s.region? r with
  | none => k s
  | some g =>
    if g.capacity < g.used + entriesOf h then s.exhaust r 0
    else
      let g' := { g with
        buffer := g.buffer ++ [h]
        used := g.used + entriesOf h
        writes := g.writes ++ (storeLocs h).filter fun l => !g.writes.contains l }
      k ((s.setRegion r g').countBy g.die .bufferBytes (heldBytes h))

end State

end Sys2Proof.Machine
end

