-- ==== Sys2Proof/Machine/Tree.lean ====
section
/-! DEFINITION. Sparse-tensor memory: the descriptor (R193 to R195), the index trees of its partitions (R196), key reads and
seeks (R197, R201), reservations (R200), and the application of stores as one operation (R199). -/

namespace Sys2Proof.Machine

/-! ### A partition's tree (R196) -/

namespace Part

/-- The parent of child i, and the place of its first child, from the child counts of a level. -/
def parentOf (i : Nat) : List Nat → Nat → Nat → Nat × Nat
  | [], p, base => (p, base)
  | c :: cs, p, base => if i < base + c then (p, base) else parentOf i cs (p + 1) (base + c)

/-- The levels above nodes of which node i has split in two. A full node is split 8 and 8, and so upward; a root that splits
gets a new root. -/
def split (i : Nat) : List (List Nat) → List (List Nat)
  | [] => [[2]]
  | cs :: up =>
    let (p, _) := parentOf i cs 0 0
    if cs.getD p 0 = 15 then (cs.take p ++ [8, 8] ++ cs.drop (p + 1)) :: split p up
    else cs.modify p (· + 1) :: up

/-- The pair of siblings that node i is merged or shared with: its right one, or its left one when it is the last child. -/
def pairOf (i base count : Nat) : Nat := if i + 1 < base + count then i else i - 1

/-- The levels above nodes of which one child of parent p has gone. -/
def join (p : Nat) : List (List Nat) → List (List Nat)
  | [] => []
  | cs :: up =>
    let cs := cs.modify p (· - 1)
    match up with
    | [] => if cs.getD 0 0 = 1 then [] else [cs]
    | ps :: _ =>
      if 4 ≤ cs.getD p 0 then cs :: up
      else
        let (q, base) := parentOf p ps 0 0
        let i := pairOf p base (ps.getD q 0)
        let n := cs.getD i 0 + cs.getD (i + 1) 0
        if n ≤ 15 then (cs.take i ++ [n] ++ cs.drop (i + 2)) :: join q up
        else (cs.take i ++ [8, n - 8] ++ cs.drop (i + 2)) :: up

/-- The leaf that holds a key: the last whose least key does not exceed it. A new key between two leaves so goes into the lower one:
DESIGN CHOICE, which R196 does not settle (log entry 55). -/
def leafOf (q : Part) (k : Nat) : Nat :=
  (List.range q.leaves.length).foldl (fun r i => match q.leaves.getD i [] with | (k0, _) :: _ => if k0 ≤ k then i else r | [] => r) 0

def get (q : Part) (k : Nat) : Option Word := tabGet k q.keys

/-- A key inserted or updated. -/
def put (q : Part) (k : Nat) (v : Word) : Part :=
  let i := q.leafOf k
  let l := tabSet k v (q.leaves.getD i [])
  if l.length = 16 then
    { q with leaves := q.leaves.take i ++ [l.take 8, l.drop 8] ++ q.leaves.drop (i + 1), levels := split i q.levels }
  else { q with leaves := q.leaves.set i l }

/-- A key deleted. -/
def drop (q : Part) (k : Nat) : Part :=
  let i := q.leafOf k
  let l := tabErase k (q.leaves.getD i [])
  let leaves := q.leaves.set i l
  match q.levels with
  | [] => { q with leaves := leaves }
  | cs :: _ =>
    if 4 ≤ l.length then { q with leaves := leaves }
    else
      let (p, base) := parentOf i cs 0 0
      let j := pairOf i base (cs.getD p 0)
      let both := leaves.getD j [] ++ leaves.getD (j + 1) []
      if both.length ≤ 15 then
        { q with leaves := leaves.take j ++ [both] ++ leaves.drop (j + 2), levels := join p q.levels }
      else { q with leaves := leaves.take j ++ [both.take 8, both.drop 8] ++ leaves.drop (j + 2) }

end Part

/-! ### The descriptor (R193, R194) -/

namespace State

def descOrder (s : State) (d : Nat) : Nat := bits (s.descWord d 0) 34 2 + 1
def descPerm (s : State) (d i : Nat) : Nat := bits (s.descWord d 0) (36 + 2 * i) 2
def descVty (s : State) (d : Nat) : Nat := bits (s.descWord d 0) 44 5
def descExt (s : State) (d i : Nat) : Nat := bits (s.descWord d (1 + i / 2)) (32 * (i % 2)) 32
def descPool (s : State) (d : Nat) : Nat := s.descWord d 3
def descKlo (s : State) (d p : Nat) : Nat := s.descWord d (5 + p)
def descVault (s : State) (d p : Nat) : Nat := bits (s.descWord d 13) (8 * p) 8
/-- The extents in linearisation order, outermost first. -/
def extents (s : State) (d : Nat) : List Nat := (List.range (s.descOrder d)).map fun i => s.descExt d (s.descPerm d i)
/-- E: keys lie below it. -/
def keyEnd (s : State) (d : Nat) : Nat := (s.extents d).foldl (· * ·) 1

/-- Every page of [va, va + 4096 n) is SPARSE for a context; the pages are taken one by one. -/
def sparsePages (s : State) (c : Nat) : Nat → Nat → Nat → Bool
  | 0, _, _ => true
  | n + 1, va, fin' =>
    if fin' ≤ va then true
    else match s.walk c va 0 with
      | .ok p => p.cls == 3 && sparsePages s c n (va / 2 ^ p.size * 2 ^ p.size + 2 ^ p.size) fin'
      | .error _ => false

/-- The checks of the first access that names a descriptor (Table 12 of R193, R195). -/
def descOk (s : State) (c va d : Nat) : Bool :=
  let w0 := s.descWord d 0
  let n := s.descOrder d
  let np := s.descParts d
  let perms := (List.range n).map (s.descPerm d)
  let ns := List.range n
  bits w0 0 32 == 0x53504152 && bits w0 32 2 == 0 && bits w0 53 11 == 0 && np ≤ 8 && s.descVty d ≤ 0x0B
    && (ns.all fun i => perms.contains i) && ((List.range 4).all fun i => i < n || s.descPerm d i == 0)
    && ((List.range 4).all fun i => if i < n then s.descExt d i != 0 else s.descExt d i == 0)
    && bits (s.descWord d 4) 32 32 == 0 && ((List.range 18).all fun i => s.descWord d (14 + i) == 0)
    && s.descNodes d % np == 0 && 16 * np ≤ s.descNodes d
    && s.descPool d % 256 == 0 && va + 256 ≤ s.descPool d
    && s.descKlo d 0 == 0 && s.keyEnd d < 2 ^ 64
    && ((List.range 8).all fun p =>
      if p < np then s.descKlo d p < (if p + 1 < np then s.descKlo d (p + 1) else s.keyEnd d) else s.descKlo d p == 0)
    && ((List.range 8).all fun p =>
      if p < np then s.boot.live.getLsbD (s.descVault d p / 64) && !s.vaultFenced (s.descVault d p) else s.descVault d p == 0)
    && s.sparsePages c (ceilDiv (s.descPool d + 256 * s.descNodes d - va / 4096 * 4096) 4096) va (s.descPool d + 256 * s.descNodes d)

/-! ### Regions of sparse-tensor memory -/

/-- The words of a descriptor that its writer owns (R193). -/
def descWords (s : State) (d : Nat) : List Nat := (List.range 16).map (s.descWord d)

/-- The region that a descriptor names, made on the first access that names it (R195): a descriptor whose owned half is all
zero has not been named since it was written, and one that failed its checks stays so until other words stand there (log entry 61). -/
def openTree (s : State) (c va d : Nat) : State × Tree :=
  let fresh : State × Tree :=
    if s.descOk c va d then
      let tr : Tree := { ok := true, parts := List.replicate (s.descParts d) Part.empty, vseq := 0, words := [] }
      (s.mirror d tr, tr)
    else
      let tr : Tree := { ok := false, parts := [], vseq := 0, words := s.descWords d }
      ({ s with trees := tabSet d tr s.trees }, tr)
  match tabGet d s.trees with
  | some tr => if if tr.ok then s.descWord d 16 == 0 else tr.words != s.descWords d then fresh else (s, tr)
  | none => fresh

/-- The committed value of a key. -/
def committed (s : State) (d k : Nat) : Option Word :=
  match tabGet d s.trees with
  | some tr => (tr.parts.getD (s.partOf d k) Part.empty).get k
  | none => none

/-- Seek (R201): the least committed key at or above one, with its value. -/
def seek (s : State) (d k : Nat) : Option (Nat × Word) :=
  match tabGet d s.trees with
  | some tr => (tr.parts.flatMap Part.keys).find? fun e => k ≤ e.1
  | none => none

/-- A value that deletes its key: 0, or +0 or −0 of a float type (R198). -/
def zeroValue (vty : Nat) (v : Word) : Bool :=
  let w := Spec.tyWidth vty
  v.toNat % 2 ^ (if 8 ≤ vty then w - 1 else w) == 0

/-- Stores to one region applied in order as one operation (R198, R199). -/
def applyKeys (s : State) (d : Nat) (kvs : List (Nat × Word)) : State :=
  match tabGet d s.trees with
  | none => s
  | some tr =>
    let vty := s.descVty d
    let w := Spec.tyWidth vty
    let parts := kvs.foldl (fun ps kv =>
      ps.modify (s.partOf d kv.1) fun q =>
        if zeroValue vty kv.2 then (if (q.get kv.1).isSome then q.drop kv.1 else q)
        else q.put kv.1 (BitVec.ofNat 64 (kv.2.toNat % 2 ^ w))) tr.parts
    s.mirror d { tr with parts := parts, vseq := (tr.vseq + 1) % 2 ^ 64 }

/-- h + 1 nodes reserved for a store of a nonzero value; none when the partition has not enough (R200). -/
def reserve (s : State) (d k : Nat) (v : Word) : Option (Nat × State) :=
  match tabGet d s.trees with
  | none => none
  | some tr =>
    let p := s.partOf d k
    let q := tr.parts.getD p Part.empty
    if zeroValue (s.descVty d) v then some (0, s)
    else if q.free (s.partNodes d) < q.reserved + q.height + 1 then none
    else some (q.height + 1, s.mirror d { tr with parts := tr.parts.modify p fun q => { q with reserved := q.reserved + q.height + 1 } })

/-- The latest buffered store of a region to a key (R199). -/
def heldKey (buf : List HeldStore) (d k : Nat) : Option Word :=
  buf.foldl (fun r h => match h with | .key _ _ d' k' v _ => if d' = d ∧ k' = k then some v else r | _ => r) none

/-- A partition that a seek from a key enters is broken: it goes on into the next partition while it finds no key (R201, R402). -/
def brokenFrom (s : State) (d k : Nat) : Bool :=
  match tabGet d s.trees with
  | some tr =>
    let within := fun (p : Nat) => match s.seek d k with | some (k', _) => decide (p ≤ s.partOf d k') | none => true
    (List.range tr.parts.length).any fun p => s.partOf d k ≤ p && within p && (tr.parts.getD p Part.empty).broken
  | none => false

/-- The partition of a key is broken (R402). -/
def brokenAt (s : State) (d k : Nat) : Bool :=
  match tabGet d s.trees with
  | some tr => (tr.parts.getD (s.partOf d k) Part.empty).broken
  | none => false

end State

end Sys2Proof.Machine
end

