-- ==== Sys2Proof/Machine/Commit.lean ====
section
/-! DEFINITION. Commits, partial and final (R38, R272 to R275), the queues of a die that a commit feeds (R254, R360), and the
first irrevocable action of a task (R31, R231). -/

namespace Sys2Proof.Machine

namespace State

/-! ### The queues of a die (R360) -/

/-- Tasks held by a speculative enqueuer that reserve a slot of a queue (R254). -/
def heldSlots (s : State) (d prio : Nat) : Nat :=
  (s.tasks.filter fun k => k.2.die == d && k.2.prio == prio && (k.2.phase == .held || k.2.reserved)).length
/-- Free slots of a queue of 1,024. -/
def queueRoom (s : State) (d prio : Nat) : Nat := 1024 - ((s.die d).queues.getD prio []).length - s.heldSlots d prio

/-- A task enters its queue; with no predecessor left it is ready (R360, R361). -/
def enqueue (s : State) (h : Nat) : State :=
  match s.task? h with
  | none => s
  | some k =>
    let phase := if k.deps = 0 then TaskPhase.ready else .waiting
    (s.setTask h { k with phase := phase, readyAt := s.time, aged := false, reserved := false, by_ := none }).onDie k.die
      fun D => { D with queues := D.queues.modify k.prio (· ++ [h]) }

/-- The enqueues that a commit of a region carries (R254). -/
def releaseHeld (s : State) (r : Nat) : State :=
  ((s.tasks.filter fun k => k.2.phase == .held && k.2.by_ == some r).map Prod.fst).foldl enqueue s

/-! ### Applying a buffer -/

/-- The launch record of a context (R255, R351). -/
def recordAt (s : State) (c idx : Nat) : Nat := (s.ctx c).pool + 256 * idx
/-- A launch record has a word with an uncorrectable error, with which its block counts as malformed (R288, R401). -/
def recordSpoiled (s : State) (c idx : Nat) : Bool := s.spoiled (s.recordAt c idx) 256
/-- A word of a launch record, which has valid check bits again; the count in w9 [31:16] stays the device's own (R255, R258). -/
def patchRecord (s : State) (c idx k : Nat) (w : Word) : State :=
  let a := s.recordAt c idx + 8 * k
  let v := if k = 9 then w.toNat / 2 ^ 32 * 2 ^ 32 + bits (s.memWord a) 16 16 * 2 ^ 16 + w.toNat % 2 ^ 16 else w.toNat
  let cells := cellsAt a (bytesOf 8 v)
  { s.memSet cells with bad := unwritten cells s.bad }

/-- The descriptors of this package that a buffer stores keys to, in order (R276). -/
def descsOf (buf : List HeldStore) : List Nat :=
  buf.foldl (fun ds h => match h with | .key _ _ d _ _ _ => if ds.contains d || inRemote d then ds else ds ++ [d] | _ => ds) []
def keysOf (buf : List HeldStore) (d : Nat) : List (Nat × Word) :=
  buf.filterMap fun h => match h with | .key _ _ d' k v _ => if d' = d then some (k, v) else none | _ => none

/-- The first store of a buffer that its home cannot perform: into a malformed block, a descriptor's among them (R288), a broken partition
(R402), a word of a launch record in a malformed block of which it keeps a part (R401), or a package that is lost or refuses it (R412, R413).
Its writer, the fault that it raises, and where the request went that met it, with whether a block has been fetched once more. -/
def badStore (s : State) (g : Region) : Option (Site × Flt × Option (Nat × Bool)) :=
  g.buffer.findSome? fun h =>
    match h with
    | .bytes p va cells cmp =>
      match cells with
      | [] => none
      | (a, _) :: _ =>
        match s.barred a va with
        | some f => some (p, f, none)
        | none => if s.wouldSpoil cmp (cells.filter fun c => !inRemote c.1) then some (p, .decmp (va / 256 * 256), some (a, true)) else none
    | .key p va d k _ _ => ((s.barred d va).map fun f => (p, f, none)).or (if s.brokenAt d k || s.codeBad d then some (p, .decmp va, some (d, s.codeBad d)) else none)
    | .patch p idx k _ _ => if k = 9 && s.recordSpoiled g.ctx idx then some (p, .decmp idx, none) else none
    | .mark .. => none

/-- The stores of a buffer, performed at their homes: bytes in order, each a request of its writer's die (R289), the keys of each region
as one operation, then the patches with their results (R199, R258, R274). Those of another package are written there (R276). -/
def applyBuffer (s : State) (g : Region) : State :=
  let s := g.buffer.foldl (fun s h =>
    match h with
    | .bytes p va cells cmp =>
      let s := match cells with | (a, _) :: _ => s.touch p g.ctx va a | [] => s
      (s.physWrite cmp (cells.filter fun c => !inRemote c.1)).getD s
    | .key p va d _ _ _ => s.touch p g.ctx va d
    | .patch .. | .mark .. => s) s
  let s := (descsOf g.buffer).foldl (fun s d => s.applyKeys d (keysOf g.buffer d)) s
  let s := s.unreserve g.buffer
  g.buffer.foldl (fun s h =>
    match h with
    | .patch p idx k w op => (s.patchRecord g.ctx idx k w).onTile p.t fun T => T.deliver op 0
    | _ => s) s

/-! ### Commit (R38, R272 to R275) -/

/-- A task commits with priority: irrevocable, or replayed three times (R38). -/
def priorityTask (s : State) (g : Region) : Bool := match s.task? g.task with | some k => k.irrev || 3 ≤ k.replays | none => false

/-- The order of two priority tasks: launch sequence number, die, row and column of the origin (R38). -/
def rank (s : State) (g : Region) : List Nat := [match s.task? g.task with | some k => k.lseq | none => 0, g.die, g.oy, g.ox]
/-- Lexicographic order of numbers. -/
def before : List Nat → List Nat → Bool
  | a :: as, b :: bs => a < b || (a == b && before as bs)
  | _, _ => false

/-- The signatures of a region meet a commit that a task makes of these locations: in one of them, or falsely (R38). -/
def meets (s : State) (h : Nat) (writes : List Loc) (q : Region) : Bool :=
  (writes.any fun l => q.reads.contains l || q.writes.contains l)
    || (!writes.isEmpty && !(q.reads.isEmpty && q.writes.isEmpty) && Config.falseMeeting h q.task s.commits.length)

/-- Priority tasks in flight, freeze-saved ones among them, whose signatures a commit meets that a task makes of these locations. -/
def rivals (s : State) (r h : Nat) (writes : List Loc) : List Region :=
  ((s.regions ++ s.saved.map fun x => (x.num, x.region)).filter fun q => q.1 != r && q.2.running && q.2.drain.isNone && s.priorityTask q.2
    && s.meets h writes q.2).map Prod.snd

/-- A commit of a region, then `k`. A task that has read or written what another commit wrote meanwhile, or that meets a priority task
without having priority, or an irrevocable one without being irrevocable, replays; of two priority tasks the later in rank waits
(R38, R275, R284). A store that its home cannot perform stops its writer, and nothing is committed (R288, R402). A partial commit has
priority, makes the task irrevocable and keeps its signatures (R274, R275). -/
def commit (s : State) (r : Nat) (final : Bool) (k : State → State) : State :=
  match s.region? r with
  | none => s
  | some g =>
    if !s.irrevocable g && s.overtaken g then s.replay r
    else
      let rs := s.rivals r g.task g.writes
      if !s.irrevocable g && (rs.any s.irrevocable || (!rs.isEmpty && final && !s.priorityTask g)) then s.replay r
      else if rs.any fun q => before (s.rank q) (s.rank g) then s
      else match s.badStore g with
      | some (p, f, at_) => (match at_ with
          | some (a, true) => s.touchBad p g.ctx f.va a
          | some (a, false) => s.touch p g.ctx f.va a
          | none => s).raise p f
      | none =>
        let s := s.applyBuffer g
        let s := { s with commits := if g.writes.isEmpty then s.commits else s.commits ++ [g.writes] }
        let s := s.onRegion r fun g => { g with
          buffer := []
          used := 0
          reads := if final then [] else g.reads
          writes := if final then [] else g.writes }
        let s := if final then s else s.onTask g.task fun k => { k with irrev := true }
        k ((s.releaseHeld r).count g.die .commitMade)

/-- Something of a region waits for a commit. -/
def uncommitted (s : State) (r : Nat) (g : Region) : Bool := (g.buffer.any fun h => 0 < entriesOf h) || s.tasks.any fun k => k.2.phase == .held && k.2.by_ == some r

/-- An irrevocable action of the running element, then `k` (R31, R231, R275): the task is validated at its first one; a
release, or an action after FENCE.rel, first waits for the element's earlier operations and commits the buffer (R155, R267,
R274). -/
def irrevocably (s : State) (rel : Bool) (k : State → State) : State :=
  match s.regionOf s.here with
  | none => k s
  | some (r, g) =>
    if s.mustReplay g then s.replay r
    else
      let k' := fun (s : State) => k ((s.onTask g.task fun k => { k with irrev := true }).onMe fun T => { T with relFence := false })
      if rel || s.me.relFence then
        if s.me.unperformed then s
        else if s.uncommitted r g then s.commit r false k' else k' s
      else k' s

/-- A first irrevocable action that stores nothing (WAIT): FENCE.rel stays pending (R267). -/
def irrevocablyRead (s : State) (k : State → State) : State :=
  match s.regionOf s.here with
  | none => k s
  | some (r, g) => if s.mustReplay g then s.replay r else k (s.onTask g.task fun k => { k with irrev := true })

end State

end Sys2Proof.Machine
end

