-- ==== Sys2Proof/Machine/MemAcc.lean ====
section
/-! DEFINITION. The memory group of an element (R151 to R158): loads and stores by space and page class, presence accesses,
PFETCH, FENCE and TFENCE. -/

namespace Sys2Proof.Machine

/-- Bytes of an access (R87 Table 9). -/
def accessBytes (sz : Nat) : Nat := match sz with | 0 | 4 => 1 | 1 | 5 => 2 | 2 | 6 => 4 | 3 => 8 | _ => 64

/-- The value of a load: the bytes, extended for sizes 4 to 6 (R87 Table 9). -/
def loaded (sz : Nat) (bs : List Byte) : Vec :=
  if 4 ≤ sz ∧ sz ≤ 6 then BitVec.ofNat 512 (extend (ofBytes bs) (8 * accessBytes sz) true).toNat else BitVec.ofNat 512 (ofBytes bs)

/-- Where an access goes (R152). -/
inductive Place where
  | scratch (t off : Nat)          -- a scratchpad, by byte offset
  | vault (pa : Nat)
  | virt (va : Nat) (spill : Bool)
  deriving DecidableEq, Repr

/-- What R152 gives for an address. -/
inductive Found where
  | at_ (p : Place)
  | fault (f : Flt)
  | exhaust
  deriving DecidableEq, Repr

namespace State

/-- The site of the running element's current instruction. -/
def site (s : State) : Site := ⟨s.here, 0, 0, s.me.pc⟩

/-- The launch of a task. -/
def launchOf (s : State) (g : Region) : Option Launch :=
  match s.task? g.task with
  | some k => s.launches.find? fun l => l.ctx == k.ctx && l.lseq == k.lseq
  | none => none

/-- The effective address (R151). -/
def effAddr (s : State) (f : FmtM) : Nat := ((s.me.readX f.base.toNat).toNat + (sext f.off.toNat 20 % 2 ^ 64).toNat) % 2 ^ 64

/-- The address spaces, checked in the order of R152. -/
def resolve (s : State) (space ea n : Nat) : Found :=
  let t := s.here
  if ea % n != 0 then .fault (.prot ea 2)
  else match space with
    | 0 => .at_ (.virt ea false)
    | 1 =>
      if 2 ^ 63 ≤ ea then .fault (.prot ea 3)
      else if ea < s.me.scrkib * 1024 then .at_ (.scratch t (s.me.scrbase * 1024 + ea))
      else match s.regionOf t with
        | some (_, g) =>
          let o := match s.launchOf g with | some l => bits (word l.snap 7) 0 56 | none => 0
          if ea < 2 ^ 24 && o != 0 then .at_ (.virt (o + ((tyOf t - g.oy) * g.w + (txOf t - g.ox)) * 2 ^ 24 + ea) true) else .exhaust
        | none => .exhaust
    | 2 =>
      let m := tileAt (dieOf t) (tyOf t / 2 * 2 + bits ea 20 1) (txOf t / 2 * 2 + bits ea 19 1)
      if 2 ^ 21 ≤ ea || !((s.regionOf t).any fun q => q.2.holds m) then .fault (.prot ea 3) else .at_ (.scratch m (ea % 2 ^ 19))
    | _ =>
      let v := bits ea 24 6
      if 2 ^ 30 ≤ ea || !bit ((s.ctx s.myCtx).vgrant.getD (dieOf t) 0).toNat v then .fault (.prot ea 3)
      else if s.vaultFenced (dieOf t * 64 + v) then .fault (.prot ea 5)
      else .at_ (.vault (vaultBase + dieOf t * 2 ^ 30 + ea))

/-- A scratchpad word with an uncorrectable error lies in n bytes (R401). -/
def scratchBad (s : State) (t off n : Nat) : Bool := (s.tile t).spSites.any fun w => off < 8 * w + 8 && 8 * w < off + n

/-- An operation with acquire whose value has not come: later accesses wait for it (R155, R237). -/
def acquiring (s : State) : Bool := s.me.ops.any fun o => o.acq && o.value.isNone
/-- A memory access also waits for the operands and stores of earlier matrix instructions (R213). -/
def heldBack (s : State) : Bool := s.acquiring || s.me.matrixPending
def outstanding (s : State) : Bool := s.me.unperformed

/-! #### Earlier accesses of the element to the same bytes (R155, R231, R269) -/

/-- The running element is one of those that a request at a home stands for. -/
def mine (s : State) (e : HsqEntry) : Bool :=
  match e.req with
  | .atoms _ _ _ items => items.any fun m => m.2.1 == s.here
  | .arrive _ _ ms => ms.any fun m => m.1 == s.here
  | _ => e.t == s.here

/-- The requests at home sequencers, and those to be made again there. -/
def asked (s : State) : List HsqEntry := s.hsq.flatMap Prod.snd ++ s.retry

/-- The element has an operation on the word of an address that may still be passed by a later one: in a combining node, a WAIT, or one to
be made again. -/
def combining (s : State) (pa : Nat) : Bool :=
  let same := fun (a : Nat) => a / 8 == pa / 8
  (s.combs.any fun k => same k.entry.pa && s.mine k.entry) || (s.armed.any fun a => same a.pa && a.t == s.here)
    || (s.retry.any fun e => same e.pa && s.mine e)
    || s.hsq.any fun q => q.2.any fun e => same e.pa && match e.req with | .wait .. => e.t == s.here | _ => false

/-- The element has an operation on the word of an address that has not been performed. -/
def pendingOn (s : State) (pa : Nat) : Bool :=
  s.combining pa || s.asked.any fun e => e.pa / 8 == pa / 8 && s.mine e

/-- The element has a load of some of these bytes, or a CHAPP of an entry that holds some, that has not been performed. -/
def loading (s : State) (pa n : Nat) : Bool :=
  (s.mit.any fun q => q.t == s.here && overlaps pa n q.pa q.size)
    || s.asked.any fun e => match e.req with
        | .chapp _ _ a _ _ => e.t == s.here && overlaps pa n a 128
        | _ => false

/-! #### Queues shared between contexts (R30) -/

/-- Room for a channel in a shared queue of 5 (k + 1) entries, k of them a pool: each user channel has k + 1 of its own, channel 4 one. -/
def shares (count : Nat → Nat) (c : Nat) : Bool :=
  let own := fun (c : Nat) => if c = 4 then 1 else Config.poolSize + 1
  decide (count c < own c) || decide (((List.range 5).map fun c => count c - own c).sum < Config.poolSize)

/-- Room for a channel in the request queue of a home sequencer. -/
def hsqRoom (s : State) (v c : Nat) : Bool := shares (fun c => (((tabGet v s.hsq).getD []).filter fun e => e.ctx == c).length) c
/-- The memory-interface tile, of the 48 of each die (R2), through which a block is read: a tile of the die whose memory holds it. Which of
them serves a block is a free value (log entry 21). -/
def mitPort (pa : Nat) : Nat := homeVault pa / 64 * 48 + Config.mitPort (pa / 256) % 48
/-- Room for a channel at the port of the memory-interface tile that a block is read through. -/
def mitRoom (s : State) (pa c : Nat) : Bool := shares (fun c => (s.mit.filter fun q => mitPort q.pa == mitPort pa && q.ctx == c).length) c

/-! #### Broken SYNC words (R402, R418) -/

/-- The result of an outstanding operation; a BSYNC of a region that it ends is no longer in progress (R241). -/
def finish (s : State) (t op : Nat) (v : Nat) : State :=
  let s := s.onTile t fun T => T.deliver op (BitVec.ofNat 512 v)
  match s.regionOf t with
  | some (r, g) =>
    match g.bsync with
    | some b => if b.t = t ∧ b.op = op then s.setRegion r { g with bsync := none } else s
    | none => s
  | none => s

/-- A SYNC word with an uncorrectable error, in a malformed block, or in a fenced vault (R288, R402, R418). -/
def badSync (s : State) (pa : Nat) : Bool :=
  (if s.inCode pa then s.codeBad pa else s.spoiled (pa / 8 * 8) 8) || (inVault pa && s.vaultFenced (homeVault pa))
/-- A malformed block of a compressed page with valid check bits again: its other words hold what the part then has there, free values (log
entry 58). -/
def mendBlock (s : State) (pa : Nat) : State :=
  if !s.codeBad pa then s
  else
    let b := pa / 256 * 256
    let bs := (List.range 256).map fun i => Config.freeByte (s.free + i)
    (State.physWrite { s with free := s.free + 256 } true (cellsAt b bs)).getD s
/-- The word is rewritten as zero with valid check bits; the WAITs armed on it return BADWORD (R402). -/
def mendSync (s : State) (pa : Nat) : State :=
  let on := fun (a : Armed) => a.pa / 8 == pa / 8
  let s := (s.armed.filter on).foldl (fun s a => s.finish a.t a.op 2) { s with armed := s.armed.filter fun a => !on a }
  (s.mendBlock pa).homeWrite (cellsAt (pa / 8 * 8) (bytesOf 8 0))

/-- Bytes that an element reads from a page, with what the read leaves: a block the memory-interface tile must treat is
queued there, and a SYNC word with an error is made good (R278, R288, R402). A read that its own stores do not answer is a request
(R289). -/
inductive Fetch where
  | now (bs : List Byte)
  | mit
  | bad
  deriving DecidableEq, Repr

def fetch (s : State) (r : Nat) (q : Page) (va n : Nat) : State × Fetch :=
  match s.region? r with
  | none => (s, .bad)
  | some g =>
    let own := answers g.buffer q.pa n
    let s := if own then s else s.touch s.site g.ctx va q.pa
    if inRemote q.pa then let (bs, s) := s.heldRead g.buffer q.cmp q.pa n; (s, .now (bs.getD []))
    else if q.cls == 2 then
      if s.badSync q.pa then (s.mendSync q.pa, .bad)
      else (s, .now (s.homeBytes q.pa n))
    else
      let s := s.noteRead r (readLocs q.pa n)
      if s.needsMit q.cmp q.pa && !own then (s, .mit)
      else match s.taskRead g q.cmp q.pa n with
        | some bs => (s, .now bs)
        | none => (s, .bad)

/-- The bytes of a read that waits for a block's decoding (R254); none for a malformed block. -/
def fetchAll (s : State) (r : Nat) (q : Page) (va n : Nat) : State × Option (List Byte) :=
  match s.fetch r q va n with
  | (s, .now bs) => (s, some bs)
  | (s, .bad) => (s, none)
  | (s, .mit) => match s.region? r with
    | some g => match s.taskRead g q.cmp q.pa n with
      | some bs => (s, some bs)
      | none => (s.count (dieOf s.here) .zmbRefetch, none)
    | none => (s, none)

/-- A load whose place is known: its value is fixed here and its register filled when the result arrives (R20, R264). It waits for what
the element has still to do to the same bytes. An uncorrectable error of a scratchpad is recorded with the address of the operand, which is 0
for SCR (R401 Table 5). -/
def loadFrom (s : State) (f : FmtM) (i : Instr) (lanes : Mask) (p : Place) : State :=
  let n := accessBytes f.sz.toNat
  let acq := f.ord.getLsbD 0
  let done := fun (s : State) (bs : List Byte) => (s.onMe fun T => T.issueOp .load f.reg lanes (some (loaded f.sz.toNat bs)) acq i).advance
  let site : Site := s.site
  match p with
  | .scratch t off => if s.scratchBad t off n then s.trap (.decmp (if f.space = 2 then s.effAddr f else 0)) else done s (memBytes off n (s.tile t).scratch)
  | .vault pa =>
    match s.regionOf s.here with
    | none => s
    | some (r, _) =>
      match s.fetch r ⟨pa, 24, 0⟩ (pa - vaultBase) n with
      | (s, .now bs) => done s bs
      | (s, _) => (s.count (dieOf s.here) .zmbRefetch).trap (.decmp ((pa - vaultBase) / 256 * 256))
  | .virt va spill =>
    match s.regionOf s.here with
    | none => s
    | some (r, g) =>
      match s.page site none g.ctx va (if spill then .spill false else .load f.sz.toNat) with
      | (s, .error e) => s.trap e
      | (s, .ok q) =>
        if s.loading q.pa n || (q.cls == 2 && s.pendingOn q.pa) then s
        else match s.barred q.pa va with
        | some e => s.trap e
        | none =>
          match s.fetch r q va n with
          | (s, .now bs) => done s bs
          | (s, .bad) => s.trap (.decmp (va / 256 * 256))
          | (s', .mit) =>
            if !s.mitRoom q.pa g.ctx then s
            else
            let op := s'.me.nop
            let s := (s'.onMe fun T => T.issueOp .load f.reg lanes none acq i).advance
            { s with mit := s.mit ++ [⟨s.here, op, g.ctx, q.pa, va, n, 4 ≤ f.sz.toNat && f.sz.toNat ≤ 6, q.cmp, 0, site.widx⟩] }

/-- Bytes of a store, as offsets from its address. -/
abbrev Bytes := List (Nat × Byte)

/-- A store whose place is known, then `k`: scratchpads at once, the rest into the speculative store buffer (R152, R153). A
store to a malformed block raises DECMP (R288); one over bytes that the element has still to read waits (R155). -/
def storeTo (s : State) (p : Place) (data : Bytes) (k : State → State) : State :=
  let site : Site := s.site
  let cells := fun (a : Nat) => data.map fun d => (a + d.1, d.2)
  match p with
  | .scratch t off => k (s.onTile t fun T => T.writeScratch (cells off))
  | .vault pa =>
    match s.regionOf s.here with
    | none => s
    | some (r, _) => s.hold r (.bytes site (pa - vaultBase) (cells pa) false) k
  | .virt va spill =>
    match s.regionOf s.here with
    | none => s
    | some (r, g) =>
      match s.page site none g.ctx va (if spill then .spill true else .store) with
      | (s, .error e) => s.trap e
      | (s, .ok q) =>
        if data.any fun d => s.loading (q.pa + d.1) 1 then s
        else match s.barred q.pa va with
        | some e => s.trap e
        | none =>
          if s.wouldSpoil q.cmp (cells q.pa) then (s.touchBad site g.ctx va q.pa).trap (.decmp (va / 256 * 256))
          else s.hold r (.bytes site va (cells q.pa) q.cmp) k

end State

/-- The frame of an instruction of Format M: it executes for lane 0 or for any lane, reads its sources, and waits for an
acquire before it (R78, R124, R151, R155). -/
def memOp (s : State) (f : FmtM) (vector source : Bool) (effect : Mask → State → State) : Host.Outcome State Fault Refusal :=
  let m := s.me.effMask f.pg f.ps
  let base : Src := ⟨f.base, f.fe.getLsbD 0, 1⟩
  .next (s.issue (executes m vector) (if source then [⟨f.reg, f.fe.getLsbD 1, 0⟩, base] else [base])
    fun s => if s.heldBack then s else effect m s)

/-- A release waits for the element's earlier accesses (R155). -/
def afterRelease (s : State) (f : FmtM) (k : State → State) : State := if f.ord.getLsbD 1 && s.outstanding then s else k s

/-- What R152 found, taken on. -/
def placed (s : State) (space ea n : Nat) (k : Place → State → State) : State :=
  match s.resolve space ea n with
  | .at_ p => k p s
  | .fault f => s.trap f
  | .exhaust => match (s.me).region with | some r => s.exhaust r 1 | none => s

/-- LD (R151). -/
def execLd (f : FmtM) (s : State) : Host.Outcome State Fault Refusal :=
  memOp s f false false fun _ s => placed s f.space.toNat (s.effAddr f) (accessBytes f.sz.toNat) fun p s => s.loadFrom f (.ld f) 0 p

/-- LDV (R151). -/
def execLdv (f : FmtM) (s : State) : Host.Outcome State Fault Refusal :=
  memOp s f true false fun m s => placed s f.space.toNat (s.effAddr f) 64 fun p s => s.loadFrom f (.ldv f) m p

/-- ST (R151): bits [w−1:0] of the source. -/
def execSt (f : FmtM) (s : State) : Host.Outcome State Fault Refusal :=
  memOp s f false true fun _ s => afterRelease s f fun s =>
    let n := accessBytes f.sz.toNat
    placed s f.space.toNat (s.effAddr f) n fun p s => s.storeTo p (cellsAt 0 (bytesOf n (s.me.readX f.reg.toNat).toNat)) State.advance

/-- The bytes of the lanes of a mask. -/
def laneCells (m : Mask) (v : Vec) : State.Bytes :=
  (lanesIn m).flatMap fun i => cellsAt (4 * i) (bytesOf 4 (elem v 32 i))

/-- STV (R151): the bytes of the active lanes. -/
def execStv (f : FmtM) (s : State) : Host.Outcome State Fault Refusal :=
  memOp s f true true fun m s => afterRelease s f fun s =>
    placed s f.space.toNat (s.effAddr f) 64 fun p s => s.storeTo p (laneCells m (s.me.readV f.reg)) State.advance

/-! ### Presence words (R154) -/

/-- The presence words of an access: one, or those of the eight that the mask governs, as offsets in words. -/
def presenceWords (f : FmtM) (m : Mask) : List Nat :=
  if f.sz = 3 then [0] else (List.range 8).filter fun j => m.getLsbD (2 * j)

namespace State

/-- Every word of a PLD is present. -/
def isPresent (s : State) (d : Deferred) : Bool :=
  match d.pa with | some pa => d.words.all fun j => s.pres.contains (pa / 8 + j) | none => false

/-- The value a PLD returns once every word is there, as the bank reads it; none where a word is malformed (R288, R401). -/
def presenceValue (s : State) (d : Deferred) : Option Vec :=
  let at_ := fun (j : Nat) => (s.physRead d.cmp (d.pa.getD 0 + 8 * j) 8).map ofBytes
  if d.words.any fun j => (at_ j).isNone then none
  else some (pack 64 ((List.range 8).map fun j => if d.words.contains j then (at_ j).getD 0 else 0))

/-- A deferred load whose words are all present returns, or raises DECMP and stays, to be made again when its region goes on (R154,
R401). -/
def wake (s : State) (d : Deferred) : State :=
  if !s.isPresent d then s
  else match s.presenceValue d with
    | some v => { s with deferred := s.deferred.filter fun x => x != d }.onTile d.t fun T => T.deliver d.op v
    | none => if (s.regionOf d.t).any fun q => q.2.frozen then s
      else (s.count (dieOf d.t) .zmbRefetch).raise ⟨d.t, 0, 0, d.widx⟩ (.decmp (d.va / 256 * 256))

/-- Deferred loads whose words are now all present return (R154). -/
def wakeDeferred (s : State) : State := s.deferred.foldl wake s

/-- A deferred load is made again: translated anew, which may find it another package's word, and returned where its words are present
(R154, R388). -/
def reissuePld (s : State) (d : Deferred) : State :=
  match s.page ⟨d.t, 0, 0, d.widx⟩ none d.ctx d.va .present with
  | (s, .error f) => s.raise ⟨d.t, 0, 0, d.widx⟩ f
  | (s, .ok q) =>
    let d' := { d with
      pa := some q.pa
      cmp := q.cmp }
    match s.barred q.pa d.va with
    | some f => s.raise ⟨d.t, 0, 0, d.widx⟩ f
    | none =>
      let s := s.touch ⟨d.t, 0, 0, d.widx⟩ d.ctx d.va q.pa
      if inRemote q.pa then
        let (bs, s) := s.remoteRead q.pa 64
        { s with deferred := s.deferred.filter fun x => x != d }.onTile d.t fun T =>
          T.deliver d.op (if d.lanes = 0 then BitVec.ofNat 512 (ofBytes (bs.take 8)) else BitVec.ofNat 512 (ofBytes bs))
      else { s with deferred := s.deferred.map fun x => if x = d then d' else x }.wake d'

/-- What a region that goes on has still to make again of its deferred loads: those not translated, and those that met an error, each a new
request (R289). -/
def reissuePlds (s : State) (g : Region) : State :=
  (s.deferred.filter fun d => g.holds d.t).foldl (fun s d =>
    match d.pa with
    | none => s.reissuePld d
    | some pa => if s.isPresent d then (s.touch ⟨d.t, 0, 0, d.widx⟩ d.ctx d.va pa).wake d else s) s

end State

/-- PLD (R154): deferred at the bank until every word is present. -/
def execPld (f : FmtM) (s : State) : Host.Outcome State Fault Refusal :=
  memOp s f (f.sz == 7) false fun m s => placed s 0 (s.effAddr f) (accessBytes f.sz.toNat) fun p s =>
    match p, s.regionOf s.here with
    | .virt va _, some (_, g) =>
      match s.page s.site none g.ctx va .present with
      | (s, .error e) => s.trap e
      | (s, .ok q) =>
        match s.barred q.pa va with
        | some e => s.trap e
        | none =>
          let lanes : Mask := if f.sz = 7 then maskFor 64 m else 0
          let d : Deferred := ⟨g.ctx, s.here, s.me.nop, va, some q.pa, q.cmp, presenceWords f m, lanes, s.me.pc⟩
          let issued := fun (s : State) => (s.onMe fun T => T.issueOp .pld f.reg lanes none (f.ord.getLsbD 0) (.pld f)).advance
          let s := s.touch s.site g.ctx va q.pa
          if inRemote q.pa then
            let (bs, s) := s.remoteRead q.pa 64
            (issued s).onMe fun T => T.deliver d.op (if f.sz = 7 then BitVec.ofNat 512 (ofBytes bs) else BitVec.ofNat 512 (ofBytes (bs.take 8)))
          else if !s.isPresent d then (State.count { issued s with deferred := s.deferred ++ [d] } (dieOf s.here) .pldDeferral)
          else match s.presenceValue d with
            | some v => (issued s).onMe fun T => T.deliver d.op v
            | none => (s.count (dieOf s.here) .zmbRefetch).trap (.decmp (va / 256 * 256))
    | _, _ => s

/-- PST (R154): irrevocable; a word already present raises PRESDUP and nothing is written. A relaxed one that finds its word present
leaves the task as it was (R311); one with release has committed first (R274). A vector form with no word to write performs nothing
(R151). -/
def execPst (f : FmtM) (s : State) : Host.Outcome State Fault Refusal :=
  memOp s f (f.sz == 7) true fun m s => placed s 0 (s.effAddr f) (accessBytes f.sz.toNat) fun p s =>
    match p, s.regionOf s.here with
    | .virt va _, some (_, g) =>
      let js := presenceWords f m
      let site : Site := s.site
      if js.isEmpty then s.advance
      else match s.page site none g.ctx va .setPresent with
        | (s, .error e) => s.trap e
        | (s, .ok q) =>
          match s.barred q.pa va with
          | some e => s.trap e
          | none =>
            let v := if f.sz = 3 then (s.me.readX f.reg.toNat).toNat else (s.me.readV f.reg).toNat
            let cells := js.flatMap fun j => cellsAt (q.pa + 8 * j) (bytesOf 8 (bits v (64 * j) 64))
            let attempt := fun (s : State) (k : State → State) =>
              let asked := s.touch site g.ctx va q.pa
              match js.find? fun j => s.pres.contains (q.pa / 8 + j) with
              | some j => asked.trap (.presdup (va + 8 * j))
              | none => if s.wouldSpoil q.cmp cells then (s.touchBad site g.ctx va q.pa).trap (.decmp (va / 256 * 256)) else k s
            let perform := fun (s : State) =>
              let s := (s.touch site g.ctx va q.pa)
              let s := (s.physWrite q.cmp cells).getD s
              ({ s with pres := js.foldl (fun ps j => setInsert (q.pa / 8 + j) ps) s.pres }.wakeDeferred).advance
            if inRemote q.pa then
              s.irrevocably (f.ord.getLsbD 1) fun s =>
                let (x, s) := (s.touch site g.ctx va q.pa).draw
                if x.getLsbD 0 then s.trap (.presdup va) else s.advance
            else if f.ord.getLsbD 1 || s.me.relFence then s.irrevocably true fun s => attempt s perform
            else attempt s fun s => s.irrevocably false perform
    | _, _ => s

namespace State

/-- The physical pieces of [va, fin'), block by block, each as its address, its physical address and its length; the first fault
decides. -/
def pieces (s : State) (p : Site) (c : Nat) (w : Want) : Nat → Nat → Nat → State × Except Flt (List (Nat × Nat × Nat))
  | 0, _, _ => (s, .ok [])
  | n + 1, va, fin' =>
    if fin' ≤ va then (s, .ok [])
    else match s.page p none c va w with
      | (s, .error e) => (s, .error e)
      | (s, .ok q) =>
        let next := va / 256 * 256 + 256
        match s.pieces p c w n next fin' with
        | (s, .error e) => (s, .error e)
        | (s, .ok ps) => (s, .ok ((va, q.pa, min next fin' - va) :: ps))

end State

/-- PCLEAR (R154): presence bits of a range are cleared, block by block (R289). -/
def execPclear (f : FmtM) (s : State) : Host.Outcome State Fault Refusal :=
  memOp s f false true fun _ s =>
    let ea := s.effAddr f
    let n := (s.me.readX f.reg.toNat).toNat
    if ea % 8 != 0 || n % 8 != 0 then s.trap (.prot ea 2)
    else if n = 0 then s.advance
    else match s.pieces s.site s.myCtx .setPresent (n / 256 + 2) ea (ea + n) with
      | (s, .error e) => s.trap e
      | (s, .ok ps) =>
        match ps.findSome? fun q => s.barred q.2.1 q.1 with
        | some e => s.trap e
        | none => s.irrevocably (f.ord.getLsbD 1) fun s =>
          let s := ps.foldl (fun (s : State) q => s.touch s.site s.myCtx q.1 q.2.1) s
          { s with pres := s.pres.filter fun w => !(ps.any fun q => q.2.1 ≤ 8 * w && 8 * w < q.2.1 + q.2.2) }.advance

/-! ### PFETCH and the fences -/

/-- PFETCH (R157): no effect a program sees, and no fault; it counts as a read. -/
def execPfetch (f : FmtM) (s : State) : Host.Outcome State Fault Refusal :=
  memOp s f false false fun _ s =>
    let ea := s.effAddr f
    let s := match s.resolve f.space.toNat ea 1 with
      | .at_ (.virt va _) =>
        match s.xlate (dieOf s.here) none s.myCtx va 0 with
        | (s, .ok q) => if q.rd && (q.cls == 0 || q.cls == 1 || q.cls == 4 || q.cls == 5) then s.touch s.site s.myCtx va q.pa else s
        | (s, .error _) => s
      | _ => s
    s.advance

/-- FENCE (R156): the element waits until its earlier accesses have been performed; a release form makes its next
irrevocable action a release (R267, R274). -/
def execFence (f : FmtM) (s : State) : Host.Outcome State Fault Refusal :=
  let m := s.me.effMask f.pg f.ps
  .next (s.issue (executes m false) [] fun s =>
    if s.outstanding then s else (if f.ord.getLsbD 1 then s.onMe fun T => { T with relFence := true } else s).advance)

/-- The dies of a scope (R158): the element's own, or every live one. -/
def scopeDies (s : State) (scope : Nat) : List Nat :=
  if scope ≤ 3 then [dieOf s.here] else (List.range 4).filter fun d => s.boot.live.getLsbD d || d == dieOf s.here

/-- TFENCE (R158): sent once, then the element waits until every die of the scope has acknowledged it. -/
def execTfence (f : FmtM) (s : State) : Host.Outcome State Fault Refusal :=
  memOp s f false true fun _ s =>
    let ea := s.effAddr f
    let n := (s.me.readX f.reg.toNat).toNat
    if ea % 4096 != 0 || n % 4096 != 0 then s.trap (.prot ea 2)
    else match s.fences.find? fun x => x.t == some s.here with
      | none => { s with fences := s.fences ++ [⟨s.myCtx, ea, n, scopeDies s f.scope.toNat, some s.here, 0, 0⟩] }
      | some x => if x.left.isEmpty then { s with fences := s.fences.filter fun x => x.t != some s.here }.advance else s

end Sys2Proof.Machine
end

