-- ==== Sys2Proof/Machine/Sparse.lean ====
section
/-! DEFINITION. Key accesses of an element to sparse-tensor memory: SLD and SST (R197 to R200). -/

namespace Sys2Proof.Machine

namespace State

/-- The value that a task reads at a key: its own latest buffered store, else the committed tree; 0 when absent (R197 to
R199). -/
def keyValue (s : State) (g : Region) (d k : Nat) : Nat :=
  match heldKey g.buffer d k with
  | some v => if zeroValue (s.descVty d) v then 0 else v.toNat % 2 ^ Spec.tyWidth (s.descVty d)
  | none => match s.committed d k with | some v => v.toNat | none => 0

/-- Nodes that a store of a value needs of its partition now (R200). -/
def nodesFor (s : State) (d k : Nat) (v : Word) : Nat :=
  match tabGet d s.trees with
  | some tr => if zeroValue (s.descVty d) v then 0 else (tr.parts.getD (s.partOf d k) Part.empty).height + 1
  | none => 0

/-- Nodes reserved for the stores of one instruction, all or none: the nodes of each, or the key that found none (R200). DESIGN CHOICE: a
vector SST reserves h + 1 nodes for each lane whose value is not zero, and none at all when a lane finds none; its record waits for as many
as all its stores to that partition need (log entry 68). -/
def reserveAll (s : State) (d : Nat) : List (Nat × Word) → List Nat → State × Except Nat (List Nat)
  | [], ns => (s, .ok ns)
  | (k, v) :: kvs, ns =>
    match s.reserve d k v with
    | some (n, s') => reserveAll s' d kvs (ns ++ [n])
    | none => (s, .error k)

/-- Key stores of one access into the buffer of a region, then `k`: exhaustion when they do not fit, IDXFULL when a
partition has not the nodes that the stores to it need together (R199, R200, R424). DESIGN CHOICE: of the two exhaustion comes first, and a
store that does not fit the buffer raises no IDXFULL (log entry 68). Stores to a region of another package reserve nothing here (R415). -/
def holdKeys (s : State) (r : Nat) (p : Site) (va d : Nat) (kvs : List (Nat × Word)) (k : State → State) : State :=
  match s.region? r with
  | none => s
  | some g =>
    if g.capacity < g.used + 2 * kvs.length then s.exhaust r 0
    else match if inRemote d then (s, Except.ok (kvs.map fun _ => 0)) else s.reserveAll d kvs [] with
      | (_, .error key) =>
        s.raiseFull p (.idxfull va (s.partOf d key)) (kvs.filter fun q => s.partOf d q.1 == s.partOf d key && !zeroValue (s.descVty d) q.2).length
      | (s', .ok ns) =>
        let hs := (List.range kvs.length).map fun i => HeldStore.key p va d (kvs.getD i (0, 0)).1 (kvs.getD i (0, 0)).2 (ns.getD i 0)
        let locs := hs.flatMap storeLocs
        k ((s'.onRegion r fun g => { g with
          buffer := g.buffer ++ hs
          used := g.used + 2 * kvs.length
          writes := g.writes ++ locs.filter fun l => !g.writes.contains l }).countBy g.die .bufferBytes (hs.map heldBytes).sum)

/-- The region whose descriptor is at a page's address, with its checks made on the first access (R195). -/
def openFound (s : State) (c va : Nat) (q : Page) : State × Except Flt Nat :=
  if va % 256 != 0 then (s, .error (.prot va 6))
  else if (s.block q.cmp q.pa).isNone then (s, .error (.decmp va))
  else match s.openTree c va q.pa with
  | (s, tr) => (s, if tr.ok then .ok q.pa else .error (.prot va 6))

/-- The region of sparse-tensor memory that a virtual address names, as an access of a tile finds it (R195, R402): its
physical descriptor, or the fault. One that is homed in another package only SLD and SST reach (R415). -/
def openAt (s : State) (p : Site) (c va : Nat) (write : Bool) : State × Except Flt Nat :=
  match s.page p none c va (.region write) with
  | (s, .error e) => (s, .error e)
  | (s, .ok q) =>
    if inRemote q.pa then (s, .error (.prot va 6)) else s.openFound c va q

end State

/-- The region that an SLD or an SST names: as `openAt` finds it, or one of another package, whose home makes the checks (R412, R415). -/
def State.openKeys (s : State) (va : Nat) (write : Bool) : State × Except Flt Nat :=
  match s.page s.site none s.myCtx va (.region write) with
  | (s, .error e) => (s, .error e)
  | (s, .ok q) =>
    if inRemote q.pa then
      match s.barred q.pa va with
      | some e => (s, .error e)
      | none => (s, if va % 256 = 0 then .ok q.pa else .error (.prot va 6))
    else s.openFound s.myCtx va q

/-- The frame of SLD and SST: the descriptor, the width and the keys are checked, then the effect takes the descriptor and the
keys of the lanes (R197). -/
def keyOp (s : State) (f : FmtM) (write : Bool) (effect : Mask → Nat → Nat → List (Nat × Nat) → State → State) : Host.Outcome State Fault Refusal :=
  let vector := f.sz == 7
  let m := s.me.effMask f.pg f.ps
  let odd := f.base + 1
  let bases : List Src := [⟨f.base, f.fe.getLsbD 0, 1⟩, ⟨odd, f.fe.getLsbD 0, 1⟩]
  .next (s.issue (executes m vector) (if write then ⟨f.reg, f.fe.getLsbD 1, 0⟩ :: bases else bases) fun s =>
    if s.heldBack then s
    else
      let va := (s.me.readX f.base.toNat).toNat
      let key := ((s.me.readX odd.toNat).toNat + (sext f.off.toNat 20 % 2 ^ 64).toNat) % 2 ^ 64
      match s.openKeys va write with
      | (s, .error e) => s.trap e
      | (s, .ok d) =>
        let keys := if vector then (lanesIn m).map fun i => (i, key + i) else [(0, key)]
        if inRemote d then effect m va d keys s
        else if 8 * (if vector then 4 else accessBytes f.sz.toNat) != Spec.tyWidth (s.descVty d) then s.trap (.prot va 6)
        else if keys.any fun k => s.keyEnd d ≤ k.2 then s.trap (.prot va 3)
        else if keys.any fun k => s.brokenAt d k.2 then (s.touch s.site s.myCtx va d).trap (.decmp va)
        else effect m va d keys s)

/-- The values that an SLD finds: of this package's tree, or what another package answers (log entry 22). -/
def State.keyRead (s : State) (g : Region) (d : Nat) (ks : List Nat) (n : Nat) : State × List Nat :=
  if inRemote d then
    let (bs, s) := s.remoteRead d (n * ks.length)
    let own := fun (i k : Nat) => match heldKey g.buffer d k with | some v => v.toNat % 2 ^ (8 * n) | none => ofBytes ((bs.drop (n * i)).take n)
    (s, ks.zipIdx.map fun q => own q.2 q.1)
  else (s, ks.map (s.keyValue g d))

/-- SLD (R197): short latency. DESIGN CHOICE: a key access, of SLD, SST and SCN.T as of an engine, is a request in the granule of the region's
descriptor, since the spec does not say where the node lies that it reaches (R289; log entry 68). -/
def execSld (f : FmtM) (s : State) : Host.Outcome State Fault Refusal :=
  keyOp s f false fun m va d keys s =>
    match s.regionOf s.here with
    | none => s
    | some (r, g) =>
      let s := (if inRemote d then s else s.noteRead r (keys.map fun k => Loc.key d k.2)).touch s.site g.ctx va d
      let n := if f.sz = 7 then 4 else accessBytes f.sz.toNat
      let (s, vs) := s.keyRead g d (keys.map Prod.snd) n
      let v := fun (i : Nat) => match (keys.map Prod.fst).idxOf? i with | some j => vs.getD j 0 | none => 0
      (s.onMe fun T =>
        if f.sz = 7 then T.writeV f.reg (ofLanes ((List.range 16).map fun i => BitVec.ofNat 32 (v i))) m
        else T.writeX f.reg.toNat (BitVec.ofNat 64 (loaded f.sz.toNat (bytesOf n (v 0))).toNat)).advance

/-- SST (R198): the stores of the active lanes enter the buffer together. -/
def execSst (f : FmtM) (s : State) : Host.Outcome State Fault Refusal :=
  keyOp s f true fun _ va d keys s => afterRelease s f fun s =>
    match s.regionOf s.here with
    | none => s
    | some (r, _) =>
      let v := fun (i : Nat) => if f.sz = 7 then elem (s.me.readV f.reg) 32 i else (s.me.readX f.reg.toNat).toNat % 2 ^ (8 * accessBytes f.sz.toNat)
      s.holdKeys r s.site va d (keys.map fun k => (k.2, BitVec.ofNat 64 (v k.1))) State.advance

end Sys2Proof.Machine
end

