-- ==== Sys2Proof/Machine/Hsq.lean ====
section
/-! DEFINITION. The home sequencers (R234 to R241, R278): the linearised steps on SYNC words, armed WAITs, and the combining
nodes of tree ATOMs and barriers (R41, R235, R240, R416). -/

namespace Sys2Proof.Machine

/-- The operation of an ATOM on a word of a width (R234): add, fadd, min, max, and, or, xor, swap, cas. -/
def atomOp (aop width : Nat) (unsigned : Bool) (w b c : Nat) : Nat :=
  let w := w % 2 ^ width
  let b := b % 2 ^ width
  let less := if unsigned then w < b else sext w width < sext b width
  match aop with
  | 0 => (w + b) % 2 ^ width
  | 1 =>
    let f := if width = 32 then fp32 else fp64
    roundVal f 0 false 0 (Val.add false (f.value w) (f.value b))
  | 2 => if less then w else b
  | 3 => if less then b else w
  | 4 => w &&& b
  | 5 => w ||| b
  | 6 => w ^^^ b
  | 7 => b
  | _ => if w = c % 2 ^ width then b else w

/-- A merged group applied (R235): integer and logical operands in turn, FP32 operands as one exact sum. -/
def groupOp (aop width : Nat) (unsigned : Bool) (w : Nat) (bs : List Nat) : Nat :=
  if aop = 1 then roundVal fp32 0 false 0 (bs.foldl (fun a b => Val.add false a (fp32.value (b % 2 ^ 32))) (fp32.value (w % 2 ^ 32)))
  else bs.foldl (fun w b => atomOp aop width unsigned w b 0) w

/-- The result of an ATOM (R234): sign-extended for INT compares and add. -/
def atomResult (aop width : Nat) (unsigned : Bool) (w : Nat) : Word :=
  extend w width (aop == 0 || ((aop == 2 || aop == 3) && !unsigned))

/-- The condition of a WAIT (R236 Table 2). -/
def condHolds (cc width : Nat) (unsigned : Bool) (w b : Nat) : Bool :=
  let w := w % 2 ^ width
  let b := b % 2 ^ width
  let lt := if unsigned then w < b else sext w width < sext b width
  match cc with
  | 0 => w == b
  | 1 => w != b
  | 2 => lt
  | 3 => lt || w == b
  | 4 => !lt && w != b
  | 5 => !lt
  | 6 => w &&& b != 0
  | _ => w &&& b == 0

/-- Arrivals applied to a barrier word (R240): the new word. -/
def arriveWord (w k n : Nat) : Nat :=
  let cnt := w % 2 ^ 32 + k
  (w / 2 ^ 32 + cnt / n) % 2 ^ 32 * 2 ^ 32 + cnt % n % 2 ^ 32

/-- An engine with no command: tickets start at 1 (R244). -/
def Engine.fresh : Engine := { queue := [], cur := none, stopped := none, full := false, next := 1, done := 0, chains := [], turn := false }

/-- A request as each of its issuers alone makes it. -/
def HsqEntry.parts (e : HsqEntry) : List HsqEntry :=
  match e.req with
  | .atoms aop w u items => items.map fun m => { e with t := m.2.1, req := .atoms aop w u [m] }
  | .arrive n _ ms => ms.map fun m => { e with t := m.1, req := .arrive n 0 [m] }
  | _ => [e]

/-- A request of a region that moves: its issuers stand where `move` puts their tiles, and its deadlines on another clock (R388). -/
def HsqEntry.moved (move clk : Nat → Nat) (e : HsqEntry) : HsqEntry :=
  { e with
    t := move e.t
    req := match e.req with
      | .atoms aop w u items => .atoms aop w u (items.map fun m => (m.1, move m.2.1, m.2.2))
      | .arrive n more ms => .arrive n more (ms.map fun m => (move m.1, m.2.1, m.2.2.map fun d => d.map clk))
      | q => q }

/-- An arrival combined with those of other packages (R416). -/
def HsqReq.joined (q : HsqReq) (k : Nat) : HsqReq := match q with | .arrive n more ms => .arrive n (more + k) ms | q => q

namespace State

/-- Engine e of a die for a context. -/
def engine (s : State) (d e c : Nat) : Engine := (tabGet (4 * e + c) (s.die d).engines).getD Engine.fresh
def setEngine (s : State) (d e c : Nat) (E : Engine) : State := s.onDie d fun D => { D with engines := tabSet (4 * e + c) E D.engines }

/-- A change of the region that holds a tile. -/
def onRegionOf (s : State) (t : Nat) (f : Region → Region) : State :=
  match s.regionOf t with | some (r, g) => s.setRegion r (f g) | none => s

/-- The running element issues an engine command as its next operation: what it has stored before comes first (R244). -/
def markOlder (s : State) : State := s.onRegionOf s.here fun g => { g with buffer := g.buffer ++ [.mark (g.place s.here) s.me.nop] }

/-- A chain wakes the engine it is bound to (R366). -/
def wakeChain (s : State) (c desc va : Nat) : State :=
  let d := homeVault desc / 64
  let e := bits (s.homeWord (desc + 32)) 0 3
  let E := s.engine d e c
  s.setEngine d e c { E with chains := if E.chains.any fun q => q.1 == desc then E.chains else E.chains ++ [(desc, va)] }

/-- The word, or the half, of a SYNC word at an address. -/
def syncRead (s : State) (pa width : Nat) : Nat := ofBytes (s.homeBytes pa (width / 8))

/-- Every armed WAIT on a word is evaluated, in arming order; one whose condition holds is released with MET (R237). -/
def wakeArmed (s : State) (pa : Nat) : State :=
  let met := fun (a : Armed) => a.pa / 8 == pa / 8 && condHolds a.cc a.width a.unsigned (s.syncRead a.pa a.width) a.b.toNat
  (s.armed.filter met).foldl (fun s a => s.finish a.t a.op 0) { s with armed := s.armed.filter fun a => !met a }

/-- A step on a SYNC word: the bytes of a word or a half are written, and the armed WAITs see it (R237). -/
def syncWrite (s : State) (pa width v : Nat) : State :=
  (s.homeWrite (cellsAt pa (bytesOf (width / 8) v))).wakeArmed pa

/-! ### Request queues -/

def hsqOf (s : State) (v : Nat) : List HsqEntry := (tabGet v s.hsq).getD []
def setHsq (s : State) (v : Nat) (q : List HsqEntry) : State := { s with hsq := tabSet v q s.hsq }
/-- A request joins the queue of its word's home. -/
def request (s : State) (e : HsqEntry) : State := let v := homeVault e.pa; s.setHsq v (s.hsqOf v ++ [e])

/-- The requests at the head of their channels (R30, R238), that of the channel after the one served last first. -/
def channelHeads (s : State) (v : Nat) : List HsqEntry :=
  let k := (tabGet v s.granted).getD 4
  (List.range 5).filterMap fun i => (s.hsqOf v).find? fun e => e.ctx == (k + 1 + i) % 5
/-- A request that satisfies a test, at the head of its channel, with the queue it leaves: the ready channels are served round-robin. -/
def takeHead (s : State) (v : Nat) (p : HsqEntry → Bool) : Option (HsqEntry × State) :=
  match (s.channelHeads v).find? p with
  | some e => some (e, { s.setHsq v ((s.hsqOf v).erase e) with granted := tabSet v e.ctx s.granted })
  | none => none

/-- A home sequencer has no entry left to arm a WAIT of a channel with (R238). -/
def armedFull (s : State) (v c : Nat) : Bool :=
  decide ((if c = 4 then 16 else 64) ≤ (s.armed.filter fun a => homeVault a.pa == v && a.ctx == c).length)

/-- A WAIT evaluated at its word's home (R237, R238): TIMEOUT once its deadline has passed, MET when its condition holds, and TIMEOUT
where it makes one evaluation; else it arms itself, or stays at the head of its channel while no entry is free. -/
def evaluate (s : State) (e : HsqEntry) : State :=
  match e.req, e.op with
  | .wait cc width unsigned b due once _, some op =>
    let v := homeVault e.pa
    if !once && due < s.time then s.finish e.t op 1
    else if condHolds cc width unsigned (s.syncRead e.pa width) b.toNat then s.finish e.t op 0
    else if once then s.finish e.t op 1
    else if s.armedFull v e.ctx then s.setHsq v (e :: s.hsqOf v)
    else { s with armed := s.armed ++ [⟨e.ctx, e.pa, cc, width, unsigned, b, due, e.t, op, e.va / 8 * 8 + e.pa % 8, e.widx, false⟩] }
  | _, _ => s

/-- A restored wait is made again at its word, translated anew, for the time it has left; a page that is no SYNC page, or a word in error,
answers BADWORD (R237, R261, R388, R402). -/
def reissueWait (s : State) (a : Armed) : State :=
  let p : Site := ⟨a.t, 0, 0, a.widx⟩
  let gone := { s with armed := s.armed.filter fun x => x != a }
  match s.page p none a.ctx a.va (.sync false) with
  | (s, .error f) => if f == .prot a.va 0 then gone.finish a.t a.op 2 else s.raise p f
  | (s, .ok q) =>
    if s.cutOff q.pa then { s with armed := s.armed.map fun x => if x = a then { x with again := false } else x }
    else match s.barred q.pa a.va with
    | some f => s.raise p f
    | none =>
      let s := State.touch { s with armed := s.armed.filter fun x => x != a } p a.ctx a.va q.pa
      if inRemote q.pa then let (x, s) := s.draw; s.finish a.t a.op (x.toNat % 2)
      else if s.badSync q.pa then (s.finish a.t a.op 2).mendSync q.pa
      else s.evaluate ⟨a.ctx, q.pa, a.t, some a.op, a.va, a.widx, .wait a.cc a.width a.unsigned a.b a.deadline false true, 0⟩

/-- The fault of an access to the block of a word of the request's page. -/
def blockFault (e : HsqEntry) (w : Nat) : Flt := .decmp ((e.va + w - e.pa) / 256 * 256)

/-- An issuer of a request that cannot be performed meets the fault, and asks again when its region goes on (R381). One whose region is being
drained asks nothing more (R40). -/
def refuse (s : State) (x : HsqEntry) (f : Flt) : State :=
  match s.regionOf x.t with
  | some (_, g) => if g.drain.isSome then s else State.raise { s with retry := s.retry ++ [x] } ⟨x.t, 0, 0, x.widx⟩ f
  | none => s

/-- A request that its word's home cannot perform (R374, R378, R402): BADWORD for a wait; each issuer of another meets the fault. -/
def issuerBad (s : State) (e : HsqEntry) (f : Flt) : State :=
  match e.req, e.op with
  | .wait .., some op => s.finish e.t op 2
  | _, _ => e.parts.foldl (fun (s : State) x => s.refuse x f) s

/-- Where an entry of a chain lies, and whether its page is compressed; none where its address has no PLAIN page that may be written
(R251, R372). -/
def placeOfEntry (s : State) (c va : Nat) : Option (Nat × Bool) :=
  match s.walk c va 1 with | .ok q => if q.cls == 0 && q.wr then some (s.localOf q.pa, q.cmp) else none | .error _ => none

/-- Bytes of an entry written where it lies; one of another package is written there (R276). -/
def writeEntry (s : State) (cmp : Bool) (cells : List Host.Cell) : State := (s.physWrite cmp (cells.filter fun c => !inRemote c.1)).getD s

/-- The entry's bytes are written, and its bookkeeping words set: link 0, its sequence number, progress 0 and PENDING (R252). -/
def enterEntry (s : State) (cmp : Bool) (entryPa n : Nat) (cells : List Host.Cell) : State :=
  (s.writeEntry cmp cells).writeEntry cmp (cellsAt (entryPa + 72) (bytesOf 8 0 ++ bytesOf 8 n ++ bytesOf 8 0 ++ bytesOf 8 0))

/-- The first of the entries that an append writes, the new one and the former tail, whose block is malformed (R288): the block's
address. -/
def appendSpoils (s : State) (c entry tail : Nat) : Option Nat :=
  ([entry, tail].find? fun va => va != 0 && (s.placeOfEntry c va).any fun p => s.wouldSpoil p.2 (cellsAt p.1 [0])).map fun va => va / 256 * 256

/-- Where the link of a chain's former tail lies, and whether its page is compressed, or the fault that its writing meets: an access to a
PLAIN page (R251, R372, R374). None for a chain with no entry. -/
def tailPlace (s : State) (p : Site) (c tail : Nat) : State × Except Flt (Option (Nat × Bool)) :=
  if tail = 0 then (s, .ok none)
  else match s.page p none c (tail + 72) (.spill true) with
    | (s, .error f) => (s, .error f)
    | (s, .ok q) =>
      match s.barred q.pa (tail + 72) with
      | some f => (s, .error f)
      | none =>
        if s.wouldSpoil q.cmp (cellsAt q.pa [0]) then (s.touchBad p c (tail + 72) q.pa, .error (.decmp ((tail + 72) / 256 * 256)))
        else (s, .ok (some (q.pa, q.cmp)))
/-- The fault that the link of a chain's former tail meets when it is written. -/
def tailFault (s : State) (p : Site) (c tail : Nat) : State × Option Flt :=
  match s.tailPlace p c tail with
  | (s, .error f) => (s, some f)
  | (s, .ok _) => (s, none)

/-- The append step of a chain (R252): the entry is written, and the chain extended, at the link of its former tail or at its head. The
sequence number, and the state. -/
def appendEntry (s : State) (desc entryVa entryPa : Nat) (cmp : Bool) (cells : List Host.Cell) (link : Option (Nat × Bool)) : Nat × State :=
  let n := s.homeWord (desc + 16)
  let s := s.enterEntry cmp entryPa n cells
  let s := match link with
    | some p => s.writeEntry p.2 (cellsAt p.1 (bytesOf 8 entryVa))
    | none => s.syncWrite (desc + 8) 64 entryVa
  (n, (s.syncWrite (desc + 16) 64 (n + 1)).syncWrite desc 64 entryVa)

/-- The words of a chain descriptor that an append reads and that are bad: tail, head, nseq and the engine (R251, R402). -/
def badWords (s : State) (desc : Nat) : List Nat := [desc, desc + 8, desc + 16, desc + 32].filter s.badSync

/-- The bytes of an appended entry that the store buffer of the region that appends it holds, which then holds them no longer: the others
are as memory has them (R252). Those that it held at issue where that task is no more. -/
def takeEntry (s : State) (e : HsqEntry) (pa : Nat) (cells : List Host.Cell) : List Host.Cell × State :=
  match s.regionOf e.t with
  | none => (cells, s)
  | some (r, g) =>
    if !((s.tile e.t).ops.any fun o => some o.num == e.op && o.kind == .chapp) then (cells, s)
    else (heldCells g.buffer pa 128, s.setRegion r (cutRegion pa (pa + 128) g))

/-- The entry of an append: as `takeEntry` has it for a CHAPP; a command in the chain form writes its own (R249, R252). -/
def entryCells (s : State) (e : HsqEntry) (cmd : Bool) (pa : Nat) (cells : List Host.Cell) : List Host.Cell × State :=
  let (held, s) := s.takeEntry e pa cells
  (if cmd then cells else held, s)

/-! ### Combining nodes (R235, R240) -/

/-- Two requests that a node may merge: the same context, word and operation. -/
def mergeable (a b : HsqEntry) : Bool :=
  a.ctx == b.ctx && a.pa == b.pa && match a.req, b.req with
    | .atoms x w u _, .atoms x' w' u' _ => x == x' && w == w' && u == u'
    | .arrive n _ _, .arrive n' _ _ => n == n'
    | _, _ => false

def mergeReq : HsqReq → HsqReq → HsqReq
  | .atoms x w u xs, .atoms _ _ _ ys => .atoms x w u (xs ++ ys)
  | .arrive n i xs, .arrive _ j ys => .arrive n (i + j) (xs ++ ys)
  | a, _ => a

/-- The node of a level above a tile: quad, die, package, pod. -/
def nodeAt (level t : Nat) : Nat :=
  match level with | 2 => dieOf t * 144 + tyOf t / 2 * 12 + txOf t / 2 | 3 => dieOf t | _ => 0

/-- A request enters a combining node, and merges with one it holds or is held itself for 8 clk (R235). -/
def enterNode (s : State) (level scope : Nat) (e : HsqEntry) : State :=
  let place := nodeAt level e.t
  let fits := fun (k : Comb) => k.level == level && k.place == place && k.scope == scope && mergeable k.entry e
  match s.combs.findIdx? fits with
  | some i =>
    if Config.mergesNow s.time i then
      { s with combs := s.combs.modify i fun k => { k with entry := { k.entry with req := mergeReq k.entry.req e.req } } }
    else { s with combs := s.combs ++ [⟨level, place, scope, s.time + 8, e⟩] }
  | none => { s with combs := s.combs ++ [⟨level, place, scope, s.time + 8, e⟩] }

/-- What a request gets from another package: that package's own result (log entry 22). An appended entry is written where it lies, with the
sequence number that its chain's home gives it (R252). -/
def remoteAnswer (s : State) (e : HsqEntry) : State :=
  match e.req with
  | .arrive _ _ ms =>
    ms.foldl (fun s m => let (w, s) := s.draw; s.finish m.1 m.2.1 (if m.2.2.isSome then w.toNat % 2 else w.toNat % 2 ^ 32)) s
  | .atoms _ _ _ items => items.foldl (fun s m => s.finish m.2.1 m.2.2 0) s
  | .atom aop w u _ _ => let (x, s) := s.draw; s.finish e.t (e.op.getD 0) (atomResult aop w u x.toNat).toNat
  | .wait .. => let (x, s) := s.draw; s.finish e.t (e.op.getD 0) (x.toNat % 2)
  | .chapp cmd _ pa cmp cells =>
    let (x, s) := s.draw
    let (cells, s) := s.entryCells e cmd pa cells
    (s.enterEntry cmp pa x.toNat cells).finish e.t (e.op.getD 0) x.toNat

/-- A combined request that cannot reach its word, or arrivals that the pod does not count (R413, R416): arrivals that go on to wait do so
until their deadline, at a word that no step reaches; each other issuer meets LNKERR. -/
def stranded (s : State) (e : HsqEntry) : State :=
  e.parts.foldl (fun (s : State) x =>
    match x.req with
    | .arrive _ _ [(t, op, some (some due))] => { s with armed := s.armed ++ [⟨e.ctx, remoteBase, 0, 8, true, 1, due, t, op, e.va, e.widx, false⟩] }
    | .arrive _ _ [(t, op, some none)] => s.finish t op 1
    | _ => s.refuse x (.lnkerr e.pa 4)) s

/-- A request that leaves the combining nodes for its word's home, where that has room for it; none while it has not (R30). One for another
package leaves as one flit, where a way leads there still (R413, R416). -/
def sendHome (s : State) (e : HsqEntry) : Option State :=
  if s.cutOff e.pa then some (s.stranded e)
  else if inRemote e.pa then some ((s.sendRequest e.ctx e.pa).remoteAnswer e)
  else if s.hsqRoom (homeVault e.pa) e.ctx then some (s.request e) else none

/-- The k-th node forwards what it holds: to the next level up to the scope, and then to the word's home. -/
def forward (s : State) (i : Nat) (k : Comb) (top : Nat) : State :=
  let s' := { s with combs := s.combs.eraseIdx i }
  if k.level < min k.scope top then s'.enterNode (k.level + 1) k.scope k.entry else (s'.sendHome k.entry).getD s

/-- No way leads to the root of the pod tree, which is X, then Y, then Z toward package 0, or the root is lost (R413, R416). -/
def treeCut (s : State) : Bool := s.fleet.pkg != 0 && (s.packageLost 0 || (s.firstHop 0).isNone)

/-! ### What a region that goes on makes again (R381, R388) -/

/-- Where a request goes when it is made again: its word, translated anew, and the entry of an append; or the fault it meets. -/
def askAgain (s : State) (e : HsqEntry) : State × Except Flt HsqEntry :=
  let p : Site := ⟨e.t, 0, 0, e.widx⟩
  match s.page p none e.ctx e.va (.sync true) with
  | (s, .error f) => (s, .error f)
  | (s, .ok q) =>
    match s.barred q.pa e.va, e.req with
    | some f, _ => (s, .error f)
    | none, .chapp cmd entry pa _ cells =>
      match s.page p none e.ctx entry (.spill true) with
      | (s, .error f) => (s, .error f)
      | (s, .ok b) => (s, .ok { e with pa := q.pa, req := .chapp cmd entry b.pa b.cmp (cells.map fun c => (b.pa + c.1 - pa, c.2)) })
    | none, _ => (s, .ok { e with pa := q.pa })

/-- A request that met a fault is made again: a tree ATOM or an arrival enters the combining networks anew (R235, R240); another goes to its
word's home, once that has room (R30). -/
def reissueAsk (s : State) (e : HsqEntry) : State :=
  match s.askAgain e with
  | (s, .error f) => s.raise ⟨e.t, 0, 0, e.widx⟩ f
  | (s, .ok e') =>
    if e.scope != 0 then
      let s := State.touchHere { s with retry := s.retry.filter fun x => x != e } ⟨e.t, 0, 0, e.widx⟩ e.ctx e.va e'.pa
      s.enterNode 2 (effScope e.t e'.pa e.scope) e'
    else if !inRemote e'.pa && !s.hsqRoom (homeVault e'.pa) e.ctx then s
    else
      let s := State.touch { s with retry := s.retry.filter fun x => x != e } ⟨e.t, 0, 0, e.widx⟩ e.ctx e.va e'.pa
      if inRemote e'.pa then s.remoteAnswer e' else s.request e'

/-- The requests of regions that have gone on which could not be made again at once. -/
def retryAll (s : State) : State :=
  s.retry.foldl (fun (s : State) e => match s.regionOf e.t with | some (_, g) => if g.frozen then s else s.reissueAsk e | none => s) s

/-- What a region that goes on has still to make again: its deferred loads, its restored waits, and its requests that met a fault. -/
def reissueAll (s : State) (r : Nat) : State :=
  match s.region? r with
  | none => s
  | some g =>
    if g.frozen then s
    else
      let s := s.reissuePlds g
      let s := (s.armed.filter fun a => a.again && g.holds a.t).foldl reissueWait s
      (s.retry.filter fun e => g.holds e.t).foldl reissueAsk s

end State

/-! ### Events -/

/-- HSQ_ATOM_APPLY (R234, R235, R252): the request at the head of a channel is applied as one step. -/
def execHsqAtomApply (v : Nat) (s : State) : Host.Outcome State Fault Refusal :=
  .next <| match s.takeHead v fun e => match e.req with | .atom .. | .atoms .. | .chapp .. => true | _ => false with
  | none => s
  | some (e, s) =>
    if s.badSync e.pa then (s.issuerBad e (State.blockFault e e.pa)).mendSync e.pa
    else match e.req with
      | .atom aop w u b c =>
        let old := s.syncRead e.pa w
        let s := match e.op with | some op => s.finish e.t op (atomResult aop w u old).toNat | none => s
        s.syncWrite e.pa w (atomOp aop w u old b.toNat c.toNat)
      | .atoms aop w u items =>
        let s := items.foldl (fun s m => s.finish m.2.1 m.2.2 0) s
        s.syncWrite e.pa w (groupOp aop w u (s.syncRead e.pa w) (items.map fun m => m.1.toNat))
      | .chapp cmd entry pa cmp cells =>
        match s.badWords e.pa with
        | b :: bs => (b :: bs).foldl State.mendSync (s.issuerBad e (State.blockFault e b))
        | [] =>
          let p : Site := ⟨e.t, 0, 0, e.widx⟩
          let tail := s.homeWord e.pa
          if s.wouldSpoil cmp (cellsAt pa [0]) then (s.count (dieOf e.t) .zmbRefetch).issuerBad e (.decmp (entry / 256 * 256))
          else match s.tailPlace p e.ctx tail with
          | (s, .error f) => s.issuerBad e f
          | (s, .ok link) =>
            let s := match link with | some l => s.touch p e.ctx (tail + 72) l.1 | none => s
            let (bytes, s) := s.entryCells e cmd pa cells
            let (n, s) := s.appendEntry e.pa entry pa cmp bytes link
            let s := if cmd then s.onRegionOf e.t fun g => { g with chained := g.chained ++ [(e.pa, n, g.place e.t, e.op.getD 0)] } else s
            let s := s.wakeChain e.ctx e.pa e.va
            match e.op with | some op => s.finish e.t op n | none => s
      | _ => s

/-- HSQ_BARRIER_ARRIVAL (R240): a group of arrivals is applied as one step; those that go on wait past their generation. -/
def execHsqBarrierArrival (v : Nat) (s : State) : Host.Outcome State Fault Refusal :=
  .next <| match s.takeHead v fun e => match e.req with | .arrive .. => true | _ => false with
  | none => s
  | some (e, s) =>
    if s.badSync e.pa then (s.issuerBad e (State.blockFault e e.pa)).mendSync e.pa
    else match e.req with
      | .arrive n more ms =>
        let old := s.syncRead e.pa 64
        let s := s.syncWrite e.pa 64 (arriveWord old (ms.length + more) n)
        ms.foldl (fun s m =>
          match m.2.2 with
          | none => s.finish m.1 m.2.1 (old / 2 ^ 32)
          | some due => s.evaluate { e with
              pa := e.pa + 4
              t := m.1
              op := some m.2.1
              req := .wait 1 32 true (BitVec.ofNat 64 (old / 2 ^ 32)) (due.getD 0) due.isNone true }) s
      | _ => s

/-- WAIT_DEQUEUE (R238): the WAITs of a channel whose deadlines have passed in the queue return TIMEOUT unevaluated, and the WAIT at its
head is evaluated. One with tmo = 0 makes its one evaluation (R237) however long it has waited (log entry 63). -/
def execWaitDequeue (v c : Nat) (s : State) : Host.Outcome State Fault Refusal :=
  let late := fun (s : State) (e : HsqEntry) => e.ctx == c && match e.req with | .wait _ _ _ _ due once _ => !once && due < s.time | _ => false
  let s := ((s.hsqOf v).filter (late s)).foldl (fun s e => match e.op with | some op => s.finish e.t op 1 | none => s)
    (s.setHsq v ((s.hsqOf v).filter fun e => !late s e))
  .next <| match s.takeHead v fun e => e.ctx == c && match e.req with | .wait .. => true | _ => false with
  | none => s
  | some (e, s) => if s.badSync e.pa then (s.issuerBad e (State.blockFault e e.pa)).mendSync e.pa else s.evaluate e

/-- Armed WAITs whose deadline has come are released with TIMEOUT, once every update of the clk has been seen (R237). -/
def State.expireWaits (s : State) : State :=
  let late := fun (a : Armed) => decide (a.deadline ≤ s.time)
  (s.armed.filter late).foldl (fun s a => s.finish a.t a.op 1) { s with armed := s.armed.filter fun a => !late a }

/-- WAIT_TIMEOUT (R237): the k-th armed WAIT is released with TIMEOUT once its deadline has come. -/
def execWaitTimeout (k : Nat) (s : State) : Host.Outcome State Fault Refusal :=
  .next <| match s.armed[k]? with
  | some a => if a.deadline ≤ s.time then { s with armed := s.armed.eraseIdx k }.finish a.t a.op 1 else s
  | none => s

/-- COMBINING_ARRIVAL (R41, R240): the k-th combining node forwards the arrivals it has combined. -/
def execCombiningArrival (k : Nat) (s : State) : Host.Outcome State Fault Refusal :=
  .next <| match s.combs[k]? with
  | some n =>
    match n.entry.req with
    | .arrive .. => if n.until_ ≤ s.time && n.level < 5 then s.forward k n 5 else s
    | _ => s
  | none => s

/-- TREE_HOLD_EXPIRY (R235): the 8-clk hold of the k-th combining node ends, and it forwards the merged group. -/
def execTreeHoldExpiry (k : Nat) (s : State) : Host.Outcome State Fault Refusal :=
  .next <| match s.combs[k]? with
  | some n =>
    match n.entry.req with
    | .atoms .. => if n.until_ ≤ s.time then s.forward k n 4 else s
    | _ => s
  | none => s

/-- A group of arrivals goes up the pod's tree, to the next package on the way to package 0 (R416). -/
def State.sendUp (s : State) (e : HsqEntry) : State :=
  match s.firstHop 0 with
  | some (dim, plus) => s.sendRequest e.ctx (remoteBase + s.nextPackage dim plus * 2 ^ 42)
  | none => s

/-- POD_BARRIER_RELEASE (R416): a group at the pod's level goes up the tree to root package 0. The root alone sends it to the word's home,
combined with the groups that have reached it. At another package what its own arrivals get is the answer of the tree, with the arrivals of other
packages that the root has combined with them, which are their own (log entry 22). A package with no way to the root leaves its arrivals
uncounted. -/
def execPodBarrierRelease (k : Nat) (s : State) : Host.Outcome State Fault Refusal :=
  .next <| match s.combs[k]? with
  | some n =>
    if n.level = 5 ∧ n.until_ ≤ s.time then
      let s' := { s with combs := s.combs.eraseIdx k }
      if !s.fleet.en || s.podSize ≤ 1 then (s'.sendHome n.entry).getD s
      else if s.treeCut then s'.stranded n.entry
      else if s.fleet.pkg = 0 then (s'.sendHome n.entry).getD s
      else match n.entry.req with
        | .arrive _ _ [] => s'.sendUp n.entry
        | _ =>
          if s.cutOff n.entry.pa then (s'.sendUp n.entry).stranded n.entry
          else
            let (x, s') := (s'.sendUp n.entry).draw
            let e := { n.entry with req := n.entry.req.joined (x.toNat % 2 ^ 32) }
            if inRemote e.pa then s'.remoteAnswer e else (s'.sendHome e).getD s
    else s
  | none => s

end Sys2Proof.Machine
end

