-- ==== Sys2Proof/Machine/Runs.lean ====
section
/-! DEFINITION. Runs of bytes that an engine, a stream unit or a matrix cell reads or writes, cut at 256-byte blocks so that no
piece crosses a page (R163, R213, R246). -/

namespace Sys2Proof.Machine

/-- A piece of a run within one block. -/
structure Span where
  va  : Nat
  pa  : Nat
  len : Nat
  cmp : Bool
  deriving DecidableEq, Repr

namespace State

/-- The code of a page size (R164). -/
def pageCode (size : Nat) : Nat := match size with | 12 => 0 | 16 => 1 | 21 => 2 | _ => 3

/-- The ISE that serves an AG port: that of the HBM stack that holds its value array, or of the die's first stack (R188, R262). Every
other unit uses the walker of its die. -/
def iseOf (s : State) (p : Site) (c : Nat) : Ise :=
  if p.unit != 10 then none
  else
    let block := ((s.tile p.t).unit (7 + p.sub)).block
    match block, s.walk c ((word block 1) % 2 ^ 56) 0 with
    | _ :: _, .ok q => some (if inHbm (s.localOf q.pa) then s.localOf q.pa / 2 ^ 36 else 2 * dieOf p.t)
    | _, _ => some (2 * dieOf p.t)

/-- The pieces of a run of n bytes, or the first fault. A bound is the page-size binding of a stream word (R164). -/
def spans (s : State) (p : Site) (c : Nat) (w : Want) (bound : Option Nat) : Nat → Nat → Nat → State × Except Flt (List Span)
  | 0, _, _ => (s, .ok [])
  | k + 1, va, n =>
    if n = 0 then (s, .ok [])
    else
      let m := min n (256 - va % 256)
      match s.page p (s.iseOf p c) c va w with
      | (s, .error e) => (s, .error e)
      | (s, .ok q) =>
        if bound.any fun b => b != pageCode q.size then (s, .error (.pgsz va (bound.getD 0) (pageCode q.size)))
        else match s.barred q.pa va with
        | some f => (s, .error f)
        | none => match s.spans p c w bound k (va + m) (n - m) with
          | (s, .error e) => (s, .error e)
          | (s, .ok sp) => (s, .ok (⟨va, q.pa, m, q.cmp⟩ :: sp))

/-- The bytes of pieces as a reader with this buffer finds them. What the buffer does not answer is a request (R289); a malformed block is
fetched once more before the fault (R288, R417). -/
def readSpans (s : State) (p : Site) (c : Nat) (buf : List HeldStore) : List Span → State × Except Flt (List Byte)
  | [] => (s, .ok [])
  | sp :: rest =>
    match (if answers buf sp.pa sp.len then s else s.touch p c sp.va sp.pa).heldRead buf sp.cmp sp.pa sp.len with
    | (none, s) => (s.count (dieOf p.t) .zmbRefetch, .error (.decmp (sp.va / 256 * 256)))
    | (some bs, s) =>
      match s.readSpans p c buf rest with
      | (s, .ok more) => (s, .ok (bs ++ more))
      | (s, .error e) => (s, .error e)

/-- A run read outside any task: buffered stores of `buf` first, then memory. -/
def readRun (s : State) (p : Site) (c : Nat) (buf : List HeldStore) (va n : Nat) : State × Except Flt (List Byte) :=
  match s.spans p c .streamRead none (n / 256 + 2) va n with
  | (s, .error e) => (s, .error e)
  | (s, .ok sp) => s.readSpans p c buf sp

/-- Bytes written to the pieces of a run at their home, each a request (R289), for an element whose older buffered stores to
them are superseded (R244). -/
def writePieces (s : State) (p : Site) (c : Nat) (h : Option (Nat × Nat × Nat)) : List Span → List Byte → State
  | [], _ => s
  | sp :: rest, bs =>
    let s := s.cutTask h (cutStore sp.pa (sp.pa + sp.len))
    let s := s.touch p c sp.va sp.pa
    let s := if inRemote sp.pa then s else (s.physWrite sp.cmp (cellsAt sp.pa (bs.take sp.len))).getD s
    s.writePieces p c h rest (bs.drop sp.len)

/-- The first piece of a run that lies in a malformed block, and is not all of it (R288). -/
def spoiledSpan (s : State) (sp : List Span) : Option Span :=
  sp.find? fun x => s.wouldSpoil x.cmp ((cellsAt x.pa (List.replicate x.len 0)))

/-- The pieces of a run written as one unit: all of it, or, where a block is malformed, none (R250, R288). -/
def writeSpans (s : State) (p : Site) (c : Nat) (h : Option (Nat × Nat × Nat)) (sp : List Span) (bs : List Byte) : State × Option Flt :=
  match s.spoiledSpan sp with
  | some x => (s.touchBad p c x.va x.pa, some (.decmp (x.va / 256 * 256)))
  | none => (s.writePieces p c h sp bs, none)

/-- A run written directly, for an element. -/
def writeRun (s : State) (p : Site) (c : Nat) (h : Option (Nat × Nat × Nat)) (va : Nat) (bs : List Byte) : State × Option Flt :=
  match s.spans p c .store none (bs.length / 256 + 2) va bs.length with
  | (s, .error e) => (s, some e)
  | (s, .ok sp) => s.writeSpans p c h sp bs

/-- A run read as a PLAIN load of a region (R153, R163): it enters the read signature, unless the ISE reads it (R276). -/
def taskRun (s : State) (r : Nat) (p : Site) (w : Want) (va n : Nat) (bound : Option Nat := none) : State × Except Flt (List Byte) :=
  match s.region? r with
  | none => (s, .ok [])
  | some g =>
    match s.spans p g.ctx w bound (n / 256 + 2) va n with
    | (s, .error e) => (s, .error e)
    | (s, .ok sp) =>
      match s.readSpans p g.ctx g.buffer sp with
      | (s, .error e) => (s, .error e)
      | (s, .ok bs) => (if p.unit = 10 then s else s.noteRead r (sp.flatMap fun x => readLocs x.pa x.len), .ok bs)

/-- The speculative stores of a run of a context, by piece; a fault names the piece (R163, R213, R288). -/
def storesOf (s : State) (c : Nat) (p : Site) (w : Want) (va : Nat) (bs : List Byte) (bound : Option Nat := none) : State × Except Flt (List HeldStore) :=
  match s.spans p c w bound (bs.length / 256 + 2) va bs.length with
  | (s, .error e) => (s, .error e)
  | (s, .ok sp) =>
    match s.spoiledSpan sp with
    | some x => (s.touchBad p c x.va x.pa, .error (.decmp (x.va / 256 * 256)))
    | none =>
      (s, .ok ((sp.foldl (fun q x => (q.1 ++ [HeldStore.bytes p x.va (cellsAt x.pa (q.2.take x.len)) x.cmp], q.2.drop x.len))
        (([] : List HeldStore), bs)).1))

/-- Stores enter the buffer of a region together, then `k`; when they do not fit the task exhausts (R34, R424). -/
def holdAll (s : State) (r : Nat) (hs : List HeldStore) (k : State → State) : State :=
  match s.region? r with
  | none => s
  | some g =>
    if g.capacity < g.used + (hs.map entriesOf).sum then s.exhaust r 0
    else
      let locs := hs.flatMap storeLocs
      k ((s.onRegion r fun g => { g with
        buffer := g.buffer ++ hs
        used := g.used + (hs.map entriesOf).sum
        writes := g.writes ++ locs.filter fun l => !g.writes.contains l }).countBy g.die .bufferBytes (hs.map heldBytes).sum)

/-- Runs written as speculative stores of a region together, then `k`; a fault stops the unit. -/
def taskStores (s : State) (r : Nat) (p : Site) (w : Want) (bound : Option Nat) (runs : List (Nat × List Byte)) (k : State → State) : State :=
  let res := runs.foldl (fun (x : State × Except Flt (List HeldStore)) q =>
    match x with
    | (s, .error e) => (s, .error e)
    | (s, .ok hs) =>
      match s.storesOf (s.ctxOf p.t) p w q.1 q.2 bound with
      | (s, .error e) => (s, .error e)
      | (s, .ok more) => (s, .ok (hs ++ more))) (s, .ok [])
  match res with
  | (s, .error e) => s.raise p e
  | (s, .ok hs) => s.holdAll r hs k

end State

end Sys2Proof.Machine
end

