-- ==== Sys2Proof/Machine/Image.lean ====
section
/-! DEFINITION. Configuration images (R43 to R46), launch records and the arming of one (R255 to R257). -/

namespace Sys2Proof.Machine

/-! ### Image headers (R44, R45) -/

/-- A variant descriptor (R45 Table 2). -/
structure Variant where
  sig : Nat
  foff : Nat
  fcnt : Nat
  w : Nat
  h : Nat
  argdx : Nat
  argdy : Nat
  argunit : Nat
  argport : Nat
  nslot : Nat
  quad : Bool
  scr : Nat
  nxt : Nat
  nxtv : Nat
  deriving DecidableEq, Repr

/-- Bits of a run of words. -/
def wbits (ws : List Word) (lo n : Nat) : Nat := bits (packNat 64 (ws.map BitVec.toNat)) lo n

/-- The four words of a variant descriptor in a header. -/
def descriptor (hdr : List Word) (i : Nat) : List Word := (hdr.drop (4 + 4 * i)).take 4

def variantOf (hdr : List Word) (i : Nat) : Variant :=
  let d := wbits (descriptor hdr i)
  ⟨d 192 64, d 160 32, d 144 16, d 136 8, d 128 8, d 120 8, d 112 8, d 108 4, d 104 4, d 100 4, d 96 1 == 1, d 80 16, d 24 56, d 22 2⟩

namespace Hdr

def nvar (h : List Word) : Nat := wbits h 48 8
def ndim (h : List Word) : Nat := wbits h 56 8
def iseq (h : List Word) : Nat := wbits h 64 64
def ilen (h : List Word) : Nat := wbits h 128 32
def variants (h : List Word) : List Variant := (List.range (nvar h)).map (variantOf h)

/-- A variant descriptor breaks Table 2 at arm (R46). -/
def variantBad (h : List Word) (i : Nat) : Bool :=
  let v := variantOf h i
  let d := wbits (descriptor h i)
  v.fcnt == 0 || v.foff % 8 != 0 || ilen h < v.foff + 40 * v.fcnt || v.w == 0 || v.h == 0 || v.w ≤ v.argdx || v.h ≤ v.argdy
    || !(v.argunit == 0 || v.argunit == 7) || 3 < v.argport || d 97 3 != 0 || d 0 22 != 0 || (v.quad && (v.w % 2 == 1 || v.h % 2 == 1))

/-- The header breaks Table 1 or Table 2 (R46, BADIMG). -/
def bad (h : List Word) : Bool :=
  let toff := wbits h 160 32
  let tcnt := wbits h 192 16
  let area := (variants h).map fun v => v.w * v.h
  wbits h 0 32 != 0x4B594D49 || wbits h 32 16 != 1 || !(1 ≤ nvar h && nvar h ≤ 4) || !(1 ≤ ndim h && ndim h ≤ 3)
    || ilen h < 256 || ilen h % 8 != 0 || (if tcnt = 0 then toff != 0 else toff % 8 != 0 || ilen h < toff + 256 * tcnt)
    || wbits h 208 48 != 0 || wbits h 1280 768 != 0
    || ((List.range 4).any fun i => if i < nvar h then variantBad h i else wbits (descriptor h i) 0 256 != 0)
    || ((List.range (nvar h - 1)).any fun i => area.getD i 0 ≤ area.getD (i + 1) 0)

/-- TOOBIG, taken over the variants that vmask allows and the image holds (R46, R256). -/
def tooBig (h : List Word) (vmask : Nat) : Bool :=
  let vs := ((List.range (nvar h)).filter (bit vmask)).map (variantOf h)
  match vs.getLast? with
  | none => false
  | some l => 24 < l.w || 24 < l.h || vs.any fun v => 512 < v.scr || 8 < v.nslot

end Hdr

/-! ### Launch records (R255) -/

namespace Launch

def key (l : Launch) : Nat := 4 * l.lseq + l.ctx
def img (l : Launch) : Nat := bits (word l.snap 0) 0 56
def texp (l : Launch) : Nat := bits (word l.snap 1) 58 6
def prio (l : Launch) : Nat := bits (word l.snap 1) 56 2
def vmask (l : Launch) : Nat := bits (word l.snap 1) 52 4
def lo (l : Launch) (i : Nat) : Nat := bits (word l.snap (2 + i)) 0 32
def hi (l : Launch) (i : Nat) : Nat := bits (word l.snap (2 + i)) 32 32 + 1
def grain (l : Launch) (i : Nat) : Nat := bits (word l.snap (5 + i / 2)) (32 * (i % 2)) 32 + 1
def spill (l : Launch) : Nat := bits (word l.snap 7) 0 56
def cw (l : Launch) : Nat := bits (word l.snap 8) 0 56
def ndep (l : Launch) : Nat := bits (word l.snap 9) 0 16
def succs (l : Launch) : List Nat :=
  ((List.range 4).filter fun j => bit (word l.snap 10) (48 + j)).map fun j => bits (word l.snap 10) (12 * j) 12
def args (l : Launch) : List Word := (l.snap.drop 15).take 8
def ndim (l : Launch) : Nat := Hdr.ndim l.hdr
def dom (l : Launch) : List (Nat × Nat) := (List.range l.ndim).map fun i => (l.lo i, l.hi i)
def grains (l : Launch) : List Nat := (List.range l.ndim).map l.grain

end Launch

/-- An entry put into a list that rises by a number, ahead of its equals. -/
def insertOn {α : Type} (f : α → Nat) (a : α) : List α → List α
  | [] => [a]
  | b :: l => if f a ≤ f b then a :: b :: l else b :: insertOn f a l

/-- A list in the order of a number; entries of one number keep their order. -/
def sortOn {α : Type} (f : α → Nat) : List α → List α
  | [] => []
  | a :: l => insertOn f a (sortOn f l)

/-- Grains along each dimension of a domain (R35). -/
def grainCounts (dom : List (Nat × Nat)) (gs : List Nat) : List Nat :=
  (List.range dom.length).map fun i => ceilDiv ((dom.getD i (0, 0)).2 - (dom.getD i (0, 0)).1) (gs.getD i 1)

/-- The split procedure of R35: the two halves along the lowest dimension with the most grains; none at minimum grain. -/
def splitDom (dom : List (Nat × Nat)) (gs : List Nat) : Option (List (Nat × Nat) × List (Nat × Nat)) :=
  let q := grainCounts dom gs
  let m := q.foldl max 0
  if m ≤ 1 then none
  else
    let i := q.idxOf m
    let (lo, hi) := dom.getD i (0, 0)
    let mid := lo + gs.getD i 1 * (m / 2)
    some (dom.set i (lo, mid), dom.set i (mid, hi))

/-- The pieces of a launch among nl dies (R358). -/
def piecesOf (gs : List Nat) (nl : Nat) : Nat → List (List (Nat × Nat)) → List (List (Nat × Nat))
  | 0, ps => ps
  | n + 1, ps =>
    let G := ps.map fun p => (grainCounts p gs).foldl (· * ·) 1
    let m := G.foldl max 0
    if nl ≤ ps.length || m < 512 then ps
    else
      let j := G.idxOf m
      match splitDom (ps.getD j []) gs with
      | some (a, b) => piecesOf gs nl n (ps.take j ++ [a, b] ++ ps.drop (j + 1))
      | none => ps

namespace State

/-- Up to 256 bytes of a block of an image in a page that has been found: an IMG page that may be read (R43), of this package or of another,
which is asked for them (R412). -/
def imageBlock (s : State) (c va m : Nat) (q : Page) : State × Except Flt (List Byte) :=
  if q.cls != 5 then (s, .error (.prot va 0))
  else if !q.rd then (s, .error (.prot va 1))
  else match s.barred q.pa va with
  | some f => (s, .error f)
  | none =>
    if inRemote q.pa then let (bs, s) := (s.sendRequest c q.pa).remoteRead q.pa m; (s, .ok bs)
    else match s.physRead q.cmp q.pa m with
      | none => (s.count (homeVault q.pa / 64) .zmbRefetch, .error (.decmp (va / 256 * 256)))
      | some bs => (s, .ok bs)

/-- Bytes of an image as the context's translation gives them, block by block. -/
def imageBytes (s : State) (c : Nat) : Nat → Nat → Nat → State × Except Flt (List Byte)
  | 0, _, _ => (s, .ok [])
  | k + 1, va, n =>
    if n = 0 then (s, .ok [])
    else
      let m := min n (256 - va % 256)
      match s.walk c va 0 with
      | .error f => (s, .error f)
      | .ok q => match s.imageBlock c va m { q with pa := s.localOf q.pa } with
        | (s, .error f) => (s, .error f)
        | (s, .ok bs) => match s.imageBytes c k (va + m) (n - m) with
          | (s, .ok more) => (s, .ok (bs ++ more))
          | (s, .error f) => (s, .error f)

/-- The header of an image. -/
def header? (s : State) (c img : Nat) : State × Option (List Word) :=
  if img % 256 != 0 then (s, none)
  else match s.imageBytes c 2 img 256 with
    | (s, .ok bs) => (s, some (wordsOf bs 32))
    | (s, .error _) => (s, none)

/-- A field of a launch record as memory holds it; a free value where its block is malformed (R288, R401, log entry 62). -/
def recField (s : State) (c idx k lo n : Nat) : Nat :=
  let a := s.recordAt c idx + 8 * k
  bits (if s.recordSpoiled c idx then (Config.freeWord (s.free + a)).toNat else s.memWord a) lo n
/-- A field of a launch record written by the device. In a word with an uncorrectable error a part of the word cannot be written, and the
whole word is valid again once it has been (R288, R401, log entry 62). -/
def setRecField (s : State) (c idx k lo n v : Nat) : State :=
  let a := s.recordAt c idx + 8 * k
  let w := s.memWord a
  let cells := cellsAt a (bytesOf 8 (w / 2 ^ (lo + n) * 2 ^ (lo + n) + v % 2 ^ n * 2 ^ lo + w % 2 ^ lo))
  if !s.spoiled a 8 then s.memSet cells
  else if n = 64 then { s.memSet cells with bad := unwritten cells s.bad } else s

/-- The launch of a record that is running, or waits for its dependences: the oldest. -/
def current (s : State) (c idx : Nat) : Option Launch := s.launches.find? fun l => l.ctx == c && l.idx == idx
def launchBy (s : State) (key : Nat) : Option Launch := s.launches.find? fun l => l.key == key
def setLaunch (s : State) (l : Launch) : State := { s with launches := s.launches.map fun x => if x.key == l.key then l else x }

/-- The record becomes RUNNING: dcnt is reloaded, and its packet goes to every live die (R257, R357). -/
def runRecord (s : State) (l : Launch) : State :=
  let nl := popcount s.boot.live.toNat 4
  let s := (s.setRecField l.ctx l.idx 11 8 8 2).setRecField l.ctx l.idx 9 16 16 l.ndep
  let l := { l with running := true, live := s.boot.live, pieces := (piecesOf l.grains nl 4 [l.dom]).length }
  (s.setLaunch l).push (((List.range 4).filter fun d => s.boot.live.getLsbD d).map fun d => .op (.launchPacket d l.key))

/-- A snapshot is taken up by its idle record: WAITDEP while dcnt is not 0 (R257). -/
def startRecord (s : State) (l : Launch) : State :=
  let s := s.setRecField l.ctx l.idx 13 0 64 l.lseq
  if s.recField l.ctx l.idx 9 16 16 = 0 then s.runRecord l else s.setRecField l.ctx l.idx 11 8 8 1

/-- The arm status of a record, in the order of Table 7 (R256). -/
def armStatus (s : State) (c idx : Nat) (ws : List Word) (hdr : Option (List Word)) : Nat :=
  let rsv := bits (word ws 0) 56 8 != 0 || bits (word ws 1) 0 52 != 0 || bits (word ws 6) 32 32 != 0 || ((ws.drop 23).any fun w => w != 0)
  match hdr with
  | none => 0x11
  | some h =>
    let l : Launch := ⟨c, idx, 0, ws, h, false, 0, 0, [], [], 0, 0, false⟩
    if rsv || l.cw % 8 != 0 || Hdr.bad h then 0x11
    else if Hdr.tooBig h l.vmask then 0x10
    else if l.texp < 10 || 44 < l.texp || l.vmask = 0 || l.vmask / 2 ^ Hdr.nvar h != 0
        || (l.dom.any fun d => d.2 ≤ d.1)
        || ((List.range 3).any fun i => l.ndim ≤ i && (word ws (2 + i) != 0 || l.grain i != 1)) then 0x12
    else if s.recField c idx 11 8 8 != 0 && s.recField c idx 11 24 2 = 3 then 0x13
    else 0

/-- Arming a record (R256, R257), with the words of the snapshot that a handler arm replaces (R356). The status, and the state. -/
def armRecord (s : State) (c idx : Nat) (new : List (Nat × Word)) : Nat × State :=
  let ws := (List.range 32).map fun k => BitVec.ofNat 64 (s.memWord (s.recordAt c idx + 8 * k))
  let (s, hdr) := s.header? c (bits (word ws 0) 0 56)
  let st := s.armStatus c idx ws hdr
  let s := s.setRecField c idx 11 16 8 st
  if st != 0 then (st, s)
  else
    let snap := new.foldl (fun ws o => ws.set o.1 o.2) ws
    let l : Launch := ⟨c, idx, (s.ctx c).nlseq, snap, hdr.getD [], false, 0, 0, [], [], 0, 0, false⟩
    let busy := s.recField c idx 11 8 8 != 0
    let s := s.onCtx c fun C => { C with nlseq := C.nlseq + 1 }
    let s := { s with launches := s.launches ++ [l] }
    (0, if busy then s.setRecField c idx 11 24 2 (s.recField c idx 11 24 2 + 1) else s.startRecord l)

end State

end Sys2Proof.Machine
end

