-- ==== Sys2Proof/Machine/Sync.lean ====
section
/-! DEFINITION. Synchronisation instructions of an element: ATOM, WAIT, HBAR, BSYNC, CNTR and TIME (R231 to R242), and the
proceeding and the deadline of a BSYNC. -/

namespace Sys2Proof.Machine

/-- The frame of an instruction of Format Y (R231): lane 0, its sources, and an acquire before it. -/
def syncOp (s : State) (f : FmtY) (n : Nat) (effect : State → State) : Host.Outcome State Fault Refusal :=
  .next (s.issue (executes (s.me.effMask f.pg f.ps) false) (srcsY f n) fun s => if s.heldBack then s else effect s)

def yA (s : State) (f : FmtY) : Nat := (s.me.readX f.sa.toNat).toNat
def yB (s : State) (f : FmtY) : Nat := (s.me.readX f.sb.toNat).toNat
def yC (s : State) (f : FmtY) : Nat := (s.me.readX f.sc.toNat).toNat

namespace State

/-- A result that is long-latency: the destination is marked and the operation recorded; then the bead moves on. -/
def issueY (s : State) (kind : OpKind) (f : FmtY) (value : Option Nat) (acq : Bool) (i : Instr) : State :=
  (s.onMe fun T => T.issueOp kind f.dst 0 (value.map (BitVec.ofNat 512)) acq i).advance

/-- What the home of a SYNC word is asked with: the word, which may be one of a package that is lost; or the address is misaligned or its
page not SYNC; or another fault. -/
inductive SyncWord where
  | word (pa : Nat)
  | lost (pa : Nat)
  | bad (detail : Nat)
  | fault (f : Flt)
  deriving DecidableEq, Repr

def syncWord (s : State) (ea n : Nat) (write : Bool) : State × SyncWord :=
  if ea % n != 0 then (s, .bad 2)
  else match s.page s.site none s.myCtx ea (.sync write) with
    | (s, .ok q) =>
      (s, if s.cutOff q.pa then .lost q.pa
        else match s.barred q.pa ea with
          | some f => .fault f
          | none => .word q.pa)
    | (s, .error e) => (s, if e == .prot ea 0 then .bad 0 else .fault e)

/-- An operation on a SYNC word may leave the element: nothing that the element has asked of the word can be passed, and the word's home
has room for it (R30, R155, R231). -/
def mayAsk (s : State) (pa : Nat) : Bool := !s.combining pa && (inRemote pa || s.hsqRoom (homeVault pa) s.myCtx)

/-- A wait of the running element on a word of a package that is lost: no step reaches the word, and it returns TIMEOUT (R413). -/
def armLost (s : State) (pa : Nat) (p : Site) (va : Nat) (due : Option Nat) (op : Nat) : State :=
  match due with
  | none => s.finish s.here op 1
  | some d => { s with armed := s.armed ++ [⟨s.myCtx, pa, 0, 8, true, 1, d, s.here, op, va, p.widx, false⟩] }

end State

/-- The deadline of a wait of 2^tmo clk, or one evaluation (R237). -/
def dueOf (s : State) (tmo : Nat) : Option Nat := if tmo = 0 then none else some (s.time + 2 ^ tmo)

def atomWidth (f : FmtY) : Nat := if f.flg.getLsbD 0 then 32 else 64

/-- ATOM (R234). -/
def execAtom (f : FmtY) (s : State) : Host.Outcome State Fault Refusal :=
  syncOp s f (if f.aop = 8 then 3 else 2) fun s =>
    let ea := yA s f
    let w := atomWidth f
    let u := f.flg.getLsbD 2
    match s.syncWord ea (w / 8) true with
    | (s, .bad d) => s.trap (.prot ea d)
    | (s, .fault e) => s.trap e
    | (s, .lost pa) => s.trap (.lnkerr pa 4)
    | (s, .word pa) =>
      if !s.mayAsk pa then s
      else s.irrevocably (f.ord.getLsbD 1) fun s =>
        let s := s.touch s.site s.myCtx ea pa
        let op := s.me.nop
        let e : HsqEntry := ⟨s.myCtx, pa, s.here, some op, ea, s.me.pc, .atom f.aop.toNat w u (BitVec.ofNat 64 (yB s f)) (BitVec.ofNat 64 (yC s f)), 0⟩
        let s := s.issueY .atom f none (f.ord.getLsbD 0) (.atom f)
        if inRemote pa then let (x, s) := s.draw; s.finish s.here op (atomResult f.aop.toNat w u x.toNat).toNat else s.request e

/-- A tree ATOM (R235): it enters the combining networks at its quad, under its effective scope (R263). -/
def execAtomTree (f : FmtY) (s : State) : Host.Outcome State Fault Refusal :=
  syncOp s f 2 fun s =>
    let ea := yA s f
    let w := atomWidth f
    match s.syncWord ea (w / 8) true with
    | (s, .bad d) => s.trap (.prot ea d)
    | (s, .fault e) => s.trap e
    | (s, .lost pa) => s.trap (.lnkerr pa 4)
    | (s, .word pa) =>
      if s.combining pa then s
      else s.irrevocably (f.ord.getLsbD 1) fun s =>
        let s := s.touchHere s.site s.myCtx ea pa
        let op := s.me.nop
        let e : HsqEntry := ⟨s.myCtx, pa, s.here, none, ea, s.me.pc, .atoms f.aop.toNat w (f.flg.getLsbD 2) [(BitVec.ofNat 64 (yB s f), s.here, op)],
          f.scope.toNat⟩
        let s := s.issueY .atom f none false (.atomTree f)
        s.enterNode 2 (effScope s.here pa f.scope.toNat) e

/-- WAIT (R237). One that answers BADWORD has executed, and the task is irrevocable (R231, R261 Table 9). -/
def execWait (f : FmtY) (s : State) : Host.Outcome State Fault Refusal :=
  syncOp s f 2 fun s =>
    let ea := yA s f
    let w := atomWidth f
    match s.syncWord ea (w / 8) false with
    | (s, .bad _) => s.irrevocablyRead fun s => s.issueY .wait f (some 2) (f.ord.getLsbD 0) (.wait f)
    | (s, .fault e) => s.trap e
    | (s, .lost pa) => s.irrevocablyRead fun s =>
      (s.issueY .wait f none (f.ord.getLsbD 0) (.wait f)).armLost pa s.site ea (dueOf s f.tmo.toNat) s.me.nop
    | (s, .word pa) =>
      if !s.mayAsk pa then s
      else s.irrevocablyRead fun s =>
        let s := s.touch s.site s.myCtx ea pa
        let op := s.me.nop
        let e : HsqEntry := ⟨s.myCtx, pa, s.here, some op, ea, s.me.pc,
          .wait f.aop.toNat w (f.flg.getLsbD 2) (BitVec.ofNat 64 (yB s f)) (s.time + 2 ^ f.tmo.toNat) (f.tmo == 0) (f.ord.getLsbD 0), 0⟩
        let s := s.issueY .wait f none (f.ord.getLsbD 0) (.wait f)
        if inRemote pa then let (x, s) := s.draw; s.finish s.here op (x.toNat % 2) else s.request e

/-- The participant count of a barrier is accepted (R239). -/
def countOk (n : Nat) : Bool := 0 < n && n < 2 ^ 32

/-- An arrival of the running element at a barrier word, as a release; `due` says whether it goes on to wait (R240). It combines up to
its effective scope (R263). -/
def arriveAt (s : State) (f : FmtY) (pa : Nat) (due : Option (Option Nat)) (i : Instr) : State :=
  if s.combining pa then s
  else s.irrevocably true fun s =>
    let s := s.touchHere s.site s.myCtx (yA s f) pa
    let op := s.me.nop
    let e : HsqEntry := ⟨s.myCtx, pa, s.here, none, yA s f, s.me.pc, .arrive (yB s f) 0 [(s.here, op, due)], f.scope.toNat⟩
    (s.issueY .arrive f none due.isSome i).enterNode 2 (effScope s.here pa f.scope.toNat) e

/-- HBAR arrive (R240). -/
def execHbarArrive (f : FmtY) (s : State) : Host.Outcome State Fault Refusal :=
  syncOp s f 2 fun s =>
    let ea := yA s f
    match s.syncWord ea 8 true with
    | (s, .bad d) => s.trap (.prot ea d)
    | (s, .fault e) => s.trap e
    | (s, .lost pa) => s.trap (.lnkerr pa 4)
    | (s, .word pa) => if countOk (yB s f) then arriveAt s f pa none (.hbarArrive f) else s.trap (.prot ea 3)

/-- HBAR wait (R240): until the generation moves past sb[31:0]. -/
def execHbarWait (f : FmtY) (s : State) : Host.Outcome State Fault Refusal :=
  syncOp s f 2 fun s =>
    let ea := yA s f
    match s.syncWord ea 8 false with
    | (s, .bad _) => s.irrevocablyRead fun s => s.issueY .wait f (some 2) true (.hbarWait f)
    | (s, .fault e) => s.trap e
    | (s, .lost pa) => s.irrevocablyRead fun s =>
      (s.issueY .wait f none true (.hbarWait f)).armLost pa s.site (ea + 4) (dueOf s f.tmo.toNat) s.me.nop
    | (s, .word pa) =>
      if !s.mayAsk pa then s
      else s.irrevocablyRead fun s =>
        let s := s.touch s.site s.myCtx ea pa
        let op := s.me.nop
        let e : HsqEntry := ⟨s.myCtx, pa + 4, s.here, some op, ea, s.me.pc,
          .wait 1 32 true (BitVec.ofNat 64 (yB s f % 2 ^ 32)) (s.time + 2 ^ f.tmo.toNat) (f.tmo == 0) true, 0⟩
        let s := s.issueY .wait f none true (.hbarWait f)
        if inRemote pa then let (x, s) := s.draw; s.finish s.here op (x.toNat % 2) else s.request e

/-- HBAR arrive-and-wait (R240). -/
def execHbarAw (f : FmtY) (s : State) : Host.Outcome State Fault Refusal :=
  syncOp s f 2 fun s =>
    let bad := fun (s : State) => s.irrevocablyRead fun s => s.issueY .wait f (some 2) true (.hbarAw f)
    match s.syncWord (yA s f) 8 true with
    | (s, .bad _) => bad s
    | (s, .fault e) => s.trap e
    | (s, .lost pa) =>
      if countOk (yB s f) then s.irrevocably true fun s =>
        (s.issueY .wait f none true (.hbarAw f)).armLost pa s.site (yA s f + 4) (dueOf s f.tmo.toNat) s.me.nop
      else bad s
    | (s, .word pa) => if countOk (yB s f) then arriveAt s f pa (some (dueOf s f.tmo.toNat)) (.hbarAw f) else bad s

/-! ### BSYNC (R241) -/

/-- BSYNC: one at a time for a region; it makes the task irrevocable at issue, validated (R231, R275), and its three steps follow in
BSYNC_PROCEED. The spec gives no detail for the PROT of a second BSYNC: a free value. -/
def execBsync (f : FmtY) (s : State) : Host.Outcome State Fault Refusal :=
  syncOp s f 2 fun s =>
    match s.regionOf s.here with
    | none => s
    | some (r, g) =>
      let ea := yA s f
      if g.bsync.isSome then let (x, s) := s.draw; s.trap (.prot ea (x.toNat % 8))
      else match s.syncWord ea 8 true with
        | (s, .bad _) => s.irrevocablyRead fun s => s.issueY .bsync f (some 2) true (.bsync f)
        | (s, .fault e) => s.trap e
        | (s, .word _) | (s, .lost _) => s.irrevocablyRead fun s =>
          if countOk (yB s f) then
            let b : Bsync := ⟨s.here, s.me.nop, yB s f, f.scope.toNat, s.time + 2 ^ f.tmo.toNat, false, ea, s.me.pc⟩
            (s.issueY .bsync f none true (.bsync f)).onRegion r fun g => { g with bsync := some b }
          else s.issueY .bsync f (some 2) true (.bsync f)

namespace State

/-- The entry of a sequence number is still in its chain: the head entry, which the engine keeps until it completes, is not past
it (R251, R366). Where the head's own number cannot be read here, as in another package, dseq tells. -/
def chainBusy (s : State) (c desc n : Nat) : Bool :=
  let head := s.homeWord (desc + 8)
  head != 0 && match s.walk c head 0 with
    | .ok q =>
      match if inRemote (s.localOf q.pa) then none else s.physRead q.cmp (s.localOf q.pa + 80) 8 with
      | some bs => ofBytes bs ≤ n
      | none => s.homeWord (desc + 24) < n
    | .error _ => s.homeWord (desc + 24) < n

/-- An engine command, in the port form or in a chain, or an ATOM of a region that has not been performed (R241 step 1). -/
def regionBusy (s : State) (g : Region) : Bool :=
  (s.dies.any fun D => D.engines.any fun e => (e.2.queue ++ e.2.cur.toList).any fun k => k.task == some g.task)
    || (g.chained.any fun x => s.chainBusy g.ctx x.1 x.2.1)
    || (s.asked.any fun e => match e.req with
        | .atom .. => g.holds e.t
        | .chapp cmd .. => cmd && g.holds e.t
        | .atoms _ _ _ items => items.any fun m => g.holds m.2.1
        | _ => false)
    || (s.combs.any fun k => match k.entry.req with | .atoms _ _ _ items => items.any fun m => g.holds m.2.1 | _ => false)

/-- An access that the element of a BSYNC made before it has not been performed (R240, R266). -/
def beforeBsync (s : State) (b : Bsync) : Bool :=
  ((s.tile b.t).ops.any fun o => o.num < b.op && o.value.isNone && o.kind != .lpatch) || (s.tile b.t).matrixPending

end State

/-- BSYNC_PROCEED (R241): once every engine command and ATOM of the region is done, and what its element did before, its buffer is committed
and it arrives at its word, where a restore may have found it another place (R388). At a word of a package that is lost it waits until its
deadline (R413). -/
def execBsyncProceed (r : Nat) (s : State) : Host.Outcome State Fault Refusal :=
  .next <| match s.region? r with
  | none => s
  | some g =>
    match g.bsync with
    | none => s
    | some b =>
      if b.arrived || g.frozen || b.deadline < s.time || s.regionBusy g || s.beforeBsync b then s
      else
        let p : Site := ⟨b.t, 0, 0, b.widx⟩
        match s.page p none g.ctx b.va (.sync true) with
        | (s, .error f) => s.raise p f
        | (s, .ok q) => s.commit r false fun s =>
          let e : HsqEntry := ⟨g.ctx, q.pa, b.t, none, b.va, b.widx, .arrive b.n 0 [(b.t, b.op, some (some b.deadline))], b.scope⟩
          let s := (s.touchHere p g.ctx b.va q.pa).onRegion r fun g => { g with bsync := some { b with arrived := true } }
          if s.cutOff q.pa then s.stranded e else s.enterNode 2 (effScope b.t q.pa b.scope) e

/-- BSYNC_DEADLINE (R241): the deadline passes in step 1, and nothing has been done. -/
def execBsyncDeadline (r : Nat) (s : State) : Host.Outcome State Fault Refusal :=
  .next <| match s.region? r with
  | none => s
  | some g =>
    match g.bsync with
    | none => s
    | some b => if !b.arrived && b.deadline ≤ s.time then s.finish b.t b.op 1 else s

/-! ### CNTR and TIME (R242) -/

/-- A short-latency result in an X register. -/
def State.result (s : State) (r : BitVec 6) (v : Nat) : State := (s.onMe fun T => T.writeX r.toNat (BitVec.ofNat 64 v)).advance

/-- CNTR.EV (R242): 0 unless the context may see the counters. -/
def execCntrEv (f : FmtY) (s : State) : Host.Outcome State Fault Refusal :=
  .next (s.issue (executes (s.me.effMask f.pg f.ps) false) [⟨f.sb, f.fe.getLsbD 1, 1⟩] fun s =>
    let v := match tabGet (yB s f % 64) (s.die (dieOf s.here)).counters with | some c => c.2.toNat | none => 0
    s.result f.dst (if (s.ctx s.myCtx).visible then v else 0))

/-- CNTR.TASK (R242): replays, split depth, aborts of the launch so far, clk of allowance used. -/
def execCntrTask (f : FmtY) (s : State) : Host.Outcome State Fault Refusal :=
  .next (s.issue (executes (s.me.effMask f.pg f.ps) false) [⟨f.sb, f.fe.getLsbD 1, 1⟩] fun s =>
    match s.regionOf s.here with
    | none => s.result f.dst 0
    | some (_, g) =>
      let k := s.task? g.task
      s.result f.dst <| match yB s f % 4 with
        | 0 => (k.map Task.replays).getD 0
        | 1 => (k.map Task.depth).getD 0
        | 2 => ((s.launchOf g).map Launch.aborts).getD 0
        | _ => g.clk)

/-- TIME (R242): the package time. -/
def execTime (f : FmtY) (s : State) : Host.Outcome State Fault Refusal :=
  .next (s.issue (executes (s.me.effMask f.pg f.ps) false) [] fun s => s.result f.dst s.time)

/-- TIME.LEFT (R242): 2^e less the clk used. -/
def execTimeLeft (f : FmtY) (s : State) : Host.Outcome State Fault Refusal :=
  .next (s.issue (executes (s.me.effMask f.pg f.ps) false) [] fun s =>
    match s.regionOf s.here with
    | none => s.result f.dst 0
    | some (_, g) => s.result f.dst (2 ^ ((s.task? g.task).map Task.texp).getD 0 - g.clk))

end Sys2Proof.Machine
end

