-- ==== Sys2Proof/Machine/LaunchOps.lean ====
section
/-! DEFINITION. Launch and system instructions of an element: TASKQ, LPATCH, LARM (R253 to R259), TRAP, HALT and SYSRD (R260). -/

namespace Sys2Proof.Machine

/-- A tile-task record names an acceptable task (R253, R254): its domain under the image's dimensions, its exponent, its
predecessors, which are tasks of the launch. -/
def taskRecordOk (s : State) (k : Task) (l : Launch) (ws : List Word) : Bool :=
  let n := bits (word ws 3) 52 4
  let texp := bits (word ws 3) 58 6
  let mine := fun (h : Nat) => match s.task? h with | some t => t.ctx == k.ctx && t.lseq == k.lseq | none => false
  ((List.range l.ndim).all fun i => bits (word ws i) 32 32 < bits (word ws i) 0 32 + 1) && 10 ≤ texp && texp ≤ 44 && n ≤ 4
    && bits (word ws 3) 0 52 == 0 && ((List.range 4).all fun i => if i < n then mine (word ws (4 + i)) else word ws (4 + i) == 0)

/-- The task of an accepted record, held until its enqueuer commits (R254); predecessors not yet complete are counted and
will each decrement the count once (R361). -/
def holdTask (s : State) (r : Nat) (k : Task) (l : Launch) (ws : List Word) : Nat × State :=
  let h := s.nhandle
  let n := bits (word ws 3) 52 4
  let preds := ((List.range n).map fun i => word ws (4 + i)).filter fun p => match s.task? p with | some t => t.phase != .done | none => false
  let new : Task :=
    { ctx := k.ctx, idx := k.idx, lseq := k.lseq, die := k.die,
      dom := (List.range l.ndim).map fun i => (bits (word ws i) 32 32, bits (word ws i) 0 32 + 1),
      texp := bits (word ws 3) 58 6, prio := bits (word ws 3) 56 2, args := (ws.drop 8).take 8, phase := .held, deps := preds.length,
      succs := [], irrev := false, replays := 0, depth := 0, parent := none, kids := 0, readyAt := 0, aged := false, reserved := false,
      by_ := some r, record := 0 }
  let s := preds.foldl (fun s p => s.onTask p fun t => { t with succs := t.succs ++ [h] }) s
  (h, { s.setTask h new with nhandle := h + 1 })

/-- TASKQ (R254): the record is read as a PLAIN load; a refused record answers 0 and is counted. -/
def execTaskq (f : FmtY) (s : State) : Host.Outcome State Fault Refusal :=
  syncOp s f 1 fun s =>
    let ea := yA s f
    match s.regionOf s.here with
    | none => s
    | some (r, g) =>
      if ea % 128 != 0 then s.trap (.prot ea 2)
      else match s.page s.site none g.ctx ea (.load 3) with
        | (s, .error e) => s.trap e
        | (s, .ok q) =>
          if q.cls != 0 then s.trap (.prot ea 0)
          else match s.barred q.pa ea with
          | some e => s.trap e
          | none => if s.loading q.pa 128 then s else
            match s.fetchAll r q ea 128 with
            | (s, none) => s.trap (.decmp (ea / 256 * 256))
            | (s, some bs) =>
              let ws := wordsOf bs 16
              match s.task? g.task, s.launchOf g with
              | some k, some l =>
                let prio := bits (word ws 3) 56 2
                let room := s.queueRoom k.die prio != 0 && !((s.die k.die).pending.any fun p => match s.launchBy p.1 with | some x => x.prio == prio | none => false)
                if taskRecordOk s k l ws && room then
                  let (h, s) := holdTask s r k l ws
                  s.issueY .taskq f (some h) false (.taskq f)
                else (s.issueY .taskq f (some 0) false (.taskq f)).count g.die .taskqRefused
              | _, _ => (s.issueY .taskq f (some 0) false (.taskq f)).count g.die .taskqRefused

/-- LPATCH (R258): a patch of one word of a record, one entry of the store buffer; its result comes with the commit. -/
def execLpatch (f : FmtY) (s : State) : Host.Outcome State Fault Refusal :=
  syncOp s f 2 fun s =>
    let i := yA s f
    match s.regionOf s.here with
    | none => s
    | some (r, _) =>
      if 4096 ≤ i then s.trap (.prot i 3)
      else
        let op := s.me.nop
        s.hold r (.patch s.site i f.flg.toNat (BitVec.ofNat 64 (yB s f)) op) fun s => s.issueY .lpatch f none false (.lpatch f)

/-- LARM (R259): irrevocable; the result is the arm status. A record with a word in error raises DECMP (R401). -/
def execLarm (f : FmtY) (s : State) : Host.Outcome State Fault Refusal :=
  syncOp s f 1 fun s =>
    let i := yA s f
    if 4096 ≤ i then s.trap (.prot i 3)
    else s.irrevocably (f.ord.getLsbD 1) fun s =>
      let c := s.myCtx
      if s.recordSpoiled c i then s.trap (.decmp i) else
      let (st, s) := s.armRecord c i []
      s.issueY .larm f (some st) false (.larm f)

/-! ### The system row (R260) -/

/-- TRAP: the precise fault TRAP with the immediate. -/
def execTrap (f : FmtI) (s : State) : Host.Outcome State Fault Refusal :=
  .next (s.issue (executes (s.me.effMask f.pg f.ps) false) [] fun s => s.trap ⟨0x13, 0, f.imm.toNat⟩)

/-- HALT: every source of the region stops. -/
def execHalt (f : FmtI) (s : State) : Host.Outcome State Fault Refusal :=
  .next (s.issue (executes (s.me.effMask f.pg f.ps) false) [] fun s =>
    match (s.me).region with
    | some r => (s.onRegion r fun g => { g with stopped := true }).advance
    | none => s.advance)

/-- The value of a SYSRD code (Table 8). -/
def sysValue (s : State) (code : Nat) : Nat :=
  let d := dieOf s.here
  let k := match s.regionOf s.here with | some (_, g) => s.task? g.task | none => none
  match code with
  | 0 => 0x53834
  | 1 => s.boot.fwseq.toNat
  | 2 => s.boot.live.toNat
  | 3 => 1800
  | 4 => ((s.ctx s.myCtx).vgrant.getD d 0).toNat
  | 5 => (k.map Task.idx).getD 0
  | 6 => (k.map Task.prio).getD 0
  | 7 => (k.map Task.texp).getD 0
  | 8 => (s.die d).age
  | _ => match s.regionOf s.here with | some (_, g) => g.task | none => 0

/-- SYSRD: short latency. -/
def execSysrd (f : FmtI) (s : State) : Host.Outcome State Fault Refusal :=
  .next (s.issue (executes (s.me.effMask f.pg f.ps) false) [] fun s => s.result f.dst (sysValue s f.imm.toNat))

end Sys2Proof.Machine
end

