-- ==== Sys2Proof/Machine/Fabric.lean ====
section
/-! DEFINITION. The switch words of a tile as routes (R160, R165 to R168), the ports they feed, and the beads inside a
declared loop (R23). -/

namespace Sys2Proof.Machine

/-- A switch word: SW.RT (kind 0), SW.FORK (1) or SW.JOIN (2). -/
structure Route where
  kind  : Nat
  srcs  : List Nat
  dsts  : List Nat
  slot  : Nat
  back  : Bool
  loop  : Nat
  limit : Nat
  bc    : Bool
  pol   : Nat
  deriving DecidableEq, Repr

/-- A switch word's fields (Tables 2 to 4 of R165 to R167); none for a word that is no switch word. -/
def parseRoute (w : Word) : Option Route :=
  let v := w.toNat
  if opOf w ≠ 0x86 then none
  else match fnOf w with
    | 0 => some ⟨0, [bits v 43 7], [bits v 36 7], bits v 32 4, bit v 31, bits v 27 4, bits v 19 8, bit v 18, 0⟩
    | 1 => some ⟨1, [bits v 43 7], [bits v 36 7, bits v 29 7] ++ (if bits v 22 7 = 0x7F then [] else [bits v 22 7]),
        bits v 18 4, false, bits v 14 4, 0, false, 0⟩
    | 2 => some ⟨2, [bits v 43 7, bits v 36 7], [bits v 29 7], bits v 23 4, false, bits v 19 4, 0, false, bits v 27 2⟩
    | _ => none

/-- The link seen from the neighbour: the opposite side with the same index (R168). -/
def linkTwin (c : Nat) : Nat := 64 + 16 * ((bits c 4 2 + 2) % 4) + c % 16

/-- The tile at the far end of a link code (R160 Table 1); none off the die. -/
def neighbour (t c : Nat) : Option Nat :=
  match bits c 4 2 with
  | 0 => if tyOf t = 0 then none else some (t - 24)
  | 1 => if txOf t = 23 then none else some (t + 1)
  | 2 => if tyOf t = 23 then none else some (t + 24)
  | _ => if txOf t = 0 then none else some (t - 1)

namespace Tile

/-- The switch words of a physical bank, by word index 4 × frame + word. -/
def routesOf (T : Tile) (b : Bool) : List (Nat × Route) :=
  (T.physBank b).frames.flatMap fun p =>
    if 19 ≤ p.1 ∧ p.1 < 27 then
      (List.range 4).filterMap fun j => (parseRoute (p.2.getD j 0)).map fun r => (4 * (p.1 - 19) + j, r)
    else []

/-- The switch word by index, in a physical bank. -/
def route? (T : Tile) (b : Bool) (w : Nat) : Option Route := parseRoute ((((tabGet (19 + w / 4) (T.physBank b).frames).getD []).getD (w % 4) 0))

/-- The word that carries what a unit output emits, under the bank of the unit. -/
def outRoute (T : Tile) (u c : Nat) : Option Route := ((T.routesOf (T.bankOf u)).find? fun p => p.2.srcs.contains c).map Prod.snd
/-- The word that feeds a unit input, under the bank of the unit. -/
def feed (T : Tile) (u c : Nat) : Option Route := ((T.routesOf (T.bankOf u)).find? fun p => p.2.dsts.contains c).map Prod.snd

/-- A CE output that carries tokens: its route has slot count 0. -/
def tokenOut (T : Tile) (k : Nat) : Bool := match T.outRoute 0 k with | some r => r.slot == 0 | none => false
/-- A CE input fed by a route of slot count 0 (R146). -/
def tokenIn (T : Tile) (k : Nat) : Bool := match T.feed 0 k with | some r => r.slot == 0 | none => false

/-- The enabled outputs of the CE. -/
def outputs (T : Tile) : List Nat := (List.range 4).filter fun k => bit T.outen k
/-- The instructions of the CE's node program. -/
def programWords (T : Tile) : List Instr :=
  (List.range (4 * T.nprog)).filterMap fun i => match decode (T.program i) with | .ok k => some k | .error _ => none
/-- The inputs that a MERGE or an ACCEPT of the program names (R148). -/
def sideInputs (T : Tile) : Nat :=
  T.programWords.foldl (fun m i => match i with | .merge f | .accept f => m ||| f.pin.toNat | _ => m) 0
/-- The join inputs: enabled inputs that no MERGE or ACCEPT names (R22, R52). -/
def joinInputs (T : Tile) : List Nat := let side := T.sideInputs; (List.range 4).filter fun k => bit T.inen k && !bit side k

end Tile

namespace State

/-- Bead headers among beats. -/
def headers (bs : List Beat) : Nat := (bs.filter fun b => b.kind == 7).length

/-- Bead headers in a buffer that belong to one configuration of a rolling switch: the `new` one after the SW, the old one before it;
`passed` says that the SW has left the buffer (R26). -/
def headersUnder (new passed : Bool) (bs : List Beat) : Nat :=
  if passed then (if new then headers bs else 0)
  else if new then headers (bs.dropWhile fun b => b.kind != 6) else headers (bs.takeWhile fun b => b.kind != 6)

/-- The words that lead to a destination of a tile, nearest first, through links and joins back to the units that emit (R60); `new`
says that they are those of the bank a rolling switch goes over to. -/
def upstream (s : State) (new : Bool) : Nat → Nat → Nat → List Route
  | 0, _, _ => []
  | n + 1, t, c =>
    let T := s.tile t
    match (T.routesOf (T.bank != new)).find? fun p => p.2.dsts.contains c with
    | none => []
    | some (_, r) => r :: (r.srcs.filter (64 ≤ ·)).flatMap fun l =>
        match neighbour t l with
        | some t' => s.upstream new n t' (linkTwin l)
        | none => []

/-- The loop that the nearest word on the way to a destination names; 0 for none. -/
def nearLoop (ws : List Route) : Nat := (ws.map Route.loop).headD 0

/-- The words that lead to a source of a switch word: those of the neighbour for a link, none for a unit's output. -/
def sourceWords (s : State) (g : Region) (new : Bool) (t c : Nat) : List Route :=
  if c < 64 then []
  else match neighbour t c with
    | some t' => s.upstream new (4 * g.w * g.h) t' (linkTwin c)
    | none => []

/-- The loops whose entry is a place where these ways meet, with their limits: a back edge is on one of them (R23). -/
def entryLoops (ways : List (List Route)) : List (Nat × Nat) :=
  ways.flatMap fun ws => (ws.find? Route.back).toList.map fun r => (r.loop, r.limit)

/-- Beads inside declared loop L of a region, in the words of one bank and under its configuration: in flight in elements on the loop,
and in buffers of its edges (R23). What waits at a join to be admitted is outside. During a rolling switch the loops of the two banks
are loops of their own: a bead is inside one of the bank it runs under (log entry 68). -/
def beadsInLoop (s : State) (g : Region) (new : Bool) (L : Nat) : Nat :=
  (g.tiles.map fun t =>
    let T := s.tile t
    let rs := (T.routesOf (T.bank != new)).filter fun p => p.2.loop == L
    let dsts := rs.flatMap fun p => p.2.dsts
    let onLoop := dsts.any fun c => c < 4
    let srcs := rs.flatMap fun p =>
      if p.2.kind = 2 then p.2.srcs.filter fun c => if c < 64 then onLoop else nearLoop (s.sourceWords g new t c) == L
      else p.2.srcs
    (if onLoop && (T.unit 0).switched == new then T.beads.length else 0)
      + (dsts.map fun c => if c < 64 then headersUnder new (T.unit (c / 8)).switched (T.inQ c).beats else 0).sum
      + (srcs.map fun c => headersUnder new (T.swsrc.contains c)
          (if c < 64 then (T.outQ c).beats else (T.inQ c).beats ++ (T.wireQ c).beats)).sum).sum

/-- Bead headers in a buffer ahead of the first BAR or SW in it, which waits for the other inputs (R41, R26). -/
def headersAhead (q : Queue) : Nat := ((q.beats.takeWhile fun b => b.kind != 5 && b.kind != 6).filter fun b => b.kind == 7).length

/-- A way comes round a loop that is entered here. -/
def comesRound (ways : List (List Route × Queue)) (way : List Route) : Bool :=
  (entryLoops (ways.map Prod.fst)).any fun l => l.1 == nearLoop way

/-- Beads of a way may come in. One that comes round any loop entered here recirculates: it is no new bead of the others that meet it
here, so neither their limits nor their beads bar it, which would hold two loops up for ever (R23; log entry 68). A new bead comes in
when each loop is below its limit and no bead waits on a rival way that comes round one of them, save behind a BAR or SW, which itself
waits for what is ahead of it on this way. A way stands with its buffer; `new` names the bank of the words. -/
def admitted (s : State) (g : Region) (new : Bool) (ways : List (List Route × Queue)) (way : List Route)
    (rivals : List (List Route × Queue)) : Bool :=
  comesRound ways way || (entryLoops (ways.map Prod.fst)).all fun l =>
    s.beadsInLoop g new l.1 < l.2 && !(rivals.any fun q => nearLoop q.1 == l.1 && headersAhead q.2 != 0)

/-- The way to an input of the element of a tile, and the ways to all its enabled inputs with their buffers. -/
def inputWay (s : State) (g : Region) (t c : Nat) : List Route := s.upstream ((s.tile t).unit 0).switched (4 * g.w * g.h) t c
def inputWays (s : State) (g : Region) (t : Nat) : List (List Route × Queue) :=
  ((List.range 4).filter fun c => bit (s.tile t).inen c).map fun c => (s.inputWay g t c, (s.tile t).inQ c)

end State

end Sys2Proof.Machine
end

