-- ==== Sys2Proof/Machine/Units.lean ====
section
/-! DEFINITION. What the units of a tile share: their configuration words, the tokens at their inputs (R13, R159), and the
beats their outputs form (R161, R162). -/

namespace Sys2Proof.Machine

namespace Tile

/-! ### Words (R54, R58) -/

/-- A word of the frame of a stream unit: 0 is the main word, the rest extend it. -/
def unitWord (T : Tile) (u i : Nat) : Nat := word (T.frame (8 + u)) i
/-- The address an extension word holds. -/
def ext (T : Tile) (u i : Nat) : Nat := bits (T.unitWord u (i + 1)) 0 56
def unitFn (T : Tile) (u : Nat) : Nat := bits (T.unitWord u 0) 50 6
def unitPg (T : Tile) (u : Nat) : Nat := bits (T.unitWord u 0) 48 2
/-- A unit is configured under the bank it runs under. -/
def configured (T : Tile) (u : Nat) : Bool := if u = 0 then T.hasFrame 0 else T.hasFrame (8 + u)

/-- A unit that is configured as a root source (R162): a root scanner, or an AG port in a free pass. -/
def isRoot (T : Tile) (u : Nat) : Bool :=
  if u = 1 || u = 2 then bit (T.unitWord u 0) 47 else 7 ≤ u && T.unitFn u ≤ 1 && bits (T.unitWord u 0) 46 2 == 0

/-- The output queues of a unit, by port index (R160 Table 1). -/
def outputCodes (u : Nat) : List Nat :=
  match u with
  | 0 => [0, 1, 2, 3]
  | 1 | 2 => [8 * u, 8 * u + 1, 8 * u + 2]
  | 3 => [24, 25, 26, 27, 28]
  | 4 => [32]
  | 5 => [40]
  | 6 => [48]
  | _ => [49 + u]

/-- The inputs on which BAR and SW must arrive: the routed ones, but for skip_in (R192). -/
def mainInputs (T : Tile) (u : Nat) : List Nat :=
  (inputCodes u).filter fun c => (T.feed u c).isSome && !((u == 1 || u == 2) && c % 8 == 1)
/-- The outputs that carry a unit's own control tokens: the routed ones, but for skip_out. -/
def mainOutputs (T : Tile) (u : Nat) : List Nat :=
  (outputCodes u).filter fun c => (T.outRoute u c).isSome && !(u == 3 && 26 < c)

/-! ### Tokens at an input -/

/-- The kind of the token at the head of an input (0 to 2 for data), and its lane, stop level or tag. -/
def token (T : Tile) (c : Nat) : Option (Nat × Nat) :=
  match (T.inQ c).beats with
  | [] => none
  | b :: _ => some (b.kind, if b.kind ≤ 2 then (lane b.data (T.inQ c).used).toNat else if b.kind = 3 then b.stop else b.lane0)

def isData (k : Nat × Nat) : Bool := k.1 ≤ 2

/-- The lane taken would be the last of its beat. -/
def lastLane (T : Tile) (c : Nat) : Bool := match T.inHead c with | some b => b.count ≤ (T.inQ c).used + 1 | none => true

/-- The token at the head of an input is taken: one lane of a data beat, or a control beat. -/
def takeToken (T : Tile) (c : Nat) : Tile :=
  match T.inHead c with
  | some b => if b.kind ≤ 2 && !T.lastLane c then T.setInQ c ⟨(T.inQ c).beats, (T.inQ c).used + 1⟩ else T.popIn c
  | none => T

/-! ### Output beats -/

/-- The beat that an output is filling leaves it. -/
def flushOut (T : Tile) (ctx c : Nat) : Tile :=
  match tabGet c T.outs with
  | some p => if p.lanes.isEmpty then T else { T.pushOut c [.tokens p.kind ctx p.lanes] with outs := tabErase c T.outs }
  | none => T

/-- A beat of its own behind what an output holds; an output that is not routed carries nothing. -/
def sendBeat (T : Tile) (ctx u c : Nat) (b : Beat) : Tile :=
  if (T.outRoute u c).isSome then (T.flushOut ctx c).pushOut c [b] else T

/-- A token of an output; a beat closes at 16 tokens, and when the kind changes (R13, R161). -/
def sendToken (T : Tile) (ctx now u c kind : Nat) (x : Lane) : Tile :=
  if (T.outRoute u c).isSome then
    let T := match tabGet c T.outs with | some p => if p.kind = kind then T else T.flushOut ctx c | none => T
    let ls := match tabGet c T.outs with | some p => p.lanes | none => []
    let T := { T with outs := tabSet c ⟨kind, ls ++ [x], now⟩ T.outs }
    if ls.length = 15 then T.flushOut ctx c else T
  else T

/-- A stop of a level on every main output. -/
def sendStop (T : Tile) (ctx u k : Nat) : Tile := (T.mainOutputs u).foldl (fun T c => T.sendBeat ctx u c (.control 3 k ctx 0)) T
/-- DONE, BAR or SW on every main output. -/
def sendEnd (T : Tile) (ctx u kind tag : Nat) : Tile := (T.mainOutputs u).foldl (fun T c => T.sendBeat ctx u c (.control kind 0 ctx tag)) T

/-- Every output of a unit has room for what one step of the unit emits. -/
def roomy (T : Tile) (u : Nat) : Bool := (outputCodes u).all fun c => (T.outRoute u c).isNone || T.outRoom c 4

end Tile

/-- A destination holds credit for n beats (R30): 16 for a unit input, and for a link at its far end. -/
def destRoom (s : State) (t c n : Nat) : Bool :=
  if c < 64 then ((s.tile t).inQ c).beats.length + n ≤ 16
  else match neighbour t c with
    | some t' => let T := s.tile t'; (T.inQ (linkTwin c)).beats.length + (T.wireQ (linkTwin c)).beats.length + n ≤ 16
    | none => false

/-- The site of a unit for a fault record. -/
def unitSite (t u : Nat) : Site := if u < 7 then ⟨t, u, 0, 0⟩ else ⟨t, 7, u - 7, 0⟩

namespace State

/-- A beat read as another kind than it is counts as an event when it is consumed (R159). -/
def take (s : State) (t c want : Nat) : State :=
  let T := s.tile t
  let odd := match T.inHead c with | some b => b.kind ≤ 2 && b.kind != want && T.lastLane c | none => false
  let s := s.onTile t fun T => T.takeToken c
  if odd then s.count (dieOf t) .kindMismatch else s

/-- n bytes as a stream unit reads them, as a number (R163, R164). Addresses wrap in 56 bits: R187 says so of AG.AFF; for the arrays of
scanners, AG.IND and ISEs the wrap is the model's choice (log entry 55). -/
def unitRead (s : State) (r : Nat) (p : Site) (pg va n : Nat) : State × Except Flt Nat :=
  match s.taskRun r p .streamRead (va % 2 ^ 56) n (some pg) with
  | (s, .ok bs) => (s, .ok (ofBytes bs))
  | (s, .error e) => (s, .error e)

/-- A reading of a stream unit, taken on; a fault stops the unit at the access (R163). -/
def reading (s : State) (r : Nat) (p : Site) (pg va n : Nat) (k : Nat → State → State) : State :=
  match s.unitRead r p pg va n with
  | (s, .ok v) => k v s
  | (s, .error e) => s.raise p e

/-- The per-stream state of a unit after the end of a stream (R162): its stream index rises, and a root source has ended. -/
def endStream (s : State) (t u : Nat) : State :=
  s.onTile t fun T => T.onUnit u fun U =>
    { UState.fresh with
      started := U.started && T.isRoot u
      ended := true
      block := U.block
      checked := U.checked
      stream := (U.stream + 1) % 2 ^ 32
      stream1 := (U.stream1 + 1) % 2 ^ 32
      mark := if T.unitFn u = 2 && 7 ≤ u then U.mark else 0
      switched := U.switched }

end State

/-- A step of a configured unit whose region works, when its outputs have room. -/
def unitStep (s : State) (t u : Nat) (step : Nat → Region → State → State) : Host.Outcome State Fault Refusal :=
  .next (match s.active t with
    | some (r, g) => if (s.tile t).configured u && (s.tile t).roomy u then step r g s else s
    | none => s)

end Sys2Proof.Machine
end

