-- ==== Sys2Proof/Machine/Tasks.lean ====
section
/-! DEFINITION. The life of a tile-task on its region: quiescence (R24), drains (R40), completion, splitting, abort and replay
(R31 to R39), release of the region, and the completion of a launch (R257, R359). -/

namespace Sys2Proof.Machine

/-! ### Fields of the command block (R380 Table 7) -/

def cmdOp (k : CmdWords) : Nat := bits k.w0.toNat 0 8
def cmdArg (k : CmdWords) : Nat := k.w1.toNat
def cmdCpl (k : CmdWords) : Nat := k.w3.toNat

/-- An extend of a measurement register (R398). -/
def extended (m d : BitVec 384) : BitVec 384 := sha384 (beBytes m ++ beBytes d)

namespace Tile

/-- A unit has a stream open (R24). Once the sources have stopped, a root is idle, and a unit that only waits for the end of its
stream is idle too. -/
def openUnit (T : Tile) (u : Nat) (stopped : Bool) : Bool :=
  let U := T.unit u
  if !T.configured u then false
  else if T.isRoot u then !stopped && !U.ended
  else if stopped then U.ref.isSome && u != 4 && u != 6
  else U.pending || U.held.isSome || U.ref.isSome || U.acc.isSome || !U.lanes.isEmpty || !U.group.isEmpty || !U.entries.isEmpty
    || (u == 6 && U.started && !U.ended)

/-- Every buffer of a tile is empty, and its element, cell and units are idle (R24). An LPATCH whose result comes with the commit
does not keep the element busy. -/
def idle (T : Tile) (stopped : Bool) : Bool :=
  T.beads.isEmpty && (T.ops.all fun o => o.kind == .lpatch && o.value.isNone) && T.mxc.queue.isEmpty && T.outs.isEmpty
    && (T.inq.all fun q => q.2.beats.isEmpty) && (T.outq.all fun q => q.2.beats.isEmpty) && (T.wire.all fun q => q.2.beats.isEmpty)
    && (List.range 11).all fun u => !T.openUnit u stopped

/-- A clk of a tile in the drain configuration: every buffer discards the beat at its head, and the element its oldest bead (R40). -/
def sink (T : Tile) : Tile :=
  let flow := fun (q : Tab Queue) => (q.map fun p => (p.1, (⟨p.2.beats.drop 1, 0⟩ : Queue))).filter fun p => !p.2.beats.isEmpty
  { T with
    beads := T.beads.drop 1
    inq := flow T.inq
    outq := flow T.outq
    wire := flow T.wire }

/-- The drain configuration is written into a tile in place: into the active bank, and into the other one where a rolling switch has
taken units over to it (R25, R40). No select changes; what the nodes have open is discarded with their inputs. -/
def toDrain (T : Tile) : Tile :=
  let both := T.units.any fun u => u.2.switched
  { T with
    bank0 := if !T.bank || both then .draining else .empty
    bank1 := if T.bank || both then .draining else .empty
    ops := []
    mxc := Tile.reset.mxc
    units := []
    outs := []
    joins := []
    swsrc := []
    relFence := false }

end Tile

namespace State

/-- The operations of a region whose effect at their destination is still to come: a save and the end of a drain wait for them
(R261, R268). -/
def unapplied (s : State) (g : Region) : Bool :=
  let mine := fun (e : HsqEntry) => match e.req with
    | .atoms _ _ _ items => items.any fun m => g.holds m.2.1
    | .arrive _ _ ms => ms.any fun m => g.holds m.1
    | .wait _ _ _ _ _ once _ => once && g.holds e.t
    | _ => g.holds e.t
  (s.hsq.any fun q => q.2.any mine) || s.combs.any fun k => mine k.entry

/-- No value waits in a return queue of an ISE for a port of the region (R30). -/
def iseEmpty (s : State) (g : Region) : Bool := s.iseq.all fun e => !g.holds e.t

/-- The region is quiescent (R24). -/
def quiescent (s : State) (g : Region) : Bool :=
  g.running && !g.frozen && !g.switching && g.bsync.isNone && s.iseEmpty g && g.tiles.all fun t => (s.tile t).idle g.stopped

/-- A region in the drain configuration is quiescent: the tokens it held have flowed into sinks (R24, R40), and what its task has asked at
home sequencers has been performed (R268, R281). -/
def drained (s : State) (g : Region) : Bool := s.iseEmpty g && !s.unapplied g && g.tiles.all fun t => (s.tile t).idle true

/-! ### Queues and regions -/

/-- A task leaves its queue. -/
def unqueue (s : State) (d h : Nat) : State := s.onDie d fun D => { D with queues := D.queues.map fun q => q.filter (· != h) }

/-- The region is released: its tiles are free, and nothing outside waits for them. -/
def releaseRegion (s : State) (r : Nat) : State :=
  match s.region? r with
  | none => s
  | some g =>
    let s := (s.cancelOps g).clearTiles g
    let s := g.tiles.foldl (fun s t => s.onTile t fun T => { T with region := none }) s
    { s with regions := tabErase r s.regions }

/-- The firmware loads the drain configuration, a system-slot image: the first time after boot, M3 takes its digest (R398). -/
def measureDrain (s : State) : State :=
  if s.boot.measured then s
  else { s with boot := { s.boot with
    measured := true
    m3 := extended s.boot.m3 Config.drainDigest } }

/-- A drain (R40): the sources stop, every input is cut, what is speculative is discarded, the fault records of the region are
disposed of (R379), and the drain configuration is written into the active banks, under which the tokens it holds flow into sinks
(log entry 47). -/
def drain (s : State) (r : Nat) (why : Drain) : State :=
  match s.region? r with
  | none => s
  | some g =>
    let s := s.discard r
    let s := (g.tiles.foldl (fun s t => s.onTile t Tile.toDrain) s).measureDrain
    s.onRegion r fun g => { g with
      drain := some why
      stopped := true
      frozen := false
      records := []
      switching := false
      shadow := false
      repair := []
      bsync := none
      chained := [] }

/-! ### Completion (R36, R361) -/

/-- A task completes; a parent completes with the last of its children. Each completion decrements its successors once. -/
def completeTask (s : State) (h : Nat) : Nat → State
  | 0 => s
  | n + 1 =>
    match s.task? h with
    | none => s
    | some k =>
      if k.phase = .done then s
      else
        let s := (s.setTask h { k with phase := .done, reserved := false }).unqueue k.die h
        let s := s.later (k.succs.map fun x => .op (.dependenceDecrement x))
        match k.parent with
        | none => s
        | some p =>
          match s.task? p with
          | none => s
          | some q =>
            let s := s.setTask p { q with kids := q.kids - 1 }
            if q.kids ≤ 1 then s.completeTask p n else s

/-- Completion of a task, with those of the parents it may complete. -/
def complete (s : State) (h : Nat) : State := s.completeTask h (((s.task? h).map Task.depth).getD 0 + 1)

/-! ### Splitting and abort (R35, R36, R39) -/

def onLaunch (s : State) (key : Nat) (f : Launch → Launch) : State :=
  match s.launchBy key with
  | some l => s.setLaunch (f l)
  | none => s

/-- The key of a task's launch. -/
def taskKey (k : Task) : Nat := 4 * k.lseq + k.ctx

/-- The task of a child: half of its parent's domain. -/
def childOf (h : Nat) (k : Task) (dom : List (Nat × Nat)) : Task :=
  { k with
    dom := dom
    phase := .waiting
    deps := 0
    succs := []
    irrev := false
    replays := 0
    depth := k.depth + 1
    parent := some h
    kids := 0
    aged := false
    reserved := false
    by_ := none }

/-- A task that can be split is replaced by its two children; none when it is at minimum grain (R35). -/
def splitTask (s : State) (h : Nat) : Option State :=
  match s.task? h with
  | none => none
  | some k =>
    match s.launchBy (taskKey k) with
    | none => none
    | some l =>
      match splitDom k.dom l.grains with
      | none => none
      | some (a, b) =>
        let c := s.nhandle
        let s := (s.setTask h { k with phase := .split, kids := 2, reserved := false, aged := false }).unqueue k.die h
        let s := { (s.setTask c (childOf h k a)).setTask (c + 1) (childOf h k b) with nhandle := c + 2 }
        some (((s.enqueue c).enqueue (c + 1)).count k.die .splitMade)

/-- SMALLEST: the task is held until RETRY or KILL (R35, R381). -/
def smallest (s : State) (h cause : Nat) : State :=
  match s.task? h with
  | none => s
  | some k =>
    let seq := s.nextSeq k.die k.ctx
    let s := s.postDie k.die k.ctx ⟨0x0D, 0, cause⟩ false false k.lseq h
    (s.setTask h { k with phase := .smallest, reserved := false, record := seq }).count k.die .smallest

/-- A task goes back to its place in its queue as it was offered first; its spare slot is released (R39, R360). -/
def requeue (s : State) (h : Nat) : State :=
  s.onTask h fun k => { k with phase := .ready, readyAt := s.time, aged := false, reserved := false, irrev := false }

/-- A launch records a task of its that was aborted (R242). -/
def noteAbort (s : State) (h : Nat) : State :=
  match s.task? h with
  | some k => (s.onLaunch (taskKey k) fun l => { l with aborts := l.aborts + 1 }).count k.die .abortMade
  | none => s

/-- The reservations of a launch's tasks are given up: none of its tasks issues any more (R37, R65). -/
def unreserveLaunch (s : State) (key : Nat) : State :=
  let mine := fun (h : Nat) => match s.task? h with | some k => taskKey k == key | none => false
  { s with dies := s.dies.map fun D => { D with reserve := D.reserve.map fun q => q.filter fun x => !mine x.1 } }

/-- The launch of a task is to complete with a result (R65, R381). -/
def failLaunch (s : State) (h result : Nat) (stop : Bool) : State :=
  match s.task? h with
  | some k => s.onLaunch (taskKey k) fun l => { l with result := result, stopped := l.stopped || stop }
  | none => s

/-- Work that waits on a die that is no longer live moves to the live die of lowest rank (R419). -/
def evacuate (s : State) (d : Nat) : State :=
  match (List.range 4).find? fun x => s.boot.live.getLsbD x with
  | none => s
  | some x =>
    if x = d || !(s.die d).failed then s
    else
      let waits := fun (h : Nat) => match s.task? h with | some k => k.phase == .ready || k.phase == .waiting | none => false
      let moved := (s.die d).queues.map fun q => q.filter waits
      let held := (s.die d).pending
      let s := moved.flatten.foldl (fun (s : State) h => s.onTask h fun k => { k with die := x }) s
      let s := s.onDie d fun D => { D with
        queues := D.queues.map fun q => q.filter fun h => !waits h
        pending := []
        reserve := [none, none, none, none] }
      s.onDie x fun D => { D with
        queues := (List.range 4).map fun p => D.queues.getD p [] ++ moved.getD p []
        pending := D.pending ++ held }

/-- What follows the release of a drained region (R35, R39, R381, R390). -/
def afterDrain (s : State) (why : Drain) (h cause : Nat) : State :=
  match why with
  | .split =>
    let s := s.noteAbort h
    match s.splitTask h with
    | some s => s
    | none => s.smallest h cause
  | .abort | .dieFence =>
    let s := (s.noteAbort h).requeue h
    match s.task? h with | some k => s.evacuate k.die | none => s
  | .kill => (s.failLaunch h 0x15 false).complete h
  | .remove => s

/-! ### The end of a command (R380, R382) -/

/-- A command ends: its completion word is written (R382). -/
def endCommand (s : State) (k : CmdWords) (status : Nat) : State :=
  let a := cmdCpl k
  if a = 0 || a % 8 != 0 || !tableOk a then s
  else s.syncWrite a 64 (status + 2 ^ 8 * cmdOp k + 2 ^ 16 * (cmdArg k % 2 ^ 48))

/-- An ABORT or a KILL ends when the region it drains has been released (R382). -/
def endActing (s : State) (r : Nat) : State :=
  (List.range 4).foldl (fun (s : State) c =>
    match (s.ctx c).acting with
    | some (k, r') => if r' = r then (s.onCtx c fun C => { C with acting := none }).endCommand k 0 else s
    | none => s) s

/-! ### The end of a launch (R257, R359) -/

/-- A task that keeps its launch from completing. Tasks of a launch that a CFGINV has ended do not issue (R65). -/
def unfinished (l : Launch) (k : Task) : Bool :=
  k.ctx == l.ctx && k.lseq == l.lseq && k.phase != .done
    && !(l.stopped && (k.phase == .ready || k.phase == .waiting || k.phase == .split))

/-- dcnt of a successor record is decremented; one that waited starts (R257). One in a block with an uncorrectable error stays as it is, and a
DECMP event with the record's index is posted (R401, log entry 62). -/
def decrementRecord (s : State) (d c idx : Nat) : State :=
  let n := s.recField c idx 9 16 16
  if s.recordSpoiled c idx then s.post ⟨tileAt d 0 0, 12, 0, 0⟩ c (.decmp idx) false false true 0 0 0
  else if n = 0 then s.count d .dcntFloor
  else
    let s := s.setRecField c idx 9 16 16 (n - 1)
    if n = 1 && s.recField c idx 11 8 8 == 1 then s.later [.op (.launchStart c idx)] else s

/-- The completion word of a launch, written with Max; where its page forbids it a PROT event is posted instead, with the detail that says
why (R257, R378), where another package refuses it or cannot be reached an event of that fault (R412, R413), and for a word in error or in a
malformed block one of DECMP (R288, R402).
A page with write permission alone is enough for it, as R257 names no other (log entry 66). -/
def launchCw (s : State) (d : Nat) (l : Launch) : State :=
  if l.cw = 0 then s
  else
    let tell := fun (f : Flt) => s.post ⟨tileAt d 0 0, 12, 0, 0⟩ l.ctx f false false true l.lseq 0 0
    match s.walk l.ctx l.cw 2 with
    | .error _ => tell (.prot l.cw 7)
    | .ok q =>
      let pa := s.localOf q.pa
      if q.cls != 2 then tell (.prot l.cw 0)
      else if !q.wr then tell (.prot l.cw 1)
      else if inRemote pa then (match s.barred pa l.cw with | some f => tell f | none => s.sendRequest l.ctx pa)
      else
      let s := s.noteCmp { q with pa := pa }
      if s.badSync pa then (s.post ⟨tileAt d 0 0, 12, 0, 0⟩ l.ctx (.decmp (l.cw / 256 * 256)) false false true l.lseq 0 0).mendSync pa
      else s.syncWrite pa 64 (max (s.syncRead pa 64) l.lseq)

/-- A launch completes, in the order of R257: result, cseq, cw, the successors, the next snapshot. -/
def completeLaunch (s : State) (d : Nat) (l : Launch) : State :=
  let mine := fun (k : Task) => k.ctx == l.ctx && k.lseq == l.lseq
  let keep := fun (h : Nat) => match s.task? h with | some k => !mine k | none => true
  let clear := fun (D : Die) => { D with
    queues := D.queues.map fun q => q.filter keep
    reserve := D.reserve.map fun q => q.filter fun x => keep x.1 }
  let s := { s with
    launches := s.launches.filter fun x => x.key != l.key
    tasks := s.tasks.filter fun k => !mine k.2
    dies := s.dies.map clear }
  let s := (s.setRecField l.ctx l.idx 11 0 8 l.result).setRecField l.ctx l.idx 12 0 64 l.lseq
  let s := s.launchCw d l
  let s := l.succs.foldl (fun s j => s.decrementRecord d l.ctx j) s
  let s := s.setRecField l.ctx l.idx 11 8 8 0
  match s.current l.ctx l.idx with
  | none => s
  | some n => (s.setRecField l.ctx l.idx 11 24 2 (s.recField l.ctx l.idx 11 24 2 - 1)).startRecord n

end State

end Sys2Proof.Machine
end

