-- ==== Sys2Proof/Machine/Fences.lean ====
section
/-! DEFINITION. Fencing of tiles, vaults, HBM channels, lattice ports and dies (R71, R418, R419), and REPLACE (R420). -/

namespace Sys2Proof.Machine

namespace State

/-- REPLACE is raised with a reason of Table 4 (R420), the highest of one clk (R421), and the host die receives an interrupt. -/
def replacePart (s : State) (reason : Nat) : State :=
  let why : BitVec 8 := BitVec.ofNat 8 reason
  { s with
    fleet := { s.fleet with
      repl := true
      rlast := if s.fleet.rlastAt = s.time ∧ why.toNat < s.fleet.rlast.toNat then s.fleet.rlast else why
      rlastAt := s.time
      rfirst := if s.fleet.rfirst = 0 then why else s.fleet.rfirst }
    host := { s.host with irqs := s.host.irqs + 1 } }

/-- Both HBM stacks of a die are unusable: no channel of either is left. -/
def memoryLost (s : State) (d : Nat) : Bool := (s.die d).hbmF == BitVec.allOnes 64

/-- A die leaves LIVE (R419): speculative tasks are aborted, irrevocable ones end, or are killed where its memory is unusable, and what
waits moves. A die that has left loses its irrevocable tasks when its memory becomes unusable later. -/
def fenceDie (s : State) (d : Nat) : State :=
  if (s.die d).failed && !s.memoryLost d then s
  else
    let s := if (s.die d).failed then s
      else
        let s := (s.onDie d fun D => { D with failed := true }).replacePart 7
        { s with boot := { s.boot with live := s.boot.live &&& ~~~(1#4 <<< d) } }
    let s := (s.regions.filter fun q => q.2.die == d && q.2.drain.isNone).foldl (fun s q =>
      if !s.irrevocable q.2 then s.drain q.1 .dieFence else if s.memoryLost d then s.drain q.1 .kill else s) s
    s.evacuate d

/-- Tiles of a die that are fenced. -/
def fencedTiles (s : State) (d : Nat) : Nat := (s.tiles.filter fun q => dieOf q.1 == d && q.2.fenced).length

/-- A tile is marked as fenced, for a reason of Table 4 (R420). -/
def markTile (s : State) (t reason : Nat) : State := if (s.tile t).fenced then s else (s.onTile t fun T => { T with fenced := true }).replacePart reason

/-- The region on a fenced tile (R71): a speculative task is aborted and re-enqueued whole, an irrevocable one is to be saved and restored
elsewhere. -/
def leaveTile (s : State) (t : Nat) : State :=
  match s.regionOf t with
  | some (r, g) =>
    if g.drain.isSome then s
    else if s.irrevocable g then s.setRegion r { g with
      frozen := true
      stopWave := true
      moving := true }
    else s.drain r .abort
  | none => s

/-- A die with more than 144 fenced tiles is fenced (R418). -/
def thinDie (s : State) (d : Nat) : State := if 144 < s.fencedTiles d then s.fenceDie d else s

/-- A tile is fenced (R71, R418), and its region leaves it. -/
def fenceTile (s : State) (t : Nat) : State :=
  if (s.tile t).fenced then s
  else ((s.markTile t 4).leaveTile t).thinDie (dieOf t)

/-- The tiles under a vault (R66). -/
def vaultTiles (v : Nat) : List Nat :=
  (List.range 3).flatMap fun y => (List.range 3).map fun x => tileAt (v / 64) (v % 64 / 8 * 3 + y) (v % 8 * 3 + x)

/-- A vault is fenced (R418): its tiles with it, and the partitions homed there are broken; a WAIT
armed on a word of it returns BADWORD (R421). -/
def fenceVault (s : State) (v : Nat) : State :=
  if s.vaultFenced v then s
  else
    let s := (s.onDie (v / 64) fun D => { D with vaultF := D.vaultF ||| (1#64 <<< (v % 64)) }).replacePart 5
    let mark := fun (d : Nat) (tr : Tree) => { tr with
      parts := (List.range tr.parts.length).map fun p =>
        let q := tr.parts.getD p Part.empty
        if s.descVault d p = v then { q with broken := true } else q }
    let s := { s with trees := s.trees.map fun (q : Nat × Tree) => (q.1, mark q.1 q.2) }
    let lost := fun (a : Armed) => inVault a.pa && homeVault a.pa == v
    let s := (s.armed.filter lost).foldl (fun (s : State) (a : Armed) => s.finish a.t a.op 2) { s with armed := s.armed.filter fun a => !lost a }
    (vaultTiles v).foldl fenceTile s

/-- An HBM channel is marked as fenced, by stack 0 to 7 and channel, for a reason of Table 4 (R420). -/
def markChannel (s : State) (stack ch reason : Nat) : State :=
  if s.channelFenced (stack * 2 ^ 36 + ch * 2 ^ 31) then s
  else (s.onDie (stack / 2) fun D => { D with hbmF := D.hbmF ||| (1#64 <<< (32 * (stack % 2) + ch)) }).replacePart reason

/-- An HBM channel is fenced (R418). -/
def fenceChannel (s : State) (stack ch : Nat) : State :=
  let s := s.markChannel stack ch 6
  if s.memoryLost (stack / 2) then s.fenceDie (stack / 2) else s

/-- The granules that a die has accessed. -/
def granules (s : State) (d : Nat) : List Nat := (s.die d).access.map Prod.fst ++ (s.die d).vaulted

/-- The hints that precede the fencing of a channel or vault for corrected errors: one for each of its granules that has been accessed
(R418), by the lowest die that has, to every active context. -/
def rangeHints (s : State) (base size : Nat) : State :=
  let lies := fun (g : Nat) => base ≤ g * 65536 && g * 65536 < base + size
  let gs := (List.range 4).flatMap fun d => ((s.granules d).filter fun g =>
    lies g && !(List.range d).any fun x => (s.granules x).contains g).map fun g => (d, g)
  let cs := (List.range 4).filter fun c => (s.ctx c).state == 1
  gs.foldl (fun s q => cs.foldl (fun s c =>
    (s.postDie q.1 c ⟨0x20, 0, q.1 * 2 ^ 62 + (s.die q.1).migr * 2 ^ 56 + q.2⟩ false true 0 0).count q.1 .migrationHint) s) s

/-- The dimension and the direction in which a flit travels that is in the receive buffer of a port, or, 16 more, that was sent on it and
is to be sent again; none for one of the package's own. -/
def travels (q : Nat) : Option (Nat × Bool) :=
  if q = ownPort then none else some (if q < 16 then ((portDir q).1, !(portDir q).2) else portDir (q - 16))

/-- The way on of a flit: in X, then Y, then Z; it enters a dimension in class 0 and changes to class 1 at the wraparound link. None
when its package cannot be reached (R410). Only user channels have classes. -/
def route (s : State) (f : Flit) (came : Option (Nat × Bool)) : Option (Nat × Bool × Flit) :=
  match s.nextHop f.dest.toNat came with
  | none => none
  | some (dim, plus) =>
    let c := s.coordsOf s.fleet.pkg.toNat
    let n := s.torus.getD dim 1
    let edge := c.getD dim 0 == (if plus then n - 1 else 0)
    let cls : BitVec 1 := if edge then 1 else if f.dim.toNat = dim then f.cls else 0
    some (dim, plus, { f with
      dim := BitVec.ofNat 2 dim
      cls := if f.ctx = 4 then f.cls else cls })

/-- The class of a flit within its channel; channel 4 has one. -/
def flitClass (f : Flit) : Nat := if f.ctx = 4 then 0 else f.cls.toNat
/-- The buffer of a port that a flit takes, as a key: by port, channel and dateline class; and what it holds (R411). -/
def creditKey (p : Nat) (f : Flit) : Nat := 16 * p + 2 * f.ctx.toNat + flitClass f
def flitRoom (f : Flit) : Nat := if f.ctx = 4 then 64 else 256

/-- The working ports of a direction that hold a credit for a flit (R411). -/
def creditPorts (s : State) (dim : Nat) (plus : Bool) (f : Flit) : List Nat :=
  (s.working dim plus).filter fun p => decide ((tabGet (creditKey p f) s.fleet.used).getD 0 < flitRoom f)

/-- A flit is sent on, spread over the working ports of its direction (R410), with a credit of its channel and class (R411); none while
no port holds one. One whose package cannot be reached goes no further. -/
def sendFlit (s : State) (f₀ : Flit) (came : Option (Nat × Bool)) : Option State :=
  match s.route f₀ came with
  | none => some s
  | some (dim, plus, f) =>
    match s.creditPorts dim plus f with
    | [] => none
    | p :: ps =>
      let p := (p :: ps).getD (s.fleet.tx.length % (ps.length + 1)) p
      let k := creditKey p f
      some (State.count { s with fleet := { s.fleet with
        tx := s.fleet.tx ++ [(p, f, f₀)]
        used := tabSet k ((tabGet k s.fleet.used).getD 0 + 1) s.fleet.used } } 0 (.flitSent (2 * f.ctx.toNat + flitClass f)))

/-- A lattice port is fenced (R418); flits sent on it that have not been acknowledged wait to be sent again, in order (R421), as they came: in
the class that they had before the link, which they have not crossed (R410). -/
def fencePort (s : State) (p : Nat) : State :=
  if s.fleet.lst.getD p 0 = 3 then s
  else
    let again := (s.fleet.tx.filter fun q => q.1 == p).map fun q => (16 + p, q.2.2)
    State.replacePart { s with fleet := { s.fleet with
      lst := s.fleet.lst.set p 3
      tx := s.fleet.tx.filter fun q => q.1 != p
      rx := again ++ s.fleet.rx
      used := s.fleet.used.filter fun (q : Nat × Nat) => q.1 / 16 != p } } 8

/-- The package refuses another package's access: to its tag store, or to the pool of an ACTIVE context. Its control block has no address
that such an access can name (R412). -/
def refusesHere (s : State) (a : Nat) : Bool :=
  !(inHbm a || inVault a) || inTagStore a || s.ctxs.any fun c => c.state == 1 && overlaps a 8 c.pool (2 ^ 20)

/-- A group of arrivals of other packages comes over the lattice (R416): up the tree, it joins what this package, a node of the tree or its
root, holds of the same context, word and N; from the root, it is applied at its word as one step (R240). -/
def takeGroup (s : State) (c a k n : Nat) (up : Bool) : State :=
  if up then s.enterNode 5 5 ⟨c, a, 0, none, 0, 0, .arrive n k [], 5⟩
  else if s.badSync a then s.mendSync a else s.syncWrite a 64 (arriveWord (s.syncRead a 64) k n)

/-- What a flit of a channel for this package asks here: nothing that changes a word, a store, an ATOM on a SYNC word, arrivals that other
packages have combined, or a store to a presence word, performed at its home (R276, R278). Which of them, where and with what
value the spec's flits do not lay out: free values (log entry 53). -/
def serve (s : State) (c : Nat) : State :=
  let (x, s) := s.draw
  let (v, s) := s.draw
  let a := 8 * (x.toNat / 4 % 2 ^ 38)
  let written := (s.physWrite (s.inCode a || (inHbm a && s.tagOf a != 0)) (cellsAt a (bytesOf 8 v.toNat))).getD s
  let k := v.toNat % 2 ^ 32
  let n := v.toNat / 2 ^ 32 % (2 ^ 32 - 1) + 1
  if x.toNat % 8 = 4 then s.takeGroup c (s.localOf (remoteBase + x.toNat / 8 % 2 ^ 11 * 2 ^ 42 + 8 * (x.toNat / 2 ^ 19 % 2 ^ 38))) k n true
  else if s.refusesHere a then s
  else match x.toNat % 4 with
    | 1 => written
    | 2 => if s.badSync a then s.mendSync a else if x.toNat / 2 ^ 40 % 2 = 0 then s.syncWrite a 64 v.toNat else s.takeGroup c a k n false
    | 3 => if s.pres.contains (a / 8) then s else State.wakeDeferred { written with pres := setInsert (a / 8) written.pres }
    | _ => s

/-- The buffers of the lattice ports in a clk: acknowledged flits leave, credits come back, flits for this package are taken in, and the
others go on as they find credits, in order within a channel and class (R410, R411). -/
def lattice (s : State) : State :=
  let F := s.fleet
  let acked := (List.range 16).filter fun p => F.tx.any (fun q => q.1 == p) && Config.acknowledged p s.time
  let tx := acked.foldl (fun tx p => match tx.find? fun (q : Nat × Flit × Flit) => q.1 == p with | some q => tx.erase q | none => tx) F.tx
  let used := F.used.map fun (q : Nat × Nat) => (q.1, if Config.credited q.1 s.time then q.2 - 1 else q.2)
  let s := { s with fleet := { F with
    tx := tx
    used := used
    rx := [] } }
  F.rx.foldl (fun (s : State) q =>
    let keep := fun (s : State) => { s with fleet := { s.fleet with rx := s.fleet.rx ++ [q] } }
    let behind := s.fleet.rx.any fun x => x.1 == q.1 && creditKey 0 x.2 == creditKey 0 q.2
    if q.2.dest = s.fleet.pkg then s.serve q.2.ctx.toNat
    else if behind then keep s
    else match s.sendFlit q.2 (travels q.1) with
      | some s => s
      | none => (keep s).count 0 .creditStall) s

end State

/-- TILE_FENCE (R418). -/
def execTileFence (t : Nat) (s : State) : Host.Outcome State Fault Refusal := .next (s.fenceTile t)
/-- VAULT_FENCE (R418). -/
def execVaultFence (v : Nat) (s : State) : Host.Outcome State Fault Refusal := .next (s.fenceVault v)
/-- HBM_CHANNEL_FENCE (R418). -/
def execHbmChannelFence (stack ch : Nat) (s : State) : Host.Outcome State Fault Refusal := .next (s.fenceChannel stack ch)
/-- DIE_FENCE (R419). -/
def execDieFence (d : Nat) (s : State) : Host.Outcome State Fault Refusal := .next (s.fenceDie d)
/-- PORT_FENCE (R418). -/
def execPortFence (p : Nat) (s : State) : Host.Outcome State Fault Refusal := .next (s.fencePort p)

end Sys2Proof.Machine
end

