-- ==== Sys2Proof/Machine/Frames.lean ====
section
/-! DEFINITION. The frame list of a variant and the checks that its tiles make (R48 to R59, R64): the address words, the CE
header and program, the stream-unit, address-generator and switch frames. -/

namespace Sys2Proof.Machine

/-- A failure of a load (R64): the entry it names, 0xFFFF for none; the word; the reason code of Table 7. -/
structure Finding where
  frame  : Nat
  word   : Nat
  reason : Nat
  deriving DecidableEq, Repr

namespace Cfg

/-- The reason codes of Table 7 of R64. -/
def opc : Nat := 0
def rsvf : Nat := 1
def reg : Nat := 2
def fmt : Nat := 3
def addr : Nat := 4
def dup : Nat := 5
def missing : Nat := 6
def rank : Nat := 7
def loop : Nat := 8
def join : Nat := 9
def unconf : Nat := 10
def gap : Nat := 11
def sig : Nat := 12
def shape : Nat := 13
def hdr : Nat := 14
def arg : Nat := 15
def quad : Nat := 16

/-- The failure that is reported (R64): lowest entry, then word, then reason. -/
def first : List Finding → Option Finding
  | [] => none
  | f :: fs =>
    match first fs with
    | none => some f
    | some g => if State.before [g.frame, g.word, g.reason] [f.frame, f.word, f.reason] then some g else some f

/-- A finding where a condition holds. -/
def flag (c : Bool) (frame word reason : Nat) : List Finding := if c then [⟨frame, word, reason⟩] else []

end Cfg

/-! ### Entries (R48 to R51) -/

/-- A frame entry, with its place in the list. -/
structure Entry where
  num    : Nat
  rank   : Nat
  dx     : Nat
  dy     : Nat
  unit   : Nat
  layout : Nat
  idx    : Nat
  aw     : Nat
  ah     : Nat
  body   : List Word
  deriving DecidableEq, Repr

/-- An entry from its address word and its body (Table 3 of R49). -/
def entryOf (num : Nat) (ws : List Word) : Entry :=
  let a := word ws 0
  ⟨num, bits a 48 16, bits a 40 8, bits a 32 8, bits a 28 4, bits a 24 4, bits a 16 8, bits a 8 8, bits a 0 8, (ws.drop 1).take 4⟩

namespace Entry

/-- The frame indices of a unit and a layout (Table 4 of R50). -/
def indices (e : Entry) : Nat :=
  match e.unit, e.layout with
  | 0, 0 => 1 | 0, 1 => 8 | 0, 2 => 1 | 7, 4 => 4 | 8, 3 => 8
  | u, 2 => if u ≤ 6 then 1 else 0
  | _, _ => 0
/-- The entry lies in Table 4 and in the variant's shape (R49, R50). -/
def placed (e : Entry) (v : Variant) : Bool := e.idx < e.indices && 1 ≤ e.aw && 1 ≤ e.ah && e.dx + e.aw ≤ v.w && e.dy + e.ah ≤ v.h
/-- The frame of a bank that the entry is (see `Bank`). -/
def slot (e : Entry) : Nat :=
  match e.unit with
  | 0 => if e.layout = 1 then 1 + e.idx else 0
  | 7 => 15 + e.idx
  | 8 => 19 + e.idx
  | u => 8 + u
def isXf (e : Entry) : Bool := e.unit == 0 && e.layout == 2
def covers (e : Entry) (x y : Nat) : Bool := e.dx ≤ x && x < e.dx + e.aw && e.dy ≤ y && y < e.dy + e.ah
/-- Two entries write some tile in common. -/
def meets (a b : Entry) : Bool := a.dx < b.dx + b.aw && b.dx < a.dx + a.aw && a.dy < b.dy + b.ah && b.dy < a.dy + a.ah
def sameRect (a b : Entry) : Bool := a.dx == b.dx && a.dy == b.dy && a.aw == b.aw && a.ah == b.ah
def w (e : Entry) (i : Nat) : Nat := word e.body i

end Entry

/-- The entries of a list that are placed. -/
def placedEntries (v : Variant) (es : List (List Word)) : List Entry :=
  ((List.range es.length).map fun i => entryOf i (es.getD i [])).filter fun e => e.placed v
/-- The first entry that writes a frame of a tile. -/
def entryAt (es : List Entry) (x y slot : Nat) : Option Entry := es.find? fun e => e.covers x y && e.slot == slot

/-! ### The CE header (R52, R423) -/

/-- The fields of a CE header frame. -/
structure CeHeader where
  inen  : Nat
  outen : Nat
  nprog : Nat
  nslot : Nat
  join  : Nat
  selin : Nat
  deriving DecidableEq, Repr

def ceHeader (e : Entry) : CeHeader :=
  let w := e.w 0
  ⟨bits w 60 4, bits w 56 4, bits w 52 4, bits w 48 4, bits w 46 2, bits w 44 2⟩

/-- The checks of Table 5 that need no other frame. -/
def headerFindings (e : Entry) : List Finding :=
  let h := ceHeader e
  let flag := fun c w r => Cfg.flag c e.num w r
  flag (bits (e.w 0) 40 4 != 0 || bits (e.w 0) 0 31 != 0) 0 Cfg.rsvf
    ++ flag (!(1 ≤ h.nprog && h.nprog ≤ 8) || 8 < h.nslot || 4 * h.nprog ≤ bits (e.w 0) 32 8
        || (if h.join = 3 then !bit h.inen h.selin else h.selin != 0)) 0 Cfg.fmt
    ++ flag (h.join == 3 && h.nslot == 0) 0 Cfg.join
    ++ flag (bits (e.w 1) 0 32 != 0) 1 Cfg.rsvf
    ++ flag (512 < bits (e.w 1) 32 16 + bits (e.w 1) 48 16) 1 Cfg.fmt
    ++ flag (bits (e.w 2) 0 58 != 0) 2 Cfg.rsvf
    ++ flag (bits (e.w 2) 62 2 = 3 || bits (e.w 2) 60 2 = 3 || bits (e.w 2) 58 2 = 3) 2 Cfg.fmt
    ++ flag (e.w 3 != 0) 3 Cfg.rsvf

/-! ### Program words (R54, R74, R83, R148) -/

/-- A register specifier names a slot that the header does not give. -/
def slotBad (nslot : Nat) (r : BitVec 6) : Bool := Spec.isB r && nslot ≤ r.toNat - 48

/-- What the header decides of an instruction: the slots it names (REG), and its ports and slot set (FMT). -/
def headerFlaws (h : CeHeader) (w : Word) (i : Instr) : Flaws :=
  let slots := fun (rs : List (BitVec 6)) => rs.any (slotBad h.nslot)
  match opOf w with
  | 0x00 | 0x04 | 0x05 | 0x06 => let f := fieldsI w; { reg := slots [f.dst, f.sa] }
  | 0x30 => let f := fieldsM w; { reg := slots [f.reg, f.base] }
  | 0x20 =>
    let f := fieldsC w
    { reg := slots [f.sa] || (match i with | .newb f => 16 < f.sa.toNat - 32 + h.nslot | _ => false)
      fmt := (f.pin.toNat &&& (15 - h.inen)) != 0 || (f.pout.toNat &&& (15 - h.outen)) != 0 || f.smask.toNat / 2 ^ h.nslot != 0 }
  | 0x40 | 0x41 =>
    let f := fieldsX w
    match i with
    | .quant _ | .deq _ => { reg := slots [f.sa, f.sb] }      -- sc is a rounding code (R229)
    | _ => { reg := slots [f.sa, f.sb, f.sc] }
  | 0x38 | 0x39 => let f := fieldsY w; { reg := slots [f.dst, f.sa, f.sb, f.sc] }
  | _ => let f := fieldsA w; { reg := slots [f.dst, f.sa, f.sb, f.sc] }

def rejectCode : Reject → Nat
  | .opc => Cfg.opc | .rsvf => Cfg.rsvf | .reg => Cfg.reg | .fmt => Cfg.fmt

/-- The reason a program word is refused under a header, if its tile has one (R64: the lowest code). -/
def wordReason (h : Option CeHeader) (w : Word) : Option Nat :=
  match cellOf (opOf w) (fnOf w) w with
  | some i =>
    let own := match h with | some h => headerFlaws h w i | none => {}
    (((wordFlaws (opOf w) (fnOf w) w).or i.flaws).or own).reason.map rejectCode
  | none => some (if streamCell (opOf w) (fnOf w) then Cfg.fmt else Cfg.opc)

/-- The words of a program frame under a header, if its tile has one: every tile checks every word it receives (R59). -/
def wordsFindings (h : Option CeHeader) (e : Entry) : List Finding :=
  (List.range 4).flatMap fun j => match wordReason h (e.body.getD j 0) with | some r => [⟨e.num, j, r⟩] | none => []

/-- The tiles that an entry addresses, by column and row. -/
def Entry.places (e : Entry) : List (Nat × Nat) :=
  (List.range e.ah).flatMap fun y => (List.range e.aw).map fun x => (e.dx + x, e.dy + y)

/-- A program frame at the tiles it addresses (R54, R59): its words, under the header of each, and a header that is not there. A tile
that is a transform node has a conflict instead (R55). DESIGN CHOICE: the MISSING names the program entry, no single word (log
entry 54). -/
def programFindings (es : List Entry) (e : Entry) : List Finding :=
  e.places.flatMap fun p =>
    match entryAt es p.1 p.2 0 with
    | some h => if h.isXf then wordsFindings none e else wordsFindings (some (ceHeader h)) e
    | none => wordsFindings none e ++ [⟨e.num, 7, Cfg.missing⟩]

/-- The instructions of a node program, with their entries and words. -/
def nodeProgram (es : List Entry) (x y : Nat) : List (Nat × Nat × Instr) :=
  (List.range 8).flatMap fun f =>
    match entryAt es x y (1 + f) with
    | some e => (List.range 4).filterMap fun j =>
        let w := e.body.getD j 0
        (cellOf (opOf w) (fnOf w) w).map fun i => (e.num, j, i)
    | none => []

/-- The inputs that a MERGE or an ACCEPT of a program names (R148). -/
def sideOf (prog : List (Nat × Nat × Instr)) : Nat :=
  prog.foldl (fun m q => match q.2.2 with | .merge f => m ||| f.pin.toNat | .accept f => m ||| f.pin.toNat | _ => m) 0
/-- The join inputs of a header with a program (R52). -/
def joinsOf (h : CeHeader) (prog : List (Nat × Nat × Instr)) : List Nat :=
  let side := sideOf prog
  (List.range 4).filter fun k => bit h.inen k && !bit side k

/-! ### Stream-unit and address-generator words (R55, R57, R86, R170 to R191) -/

/-- A value width in bytes of a level writer (R183); none for a type it does not accept. -/
def lwrWidth (vty : Nat) : Option Nat :=
  match vty with | 0 | 4 => some 1 | 1 | 5 | 8 | 9 => some 2 | 2 | 6 | 10 => some 4 | _ => none

/-- What is wrong with a main word of a unit, and the alignments of the extension words it calls for. A field that the word's form does not
use is reserved, as in every word (R79): RSVF. R164 names FMT for pgsz of SCN.D, SCN.T and LWR.T, and R191 for the fields of XF that its
function does not use (log entry 54). -/
def unitWordFlaws (op fn w : Nat) : Flaws × List Nat :=
  let extent := fun (n : Nat) => 1 ≤ n && n ≤ 0xFFFFFFFE
  match op with
  | 0x80 =>
    let n := bits w 0 32
    let nm := bits w 36 4
    let nml := fn == 1 && nm != 0
    ({ rsvf := bits w 41 4 != 0 || (bit w 45 && fn != 4) || (bit w 40 && !nml) || (nm != 0 && fn != 1)
        || (bits w 32 4 != 0 && fn != 4) || (n != 0 && !(fn == 0 || fn == 2 || nml))
       fmt := ((fn == 0 || fn == 4) && bits w 48 2 != 0) || (fn == 1 && 8 < nm) || (fn == 4 && 3 < bits w 32 4) || ((fn == 0 || fn == 2) && !extent n) || (nml && n == 0) },
     match fn with | 0 => [] | 1 => if nml then [8] else [4, 4] | 2 => [8, 8] | 3 => [8, 4] | _ => [256])
  | 0x81 => ({ rsvf := bits w 0 47 != 0, fmt := fn == 1 && bits w 47 2 != 0 }, [])
  | 0x82 => ({ rsvf := bits w 0 50 != 0 }, [])
  | 0x83 =>
    let rop := bits w 46 4
    let ty := bits w 41 5
    let rm := bits w 38 3
    let rounds := ty == 10 && rop == 0
    ({ rsvf := bits w 0 36 != 0 || (!rounds && rm != 0) || (bit w 37 && (ty == 10 || rop != 0))
       fmt := 6 < rop || !(ty == 2 || ty == 6 || ty == 10) || (ty == 10 && 2 < rop) || (rop == 6 && ty != 6) || (rounds && 3 < rm) }, [])
  | 0x84 =>
    let vw := bit w 46
    let vty := bits w 38 5
    let n := bits w 0 32
    let val := if vw then [(lwrWidth vty).getD 1] else []
    let typed := vw && fn != 3
    let whole := fn == 0 || fn == 3
    ({ rsvf := bits w 32 6 != 0 || (bit w 43 && fn != 0) || (whole && (bit w 47 || bit w 44)) || (bit w 44 && !vw)
        || (!typed && vty != 0) || (n != 0 && !(fn == 0 || fn == 2))
       fmt := (fn == 3 && bits w 48 2 != 0) || (whole && !vw) || (typed && (lwrWidth vty).isNone) || ((fn == 0 || fn == 2) && !extent n) },
     match fn with | 0 => val | 1 => [4, 4] ++ val | 2 => [8, 8] ++ val | _ => [256])
  | 0x85 =>
    let mode := bits w 46 2
    if fn = 1 then ({ rsvf := bits w 48 2 != 0 || bits w 0 46 != 0, fmt := 1 < mode }, [64])
    else
      let by_ref := mode == 2
      ({ rsvf := bits w 16 21 != 0 || (fn == 2 && (bits w 42 2 != 0 || bits w 37 3 != 0)) || (fn == 0 && bit w 37 && !by_ref)
          || (by_ref && (bit w 42 || bits w 40 2 != 0 || bits w 0 16 != 0))
         fmt := (if fn = 2 then mode == 1 || mode == 3 else mode == 3 || bits w 38 2 = 3) || bits w 44 2 = 3 },
       if by_ref then [1] else [1, 1, 1])
  | _ =>
    let func := bits w 46 4
    let f := bits w 41 5
    let imm := bits w 0 32
    ({ rsvf := bits w 32 5 != 0
       fmt := 3 < func || (if func = 1 then !(f == 8 || (15 ≤ f && f ≤ 22)) else f != 0)
        || (if func = 1 then 5 else if func = 2 then 3 else 0) < bits w 38 3 || (bit w 37 && func != 2)
        || (if func = 3 then imm == 0 else func != 2 && imm != 0) }, [])

/-- The op of a unit's own words (R55, R57). -/
def unitOp (u : Nat) : Nat := match u with | 0 => 0x87 | 1 | 2 => 0x80 | 3 => 0x81 | 4 => 0x82 | 5 => 0x83 | 6 => 0x84 | _ => 0x85

/-- The reason for a word that has no place in a frame: FMT for an assigned one, OPC for another (R55, R89). -/
def strayReason (w : Nat) : Nat :=
  let x := BitVec.ofNat 64 w
  if streamCell (opOf x) (fnOf x) || (cellOf (opOf x) (fnOf x) x).isSome then Cfg.fmt else Cfg.opc

/-- The count and stride fields of the levels that an affine word does not use (R186). -/
def affineFindings (e : Entry) : List Finding :=
  let nlv := bits (e.w 0) 40 2
  Cfg.flag ((List.range 4).any fun j => nlv < j && bits (e.w 2) (14 * j) 14 != 0) e.num 2 Cfg.rsvf
    ++ Cfg.flag (((List.range 4).any fun j => nlv < j && bits (e.w 3) (18 * (j - 1)) 18 != 0) || bits (e.w 3) 54 2 != 0) e.num 3 Cfg.rsvf

/-- What a main word of a unit breaks at a place of its frame (R55, R79, R86). -/
def mainReason (e : Entry) (i : Nat) : Option Nat :=
  let w := e.w i
  let op := bits w 56 8
  let fn := bits w 50 6
  if op != unitOp e.unit || !streamCell op fn then some (strayReason w)
  else
    let (fl, al) := unitWordFlaws op fn w
    let short := 3 < i + al.length || (List.range al.length).any fun k => bits (e.w (i + 1 + k)) 56 8 != 0xFE
    (fl.or { fmt := short }).reason.map rejectCode

/-- The checks of a stream-unit or address-generator frame. The first word after a zero word is refused for its place and for what it is. -/
def unitFindings (e : Entry) : List Finding :=
  let w := e.w 0
  let op := bits w 56 8
  let fn := bits w 50 6
  if w = 0 then [⟨e.num, 0, Cfg.missing⟩]
  else if op != unitOp e.unit || !streamCell op fn then [⟨e.num, 0, strayReason w⟩]
  else
    let (fl, al) := unitWordFlaws op fn w
    let isExt := fun (i : Nat) => bits (e.w i) 56 8 = 0xFE
    let zero := (List.range 4).find? fun i => e.w i = 0
    let short := 3 < al.length || (List.range al.length).any fun i => !isExt (i + 1)
    (match (fl.or { fmt := short }).reason with | some r => [⟨e.num, 0, rejectCode r⟩] | none => [])
      ++ ((List.range al.length).flatMap fun i => Cfg.flag (isExt (i + 1) && bits (e.w (i + 1)) 0 56 % al.getD i 1 != 0) e.num (i + 1) Cfg.fmt)
      ++ ((List.range 4).flatMap fun i =>
        if i ≤ al.length || e.w i = 0 then []
        else if zero.any (· < i) then ⟨e.num, i, Cfg.gap⟩ :: ((mainReason e i).toList.map fun r => ⟨e.num, i, r⟩)
        else [⟨e.num, i, strayReason (e.w i)⟩])
      ++ (if op = 0x85 && fn != 1 && bits w 46 2 != 2 && !short then affineFindings e else [])

/-! ### Switch frames (R56, R165 to R167) -/

/-- The reasons to refuse a switch word. A back edge with loop identifier 0 is left to the verification pass (R60). -/
def switchReasons (w : Nat) : List Nat :=
  let fn := bits w 50 6
  if bits w 56 8 != 0x86 || 2 < fn then [strayReason w]
  else match fn with
    | 0 =>
      let back := bit w 31
      (if bits w 0 18 != 0 || (!back && bits w 19 8 != 0) then [Cfg.rsvf] else []) ++ (if 8 < bits w 32 4 then [Cfg.fmt] else [])
        ++ (if back && bits w 19 8 = 0 then [Cfg.loop] else [])
    | 1 => (if bits w 0 14 != 0 then [Cfg.rsvf] else []) ++ (if 8 < bits w 18 4 || bits w 29 7 = 0x7F then [Cfg.fmt] else [])
    | _ =>
      (if bits w 0 19 != 0 then [Cfg.rsvf] else []) ++ (if 8 < bits w 23 4 || bits w 27 2 = 3 then [Cfg.fmt] else [])
        ++ (if bits w 27 2 = 0 then [Cfg.join] else [])

def switchFindings (e : Entry) : List Finding :=
  let zero := (List.range 4).find? fun i => e.w i = 0
  Cfg.flag (e.w 0 = 0) e.num 0 Cfg.missing
    ++ ((List.range 4).flatMap fun i =>
      if e.w i = 0 then []
      else (Cfg.flag (zero.any (· < i)) e.num i Cfg.gap) ++ (switchReasons (e.w i)).map fun r => ⟨e.num, i, r⟩)

/-! ### The checks of R59 -/

/-- An entry repeats a frame of an earlier one, or conflicts with the kind of its CE (R55, R59). -/
def dupFindings (es : List Entry) : List Finding :=
  es.flatMap fun e => Cfg.flag (es.any fun a => a.num < e.num && a.meets e && a.unit == e.unit
    && ((a.layout == e.layout && a.idx == e.idx) || (e.unit == 0 && a.isXf != e.isXf))) e.num 4 Cfg.dup

/-- The checks of a header with the program frames of its tiles (R51, R52, R59): those of an array node cover exactly its rectangle, and
one frame may serve several single nodes. DESIGN CHOICE: a MISSING for want of program frames names the header's entry, no single
word (log entry 54). -/
def arrayFindings (es : List Entry) (e : Entry) : List Finding :=
  let h := ceHeader e
  let ps := es.filter fun p => p.unit == 0 && p.layout == 1 && p.meets e
  let prog := nodeProgram es e.dx e.dy
  let n := (joinsOf h prog).length
  let single := e.aw == 1 && e.ah == 1
  let whole := (List.range h.nprog).all fun f => e.places.all fun q => ps.any fun p => p.idx == f && p.covers q.1 q.2
  (ps.flatMap fun p => Cfg.flag (h.nprog ≤ p.idx || (!single && !p.sameRect e)) p.num 4 Cfg.addr)
    ++ Cfg.flag (!whole) e.num 7 Cfg.missing
    ++ Cfg.flag (whole && (if h.join = 0 then 1 < n else n ≤ 1)) e.num 0 Cfg.fmt

/-- The argument unit (R45, R59, R353). -/
def argumentFindings (v : Variant) (es : List Entry) : List Finding :=
  if v.argunit = 0 then
    match entryAt es v.argdx v.argdy 0 with
    | none => [⟨0xFFFF, 5, Cfg.missing⟩]
    | some e => Cfg.flag (e.isXf || (ceHeader e).nslot != 1 || !bit (ceHeader e).inen v.argport) 0xFFFF 5 Cfg.arg
  else
    match entryAt es v.argdx v.argdy (15 + v.argport) with
    | none => [⟨0xFFFF, 5, Cfg.missing⟩]
    | some e => Cfg.flag (!(bits (e.w 0) 46 2 = 1 || bits (e.w 0) 46 2 = 2)) 0xFFFF 5 Cfg.arg

/-- Everything that the checks of R59 find in a frame list. The body words of an entry whose address is refused are not checked: DEDUCED, as
it configures no unit whose words they would be (log entry 65). -/
def frameFindings (v : Variant) (list : List (List Word)) : List Finding :=
  let es := placedEntries v list
  ((List.range list.length).flatMap fun i => Cfg.flag (!(entryOf i (list.getD i [])).placed v) i 4 Cfg.addr)
    ++ dupFindings es
    ++ (es.flatMap fun e =>
      match e.unit, e.layout with
      | 0, 0 => headerFindings e ++ arrayFindings es e
      | 0, 1 => programFindings es e
      | 8, _ => switchFindings e
      | _, _ => unitFindings e)
    ++ argumentFindings v es

end Sys2Proof.Machine
end

