-- ==== Sys2Proof/Machine/Verify.lean ====
section
/-! DEFINITION. The verification pass over the switch words of a region (R60, R146, R148, R159, R160, R168, R176, R423), and the
signature of a frame list (R61). -/

namespace Sys2Proof.Machine

/-- A switch word of a region, at its tile, with its entry and word. -/
structure SwWord where
  x     : Nat
  y     : Nat
  frame : Nat
  j     : Nat
  r     : Route
  deriving DecidableEq, Repr

/-- A path from a source port to a destination port: the words that carry it, in order (R60). -/
structure Path where
  sx  : Nat
  sy  : Nat
  src : Nat
  ws  : List SwWord
  deriving DecidableEq, Repr

namespace Cfg

/-- The switch words of a region, tile by tile. -/
def switchWords (v : Variant) (es : List Entry) : List SwWord :=
  (List.range v.h).flatMap fun y => (List.range v.w).flatMap fun x => (List.range 8).flatMap fun f =>
    match entryAt es x y (19 + f) with
    | some e => (List.range 4).filterMap fun j => (parseRoute (e.body.getD j 0)).map fun r => ⟨x, y, e.num, j, r⟩
    | none => []

/-- The tile beyond a link, inside the region. -/
def beyond (v : Variant) (x y c : Nat) : Option (Nat × Nat) :=
  match bits c 4 2 with
  | 0 => if y = 0 then none else some (x, y - 1)
  | 1 => if x + 1 < v.w then some (x + 1, y) else none
  | 2 => if y + 1 < v.h then some (x, y + 1) else none
  | _ => if x = 0 then none else some (x - 1, y)

/-- The word that feeds an incoming link of a tile. -/
def feeder (v : Variant) (ws : List SwWord) (x y c : Nat) : Option SwWord :=
  match beyond v x y c with
  | some p => ws.find? fun k => k.x == p.1 && k.y == p.2 && k.r.dsts.contains (linkTwin c)
  | none => none

/-- The paths that end with a word. -/
def pathsTo (v : Variant) (ws : List SwWord) : Nat → SwWord → List Path
  | 0, _ => []
  | n + 1, k => k.r.srcs.flatMap fun c =>
      if c < 64 then [⟨k.x, k.y, c, [k]⟩]
      else match feeder v ws k.x k.y c with
        | some k' => (pathsTo v ws n k').map fun p => { p with ws := p.ws ++ [k] }
        | none => []

/-- The word of a path that a failure of the path names: the lowest. -/
def lowest (p : Path) : Nat × Nat :=
  p.ws.foldl (fun m k => if State.before [k.frame, k.j] [m.1, m.2] then (k.frame, k.j) else m) (0xFFFF, 7)

/-- A local port of Table 1 of R160 that its unit's configuration uses. -/
def portUsed (es : List Entry) (x y c : Nat) (out : Bool) : Bool :=
  let u := c / 8
  let p := c % 8
  let main := fun (slot : Nat) => (entryAt es x y slot).map fun e => e.w 0
  match u with
  | 0 => match entryAt es x y 0 with
    | none => false
    | some e => if e.isXf then p == 0 else p < 4 && bit (if out then (ceHeader e).outen else (ceHeader e).inen) p
  | 1 | 2 => match main (8 + u) with
    | some w => if out then p < 2 || (p == 2 && bit w 45) else (p == 0 && !bit w 47) || (p == 1 && bit w 46)
    | none => false
  | 3 => match main 11 with
    | some w => if out then p < 3 || (p == 3 && bit w 48) || (p == 4 && bit w 47) else p < 4
    | none => false
  | 4 => (main 12).isSome && (if out then p == 0 else p < 2)
  | 5 => (main 13).isSome && p == 0
  | 6 => match main 14 with
    | some w => if out then p == 0 && bit w 45 else p == 0 || (p == 1 && bit w 46) || (p == 2 && bits w 50 6 == 3)
    | none => false
  | _ => match main (15 + if out then p else p / 2) with
    | some w =>
      let mode := bits w 46 2
      let wr := bits w 50 6 == 2
      if out then p < 4 && !wr else if p % 2 = 1 then wr else if wr then mode == 2 else mode == 1 || mode == 2
    | none => false

/-- The rank of the node that a local port belongs to; each stream port of an AG is a node of its own. A unit with no configuration has
none: a route that names its port is UNCONF (R60). -/
def rankOf (es : List Entry) (x y c : Nat) (out : Bool) : Option Nat :=
  let u := c / 8
  let slot := if u = 0 then 0 else if u = 7 then 15 + (if out then c % 8 else c % 8 / 2) else 8 + u
  (entryAt es x y slot).map Entry.rank

def isSkipOut (c : Nat) : Bool := c == 27 || c == 28
def isSkipIn (c : Nat) : Bool := c == 9 || c == 17
/-- A port that carries tokens only (R159): any port but those of a CE that runs a node program. -/
def tokenPort (es : List Entry) (x y c : Nat) : Bool := 8 ≤ c || (match entryAt es x y 0 with | some e => e.isXf | none => false)

/-- Every way to a word starts at a skip_out port. -/
def fromSkip (v : Variant) (ws : List SwWord) : Nat → SwWord → Bool
  | 0, _ => false
  | n + 1, k => k.r.srcs.all fun c =>
      if c < 64 then isSkipOut c else match feeder v ws k.x k.y c with | some k' => fromSkip v ws n k' | none => false

/-- The word that carries on from an outgoing link of a tile. -/
def follower (v : Variant) (ws : List SwWord) (x y c : Nat) : Option SwWord :=
  match beyond v x y c with
  | some p => ws.find? fun k => k.x == p.1 && k.y == p.2 && k.r.srcs.contains (linkTwin c)
  | none => none

/-- Every way from a word ends at a skip_in port. -/
def toSkip (v : Variant) (ws : List SwWord) : Nat → SwWord → Bool
  | 0, _ => false
  | n + 1, k => k.r.dsts.all fun c =>
      if c < 64 then isSkipIn c else match follower v ws k.x k.y c with | some k' => toSkip v ws n k' | none => false

/-- What a word breaks by itself, or beside the other words (R60, R159, R160, R168). -/
def wordFindings (v : Variant) (es : List Entry) (ws : List SwWord) (k : SwWord) : List Finding :=
  let earlier := ws.filter fun a => a.x == k.x && a.y == k.y && State.before [a.frame, a.j] [k.frame, k.j]
  let portBad := fun (out : Bool) (c : Nat) =>
    if c < 64 then !portUsed es k.x k.y c out
    else bits c 2 2 != 0 || (match beyond v k.x k.y c with
      | none => true
      | some p => !out && !(ws.any fun a => a.x == p.1 && a.y == p.2 && a.r.srcs.contains (linkTwin c)))
  let cap := ((ws.filter fun a => a.r.loop == k.r.loop && !a.r.bc).map fun a => 16 / (a.r.slot + 1)).sum
  let flag := fun c r => flag c k.frame k.j r
  flag (k.r.srcs.any (portBad true) || k.r.dsts.any (portBad false) || earlier.any fun a => a.r.srcs.any k.r.srcs.contains) unconf
    ++ flag (earlier.any fun a => a.r.dsts.any k.r.dsts.contains) join
    ++ flag (if k.r.bc then k.r.slot != 0 || k.r.back || k.r.loop != 0 || !(fromSkip v ws ws.length k && toSkip v ws ws.length k)
        else k.r.srcs.any isSkipOut || k.r.dsts.any isSkipIn) rank
    ++ flag (k.r.slot != 0 && (k.r.srcs ++ k.r.dsts).any fun c => c < 64 && tokenPort es k.x k.y c) fmt
    ++ flag (k.r.back && (k.r.loop == 0 || cap < k.r.limit)) loop

/-- What a path to a local port breaks (R60, R168). DESIGN CHOICE: an edge is a back edge when any word that carries it is flagged; its
unflagged words then raise no RANK, and a LOOP of the path names its lowest word, flagged or not (log entry 68). -/
def pathFindings (es : List Entry) (dst : Nat) (p : Path) : List Finding :=
  match p.ws.getLast? with
  | none => []
  | some k =>
    let (f, j) := lowest p
    let back := p.ws.any fun a => a.r.back
    let bc := p.ws.any fun a => a.r.bc
    flag (p.ws.any fun a => a.r.slot != k.r.slot) f j fmt
      ++ match rankOf es p.sx p.sy p.src true, rankOf es k.x k.y dst false with
        | some a, some b => flag (!bc && !back && b ≤ a) f j rank ++ flag (!bc && back && a < b) f j loop
        | _, _ => []

/-- The slot count of the route that feeds an input of a CE. -/
def fedSlot (ws : List SwWord) (x y c : Nat) : Option Nat := (ws.find? fun k => k.x == x && k.y == y && k.r.dsts.contains c).map fun k => k.r.slot
/-- The word that carries an output of a CE. -/
def carrier (ws : List SwWord) (x y c : Nat) : Option SwWord := ws.find? fun k => k.x == x && k.y == y && k.r.srcs.contains c

/-- What the routes of a CE break of its header and program (R60, R146, R148, R423). -/
def ceFindings (v : Variant) (es : List Entry) (ws : List SwWord) (paths : List (Nat × Path)) (x y : Nat) : List Finding :=
  match entryAt es x y 0 with
  | none => []
  | some e =>
    if e.isXf then []
    else
      let h := ceHeader e
      let prog := nodeProgram es x y
      let js := joinsOf h prog
      let fed := js.filter fun c => (fedSlot ws x y c).isSome || (v.argunit == 0 && v.argdx == x && v.argdy == y && v.argport == c)
      let tokens := js.filter fun c => fedSlot ws x y c == some 0
      let kindBad := fun (pin : Nat) (token : Bool) => (List.range 4).any fun c => bit pin c && ((fedSlot ws x y c == some 0) != token)
      let backOf := fun (c : Nat) => paths.any fun q => q.2.sx == x && q.2.sy == y && q.2.src == c && q.2.ws.any fun a => a.r.back
      let loopOf := fun (c L : Nat) => paths.any fun q => q.2.sx == x && q.2.sy == y && q.2.src == c && q.2.ws.any fun a => a.r.back && a.r.loop == L
      flag (h.join == 0 && 2 ≤ fed.length) e.num 0 join
        ++ flag (!tokens.isEmpty && (tokens.length != js.length || 2 ≤ h.join || h.nslot != js.length)) e.num 0 join
        ++ (prog.flatMap fun q => match q.2.2 with
          | .merge f => flag (kindBad f.pin.toNat false) q.1 q.2.1 join
          | .accept f => flag (kindBad f.pin.toNat true) q.1 q.2.1 join
          | .recirc f => flag ((List.range 4).any fun c => f.pout.getLsbD c && !(backOf c && loopOf c f.tgt.toNat)) q.1 q.2.1 loop
          | .emit f =>
            let n := if f.smask = 0 then h.nslot else popcount f.smask.toNat 8
            flag ((List.range 4).any fun c => f.pout.getLsbD c && (match carrier ws x y c with | some k => k.r.slot != 0 && k.r.slot != n | none => false)) q.1 q.2.1 fmt
          | _ => [])

/-- Frames of one unit that carry different ranks; a switch frame carries rank 0 (R49, R60). -/
def rankFindings (es : List Entry) : List Finding :=
  es.flatMap fun e => flag ((e.unit == 8 && e.rank != 0)
    || es.any fun a => a.num < e.num && a.meets e && a.unit == e.unit && e.unit != 8 && (e.unit != 7 || a.idx == e.idx) && a.rank != e.rank) e.num 4 rank

/-- Everything that the verification pass finds. -/
def passFindings (v : Variant) (es : List Entry) : List Finding :=
  let ws := switchWords v es
  let paths := ws.flatMap fun k => (k.r.dsts.filter (· < 64)).flatMap fun c => (pathsTo v ws ws.length k).map fun p => (c, p)
  rankFindings es
    ++ (ws.flatMap (wordFindings v es ws))
    ++ (paths.flatMap fun q => pathFindings es q.1 q.2)
    ++ ((List.range v.h).flatMap fun y => (List.range v.w).flatMap fun x =>
      ceFindings v es ws paths x y
        ++ (match entryAt es x y 11 with
          | some e => flag ((List.range 4).any fun p => (fedSlot ws x y (24 + p)).isNone) e.num 0 unconf
          | none => []))

end Cfg

/-! ### CRC-64 (R61) -/

/-- One byte of the ECMA-182 CRC. -/
def crcByte (c : BitVec 64) (b : Byte) : BitVec 64 :=
  (List.range 8).foldl (fun (c : BitVec 64) _ => if c.msb then (c <<< 1) ^^^ 0x42F0E1EBA9EA3693 else c <<< 1) (c ^^^ (b.setWidth 64 <<< 56))
def crc64 (bs : List Byte) : BitVec 64 := bs.foldl crcByte 0
def wordsBytes (ws : List Word) : List Byte := ws.flatMap fun w => bytesOf 8 w.toNat

/-- The failure of a load in the phase order of R64: the frame checks, the verification pass, the signature. DESIGN CHOICE: a SIG names the
variant descriptor, which holds the signature, as its word (log entry 54). -/
def loadFailure (v : Variant) (list : List (List Word)) : Option Finding :=
  match Cfg.first (frameFindings v list) with
  | some f => some f
  | none =>
    match Cfg.first (Cfg.passFindings v (placedEntries v list)) with
    | some f => some f
    | none => if (crc64 (list.flatMap wordsBytes)).toNat = v.sig then none else some ⟨0xFFFF, 5, Cfg.sig⟩

/-- The detail word of a CFGINV (R64 Table 6). -/
def cfginvDetail (f : Finding) (var : Nat) (succ : Bool) : Nat :=
  f.frame + (if succ then 2 ^ 49 else 0) + var * 2 ^ 50 + f.word * 2 ^ 55 + f.reason * 2 ^ 58

end Sys2Proof.Machine
end

