-- ==== Sys2Proof/Machine/Loader.lean ====
section
/-! DEFINITION. The configuration loader (R25, R47, R59 to R66): reading of frame entries, the switch onto a loaded configuration,
successor loads, the end of a rolling switch, and the scrubbing and repair of configuration banks (R69 to R72). -/

namespace Sys2Proof.Machine

/-- A frame written into a physical bank. -/
def Bank.write (B : Bank) (e : Entry) : Bank := { frames := tabSet e.slot e.body B.frames, xf := B.xf || e.isXf, drain := false }

namespace Tile

def setBank (T : Tile) (b : Bool) (B : Bank) : Tile := if b then { T with bank1 := B } else { T with bank0 := B }
/-- An entry is written into the shadow bank (R25). -/
def writeShadow (T : Tile) (e : Entry) : Tile := T.setBank (!T.bank) ((T.physBank (!T.bank)).write e)
def clearShadow (T : Tile) : Tile := T.setBank (!T.bank) .empty
/-- CRC-64 over a bank in the order of Table 4, unused frames read as zero (R69). -/
def bankCrc (T : Tile) (b : Bool) : BitVec 64 :=
  crc64 ((List.range 27).flatMap fun i => wordsBytes ((tabGet i (T.physBank b).frames).getD [0, 0, 0, 0]))

end Tile

/-- The part of a dimension that an element holds (R53), from the mode, the element's place and the array's size along it. -/
def domPart (d : Option (Nat × Nat)) (mode place size : Nat) : Word :=
  match d with
  | none => BitVec.allOnes 64
  | some (lo, hi) =>
    let c := ceilDiv (hi - lo) size
    let (a, b) := if mode = 0 then (lo, hi) else (lo + place * c, min hi (lo + (place + 1) * c))
    if a < b then BitVec.ofNat 64 (a % 2 ^ 32 + 2 ^ 32 * (b - a - 1)) else BitVec.allOnes 64

namespace State

/-- The tile of a region at a column and a row. -/
def at_ (g : Region) (x y : Nat) : Nat := tileAt g.die (g.oy + y) (g.ox + x)
/-- A function applied to every tile of a region, with its column and row. -/
def onTiles (s : State) (g : Region) (f : Nat → Nat → Tile → Tile) : State :=
  (List.range g.h).foldl (fun s y => (List.range g.w).foldl (fun s x => s.onTile (at_ g x y) (f x y)) s) s

/-- The header of the image that a region loads: as the arm's checks read it, or those of the successor's preload (R46, R47). -/
def loadHeader (s : State) (g : Region) : List Word :=
  if g.loader.succ then g.loader.hdr else ((s.launchOf g).map Launch.hdr).getD []

/-- Bytes of an image as the loader reads them: through the die's walker, from IMG pages (R43, R374). -/
def loadBytes (s : State) (g : Region) : Nat → Nat → Nat → State × Except Flt (List Byte)
  | 0, _, _ => (s, .ok [])
  | k + 1, va, n =>
    if n = 0 then (s, .ok [])
    else
      let m := min n (256 - va % 256)
      match s.xlate g.die none g.ctx va 0 with
      | (s, .error f) => (s, .error f)
      | (s, .ok q) => match s.imageBlock g.ctx va m q with
        | (s, .error f) => (s, .error f)
        | (s, .ok bs) => match s.loadBytes g k (va + m) (n - m) with
          | (s, .ok more) => (s, .ok (bs ++ more))
          | (s, .error f) => (s, .error f)

def loaderSite (g : Region) : Site := ⟨tileAt g.die g.oy g.ox, 9, 0, 0⟩
def onLoader (s : State) (r : Nat) (f : Loader → Loader) : State := s.onRegion r fun g => { g with loader := f g.loader }

/-- The shadow load is discarded, and every element keeps its active configuration (R25). -/
def discardShadow (s : State) (r : Nat) (phase : LoadPhase) (due : Nat) : State :=
  match s.region? r with
  | none => s
  | some g => (s.onTiles g fun _ _ T => T.clearShadow).setRegion r { g with
      shadow := false
      loader := { g.loader with
        phase := phase
        entries := []
        due := due } }

/-- A fault of the loader (R63). It discards a shadow load (R25). A missing page then freezes nothing, and the loader keeps the record's
number until it is resumed; after another fault, which freezes the region, the load starts again when the region goes on. -/
def loaderFault (s : State) (r : Nat) (g : Region) (f : Flt) : State :=
  if g.loader.succ && f.code == 0x03 then
    let seq := s.nextSeq g.die g.ctx
    let lseq := ((s.task? g.task).map Task.lseq).getD 0
    (s.post (loaderSite g) g.ctx f false true false lseq g.task (s.recordW6 g (loaderSite g))).discardShadow r .faulted seq
  else (if g.loader.succ then s.discardShadow r .idle 0 else s).raise (loaderSite g) f

/-- CFGINV (R64, R65): a fresh region is released and its launch ends with BADIMG; a running region keeps its configuration. -/
def cfginv (s : State) (r : Nat) (g : Region) (f : Finding) : State :=
  let lseq := ((s.task? g.task).map Task.lseq).getD 0
  let detail := cfginvDetail f g.loader.variant g.loader.succ
  let s := s.post (loaderSite g) g.ctx ⟨0x01, g.loader.img, detail⟩ false false false lseq g.task (s.recordW6 g (loaderSite g))
  if g.loader.succ then s.discardShadow r .failed 0
  else
    let key := 4 * lseq + g.ctx
    let s := (((s.failLaunch g.task 0x11 true).complete g.task).releaseRegion r).unreserveLaunch key
    { s with dies := s.dies.map fun D => { D with pending := D.pending.filter fun p => p.1 != key } }

/-- The XOR of the bank CRCs of a region's tiles, over the active banks (R69). -/
def regionSig (s : State) (g : Region) : BitVec 64 := g.tiles.foldl (fun x t => x ^^^ (s.tile t).bankCrc (s.tile t).bank) 0

/-- The place of an element in its array node, and the node's size (R51). -/
def arrayOf (es : List Entry) (x y : Nat) : (Nat × Nat) × (Nat × Nat) :=
  match entryAt es x y 0 with | some e => ((x - e.dx, y - e.dy), (e.aw, e.ah)) | none => ((0, 0), (1, 1))

/-- The identifiers of an element at a tile, from its place in its array node, the node's size and word 2 of its header (R51, R53, R66,
R76). -/
def idsAt (s : State) (g : Region) (t : Nat) (at' size : Nat × Nat) (w2 : Nat) : List Word :=
  let k := s.task? g.task
  let part := fun (i : Nat) =>
    let mode := bits w2 (62 - 2 * i) 2
    domPart ((k.map Task.dom).getD [])[i]? mode (if mode = 1 then at'.1 else at'.2) (if mode = 1 then size.1 else size.2)
  [BitVec.ofNat 64 (txOf t), BitVec.ofNat 64 (tyOf t), BitVec.ofNat 64 g.die, s.pkgId, BitVec.ofNat 64 at'.1, BitVec.ofNat 64 at'.2,
    part 0, part 1, part 2, BitVec.ofNat 64 g.ctx, BitVec.ofNat 64 ((k.map Task.lseq).getD 0)]

/-- The identifiers of an element under a frame list. -/
def idsOf (s : State) (g : Region) (es : List Entry) (x y : Nat) : List Word :=
  s.idsAt g (at_ g x y) (arrayOf es x y).1 (arrayOf es x y).2 (((entryAt es x y 0).map fun e => e.w 2).getD 0)

/-- A fresh region takes its configuration: the banks switch, the registers are made fresh, and the argument enters (R62, R66,
R75, R353). -/
def switchIn (s : State) (r : Nat) (g : Region) (v : Variant) : State :=
  let es := placedEntries v g.loader.entries
  let s := s.clearTiles g
  let s := s.onTiles g fun x y T => { T with
    bank := !T.bank
    ids := s.idsOf g es x y
    array := (arrayOf es x y).2 }
  let sig := s.regionSig g
  let s := s.setRegion r { g with
    running := true
    begun := s.commits.length
    loader := { g.loader with phase := .idle }
    nxt := v.nxt
    nxtv := v.nxtv
    sig := sig
    scrubAt := s.time + 2 ^ 20 }
  s.enterArgument r

/-- An element takes its place in its array node under the successor's frame list, with the bank that names it (R26, R51). -/
def takeArray (s : State) (g : Region) (t : Nat) (T : Tile) : Tile :=
  { T.takePlace (arrayOf (placedEntries (variantOf (s.loadHeader g) g.loader.variant) g.loader.entries) (txOf t - g.ox) (tyOf t - g.oy)) with
    was := T.was.or (some T.arrayPlace) }

/-- Every unit of a tile that the active bank configures has switched (R26). -/
def allSwitched (T : Tile) : Bool := (List.range 11).all fun u => (T.unit u).switched || !T.configured u

/-- A rolling switch ends once every unit of the region has switched: the other bank is the active one, the shadow-ready state
clears, and the successor is the region's image (R25, R26, R28, R47, R69). -/
def finishSwitch (s : State) (r : Nat) : State :=
  match s.region? r with
  | none => s
  | some g =>
    if g.switching && !g.frozen && g.tiles.all fun t => allSwitched (s.tile t) then
      let v := variantOf (s.loadHeader g) g.loader.variant
      let s := s.onTiles g fun x y T => { s.takeArray g (at_ g x y) T with
        bank := !T.bank
        was := none
        swsrc := []
        units := T.units.map fun q => (q.1, { q.2 with switched := false }) }
      let sig := s.regionSig g
      s.setRegion r { g with
        switching := false
        shadow := false
        img := g.loader.img
        variant := g.loader.variant
        nxt := v.nxt
        nxtv := v.nxtv
        sig := sig
        loader := { g.loader with
          phase := .idle
          succ := false } }
    else s

end State

/-- LOADER_READ (R59): up to 16 entries are read, and each is written to the shadow banks of the tiles it addresses. -/
def execLoaderRead (r : Nat) (s : State) : Host.Outcome State Fault Refusal :=
  .next (match s.region? r with
    | none => s
    | some g =>
      if g.loader.phase != .reading || g.frozen || g.drain.isSome then s
      else
        let v := variantOf (s.loadHeader g) g.loader.variant
        let k := g.loader.entries.length
        let n := min 16 (v.fcnt - k)
        match s.loadBytes g 4 (g.loader.img + v.foff + 40 * k) (40 * n) with
        | (s, .error f) => s.loaderFault r g f
        | (s, .ok bs) =>
          let ws := wordsOf bs (5 * n)
          let new := (List.range n).map fun i => (ws.drop (5 * i)).take 5
          let es := ((List.range n).map fun i => entryOf (k + i) (new.getD i [])).filter fun e => e.placed v
          let s := s.onTiles g fun x y T => es.foldl (fun T e => if e.covers x y then T.writeShadow e else T) T
          s.onLoader r fun L => { L with
            entries := L.entries ++ new
            phase := if v.fcnt ≤ k + n then .verifying else .reading
            due := s.time + 16 + g.w + g.h })

/-- VERIFICATION_PASS (R60 to R65): shadow-ready is set, and a fresh region switches at once; or the load fails. -/
def execVerificationPass (r : Nat) (s : State) : Host.Outcome State Fault Refusal :=
  .next (match s.region? r with
    | none => s
    | some g =>
      if g.loader.phase != .verifying || g.frozen || g.drain.isSome || s.time < g.loader.due then s
      else
        let hdr := s.loadHeader g
        let v := variantOf hdr g.loader.variant
        match loadFailure v g.loader.entries with
        | some f => s.cfginv r g f
        | none =>
          if g.loader.succ then s.setRegion r { g with
            shadow := true
            gen := BitVec.ofNat 64 (Hdr.iseq hdr)
            loader := { g.loader with phase := .ready } }
          else s.switchIn r g v)

/-- SUCCESSOR_PRELOAD (R28, R47): the load of the successor image into the shadow banks starts, after the checks of its header
and of its shape. A header page that is malformed or may not be read gives CFGINV HDR (log entry 65). -/
def execSuccessorPreload (r : Nat) (s : State) : Host.Outcome State Fault Refusal :=
  .next (match s.region? r with
    | none => s
    | some g =>
      if !g.running || g.frozen || g.drain.isSome || g.switching || g.shadow || g.nxt = 0 || g.loader.phase != .idle then s
      else
        let L : Loader := { g.loader with
          img := g.nxt
          variant := g.nxtv
          succ := true
          entries := [] }
        let g := { g with loader := L }
        let s := s.setRegion r g
        match s.loadBytes g 2 g.nxt 256 with
        | (s, .error f) => if f.code = 0x03 ∨ f.code = 0x11 then s.loaderFault r g f else s.cfginv r g ⟨0xFFFF, 6, Cfg.hdr⟩
        | (s, .ok bs) =>
          let hdr := wordsOf bs 32
          let v := variantOf hdr g.nxtv
          if g.nxt % 256 != 0 || Hdr.bad hdr || Hdr.tooBig hdr 15 then s.cfginv r g ⟨0xFFFF, 6, Cfg.hdr⟩
          else if Hdr.nvar hdr ≤ g.nxtv || v.w != g.w || v.h != g.h || v.quad != g.quad then s.cfginv r g ⟨0xFFFF, 5, Cfg.shape⟩
          else (s.onTiles g fun _ _ T => T.clearShadow).setRegion r { g with
            loader := { L with
              phase := .reading
              hdr := hdr }
            protect := g.protect ++ [(g.nxt, Hdr.ilen hdr)] })

/-! ### Scrubbing and repair (R69 to R72) -/

namespace State

/-- An uncorrectable error in an active bank: the region's tokens freeze, and the tile's bank is to be rewritten (R70). A second
one in the tile within 2^24 clk fences it (R71). One found in a region that a stop wave holds counts and is repaired when the region
goes on (R72, R403). -/
def configError (s : State) (r : Nat) (t : Nat) : State :=
  match s.region? r with
  | none => s
  | some g =>
    let again : Bool := match (s.tile t).cfgErr with | some at' => decide (s.time < at' + 2 ^ 24) | none => false
    let pos := (tyOf t - g.oy) * g.w + (txOf t - g.ox)
    let lseq := ((s.task? g.task).map Task.lseq).getD 0
    let s := s.onTile t fun T => { T with cfgErr := some s.time }
    let marked := s.setRegion r { g with marks := if g.marks.contains (t, none) then g.marks else g.marks ++ [(t, none)] }
    let s := if g.stopWave then marked else s
    if again then
      let s := (s.postDie g.die g.ctx ⟨0x12, 0, pos + 2 ^ 16⟩ false true lseq g.task).count g.die .cfgecc
      if g.stopWave then (s.markTile t 4).thinDie (dieOf t) else s.fenceTile t
    else if g.stopWave then s
    else s.setRegion r { g with
      frozen := true
      repair := setInsert t g.repair }

/-- What was found of a configuration while its region was stopped takes effect: the tile's bank is to be rewritten (R72); or, where the
region goes on in place on a tile that was fenced meanwhile, it leaves (R71). -/
def startRepair (s : State) (r t : Nat) : State :=
  if (s.tile t).fenced then s.leaveTile t
  else s.onRegion r fun g => { g with
    frozen := true
    repair := setInsert t g.repair }

/-- Errors that were found while a region was stopped take effect when it goes on (R72, R403): the repair of a configuration, or a
DECMP record at the unit whose state it was. `place` gives the tile of a mark. -/
def applyMarks (s : State) (r : Nat) (place : Nat → Nat) (marks : List (Nat × Option (Nat × Nat × Nat))) : State :=
  marks.foldl (fun (s : State) m =>
    match m.2 with
    | none => s.startRepair r (place m.1)
    | some (u, i, w) => s.raise ⟨place m.1, u, i, w⟩ (.decmp 0)) s

/-- The frames that a frame list gives the tile at a column and a row. -/
def bankFrom (v : Variant) (list : List (List Word)) (x y : Nat) : Bank :=
  ((placedEntries v list).filter fun e => e.covers x y).foldl Bank.write .empty

/-- The frame list of an image's variant, read again. -/
def frameList (s : State) (c img variant : Nat) : Option (Variant × List (List Word)) :=
  match s.header? c img with
  | (_, none) => none
  | (s, some hdr) =>
    let v := variantOf hdr variant
    match (s.imageBytes c (40 * v.fcnt / 256 + 2) (img + v.foff) (40 * v.fcnt)).2 with
    | .error _ => none
    | .ok bs => let ws := wordsOf bs (5 * v.fcnt); some (v, (List.range v.fcnt).map fun i => (ws.drop (5 * i)).take 5)

end State

/-- CONFIG_SCRUB (R69): every 2^20 clk the region signature is recomputed; a mismatch is an uncorrectable error. -/
def execConfigScrub (r : Nat) (s : State) : Host.Outcome State Fault Refusal :=
  .next (match s.region? r with
    | none => s
    | some g =>
      if !g.running || g.frozen || g.drain.isSome || g.switching || s.time < g.scrubAt then s
      else
        let s' := s.setRegion r { g with scrubAt := s.time + 2 ^ 20 }
        if s.regionSig g == g.sig then s' else s'.configError r (tileAt g.die g.oy g.ox))

namespace State

/-- The frame list as the loader of a region reads it for a repair, through its die's walker (R43, R374). -/
def repairList (s : State) (g : Region) (img variant : Nat) : State × Except Flt (Variant × List (List Word)) :=
  match s.loadBytes g 2 img 256 with
  | (s, .error f) => (s, .error f)
  | (s, .ok bs) =>
    let v := variantOf (wordsOf bs 32) variant
    match s.loadBytes g (40 * v.fcnt / 256 + 2) (img + v.foff) (40 * v.fcnt) with
    | (s, .error f) => (s, .error f)
    | (s, .ok bs) =>
      let ws := wordsOf bs (5 * v.fcnt)
      (s, .ok (v, (List.range v.fcnt).map fun i => (ws.drop (5 * i)).take 5))

/-- A tile's bank is rewritten, on each bank that its units hold (R70, R72). -/
def rewrite (s : State) (g : Region) (t : Nat) : State × Except Flt Unit :=
  let x := txOf t - g.ox
  let y := tyOf t - g.oy
  match s.repairList g g.img g.variant with
  | (s, .error f) => (s, .error f)
  | (s, .ok (v, list)) =>
    if !g.switching then (s.onTile t fun T => T.setBank T.bank (State.bankFrom v list x y), .ok ())
    else match s.repairList g g.loader.img g.loader.variant with
      | (s, .error f) => (s, .error f)
      | (s, .ok (v', list')) =>
        (s.onTile t fun T => (T.setBank T.bank (State.bankFrom v list x y)).setBank (!T.bank) (State.bankFrom v' list' x y), .ok ())

end State

/-- CONFIG_REPAIR_COMPLETE (R70 to R72): the bank of the next tile to be repaired is rewritten from the image; with the last one the
region resumes, or the tile is fenced. A fault of the loader holds the repair until it is resumed (R374). -/
def execConfigRepairComplete (r : Nat) (s : State) : Host.Outcome State Fault Refusal :=
  .next (match s.region? r with
    | none => s
    | some g =>
      match g.repair with
      | [] => s
      | t :: rest =>
        if g.records.any fun x => x.unit == 9 then s
        else match s.rewrite g t with
          | (s, .error f) => s.raise (State.loaderSite g) f
          | (s, .ok _) =>
            let bad := s.regionSig g != g.sig
            let lseq := ((s.task? g.task).map Task.lseq).getD 0
            let pos := (tyOf t - g.oy) * g.w + (txOf t - g.ox)
            let s := (s.postDie g.die g.ctx ⟨0x12, 0, pos + (if bad then 2 ^ 16 else 0)⟩ false true lseq g.task).count g.die .cfgecc
            let s := s.setRegion r { g with
              repair := rest
              frozen := !g.records.isEmpty || g.stopWave || !rest.isEmpty }
            if bad then s.fenceTile t else s)

end Sys2Proof.Machine
end

