-- ==== Sys2Proof/Machine/BeadCtl.lean ====
section
/-! DEFINITION. Bead control (R148 to R150) and NOP (R145). An instruction that emits waits while an output it names has
no room for what it emits (R19, R30). -/

namespace Sys2Proof.Machine

/-- The bits of a field of four, ascending. -/
def setBits (m : BitVec 4) : List Nat := (List.range 4).filter fun k => m.getLsbD k

namespace State

/-- Beats put on output ports, when every one has room for them and the element's earlier accesses have been performed, which come
before all that is done on account of the beats (R265); otherwise nothing happens and the element waits. -/
def emitThen (s : State) (ports : List (Nat × List Beat)) (k : State → State) : State :=
  let T := s.me
  if T.unperformed then s
  else if ports.all fun p => T.outRoom p.1 ((ports.filter fun q => q.1 == p.1).map fun q => q.2.length).sum then
    k (s.onMe fun T => ports.foldl (fun T p => T.pushOut p.1 p.2) T)
  else s

end State

/-- The frame of a bead-control instruction: it executes when its effective mask is nonzero (R123). -/
def beadOp (s : State) (f : FmtC) (srcs : List Src) (effect : Mask → State → State) : Host.Outcome State Fault Refusal :=
  let m := s.me.effMask f.pg f.ps
  .next (s.issue (executes m true) srcs (effect m))

/-- Slot reads that block until the slots are full (R148). -/
def slotSrcs (ks : List Nat) : List Src := ks.map fun k => ⟨BitVec.ofNat 6 (48 + k), false, 0⟩

/-- The slots of the current bead. -/
def allSlots (T : Tile) : List Nat := match T.head? with | some b => List.range b.slots.length | none => []
def slotVals (T : Tile) (ks : List Nat) : List Vec := ks.map fun k => T.readV (BitVec.ofNat 6 (48 + k))
def headBead (T : Tile) : Bead := T.head?.getD ⟨0, 0, 0, 0, [], 0, false, 0, 0⟩

/-- NOP (R145): no effect. -/
def execNop (s : State) : Host.Outcome State Fault Refusal := .next s.advance

/-- The token kinds EMIT names: 0 VAL, 1 CRD, 2 REF. -/
def emitKind (f : FmtC) : Nat := match bits f.tgt.toNat 0 2 with | 0 => 2 | 1 => 0 | _ => 1

/-- The slots that EMIT emits: all of them when smask is 0. -/
def emitSlots (T : Tile) (f : FmtC) : List Nat :=
  if f.smask = 0 then allSlots T else (List.range 8).filter fun k => f.smask.getLsbD k

/-- What EMIT puts on one output: a bead, or a data beat for each slot with the active lanes compacted. -/
def emitBeats (T : Tile) (c : Nat) (f : FmtC) (m : Mask) (port : Nat) : List Beat :=
  let ks := emitSlots T f
  if T.tokenOut port then
    (slotVals T ks).map fun v => .tokens (emitKind f) c ((lanesIn m).map (lane v))
  else Beat.ofBead c { headBead T with lmask := m } (slotVals T ks)

/-- EMIT (R148): the bead continues. -/
def execEmit (f : FmtC) (s : State) : Host.Outcome State Fault Refusal :=
  beadOp s f (slotSrcs (emitSlots s.me f)) fun m s =>
    s.emitThen ((setBits f.pout).map fun k => (k, emitBeats s.me s.myCtx f m k)) State.advance

/-- ROUTE (R148): the bead leaves on the port that xs names, or is retired unemitted and counted. -/
def execRoute (f : FmtC) (s : State) : Host.Outcome State Fault Refusal :=
  beadOp s f (⟨f.sa, f.fe == 1, 0⟩ :: slotSrcs (allSlots s.me)) fun m s =>
    let k := (s.me.readX f.sa.toNat).toNat % 4
    if f.pout.getLsbD k then
      s.emitThen [(k, Beat.ofBead s.myCtx { headBead s.me with lmask := m, tag := f.tgt } (slotVals s.me (allSlots s.me)))] State.leave
    else s.leave.count (dieOf s.here) .routeDiscard

/-- SPLIT (R149): the lanes that pk selects, then the rest; a half with no lanes is not emitted. -/
def execSplit (f : FmtC) (s : State) : Host.Outcome State Fault Refusal :=
  beadOp s f (⟨f.sa, f.fe == 1, 0⟩ :: slotSrcs (allSlots s.me)) fun m s =>
    let b := headBead s.me
    let sel := s.me.srcPred f.sa &&& m
    let rest := b.lmask &&& ~~~sel
    let vs := slotVals s.me (allSlots s.me)
    let half (l : Mask) : List Beat := if l = 0 then [] else Beat.ofBead s.myCtx { b with lmask := l } vs
    let ports := setBits f.pout
    s.emitThen [(ports.headD 0, half sel), (ports.getLastD 0, half rest)] State.leave

/-- A bead at the head of an input: its header and slots, and the beats it takes (R17). -/
def beadAt (q : Queue) : Option (Beat × List Vec × Nat) :=
  match q.beats with
  | h :: rest =>
    let n := bits h.data.toNat 16 4
    if h.kind = 7 ∧ n ≤ rest.length then some (h, (rest.take n).map Beat.data, n + 1) else none
  | [] => none

/-- MERGE (R149): the partner's lanes that the bead lacks are taken over. A STOP or DONE at the side input is consumed and
counted; a BAR or SW is left to R41 and R26. -/
def execMerge (f : FmtC) (s : State) : Host.Outcome State Fault Refusal :=
  beadOp s f [] fun _ s =>
    let k := (setBits f.pin).headD 0
    let T := s.me
    match T.inHead k with
    | none => s
    | some h =>
      if h.kind = 3 ∨ h.kind = 4 then ((s.onMe fun T => T.popIn k).count (dieOf s.here) .mergeStop).advance
      else match beadAt (T.inQ k) with
        | none => s
        | some (h, vs, n) =>
          let b := headBead T
          let pm : Mask := BitVec.ofNat 16 h.data.toNat
          let new := pm &&& ~~~b.lmask
          let hw := h.data.toNat
          let older := T.stampAt k < b.stamp
          let b' : Bead := { b with
            lmask := b.lmask ||| pm
            loopc := BitVec.ofNat 8 (max b.loopc.toNat (bits hw 48 8))
            bseq := if older then BitVec.ofNat 16 (bits hw 32 16) else b.bseq
            slots := (List.range b.slots.length).map fun i =>
              let r := b.slots.getD i ⟨0, false⟩
              ⟨merge r.val (vs.getD i 0) new, r.full⟩ }
          let s := s.onMe fun T => ((T.setInQ k ⟨(T.inQ k).beats.drop n, 0⟩).popStamp k).onHead fun _ => b'
          (if pm &&& b.lmask = 0 then s else s.count (dieOf s.here) .mergeOverlap).advance

/-- RECIRC (R148): the bead leaves on a back edge with loopc incremented, saturating at 255. -/
def execRecirc (f : FmtC) (s : State) : Host.Outcome State Fault Refusal :=
  beadOp s f (slotSrcs (allSlots s.me)) fun m s =>
    let b := headBead s.me
    s.emitThen [((setBits f.pout).headD 0, Beat.ofBead s.myCtx { b with lmask := m, loopc := BitVec.ofNat 8 (min (b.loopc.toNat + 1) 255) }
      (slotVals s.me (allSlots s.me)))] State.leave

/-- ACCEPT (R148): waits for a beat at a side input and takes it into a V register and a predicate. -/
def execAccept (f : FmtC) (s : State) : Host.Outcome State Fault Refusal :=
  beadOp s f [] fun m s =>
    let k := (setBits f.pin).headD 0
    let j := bits f.tgt.toNat 0 3
    match s.me.inHead k with
    | none => s
    | some h =>
      if h.kind ≤ 2 then
        (s.onMe fun T =>
          ((T.popIn k).writeV f.sa (h.data &&& laneBits (maskOf fun i => i < h.count)) m).writeP j (maskOf fun i => i < h.count) m).advance
      else if h.kind = 3 ∨ h.kind = 4 then
        (s.onMe fun T => ((T.popIn k).writeV f.sa (splat (BitVec.ofNat 32 (h.kind + 16 * h.stop))) m).writeP j 0 m).advance
      else s

/-- DROP (R148): the lanes of the effective mask leave the bead, which retires when none is left (R19). -/
def execDrop (f : FmtC) (s : State) : Host.Outcome State Fault Refusal :=
  beadOp s f [] fun m s =>
    let left := s.me.lmask &&& ~~~m
    if left = 0 then s.leave else (s.onMe fun T => T.onHead fun b => { b with lmask := left }).advance

/-- HOLD (R150): the bead runs on once every older bead has left, which holds for the bead that runs, and every
long-latency operation of the element has delivered its value. -/
def execHold (f : FmtC) (s : State) : Host.Outcome State Fault Refusal :=
  beadOp s f [] fun _ s => if s.me.ops.isEmpty then s.advance else s

/-- NEWB (R148): a new bead from v(m) up, with the element's next bseq for the port. -/
def execNewb (f : FmtC) (s : State) : Host.Outcome State Fault Refusal :=
  let n := s.me.nslot
  let vs := (List.range n).map fun k => f.sa + BitVec.ofNat 6 k
  beadOp s f (vs.map fun r => ⟨r, f.fe == 1 && r == f.sa, 0⟩) fun m s =>
    let k := (setBits f.pout).headD 0
    let b : Bead := ⟨m, 0, s.me.bseq.getD k 0, f.tgt, [], 0, false, 0, 0⟩
    s.emitThen [(k, Beat.ofBead s.myCtx b (vs.map s.me.readV))] fun s =>
      (s.onMe fun T => { T with bseq := T.bseq.set k (T.bseq.getD k 0 + 1) }).advance

/-- ENDB (R148): the bead retires. -/
def execEndb (f : FmtC) (s : State) : Host.Outcome State Fault Refusal := beadOp s f [] fun _ s => s.leave

/-- TOK (R148): a STOP of a level, or DONE, on each port. -/
def execTok (f : FmtC) (s : State) : Host.Outcome State Fault Refusal :=
  beadOp s f [] fun _ s =>
    let b : Beat := if f.lvl = 15 then .control 4 0 s.myCtx 0 else .control 3 f.lvl.toNat s.myCtx 0
    s.emitThen ((setBits f.pout).map fun k => (k, [b])) State.advance

/-- BARI (R148): a BAR with the tag in lane 0 on each port. -/
def execBari (f : FmtC) (s : State) : Host.Outcome State Fault Refusal :=
  beadOp s f [] fun _ s => s.emitThen ((setBits f.pout).map fun k => (k, [.control 5 0 s.myCtx f.tgt.toNat])) State.advance

/-- The unit has switched: it runs under the other bank with fresh per-stream state (R26, R162). -/
def UState.switch (_u : UState) : UState := { UState.fresh with switched := true }

/-- SWI (R150, R26): stalls until the region is shadow-ready, then injects SW with the generation of the shadow image and
switches the element's bank, with which the element takes its place in its array node (R51). -/
def execSwi (f : FmtC) (s : State) : Host.Outcome State Fault Refusal :=
  beadOp s f [] fun _ s =>
    match s.regionOf s.here with
    | none => s
    | some (r, g) =>
      if g.shadow then
        s.emitThen ((setBits f.pout).map fun k => (k, [.control 6 0 s.myCtx (bits g.gen.toNat 0 32)])) fun s =>
          (s.advance.onMe fun T => s.takeArray g s.here (T.onUnit 0 UState.switch)).setRegion r { g with switching := true }
      else s

end Sys2Proof.Machine
end

