-- ==== Sys2Proof/Machine/Engine.lean ====
section
/-! DEFINITION. Engine commands (R243 to R252): the instructions that issue them, the engines that run them, A2A queues,
collectives and command chains. -/

namespace Sys2Proof.Machine

/-! ### Issue -/

/-- The command an instruction names, of a task, and of a tile of its region and an operation of the element that issues it. -/
def commandOf (f : FmtY) (fn : Nat) (body : Vec) (h : Option Nat) (by_ : Nat × Nat) : EngCmd :=
  ⟨fn, f.aop.toNat, f.scope.toNat, f.ord.getLsbD 0, f.ord.getLsbD 1, body, 0, h, some by_, none, 0, 0, false, false, false, 0, none⟩

/-- The port form (R243, R244): the command enters the queue of an engine of the element's die, and dst receives its ticket.
The element blocks while the queue holds 16; a command that has started is no longer in it (log entry 66). -/
def enginePort (s : State) (f : FmtY) (fn : Nat) (i : Instr) : Host.Outcome State Fault Refusal :=
  syncOp s f 2 fun s =>
    let n := yA s f
    if 8 ≤ n then s.trap (.prot n 3)
    else
      let d := dieOf s.here
      let c := s.myCtx
      if 16 ≤ (s.engine d n c).queue.length then s
      else s.irrevocably false fun s =>
        let E := s.engine d n c
        let g := (s.regionOf s.here).map Prod.snd
        let k := { commandOf f fn (s.me.readV f.sb) (g.map Region.task) ((g.map fun g => g.place s.here).getD 0, s.me.nop) with ticket := E.next }
        (s.setEngine d n c { E with queue := E.queue ++ [k], next := (E.next + 1) % 2 ^ 64 }).markOlder.issueY .ticket f (some E.next) false i

/-- The control word of a chain entry (R251). -/
def ctlWord (f : FmtY) (fn : Nat) : Nat := fn + 2 ^ 3 * f.aop.toNat + 2 ^ 7 * f.scope.toNat + 2 ^ 10 * f.ord.toNat

/-- An append asked of a chain descriptor's home (R252): the bytes that it is to write of an entry in a PLAIN page, and the request. The
element meets what forbids a write to the entry or to the former tail (log entry 59). A home in another package appends by itself: the
entry is written where it lies, with the sequence number that the home gives it. -/
def chainAppend (s : State) (f : FmtY) (desc entryVa : Nat) (rel : Bool) (bytes : State → Region → Nat → Bool → Option (List Host.Cell))
    (cmd : Bool) (i : Instr) : State :=
  match s.regionOf s.here with
  | none => s
  | some (_, g) =>
    if entryVa % 128 != 0 then s.trap (.prot entryVa 2)
    else match s.syncWord desc 8 true with
      | (s, .bad d) => s.trap (.prot desc d)
      | (s, .fault e) => s.trap e
      | (s, .lost pa) => s.trap (.lnkerr pa 4)
      | (s, .word pa) =>
        match s.page s.site none g.ctx entryVa (.spill true) with
        | (s, .error e) => s.trap e
        | (s, .ok q) =>
          match s.barred q.pa entryVa with
          | some e => s.trap e
          | none => match bytes s g q.pa q.cmp, s.wouldSpoil q.cmp (cellsAt q.pa [0]) with
            | none, _ | _, true => (s.touchBad s.site g.ctx entryVa q.pa).trap (.decmp (entryVa / 256 * 256))
            | some cells, false => match s.tailFault s.site g.ctx (if inRemote pa then 0 else s.homeWord pa) with
              | (s, some f) => s.trap f
              | (s, none) =>
                if !s.mayAsk pa then s
                else s.irrevocably rel fun s =>
                  let s := (s.touch s.site g.ctx entryVa q.pa).touch s.site g.ctx desc pa
                  let op := s.me.nop
                  let e : HsqEntry := ⟨g.ctx, pa, s.here, some op, desc, s.me.pc, .chapp cmd entryVa q.pa q.cmp cells, 0⟩
                  let s := (if cmd then s.markOlder else s).issueY .chapp f none false i
                  if inRemote pa then s.remoteAnswer e else s.request e

/-- The chain form (R249): the instruction writes the entry and appends it. -/
def engineChain (s : State) (f : FmtY) (fn : Nat) (i : Instr) : Host.Outcome State Fault Refusal :=
  syncOp s f 3 fun s =>
    let body := s.me.readV f.sb
    chainAppend s f (yA s f) (yC s f) false
      (fun _ _ pa _ => some (cellsAt pa (bytesOf 64 body.toNat ++ bytesOf 8 (ctlWord f fn) ++ List.replicate 56 0))) true i

/-- CPY (R246). -/
def execCpy (f : FmtY) (s : State) : Host.Outcome State Fault Refusal := enginePort s f 0 (.cpy f)
/-- DENSE (R246). -/
def execDense (f : FmtY) (s : State) : Host.Outcome State Fault Refusal := enginePort s f 1 (.dense f)
/-- SPARSIFY (R246). -/
def execSparsify (f : FmtY) (s : State) : Host.Outcome State Fault Refusal := enginePort s f 2 (.sparsify f)
/-- A2A (R247). -/
def execA2a (f : FmtY) (s : State) : Host.Outcome State Fault Refusal := enginePort s f 3 (.a2a f)
/-- COLL (R248). -/
def execColl (f : FmtY) (s : State) : Host.Outcome State Fault Refusal := enginePort s f 4 (.coll f)
/-- CPY in the chain form (R249). -/
def execCpyChain (f : FmtY) (s : State) : Host.Outcome State Fault Refusal := engineChain s f 0 (.cpyChain f)
/-- DENSE in the chain form (R249). -/
def execDenseChain (f : FmtY) (s : State) : Host.Outcome State Fault Refusal := engineChain s f 1 (.denseChain f)
/-- SPARSIFY in the chain form (R249). -/
def execSparsifyChain (f : FmtY) (s : State) : Host.Outcome State Fault Refusal := engineChain s f 2 (.sparsifyChain f)
/-- A2A in the chain form (R249). -/
def execA2aChain (f : FmtY) (s : State) : Host.Outcome State Fault Refusal := engineChain s f 3 (.a2aChain f)
/-- COLL in the chain form (R249). -/
def execCollChain (f : FmtY) (s : State) : Host.Outcome State Fault Refusal := engineChain s f 4 (.collChain f)

/-- CHAPP (R252): the entry is appended, as the region's store buffer and memory hold it. -/
def execChapp (f : FmtY) (s : State) : Host.Outcome State Fault Refusal :=
  syncOp s f 2 fun s => chainAppend s f (yA s f) (yB s f) (f.ord.getLsbD 1)
    (fun s g pa cmp => (s.taskRead g cmp pa 128).map fun _ => State.heldCells g.buffer pa 128) false (.chapp f)

/-! ### The body of a command (R245) -/

/-- Bits [lo+n−1:lo] of the body. -/
def EngCmd.field (k : EngCmd) (lo n : Nat) : Nat := bits k.body.toNat lo n
def EngCmd.cw (k : EngCmd) : Nat := k.field 0 64
/-- The task, and the element of it with its operation, that issued a command. -/
def EngCmd.issuer (k : EngCmd) : Option (Nat × Nat × Nat) := match k.task, k.by_ with | some h, some b => some (h, b) | _, _ => none

namespace State

/-- The site of an engine. -/
def engineSite (d e : Nat) : Site := ⟨tileAt d 0 0, 11, e, 0⟩

/-- The store buffer that a command's reads see: that of the region that issued it, freeze-saved or not, while its task holds it (R244,
R261). -/
def bufferOf (s : State) (k : EngCmd) : List HeldStore :=
  match k.task with
  | some h =>
    match s.regions.find? fun q => q.2.task == h with
    | some q => q.2.buffer
    | none => match s.saved.find? fun x => x.region.task == h with | some x => x.region.buffer | none => []
  | none => []

/-- A tile of the region that runs a task, freeze-saved or not, counted within it. -/
def taskTile (s : State) (h i : Nat) : Option Tile :=
  match s.regions.find? fun q => q.2.task == h with
  | some q => some (s.tile (q.2.at_ i))
  | none => (s.saved.find? fun x => x.region.task == h).bind fun x => x.tiles[i]?

/-- An address field of 56 bits (R245). -/
def addrBad (a : Nat) : Bool := a / 2 ^ 56 != 0

/-- The element that issued a command has an earlier access that has not been performed: the engine's first access comes after it (R244,
R268). -/
def issuerBusy (s : State) (k : EngCmd) : Bool :=
  match k.task, k.by_ with
  | some h, some (i, op) => (s.taskTile h i).any fun T => T.ops.any fun o => o.num < op && o.value.isNone && o.kind != .lpatch
  | _, _ => false

/-- The checks of Table 3, made when a command starts; the address that the record names (R245). -/
def bodyFault (s : State) (d e c : Nat) (k : EngCmd) : State × Option Flt :=
  let bad := fun (a : Nat) => some (Flt.prot a 6)
  let p := engineSite d e
  let (s, cwBad) : State × Option Flt :=
    if k.cw = 0 then (s, none)
    else if k.cw % 8 != 0 || addrBad k.cw then (s, some (.prot k.cw 6))
    else match s.page p none c k.cw (.sync true) with
      | (s, .ok _) => (s, none)
      | (s, .error f) => (s, some f)
  match cwBad with
  | some f => (s, some f)
  | none =>
    match k.fn with
    | 0 =>
      (s, if addrBad (k.field 64 64) then bad (k.field 64 64) else if addrBad (k.field 128 64) then bad (k.field 128 64)
        else if k.field 232 280 != 0 then bad 0 else none)
    | 3 =>
      (s, if addrBad (k.field 64 64) || k.field 64 6 != 0 then bad (k.field 64 64)
        else if addrBad (k.field 128 64) || k.field 128 3 != 0 then bad (k.field 128 64)
        else if k.field 230 2 != 0 || k.field 232 16 = 0 || k.field 248 264 != 0 then bad 0 else none)
    | 4 =>
      let grp := k.field 64 64
      if addrBad grp || k.field 64 3 != 0 then (s, bad grp)
      else if addrBad (k.field 128 64) || k.field 128 6 != 0 then (s, bad (k.field 128 64))
      else if addrBad (k.field 192 64) || k.field 192 6 != 0 then (s, bad (k.field 192 64))
      else if k.field 256 32 = 0 || !([2, 3, 6, 7, 10, 11].contains (k.field 288 5)) || 2 < k.field 293 3 || k.field 328 184 != 0 then (s, bad 0)
      else match s.readRun p c (s.bufferOf k) grp 8 with
        | (s, .error f) => (s, some f)
        | (s, .ok bs) => (s, if ofBytes bs % 2 ^ 16 ≤ k.field 296 16 || ofBytes bs % 2 ^ 16 ≤ k.field 312 16 then bad 0 else none)
    | _ =>
      let desc := k.field 64 64
      let arr := k.field 128 64
      if addrBad desc then (s, bad desc)
      else match s.openAt p c desc (k.fn == 2) with
        | (s, .error f) => (s, some f)
        | (s, .ok pa) =>
          let n := s.descOrder pa
          let boxBad := (List.range 4).any fun i =>
            if i < n then k.field (320 + 32 * i) 32 = 0 || s.descExt pa i < k.field (192 + 32 * i) 32 + k.field (320 + 32 * i) 32
            else k.field (192 + 32 * i) 32 != 0 || k.field (320 + 32 * i) 32 != 0
          (s, if addrBad arr || arr % (Spec.tyWidth (s.descVty pa) / 8) != 0 then bad arr
            else if boxBad || k.field 448 64 != 0 then bad 0 else none)

/-! ### What the commands do (R246 to R248) -/

/-- The result of running a command: done, or stopped at a progress offset. -/
inductive Ran where
  | done
  | stopped (f : Flt) (prog : Nat)
  deriving DecidableEq, Repr

/-- Bytes written for an element in whole units of 256 from a progress offset, each unit made by `get` (R250). -/
def copyUnits (s : State) (p : Site) (c : Nat) (h : Option (Nat × Nat × Nat)) (dst len : Nat)
    (get : State → Nat → Nat → State × Except Flt (List Byte)) : Nat → Nat → State × Ran
  | 0, _ => (s, .done)
  | n + 1, o =>
    if len ≤ o then (s, .done)
    else match get s o (min 256 (len - o)) with
      | (s, .error f) => (s, .stopped f o)
      | (s, .ok bs) =>
        match s.writeRun p c h (dst + o) bs with
        | (s, none) => s.copyUnits p c h dst len get n (o + 256)
        | (s, some f) => (s, .stopped f o)

/-- The keys of a box, in linearisation order (R194, R246). -/
def boxKey (s : State) (pa : Nat) (k : EngCmd) (i : Nat) : Nat :=
  let dims := (List.range (s.descOrder pa)).map (s.descPerm pa)
  let coords := (dims.reverse.foldl (fun (q : List Nat × Nat) d =>
    let n := k.field (320 + 32 * d) 32
    ((k.field (192 + 32 * d) 32 + q.2 % n) :: q.1, q.2 / n)) ([], i)).1
  ((List.range dims.length).foldl (fun key j => key * s.descExt pa (dims.getD j 0) + coords.getD j 0) 0)

/-- Elements in the box. -/
def boxSize (s : State) (pa : Nat) (k : EngCmd) : Nat := (List.range (s.descOrder pa)).foldl (fun n i => n * k.field (320 + 32 * i) 32) 1

/-- The stores to a key that an element made before its command, and that are held still, are superseded by the one the engine makes
(R244); the task's other stores to the key stay (R199). -/
def cutKey (s : State) (h : Option (Nat × Nat × Nat)) (desc key : Nat) : State :=
  match h with
  | none => s
  | some (k, by_) =>
    let own := fun (x : HeldStore) => match x with | .key _ _ d k' _ _ => d == desc && k' == key | _ => false
    let olds := (s.regions.map Prod.snd ++ s.saved.map Saved.region).flatMap fun g => if g.task = k then (olderStores g by_).filter own else []
    (s.unreserve olds).cutTask h fun x => if own x then none else some x

/-- SPARSIFY from element i: nonzero elements are stored to their keys directly (R246, R250), each a request, in the granule of the
descriptor (R289, log entry 68). -/
def sparsifyFrom (s : State) (p : Site) (c desc pa : Nat) (k : EngCmd) (wb total : Nat) : Nat → Nat → State × Ran
  | 0, _ => (s, .done)
  | n + 1, i =>
    if total ≤ i then (s, .done)
    else match s.readRun p c (s.bufferOf k) (k.field 128 64 + wb * i) wb with
      | (s, .error f) => (s, .stopped f i)
      | (s, .ok bs) =>
        let v := BitVec.ofNat 64 (ofBytes bs)
        let key := s.boxKey pa k i
        if zeroValue (s.descVty pa) v then s.sparsifyFrom p c desc pa k wb total n (i + 1)
        else
        let s := s.touch p c desc pa
        if s.brokenAt pa key then (s, .stopped (.decmp desc) i)
        else match s.reserve pa key v with
          | none => (s, .stopped (.idxfull desc (s.partOf pa key)) i)
          | some (m, s) =>
            let s := ((s.applyKeys pa [(key, v)]).unreserve [.key p desc pa key v m]).cutKey k.issuer pa key
            s.sparsifyFrom p c desc pa k wb total n (i + 1)

/-- The Max write of a completion word (R244). -/
def maxWord (s : State) (pa n : Nat) : State := s.syncWrite pa 64 (max (s.syncRead pa 64) n)

/-- A CPY writes over its own source, ahead of what it has still to read (R246). -/
def overOwnSource (k : EngCmd) : Bool := k.fn = 0 && k.field 64 64 < k.field 128 64 && k.field 128 64 < k.field 64 64 + k.field 192 40

/-- The source of such a CPY read as far as it can be, and the fault that ends the reading. -/
def readAheadFrom (s : State) (p : Site) (c : Nat) (k : EngCmd) : Nat → List Byte → State × List Byte × Option Flt
  | 0, got => (s, got, none)
  | n + 1, got =>
    if k.field 192 40 ≤ got.length then (s, got, none)
    else match s.readRun p c (s.bufferOf k) (k.field 64 64 + got.length) (min 256 (k.field 192 40 - got.length)) with
      | (s, .ok bs) => s.readAheadFrom p c k n (got ++ bs)
      | (s, .error f) => (s, got, some f)

/-- A command with the source it must have read before its first write; a fault of that reading precedes every write (log entry 60). -/
def readAhead (s : State) (p : Site) (c : Nat) (k : EngCmd) : State × EngCmd × Option Flt :=
  if overOwnSource k then
    let (s, bs, f) := s.readAheadFrom p c k (k.field 192 40 / 256 + 1) (k.out.getD [])
    (s, { k with out := some bs }, f)
  else (s, k, none)

/-- The current command of an engine run from its progress offset, short of its completion. DESIGN CHOICE: a DENSE reads the committed tree
alone, by the seeks of R201 as R246 has it, and not the keys that its issuer's region has buffered (R244, R280; log entry 68). Its key
accesses are requests, in the granule of the descriptor (R289, log entry 68). -/
def runCommand (s : State) (d e c : Nat) (k : EngCmd) : State × Ran :=
  let p := engineSite d e
  match k.fn with
  | 0 =>
    let (src, dst, len) := (k.field 64 64, k.field 128 64, k.field 192 40)
    let got := k.out.getD []
    s.copyUnits p c k.issuer dst len (fun s o n =>
      if o + n ≤ got.length then (s, .ok ((got.drop o).take n)) else s.readRun p c (s.bufferOf k) (src + o) n) (len / 256 + 1) k.prog
  | 1 =>
    let desc := k.field 64 64
    match s.openAt p c desc false with
    | (s, .error f) => (s, .stopped f k.prog)
    | (s, .ok pa) =>
      let wb := Spec.tyWidth (s.descVty pa) / 8
      let total := s.boxSize pa k
      s.copyUnits p c k.issuer (k.field 128 64) (wb * total) (fun s o n =>
        let is := (List.range (n / wb)).map fun j => o / wb + j
        let s := is.foldl (fun (s : State) _ => s.touch p c desc pa) s
        if is.any fun i => s.brokenAt pa (s.boxKey pa k i) then (s, .error (.decmp desc))
        else (s, .ok (is.flatMap fun i => bytesOf wb (((s.committed pa (s.boxKey pa k i)).map BitVec.toNat).getD 0)))) (wb * total / 256 + 1) k.prog
  | 2 =>
    let desc := k.field 64 64
    match s.openAt p c desc true with
    | (s, .error f) => (s, .stopped f k.prog)
    | (s, .ok pa) =>
      let total := s.boxSize pa k
      s.sparsifyFrom p c desc pa k (Spec.tyWidth (s.descVty pa) / 8) total (total + 1) k.prog
  | 4 =>
    match k.out with
    | some bs => s.copyUnits p c k.issuer (k.field 192 64) bs.length (fun s o n => (s, .ok ((bs.drop o).take n))) (bs.length / 256 + 1) k.prog
    | none => (s, .done)
  | _ => (s, .done)

/-- The progress offset of a command that has performed all its accesses (R250 Table 4). -/
def lastOffset (s : State) (d e c : Nat) (k : EngCmd) : Nat :=
  let units := fun (n : Nat) => ceilDiv n 256 * 256
  let ofBox := fun (g : Nat → Nat) =>
    match s.openAt (engineSite d e) c (k.field 64 64) false with | (_, .ok pa) => g pa | (_, .error _) => k.prog
  match k.fn with
  | 0 => units (k.field 192 40)
  | 1 => ofBox fun pa => units (Spec.tyWidth (s.descVty pa) / 8 * s.boxSize pa k)
  | 2 => ofBox fun pa => s.boxSize pa k
  | 4 => units ((k.out.getD []).length)
  | _ => k.prog

/-- The completion word of a command is written; the fault that stops the engine instead (R244, R402). -/
def writeCw (s : State) (d e c : Nat) (k : EngCmd) (n : Nat) : State × Option Flt :=
  if k.cw = 0 then (s, none)
  else match s.page (engineSite d e) none c k.cw (.sync true) with
    | (s, .error f) => (s, some f)
    | (s, .ok q) =>
      match s.barred q.pa k.cw with
      | some f => (s, some f)
      | none =>
        let s := s.touch (engineSite d e) c k.cw q.pa
        if s.badSync q.pa then (s.mendSync q.pa, some (.decmp (k.cw / 256 * 256)))
        else if inRemote q.pa then (s, none)
        else (s.maxWord q.pa n, none)

/-- A word of a chain entry as its engine reads it, and one that it writes: accesses of the engine to a PLAIN page (R251, R374). -/
def entryWord (s : State) (d e c a : Nat) : State × Except Flt Nat :=
  match s.readRun (engineSite d e) c [] a 8 with
  | (s, .ok bs) => (s, .ok (ofBytes bs))
  | (s, .error f) => (s, .error f)
def setEntryWord (s : State) (d e c a v : Nat) : State × Option Flt :=
  match s.spans (engineSite d e) c (.spill true) none 2 a 8 with
  | (s, .error f) => (s, some f)
  | (s, .ok sp) => s.writeSpans (engineSite d e) c none sp (bytesOf 8 v)

/-- The status byte of a chain entry (R251). -/
def entryStat (s : State) (d e c entry v : Nat) : State × Option Flt := s.setEntryWord d e c (entry + 96) v

/-- Words of a chain descriptor as the engine that walks it reaches them: translated by the walker of its die (R374), each block a request
(R289), and a word in error made good (R402). Their places, or the first fault. -/
def chainPlaces (s : State) (d e c va : Nat) (write : Bool) : List Nat → List Nat → State × Except Flt (List Nat)
  | _, [] => (s, .ok [])
  | seen, i :: is =>
    let a := va + 8 * i
    match s.page (engineSite d e) none c a (.sync write) with
    | (s, .error f) => (s, .error f)
    | (s, .ok q) =>
      match s.barred q.pa a with
      | some f => (s, .error f)
      | none =>
        let s := if seen.contains (q.pa / 256) then s else s.touch (engineSite d e) c a q.pa
        if s.badSync q.pa then (s.mendSync q.pa, .error (.decmp (a / 256 * 256)))
        else match s.chainPlaces d e c va write (q.pa / 256 :: seen) is with
          | (s, .error f) => (s, .error f)
          | (s, .ok pas) => (s, .ok (q.pa :: pas))

/-- The head of a chain (R251); what a descriptor that now lies in another package holds, that package knows (log entry 22). -/
def chainHead (s : State) (d e c va : Nat) : State × Except Flt Nat :=
  match s.chainPlaces d e c va false [] [1] with
  | (s, .error f) => (s, .error f)
  | (s, .ok pas) =>
    let pa := pas.headD 0
    if inRemote pa then let (bs, s) := s.remoteRead pa 8; (s, .ok (ofBytes bs)) else (s, .ok (s.homeWord pa))

/-- The address of a chain that an engine walks, by where its descriptor lay when it was woken. -/
def chainVa (s : State) (d e c desc : Nat) : Nat := (((s.engine d e c).chains.find? fun q => q.1 == desc).map Prod.snd).getD 0

/-- The places of the words that the step past the head of a chain writes (R366): head, dseq and, when no entry is left, the tail. -/
def chainStepPlaces (s : State) (d e c desc link : Nat) (seq : Option Nat) : State × Except Flt (List Nat) :=
  s.chainPlaces d e c (s.chainVa d e c desc) true [] (1 :: (if seq.isSome then [3] else []) ++ if link = 0 then [0] else [])

/-- The chain moves past its head, as one step (R366): dseq, the head, and the tail when no entry is left. One of another package takes it
there. -/
def chainStep (s : State) (link : Nat) (seq : Option Nat) (pas : List Nat) : State :=
  let put := fun (s : State) (pa v : Nat) => if inRemote pa then s else s.syncWrite pa 64 v
  let rest := pas.drop 1
  match seq with
  | some n =>
    let s := put (put s (rest.headD 0) n) (pas.headD 0) link
    if link = 0 then put s ((rest.drop 1).headD 0) 0 else s
  | none =>
    let s := put s (pas.headD 0) link
    if link = 0 then put s (rest.headD 0) 0 else s

/-- The sequence number and the link of the entry of a command, which its engine may mark DONE. -/
def entryEnd (s : State) (d e c a : Nat) : State × Except Flt (Nat × Nat) :=
  match s.entryWord d e c (a + 80) with
  | (s, .error f) => (s, .error f)
  | (s, .ok seq) =>
    match s.spans (engineSite d e) c (.spill true) none 2 (a + 96) 8 with
    | (s, .error f) => (s, .error f)
    | (s, .ok _) =>
      match s.entryWord d e c (a + 72) with
      | (s, .error f) => (s, .error f)
      | (s, .ok link) => (s, .ok (seq, link))

/-- A command stops its engine at a fault (R250): its record names the engine and carries the progress offset, which the
command keeps. -/
def stopEngine (s : State) (d e c : Nat) (k : EngCmd) (f : Flt) (prog : Nat) : State :=
  let s := match k.entry with
    | some a =>
      let s := (s.setEntryWord d e c (a + 88) prog).1
      if f.replayable then s else (s.entryStat d e c a 3).1
    | none => s
  let seq := s.nextSeq d c
  let s := s.post (engineSite d e) c { f with detail := prog } false f.replayable false 0 (k.entry.getD k.ticket) 0
  let s := if f.code = 0x0F then s.count d .decmpRaised else s
  let E := s.engine d e c
  s.setEngine d e c { E with cur := some { k with prog := prog }, stopped := some seq, full := f.code == 7 }

/-- The COLL of a member of a group that an engine of its die has started: the engine, and the command. -/
def memberCmd (s : State) (die c grp ord : Nat) : Option (Nat × EngCmd) :=
  (List.range 8).findSome? fun e =>
    match (s.engine die e c).cur with
    | some k => if k.fn = 4 ∧ k.field 64 64 = grp ∧ k.ord = ord ∧ (s.engine die e c).stopped = none then some (e, k) else none
    | none => none

end State

/-- One element of a fold (R248): add rounds or wraps; min and max follow R128 and R140. -/
def foldElem (ty rop : Nat) (a b : Nat) : Nat :=
  let w := Spec.tyWidth ty
  if 8 ≤ ty then
    let f := fmtOfTy ty
    match rop with
    | 0 => roundVal f 0 false 0 (Val.add false (f.value a) (f.value b))
    | 1 => fminmax f false a b
    | _ => fminmax f true a b
  else
    let less := if 4 ≤ ty then a < b else sext a w < sext b w
    match rop with
    | 0 => (a + b) % 2 ^ w
    | 1 => if less then a else b
    | _ => if less then b else a

/-- The result of a member of a collective from the send buffers in rank order, as bytes (R248). -/
def collResult (aop ty rop cnt root rank : Nat) (sends : List (List Byte)) : Option (List Byte) :=
  let wb := Spec.tyWidth ty / 8
  let P := sends.length
  let elemAt := fun (bs : List Byte) (i : Nat) => ofBytes ((bs.drop (wb * i)).take wb)
  let fold := fun (i : Nat) => match sends.map fun bs => elemAt bs i with | x :: xs => xs.foldl (foldElem ty rop) x | [] => 0
  match aop with
  | 0 => some (sends.getD root [])
  | 1 => if rank = root then some ((List.range cnt).flatMap fun i => bytesOf wb (fold i)) else none
  | 2 => some ((List.range cnt).flatMap fun i => bytesOf wb (fold i))
  | 3 => some sends.flatten
  | _ =>
    let seg := ceilDiv cnt P
    some (((List.range seg).filter fun i => rank * seg + i < cnt).flatMap fun i => bytesOf wb (fold (rank * seg + i)))

/-! ### Events -/

/-- The next COLL of a group on a member takes the next ordinal (R248). -/
def nextOrdinal (s : State) (d c grp : Nat) : Nat × State :=
  let cs := (s.ctx c).colls
  match cs.find? fun x => x.1 == grp && x.2.1 == d with
  | some x => (x.2.2, s.onCtx c fun C => { C with colls := cs.map fun y => if y.1 == grp && y.2.1 == d then (grp, d, y.2.2 + 1) else y })
  | none => (0, s.onCtx c fun C => { C with colls := cs ++ [(grp, d, 1)] })

/-- A command becomes the engine's current one: its body is checked (R245), and a COLL takes its place in its group. -/
def startCommand (s : State) (d e c : Nat) (k : EngCmd) : State :=
  match s.bodyFault d e c k with
  | (s, some f) => s.stopEngine d e c k f k.prog
  | (s, none) =>
    let (o, s) := if k.fn = 4 then nextOrdinal s d c (k.field 64 64) else (0, s)
    let E := s.engine d e c
    s.setEngine d e c { E with cur := some { k with started := true, ord := o } }

/-- ENGINE_COMMAND_START (R245): the command at the head of an idle engine's queue starts, in turn with the chains (R366), once what its
issuer did before it has been performed (R244). -/
def execEngineCommandStart (d e c : Nat) (s : State) : Host.Outcome State Fault Refusal :=
  .next <|
    let E := s.engine d e c
    match E.queue, E.cur, E.stopped with
    | k :: q, none, none =>
      if (E.turn && !E.chains.isEmpty) || s.issuerBusy k then s
      else startCommand (s.setEngine d e c { E with queue := q, turn := true }) d e c k
    | _, _, _ => s

/-- The task, and the element with its operation, that issued the command of a sequence number in the chain form, in a region that may
have been saved since (R249, R261, R280). -/
def chainIssuer (s : State) (desc seq : Nat) : Option (Nat × Nat × Nat) :=
  (s.regions.map Prod.snd ++ s.saved.map Saved.region).findSome? fun g =>
    (g.chained.find? fun x => x.1 == desc && x.2.1 == seq).map fun x => (g.task, x.2.2)

/-- CHAIN_WALK (R366): the entry at the head of a chain is marked RUNNING and started, once what its issuer did before it has been
performed; a chain with no entry sleeps. A descriptor whose page is no longer mapped stops the engine (R374). The queue of port commands takes its turn against one chain at a time, and an aop of COLL above 4
is PROT as one of another command is (log entry 63). -/
def execChainWalk (d e c : Nat) (s : State) : Host.Outcome State Fault Refusal :=
  .next <|
    let E := s.engine d e c
    match E.chains, E.cur, E.stopped with
    | (ch, va) :: rest, none, none =>
      let noCmd : EngCmd := ⟨7, 0, 0, false, false, 0, 0, none, none, none, ch, 0, false, false, false, 0, none⟩
      if !E.turn && !E.queue.isEmpty then s
      else
      let s₀ := s
      match s.chainHead d e c va with
      | (s, .error f) => s.stopEngine d e c noCmd f 0
      | (s, .ok head) =>
      if head = 0 then s.setEngine d e c { E with chains := rest, turn := false }
      else
        let s := s.setEngine d e c { E with chains := rest ++ [(ch, va)], turn := false }
        match s.readRun (State.engineSite d e) c [] head 128 with
        | (s, .error f) => s.stopEngine d e c { noCmd with entry := some head } f 0
        | (s, .ok bs) =>
          let ctl := ofBytes ((bs.drop 64).take 8)
          let by_ := chainIssuer s ch (ofBytes ((bs.drop 80).take 8))
          let k : EngCmd := ⟨bits ctl 0 3, bits ctl 3 4, bits ctl 7 3, bit ctl 10, bit ctl 11, BitVec.ofNat 512 (ofBytes (bs.take 64)),
            0, by_.map Prod.fst, by_.map Prod.snd, some head, ch, ofBytes ((bs.drop 88).take 8), false, false, false, 0, none⟩
          if s.issuerBusy k then s₀
          else match s.entryStat d e c head 1 with
          | (s, some f) => s.stopEngine d e c k f 0
          | (s, none) =>
          if 4 < k.fn || (k.fn != 4 && k.aop != 0) || (k.fn == 4 && 4 < k.aop) || ctl / 2 ^ 12 != 0 then s.stopEngine d e c k (.prot head 6) 0
          else startCommand s d e c k
    | _, _, _ => s

/-- A command that has performed all its accesses, with the state they leave. -/
def finished (s : State) (d e c : Nat) (k : EngCmd) : Option State :=
  if k.fn = 3 then (if k.field 192 32 ≤ k.prog then some s else none)
  else if k.fn = 4 && !k.held then none
  else
    match s.readAhead (State.engineSite d e) c k with
    | (_, _, some _) => none
    | (s, k, none) => match s.runCommand d e c k with
      | (s, .done) => some s
      | _ => none

/-- ENGINE_COMMAND_COMPLETE (R244): the command's accesses are performed, then its completion word written and its sequence
number advanced; a chain moves to its next entry. -/
def execEngineCommandComplete (d e c : Nat) (s : State) : Host.Outcome State Fault Refusal :=
  .next <|
    let E := s.engine d e c
    match E.cur, E.stopped with
    | some k, none =>
      if !k.started then s
      else match finished s d e c k with
        | none => s
        | some s =>
          let stop := fun (s : State) f => s.stopEngine d e c k f (s.lastOffset d e c k)
          match k.entry with
          | none =>
            match s.writeCw d e c k k.ticket with
            | (s, some f) => stop s f
            | (s, none) => let E := s.engine d e c; s.setEngine d e c { E with cur := none, done := k.ticket }
          | some a =>
            match s.entryEnd d e c a with
            | (s, .error f) => stop s f
            | (s, .ok (seq, link)) =>
              match s.writeCw d e c k seq with
              | (s, some f) => stop s f
              | (s, none) =>
              match s.chainStepPlaces d e c k.chain link (some seq) with
              | (s, .error f) => stop s f
              | (s, .ok pas) =>
                match s.entryStat d e c a 2 with
                | (s, some f) => stop s f
                | (s, none) =>
                  let s := s.chainStep link (some seq) pas
                  let E := s.engine d e c
                  s.setEngine d e c { E with cur := none }
    | _, _ => s

/-- ENGINE_FAULT (R250): the current command meets a fault; what precedes it has been performed. -/
def execEngineFault (d e c : Nat) (s : State) : Host.Outcome State Fault Refusal :=
  .next <|
    let E := s.engine d e c
    match E.cur, E.stopped with
    | some k, none =>
      if !k.started || k.fn = 3 || (k.fn = 4 && !k.held) then s
      else
        match s.readAhead (State.engineSite d e) c k with
        | (s₁, k, some f) => s₁.stopEngine d e c k f k.prog
        | (s₁, k, none) => match s₁.runCommand d e c k with
          | (s₂, .stopped f prog) => s₂.stopEngine d e c k f prog
          | (_, .done) => s
    | _, _ => s

/-- The queue of a record: the fields of its descriptor (R247). -/
def queueField (s : State) (pa i : Nat) : Nat := s.homeWord (pa + 8 * i)

/-- Where the next record of an A2A goes: its destination, its queue descriptor, and the slot it may take with the descriptor
word that counts it; no slot when the queue and the ring are full (R247). For a queue of another package, whose room is not known
here, the slot is free, and word 8 says that nothing is written here (log entry 22). -/
def a2aSlot (s : State) (d e c : Nat) (k : EngCmd) : State × Except Flt (Nat × Nat × Nat × List Byte × Option (Nat × Nat)) :=
  let p := State.engineSite d e
  let rsz := k.field 224 6
  let size := 64 * (rsz + 1)
  let src := k.field 64 64 + size * k.prog
  match s.readRun p c (s.bufferOf k) src size with
  | (s, .error f) => (s, .error f)
  | (s, .ok bs) =>
    let dest := ofBytes (bs.take 4)
    if k.field 232 16 ≤ dest then (s, .error (.prot src 3))
    else match s.readRun p c (s.bufferOf k) (k.field 128 64 + 8 * dest) 8 with
      | (s, .error f) => (s, .error f)
      | (s, .ok rt) =>
        let desc := ofBytes rt
        if desc % 8 != 0 then (s, .error (.prot desc 2))
        else match s.page p none c desc (.sync true) with
          | (s, .error f) => (s, .error f)
          | (s, .ok q) =>
            if let some f := s.barred q.pa desc then (s, .error f)
            else if inRemote q.pa then let (x, s) := s.draw; (s, .ok (dest, desc, q.pa, bs, if x.getLsbD 0 then some (0, 8) else none))
            else if let some i := (List.range 8).find? fun i => s.badSync (q.pa + 8 * i) then
              ((List.range 8).foldl (fun s i => if s.badSync (q.pa + 8 * i) then s.mendSync (q.pa + 8 * i) else s) s,
                .error (.decmp ((desc + 8 * i) / 256 * 256)))
            else
            let w := queueField s q.pa
            if bits (w 1) 32 6 != rsz then (s, .error (.prot desc 6))
            else
              let cap := bits (w 1) 0 32
              let rcap := bits (w 5) 0 32
              let slot :=
                if w 6 = w 7 && (w 3 + 2 ^ 64 - w 2) % 2 ^ 64 < cap then some (w 0 + size * (w 3 % cap), 3)
                else if (w 7 + 2 ^ 64 - w 6) % 2 ^ 64 < rcap then some (w 4 + size * (w 7 % rcap), 7) else none
              (s, .ok (dest, desc, q.pa, bs, slot))

/-- A2A_DELIVERY (R247): the next record is delivered whole to its queue or ring, or the command is held and QOVF recorded. -/
def execA2aDelivery (d e c : Nat) (s : State) : Host.Outcome State Fault Refusal :=
  .next <|
    let E := s.engine d e c
    match E.cur, E.stopped with
    | some k, none =>
      if k.fn != 3 || !k.started || k.held || k.field 192 32 ≤ k.prog then s
      else match a2aSlot s d e c k with
        | (s, .error f) => s.stopEngine d e c k f k.prog
        | (s, .ok (dest, desc, pa, bs, slot)) =>
          let s := s.touch (State.engineSite d e) c desc pa
          match slot with
          | none =>
            let s := if k.qovf then s else (s.post (State.engineSite d e) c ⟨0x10, desc, dest⟩ false false true 0 (k.entry.getD k.ticket) 0).count d .qovf
            s.setEngine d e c { s.engine d e c with cur := some { k with held := true, qovf := true } }
          | some (_, 8) => s.setEngine d e c { s.engine d e c with cur := some { k with prog := k.prog + 1 } }
          | some (a, w) =>
            match s.writeRun (State.engineSite d e) c k.issuer a bs with
            | (s, some f) => s.stopEngine d e c k f k.prog
            | (s, none) =>
              let s := s.syncWrite (pa + 8 * w) 64 ((queueField s pa w + 1) % 2 ^ 64)
              s.setEngine d e c { s.engine d e c with cur := some { k with prog := k.prog + 1 } }
    | _, _ => s

/-- A2A_RESUME (R247): a held command goes on once the consumer has made room; each look at the queue is a request of the engine
(R289, log entry 60), and a fault that it meets stops it. -/
def execA2aResume (d e c : Nat) (s : State) : Host.Outcome State Fault Refusal :=
  .next <|
    let E := s.engine d e c
    match E.cur, E.stopped with
    | some k, none =>
      if k.fn = 3 && k.held then
        match a2aSlot s d e c k with
        | (s, .error f) => s.stopEngine d e c k f k.prog
        | (s, .ok (_, desc, pa, _, slot)) =>
          let s := s.touch (State.engineSite d e) c desc pa
          if slot.isSome then s.setEngine d e c { s.engine d e c with cur := some { k with held := false } } else s
      else s
    | _, _ => s

/-- The members of a group: package and die (R248), or the fault of a read of its table, which is that engine's own. -/
def groupOf (s : State) (d e c : Nat) (k : EngCmd) : State × Except Flt (List (Nat × Nat)) :=
  let grp := k.field 64 64
  match s.readRun (State.engineSite d e) c (s.bufferOf k) grp 8 with
  | (s, .error f) => (s, .error f)
  | (s, .ok w0) =>
    let n := ofBytes w0 % 2 ^ 16
    match s.readRun (State.engineSite d e) c (s.bufferOf k) (grp + 8) (8 * n) with
    | (s, .error f) => (s, .error f)
    | (s, .ok bs) => (s, .ok ((List.range n).map fun i => let w := ofBytes ((bs.drop (8 * i)).take 8); (bits w 0 11, bits w 11 2)))

/-- COLL_MATCH (R248): once every member of this package has its COLL running, the members' agreement is checked and each one's
result is formed, in the order of the ranks that their bodies name (R245). A rank that no member of this package names is one of another
package's: what is sent there is its own (log entries 22, 38). A command that has its result is marked held until it has written it. -/
def execCollMatch (d e c : Nat) (s : State) : Host.Outcome State Fault Refusal :=
  let s₀ := s
  .next <| match (s.engine d e c).cur, (s.engine d e c).stopped with
  | some k, none =>
    if k.fn != 4 || !k.started || k.held then s
    else match groupOf s d e c k with
      | (s, .error f) => s.stopEngine d e c k f k.prog
      | (s, .ok ms) =>
        let mine := fun (m : Nat × Nat) => m.1 == s.fleet.pkg.toNat
        let cmds := ms.map fun m => if mine m then (s.memberCmd m.2 c (k.field 64 64) k.ord).map fun x => (m.2, x.1, x.2) else none
        let here := cmds.filterMap id
        if (ms.filter mine).length != here.length then s₀
        else
          let agree := here.all fun x => x.2.2.aop == k.aop && x.2.2.field 256 32 == k.field 256 32 && x.2.2.field 288 8 == k.field 288 8
            && x.2.2.field 312 16 == k.field 312 16
          if !agree then here.foldl (fun s x => s.stopEngine x.1 x.2.1 c x.2.2 (.prot (k.field 64 64) 6) x.2.2.prog) s
          else
            let ranked := (List.range ms.length).map fun r => here.find? fun x => x.2.2.field 296 16 == r
            let ty := k.field 288 5
            let cnt := k.field 256 32
            let len := cnt * (Spec.tyWidth ty / 8)
            let (s, sends, bad) := ranked.zipIdx.foldl (fun (q : State × List (List Byte) × Option (Nat × Nat × EngCmd × Flt)) x =>
              if k.aop = 0 && x.2 != k.field 312 16 then (q.1, q.2.1 ++ [[]], q.2.2)
              else match x.1 with
              | none => let (bs, s) := q.1.remoteRead remoteBase len; (s, q.2.1 ++ [bs], q.2.2)
              | some (md, me, mk) =>
                match q.1.readRun (State.engineSite md me) c (q.1.bufferOf mk) (mk.field 128 64) len with
                | (s, .ok bs) => (s, q.2.1 ++ [bs], q.2.2)
                | (s, .error f) => (s, q.2.1 ++ [[]], some (md, me, mk, f))) (s, [], none)
            match bad with
            | some (md, me, mk, f) => s.stopEngine md me c mk f mk.prog
            | none =>
              here.foldl (fun s x =>
                let (md, me, mk) := x
                let out := collResult k.aop ty (k.field 293 3) cnt (k.field 312 16) (mk.field 296 16) sends
                s.setEngine md me c { s.engine md me c with cur := some { mk with out := out, held := true } }) s
  | _, _ => s

end Sys2Proof.Machine
end

