-- ==== Sys2Proof/Machine/Sched.lean ====
section
/-! DEFINITION. The scheduler of a die (R24, R33 to R37, R360 to R363): exhaustion, admission age, allocation, quiescence and
dependences; and the reissue of units that wait for index nodes (R200). -/

namespace Sys2Proof.Machine

namespace State

/-! ### Exhaustion (R34 to R36) -/

/-- RESX: an irrevocable task freezes, as for a precise fault, until it is resumed with a larger allowance (R36, R381). -/
def resx (s : State) (r : Nat) (g : Region) (causes : Nat) : State :=
  let seq := s.nextSeq g.die g.ctx
  let lseq := ((s.task? g.task).map Task.lseq).getD 0
  let s := (s.postDie g.die g.ctx ⟨0x0E, 0, causes⟩ true false lseq g.task).count g.die .resx
  s.setRegion r { g with
    frozen := true
    cause := 0
    records := g.records ++ [⟨seq, 0x0E, tileAt g.die 0 0, 0, 0, causes, 0, 0⟩] }

/-- The allowance of a region's task has run out (R33). -/
def spent (s : State) (g : Region) : Bool := match s.task? g.task with | some k => 2 ^ k.texp ≤ g.clk | none => false

/-! ### Rectangles (R37, R362, R363) -/

/-- The variants of a launch that a task may use, ascending, with those above 24 tiles skipped (R46, R362). -/
def variantsFor (l : Launch) : List (Nat × Variant) :=
  ((List.range (Hdr.nvar l.hdr)).filter (bit l.vmask)).filterMap fun i =>
    let v := variantOf l.hdr i
    if v.w ≤ 24 && v.h ≤ 24 then some (i, v) else none

/-- The origins where a variant fits on a die, in the order of (ty, tx); even ones for a quad variant (R67). -/
def origins (v : Variant) : List (Nat × Nat) :=
  let all := (List.range 24).flatMap fun oy => (List.range 24).map fun ox => (ox, oy)
  all.filter fun o => o.1 + v.w ≤ 24 && o.2 + v.h ≤ 24 && (!v.quad || (o.1 % 2 == 0 && o.2 % 2 == 0))

def rectTiles (d : Nat) (v : Variant) (o : Nat × Nat) : List Nat :=
  (List.range v.h).flatMap fun y => (List.range v.w).map fun x => tileAt d (o.2 + y) (o.1 + x)

/-- The tiles of a reservation on a die: task, variant and origin (R37). -/
def reservationTiles (s : State) (d : Nat) (q : Nat × Nat × Nat × Nat) : List Nat :=
  match s.task? q.1 with
  | some k => match s.launchBy (taskKey k) with
    | some l => rectTiles d (variantOf l.hdr q.2.1) (q.2.2.1, q.2.2.2)
    | none => []
  | none => []

/-- One task became ready before another, which decides between reservations that overlap (R360, log entry 64). -/
def olderThan (s : State) (h h' : Nat) : Bool :=
  let at_ := fun (h : Nat) => ((s.task? h).map Task.readyAt).getD 0
  at_ h < at_ h' || (at_ h == at_ h' && h < h')

/-- The tiles that reservations on a die keep from task h: those reserved for other tasks (R37). Where task h has a reservation itself, a
younger one does not keep the tiles of its rectangle from it (log entry 64). -/
def reservedTiles (s : State) (d h : Nat) : List Nat :=
  let all := (s.die d).reserve.filterMap id
  let own := (all.filter fun q => q.1 == h).flatMap fun q => s.reservationTiles d q
  (all.filter fun q => q.1 != h).flatMap fun q =>
    (s.reservationTiles d q).filter fun t => !(s.olderThan h q.1 && own.contains t)

/-- Reservations of a task in which a tile has been fenced since are given up, to be chosen anew (R37, R418, log entry 64). -/
def freshReserve (s : State) (h : Nat) : State :=
  { s with dies := (List.range s.dies.length).map fun d =>
      let D := s.die d
      { D with reserve := D.reserve.map fun q => q.filter fun x => x.1 != h || !(s.reservationTiles d x).any fun t => (s.tile t).fenced } }

/-- The rectangles that a variant could take for task h. -/
def freeRects (s : State) (d h : Nat) (v : Variant) : List (Nat × Nat) :=
  let taken := s.reservedTiles d h
  (origins v).filter fun o => (rectTiles d v o).all fun t => !(s.tile t).fenced && (s.tile t).region.isNone && !taken.contains t

/-- The vault that the first AG frame of a variant names, when its translation is cached and the vault is on this die (R362). -/
def anchorVault (s : State) (d c img variant : Nat) : Option Nat :=
  match s.frameList c img variant with
  | none => none
  | some (_, list) =>
    match ((List.range list.length).map fun i => entryOf i (list.getD i [])).find? fun e => e.unit == 7 with
    | none => none
    | some e =>
      let va := bits (e.w 1) 0 56
      match s.cached d none c va with
      | none => none
      | some q =>
        let pa := s.localOf (bits q.pte.toNat 12 44 * 4096 + va % 2 ^ q.size)
        if inVault pa && homeVault pa / 64 = d then some (homeVault pa) else none

/-- Of the rectangles with the most of a score, the first. -/
def bestRect (score : Nat × Nat → Nat) : List (Nat × Nat) → Option (Nat × Nat)
  | [] => none
  | o :: os =>
    match bestRect score os with
    | none => some o
    | some b => if score o < score b then some b else some o

/-- The rectangle for a task on a variant: the largest overlap with the tiles under the anchor vault, then the lowest origin. -/
def chooseRect (s : State) (d h c img i : Nat) (v : Variant) : Option (Nat × Nat) :=
  let near := match s.anchorVault d c img i with | some a => vaultTiles a | none => []
  bestRect (fun o => ((rectTiles d v o).filter near.contains).length) (s.freeRects d h v)

/-- A region is made on a rectangle for a task; its load is to begin. Carve-outs that another context used are zeroed (R152). -/
def makeRegion (s : State) (d h c img i : Nat) (v : Variant) (o : Nat × Nat) : State :=
  let r := s.nregion
  let g : Region :=
    { die := d, ox := o.1, oy := o.2, w := v.w, h := v.h, quad := v.quad, variant := i, img := img, ctx := c, task := h,
      running := false, stopped := false, drain := none, frozen := false, records := [], shadow := false, switching := false, gen := 0,
      loader := ⟨.reading, img, i, false, [], 0, []⟩, nxt := 0, nxtv := 0, sig := 0, scrubAt := 0, repair := [], first := (img, i), buffer := [], used := 0,
      reads := [], writes := [], begun := s.commits.length, clk := 0, quiet := false, bsync := none, chained := [], cause := 0, scr := v.scr,
      argAt := tileAt d (o.2 + v.argdy) (o.1 + v.argdx), argUnit := v.argunit, argPort := v.argport, protect := [], stopWave := false,
      moving := false, marks := [] }
  let s := g.tiles.foldl (fun s t => s.onTile t fun T =>
    let T := if T.owner = some c then T else { T with scratch := [], spSites := [], owner := some c }
    { T.clearShadow with region := some r }) s
  { s.setRegion r g with nregion := r + 1 }

/-- A task that has its rectangle holds no reservation (R37). -/
def dropReserve (s : State) (h : Nat) : State :=
  { s with dies := s.dies.map fun D => { D with reserve := D.reserve.map fun q => q.filter fun x => x.1 != h } }

/-- A task takes a rectangle. -/
def placeTask (s : State) (d h i : Nat) (k : Task) (l : Launch) (v : Variant) (o : Nat × Nat) : State :=
  let r := s.nregion
  let s := (s.makeRegion d h k.ctx l.img i v o).setTask h { k with
    phase := .running r
    reserved := true
    aged := false }
  (s.dropReserve h).count d .issue

/-- The ready tasks of a die in the order they are offered (R360). -/
def offered (s : State) (d : Nat) : List Nat :=
  let ready := fun (h : Nat) => match s.task? h with
    | some k => k.phase == .ready && (s.ctx k.ctx).state == 1 && !(s.ctx k.ctx).stop.getLsbD d
        && (match s.launchBy (taskKey k) with | some l => !l.stopped | none => false)
    | none => false
  let all := ([3, 2, 1, 0].flatMap fun p => (s.die d).queues.getD p []).filter ready
  let aged := all.filter fun h => (s.task? h).any fun k => k.aged
  let since := fun (h : Nat) => ((s.task? h).map Task.readyAt).getD 0
  sortOn since aged ++ all.filter fun h => !aged.contains h

/-- Where the allocator would place a task. -/
def placement (s : State) (d h : Nat) : Option (Task × Launch × Nat × Variant × (Nat × Nat)) :=
  match s.task? h with
  | none => none
  | some k =>
    match s.launchBy (taskKey k) with
    | none => none
    | some l =>
      if s.queueRoom d k.prio = 0 then none
      else (variantsFor l).findSome? fun q => (s.chooseRect d h k.ctx l.img q.1 q.2).map fun o => (k, l, q.1, q.2, o)

/-- The rectangle a reservation of a variant takes: the fewest tiles of running regions, then the lowest origin (R363). -/
def reserveRect (s : State) (d h i : Nat) (v : Variant) : Option (Nat × Nat × Nat × Nat) :=
  let usable := (origins v).filter fun o => (rectTiles d v o).all fun t => !(s.tile t).fenced
  let idle := fun (o : Nat × Nat) => ((rectTiles d v o).filter fun t => (s.tile t).region.isNone).length
  (bestRect idle usable).map fun o => (h, i, o.1, o.2)

/-- The rectangle a reservation takes, with the smallest allowed variant (R363). -/
def reservation (s : State) (d h : Nat) (l : Launch) : Option (Nat × Nat × Nat × Nat) :=
  match (variantsFor l).getLast? with
  | none => none
  | some (i, v) => s.reserveRect d h i v

/-! ### Regions that wait to be restored (R388) -/

/-- The saved regions that the allocator is to place: the next of each restore in progress, and those that move off a fenced tile. -/
def toRestore (s : State) : List Saved :=
  s.saved.filter fun x => x.region.moving || (match (s.ctx x.ctx).restoring, (s.ctx x.ctx).restore with
    | some k, off :: _ => x.area == k.w2.toNat + off
    | _, _ => false)

/-- A ready task of a die that has reached its age earlier than a saved one, and that fits somewhere, is offered before it (R360). -/
def olderWaits (s : State) (d : Nat) (k : Task) : Bool :=
  (s.offered d).any fun h => match s.task? h with
    | some q => q.aged && q.readyAt < k.readyAt && (s.placement d h).isSome
    | none => false

/-- The shape of a saved region. -/
def savedShape (g : Region) : Variant := { variantOf [] 0 with w := g.w, h := g.h, quad := g.quad }

/-- A rectangle for a saved region on a live die, as for a task that has reached its age (R67, R360, R362). -/
def restorePlace (s : State) (g : Region) : Option (Nat × Nat × Nat) :=
  match s.task? g.task with
  | none => none
  | some k =>
    ((List.range 4).filter fun d => s.boot.live.getLsbD d && 2 ≤ s.queueRoom d k.prio && !s.olderWaits d k).findSome? fun d =>
      (s.chooseRect d g.task g.ctx g.img g.variant (savedShape g)).map fun o => (d, o.1, o.2)

/-- A saved region that finds no rectangle holds a reservation on a live die that has none of its priority (R37, R388), chosen anew where a
tile in it has been fenced. -/
def reserveRestore (s : State) (g : Region) : State :=
  match s.task? g.task with
  | none => s
  | some k =>
    let l := s.launchBy (taskKey k)
    let i := ((l.map fun l => Hdr.variants l.hdr).getD []).findIdx fun v => v.w == g.w && v.h == g.h
    let s := s.freshReserve g.task
    let held := s.dies.any fun D => D.reserve.any fun q => q.any fun x => x.1 == g.task
    match (List.range 4).find? fun d => s.boot.live.getLsbD d && ((s.die d).reserve.getD k.prio none).isNone with
    | none => s
    | some d =>
      match s.reserveRect d g.task i (savedShape g) with
      | some q => if held then s else (s.onDie d fun D => { D with reserve := D.reserve.set k.prio (some q) }).count d .reservation
      | none => s

/-- A saved region comes before this task on a die: it fits there, and it is the older one that has reached its age (R360, R388). -/
def restoreFirst (s : State) (d : Nat) (k : Task) : Bool :=
  s.toRestore.any fun x => (s.restorePlace x.region).any (fun p => p.1 == d)
    && (!k.aged || ((s.task? x.region.task).any fun q => q.readyAt ≤ k.readyAt))

/-! ### Index nodes (R200) -/

/-- A partition has the nodes that so many stores of a nonzero value reserve at its present height, and those of one store at least. -/
def nodesFree (s : State) (c va part stores : Nat) : Bool :=
  match s.walk c va 1 with
  | .error _ => false
  | .ok q =>
    let d := s.localOf q.pa
    match tabGet d s.trees with
    | none => false
    | some tr => let p := tr.parts.getD part Part.empty; p.reserved + max stores 1 * (p.height + 1) ≤ p.free (s.partNodes d)

/-- An engine that an IDXFULL stopped goes on. -/
def reissueEngine (s : State) (d e c : Nat) : State :=
  let E := s.engine d e c
  match E.cur with
  | some k =>
    if !E.full then s
    else match s.walk c (k.field 64 64) 1 with
      | .error _ => s
      | .ok q =>
        let desc := s.localOf q.pa
        if s.nodesFree c (k.field 64 64) (s.partOf desc (s.boxKey desc k k.prog)) 0 then s.setEngine d e c { E with stopped := none, full := false }
        else s
  | none => s

end State

/-- TIME_ALLOWANCE_EXPIRY (R33, R34). -/
def execTimeAllowanceExpiry (r : Nat) (s : State) : Host.Outcome State Fault Refusal :=
  .next (match s.region? r with
    | some g => if !g.frozen && s.spent g then s.exhaust r 2 else s
    | none => s)

/-- EXHAUSTION (R35, R36): a speculative task is drained, to be split; an irrevocable one raises RESX. A frozen task does not
exhaust (R33, R261). -/
def execExhaustion (r cause : Nat) (s : State) : Host.Outcome State Fault Refusal :=
  .next (match s.region? r with
    | none => s
    | some g =>
      if g.quiet || g.drain.isSome then s
      else if g.frozen then s.setRegion r { g with cause := 0 }
      else
        let causes := g.cause ||| 2 ^ cause
        if s.irrevocable g then s.resx r g causes
        else State.drain (s.setRegion r { g with cause := causes }) r .split)

/-- ADMISSION_AGE_EXPIRY (R37, R363): a ready task that has waited for its age splits; at minimum grain it gets a reservation,
of which its die holds one for each priority, and another one where a tile of it has been fenced (log entry 64). -/
def execAdmissionAgeExpiry (h : Nat) (s : State) : Host.Outcome State Fault Refusal :=
  .next (match s.task? h with
    | none => s
    | some k =>
      if k.phase != .ready || s.time < k.readyAt + 2 ^ (s.die k.die).age then s
      else match s.launchBy (State.taskKey k) with
        | none => s
        | some l =>
          let s := (s.setTask h { k with aged := true }).freshReserve h
          match splitDom k.dom l.grains with
          | some _ => if s.queueRoom k.die k.prio = 0 then s else (s.splitTask h).getD s
          | none =>
            match (s.die k.die).reserve.getD k.prio none, s.reservation k.die h l with
            | none, some q => (s.onDie k.die fun D => { D with reserve := D.reserve.set k.prio (some q) }).count k.die .reservation
            | _, _ => s)

/-- QUIESCENCE_REPORT (R24): a drained region is released; any other commits, its task completes, and it is released. -/
def execQuiescenceReport (r : Nat) (s : State) : Host.Outcome State Fault Refusal :=
  .next (match s.region? r with
    | none => s
    | some g =>
      match g.drain with
      | some why => if s.drained g then ((s.releaseRegion r).afterDrain why g.task g.cause).endActing r else s
      | none =>
        if s.quiescent g then
          (s.setRegion r { g with quiet := true }).commit r true fun s => (s.complete g.task).releaseRegion r
        else s)

/-- DEPENDENCE_DECREMENT (R361): a predecessor of the task has completed; at 0 the task is ready. -/
def execDependenceDecrement (h : Nat) (s : State) : Host.Outcome State Fault Refusal :=
  .next (match s.task? h with
    | none => s
    | some k =>
      let open_ := (s.tasks.filter fun q => q.2.phase != .done && q.2.succs.contains h).length
      if k.deps ≤ open_ then s
      else
        let ready := k.deps = 1 && k.phase == .waiting
        s.setTask h { k with
          deps := k.deps - 1
          phase := if ready then .ready else k.phase
          readyAt := if ready then s.time else k.readyAt })

/-- ALLOCATE (R362): the first task offered that fits somewhere is placed, unless a region that waits to be restored comes before it
(R388). -/
def execAllocate (d : Nat) (s : State) : Host.Outcome State Fault Refusal :=
  .next (if !s.boot.live.getLsbD d then s
    else match (s.offered d).findSome? fun h => (s.placement d h).map fun p => (h, p) with
      | some (h, k, l, i, v, o) => if s.restoreFirst d k then s else s.placeTask d h i k l v o
      | none => s)

/-- IDXFULL_REISSUE (R200): the units of a region, and the engines, that wait for nodes which are now free are reissued. -/
def execIdxfullReissue (r : Nat) (s : State) : Host.Outcome State Fault Refusal :=
  .next
    (let s := match s.region? r with
      | none => s
      | some g => let done := fun (x : LiveRecord) => x.code == 0x07 && s.nodesFree g.ctx x.va x.detail x.stores
        if g.records.any done then (s.thawBy r done).reissueAll r else s
    (List.range 4).foldl (fun s d => (List.range 8).foldl (fun s e => (List.range 4).foldl (fun s c => s.reissueEngine d e c) s) s) s)

end Sys2Proof.Machine
end

