-- ==== Sys2Proof/Machine/LaunchEv.lean ====
section
/-! DEFINITION. Events of the launch path: arms from the host, starts, packets, pending pieces and reports (R257, R352, R357 to
R360). -/

namespace Sys2Proof.Machine

/-- LAUNCH_ARM (R352): record n of context c is armed, and its status goes to lastarm; one with a word in error cannot be read (R401). -/
def execLaunchArm (c n : Nat) (s : State) : Host.Outcome State Fault Refusal :=
  .next (if (s.ctx c).state = 1 && n < 4096 && !s.recordSpoiled c n then (s.armRecord c n []).2 else s)

/-- LAUNCH_START (R257): a record that waits with dcnt 0 becomes RUNNING. -/
def execLaunchStart (c n : Nat) (s : State) : Host.Outcome State Fault Refusal :=
  .next (match s.current c n with
    | none => s
    | some l => if !l.running && s.recField c n 11 8 8 == 1 && s.recField c n 9 16 16 == 0 then s.runRecord l else s)

/-- The pieces of a launch that a die enqueues (R358): those whose place in the order falls to the die's rank. -/
def piecesFor (l : Launch) (d : Nat) : List (List (Nat × Nat)) :=
  let nl := popcount l.live.toNat 4
  let rank := popcount (l.live.toNat % 2 ^ d) 4
  let ps := piecesOf l.grains nl 4 [l.dom]
  (List.range ps.length).filterMap fun j => if (l.lseq + j) % nl = rank then ps[j]? else none

namespace State

/-- The task of a launch piece. -/
def pieceTask (l : Launch) (d : Nat) (dom : List (Nat × Nat)) : Task :=
  { ctx := l.ctx, idx := l.idx, lseq := l.lseq, die := d, dom := dom, texp := l.texp, prio := l.prio, args := l.args, phase := .waiting,
    deps := 0, succs := [], irrev := false, replays := 0, depth := 0, parent := none, kids := 0, readyAt := 0, aged := false,
    reserved := false, by_ := none, record := 0 }

/-- A piece enters its queue when two slots are free (R360). -/
def enqueuePiece (s : State) (l : Launch) (d : Nat) (dom : List (Nat × Nat)) : State :=
  let h := s.nhandle
  State.enqueue { s.setTask h (pieceTask l d dom) with nhandle := h + 1 } h

/-- A piece of the queue's priority waits in the die's list. -/
def pieceWaits (s : State) (d prio : Nat) : Bool :=
  (s.die d).pending.any fun p => match s.launchBy p.1 with | some l => l.prio == prio | none => false

end State

/-- LAUNCH_PACKET (R358, R360): the die takes its pieces of the launch; one that finds fewer than two free slots is pending. -/
def execLaunchPacket (d k : Nat) (s : State) : Host.Outcome State Fault Refusal :=
  .next (match s.launchBy k with
    | none => s
    | some l =>
      if !l.running || l.sent.contains d || !l.live.getLsbD d then s
      else
        let s := s.setLaunch { l with sent := l.sent ++ [d] }
        let dest := if (s.die d).failed then ((List.range 4).find? fun x => s.boot.live.getLsbD x).getD d else d
        (piecesFor l d).foldl (fun s p =>
          if s.queueRoom dest l.prio < 2 || s.pieceWaits dest l.prio then s.onDie dest fun D => { D with pending := D.pending ++ [(k, p)] }
          else s.enqueuePiece l dest p) s)

/-- PENDING_PIECE_ENQUEUE (R360): pending pieces enter their queues in ascending lseq. DESIGN CHOICE: pieces of different contexts with one
lseq keep the order in which they came (log entry 68). -/
def execPendingPieceEnqueue (d : Nat) (s : State) : Host.Outcome State Fault Refusal :=
  .next
    (let ps := (sortOn (fun a => a.1 / 4) (s.die d).pending)
    match ps.find? fun p => match s.launchBy p.1 with | some l => 2 ≤ s.queueRoom d l.prio | none => true with
    | none => s
    | some p =>
      let s := s.onDie d fun D => { D with pending := D.pending.erase p }
      match s.launchBy p.1 with
      | some l => s.enqueuePiece l d p.2
      | none => s)

/-- DIE_REPORT (R359, R419): a die that received a piece reports once, when no task of the launch is left on it; with the last
report the launch completes. The last report, and that of a fenced die, wait for all that is left of the launch. -/
def execDieReport (d k : Nat) (s : State) : Host.Outcome State Fault Refusal :=
  .next (match s.launchBy k with
    | none => s
    | some l =>
      let failed := (s.die d).failed
      let last := min l.pieces (popcount l.live.toNat 4) ≤ l.reported.length + 1
      let busy := (s.tasks.any fun q => State.unfinished l q.2 && (failed || last || q.2.die == d))
        || (List.range 4).any fun x => (failed || last || x == d) && (s.die x).pending.any fun p => p.1 == k
      if !l.sent.contains d || (piecesFor l d).isEmpty || l.reported.contains d || busy then s
      else
        let l := { l with reported := l.reported ++ [d] }
        let s := s.setLaunch l
        if last then s.completeLaunch d l else s)

end Sys2Proof.Machine
end

