-- ==== Sys2Proof/Machine/Contexts.lean ====
section
/-! DEFINITION. Context blocks (R349, R350), the fault ring and its notifications (R354 to R356), and the removal of a context
(R390). -/

namespace Sys2Proof.Machine

namespace State

/-- A write to the control block outside the boot block is performed only in READY (R393). -/
def whenReady (s : State) (k : State → State) : State := if s.boot.bstate = 4 then k s else s

/-- The address of a register of the control block. -/
def dcbReg (off : Nat) : Nat := dcbBase + off

/-- A posted write that failed is logged, unless a failure is logged already (R348). -/
def logError (s : State) (status addr : Nat) : State :=
  if s.host.herrV then s
  else { s with host := { s.host with
    herrV := true
    herrSt := BitVec.ofNat 4 status
    herrAddr := BitVec.ofNat 56 addr } }

/-- The launch records of a context become IDLE with pend 0 (R350, R390). -/
def idleRecords (s : State) (c : Nat) (fresh : Bool) : State :=
  (List.range 4096).foldl (fun s i =>
    let s := (s.setRecField c i 11 8 8 0).setRecField c i 11 24 2 0
    if fresh then (s.setRecField c i 11 16 8 0).setRecField c i 9 16 16 (s.recField c i 9 0 16) else s) s

/-- The engines forget a context (R368, R390). -/
def dropEngines (s : State) (c : Nat) : State := { s with
  dies := s.dies.map fun D => { D with engines := D.engines.filter fun q => q.1 % 4 != c } }

/-- Activation (R350): the fixed fields are checked, the records and the sequence counters are made fresh. No check of ptroot is stated, and a
walk takes it as it stands (log entry 66). -/
def activate (s : State) (c : Nat) : State :=
  let C := s.ctx c
  if C.state != 0 then s
  else if C.pool % 2 ^ 20 != 0 || !(inHbm (C.pool + 2 ^ 20 - 1) || (inVault C.pool && inVault (C.pool + 2 ^ 20 - 1)))
      || C.fqbase % 128 != 0 || C.fqn < 6 || 16 < C.fqn then s.logError 2 (dcbReg (0x100 + 0x100 * c))
  else ((s.idleRecords c true).dropEngines c).onCtx c fun C => { C with
    state := 1
    nlseq := 1
    nseq := 1
    stop := 0
    cmds := []
    preempt := none
    acting := none
    restoring := none
    colls := [] }

/-! ### Notification (R355) -/

/-- NOTIFY: notify pending is set, and 8 bytes of data are written to the host. -/
def sendNotify (s : State) (c : Nat) : State :=
  let C := s.ctx c
  let s := s.onCtx c fun C => { C with notify := true }
  State.memSet { s with host := { s.host with notifies := s.host.notifies ++ [(C.naddr, C.ndata)] } }
    (cellsAt (hostBase + C.naddr) (bytesOf 8 C.ndata.toNat))

/-- A host write to fqhead (R355). -/
def writeHead (s : State) (c : Nat) (v : Word) : State :=
  let s := s.onCtx c fun C => { C with
    fqhead := v.setWidth 32
    notify := false }
  if (s.ctx c).fqhead = (s.ctx c).fqtail then s else s.sendNotify c

/-! ### Posting (R354, R356) -/

/-- The ring of a context is full. -/
def ringFull (s : State) (c : Nat) : Bool := (s.ctx c).fqtail - (s.ctx c).fqhead == BitVec.ofNat 32 (2 ^ (s.ctx c).fqn)

/-- The virtual address of the slot that the next record takes. -/
def ringSlot (s : State) (c : Nat) : Nat := (s.ctx c).fqbase + 128 * ((s.ctx c).fqtail.toNat % 2 ^ (s.ctx c).fqn)

/-- Where the slot lies; none when its page has no translation to a PLAIN page, or its block cannot be written,
in this package or in the one that holds it (R412). -/
def ringAt (s : State) (c : Nat) : Option Page :=
  match s.walk c (s.ringSlot c) 1 with
  | .ok q =>
    let q := { q with pa := s.localOf q.pa }
    if q.cls = 0 && q.wr && (s.barred q.pa (s.ringSlot c)).isNone && !(coded q.cmp q.pa && (s.block q.cmp (q.pa / 256 * 256)).isNone) then some q else none
  | .error _ => none

def recCode (rec' : Record) : Nat := word rec' 0 % 2 ^ 8
def recEvent (rec' : Record) : Bool := bit (word rec' 0) 9

/-- A record written to its slot: fqtail advances, the host is notified, and the handler is armed unless the record is an event
(R354 to R356). DESIGN CHOICE: an arm of the handler that is refused counts, beside lost, as an event lost of R417, on die 0 (log entry 68). -/
def writeRecord (s : State) (c : Nat) (q : Page) (rec' : Record) (held : Bool) : State :=
  let va := s.ringSlot c
  let w0 := BitVec.ofNat 64 (word rec' 0 + if held then 2 ^ 11 else 0)
  let s := if inRemote q.pa then s.sendRequest c q.pa else (s.physWrite q.cmp (cellsAt q.pa (wordsBytes (w0 :: rec'.drop 1)))).getD s
  let s := s.onCtx c fun C => { C with fqtail := C.fqtail + 1 }
  let s := if (s.ctx c).notify then s else s.sendNotify c
  if recEvent rec' || !(s.ctx c).hdl.getLsbD 12 then s
  else
    let i := (s.ctx c).hdl.toNat % 2 ^ 12
    let (st, s) := if s.recordSpoiled c i then (0x11, s) else s.armRecord c i [(15, BitVec.ofNat 64 va), (16, BitVec.ofNat 64 (recCode rec'))]
    if st = 0 then s else (s.onCtx c fun C => { C with lost := C.lost + 1 }).count 0 .eventLost

/-- The first of the live records that a test names takes a number: a unit's records are formed in the order of its faults (R354). -/
def labelFirst (p : LiveRecord → Bool) (n : Nat) : List LiveRecord → List LiveRecord
  | [] => []
  | x :: xs => if p x then { x with seq := n } :: xs else x :: labelFirst p n xs

/-- A record that waited for a hold slot is formed: it takes the next sequence number of its context, by which what waits on it is
known from then on (R354). -/
def numberRecord (s : State) (d c : Nat) (rec' : Record) : State × Record :=
  if word rec' 3 != 0 then (s, rec')
  else
    let n := (s.ctx c).nseq
    let unit := bits (word rec' 0) 12 4
    let hdl := word rec' 5
    let mine := fun (x : LiveRecord) => x.seq == 0 && x.code == recCode rec' && x.unit == unit && x.sub == bits (word rec' 0) 28 3 && txOf x.t == bits (word rec' 0) 18 5
      && tyOf x.t == bits (word rec' 0) 23 5 && dieOf x.t == d
    let label := fun (g : Region) =>
      if g.ctx != c || g.task != hdl then g
      else { g with
        records := labelFirst mine n g.records
        loader := if g.loader.phase = .faulted && g.loader.due = 0 then { g.loader with due := n } else g.loader }
    let s := s.onCtx c fun C => { C with nseq := n + 1 }
    let s := { s with regions := s.regions.map fun (q : Nat × Region) => (q.1, label q.2) }
    let s := if unit = 11 then
        let e := bits (word rec' 0) 28 3
        let E := s.engine d e c
        if E.stopped = some 0 then s.setEngine d e c { E with stopped := some n } else s
      else s
    let s := if recCode rec' = 0x0D then s.onTask hdl fun k => { k with record := n } else s
    (s, rec'.set 3 (BitVec.ofNat 64 n))

/-- An event that finds no room is dropped (R354). -/
def dropEvent (s : State) (d c : Nat) : State := (s.onCtx c fun C => { C with lost := C.lost + 1 }).count d .eventLost

end State

/-- CONTEXT_ACTIVATE (R350). -/
def execContextActivate (c : Nat) (s : State) : Host.Outcome State Fault Refusal := .next (s.whenReady fun s => s.activate c)

/-- FQHEAD_WRITE (R355). -/
def execFqheadWrite (c : Nat) (v : Word) (s : State) : Host.Outcome State Fault Refusal := .next (s.whenReady fun s => s.writeHead c v)

/-- HERR_CLEAR (R348). -/
def execHerrClear (s : State) : Host.Outcome State Fault Refusal :=
  .next (s.whenReady fun s => { s with host := { s.host with
    herrV := false
    herrSt := 0
    herrAddr := 0 } })

/-- FAULT_POST (R354): the next record that a die has detected for a context is written to the ring; without room it is held, or an event is
dropped. A record behind held ones is held after them, so that it is formed and numbered in its turn. A record that cannot be held waits;
events behind it are dropped meanwhile. A record that is no event is held whether it freezes a region or not (log entry 63). -/
def execFaultPost (d c : Nat) (s : State) : Host.Outcome State Fault Refusal :=
  .next (match (s.die d).posts.find? fun p => p.1 == c with
    | none => s
    | some p =>
      let taken := s.onDie d fun D => { D with posts := D.posts.erase p }
      let held := ((s.die d).holds.filter fun q => q.1 == c).length
      let slot := if s.ringFull c then none else s.ringAt c
      let (formed, rec') := taken.numberRecord d c p.2
      match slot with
      | some q =>
        if held = 0 then formed.writeRecord c q rec' false
        else if State.recEvent p.2 || 16 ≤ held then s
        else (formed.onDie d fun D => { D with holds := D.holds ++ [(c, rec')] }).count d .heldEvent
      | none =>
        if State.recEvent p.2 then taken.dropEvent d c
        else if held < 16 then (formed.onDie d fun D => { D with holds := D.holds ++ [(c, rec')] }).count d .heldEvent
        else match (s.die d).posts.find? fun p => p.1 == c && State.recEvent p.2 with
          | some e => (s.onDie d fun D => { D with posts := D.posts.erase e }).dropEvent d c
          | none => s)

/-- HELD_RECORD_POST (R354): the oldest record that a die holds for a context is posted once a slot is there for it. -/
def execHeldRecordPost (d c : Nat) (s : State) : Host.Outcome State Fault Refusal :=
  .next (match (s.die d).holds.find? fun p => p.1 == c, if s.ringFull c then none else s.ringAt c with
    | some p, some q => (s.onDie d fun D => { D with holds := D.holds.erase p }).writeRecord c q p.2 true
    | _, _ => s)

/-! ### Removal (R390) -/

namespace State

/-- A save is being written of a context's regions on these dies: a freeze-save is in progress (R387, R392). -/
def savingDies (C : Ctx) : Nat :=
  match C.preempt with | some k => if bits k.w0.toNat 15 2 = 3 then bits k.w0.toNat 11 4 else 0 | none => 0

/-- The regions of a context that a removal drains at once: not those that a save in progress has still to write (R392). -/
def drainContext (s : State) (c : Nat) (kept : Nat) : State :=
  (s.regions.filter fun (q : Nat × Region) => q.2.ctx == c && q.2.drain.isNone && !(q.2.stopWave && !q.2.moving && bit kept q.2.die)).foldl
    (fun (s : State) q => s.drain q.1 .remove) s

/-- The steps of a removal that are taken at once: issue stops, what is queued is discarded, the regions drain, the engines and
the home sequencers drop what has not been applied. A save that is being written completes first (R392). -/
def startRemoval (s : State) (c : Nat) : State :=
  if (s.ctx c).state != 1 then s
  else
    let s := (s.saved.filter fun x => x.ctx == c).foldl (fun (s : State) x => s.unreserve x.region.buffer) s
    let s := s.onCtx c fun C => { C with
      state := 2
      cmds := []
      preempt := if savingDies C = 0 then none else C.preempt
      acting := none
      restoring := none
      restore := [] }
    let running := fun (k : Task) => match k.phase with | .running _ => true | _ => false
    let gone := fun (h : Nat) => match s.task? h with | some k => k.ctx == c && !running k | none => false
    let clean := fun (D : Die) => { D with
      queues := D.queues.map fun (q : List Nat) => q.filter fun h => !gone h
      pending := D.pending.filter fun p => p.1 % 4 != c
      reserve := D.reserve.map fun (q : Option (Nat × Nat × Nat × Nat)) => match q with | some x => if gone x.1 then none else q | none => none
      posts := D.posts.filter fun (p : Nat × Record) => p.1 != c
      holds := D.holds.filter fun (p : Nat × Record) => p.1 != c }
    let queued := fun (e : HsqEntry) => e.ctx == c && match e.req with | .atoms .. | .arrive .. | .wait .. => true | _ => false
    let s := { s with
      dies := s.dies.map clean
      tasks := s.tasks.filter fun k => !(k.2.ctx == c && !running k.2)
      launches := s.launches.filter fun l => l.ctx != c
      saved := s.saved.filter fun x => x.ctx != c
      hsq := s.hsq.map fun (q : Nat × List HsqEntry) => (q.1, q.2.filter fun e => !queued e)
      combs := s.combs.filter fun k => k.entry.ctx != c
      retry := s.retry.filter fun e => e.ctx != c
      armed := s.armed.filter fun a => a.ctx != c
      deferred := s.deferred.filter fun x => x.ctx != c }
    (s.dropEngines c).drainContext c (savingDies (s.ctx c))

end State

/-- CONTEXT_REMOVE (R390). -/
def execContextRemove (c : Nat) (s : State) : Host.Outcome State Fault Refusal := .next (s.whenReady fun s => s.startRemoval c)

/-- REMOVAL_COMPLETE (R390 steps 6 and 7): once no region of the context is left, its tasks and translations are dropped, its records
become IDLE, and the slot is FREE. -/
def execRemovalComplete (c : Nat) (s : State) : Host.Outcome State Fault Refusal :=
  .next (if (s.ctx c).state != 2 || (s.ctx c).preempt.isSome || s.regions.any fun q => q.2.ctx == c then s
    else
      let s := s.idleRecords c false
      let mine := fun (h : Nat) => (s.task? h).any fun k => k.ctx == c
      let drop := fun (D : Die) => { D with
        queues := D.queues.map fun (q : List Nat) => q.filter fun h => !mine h
        tlb := D.tlb.filter fun e => e.ctx != c
        ptrs := D.ptrs.filter fun e => e.ctx != c
        ise := D.ise.map fun es => es.filter fun e => e.ctx != c }
      let disown := fun (q : Nat × Tile) => (q.1, if q.2.owner = some c then { q.2 with owner := none } else q.2)
      State.onCtx { s with
        dies := s.dies.map drop
        tiles := s.tiles.map disown
        tasks := s.tasks.filter fun k => k.2.ctx != c } c fun C => { C with state := 0 })

end Sys2Proof.Machine
end

