-- ==== Sys2Proof/Machine/Commands.lean ====
section
/-! DEFINITION. The command block (R380 to R382): the record commands RESUME, ABORT, KILL, SKIP and RETRY (R379, R381, R383),
pre-emption with its save area (R385 to R387), and RESUMECTX (R388, R389). -/

namespace Sys2Proof.Machine

/-! ### Fields of the block (R380 Table 7) -/

def cmdCtx (k : CmdWords) : Nat := bits k.w0.toNat 8 3
def cmdDies (k : CmdWords) : Nat := bits k.w0.toNat 11 4
def cmdGrade (k : CmdWords) : Nat := bits k.w0.toNat 15 2
def cmdTexp (k : CmdWords) : Nat := bits k.w0.toNat 17 6
def cmdArea (k : CmdWords) : Nat := k.w2.toNat

/-- BADCMD: the block breaks Table 7 or Table 8. An area or a completion word lies in memory. -/
def cmdBad (k : CmdWords) : Bool :=
  let op := cmdOp k
  let usesArea := (op == 6 && cmdGrade k == 3) || op == 7
  op == 0 || 7 < op || bits k.w0.toNat 23 41 != 0 || 3 < cmdCtx k || (cmdTexp k != 0 && (cmdTexp k < 10 || 44 < cmdTexp k))
    || (if op = 6 then cmdGrade k == 0 else cmdGrade k != 0 || cmdDies k != 0)
    || (if usesArea then cmdArea k % 2 ^ 16 != 0 || !State.tableOk (cmdArea k) else cmdArea k != 0)
    || cmdCpl k % 8 != 0 || !State.tableOk (cmdCpl k)

namespace State

/-! ### The records that a command can name (R379, R381) -/

/-- The region that a live freezing record holds. -/
def frozenBy (s : State) (c seq : Nat) : Option (Nat × Region) :=
  s.regions.find? fun q => q.2.ctx == c && q.2.drain.isNone && q.2.records.any fun x => x.seq == seq

/-- The engine that waits on a record. -/
def engineBy (s : State) (c seq : Nat) : Option (Nat × Nat) :=
  (List.range 4).findSome? fun d => (List.range 8).findSome? fun e => if (s.engine d e c).stopped = some seq then some (d, e) else none

/-- The region whose successor load waits on a record (R63). -/
def loaderBy (s : State) (c seq : Nat) : Option (Nat × Region) :=
  s.regions.find? fun q => q.2.ctx == c && q.2.drain.isNone && q.2.loader.phase == .faulted && q.2.loader.due == seq

/-- The task held by a SMALLEST record. -/
def smallestBy (s : State) (c seq : Nat) : Option (Nat × Task) :=
  s.tasks.find? fun q => q.2.ctx == c && q.2.phase == .smallest && q.2.record == seq

/-! ### Record commands (R381) -/

/-- A task takes a new time-allowance exponent; 0 keeps the old one. -/
def newAllowance (s : State) (h e : Nat) : State := if e = 0 then s else s.onTask h fun k => { k with texp := e }

/-- RESUME of a freezing record: the fault is made again on the thawed region; an element continues after a TRAP; RESX needs a
larger allowance. -/
def resumeRegion (s : State) (r seq : Nat) (g : Region) (texp : Nat) : Nat × State :=
  match g.records.find? fun x => x.seq == seq with
  | none => (1, s)
  | some x =>
    let old := ((s.task? g.task).map Task.texp).getD 0
    if x.code = 0x0E && texp ≤ old then (2, s)
    else
      let s := s.newAllowance g.task texp
      let s := (if x.code = 0x13 then s.onTile x.t Tile.advance else s).thaw r seq
      (0, s.reissueAll r)

/-- RESUME of an engine: the command in progress goes on from its offset; one that had not started is started again, and a chain whose head
could not be read is walked again. A fault of the write of its entry's status stops the engine again (R374). -/
def resumeEngine (s : State) (d e c : Nat) : State :=
  let E := { s.engine d e c with stopped := none, full := false }
  match E.cur with
  | none => s.setEngine d e c E
  | some k =>
    if k.started then
      let s := s.setEngine d e c E
      match k.entry with
      | none => s
      | some a => match s.entryStat d e c a 1 with
        | (s, some f) => s.stopEngine d e c k f k.prog
        | (s, none) => s
    else match k.entry with
      | none => s.setEngine d e c { E with queue := if k.fn = 7 then E.queue else k :: E.queue, cur := none }
      | some _ => s.setEngine d e c { E with cur := none }

/-- KILL or SKIP of an engine command: it is marked FAULTED, its completion word stays, and the engine goes on (R366); a fault of
an access to its entry stops it again (R374). -/
def failEngine (s : State) (d e c : Nat) : State :=
  let E := { s.engine d e c with stopped := none, full := false, cur := none }
  let s' := s.setEngine d e c E
  match (s.engine d e c).cur with
  | none => s'
  | some k =>
    match k.entry with
    | none => s'
    | some a =>
      match s'.entryWord d e c (a + 72) with
      | (s', .error f) => s'.stopEngine d e c k f k.prog
      | (s', .ok link) => match s'.chainStepPlaces d e c k.chain link none with
        | (s', .error f) => s'.stopEngine d e c k f k.prog
        | (s', .ok pas) => match s'.entryStat d e c a 3 with
          | (s', some f) => s'.stopEngine d e c k f k.prog
          | (s', none) => s'.chainStep link none pas

/-- A record command is performed: its status, and the state. A record that has not been formed has no number (R354, R381). ABORT and KILL of
a frozen task drain its region, and end when it has been released (R39, R40, R382). -/
def recordCommand (s : State) (op c seq texp : Nat) : Nat × State :=
  if seq = 0 then (1, s)
  else match s.frozenBy c seq with
  | some (r, g) =>
    match op with
    | 1 => s.resumeRegion r seq g texp
    | 2 => if s.irrevocable g then (2, s) else (0, s.drain r .abort)
    | 3 => (0, s.drain r .kill)
    | _ => (2, s)
  | none =>
    match s.engineBy c seq with
    | some (d, e) =>
      match op with
      | 1 => (0, s.resumeEngine d e c)
      | 3 | 4 => (0, s.failEngine d e c)
      | _ => (2, s)
    | none =>
      match s.loaderBy c seq with
      | some (r, _) => if op = 1 then (0, s.onLoader r fun L => { L with phase := .idle }) else (2, s)
      | none =>
        match s.smallestBy c seq with
        | some (h, _) =>
          match op with
          | 3 => (0, (s.failLaunch h 0x15 false).complete h)
          | 5 => (0, (s.newAllowance h texp).requeue h)
          | _ => (2, s)
        | none => (1, s)

/-! ### Pre-emption (R385, R386) -/

/-- The regions of a context on the dies of a mask that are not being drained. -/
def onDies (s : State) (c dies : Nat) : List (Nat × Region) :=
  s.regions.filter fun q => q.2.ctx == c && bit dies q.2.die && q.2.drain.isNone

/-- The stop wave reaches a region: it freezes, and a shadow load is discarded unless a rolling switch onto it is in progress (R25, R386,
R389). -/
def stopWave (s : State) (r : Nat) : State :=
  match s.region? r with
  | none => s
  | some g =>
    let s := if g.loader.succ && !g.switching && g.loader.phase != .idle && g.loader.phase != .failed then
        s.discardShadow r .idle 0
      else s
    s.onRegion r fun g => { g with
      frozen := true
      stopWave := true }

/-- n bytes from an address up become zero. -/
def zeroRange (s : State) (a n : Nat) : State := { s with mem := s.mem.filter fun c => c.1 < a || a + n ≤ c.1 }

/-- PREEMPT starts (R385): issue stops on the dies; then by grade. A freeze-save first makes its directory zero (R387). -/
def startPreempt (s : State) (c : Nat) (k : CmdWords) : State :=
  let dies : BitVec 4 := BitVec.ofNat 4 (cmdDies k)
  let s := s.onCtx c fun C => { C with
    stop := C.stop ||| dies
    preempt := some k
    saving := 2 ^ 16
    nsaved := 0 }
  let rs := s.onDies c (cmdDies k)
  let s := if cmdGrade k = 3 then s.zeroRange (cmdArea k) (2 ^ 16) else s
  match cmdGrade k with
  | 2 => (rs.filter fun q => !s.irrevocable q.2).foldl (fun s q => s.drain q.1 .abort) s
  | 3 => rs.foldl (fun s q => s.stopWave q.1) s
  | _ => s

/-- A region that a pre-emption left frozen in place goes on, and the errors found in it meanwhile take effect (R71, R72, R403). -/
def goOn (s : State) (r : Nat) : State :=
  match s.region? r with
  | none => s
  | some g =>
    let s := s.setRegion r { g with
      stopWave := false
      frozen := !g.records.isEmpty || !g.repair.isEmpty
      marks := [] }
    let s := s.reissueAll r
    s.applyMarks r id g.marks

/-- RESUMECTX starts (R388): the directory is read, and regions that a pre-emption left frozen in place go on. -/
def startRestore (s : State) (c : Nat) (k : CmdWords) : State :=
  let area := cmdArea k
  let lost := s.spoiled area 65536
  let n := if area = 0 || lost then 0 else min 4092 (s.memWord area % 2 ^ 32)
  let s := (s.regions.filter fun q => q.2.ctx == c && q.2.stopWave && !q.2.moving).foldl (fun (s : State) q => s.goOn q.1) s
  s.onCtx c fun C => { C with
    restoring := some k
    restore := (List.range n).map fun i => s.memWord (area + 64 + 16 * i) % 2 ^ 40
    badsave := lost }

/-! ### Acceptance (R380): commands of a context are performed in order, each after the end of the one before it -/

def performCommand (s : State) (c : Nat) (k : CmdWords) : State :=
  match cmdOp k with
  | 6 => s.startPreempt c k
  | 7 => s.startRestore c k
  | op =>
    let held := if cmdArg k = 0 then none else s.frozenBy c (cmdArg k)
    let (st, s) := s.recordCommand op c (cmdArg k) (cmdTexp k)
    match held with
    | some (r, _) => if st = 0 && (op == 2 || op == 3) then s.onCtx c fun C => { C with acting := some (k, r) } else s.endCommand k st
    | none => s.endCommand k st

/-- A command of the context is in progress. -/
def commanded (C : Ctx) : Bool := C.preempt.isSome || C.restoring.isSome || C.acting.isSome

def runCommands (s : State) (c : Nat) : Nat → State
  | 0 => s
  | n + 1 =>
    match (s.ctx c).cmds with
    | [] => s
    | k :: ks =>
      if commanded (s.ctx c) then s
      else State.runCommands (State.performCommand (s.onCtx c fun C => { C with cmds := ks }) c k) c n

/-- The queued commands of a context that can be performed now. -/
def nextCommands (s : State) (c : Nat) : State := s.runCommands c (s.ctx c).cmds.length

/-- A command is accepted (R380). -/
def acceptCommand (s : State) (k : CmdWords) : State :=
  let c := cmdCtx k
  if cmdBad k then s.endCommand k 5
  else if (s.ctx c).state != 1 then s.endCommand k 2
  else State.nextCommands (s.onCtx c fun C => { C with cmds := C.cmds ++ [k] }) c

end State

/-- RESUME (R381). -/
def execResume (k : CmdWords) (s : State) : Host.Outcome State Fault Refusal := .next (if cmdOp k = 1 then s.whenReady fun s => s.acceptCommand k else s)
/-- ABORT (R381). -/
def execAbort (k : CmdWords) (s : State) : Host.Outcome State Fault Refusal := .next (if cmdOp k = 2 then s.whenReady fun s => s.acceptCommand k else s)
/-- KILL (R381). -/
def execKill (k : CmdWords) (s : State) : Host.Outcome State Fault Refusal := .next (if cmdOp k = 3 then s.whenReady fun s => s.acceptCommand k else s)
/-- SKIP (R381). -/
def execSkip (k : CmdWords) (s : State) : Host.Outcome State Fault Refusal := .next (if cmdOp k = 4 then s.whenReady fun s => s.acceptCommand k else s)
/-- RETRY (R381). -/
def execRetry (k : CmdWords) (s : State) : Host.Outcome State Fault Refusal := .next (if cmdOp k = 5 then s.whenReady fun s => s.acceptCommand k else s)
/-- PREEMPT, boundary (R385). -/
def execPreemptBoundary (k : CmdWords) (s : State) : Host.Outcome State Fault Refusal :=
  .next (if cmdOp k = 6 && cmdGrade k == 1 then s.whenReady fun s => s.acceptCommand k else s)
/-- PREEMPT, abort (R385). -/
def execPreemptAbort (k : CmdWords) (s : State) : Host.Outcome State Fault Refusal :=
  .next (if cmdOp k = 6 && cmdGrade k == 2 then s.whenReady fun s => s.acceptCommand k else s)
/-- PREEMPT, freeze-save (R385). -/
def execPreemptFreezeSave (k : CmdWords) (s : State) : Host.Outcome State Fault Refusal :=
  .next (if cmdOp k = 6 && cmdGrade k == 3 then s.whenReady fun s => s.acceptCommand k else s)
/-- RESUMECTX (R388). -/
def execResumectx (k : CmdWords) (s : State) : Host.Outcome State Fault Refusal := .next (if cmdOp k = 7 then s.whenReady fun s => s.acceptCommand k else s)

/-! ### The save area (R387) -/

/-- S: the bytes of a tile image. -/
def imageStride (scr : Nat) : Nat := 0x31000 + 4096 * ceilDiv scr 4
/-- The bytes that a region takes in a save area. -/
def saveSize (g : Region) : Nat := 4096 + g.w * g.h * (imageStride g.scr + 262144)

/-- A bank as the save area holds it: 27 frames, and zeros up to 1,024 bytes. -/
def bankBytes (B : Bank) : List Byte :=
  ((List.range 27).flatMap fun i => wordsBytes ((tabGet i B.frames).getD [0, 0, 0, 0])) ++ List.replicate 160 0

/-- An accumulator bank, row-major. -/
def accBytes (A : AccBank) : List Byte := (List.range 1024).flatMap fun i => bytesOf 4 ((tabGet i A.elems).getD 0).toNat

namespace State

/-- Bytes whose layout is the device's own (R387). -/
def ownBytes (s : State) (n : Nat) : List Byte × State :=
  ((List.range n).map fun i => Config.freeByte (s.free + i), { s with free := s.free + n })

/-- A string of bytes filled with zeros up to a length. -/
def padded (n : Nat) (bs : List Byte) : List Byte := bs ++ List.replicate (n - bs.length) 0

/-- A bead as the save area holds it: its header beat, eight slots and the instruction index, in 640 bytes. -/
def beadBytes (b : Bead) : List Byte :=
  bytesOf 64 (Beat.beadh 0 b b.slots.length).data.toNat ++ padded 512 (b.slots.flatMap fun v => bytesOf 64 v.val.toNat) ++ bytesOf 64 b.pc

/-- The sideband of a beat, in the places of R11 Table 2, with its check bits. -/
def sideband (b : Beat) : Nat :=
  let v := b.kind + 2 ^ 4 * b.count + 2 ^ 9 * b.stop + 2 ^ 13 * b.ctx + 2 ^ 15 * b.slot
  v + 2 ^ 53 * (Config.checkBits b.data v).toNat

/-- The queues of a tile in the order of the save area: the 16 links, side by side, then the unit inputs, unit by unit (log entry 57). -/
def savedQueues (T : Tile) : List (List Beat) :=
  let links := (List.range 16).map fun i => 64 + 16 * (i / 4) + i % 4
  (links ++ (List.range 11).flatMap Tile.inputCodes).map fun c => (T.inQ c).beats ++ (T.wireQ c).beats

/-- The tokens of a tile: a byte of occupancy for each queue, then the beats, 72 bytes each (R387). -/
def tokenBytes (T : Tile) : List Byte :=
  let qs := savedQueues T
  padded 0xC000 (padded 64 (qs.map fun q => BitVec.ofNat 8 q.length)
    ++ qs.flatten.flatMap fun b => bytesOf 64 b.data.toNat ++ bytesOf 8 (sideband b))

/-- The full bits of the x and v registers. -/
def fullBits (T : Tile) : Nat := packNat 1 ((T.x.map fun x => if x.full then 1 else 0) ++ T.v.map fun v => if v.full then 1 else 0)

/-- A tile image (R387 Table 11). Where the table does not say how a part is laid out, its bytes are the device's own while it holds
anything, and zero otherwise. -/
def tileImage (s : State) (scr : Nat) (T : Tile) : List Byte × State :=
  let own := fun (n : Nat) (some' : Bool) (s : State) => if some' then s.ownBytes n else (List.replicate n 0, s)
  let (header, s) := s.ownBytes 0x100
  let (ops, s) := own 490 (!T.ops.isEmpty) s
  let (queue, s) := own 0x200 (!T.mxc.queue.isEmpty || T.mxc.a0.sat || T.mxc.a1.sat) s
  let (units, s) := own 0xA00 (!T.units.isEmpty || !T.outs.isEmpty) s
  let (staged, s) := own 0x20000 (T.mxc.queue.any MatOp.staged) s
  (header ++ bankBytes T.bank0 ++ bankBytes T.bank1 ++ (T.x.flatMap fun x => bytesOf 8 x.val.toNat)
    ++ (T.v.flatMap fun v => bytesOf 64 v.val.toNat) ++ (T.p.flatMap fun p => bytesOf 2 p.toNat) ++ bytesOf 6 (fullBits T) ++ ops
    ++ padded 0x1400 (T.beads.flatMap beadBytes) ++ accBytes T.mxc.a0 ++ accBytes T.mxc.a1 ++ queue ++ units ++ tokenBytes T ++ staged
    ++ padded (4096 * ceilDiv scr 4) (memBytes (T.scrbase * 1024) (min (4096 * ceilDiv scr 4) (T.scrkib * 1024)) T.scratch), s)

def tileImages (s : State) (scr : Nat) : List Tile → List Byte × State
  | [] => ([], s)
  | T :: ts =>
    let (b, s) := s.tileImage scr T
    let (bs, s) := s.tileImages scr ts
    (b ++ bs, s)

/-- The words of a region's save header from word 1 to word 15 (R387 Table 10). -/
def saveHeader (s : State) (g : Region) : List Word :=
  let k := s.task? g.task
  let at' := fun (f : Task → Nat) => (k.map f).getD 0
  let dom := (k.map Task.dom).getD []
  let slice := (List.range 3).flatMap fun i => match dom[i]? with | some (lo, hi) => [lo, hi - 1] | none => [0, 0]
  ([g.img, g.variant + 2 ^ 2 * g.w + 2 ^ 10 * g.h + (if g.quad then 2 ^ 18 else 0), at' Task.lseq, g.task, at' Task.prio, at' Task.texp, g.clk,
    (if s.irrevocable g then 1 else 0) + 2 * (at' Task.replays % 2 ^ 8) + 2 ^ 9 * (at' Task.depth % 2 ^ 8)
      + 2 ^ 17 * (((s.launchOf g).map Launch.aborts).getD 0 % 2 ^ 8)] ++ slice ++ [16 * g.used]).map (BitVec.ofNat 64)

/-- The CRC of a region area with its first word taken as zero (R387). -/
def areaCrc (bs : List Byte) : BitVec 64 := crc64 (List.replicate 8 0 ++ bs.drop 8)

/-- A region's area is written: header, tile images, store buffer, and the CRC over it. -/
def writeArea (s : State) (g : Region) (base : Nat) : State :=
  let head := wordsBytes (s.saveHeader g)
  let (sigs, s) := s.ownBytes 512
  let (images, s) := s.tileImages g.scr (g.tiles.map s.tile)
  let (buffer, s) := s.ownBytes (16 * g.used)
  let bs := List.replicate 8 0 ++ head ++ sigs ++ List.replicate 3456 0 ++ images ++ padded (g.w * g.h * 262144) buffer
  (s.memSet (cellsAt base bs)).memSet (cellsAt base (bytesOf 8 (areaCrc bs).toNat))

/-! ### Freeze-save (R154, R205, R261, R387) -/

/-- A frozen region is ready to be saved (R72, R386): a repair of its configuration has ended, or waits for a record of its loader, which
the save makes stale (R391, R392). -/
def saveReady (s : State) (g : Region) : Bool :=
  g.frozen && g.stopWave && (g.repair.isEmpty || g.records.any fun x => x.unit == 9) && g.drain.isNone && !s.unapplied g

/-- A tile as it is saved: what it counts in clk is counted from now. -/
def savedTile (s : State) (T : Tile) : Tile := { T with mxc := { T.mxc with queue := T.mxc.queue.map fun o => { o with due := o.due - s.time } } }

/-- The WAITs of a region: armed, and queued at their homes, with the time each has left; their words are found again at the restore
(R261). -/
def savedWaits (s : State) (g : Region) (place : Nat → Nat) : List Armed :=
  let left := fun (a : Armed) => ({ a with t := place a.t, pa := remoteBase + a.pa % 8, deadline := a.deadline - s.time, again := true } : Armed)
  let queued := (s.hsq.flatMap Prod.snd).filterMap fun e =>
    match e.req, e.op with
    | .wait cc w u b due _ _, some op => if g.holds e.t then some ⟨e.ctx, e.pa, cc, w, u, b, due, e.t, op, e.va / 8 * 8 + e.pa % 8, e.widx, true⟩ else none
    | _, _ => none
  ((s.armed.filter fun (a : Armed) => g.holds a.t) ++ queued).map left

/-- The words of a tile's carve-out that the scan-out finds in error. -/
def scratchErrors (g : Region) (T : Tile) : List Nat :=
  T.spSites.filter fun w => T.scrbase * 128 ≤ w && w < T.scrbase * 128 + g.scr * 128

/-- What the scan-out finds in error in the carve-outs is saved as zero, and marked (R403). -/
def scrubRegion (s : State) (r : Nat) (g : Region) : State :=
  g.tiles.foldl (fun (s : State) t =>
    match scratchErrors g (s.tile t) with
    | [] => s
    | ws => (s.onTile t fun T => T.writeScratch (ws.flatMap fun w => cellsAt (8 * w) (bytesOf 8 0))).onRegion r fun g =>
        { g with marks := g.marks ++ [(t, some (0, 0, 0))] }) s

/-- Values that wait in the return queues for the ports of a region are given up: their indices are read again after the restore (log
entry 48). -/
def takeBack (s : State) (g : Region) : State :=
  let s := (s.iseq.filter fun e => g.holds e.t).foldl (fun (s : State) e =>
    s.onTile e.t fun T => T.onUnit (7 + e.port) fun U => { U with pos := U.pos - 1 }) s
  { s with iseq := s.iseq.filter fun e => !g.holds e.t }

/-- The results that have come for outstanding operations of a tile stand in its registers as they are saved, full (R261). -/
def settleTile (T : Tile) : Tile := T.ops.foldl (fun T o => match o.value with | some v => T.writeResult o v | none => T) T

/-- A region is saved and released; its task waits for its restore (R385, R387). A load of a fresh region's configuration starts
again at its restore, and so does a repair that had to wait (R392). -/
def saveRegion (s₀ : State) (r : Nat) (g₀ : Region) (base : Nat) : State :=
  let s := g₀.tiles.foldl (fun (s : State) t => s.onTile t settleTile) ((s₀.scrubRegion r g₀).takeBack g₀)
  let g := (s.region? r).getD g₀
  let place := fun (t : Nat) => (tyOf t - g.oy) * g.w + (txOf t - g.ox)
  let loader := if g.running then g.loader else { g.loader with phase := .reading, entries := [] }
  let kept : Region := { g with
    frozen := false
    stopWave := false
    records := []
    repair := []
    loader := loader
    bsync := g.bsync.map fun b => { b with t := place b.t, deadline := b.deadline - s.time }
    marks := (g.marks ++ g.repair.map fun t => (t, none)).map fun (m : Nat × Option (Nat × Nat × Nat)) => (place m.1, m.2) }
  let x : Saved := ⟨r, g.ctx, base, kept, g.tiles.map fun t => s.savedTile (s.tile t), s.savedWaits g place,
    (s.deferred.filter fun d => g.holds d.t).map fun d => { d with
      t := place d.t
      pa := none },
    (s.mit.filter fun d => g.holds d.t).map fun d => { d with t := place d.t },
    (s.retry.filter fun e => g.holds e.t).map (HsqEntry.moved place (· - s.time))⟩
  let s := if g.moving then s else s.writeArea g base
  let s := { s with saved := s.saved ++ [x] }
  let d := g.die
  let s := s.releaseRegion r
  (s.onTask g.task fun k => { k with
    phase := .saved
    reserved := false }).unqueue d g.task

/-- What a removed context has saved cannot be restored: its tasks are gone (R392). -/
def forgetSaved (s : State) (c : Nat) : State :=
  let s := (s.saved.filter fun x => x.ctx == c).foldl (fun (s : State) x => s.unreserve x.region.buffer) s
  { s with saved := s.saved.filter fun x => x.ctx != c }

/-- The region fits in what is left of the save area of a pre-emption. -/
def saveFits (s : State) (c : Nat) (k : CmdWords) (g : Region) : Bool := (s.ctx c).saving + saveSize g ≤ cmdArg k

/-- The order of the save: die, row and column of the origin. -/
def saveKey (g : Region) : List Nat := [g.die, g.oy, g.ox]

end State

/-- SAVE_COMPLETE (R387): the next region in order is saved at the next place of the area, and its directory entry written. A region
that moves off a fenced tile is saved by the device for itself (R71). -/
def execSaveComplete (r : Nat) (s : State) : Host.Outcome State Fault Refusal :=
  .next (match s.region? r with
    | none => s
    | some g =>
      if !s.saveReady g then s
      else if g.moving then s.saveRegion r g 0
      else
        let c := g.ctx
        match (s.ctx c).preempt with
        | none => s
        | some k =>
          let turn := (s.onDies c (cmdDies k)).all fun q =>
            q.1 == r || q.2.moving || !s.saveFits c k q.2 || State.before (State.saveKey g) (State.saveKey q.2)
          if cmdGrade k != 3 || !bit (cmdDies k) g.die || !s.saveFits c k g || !turn then s
          else
            let off := (s.ctx c).saving
            let i := (s.ctx c).nsaved
            let s := s.saveRegion r g (cmdArea k + off)
            let s := if (s.ctx c).state = 2 then s.forgetSaved c else s
            let s := s.memSet (cellsAt (cmdArea k + 64 + 16 * i) (bytesOf 8 (off + 2 ^ 40 * g.die)
              ++ bytesOf 8 (g.ox + 2 ^ 8 * g.oy + 2 ^ 16 * g.w + 2 ^ 24 * g.h)))
            s.onCtx c fun C => { C with
              saving := off + saveSize g
              nsaved := i + 1 })

/-- PREEMPT_END (R385, R387): by grade, once no region is left on the dies, or none that fits the save area. What a removal left to be
saved is drained then (R392). Without a pre-emption, commands that waited for one before them are performed (R380). -/
def execPreemptEnd (c : Nat) (s : State) : Host.Outcome State Fault Refusal :=
  .next (match (s.ctx c).preempt with
    | none => s.nextCommands c
    | some k =>
      let left := s.regions.filter fun q => q.2.ctx == c && bit (cmdDies k) q.2.die
      let finish := fun (s : State) (st : Nat) =>
        let s := (s.onCtx c fun C => { C with preempt := none }).endCommand k st
        if (s.ctx c).state = 2 then s.drainContext c 0 else s.nextCommands c
      if cmdGrade k = 3 then
        if left.any fun q => q.2.drain.isSome || q.2.moving || s.saveFits c k q.2 then s
        else finish (s.memSet (cellsAt (cmdArea k) (bytesOf 8 (s.ctx c).nsaved))) (if left.isEmpty then 0 else 3)
      else if left.isEmpty then finish s 0 else s)

/-! ### Restore (R388) -/

namespace State

/-- A saved tile takes the place of a tile of the new region: the absolute values of R66 and the domain parts of R53 are rewritten. `move`
gives the new place of a tile of the region. -/
def restoredTile (s : State) (r : Nat) (g : Region) (t : Nat) (move : Nat → Nat) (T : Tile) : Tile :=
  let here := s.tile t
  { T with
    region := some r
    ids := s.idsAt g t ((T.ids.getD 4 0).toNat, (T.ids.getD 5 0).toNat) T.array (T.header 2)
    mxc := { T.mxc with queue := T.mxc.queue.map fun o => { o with due := o.due + s.time, held := o.held.map (HeldStore.moved move) } }
    owner := some g.ctx
    spSites := []
    fenced := here.fenced
    cfgErr := here.cfgErr
    corr := here.corr }

/-- A saved region goes on in another place: its values are reinstated, its deferred PLDs, its waits and the requests that met a fault
reissued, and the errors found while it was stopped take effect (R403). The writers of what it holds move with it. -/
def restoreRegion (s : State) (x : Saved) (d ox oy : Nat) : State :=
  let g0 := x.region
  let place := fun (i : Nat) => tileAt d (oy + i / g0.w) (ox + i % g0.w)
  let move := fun (t : Nat) => place (g0.place t)
  let g : Region := { g0 with
    die := d
    ox := ox
    oy := oy
    argAt := move g0.argAt
    buffer := g0.buffer.map (HeldStore.moved move)
    bsync := g0.bsync.map fun b => { b with t := place b.t, deadline := b.deadline + s.time }
    moving := false
    marks := []
    scrubAt := s.time + 2 ^ 20 }
  let s := (List.range x.tiles.length).foldl (fun (s : State) i =>
    s.setTile (place i) (s.restoredTile x.num g (place i) move (x.tiles.getD i Tile.reset))) s
  let s := s.setRegion x.num g
  let deferred := x.deferred.map fun a => { a with t := place a.t }
  let mit := x.mit.map fun a => { a with t := place a.t }
  let retry := x.retry.map (HsqEntry.moved place (· + s.time))
  let s := { s with
    saved := s.saved.filter fun y => y.num != x.num
    deferred := s.deferred ++ deferred
    mit := s.mit ++ mit
    retry := s.retry ++ retry }
  let s := (s.dropReserve g.task).onTask g.task fun k => { k with
    phase := .running x.num
    die := d
    reserved := true
    aged := false }
  let prio := ((s.task? g.task).map Task.prio).getD 0
  let s := s.onDie d fun D => { D with queues := D.queues.modify prio (· ++ [g.task]) }
  let waits := x.armed.map fun (a : Armed) => { a with t := place a.t, deadline := a.deadline + s.time }
  let s := { s with armed := s.armed ++ waits }
  (s.reissueAll x.num).applyMarks x.num place g0.marks

/-- The saved region whose area lies at an address: its header names the task, and its CRC holds. -/
def savedAt (s : State) (c base : Nat) : Option Saved :=
  match s.saved.find? fun x => x.ctx == c && !x.region.moving && x.region.task == s.memWord (base + 32) with
  | none => none
  | some x => if !s.spoiled base (saveSize x.region) && (areaCrc (memBytes base (saveSize x.region) s.mem)).toNat = s.memWord base then some x else none

end State

/-- REGION_RESTORE (R388): the next listed region is restored where the allocator finds room; with the last one issue starts
again and the command ends. A region that moves off a fenced tile is restored by itself (R71). -/
def execRegionRestore (c : Nat) (s : State) : Host.Outcome State Fault Refusal :=
  .next (match s.saved.find? fun x => x.ctx == c && x.region.moving && (s.restorePlace x.region).isSome with
    | some x => match s.restorePlace x.region with
      | some (d, ox, oy) => s.restoreRegion x d ox oy
      | none => s
    | none =>
      match (s.ctx c).restoring with
      | none => s
      | some k =>
        match (s.ctx c).restore with
        | [] =>
          let st := if (s.ctx c).badsave then 4 else 0
          let done := s.onCtx c fun C => { C with
            restoring := none
            stop := 0 }
          State.nextCommands (done.endCommand k st) c
        | off :: rest =>
          let next := fun (s : State) (bad : Bool) => s.onCtx c fun C => { C with
            restore := rest
            badsave := C.badsave || bad }
          match s.savedAt c (cmdArea k + off) with
          | none => next s true
          | some x => match s.restorePlace x.region with
            | some (d, ox, oy) => next (s.restoreRegion x d ox oy) false
            | none => s.reserveRestore x.region)

end Sys2Proof.Machine
end

