-- ==== Sys2Proof/Machine/Boot.lean ====
section
/-! DEFINITION. Boot, recovery and the watchdog (R393 to R397), measurements and attestation (R398 to R400). -/

namespace Sys2Proof.Machine

namespace State

/-! ### Leaving READY (R396) -/

/-- A tile as recovery leaves it: its fence stays until the package is reset (R418). -/
def wipedTile (T : Tile) : Tile := { Tile.reset with fenced := T.fenced }

/-- A die as recovery leaves it: its registers, its counters and its fences stay, and its controller starts anew. -/
def wipedDie (now : Nat) (D : Die) : Die := { D with
  tlb := []
  ptrs := []
  ise := [[], []]
  hung := false
  serviced := now
  image := none
  refetched := false
  access := []
  vaulted := []
  queues := Die.reset.queues
  pending := []
  reserve := Die.reset.reserve
  posts := []
  holds := []
  engines := [] }

/-- Every region, queue, engine command and armed wait is discarded, every context becomes FREE, vault contents are lost, and the
host die receives an interrupt (R396). -/
def wipe (s : State) : State := { s with
  agenda := s.host.waiting.map Turn.tx
  mem := s.mem.filter fun c => !inVault c.1
  pres := []
  tiles := s.tiles.map fun (q : Nat × Tile) => (q.1, wipedTile q.2)
  regions := []
  tasks := []
  launches := []
  ctxs := State.reset.ctxs
  dies := s.dies.map (wipedDie s.time)
  trees := []
  hsq := []
  armed := []
  combs := []
  retry := []
  deferred := []
  mit := []
  iseq := []
  fences := []
  saved := []
  commits := []
  host := { s.host with
    asked := []
    waiting := []
    irqs := s.host.irqs + 1 }
  fleet := { s.fleet with
    lst := s.fleet.lst.map fun l => if l = 3 then 3 else 0
    rx := []
    tx := []
    used := [] } }

/-- The package enters RECOVERY with a berr of Table 3 (R395, R396). -/
def enterRecovery (s : State) (berr : Nat) : State :=
  let s := s.wipe
  { s with boot := { s.boot with
    bstate := 5
    berr := berr
    live := 0
    attst := 0
    attop := 0
    attlen := 0 } }

/-! ### The stages (R395) -/

/-- Dies excluded at boot for a reason of Table 4 (R397, R420). -/
def exclude (s : State) (dies : BitVec 4) (reason : Nat) : State :=
  ((List.range 4).filter fun d => dies.getLsbD d && !(s.die d).failed).foldl (fun (s : State) d =>
    (s.onDie d fun D => { D with failed := true }).replacePart reason) s

/-- The dies whose controllers take part in the boot (R397). -/
def controllers (s : State) : List Nat := (List.range 4).filter fun d => !(s.die d).failed

/-- The ROM stage: the controllers test themselves, and those that fail are left out; the measurement registers start at zero, and M0
takes the digest of the ROM (R395, R397, R398). With no controller left the package enters RECOVERY with SELFTEST. -/
def romStage (s : State) (failed : BitVec 4) : State :=
  let s := State.exclude { s with boot := { s.boot with
    bstate := 1
    live := 0
    measured := false
    m0 := extended 0 Config.romDigest
    m1 := 0
    m2 := 0
    m3 := 0 } } failed 1
  if s.controllers.isEmpty then s.enterRecovery 1 else s

/-- The self-tests that the ROM stage makes outside a power-on: what they find is the part's own. -/
def selfTest (s : State) : BitVec 4 × State := let (x, s) := s.draw; (x.setWidth 4, s)

/-- A controller reads the image (R395): its transaction, the address, and the words. -/
def fetchImage (s : State) (ds : List Nat) : State :=
  { s with host := { s.host with asked := s.host.asked ++ ds.map fun d => (d, s.boot.imgaddr.toNat, s.boot.imglen.toNat / 8) } }

/-- A write of go (R393, R395, R396, R407): in ROM it starts the fetch of the image by every controller, and in RECOVERY the ROM stage and
then the fetch; not while the package is hot. -/
def goNow (s : State) : State :=
  if s.boot.tripped || !(s.boot.bstate = 1 || s.boot.bstate = 5) then s
  else
    let s := if s.boot.bstate = 5 then let (failed, s) := s.selfTest; s.romStage failed else s
    if s.boot.bstate = 5 then s
    else
      let fresh := fun (D : Die) => { D with
        image := none
        refetched := false }
      let s' := { s with
        dies := s.dies.map fresh
        boot := { s.boot with bstate := 2 }
        host := { s.host with asked := [] } }
      s'.fetchImage s'.controllers

/-- A reset (R396): the package returns to ROM; fences, exclusions and REPLACE are undone (R418, R420). The fuses, host memory and HBM
stay. -/
def resetTo (s : State) (failed : BitVec 4) : State :=
  let s := s.wipe
  let die := fun (D : Die) => { Die.reset with halveAt := s.time + 2 ^ 26, serviced := s.time, counters := D.counters.map fun c => (c.1, c.2.1, 0) }
  let kept : Boot := { Boot.reset with
    minseq := s.boot.minseq
    raises := s.boot.raises
    revoked := s.boot.revoked
    tripped := s.boot.tripped
    samples := s.boot.samples
    tjmax := s.boot.tjmax
    pavg := s.boot.pavg
    updateAt := s.time + 1800000 }
  State.romStage { s with
    tiles := []
    dies := s.dies.map die
    host := { s.host with
      herrV := false
      herrSt := 0
      herrAddr := 0 }
    boot := kept
    fleet := Fleet.reset } failed

/-- A write of reset (R396). -/
def resetNow (s : State) : State := let (failed, s) := s.selfTest; s.resetTo failed

/-! ### The image (R394) -/

/-- The first failure of the CHECK stage in a controller's copy of the image, as berr; 0 when the image passes (R395). -/
def imageFailure (s : State) (copy : List Byte) : Nat :=
  let h := copy.take 512
  let field := fun (i n : Nat) => ofBytes ((h.drop i).take n)
  let blen := field 16 8
  let flags := field 24 8
  let k := flags % 4
  let body := (copy.drop 512).take blen
  if field 0 4 != 0x4B465731 || field 4 4 != 1 || blen % 4096 != 0 || blen < 4096 || 2 ^ 26 < blen || flags / 8 != 0
      || (h.drop 272).any (· != 0) || s.boot.imglen.toNat != 512 + blen then 3
  else if s.boot.revoked.getLsbD k then 4
  else if sha384 ((h.drop 80).take 96) != Config.keyHash k then 5
  else if field 8 8 < s.boot.minseq.toNat then 6
  else if !ecdsaVerify ((h.drop 80).take 96) (h.take 176) ((h.drop 176).take 96) then 7
  else if beBytes (sha384 body) != (h.drop 32).take 48 then 8
  else 0

/-- A 64-bit field of the header of the image that runs. -/
def imageField (s : State) (i : Nat) : Nat := ofBytes ((s.boot.header.drop i).take 8)

/-- Every controller passes the image: INIT begins, and M1 takes the header (R395, R398). -/
def startInit (s : State) (copy : List Byte) : State :=
  let h := copy.take 512
  { s with boot := { s.boot with
    bstate := 3
    header := h
    fwseq := BitVec.ofNat 64 (ofBytes ((h.drop 8).take 8))
    m1 := extended s.boot.m1 (sha384 (h.take 272)) } }

/-- The controllers compare the digests of their copies (R395): one whose digest differs from the first controller's reads the image once
more, and one that has done so fails the boot with FETCH. -/
def compareCopies (s : State) (copies : List (Nat × List Byte)) : State :=
  let first := (copies.headD (0, [])).2
  let odd := (copies.filter fun q => sha384 q.2 != sha384 first).map Prod.fst
  if odd.isEmpty then s.startInit first
  else if odd.any fun d => (s.die d).refetched then s.enterRecovery 2
  else (odd.foldl (fun (s : State) d => s.onDie d fun D => { D with
    image := none
    refetched := true }) s).fetchImage odd

/-- Dies of which more than 144 tiles, or both HBM stacks, failed at INIT (R418). -/
def deadDies (s : State) (bad : State → Nat → Bool) : BitVec 4 := BitVec.ofNat 4 (packNat 1 ((List.range 4).map fun d => if bad s d then 1 else 0))

end State

/-- POWER_ON_RESET (R395, R397): a package that comes up keeps its fuses and what host memory holds; each controller tests itself,
and the ROM stage runs. -/
def execPowerOnReset (failed : BitVec 4) (s : State) : Host.Outcome State Fault Refusal :=
  .next (State.resetTo { s with
    mem := s.mem.filter fun c => inHost c.1
    tags := []
    bad := []
    zmb := []
    badTags := [] } failed)

/-- GO (R395). -/
def execGo (s : State) : Host.Outcome State Fault Refusal := .next s.goNow

/-- RESET (R396). -/
def execReset (s : State) : Host.Outcome State Fault Refusal := .next s.resetNow

/-- CHECK_COMPLETE (R395): every controller has read the image and checks its copy; INIT begins, or the package enters RECOVERY with the
first check that failed. -/
def execCheckComplete (s : State) : Host.Outcome State Fault Refusal :=
  .next (if s.boot.bstate != 2 || s.controllers.any fun d => (s.die d).image.isNone then s
    else
      let copies := s.controllers.map fun d => (d, ((s.die d).image).getD [])
      match sortOn id ((copies.map fun q => s.imageFailure q.2).filter (· != 0)) with
      | e :: _ => s.enterRecovery e
      | [] => s.compareCopies copies)

/-- INIT_COMPLETE (R395, R397, R398, R418, R420): REPLACE is raised for modules that are still down; vault and HBM words are zero with valid
check bits; tiles and channels that fail are fenced; LIVE is formed of the dies whose tiles and HBM pass; contexts are FREE, M2 is extended,
minseq is raised where the image asks for it, and the package is READY. -/
def execInitComplete (failed : BitVec 4) (parts : InitParts) (s : State) : Host.Outcome State Fault Refusal :=
  .next (if s.boot.bstate != 3 then s
    else
      let s := parts.tiles.foldl (fun (s : State) t => s.markTile t 2) s
      let s := parts.channels.foldl (fun (s : State) c => s.markChannel (c / 32) (c % 32) 3) s
      let s := s.exclude (failed ||| s.deadDies fun s d => decide (144 < s.fencedTiles d)) 2
      let s := s.exclude (parts.memory ||| s.deadDies State.memoryLost) 3
      let s := if s.host.modules = 0xFFFF then s else s.replacePart 9
      let live : BitVec 4 := BitVec.ofNat 4 (packNat 1 ((List.range 4).map fun d => if (s.die d).failed then 0 else 1))
      if live = 0 then s.enterRecovery 9
      else
        let raise := bit (s.imageField 24) 2 && s.boot.minseq.toNat < s.boot.fwseq.toNat && s.boot.raises < 255
        let measured := bytesOf 8 s.boot.minseq.toNat ++ bytesOf 8 s.boot.revoked.toNat ++ bytesOf 8 live.toNat
        let die := fun (D : Die) => { D with serviced := s.time, sampleAt := s.time + 2 ^ 16 }
        { s with
          mem := s.mem.filter fun c => inHost c.1
          pres := []
          tags := []
          bad := []
          zmb := []
          badTags := []
          ctxs := State.reset.ctxs
          dies := s.dies.map die
          boot := { s.boot with
            bstate := 4
            live := live
            m2 := extended s.boot.m2 (sha384 measured)
            minseq := if raise then s.boot.fwseq else s.boot.minseq
            raises := if raise then s.boot.raises + 1 else s.boot.raises } })

/-- WATCHDOG_EXPIRY (R396): a controller that has not serviced its watchdog for 2^31 clk sends the package to RECOVERY. -/
def execWatchdogExpiry (d : Nat) (s : State) : Host.Outcome State Fault Refusal :=
  .next (if (s.die d).hung && (s.die d).serviced + 2 ^ 31 ≤ s.time && s.boot.bstate != 5 then s.enterRecovery 10 else s)

/-! ### Attestation (R399, R400) -/

/-- The 448 bits from which a key pair is generated (R399). -/
def keyBits (m : List Byte) : BitVec 448 :=
  let v := beBytes (hmac384 (beBytes Config.uds) m)
  BitVec.ofNat 448 (ofBig ((beBytes (hmac384 v [1]) ++ beBytes (hmac384 v [2])).take 56))

namespace State

def dikBits (s : State) : BitVec 448 := keyBits (beBytes s.boot.m0)
def aliasBits (s : State) : BitVec 448 := keyBits (beBytes s.boot.m0 ++ beBytes s.boot.m1)

/-- The quote of Table 4. -/
def quote (s : State) (nonce : List Byte) : List Byte :=
  let b := s.boot
  let body := bytesOf 4 0x51544B59 ++ bytesOf 4 1 ++ bytesOf 8 b.fwseq.toNat ++ bytesOf 8 0x53834 ++ bytesOf 8 b.live.toNat
    ++ beBytes b.m0 ++ beBytes b.m1 ++ beBytes b.m2 ++ beBytes b.m3 ++ nonce ++ publicKey s.aliasBits
  body ++ ecdsaSign s.aliasBits body ++ List.replicate 48 0

/-- The certificate chain: the DIK certificate, then the alias certificate. -/
def certChain (s : State) : List Byte := Config.dikCertificate ++ Config.aliasCertificate s.dikBits s.aliasBits

/-- A request: attst becomes busy, and the device asks the host for the nonce, which only a quote carries (R400). -/
def attestNow (s : State) (op : Nat) : State :=
  if s.boot.bstate != 4 || s.boot.attst = 1 then s
  else { s with
    boot := { s.boot with
      attop := BitVec.ofNat 2 op
      attst := 1
      nonce := [] }
    host := { s.host with asked := s.host.asked ++ [(4, s.boot.nonceaddr.toNat, 6)] } }

/-- The request has failed: attlen is 0. -/
def attestError (s : State) : State := { s with boot := { s.boot with
  attst := 3
  attlen := 0 } }

end State

/-- ATTEST_QUOTE (R400). -/
def execAttestQuote (s : State) : Host.Outcome State Fault Refusal := .next (s.attestNow 1)
/-- ATTEST_CERT_CHAIN (R400). -/
def execAttestCertChain (s : State) : Host.Outcome State Fault Refusal := .next (s.attestNow 2)

/-- ATTEST_RESPONSE (R400): once the nonce has been read, the response is written at rspaddr, then attlen and last attst are set; a
failed RD or WR makes it an error. -/
def execAttestResponse (ok : Bool) (s : State) : Host.Outcome State Fault Refusal :=
  .next (if s.boot.bstate != 4 || s.boot.attst != 1 || s.host.asked.any fun q => q.1 == 4 then s
    else
      if !ok then s.attestError
      else
        let out := if s.boot.attop = 1 then s.quote s.boot.nonce else s.certChain
        let s := s.memSet (cellsAt (hostBase + s.boot.rspaddr.toNat) out)
        { s with boot := { s.boot with
          attlen := BitVec.ofNat 32 out.length
          attst := 2 } })

end Sys2Proof.Machine
end

