-- ==== Sys2Proof/Machine/IntArith.lean ====
section
/-! DEFINITION. Integer arithmetic: Table 1 of R128, division of R129 and the immediate forms of R130. -/

namespace Sys2Proof.Machine

/-- The value of a code of an integer type of width w (R101). -/
def intVal (int : Bool) (w c : Nat) : Int := if int then sext c w else ((c % 2 ^ w : Nat) : Int)

/-- An exact result brought into its type: saturated, or wrapped (R101, R128). -/
def intResult (int sat : Bool) (w : Nat) (t : Int) : Nat := if sat then wrap (satT int w t) w else wrap t w

/-- The quotient truncated toward zero (R129). -/
def truncDiv (a b : Int) : Int :=
  if (a < 0) != (b < 0) then -((a.natAbs / b.natAbs : Nat) : Int) else ((a.natAbs / b.natAbs : Nat) : Int)

def divCode (int sat : Bool) (w : Nat) (a b : Int) : Nat :=
  if b = 0 then wrap (-1) w else intResult int sat w (truncDiv a b)
def remCode (w : Nat) (a b : Int) : Nat := if b = 0 then wrap a w else wrap (a - b * truncDiv a b) w

namespace State

/-- An integer operation of Format A from the codes it gives each element. -/
def intCodes (s : State) (f : FmtA) (n : Nat) (g : Bool → Bool → Nat → Int → Int → Int → Nat) : State :=
  let w := Spec.tyWidth f.ty.toNat
  let int := Spec.tyInt f.ty.toNat
  s.alu f n fun m T =>
    T.writeElems f.dst m w int fun i =>
      g int (f.sat == 1) w (intVal int w (T.srcElem f.sa w i)) (intVal int w (T.srcElem f.sb w i)) (intVal int w (T.srcElem f.sc w i))

/-- An integer operation from its exact result. -/
def intOp (s : State) (f : FmtA) (n : Nat) (t : Int → Int → Int → Int) : State :=
  s.intCodes f n fun int sat w a b c => intResult int sat w (t a b c)

/-- An immediate form: INT64, or INT32 in every lane (R81, R130). -/
def intImm (s : State) (f : FmtI) (t : Int → Int → Int) : State :=
  let w := immWidth f
  s.aluI f true fun m T =>
    T.writeElems f.dst m w true fun i => wrap (t (sext (T.srcElem f.sa w i) w) (sext f.imm.toNat 32)) w

end State

/-- s of ADDS and SUBS. -/
def shiftOf (f : FmtA) : Nat := bits f.mod.toNat 0 6

/-- ADD (R128): a + b. -/
def execAdd (f : FmtA) (s : State) : Host.Outcome State Fault Refusal := .next (s.intOp f 2 fun a b _ => a + b)
/-- SUB (R128): a − b. -/
def execSub (f : FmtA) (s : State) : Host.Outcome State Fault Refusal := .next (s.intOp f 2 fun a b _ => a - b)
/-- ADDS (R128): a + b × 2^s. -/
def execAdds (f : FmtA) (s : State) : Host.Outcome State Fault Refusal := .next (s.intOp f 2 fun a b _ => a + b * 2 ^ shiftOf f)
/-- SUBS (R128): a − b × 2^s. -/
def execSubs (f : FmtA) (s : State) : Host.Outcome State Fault Refusal := .next (s.intOp f 2 fun a b _ => a - b * 2 ^ shiftOf f)
/-- MUL (R128): a × b. -/
def execMul (f : FmtA) (s : State) : Host.Outcome State Fault Refusal := .next (s.intOp f 2 fun a b _ => a * b)
/-- MULH (R128): the high half of the exact product. -/
def execMulh (f : FmtA) (s : State) : Host.Outcome State Fault Refusal :=
  .next (s.intOp f 2 fun a b _ => (a * b) / 2 ^ Spec.tyWidth f.ty.toNat)
/-- MAD (R128): a × b + c. -/
def execMad (f : FmtA) (s : State) : Host.Outcome State Fault Refusal := .next (s.intOp f 3 fun a b c => a * b + c)
/-- DIV (R129). -/
def execDiv (f : FmtA) (s : State) : Host.Outcome State Fault Refusal :=
  .next (s.intCodes f 2 fun int sat w a b _ => divCode int sat w a b)
/-- REM (R129). -/
def execRem (f : FmtA) (s : State) : Host.Outcome State Fault Refusal := .next (s.intCodes f 2 fun _ _ w a b _ => remCode w a b)
/-- NEG (R128): −a. -/
def execNeg (f : FmtA) (s : State) : Host.Outcome State Fault Refusal := .next (s.intOp f 1 fun a _ _ => -a)
/-- ABS (R128): Abs(a). -/
def execAbs (f : FmtA) (s : State) : Host.Outcome State Fault Refusal := .next (s.intOp f 1 fun a _ _ => (a.natAbs : Int))
/-- MIN (R128). -/
def execMin (f : FmtA) (s : State) : Host.Outcome State Fault Refusal := .next (s.intOp f 2 fun a b _ => min a b)
/-- MAX (R128). -/
def execMax (f : FmtA) (s : State) : Host.Outcome State Fault Refusal := .next (s.intOp f 2 fun a b _ => max a b)

/-- ADD, immediate form (R130). -/
def execAddImm (f : FmtI) (s : State) : Host.Outcome State Fault Refusal := .next (s.intImm f fun a b => a + b)
/-- SUB, immediate form (R130). -/
def execSubImm (f : FmtI) (s : State) : Host.Outcome State Fault Refusal := .next (s.intImm f fun a b => a - b)
/-- MUL, immediate form (R130). -/
def execMulImm (f : FmtI) (s : State) : Host.Outcome State Fault Refusal := .next (s.intImm f fun a b => a * b)
/-- MIN, immediate form, signed (R130). -/
def execMinImm (f : FmtI) (s : State) : Host.Outcome State Fault Refusal := .next (s.intImm f fun a b => min a b)
/-- MAX, immediate form, signed (R130). -/
def execMaxImm (f : FmtI) (s : State) : Host.Outcome State Fault Refusal := .next (s.intImm f fun a b => max a b)

end Sys2Proof.Machine
end

