-- ==== Sys2Proof/Machine/Lanes.lean ====
section
/-! DEFINITION. Lane operations (R135, R136). -/

namespace Sys2Proof.Machine

/-- Op of R136 on FP32 codes: add rounds each step; min and max follow R140. -/
def foldFp (op rm : Nat) (sat : Bool) (a b : Nat) : Nat :=
  match op with
  | 1 => fminmax fp32 false a b
  | 2 => fminmax fp32 true a b
  | _ =>
    match Val.firstNan [fp32.value a, fp32.value b] with
    | some v => roundVal fp32 rm sat 0 v
    | none => roundVal fp32 rm sat 0 (Val.add (rm == 3) (fp32.value a) (fp32.value b))

/-- Op of R136 on integer codes of 32 bits. -/
def foldInt (op : Nat) (int sat : Bool) (a b : Nat) : Nat :=
  let x := intVal int 32 a
  let y := intVal int 32 b
  match op with
  | 0 => intResult int sat 32 (x + y)
  | 1 => wrap (min x y) 32
  | 2 => wrap (max x y) 32
  | 3 => a &&& b
  | 4 => a ||| b
  | _ => a ^^^ b

/-- Op(acc, a) by the type code (R122, R136). -/
def foldOp (ty op rm : Nat) (sat : Bool) (a b : Nat) : Nat :=
  if ty = 10 then foldFp op rm sat a b else foldInt op (ty == 2) sat a b

/-- Identity(op, T) (R136). -/
def foldUnit (ty op : Nat) : Nat :=
  match op with
  | 1 => if ty = 10 then 0x7F800000 else if ty = 2 then 0x7FFFFFFF else 0xFFFFFFFF
  | 2 => if ty = 10 then 0xFF800000 else if ty = 2 then 0x80000000 else 0
  | 3 => 0xFFFFFFFF
  | _ => 0

/-- The visit of R136 over the active lanes in ascending order: the lanes' prefixes, and the accumulator at the end. -/
def scanLanes (excl : Bool) (op : Nat → Nat → Nat) (a : Nat → Nat) : List Nat → Nat → Bool → List (Nat × Nat) × Nat
  | [], acc, _ => ([], acc)
  | i :: is, acc, first =>
    let acc' := if first then a i else op acc (a i)
    let (ps, last) := scanLanes excl op a is acc' false
    ((i, if excl then acc else acc') :: ps, last)

/-- Lanes from a list of positions and values; others zero. -/
def lanesAt (ps : List (Nat × Nat)) : Vec := pack 32 ((List.range 16).map fun i => (tabGet i ps).getD 0)

/-- The scan of PFX and LNRED. -/
def scanOf (f : FmtA) (m : Mask) (T : Tile) (excl : Bool) : List (Nat × Nat) × Nat :=
  let ty := f.ty.toNat
  let op := bits f.mod.toNat 1 3
  scanLanes excl (foldOp ty op f.rm.toNat (f.sat == 1)) (fun i => elem (T.readV f.sa) 32 i) (lanesIn m) (foldUnit ty op) true

/-- PFX (R136). -/
def execPfx (f : FmtA) (s : State) : Host.Outcome State Fault Refusal :=
  .next (s.alu f 1 fun m T => T.writeV f.dst (lanesAt (scanOf f m T (f.mod.getLsbD 0)).1) m)

/-- LNRED (R136). -/
def execLnred (f : FmtA) (s : State) : Host.Outcome State Fault Refusal :=
  .next (s.alu f 1 fun m T => T.writeV f.dst (splat (BitVec.ofNat 32 (scanOf f m T false).2)) m)

/-- BCAST (R135). -/
def execBcast (f : FmtA) (s : State) : Host.Outcome State Fault Refusal :=
  .next (s.alu f 1 fun m T => T.writeV f.dst (splat (lane (T.readV f.sa) (bits f.mod.toNat 0 4))) m)

/-- SHUF (R135): 0 where bit 31 of the index is set, else the lane that its low four bits name. -/
def execShuf (f : FmtA) (s : State) : Host.Outcome State Fault Refusal :=
  .next (s.alu f 2 fun m T =>
    T.writeV f.dst (pack 32 ((List.range 16).map fun i =>
      let b := elem (T.readV f.sb) 32 i
      if bit b 31 then 0 else elem (T.readV f.sa) 32 (b % 16))) m)

/-- COMPACT (R135): the lanes that the predicate sets, toward lane 0. -/
def execCompact (f : FmtA) (s : State) : Host.Outcome State Fault Refusal :=
  .next (s.alu f 1 fun m T => T.writeV f.dst (pack 32 ((lanesIn (T.srcPred f.sc)).map fun j => elem (T.readV f.sa) 32 j)) m)

/-- EXPAND (R135): the m-th set bit's lane takes lane m; other lanes are 0. -/
def execExpand (f : FmtA) (s : State) : Host.Outcome State Fault Refusal :=
  .next (s.alu f 1 fun m T =>
    let k := T.srcPred f.sc
    T.writeV f.dst (pack 32 ((List.range 16).map fun i =>
      if k.getLsbD i then elem (T.readV f.sa) 32 (popcount (k.toNat % 2 ^ i) 16) else 0)) m)

end Sys2Proof.Machine
end

