-- ==== Sys2Proof/Machine/Matrix.lean ====
section
/-! DEFINITION. The matrix cell (R204 to R221): the issue of a matrix instruction, operand descriptors, headers and metadata,
the multiplies, and accumulator control. -/

namespace Sys2Proof.Machine

/-! ### Issue (R206, R207) -/

/-- The register sources of an operand: a V register, or both registers of a pair; Format X has no F/E bit for them. -/
def operandSrcs (kind : BitVec 1) (r : BitVec 6) (pos : Nat) : List Src :=
  if kind = 1 then [⟨r, false, pos⟩, ⟨r + 1, false, pos⟩] else [⟨r, false, pos⟩]

/-- A matrix instruction as the element of a tile issues it, before its operand phase. It keeps the carve-out and nmoff of the header
under which it is issued: a rolling switch changes no queued instruction (R205). -/
def MatOp.fresh (T : Tile) (i : Instr) (lanes : Mask) (a b c : List Word) (op : Option Nat) : MatOp :=
  { instr := i, lanes := lanes, a := a, b := b, c := c, op := op, staged := false, widx := T.pc, due := 0, fa := 0, fb := 0,
    ta := [], tb := [], res := 0, scrbase := T.scrbase, scrkib := T.scrkib, nmoff := T.nmoff, held := [], cells := [] }

/-- Issue of a matrix instruction: it blocks while 4 are queued; a V destination becomes a long-latency producer (R207). -/
def matrixOp (s : State) (f : FmtX) (i : Instr) (srcs : List Src) (dest : Bool) (ops : Tile → List Word × List Word × List Word) :
    Host.Outcome State Fault Refusal :=
  let m := s.me.effMask f.pg f.ps
  .next (s.issue (executes m dest) srcs fun s =>
    if s.acquiring || 4 ≤ s.me.mxc.queue.length then s
    else
      (s.onMe fun T =>
        let (a, b, c) := ops T
        let o := MatOp.fresh T i m a b c (if dest then some T.nop else none)
        let T' := if dest then T.issueOp .matrix f.sc m none false i else T
        { T' with mxc := { T'.mxc with queue := T'.mxc.queue ++ [o] } }).advance)

/-- The words of the operands that sa and sb name. -/
def operandWords (f : FmtX) (T : Tile) : List Word × List Word × List Word := (T.matOperand f.ak f.sa, T.matOperand f.bk f.sb, [])

/-- MMA (R215, R216). -/
def execMma (f : FmtX) (s : State) : Host.Outcome State Fault Refusal :=
  matrixOp s f (.mma f) (operandSrcs f.ak f.sa 0 ++ operandSrcs f.bk f.sb 1) false (operandWords f)

/-- MMAS (R218): the metadata pair has the F/E bit. -/
def execMmas (f : FmtX) (s : State) : Host.Outcome State Fault Refusal :=
  matrixOp s f (.mmas f) (operandSrcs f.ak f.sa 0 ++ operandSrcs f.bk f.sb 1 ++ [⟨f.sc, f.fe == 1, 2⟩, ⟨f.sc + 1, f.fe == 1, 2⟩]) false
    fun T => (T.pair f.sa, T.matOperand f.bk f.sb, T.pair f.sc)

/-- MMAW (R217). -/
def execMmaw (f : FmtX) (s : State) : Host.Outcome State Fault Refusal :=
  matrixOp s f (.mmaw f) (operandSrcs f.ak f.sa 0 ++ operandSrcs f.bk f.sb 1) false (operandWords f)

/-- ACCZ (R220). -/
def execAccz (f : FmtX) (s : State) : Host.Outcome State Fault Refusal := matrixOp s f (.accz f) [] false fun _ => ([], [], [])

/-- ACCRD (R220). -/
def execAccrd (f : FmtX) (s : State) : Host.Outcome State Fault Refusal :=
  matrixOp s f (.accrd f) [⟨f.sa, false, 0⟩] true fun T => ([T.readX f.sa.toNat], [], [])

/-- ACCWR (R220). -/
def execAccwr (f : FmtX) (s : State) : Host.Outcome State Fault Refusal :=
  matrixOp s f (.accwr f) [⟨f.sa, false, 0⟩, ⟨f.sc, f.fe == 1, 2⟩] false fun T => ([T.readX f.sa.toNat], [], T.matOperand 0 f.sc)

/-- ACCCVT (R221). -/
def execAcccvt (f : FmtX) (s : State) : Host.Outcome State Fault Refusal :=
  matrixOp s f (.acccvt f) [⟨f.sa, false, 0⟩] true fun T => ([T.readX f.sa.toNat], [], [])

/-! ### Descriptors (R209 to R212) -/

/-- A descriptor pair (Table 1), and the carve-out that its addresses fall in: where it begins and how long it is, in KiB. -/
structure Desc where
  rot  : Nat
  spc  : Nat
  hdr  : Nat
  rsv  : Nat
  addr : Nat
  tp   : Nat
  rp   : Nat
  base : Nat
  kib  : Nat
  deriving DecidableEq, Repr

/-- The descriptor pair of a matrix instruction's operand. -/
def MatOp.desc (o : MatOp) (ws : List Word) : Desc :=
  let a := word ws 0
  let b := word ws 1
  ⟨bits a 61 3, bits a 59 2, bits a 58 1, bits a 56 2, bits a 0 56, bits b 32 32, bits b 0 32, o.scrbase, o.scrkib⟩

/-- Where the data start. -/
def Desc.data (d : Desc) : Nat := d.addr + 64 * d.hdr
/-- The checks of R209 on the pair itself, for records or elements on an alignment. -/
def Desc.ok (d : Desc) (al : Nat) : Bool := d.spc < 3 && d.rsv == 0 && d.addr % al == 0 && !(d.spc == 2 && d.rot != 0)

/-- Bytes of a panel row of `per` elements (R210). -/
def rowBytes (c per : Nat) : Nat := ceilDiv (per * elemBits c) 8
/-- bpr (R210): side-record bytes between the rows of a panel. -/
def sidePitch (c : Nat) : Nat := if inBlocks c then 32 / blockLen c * sideBytes c else 0
/-- The pitches fit the rows of a panel (R209, R210). -/
def Desc.pitchOk (d : Desc) (c R k per : Nat) : Bool :=
  d.rp % 8 == 0 && rowBytes c per ≤ d.rp && (k ≤ 32 || (d.tp % 8 == 0 && R * (d.rp + sidePitch c) ≤ d.tp))

/-- What stops an operand phase: a fault, or exhaustion of the scratchpad (R213, R214). -/
inductive Stop where
  | fault (f : Flt)
  | exhaust
  deriving DecidableEq, Repr

/-- A reading of operands. -/
abbrev Reading (α : Type) := State × Except Stop α

def Reading.and {α β : Type} (x : Reading α) (k : α → State → Reading β) : Reading β :=
  match x with
  | (s, .ok a) => k a s
  | (s, .error e) => (s, .error e)

/-- A check of the operand phase. -/
def demand {α : Type} (s : State) (b : Bool) (f : Flt) (k : Reading α) : Reading α := if b then k else (s, .error (.fault f))

/-- A run cut at multiples of a size. -/
def cuts (size : Nat) : Nat → Nat → Nat → List (Nat × Nat)
  | 0, _, _ => []
  | k + 1, a, n => if n = 0 then [] else let m := min n (size - a % size); (a, m) :: cuts size k (a + m) (n - m)

/-- The bytes of a panel row: in order, or with each granule moved by the bank rotation (R211). -/
def Desc.rowRuns (d : Desc) (r a n : Nat) : List (Nat × Nat) :=
  if d.rot = 0 then [(a, n)] else (cuts 32 (n / 32 + 2) a n).map fun q => (q.1 ^^^ (r * d.rot % 16 * 32), q.2)

/-- Where the spill overflow of a tile begins (R284); none where the launch has none. -/
def spillBase (s : State) (t : Nat) : Option Nat :=
  match s.regionOf t with
  | some (_, g) =>
    match s.launchOf g with
    | some l => let o := bits (word l.snap 7) 0 56; if o = 0 then none else some (o + ((tyOf t - g.oy) * g.w + (txOf t - g.ox)) * 2 ^ 24)
    | none => none
  | none => none

/-- A fault of a scratchpad operand carries the descriptor's address, wherever its bytes lie (R214). -/
def Desc.labelled (d : Desc) (f : Flt) : Flt := { f with va := d.addr }

/-- A run within 512 aligned bytes of an operand's space (R213, R214). -/
def readCell (s : State) (p : Site) (d : Desc) (a n : Nat) : Reading (List Byte) :=
  let lift (x : State × Except Flt (List Byte)) (label : Flt → Flt) : Reading (List Byte) :=
    match x with | (s, .ok b) => (s, .ok b) | (s, .error e) => (s, .error (.fault (label e)))
  let scr (t off : Nat) : Reading (List Byte) :=
    if s.scratchBad t off n then (s, .error (.fault (.decmp (if d.spc = 0 then 0 else d.addr)))) else (s, .ok (memBytes off n (s.tile t).scratch))
  match (s.tile p.t).region with
  | none => (s, .ok [])
  | some r =>
    if d.spc = 2 then lift (s.taskRun r p .streamRead a n) id
    else if d.spc = 1 then
      let m := tileAt (dieOf p.t) (tyOf p.t / 2 * 2 + bits a 20 1) (txOf p.t / 2 * 2 + bits a 19 1)
      if 2 ^ 21 ≤ a || !((s.regionOf p.t).any fun q => q.2.holds m) then (s, .error (.fault (.prot d.addr 3))) else scr m (a % 2 ^ 19)
    else if a < d.kib * 1024 then scr p.t (d.base * 1024 + a)
    else match spillBase s p.t with
      | some o => if a < 2 ^ 24 then lift (s.taskRun r p (.spill false) (o + a) n) d.labelled else (s, .error .exhaust)
      | none => (s, .error .exhaust)

/-- Runs of an operand's space, read in order. -/
def readRuns (s : State) (p : Site) (d : Desc) : List (Nat × Nat) → Reading (List Byte)
  | [] => (s, .ok [])
  | (a, n) :: rest => (readCell s p d a n).and fun bs s => (readRuns s p d rest).and fun more s => (s, .ok (bs ++ more))

def readFrom (s : State) (p : Site) (d : Desc) (runs : List (Nat × Nat)) : Reading (List Byte) :=
  readRuns s p d (runs.flatMap fun q => if d.spc = 2 then [q] else cuts 512 (q.2 / 512 + 2) q.1 q.2)

/-- The tile-packet header, when there is one: its format and rows (R212). A header that names another format than the
instruction, or one that the instruction would have refused, raises FMTMIS; so does ANY without a header. DESIGN CHOICE: the checks of one
operand are made in this order, the fields of its header, the header's format, and then, with the format, its pitches (log entry 55). -/
def resolveFmt (s : State) (p : Site) (d : Desc) (c rows k : Nat) (accept : Nat → Bool) : Reading (Nat × Nat) :=
  if d.hdr = 0 then demand s (c != 31) ⟨0x0B, d.addr, 32 * 31⟩ (s, .ok (c, rows))
  else
    (readFrom s p d [(d.addr, 8)]).and fun bs s =>
      let h := ofBytes bs
      let hf := bits h 0 5
      let R := bits h 8 8
      demand s (bits h 32 32 == 0 && bits h 5 3 == 0 && k ≤ bits h 16 16 && bits h 16 16 ≤ 512 && rows ≤ R && R ≤ 32 && 1 ≤ R)
        (.prot d.addr 6) <|
      demand s (hf < 24 && (c == hf || (c == 31 && accept hf))) ⟨0x0B, d.addr, hf + 32 * c⟩ (s, .ok (hf, R))

/-- The staged form of an element: its code, its block's side record, and a position. -/
def element (code side pos : Nat) : Word := BitVec.ofNat 64 (code % 2 ^ 32 + 2 ^ 32 * (side % 2 ^ 16) + 2 ^ 48 * pos)
/-- The value of a staged element of a format. -/
def valueAt (c : Nat) (w : Word) : Val :=
  if inBlocks c then blockValue c (bits w.toNat 32 16) (bits w.toNat 0 32) else plainValue c (bits w.toNat 0 32)

/-- The elements of the rows of a tile in memory, `per` to a panel row, row by row (R210). -/
def readTile (s : State) (p : Site) (d : Desc) (c R rows k per : Nat) : Reading (List Word) :=
  demand s (d.pitchOk c R k per) (.prot d.addr 6) <|
  let P := max 1 (k / 32)
  let rb := rowBytes c per
  let nb := ceilDiv per (blockLen c)
  let sb := if inBlocks c then nb * sideBytes c else 0
  let at' := (List.range rows).flatMap fun r => (List.range P).map fun t => (r, t)
  (readFrom s p d (at'.flatMap fun (r, t) => d.rowRuns r (d.data + t * d.tp + r * d.rp) rb)).and fun data s =>
  (readFrom s p d (if sb = 0 then [] else at'.map fun (r, t) => (d.data + t * d.tp + R * d.rp + r * sidePitch c, sb))).and fun sides s =>
    (s, .ok ((List.range at'.length).flatMap fun q =>
      let v := ofBytes ((data.drop (q * rb)).take rb)
      (List.range per).map fun x =>
        let side := ofBytes ((sides.drop (q * sb + x / blockLen c * sideBytes c)).take (if sb = 0 then 0 else sideBytes c))
        element (packedElem v (elemBits c) x) side 0))

/-- A seed record passes its checks (R222). -/
def seedOk (ws : List Word) : Bool := bits (word ws 0) 36 12 == 0 && bits (word ws 0) 32 4 ≤ 8 && bits (word ws 3) 32 32 == 0

/-- Seed records, four words each: from a register, or from memory (R208, R210, R222). A bad record of a scratchpad operand is reported
by its own address, the offset in the space, and not by the descriptor's addr, where R222 and R214 differ (log entry 55). -/
def checkSeeds (s : State) (base : Option Nat) (n : Nat) (ws : List Word) : Reading (List Word) :=
  match (List.range n).find? fun t => !seedOk ((ws.drop (4 * t)).take 4) with
  | some t => (s, .error (.fault (.prot (match base with | some a => a + 32 * t | none => 0) 6)))
  | none => (s, .ok (ws.take (4 * n)))

/-- An operand of rows × k elements, or the seed records of k rows (R208, R210): its format, and its staged words. -/
def readOperand (s : State) (p : Site) (o : MatOp) (kind : BitVec 1) (ws : List Word) (c rows k per : Nat) (accept : Nat → Bool) :
    Reading (Nat × List Word) :=
  let nrec := ceilDiv k 32
  if kind = 0 then
    if c = 23 then (checkSeeds s none nrec ws).and fun w s => (s, .ok (c, w))
    else
      let v := packNat 64 (ws.map BitVec.toNat)
      (s, .ok (c, (List.range (rows * k)).map fun i => element (packedElem v (elemBits c) i) 0 0))
  else
    let d := o.desc ws
    demand s (d.ok (if c = 23 then 32 else 8)) (.prot d.addr 6) <|
    (resolveFmt s p d c rows k accept).and fun (c, R) s =>
      if c = 23 then
        demand s (d.ok 32) (.prot d.addr 6) <|
        (readFrom s p d [(d.data, 32 * nrec)]).and fun bs s =>
          (checkSeeds s (some d.data) nrec (wordsOf bs (4 * nrec))).and fun w s => (s, .ok (c, w))
      else (readTile s p d c R rows k per).and fun w s => (s, .ok (c, w))

/-! ### N:32 metadata (R218) -/

/-- The slot codes of a group word, in slot order. -/
def slotsOf (w n : Nat) : List Nat := (List.range n).map fun i => bits w (6 * i) 6

/-- The first bad slot of a group: a reserved code, or a position named twice when names are checked. Which one of several is reported the spec
leaves open: the lowest slot, and of two that name one position the later (log entry 55). -/
def badSlot (cs : List Nat) (nmoff : Bool) : Option (Nat × Bool) :=
  ((List.range cs.length).find? fun i => let c := cs.getD i 0; (32 ≤ c && c < 63) || (c < 32 && !nmoff && (cs.take i).contains c)).map
    fun i => (i, 32 ≤ cs.getD i 0)

/-- The positions of the slots of every row and group, in row, group and slot order; 0xFFFF for an empty slot. Of the pitch mrp only
the multiple of 8 is checked: Table 1's lower bound is of panel rows, and R218 names none for group words (log entry 55). -/
def readSlots (s : State) (p : Site) (o : MatOp) (ws : List Word) (m k : Nat) : Reading (Nat × List Nat) :=
  let nmoff := o.nmoff
  let d := o.desc ws
  let n := bits (word ws 1) 32 4
  demand s (d.ok 8 && d.rot == 0 && d.hdr == 0 && 1 ≤ n && n ≤ 8 && bits (word ws 1) 36 28 == 0 && d.rp % 8 == 0) (.prot d.addr 6) <|
  let G := k / 32
  let at' := (List.range m).flatMap fun i => (List.range G).map fun g => (i, g)
  (readFrom s p d (at'.map fun (i, g) => (d.addr + i * d.rp + 8 * g, 8))).and fun bs s =>
    let groups := (wordsOf bs at'.length).map fun w => slotsOf w.toNat n
    match (List.range groups.length).find? fun j => (badSlot (groups.getD j []) nmoff).isSome with
    | some j =>
      let (slot, rsv) := (badSlot (groups.getD j []) nmoff).getD (0, false)
      let va := if d.spc = 2 then d.addr + j / G * d.rp + 8 * (j % G) else d.addr
      (s, .error (.fault ⟨if rsv then 0x0A else 0x09, va, j + 2 ^ 32 * slot⟩))
    | none =>
      (s, .ok (n, (List.range groups.length).flatMap fun j =>
        (groups.getD j []).map fun c => if c = 63 then 0xFFFF else 32 * (j % G) + c))

/-! ### The multiplies (R215 to R217) -/

/-- Column j of a seed operand of k rows (R217). -/
def seedColumn (recs : List Word) (bases : List (List (List Bool))) (k j : Nat) : List Val :=
  (List.range k).map fun x =>
    let r := (recs.drop (4 * (x / 32))).take 4
    let C := bits (word r 0) 32 4
    let coefs := (List.range C).map fun q => bits (packNat 64 (r.map BitVec.toNat)) (64 + 16 * q) 16
    seedValue (bits (word r 0) 48 8) coefs ((bases.getD (x / 32) []).map fun b => b.getD (32 * (x % 32) + j) false)

/-- The sign tables of the bases of seed records (R119, R217). -/
def seedBases (recs : List Word) (n : Nat) : List (List (List Bool)) :=
  (List.range n).map fun t =>
    let w := word recs (4 * t)
    (List.range (bits w 32 4)).map fun q => basis (BitVec.ofNat 32 w) q

/-- A staged multiply. -/
structure Product where
  m   : Nat
  n   : Nat
  k   : Nat
  fa  : Nat
  fb  : Nat
  rows : List (List (Nat × Val))     -- by row of A: positions along k and values
  cols : List (List Val)             -- by column of B
  deriving DecidableEq

namespace AccBank

def get (b : AccBank) (i j : Nat) : Nat := ((tabGet (32 * i + j) b.elems).getD 0).toNat
def set (b : AccBank) (i j v : Nat) : AccBank :=
  { b with elems := if v % 2 ^ 32 = 0 then tabErase (32 * i + j) b.elems else tabSet (32 * i + j) (BitVec.ofNat 32 v) b.elems }
/-- Elements (i, j) with i < m and j < n, each replaced by a function of its bits. -/
def update (b : AccBank) (m n : Nat) (g : Nat → Nat → Nat → Nat) : AccBank :=
  ((List.range m).flatMap fun i => (List.range n).map fun j => (i, j)).foldl (fun c q => c.set q.1 q.2 (g q.1 q.2 (b.get q.1 q.2))) b

end AccBank

/-- R216 with the chunks of R115: the products of row i with column j, chunk by chunk. -/
def Product.apply (x : Product) (b : AccBank) : AccBank :=
  let K := min (chunkK x.fa x.fb) x.k
  b.update x.m x.n fun i j acc =>
    let col := x.cols.getD j []
    let chunks := (List.range (x.k / K)).map fun q =>
      ((x.rows.getD i []).filter fun e => e.1 / K == q).map fun e => e.2.mul (col.getD e.1 Val.default)
    sumChunks (bothInt x.fa x.fb) b.sat acc chunks

/-- The operands of a staged multiply. -/
def MatOp.product (o : MatOp) (f : FmtX) (sparse : Bool) : Product :=
  let m := Spec.shapeM f.mc
  let n := Spec.shapeM f.nc
  let k := Spec.shapeK f.kc
  let per := if sparse then o.ta.length / m else k
  let rows := (List.range m).map fun i =>
    ((List.range per).map fun x =>
      let w := o.ta.getD (i * per + x) 0
      (if sparse then bits w.toNat 48 16 else x, valueAt o.fa w)).filter fun e => e.1 != 0xFFFF
  let cols :=
    if o.fb = 23 then
      let bs := seedBases o.tb (ceilDiv k 32)
      (List.range n).map (seedColumn o.tb bs k)
    else (List.range n).map fun j => (List.range k).map fun x => valueAt o.fb (o.tb.getD (j * k + x) 0)
  ⟨m, n, k, o.fa, o.fb, rows, cols⟩

/-- MAC per clk of a format (R219). -/
def macRate (c : Nat) : Nat :=
  if c = 0 then 64 else if [1, 2, 9].contains c then 256 else if c = 23 || [7, 8, 12, 13, 14, 19, 21, 22].contains c then 2048 else 1024

/-- The clk of a multiply's compute phase (R219). -/
def multiplyClk (fa fb p : Nat) : Nat := ceilDiv p (min (macRate fa) (macRate fb))

/-- The clk of the compute phase of an instruction that multiplies; 0 for any other. -/
def MatOp.macClk (o : MatOp) : Nat :=
  let p := fun (f : FmtX) => Spec.shapeM f.mc * Spec.shapeM f.nc * Spec.shapeK f.kc
  match o.instr with
  | .mma f => multiplyClk o.fa o.fb (p f)
  | .mmas f => multiplyClk o.fa o.fb (p f / 4)
  | .mmaw f => multiplyClk o.fa o.fa (p f)
  | _ => 0

/-- The operand phase of a multiply: form 0 MMA, 1 MMAS, 2 MMAW. The metadata, A and B are checked in this order, and the first fault is
the record's (log entry 55). -/
def stageMultiply (s : State) (p : Site) (o : MatOp) (f : FmtX) (form : Nat) : Reading MatOp :=
  let m := Spec.shapeM f.mc
  let n := Spec.shapeM f.nc
  let k := Spec.shapeK f.kc
  let okA := fun c => !(Spec.mma form { f with fmtA := BitVec.ofNat 5 c }).fmt
  let okB := fun c => !(Spec.mma form { f with fmtB := BitVec.ofNat 5 c }).fmt
  let meta' : Reading (Nat × List Nat) := if form = 1 then readSlots s p o o.c m k else (s, .ok (min k 32, []))
  meta'.and fun (per, slots) s =>
  (readOperand s p o f.ak o.a f.fmtA.toNat m k per okA).and fun (fa, ta) s =>
  (readOperand s p o f.bk o.b f.fmtB.toNat n k (min k 32) okB).and fun (fb, tb) s =>
    let ta := if form = 1 then (List.range ta.length).map fun i => element (bits (word ta i) 0 32) 0 (slots.getD i 0xFFFF) else ta
    let o := { o with fa := fa, fb := fb, ta := ta, tb := tb }
    (s, .ok { o with due := o.macClk })

/-! ### Accumulator control (R220, R221) -/

/-- The row that a selector names, and the first column of its half. -/
def rowOf (o : MatOp) : Nat × Nat := (bits (word o.a 0) 0 5, 16 * bits (word o.a 0) 5 1)

/-- A 512-bit string of eight words. -/
def vecOf (ws : List Word) : Vec := BitVec.ofNat 512 (packNat 64 (ws.map BitVec.toNat))

/-- ACCRD: a half row. -/
def readHalf (b : AccBank) (o : MatOp) : Vec := let (i, h) := rowOf o; pack 32 ((List.range 16).map fun l => b.get i (h + l))

/-- ACCWR: the active lanes of a half row. -/
def writeHalf (b : AccBank) (o : MatOp) : AccBank :=
  let (i, h) := rowOf o
  (lanesIn o.lanes).foldl (fun c l => c.set i (h + l) (elem (vecOf o.c) 32 l)) b

/-- The conversion of one element (R221). -/
def cvtElem (c : Nat) (int : Bool) (sat : Bool) (rm bits' : Nat) : Nat :=
  match intFmt c with
  | some (signed', w) =>
    if int then (if sat then wrap (satT signed' w (sext bits' 32)) w else wrap (sext bits' 32) w)
    else toInteger signed' w rm 0 (fp32.value bits')
  | none =>
    if int then round (fmtOfCode c) rm sat 0 (Q.ofInt (sext bits' 32))
    else if c = 0 then bits' else convert (fmtOfCode c) rm sat 0 (fp32.value bits')

/-- ACCCVT: a half row in 32-bit formats, else the whole row packed from position 0. -/
def convertRow (b : AccBank) (o : MatOp) (f : FmtX) : Vec :=
  let (i, h) := rowOf o
  let c := f.fmtA.toNat
  let g := fun j => cvtElem c (f.mc == 1) (f.nc == 1) f.kc.toNat (b.get i j)
  if c = 0 then pack 32 ((List.range 16).map fun l => g (h + l)) else pack (elemBits c) ((List.range 32).map g)

end Sys2Proof.Machine
end

