-- ==== Sys2Proof/Machine/Streams.lean ====
section
/-! DEFINITION. Stream units (R159 to R182, R201): root sources, scanners, merge units, the repeater and the reducer. One event
moves one token; beats have no meaning at these units (R161). -/

namespace Sys2Proof.Machine

namespace Tile

/-- A root source may go on: it has started, has not ended, and its region's sources are not stopped (R162, R260). -/
def rootRuns (T : Tile) (u : Nat) (g : Region) : Bool := (T.unit u).started && !(T.unit u).ended && !g.stopped

/-- A stop that a unit emits: with `drop` it passes through Table 4 of R16. `lone` says that it follows a stop or begins the
stream. -/
def passStop (T : Tile) (ctx u k : Nat) (drop lone : Bool) : Tile :=
  let U := T.unit u
  if !drop then T.sendStop ctx u k
  else if lone && k = 0 then T
  else
    let T := match U.held with | some i => if lone && k ≤ i then T.sendStop ctx u i else T | none => T
    T.onUnit u fun U => { U with held := some k }

/-- A held stop leaves directly ahead of data or of the end of the stream (R16). -/
def releaseStop (T : Tile) (ctx u : Nat) : Tile :=
  match (T.unit u).held with
  | some k => (T.sendStop ctx u k).onUnit u fun U => { U with held := none }
  | none => T

/-- What a unit emits before it passes on the end of a stream, or SW (R192): a pending stop, the value of an open fibre, a held
stop. -/
def drainUnit (T : Tile) (ctx now u : Nat) : Tile :=
  let U := T.unit u
  let T :=
    if (u = 1 || u = 2) && U.pending then T.sendStop ctx u 0
    else if 7 ≤ u && U.pending then T.sendStop ctx u (if T.unitFn u = 0 then bits (T.unitWord u 0) 40 2 else 0)
    else if u = 5 then (match U.acc with | some a => T.sendToken ctx now u 40 2 a | none => T)
    else if u = 3 || u = 6 then T.releaseStop ctx u
    else T
  T.onUnit u fun U => { U with pending := false, acc := none }

end Tile

namespace State

/-- A unit ends its stream with DONE or BAR: what is open is closed, the token goes to every output, and the per-stream state
resets (R162, R192). -/
def endUnit (s : State) (t u ctx kind tag : Nat) : State :=
  (s.onTile t fun T => (T.drainUnit ctx s.time u).sendEnd ctx u kind tag).endStream t u

/-- The control tokens at some inputs are taken together; BARs of different tags are counted (R41). -/
def takeAll (s : State) (t : Nat) (cs : List Nat) : State :=
  let T := s.tile t
  let tags := cs.filterMap fun c => (T.token c).bind fun k => if k.1 = 5 then some k.2 else none
  let s := s.onTile t fun T => cs.foldl Tile.takeToken T
  if tags.any fun x => x != tags.headD 0 then s.count (dieOf t) .tagMismatch else s

end State

/-- ROOT_SOURCE_START (R162): in the clk after its region has switched, once in a configuration period. -/
def execRootSourceStart (t u : Nat) (s : State) : Host.Outcome State Fault Refusal :=
  unitStep s t u fun _ g s =>
    if (s.tile t).isRoot u && !g.stopped then s.onTile t fun T => T.onUnit u fun U => { U with started := true } else s

/-! ### Scanners (R170 to R175, R201) -/

/-- A coordinate and its reference, and for SCN.T a value (R171). -/
def scanEmit (T : Tile) (ctx now u crd ref : Nat) (v : Option Nat) : Tile :=
  let T := (T.sendToken ctx now u (8 * u) 0 (BitVec.ofNat 32 crd)).sendToken ctx now u (8 * u + 1) 1 (BitVec.ofNat 32 ref)
  match v with
  | some x => T.sendToken ctx now u (8 * u + 2) 2 (BitVec.ofNat 32 x)
  | none => T

/-- The open fibre of a scanner ends; its S0 is pending (R174). -/
def scanClose (T : Tile) (u : Nat) : Tile := T.onUnit u fun U => { U with ref := none, pending := true }

/-- Words of a bitmap fibre of extent n, and its tiles (R172). -/
def bitmapWords (n : Nat) : Nat := ceilDiv n 64
def bitmapTiles (n : Nat) : Nat := ceilDiv (bitmapWords n) 64

/-- The slots of a group word in the order of emission: ascending code, lower slot first, as code and slot (R173). -/
def groupOrder (w n : Nat) : List (Nat × Nat) :=
  let cs := slotsOf w n
  (List.range 32).flatMap fun c => (positions (· == c) cs).map fun i => (c, i)

/-- What a scanner's fibre of reference r opens with: its first position, its end, and an offset (R171). -/
def openFibre (s : State) (r : Nat) (p : Site) (T : Tile) (u ref : Nat) (k : Nat × Nat × Nat → State → State) : State :=
  let pg := T.unitPg u
  let n := bits (T.unitWord u 0) 0 32
  match T.unitFn u with
  | 0 => k (0, n, 0) s
  | 1 =>
    if bits (T.unitWord u 0) 36 4 != 0 then k (0, 64 * n, 0) s
    else s.reading r p pg (T.ext u 0 + 4 * ref) 4 fun a s => s.reading r p pg (T.ext u 0 + 4 * (ref + 1)) 4 fun b s => k (a, b, 0) s
  | 2 => k (0, n, 0) s
  | _ => s.reading r p pg (T.ext u 0 + 8 * (ref / 16)) 8 fun v s => k (0, v / 2 ^ 32, v % 2 ^ 32) s

/-- The checks of a bitmap tile (R172): L, and the running sums. -/
def bitmapBad (words : List Nat) (rec' : Nat) : Bool :=
  let pc := words.map fun w => popcount w 64
  pc.sum != rec' % 2 ^ 32 || (List.range words.length).any fun j => bits rec' (64 + 16 * j) 16 != (pc.take j).sum

/-- Clk from a scanner's asking for a bitmap tile to its reads' return: memory is no nearer than the beads of R319's program are to
their ACCEPT (log entry 56). -/
def bitmapLatency : Nat := 16

/-- One token of an open fibre, or its end. -/
def scanStep (s : State) (r : Nat) (g : Region) (p : Site) (t u : Nat) : State :=
  let T := s.tile t
  let U := T.unit u
  let ref := U.ref.getD 0
  let pg := T.unitPg u
  let n := bits (T.unitWord u 0) 0 32
  let move (pos : Nat) (T : Tile) : Tile := T.onUnit u fun U => { U with pos := pos }
  let emit (crd rf pos : Nat) (s : State) : State := s.onTile t fun T => move pos (scanEmit T g.ctx s.time u crd (rf % 2 ^ 32) none)
  if U.lim ≤ U.pos then s.onTile t fun T => scanClose T u
  else match T.unitFn u with
    | 0 => emit U.pos (ref * n + U.pos) (U.pos + 1) s
    | 1 =>
      let nm := bits (T.unitWord u 0) 36 4
      if nm = 0 then s.reading r p pg (T.ext u 1 + 4 * U.pos) 4 fun c s => emit c U.pos (U.pos + 1) s
      else
        let grp := U.pos / 64
        let j := U.pos % 64
        let idx := ref * n + grp
        let low := U.floor - 32 * grp
        let go (w : Nat) (s : State) : State :=
          let es := groupOrder w nm
          match (List.range es.length).find? fun i => j ≤ i && low ≤ (es.getD i (0, 0)).1 with
          | none => s.onTile t (move (64 * (grp + 1)))
          | some i =>
            let e := es.getD i (0, 0)
            emit (32 * grp + e.1) (idx * nm + e.2) (if i + 1 < es.length then 64 * grp + i + 1 else 64 * (grp + 1)) s
        if j = 0 then
          s.reading r p pg (T.ext u 0 + 8 * idx) 8 fun w s =>
            match badSlot (slotsOf w nm) (bit (T.unitWord u 0) 40) with
            | some (i, rsv) => s.raise p ⟨if rsv then 0x0A else 0x09, T.ext u 0 + 8 * idx, idx % 2 ^ 32 + 2 ^ 32 * i⟩
            | none => go w (s.onTile t fun T => T.onUnit u fun U => { U with block := [BitVec.ofNat 64 w] })
        else go (word U.block 0) s
    | 2 =>
      let b := U.pos / 4096
      let W := bitmapWords n
      let nw := min 64 (W - 64 * b)
      if U.mark = b + 1 then
        match (List.range (min (4096 * (b + 1)) n - U.pos)).find? fun i => bit (word U.block ((U.pos + i) % 4096 / 64)) ((U.pos + i) % 64) with
        | none => s.onTile t (move (4096 * (b + 1)))
        | some i =>
          let q := U.pos + i
          let j := q % 4096 / 64
          let rec' := packNat 64 ((U.block.drop nw).map BitVec.toNat)
          emit q (bits rec' 32 32 + bits rec' (64 + 16 * j) 16 + popcount (word U.block j) (q % 64)) (q + 1) s
      else if U.due = 0 then s.onTile t fun T => T.onUnit u fun U => { U with due := s.time + bitmapLatency }
      else if s.time < U.due then s
      else
        s.reading r p pg (T.ext u 0 + 8 * (ref * W + 64 * b)) (8 * nw) fun ws s =>
          let at' := T.ext u 1 + 136 * (ref * bitmapTiles n + b)
          s.reading r p pg at' (8 + 2 * nw) fun rec' s =>
            let words := unpackNat 64 nw ws
            if bitmapBad words rec' then s.raise p ⟨0x08, at', rec' % 2 ^ 32 + 2 ^ 32 * (words.map fun w => popcount w 64).sum⟩
            else s.onTile t fun T => T.onUnit u fun U => { U with
              mark := b + 1
              due := 0
              block := (words ++ unpackNat 64 17 rec').map (BitVec.ofNat 64) }
    | 3 =>
      let q := U.mark + 16 * U.pos + ref % 16
      s.reading r p pg (T.ext u 1 + 4 * q) 4 fun c s =>
        if c = 0xFFFFFFFF || c < U.floor then s.onTile t (move (U.pos + 1)) else emit c q (U.pos + 1) s
    | _ => s

/-- SCN.T's descriptor with the checks of its first REF of a configuration period (R195, R201); extents: the scanned one, and
the product of the inner ones. -/
def openScanTree (s : State) (g : Region) (p : Site) (T : Tile) (u : Nat) : State × Except Flt (Nat × Nat × Nat) :=
  let va := T.ext u 0
  let l := bits (T.unitWord u 0) 32 4
  match s.openAt p g.ctx va false with
  | (s, .error e) => (s, .error e)
  | (s, .ok d) =>
    if s.descOrder d ≤ l || (bit (T.unitWord u 0) 45 && Spec.tyWidth (s.descVty d) = 64) then (s, .error (.prot va 6))
    else (s, .ok (d, (s.extents d).getD l 1, ((s.extents d).drop (l + 1)).foldl (· * ·) 1))

/-- A REF taken, or the REF 0 of a root: the fibre opens behind a pending S0 (R174). For SCN.T the REF is the P of R201; at level 0 one
other than 0 names an empty fibre (log entry 55). -/
def scanOpen (s : State) (r : Nat) (g : Region) (p : Site) (t u ref : Nat) (take : Bool) : State :=
  let done := fun (o : Nat × Nat × Nat) (s : State) =>
    let s := s.onTile t fun T =>
      let T := if (T.unit u).pending then T.sendStop g.ctx u 0 else T
      T.onUnit u fun U => { U with
        ref := some ref
        pos := o.1
        lim := o.2.1
        mark := o.2.2
        floor := 0
        pending := false
        ended := false
        checked := true
        fibre := U.fibre + 1 }
    if take then s.take t (8 * u) 1 else s
  if (s.tile t).unitFn u = 4 then
    match openScanTree s g p (s.tile t) u with
    | (s, .error e) => s.raise p e
    | (s, .ok (_, e, m)) => done (ref * e * m, ref * e * m + e * m, 0) s
  else openFibre s r p (s.tile t) u ref done

/-- SCANNER_REF (R171, R174): a token of the open fibre, or the opening of the next. -/
def execScannerRef (t u : Nat) (s : State) : Host.Outcome State Fault Refusal :=
  if u = 1 || u = 2 then unitStep s t u fun r g s =>
    let T := s.tile t
    let U := T.unit u
    let p := unitSite t u
    if T.isRoot u && !T.rootRuns u g then s
    else if U.ref.isSome then (if T.unitFn u = 4 then s else scanStep s r g p t u)
    else if T.isRoot u then (if U.fibre = 0 then scanOpen s r g p t u 0 false else s)
    else match T.token (8 * u) with
      | some (k, x) => if k ≤ 2 then scanOpen s r g p t u x true else s
      | none => s
  else .next s

/-- SCN_T_SEEK (R201): the least committed key at or above the position, and its coordinate, reference and value; a request of its unit
(R289). A partition that the seek enters and that is broken raises DECMP (R402). Each seek is of its own instant, as R201 has it: a commit between two
seeks shows in the second, which Table 17 of R311 reads otherwise (log entry 66). -/
def execScnTSeek (t u : Nat) (s : State) : Host.Outcome State Fault Refusal :=
  if u = 1 || u = 2 then unitStep s t u fun _ g s =>
    let T := s.tile t
    let U := T.unit u
    let p := unitSite t u
    if T.unitFn u != 4 || (T.isRoot u && !T.rootRuns u g) then s
    else match U.ref with
      | none => s
      | some P =>
        match openScanTree s g p T u with
        | (s, .error e) => s.raise p e
        | (s, .ok (d, e, m)) =>
          if s.brokenFrom d U.pos then s.raise p (.decmp (T.ext u 0))
          else
          let s := s.touch p g.ctx (T.ext u 0) d
          match s.seek d U.pos with
            | none => s.onTile t fun T => scanClose T u
            | some (k, v) =>
              if U.lim ≤ k then s.onTile t fun T => scanClose T u
              else
                let lo := P * e * m
                let c := (k - lo) / m
                let inner := bits (T.unitWord u 0) 32 4 + 1 < s.descOrder d
                let vty := s.descVty d
                let w := Spec.tyWidth vty
                let x := if bit (T.unitWord u 0) 45 then some (extend v.toNat w (Spec.tyInt vty)).toNat else none
                if inner && 2 ^ 32 ≤ P * e + c then s.raise p (.prot (T.ext u 0) 3)
                else s.onTile t fun T => (scanEmit T g.ctx s.time u c (if inner then P * e + c else k) x).onUnit u
                  fun U => { U with pos := lo + (c + 1) * m }
  else .next s

/-- SCANNER_STOP (R174): an input stop leaves one level higher and absorbs a pending S0. -/
def execScannerStop (t u : Nat) (s : State) : Host.Outcome State Fault Refusal :=
  if u = 1 || u = 2 then unitStep s t u fun _ g s =>
    let T := s.tile t
    match T.token (8 * u) with
    | some (3, k) =>
      if (T.unit u).ref.isSome || T.isRoot u then s
      else
        let s := s.onTile t fun T => (((T.sendStop g.ctx u (min (k + 1) 14)).takeToken (8 * u)).onUnit u
          fun U => { U with pending := false, ended := false })
        if k = 14 then s.count g.die .depthOverflow else s
    | _ => s
  else .next s

/-- The end of a scanner's input stream: DONE or BAR behind a pending S0 (R174, R192). -/
def scanEnd (s : State) (g : Region) (t u : Nat) : State :=
  let T := s.tile t
  let U := T.unit u
  if U.ref.isSome then s
  else if T.isRoot u then (if T.rootRuns u g && U.fibre = 1 then s.endUnit t u g.ctx 4 0 else s)
  else match T.token (8 * u) with
    | some (k, x) => if k = 4 || k = 5 then (s.takeAll t [8 * u]).endUnit t u g.ctx k (if k = 5 then x else 0) else s
    | none => s

/-- SCANNER_DONE (R174, R192). -/
def execScannerDone (t u : Nat) (s : State) : Host.Outcome State Fault Refusal :=
  if u = 1 || u = 2 then unitStep s t u fun _ g s => scanEnd s g t u else .next s

/-- The galloping and the binary search of R175: the positions that a probe decides on; `below` says that crd[i] < c. -/
def gallop (s : State) (below : Nat → State → State × Except Flt Bool) (fin' : Nat) : Nat → Nat → Nat → State × Except Flt (Nat × Nat)
  | 0, lo, step => (s, .ok (lo, min (lo + step) fin'))
  | f + 1, lo, step =>
    if lo + step < fin' then
      match below (lo + step) s with
      | (s, .error e) => (s, .error e)
      | (s, .ok true) => gallop s below fin' f (lo + step) (2 * step)
      | (s, .ok false) => (s, .ok (lo, lo + step))
    else (s, .ok (lo, fin'))

def bisect (s : State) (below : Nat → State → State × Except Flt Bool) : Nat → Nat → Nat → State × Except Flt Nat
  | 0, _, hi => (s, .ok hi)
  | f + 1, lo, hi =>
    if lo + 1 < hi then
      match below ((lo + hi) / 2) s with
      | (s, .error e) => (s, .error e)
      | (s, .ok b) => if b then bisect s below f ((lo + hi) / 2) hi else bisect s below f lo ((lo + hi) / 2)
    else (s, .ok hi)

/-- The next coordinate of a row of SCN.SP from a position, in entries read one by one (R171, R175); none when the row holds no more. -/
def nextEntry (read : Nat → State → State × Except Flt Nat) (floor lim : Nat) : Nat → Nat → State → State × Except Flt (Option Nat)
  | 0, _, s => (s, .ok none)
  | n + 1, i, s =>
    if lim ≤ i then (s, .ok none)
    else match read i s with
      | (s, .error e) => (s, .error e)
      | (s, .ok c) => if c = 0xFFFFFFFF || c < floor then nextEntry read floor lim n (i + 1) s else (s, .ok (some c))

/-- SCANNER_SKIP (R175): the position moves to the first coordinate at or above c, or the SKIP is discarded. -/
def execScannerSkip (t u : Nat) (s : State) : Host.Outcome State Fault Refusal :=
  if u = 1 || u = 2 then unitStep s t u fun r g s =>
    let T := s.tile t
    let U := T.unit u
    let p := unitSite t u
    match T.inHead (8 * u + 1) with
    | none => s
    | some b =>
      let c := (lane b.data 0).toNat
      let pop := fun (s : State) => s.onTile t fun T => T.popIn (8 * u + 1)
      let moveTo := fun (pos : Nat) (s : State) => pop (s.onTile t fun T => T.onUnit u fun U => { U with pos := max U.pos pos, floor := max U.floor c })
      if U.ref.isNone || (lane b.data 1).toNat != (U.fibre - 1) % 2 ^ 32 || (lane b.data 2).toNat != U.stream then
        (pop s).count g.die .skipDiscarded
      else match T.unitFn u with
        | 1 =>
          if bits (T.unitWord u 0) 36 4 != 0 then moveTo (if U.pos / 64 < c / 32 then 64 * (c / 32) else U.pos) s
          else if U.lim ≤ U.pos then pop s
          else
            let below (i : Nat) (s : State) : State × Except Flt Bool :=
              match s.unitRead r p (T.unitPg u) (T.ext u 1 + 4 * i) 4 with
              | (s, .ok v) => (s, .ok (decide (v < c)))
              | (s, .error e) => (s, .error e)
            match below U.pos s with
            | (s, .error e) => s.raise p e
            | (s, .ok false) => pop s
            | (s, .ok true) =>
              match gallop s below U.lim 64 U.pos 1 with
              | (s, .error e) => s.raise p e
              | (s, .ok (lo, hi)) =>
                match bisect s below 64 lo hi with
                | (s, .error e) => s.raise p e
                | (s, .ok pos) => moveTo pos s
        | 3 =>
          let read := fun (i : Nat) (s : State) => s.unitRead r p (T.unitPg u) (T.ext u 1 + 4 * (U.mark + 16 * i + U.ref.getD 0 % 16)) 4
          match nextEntry read U.floor U.lim (U.lim - U.pos) U.pos s with
          | (s, .error e) => s.raise p e
          | (s, .ok (some x)) => if c ≤ x then pop s else moveTo U.pos s
          | (s, .ok none) => moveTo U.pos s
        | 4 =>
          match openScanTree s g p T u with
          | (s, .error e) => s.raise p e
          | (s, .ok (_, e, m)) => moveTo (U.ref.getD 0 * e * m + c * m) s
        | _ => moveTo c s
  else .next s

/-! ### Merge units (R176 to R179) -/

/-- The head of a side: its kind, coordinate or stop level, and reference; none when the side's two streams are out of step. -/
def sideHead (T : Tile) (n : Nat) : Option (Nat × Nat × Nat) :=
  match T.token (24 + 2 * n), T.token (25 + 2 * n) with
  | some (k, x), some (k', y) =>
    if (k ≤ 2 && k' ≤ 2 && (T.inHead (24 + 2 * n)).map Beat.count == (T.inHead (25 + 2 * n)).map Beat.count) then some (0, x, y)
    else if k == k' && (4 ≤ k || (k == 3 && x == y)) then some (k, x, y)
    else none
  | _, _ => none

/-- Both streams of a side give up their head; the side counts its stops and its streams (R179). -/
def popSide (s : State) (t n k : Nat) : State :=
  let s := (s.take t (24 + 2 * n) 0).take t (25 + 2 * n) 1
  s.onTile t fun T => T.onUnit 3 fun U =>
    if k = 3 then (if n = 0 then { U with fibre := U.fibre + 1 } else { U with fibre1 := U.fibre1 + 1 })
    else if 4 ≤ k then
      (if n = 0 then { U with fibre := 0, stream := (U.stream + 1) % 2 ^ 32 } else { U with fibre1 := 0, stream1 := (U.stream1 + 1) % 2 ^ 32 })
    else U

/-- A coordinate with its references on the three outputs. -/
def mergeEmit (T : Tile) (ctx now c x y : Nat) : Tile :=
  let T := T.releaseStop ctx 3
  let T := ((T.sendToken ctx now 3 24 0 (BitVec.ofNat 32 c)).sendToken ctx now 3 25 1 (BitVec.ofNat 32 x)).sendToken ctx now 3 26 1 (BitVec.ofNat 32 y)
  T.onUnit 3 fun U => { U with pending := true }

/-- A stop of a merge unit. -/
def mergeStop (T : Tile) (ctx k : Nat) : Tile :=
  (T.passStop ctx 3 k (bit (T.unitWord 3 0) 49) (!(T.unit 3).pending)).onUnit 3 fun U => { U with pending := false }

/-- A SKIP to side n, when R179 allows one, on discarding that side's head. -/
def mergeSkip (s : State) (g : Region) (t n c : Nat) : State :=
  let T := s.tile t
  let U := T.unit 3
  let free := if n = 0 then U.skip0.isNone else U.skip1.isNone
  let out := 27 + n
  if bit (T.unitWord 3 0) (48 - n) && T.lastLane (24 + 2 * n) && free && (T.outRoute 3 out).any (fun w => w.dsts.all fun c => destRoom s t c ((T.outQ out).beats.length + 1)) then
    let ls := if n = 0 then [c, U.fibre, U.stream] else [c, U.fibre1, U.stream1]
    let b : Beat := ⟨8, 1, 0, 0, g.ctx, 0, ofLanes (ls.map (BitVec.ofNat 32))⟩
    (s.onTile t fun T => (T.pushOut out [b]).onUnit 3 fun U =>
      if n = 0 then { U with skip0 := some c } else { U with skip1 := some c }).count g.die .skipSent
  else s

/-- A SKIP is no longer outstanding once its side delivers a coordinate at or above it, or a control token (R179). -/
def settleSkip (o : Option Nat) (k c : Nat) : Option Nat := match o with | some b => if 3 ≤ k || b ≤ c then none else some b | none => none

/-- One step of a merge unit: intersection or union (R177, R178, R192). A side whose head is SW waits (R27). -/
def mergeStep (s : State) (g : Region) (t : Nat) (union : Bool) : State :=
  match sideHead (s.tile t) 0, sideHead (s.tile t) 1 with
  | some (ka, a, ra), some (kb, b, rb) =>
    let s := s.onTile t fun T => T.onUnit 3 fun U => { U with skip0 := settleSkip U.skip0 ka a, skip1 := settleSkip U.skip1 kb b }
    let emit := fun (s : State) (c x y : Nat) => s.onTile t fun T => mergeEmit T g.ctx s.time c x y
    let stop := fun (s : State) (k : Nat) => s.onTile t fun T => mergeStop T g.ctx k
    let absent := 0xFFFFFFFF
    if 6 ≤ ka || 6 ≤ kb then s
    else if ka ≤ 2 && kb ≤ 2 then
      if a = b then popSide (popSide (emit s a ra rb) t 0 0) t 1 0
      else
        let n := if a < b then 0 else 1
        let s := if union then (if n = 0 then emit s a ra absent else emit s b absent rb) else mergeSkip s g t n (max a b)
        popSide s t n 0
    else if ka = 3 && kb = 3 then
      let s := if a = b then s else s.count g.die .stopMismatch
      popSide (popSide (stop s (max a b)) t 0 3) t 1 3
    else if ka ≤ 2 then popSide (if union then emit s a ra absent else s) t 0 0
    else if kb ≤ 2 then popSide (if union then emit s b absent rb else s) t 1 0
    else if ka = 3 || kb = 3 then
      let n := if ka = 3 then 0 else 1
      let s := s.count g.die .stopMismatch
      popSide (if union then stop s (if n = 0 then a else b) else s) t n 3
    else if ka = kb then (s.takeAll t [24, 25, 26, 27]).endUnit t 3 g.ctx ka (if ka = 5 then a else 0)
    else let n := if ka = 4 then 0 else 1; popSide s t n 4
  | _, _ => s

/-- MRG_I (R177). -/
def execMrgI (t : Nat) (s : State) : Host.Outcome State Fault Refusal :=
  unitStep s t 3 fun _ g s => if (s.tile t).unitFn 3 = 0 then mergeStep s g t false else s

/-- MRG_U (R178). -/
def execMrgU (t : Nat) (s : State) : Host.Outcome State Fault Refusal :=
  unitStep s t 3 fun _ g s => if (s.tile t).unitFn 3 = 1 then mergeStep s g t true else s

/-! ### The repeater (R180) -/

/-- RPT_CRD: the held reference, taken from ref_in when none is held, goes out for a driving coordinate. -/
def execRptCrd (t : Nat) (s : State) : Host.Outcome State Fault Refusal :=
  unitStep s t 4 fun _ g s =>
    let T := s.tile t
    match T.token 32 with
    | some (k, _) =>
      if k ≤ 2 then
        let held : Option (Nat × Bool) := match (T.unit 4).ref with
          | some x => some (x, false)
          | none => match T.token 33 with | some (k', x) => if k' ≤ 2 then some (x, true) else none | none => none
        match held with
        | none => s
        | some (x, fromIn) =>
          let s := if fromIn then s.take t 33 1 else s
          let last := T.lastLane 32
          let s := s.onTile t fun T =>
            let T := (T.sendToken g.ctx s.time 4 32 1 (BitVec.ofNat 32 x)).onUnit 4 fun U => { U with ref := some x, ended := false }
            if last then T.flushOut g.ctx 32 else T
          s.take t 32 0
      else s
    | none => s

/-- RPT_STOP: the held reference is released, or the REF of an empty fibre consumed; then the stop one level lower is
consumed at ref_in and the stop goes out. -/
def execRptStop (t : Nat) (s : State) : Host.Outcome State Fault Refusal :=
  unitStep s t 4 fun _ g s =>
    let T := s.tile t
    let U := T.unit 4
    match T.token 32 with
    | some (3, k) =>
      if !U.pending then
        let mark := fun (s : State) => s.onTile t fun T => T.onUnit 4 fun U => { U with ref := none, pending := true, ended := false }
        if U.ref.isSome then mark s
        else match T.token 33 with
          | some (k', _) => if k' ≤ 2 then mark (s.take t 33 1) else s
          | none => s
      else
        let out := fun (s : State) => s.onTile t fun T => ((T.sendStop g.ctx 4 k).takeToken 32).onUnit 4 fun U => { U with pending := false }
        if k = 0 then out s
        else match T.token 33 with
          | some (3, j) => if j + 1 = k then out (s.onTile t fun T => T.takeToken 33) else s
          | _ => s
    | _ => s

/-- The end of the driving stream: ref_in is consumed up to its own end, counting each REF (R180, R192). -/
def rptEnd (s : State) (g : Region) (t : Nat) : State :=
  let T := s.tile t
  match T.token 32, T.token 33 with
  | some (k, x), some (k', _) =>
    if k != 4 && k != 5 then s
    else if k = k' then (s.takeAll t [32, 33]).endUnit t 4 g.ctx k (if k = 5 then x else 0)
    else if k = 4 && 5 ≤ k' then s
    else if k' ≤ 2 then (s.take t 33 1).count g.die .repeaterDiscard
    else if k' ≤ 4 then s.onTile t fun T => T.takeToken 33
    else s
  | _, _ => s

/-- RPT_DONE (R180). -/
def execRptDone (t : Nat) (s : State) : Host.Outcome State Fault Refusal := unitStep s t 4 fun _ g s => rptEnd s g t

/-! ### The reducer (R181, R182) -/

/-- The fold of one value: the first is taken as it stands; count counts. -/
def reduceOne (T : Tile) (acc : Option Lane) (x : Lane) : Lane :=
  let w := T.unitWord 5 0
  let op := bits w 46 4
  match acc with
  | none => if op = 6 then 1 else x
  | some a =>
    if op = 6 then a + 1
    else
      let ty := bits w 41 5
      BitVec.ofNat 32 (foldOp ty op (bits w 38 3) (ty != 10 && bit w 37) a.toNat x.toNat)

/-- RDC_VAL: the valid lanes of a beat are folded in lane order. -/
def execRdcVal (t : Nat) (s : State) : Host.Outcome State Fault Refusal :=
  unitStep s t 5 fun _ g s =>
    let T := s.tile t
    match T.inHead 40 with
    | some b =>
      if b.kind ≤ 2 then
        let ls := ((lanesOf b.data).take b.count).drop (T.inQ 40).used
        let s := s.onTile t fun T => (T.popIn 40).onUnit 5 fun U => { U with acc := ls.foldl (fun a x => some (reduceOne T a x)) U.acc, ended := false }
        if b.kind = 2 then s else s.count g.die .kindMismatch
      else s
    | none => s

/-- RDC_STOP: the fibre's value, or the identity of an empty fibre with ez, then the stop one level lower. -/
def execRdcStop (t : Nat) (s : State) : Host.Outcome State Fault Refusal :=
  unitStep s t 5 fun _ g s =>
    match (s.tile t).token 40 with
    | some (3, k) => s.onTile t fun T =>
      let w := T.unitWord 5 0
      let v := match (T.unit 5).acc with
        | some a => some a
        | none => if bit w 36 then some (BitVec.ofNat 32 (foldUnit (bits w 41 5) (bits w 46 4))) else none
      let T := match v with | some a => T.sendToken g.ctx s.time 5 40 2 a | none => T
      let T := if k = 0 then T else T.sendStop g.ctx 5 (k - 1)
      (T.takeToken 40).onUnit 5 fun U => { U with acc := none, ended := false }
    | _ => s

/-- The end of a reducer's stream: the value of an open fibre, then the token (R182, R192). -/
def rdcEnd (s : State) (g : Region) (t : Nat) : State :=
  match (s.tile t).token 40 with
  | some (k, x) => if k = 4 || k = 5 then (s.takeAll t [40]).endUnit t 5 g.ctx k (if k = 5 then x else 0) else s
  | none => s

/-- RDC_DONE (R182). -/
def execRdcDone (t : Nat) (s : State) : Host.Outcome State Fault Refusal := unitStep s t 5 fun _ g s => rdcEnd s g t

end Sys2Proof.Machine
end

