-- ==== Sys2Proof/Machine/Writers.lean ====
section
/-! DEFINITION. Level writers (R183 to R185, R202), address-generator ports and the indirect-stream engine (R186 to R190), and
transform nodes (R191). -/

namespace Sys2Proof.Machine

/-! ### Level writers -/

/-- The main word's fields (R183 Table 8). -/
structure LwrWord where
  fn   : Nat
  pg   : Nat
  drop : Bool
  vw   : Bool
  nz   : Bool
  zf   : Bool
  vty  : Nat
  n    : Nat
  deriving DecidableEq, Repr

def lwrWord (T : Tile) : LwrWord :=
  let w := T.unitWord 6 0
  ⟨T.unitFn 6, T.unitPg 6, bit w 47, bit w 46, bit w 44, bit w 43, bits w 38 5, bits w 0 32⟩

/-- Bytes of a value. -/
def LwrWord.bytes (w : LwrWord) : Nat := Spec.tyWidth w.vty / 8
/-- A value that nz removes (R183). -/
def LwrWord.zero (w : LwrWord) (v : Nat) : Bool := v % 2 ^ (if 8 ≤ w.vty then 8 * w.bytes - 1 else 8 * w.bytes) == 0

/-- The heads of the writer's inputs in lockstep: kind, coordinate or level, and value (R183). Lockstep is lane by lane: beats of
different counts pair up and do not stall the writer (log entry 55). -/
def lwrHead (T : Tile) (w : LwrWord) : Option (Nat × Nat × Nat) :=
  match T.token 48 with
  | none => none
  | some (k, c) =>
    if w.vw then
      match T.token 49 with
      | some (k', v) => if (k ≤ 2 && k' ≤ 2) || (k == k' && (k != 3 || c == v)) then some (k, c, v) else none
      | none => none
    else some (k, c, 0)

/-- The store that begins a stream of LWR.C: seg[0] ← 0 (R184). -/
def segStart (T : Tile) (w : LwrWord) : List (Nat × List Byte) :=
  if w.fn = 1 && !(T.unit 6).started then [(T.ext 6 0, bytesOf 4 0)] else []

/-- The heads of crd_in and val_in are taken. -/
def lwrTake (s : State) (t : Nat) (w : LwrWord) : State := let s := s.take t 48 0; if w.vw then s.take t 49 2 else s

/-- A coordinate that has been written, or removed: it goes to crd_out, whose beats follow the input beats (R161, R185). -/
def lwrPass (s : State) (g : Region) (t : Nat) (w : LwrWord) (c : Nat) (keep : Bool) : State :=
  let last := (s.tile t).lastLane 48
  let s := s.onTile t fun T =>
    let T := if keep then ((T.releaseStop g.ctx 6).sendToken g.ctx s.time 6 48 0 (BitVec.ofNat 32 c)).onUnit 6 fun U => { U with pending := true } else T
    let T := if last then T.flushOut g.ctx 48 else T
    T.onUnit 6 fun U => { U with started := true, ended := false }
  lwrTake s t w

/-- LWR_ENTRY (R184): one coordinate and its value. In LWR.B the previous coordinate is the last that was not discarded, one that nz has
removed among them (log entry 55). -/
def execLwrEntry (t : Nat) (s : State) : Host.Outcome State Fault Refusal :=
  unitStep s t 6 fun r g s =>
    let T := s.tile t
    let U := T.unit 6
    let w := lwrWord T
    let p := unitSite t 6
    match lwrHead T w with
    | none => s
    | some (k, c, v) =>
      if 3 ≤ k || w.fn = 3 then s
      else
        let val (a i : Nat) : Nat × List Byte := (a + w.bytes * i, bytesOf w.bytes v)
        match w.fn with
        | 0 =>
          if w.n ≤ c then (lwrPass s g t w c false).count g.die .writerDiscard
          else s.taskStores r p .streamWrite (some w.pg) [val (T.ext 6 0) (U.fibre * w.n + c)] fun s =>
            lwrPass (s.onTile t fun T => T.onUnit 6 fun U => { U with entries := U.entries ++ [(c, 0)] }) g t w c true
        | 1 =>
          if w.nz && w.zero v then s.taskStores r p .streamWrite (some w.pg) (segStart T w) fun s => lwrPass s g t w c false
          else s.taskStores r p .streamWrite (some w.pg)
            (segStart T w ++ [(T.ext 6 1 + 4 * U.pos, bytesOf 4 c)] ++ if w.vw then [val (T.ext 6 2) U.pos] else []) fun s =>
            lwrPass (s.onTile t fun T => T.onUnit 6 fun U => { U with pos := U.pos + 1 }) g t w c true
        | _ =>
          if w.n ≤ c || c < U.floor then (lwrPass s g t w c false).count g.die .writerDiscard
          else
            let keep := !(w.nz && w.zero v)
            let s := s.onTile t fun T => T.onUnit 6 fun U => { U with
              floor := c + 1
              entries := if keep then U.entries ++ [(c, BitVec.ofNat 32 v)] else U.entries }
            lwrPass s g t w c keep

/-- The stores of a bitmap fibre (R172, R184): its words, its tiles' records, and its values. -/
def bitmapStores (T : Tile) (w : LwrWord) : List (Nat × List Byte) :=
  let U := T.unit 6
  let W := bitmapWords w.n
  let wordAt := fun (j : Nat) => packNat 1 ((List.range 64).map fun b => if U.entries.any fun e => e.1 == 64 * j + b then 1 else 0)
  let words := (List.range W).map wordAt
  let upTo := fun (j : Nat) => (U.entries.filter fun e => e.1 < 64 * j).length
  let recs := (List.range (bitmapTiles w.n)).map fun b =>
    let here := fun (j : Nat) => upTo (min (64 * b + j) W) - upTo (64 * b)
    (T.ext 6 1 + 136 * (U.fibre * bitmapTiles w.n + b),
      bytesOf 4 (here 64) ++ bytesOf 4 (U.pos + upTo (64 * b)) ++ (List.range 64).flatMap fun j => bytesOf 2 (here j))
  [(T.ext 6 0 + 8 * (U.fibre * W), words.flatMap (bytesOf 8))] ++ recs
    ++ (if w.vw then (List.range U.entries.length).map fun i => (T.ext 6 2 + w.bytes * (U.pos + i), bytesOf w.bytes (U.entries.getD i (0, 0)).2.toNat)
        else [])

/-- The zero-fill of a dense fibre, ascending (R184). -/
def zeroFill (T : Tile) (w : LwrWord) : List (Nat × List Byte) :=
  if w.zf then ((List.range w.n).filter fun i => !((T.unit 6).entries.any fun e => e.1 == i)).map fun i =>
    (T.ext 6 0 + w.bytes * ((T.unit 6).fibre * w.n + i), bytesOf w.bytes 0)
  else []

/-- A fibre closes: its stores, then the stop on crd_out (R184, R185). -/
def lwrClose (s : State) (r : Nat) (g : Region) (t : Nat) (w : LwrWord) (k : Nat) : State :=
  let T := s.tile t
  let U := T.unit 6
  let lone := !U.pending
  let counted := w.fn = 0 || w.fn = 2 || (w.fn = 1 && !(w.drop && lone))
  let runs := match w.fn with
    | 0 => zeroFill T w
    | 1 => segStart T w ++ if counted then [(T.ext 6 0 + 4 * (U.fibre + 1), bytesOf 4 U.pos)] else []
    | 2 => bitmapStores T w
    | _ => []
  s.taskStores r (unitSite t 6) .streamWrite (some w.pg) runs fun s =>
    let s := s.onTile t fun T =>
      ((T.flushOut g.ctx 48).passStop g.ctx 6 k w.drop lone).onUnit 6 fun U => { U with
        fibre := if counted then U.fibre + 1 else U.fibre
        pos := if w.fn = 2 then U.pos + U.entries.length else U.pos
        entries := []
        floor := 0
        pending := false
        started := true
        ended := false
        checked := false }
    lwrTake s t w

/-- LWR_STOP (R184, R185, R202): LWR.T first releases the fibre's REF, or consumes that of an empty fibre, and consumes the
stop one level lower at pre_in. `checked` says that the REF has been released. -/
def execLwrStop (t : Nat) (s : State) : Host.Outcome State Fault Refusal :=
  unitStep s t 6 fun r g s =>
    let T := s.tile t
    let U := T.unit 6
    let w := lwrWord T
    match lwrHead T w with
    | some (3, k, _) =>
      if w.fn != 3 then lwrClose s r g t w k
      else if !U.checked then
        let mark := fun (s : State) => s.onTile t fun T => T.onUnit 6 fun U => { U with ref := none, checked := true }
        if U.ref.isSome then mark s
        else match T.token 50 with
          | some (k', _) => if k' ≤ 2 then mark (s.take t 50 1) else s
          | none => s
      else if k = 0 then lwrClose s r g t w k
      else match T.token 50 with
        | some (3, j) => if j + 1 = k then lwrClose (s.onTile t fun T => T.takeToken 50) r g t w k else s
        | _ => s
    | _ => s

/-- The end of a writer's stream (R184, R192): a stream that has not begun yet still writes seg[0]. LWR.T waits until the same end
token heads pre_in, and consumes none of the REFs that are left before it (log entry 55). -/
def lwrEnd (s : State) (r : Nat) (g : Region) (t : Nat) : State :=
  let T := s.tile t
  let w := lwrWord T
  match lwrHead T w with
  | some (k, x, _) =>
    if k != 4 && k != 5 then s
    else if w.fn = 3 && (T.token 50).map Prod.fst != some k then s
    else
      let ins := [48] ++ (if w.vw then [49] else []) ++ if w.fn = 3 then [50] else []
      let runs := if k = 5 && (T.unit 6).ended then [] else segStart T w
      s.taskStores r (unitSite t 6) .streamWrite (some w.pg) runs fun s =>
        (s.takeAll t ins).endUnit t 6 g.ctx k (if k = 5 then x else 0)
  | none => s

/-- LWR_DONE (R184). -/
def execLwrDone (t : Nat) (s : State) : Host.Outcome State Fault Refusal := unitStep s t 6 fun r g s => lwrEnd s r g t

/-- LWR_T_STORE (R202): the key from the REF of the fibre and the coordinate, and a speculative tree store. -/
def execLwrTStore (t : Nat) (s : State) : Host.Outcome State Fault Refusal :=
  unitStep s t 6 fun r g s =>
    let T := s.tile t
    let w := lwrWord T
    let p := unitSite t 6
    match lwrHead T w with
    | none => s
    | some (k, c, v) =>
      if 3 ≤ k || w.fn != 3 then s
      else
        let pre : Option (Nat × State) := match (T.unit 6).ref with
          | some x => some (x, s)
          | none => match T.token 50 with
            | some (k', x) => if k' ≤ 2 then some (x, (s.take t 50 1).onTile t fun T => T.onUnit 6 fun U => { U with ref := some x }) else none
            | none => none
        match pre with
        | none => s
        | some (x, s) =>
          let va := T.ext 6 0
          match s.openAt p g.ctx va true with
          | (s, .error e) => s.raise p e
          | (s, .ok d) =>
            let key := x * (s.extents d).getLastD 1 + c
            if s.keyEnd d ≤ key then s.raise p (.prot va 3)
            else if s.brokenAt d key then s.raise p (.decmp va)
            else s.holdKeys r p va d [(key, BitVec.ofNat 64 v)] fun s => lwrPass s g t w c true

/-! ### Address-generator ports (R186 to R190) -/

/-- An AG word's fields (Table 9) with its counts and strides. -/
structure AgWord where
  fn      : Nat
  pg      : Nat
  mode    : Nat
  bytes   : Nat
  sx      : Bool
  st      : Bool
  nlv     : Nat
  kind    : Nat
  zabs    : Bool
  base    : Nat
  counts  : List Nat
  strides : List Int
  deriving DecidableEq, Repr

def agWord (T : Tile) (p : Nat) : AgWord :=
  let w := T.unitWord (7 + p) 0
  let c := T.unitWord (7 + p) 2
  let s := T.unitWord (7 + p) 3
  let kind := match bits w 38 2 with | 0 => 2 | 1 => 0 | _ => 1
  ⟨bits w 50 6, bits w 48 2, bits w 46 2, 2 ^ bits w 44 2, bit w 43, bit w 42, bits w 40 2, kind, bit w 37, T.ext (7 + p) 0,
    (List.range 4).map fun j => bits c (14 * j) 14 + 1, [sext (bits w 0 16) 16, sext (bits s 0 18) 18, sext (bits s 18 18) 18, sext (bits s 36 18) 18]⟩

namespace AgWord

def total (w : AgWord) : Nat := w.counts.foldl (· * ·) 1
/-- The loop indices of element i of a pass, innermost first. -/
def indices (w : AgWord) (i : Nat) : List Nat := (List.range 4).map fun j => i / (w.counts.take j).foldl (· * ·) 1 % w.counts.getD j 1
/-- The address of element i of the pass of reference r (R187). -/
def addr (w : AgWord) (r i : Nat) : Nat :=
  let off := (List.range 4).foldl (fun a j => a + w.strides.getD j 0 * ((w.indices i).getD j 0 : Nat)) ((r * w.total : Nat) : Int)
  wrap ((w.base : Int) + w.bytes * off) 56
/-- The highest loop level that ends with element i, if any (R15, R187). -/
def closes (w : AgWord) (i : Nat) : Option Nat :=
  (List.range (w.nlv + 1)).foldl (fun (a : Option Nat × Bool) j =>
    let ends := a.2 && (w.indices i).getD j 0 + 1 == w.counts.getD j 1
    (if ends then some j else a.1, ends)) (none, true) |>.1
/-- The lane of an element read (R186). -/
def lane (w : AgWord) (v : Nat) : Lane := BitVec.ofNat 32 (extend v (8 * w.bytes) w.sx).toNat

end AgWord

/-- The control tokens of a port that passes over its REFs (R174, R187, R189): an input stop leaves `up` levels higher. -/
def agControl (s : State) (g : Region) (t p k x : Nat) (st : Bool) (up : Nat) : State :=
  let u := 7 + p
  let i := 56 + 2 * p
  if k = 3 then
    let s := s.onTile t fun T =>
      let T := if st then T.sendStop g.ctx u (min (x + up) 14) else T
      (T.takeToken i).onUnit u fun U => { U with pending := false, ended := false }
    if st && 14 < x + up then s.count g.die .depthOverflow else s
  else if k = 4 || k = 5 then (s.takeAll t [i]).endUnit t u g.ctx k (if k = 5 then x else 0)
  else s

/-- A pass opens behind a pending stop. -/
def agOpen (s : State) (g : Region) (t p ref : Nat) (stop : Nat) (take : Bool) : State :=
  let u := 7 + p
  let s := s.onTile t fun T =>
    let T := if (T.unit u).pending then T.sendStop g.ctx u stop else T
    T.onUnit u fun U => { U with
      ref := some ref
      pos := 0
      pending := false
      ended := false
      fibre := U.fibre + 1 }
  if take then s.take t (56 + 2 * p) 1 else s

/-- The last element of a pass has gone: a free pass closes and ends the stream, a pass by REF leaves its stop pending. -/
def agClose (s : State) (g : Region) (t p : Nat) (free st : Bool) : State :=
  let u := 7 + p
  let s := s.onTile t fun T => T.onUnit u fun U => { U with ref := none, pending := st }
  if free then s.endUnit t u g.ctx 4 0 else s

/-- AG_AFF (R187): one element of an affine pass, one beat of values by reference, or a control token. -/
def execAgAff (t p : Nat) (s : State) : Host.Outcome State Fault Refusal :=
  let u := 7 + p
  unitStep s t u fun r g s =>
    let T := s.tile t
    let U := T.unit u
    let w := agWord T p
    let site := unitSite t u
    let i := 56 + 2 * p
    if w.fn != 0 || 3 < p then s
    else if w.mode = 2 then
      match T.inHead i with
      | none => s
      | some b =>
        if b.kind ≤ 2 then
          let refs := (lanesOf b.data).take b.count
          let res := refs.foldl (fun (x : State × Except Flt (List Lane)) (rf : Lane) =>
            match x with
            | (s, .error e) => (s, .error e)
            | (s, .ok vs) =>
              if rf = 0xFFFFFFFF && w.zabs then (s, .ok (vs ++ [0]))
              else match s.unitRead r site w.pg (w.base + w.bytes * rf.toNat) w.bytes with
                | (s, .ok v) => (s, .ok (vs ++ [w.lane v]))
                | (s, .error e) => (s, .error e)) (s, .ok [])
          match res with
          | (s, .error e) => s.raise site e
          | (s, .ok vs) =>
            let s := s.onTile t fun T => (T.sendBeat g.ctx u (56 + p) (.tokens w.kind g.ctx vs)).popIn i
            if b.kind = 1 then s else s.count g.die .kindMismatch
        else match T.token i with
          | some (k, x) => if k = 3 then s.onTile t fun T => (T.sendStop g.ctx u x).takeToken i else agControl s g t p k x false 0
          | none => s
    else match U.ref with
      | some rf =>
        if w.mode = 0 && !T.rootRuns u g then s
        else s.reading r site w.pg (w.addr rf U.pos) w.bytes fun v s =>
          let last := U.pos + 1 = w.total
          let s := s.onTile t fun T =>
            let T := (T.sendToken g.ctx s.time u (56 + p) w.kind (w.lane v)).onUnit u fun U => { U with pos := U.pos + 1 }
            match w.closes U.pos with
            | some j => if w.st && !last then T.sendStop g.ctx u j else T
            | none => T
          if last then agClose s g t p (w.mode = 0) w.st else s
      | none =>
        if w.mode = 0 then (if T.rootRuns u g && U.fibre = 0 then agOpen s g t p 0 0 false else s)
        else match T.token i with
          | some (k, x) => if k ≤ 2 then agOpen s g t p x w.nlv true else agControl s g t p k x w.st (w.nlv + 1)
          | none => s

/-- AG_WR (R190): a value written at the next element of the affine pass, or by reference. -/
def execAgWr (t p : Nat) (s : State) : Host.Outcome State Fault Refusal :=
  let u := 7 + p
  unitStep s t u fun r g s =>
    let T := s.tile t
    let U := T.unit u
    let w := agWord T p
    let site := unitSite t u
    let rc := 56 + 2 * p
    let vc := 57 + 2 * p
    let store (va v : Nat) (k : State → State) : State := s.taskStores r site .streamWrite (some w.pg) [(va % 2 ^ 56, bytesOf w.bytes v)] k
    if w.fn != 2 || 3 < p then s
    else if w.mode = 0 then
      match T.token vc with
      | none => s
      | some (k, x) =>
        let next := fun (s : State) => (s.take t vc 2).onTile t fun T => T.onUnit u fun U => { U with mark := U.mark + 1, ended := false }
        if k ≤ 2 then (if U.mark < w.total then store (w.addr 0 U.mark) x next else (next s).count g.die .agDiscard)
        else if k = 4 || k = 5 then (s.takeAll t [vc]).endUnit t u g.ctx k (if k = 5 then x else 0)
        else if k = 3 then s.onTile t fun T => T.takeToken vc
        else s
    else match T.token rc, T.token vc with
      | some (k, x), some (k', v) =>
        let both := fun (s : State) => (s.take t rc 1).take t vc 2
        if k ≤ 2 && k' ≤ 2 then (if x = 0xFFFFFFFF then both s else store (w.base + w.bytes * x) v both)
        else if k = k' && (k = 4 || k = 5) then (s.takeAll t [rc, vc]).endUnit t u g.ctx k (if k = 5 then x else 0)
        else if k = 3 && k' = 3 && x = v then both s
        else s
      | _, _ => s

/-! #### The indirect-stream engine (R188, R189) -/

/-- The ISE parameter block (Table 10). -/
structure IseBlock where
  sx    : Bool
  st    : Bool
  zabs  : Bool
  bytes : Nat
  vpg   : Nat
  ipg   : Nat
  icnt  : Nat
  rbase : Nat
  vbase : Nat
  ibase : Nat
  deriving DecidableEq, Repr

def iseBlock (ws : List Word) : IseBlock :=
  let b := bits (packNat 64 (ws.map BitVec.toNat))
  ⟨b 232 1 == 1, b 231 1 == 1, b 230 1 == 1, 2 ^ b 228 2, b 226 2, b 224 2, b 192 32, b 128 64, b 64 64, b 0 64⟩

/-- The block passes its checks: reserved bits, codes, a count, alignment, and three virtual addresses. -/
def iseOk (ws : List Word) : Bool :=
  let v := packNat 64 (ws.map BitVec.toNat)
  bits v 233 279 == 0 && bits v 228 2 != 3 && bits v 192 32 != 0 && bits v 0 2 == 0
    && [0, 64, 128].all fun i => bits v (i + 56) 8 == 0

/-- ISE_PARAM_READ (R189): once in a configuration period, when the port starts. -/
def execIseParamRead (t p : Nat) (s : State) : Host.Outcome State Fault Refusal :=
  let u := 7 + p
  unitStep s t u fun r g s =>
    let T := s.tile t
    let U := T.unit u
    let w := agWord T p
    let site : Site := ⟨t, 10, p, 0⟩
    let starts := if w.mode = 0 then T.rootRuns u g else (T.token (56 + 2 * p)).isSome
    if w.fn != 1 || 3 < p || U.checked || !starts then s
    else match s.page site (s.iseOf site g.ctx) g.ctx w.base .streamRead with
      | (s, .error e) => s.raise site e
      | (s, .ok q) =>
        if q.cls != 0 then s.raise site (.prot w.base 0)
        else match s.taskRun r site .streamRead w.base 64 with
          | (s, .error e) => s.raise site e
          | (s, .ok bs) =>
            let ws := wordsOf bs 8
            if iseOk ws then s.onTile t fun T => T.onUnit u fun U => { U with block := ws, checked := true }
            else s.raise site (.prot w.base 6)

/-- AG_IND (R188, R189): a pass is handed to the ISE, or a control token passes. -/
def execAgInd (t p : Nat) (s : State) : Host.Outcome State Fault Refusal :=
  let u := 7 + p
  unitStep s t u fun _ g s =>
    let T := s.tile t
    let U := T.unit u
    let w := agWord T p
    if w.fn != 1 || 3 < p || !U.checked || U.ref.isSome then s
    else if w.mode = 0 then (if T.rootRuns u g && U.fibre = 0 then agOpen s g t p 0 0 false else s)
    else match T.token (56 + 2 * p) with
      | some (k, x) => if k ≤ 2 then agOpen s g t p x 0 true else agControl s g t p k x (iseBlock U.block).st 1
      | none => s

/-! #### The return queues of the ISEs (R30, R189) -/

/-- The values returned to an AG port that its fabric has not consumed. -/
def State.returned (s : State) (t p : Nat) : List IseReturn := s.iseq.filter fun e => e.t == t && e.port == p

/-- The return queue of an ISE has room for a channel. -/
def State.iseRoom (s : State) (h c : Nat) : Bool := State.shares (fun c => (s.iseq.filter fun e => e.stack == h && e.ctx == c).length) c

/-- The ISE of a port has an index of its pass to fetch: one that is left, at most 256 ahead of what the fabric has consumed, with
room in the return queue. -/
def State.iseRuns (s : State) (t p c : Nat) : Bool :=
  let U := (s.tile t).unit (7 + p)
  U.ref.isSome && decide (U.pos < (iseBlock U.block).icnt) && decide ((s.returned t p).length < 256)
    && (s.iseOf ⟨t, 10, p, 0⟩ c).all fun h => s.iseRoom h c

/-- The ISE reads the value of the next index of a pass into its return queue; a malformed block is taken from the replica. Where both
are malformed the record carries the address in the replica, and the replica is checked against the page size of the values (log
entry 55). -/
def State.iseFetch (s : State) (r c t p : Nat) : State :=
  let u := 7 + p
  let U := (s.tile t).unit u
  let b := iseBlock U.block
  let site : Site := ⟨t, 10, p, 0⟩
  let h := (s.iseOf site c).getD 0
  let keep := fun (v : Nat) (s : State) =>
    let s := s.onTile t fun T => T.onUnit u fun U => { U with pos := U.pos + 1 }
    { s with iseq := s.iseq ++ [⟨h, t, p, c, BitVec.ofNat 32 (extend v (8 * b.bytes) b.sx).toNat, decide (U.pos + 1 = b.icnt)⟩] }
  s.reading r site b.ipg (b.ibase + 4 * (U.ref.getD 0 * b.icnt + U.pos)) 4 fun idx s =>
    if idx = 0xFFFFFFFF && b.zabs then keep 0 s
    else match s.unitRead r site b.vpg (b.vbase + b.bytes * idx) b.bytes with
      | (s, .ok v) => keep v s
      | (s, .error e) =>
        if e.code = 0x0F && b.rbase != 0 then s.reading r site b.vpg (b.rbase + b.bytes * idx) b.bytes keep else s.raise site e

/-- The oldest value returned to a port enters the fabric; the last one of a pass closes it. -/
def State.iseGive (s : State) (g : Region) (t p : Nat) : State :=
  let u := 7 + p
  match s.returned t p with
  | [] => s
  | e :: _ =>
    let s := s.onTile t fun T => T.sendToken g.ctx s.time u (56 + p) 2 e.value
    let s := { s with iseq := s.iseq.erase e }
    if e.last then agClose s g t p ((agWord (s.tile t) p).mode = 0) (iseBlock ((s.tile t).unit u).block).st else s

/-- ISE_VALUE_RETURN (R30, R189): the oldest value returned to the port enters the fabric when the port's output has room, and the ISE
fetches the next one, in index order. What has been returned to a root that has stopped is discarded (log entry 33). -/
def execIseValueReturn (t p : Nat) (s : State) : Host.Outcome State Fault Refusal :=
  let u := 7 + p
  .next (match s.active t with
  | none => s
  | some (r, g) =>
    let T := s.tile t
    let w := agWord T p
    if !T.configured u || w.fn != 1 || 3 < p then s
    else if w.mode = 0 && !T.rootRuns u g then { s with iseq := s.iseq.filter fun e => !(e.t == t && e.port == p) }
    else
      let s := if T.roomy u then s.iseGive g t p else s
      if s.iseRuns t p g.ctx then s.iseFetch r g.ctx t p else s)

/-! ### Transform nodes (R191) -/

/-- The XF word's function, format, rounding mode, saturation and immediate. -/
def xfWord (T : Tile) : Nat × Nat × Nat × Bool × Nat :=
  let w := word (T.frame 0) 0
  (bits w 46 4, bits w 41 5, bits w 38 3, bit w 37, bits w 0 32)

/-- A step of a transform node of a function, with the beat at its input's head. -/
def xfStep (s : State) (t fn : Nat) (step : Region → Option Beat → State → State) : Host.Outcome State Fault Refusal :=
  unitStep s t 0 fun _ g s => if (s.tile t).isXf && (xfWord (s.tile t)).1 = fn then step g ((s.tile t).inHead 0) s else s

/-- A control token waits at the input. -/
def isControl (b : Option Beat) : Bool := match b with | some b => 3 ≤ b.kind | none => false

/-- A control token passes a transform node that has nothing open. -/
def xfControl (s : State) (g : Region) (t : Nat) (b : Beat) : State :=
  if b.kind = 3 then s.onTile t fun T => ((T.sendStop g.ctx 0 b.stop).popIn 0).onUnit 0 fun U => { U with pos := 0, pending := false }
  else if b.kind = 4 || b.kind = 5 then (s.takeAll t [0]).endUnit t 0 g.ctx b.kind (if b.kind = 5 then b.lane0 else 0)
  else s

/-- XF_TPOSE: a group closes at its 16th beat or at a control token; then one output beat for each lane. -/
def execXfTpose (t : Nat) (s : State) : Host.Outcome State Fault Refusal :=
  xfStep s t 0 fun g h s =>
    let U := (s.tile t).unit 0
    let m := U.group.length
    let top := (U.group.map Prod.fst).foldl max 0
    if m = 16 || (isControl h && m != 0) then
      let i := U.pos
      let ls := U.group.map fun q => if q.1 ≤ i then 0 else lane q.2 i
      s.onTile t fun T => (T.sendBeat g.ctx 0 0 (.tokens U.lim g.ctx ls)).onUnit 0 fun U =>
        if i + 1 < top then { U with pos := i + 1 } else { U with pos := 0, group := [] }
    else match h with
      | none => s
      | some b =>
        if b.kind ≤ 2 then s.onTile t fun T => (T.popIn 0).onUnit 0 fun U => { U with
          group := U.group ++ [(b.count, b.data)]
          lim := if m = 0 then b.kind else U.lim }
        else xfControl s g t b

/-- XF_QUANT: lanes gather into blocks, each packed with PackBlock as one beat; a control token closes a partial block. -/
def execXfQuant (t : Nat) (s : State) : Host.Outcome State Fault Refusal :=
  xfStep s t 1 fun g h s =>
    let U := (s.tile t).unit 0
    let (_, F, rm, _, _) := xfWord (s.tile t)
    let L := blockLen F
    if L ≤ U.lanes.length || (isControl h && !U.lanes.isEmpty) then
      s.onTile t fun T =>
        let xs := (List.range L).map fun i => fp32.value (U.lanes.getD i 0).toNat
        let (gs, ds) := if rm = 5 then srDraws L T.gsr else (T.gsr, [])
        let (codes, side) := packBlock F rm xs ds
        let v : Vec := BitVec.ofNat 512 (packNat (elemBits F) codes + side * 2 ^ 480)
        { (T.sendBeat g.ctx 0 0 (.tokens 2 g.ctx (lanesOf v))).onUnit 0 (fun U => { U with lanes := U.lanes.drop L }) with gsr := gs }
    else match h with
      | none => s
      | some b =>
        if b.kind ≤ 2 then
          let s := s.onTile t fun T => (T.popIn 0).onUnit 0 fun U => { U with lanes := U.lanes ++ (lanesOf b.data).take b.count }
          if b.kind = 2 then s else s.count g.die .kindMismatch
        else xfControl s g t b

/-- XF_SCALE: each VAL lane times the constant; other beats pass, and beats keep their boundaries. -/
def execXfScale (t : Nat) (s : State) : Host.Outcome State Fault Refusal :=
  xfStep s t 2 fun g h s =>
    let (_, _, rm, sat, imm) := xfWord (s.tile t)
    let one (x : Lane) : Lane :=
      let a := fp32.value x.toNat
      let k := fp32.value imm
      BitVec.ofNat 32 (match Val.firstNan [a, k] with | some v => roundVal fp32 rm sat 0 v | none => roundVal fp32 rm sat 0 (a.mul k))
    match h with
    | none => s
    | some b =>
      if b.kind ≤ 2 then s.onTile t fun T =>
        let ls := (lanesOf b.data).take b.count
        (T.sendBeat g.ctx 0 0 (.tokens b.kind g.ctx (if b.kind = 2 then ls.map one else ls))).popIn 0
      else xfControl s g t b

/-- XF_BMAP: a fibre's coordinates become its bitmap words at its stop, eight words to a beat. -/
def execXfBmap (t : Nat) (s : State) : Host.Outcome State Fault Refusal :=
  xfStep s t 3 fun g h s =>
    let U := (s.tile t).unit 0
    let (_, _, _, _, n) := xfWord (s.tile t)
    let W := bitmapWords n
    match h with
    | none => s
    | some b =>
      if b.kind ≤ 2 then
        let cs := ((lanesOf b.data).take b.count).map BitVec.toNat
        let good := cs.filter (· < n)
        let s := s.onTile t fun T => (T.popIn 0).onUnit 0 fun U => { U with entries := U.entries ++ good.map fun c => (c, 0), pending := true }
        let s := (List.range (cs.length - good.length)).foldl (fun s _ => s.count g.die .bmapDiscard) s
        if b.kind = 0 then s else s.count g.die .kindMismatch
      else if U.pos < ceilDiv W 8 && (b.kind = 3 || U.pending) then
        let ws := (List.range (min 8 (W - 8 * U.pos))).map fun j => packNat 1 ((List.range 64).map fun i =>
          if U.entries.any fun e => e.1 == 64 * (8 * U.pos + j) + i then 1 else 0)
        let ls := ws.flatMap fun w => [BitVec.ofNat 32 w, BitVec.ofNat 32 (w / 2 ^ 32)]
        s.onTile t fun T => (T.sendBeat g.ctx 0 0 (.tokens 2 g.ctx ls)).onUnit 0 fun U => { U with pos := U.pos + 1 }
      else
        let shut (T : Tile) : Tile := T.onUnit 0 fun U => if b.kind = 3 then { U with entries := [] } else { U with entries := [], pos := 0, pending := false }
        xfControl (s.onTile t shut) g t b

end Sys2Proof.Machine
end

