-- ==== Sys2Proof/Machine/CeEvents.lean ====
section
/-! DEFINITION. Events of a compute element and of the fabric: results that arrive (R20), beads and tokens that enter (R18, R23,
R146, R147, R423), the beats that switches and links move (R11, R165 to R167), BAR and SW (R26, R41). -/

namespace Sys2Proof.Machine

/-! ### Results -/

/-- LONG_LATENCY_RESULT (R20): the result of operation k has arrived at the element. -/
def execLongLatencyResult (t k : Nat) (s : State) : Host.Outcome State Fault Refusal :=
  .next (match s.active t, (s.tile t).ops.find? fun o => o.num == k with
    | some _, some o =>
      match o.value with
      | some v => s.onTile t fun T => T.writeResult o v
      | none => s
    | _, _ => s)

/-! ### Beads (R17, R18, R22, R23) -/

/-- The bead at the head of an input enters the element. -/
def Tile.acceptBead (T : Tile) (c : Nat) : Tile :=
  match beadAt (T.inQ c) with
  | none => T
  | some (h, vs, n) =>
    let w := h.data.toNat
    let b : Bead := ⟨BitVec.ofNat 16 w, BitVec.ofNat 8 (bits w 48 8), BitVec.ofNat 16 (bits w 32 16), BitVec.ofNat 8 (bits w 24 8),
      vs.map fun v => ⟨v, true⟩, 0, false, T.nbead, T.stampAt c⟩
    { (T.setInQ c ⟨(T.inQ c).beats.drop n, 0⟩).popStamp c with beads := T.beads ++ [b], nbead := T.nbead + 1 }

def hasBead (T : Tile) (c : Nat) : Bool := (beadAt (T.inQ c)).isSome
/-- A STOP or a DONE waits at an input. -/
def hasEnd (T : Tile) (c : Nat) : Bool := match T.inHead c with | some b => b.kind == 3 || b.kind == 4 | none => false

/-- An element at a loop's entry takes a bead from outside the loop only below its limit, and after the recirculating beads that wait at
its join inputs; a ZIP join takes both together, and a SEL join takes the one that its control bead names (R22, R23). -/
def admits (s : State) (g : Region) (t c : Nat) : Bool :=
  let T := s.tile t
  let rivals := if T.join = 1 || T.join = 3 then [] else T.joinInputs.map fun i => (s.inputWay g t i, T.inQ i)
  s.admitted g (T.unit 0).switched (s.inputWays g t) (s.inputWay g t c) rivals

/-- The input an ARB join serves next: recirculating beads first, then round-robin after the input served last (R22, R23). -/
def arbChoice (s : State) (g : Region) (t : Nat) : Option Nat :=
  let T := s.tile t
  let start := (T.unit 0).served
  let js := ((List.range 4).map fun i => (start + i) % 4).filter T.joinInputs.contains
  let js := js.filter fun c => (hasBead T c && admits s g t c) || hasEnd T c
  match js.find? fun c => hasBead T c && State.comesRound (s.inputWays g t) (s.inputWay g t c) with
  | some c => some c
  | none => js.head?

/-- The data input that a SEL join's control bead names (R423); none where it names no data input. -/
def selTarget (T : Tile) : Option Nat :=
  match beadAt (T.inQ T.selin) with
  | some (h, v :: _, _) =>
    let low := ((lanesIn (BitVec.ofNat 16 h.data.toNat)).headD 0)
    let c := (lane v low).toNat % 4
    if c != T.selin && T.joinInputs.contains c then some c else none
  | _ => none

/-- BEADH_ARRIVAL (R18): a bead enters while fewer than 8 are in flight. A ZIP firing at bead inputs takes one from each, in
ascending port order (R22, R146). -/
def execBeadhArrival (t port : Nat) (s : State) : Host.Outcome State Fault Refusal :=
  .next (match s.active t with
    | none => s
    | some (_, g) =>
      let T := s.tile t
      let js := T.joinInputs
      if !T.isCe || 8 ≤ T.beads.length || !js.contains port || T.tokenIn port then s
      else match T.join with
        | 0 => if hasBead T port && admits s g t port then s.onTile t fun T => T.acceptBead port else s
        | 1 =>
          if js.head? == some port && T.beads.length + js.length ≤ 8 && js.all fun c => hasBead T c && admits s g t c then
            s.onTile t fun T => js.foldl Tile.acceptBead T
          else s
        | 2 =>
          if arbChoice s g t == some port && hasBead T port then
            s.onTile t fun T => (T.acceptBead port).onUnit 0 fun U => { U with served := port + 1 }
          else s
        | _ => s)

/-- SEL_JOIN_FIRE (R423): the control bead goes, and the bead it names enters; a bad name is counted once. -/
def execSelJoinFire (t : Nat) (s : State) : Host.Outcome State Fault Refusal :=
  .next (match s.active t with
    | none => s
    | some (_, g) =>
      let T := s.tile t
      if !T.isCe || T.join != 3 || 8 ≤ T.beads.length then s
      else match beadAt (T.inQ T.selin) with
        | none => s
        | some (_, _, n) =>
          match selTarget T with
          | none => if (T.unit 0).checked then s else (s.onTile t fun T => T.onUnit 0 fun U => { U with checked := true }).count g.die .selBad
          | some c =>
            if hasBead T c && admits s g t c then
              s.onTile t fun T => (((T.setInQ T.selin ⟨(T.inQ T.selin).beats.drop n, 0⟩).popStamp T.selin).acceptBead c).onUnit 0
                fun U => { U with checked := false }
            else s)

/-- TOKEN_BEAD_FORM (R146): one data beat of every join input forms a bead, when their counts agree; a loop that is entered here admits it
(R23). -/
def execTokenBeadForm (t : Nat) (s : State) : Host.Outcome State Fault Refusal :=
  .next (match s.active t with
    | none => s
    | some (_, g) =>
      let T := s.tile t
      let js := T.joinInputs
      let hs := js.filterMap T.inHead
      let n := (hs.headD (.control 0 0 0 0)).count
      if !T.isCe || js.isEmpty || 1 < T.join || 8 ≤ T.beads.length || !(js.all T.tokenIn) || hs.length != js.length
          || (hs.any fun b => 2 < b.kind || b.count != n) || !(js.all (admits s g t)) then s
      else s.onTile t fun T =>
        let b : Bead := ⟨maskOf fun i => i < n, 0, T.bseq.getD 4 0, 0, hs.map fun b => ⟨b.data, true⟩, 0, false, T.nbead, T.nstamp⟩
        let T := js.foldl Tile.popIn T
        { T with
          beads := T.beads ++ [b]
          nbead := T.nbead + 1
          nstamp := T.nstamp + 1
          bseq := T.bseq.set 4 (T.bseq.getD 4 0 + 1) })

/-- BEAD_START (R18, R126): the oldest bead starts the node program at its entry. -/
def execBeadStart (t : Nat) (s : State) : Host.Outcome State Fault Refusal :=
  .next (match s.active t with
    | none => s
    | some _ =>
      match (s.tile t).head? with
      | some b => if b.started || !(s.tile t).isCe then s else s.onTile t fun T => T.onHead fun b => { b with started := true, pc := T.entry }
      | none => s)

/-- CE_CONTROL_TOKEN (R147): a STOP or DONE at the join inputs is consumed once, after the results of every earlier firing have
gone and its accesses are performed (R265), and copied to every enabled output. DESIGN CHOICE: under SEL, one at the data input that the
control bead names takes its control bead with it (log entry 68). -/
def execCeControlToken (t : Nat) (s : State) : Host.Outcome State Fault Refusal :=
  .next (match s.active t with
    | none => s
    | some (_, g) =>
      let T := s.tile t
      let js := T.joinInputs
      if !T.isCe || !T.beads.isEmpty || T.unperformed || !(T.outputs.all fun c => T.outRoom c 1) then s
      else
        let fire := fun (b : Beat) (k : Tile → Tile) => s.onTile t fun T =>
          T.outputs.foldl (fun T c => T.pushOut c [.control b.kind b.stop g.ctx 0]) (k T)
        match T.join with
        | 2 => match arbChoice s g t with
          | some c => match T.inHead c with
            | some b => if hasEnd T c then fire b fun T => (T.popIn c).onUnit 0 fun U => { U with served := c + 1 } else s
            | none => s
          | none => s
        | 3 =>
          if hasEnd T T.selin then (match T.inHead T.selin with | some b => fire b fun T => T.popIn T.selin | none => s)
          else match selTarget T, beadAt (T.inQ T.selin) with
            | some c, some (_, _, n) => match T.inHead c with
              | some b => if hasEnd T c then fire b fun T => ((T.popIn c).setInQ T.selin ⟨(T.inQ T.selin).beats.drop n, 0⟩).popStamp T.selin else s
              | none => s
            | _, _ => s
        | _ =>
          match js.filterMap T.inHead with
          | [] => s
          | b :: bs =>
            if bs.length + 1 = js.length && (b.kind == 3 || b.kind == 4) && bs.all fun x => x.kind == b.kind && x.stop == b.stop then
              fire b fun T => js.foldl Tile.popIn T
            else s)

/-! ### BAR and SW (R26, R41, R192) -/

/-- Inputs of a unit at which every head is a control token of a kind; vacuously so for a unit without inputs. -/
def allAt (T : Tile) (u kind : Nat) : Bool := (T.mainInputs u).all fun c => (T.inHead c).map Beat.kind == some kind

/-- What a unit has accepted has been finished (R26): no bead in flight, no access unperformed (R265), no fibre, group or block
open. -/
def settled (T : Tile) (u : Nat) : Bool :=
  let U := T.unit u
  (u != 0 || (T.beads.isEmpty && !T.unperformed))
  && (if u = 0 then U.group.isEmpty && U.lanes.isEmpty && !U.pending else if u = 4 then true else U.ref.isNone || u = 6)
  && (!T.isRoot u || !U.started || U.ended)

/-- BAR_FORWARD (R41, R192, R265): one BAR goes on once it has arrived on every input; a stream unit ends its stream as at DONE. -/
def execBarForward (t u : Nat) (s : State) : Host.Outcome State Fault Refusal :=
  unitStep s t u fun r g s =>
    let T := s.tile t
    if (T.mainInputs u).isEmpty || !allAt T u 5 || T.isXf && u = 0 then s
    else match u with
      | 0 => if T.beads.isEmpty && !T.unperformed then
          let tag := match T.token ((T.mainInputs 0).headD 0) with | some (_, x) => x | none => 0
          (s.takeAll t (T.mainInputs 0)).onTile t fun T => T.outputs.foldl (fun T c => T.pushOut c [.control 5 0 g.ctx tag]) T
        else s
      | 1 | 2 => scanEnd s g t u
      | 3 => if T.unitFn 3 = 0 then mergeStep s g t false else mergeStep s g t true
      | 4 => rptEnd s g t
      | 5 => rdcEnd s g t
      | 6 => lwrEnd s r g t
      | _ => s

/-- ELEMENT_SWITCH (R26): a unit that has SW on every input and has finished what it accepted goes over to the other bank and puts SW on its
outputs; a compute element takes its place in its array node with it (R51). A unit without inputs switches once a rolling switch is in
progress. -/
def execElementSwitch (t u : Nat) (s : State) : Host.Outcome State Fault Refusal :=
  .next (match s.active t with
    | none => s
    | some (r, g) =>
      let T := s.tile t
      let begun := g.switching || (g.shadow && !(T.mainInputs u).isEmpty)
      if 11 ≤ u || !begun || (T.unit u).switched || !allAt T u 6 || !settled T u || !T.roomy u then s
      else
        let gen := bits g.gen.toNat 0 32
        let s := s.onTile t fun T =>
          let ins := T.mainInputs u
          let T := T.drainUnit g.ctx s.time u
          let T := if u = 0 && !T.isXf then T.outputs.foldl (fun T c => T.pushOut c [.control 6 0 g.ctx gen]) T else T.sendEnd g.ctx u 6 gen
          let T := (ins.foldl Tile.takeToken T).onUnit u UState.switch
          if u = 0 then s.takeArray g t T else T
        s.setRegion r { g with switching := true })

/-! ### Switches (R165 to R167) -/

/-- The physical bank whose words carry a source: the other one once SW has passed it, or where the active bank does not name it
during a switch (R26). -/
def Tile.sourceBank (T : Tile) (c : Nat) (switching : Bool) : Bool :=
  if T.swsrc.contains c then !T.bank
  else if switching && !((T.routesOf T.bank).any fun p => p.2.srcs.contains c) then !T.bank else T.bank

/-- A source carries beads: the word that names it has a slot count (R165). -/
def Tile.beadSource (T : Tile) (c : Nat) (switching : Bool) : Bool :=
  (T.routesOf (T.sourceBank c switching)).any fun p => p.2.srcs.contains c && p.2.slot != 0

/-- The beats that wait at a source: a unit's output, or an incoming link. -/
def sourceQ (T : Tile) (c : Nat) : Queue := if c < 64 then T.outQ c else T.inQ c

/-- Beats sent to a destination. -/
def sendTo (s : State) (t c : Nat) (bs : List Beat) : State :=
  if c < 64 then s.onTile t fun T => T.pushIn c bs
  else match neighbour t c with
    | some t' => s.onTile t' fun T => T.setWireQ (linkTwin c) ⟨(T.wireQ (linkTwin c)).beats ++ bs, 0⟩
    | none => s

/-- n beats leave a source; a SW among them takes the source over to the other bank. -/
def leaveSource (s : State) (t c n : Nat) : State :=
  s.onTile t fun T =>
    let q := sourceQ T c
    let sw := (q.beats.take n).any fun b => b.kind == 6
    let T := if c < 64 then T.setOutQ c ⟨q.beats.drop n, 0⟩ else T.setInQ c ⟨q.beats.drop n, 0⟩
    if sw then { T with swsrc := T.swsrc ++ [c] } else T

/-- The route of a switch word of a kind whose sources run under the word's bank. -/
def liveRoute (s : State) (g : Region) (t w kind : Nat) (ok : Route → Bool) : Option (Bool × Route) :=
  let T := s.tile t
  [T.bank, !T.bank].findSome? fun b =>
    match T.route? b w with
    | some r => if r.kind = kind && (r.srcs.any fun c => T.sourceBank c g.switching == b) && ok r then some (b, r) else none
    | none => none

/-- A beat copied from the one source of a word to all its destinations, when each has room. -/
def passBeat (s : State) (t w kind : Nat) : State :=
  match s.active t with
  | none => s
  | some (_, g) =>
    let ready := fun (r : Route) => !(sourceQ (s.tile t) (r.srcs.headD 0)).beats.isEmpty && r.dsts.all fun c => destRoom s t c 1
    match liveRoute s g t w kind ready with
    | none => s
    | some (_, r) =>
      let src := r.srcs.headD 0
      match (sourceQ (s.tile t) src).beats with
      | [] => s
      | b :: _ => r.dsts.foldl (fun s c => sendTo s t c [b]) (leaveSource s t src 1)

/-- SW_RT (R165). -/
def execSwRt (t w : Nat) (s : State) : Host.Outcome State Fault Refusal := .next (passBeat s t w 0)
/-- SW_FORK (R166): all copies advance together. -/
def execSwFork (t w : Nat) (s : State) : Host.Outcome State Fault Refusal := .next (passBeat s t w 1)

/-- The beats a SW.JOIN may move from a source: a bead whole, else one beat; none for BAR on a bead edge, and SW, which wait for
their partner. -/
def granule (r : Route) (q : Queue) : Nat :=
  match q.beats with
  | [] => 0
  | b :: _ =>
    if b.kind = 6 || (b.kind = 5 && r.slot != 0) then 0
    else if b.kind = 7 then (match beadAt q with | some (_, _, n) => n | none => 0) else 1

/-- SW_JOIN (R167): whole granules, alternating or round-robin; SW, and BAR on a bead edge, go on once when both sources have
them (R26, R41). Where a loop is entered, its beads go first, and one from outside waits for the limit (R23). The state of a word
is 2 × the source served last, plus 1 while its granule is open. DESIGN CHOICE: before an ARB word has served any source, s1 counts as the
one served last, so s0 goes first, as with ZIP (log entry 68). -/
def execSwJoin (t w : Nat) (s : State) : Host.Outcome State Fault Refusal :=
  .next (match s.active t with
    | none => s
    | some (_, g) =>
      match liveRoute s g t w 2 fun _ => true with
      | none => s
      | some (b, r) =>
        let T := s.tile t
        let dst := r.dsts.headD 0
        let st := (tabGet w T.joins).getD 2
        let q := fun (i : Nat) => sourceQ T (r.srcs.getD i 0)
        let live := fun (i : Nat) => T.sourceBank (r.srcs.getD i 0) g.switching == b
        let kinds := [0, 1].map fun i => (q i).beats.head?.map Beat.kind
        let both := fun (k : Nat) => kinds.all (· == some k)
        if st % 2 = 0 && live 0 && live 1 && (both 6 || (both 5 && r.slot != 0)) then
          if destRoom s t dst 1 then
            let h := (q 0).beats.headD (.control 0 0 0 0)
            let h' := (q 1).beats.headD (.control 0 0 0 0)
            let s := sendTo (leaveSource (leaveSource s t (r.srcs.getD 0 0) 1) t (r.srcs.getD 1 0) 1) t dst [h]
            let s := if both 5 && h.lane0 != h'.lane0 then s.count g.die .tagMismatch else s
            if both 6 then s.onTile t fun T => { T with joins := tabErase w T.joins } else s
          else s
        else
          let last := st / 2
          let ways := [0, 1].map fun i => (s.sourceWords g (b != T.bank) t (r.srcs.getD i 0), q i)
          let way := fun (i : Nat) => (ways.getD i ([], ⟨[], 0⟩)).1
          let turn := if State.comesRound ways (way last) && !State.comesRound ways (way (1 - last)) then [last, 1 - last] else [1 - last, last]
          let order := if st % 2 = 1 then [last] else if r.pol = 1 then [1 - last] else turn
          let enters := fun (i : Nat) => r.slot = 0 || s.admitted g (b != T.bank) ways (way i) (if r.pol = 1 then [] else ways)
          match order.find? fun i => live i && 0 < granule r (q i) && enters i with
          | none => s
          | some i =>
            let n := granule r (q i)
            if destRoom s t dst n then
              let bs := (q i).beats.take n
              let k := (bs.headD (.control 0 0 0 0)).kind
              let ends := r.slot != 0 || k = 4 || k = 5
              (sendTo (leaveSource s t (r.srcs.getD i 0) n) t dst bs).onTile t fun T => { T with joins := tabSet w (2 * i + if ends then 0 else 1) T.joins }
            else s)

/-! ### Links and output beats -/

/-- What R11 finds wrong with a beat on the channel of a context: the detail code of LNKERR. `ofBead` says that a VAL beat belongs to
a bead. -/
def malformed (b : Beat) (ctx : Nat) (ofBead : Bool) : Option Nat :=
  let w := b.data.toNat
  let want : Nat × Nat := match b.kind with | 0 | 1 => (1, 16) | 2 => (if ofBead then 16 else 1, 16) | 8 => (1, 1) | _ => (0, 0)
  if 8 < b.kind then some 1
  else if b.rsv != 0 then some 2
  else if b.count < want.1 || want.2 < b.count then some 3
  else if b.ctx != (if ctx = 4 then 0 else ctx) then some 5
  else if 15 ≤ b.stop || (b.kind != 3 && b.stop != 0) || (!(b.kind == 2 && ofBead) && b.slot != 0) then some 6
  else if b.kind = 7 && (w / 2 ^ 56 != 0 || bits w 20 4 != 0 || 8 < bits w 16 4 || bits w 0 16 = 0) then some 7
  else none

/-- LINK_BEAT_RECEIVE (R11): the beat at the far end of a link is taken in; one wrong bit is corrected and counted, a malformed
beat is not passed on. -/
def execLinkBeatReceive (t link flips : Nat) (s : State) : Host.Outcome State Fault Refusal :=
  .next (match s.active t with
    | none => s
    | some (_, g) =>
      match ((s.tile t).wireQ link).beats with
      | [] => s
      | b :: rest =>
        let T := s.tile t
        let err := if 2 ≤ flips then some 0 else malformed b g.ctx (T.beadSource link g.switching)
        match err with
        | some d => s.raise ⟨t, 13, link % 8, 0⟩ (.lnkerr 0 d)
        | none =>
          let s := s.onTile t fun T => (T.setWireQ link ⟨rest, 0⟩).setInQ link ⟨(T.inQ link).beats ++ [b], (T.inQ link).used⟩
          if flips = 1 then s.count g.die (.corrected 5) else s)

/-- Units whose output beats close after 8 clk (R161): not a level writer or a repeater, whose beats follow their input. -/
def closesByClk (u : Nat) : Bool := u != 6 && u != 4 && u != 0

/-- OUTPUT_BEAT_8_CLK (R161): partial output beats leave when 8 clk pass without another token of the fibre; those of a merge
unit leave together. -/
def execOutputBeat8Clk (t u : Nat) (s : State) : Host.Outcome State Fault Refusal :=
  .next (match s.active t with
    | none => s
    | some (_, g) =>
      let step := fun (T : Tile) => (Tile.outputCodes u).all fun c => (tabGet c T.outs).isNone || T.outRoom c 1
      if closesByClk u && (u != 3 || step (s.tile t)) then s.onTile t fun T => (Tile.outputCodes u).foldl (fun T c =>
        match tabGet c T.outs with
        | some p => if p.last + 8 ≤ s.time && T.outRoom c 1 then T.flushOut g.ctx c else T
        | none => T) T
      else s)

end Sys2Proof.Machine
end

