-- ==== Sys2Proof/Machine/Move.lean ====
section
/-! DEFINITION. Compare, select and move: CMP (R133), SEL, MOV, MOVID, LEA (R134, R76) and the move-immediate forms (R81). -/

namespace Sys2Proof.Machine

/-- The condition codes of CMP (R133). -/
def cmpHolds (cc : Nat) (a b : Int) : Bool :=
  match cc with
  | 0 => a == b | 1 => a != b | 2 => a < b | 3 => a ≤ b | 4 => b < a | _ => b ≤ a

/-- The predicate bits of a comparison: one result for X sources, one for each lane or lane pair of V sources (R133). -/
def cmpBits (T : Tile) (f : FmtA) (w : Nat) (holds : Nat → Nat → Bool) : Mask :=
  if Spec.isX f.sa && Spec.isX f.sb then maskOf fun _ => holds (T.srcElem f.sa w 0) (T.srcElem f.sb w 0)
  else maskOf fun i => holds (T.srcElem f.sa w (i * 32 / w)) (T.srcElem f.sb w (i * 32 / w))

/-- CMP (R133). -/
def execCmp (f : FmtA) (s : State) : Host.Outcome State Fault Refusal :=
  let w := Spec.tyWidth f.ty.toNat
  let int := Spec.tyInt f.ty.toNat
  .next (s.alu f 2 fun m T =>
    T.writeP (f.dst.toNat - 56) (cmpBits T f w fun a b => cmpHolds (bits f.mod.toNat 0 4) (intVal int w a) (intVal int w b)) m)

/-- SEL (R134). -/
def execSel (f : FmtA) (s : State) : Host.Outcome State Fault Refusal :=
  .next (s.alu f 2 fun m T =>
    let k := T.srcPred f.sc
    if Spec.isX f.dst then T.writeX f.dst.toNat (if k.getLsbD 0 then T.readX f.sa.toNat else T.readX f.sb.toNat)
    else T.writeV f.dst (merge (T.srcVec f.sb) (T.srcVec f.sa) k) m)

/-- MOV (R134): X from X, V from X or V, P from P. -/
def execMov (f : FmtA) (s : State) : Host.Outcome State Fault Refusal :=
  .next (s.alu f 1 fun m T =>
    if Spec.isP f.dst then T.writeP (f.dst.toNat - 56) (T.srcPred f.sa) m
    else if Spec.isX f.dst then T.writeX f.dst.toNat (T.readX f.sa.toNat)
    else T.writeV f.dst (T.srcVec f.sa) m)

/-- MOV of a lane or of a lane pair into an X register (R134). -/
def execMovLane (f : FmtA) (s : State) : Host.Outcome State Fault Refusal :=
  .next (s.alu f 1 fun _ T =>
    let w := Spec.tyWidth f.ty.toNat
    T.writeX f.dst.toNat (extend (bits (T.readV f.sa).toNat (32 * bits f.mod.toNat 0 4) w) w (Spec.tyInt f.ty.toNat)))

/-- MOVID (R76). -/
def execMovid (f : FmtA) (s : State) : Host.Outcome State Fault Refusal :=
  .next (s.alu f 0 fun m T =>
    let v := T.ids.getD f.sa.toNat 0
    if Spec.isX f.dst then T.writeX f.dst.toNat v else T.writeV f.dst (splat (BitVec.ofNat 32 v.toNat)) m)

/-- LEA (R134): Wrap(xa + xb × 2^s + disp, 64). -/
def execLea (f : FmtA) (s : State) : Host.Outcome State Fault Refusal :=
  .next (s.alu f 2 fun _ T =>
    T.writeX f.dst.toNat (BitVec.ofInt 64 ((T.readX f.sa.toNat).toNat + (T.readX f.sb.toNat).toNat * 2 ^ bits f.mod.toNat 0 3
      + sext (bits f.mod.toNat 3 7) 7)))

/-- MOVI (R81). -/
def execMovi (f : FmtI) (s : State) : Host.Outcome State Fault Refusal :=
  .next (s.aluI f false fun m T =>
    if Spec.isX f.dst then T.writeX f.dst.toNat (BitVec.ofInt 64 (sext f.imm.toNat 32)) else T.writeV f.dst (splat f.imm) m)

/-- MOVHI (R81): bits [63:32] are written, bits [31:0] kept; the destination is read as a source. -/
def execMovhi (f : FmtI) (s : State) : Host.Outcome State Fault Refusal :=
  let m := s.me.effMask f.pg f.ps
  .next (s.issue (executes m false) [⟨f.dst, f.fe == 1, 0⟩] fun s =>
    (s.onMe fun T => T.writeX f.dst.toNat (f.imm ++ BitVec.ofNat 32 (T.readX f.dst.toNat).toNat)).advance)

end Sys2Proof.Machine
end

