-- ==== Sys2Proof/Machine/Float.lean ====
section
/-! DEFINITION. Floating-point operations (R138 to R141). -/

namespace Sys2Proof.Machine

/-- The result of a rounding entry: the first NaN operand quieted, else the exact result rounded once (R102, R103). -/
def fpResult (F : Fmt) (rm : Nat) (sat : Bool) (xs : List Val) (v : Val) : Nat :=
  match Val.firstNan xs with
  | some n => roundVal F rm sat 0 n
  | none => roundVal F rm sat 0 v

/-- FRINT (R141). -/
def frintCode (F : Fmt) (rm c : Nat) : Nat :=
  match F.value c with
  | .nan .. => F.quiet c
  | .inf _ => c
  | .fin q =>
    if q.isZero then c
    else let (neg, n) := roundInt rm 0 q; round F 1 false 0 { neg := neg, num := n, exp := 0 }

/-- FGETEXP (R141). -/
def fgetexpCode (F : Fmt) (c : Nat) : Nat :=
  match F.value c with
  | .nan .. => F.quiet c
  | .inf _ => F.infinity false
  | .fin q => if q.isZero then F.infinity true else round F 0 false 0 (Q.ofInt q.flog2)

/-- FEXPINS (R141): a × 2^n rounded once. A scale beyond ±4,096 gives what ±4,096 gives: every format overflows, or is
far below half of its least value, well before. -/
def fexpinsCode (F : Fmt) (rm : Nat) (sat : Bool) (c : Nat) (n : Int) : Nat :=
  match F.value c with
  | .nan .. => F.quiet c
  | .inf _ => c
  | .fin q => if q.isZero then c else round F rm sat 0 (q.scale (max (min n 4096) (-4096)))

namespace State

/-- A floating-point operation of Format A from the codes of its elements. -/
def fpCodes (s : State) (f : FmtA) (n : Nat) (g : Fmt → Nat → Nat → Nat → Nat) : State :=
  let w := Spec.tyWidth f.ty.toNat
  s.alu f n fun m T =>
    T.writeElems f.dst m w false fun i => g (fmtOfTy f.ty.toNat) (T.srcElem f.sa w i) (T.srcElem f.sb w i) (T.srcElem f.sc w i)

/-- A rounding entry with one, two or three operands. -/
def fp1 (s : State) (f : FmtA) (v : Val → Val) : State :=
  s.fpCodes f 1 fun F a _ _ => fpResult F f.rm.toNat (f.sat == 1) [F.value a] (v (F.value a))
def fp2 (s : State) (f : FmtA) (v : Val → Val → Val) : State :=
  s.fpCodes f 2 fun F a b _ => fpResult F f.rm.toNat (f.sat == 1) [F.value a, F.value b] (v (F.value a) (F.value b))
def fp3 (s : State) (f : FmtA) (v : Val → Val → Val → Val) : State :=
  s.fpCodes f 3 fun F a b c =>
    fpResult F f.rm.toNat (f.sat == 1) [F.value a, F.value b, F.value c] (v (F.value a) (F.value b) (F.value c))

end State

/-- Rounding is toward −∞, which decides the sign of an exact zero sum (R102). -/
def down (f : FmtA) : Bool := f.rm == 3

/-- FADD (R138): a + b. -/
def execFadd (f : FmtA) (s : State) : Host.Outcome State Fault Refusal := .next (s.fp2 f fun a b => Val.add (down f) a b)
/-- FSUB (R138): a − b. -/
def execFsub (f : FmtA) (s : State) : Host.Outcome State Fault Refusal := .next (s.fp2 f fun a b => Val.add (down f) a b.neg)
/-- FMUL (R138): a × b. -/
def execFmul (f : FmtA) (s : State) : Host.Outcome State Fault Refusal := .next (s.fp2 f fun a b => a.mul b)
/-- FMA (R138): a × b + c, one rounding. -/
def execFma (f : FmtA) (s : State) : Host.Outcome State Fault Refusal := .next (s.fp3 f fun a b c => Val.add (down f) (a.mul b) c)
/-- FMS (R138): a × b − c, one rounding. -/
def execFms (f : FmtA) (s : State) : Host.Outcome State Fault Refusal := .next (s.fp3 f fun a b c => Val.add (down f) (a.mul b) c.neg)
/-- FNMA (R138): −(a × b) + c, one rounding. -/
def execFnma (f : FmtA) (s : State) : Host.Outcome State Fault Refusal := .next (s.fp3 f fun a b c => Val.add (down f) (a.mul b).neg c)
/-- FDIV (R138): a / b, correctly rounded. -/
def execFdiv (f : FmtA) (s : State) : Host.Outcome State Fault Refusal := .next (s.fp2 f fun a b => a.div b)
/-- FSQRT (R138). -/
def execFsqrt (f : FmtA) (s : State) : Host.Outcome State Fault Refusal := .next (s.fp1 f fun a => a.sqrt)
/-- FRCP (R138): 1 / a. -/
def execFrcp (f : FmtA) (s : State) : Host.Outcome State Fault Refusal := .next (s.fp1 f fun a => (Val.fin (Q.ofNat 1)).div a)
/-- FRSQ (R138): 1 / √a. -/
def execFrsq (f : FmtA) (s : State) : Host.Outcome State Fault Refusal := .next (s.fp1 f fun a => a.rsqrt)
/-- FMIN (R140). -/
def execFmin (f : FmtA) (s : State) : Host.Outcome State Fault Refusal := .next (s.fpCodes f 2 fun F a b _ => fminmax F false a b)
/-- FMAX (R140). -/
def execFmax (f : FmtA) (s : State) : Host.Outcome State Fault Refusal := .next (s.fpCodes f 2 fun F a b _ => fminmax F true a b)
/-- FABS (R138): the sign bit cleared; a NaN keeps its quiet bit. -/
def execFabs (f : FmtA) (s : State) : Host.Outcome State Fault Refusal := .next (s.fpCodes f 1 fun F a _ _ => a % F.signBit)
/-- FNEG (R138): the sign bit inverted. -/
def execFneg (f : FmtA) (s : State) : Host.Outcome State Fault Refusal := .next (s.fpCodes f 1 fun F a _ _ => a ^^^ F.signBit)
/-- FCMP (R140), shaped as CMP. -/
def execFcmp (f : FmtA) (s : State) : Host.Outcome State Fault Refusal :=
  let w := Spec.tyWidth f.ty.toNat
  let F := fmtOfTy f.ty.toNat
  .next (s.alu f 2 fun m T =>
    T.writeP (f.dst.toNat - 56) (cmpBits T f w fun a b => fcmpHolds (bits f.mod.toNat 0 4) (F.value a) (F.value b)) m)
/-- FCLASS (R140). -/
def execFclass (f : FmtA) (s : State) : Host.Outcome State Fault Refusal := .next (s.fpCodes f 1 fun F a _ _ => fclassOf F a)
/-- FRINT (R141). -/
def execFrint (f : FmtA) (s : State) : Host.Outcome State Fault Refusal := .next (s.fpCodes f 1 fun F a _ _ => frintCode F f.rm.toNat a)
/-- FGETEXP (R141). -/
def execFgetexp (f : FmtA) (s : State) : Host.Outcome State Fault Refusal := .next (s.fpCodes f 1 fun F a _ _ => fgetexpCode F a)
/-- FEXP2F (R141). -/
def execFexp2f (f : FmtA) (s : State) : Host.Outcome State Fault Refusal := .next (s.fpCodes f 1 fun _ a _ _ => exp2f a)
/-- FEXPINS (R141). -/
def execFexpins (f : FmtA) (s : State) : Host.Outcome State Fault Refusal :=
  .next (s.fpCodes f 2 fun F a b _ => fexpinsCode F f.rm.toNat (f.sat == 1) a (sext b F.width))

end Sys2Proof.Machine
end

