-- ==== Sys2Proof/Machine/Convert.lean ====
section
/-! DEFINITION. Conversions (R142, R143), and blocks packed and unpacked in registers (R144). -/

namespace Sys2Proof.Machine

/-- The lane that holds element j of width w (R123). -/
def laneOfElem (w j : Nat) : Nat := if w = 64 then 2 * j else j * w / 32

/-- A conversion of Format A between elements of widths wS and wD: `g` gives the code from a source code and a draw. With
SR, each written element draws once, in ascending order (R111, R142). -/
def convertTile (T : Tile) (f : FmtA) (m : Mask) (wS wD : Nat) (signed : Bool) (g : Nat → Nat → Nat) : Tile :=
  let p := bits f.mod.toNat 6 3
  let sr := f.rm == 5
  if Spec.isX f.dst then
    let (gs, ds) := if sr then srDraws 1 T.gsr else (T.gsr, [])
    { T.writeX f.dst.toNat (extend (g (T.srcElem f.sa wS 0) (ds.getD 0 0)) wD signed) with gsr := gs }
  else
    let n := 512 / max wS wD
    let js := (List.range n).map fun i => (convWrite wS wD p i, convRead wS wD p i)
    let act := js.filter fun j => (maskFor wD m).getLsbD (laneOfElem wD j.1)
    let (gs, ds) := if sr then srDraws act.length T.gsr else (T.gsr, [])
    let out := (List.range act.length).map fun k =>
      let j := act.getD k (0, 0)
      (j.1, g (T.srcElem f.sa wS j.2) (ds.getD k 0))
    let v := pack wD ((List.range (512 / wD)).map fun j => (tabGet j out).getD (elem (T.readV f.dst) wD j))
    let lanes := maskFor wD (maskOf fun i => act.any fun j => laneOfElem wD j.1 == i)
    { T.writeV f.dst v lanes with gsr := gs }

/-- FCVT from a compute element type (R143 Table 6). -/
def execFcvt (f : FmtA) (s : State) : Host.Outcome State Fault Refusal :=
  let S := fmtOfTy f.ty.toNat
  let D := if f.mod.getLsbD 5 then fp64 else fmtOfCode (bits f.mod.toNat 0 5)
  .next (s.alu f 1 fun m T =>
    convertTile T f m S.width D.width false fun c r => convert D f.rm.toNat (f.sat == 1) r (S.value c))

/-- FCVT to a compute element type (mod[9] = 1). -/
def execFcvtFrom (f : FmtA) (s : State) : Host.Outcome State Fault Refusal :=
  let S := fmtOfCode (bits f.mod.toNat 0 5)
  let D := fmtOfTy f.ty.toNat
  .next (s.alu f 1 fun m T =>
    convertTile T f m S.width D.width false fun c r => convert D f.rm.toNat (f.sat == 1) r (S.value c))

/-- FTOI (R143): always saturated (R112). -/
def execFtoi (f : FmtA) (s : State) : Host.Outcome State Fault Refusal :=
  let S := fmtOfTy f.ty.toNat
  let t := bits f.mod.toNat 0 3
  .next (s.alu f 1 fun m T =>
    convertTile T f m S.width (Spec.tyWidth t) (Spec.tyInt t) fun c r => toInteger (Spec.tyInt t) (Spec.tyWidth t) f.rm.toNat r (S.value c))

/-- ITOF (R143): Round of the exact integer. -/
def execItof (f : FmtA) (s : State) : Host.Outcome State Fault Refusal :=
  let w := Spec.tyWidth f.ty.toNat
  let D := if f.mod.getLsbD 5 then fp64 else fmtOfCode (bits f.mod.toNat 0 5)
  .next (s.alu f 1 fun m T =>
    convertTile T f m w D.width false fun c r =>
      Sys2Proof.Machine.round D f.rm.toNat (f.sat == 1) r (Q.ofInt (intVal (Spec.tyInt f.ty.toNat) w c)))

/-- The packed layout of a block in a register (R144 Table 7): element codes from byte 0, the side record in lane 15. -/
def packedBlock (c : Nat) (codes : List Nat) (side : Nat) : Vec :=
  BitVec.ofNat 512 (packNat (elemBits c) codes + side * 2 ^ 480)

/-- FPACK (R144): the whole block is packed, whatever the mask, and written in the active lanes. -/
def execFpack (f : FmtA) (s : State) : Host.Outcome State Fault Refusal :=
  let c := bits f.mod.toNat 0 5
  let n := blockLen c
  .next (s.alu f (if n = 16 then 1 else 2) fun m T =>
    let xs := (List.range n).map fun i => fp32.value (if i < 16 then elem (T.readV f.sa) 32 i else elem (T.readV f.sb) 32 (i - 16))
    let (gs, ds) := if f.rm = 5 then srDraws n T.gsr else (T.gsr, [])
    let (codes, side) := packBlock c f.rm.toNat xs ds
    { T.writeV f.dst (packedBlock c codes side) m with gsr := gs })

/-- FUNPACK (R144): active lane i receives element 16h + i. -/
def execFunpack (f : FmtA) (s : State) : Host.Outcome State Fault Refusal :=
  let c := bits f.mod.toNat 0 5
  .next (s.alu f 1 fun m T =>
    let v := (T.readV f.sa).toNat
    let side := bits v 480 (8 * sideBytes c)
    T.writeV f.dst (pack 32 ((List.range 16).map fun i =>
      convert fp32 f.rm.toNat (f.sat == 1) 0 (blockValue c side (packedElem v (elemBits c) (16 * bits f.mod.toNat 6 1 + i))))) m)

end Sys2Proof.Machine
end

