-- ==== Sys2Proof/Machine/Ras.lean ====
section
/-! DEFINITION. Soft errors and scrubbing (R401 to R403) with the fencing that repeated errors bring (R418), and power and thermal
limits (R404, R405, R407). -/

namespace Sys2Proof.Machine

/-- The number of a structure of R401 Table 5. -/
def EccSite.structure' : EccSite → Nat
  | .memWord _ => 0 | .treeNode .. => 1 | .tag _ => 2 | .scratch .. => 3 | .element .. => 4 | .link .. => 5 | .config .. => 6
  | .cache _ => 7 | .controller _ => 8

namespace State

/-! ### Where an error lies -/

/-- The vault (0 to 63) or the channel (64 + …) of a die that holds a physical address, with the die. -/
def bankOfAddr (pa : Nat) : Option (Nat × Nat) :=
  if inVault pa then some (homeVault pa / 64, homeVault pa % 64)
  else if inHbm pa then some (pa / 2 ^ 37, 64 + 32 * (pa / 2 ^ 36 % 2) + pa % 2 ^ 36 / 2 ^ 31)
  else none

/-- A bank is fenced: a vault, or an HBM channel. -/
def fenceBank (s : State) (d k : Nat) : State :=
  if k < 64 then s.fenceVault (64 * d + k) else s.fenceChannel (2 * d + (k - 64) / 32) ((k - 64) % 32)

/-- Where a bank's memory starts, and its size. -/
def bankRange (d k : Nat) : Nat × Nat :=
  if k < 64 then (vaultBase + (64 * d + k) * 2 ^ 24, 2 ^ 24) else ((2 * d + (k - 64) / 32) * 2 ^ 36 + (k - 64) % 32 * 2 ^ 31, 2 ^ 31)
/-- The hints that precede a fence for corrected errors (R418). -/
def bankHints (s : State) (d k : Nat) : State := s.rangeHints (bankRange d k).1 (bankRange d k).2

/-- The clk in which the scrubber of a bank reads its next word come 2^13 apart for a vault, and 2^6 apart for a channel, so that each word
is read once in 2^34 clk (R403). -/
def scrubStride (k : Nat) : Nat := if k < 64 then 2 ^ 13 else 2 ^ 6
/-- The scrubber of a bank reads this word in this clk. -/
def scrubs (s : State) (pa : Nat) : Bool :=
  match bankOfAddr pa with
  | some (d, k) =>
    let n := scrubStride k
    s.time % n == 0 && pa / 8 == (bankRange d k).1 / 8 + s.time / n % ((bankRange d k).2 / 8)
  | none => false

/-- A corrected error of a bank: 2^16 of them in one scrub pass fence it (R418). -/
def correctedBank (s : State) (d k : Nat) : State :=
  let n := (tabGet k (s.die d).scrubbed).getD 0 + 1
  let s := s.onDie d fun D => { D with scrubbed := tabSet k n D.scrubbed }
  if n = 2 ^ 16 then (s.bankHints d k).fenceBank d k else s

/-- An uncorrectable error of a bank: a second one within 2^30 clk fences a vault, within 2^34 clk a channel (R418). -/
def uncorrectableBank (s : State) (d k : Nat) : State :=
  let window := if k < 64 then 2 ^ 30 else 2 ^ 34
  let past := ((tabGet k (s.die d).uncorr).getD []).filter fun t => s.time < t + window
  let s := s.onDie d fun D => { D with uncorr := tabSet k (past ++ [s.time]) D.uncorr }
  if past.isEmpty then s else s.fenceBank d k

/-- A corrected error of a tile: 2^10 of them within 2^30 clk fence it (R418). -/
def correctedTile (s : State) (t : Nat) : State :=
  let past := (s.tile t).corr.filter fun x => s.time < x + 2 ^ 30
  let s := s.onTile t fun T => { T with corr := past ++ [s.time] }
  if 2 ^ 10 ≤ past.length + 1 then s.fenceTile t else s

/-- The die of an error. -/
def dieOfSite (s : State) (e : EccSite) : Nat :=
  match e with
  | .memWord pa => ((bankOfAddr pa).map Prod.fst).getD 0
  | .treeNode desc p => s.descVault desc p / 64
  | .tag b => ((bankOfAddr (256 * b)).map Prod.fst).getD 0
  | .scratch t _ | .element t _ | .link t _ | .config t _ _ => dieOf t
  | .cache d | .controller d => d

/-- A corrected error (R401): it is counted, and it counts toward a fence. One that the scrubber finds is written back by it, and counted
as such (R403, R417). -/
def corrected (s : State) (e : EccSite) : State :=
  let s := s.count (s.dieOfSite e) (.corrected (EccSite.structure' e))
  match e with
  | .memWord pa => match bankOfAddr pa with
    | some (d, k) => (if s.scrubs pa then s.count d .scrubWrite else s).correctedBank d k
    | none => s
  | .treeNode desc p => s.correctedBank (s.descVault desc p / 64) (s.descVault desc p % 64)
  | .scratch t _ | .element t _ | .link t _ | .config t _ _ => s.correctedTile t
  | _ => s

/-- The word at a place in a vector becomes zero. -/
def zeroWord (v : Vec) (word : Nat) : Vec := v &&& ~~~(BitVec.ofNat 512 (2 ^ 64 - 1) <<< (64 * word))

/-- A word of a tile becomes zero. -/
def zeroCell (T : Tile) (c : EccCell) : Tile :=
  match c with
  | .x n => { T with x := T.x.modify n fun r => { r with val := 0 } }
  | .v n w => { T with v := T.v.modify n fun r => { r with val := zeroWord r.val w } }
  | .slot b k w => { T with beads := T.beads.modify b fun B => { B with slots := B.slots.modify k fun r => { r with val := zeroWord r.val w } } }
  | .acc b w =>
    let clear := fun (A : AccBank) => { A with elems := tabErase (2 * w) (tabErase (2 * w + 1) A.elems) }
    { T with mxc := if b = 0 then { T.mxc with a0 := clear T.mxc.a0 } else { T.mxc with a1 := clear T.mxc.a1 } }
  | .beat q k w => { T with inq := (T.setInQ q ⟨(T.inQ q).beats.modify k fun b => { b with data := zeroWord b.data w }, (T.inQ q).used⟩).inq }

/-- The unit that owns a word of a tile: of an input queue the unit it feeds, an AG by its port, or the switch, and otherwise the
compute element. -/
def cellSite (s : State) (t : Nat) (c : EccCell) : Site :=
  match c with
  | .beat q _ _ => if 64 ≤ q then ⟨t, 8, 0, 0⟩ else if 56 ≤ q then ⟨t, 7, (q - 56) / 2, 0⟩ else ⟨t, q / 8, 0, 0⟩
  | _ => ⟨t, 0, 0, if (s.tile t).beads.isEmpty then 0 else (s.tile t).pc⟩

/-- An error in what a region holds. In one that is stopped to be saved it takes effect after the restore (R403), and the word that
held it is saved as zero. -/
def stateError (s : State) (p : Site) (f : Flt) (zero : Tile → Tile) : State :=
  match s.regionOf p.t with
  | some (r, g) =>
    if g.stopWave then (s.onTile p.t zero).setRegion r { g with marks := g.marks ++ [(p.t, some (p.unit, p.sub, p.widx))] } else s.raise p f
  | none => s

/-- An uncorrectable error (R401, R402). During a rolling switch one in either bank of a tile is repaired as one in an active bank, since units
of the tile may hold each of them: DEDUCED, where R70 speaks of active and shadow banks only (log entry 65). -/
def uncorrectable (s : State) (e : EccSite) : State :=
  match e with
  | .memWord pa =>
    let s := { s with bad := setInsert (pa / 8) s.bad }
    match bankOfAddr pa with | some (d, k) => s.uncorrectableBank d k | none => s
  | .treeNode desc p =>
    let s := match tabGet desc s.trees with
      | some tr => { s with trees := tabSet desc { tr with parts := tr.parts.modify p fun q => { q with broken := true } } s.trees }
      | none => s
    s.uncorrectableBank (s.descVault desc p / 64) (s.descVault desc p % 64)
  | .tag b => { s with badTags := setInsert b s.badTags }
  | .scratch t off => s.onTile t fun T => { T with spSites := setInsert (off / 8) T.spSites }
  | .element t c => s.stateError (s.cellSite t c) (.decmp 0) fun T => zeroCell T c
  | .link t k => s.stateError ⟨t, 13, k, 0⟩ (.lnkerr 0 0) id
  | .config t bank _ =>
    match s.regionOf t with
    | none => s
    | some (r, g) =>
      if g.running && ((bank = 1) = ((s.tile t).bank = true) || g.switching) then s.configError r t
      else if (bank = 1) = ((s.tile t).bank = true) || g.loader.phase == .idle || g.loader.phase == .failed || g.loader.phase == .faulted then s
      else s.discardShadow r .reading 0
  | .cache d => s.onDie d fun D => { D with
      tlb := []
      ptrs := []
      ise := [[], []] }
  | .controller d => s.onDie d fun D => { D with hung := true }

end State

/-- ECC_ERROR (R401). A cache entry with an error is invalidated and refetched, whatever the error. -/
def execEccError (e : EccSite) (double : Bool) (s : State) : Host.Outcome State Fault Refusal :=
  .next (if double then s.uncorrectable e
    else match e with
      | .cache _ => (s.count (s.dieOfSite e) (.corrected 7)).uncorrectable e
      | _ => s.corrected e)

/-- PATROL_SCRUB (R403): the scrubber of a bank reads the word at an address; a correctable error it finds is an ECC_ERROR, whose
write-back applies only to the word as it was read, so memory keeps the word. The last word of a bank ends its pass. -/
def execPatrolScrub (a : Nat) (s : State) : Host.Outcome State Fault Refusal :=
  .next (match State.bankOfAddr a with
    | none => s
    | some (d, k) =>
      let size := if k < 64 then 2 ^ 24 else 2 ^ 31
      if a % size / 8 + 1 = size / 8 then s.onDie d fun D => { D with scrubbed := tabErase k D.scrubbed } else s)

/-! ### Power and temperature (R404, R405, R407) -/

/-- 1 ms in clk. -/
def millisecond : Nat := 1800000

namespace State

/-- The mean of a die's samples. -/
def dieWatts (b : Boot) (d : Nat) : Nat :=
  let w := (b.samples.filter fun q => q.2.1 == d).map fun q => q.2.2.1
  if w.isEmpty then 0 else w.sum / w.length

/-- The row-0 condition of R404 Table 6. -/
def calm (b : Boot) : Bool := 100 * b.pavg.toNat ≤ 95 * b.plim.toNat && b.tjmax.toNat ≤ 100

/-- The highest row of Table 6 whose condition holds. -/
def throttleRow (b : Boot) : Nat :=
  if 110 ≤ b.tjmax.toNat then 3
  else if 105 * b.plim.toNat < 100 * b.pavg.toNat || 105 ≤ b.tjmax.toNat then 2
  else if b.plim.toNat < b.pavg.toNat then 1 else 0

/-- pavg and tjmax over the samples of the last millisecond (R404). A trip holds go until tjmax has fallen below 90 °C (R407). -/
def averages (b : Boot) (now : Nat) (kept : List (Nat × Nat × Nat × Nat)) : Boot :=
  let b := { b with samples := kept }
  let b := { b with
    pavg := BitVec.ofNat 16 (((List.range 4).map (dieWatts b)).sum)
    tjmax := BitVec.ofNat 8 ((kept.map fun (q : Nat × Nat × Nat × Nat) => q.2.2.2).foldl max 0) }
  { b with
    calmAt := if calm b then b.calmAt else now
    tripped := b.tripped && 90 ≤ b.tjmax.toNat }

/-- Samples older than a millisecond leave the averages. -/
def expireSamples (s : State) : State :=
  let kept := s.boot.samples.filter fun q => s.time < q.1 + millisecond
  if kept.length = s.boot.samples.length then s else { s with boot := averages s.boot s.time kept }

/-- A sample of a die enters the averages. At 115 °C firing stops and the package enters RECOVERY with THERM (R407). -/
def sample (s : State) (d watts celsius : Nat) : State :=
  let kept := s.boot.samples.filter fun q => s.time < q.1 + millisecond
  let s := { s.onDie d fun D => { D with
      watts := watts
      celsius := celsius } with
    boot := averages s.boot s.time (kept ++ [(s.time, d, watts, celsius)]) }
  if celsius < 115 then s
  else
    let s := if s.boot.bstate = 5 then s else s.enterRecovery 11
    { s with boot := { s.boot with tripped := true } }

end State

/-- POWER_SAMPLE (R404): each controller samples its die every 2^16 clk. -/
def execPowerSample (d watts celsius : Nat) (s : State) : Host.Outcome State Fault Refusal :=
  .next (if s.time < (s.die d).sampleAt then s
    else (s.onDie d fun D => { D with sampleAt := D.sampleAt + 2 ^ 16 * ((s.time - D.sampleAt) / 2 ^ 16 + 1) }).sample d watts celsius)

/-- THROTTLE_UPDATE (R404): once per millisecond the state rises to the highest row that holds, or falls one step after a calm
millisecond. -/
def execThrottleUpdate (s : State) : Host.Outcome State Fault Refusal :=
  .next (if s.time < s.boot.updateAt then s
    else
      let b := { s.boot with updateAt := s.time + millisecond }
      let row := State.throttleRow b
      if b.tstate.toNat < row then { s with boot := { b with
        tstate := BitVec.ofNat 2 row
        calmAt := s.time } }
      else if State.calm b && b.calmAt + millisecond ≤ s.time && 0 < b.tstate.toNat then { s with boot := { b with
        tstate := b.tstate - 1
        calmAt := s.time } }
      else { s with boot := { b with calmAt := if State.calm b then b.calmAt else s.time } })

/-- THERMAL_TRIP (R407): a junction of a die reaches 115 °C. -/
def execThermalTrip (d : Nat) (s : State) : Host.Outcome State Fault Refusal := .next (s.sample d (s.die d).watts (max (s.die d).celsius 115))

end Sys2Proof.Machine
end

