-- ==== Sys2Proof/Machine/Fleet.lean ====
section
/-! DEFINITION. The pod: lattice ports, routing (R408 to R411), lost packages (R413), the pod and telemetry registers (R414, R417). -/

namespace Sys2Proof.Machine

namespace State

/-- A package that has left the pod stays lost, whatever later accesses find (R413). -/
def latchLost (s : State) : State :=
  if s.fleet.en then
    { s with fleet := { s.fleet with
      lostPkg := ((List.range s.podSize).filter fun p => Config.departed p s.time).foldl (fun ps p => setInsert p ps) s.fleet.lostPkg } }
  else s

/-- A flit that did not pass its CRC is retried; 2^20 retries within 2^30 clk fence the port (R408, R418). -/
def retryFlit (s : State) (p : Nat) : State :=
  let s := s.count 0 .linkRetry
  let past := (s.fleet.retries.getD p []).filter fun x => s.time < x + 2 ^ 30
  let s := { s with fleet := { s.fleet with retries := s.fleet.retries.set p (past ++ [s.time]) } }
  if 2 ^ 20 ≤ past.length + 1 then s.fencePort p else s

/-- Ports that PODCFG leaves in use start training; unused ones are down; a fenced one stays so (R409, R414). -/
def trainPorts (s : State) : State :=
  let lst := (List.range 16).map fun p =>
    if s.fleet.lst.getD p 0 = 3 then 3
    else if s.fleet.en && 1 < s.torus.getD (portDir p).1 1 then 1 else 0
  { s with fleet := { s.fleet with lst := lst } }

/-- A write of PODCFG (R414, R421): in READY with every context FREE, and with a package number of the pod. -/
def writePodcfg (s : State) (v : Word) : State :=
  let en := v.getLsbD 22
  let dx := bits v.toNat 11 4
  let dy := bits v.toNat 15 4
  let dz := bits v.toNat 19 3
  let pkg := bits v.toNat 0 11
  if s.boot.bstate != 4 || s.ctxs.any fun c => c.state != 0 then s.logError 2 (dcbReg 0x520)
  else if (dx + 1) * (dy + 1) * (dz + 1) ≤ pkg then s
  else State.trainPorts { s with fleet := { s.fleet with
    en := en
    dimz := BitVec.ofNat 3 dz
    dimy := BitVec.ofNat 4 dy
    dimx := BitVec.ofNat 4 dx
    pkg := BitVec.ofNat 11 pkg
    lostPkg := []
    rx := []
    tx := []
    used := [] } }

/-! ### Event counters (R417) -/

def monDie (v : Word) : Nat := bits v.toNat 0 2
def monCtr (v : Word) : Nat := bits v.toNat 2 6
def monSrc (v : Word) : Nat := bits v.toNat 8 8

/-- The counter takes a source; a change of source clears it. -/
def setCounter (s : State) (v : Word) : State :=
  s.onDie (monDie v) fun D =>
    match tabGet (monCtr v) D.counters with
    | some c => if c.1 = monSrc v then D else { D with counters := tabSet (monCtr v) (monSrc v, 0) D.counters }
    | none => { D with counters := tabSet (monCtr v) (monSrc v, 0) D.counters }

/-- The counter is cleared. -/
def clearCounter (s : State) (v : Word) : State :=
  s.onDie (monDie v) fun D =>
    match tabGet (monCtr v) D.counters with
    | some c => { D with counters := tabSet (monCtr v) (c.1, 0) D.counters }
    | none => D

/-- A write of MONCTL: not performed where the source is no code of Table 2. -/
def writeMonctl (s : State) (v : Word) : State :=
  if 0xC7 < monSrc v then s
  else
    let s := { s with fleet := { s.fleet with monctl := v.setWidth 18 } }
    let s := if v.getLsbD 17 then s.setCounter v else s
    if v.getLsbD 16 then s.clearCounter v else s

/-- MONVAL: the counter that the last MONCTL write named. -/
def monval (s : State) : Nat :=
  match tabGet (bits s.fleet.monctl.toNat 2 6) (s.die (bits s.fleet.monctl.toNat 0 2)).counters with
  | some c => c.2.toNat
  | none => 0

/-- FVAL: the fence mask that FSEL names (R414). -/
def fenceMask (s : State) : Nat :=
  let f := s.fleet.fsel.toNat
  let d := bits f 0 2
  match bits f 2 2 with
  | 0 => packNat 1 ((List.range 24).map fun tx => if bits f 4 5 < 24 && (s.tile (tileAt d (bits f 4 5) tx)).fenced then 1 else 0)
  | 1 => (s.die d).vaultF.toNat
  | 2 => (s.die d).hbmF.toNat
  | _ => 0

end State

/-- FLIT_RECEIVE (R408, R410, R411, R413): a flit with a good CRC takes its place in the receive buffer of its channel and class, where its
sender held a credit for it, or goes on at once; one whose package cannot be reached goes no further. It shows that the neighbour is
there. -/
def execFlitReceive (p : Nat) (f : Flit) (s : State) : Host.Outcome State Fault Refusal :=
  .next (if s.fleet.lst.getD p 0 != 2 then s
    else if !f.crcOk then s.retryFlit p
    else
      let s := { s with fleet := { s.fleet with missed := s.fleet.missed.set p 0 } }
      let before := s.fleet.rx.filter fun q => q.1 == p && State.creditKey 0 q.2 == State.creditKey 0 f
      if State.flitRoom f ≤ before.length then s
      else
        let s := s.count 0 (.flitReceived (2 * f.ctx.toNat + State.flitClass f))
        let stay := { s with fleet := { s.fleet with rx := s.fleet.rx ++ [(p, f)] } }
        if f.dest = s.fleet.pkg || !before.isEmpty then stay else (s.sendFlit f (State.travels p)).getD stay)

/-- FLIT_CRC_RETRY (R408). -/
def execFlitCrcRetry (p : Nat) (s : State) : Host.Outcome State Fault Refusal :=
  .next (if s.fleet.lst.getD p 0 = 2 then s.retryFlit p else s)

/-- PORT_RETRAIN (R408, R418): a retrain that fails three times in a row fences the port. -/
def execPortRetrain (p : Nat) (ok : Bool) (s : State) : Host.Outcome State Fault Refusal :=
  .next (if s.fleet.lst.getD p 0 = 0 || s.fleet.lst.getD p 0 = 3 then s
    else
      let n := if ok then 0 else s.fleet.retrain.getD p 0 + 1
      let s := State.count { s with fleet := { s.fleet with
        retrain := s.fleet.retrain.set p n
        lst := s.fleet.lst.set p (if ok then 2 else 1) } } 0 .latticeRetrain
      if n = 3 then s.fencePort p else s)

/-- KEEPALIVE_LOSS (R413, R422): a keep-alive of the neighbour is missed; after ten its package is lost, and the ports that lead to it
are fenced. -/
def execKeepaliveLoss (p : Nat) (s : State) : Host.Outcome State Fault Refusal :=
  .next (if s.fleet.lst.getD p 0 = 0 || s.fleet.lst.getD p 0 = 3 then s
    else
      let n := s.fleet.missed.getD p 0 + 1
      let s := { s with fleet := { s.fleet with missed := s.fleet.missed.set p n } }
      if n < 10 then s
      else
        let gone := fun (q : Nat) => s.nextPackage (portDir q).1 (portDir q).2
        let lost := gone p
        let used := fun (q : Nat) => 1 < s.torus.getD (portDir q).1 1
        let s' := { s with fleet := { s.fleet with lostPkg := setInsert lost s.fleet.lostPkg } }
        ((List.range 16).filter fun q => used q && gone q == lost).foldl (fun (s : State) q => s.fencePort q) s')

/-- PODCFG_WRITE (R414). -/
def execPodcfgWrite (v : Word) (s : State) : Host.Outcome State Fault Refusal := .next (s.writePodcfg v)

/-- MONCTL_SET (R417). -/
def execMonctlSet (v : Word) (s : State) : Host.Outcome State Fault Refusal := .next (s.whenReady fun s => s.writeMonctl (v ||| 0x20000))
/-- MONCTL_CLR (R417). -/
def execMonctlClr (v : Word) (s : State) : Host.Outcome State Fault Refusal := .next (s.whenReady fun s => s.writeMonctl (v ||| 0x10000))

/-- PORT_TRAINING_COMPLETE (R414): the port is up. -/
def execPortTrainingComplete (p : Nat) (s : State) : Host.Outcome State Fault Refusal :=
  .next (if s.fleet.lst.getD p 0 = 1 then { s with fleet := { s.fleet with
      lst := s.fleet.lst.set p 2
      retrain := s.fleet.retrain.set p 0
      missed := s.fleet.missed.set p 0 } }
    else s)

end Sys2Proof.Machine
end

