-- ==== Sys2Proof/Machine/HostTx.lean ====
section
/-! DEFINITION. The host link (R343 to R347), the device control block as the host reads and writes it (R348, R349, R380, R393, R414),
launch records from the host (R351, R352), APPEND (R367) and the host TFENCE (R375). -/

namespace Sys2Proof.Machine

/-- The header breaks Table 2 of R344. -/
def hdrBad (h : TxHdr) : Bool :=
  h.addr.toNat % 8 != 0 || h.rsv != 0 || 256 < h.addr.toNat % 256 + 8 * (h.len.toNat + 1) || 4 < h.ctx.toNat || (h.priv == 1) != (h.ctx == 4)
    || h.status != 0 || h.astat != 0

/-- A kind that Table 3 of R345 reserves. -/
def kindReserved (h : TxHdr) : Bool := h.kind == 6 || h.kind == 7 || 10 ≤ h.kind.toNat

/-- The words of a write. -/
def txWords (h : TxHdr) (data : List Word) : List Word := (List.range (h.len.toNat + 1)).map fun i => data.getD i 0

/-- What a host transaction answers: its status (R347 Table 4), the arm status, and data. -/
structure Reply where
  status : Nat
  astat  : Nat
  data   : List Word
  deriving DecidableEq, Repr

/-- A transaction that changes nothing and carries no data. -/
def Reply.code (n : Nat) : Reply := ⟨n, 0, []⟩

namespace State

/-! ### Reading the control block -/

/-- Four fields of a register, d at bits 8d. -/
def perDie (s : State) (f : Die → Nat) : Nat := packNat 8 ((List.range 4).map fun d => f (s.die d))

/-- A register of a context block (R349 Table 6). -/
def readCtxBlock (C : Ctx) (o : Nat) : Nat :=
  match o with
  | 0x00 => C.state
  | 0x08 => C.ptroot
  | 0x10 => C.pool
  | 0x18 => C.fqbase
  | 0x20 => C.fqn
  | 0x28 => C.fqhead.toNat
  | 0x30 => C.fqtail.toNat
  | 0x38 => C.naddr
  | 0x40 => C.ndata.toNat
  | 0x48 => C.hdl.toNat
  | 0x50 => (C.vgrant.getD 0 0).toNat
  | 0x58 => (C.vgrant.getD 1 0).toNat
  | 0x60 => (C.vgrant.getD 2 0).toNat
  | 0x68 => (C.vgrant.getD 3 0).toNat
  | 0x70 => (if C.visible then 1 else 0) + if C.notify then 2 else 0
  | 0x78 => C.lost.toNat
  | _ => 0

/-- A register of the boot block (R393 Table 1). go and reset read as zero. -/
def readBootBlock (b : Boot) (off : Nat) : Nat :=
  match off with
  | 0x580 => b.bstate + 2 ^ 8 * b.berr
  | 0x588 => b.imgaddr.toNat
  | 0x590 => b.imglen.toNat
  | 0x5A0 => b.nonceaddr.toNat
  | 0x5A8 => b.rspaddr.toNat
  | 0x5B0 => b.attop.toNat + 2 ^ 8 * b.attst.toNat + 2 ^ 32 * b.attlen.toNat
  | 0x5B8 => b.minseq.toNat
  | 0x5C0 => b.plim.toNat
  | 0x5C8 => b.tstate.toNat + 2 ^ 8 * b.tjmax.toNat + 2 ^ 16 * b.pavg.toNat
  | 0x5D0 => b.revoked.toNat
  | _ => 0

/-- A register of the control block; an unlisted offset reads as zero. Before READY only the boot block answers (R393). -/
def readDcb (s : State) (off : Nat) : Nat :=
  if 0x580 ≤ off then readBootBlock s.boot off
  else if s.boot.bstate != 4 then 0
  else if 0x100 ≤ off && off < 0x500 then readCtxBlock (s.ctx (off / 0x100 - 1)) (off % 0x100)
  else
    let F := s.fleet
    match off with
    | 0x000 => 0x53834
    | 0x008 => s.boot.fwseq.toNat
    | 0x010 => s.boot.live.toNat
    | 0x018 => s.perDie Die.age
    | 0x020 => s.perDie Die.migr
    | 0x028 => if s.host.herrV then 2 ^ 63 + 2 ^ 56 * s.host.herrSt.toNat + s.host.herrAddr.toNat else 0
    | 0x520 => (if F.en then 2 ^ 22 else 0) + 2 ^ 19 * F.dimz.toNat + 2 ^ 15 * F.dimy.toNat + 2 ^ 11 * F.dimx.toNat + F.pkg.toNat
    | 0x528 => packNat 4 F.lst
    | 0x530 => F.monctl.toNat % 2 ^ 16
    | 0x538 => s.monval
    | 0x540 => F.fsel.toNat
    | 0x548 => s.fenceMask
    | 0x550 => (if F.repl then 2 ^ 63 else 0) + 2 ^ 8 * F.rlast.toNat + F.rfirst.toNat
    | _ => 0

/-! ### Writing it -/

/-- The exponents of four dies, each taken where it is in range (R348). -/
def writePerDie (s : State) (v lo hi : Nat) (f : Die → Nat → Die) : State :=
  (List.range 4).foldl (fun (s : State) d =>
    let x := bits v (8 * d) 5
    if lo ≤ x && x ≤ hi then s.onDie d fun D => f D x else s) s

/-- A plain register of a context block (R349, R350): fields marked fixed are written while the context is FREE, and otherwise HERR
logs it. -/
def writeCtxBlock (s : State) (c o v : Nat) : State :=
  let fixed : Bool := o = 0x08 || o = 0x10 || o = 0x18 || o = 0x20
  if fixed && (s.ctx c).state != 0 then s.logError 2 (dcbReg (0x100 + 0x100 * c + o))
  else
    let addr := v % 2 ^ 56
    s.onCtx c fun C =>
      match o with
      | 0x08 => { C with ptroot := addr }
      | 0x10 => { C with pool := addr }
      | 0x18 => { C with fqbase := addr }
      | 0x20 => { C with fqn := v % 2 ^ 5 }
      | 0x38 => { C with naddr := addr }
      | 0x40 => { C with ndata := BitVec.ofNat 64 v }
      | 0x48 => { C with hdl := BitVec.ofNat 13 v }
      | 0x50 => { C with vgrant := C.vgrant.set 0 (BitVec.ofNat 64 v) }
      | 0x58 => { C with vgrant := C.vgrant.set 1 (BitVec.ofNat 64 v) }
      | 0x60 => { C with vgrant := C.vgrant.set 2 (BitVec.ofNat 64 v) }
      | 0x68 => { C with vgrant := C.vgrant.set 3 (BitVec.ofNat 64 v) }
      | 0x70 => { C with visible := bit v 0 }
      | 0x78 => { C with lost := BitVec.ofNat 32 v }
      | _ => C

/-- A plain register of the boot block (R393): a value outside its check is not written. -/
def writeBootBlock (b : Boot) (off v : Nat) : Boot :=
  let host : Bool := v < 2 ^ 48
  match off with
  | 0x588 => if host && v % 4096 = 0 then { b with imgaddr := BitVec.ofNat 56 v } else b
  | 0x590 => { b with imglen := BitVec.ofNat 32 v }
  | 0x5A0 => if host && v % 8 = 0 then { b with nonceaddr := BitVec.ofNat 56 v } else b
  | 0x5A8 => if host && v % 8 = 0 then { b with rspaddr := BitVec.ofNat 56 v } else b
  | 0x5C0 => if 1500 ≤ v % 2 ^ 12 && v % 2 ^ 12 ≤ 3000 then { b with plim := BitVec.ofNat 12 v } else b
  | _ => b

/-- A write to a register without a behaviour of its own (R348, R349, R393, R414). Outside the boot block nothing is written before
READY (R393). -/
def writePlain (s : State) (off : Nat) (v : Word) : State :=
  if 0x580 ≤ off then { s with boot := writeBootBlock s.boot off v.toNat }
  else if s.boot.bstate != 4 then s
  else if 0x100 ≤ off && off < 0x500 then s.writeCtxBlock (off / 0x100 - 1) (off % 0x100) v.toNat
  else
    match off with
    | 0x018 => s.writePerDie v.toNat 10 30 fun D x => { D with age := x }
    | 0x020 => s.writePerDie v.toNat 4 16 fun D x => { D with migr := x }
    | 0x540 => { s with fleet := { s.fleet with fsel := v.setWidth 9 } }
    | 0x550 => { s with fleet := { s.fleet with
        rfirst := v.setWidth 8
        rlast := (v >>> 8).setWidth 8 } }
    | _ => s

/-- A write of a context's state (R349, R350, R390): 1 activates, 2 removes, 0 is never performed, and 3 is refused. -/
def writeState (s : State) (c : Nat) (v : Nat) : State :=
  match v % 4 with
  | 1 => s.activate c
  | 2 => s.startRemoval c
  | 3 => s.logError 2 (dcbReg (0x100 + 0x100 * c))
  | _ => s

/-- A write of one word of the control block. -/
def writeDcb (s : State) (off : Nat) (v : Word) : State :=
  if off = 0x598 then (if v.getLsbD 1 then s.resetNow else if v.getLsbD 0 then s.goNow else s)
  else if off = 0x5B0 then (if v.toNat % 4 = 1 then s.attestNow 1 else if v.toNat % 4 = 2 then s.attestNow 2 else s)
  else if 0x580 ≤ off || s.boot.bstate != 4 then s.writePlain off v
  else if off = 0x028 then (if v = 0 then { s with host := { s.host with herrV := false, herrSt := 0, herrAddr := 0 } } else s)
  else if 0x100 ≤ off && off < 0x500 && off % 0x100 = 0 then s.writeState (off / 0x100 - 1) v.toNat
  else if 0x100 ≤ off && off < 0x500 && off % 0x100 = 0x28 then s.writeHead (off / 0x100 - 1) v
  else if off = 0x520 then s.writePodcfg v
  else if off = 0x530 then s.writeMonctl v
  else s.writePlain off v

/-- Consecutive words of the control block written. -/
def writeDcbs (s : State) (off : Nat) : List Word → State
  | [] => s
  | v :: vs => (s.writeDcb off v).writeDcbs (off + 8) vs

/-! ### Physical memory under ctx 4 -/

/-- The context whose launch pool holds an address. -/
def poolOf (s : State) (pa : Nat) : Option Nat :=
  (List.range 4).find? fun c => (s.ctx c).state != 0 && (s.ctx c).pool ≤ pa && pa < (s.ctx c).pool + 2 ^ 20

/-- A write to launch record i (R351, R352): the words and the field that the device keeps, and w14, are not written; a write that
covers w14 arms the record, unless the record has a word in error (R401). -/
def writeRecordWords (s : State) (c pa : Nat) (ws : List Word) : State × Reply :=
  let o := pa % 256
  let kept := fun (b : Nat) => b = 74 || b = 75 || (88 ≤ b && b < 120)
  let cells := (cellsAt pa (wordsBytes ws)).filter fun q => !kept (q.1 % 256)
  let s := { s.memSet cells with bad := unwritten cells s.bad }
  if o ≤ 112 && 112 < o + 8 * ws.length then
    if (s.ctx c).state != 1 || s.recordSpoiled c ((pa - (s.ctx c).pool) / 256) then (s, .code 2)
    else
      let (st, s) := s.armRecord c ((pa - (s.ctx c).pool) / 256) []
      (s, ⟨0, st, []⟩)
  else (s, .code 0)

/-- The armed WAITs of words that have been written are evaluated (R237). -/
def wakeWords (s : State) (pa n : Nat) : State := (List.range n).foldl (fun (s : State) i => s.wakeArmed (pa + 8 * i)) s

/-- Where an access under ctx 4 goes, of what R369 and R412 place: the package's own remote range is its own memory, and another package
must be in the pod and must not refuse it (R412, R413). -/
def physicalPlace (s : State) (addr : Nat) : Option Nat :=
  if !inRemote addr then some addr
  else
    let pa := s.localOf addr
    if s.remoteOk addr && (tableOk pa || inRemote pa) && (s.barred pa pa).isNone then some pa else none

/-- A write of words to device physical memory. -/
def physicalWrite (s : State) (addr : Nat) (ws : List Word) : State × Reply :=
  match s.physicalPlace addr with
  | none => (s, .code 2)
  | some pa =>
  match s.poolOf pa with
  | some c => s.writeRecordWords c pa ws
  | none =>
    if inRemote pa then (s.sendRequest 4 pa, .code 0)
    else match s.physWrite false (cellsAt pa (wordsBytes ws)) with
      | some s => (s.wakeWords pa ws.length, .code 0)
      | none => (s, .code 2)

/-- A read of words from device physical memory. -/
def physicalRead (s : State) (addr n : Nat) : State × Reply :=
  match s.physicalPlace addr with
  | none => (s, .code 2)
  | some pa =>
  if inRemote pa then let (bs, s) := (s.sendRequest 4 pa).remoteRead pa (8 * n); (s, ⟨0, 0, wordsOf bs n⟩)
  else match s.physRead false pa (8 * n) with
    | some bs => (s, ⟨0, 0, wordsOf bs n⟩)
    | none => (s, .code 2)

/-- Addresses that a transaction under ctx 4 may name. -/
def placed4 (pa n : Nat) : Bool := tableOk pa || inRemote pa || (inDcb pa && pa + 8 * n ≤ dcbBase + 0x600)

/-! ### Memory under ctx 0 to 3 (R347 Table 4) -/

/-- The status of a failed walk. -/
def walkStatus (f : Flt) : Nat := if f.code = 0x03 then 1 else 2

/-- A host read of n words of a page. -/
def virtualRead (s : State) (q : Page) (n : Nat) : State × Reply :=
  if q.cls = 3 || (q.cls = 2 && n != 1) || !q.rd then (s, .code 2)
  else if q.cls = 2 then
    if s.badSync q.pa then (s.mendSync q.pa, .code 2) else (s, ⟨0, 0, [BitVec.ofNat 64 (s.syncRead q.pa 64)]⟩)
  else if q.cls = 1 then
    let here := fun (i : Nat) => s.pres.contains (q.pa / 8 + i)
    let at' := fun (i : Nat) => if here i then (s.physRead q.cmp (q.pa + 8 * i) 8).map fun bs => BitVec.ofNat 64 (ofBytes bs) else some 0
    if (List.range n).any fun i => (at' i).isNone then (s, .code 2)
    else (s, ⟨if (List.range n).all here then 0 else 5, 0, (List.range n).map fun i => (at' i).getD 0⟩)
  else match s.physRead q.cmp q.pa (8 * n) with
    | some bs => (s, ⟨0, 0, wordsOf bs n⟩)
    | none => (s, .code 2)

/-- A host write of words to a page. -/
def virtualWrite (s : State) (c va : Nat) (q : Page) (ws : List Word) : State × Reply :=
  let n := ws.length
  if q.cls = 4 then (s, .code 3)
  else if q.cls = 3 || (q.cls = 2 && n != 1) || !q.wr || (q.cls = 5 && s.pageLive c va q.size) then (s, .code 2)
  else if q.cls = 2 then
    if s.badSync q.pa then (s.mendSync q.pa, .code 2) else (s.syncWrite q.pa 64 (word ws 0), .code 0)
  else if q.cls = 1 then
    if (List.range n).any fun i => s.pres.contains (q.pa / 8 + i) then (s, .code 4)
    else match s.physWrite q.cmp (cellsAt q.pa (wordsBytes ws)) with
      | some s => (State.wakeDeferred { s with pres := (List.range n).foldl (fun ps i => setInsert (q.pa / 8 + i) ps) s.pres }, .code 0)
      | none => (s, .code 2)
  else match s.physWrite q.cmp (cellsAt q.pa (wordsBytes ws)) with
    | some s => (s, .code 0)
    | none => (s, .code 2)

/-- A host read of n words of a page of another package: by the page's class as of this package (R347, R412). What is there, and which
words of a presence page are present, that package knows: free values (log entry 22). -/
def remotePageRead (s : State) (c : Nat) (q : Page) (n : Nat) : State × Reply :=
  if q.cls = 3 || (q.cls = 2 && n != 1) || !q.rd then (s, .code 2)
  else
    let (bs, s) := (s.sendRequest c q.pa).remoteRead q.pa (8 * n)
    let ws := wordsOf bs n
    if q.cls = 1 then
      let (x, s) := s.draw
      (s, ⟨if (List.range n).all x.getLsbD then 0 else 5, 0, (List.range n).map fun i => if x.getLsbD i then word ws i else 0⟩)
    else (s, ⟨0, 0, ws⟩)

/-- A host write of n words to a page of another package, in the same way; a presence word may be present there. -/
def remoteWrite (s : State) (c va : Nat) (q : Page) (n : Nat) : State × Reply :=
  if q.cls = 4 then (s, .code 3)
  else if q.cls = 3 || (q.cls = 2 && n != 1) || !q.wr || (q.cls = 5 && s.pageLive c va q.size) then (s, .code 2)
  else
    let s := s.sendRequest c q.pa
    if q.cls = 1 then let (x, s) := s.draw; (s, .code (if x.getLsbD 0 then 4 else 0))
    else (s, .code 0)

/-- A host access under ctx 0 to 3; none for a read, the words of a write. A context that is not ACTIVE answers PROT (R390). -/
def virtualAccess (s : State) (c va n : Nat) (data : Option (List Word)) : State × Reply :=
  if (s.ctx c).state != 1 then (s, .code 2)
  else match s.walk c va (if data.isSome then 1 else 0) with
    | .error f => (s, .code (walkStatus f))
    | .ok q0 =>
      let q : Page := { q0 with pa := s.localOf q0.pa }
      let s := s.noteCmp q
      if inRemote q.pa then
        if (s.barred q.pa va).isSome then (s, .code 2)
        else match data with
          | some _ => s.remoteWrite c va q n
          | none => s.remotePageRead c q n
      else match data with
        | none => s.virtualRead q n
        | some ws => s.virtualWrite c va q ws

/-! ### Transactions -/

/-- A transaction of a class waits: a translation fence of the class that the host has sent is not acknowledged, or one before it waits
(R346, R375). -/
def behindFence (s : State) (h : TxHdr) : Bool :=
  (s.fences.any fun f => f.t.isNone && f.ocls == h.ocls.toNat) || s.host.waiting.any fun x => x.h.ocls == h.ocls

/-- A completion goes to the host. -/
def complete' (s : State) (h : TxHdr) (r : Reply) : State :=
  { s with host := { s.host with cpls := s.host.cpls ++ [⟨h.tag.toNat, r.status, r.astat, r.data⟩] } }

/-- Before READY the mainband reaches the boot block alone (R393). -/
def shut (s : State) (h : TxHdr) : Bool :=
  s.boot.bstate != 4 && !(h.ctx == 4 && dcbBase + 0x580 ≤ h.addr.toNat && h.addr.toNat < dcbBase + 0x600)

/-- A read or a write that passes the header checks; none where a ctx 4 address is placed nowhere. Words of the command block take
one WRC of exactly its 32 bytes (R380). -/
def access (s : State) (h : TxHdr) (wrc : Bool) (data : Option (List Word)) : Option (State × Reply) :=
  let a := h.addr.toNat
  let n := h.len.toNat + 1
  if h.ctx != 4 then some (s.virtualAccess h.ctx.toNat a n data)
  else if !placed4 a n then none
  else if inDcb a then
    let off := a - dcbBase
    match data with
    | none => some (s, ⟨0, 0, (List.range n).map fun i => BitVec.ofNat 64 (s.readDcb (off + 8 * i))⟩)
    | some ws =>
      if 0x500 ≤ off && off < 0x520 then
        if wrc && off = 0x500 && n = 4 then some (s.acceptCommand ⟨ws.getD 0 0, ws.getD 1 0, ws.getD 2 0, ws.getD 3 0⟩, .code 0)
        else some (s, .code 6)
      else some (s.writeDcbs off ws, .code 0)
  else match data with
    | none => some (s.physicalRead a n)
    | some ws => some (s.physicalWrite a ws)

/-- What forbids an append to write the new entry or the link of the former tail, as a status: the tail's page, a malformed block, or another
package that refuses it or cannot be reached (R251, R288, R372, R412; log entry 59). -/
def appendStatus (s : State) (c entry tail : Nat) : Option Nat :=
  if (s.appendSpoils c entry tail).isSome || (s.placeOfEntry c entry).any fun p => (s.barred p.1 entry).isSome then some 2
  else if tail = 0 then none
  else match s.walk c (tail + 72) 1 with
    | .error f => some (walkStatus f)
    | .ok q => if q.cls != 0 || !q.wr || (s.barred (s.localOf q.pa) (tail + 72)).isSome then some 2 else none

/-- A write that a host's append makes of an entry leaves for another package, where the entry lies there (R276, R412). -/
def leaveFor (s : State) (c pa : Nat) : State := if inRemote pa then s.sendRequest c pa else s

/-- APPEND (R367): the append step of a chain, at its descriptor's home. -/
def hostAppend (s : State) (c desc entry : Nat) : State × Reply :=
  if (s.ctx c).state != 1 then (s, .code 2)
  else match s.walk c desc 2, s.walk c entry 1 with
    | .error f, _ => (s, .code (walkStatus f))
    | _, .error f => (s, .code (walkStatus f))
    | .ok q, .ok e =>
      if q.cls != 2 || !q.permits 2 || entry % 128 != 0 || e.cls != 0 || !e.wr then (s, .code 2)
      else
        let pa := s.localOf q.pa
        let s := s.noteCmp { q with pa := pa }
        if inRemote pa then
          if (s.barred pa desc).isSome then (s, .code 2)
          else match s.appendStatus c entry 0 with
          | some st => (s, .code st)
          | none =>
            let (x, s) := ((s.sendRequest c pa).leaveFor c (s.localOf e.pa)).draw
            (s.enterEntry e.cmp (s.localOf e.pa) x.toNat [], ⟨0, 0, [x]⟩)
        else match s.badWords pa with
          | b :: bs => ((b :: bs).foldl State.mendSync s, .code 2)
          | [] => match s.appendStatus c entry (s.homeWord pa) with
            | some st => (s, .code st)
            | none =>
              let link := if s.homeWord pa = 0 then none else s.placeOfEntry c (s.homeWord pa + 72)
              let s := s.leaveFor c (s.localOf e.pa)
              let s := match link with | some l => s.leaveFor c l.1 | none => s
              let (n, s) := s.appendEntry pa entry (s.localOf e.pa) e.cmp [] link
              (s.wakeChain c pa desc, ⟨0, 0, [BitVec.ofNat 64 n]⟩)

/-- A transaction is performed after those of its class before it (R346); one of a reserved kind is not performed, and as the spec does not
say whether such a kind is posted, it is either completed with BADREQ or logged (R345). -/
def inClass (s : State) (kind : Nat) (h : TxHdr) (data : List Word) (k : State → Host.Outcome State Fault Refusal) : Host.Outcome State Fault Refusal :=
  if kindReserved h then
    let (x, s) := s.draw
    .next (if x.getLsbD 0 then s.logError 6 h.addr.toNat else s.complete' h (.code 6))
  else if s.behindFence h then .next { s with host := { s.host with waiting := s.host.waiting ++ [⟨kind, h, data⟩] } }
  else k s

end State

/-- RD (R345, R347). -/
def execRd (h : TxHdr) (s : State) : Host.Outcome State Fault Refusal :=
  s.inClass 0 h [] fun s =>
  if hdrBad h || s.shut h then .next (s.complete' h (.code 6))
  else match s.access h false none with
    | some (s, r) => .next (s.complete' h r)
    | none => .fault .noSuchAddress

/-- WR (R345, R348): posted; a failure is logged. -/
def execWr (h : TxHdr) (data : List Word) (s : State) : Host.Outcome State Fault Refusal :=
  s.inClass 1 h data fun s =>
  if hdrBad h || s.shut h then .next (s.logError 6 h.addr.toNat)
  else match s.access h false (some (txWords h data)) with
    | some (s, r) => .next (if r.status = 0 then s else s.logError r.status h.addr.toNat)
    | none => .fault .noSuchAddress

/-- WRC (R345, R352, R380). -/
def execWrc (h : TxHdr) (data : List Word) (s : State) : Host.Outcome State Fault Refusal :=
  s.inClass 2 h data fun s =>
  if hdrBad h || s.shut h then .next (s.complete' h (.code 6))
  else match s.access h true (some (txWords h data)) with
    | some (s, r) => .next (s.complete' h r)
    | none => .fault .noSuchAddress

/-- APPEND (R367). -/
def execAppend (h : TxHdr) (data : List Word) (s : State) : Host.Outcome State Fault Refusal :=
  s.inClass 3 h data fun s =>
  .next (if hdrBad h || s.shut h || h.ctx = 4 || h.len != 0 then s.complete' h (.code 6)
    else
      let (s, r) := s.hostAppend h.ctx.toNat h.addr.toNat (word data 0)
      s.complete' h r)

/-- FLUSH (R345): it completes once every earlier transaction of its class has been performed. -/
def execFlush (h : TxHdr) (s : State) : Host.Outcome State Fault Refusal :=
  s.inClass 4 h [] fun s =>
  .next (s.complete' h (.code (if hdrBad h || s.shut h then 6 else 0)))

/-- TFENCE from the host (R375): it completes once every die has acknowledged it. -/
def execHostTfence (h : TxHdr) (data : List Word) (s : State) : Host.Outcome State Fault Refusal :=
  s.inClass 5 h data fun s =>
  .next (if hdrBad h || s.shut h || h.ctx = 4 || h.len != 0 || h.addr.toNat % 4096 != 0 || word data 0 % 4096 != 0 then s.complete' h (.code 6)
    else if (s.ctx h.ctx.toNat).state = 2 then s.complete' h (.code 2)
    else { s with fences := s.fences ++ [⟨h.ctx.toNat, h.addr.toNat, word data 0, [0, 1, 2, 3], none, h.tag.toNat, h.ocls.toNat⟩] })

/-- A host transaction that has waited for its class is performed (R346). -/
def performTx (x : HostTx) (s : State) : Host.Outcome State Fault Refusal :=
  match x.kind with
  | 0 => execRd x.h s
  | 1 => execWr x.h x.data s
  | 2 => execWrc x.h x.data s
  | 3 => execAppend x.h x.data s
  | 4 => execFlush x.h s
  | _ => execHostTfence x.h x.data s

/-- CPL (R345): the answer to an RD of the device brings words of host memory: to a controller its copy of the image (R395), or a nonce.
A failed one ends the fetch with FETCH, or an attestation with an error (R400). -/
def execCpl (h : TxHdr) (data : List Word) (s : State) : Host.Outcome State Fault Refusal :=
  .next (match s.host.asked.find? fun q => q.1 == h.tag.toNat with
    | none => s
    | some (tag, _, n) =>
      let s := { s with host := { s.host with asked := s.host.asked.filter fun q => q.1 != tag } }
      if tag < 4 then
        if s.boot.bstate != 2 then s
        else if h.status = 0 then s.onDie tag fun D => { D with image := some (wordsBytes (data.take n)) }
        else s.enterRecovery 2
      else if h.status = 0 then { s with boot := { s.boot with nonce := wordsBytes (data.take n) } }
      else if s.boot.attst = 1 then s.attestError else s)

/-- UCIE_CRC_REPLAY (R344): a unit is replayed; transactions do not see it. -/
def execUcieCrcReplay (m : Nat) (s : State) : Host.Outcome State Fault Refusal :=
  .next (if s.host.modules.getLsbD m then { s with host := { s.host with replays := s.host.replays + 1 } } else s)

/-- UCIE_MODULE_FAIL (R343, R420): the link runs on the other modules; the loss is counted, on die 0 (log entry 66), and
REPLACE raised. -/
def execUcieModuleFail (m : Nat) (s : State) : Host.Outcome State Fault Refusal :=
  .next (if !s.host.modules.getLsbD m then s
    else
      let s := { s with host := { s.host with modules := s.host.modules &&& ~~~(1#16 <<< m) } }
      (s.count 0 .moduleLost).replacePart 9)

/-- REGISTER_WRITE (R348, R349, R393, R414): a register of the control block without a behaviour of its own. -/
def execRegisterWrite (off : Nat) (v : Word) (s : State) : Host.Outcome State Fault Refusal :=
  .next (if off % 8 = 0 && off < 0x600 then s.writePlain off v else s)

end Sys2Proof.Machine
end

