-- ==== Sys2Proof/Machine/Logic.lean ====
section
/-! DEFINITION. Logical and bit operations: Table 2 of R131, the bit fields of R132 and the immediate forms. All work on
the w-bit patterns of their elements. -/

namespace Sys2Proof.Machine

/-- n places left; 0 when n ≥ w. -/
def shlCode (w a n : Nat) : Nat := if w ≤ n then 0 else a * 2 ^ n % 2 ^ w
/-- n places right with zero fill; 0 when n ≥ w. -/
def shrCode (w a n : Nat) : Nat := if w ≤ n then 0 else a / 2 ^ n
/-- n places right, filling with bit w − 1. -/
def shaCode (w a n : Nat) : Nat := wrap (sext a w / 2 ^ min n w) w
/-- Rotation left by n mod w places. -/
def rotCode (w a n : Nat) : Nat := let k := n % w; (a * 2 ^ k + a / 2 ^ (w - k)) % 2 ^ w
/-- len of BEXT and BINS. -/
def lenOf (f : FmtA) : Nat := bits f.mod.toNat 0 6 + 1
/-- BEXT (R132). -/
def bextCode (int : Bool) (w len a pos : Nat) : Nat :=
  let x := a / 2 ^ pos % 2 ^ len
  if int then wrap (sext x len) w else x % 2 ^ w
/-- BINS (R132). -/
def binsCode (w len a b pos : Nat) : Nat :=
  let m := ((2 ^ len - 1) * 2 ^ pos) % 2 ^ w
  (a &&& (2 ^ w - 1 - m)) ||| ((b * 2 ^ pos) &&& m)

namespace State

/-- A bit operation of Format A on the patterns of its elements. `nat` marks a NAT result whatever the type (R131). -/
def bitOp (s : State) (f : FmtA) (n : Nat) (nat : Bool) (g : Nat → Nat → Nat → Nat → Nat) : State :=
  let w := Spec.tyWidth f.ty.toNat
  s.alu f n fun m T =>
    T.writeElems f.dst m w (Spec.tyInt f.ty.toNat && !nat) fun i => g w (T.srcElem f.sa w i) (T.srcElem f.sb w i) (T.srcElem f.sc w i)

/-- A logical immediate form (R81, R131). -/
def bitImm (s : State) (f : FmtI) (g : Nat → Nat → Nat → Nat) : State :=
  let w := immWidth f
  s.aluI f true fun m T => T.writeElems f.dst m w true fun i => g w (T.srcElem f.sa w i) (immAt f w)

end State

/-- AND (R131). -/
def execAnd (f : FmtA) (s : State) : Host.Outcome State Fault Refusal := .next (s.bitOp f 2 false fun _ a b _ => a &&& b)
/-- OR (R131). -/
def execOr (f : FmtA) (s : State) : Host.Outcome State Fault Refusal := .next (s.bitOp f 2 false fun _ a b _ => a ||| b)
/-- XOR (R131). -/
def execXor (f : FmtA) (s : State) : Host.Outcome State Fault Refusal := .next (s.bitOp f 2 false fun _ a b _ => a ^^^ b)
/-- NOT (R131). -/
def execNot (f : FmtA) (s : State) : Host.Outcome State Fault Refusal := .next (s.bitOp f 1 false fun w a _ _ => 2 ^ w - 1 - a)
/-- ANDN (R131): a AND NOT b. -/
def execAndn (f : FmtA) (s : State) : Host.Outcome State Fault Refusal := .next (s.bitOp f 2 false fun w a b _ => a &&& (2 ^ w - 1 - b))
/-- SHL (R131): n is ZeroExtend(b, 8). -/
def execShl (f : FmtA) (s : State) : Host.Outcome State Fault Refusal := .next (s.bitOp f 2 false fun w a b _ => shlCode w a (b % 256))
/-- SHR (R131). -/
def execShr (f : FmtA) (s : State) : Host.Outcome State Fault Refusal := .next (s.bitOp f 2 false fun w a b _ => shrCode w a (b % 256))
/-- SHA (R131). -/
def execSha (f : FmtA) (s : State) : Host.Outcome State Fault Refusal := .next (s.bitOp f 2 false fun w a b _ => shaCode w a (b % 256))
/-- ROT (R131). -/
def execRot (f : FmtA) (s : State) : Host.Outcome State Fault Refusal := .next (s.bitOp f 2 false fun w a b _ => rotCode w a (b % 256))
/-- CLZ (R131). -/
def execClz (f : FmtA) (s : State) : Host.Outcome State Fault Refusal :=
  .next (s.bitOp f 1 true fun w a _ _ => Sys2Proof.Machine.clz a w)
/-- POPC (R131). -/
def execPopc (f : FmtA) (s : State) : Host.Outcome State Fault Refusal := .next (s.bitOp f 1 true fun w a _ _ => popcount a w)
/-- BREV (R131). -/
def execBrev (f : FmtA) (s : State) : Host.Outcome State Fault Refusal := .next (s.bitOp f 1 true fun w a _ _ => bitReverse a w)
/-- BEXT (R132). -/
def execBext (f : FmtA) (s : State) : Host.Outcome State Fault Refusal :=
  .next (s.bitOp f 2 false fun w a b _ => bextCode (Spec.tyInt f.ty.toNat) w (lenOf f) a (b % 256))
/-- BINS (R132). -/
def execBins (f : FmtA) (s : State) : Host.Outcome State Fault Refusal :=
  .next (s.bitOp f 3 false fun w a b c => binsCode w (lenOf f) a b (c % 256))

/-- AND, immediate form (R131). -/
def execAndImm (f : FmtI) (s : State) : Host.Outcome State Fault Refusal := .next (s.bitImm f fun _ a b => a &&& b)
/-- OR, immediate form. -/
def execOrImm (f : FmtI) (s : State) : Host.Outcome State Fault Refusal := .next (s.bitImm f fun _ a b => a ||| b)
/-- XOR, immediate form. -/
def execXorImm (f : FmtI) (s : State) : Host.Outcome State Fault Refusal := .next (s.bitImm f fun _ a b => a ^^^ b)
/-- ANDN, immediate form. -/
def execAndnImm (f : FmtI) (s : State) : Host.Outcome State Fault Refusal := .next (s.bitImm f fun w a b => a &&& (2 ^ w - 1 - b))
/-- SHL, immediate form: n = imm. -/
def execShlImm (f : FmtI) (s : State) : Host.Outcome State Fault Refusal := .next (s.bitImm f fun w a _ => shlCode w a f.imm.toNat)
/-- SHR, immediate form. -/
def execShrImm (f : FmtI) (s : State) : Host.Outcome State Fault Refusal := .next (s.bitImm f fun w a _ => shrCode w a f.imm.toNat)
/-- SHA, immediate form. -/
def execShaImm (f : FmtI) (s : State) : Host.Outcome State Fault Refusal := .next (s.bitImm f fun w a _ => shaCode w a f.imm.toNat)
/-- ROT, immediate form. -/
def execRotImm (f : FmtI) (s : State) : Host.Outcome State Fault Refusal := .next (s.bitImm f fun w a _ => rotCode w a f.imm.toNat)

end Sys2Proof.Machine
end

