-- ==== Sys2Proof/Machine/Mit.lean ====
section
/-! DEFINITION. Events of the memory-interface tiles and of the translation caches: block reads for loads (R287, R288), the halving
of the access counters (R289), and the acknowledgement of a translation fence (R158, R375). -/

namespace Sys2Proof.Machine

namespace State

/-- The k-th block read, tried by a region that is not stopped: its bytes are delivered, or `bad` is done. One made again after a DECMP is
a new request (R289); each refetch is counted (R417). -/
def mitTry (s : State) (k : Nat) (refetch : Bool) (bad : State → MitReq → State) : State :=
  match s.mit[k]? with
  | none => s
  | some q =>
    match s.active q.t with
    | none => s
    | some (_, g) =>
      if (q.phase == 1) != refetch then s
      else
      let s := if refetch then s.count (dieOf q.t) .zmbRefetch else if q.phase = 2 then s.touch ⟨q.t, 0, 0, q.widx⟩ q.ctx q.va q.pa else s
      match s.taskRead g q.cmp q.pa q.size with
        | some bs =>
          let v := if q.signed then BitVec.ofNat 512 (extend (ofBytes bs) (8 * q.size) true).toNat else BitVec.ofNat 512 (ofBytes bs)
          { s with mit := s.mit.eraseIdx k }.onTile q.t fun T => T.deliver q.op v
        | none => bad s q

end State

/-- MIT_BLOCK_READ (R288 step 1): a malformed block is to be fetched once more. -/
def execMitBlockRead (k : Nat) (s : State) : Host.Outcome State Fault Refusal :=
  .next (s.mitTry k false fun s _ => { s with mit := s.mit.modify k fun q => { q with phase := 1 } })

/-- MIT_REFETCH (R288 step 3): the block fetched again; still malformed, the load raises DECMP and is made again when its region
goes on. -/
def execMitRefetch (k : Nat) (s : State) : Host.Outcome State Fault Refusal :=
  .next (s.mitTry k true fun s q =>
    State.raise { s with mit := s.mit.modify k fun q => { q with phase := 2 } } ⟨q.t, 0, 0, q.widx⟩ (.decmp (q.va / 256 * 256)))

/-- COUNTER_HALVING (R289): every 2^26 clk. -/
def execCounterHalving (d : Nat) (s : State) : Host.Outcome State Fault Refusal :=
  .next (if s.time < (s.die d).halveAt then s
    else s.onDie d fun D => { D with
      access := D.access.map fun q => (q.1, q.2 / 2)
      halveAt := s.time + 2 ^ 26 })

/-- A cached translation that a fence covers; length 0 covers the context (R158). -/
def Fence.covers (f : Fence) (e : TlbEntry) : Bool :=
  e.ctx == f.ctx && (f.len == 0 || State.overlaps e.va (2 ^ e.size) f.lo f.len)

/-- The host's transactions of a class that wait are performed in order (R346). -/
def State.releaseClass (s : State) (k : Nat) : State :=
  let (now, rest) := s.host.waiting.partition fun x => x.h.ocls.toNat == k
  State.push { s with host := { s.host with waiting := rest } } (now.map Turn.tx)

/-- TFENCE_ACK (R158, R375): the next die of the k-th fence drops what the fence covers from its walker, its table pointers
and its ISEs, and acknowledges; a host's fence then completes, and what waited behind it in its class goes on. -/
def execTfenceAck (k : Nat) (s : State) : Host.Outcome State Fault Refusal :=
  .next (match s.fences[k]? with
    | none => s
    | some f =>
      match f.left with
      | [] => if f.t.isSome then s else
        State.releaseClass { s with
          fences := s.fences.eraseIdx k
          host := { s.host with cpls := s.host.cpls ++ [⟨f.tag, 0, 0, []⟩] } } f.ocls
      | d :: rest =>
        let s := s.onDie d fun D => { D with
          tlb := D.tlb.filter fun e => !f.covers e
          ptrs := D.ptrs.filter fun e => !f.covers e
          ise := D.ise.map fun es => es.filter fun e => !f.covers e }
        { s with fences := s.fences.modify k fun f => { f with left := rest } })

end Sys2Proof.Machine
end

