-- ==== Sys2Proof/Machine/Preds.lean ====
section
/-! DEFINITION. Predicate operations (R137). -/

namespace Sys2Proof.Machine

namespace State

/-- A predicate operation with a P destination. -/
def predOp (s : State) (f : FmtA) (g : Mask → Mask → Mask) : State :=
  s.alu f 2 fun m T => T.writeP (f.dst.toNat - 56) (g (T.srcPred f.sa) (T.srcPred f.sb)) m

end State

/-- PAND (R137). With mod[0] the lanes of the effective mask whose result is 0 leave the bead; a bead left with none
retires and leaves the program (R19). -/
def execPand (f : FmtA) (s : State) : Host.Outcome State Fault Refusal :=
  if f.mod.getLsbD 0 then
    let m := s.me.effMask f.pg f.ps
    .next (s.issue (executes m true) [] fun s =>
      let v := s.me.srcPred f.sa &&& s.me.srcPred f.sb
      let left := s.me.lmask &&& ~~~(m &&& ~~~v)
      let s := s.onMe fun T => (T.writeP (f.dst.toNat - 56) v m).onHead fun b => { b with lmask := left }
      if left = 0 then s.leave else s.advance)
  else .next (s.predOp f fun a b => a &&& b)

/-- POR (R137). -/
def execPor (f : FmtA) (s : State) : Host.Outcome State Fault Refusal := .next (s.predOp f fun a b => a ||| b)
/-- PXOR (R137). -/
def execPxor (f : FmtA) (s : State) : Host.Outcome State Fault Refusal := .next (s.predOp f fun a b => a ^^^ b)
/-- PNOT (R137). -/
def execPnot (f : FmtA) (s : State) : Host.Outcome State Fault Refusal :=
  .next (s.alu f 1 fun m T => T.writeP (f.dst.toNat - 56) (~~~T.srcPred f.sa) m)

/-- PCNT (R137): the popcount of the predicate in the bead's lanes, in every active lane. -/
def execPcnt (f : FmtA) (s : State) : Host.Outcome State Fault Refusal :=
  .next (s.alu f 1 fun m T =>
    T.writeV f.dst (splat (BitVec.ofNat 32 (popcount (T.srcPred f.sa &&& T.lmask).toNat 16))) m)

end Sys2Proof.Machine
end

