-- ==== Sys2Proof/Machine/Weights.lean ====
section
/-! DEFINITION. Seeded weights, hashing, and the transforms of tiles (R222 to R230), and the two phases of every matrix
instruction as events (R206, R214). -/

namespace Sys2Proof.Machine

/-! ### Issue -/

/-- SEEDX (R225). -/
def execSeedx (f : FmtX) (s : State) : Host.Outcome State Fault Refusal :=
  matrixOp s f (.seedx f) (operandSrcs f.ak f.sa 0 ++ operandSrcs f.bk f.sb 1) false (operandWords f)

/-- SFIT (R226). -/
def execSfit (f : FmtX) (s : State) : Host.Outcome State Fault Refusal :=
  matrixOp s f (.sfit f) (operandSrcs f.ak f.sa 0 ++ operandSrcs f.bk f.sb 1) true (operandWords f)

/-- SSRCH (R227). -/
def execSsrch (f : FmtX) (s : State) : Host.Outcome State Fault Refusal :=
  matrixOp s f (.ssrch f) (operandSrcs f.ak f.sa 0 ++ operandSrcs f.bk f.sb 1) true (operandWords f)

/-- LSHB (R228). -/
def execLshb (f : FmtX) (s : State) : Host.Outcome State Fault Refusal :=
  matrixOp s f (.lshb f) (operandSrcs f.ak f.sa 0 ++ operandSrcs f.bk f.sb 1) true (operandWords f)

/-- TPOSE (R229). -/
def execTpose (f : FmtX) (s : State) : Host.Outcome State Fault Refusal :=
  matrixOp s f (.tpose f) (operandSrcs f.ak f.sa 0 ++ operandSrcs f.bk f.sb 1) false (operandWords f)

/-- QUANT (R229): under SR its draws are the element's own, one for each element, made in program order (R111). -/
def execQuant (f : FmtX) (s : State) : Host.Outcome State Fault Refusal :=
  let n := Spec.shapeM f.mc * Spec.shapeK f.kc
  let m := s.me.effMask f.pg f.ps
  .next (s.issue (executes m false) (operandSrcs f.ak f.sa 0 ++ operandSrcs f.bk f.sb 1) fun s =>
    if s.acquiring || 4 ≤ s.me.mxc.queue.length then s
    else
      (s.onMe fun T =>
        let (g, ds) := if f.sc = 5 then srDraws n T.gsr else (T.gsr, [])
        let o := MatOp.fresh T (.quant f) m (T.pair f.sa) (T.pair f.sb) (ds.map (BitVec.ofNat 64)) none
        { T with gsr := g, mxc := { T.mxc with queue := T.mxc.queue ++ [o] } }).advance)

/-- DEQ (R229). -/
def execDeq (f : FmtX) (s : State) : Host.Outcome State Fault Refusal :=
  matrixOp s f (.deq f) (operandSrcs f.ak f.sa 0 ++ operandSrcs f.bk f.sb 1) false (operandWords f)

/-! ### Destinations (R210, R211, R213, R229) -/

/-- A tile of codes as it lies in memory: its header, then panel by panel its rows and their side records. `rows` holds the
element codes of each row and `sides` the side records of its blocks. Where rotated rows fall on one address the later row stands there: a
choice, which R211 leaves open (log entry 66). -/
def tileBytes (d : Desc) (c k : Nat) (rows sides : List (List Nat)) : List (Nat × List Byte) :=
  let R := rows.length
  let per := min k 32
  let hdr := if d.hdr = 1 then [(d.addr, bytesOf 8 (c + 2 ^ 8 * R + 2 ^ 16 * k))] else []
  hdr ++ (List.range (max 1 (k / 32))).flatMap fun t =>
    ((List.range R).flatMap fun r =>
      let bs := bytesOf (rowBytes c per) (packNat (elemBits c) (((rows.getD r []).drop (t * per)).take per))
      let runs := d.rowRuns r (d.data + t * d.tp + r * d.rp) bs.length
      (runs.foldl (fun q x => (q.1 ++ [(x.1, q.2.take x.2)], q.2.drop x.2)) (([] : List (Nat × List Byte)), bs)).1)
    ++ (if inBlocks c then (List.range R).map fun r =>
          let nb := ceilDiv per (blockLen c)
          (d.data + t * d.tp + R * d.rp + r * sidePitch c, bytesOf (nb * sideBytes c) (packNat (8 * sideBytes c) (((sides.getD r []).drop (t * nb)).take nb)))
        else [])

/-- Where bytes of a destination go: carve-out bytes, or speculative stores (R213). -/
def placeBytes (s : State) (p : Site) (d : Desc) : List (Nat × List Byte) → Reading (List HeldStore × List (Nat × Byte))
  | [] => (s, .ok ([], []))
  | (a, bs) :: rest =>
    let stores (va : Nat) (w : Want) (label : Flt → Flt) : Reading (List HeldStore × List (Nat × Byte)) :=
      match s.storesOf (s.ctxOf p.t) p w va bs with
      | (s, .error e) => (s, .error (.fault (label e)))
      | (s, .ok hs) => (placeBytes s p d rest).and fun x s => (s, .ok (hs ++ x.1, x.2))
    if d.spc = 2 then stores a .store id
    else if d.spc = 1 then (s, .error (.fault (.prot d.addr 3)))
    else if a < d.kib * 1024 then
      (placeBytes s p d rest).and fun x s => (s, .ok (x.1, cellsAt (d.base * 1024 + a) bs ++ x.2))
    else match spillBase s p.t with
      | some o => if a < 2 ^ 24 then stores (o + a) (.spill true) d.labelled else (s, .error .exhaust)
      | none => (s, .error .exhaust)

/-- The bytes of a write, cut so that no piece crosses the end of the carve-out. -/
def cutBytes (q : Nat × List Byte) : List (Nat × List Byte) :=
  ((cuts 512 (q.2.length / 512 + 2) q.1 q.2.length).foldl (fun x c => (x.1 ++ [(c.1, x.2.take c.2)], x.2.drop c.2))
    (([] : List (Nat × List Byte)), q.2)).1

/-- The stores of a destination tile, checked (R209, R210, R213, R214). -/
def stageTile (s : State) (p : Site) (o : MatOp) (d : Desc) (c k : Nat) (rows sides : List (List Nat)) (clk : Nat) : Reading MatOp :=
  demand s (d.ok 8 && d.pitchOk c rows.length k (min k 32)) (.prot d.addr 6) <|
  (placeBytes s p d ((tileBytes d c k rows sides).flatMap cutBytes)).and fun x s => (s, .ok { o with held := x.1, cells := x.2, due := clk })

/-! ### Values (R225 to R229) -/

/-- SEEDX's conversion (R225); the code of a value in a plain format, sat = 1 (R112 Table 8). -/
def plainCode (c rm draw : Nat) (v : Val) : Nat :=
  match intFmt c with
  | some (int, w) => toInteger int w rm draw v
  | none => convert (fmtOfCode c) rm true draw v

def seedCode (c : Nat) (v : Val) : Nat :=
  match v, intFmt c with
  | .nan _ _, none => (fmtOfCode c).defaultNaN
  | v, _ => plainCode c 0 0 v

/-- A fit (R226). -/
structure Fit where
  coefs : List Nat
  rnorm : Nat
  scale : Nat
  deriving DecidableEq, Repr

def positive (q : Q) : Q := if q.isZero then Q.ofNat 0 else q

/-- One basis of a fit: the coefficient, and the residuals left (R226). -/
def fitStep (D : Nat) (signs : List Bool) (res : List Q) : Nat × List Q :=
  let with' (q : Q) (minus : Bool) : Q := if minus then q.negate else q
  let sum := positive ((List.range res.length).foldl (fun a i => Q.add false a (with' (res.getD i (Q.ofNat 0)) (signs.getD i false))) (Q.ofNat 0))
  let coef := round bf16 0 false 0 (sum.div (Q.ofNat D))
  match bf16.value coef with
  | .fin c => (coef, (List.range res.length).map fun i => Q.add false (res.getD i (Q.ofNat 0)) (with' c (!signs.getD i false)))
  | _ => (coef, res)

def fitSteps (D : Nat) : List (List Bool) → List Q → List Nat × List Q
  | [], res => ([], res)
  | b :: bs, res =>
    let (c, res) := fitStep D b res
    let (cs, res) := fitSteps D bs res
    (c :: cs, res)

/-- SFIT's procedure for a target held as n columns of k elements, column by column (R226). -/
def fit (ts : List Val) (k n : Nat) (seed : BitVec 32) (C : Nat) : Fit :=
  let qs := ts.filterMap fun v => match v with | .fin q => some q | _ => none
  if qs.length < ts.length then ⟨List.replicate C 0x7FC0, 0x7FC00000, 127⟩
  else
    let a := largest qs
    let X : Int := if a.isZero then 0 else min (max a.flog2 (-127)) 127
    let signs := (List.range C).map fun q =>
      let b := basis seed q
      (List.range (k * n)).map fun i => b.getD (32 * (i % k) + i / k) false
    let (coefs, res) := fitSteps (k * n) signs (qs.map (·.scale (-X)))
    let order := (List.range k).flatMap fun x => (List.range n).map fun j => j * k + x
    let rnorm := order.foldl (fun r i =>
      let e := (res.getD i (Q.ofNat 0)).scale X
      match fp32.value r with
      | .fin q => round fp32 0 false 0 (Q.add false q (e.mul e))
      | _ => r) 0
    ⟨coefs, rnorm, (X + 127).toNat⟩

/-- The record of a fit (Table 6). -/
def fitRecord (x : Fit) (seed : BitVec 32) (C tfmt : Nat) : Nat :=
  seed.toNat + 2 ^ 32 * C + 2 ^ 48 * x.scale + 2 ^ 56 * tfmt + 2 ^ 64 * packNat 16 x.coefs + 2 ^ 192 * x.rnorm

/-- SSRCH's winner (R227): its fit, seed and index. A NaN norm has the greatest code, and no norm is negative. -/
def search (ts : List Val) (k n : Nat) (seed : BitVec 32) (C cnt : Nat) : Fit × BitVec 32 × Nat :=
  let try' (i : Nat) : Fit × BitVec 32 × Nat := let σ := seed + BitVec.ofNat 32 i; (fit ts k n σ C, σ, i)
  (List.range (cnt - 1)).foldl (fun best i =>
    let x := try' (i + 1)
    if x.1.rnorm < best.1.rnorm || (x.1.rnorm == best.1.rnorm && x.2.1.toNat < best.2.1.toNat) then x else best) (try' 0)

/-- LSHB's hash of one key (R228): `signs` holds the basis. -/
def hashKey (key : List Val) (signs : List Bool) (n : Nat) : Nat :=
  packNat 1 ((List.range n).map fun b =>
    let terms := (List.range 32).map fun x => let v := key.getD x Val.default; if signs.getD (32 * x + b) false then v.neg else v
    match terms with
    | [] => 0
    | t :: ts =>
      let p := ts.foldl (Val.add false) t
      if p.isNan || (p.sign && !p.isZero) then 1 else 0)

/-! ### Operand phases -/

/-- SEEDX (R225): the record, then the destination. DESIGN CHOICE: a fault of the record (B) comes before one of the destination (A), whose
format the record may name (log entry 55). -/
def stageSeedx (s : State) (p : Site) (o : MatOp) (f : FmtX) : Reading MatOp :=
  let k := Spec.shapeK f.kc
  let n := Spec.shapeM f.nc
  let d := o.desc o.a
  let va := if f.bk = 0 then 0 else (o.desc o.b).data
  (readOperand s p o f.bk o.b 23 n k k (fun _ => false)).and fun (_, rec') s =>
    let c := if f.fmtA = 31 then bits (word rec' 0) 56 8 else f.fmtA.toNat
    demand s (Spec.plainFmt c) (.prot va 6) <|
      let bs := seedBases rec' 1
      let rows := (List.range n).map fun j => (seedColumn rec' bs k j).map (seedCode c)
      stageTile s p o d c k rows [] (4 + k)

/-- The seeds that an SSRCH tries (R227). -/
def MatOp.seeds (o : MatOp) : Nat := min (max (bits (word o.b 4) 0 32) 1) 65536

/-- The target of a fit, and its format; the target is checked before the count of seeds (log entry 55). -/
def stageFit (s : State) (p : Site) (o : MatOp) (f : FmtX) (many : Bool) : Reading MatOp :=
  let k := Spec.shapeK f.kc
  let n := Spec.shapeM f.nc
  let seed := BitVec.ofNat 32 (word o.b 0)
  let C := bits (word o.b 0) 32 4
  let cnt := if many then o.seeds else 1
  let ok := fun c => !(Spec.seeded true { f with fmtA := BitVec.ofNat 5 c }).fmt
  (readOperand s p o f.ak o.a f.fmtA.toNat n k (min k 32) ok).and fun (c, ta) s =>
    demand s (C ≤ 8) (.prot 0 6) <|
      let ts := ta.map (valueAt c)
      let (x, σ, i) := if many then search ts k n seed C cnt else (fit ts k n seed C, seed, 0)
      (s, .ok { o with res := BitVec.ofNat 512 (fitRecord x σ C c + 2 ^ 256 * i), due := cnt * (16 + 32 * C) })

/-- LSHB (R228). -/
def stageHash (s : State) (p : Site) (o : MatOp) (f : FmtX) : Reading MatOp :=
  let m := Spec.shapeM f.mc
  let n := Spec.shapeM f.nc
  let ok := fun c => !(Spec.lshb { f with fmtA := BitVec.ofNat 5 c }).fmt
  (readOperand s p o f.ak o.a f.fmtA.toNat m 32 32 ok).and fun (c, ta) s =>
    let signs := basis (BitVec.ofNat 32 (word o.b 0)) (bits (word o.b 0) 32 3)
    let key := fun i => ((ta.drop (32 * i)).take 32).map (valueAt c)
    (s, .ok { o with res := pack 32 ((List.range m).map fun i => hashKey (key i) signs n), due := 4 + m })

/-- TPOSE, QUANT and DEQ (R229): form 0, 1 or 2. -/
def stageTransform (s : State) (p : Site) (o : MatOp) (f : FmtX) (form : Nat) : Reading MatOp :=
  let m := Spec.shapeM f.mc
  let k := Spec.shapeK f.kc
  let d := o.desc o.b
  let rm := f.sc.toNat
  let ok := fun c => !(Spec.xform form { f with fmtA := BitVec.ofNat 5 c, fmtB := if form = 0 then BitVec.ofNat 5 c else f.fmtB }).fmt
  (readOperand s p o 1 o.a f.fmtA.toNat m k (min k 32) ok).and fun (c, ta) s =>
    let row := fun i => (ta.drop (i * k)).take k
    match form with
    | 0 => stageTile s p o d c m ((List.range k).map fun x => (List.range m).map fun i => bits (word ta (i * k + x)) 0 32) [] 1
    | 1 =>
      let b := f.fmtB.toNat
      let draw := fun i x => word o.c (i * k + x)
      if inBlocks b then
        let L := blockLen b
        let blocks := (List.range m).map fun i => (List.range (k / L)).map fun h =>
          packBlock b rm ((((row i).drop (h * L)).take L).map (valueAt c)) ((List.range L).map fun x => draw i (h * L + x))
        stageTile s p o d b k (blocks.map fun bs => bs.flatMap Prod.fst) (blocks.map fun bs => bs.map Prod.snd) 1
      else
        stageTile s p o d b k ((List.range m).map fun i => (List.range k).map fun x =>
          plainCode b rm (draw i x) (valueAt c (ta.getD (i * k + x) 0))) [] 1
    | _ =>
      let F := fmtOfCode f.fmtB.toNat
      stageTile s p o d f.fmtB.toNat k ((List.range m).map fun i => (row i).map fun w =>
        match valueAt c w with
        | .nan _ _ => F.defaultNaN
        | .inf sg => F.infinity sg
        | .fin q => round F rm false 0 q) [] 1

/-- The operand phase of any matrix instruction (R214); `due` is left as the length of the compute phase. -/
def stage (s : State) (p : Site) (o : MatOp) : Reading MatOp :=
  match o.instr with
  | .mma f => stageMultiply s p o f 0
  | .mmas f => stageMultiply s p o f 1
  | .mmaw f => stageMultiply s p o f 2
  | .seedx f => stageSeedx s p o f
  | .sfit f => stageFit s p o f false
  | .ssrch f => stageFit s p o f true
  | .lshb f => stageHash s p o f
  | .tpose f => stageTransform s p o f 0
  | .quant f => stageTransform s p o f 1
  | .deq f => stageTransform s p o f 2
  | .accrd _ | .acccvt _ => (s, .ok { o with due := 2 })
  | _ => (s, .ok { o with due := 1 })

/-- The queue entry whose operand phase is next: it waits for the stores of an earlier entry (R206, R230). -/
def nextOperand (q : List MatOp) : Option (Nat × MatOp) :=
  match (List.range q.length).find? fun i => (q[i]?.map MatOp.staged) == some false with
  | some i => if i ≤ 1 && (q.take i).all fun o => o.held.isEmpty && o.cells.isEmpty then q[i]?.map fun o => (i, o) else none
  | none => none

/-- The clk from the request for the bytes of an operand phase to the phase itself (log entry 56; R339 step 6). -/
def operandLatency : Nat := 16

/-- The operand phase has bytes to ask for, and has not done so: until then `due` is 0. -/
def MatOp.asks (o : MatOp) : Bool :=
  match o.instr with
  | .accz _ | .accrd _ | .accwr _ | .acccvt _ => false
  | _ => o.due == 0

/-- MATRIX_OPERAND_PHASE (R206, R214): a fault is precise, and the instruction has no effect. It waits for the element's loads that are
still at the MIT, which read memory as it was before the instruction's stores (R155). The phase takes place at once, `operandLatency`
after it has asked for its bytes. -/
def execMatrixOperandPhase (t : Nat) (s : State) : Host.Outcome State Fault Refusal :=
  .next (match s.active t, nextOperand (s.tile t).mxc.queue with
    | some (r, g), some (i, o) =>
      let p : Site := ⟨t, 0, 0, o.widx⟩
      if s.mit.any fun m => m.t == t then s
      else if o.asks then s.onTile t fun T => { T with mxc := { T.mxc with
        queue := T.mxc.queue.set i { o with due := s.time + operandLatency } } }
      else if s.time < o.due then s
      else match stage s p o with
      | (s, .error (.fault f)) => s.raise p f
      | (s, .error .exhaust) => s.exhaust r 1
      | (s, .ok o') =>
        let q := (s.tile t).mxc.queue
        let start := max s.time ((q.take i).foldl (fun m x => max m x.due) 0)
        let o' := { o' with staged := true, due := start + o'.due }
        (s.onTile t fun T => { T with mxc := { T.mxc with queue := q.set i o' } }).count g.die .operandPhase
    | _, _ => s)

/-- What a bank becomes. -/
def bankAfter (b : AccBank) (o : MatOp) : AccBank :=
  match o.instr with
  | .mma f => (o.product f false).apply b
  | .mmas f => (o.product f true).apply b
  | .mmaw f => (o.product f false).apply b
  | .accz f => { b.update (Spec.shapeM f.mc) (Spec.shapeM f.nc) (fun _ _ _ => 0) with sat := f.kc == 1 }
  | .accwr _ => writeHalf b o
  | _ => b

/-- The bank that an instruction names. -/
def bankBit (i : Instr) : Bool :=
  match i with
  | .mma f | .mmas f | .mmaw f | .accz f | .accrd f | .accwr f | .acccvt f => f.acc == 1
  | _ => false

/-- The V result of an instruction from its bank. -/
def resultOf (b : AccBank) (o : MatOp) : Vec :=
  match o.instr with
  | .accrd _ => readHalf b o
  | .acccvt f => convertRow b o f
  | _ => o.res

/-- MATRIX_COMPUTE_COMPLETE (R206, R216, R220, R225): the oldest instruction updates its bank, delivers its result or performs
its stores, in issue order. -/
def execMatrixComputeComplete (t : Nat) (s : State) : Host.Outcome State Fault Refusal :=
  .next (match s.active t, (s.tile t).mxc.queue with
    | some (r, g), o :: rest =>
      if !o.staged || s.time < o.due then s
      else
        s.holdAll r o.held fun s =>
          let s := if o.instr matches .ssrch .. then s.countBy g.die .ssrchSeed o.seeds else s
          let s := if o.macClk = 0 then s else s.countBy g.die (.macClk (macRate o.fa / 256)) o.macClk
          s.onTile t fun T =>
            let b := if bankBit o.instr then T.mxc.a1 else T.mxc.a0
            let b' := bankAfter b o
            let T := { T.writeScratch o.cells with
              mxc := ⟨if bankBit o.instr then T.mxc.a0 else b', if bankBit o.instr then b' else T.mxc.a1, rest⟩ }
            match o.op with
            | some n => T.deliver n (resultOf b o)
            | none => T
    | _, _ => s)

end Sys2Proof.Machine
end

