-- ==== Sys2Proof/Machine/Dispatch.lean ====
section
/-! DEFINITION. One arm per instruction: the meaning each one has. -/

namespace Sys2Proof.Machine

def exec (i : Instr) (s : State) : Host.Outcome State Fault Refusal :=
  match i with
  | .nop => Sys2Proof.Machine.execNop s
  | .trap f => Sys2Proof.Machine.execTrap f s
  | .halt f => Sys2Proof.Machine.execHalt f s
  | .sysrd f => Sys2Proof.Machine.execSysrd f s
  | .add f => Sys2Proof.Machine.execAdd f s
  | .sub f => Sys2Proof.Machine.execSub f s
  | .adds f => Sys2Proof.Machine.execAdds f s
  | .subs f => Sys2Proof.Machine.execSubs f s
  | .mul f => Sys2Proof.Machine.execMul f s
  | .mulh f => Sys2Proof.Machine.execMulh f s
  | .mad f => Sys2Proof.Machine.execMad f s
  | .div f => Sys2Proof.Machine.execDiv f s
  | .rem f => Sys2Proof.Machine.execRem f s
  | .neg f => Sys2Proof.Machine.execNeg f s
  | .abs f => Sys2Proof.Machine.execAbs f s
  | .min f => Sys2Proof.Machine.execMin f s
  | .max f => Sys2Proof.Machine.execMax f s
  | .addImm f => Sys2Proof.Machine.execAddImm f s
  | .subImm f => Sys2Proof.Machine.execSubImm f s
  | .mulImm f => Sys2Proof.Machine.execMulImm f s
  | .minImm f => Sys2Proof.Machine.execMinImm f s
  | .maxImm f => Sys2Proof.Machine.execMaxImm f s
  | .and f => Sys2Proof.Machine.execAnd f s
  | .or f => Sys2Proof.Machine.execOr f s
  | .xor f => Sys2Proof.Machine.execXor f s
  | .not f => Sys2Proof.Machine.execNot f s
  | .andn f => Sys2Proof.Machine.execAndn f s
  | .shl f => Sys2Proof.Machine.execShl f s
  | .shr f => Sys2Proof.Machine.execShr f s
  | .sha f => Sys2Proof.Machine.execSha f s
  | .rot f => Sys2Proof.Machine.execRot f s
  | .clz f => Sys2Proof.Machine.execClz f s
  | .popc f => Sys2Proof.Machine.execPopc f s
  | .brev f => Sys2Proof.Machine.execBrev f s
  | .bext f => Sys2Proof.Machine.execBext f s
  | .bins f => Sys2Proof.Machine.execBins f s
  | .andImm f => Sys2Proof.Machine.execAndImm f s
  | .orImm f => Sys2Proof.Machine.execOrImm f s
  | .xorImm f => Sys2Proof.Machine.execXorImm f s
  | .andnImm f => Sys2Proof.Machine.execAndnImm f s
  | .shlImm f => Sys2Proof.Machine.execShlImm f s
  | .shrImm f => Sys2Proof.Machine.execShrImm f s
  | .shaImm f => Sys2Proof.Machine.execShaImm f s
  | .rotImm f => Sys2Proof.Machine.execRotImm f s
  | .cmp f => Sys2Proof.Machine.execCmp f s
  | .sel f => Sys2Proof.Machine.execSel f s
  | .mov f => Sys2Proof.Machine.execMov f s
  | .movLane f => Sys2Proof.Machine.execMovLane f s
  | .movid f => Sys2Proof.Machine.execMovid f s
  | .lea f => Sys2Proof.Machine.execLea f s
  | .movi f => Sys2Proof.Machine.execMovi f s
  | .movhi f => Sys2Proof.Machine.execMovhi f s
  | .pfx f => Sys2Proof.Machine.execPfx f s
  | .lnred f => Sys2Proof.Machine.execLnred f s
  | .bcast f => Sys2Proof.Machine.execBcast f s
  | .shuf f => Sys2Proof.Machine.execShuf f s
  | .compact f => Sys2Proof.Machine.execCompact f s
  | .expand f => Sys2Proof.Machine.execExpand f s
  | .pand f => Sys2Proof.Machine.execPand f s
  | .por f => Sys2Proof.Machine.execPor f s
  | .pxor f => Sys2Proof.Machine.execPxor f s
  | .pnot f => Sys2Proof.Machine.execPnot f s
  | .pcnt f => Sys2Proof.Machine.execPcnt f s
  | .fadd f => Sys2Proof.Machine.execFadd f s
  | .fsub f => Sys2Proof.Machine.execFsub f s
  | .fmul f => Sys2Proof.Machine.execFmul f s
  | .fma f => Sys2Proof.Machine.execFma f s
  | .fms f => Sys2Proof.Machine.execFms f s
  | .fnma f => Sys2Proof.Machine.execFnma f s
  | .fdiv f => Sys2Proof.Machine.execFdiv f s
  | .fsqrt f => Sys2Proof.Machine.execFsqrt f s
  | .frcp f => Sys2Proof.Machine.execFrcp f s
  | .frsq f => Sys2Proof.Machine.execFrsq f s
  | .fmin f => Sys2Proof.Machine.execFmin f s
  | .fmax f => Sys2Proof.Machine.execFmax f s
  | .fabs f => Sys2Proof.Machine.execFabs f s
  | .fneg f => Sys2Proof.Machine.execFneg f s
  | .fcmp f => Sys2Proof.Machine.execFcmp f s
  | .fclass f => Sys2Proof.Machine.execFclass f s
  | .frint f => Sys2Proof.Machine.execFrint f s
  | .fgetexp f => Sys2Proof.Machine.execFgetexp f s
  | .fexp2f f => Sys2Proof.Machine.execFexp2f f s
  | .fexpins f => Sys2Proof.Machine.execFexpins f s
  | .fcvt f => Sys2Proof.Machine.execFcvt f s
  | .fcvtFrom f => Sys2Proof.Machine.execFcvtFrom f s
  | .ftoi f => Sys2Proof.Machine.execFtoi f s
  | .itof f => Sys2Proof.Machine.execItof f s
  | .fpack f => Sys2Proof.Machine.execFpack f s
  | .funpack f => Sys2Proof.Machine.execFunpack f s
  | .emit f => Sys2Proof.Machine.execEmit f s
  | .route f => Sys2Proof.Machine.execRoute f s
  | .split f => Sys2Proof.Machine.execSplit f s
  | .merge f => Sys2Proof.Machine.execMerge f s
  | .recirc f => Sys2Proof.Machine.execRecirc f s
  | .accept f => Sys2Proof.Machine.execAccept f s
  | .drop f => Sys2Proof.Machine.execDrop f s
  | .hold f => Sys2Proof.Machine.execHold f s
  | .newb f => Sys2Proof.Machine.execNewb f s
  | .endb f => Sys2Proof.Machine.execEndb f s
  | .tok f => Sys2Proof.Machine.execTok f s
  | .bari f => Sys2Proof.Machine.execBari f s
  | .swi f => Sys2Proof.Machine.execSwi f s
  | .ld f => Sys2Proof.Machine.execLd f s
  | .st f => Sys2Proof.Machine.execSt f s
  | .ldv f => Sys2Proof.Machine.execLdv f s
  | .stv f => Sys2Proof.Machine.execStv f s
  | .pld f => Sys2Proof.Machine.execPld f s
  | .pst f => Sys2Proof.Machine.execPst f s
  | .pclear f => Sys2Proof.Machine.execPclear f s
  | .sld f => Sys2Proof.Machine.execSld f s
  | .sst f => Sys2Proof.Machine.execSst f s
  | .pfetch f => Sys2Proof.Machine.execPfetch f s
  | .fence f => Sys2Proof.Machine.execFence f s
  | .tfence f => Sys2Proof.Machine.execTfence f s
  | .atom f => Sys2Proof.Machine.execAtom f s
  | .atomTree f => Sys2Proof.Machine.execAtomTree f s
  | .wait f => Sys2Proof.Machine.execWait f s
  | .hbarArrive f => Sys2Proof.Machine.execHbarArrive f s
  | .hbarWait f => Sys2Proof.Machine.execHbarWait f s
  | .hbarAw f => Sys2Proof.Machine.execHbarAw f s
  | .bsync f => Sys2Proof.Machine.execBsync f s
  | .cntrEv f => Sys2Proof.Machine.execCntrEv f s
  | .cntrTask f => Sys2Proof.Machine.execCntrTask f s
  | .time f => Sys2Proof.Machine.execTime f s
  | .timeLeft f => Sys2Proof.Machine.execTimeLeft f s
  | .cpy f => Sys2Proof.Machine.execCpy f s
  | .dense f => Sys2Proof.Machine.execDense f s
  | .sparsify f => Sys2Proof.Machine.execSparsify f s
  | .a2a f => Sys2Proof.Machine.execA2a f s
  | .coll f => Sys2Proof.Machine.execColl f s
  | .cpyChain f => Sys2Proof.Machine.execCpyChain f s
  | .denseChain f => Sys2Proof.Machine.execDenseChain f s
  | .sparsifyChain f => Sys2Proof.Machine.execSparsifyChain f s
  | .a2aChain f => Sys2Proof.Machine.execA2aChain f s
  | .collChain f => Sys2Proof.Machine.execCollChain f s
  | .chapp f => Sys2Proof.Machine.execChapp f s
  | .taskq f => Sys2Proof.Machine.execTaskq f s
  | .lpatch f => Sys2Proof.Machine.execLpatch f s
  | .larm f => Sys2Proof.Machine.execLarm f s
  | .mma f => Sys2Proof.Machine.execMma f s
  | .mmas f => Sys2Proof.Machine.execMmas f s
  | .mmaw f => Sys2Proof.Machine.execMmaw f s
  | .accz f => Sys2Proof.Machine.execAccz f s
  | .accrd f => Sys2Proof.Machine.execAccrd f s
  | .accwr f => Sys2Proof.Machine.execAccwr f s
  | .acccvt f => Sys2Proof.Machine.execAcccvt f s
  | .seedx f => Sys2Proof.Machine.execSeedx f s
  | .sfit f => Sys2Proof.Machine.execSfit f s
  | .ssrch f => Sys2Proof.Machine.execSsrch f s
  | .lshb f => Sys2Proof.Machine.execLshb f s
  | .tpose f => Sys2Proof.Machine.execTpose f s
  | .quant f => Sys2Proof.Machine.execQuant f s
  | .deq f => Sys2Proof.Machine.execDeq f s
  | .longLatencyResult t k => Sys2Proof.Machine.execLongLatencyResult t k s
  | .beadhArrival t port => Sys2Proof.Machine.execBeadhArrival t port s
  | .beadStart t => Sys2Proof.Machine.execBeadStart t s
  | .tokenBeadForm t => Sys2Proof.Machine.execTokenBeadForm t s
  | .ceControlToken t => Sys2Proof.Machine.execCeControlToken t s
  | .selJoinFire t => Sys2Proof.Machine.execSelJoinFire t s
  | .elementSwitch t u => Sys2Proof.Machine.execElementSwitch t u s
  | .barForward t u => Sys2Proof.Machine.execBarForward t u s
  | .linkBeatReceive t link flips => Sys2Proof.Machine.execLinkBeatReceive t link flips s
  | .swRt t w => Sys2Proof.Machine.execSwRt t w s
  | .swFork t w => Sys2Proof.Machine.execSwFork t w s
  | .swJoin t w => Sys2Proof.Machine.execSwJoin t w s
  | .rootSourceStart t u => Sys2Proof.Machine.execRootSourceStart t u s
  | .scannerRef t u => Sys2Proof.Machine.execScannerRef t u s
  | .scannerStop t u => Sys2Proof.Machine.execScannerStop t u s
  | .scannerDone t u => Sys2Proof.Machine.execScannerDone t u s
  | .scannerSkip t u => Sys2Proof.Machine.execScannerSkip t u s
  | .scnTSeek t u => Sys2Proof.Machine.execScnTSeek t u s
  | .mrgI t => Sys2Proof.Machine.execMrgI t s
  | .mrgU t => Sys2Proof.Machine.execMrgU t s
  | .rptCrd t => Sys2Proof.Machine.execRptCrd t s
  | .rptStop t => Sys2Proof.Machine.execRptStop t s
  | .rptDone t => Sys2Proof.Machine.execRptDone t s
  | .rdcVal t => Sys2Proof.Machine.execRdcVal t s
  | .rdcStop t => Sys2Proof.Machine.execRdcStop t s
  | .rdcDone t => Sys2Proof.Machine.execRdcDone t s
  | .lwrEntry t => Sys2Proof.Machine.execLwrEntry t s
  | .lwrStop t => Sys2Proof.Machine.execLwrStop t s
  | .lwrDone t => Sys2Proof.Machine.execLwrDone t s
  | .lwrTStore t => Sys2Proof.Machine.execLwrTStore t s
  | .agAff t p => Sys2Proof.Machine.execAgAff t p s
  | .agInd t p => Sys2Proof.Machine.execAgInd t p s
  | .iseParamRead t p => Sys2Proof.Machine.execIseParamRead t p s
  | .iseValueReturn t p => Sys2Proof.Machine.execIseValueReturn t p s
  | .agWr t p => Sys2Proof.Machine.execAgWr t p s
  | .xfTpose t => Sys2Proof.Machine.execXfTpose t s
  | .xfQuant t => Sys2Proof.Machine.execXfQuant t s
  | .xfScale t => Sys2Proof.Machine.execXfScale t s
  | .xfBmap t => Sys2Proof.Machine.execXfBmap t s
  | .matrixOperandPhase t => Sys2Proof.Machine.execMatrixOperandPhase t s
  | .matrixComputeComplete t => Sys2Proof.Machine.execMatrixComputeComplete t s
  | .hsqAtomApply v => Sys2Proof.Machine.execHsqAtomApply v s
  | .hsqBarrierArrival v => Sys2Proof.Machine.execHsqBarrierArrival v s
  | .combiningArrival k => Sys2Proof.Machine.execCombiningArrival k s
  | .treeHoldExpiry k => Sys2Proof.Machine.execTreeHoldExpiry k s
  | .waitTimeout k => Sys2Proof.Machine.execWaitTimeout k s
  | .waitDequeue v c => Sys2Proof.Machine.execWaitDequeue v c s
  | .bsyncProceed r => Sys2Proof.Machine.execBsyncProceed r s
  | .idxfullReissue r => Sys2Proof.Machine.execIdxfullReissue r s
  | .engineCommandStart d e c => Sys2Proof.Machine.execEngineCommandStart d e c s
  | .engineCommandComplete d e c => Sys2Proof.Machine.execEngineCommandComplete d e c s
  | .engineFault d e c => Sys2Proof.Machine.execEngineFault d e c s
  | .a2aDelivery d e c => Sys2Proof.Machine.execA2aDelivery d e c s
  | .a2aResume d e c => Sys2Proof.Machine.execA2aResume d e c s
  | .collMatch d e c => Sys2Proof.Machine.execCollMatch d e c s
  | .chainWalk d e c => Sys2Proof.Machine.execChainWalk d e c s
  | .mitBlockRead k => Sys2Proof.Machine.execMitBlockRead k s
  | .mitRefetch k => Sys2Proof.Machine.execMitRefetch k s
  | .counterHalving d => Sys2Proof.Machine.execCounterHalving d s
  | .tfenceAck k => Sys2Proof.Machine.execTfenceAck k s
  | .timeAllowanceExpiry r => Sys2Proof.Machine.execTimeAllowanceExpiry r s
  | .admissionAgeExpiry h => Sys2Proof.Machine.execAdmissionAgeExpiry h s
  | .exhaustion r cause => Sys2Proof.Machine.execExhaustion r cause s
  | .quiescenceReport r => Sys2Proof.Machine.execQuiescenceReport r s
  | .dependenceDecrement h => Sys2Proof.Machine.execDependenceDecrement h s
  | .allocate d => Sys2Proof.Machine.execAllocate d s
  | .loaderRead r => Sys2Proof.Machine.execLoaderRead r s
  | .verificationPass r => Sys2Proof.Machine.execVerificationPass r s
  | .successorPreload r => Sys2Proof.Machine.execSuccessorPreload r s
  | .configScrub r => Sys2Proof.Machine.execConfigScrub r s
  | .configRepairComplete r => Sys2Proof.Machine.execConfigRepairComplete r s
  | .launchArm c n => Sys2Proof.Machine.execLaunchArm c n s
  | .launchStart c n => Sys2Proof.Machine.execLaunchStart c n s
  | .launchPacket d k => Sys2Proof.Machine.execLaunchPacket d k s
  | .pendingPieceEnqueue d => Sys2Proof.Machine.execPendingPieceEnqueue d s
  | .dieReport d k => Sys2Proof.Machine.execDieReport d k s
  | .removalComplete c => Sys2Proof.Machine.execRemovalComplete c s
  | .faultPost d c => Sys2Proof.Machine.execFaultPost d c s
  | .heldRecordPost d c => Sys2Proof.Machine.execHeldRecordPost d c s
  | .preemptEnd c => Sys2Proof.Machine.execPreemptEnd c s
  | .saveComplete r => Sys2Proof.Machine.execSaveComplete r s
  | .regionRestore c => Sys2Proof.Machine.execRegionRestore c s
  | .checkComplete => Sys2Proof.Machine.execCheckComplete s
  | .watchdogExpiry d => Sys2Proof.Machine.execWatchdogExpiry d s
  | .attestResponse ok => Sys2Proof.Machine.execAttestResponse ok s
  | .powerSample d watts celsius => Sys2Proof.Machine.execPowerSample d watts celsius s
  | .throttleUpdate => Sys2Proof.Machine.execThrottleUpdate s
  | .patrolScrub a => Sys2Proof.Machine.execPatrolScrub a s
  | .podBarrierRelease k => Sys2Proof.Machine.execPodBarrierRelease k s
  | .bsyncDeadline r => Sys2Proof.Machine.execBsyncDeadline r s
  | .outputBeat8Clk t u => Sys2Proof.Machine.execOutputBeat8Clk t u s
  | .rd h => Sys2Proof.Machine.execRd h s
  | .wr h data => Sys2Proof.Machine.execWr h data s
  | .wrc h data => Sys2Proof.Machine.execWrc h data s
  | .append h data => Sys2Proof.Machine.execAppend h data s
  | .flush h => Sys2Proof.Machine.execFlush h s
  | .hostTfence h data => Sys2Proof.Machine.execHostTfence h data s
  | .cpl h data => Sys2Proof.Machine.execCpl h data s
  | .ucieCrcReplay m => Sys2Proof.Machine.execUcieCrcReplay m s
  | .ucieModuleFail m => Sys2Proof.Machine.execUcieModuleFail m s
  | .contextActivate c => Sys2Proof.Machine.execContextActivate c s
  | .contextRemove c => Sys2Proof.Machine.execContextRemove c s
  | .fqheadWrite c v => Sys2Proof.Machine.execFqheadWrite c v s
  | .herrClear => Sys2Proof.Machine.execHerrClear s
  | .registerWrite off v => Sys2Proof.Machine.execRegisterWrite off v s
  | .resume k => Sys2Proof.Machine.execResume k s
  | .abort k => Sys2Proof.Machine.execAbort k s
  | .kill k => Sys2Proof.Machine.execKill k s
  | .skip k => Sys2Proof.Machine.execSkip k s
  | .retry k => Sys2Proof.Machine.execRetry k s
  | .preemptBoundary k => Sys2Proof.Machine.execPreemptBoundary k s
  | .preemptAbort k => Sys2Proof.Machine.execPreemptAbort k s
  | .preemptFreezeSave k => Sys2Proof.Machine.execPreemptFreezeSave k s
  | .resumectx k => Sys2Proof.Machine.execResumectx k s
  | .go => Sys2Proof.Machine.execGo s
  | .reset => Sys2Proof.Machine.execReset s
  | .powerOnReset failed => Sys2Proof.Machine.execPowerOnReset failed s
  | .initComplete failed parts => Sys2Proof.Machine.execInitComplete failed parts s
  | .attestQuote => Sys2Proof.Machine.execAttestQuote s
  | .attestCertChain => Sys2Proof.Machine.execAttestCertChain s
  | .thermalTrip d => Sys2Proof.Machine.execThermalTrip d s
  | .eccError e double => Sys2Proof.Machine.execEccError e double s
  | .tileFence t => Sys2Proof.Machine.execTileFence t s
  | .vaultFence v => Sys2Proof.Machine.execVaultFence v s
  | .hbmChannelFence stack ch => Sys2Proof.Machine.execHbmChannelFence stack ch s
  | .dieFence d => Sys2Proof.Machine.execDieFence d s
  | .portFence p => Sys2Proof.Machine.execPortFence p s
  | .flitReceive p f => Sys2Proof.Machine.execFlitReceive p f s
  | .flitCrcRetry p => Sys2Proof.Machine.execFlitCrcRetry p s
  | .portRetrain p ok => Sys2Proof.Machine.execPortRetrain p ok s
  | .keepaliveLoss p => Sys2Proof.Machine.execKeepaliveLoss p s
  | .podcfgWrite v => Sys2Proof.Machine.execPodcfgWrite v s
  | .monctlSet v => Sys2Proof.Machine.execMonctlSet v s
  | .monctlClr v => Sys2Proof.Machine.execMonctlClr v s
  | .portTrainingComplete p => Sys2Proof.Machine.execPortTrainingComplete p s

end Sys2Proof.Machine
end

