-- ==== Sys2Proof/Machine/Select.lean ====
section
/-! DEFINITION. What a clk of the package holds: the clocks that advance, and the turns that the agenda is filled with when it has run
out. An event whose conditions do not hold changes nothing (log entry 3). -/

namespace Sys2Proof.Machine

namespace State

/-- The element of a tile can run its program word: its region runs and is not stopped, and a bead has started (R18, R126,
R163). -/
def runs (s : State) (t : Nat) : Bool :=
  match s.regionOf t with
  | none => false
  | some (_, g) =>
    let T := s.tile t
    g.running && !g.frozen && g.drain.isNone && T.isCe && (match T.head? with | some b => b.started | none => false)

/-! ### Throttling (R404, R405) -/

/-- Elements, stream units and links are held idle in this clk. -/
def heldClk (s : State) : Bool :=
  match s.boot.tstate.toNat with
  | 2 => s.time % 4 == 3
  | 3 => s.time % 4 != 0
  | _ => false

/-- The matrix cells issue in this clk. -/
def matrixClk (s : State) : Bool :=
  match s.boot.tstate.toNat with
  | 0 => true
  | 1 => s.time % 4 != 3
  | 2 => s.time % 2 == 0
  | _ => s.time % 8 == 0

/-! ### The clocks -/

/-- The deadline of a wait of a frozen region moves on (R237). -/
def frozenTile (s : State) (t : Nat) : Bool := match s.regionOf t with | some (_, g) => g.frozen | none => false

/-- Throttling holds a region in this clk: its units, or a matrix cell of it that has instructions to issue (R405). -/
def heldRegion (s : State) (g : Region) : Bool :=
  s.heldClk || (!s.matrixClk && g.tiles.any fun t => (s.tile t).mxc.queue.any fun o => !o.staged)

/-- A region in a clk: its allowance counts while it is not frozen, drained or held (R33, R405); the deadline of the BSYNC of a
frozen one moves on. -/
def tickRegion (held : Bool) (g : Region) : Region :=
  if g.frozen then { g with bsync := g.bsync.map fun b => { b with deadline := b.deadline + 1 } }
  else if g.drain.isSome || held then g
  else { g with clk := g.clk + 1 }

/-- The entries of a cache of translations that are not dropped for want of room at the end of a clk (R373). -/
def keepEntries (now cache : Nat) (es : List TlbEntry) : List TlbEntry :=
  es.filter fun e => !Config.evicted cache now e.ctx (e.va + e.size)

/-- What a clk does in a die: a controller that works services its watchdog (R396), and translations may be dropped. -/
def tickDie (now d : Nat) (D : Die) : Die :=
  { D with
    serviced := if D.hung then D.serviced else now + 1
    tlb := keepEntries now d D.tlb
    ptrs := keepEntries now (4 + d) D.ptrs
    ise := D.ise.mapIdx fun k es => keepEntries now (8 + 2 * d + k) es }

/-- One clk of package time (R242). A controller that works services its watchdog (R396); clk in each throttle state are counted
(R405); the tokens of a draining region flow into sinks (R40); the lattice buffers move (R411); samples grow old (R404); what waits on a
dead die moves (R419); requests that wait to be made again are (R381); rolling
switches that are complete end (R26). Before all this, as the last of the clk that ends, the waits
whose deadline it is expire (R237). -/
def tick (s : State) : State :=
  let st := s.boot.tstate.toNat
  let s := s.expireWaits.latchLost
  let armed := s.armed.map fun a => if s.frozenTile a.t then { a with deadline := a.deadline + 1 } else a
  let wait := fun (e : HsqEntry) => match e.req with
    | .wait cc w u b due once acq => if s.frozenTile e.t then { e with req := .wait cc w u b (due + 1) once acq } else e
    | .arrive n more ms => { e with req := .arrive n more (ms.map fun m => if s.frozenTile m.1 then (m.1, m.2.1, m.2.2.map fun d => d.map (· + 1)) else m) }
    | _ => e
  let combs := s.combs.map fun k => { k with entry := wait k.entry }
  let hsq := s.hsq.map fun (q : Nat × List HsqEntry) => (q.1, q.2.map wait)
  let retry := s.retry.map wait
  let s := { s with
    time := s.time + 1
    armed := armed
    hsq := hsq
    combs := combs
    retry := retry
    regions := s.regions.map fun (q : Nat × Region) => (q.1, tickRegion (s.heldRegion q.2) q.2)
    dies := s.dies.mapIdx (tickDie s.time)
    boot := { s.boot with tclk := s.boot.tclk.modify st (· + 1) } }
  let s := (List.range 4).foldl (fun (s : State) d => s.count d (.throttleClk st)) s
  let draining := (s.regions.filter fun q => q.2.drain.isSome).flatMap fun q => q.2.tiles
  let s := draining.foldl (fun (s : State) t => s.onTile t Tile.sink) s
  let s := (List.range 4).foldl (fun (s : State) d => s.evacuate d) s.lattice.expireSamples
  (s.regions.map Prod.fst).foldl finishSwitch s.retryAll

/-! ### The turns -/

/-- What precedes the element's instruction in a clk: links, results, and the beads that enter and start. -/
def arrivals (T : Tile) (t : Nat) : List Instr :=
  (T.wire.filter fun (q : Nat × Queue) => !q.2.beats.isEmpty).map (fun q => Instr.linkBeatReceive t q.1 0)
    ++ (T.ops.filter fun (o : LongOp) => o.value.isSome).map (fun o => Instr.longLatencyResult t o.num)
    ++ [Instr.ceControlToken t, Instr.selJoinFire t] ++ (List.range 4).map (fun p => Instr.beadhArrival t p)
    ++ [Instr.tokenBeadForm t, Instr.beadStart t]

/-- The turns of a stream unit in its configuration. -/
def streamTurns (t u : Nat) : List Instr :=
  [.elementSwitch t u, .barForward t u, .rootSourceStart t u, .scannerRef t u, .scannerStop t u, .scannerDone t u, .scannerSkip t u, .scnTSeek t u,
    .outputBeat8Clk t u]

/-- The turns of the merge unit, the repeater, the reducer, the level writer and the transform node. -/
def streamNodeTurns (t : Nat) : List Instr :=
  [.mrgI t, .mrgU t, .rptCrd t, .rptStop t, .rptDone t, .rdcVal t, .rdcStop t, .rdcDone t, .lwrEntry t, .lwrStop t, .lwrDone t, .lwrTStore t,
    .xfTpose t, .xfQuant t, .xfScale t, .xfBmap t]

/-- The turns of an AG port. -/
def agTurns (t p : Nat) : List Instr := [.agAff t p, .agInd t p, .iseParamRead t p, .iseValueReturn t p, .agWr t p]

/-- The turns of a switch word. -/
def switchTurns (t w : Nat) : List Instr := [.swRt t w, .swFork t w, .swJoin t w]

/-- The turns of the stream units, the cell and the switch of a tile. -/
def unitTurns (s : State) (t : Nat) : List Instr :=
  (if s.matrixClk then [Instr.matrixOperandPhase t] else []) ++ [Instr.matrixComputeComplete t]
    ++ ((List.range 11).filter (s.tile t).configured).flatMap (streamTurns t) ++ streamNodeTurns t
    ++ (List.range 4).flatMap (agTurns t) ++ (List.range 32).flatMap (switchTurns t)

/-- The turns of a tile. -/
def tileTurns (s : State) (t : Nat) : List Turn := (arrivals (s.tile t) t).map Turn.op ++ [.elem t] ++ (s.unitTurns t).map Turn.op

/-- The turns of a region: its units, its loader and its task. -/
def regionTurns (s : State) (r : Nat) (g : Region) : List Turn :=
  (if s.heldClk || !g.running then [] else g.tiles.flatMap s.tileTurns)
  ++ ([Instr.loaderRead r, .verificationPass r, .successorPreload r, .configScrub r, .configRepairComplete r, .bsyncProceed r, .bsyncDeadline r,
    .timeAllowanceExpiry r, .quiescenceReport r, .saveComplete r]
    ++ (if g.records.any fun x => x.code == 0x07 then [Instr.idxfullReissue r] else [])).map Turn.op

/-- Indices of a list from its last, so that an event which removes its entry leaves the others in place. -/
def indices (n : Nat) : List Nat := (List.range n).reverse

/-- The turns of an engine of a die for a context. -/
def engineTurns (d e c : Nat) (E : Engine) : List Instr :=
  [.engineCommandStart d e c, .chainWalk d e c, .collMatch d e c, .a2aDelivery d e c, .a2aResume d e c, .engineFault d e c,
    .engineCommandComplete d e c] ++ if E.full then [.idxfullReissue 0] else []

/-- The turns of a die. -/
def dieTurns (s : State) (d : Nat) : List Instr :=
  let D := s.die d
  D.engines.flatMap (fun q => engineTurns d (q.1 / 4) (q.1 % 4) q.2)
  ++ [.pendingPieceEnqueue d, .allocate d, .counterHalving d, .watchdogExpiry d]
  ++ (D.queues.flatten.map fun h => Instr.admissionAgeExpiry h)
  ++ ((List.range 4).flatMap fun c => [Instr.heldRecordPost d c, .faultPost d c])

/-- The words that the scrubbers read in a clk: every vault one in 2^13 clk, every channel one in 2^6, so that each word is read
once in 2^34 clk (R403). -/
def scrubTurns (s : State) : List Instr :=
  (if s.time % 2 ^ 13 = 0 then
    (List.range 256).map fun v => Instr.patrolScrub (vaultBase + v * 2 ^ 24 + 8 * (s.time / 2 ^ 13 % 2 ^ 21)) else [])
  ++ (if s.time % 2 ^ 6 = 0 then (List.range 256).map fun c => Instr.patrolScrub (c * 2 ^ 31 + 8 * (s.time / 2 ^ 6 % 2 ^ 28)) else [])

/-- The turns of the home sequencers, the combining nodes and the memory interface. -/
def memoryTurns (s : State) : List Instr :=
  (s.hsq.flatMap fun (q : Nat × List HsqEntry) => [Instr.hsqAtomApply q.1, .hsqBarrierArrival q.1] ++ (List.range 5).map fun c => Instr.waitDequeue q.1 c)
  ++ ((indices s.combs.length).flatMap fun k => [Instr.combiningArrival k, .treeHoldExpiry k, .podBarrierRelease k])
  ++ ((indices s.mit.length).flatMap fun k => [Instr.mitBlockRead k, .mitRefetch k])
  ++ ((indices s.fences.length).map fun k => Instr.tfenceAck k)

/-- The turns of the launches and of the contexts. -/
def launchTurns (s : State) : List Instr :=
  ((s.launches.filter fun (l : Launch) => !l.running).map fun l => Instr.launchStart l.ctx l.idx)
  ++ ((s.launches.filter fun (l : Launch) => l.running).flatMap fun l => l.sent.map fun d => Instr.dieReport d l.key)
  ++ ((List.range 4).flatMap fun c => [Instr.regionRestore c, .preemptEnd c, .removalComplete c])

/-- The samples that the controllers take in a clk (R404): what they find is the part's own. -/
def sampleTurns (s : State) : List Instr :=
  ((List.range 4).filter fun d => decide ((s.die d).sampleAt ≤ s.time)).map fun d => .powerSample d (Config.watts d s.time) (Config.celsius d s.time)

/-- The turns of one clk. In READY the whole part works; before it only the boot stage does. A WAIT's deadline is seen after every
update of its clk (R237). -/
def schedule (s : State) : List Turn :=
  if s.boot.bstate = 4 then
    (s.regions.flatMap fun (q : Nat × Region) => s.regionTurns q.1 q.2)
    ++ (s.memoryTurns ++ (List.range 4).flatMap s.dieTurns ++ s.launchTurns ++ s.scrubTurns ++ s.sampleTurns ++ [Instr.throttleUpdate]
      ++ (if s.boot.attst = 1 then [Instr.attestResponse true] else []) ++ (indices s.armed.length).map fun k => Instr.waitTimeout k).map Turn.op
  else (s.sampleTurns ++ [Instr.checkComplete, .throttleUpdate] ++ (List.range 4).map fun d => Instr.watchdogExpiry d).map Turn.op

end State

end Sys2Proof.Machine
end

