-- ==== Sys2Proof/Machine/Step.lean ====
section
/-! DEFINITION. One step of the machine: the next turn of the agenda, or, when the agenda has run out, the next clk; and the placing of
one program word where the next step fetches it. -/

namespace Sys2Proof.Machine

/-- An element's turn: the instruction at its bead's index runs (R126); an element that cannot run does nothing. -/
def elementTurn (s : State) (t : Nat) : Host.Outcome State Fault Refusal :=
  if s.runs t then
    match decode ((s.tile t).program (s.tile t).pc) with
    | .ok i => exec i { s with here := t }
    | .error _ => .refused .undecodable
  else .next s

/-- One step. -/
def step (s : State) : Host.Outcome State Fault Refusal :=
  match s.agenda with
  | [] => let s := s.tick; .next { s with agenda := s.schedule }
  | .op i :: ts => exec i { s with agenda := ts }
  | .tx x :: ts => performTx x { s with agenda := ts }
  | .elem t :: ts => elementTurn { s with agenda := ts } t

/-- A region of one tile of die 0, running for context 0. -/
def unitRegion : Region :=
  { die := 0, ox := 0, oy := 0, w := 1, h := 1, quad := false, variant := 0, img := 0, ctx := 0, task := 0, running := true, stopped := false,
    drain := none, frozen := false, records := [], shadow := false, switching := false, gen := 0, loader := ⟨.idle, 0, 0, false, [], 0, []⟩,
    nxt := 0, nxtv := 0, sig := 0, scrubAt := 0, repair := [], first := (0, 0), buffer := [], used := 0, reads := [], writes := [], begun := 0, clk := 0,
    quiet := false, bsync := none, chained := [], cause := 0, scr := 0, argAt := 0, argUnit := 0, argPort := 0, protect := [], stopWave := false,
    moving := false, marks := [] }

/-- s with a program word where the next step fetches its instruction (log entry 4): a region runs on tile 0, whose element has a node
program of one configuration word group with this word first, and a bead that has started it. -/
def State.withFetchWord (s : State) (_nbits w : Nat) : State :=
  let bead : Bead := ⟨0xFFFF, 0, 0, 0, [], 0, true, 0, 0⟩
  let bank : Bank := ⟨[(0, [BitVec.ofNat 64 (2 ^ 52), 0, 0, 0]), (1, [BitVec.ofNat 64 w, 0, 0, 0])], false, false⟩
  { s with
    agenda := .elem 0 :: s.agenda
    nregion := s.nregion + 1
    regions := tabSet s.nregion unitRegion s.regions
    tiles := tabSet 0 { s.tile 0 with region := some s.nregion, bank := false, bank0 := bank, beads := [bead] } s.tiles }

end Sys2Proof.Machine
end

