-- ==== Sys2Proof/Safety.lean ====
section
/-! DEFINITION. The terms in which claims speak: when an instruction of an element can issue, what an update leaves alone, and what a
safe step is. -/

namespace Sys2Proof.Machine

namespace State

/-- The running element's instruction has a lane to act on, and every source it names is full (R78, R124). -/
def canIssue (s : State) (run : Bool) (srcs : List Src) : Prop := run = true ∧ ∀ x ∈ srcs, s.me.full x.spec = true

/-- An instruction of Format A with n register sources can issue. -/
def canA (s : State) (f : FmtA) (n : Nat) : Prop := s.canIssue (executes (s.me.effMask f.pg f.ps) (!Spec.isX f.dst)) (srcsA f n)

/-- An instruction of Format I can issue; `src` says whether sa is a source. -/
def canI (s : State) (f : FmtI) (src : Bool) : Prop :=
  s.canIssue (executes (s.me.effMask f.pg f.ps) (!Spec.isX f.dst)) (if src then [⟨f.sa, f.fe == 1, 0⟩] else [])

/-- An instruction of Format C can issue. -/
def canC (s : State) (f : FmtC) (srcs : List Src) : Prop := s.canIssue (executes (s.me.effMask f.pg f.ps) true) srcs

/-- An instruction of Format M can issue: no acquire is pending before it (R155). -/
def canM (s : State) (f : FmtM) (vector source : Bool) : Prop :=
  s.canIssue (executes (s.me.effMask f.pg f.ps) vector)
    (if source then [⟨f.reg, f.fe.getLsbD 1, 0⟩, ⟨f.base, f.fe.getLsbD 0, 1⟩] else [⟨f.base, f.fe.getLsbD 0, 1⟩]) ∧ s.heldBack = false

/-- An instruction of Format Y with n register sources can issue: no acquire is pending before it (R155). -/
def canY (s : State) (f : FmtY) (n : Nat) : Prop := s.canIssue (executes (s.me.effMask f.pg f.ps) false) (srcsY f n) ∧ s.heldBack = false

/-- Nothing but the tiles differs, and of those tile t alone. -/
def onlyTile (s s' : State) (t : Nat) : Prop := s' = { s with tiles := s'.tiles } ∧ ∀ u, u ≠ t → s'.tile u = s.tile u

end State

namespace Tile

/-- What is left of the beads after an instruction that writes at most the slot dst and completes: the oldest bead goes on, its other
slots as before, or leaves the program; younger beads are as before. -/
def beadsKeep (T T' : Tile) (dst : BitVec 6) : Prop :=
  T'.beads = T.beads.drop 1
    ∨ ∃ b b' rest, T.beads = b :: rest ∧ T'.beads = b' :: rest ∧ b' = { b with pc := b.pc + 1, slots := b'.slots }
        ∧ ∀ k, k + 48 ≠ dst.toNat → b'.slots[k]? = b.slots[k]?

/-- A tile after an instruction that writes at most the register dst and completes: the other registers, and everything that is no
register, bead or pending operation, are as before; so is the rounding generator, unless the instruction draws from it. -/
def keeps (T T' : Tile) (dst : BitVec 6) (draws : Bool) : Prop :=
  (∀ k, k ≠ dst.toNat → T'.x[k]? = T.x[k]?) ∧ (∀ k, k + 32 ≠ dst.toNat → T'.v[k]? = T.v[k]?) ∧ (∀ k, k + 56 ≠ dst.toNat → T'.p[k]? = T.p[k]?)
    ∧ T' = { T with x := T'.x, v := T'.v, p := T'.p, beads := T'.beads, ops := T'.ops, gsr := T'.gsr } ∧ (draws = false → T'.gsr = T.gsr)
    ∧ T.beadsKeep T' dst

end Tile

/-- A step that does not stop. -/
def SafeStep (s : State) : Prop := ∃ t, step s = .next t

end Sys2Proof.Machine
end

