-- ==== Sys2Proof/Certificates/Slice0/Obligations.lean ====
section
/-! DEFINITION. The statements for the provers. Each says in its docstring which rules of the spec it formalises; hypotheses are on the
state and the operands alone. Terms used by several of them stand between them, and in Safety.lean. -/

open Sys2Proof Sys2Proof.Machine

/-! ### Encoding -/

/-- R80 to R85, R89: worked words of the spec, one or more of each of Formats A, C, I, M, X and Y, decode to the instructions they stand for:
FMA, ADDS and FEXPINS; SPLIT; MOVI; LD; MMA; ATOM. NOP is the word of zeros. The words of R89's example are refused: an unassigned op and a
function without an immediate form with OPC, a stream word in a program frame with FMT, and a source that is not used with RSVF. -/
def Obligations.ExampleWordsDecode : Prop :=
  decode 0x100F0C21C4028000 = .ok (.fma ⟨48, 48, 33, 49, 0, 0, 0, 10, 0, 0, 0⟩)
    ∧ decode 0x010A28C500008002 = .ok (.adds ⟨34, 35, 5, 0, 0, 0, 0, 2, 0, 0, 2⟩)
    ∧ decode 0x104E18A300028000 = .ok (.fexpins ⟨33, 34, 35, 0, 0, 0, 0, 10, 0, 0, 0⟩)
    ∧ decode 0x20080C001D000000 = .ok (.split ⟨0, 3, 0, 0, 0, 0, 58, 0, 0⟩)
    ∧ decode 0x0402100040400000 = .ok (.movi ⟨33, 0, 0, 0, 0, 0x40400000⟩)
    ∧ decode 0x3000310060004004 = .ok (.ld ⟨3, 4, 0, 0, 0, 6, 64, 0, 1, 0⟩)
    ∧ decode 0x40010A20C6DB0000 = .ok (.mma ⟨0, 1, 2, 1, 4, 3, 3, 3, 3, 3, 0, 0, 0, 0⟩)
    ∧ decode 0x3800518700003C00 = .ok (.atom ⟨5, 6, 7, 0, 0, 0, 0, 0, 3, 3, 0, 0⟩)
    ∧ decode 0 = .ok .nop
    ∧ decode 0x0740000000000000 = .error .opc
    ∧ decode 0x0508000000000000 = .error .opc
    ∧ decode 0x8500000000000000 = .error .fmt
    ∧ decode 0x0100000004008000 = .error .rsvf

/-- Every well-formed instruction that has a word is read back from it, with every operand (R79 to R88). -/
def Obligations.EncodedInstructionsDecode : Prop := ∀ i w, WellFormed i → encode i = some w → decode w = .ok i

/-- The other direction: whatever decodes is well-formed, and its word is the one read, so no bit of a word is ignored and no two words
stand for one instruction (R79, R89). -/
def Obligations.DecodedWordsEncode : Prop := ∀ w i, decode w = .ok i → WellFormed i ∧ encode i = some w

/-! ### The step and the machine after reset -/

/-- An element's turn runs the instruction its program word decodes to, at the index of its oldest bead (R54, R126); a turn of an event runs
the event, and one of a host transaction that waited runs it. The turn itself leaves the agenda. -/
def Obligations.StepRunsDecoded : Prop :=
  ∀ (s : State) (rest : List Turn) (i : Instr),
    (∀ t, s.agenda = .elem t :: rest → s.runs t = true → decode ((s.tile t).program (s.tile t).pc) = .ok i →
        step s = exec i { s with agenda := rest, here := t })
      ∧ (s.agenda = .op i :: rest → step s = exec i { s with agenda := rest })
      ∧ ∀ x, s.agenda = .tx x :: rest → (x.kind, i) ∈ [(0, Instr.rd x.h), (1, .wr x.h x.data), (2, .wrc x.h x.data), (3, .append x.h x.data),
          (4, .flush x.h), (5, .hostTfence x.h x.data)] → step s = exec i { s with agenda := rest }

/-- R349, R393, R395: the values that the spec gives the context blocks and the boot block for reset. -/
def Obligations.ResetValues : Prop :=
  State.reset.boot.bstate = 0 ∧ State.reset.boot.berr = 0 ∧ State.reset.boot.attst = 0 ∧ State.reset.boot.attlen = 0
    ∧ State.reset.boot.plim = 3000 ∧ State.reset.boot.tstate = 0
    ∧ State.reset.ctxs.length = 4
    ∧ ∀ c ∈ State.reset.ctxs, c.state = 0 ∧ c.fqhead = 0 ∧ c.fqtail = 0 ∧ c.vgrant = [0, 0, 0, 0] ∧ c.visible = false ∧ c.lost = 0

/-- No instruction and no event is refused, and none but a host transaction under ctx 4 (RD, WR, WRC) can fault; every other one answers a
next state, in every state. -/
def Obligations.OnlyHostAccessesStop : Prop :=
  ∀ (i : Instr) (s : State),
    (∀ q, exec i s ≠ .refused q)
      ∧ (∀ e, exec i s = .fault e → (∃ h, i = .rd h ∧ h.ctx = 4) ∨ (∃ h d, i = .wr h d ∧ h.ctx = 4) ∨ ∃ h d, i = .wrc h d ∧ h.ctx = 4)
      ∧ ((∀ h, i = .rd h → h.ctx ≠ 4) → (∀ h d, i = .wr h d → h.ctx ≠ 4) → (∀ h d, i = .wrc h d → h.ctx ≠ 4) → ∃ t, exec i s = .next t)

/-! ### How an instruction of an element issues and writes -/

namespace Sys2Proof.Machine

/-- The register files of an element have the sizes of R73. -/
def Tile.sized (T : Tile) : Prop := T.x.length = 32 ∧ T.v.length = 16 ∧ T.p.length = 8

/-- A specifier names a register that is there: X, V and P registers are; a slot is when the bead has it (R17, R74). -/
def Tile.has (T : Tile) (r : BitVec 6) : Prop := 48 ≤ r.toNat ∧ r.toNat < 56 → ∃ b, T.head? = some b ∧ r.toNat - 48 < b.slots.length

/-- The Format A instructions with an element or predicate destination, with their numbers of register sources that can be empty. -/
def aluInstrs (f : FmtA) : List (Instr × Nat) :=
  ([(.add f, 2), (.sub f, 2), (.adds f, 2), (.subs f, 2), (.mul f, 2), (.mulh f, 2), (.mad f, 3), (.div f, 2), (.rem f, 2), (.neg f, 1),
    (.abs f, 1), (.min f, 2), (.max f, 2)] : List (Instr × Nat))
  ++ ([(.and f, 2), (.or f, 2), (.xor f, 2), (.not f, 1), (.andn f, 2), (.shl f, 2), (.shr f, 2), (.sha f, 2), (.rot f, 2), (.clz f, 1),
    (.popc f, 1), (.brev f, 1), (.bext f, 2), (.bins f, 3)] : List (Instr × Nat))
  ++ ([(.cmp f, 2), (.sel f, 2), (.mov f, 1), (.movLane f, 1), (.movid f, 0), (.lea f, 2)] : List (Instr × Nat))
  ++ ([(.pfx f, 1), (.lnred f, 1), (.bcast f, 1), (.shuf f, 2), (.compact f, 1), (.expand f, 1)] : List (Instr × Nat))
  ++ ([(.por f, 2), (.pxor f, 2), (.pnot f, 1), (.pcnt f, 1)] : List (Instr × Nat))
  ++ ([(.fadd f, 2), (.fsub f, 2), (.fmul f, 2), (.fma f, 3), (.fms f, 3), (.fnma f, 3), (.fdiv f, 2), (.fsqrt f, 1), (.frcp f, 1),
    (.frsq f, 1), (.fmin f, 2), (.fmax f, 2), (.fabs f, 1), (.fneg f, 1), (.fcmp f, 2), (.fclass f, 1), (.frint f, 1), (.fgetexp f, 1),
    (.fexp2f f, 1), (.fexpins f, 2)] : List (Instr × Nat))
  ++ ([(.fcvt f, 1), (.fcvtFrom f, 1), (.ftoi f, 1), (.itof f, 1), (.fpack f, if blockLen (bits f.mod.toNat 0 5) = 16 then 1 else 2),
    (.funpack f, 1)] : List (Instr × Nat))

/-- The immediate instructions of Format I with sa as a source. -/
def immInstrs (f : FmtI) : List Instr :=
  [.addImm f, .subImm f, .mulImm f, .minImm f, .maxImm f, .andImm f, .orImm f, .xorImm f, .andnImm f, .shlImm f, .shrImm f, .shaImm f, .rotImm f]

end Sys2Proof.Machine

namespace Sys2Proof.Machine

/-- The instructions of Formats A and I that read a register, with what lets them execute, and their sources (R80, R81, R123). -/
def State.sourcedAI (s : State) (a : FmtA) (i : FmtI) : List (Instr × Bool × List Src) :=
  (aluInstrs a).map (fun q => (q.1, executes (s.me.effMask a.pg a.ps) (!Spec.isX a.dst), srcsA a q.2))
  ++ (immInstrs i).map (fun q => (q, executes (s.me.effMask i.pg i.ps) (!Spec.isX i.dst), [⟨i.sa, i.fe == 1, 0⟩]))
  ++ [(.movhi i, executes (s.me.effMask i.pg i.ps) false, [⟨i.dst, i.fe == 1, 0⟩])]

/-- Those of Formats C and M: bead instructions read slots, which have no F/E mode bit; loads read the base, stores the data register too, and
SLD and SST a pair (R82, R87, R148, R197). -/
def State.sourcedCM (s : State) (c : FmtC) (m : FmtM) : List (Instr × Bool × List Src) :=
  let slots := slotSrcs (allSlots s.me)
  let base : List Src := [⟨m.base, m.fe.getLsbD 0, 1⟩]
  let pair : List Src := [⟨m.base, m.fe.getLsbD 0, 1⟩, ⟨m.base + 1, m.fe.getLsbD 0, 1⟩]
  let data : Src := ⟨m.reg, m.fe.getLsbD 1, 0⟩
  let wide := m.sz == 7
  ([(.emit c, slotSrcs (emitSlots s.me c)), (.route c, ⟨c.sa, c.fe == 1, 0⟩ :: slots), (.split c, ⟨c.sa, c.fe == 1, 0⟩ :: slots), (.recirc c, slots),
    (.newb c, (List.range s.me.nslot).map fun k => ⟨c.sa + BitVec.ofNat 6 k, c.fe == 1 && c.sa + BitVec.ofNat 6 k == c.sa, 0⟩)]
      : List (Instr × List Src)).map (fun q => (q.1, executes (s.me.effMask c.pg c.ps) true, q.2))
  ++ ([(.ld m, false, base), (.pfetch m, false, base), (.ldv m, true, base), (.pld m, wide, base), (.sld m, wide, pair), (.st m, false, data :: base),
    (.stv m, true, data :: base), (.pst m, wide, data :: base), (.pclear m, false, data :: base), (.tfence m, false, data :: base),
    (.sst m, wide, data :: pair)] : List (Instr × Bool × List Src)).map (fun q => (q.1, executes (s.me.effMask m.pg m.ps) q.2.1, q.2.2))

/-- Those of Formats X and Y: the operands of a matrix instruction have no F/E mode bit, but for the metadata pair of MMAS and the data of
ACCWR (R84, R85). -/
def State.sourcedXY (s : State) (x : FmtX) (y : FmtY) : List (Instr × Bool × List Src) :=
  let two := operandSrcs x.ak x.sa 0 ++ operandSrcs x.bk x.sb 1
  ([(.mma x, false, two), (.mmas x, false, two ++ [⟨x.sc, x.fe == 1, 2⟩, ⟨x.sc + 1, x.fe == 1, 2⟩]), (.mmaw x, false, two),
    (.accrd x, true, [⟨x.sa, false, 0⟩]), (.accwr x, false, [⟨x.sa, false, 0⟩, ⟨x.sc, x.fe == 1, 2⟩]), (.acccvt x, true, [⟨x.sa, false, 0⟩]),
    (.seedx x, false, two), (.sfit x, true, two), (.ssrch x, true, two), (.lshb x, true, two), (.tpose x, false, two), (.quant x, false, two),
    (.deq x, false, two)] : List (Instr × Bool × List Src)).map (fun q => (q.1, executes (s.me.effMask x.pg x.ps) q.2.1, q.2.2))
  ++ ([(.atom y, if y.aop = 8 then 3 else 2), (.atomTree y, 2), (.wait y, 2), (.hbarArrive y, 2), (.hbarWait y, 2), (.hbarAw y, 2), (.bsync y, 2),
    (.cpy y, 2), (.dense y, 2), (.sparsify y, 2), (.a2a y, 2), (.coll y, 2), (.cpyChain y, 3), (.denseChain y, 3), (.sparsifyChain y, 3),
    (.a2aChain y, 3), (.collChain y, 3), (.chapp y, 2), (.taskq y, 1), (.lpatch y, 2), (.larm y, 1)]
      : List (Instr × Nat)).map (fun q => (q.1, executes (s.me.effMask y.pg y.ps) false, srcsY y q.2))
  ++ ([.cntrEv y, .cntrTask y] : List Instr).map (fun q => (q, executes (s.me.effMask y.pg y.ps) false, [⟨y.sb, y.fe.getLsbD 1, 1⟩]))

/-- Every instruction of an element but NOP, with what lets it execute: a lane of its effective mask, or lane 0 where its destination is an X
register or none (R78, R123). -/
def State.masked (s : State) (a : FmtA) (fi : FmtI) (c : FmtC) (m : FmtM) (x : FmtX) (y : FmtY) : List (Instr × Bool) :=
  (s.sourcedAI a fi ++ s.sourcedCM c m ++ s.sourcedXY x y).map (fun q => (q.1, q.2.1))
  ++ [(.pand a, executes (s.me.effMask a.pg a.ps) true), (.movi fi, executes (s.me.effMask fi.pg fi.ps) (!Spec.isX fi.dst))]
  ++ ([.sysrd fi, .trap fi, .halt fi] : List Instr).map (fun i => (i, executes (s.me.effMask fi.pg fi.ps) false))
  ++ ([.merge c, .accept c, .drop c, .hold c, .endb c, .tok c, .bari c, .swi c] : List Instr).map (fun i => (i, executes (s.me.effMask c.pg c.ps) true))
  ++ [(.fence m, executes (s.me.effMask m.pg m.ps) false), (.accz x, executes (s.me.effMask x.pg x.ps) false)]
  ++ ([.time y, .timeLeft y] : List Instr).map (fun i => (i, executes (s.me.effMask y.pg y.ps) false))

end Sys2Proof.Machine

/-- R78: an instruction of an element whose effective mask gives it no lane has no effect: it reads no source, so that it blocks on none,
writes nothing and starts no operation; its bead goes on. -/
def Obligations.NoLaneNoEffect : Prop :=
  ∀ (s : State) (a : FmtA) (fi : FmtI) (c : FmtC) (m : FmtM) (x : FmtX) (y : FmtY) (i : Instr),
    (i, false) ∈ s.masked a fi c m x y → exec i s = .next s.advance

/-- R124, for every instruction of an element that reads a register: a source that is empty blocks the element, which changes nothing; when any
empty source has its F/E mode bit set, FETRAP is taken instead, for an empty source with that bit. -/
def Obligations.EmptySourcesBlockOrTrap : Prop :=
  ∀ (s : State) (a : FmtA) (fi : FmtI) (c : FmtC) (m : FmtM) (x : FmtX) (y : FmtY) (i : Instr) (srcs : List Src),
    (i, true, srcs) ∈ s.sourcedAI a fi ++ s.sourcedCM c m ++ s.sourcedXY x y →
    (∃ x ∈ srcs, s.me.full x.spec = false) →
    ((∀ x ∈ srcs, s.me.full x.spec = false → x.fe = false) → exec i s = .next s)
      ∧ ((∃ x ∈ srcs, s.me.full x.spec = false ∧ x.fe = true) →
          ∃ x ∈ srcs, s.me.full x.spec = false ∧ x.fe = true ∧ exec i s = .next (s.trap (.fetrap x.spec.toNat x.pos)))

/-- R74, R78, R123, R125: what the shared write of an element-wise result does. An X destination takes element 0, sign- or zero-extended,
and is full; x0 discards it. In a V destination the elements whose lane the mask governs take their results, the others keep their
values, and the F/E bit is as before. -/
def Obligations.ElementResultsAreWritten : Prop :=
  ∀ (T : Tile) (dst : BitVec 6) (m : Mask) (w : Nat) (signed : Bool) (g : Nat → Nat),
    T.sized → T.has dst → w = 8 ∨ w = 16 ∨ w = 32 ∨ w = 64 → (∀ k, g k < 2 ^ w) →
    (Spec.isX dst = true →
        (T.writeElems dst m w signed g).readX dst.toNat = (if dst = 0 then 0 else extend (g 0) w signed)
          ∧ (T.writeElems dst m w signed g).full dst = true)
      ∧ (Spec.isV dst = true →
        (∀ j, j < 512 / w → elem ((T.writeElems dst m w signed g).readV dst) w j
            = if m.getLsbD (if w = 64 then 2 * j else w * j / 32) then g j else elem (T.readV dst) w j)
          ∧ (T.writeElems dst m w signed g).full dst = T.full dst)

/-! ### Integer and logical results -/

namespace Sys2Proof

/-- Wherever it can issue, a Format A instruction with n sources completes by writing the code `g T k` as element k of its destination. -/
def FmtA.gives (f : FmtA) (i : Instr) (n w : Nat) (signed : Bool) (g : Tile → Nat → Nat) : Prop :=
  ∀ s : State, s.canA f n → exec i s = .next (s.onMe fun T => T.writeElems f.dst (T.effMask f.pg f.ps) w signed (g T)).advance

/-- The same for Format I, at 64 bits with an X destination and 32 in every lane otherwise (R81). -/
def FmtI.gives (f : FmtI) (i : Instr) (g : Nat → Nat → Nat) : Prop :=
  ∀ s : State, s.canI f true → exec i s = .next (s.onMe fun T =>
    T.writeElems f.dst (T.effMask f.pg f.ps) (immWidth f) true fun k => g (immWidth f) (T.srcElem f.sa (immWidth f) k)).advance

/-- An integer instruction with n sources gives the exact result t of its operands' values, saturated when sat = 1 and wrapped otherwise
(R101, R128). -/
def FmtA.int (f : FmtA) (i : Instr) (n : Nat) (t : Nat → Int → Int → Int → Int) : Prop :=
  let w := Spec.tyWidth f.ty.toNat
  let int := Spec.tyInt f.ty.toNat
  f.gives i n w int fun T k =>
    let x := t w (intVal int w (T.srcElem f.sa w k)) (intVal int w (T.srcElem f.sb w k)) (intVal int w (T.srcElem f.sc w k))
    wrap (if f.sat = 1 then satT int w x else x) w

/-- A bit operation with n sources gives a pattern; `nat` says that its result is NAT whatever the type (R131). -/
def FmtA.pattern (f : FmtA) (i : Instr) (n : Nat) (nat : Bool) (g : Nat → Nat → Nat → Nat → Nat) : Prop :=
  let w := Spec.tyWidth f.ty.toNat
  f.gives i n w (Spec.tyInt f.ty.toNat && !nat) fun T k => g w (T.srcElem f.sa w k) (T.srcElem f.sb w k) (T.srcElem f.sc w k)

end Sys2Proof

/-- R128 to R130: the results of the integer group and of its immediate forms. Division truncates toward zero, by zero it gives all ones,
and the remainder the dividend; nothing faults. -/
def Obligations.IntegerResults : Prop :=
  (∀ f : FmtA,
    f.int (.add f) 2 (fun _ a b _ => a + b) ∧ f.int (.sub f) 2 (fun _ a b _ => a - b)
      ∧ f.int (.adds f) 2 (fun _ a b _ => a + b * 2 ^ bits f.mod.toNat 0 6) ∧ f.int (.subs f) 2 (fun _ a b _ => a - b * 2 ^ bits f.mod.toNat 0 6)
      ∧ f.int (.mul f) 2 (fun _ a b _ => a * b) ∧ f.int (.mulh f) 2 (fun w a b _ => (a * b).fdiv (2 ^ w))
      ∧ f.int (.mad f) 3 (fun _ a b c => a * b + c)
      ∧ f.int (.neg f) 1 (fun _ a _ _ => -a) ∧ f.int (.abs f) 1 (fun _ a _ _ => if a < 0 then -a else a)
      ∧ f.int (.min f) 2 (fun _ a b _ => if a ≤ b then a else b) ∧ f.int (.max f) 2 (fun _ a b _ => if a ≤ b then b else a)
      ∧ (let w := Spec.tyWidth f.ty.toNat
         let int := Spec.tyInt f.ty.toNat
         f.gives (.div f) 2 w int (fun T k =>
            let a := intVal int w (T.srcElem f.sa w k)
            let b := intVal int w (T.srcElem f.sb w k)
            if b = 0 then 2 ^ w - 1 else wrap (if f.sat = 1 then satT int w (a.tdiv b) else a.tdiv b) w)
          ∧ f.gives (.rem f) 2 w int (fun T k =>
            let a := intVal int w (T.srcElem f.sa w k)
            let b := intVal int w (T.srcElem f.sb w k)
            wrap (if b = 0 then a else a.tmod b) w)))
    ∧ ∀ f : FmtI,
      f.gives (.addImm f) (fun w a => wrap (sext a w + sext f.imm.toNat 32) w)
        ∧ f.gives (.subImm f) (fun w a => wrap (sext a w - sext f.imm.toNat 32) w)
        ∧ f.gives (.mulImm f) (fun w a => wrap (sext a w * sext f.imm.toNat 32) w)
        ∧ f.gives (.minImm f) (fun w a => wrap (if sext a w ≤ sext f.imm.toNat 32 then sext a w else sext f.imm.toNat 32) w)
        ∧ f.gives (.maxImm f) (fun w a => wrap (if sext a w ≤ sext f.imm.toNat 32 then sext f.imm.toNat 32 else sext a w) w)

/-- R131, R132: the results of the logical and bit group and of its immediate forms, on w-bit patterns. That the results of CLZ, POPC and BREV
are NAT whatever the type is the model's choice (log entry 10). -/
def Obligations.LogicalResults : Prop :=
  (∀ f : FmtA,
    let len := bits f.mod.toNat 0 6 + 1
    f.pattern (.and f) 2 false (fun _ a b _ => a &&& b) ∧ f.pattern (.or f) 2 false (fun _ a b _ => a ||| b)
      ∧ f.pattern (.xor f) 2 false (fun _ a b _ => a ^^^ b) ∧ f.pattern (.not f) 1 false (fun w a _ _ => 2 ^ w - 1 - a)
      ∧ f.pattern (.andn f) 2 false (fun w a b _ => a &&& (2 ^ w - 1 - b))
      ∧ f.pattern (.shl f) 2 false (fun w a b _ => if w ≤ b % 256 then 0 else a * 2 ^ (b % 256) % 2 ^ w)
      ∧ f.pattern (.shr f) 2 false (fun w a b _ => if w ≤ b % 256 then 0 else a / 2 ^ (b % 256))
      ∧ f.pattern (.sha f) 2 false (fun w a b _ => wrap ((sext a w).fdiv (2 ^ min (b % 256) w)) w)
      ∧ f.pattern (.rot f) 2 false (fun w a b _ => (a * 2 ^ (b % 256 % w) + a / 2 ^ (w - b % 256 % w)) % 2 ^ w)
      ∧ f.pattern (.clz f) 1 true (fun w a _ _ => Sys2Proof.Machine.clz a w) ∧ f.pattern (.popc f) 1 true (fun w a _ _ => popcount a w)
      ∧ f.pattern (.brev f) 1 true (fun w a _ _ => bitReverse a w)
      ∧ f.pattern (.bext f) 2 false (fun w a b _ =>
          let x := a / 2 ^ (b % 256) % 2 ^ len
          if Spec.tyInt f.ty.toNat then wrap (sext x len) w else x % 2 ^ w)
      ∧ f.pattern (.bins f) 3 false (fun w a b c =>
          let m := (2 ^ len - 1) * 2 ^ (c % 256) % 2 ^ w
          (a &&& (2 ^ w - 1 - m)) ||| (b * 2 ^ (c % 256) &&& m)))
    ∧ ∀ f : FmtI,
      let n := f.imm.toNat
      f.gives (.andImm f) (fun w a => a &&& wrap (sext n 32) w) ∧ f.gives (.orImm f) (fun w a => a ||| wrap (sext n 32) w)
        ∧ f.gives (.xorImm f) (fun w a => a ^^^ wrap (sext n 32) w) ∧ f.gives (.andnImm f) (fun w a => a &&& (2 ^ w - 1 - wrap (sext n 32) w))
        ∧ f.gives (.shlImm f) (fun w a => if w ≤ n then 0 else a * 2 ^ n % 2 ^ w) ∧ f.gives (.shrImm f) (fun w a => if w ≤ n then 0 else a / 2 ^ n)
        ∧ f.gives (.shaImm f) (fun w a => wrap ((sext a w).fdiv (2 ^ min n w)) w)
        ∧ f.gives (.rotImm f) (fun w a => (a * 2 ^ (n % w) + a / 2 ^ (w - n % w)) % 2 ^ w)

/-! ### Compare, move, lanes and predicates -/

namespace Sys2Proof

/-- Wherever it can issue, a Format A instruction with n sources completes by this change of its tile. -/
def FmtA.does (f : FmtA) (i : Instr) (n : Nat) (g : Mask → Tile → Tile) : Prop :=
  ∀ s : State, s.canA f n → exec i s = .next (s.onMe fun T => g (T.effMask f.pg f.ps) T).advance

end Sys2Proof

/-- R81, R133, R134, R76: compare, select, move and load of an address or an immediate. -/
def Obligations.CompareAndMoveResults : Prop :=
  (∀ f : FmtA,
    (let w := Spec.tyWidth f.ty.toNat
     let v := fun (T : Tile) (r : BitVec 6) (k : Nat) => intVal (Spec.tyInt f.ty.toNat) w (T.srcElem r w k)
     let holds := fun (a b : Int) => match bits f.mod.toNat 0 4 with
       | 0 => decide (a = b) | 1 => decide (a ≠ b) | 2 => decide (a < b) | 3 => decide (a ≤ b) | 4 => decide (b < a) | _ => decide (b ≤ a)
     f.does (.cmp f) 2 fun m T => T.writeP (f.dst.toNat - 56)
       (maskOf fun l => let k := if Spec.isX f.sa && Spec.isX f.sb then 0 else l * 32 / w; holds (v T f.sa k) (v T f.sb k)) m)
      ∧ f.does (.sel f) 2 (fun m T =>
          if Spec.isX f.dst then T.writeX f.dst.toNat (if (T.srcPred f.sc).getLsbD 0 then T.readX f.sa.toNat else T.readX f.sb.toNat)
          else T.writeV f.dst (merge (T.srcVec f.sb) (T.srcVec f.sa) (T.srcPred f.sc)) m)
      ∧ f.does (.mov f) 1 (fun m T =>
          if Spec.isP f.dst then T.writeP (f.dst.toNat - 56) (T.srcPred f.sa) m
          else if Spec.isX f.dst then T.writeX f.dst.toNat (T.readX f.sa.toNat) else T.writeV f.dst (T.srcVec f.sa) m)
      ∧ f.does (.movLane f) 1 (fun _ T =>
          let w := Spec.tyWidth f.ty.toNat
          T.writeX f.dst.toNat (extend (bits (T.readV f.sa).toNat (32 * bits f.mod.toNat 0 4) w) w (Spec.tyInt f.ty.toNat)))
      ∧ f.does (.movid f) 0 (fun m T =>
          let v := T.ids.getD f.sa.toNat 0
          if Spec.isX f.dst then T.writeX f.dst.toNat v else T.writeV f.dst (splat (v.setWidth 32)) m)
      ∧ f.does (.lea f) 2 (fun _ T => T.writeX f.dst.toNat
          (T.readX f.sa.toNat + (T.readX f.sb.toNat <<< bits f.mod.toNat 0 3) + BitVec.ofInt 64 (sext (bits f.mod.toNat 3 7) 7))))
    ∧ ∀ (f : FmtI) (s : State),
      (s.canI f false → exec (.movi f) s = .next (s.onMe fun T =>
          if Spec.isX f.dst then T.writeX f.dst.toNat (f.imm.signExtend 64) else T.writeV f.dst (splat f.imm) (T.effMask f.pg f.ps)).advance)
        ∧ (s.canIssue ((s.me.effMask f.pg f.ps).getLsbD 0) [⟨f.dst, f.fe == 1, 0⟩] → exec (.movhi f) s = .next (s.onMe fun T =>
          T.writeX f.dst.toNat (f.imm ++ (T.readX f.dst.toNat).setWidth 32)).advance)

/-- R135 to R137: lane and predicate operations. PAND with mod[0] = 1 also takes the lanes whose result is 0 out of the bead, which
retires when none is left. -/
def Obligations.LaneAndPredicateResults : Prop :=
  ∀ f : FmtA,
    f.does (.pfx f) 1 (fun m T => T.writeV f.dst (lanesAt (scanOf f m T (f.mod.getLsbD 0)).1) m)
      ∧ f.does (.lnred f) 1 (fun m T => T.writeV f.dst (splat (BitVec.ofNat 32 (scanOf f m T false).2)) m)
      ∧ f.does (.bcast f) 1 (fun m T => T.writeV f.dst (splat (lane (T.readV f.sa) (bits f.mod.toNat 0 4))) m)
      ∧ f.does (.shuf f) 2 (fun m T => T.writeV f.dst (pack 32 ((List.range 16).map fun i =>
          let b := elem (T.readV f.sb) 32 i
          if bit b 31 then 0 else elem (T.readV f.sa) 32 (b % 16))) m)
      ∧ f.does (.compact f) 1 (fun m T => T.writeV f.dst (pack 32 ((lanesIn (T.srcPred f.sc)).map fun j => elem (T.readV f.sa) 32 j)) m)
      ∧ f.does (.expand f) 1 (fun m T => T.writeV f.dst (pack 32 ((List.range 16).map fun i =>
          if (T.srcPred f.sc).getLsbD i then elem (T.readV f.sa) 32 (popcount ((T.srcPred f.sc).toNat % 2 ^ i) 16) else 0)) m)
      ∧ f.does (.por f) 2 (fun m T => T.writeP (f.dst.toNat - 56) (T.srcPred f.sa ||| T.srcPred f.sb) m)
      ∧ f.does (.pxor f) 2 (fun m T => T.writeP (f.dst.toNat - 56) (T.srcPred f.sa ^^^ T.srcPred f.sb) m)
      ∧ f.does (.pnot f) 1 (fun m T => T.writeP (f.dst.toNat - 56) (~~~T.srcPred f.sa) m)
      ∧ f.does (.pcnt f) 1 (fun m T => T.writeV f.dst (splat (BitVec.ofNat 32 (popcount (T.srcPred f.sa &&& T.lmask).toNat 16))) m)
      ∧ (f.mod.getLsbD 0 = false → f.does (.pand f) 2 fun m T => T.writeP (f.dst.toNat - 56) (T.srcPred f.sa &&& T.srcPred f.sb) m)
      ∧ ∀ s : State, f.mod.getLsbD 0 = true → s.me.effMask f.pg f.ps ≠ 0 →
          let v := s.me.srcPred f.sa &&& s.me.srcPred f.sb
          let m := s.me.effMask f.pg f.ps
          let left := s.me.lmask &&& ~~~(m &&& ~~~v)
          let t := s.onMe fun T => (T.writeP (f.dst.toNat - 56) v m).onHead fun b => { b with lmask := left }
          exec (.pand f) s = .next (if left = 0 then t.leave else t.advance)

/-! ### Floating point -/

namespace Sys2Proof

/-- A floating-point instruction with n sources gives the code g of its operands' codes, in its type's format. -/
def FmtA.fp (f : FmtA) (i : Instr) (n : Nat) (g : Fmt → Nat → Nat → Nat → Nat) : Prop :=
  let w := Spec.tyWidth f.ty.toNat
  f.gives i n w false fun T k => g (fmtOfTy f.ty.toNat) (T.srcElem f.sa w k) (T.srcElem f.sb w k) (T.srcElem f.sc w k)

/-- One that rounds once: the first NaN among its operands, quieted, or the exact value v rounded (R102, R103). -/
def FmtA.rounds (f : FmtA) (i : Instr) (n : Nat) (v : Val → Val → Val → Val) : Prop :=
  f.fp i n fun F a b c =>
    let x := F.value a
    let y := F.value b
    let z := F.value c
    roundVal F f.rm.toNat (f.sat == 1) 0 ((Val.firstNan ([x, y, z].take n)).getD (v x y z))

end Sys2Proof

/-- R102, R103, R138 to R141: floating-point results. rm = 3 decides the sign of an exact zero sum. -/
def Obligations.FloatResults : Prop :=
  ∀ f : FmtA,
    let dn := f.rm == 3
    f.rounds (.fadd f) 2 (fun a b _ => Val.add dn a b) ∧ f.rounds (.fsub f) 2 (fun a b _ => Val.add dn a b.neg)
      ∧ f.rounds (.fmul f) 2 (fun a b _ => a.mul b) ∧ f.rounds (.fma f) 3 (fun a b c => Val.add dn (a.mul b) c)
      ∧ f.rounds (.fms f) 3 (fun a b c => Val.add dn (a.mul b) c.neg) ∧ f.rounds (.fnma f) 3 (fun a b c => Val.add dn (a.mul b).neg c)
      ∧ f.rounds (.fdiv f) 2 (fun a b _ => a.div b) ∧ f.rounds (.fsqrt f) 1 (fun a _ _ => a.sqrt)
      ∧ f.rounds (.frcp f) 1 (fun a _ _ => (Val.fin (Q.ofNat 1)).div a) ∧ f.rounds (.frsq f) 1 (fun a _ _ => a.rsqrt)
      ∧ f.fp (.fmin f) 2 (fun F a b _ => fminmax F false a b) ∧ f.fp (.fmax f) 2 (fun F a b _ => fminmax F true a b)
      ∧ f.fp (.fabs f) 1 (fun F a _ _ => a % F.signBit) ∧ f.fp (.fneg f) 1 (fun F a _ _ => a ^^^ F.signBit)
      ∧ f.fp (.fclass f) 1 (fun F a _ _ => fclassOf F a) ∧ f.fp (.frint f) 1 (fun F a _ _ => frintCode F f.rm.toNat a)
      ∧ f.fp (.fgetexp f) 1 (fun F a _ _ => fgetexpCode F a) ∧ f.fp (.fexp2f f) 1 (fun _ a _ _ => exp2f a)
      ∧ f.fp (.fexpins f) 2 (fun F a b _ => fexpinsCode F f.rm.toNat (f.sat == 1) a (sext b F.width))
      ∧ (let w := Spec.tyWidth f.ty.toNat
         let F := fmtOfTy f.ty.toNat
         f.does (.fcmp f) 2 fun m T => T.writeP (f.dst.toNat - 56)
          (maskOf fun l =>
            let k := if Spec.isX f.sa && Spec.isX f.sb then 0 else l * 32 / w
            fcmpHolds (bits f.mod.toNat 0 4) (F.value (T.srcElem f.sa w k)) (F.value (T.srcElem f.sb w k))) m)

/-- R109 to R111, R142 to R144: conversions and the packing of blocks. Each element is converted by the rules of its formats; with the
stochastic mode each written element takes one draw of the element's generator, in ascending order. -/
def Obligations.ConversionResults : Prop :=
  ∀ f : FmtA,
    let fmtD := if f.mod.getLsbD 5 then fp64 else fmtOfCode (bits f.mod.toNat 0 5)
    let T1 := fmtOfTy f.ty.toNat
    let c5 := bits f.mod.toNat 0 5
    f.does (.fcvt f) 1 (fun m T => convertTile T f m T1.width fmtD.width false fun c r => convert fmtD f.rm.toNat (f.sat == 1) r (T1.value c))
      ∧ f.does (.fcvtFrom f) 1 (fun m T => convertTile T f m (fmtOfCode c5).width T1.width false
          fun c r => convert T1 f.rm.toNat (f.sat == 1) r ((fmtOfCode c5).value c))
      ∧ f.does (.ftoi f) 1 (fun m T =>
          let ty := bits f.mod.toNat 0 3
          convertTile T f m T1.width (Spec.tyWidth ty) (Spec.tyInt ty)
            fun c r => toInteger (Spec.tyInt ty) (Spec.tyWidth ty) f.rm.toNat r (T1.value c))
      ∧ f.does (.itof f) 1 (fun m T =>
          let w := Spec.tyWidth f.ty.toNat
          convertTile T f m w fmtD.width false
            fun c r => Sys2Proof.Machine.round fmtD f.rm.toNat (f.sat == 1) r (Q.ofInt (intVal (Spec.tyInt f.ty.toNat) w c)))
      ∧ f.does (.fpack f) (if blockLen c5 = 16 then 1 else 2) (fun m T =>
          let n := blockLen c5
          let xs := (List.range n).map fun i => fp32.value (if i < 16 then elem (T.readV f.sa) 32 i else elem (T.readV f.sb) 32 (i - 16))
          let draws := if f.rm = 5 then srDraws n T.gsr else (T.gsr, [])
          let block := packBlock c5 f.rm.toNat xs draws.2
          { T.writeV f.dst (packedBlock c5 block.1 block.2) m with gsr := draws.1 })
      ∧ f.does (.funpack f) 1 (fun m T =>
          let v := (T.readV f.sa).toNat
          T.writeV f.dst (pack 32 ((List.range 16).map fun i =>
            convert fp32 f.rm.toNat (f.sat == 1) 0
              (blockValue c5 (bits v 480 (8 * sideBytes c5)) (packedElem v (elemBits c5) (16 * bits f.mod.toNat 6 1 + i))))) m)

/-- R78, R125: what an instruction that writes one register leaves alone. Nothing but the element's own tile differs, and there nothing
but the destination, the bead's place in the program and the claims of pending operations; the rounding generator differs only after a
conversion or a packing. Every byte of memory, and of every scratchpad, reads as before. -/
def Obligations.RegisterInstructionsFrame : Prop :=
  (∀ (f : FmtA) (s t : State) i n, (i, n) ∈ aluInstrs f → s.canA f n → exec i s = .next t →
      s.onlyTile t s.here
        ∧ s.me.keeps t.me f.dst (i matches .fcvt _ | .fcvtFrom _ | .ftoi _ | .itof _ | .fpack _)
        ∧ (∀ a, memGet a t.mem = memGet a s.mem) ∧ ∀ u a, memGet a (t.tile u).scratch = memGet a (s.tile u).scratch)
    ∧ (∀ (f : FmtI) (s t : State) i, i ∈ immInstrs f → s.canI f true → exec i s = .next t →
      s.onlyTile t s.here ∧ s.me.keeps t.me f.dst false ∧ (∀ a, memGet a t.mem = memGet a s.mem)
        ∧ ∀ u a, memGet a (t.tile u).scratch = memGet a (s.tile u).scratch)
    ∧ ∀ (f : FmtI) (s t : State),
      (s.canI f false ∧ exec (.movi f) s = .next t)
        ∨ (s.canIssue ((s.me.effMask f.pg f.ps).getLsbD 0) [⟨f.dst, f.fe == 1, 0⟩] ∧ exec (.movhi f) s = .next t) →
      s.onlyTile t s.here ∧ s.me.keeps t.me f.dst false ∧ (∀ a, memGet a t.mem = memGet a s.mem)
        ∧ ∀ u a, memGet a (t.tile u).scratch = memGet a (s.tile u).scratch

/-! ### Beads -/

namespace Sys2Proof.Machine

/-- Every output port named has credit for what is to be put on it (R30). -/
def State.fits (s : State) (ports : List (Nat × List Beat)) : Prop :=
  ∀ p ∈ ports, (s.me.outQ p.1).beats.length + ((ports.filter fun q => q.1 == p.1).map fun q => q.2.length).sum ≤ 16

/-- The running element's outputs with these beats put behind those they hold (R13). -/
def State.sends (s : State) (ports : List (Nat × List Beat)) : State := s.onMe fun T => ports.foldl (fun T p => T.pushOut p.1 p.2) T

/-- An instruction that emits: it waits, changing nothing, while a port has no room for what it emits, or an earlier access of the element
has not been performed, and otherwise emits and goes on as `after` says (R19, R30, R265). -/
def State.emitsThen (s : State) (i : Instr) (ports : List (Nat × List Beat)) (after : State → State) : Prop :=
  (s.me.unperformed = false → s.fits ports → exec i s = .next (after (s.sends ports)))
    ∧ (s.me.unperformed = true ∨ ¬ s.fits ports → exec i s = .next s)

end Sys2Proof.Machine

/-- R17, R19, R145, R148, R149: what the instructions that emit beads and tokens put where, and which of them end the bead. R148 to R150:
the instructions that take a beat from a side input, drop lanes, hold, or switch the element's bank. A side input with nothing to take, an
operation still outstanding, or a region that is not shadow-ready keeps the element waiting. An element that switches takes its place in its
array node under the new image (R51). R265: what emits waits for the element's earlier accesses. That an output holds at most sixteen staged
beats (log entry 6), that ACCEPT writes its P register only in lanes of the effective mask (log entry
11), and that a merged bead keeps its own moment of arrival (log entry 12), are the model's choices. -/
def Obligations.BeadPortInstructions : Prop :=
  (∀ (f : FmtC) (s : State),
      let m := s.me.effMask f.pg f.ps
      let b := headBead s.me
      let all := slotSrcs (allSlots s.me)
      let vs := slotVals s.me (allSlots s.me)
      let outs := setBits f.pout
      exec .nop s = .next s.advance
        ∧ (s.canC f (slotSrcs (emitSlots s.me f)) →
            s.emitsThen (.emit f) (outs.map fun k => (k, emitBeats s.me s.myCtx f m k)) State.advance)
        ∧ (s.canC f (⟨f.sa, f.fe == 1, 0⟩ :: all) →
            let k := (s.me.readX f.sa.toNat).toNat % 4
            (f.pout.getLsbD k = true → s.emitsThen (.route f) [(k, Beat.ofBead s.myCtx { b with lmask := m, tag := f.tgt } vs)] State.leave)
              ∧ (f.pout.getLsbD k = false → exec (.route f) s = .next (s.leave.count (dieOf s.here) .routeDiscard)))
        ∧ (s.canC f (⟨f.sa, f.fe == 1, 0⟩ :: all) →
            let sel := s.me.srcPred f.sa &&& m
            let half := fun (l : Mask) => if l = 0 then [] else Beat.ofBead s.myCtx { b with lmask := l } vs
            s.emitsThen (.split f) [(outs.headD 0, half sel), (outs.getLastD 0, half (b.lmask &&& ~~~sel))] State.leave)
        ∧ (s.canC f all →
            s.emitsThen (.recirc f)
              [(outs.headD 0, Beat.ofBead s.myCtx { b with lmask := m, loopc := if b.loopc = 255 then 255 else b.loopc + 1 } vs)] State.leave)
        ∧ (let rs := (List.range s.me.nslot).map fun k => f.sa + BitVec.ofNat 6 k
           let k := outs.headD 0
           s.canC f (rs.map fun r => ⟨r, f.fe == 1 && r == f.sa, 0⟩) →
            s.emitsThen (.newb f) [(k, Beat.ofBead s.myCtx ⟨m, 0, s.me.bseq.getD k 0, f.tgt, [], 0, false, 0, 0⟩ (rs.map s.me.readV))] fun s =>
              (s.onMe fun T => { T with bseq := T.bseq.set k (T.bseq.getD k 0 + 1) }).advance)
        ∧ (s.canC f [] →
            s.emitsThen (.tok f)
              (outs.map fun k => (k, [if f.lvl = 15 then .control 4 0 s.myCtx 0 else .control 3 f.lvl.toNat s.myCtx 0])) State.advance
            ∧ s.emitsThen (.bari f) (outs.map fun k => (k, [.control 5 0 s.myCtx f.tgt.toNat])) State.advance
            ∧ exec (.endb f) s = .next s.leave))
  ∧ (∀ (f : FmtC) (s : State),
      let m := s.me.effMask f.pg f.ps
      let k := (setBits f.pin).headD 0
      s.canC f [] →
        (s.me.inHead k = none → exec (.accept f) s = .next s ∧ exec (.merge f) s = .next s)
        ∧ (∀ h, s.me.inHead k = some h →
            let lanes := maskOf fun i => i < h.count
            (h.kind ≤ 2 → exec (.accept f) s = .next (s.onMe fun T =>
                ((T.popIn k).writeV f.sa (h.data &&& laneBits lanes) m).writeP (bits f.tgt.toNat 0 3) lanes m).advance)
              ∧ (h.kind = 3 ∨ h.kind = 4 →
                  exec (.accept f) s = .next (s.onMe fun T =>
                    ((T.popIn k).writeV f.sa (splat (BitVec.ofNat 32 (h.kind + 16 * h.stop))) m).writeP (bits f.tgt.toNat 0 3) 0 m).advance
                  ∧ exec (.merge f) s = .next ((s.onMe fun T => T.popIn k).count (dieOf s.here) .mergeStop).advance))
        ∧ (∀ h vs n, beadAt (s.me.inQ k) = some (h, vs, n) →
            let b := headBead s.me
            let other : Mask := BitVec.ofNat 16 h.data.toNat
            ∃ t, exec (.merge f) s = .next t ∧ s.onlyTile { t with dies := s.dies } s.here
              ∧ t = (if other &&& b.lmask = 0 then id else fun (u : State) => u.count (dieOf s.here) .mergeOverlap)
                  ((s.onMe fun T => ((T.setInQ k ⟨(T.inQ k).beats.drop n, 0⟩).popStamp k).onHead fun _ =>
                    { b with
                      lmask := b.lmask ||| other
                      loopc := BitVec.ofNat 8 (max b.loopc.toNat (bits h.data.toNat 48 8))
                      bseq := if s.me.stampAt k < b.stamp then BitVec.ofNat 16 (bits h.data.toNat 32 16) else b.bseq
                      slots := (List.range b.slots.length).map fun j =>
                        ⟨merge (b.slots.getD j ⟨0, false⟩).val (vs.getD j 0) (other &&& ~~~b.lmask), (b.slots.getD j ⟨0, false⟩).full⟩ })).advance)
        ∧ (let left := s.me.lmask &&& ~~~m
           exec (.drop f) s = .next (if left = 0 then s.leave else (s.onMe fun T => T.onHead fun b => { b with lmask := left }).advance))
        ∧ (s.me.ops = [] → exec (.hold f) s = .next s.advance) ∧ (s.me.ops ≠ [] → exec (.hold f) s = .next s)
        ∧ ∀ r g, s.regionOf s.here = some (r, g) →
            (g.shadow = false → exec (.swi f) s = .next s)
              ∧ (g.shadow = true →
                  s.emitsThen (.swi f) ((setBits f.pout).map fun k => (k, [.control 6 0 s.myCtx (bits g.gen.toNat 0 32)])) fun s =>
                    (s.advance.onMe fun T => s.takeArray g s.here (T.onUnit 0 UState.switch)).setRegion r { g with switching := true }))

/-- R123: the bead instructions, once they can issue, leave every byte of memory and of every scratchpad, every X, V and P register but the
one that ACCEPT names, and every other tile as they were. -/
def Obligations.BeadInstructionsFrame : Prop :=
  ∀ (f : FmtC) (s t : State) (i : Instr) (srcs : List Src),
    (i, srcs) ∈ [(.emit f, slotSrcs (emitSlots s.me f)), (.route f, ⟨f.sa, f.fe == 1, 0⟩ :: slotSrcs (allSlots s.me)),
      (.split f, ⟨f.sa, f.fe == 1, 0⟩ :: slotSrcs (allSlots s.me)), (.merge f, []), (.recirc f, slotSrcs (allSlots s.me)), (.accept f, []),
      (.drop f, []), (.hold f, []),
      (.newb f, (List.range s.me.nslot).map fun k => ⟨f.sa + BitVec.ofNat 6 k, f.fe == 1 && f.sa + BitVec.ofNat 6 k == f.sa, 0⟩),
      (.endb f, []), (.tok f, []), (.bari f, []), (.swi f, [])] →
    s.canC f srcs → exec i s = .next t →
    (∀ a, memGet a t.mem = memGet a s.mem) ∧ (∀ u a, memGet a (t.tile u).scratch = memGet a (s.tile u).scratch)
      ∧ (∀ u, u ≠ s.here → t.tile u = s.tile u) ∧ t.me.x = s.me.x
      ∧ (i ≠ .accept f → t.me.v = s.me.v ∧ t.me.p = s.me.p)
      ∧ (∀ j, j + 32 ≠ f.sa.toNat → t.me.v[j]? = s.me.v[j]?) ∧ ∀ j, j ≠ bits f.tgt.toNat 0 3 → t.me.p[j]? = s.me.p[j]?

/-! ### Memory -/

namespace Sys2Proof.Machine

/-- The running element has nothing still to do to n bytes of a page that a load of them would pass (R155, R269). -/
def State.inOrder (s : State) (q : Page) (n : Nat) : Prop := s.loading q.pa n = false ∧ (q.cls = 2 → s.pendingOn q.pa = false)

/-- Reading n bytes at a place that R152 gives answers these bytes and leaves this state. -/
def State.readsAt (s : State) (w : Want) (p : Place) (n : Nat) (s' : State) (bs : List Byte) : Prop :=
  match p with
  | .scratch t off => s.scratchBad t off n = false ∧ s' = s ∧ bs = (List.range n).map fun i => memGet (off + i) (s.tile t).scratch
  | .vault pa => ∃ r g, s.regionOf s.here = some (r, g) ∧ s.fetch r ⟨pa, 24, 0⟩ (pa - vaultBase) n = (s', .now bs)
  | .virt va spill => ∃ r g s₁ q, s.regionOf s.here = some (r, g)
      ∧ s.page s.site none g.ctx va (if spill then .spill false else w) = (s₁, .ok q) ∧ s₁.inOrder q n ∧ s₁.barred q.pa va = none
      ∧ s₁.fetch r q va n = (s', .now bs)

/-- A store of a region's task enters the store buffer, and the write signature (R31, R38, R424). -/
def State.buffers (s : State) (r : Nat) (h : HeldStore) (s' : State) : Prop :=
  ∃ g, s.region? r = some g ∧ g.used + entriesOf h ≤ g.capacity
    ∧ s' = (s.setRegion r { g with
        buffer := g.buffer ++ [h]
        used := g.used + entriesOf h
        writes := g.writes ++ (storeLocs h).filter fun l => !g.writes.contains l }).countBy g.die .bufferBytes (heldBytes h)

/-- Storing bytes, given by offset, at a place leaves this state: a scratchpad holds them at once, other places after the commit. -/
def State.storesAt (s : State) (p : Place) (data : State.Bytes) (s' : State) : Prop :=
  match p with
  | .scratch t off => s' = s.onTile t fun T => T.writeScratch (data.map fun d => (off + d.1, d.2))
  | .vault pa => ∃ r g, s.regionOf s.here = some (r, g) ∧ s.buffers r (.bytes s.site (pa - vaultBase) (data.map fun d => (pa + d.1, d.2)) false) s'
  | .virt va spill => ∃ r g s₁ q, s.regionOf s.here = some (r, g)
      ∧ s.page s.site none g.ctx va (if spill then .spill true else .store) = (s₁, .ok q)
      ∧ (∀ d ∈ data, s₁.loading (q.pa + d.1) 1 = false) ∧ s₁.barred q.pa va = none
      ∧ s₁.wouldSpoil q.cmp (data.map fun d => (q.pa + d.1, d.2)) = false
      ∧ s₁.buffers r (.bytes s.site va (data.map fun d => (q.pa + d.1, d.2)) q.cmp) s'

/-- A release in Format M has nothing to wait for (R155). -/
def State.released (s : State) (f : FmtM) : Prop := f.ord.getLsbD 1 = true → s.me.unperformed = false

/-- An irrevocable action is taken at once: the task need not replay, and a release has nothing to wait for or to commit (R231, R274, R275). -/
def State.actsAtOnce (s : State) (rel : Bool) : Prop :=
  ∀ r g, s.regionOf s.here = some (r, g) →
    s.mustReplay g = false ∧ ((rel || s.me.relFence) = true → s.me.unperformed = false ∧ s.uncommitted r g = false)

/-- The task of the running element has become irrevocable, and a pending FENCE.rel is spent. -/
def State.acted (s : State) : State :=
  match s.regionOf s.here with
  | some (_, g) => (s.onTask g.task fun k => { k with irrev := true }).onMe fun T => { T with relFence := false }
  | none => s

end Sys2Proof.Machine

/-- R20, R87, R151 to R153, R287: LD and LDV issue as long-latency producers with the bytes found at their place, extended as sz says; one whose
block the memory interface has to decode asks it for the bytes; ST and STV store the low bytes of their source, or the bytes of its
active lanes. An address that R152 refuses traps with the fault it gives. -/
def Obligations.LoadsAndStores : Prop :=
  ∀ (f : FmtM) (s s' : State) (p : Place) (bs : List Byte),
    let n := accessBytes f.sz.toNat
    let ea := s.effAddr f
    (s.canM f false false → s.resolve f.space.toNat ea n = .at_ p → s.readsAt (.load f.sz.toNat) p n s' bs →
        exec (.ld f) s = .next (s'.onMe fun T => T.issueOp .load f.reg 0 (some (loaded f.sz.toNat bs)) (f.ord.getLsbD 0) (.ld f)).advance)
      ∧ (s.canM f true false → f.sz.toNat = 7 → s.resolve f.space.toNat ea 64 = .at_ p → s.readsAt (.load 7) p 64 s' bs →
        exec (.ldv f) s = .next (s'.onMe fun T =>
          T.issueOp .load f.reg (s.me.effMask f.pg f.ps) (some (BitVec.ofNat 512 (ofBytes bs))) (f.ord.getLsbD 0) (.ldv f)).advance)
      ∧ (∀ r g va s₁ q s₂, s.canM f false false → s.resolve f.space.toNat ea n = .at_ (.virt va false) → s.regionOf s.here = some (r, g) →
        s.page s.site none g.ctx va (.load f.sz.toNat) = (s₁, .ok q) → s₁.inOrder q n → s₁.barred q.pa va = none → s₁.fetch r q va n = (s₂, .mit) →
        s₁.mitRoom q.pa g.ctx = true → ∃ t, exec (.ld f) s = .next t
          ∧ t.mit = s₂.mit ++ [⟨s₂.here, s₂.me.nop, g.ctx, q.pa, va, n, 4 ≤ f.sz.toNat && f.sz.toNat ≤ 6, q.cmp, 0, s.me.pc⟩]
          ∧ t.tiles = (s₂.onMe fun T => T.issueOp .load f.reg 0 none (f.ord.getLsbD 0) (.ld f)).advance.tiles ∧ t.mem = s₂.mem)
      ∧ (s.canM f false true → s.released f → s.resolve f.space.toNat ea n = .at_ p →
        s.storesAt p ((List.range n).map fun i => (i, BitVec.ofNat 8 ((s.me.readX f.reg.toNat).toNat / 256 ^ i))) s' →
        exec (.st f) s = .next s'.advance)
      ∧ (s.canM f true true → s.released f → s.resolve f.space.toNat ea 64 = .at_ p →
        s.storesAt p (laneCells (s.me.effMask f.pg f.ps) (s.me.readV f.reg)) s' → exec (.stv f) s = .next s'.advance)
      ∧ ∀ e, (s.canM f false false → s.resolve f.space.toNat ea n = .fault e → exec (.ld f) s = .next (s.trap e))
        ∧ (s.canM f true false → f.sz.toNat = 7 → s.resolve f.space.toNat ea 64 = .fault e → exec (.ldv f) s = .next (s.trap e))
        ∧ (s.canM f false true → s.released f → s.resolve f.space.toNat ea n = .fault e → exec (.st f) s = .next (s.trap e))
        ∧ (s.canM f true true → s.released f → s.resolve f.space.toNat ea 64 = .fault e → exec (.stv f) s = .next (s.trap e))

/-- R151 to R153: where a store goes. After ST or STV every committed byte of memory reads as before, since a task's stores are speculative; in a
scratchpad the bytes from the resolved offset hold the source's low bytes, for STV the bytes of its active lanes, and every other byte is as
before; a buffered store is seen by its own task at exactly its bytes; and no register changes. -/
def Obligations.StoreFrame : Prop :=
  ∀ (f : FmtM) (s t : State) (p : Place) (s' : State),
    let n := accessBytes f.sz.toNat
    let data := (List.range n).map fun i => (i, BitVec.ofNat 8 ((s.me.readX f.reg.toNat).toNat / 256 ^ i))
    (s.canM f true true → s.released f → s.resolve f.space.toNat (s.effAddr f) 64 = .at_ p →
      s.storesAt p (laneCells (s.me.effMask f.pg f.ps) (s.me.readV f.reg)) s' → exec (.stv f) s = .next t →
      let wrote := fun (a base : Nat) => base ≤ a ∧ a < base + 64 ∧ (s.me.effMask f.pg f.ps).getLsbD ((a - base) / 4) = true
      let byte := fun (k : Nat) => BitVec.ofNat 8 ((s.me.readV f.reg).toNat / 256 ^ k)
      (∀ a, memGet a t.mem = memGet a s.mem)
        ∧ (∀ u a, memGet a (t.tile u).scratch
            = match p with
              | .scratch v off => if u = v ∧ wrote a off then byte (a - off) else memGet a (s.tile u).scratch
              | _ => memGet a (s.tile u).scratch)
        ∧ (∀ pa, (p = .vault pa ∨ ∃ va sp s₁ q, p = .virt va sp ∧ q.pa = pa
              ∧ s.page s.site none (s.ctxOf s.here) va (if sp then .spill true else .store) = (s₁, .ok q)) →
            ∀ r g g', s.regionOf s.here = some (r, g) → t.region? r = some g' → ∀ a, State.heldByte g'.buffer a
              = if wrote a pa then some (byte (a - pa)) else State.heldByte g.buffer a)
        ∧ t.me.x = s.me.x ∧ t.me.v = s.me.v ∧ t.me.p = s.me.p)
    ∧ (s.canM f false true → s.released f → s.resolve f.space.toNat (s.effAddr f) n = .at_ p → s.storesAt p data s' → exec (.st f) s = .next t →
      (∀ a, memGet a t.mem = memGet a s.mem)
        ∧ (∀ u a, memGet a (t.tile u).scratch
            = match p with
              | .scratch v off => if u = v ∧ off ≤ a ∧ a < off + n then BitVec.ofNat 8 ((s.me.readX f.reg.toNat).toNat / 256 ^ (a - off))
                  else memGet a (s.tile u).scratch
              | _ => memGet a (s.tile u).scratch)
        ∧ (∀ pa, (p = .vault pa ∨ ∃ va sp s₁ q, p = .virt va sp ∧ q.pa = pa
              ∧ s.page s.site none (s.ctxOf s.here) va (if sp then .spill true else .store) = (s₁, .ok q)) →
            ∀ r g g', s.regionOf s.here = some (r, g) → t.region? r = some g' → ∀ a, State.heldByte g'.buffer a
              = if pa ≤ a ∧ a < pa + n then some (BitVec.ofNat 8 ((s.me.readX f.reg.toNat).toNat / 256 ^ (a - pa))) else State.heldByte g.buffer a)
        ∧ t.me.x = s.me.x ∧ t.me.v = s.me.v ∧ t.me.p = s.me.p)

/-- R20, R77: an issued long-latency operation empties its destination and is recorded; x0 stays full. -/
def Obligations.LongLatencyIssue : Prop :=
  ∀ (T : Tile) (k : OpKind) (r : BitVec 6) (m : Mask) (v : Option Vec) (acq : Bool) (i : Instr), T.sized → T.has r → Spec.isP r = false →
    let T' := T.issueOp k r m v acq i
    T'.full r = (r == 0) ∧ (Spec.isX r = true → T'.readX r.toNat = T.readX r.toNat) ∧ T'.nop = T.nop + 1
      ∧ (∃ o ∈ T'.ops, o.num = T.nop ∧ o.kind = k ∧ o.dest = T.destOf r ∧ o.lanes = m ∧ o.value = v ∧ o.acq = acq)
      ∧ ∀ q : BitVec 6, q ≠ r → T'.full q = T.full q

/-- R154, R156 to R158: presence loads and stores, PCLEAR, PFETCH and the fences. A relaxed PST that finds its word present leaves the task as
it was (R311). PCLEAR with length 0 clears nothing. That FENCE.rel only marks the element, so that its next irrevocable store waits and
commits, is the model's choice (log entry 16). -/
def Obligations.PresenceAndFences : Prop :=
  ∀ (f : FmtM) (s s₁ : State) (r : Nat) (g : Region) (q : Page),
    let ea := s.effAddr f
    let m := s.me.effMask f.pg f.ps
    let wide := f.sz == 7
    let js := presenceWords f m
    s.regionOf s.here = some (r, g) →
    (s.canM f wide false → ea % accessBytes f.sz.toNat = 0 → s.page s.site none g.ctx ea .present = (s₁, .ok q) → s₁.barred q.pa ea = none →
        inRemote q.pa = false →
        let lanes : Mask := if wide then maskFor 64 m else 0
        let d : Deferred := ⟨g.ctx, s.here, s.me.nop, ea, some q.pa, q.cmp, js, lanes, s.me.pc⟩
        let u := s₁.touch s.site g.ctx ea q.pa
        let s₂ := (u.onMe fun T => T.issueOp .pld f.reg lanes none (f.ord.getLsbD 0) (.pld f)).advance
        (∀ v, (∀ j ∈ js, q.pa / 8 + j ∈ u.pres) → u.presenceValue d = some v → exec (.pld f) s = .next (s₂.onMe fun T => T.deliver s.me.nop v))
          ∧ ((∃ j ∈ js, q.pa / 8 + j ∉ u.pres) →
              exec (.pld f) s = .next (State.count { s₂ with deferred := s₂.deferred ++ [d] } (dieOf s.here) .pldDeferral)))
      ∧ (s.canM f wide true → ea % accessBytes f.sz.toNat = 0 → s.page s.site none g.ctx ea .setPresent = (s₁, .ok q) → s₁.barred q.pa ea = none →
          inRemote q.pa = false → js ≠ [] →
          let rel := f.ord.getLsbD 1 || s.me.relFence
          let v := if f.sz = 3 then (s.me.readX f.reg.toNat).toNat else (s.me.readV f.reg).toNat
          let cells := js.flatMap fun j => cellsAt (q.pa + 8 * j) (bytesOf 8 (bits v (64 * j) 64))
          (∀ w, (∀ j ∈ js, q.pa / 8 + j ∉ s₁.pres) → s₁.wouldSpoil q.cmp cells = false → s₁.actsAtOnce rel →
              (s₁.acted.touch s.site g.ctx ea q.pa).physWrite q.cmp cells = some w →
              exec (.pst f) s = .next ({ w with pres := js.foldl (fun ps j => setInsert (q.pa / 8 + j) ps) w.pres }.wakeDeferred).advance)
            ∧ (∀ j, js.find? (fun j => s₁.pres.contains (q.pa / 8 + j)) = some j → rel = false →
                exec (.pst f) s = .next ((s₁.touch s.site g.ctx ea q.pa).trap (.presdup (ea + 8 * j))))
            ∧ ∀ j, js.find? (fun j => s₁.acted.pres.contains (q.pa / 8 + j)) = some j → rel = true → s₁.actsAtOnce true →
                exec (.pst f) s = .next ((s₁.acted.touch s.site g.ctx ea q.pa).trap (.presdup (ea + 8 * j))))
      ∧ (∀ ps, s.canM f false true →
          let n := (s.me.readX f.reg.toNat).toNat
          ea % 8 = 0 → n % 8 = 0 → n ≠ 0 → s.pieces s.site s.myCtx .setPresent (n / 256 + 2) ea (ea + n) = (s₁, .ok ps) →
          (∀ q ∈ ps, s₁.barred q.2.1 q.1 = none) → s₁.actsAtOnce (f.ord.getLsbD 1) →
          ∃ u : State, exec (.pclear f) s = .next u.advance ∧ u.mem = s.mem
            ∧ u.pres = s₁.acted.pres.filter fun w => !(ps.any fun q => q.2.1 ≤ 8 * w && 8 * w < q.2.1 + q.2.2))
      ∧ (s.canM f false true → ea % 8 = 0 → s.me.readX f.reg.toNat = 0 → exec (.pclear f) s = .next s.advance)
      ∧ (s.canM f false false → ∃ u : State, exec (.pfetch f) s = .next u.advance ∧ u.mem = s.mem ∧ u.tiles = s.tiles ∧ u.regions = s.regions)
      ∧ (s.canIssue (executes m false) [] →
          (s.outstanding = true → exec (.fence f) s = .next s)
            ∧ (s.outstanding = false →
                exec (.fence f) s = .next (if f.ord.getLsbD 1 then s.onMe fun T => { T with relFence := true } else s).advance))
      ∧ (s.canM f false true →
          let n := (s.me.readX f.reg.toNat).toNat
          ea % 4096 = 0 → n % 4096 = 0 →
          (s.fences.find? (fun x => x.t == some s.here) = none →
            exec (.tfence f) s = .next { s with fences := s.fences ++ [⟨s.myCtx, ea, n, scopeDies s f.scope.toNat, some s.here, 0, 0⟩] })
          ∧ ∀ x, s.fences.find? (fun x => x.t == some s.here) = some x →
              exec (.tfence f) s = .next (if x.left = [] then { s with fences := s.fences.filter fun x => x.t != some s.here }.advance else s))

/-- R197 to R200: SLD writes its register with the task's view of the keys of its lanes; SST puts the values of its lanes, with the nodes
they need reserved, into the store buffer. -/
def Obligations.KeyAccesses : Prop :=
  ∀ (f : FmtM) (s s₁ : State) (r : Nat) (g : Region) (d : Nat),
    let wide := f.sz == 7
    let m := s.me.effMask f.pg f.ps
    let va := (s.me.readX f.base.toNat).toNat
    let key := ((s.me.readX (f.base + 1).toNat).toNat + (sext f.off.toNat 20 % 2 ^ 64).toNat) % 2 ^ 64
    let keys := if wide then (lanesIn m).map fun i => (i, key + i) else [(0, key)]
    let bases : List Src := [⟨f.base, f.fe.getLsbD 0, 1⟩, ⟨f.base + 1, f.fe.getLsbD 0, 1⟩]
    let good := fun (write : Bool) => s.heldBack = false ∧ s.openKeys va write = (s₁, .ok d) ∧ inRemote d = false
      ∧ 8 * (if wide then 4 else accessBytes f.sz.toNat) = Spec.tyWidth (s₁.descVty d) ∧ (∀ k ∈ keys, k.2 < s₁.keyEnd d) ∧ (∀ k ∈ keys, s₁.brokenAt d k.2 = false)
      ∧ s₁.regionOf s₁.here = some (r, g)
    (s.canIssue (executes m wide) bases → good false →
        let u := (s₁.noteRead r (keys.map fun k => Loc.key d k.2)).touch s.site g.ctx va d
        exec (.sld f) s = .next (u.onMe fun T =>
          if wide then T.writeV f.reg (ofLanes ((List.range 16).map fun i =>
            match keys.find? fun k => k.1 == i with | some k => BitVec.ofNat 32 (u.keyValue g d k.2) | none => 0)) m
          else T.writeX f.reg.toNat
            (BitVec.ofNat 64 (loaded f.sz.toNat (bytesOf (accessBytes f.sz.toNat) (u.keyValue g d key))).toNat)).advance)
      ∧ (s.canIssue (executes m wide) (⟨f.reg, f.fe.getLsbD 1, 0⟩ :: bases) → good true → (f.ord.getLsbD 1 = true → s₁.me.unperformed = false) →
        let v := fun (i : Nat) => if wide then elem (s₁.me.readV f.reg) 32 i else (s₁.me.readX f.reg.toNat).toNat % 2 ^ (8 * accessBytes f.sz.toNat)
        let kvs := keys.map fun k => (k.2, BitVec.ofNat 64 (v k.1))
        ∀ s₂ ns, g.used + 2 * kvs.length ≤ g.capacity → s₁.reserveAll d kvs [] = (s₂, .ok ns) →
          ∃ t : State, exec (.sst f) s = .next t.advance ∧ ∃ g' : Region, t.region? r = some g' ∧ g'.used = g.used + 2 * kvs.length
            ∧ g'.buffer = g.buffer ++ (List.range kvs.length).map fun i =>
                .key s.site va d (kvs.getD i (0, 0)).1 (kvs.getD i (0, 0)).2 (ns.getD i 0))

/-! ### Synchronisation -/

namespace Sys2Proof.Machine

/-- A synchronisation instruction issues as a long-latency producer with no value yet, and its request goes where `send` says. -/
def State.asks (s : State) (f : FmtY) (k : OpKind) (acq : Bool) (i : Instr) : State := s.issueY k f none acq i

/-- The task of the running element is irrevocable; a pending FENCE.rel stays so (R237, R267, R275). -/
def State.bound (s : State) : State :=
  match s.regionOf s.here with | some (_, g) => s.onTask g.task fun k => { k with irrev := true } | none => s

/-- The task of the running element need not replay at its first irrevocable action (R275). -/
def State.mayBind (s : State) : Prop := ∀ r g, s.regionOf s.here = some (r, g) → s.mustReplay g = false

/-- An arrival of the running element at a barrier word of n participants; `due` says whether and how long it goes on to wait. -/
def State.arrives (s : State) (f : FmtY) (pa : Nat) (due : Option (Option Nat)) (i : Instr) : State :=
  ((s.touchHere s.site s.myCtx (yA s f) pa).asks f .arrive due.isSome i).enterNode 2 (effScope s.here pa f.scope.toNat)
    ⟨s.myCtx, pa, s.here, none, yA s f, s.me.pc, .arrive (yB s f) 0 [(s.here, s.me.nop, due)], f.scope.toNat⟩

/-- An operation of the running element goes to the home of its word, where the request is performed; the home of a word of another package
answers with a value of its own, of which `value` makes the result (log entry 22). -/
def State.sends' (s : State) (f : FmtY) (k : OpKind) (acq : Bool) (i : Instr) (pa : Nat) (req : HsqReq) (value : Nat → Nat) (t : State) : Prop :=
  let u := (s.touch s.site s.myCtx (yA s f) pa).asks f k acq i
  if inRemote pa then ∃ x : Nat, t = u.draw.2.finish s.here s.me.nop (value x) else t = u.request ⟨s.myCtx, pa, s.here, some s.me.nop, yA s f, s.me.pc, req, 0⟩

end Sys2Proof.Machine

/-- R231 to R241, R263, R413: ATOM and WAIT send their request to the word's home; the tree form of ATOM and the arrivals of HBAR enter the
combining node of the element's quad, under a scope widened to hold the word's home; BSYNC begins. Each is long-latency, and makes the task
irrevocable. One that could be passed by an earlier one, or whose home has no room, waits. A word whose page is not SYNC, or that is
misaligned, and a participant count out of range, trap with PROT, or make an instruction that waits answer BADWORD (2); a word of a package that
is lost traps with LNKERR, or makes it wait for its deadline. The model's choices: the detail of the PROT of a second BSYNC is free (log
entry 18), and what the home of a word of another package answers is a free value that comes at once (log entry 22). -/
def Obligations.SynchronisationRequests : Prop :=
  ∀ (f : FmtY) (s s₁ : State) (pa : Nat),
    let ea := yA s f
    let w := atomWidth f
    let uns := f.flg.getLsbD 2
    let acq := f.ord.getLsbD 0
    let b := BitVec.ofNat 64 (yB s f)
    let due := if f.tmo = 0 then none else some (s₁.time + 2 ^ f.tmo.toNat)
    let n := if f.aop = 8 then 3 else 2
    let asking : List (Instr × Nat × Nat × Bool) := [(.atom f, n, w / 8, true), (.wait f, 2, w / 8, false), (.hbarWait f, 2, 8, false)]
    let entering : List (Instr × Nat × Nat × Bool) := [(.atomTree f, 2, w / 8, true), (.hbarArrive f, 2, 8, true), (.hbarAw f, 2, 8, true)]
    let trapping : List (Instr × Nat × Nat × Bool) := [(.atom f, n, w / 8, true), (.atomTree f, 2, w / 8, true), (.hbarArrive f, 2, 8, true)]
    let answering : List (Instr × Nat × Bool × OpKind × Bool) :=
      [(.wait f, w / 8, false, .wait, acq), (.hbarWait f, 8, false, .wait, true), (.hbarAw f, 8, true, .wait, true), (.bsync f, 8, true, .bsync, true)]
    let begins := ∃ r g, s.regionOf s.here = some (r, g) ∧ g.bsync = none
    -- the request leaves
    (s.canY f n → s.syncWord ea (w / 8) true = (s₁, .word pa) → s₁.mayAsk pa = true → s₁.actsAtOnce (f.ord.getLsbD 1) →
        ∃ t, exec (.atom f) s = .next t ∧ s₁.acted.sends' f .atom acq (.atom f) pa (.atom f.aop.toNat w uns b (BitVec.ofNat 64 (yC s f)))
          (fun x => (atomResult f.aop.toNat w uns x).toNat) t)
      ∧ (s.canY f 2 → s.syncWord ea (w / 8) false = (s₁, .word pa) → s₁.mayAsk pa = true → s₁.mayBind →
          ∃ t, exec (.wait f) s = .next t ∧ s₁.bound.sends' f .wait acq (.wait f) pa
            (.wait f.aop.toNat w uns b (s₁.time + 2 ^ f.tmo.toNat) (f.tmo == 0) acq) (· % 2) t)
      ∧ (s.canY f 2 → s.syncWord ea 8 false = (s₁, .word pa) → s₁.mayAsk pa = true → s₁.mayBind → inRemote pa = false →
          let u := s₁.bound
          exec (.hbarWait f) s = .next (((u.touch u.site u.myCtx ea pa).asks f .wait true (.hbarWait f)).request
            ⟨u.myCtx, pa + 4, u.here, some u.me.nop, ea, u.me.pc,
              .wait 1 32 true (BitVec.ofNat 64 (yB s f % 2 ^ 32)) (s₁.time + 2 ^ f.tmo.toNat) (f.tmo == 0) true, 0⟩))
      ∧ (s.canY f 2 → s.syncWord ea 8 false = (s₁, .word pa) → s₁.mayAsk pa = true → s₁.mayBind → inRemote pa = true →
          ∃ t, exec (.hbarWait f) s = .next t ∧ s₁.bound.sends' f .wait true (.hbarWait f) pa (.wait 1 32 true b 0 true true) (· % 2) t)
      ∧ (s.canY f 2 → s.syncWord ea (w / 8) true = (s₁, .word pa) → s₁.combining pa = false → s₁.actsAtOnce (f.ord.getLsbD 1) →
          let u := s₁.acted
          exec (.atomTree f) s = .next (((u.touchHere u.site u.myCtx ea pa).asks f .atom false (.atomTree f)).enterNode 2 (effScope s.here pa f.scope.toNat)
            ⟨u.myCtx, pa, u.here, none, ea, u.me.pc, .atoms f.aop.toNat w uns [(b, u.here, u.me.nop)], f.scope.toNat⟩))
      ∧ (s.canY f 2 → s.syncWord ea 8 true = (s₁, .word pa) → s₁.combining pa = false → s₁.actsAtOnce true → 0 < yB s f → yB s f < 2 ^ 32 →
          exec (.hbarArrive f) s = .next (s₁.acted.arrives f pa none (.hbarArrive f))
            ∧ exec (.hbarAw f) s = .next (s₁.acted.arrives f pa (some due) (.hbarAw f)))
      ∧ (s.canY f 2 → begins → (s.syncWord ea 8 true = (s₁, .word pa) ∨ s.syncWord ea 8 true = (s₁, .lost pa)) → 0 < yB s f → yB s f < 2 ^ 32 →
          s₁.mayBind → ∀ r g, s.regionOf s.here = some (r, g) →
          exec (.bsync f) s = .next ((s₁.bound.asks f .bsync true (.bsync f)).onRegion r fun g =>
            { g with bsync := some ⟨s.here, s.me.nop, yB s f, f.scope.toNat, s₁.time + 2 ^ f.tmo.toNat, false, ea, s.me.pc⟩ }))
      -- it waits
      ∧ (∀ i k j wr, (i, k, j, wr) ∈ asking → s.canY f k → s.syncWord ea j wr = (s₁, .word pa) → s₁.mayAsk pa = false → exec i s = .next s₁)
      ∧ (∀ i k j wr, (i, k, j, wr) ∈ entering → s.canY f k → s.syncWord ea j wr = (s₁, .word pa) → s₁.combining pa = true →
          (i = .atomTree f ∨ (0 < yB s f ∧ yB s f < 2 ^ 32)) → exec i s = .next s₁)
      -- the word cannot be reached
      ∧ (∀ i k j wr, (i, k, j, wr) ∈ trapping → s.canY f k →
          (∀ d, s.syncWord ea j wr = (s₁, .bad d) → exec i s = .next (s₁.trap (.prot ea d)))
          ∧ (∀ e, s.syncWord ea j wr = (s₁, .fault e) → exec i s = .next (s₁.trap e))
          ∧ (s.syncWord ea j wr = (s₁, .lost pa) → exec i s = .next (s₁.trap (.lnkerr pa 4))))
      ∧ (∀ i j wr k a, (i, j, wr, k, a) ∈ answering → s.canY f 2 → (i = .bsync f → begins) →
          (∀ d, s.syncWord ea j wr = (s₁, .bad d) → s₁.mayBind → exec i s = .next (s₁.bound.issueY k f (some 2) a i))
          ∧ (∀ e, s.syncWord ea j wr = (s₁, .fault e) → exec i s = .next (s₁.trap e)))
      ∧ (s.canY f 2 → s.syncWord ea (w / 8) false = (s₁, .lost pa) → s₁.mayBind →
          exec (.wait f) s = .next ((s₁.bound.asks f .wait acq (.wait f)).armLost pa s.site ea due s.me.nop))
      ∧ (s.canY f 2 → s.syncWord ea 8 false = (s₁, .lost pa) → s₁.mayBind →
          exec (.hbarWait f) s = .next ((s₁.bound.asks f .wait true (.hbarWait f)).armLost pa s.site (ea + 4) due s.me.nop))
      ∧ (s.canY f 2 → s.syncWord ea 8 true = (s₁, .lost pa) → 0 < yB s f → yB s f < 2 ^ 32 → s₁.actsAtOnce true →
          exec (.hbarAw f) s = .next ((s₁.acted.asks f .wait true (.hbarAw f)).armLost pa s.site (ea + 4) due s.me.nop))
      -- the participant count is out of range
      ∧ (s.canY f 2 → s.syncWord ea 8 true = (s₁, .word pa) → (yB s f = 0 ∨ 2 ^ 32 ≤ yB s f) →
          exec (.hbarArrive f) s = .next (s₁.trap (.prot ea 3))
            ∧ (s₁.mayBind → exec (.hbarAw f) s = .next (s₁.bound.issueY .wait f (some 2) true (.hbarAw f)))
            ∧ (s₁.mayBind → begins → exec (.bsync f) s = .next (s₁.bound.issueY .bsync f (some 2) true (.bsync f))))
      -- a second BSYNC of the region
      ∧ ∀ r g, s.canY f 2 → s.regionOf s.here = some (r, g) → g.bsync ≠ none → ∃ d, d < 8 ∧ exec (.bsync f) s = .next (s.draw.2.trap (.prot ea d))

/-- R242, R260: the counters, the times and the system values, written to an X register. CNTR.ev answers 0 to a context that may not see the
counters. R242, R260: what those leave alone once they can issue: memory, every other tile, and every register but the destination. R231, R240:
ATOM, WAIT, HBAR and BSYNC leave the same alone once they can issue at a word of this package, with nothing to replay, to wait for or to
commit: what they ask is done at the word's home. -/
def Obligations.CountersAndSystemReads : Prop :=
  (∀ (f : FmtY) (g : FmtI) (s : State) (r : Nat) (R : Region) (k : Task),
      let lane0 := (s.me.effMask f.pg f.ps).getLsbD 0
      let writes := fun (v : Nat) => State.advance (s.onMe fun T => T.writeX f.dst.toNat (BitVec.ofNat 64 v))
      let sel := yB s f
      s.regionOf s.here = some (r, R) → s.task? R.task = some k →
      (s.canIssue lane0 [⟨f.sb, f.fe.getLsbD 1, 1⟩] →
          exec (.cntrEv f) s = .next (writes (if (s.ctx s.myCtx).visible then
              (match tabGet (sel % 64) (s.die (dieOf s.here)).counters with | some c => c.2.toNat | none => 0) else 0))
            ∧ exec (.cntrTask f) s = .next (writes (match sel % 4 with
              | 0 => k.replays | 1 => k.depth | 2 => ((s.launchOf R).map Launch.aborts).getD 0 | _ => R.clk)))
        ∧ (s.canIssue lane0 [] → exec (.time f) s = .next (writes s.time) ∧ exec (.timeLeft f) s = .next (writes (2 ^ k.texp - R.clk)))
        ∧ (s.canIssue ((s.me.effMask g.pg g.ps).getLsbD 0) [] →
            exec (.sysrd g) s = .next (s.onMe fun T => T.writeX g.dst.toNat (BitVec.ofNat 64 (match g.imm.toNat with
              | 0 => 0x53834 | 1 => s.boot.fwseq.toNat | 2 => s.boot.live.toNat | 3 => 1800
              | 4 => ((s.ctx R.ctx).vgrant.getD (dieOf s.here) 0).toNat | 5 => k.idx | 6 => k.prio | 7 => k.texp
              | 8 => (s.die (dieOf s.here)).age | _ => R.task))).advance))
  ∧ (∀ (f : FmtY) (s t : State) (i : Instr) (srcs : List Src),
      (i, srcs) ∈ [(.cntrEv f, [⟨f.sb, f.fe.getLsbD 1, 1⟩]), (.cntrTask f, [⟨f.sb, f.fe.getLsbD 1, 1⟩]), (.time f, []), (.timeLeft f, [])] →
      s.canIssue ((s.me.effMask f.pg f.ps).getLsbD 0) srcs → exec i s = .next t →
      s.onlyTile t s.here ∧ s.me.keeps t.me f.dst false ∧ ∀ a, memGet a t.mem = memGet a s.mem)
  ∧ (∀ (f : FmtI) (s t : State), s.canIssue ((s.me.effMask f.pg f.ps).getLsbD 0) [] → exec (.sysrd f) s = .next t →
      s.onlyTile t s.here ∧ s.me.keeps t.me f.dst false ∧ ∀ a, memGet a t.mem = memGet a s.mem)
  ∧ (∀ (f : FmtY) (s t : State) (i : Instr) (n j : Nat) (wr : Bool),
      let w := if f.flg.getLsbD 0 then 4 else 8
      (i, n, j, wr) ∈ [(.atom f, if f.aop = 8 then 3 else 2, w, true), (.atomTree f, 2, w, true), (.wait f, 2, w, false), (.hbarArrive f, 2, 8, true),
        (.hbarWait f, 2, 8, false), (.hbarAw f, 2, 8, true), (.bsync f, 2, 8, true)] →
      s.canY f n → s.actsAtOnce true →
      (∀ pa, ((s.syncWord (yA s f) j wr).2 = .word pa → inRemote pa = false) ∧ (s.syncWord (yA s f) j wr).2 ≠ .lost pa) →
      exec i s = .next t →
      (∀ a, memGet a t.mem = memGet a s.mem) ∧ (∀ u, u ≠ s.here → t.tile u = s.tile u)
        ∧ (∀ k, k ≠ f.dst.toNat → t.me.x[k]? = s.me.x[k]?) ∧ (∀ k, k + 32 ≠ f.dst.toNat → t.me.v[k]? = s.me.v[k]?)
        ∧ ∀ k, k + 56 ≠ f.dst.toNat → t.me.p[k]? = s.me.p[k]?)

/-! ### Home sequencers and combining nodes -/

/-- R234, R235, R252: the ATOM at the head of a channel is applied to its word as one step, its issuer gets the old value, and armed WAITs
on the word are evaluated; a merged group is applied together and answers 0; a CHAPP appends its entry and its link at the former tail. A
request that meets a bad word raises DECMP at its issuer (R402), which asks again when its region goes on (R381). The model's reading: a
malformed block of a compressed page counts as a bad word at its home (log entry 58), and a fault of the new entry's block or of the former
tail's page is found at the chain's home and taken by the issuer (log entry 59). -/
def Obligations.AtomicsAreApplied : Prop :=
  ∀ (v : Nat) (s s₁ : State) (e : HsqEntry),
    s.takeHead v (fun e => match e.req with | .atom .. | .atoms .. | .chapp .. => true | _ => false) = some (e, s₁) →
    let fails := fun (s : State) (f : Flt) => State.raise { s with retry := s.retry ++ [e] } ⟨e.t, 0, 0, e.widx⟩ f
    (∀ r g, s₁.badSync e.pa = true → s₁.regionOf e.t = some (r, g) → g.drain = none →
        ((∃ aop w uns b c, e.req = .atom aop w uns b c) ∨ ∃ cmd entry pa cmp cells, e.req = .chapp cmd entry pa cmp cells) →
        exec (.hsqAtomApply v) s = .next ((fails s₁ (.decmp (e.va / 256 * 256))).mendSync e.pa))
      ∧ (s₁.badSync e.pa = false →
    (∀ aop w uns b c op, e.req = .atom aop w uns b c → e.op = some op →
        let old := s₁.syncRead e.pa w
        exec (.hsqAtomApply v) s = .next ((s₁.finish e.t op (atomResult aop w uns old).toNat).syncWrite e.pa w
          (match aop with
            | 0 => (old % 2 ^ w + b.toNat % 2 ^ w) % 2 ^ w
            | 4 => old % 2 ^ w &&& b.toNat % 2 ^ w | 5 => old % 2 ^ w ||| b.toNat % 2 ^ w | 6 => old % 2 ^ w ^^^ b.toNat % 2 ^ w
            | 7 => b.toNat % 2 ^ w
            | n => atomOp n w uns old b.toNat c.toNat)))
      ∧ (∀ aop w uns items, e.req = .atoms aop w uns items →
        let u := items.foldl (fun s m => s.finish m.2.1 m.2.2 0) s₁
        exec (.hsqAtomApply v) s = .next (u.syncWrite e.pa w (groupOp aop w uns (u.syncRead e.pa w) (items.map fun m => m.1.toNat))))
      ∧ ∀ cmd entry pa cmp cells op, e.req = .chapp cmd entry pa cmp cells → e.op = some op → s₁.badWords e.pa = [] →
        let p : Site := ⟨e.t, 0, 0, e.widx⟩
        let tail := s₁.homeWord e.pa
        (∀ r g, s₁.regionOf e.t = some (r, g) → g.drain = none → s₁.wouldSpoil cmp (cellsAt pa [0]) = true →
            exec (.hsqAtomApply v) s = .next (fails (s₁.count (dieOf e.t) .zmbRefetch) (.decmp (entry / 256 * 256))))
          ∧ (s₁.wouldSpoil cmp (cellsAt pa [0]) = false →
            (∀ s₂ f r g, s₁.tailPlace p e.ctx tail = (s₂, .error f) → s₂.regionOf e.t = some (r, g) → g.drain = none →
                exec (.hsqAtomApply v) s = .next (fails s₂ f))
              ∧ ∀ s₂ link, s₁.tailPlace p e.ctx tail = (s₂, .ok link) →
                let s₃ := match link with | some l => s₂.touch p e.ctx (tail + 72) l.1 | none => s₂
                let y := s₃.entryCells e cmd pa cells
                let x := y.2.appendEntry e.pa entry pa cmp y.1 link
                let u := if cmd then x.2.onRegionOf e.t fun g => { g with chained := g.chained ++ [(e.pa, x.1, g.place e.t, op)] } else x.2
                exec (.hsqAtomApply v) s = .next ((u.wakeChain e.ctx e.pa e.va).finish e.t op x.1)))

/-- R237, R238, R240: barrier arrivals move the word's count, and its generation each time the count is complete; a WAIT at the head of its
channel is answered or armed; an armed WAIT whose deadline has come is answered TIMEOUT (1). That a WAIT with no limit is still evaluated
where another that is late is answered TIMEOUT is the model's choice (log entry 63). -/
def Obligations.BarriersAndWaits : Prop :=
  ∀ (v c k : Nat) (s s₁ : State) (e : HsqEntry),
    (∀ n more ms, s.takeHead v (fun e => match e.req with | .arrive .. => true | _ => false) = some (e, s₁) → s₁.badSync e.pa = false →
        e.req = .arrive n more ms → 0 < n → n < 2 ^ 32 →
        let old := s₁.syncRead e.pa 64
        let cnt := old % 2 ^ 32 + (ms.length + more)
        let u := s₁.syncWrite e.pa 64 ((old / 2 ^ 32 + cnt / n) % 2 ^ 32 * 2 ^ 32 + cnt % n)
        exec (.hsqBarrierArrival v) s = .next (ms.foldl (fun s m =>
          match m.2.2 with
          | none => s.finish m.1 m.2.1 (old / 2 ^ 32)
          | some due => s.evaluate { e with
              pa := e.pa + 4
              t := m.1
              op := some m.2.1
              req := .wait 1 32 true (BitVec.ofNat 64 (old / 2 ^ 32)) (due.getD 0) due.isNone true }) u))
      ∧ (let late := fun (e : HsqEntry) => e.ctx == c && match e.req with | .wait _ _ _ _ due once _ => !once && decide (due < s.time) | _ => false
         let s₀ := ((s.hsqOf v).filter late).foldl (fun s e => match e.op with | some op => s.finish e.t op 1 | none => s)
          (s.setHsq v ((s.hsqOf v).filter fun e => !late e))
         let waits := fun (e : HsqEntry) => e.ctx == c && match e.req with | .wait .. => true | _ => false
         (s₀.takeHead v waits = none → exec (.waitDequeue v c) s = .next s₀)
          ∧ ∀ cc w uns b due once acq op, s₀.takeHead v waits = some (e, s₁) → s₁.badSync e.pa = false → e.req = .wait cc w uns b due once acq →
            e.op = some op →
            let holds := condHolds cc w uns (s₁.syncRead e.pa w) b.toNat
            (once = true → exec (.waitDequeue v c) s = .next (s₁.finish e.t op (if holds then 0 else 1)))
              ∧ (once = false → s.time ≤ due →
                (holds = true → exec (.waitDequeue v c) s = .next (s₁.finish e.t op 0))
                  ∧ (holds = false → homeVault e.pa = v → s₁.armedFull v e.ctx = true →
                      exec (.waitDequeue v c) s = .next (s₁.setHsq v (e :: s₁.hsqOf v)))
                  ∧ (holds = false → (s₁.armed.filter fun a => homeVault a.pa == homeVault e.pa && a.ctx == c).length < (if c = 4 then 16 else 64) →
                      e.ctx = c → exec (.waitDequeue v c) s = .next { s₁ with
                        armed := s₁.armed ++ [⟨c, e.pa, cc, w, uns, b, due, e.t, op, e.va / 8 * 8 + e.pa % 8, e.widx, false⟩] })))
      ∧ ∀ a, s.armed[k]? = some a → a.deadline ≤ s.time →
        exec (.waitTimeout k) s = .next ({ s with armed := s.armed.eraseIdx k }.finish a.t a.op 1)

/-- R41, R235, R240, R416: a combining node whose 8 clk are over forwards what it holds, up to its scope, and then to the word's home when that
has room; a group at the level of the pod goes up to package 0, the root, which alone sends it to the word's home; where no way leads there,
LNKERR and waits to their deadlines are what its members get (R413); how many arrivals the tree has
combined with those of a package that is not the root is a free number (the model's choice, log entry 22). R241:
BSYNC arrives at the word that its address then names once the region's engine commands and ATOMs, and its element's earlier accesses, are
done and its buffer is committed; a deadline that passes before ends it with TIMEOUT, with nothing done. -/
def Obligations.NodesAndBsync : Prop :=
  (∀ (s : State) (k : Nat) (n : Comb),
      s.combs[k]? = some n → n.until_ ≤ s.time →
      let rest := { s with combs := s.combs.eraseIdx k }
      let goes := fun (top : Nat) => if n.level < min n.scope top then rest.enterNode (n.level + 1) n.scope n.entry
        else (rest.sendHome n.entry).getD s
      (∀ m k' ms, n.entry.req = .arrive m k' ms → n.level < 5 → exec (.combiningArrival k) s = .next (goes 5))
        ∧ (∀ a w u items, n.entry.req = .atoms a w u items → exec (.treeHoldExpiry k) s = .next (goes 4))
        ∧ (n.level = 5 → s.fleet.en = false ∨ s.podSize ≤ 1 → exec (.podBarrierRelease k) s = .next ((rest.sendHome n.entry).getD s))
        ∧ (n.level = 5 → s.fleet.en = true → 1 < s.podSize →
            (s.treeCut = true → exec (.podBarrierRelease k) s = .next (rest.stranded n.entry))
              ∧ (s.treeCut = false → s.fleet.pkg = 0 → exec (.podBarrierRelease k) s
                  = .next ((rest.sendHome n.entry).getD s))
              ∧ (s.treeCut = false → s.fleet.pkg ≠ 0 → ∀ m j ms dim plus, n.entry.req = .arrive m j ms → s.firstHop 0 = some (dim, plus) →
                  let u := rest.sendRequest n.entry.ctx (remoteBase + s.nextPackage dim plus * 2 ^ 42)
                  (ms = [] → exec (.podBarrierRelease k) s = .next u)
                    ∧ (ms ≠ [] → s.cutOff n.entry.pa = true → exec (.podBarrierRelease k) s = .next (u.stranded n.entry))
                    ∧ (ms ≠ [] → s.cutOff n.entry.pa = false → ∃ x, x < 2 ^ 32 ∧
                      let e := { n.entry with req := .arrive m (j + x) ms }
                      exec (.podBarrierRelease k) s
                        = .next (if inRemote e.pa then u.draw.2.remoteAnswer e else (u.draw.2.sendHome e).getD s)))))
  ∧ (∀ (s : State) (r : Nat) (g : Region) (b : Bsync), s.region? r = some g → g.bsync = some b → b.arrived = false →
      (g.frozen = false → s.time ≤ b.deadline → s.regionBusy g = false → s.beforeBsync b = false →
          let p : Site := ⟨b.t, 0, 0, b.widx⟩
          (∀ s₁ q, s.page p none g.ctx b.va (.sync true) = (s₁, .ok q) →
            let e : HsqEntry := ⟨g.ctx, q.pa, b.t, none, b.va, b.widx, .arrive b.n 0 [(b.t, b.op, some (some b.deadline))], b.scope⟩
            exec (.bsyncProceed r) s = .next (s₁.commit r false fun s =>
              let s := (s.touchHere p g.ctx b.va q.pa).onRegion r fun g => { g with bsync := some { b with arrived := true } }
              if s.cutOff q.pa then s.stranded e else s.enterNode 2 (effScope b.t q.pa b.scope) e))
          ∧ ∀ s₁ f, s.page p none g.ctx b.va (.sync true) = (s₁, .error f) → exec (.bsyncProceed r) s = .next (s₁.raise p f))
        ∧ ((g.frozen = true ∨ s.regionBusy g = true ∨ s.beforeBsync b = true) → exec (.bsyncProceed r) s = .next s)
        ∧ (b.deadline ≤ s.time → exec (.bsyncDeadline r) s = .next (s.finish b.t b.op 1))
        ∧ (s.time < b.deadline → exec (.bsyncDeadline r) s = .next s))

/-! ### Issue of engine commands and of launch instructions -/

/-- R243, R244, R249 to R252: the port form of an engine command enters the queue of an engine of the element's die and returns its ticket,
and waits while the queue holds 16; the chain form and CHAPP ask the home of the chain for an append. The address and the detail of the
PROT of an engine number above 7 are the model's choice (log entry 17), that a command which has started is not among the 16 another (log entry
66), and that an append to a chain of another package completes at once with a free number a third (log entry 22). -/
def Obligations.EngineCommandsIssue : Prop :=
  ∀ (f : FmtY) (s : State),
    (∀ i fn, (i, fn) ∈ [(Instr.cpy f, 0), (.dense f, 1), (.sparsify f, 2), (.a2a f, 3), (.coll f, 4)] → s.canY f 2 →
        let n := yA s f
        let d := dieOf s.here
        (8 ≤ n → exec i s = .next (s.trap (.prot n 3)))
          ∧ (n < 8 → 16 ≤ (s.engine d n s.myCtx).queue.length → exec i s = .next s)
          ∧ (n < 8 → (s.engine d n s.myCtx).queue.length < 16 → s.actsAtOnce false →
              let u := s.acted
              let E := u.engine d n s.myCtx
              exec i s = .next ((State.markOlder (u.setEngine d n s.myCtx { E with
                  queue := E.queue
                    ++ [{ commandOf f fn (u.me.readV f.sb) ((u.regionOf u.here).map fun q => q.2.task)
                          (((u.regionOf u.here).map fun q => q.2.place s.here).getD 0, s.me.nop) with ticket := E.next }]
                  next := (E.next + 1) % 2 ^ 64 })).issueY .ticket f (some E.next) false i)))
      ∧ (∀ i fn s₁ s₂ s₃ r g pa q, (i, fn) ∈ [(Instr.cpyChain f, 0), (.denseChain f, 1), (.sparsifyChain f, 2), (.a2aChain f, 3), (.collChain f, 4)] →
        s.canY f 3 → s.regionOf s.here = some (r, g) → yC s f % 128 = 0 → s.syncWord (yA s f) 8 true = (s₁, .word pa) →
        s₁.page s.site none g.ctx (yC s f) (.spill true) = (s₂, .ok q) → s₂.barred q.pa (yC s f) = none →
        s₂.wouldSpoil q.cmp (cellsAt q.pa [0]) = false →
        s₂.tailFault s.site g.ctx (if inRemote pa then 0 else s₂.homeWord pa) = (s₃, none) → s₃.mayAsk pa = true → s₃.actsAtOnce false →
        let u := (s₃.acted.touch s.site g.ctx (yC s f) q.pa).touch s.site g.ctx (yA s f) pa
        let entry := bytesOf 64 (s.me.readV f.sb).toNat ++ bytesOf 8 (fn + 2 ^ 3 * f.aop.toNat + 2 ^ 7 * f.scope.toNat + 2 ^ 10 * f.ord.toNat)
          ++ List.replicate 56 0
        let e : HsqEntry := ⟨g.ctx, pa, u.here, some u.me.nop, yA s f, u.me.pc, .chapp true (yC s f) q.pa q.cmp (cellsAt q.pa entry), 0⟩
        let u := u.markOlder
        let y := (u.asks f .chapp false i).draw.2.entryCells e true q.pa (cellsAt q.pa entry)
        (inRemote pa = false → exec i s = .next ((u.asks f .chapp false i).request e))
        ∧ (inRemote pa = true → ∃ x, exec i s = .next ((y.2.enterEntry q.cmp q.pa x y.1).finish s.here s.me.nop x)))
      ∧ ∀ s₁ s₂ s₃ r g pa q bs, s.canY f 2 → s.regionOf s.here = some (r, g) → yB s f % 128 = 0 → s.syncWord (yA s f) 8 true = (s₁, .word pa) →
        s₁.page s.site none g.ctx (yB s f) (.spill true) = (s₂, .ok q) → s₂.barred q.pa (yB s f) = none →
        s₂.taskRead g q.cmp q.pa 128 = some bs → s₂.wouldSpoil q.cmp (cellsAt q.pa [0]) = false →
        s₂.tailFault s.site g.ctx (if inRemote pa then 0 else s₂.homeWord pa) = (s₃, none) → s₃.mayAsk pa = true →
        s₃.actsAtOnce (f.ord.getLsbD 1) →
        let u := (s₃.acted.touch s.site g.ctx (yB s f) q.pa).touch s.site g.ctx (yA s f) pa
        let e : HsqEntry := ⟨g.ctx, pa, u.here, some u.me.nop, yA s f, u.me.pc, .chapp false (yB s f) q.pa q.cmp (State.heldCells g.buffer q.pa 128), 0⟩
        let y := (u.asks f .chapp false (.chapp f)).draw.2.entryCells e false q.pa (State.heldCells g.buffer q.pa 128)
        (inRemote pa = false → exec (.chapp f) s = .next ((u.asks f .chapp false (.chapp f)).request e))
        ∧ (inRemote pa = true → ∃ x, exec (.chapp f) s = .next ((y.2.enterEntry q.cmp q.pa x y.1).finish s.here s.me.nop x))

/-- R253, R254, R258 to R260: TASKQ holds a task of an acceptable record and returns its handle, or returns 0; LPATCH enters the store buffer;
LARM arms a record and returns the arm status; TRAP takes the exception TRAP with its immediate; HALT stops the region's sources. The model's
choices: TASKQ holds its task whether or not the spawning one is irrevocable (log entry 42), and LARM of a record in a malformed block raises
DECMP with its index (log entry 62). -/
def Obligations.LaunchInstructions : Prop :=
  ∀ (f : FmtY) (h : FmtI) (s : State),
    (∀ s₁ s₂ r g q bs k l, s.canY f 1 → s.regionOf s.here = some (r, g) → yA s f % 128 = 0 →
        s.page s.site none g.ctx (yA s f) (.load 3) = (s₁, .ok q) → q.cls = 0 → s₁.barred q.pa (yA s f) = none → s₁.loading q.pa 128 = false →
        s₁.fetchAll r q (yA s f) 128 = (s₂, some bs) →
        s₂.task? g.task = some k → s₂.launchOf g = some l →
        let ws := wordsOf bs 16
        let prio := bits (word ws 3) 56 2
        let room := s₂.queueRoom k.die prio != 0 && !((s₂.die k.die).pending.any fun p => match s₂.launchBy p.1 with | some x => x.prio == prio | none => false)
        ((taskRecordOk s₂ k l ws && room) = true →
            exec (.taskq f) s = .next ((holdTask s₂ r k l ws).2.issueY .taskq f (some s₂.nhandle) false (.taskq f)))
          ∧ ((taskRecordOk s₂ k l ws && room) = false →
            exec (.taskq f) s = .next ((s₂.issueY .taskq f (some 0) false (.taskq f)).count g.die .taskqRefused)))
      ∧ (∀ r g s₁, s.canY f 2 → s.regionOf s.here = some (r, g) → yA s f < 4096 →
          s.buffers r (.patch s.site (yA s f) f.flg.toNat (BitVec.ofNat 64 (yB s f)) s.me.nop) s₁ →
          exec (.lpatch f) s = .next (s₁.asks f .lpatch false (.lpatch f)))
      ∧ (s.canY f 1 → yA s f < 4096 → s.actsAtOnce (f.ord.getLsbD 1) →
          let x := s.acted.armRecord s.acted.myCtx (yA s f) []
          (s.acted.recordSpoiled s.acted.myCtx (yA s f) = false → exec (.larm f) s = .next (x.2.issueY .larm f (some x.1) false (.larm f)))
            ∧ (s.acted.recordSpoiled s.acted.myCtx (yA s f) = true → exec (.larm f) s = .next (s.acted.trap (.decmp (yA s f)))))
      ∧ (s.canIssue ((s.me.effMask h.pg h.ps).getLsbD 0) [] →
          exec (.trap h) s = .next (s.trap ⟨0x13, 0, h.imm.toNat⟩)
            ∧ ∀ r, s.me.region = some r → exec (.halt h) s = .next (s.onRegion r fun g => { g with stopped := true }).advance)

/-! ### Matrix instructions -/

namespace Sys2Proof.Machine

/-- The matrix instructions of Format X but QUANT: their register sources, whether they write a V register, and the operand words read at
issue (R206 to R209, R215 to R221, R225 to R229). -/
def cellInstrs (f : FmtX) : List (Instr × List Src × Bool × (Tile → List Word × List Word × List Word)) :=
  let A := operandSrcs f.ak f.sa 0
  let B := operandSrcs f.bk f.sb 1
  let two := fun (T : Tile) => (T.matOperand f.ak f.sa, T.matOperand f.bk f.sb, ([] : List Word))
  let row : List Src := [⟨f.sa, false, 0⟩]
  [(.mma f, A ++ B, false, two), (.mmaw f, A ++ B, false, two),
   (.mmas f, A ++ B ++ [⟨f.sc, f.fe == 1, 2⟩, ⟨f.sc + 1, f.fe == 1, 2⟩], false, fun T => (T.pair f.sa, T.matOperand f.bk f.sb, T.pair f.sc)),
   (.accz f, [], false, fun _ => ([], [], [])),
   (.accrd f, row, true, fun T => ([T.readX f.sa.toNat], [], [])), (.acccvt f, row, true, fun T => ([T.readX f.sa.toNat], [], [])),
   (.accwr f, row ++ [⟨f.sc, f.fe == 1, 2⟩], false, fun T => ([T.readX f.sa.toNat], [], T.matOperand 0 f.sc)),
   (.seedx f, A ++ B, false, two), (.sfit f, A ++ B, true, two), (.ssrch f, A ++ B, true, two), (.lshb f, A ++ B, true, two),
   (.tpose f, A ++ B, false, two), (.deq f, A ++ B, false, two)]

end Sys2Proof.Machine

/-- R206, R207, R213, R229: a matrix instruction waits while an acquire is pending or four are queued, and otherwise joins the cell's queue with
the register operands it read; one with a V destination is long-latency. QUANT takes its draws at issue. -/
def Obligations.MatrixInstructionsIssue : Prop :=
  ∀ (f : FmtX) (s : State),
    let m := s.me.effMask f.pg f.ps
    (∀ i srcs dest ops, (i, srcs, dest, ops) ∈ cellInstrs f → s.canIssue (executes m dest) srcs →
        ((s.acquiring = true ∨ 4 ≤ s.me.mxc.queue.length) → exec i s = .next s)
          ∧ (s.acquiring = false → s.me.mxc.queue.length < 4 →
              exec i s = .next (s.onMe fun T =>
                let T' := if dest then T.issueOp .matrix f.sc m none false i else T
                { T' with mxc := { T'.mxc with queue := T'.mxc.queue
                    ++ [MatOp.fresh T i m (ops T).1 (ops T).2.1 (ops T).2.2 (if dest then some T.nop else none)] } }).advance))
      ∧ (s.canIssue (executes m false) (operandSrcs f.ak f.sa 0 ++ operandSrcs f.bk f.sb 1) → s.acquiring = false → s.me.mxc.queue.length < 4 →
          let draws := if f.sc = 5 then srDraws (Spec.shapeM f.mc * Spec.shapeK f.kc) s.me.gsr else (s.me.gsr, [])
          exec (.quant f) s = .next (s.onMe fun T =>
            { T with
              gsr := draws.1
              mxc := { T.mxc with queue := T.mxc.queue
                ++ [MatOp.fresh T (.quant f) m (T.pair f.sa) (T.pair f.sb) (draws.2.map (BitVec.ofNat 64)) none] } }).advance)

/-- R206, R214: the operand phase of the next queued instruction asks for the bytes of its operands, once the element's loads before it have
theirs, and reads them 16 clk later (log entry 56); a fault is precise and leaves the queue as it is. R206, R216, R220: the oldest staged
instruction completes when its compute phase ends: its bank is updated, the other bank and every register are as before, and a V result is
delivered. It waits before that time. -/
def Obligations.MatrixPhases : Prop :=
  (∀ (s s₁ : State) (t r i : Nat) (g : Region) (o o' : MatOp),
      s.active t = some (r, g) → nextOperand (s.tile t).mxc.queue = some (i, o) →
      ((∃ m ∈ s.mit, m.t = t) → exec (.matrixOperandPhase t) s = .next s) ∧
      ((∀ m ∈ s.mit, m.t ≠ t) → o.asks = true → exec (.matrixOperandPhase t) s = .next (s.onTile t fun T =>
        { T with mxc := { T.mxc with queue := T.mxc.queue.set i { o with due := s.time + 16 } } })) ∧
      ((∀ m ∈ s.mit, m.t ≠ t) → o.asks = false → s.time < o.due → exec (.matrixOperandPhase t) s = .next s) ∧
      ((∀ m ∈ s.mit, m.t ≠ t) → o.asks = false → o.due ≤ s.time → (stage s ⟨t, 0, 0, o.widx⟩ o = (s₁, .ok o') →
          let q := (s₁.tile t).mxc.queue
          let start := max s₁.time ((q.take i).foldl (fun m x => max m x.due) 0)
          exec (.matrixOperandPhase t) s = .next ((s₁.onTile t fun T =>
            { T with mxc := { T.mxc with queue := q.set i { o' with staged := true, due := start + o'.due } } }).count g.die .operandPhase))
        ∧ ∀ f, stage s ⟨t, 0, 0, o.widx⟩ o = (s₁, .error (.fault f)) → exec (.matrixOperandPhase t) s = .next (s₁.raise ⟨t, 0, 0, o.widx⟩ f)))
  ∧ (∀ (s : State) (t r : Nat) (g : Region) (o : MatOp) (rest : List MatOp),
      s.active t = some (r, g) → (s.tile t).mxc.queue = o :: rest →
      (o.staged = false ∨ s.time < o.due → exec (.matrixComputeComplete t) s = .next s)
        ∧ (o.staged = true → o.due ≤ s.time → o.held = [] → g.used ≤ g.capacity →
            ∃ u, exec (.matrixComputeComplete t) s = .next u
              ∧ (u.tile t).mxc.queue = rest ∧ (u.tile t).x = (s.tile t).x ∧ (u.tile t).v = (s.tile t).v
              ∧ (bankBit o.instr = false → (u.tile t).mxc.a0 = bankAfter (s.tile t).mxc.a0 o ∧ (u.tile t).mxc.a1 = (s.tile t).mxc.a1)
              ∧ (bankBit o.instr = true → (u.tile t).mxc.a1 = bankAfter (s.tile t).mxc.a1 o ∧ (u.tile t).mxc.a0 = (s.tile t).mxc.a0)
              ∧ (∀ n x, o.op = some n → x ∈ (u.tile t).ops → x.num = n →
                  x.value = some (resultOf (if bankBit o.instr then (s.tile t).mxc.a1 else (s.tile t).mxc.a0) o))
              ∧ (∀ a, memGet a u.mem = memGet a s.mem) ∧ ∀ v, v ≠ t → u.tile v = s.tile v))

/-- R117, R216, R220: what completion does to a bank. A multiply adds to element (i, j), for i < m and j < n, the products of row i of A and
column j of B, chunk by chunk, and leaves the other elements and the saturation mode; an INT32 accumulator takes each chunk's exact sum in one
step, wrapped, or saturated when the bank's saturation mode is on; ACCZ zeroes elements and sets the mode; ACCWR writes the
active lanes of a half row, and leaves the rest. -/
def Obligations.BankUpdates : Prop :=
  (∀ (sat : Bool) (acc : Nat) (c : List Val) (cs : List (List Val)),
      let t := sext acc 32 + (c.map Val.toInt).foldl (· + ·) 0
      sumChunks true sat acc [] = acc
        ∧ sumChunks true sat acc (c :: cs) = sumChunks true sat (wrap (if sat then max (-2 ^ 31) (min (2 ^ 31 - 1) t) else t) 32) cs)
  ∧ ∀ (b : AccBank) (o : MatOp) (f : FmtX) (i j : Nat), i < 32 → j < 32 → f.mc.toNat ≤ 3 → f.nc.toNat ≤ 3 →
    (∀ sparse, (o.instr = if sparse then .mmas f else .mma f) ∨ (sparse = false ∧ o.instr = .mmaw f) →
        let x := o.product f sparse
        let K := min (chunkK x.fa x.fb) x.k
        (bankAfter b o).sat = b.sat
          ∧ (bankAfter b o).get i j = if i < x.m ∧ j < x.n then
              (sumChunks (bothInt x.fa x.fb) b.sat (b.get i j) ((List.range (x.k / K)).map fun q =>
                ((x.rows.getD i []).filter fun e => e.1 / K == q).map fun e => e.2.mul ((x.cols.getD j []).getD e.1 Val.default))) % 2 ^ 32
            else b.get i j)
      ∧ (o.instr = .accz f →
          (bankAfter b o).sat = (f.kc == 1)
            ∧ (bankAfter b o).get i j = if i < Spec.shapeM f.mc ∧ j < Spec.shapeM f.nc then 0 else b.get i j)
      ∧ (o.instr = .accwr f →
          let row := bits (word o.a 0) 0 5
          let first := 16 * bits (word o.a 0) 5 1
          (bankAfter b o).sat = b.sat
            ∧ (bankAfter b o).get i j = if i = row ∧ first ≤ j ∧ j < first + 16 ∧ o.lanes.getLsbD (j - first) = true then elem (vecOf o.c) 32 (j - first)
                else b.get i j)

/-! ### Events of the compute element and of the fabric -/

namespace Sys2Proof.Machine

/-- The tile's units work: its region runs, is not frozen, and no drain is in force (R40, R163). -/
def State.works (s : State) (t : Nat) (g : Region) : Prop := ∃ r, s.active t = some (r, g)

end Sys2Proof.Machine

/-- R20, R77: an arrived result is written to its register, which becomes full unless a later producer has taken it over; the operation is no
longer outstanding, and no other register changes. R17, R18, R22, R23, R126, R146, R423: how beads enter an element and start. A bead at a
single or ZIP input enters while fewer than 8 are in flight and its loop admits it; an ARB join serves the input whose turn it is, and a SEL
join the one its control bead names; equal data beats of every token input form a bead, where a loop they enter admits it; the oldest bead
starts at the header's entry. -/
def Obligations.ResultsAndBeadsEnter : Prop :=
  (∀ (s : State) (t k : Nat) (g : Region) (o : LongOp) (v : Vec), s.works t g → (s.tile t).sized →
      (s.tile t).ops.find? (fun o => o.num == k) = some o →
      (o.value = none → exec (.longLatencyResult t k) s = .next s)
        ∧ (o.value = some v → ∃ T', exec (.longLatencyResult t k) s = .next (s.setTile t T')
            ∧ T'.ops = (s.tile t).ops.filter (fun q => q.num != o.num)
            ∧ (∀ r, 0 < r → r < 32 → o.dest = .x r →
                T'.readX r = v.setWidth 64 ∧ (T'.x.getD r ⟨0, true⟩).full = !(T'.ops.any fun q => q.dest == .x r && o.num < q.num)
                  ∧ ∀ j, j ≠ r → T'.x[j]? = (s.tile t).x[j]?)
            ∧ (∀ r, r < 16 → o.dest = .v r →
                (T'.v.getD r ⟨0, true⟩).val = merge ((s.tile t).v.getD r ⟨0, true⟩).val v o.lanes
                  ∧ (T'.v.getD r ⟨0, true⟩).full = !(T'.ops.any fun q => q.dest == .v r && o.num < q.num)
                  ∧ (∀ j, j ≠ r → T'.v[j]? = (s.tile t).v[j]?))
            ∧ (o.dest = .none → T'.x = (s.tile t).x ∧ T'.v = (s.tile t).v ∧ T'.beads = (s.tile t).beads)))
  ∧ (∀ (s : State) (t c : Nat) (g : Region),
      let T := s.tile t
      s.works t g → T.isCe = true →
      (T.beads.length < 8 → c ∈ T.joinInputs → T.tokenIn c = false →
          (T.join = 0 → hasBead T c = true → admits s g t c = true → exec (.beadhArrival t c) s = .next (s.onTile t fun T => T.acceptBead c))
            ∧ (T.join = 1 → T.joinInputs.head? = some c → T.beads.length + T.joinInputs.length ≤ 8 →
                (∀ k ∈ T.joinInputs, hasBead T k = true ∧ admits s g t k = true) →
                exec (.beadhArrival t c) s = .next (s.onTile t fun T => T.joinInputs.foldl Tile.acceptBead T))
            ∧ (T.join = 2 → arbChoice s g t = some c → hasBead T c = true →
                exec (.beadhArrival t c) s = .next (s.onTile t fun T => (T.acceptBead c).onUnit 0 fun U => { U with served := c + 1 })))
        ∧ (∀ h vs n, T.join = 3 → T.beads.length < 8 → beadAt (T.inQ T.selin) = some (h, vs, n) →
            (∀ k, selTarget T = some k → hasBead T k = true → admits s g t k = true →
              exec (.selJoinFire t) s = .next (s.onTile t fun T =>
                (((T.setInQ T.selin ⟨(T.inQ T.selin).beats.drop n, 0⟩).popStamp T.selin).acceptBead k).onUnit 0 fun U => { U with checked := false }))
            ∧ (selTarget T = none → (T.unit 0).checked = false →
              exec (.selJoinFire t) s = .next ((s.onTile t fun T => T.onUnit 0 fun U => { U with checked := true }).count g.die .selBad)))
        ∧ (T.join ≤ 1 → T.beads.length < 8 → T.joinInputs ≠ [] → (∀ k ∈ T.joinInputs, T.tokenIn k = true ∧ admits s g t k = true) →
            (∀ k ∈ T.joinInputs, ∃ b, T.inHead k = some b ∧ b.kind ≤ 2 ∧ b.count = ((T.joinInputs.filterMap T.inHead).headD (.control 0 0 0 0)).count) →
            ∃ u, exec (.tokenBeadForm t) s = .next u ∧ s.onlyTile u t
              ∧ ∃ b, (u.tile t).beads = T.beads ++ [b]
                  ∧ b.lmask = maskOf (fun i => i < ((T.joinInputs.filterMap T.inHead).headD (.control 0 0 0 0)).count)
                  ∧ b.slots = (T.joinInputs.filterMap T.inHead).map (fun h => ⟨h.data, true⟩)
                  ∧ b.loopc = 0 ∧ b.tag = 0 ∧ b.bseq = T.bseq.getD 4 0 ∧ b.num = T.nbead)
        ∧ ∀ b rest, T.beads = b :: rest → b.started = false →
            exec (.beadStart t) s = .next (s.onTile t fun T => { T with beads := { b with started := true, pc := T.entry } :: rest }))

namespace Sys2Proof.Machine

/-- A unit can take a step: its region works, the unit is configured, and its outputs have room (R30, R159, R163). -/
def State.unitCan (s : State) (t u r : Nat) (g : Region) : Prop :=
  s.active t = some (r, g) ∧ (s.tile t).configured u = true ∧ (s.tile t).roomy u = true

/-- A root source of the unit that may go on, or a unit that follows its inputs (R162, R260). -/
def Tile.goes (T : Tile) (u : Nat) (g : Region) : Prop := T.isRoot u = true → T.rootRuns u g = true

end Sys2Proof.Machine

/-- R22, R147, R265: a STOP or DONE at the join inputs is taken once and copied to every enabled output, when no bead is in flight, the
element's accesses are performed and each output has room: the same control token at every input of a single or ZIP join, the one served of an
ARB join, the control input's of a SEL join. R26, R41, R192: BAR goes through an element once it is at every input, no bead is in flight and
its accesses are performed; a stream unit with BAR at every input closes what is open and sends BAR with the tag of its lowest input, and so
do an AG port and a transform node with nothing open; an element or unit that has SW at every input and has finished what it accepted takes SW
from its inputs, puts it on its outputs and runs under the other bank. That each unit of an element switches by itself is the model's choice
(log entry 31). -/
def Obligations.ControlTokensPass : Prop :=
  (∀ (s : State) (t : Nat) (g : Region),
      let T := s.tile t
      let fires := fun (b : Beat) (k : Tile → Tile) => exec (.ceControlToken t) s
        = .next (s.onTile t fun T => T.outputs.foldl (fun T c => T.pushOut c [.control b.kind b.stop g.ctx 0]) (k T))
      s.works t g → T.isCe = true → T.beads = [] → T.unperformed = false → (∀ c ∈ T.outputs, T.outRoom c 1 = true) →
      (∀ b, T.join ≤ 1 → T.joinInputs ≠ [] → b.kind = 3 ∨ b.kind = 4 →
          (∀ c ∈ T.joinInputs, ∃ x, T.inHead c = some x ∧ x.kind = b.kind ∧ x.stop = b.stop) → fires b fun T => T.joinInputs.foldl Tile.popIn T)
        ∧ (∀ b c, T.join = 2 → arbChoice s g t = some c → T.inHead c = some b → hasEnd T c = true →
            fires b fun T => (T.popIn c).onUnit 0 fun U => { U with served := c + 1 })
        ∧ (∀ b, T.join = 3 → T.inHead T.selin = some b → hasEnd T T.selin = true → fires b fun T => T.popIn T.selin)
        ∧ ∀ b c h vs n, T.join = 3 → hasEnd T T.selin = false → beadAt (T.inQ T.selin) = some (h, vs, n) → selTarget T = some c →
            T.inHead c = some b → hasEnd T c = true →
            fires b fun T => ((T.popIn c).setInQ T.selin ⟨(T.inQ T.selin).beats.drop n, 0⟩).popStamp T.selin)
  ∧ (∀ (s : State) (t u : Nat) (r : Nat) (g : Region),
      let T := s.tile t
      s.active t = some (r, g) →
      (T.configured 0 = true → T.roomy 0 = true → T.isXf = false → T.mainInputs 0 ≠ [] → allAt T 0 5 = true → T.beads = [] → T.unperformed = false →
          exec (.barForward t 0) s = .next ((s.takeAll t (T.mainInputs 0)).onTile t fun T' =>
            T'.outputs.foldl (fun T' c => T'.pushOut c [.control 5 0 g.ctx
              (match T.token ((T.mainInputs 0).headD 0) with | some (_, x) => x | none => 0)]) T'))
        -- BAR at a stream unit, an AG port, a transform node
        ∧ (∀ x, s.unitCan t u r g →
            let ends := fun (v : State) (ins : List Nat) => (v.takeAll t ins).endUnit t u g.ctx 5 x
            (∀ ins, (u, ins) ∈ [(1, [8]), (2, [16]), (3, [24, 25, 26, 27]), (4, [32, 33]), (5, [40])] → T.mainInputs u = ins → allAt T u 5 = true →
                T.token (8 * u) = some (5, x) → (u ≤ 2 → T.isRoot u = false ∧ (T.unit u).ref = none) →
                exec (.barForward t u) s = .next (ends (if u = 3 then s.onTile t fun T => T.onUnit 3 fun U =>
                  { U with skip0 := none, skip1 := none } else s) ins))
              ∧ (∀ y, let w := lwrWord T
                u = 6 → T.mainInputs 6 ≠ [] → allAt T 6 5 = true → lwrHead T w = some (5, x, y) → (w.fn = 3 → ∃ z, T.token 50 = some (5, z)) →
                exec (.barForward t 6) s = .next (s.taskStores r (unitSite t 6) .streamWrite (some w.pg)
                  (if (T.unit 6).ended then [] else segStart T w) fun s => ends s ([48] ++ (if w.vw then [49] else []) ++ if w.fn = 3 then [50] else [])))
              ∧ (∀ p, p < 4 → u = 7 + p →
                let w := agWord T p
                let i := 56 + 2 * p
                (w.mode ≠ 0 → T.token i = some (5, x) → (T.unit u).ref = none →
                    (w.fn = 0 → exec (.agAff t p) s = .next (ends s [i]))
                      ∧ (w.fn = 1 → (T.unit u).checked = true → exec (.agInd t p) s = .next (ends s [i])))
                  ∧ (w.fn = 2 → w.mode = 0 → T.token (i + 1) = some (5, x) → exec (.agWr t p) s = .next (ends s [i + 1]))
                  ∧ ∀ y, w.fn = 2 → w.mode ≠ 0 → T.token i = some (5, x) → T.token (i + 1) = some (5, y) →
                    exec (.agWr t p) s = .next (ends s [i, i + 1]))
              ∧ (∀ i b, let xf := xfWord T
                let U := T.unit 0
                u = 0 → T.isXf = true → (i, xf.1) ∈ [(Instr.xfTpose t, 0), (.xfQuant t, 1), (.xfScale t, 2), (.xfBmap t, 3)] →
                T.inHead 0 = some b → b.kind = 5 → b.lane0 = x →
                (xf.1 = 0 → U.group = []) → (xf.1 = 1 → U.lanes = []) →
                (xf.1 = 3 → ceilDiv (bitmapWords xf.2.2.2.2) 8 ≤ U.pos ∨ U.pending = false) →
                exec i s = .next (ends (if xf.1 = 3 then s.onTile t fun T => T.onUnit 0 fun U =>
                  { U with entries := [], pos := 0, pending := false } else s) [0])))
        ∧ (u < 11 → g.switching = true ∨ (g.shadow = true ∧ T.mainInputs u ≠ []) → (T.unit u).switched = false → allAt T u 6 = true →
            settled T u = true → T.roomy u = true →
            ∃ v, exec (.elementSwitch t u) s = .next v ∧ ((v.tile t).unit u) = { UState.fresh with switched := true }
              ∧ (v.tile t).bankOf u = !(v.tile t).bank ∧ (v.tile t).bank = T.bank ∧ (v.tile t).x = T.x ∧ (v.tile t).v = T.v ∧ (v.tile t).p = T.p
              ∧ (∀ c ∈ T.mainInputs u, ((v.tile t).inQ c).beats = (T.inQ c).beats.drop 1)
              ∧ (∀ c ∈ (if u = 0 ∧ T.isXf = false then T.outputs else T.mainOutputs u),
                  ((v.tile t).outQ c).beats.getLast? = some (.control 6 0 g.ctx (bits g.gen.toNat 0 32)))
              ∧ (∀ c, c ≠ t → v.tile c = s.tile c) ∧ v.region? r = some { g with switching := true } ∧ v.mem = s.mem))

/-- R11, R30, R165 to R167: a beat moves from a switch source to all its destinations at once when each has credit, and from two sources in
whole granules; nothing is lost or copied otherwise. A well-formed beat is taken in at the far end of a link, one wrong bit is corrected
and counted, and a malformed beat raises LNKERR; that it stays on its wire is the model's choice (log entry 35). R161: a beat that an output is
still filling leaves after 8 clk. -/
def Obligations.BeatsMove : Prop :=
  ∀ (s : State) (t w : Nat) (g : Region), s.works t g →
    (∀ i k, (i, k) ∈ [(Instr.swRt t w, 0), (.swFork t w, 1)] →
        let ready := fun (r : Route) => !(sourceQ (s.tile t) (r.srcs.headD 0)).beats.isEmpty && r.dsts.all fun c => destRoom s t c 1
        (liveRoute s g t w k ready = none → exec i s = .next s)
          ∧ ∀ b r h, liveRoute s g t w k ready = some (b, r) → (sourceQ (s.tile t) (r.srcs.headD 0)).beats.head? = some h →
              exec i s = .next (r.dsts.foldl (fun s c => sendTo s t c [h]) (leaveSource s t (r.srcs.headD 0) 1)))
      ∧ (∀ b r i, liveRoute s g t w 2 (fun _ => true) = some (b, r) → i ≤ 1 →
          tabGet w (s.tile t).joins = some (2 * i + 1) ∨ (r.pol = 1 ∧ tabGet w (s.tile t).joins = some (2 * (1 - i))) →
          let ways := [0, 1].map fun j => (s.sourceWords g (b != (s.tile t).bank) t (r.srcs.getD j 0), sourceQ (s.tile t) (r.srcs.getD j 0))
          r.slot = 0 ∨ s.admitted g (b != (s.tile t).bank) ways (ways.getD i ([], ⟨[], 0⟩)).1 (if r.pol = 1 then [] else ways) = true →
          (s.tile t).sourceBank (r.srcs.getD i 0) g.switching = b →
          let q := sourceQ (s.tile t) (r.srcs.getD i 0)
          let n := granule r q
          0 < n → destRoom s t (r.dsts.headD 0) n = true →
          let k := ((q.beats.take n).headD (.control 0 0 0 0)).kind
          exec (.swJoin t w) s = .next ((sendTo (leaveSource s t (r.srcs.getD i 0) n) t (r.dsts.headD 0) (q.beats.take n)).onTile t fun T =>
            { T with joins := tabSet w (2 * i + if r.slot ≠ 0 ∨ k = 4 ∨ k = 5 then 0 else 1) T.joins }))
      ∧ (∀ link b rest, ((s.tile t).wireQ link).beats = b :: rest →
          let arrives := s.onTile t fun T => (T.setWireQ link ⟨rest, 0⟩).setInQ link ⟨(T.inQ link).beats ++ [b], (T.inQ link).used⟩
          let ofBead := (s.tile t).beadSource link g.switching
          (malformed b g.ctx ofBead = none → exec (.linkBeatReceive t link 0) s = .next arrives
              ∧ exec (.linkBeatReceive t link 1) s = .next (arrives.count g.die (.corrected 5)))
            ∧ (∀ d, malformed b g.ctx ofBead = some d → exec (.linkBeatReceive t link 0) s = .next (s.raise ⟨t, 13, link % 8, 0⟩ (.lnkerr 0 d)))
            ∧ exec (.linkBeatReceive t link 2) s = .next (s.raise ⟨t, 13, link % 8, 0⟩ (.lnkerr 0 0)))
      ∧ ∀ u, closesByClk u = true →
          exec (.outputBeat8Clk t u) s = .next (s.onTile t fun T => (Tile.outputCodes u).foldl (fun T c =>
            match tabGet c T.outs with
            | some p => if p.last + 8 ≤ s.time && T.outRoom c 1 then T.flushOut g.ctx c else T
            | none => T) T)

/-! ### Stream units -/

/-- R162, R171, R174: a root source starts; a scanner with no open fibre opens one at a REF, behind a pending S0; in an open dense fibre it
emits the next coordinate with its reference, and after the last it leaves an S0 pending. -/
def Obligations.ScannersOpenAndEmit : Prop :=
  ∀ (s : State) (t u r : Nat) (g : Region),
    let T := s.tile t
    let U := T.unit u
    s.unitCan t u r g →
    (T.isRoot u = true → g.stopped = false →
        exec (.rootSourceStart t u) s = .next (s.onTile t fun T => T.onUnit u fun U => { U with started := true }))
      ∧ (u = 1 ∨ u = 2 → T.goes u g →
          (∀ x, U.ref = some x → T.unitFn u ≠ 4 → exec (.scannerRef t u) s = .next (scanStep s r g (unitSite t u) t u))
          ∧ (∀ x, U.ref = some x → T.unitFn u = 0 → U.pos < U.lim →
              exec (.scannerRef t u) s = .next (s.onTile t fun T =>
                ((T.sendToken g.ctx s.time u (8 * u) 0 (BitVec.ofNat 32 U.pos)).sendToken g.ctx s.time u (8 * u + 1) 1
                  (BitVec.ofNat 32 ((x * bits (T.unitWord u 0) 0 32 + U.pos) % 2 ^ 32))).onUnit u fun U' => { U' with pos := U.pos + 1 }))
          ∧ (∀ x, U.ref = some x → T.unitFn u ≠ 4 → U.lim ≤ U.pos →
              exec (.scannerRef t u) s = .next (s.onTile t fun T => T.onUnit u fun U => { U with ref := none, pending := true }))
          ∧ ∀ k x, U.ref = none → T.isRoot u = false → T.token (8 * u) = some (k, x) → k ≤ 2 →
              exec (.scannerRef t u) s = .next (scanOpen s r g (unitSite t u) t u x true))

/-- R174, R192: an input stop leaves a scanner one level higher, at most 14, and absorbs a pending S0; the end of the input stream, or of a
root's one fibre, closes what is open and goes to every output. R175, R201: a SKIP that is not for the open fibre is discarded and counted,
and one that is moves a dense or bitmap scanner to its coordinate, never backwards; SCN.T emits the coordinate, reference and value of the
least committed key at or above its position, and closes the fibre when there is none before its end; a broken partition that its seek enters
raises DECMP (R402). That each seek is of its own instant is the model's choice (log entry 66). -/
def Obligations.ScannersStopAndSkip : Prop :=
  (∀ (s : State) (t u r : Nat) (g : Region),
      let T := s.tile t
      s.unitCan t u r g → u = 1 ∨ u = 2 → (T.unit u).ref = none →
      (∀ k, T.isRoot u = false → T.token (8 * u) = some (3, k) →
          let v := s.onTile t fun T => ((T.sendStop g.ctx u (min (k + 1) 14)).takeToken (8 * u)).onUnit u
            fun U => { U with pending := false, ended := false }
          exec (.scannerStop t u) s = .next (if k = 14 then v.count g.die .depthOverflow else v))
        ∧ (∀ x, T.isRoot u = false → T.token (8 * u) = some (4, x) → exec (.scannerDone t u) s = .next ((s.takeAll t [8 * u]).endUnit t u g.ctx 4 0))
        ∧ (T.isRoot u = true → T.rootRuns u g = true → (T.unit u).fibre = 1 → exec (.scannerDone t u) s = .next (s.endUnit t u g.ctx 4 0)))
  ∧ (∀ (s : State) (t u r : Nat) (g : Region),
      let T := s.tile t
      let U := T.unit u
      s.unitCan t u r g → u = 1 ∨ u = 2 →
      (∀ b, T.inHead (8 * u + 1) = some b →
          let c := (lane b.data 0).toNat
          let current := U.ref.isSome && (lane b.data 1).toNat == (U.fibre - 1) % 2 ^ 32 && (lane b.data 2).toNat == U.stream
          (current = false → exec (.scannerSkip t u) s = .next ((s.onTile t fun T => T.popIn (8 * u + 1)).count g.die .skipDiscarded))
            ∧ (current = true → T.unitFn u = 0 ∨ T.unitFn u = 2 →
                exec (.scannerSkip t u) s = .next ((s.onTile t fun T => T.onUnit u fun U =>
                  { U with pos := max U.pos c, floor := max U.floor c }).onTile t fun T => T.popIn (8 * u + 1))))
        ∧ ∀ P d e m s₁, T.unitFn u = 4 → T.goes u g → U.ref = some P → openScanTree s g (unitSite t u) T u = (s₁, .ok (d, e, m)) →
            let s₂ := s₁.touch (unitSite t u) g.ctx (T.ext u 0) d
            (s₁.brokenFrom d U.pos = true → exec (.scnTSeek t u) s = .next (s₁.raise (unitSite t u) (.decmp (T.ext u 0))))
              ∧ (s₁.brokenFrom d U.pos = false → s₂.seek d U.pos = none → exec (.scnTSeek t u) s = .next (s₂.onTile t fun T => scanClose T u))
              ∧ ∀ k v, s₁.brokenFrom d U.pos = false → s₂.seek d U.pos = some (k, v) →
                  (U.lim ≤ k → exec (.scnTSeek t u) s = .next (s₂.onTile t fun T => scanClose T u))
                    ∧ (k < U.lim → bits (T.unitWord u 0) 32 4 + 1 < s₂.descOrder d →
                        let c := (k - P * e * m) / m
                        let vty := s₂.descVty d
                        let x := if bit (T.unitWord u 0) 45 then some (extend v.toNat (Spec.tyWidth vty) (Spec.tyInt vty)).toNat else none
                        P * e + c < 2 ^ 32 →
                        exec (.scnTSeek t u) s = .next (s₂.onTile t fun T => (scanEmit T g.ctx s₂.time u c (P * e + c) x).onUnit u
                          fun U => { U with pos := P * e * m + (c + 1) * m })))

/-- R177, R178: a merge unit at two coordinates. Equal ones leave with both references; of different ones the lower is taken, discarded by an
intersection (with a SKIP where one may be sent) and emitted with an absent reference by a union. Two stops leave as one, and two ends end the
stream; a coordinate against a stop or an end is discarded by an intersection and emitted by a union; unequal stops leave as the higher one,
and a stop against an end is emitted by a union alone, each counted. R180: the repeater gives the held reference, or the next of ref_in, for
each driving coordinate; at a stop it releases the reference, or takes the one of an empty fibre, and takes the stop one level lower with it;
at the end ref_in is consumed up to its own, and both streams end together. R181, R182: the reducer folds the valid lanes of a beat in lane
order; at a stop it sends the fibre's value, or the identity of an empty fibre with ez, then the stop one level lower; at the end the open
value and the token. -/
def Obligations.MergeRepeatReduce : Prop :=
  (∀ (s : State) (t r : Nat) (g : Region) (a b ra rb ka kb : Nat) (union : Bool),
      let i : Instr := if union then .mrgU t else .mrgI t
      let s' := s.onTile t fun T => T.onUnit 3 fun U => { U with skip0 := settleSkip U.skip0 ka a, skip1 := settleSkip U.skip1 kb b }
      let out := fun (c x y : Nat) => s'.onTile t fun T => mergeEmit T g.ctx s.time c x y
      s.unitCan t 3 r g → (s.tile t).unitFn 3 = (if union then 1 else 0) →
      sideHead (s.tile t) 0 = some (ka, a, ra) → sideHead (s.tile t) 1 = some (kb, b, rb) →
      (ka ≤ 2 → kb ≤ 2 → a = b → exec i s = .next (popSide (popSide (out a ra rb) t 0 0) t 1 0))
        ∧ (ka ≤ 2 → kb ≤ 2 → a < b →
            exec i s = .next (popSide (if union then out a ra 0xFFFFFFFF else mergeSkip s' g t 0 b) t 0 0))
        ∧ (ka ≤ 2 → kb ≤ 2 → b < a →
            exec i s = .next (popSide (if union then out b 0xFFFFFFFF rb else mergeSkip s' g t 1 a) t 1 0))
        ∧ (ka = 3 → kb = 3 → a = b →
            exec i s = .next (popSide (popSide (s'.onTile t fun T => mergeStop T g.ctx a) t 0 3) t 1 3))
        ∧ (ka = 4 → kb = 4 → exec i s = .next ((s'.takeAll t [24, 25, 26, 27]).endUnit t 3 g.ctx 4 0))
        -- the sides do not meet
        ∧ (ka ≤ 2 → 3 ≤ kb → kb ≤ 5 → exec i s = .next (popSide (if union then out a ra 0xFFFFFFFF else s') t 0 0))
        ∧ (3 ≤ ka → ka ≤ 5 → kb ≤ 2 → exec i s = .next (popSide (if union then out b 0xFFFFFFFF rb else s') t 1 0))
        ∧ (let counted := s'.count g.die .stopMismatch
          let stop := fun (k : Nat) => counted.onTile t fun T => mergeStop T g.ctx k
          (ka = 3 → kb = 3 → a ≠ b → exec i s = .next (popSide (popSide (stop (max a b)) t 0 3) t 1 3))
            ∧ (ka = 3 → kb = 4 ∨ kb = 5 → exec i s = .next (popSide (if union then stop a else counted) t 0 3))
            ∧ (ka = 4 ∨ ka = 5 → kb = 3 → exec i s = .next (popSide (if union then stop b else counted) t 1 3)))
        ∧ (ka = 4 → kb = 5 → exec i s = .next (popSide s' t 0 4)) ∧ (ka = 5 → kb = 4 → exec i s = .next (popSide s' t 1 4)))
  ∧ (∀ (s : State) (t r : Nat) (g : Region),
      let T := s.tile t
      let U := T.unit 4
      s.unitCan t 4 r g →
      (∀ k y x, T.token 32 = some (k, y) → k ≤ 2 →
          let gives := fun (v : State) => (v.onTile t fun T' =>
            let T' := (T'.sendToken g.ctx v.time 4 32 1 (BitVec.ofNat 32 x)).onUnit 4 fun U => { U with ref := some x, ended := false }
            if T.lastLane 32 then T'.flushOut g.ctx 32 else T').take t 32 0
          (U.ref = some x → exec (.rptCrd t) s = .next (gives s))
            ∧ (∀ k', U.ref = none → T.token 33 = some (k', x) → k' ≤ 2 → exec (.rptCrd t) s = .next (gives (s.take t 33 1))))
        ∧ (∀ k, T.token 32 = some (3, k) →
            let sends := fun (v : State) => v.onTile t fun T => ((T.sendStop g.ctx 4 k).takeToken 32).onUnit 4 fun U => { U with pending := false }
            let marks := fun (v : State) => v.onTile t fun T => T.onUnit 4 fun U => { U with ref := none, pending := true, ended := false }
            (U.pending = false → U.ref.isSome = true → exec (.rptStop t) s = .next (marks s))
            ∧ (∀ k' x, U.pending = false → U.ref = none → T.token 33 = some (k', x) → k' ≤ 2 → exec (.rptStop t) s = .next (marks (s.take t 33 1)))
            ∧ (U.pending = true → k = 0 → exec (.rptStop t) s = .next (sends s))
            ∧ (∀ j, U.pending = true → k = j + 1 → T.token 33 = some (3, j) →
                exec (.rptStop t) s = .next (sends (s.onTile t fun T => T.takeToken 33))))
        ∧ ∀ x k y, T.token 32 = some (4, x) → T.token 33 = some (k, y) →
            (k = 4 → exec (.rptDone t) s = .next ((s.takeAll t [32, 33]).endUnit t 4 g.ctx 4 0))
              ∧ (k ≤ 2 → exec (.rptDone t) s = .next ((s.take t 33 1).count g.die .repeaterDiscard))
              ∧ (k = 3 → exec (.rptDone t) s = .next (s.onTile t fun T => T.takeToken 33)))
  ∧ (∀ (s : State) (t r : Nat) (g : Region),
      let T := s.tile t
      s.unitCan t 5 r g →
      (∀ b, T.inHead 40 = some b → b.kind = 2 →
          exec (.rdcVal t) s = .next (s.onTile t fun T => (T.popIn 40).onUnit 5 fun U =>
            { U with
              acc := (((lanesOf b.data).take b.count).drop ((s.tile t).inQ 40).used).foldl (fun a x => some (reduceOne (s.tile t) a x)) U.acc
              ended := false }))
        ∧ (∀ k, T.token 40 = some (3, k) →
            exec (.rdcStop t) s = .next (s.onTile t fun T =>
              let w := T.unitWord 5 0
              let v := match (T.unit 5).acc with
                | some a => some a
                | none => if bit w 36 then some (BitVec.ofNat 32 (foldUnit (bits w 41 5) (bits w 46 4))) else none
              let T := match v with | some a => T.sendToken g.ctx s.time 5 40 2 a | none => T
              ((if k = 0 then T else T.sendStop g.ctx 5 (k - 1)).takeToken 40).onUnit 5 fun U => { U with acc := none, ended := false }))
        ∧ ∀ x, T.token 40 = some (4, x) → exec (.rdcDone t) s = .next ((s.takeAll t [40]).endUnit t 5 g.ctx 4 0))

/-- R183 to R185: a level writer's stores, made as speculative stores of its region, and what it passes on. LWR.C stores the coordinate and
the value at the write position and moves on; a coordinate outside a dense or bitmap fibre is discarded and counted; a stop closes the
fibre, and the end of the stream goes on. R202: LWR.T forms the key from the held REF and the coordinate and puts a tree store into the
buffer of its region. The model's choices: detail 3 for a key at or past the end (log entry 17), the zero extension of the 32-bit lane
(log entry 36), and the wait for the same end at pre_in (log entry 55). -/
def Obligations.LevelAndTreeWriters : Prop :=
  (∀ (s : State) (t r : Nat) (g : Region),
      let T := s.tile t
      let U := T.unit 6
      let w := lwrWord T
      let stores := fun (runs : List (Nat × List Byte)) (k : State → State) => s.taskStores r (unitSite t 6) .streamWrite (some w.pg) runs k
      s.unitCan t 6 r g →
      (∀ k c v, lwrHead T w = some (k, c, v) → k ≤ 2 →
          (w.fn = 1 → (w.nz && w.zero v) = false →
            exec (.lwrEntry t) s = .next (stores (segStart T w ++ [(T.ext 6 1 + 4 * U.pos, bytesOf 4 c)]
              ++ if w.vw then [(T.ext 6 2 + w.bytes * U.pos, bytesOf w.bytes v)] else []) fun s =>
                lwrPass (s.onTile t fun T => T.onUnit 6 fun U => { U with pos := U.pos + 1 }) g t w c true))
          ∧ (w.fn = 0 → c < w.n →
            exec (.lwrEntry t) s = .next (stores [(T.ext 6 0 + w.bytes * (U.fibre * w.n + c), bytesOf w.bytes v)] fun s =>
              lwrPass (s.onTile t fun T => T.onUnit 6 fun U => { U with entries := U.entries ++ [(c, 0)] }) g t w c true))
          ∧ (w.fn = 0 ∨ w.fn = 2 → w.n ≤ c → exec (.lwrEntry t) s = .next ((lwrPass s g t w c false).count g.die .writerDiscard))
          ∧ (w.fn = 2 → c < w.n → U.floor ≤ c →
            let keep := !(w.nz && w.zero v)
            exec (.lwrEntry t) s = .next (lwrPass (s.onTile t fun T => T.onUnit 6 fun U => { U with
              floor := c + 1
              entries := if keep then U.entries ++ [(c, BitVec.ofNat 32 v)] else U.entries }) g t w c keep)))
        ∧ (∀ k x, lwrHead T w = some (3, k, x) →
            (w.fn ≠ 3 → exec (.lwrStop t) s = .next (lwrClose s r g t w k))
              ∧ (w.fn = 3 → U.checked = true → k = 0 → exec (.lwrStop t) s = .next (lwrClose s r g t w k))
              ∧ (∀ j, w.fn = 3 → U.checked = true → k = j + 1 → T.token 50 = some (3, j) →
                  exec (.lwrStop t) s = .next (lwrClose (s.onTile t fun T => T.takeToken 50) r g t w k)))
        ∧ ∀ x y, lwrHead T w = some (4, x, y) → (w.fn = 3 → ∃ z, T.token 50 = some (4, z)) →
            exec (.lwrDone t) s = .next (stores (segStart T w) fun s =>
              (s.takeAll t ([48] ++ (if w.vw then [49] else []) ++ if w.fn = 3 then [50] else [])).endUnit t 6 g.ctx 4 0))
  ∧ (∀ (s s₁ : State) (t r d x k c v : Nat) (g : Region),
      let T := s.tile t
      let w := lwrWord T
      let key := x * (s₁.extents d).getLastD 1 + c
      s.unitCan t 6 r g → w.fn = 3 → lwrHead T w = some (k, c, v) → k ≤ 2 → (T.unit 6).ref = some x →
      s.openAt (unitSite t 6) g.ctx (T.ext 6 0) true = (s₁, .ok d) →
      (key < s₁.keyEnd d → s₁.brokenAt d key = false →
          exec (.lwrTStore t) s = .next (s₁.holdKeys r (unitSite t 6) (T.ext 6 0) d [(key, BitVec.ofNat 64 v)] fun s => lwrPass s g t w c true))
        ∧ (s₁.keyEnd d ≤ key → exec (.lwrTStore t) s = .next (s₁.raise (unitSite t 6) (.prot (T.ext 6 0) 3))))

namespace Sys2Proof.Machine

/-- Reading the elements that references name leaves this state and gives these lanes; an absent one gives 0 with zabs (R187). -/
def State.gathers (s : State) (r : Nat) (site : Site) (w : AgWord) : List Lane → State → List Lane → Prop
  | [], s', vs => s' = s ∧ vs = []
  | rf :: rest, s', vs => ∃ v vs', vs = v :: vs'
      ∧ ((rf = 0xFFFFFFFF ∧ w.zabs = true ∧ v = 0 ∧ s.gathers r site w rest s' vs')
        ∨ (¬ (rf = 0xFFFFFFFF ∧ w.zabs = true) ∧ ∃ s₁ x, s.unitRead r site w.pg (w.base + w.bytes * rf.toNat) w.bytes = (s₁, .ok x)
            ∧ v = w.lane x ∧ s₁.gathers r site w rest s' vs'))

end Sys2Proof.Machine

/-- R186 to R190: an affine pass reads the element of its address and emits it, with the stop of the loop levels it closes; a pass by REF
opens; a beat of references gives a beat of the elements they name; an indirect pass takes its parameters once, each index leads to a value in
the ISE's return queue (R30), and the fabric takes the oldest; a writing port stores the value at its element. -/
def Obligations.AddressGenerators : Prop :=
  ∀ (s : State) (t p r : Nat) (g : Region),
    let T := s.tile t
    let u := 7 + p
    let U := T.unit u
    let w := agWord T p
    s.unitCan t u r g → p < 4 →
    (∀ rf, w.fn = 0 → w.mode ≠ 2 → (w.mode = 0 → T.rootRuns u g = true) → U.ref = some rf →
        exec (.agAff t p) s = .next (s.reading r (unitSite t u) w.pg (w.addr rf U.pos) w.bytes fun v s =>
          let last := U.pos + 1 = w.total
          let s := s.onTile t fun T =>
            let T := (T.sendToken g.ctx s.time u (56 + p) w.kind (w.lane v)).onUnit u fun U => { U with pos := U.pos + 1 }
            match w.closes U.pos with
            | some j => if w.st && !last then T.sendStop g.ctx u j else T
            | none => T
          if last then agClose s g t p (w.mode = 0) w.st else s))
      ∧ (∀ b s₁ vs, w.fn = 0 → w.mode = 2 → T.inHead (56 + 2 * p) = some b → b.kind = 1 →
        s.gathers r (unitSite t u) w ((lanesOf b.data).take b.count) s₁ vs →
        exec (.agAff t p) s = .next (s₁.onTile t fun T => (T.sendBeat g.ctx u (56 + p) (.tokens w.kind g.ctx vs)).popIn (56 + 2 * p)))
      ∧ (∀ k x, w.mode ≠ 0 → w.mode ≠ 2 → U.ref = none → T.token (56 + 2 * p) = some (k, x) → k ≤ 2 →
          (w.fn = 0 → exec (.agAff t p) s = .next (agOpen s g t p x w.nlv true))
            ∧ (w.fn = 1 → U.checked = true → exec (.agInd t p) s = .next (agOpen s g t p x 0 true)))
      ∧ (∀ s₁ s₂ q bs, w.fn = 1 → U.checked = false → (if w.mode = 0 then T.rootRuns u g else (T.token (56 + 2 * p)).isSome) = true →
          s.page ⟨t, 10, p, 0⟩ (s.iseOf ⟨t, 10, p, 0⟩ g.ctx) g.ctx w.base .streamRead = (s₁, .ok q) → q.cls = 0 →
          s₁.taskRun r ⟨t, 10, p, 0⟩ .streamRead w.base 64 = (s₂, .ok bs) →
          exec (.iseParamRead t p) s = .next (if iseOk (wordsOf bs 8)
            then s₂.onTile t fun T => T.onUnit u fun U => { U with block := wordsOf bs 8, checked := true }
            else s₂.raise ⟨t, 10, p, 0⟩ (.prot w.base 6)))
      ∧ (w.fn = 1 → (w.mode = 0 → T.rootRuns u g = true) →
          let b := iseBlock U.block
          -- the ISE fetches ahead
          (∀ k s₁ s₂ idx v, s.returned t p = [] → U.ref = some k → s.iseRuns t p g.ctx = true →
            s.unitRead r ⟨t, 10, p, 0⟩ b.ipg (b.ibase + 4 * (k * b.icnt + U.pos)) 4 = (s₁, .ok idx) → ¬ (idx = 0xFFFFFFFF ∧ b.zabs = true) →
            s₁.unitRead r ⟨t, 10, p, 0⟩ b.vpg (b.vbase + b.bytes * idx) b.bytes = (s₂, .ok v) →
            let s₃ := s₂.onTile t fun T => T.onUnit u fun U => { U with pos := U.pos + 1 }
            exec (.iseValueReturn t p) s = .next { s₃ with iseq := s₃.iseq ++ [⟨(s.iseOf ⟨t, 10, p, 0⟩ g.ctx).getD 0, t, p, g.ctx,
              BitVec.ofNat 32 (extend v (8 * b.bytes) b.sx).toNat, decide (U.pos + 1 = b.icnt)⟩] })
          -- the fabric takes the oldest value
          ∧ ∀ x rest, s.returned t p = x :: rest →
              let s₁ := s.onTile t fun T => T.sendToken g.ctx s.time u (56 + p) 2 x.value
              let s₂ := { s₁ with iseq := s₁.iseq.erase x }
              let s₃ := if x.last = true then agClose s₂ g t p (w.mode = 0) b.st else s₂
              exec (.iseValueReturn t p) s = .next (if s₃.iseRuns t p g.ctx = true then s₃.iseFetch r g.ctx t p else s₃))
      ∧ ∀ k x, w.fn = 2 → k ≤ 2 →
          (w.mode = 0 → T.token (57 + 2 * p) = some (k, x) → U.mark < w.total →
            exec (.agWr t p) s = .next (s.taskStores r (unitSite t u) .streamWrite (some w.pg) [(w.addr 0 U.mark % 2 ^ 56, bytesOf w.bytes x)]
              fun s => (s.take t (57 + 2 * p) 2).onTile t fun T => T.onUnit u fun U => { U with mark := U.mark + 1, ended := false }))
          ∧ ∀ k' v, w.mode ≠ 0 → T.token (56 + 2 * p) = some (k, x) → T.token (57 + 2 * p) = some (k', v) → k' ≤ 2 → x ≠ 0xFFFFFFFF →
            exec (.agWr t p) s = .next (s.taskStores r (unitSite t u) .streamWrite (some w.pg)
              [((w.base + w.bytes * x) % 2 ^ 56, bytesOf w.bytes v)] fun s => (s.take t (56 + 2 * p) 1).take t (57 + 2 * p) 2)

/-- R191: transform nodes. XF.TPOSE gathers up to 16 beats of a kind; a full group, or one that a control token closes, leaves as one beat for
each lane of the longest. XF.QUANT gathers lanes; a full block, or one that a control token closes, leaves packed as one beat. XF.SCALE
multiplies each lane of a VAL beat by its constant, the first NaN winning, and passes other beats. XF.BMAP gathers the coordinates below
its extent, and at a fibre's stop its words leave, eight to a beat. A control token passes to the output once nothing is open. That a group
of XF.TPOSE has the kind of its first beat is the model's choice (log entry 37). -/
def Obligations.TransformNodes : Prop :=
  ∀ (s : State) (t r : Nat) (g : Region),
    let T := s.tile t
    let U := T.unit 0
    let xf := xfWord T
    let L := blockLen xf.2.1
    let W := bitmapWords xf.2.2.2.2
    let closing := ∃ b, T.inHead 0 = some b ∧ 3 ≤ b.kind
    let sends := fun (b : Beat) (f : UState → UState) (k : Tile → Tile) => s.onTile t fun T => k ((T.sendBeat g.ctx 0 0 b).onUnit 0 f)
    s.unitCan t 0 r g → T.isXf = true →
    -- a data beat
    (∀ b, T.inHead 0 = some b → b.kind ≤ 2 →
        let xs := (lanesOf b.data).take b.count
        (xf.1 = 0 → U.group.length ≠ 16 → exec (.xfTpose t) s = .next (s.onTile t fun T => (T.popIn 0).onUnit 0 fun V =>
            { V with group := U.group ++ [(b.count, b.data)], lim := if U.group.length = 0 then b.kind else V.lim }))
          ∧ (xf.1 = 1 → U.lanes.length < L →
              let v := s.onTile t fun T => (T.popIn 0).onUnit 0 fun U => { U with lanes := U.lanes ++ xs }
              exec (.xfQuant t) s = .next (if b.kind = 2 then v else v.count g.die .kindMismatch))
          ∧ (xf.1 = 2 → exec (.xfScale t) s = .next (s.onTile t fun T =>
              (T.sendBeat g.ctx 0 0 (.tokens b.kind g.ctx (if b.kind = 2 then xs.map fun x =>
                let a := fp32.value x.toNat
                let k := fp32.value xf.2.2.2.2
                BitVec.ofNat 32 (roundVal fp32 xf.2.2.1 xf.2.2.2.1 0 ((Val.firstNan [a, k]).getD (a.mul k))) else xs))).popIn 0))
          ∧ (xf.1 = 3 → ∃ v, exec (.xfBmap t) s = .next v ∧ ((v.tile t).unit 0).pending = true ∧ v.mem = s.mem ∧ (∀ u, u ≠ t → v.tile u = s.tile u)
              ∧ ((v.tile t).unit 0).entries = U.entries ++ ((xs.map BitVec.toNat).filter (· < xf.2.2.2.2)).map fun c => (c, 0)))
      -- what is gathered leaves
      ∧ (xf.1 = 0 → U.group ≠ [] → U.group.length = 16 ∨ closing →
          exec (.xfTpose t) s = .next (sends (.tokens U.lim g.ctx (U.group.map fun q => if q.1 ≤ U.pos then 0 else lane q.2 U.pos))
            (fun V => if U.pos + 1 < (U.group.map Prod.fst).foldl max 0 then { V with pos := U.pos + 1 } else { V with pos := 0, group := [] }) id))
      ∧ (xf.1 = 1 → U.lanes ≠ [] → L ≤ U.lanes.length ∨ closing →
          let draws := if xf.2.2.1 = 5 then srDraws L T.gsr else (T.gsr, [])
          let block := packBlock xf.2.1 xf.2.2.1 ((List.range L).map fun i => fp32.value (U.lanes.getD i 0).toNat) draws.2
          exec (.xfQuant t) s = .next (sends
            (.tokens 2 g.ctx (lanesOf (BitVec.ofNat 512 (packNat (elemBits xf.2.1) block.1 + block.2 * 2 ^ 480))))
            (fun V => { V with lanes := V.lanes.drop L }) fun T => { T with gsr := draws.1 }))
      ∧ (xf.1 = 3 → closing → U.pos < ceilDiv W 8 → U.pending = true ∨ (T.inHead 0).map Beat.kind = some 3 →
          let ws := (List.range (min 8 (W - 8 * U.pos))).map fun j => packNat 1 ((List.range 64).map fun i =>
            if U.entries.any fun e => e.1 == 64 * (8 * U.pos + j) + i then 1 else 0)
          exec (.xfBmap t) s = .next (sends (.tokens 2 g.ctx (ws.flatMap fun w => [BitVec.ofNat 32 w, BitVec.ofNat 32 (w / 2 ^ 32)]))
            (fun V => { V with pos := V.pos + 1 }) id))
      -- a control token passes
      ∧ ∀ b i, T.inHead 0 = some b →
          (i, xf.1) ∈ [(Instr.xfTpose t, 0), (.xfQuant t, 1), (.xfScale t, 2), (.xfBmap t, 3)] →
          (xf.1 = 0 → U.group = []) → (xf.1 = 1 → U.lanes = []) → (xf.1 = 3 → ceilDiv W 8 ≤ U.pos ∨ (b.kind = 4 ∧ U.pending = false)) →
          (b.kind = 3 →
              let cleared := if xf.1 = 3 then s.onTile t fun T => T.onUnit 0 fun V => { V with entries := [] } else s
              exec i s = .next (cleared.onTile t fun T => ((T.sendStop g.ctx 0 b.stop).popIn 0).onUnit 0 fun V => { V with pos := 0, pending := false }))
            ∧ (b.kind = 4 → ∃ v, exec i s = .next v ∧ (v.tile t).inQ 0 = ⟨((T.inQ 0).beats).drop 1, 0⟩
                ∧ (∀ c ∈ T.mainOutputs 0, ((v.tile t).outQ c).beats.getLast? = some (.control 4 0 g.ctx 0)) ∧ ((v.tile t).unit 0).group = []
                ∧ ((v.tile t).unit 0).entries = [] ∧ ((v.tile t).unit 0).ended = true ∧ v.mem = s.mem)

/-! ### Engines, memory interface, fences -/

/-- R244 to R251, R366: the events of a copy engine. A command that passes its checks becomes the current one; when its accesses are done the
completion word is written and its ticket is done; a fault stops the engine at the progress reached; a chain's head entry is marked
RUNNING and started, and a chain with no entry sleeps. The head is read through the walker of the engine's die, and a fault of that read stops
the engine (R374). A command whose issuer has an earlier access to perform waits. That the queue of port
commands takes its turn against one chain at a time, the chains rotating (log entry 63), and that a copy into its own source reads ahead (log
entry 60), are the model's choices. -/
def Obligations.EngineCommands : Prop :=
  ∀ (s : State) (d e c : Nat),
    let E := s.engine d e c
    E.stopped = none →
    (∀ k q s₁ b, E.queue = k :: q → E.cur = none → (E.turn = false ∨ E.chains = []) →
        (s.issuerBusy k = true → exec (.engineCommandStart d e c) s = .next s) ∧
        (s.issuerBusy k = false → (s.setEngine d e c { E with queue := q, turn := true }).bodyFault d e c k = (s₁, b) →
        (b = none → k.fn ≠ 4 → exec (.engineCommandStart d e c) s
            = .next (s₁.setEngine d e c { s₁.engine d e c with cur := some { k with started := true, ord := 0 } }))
          ∧ ∀ f, b = some f → exec (.engineCommandStart d e c) s = .next (s₁.stopEngine d e c k f k.prog)))
      ∧ (∀ k k₀ s₀ s₁ s₂, E.cur = some k → k.started = true → k.fn ≠ 3 → k.fn ≠ 4 → k.entry = none →
          s.readAhead (State.engineSite d e) c k = (s₀, k₀, none) → s₀.runCommand d e c k₀ = (s₁, .done) → s₁.writeCw d e c k k.ticket = (s₂, none) →
          exec (.engineCommandComplete d e c) s = .next (s₂.setEngine d e c { s₂.engine d e c with cur := none, done := k.ticket }))
      ∧ (∀ k k₀ s₀ s₁ f prog, E.cur = some k → k.started = true → k.fn ≠ 3 → (k.fn = 4 → k.held = true) →
          (s.readAhead (State.engineSite d e) c k = (s₀, k₀, none) → s₀.runCommand d e c k₀ = (s₁, .stopped f prog) →
            exec (.engineFault d e c) s = .next (s₁.stopEngine d e c k₀ f prog))
          ∧ (s.readAhead (State.engineSite d e) c k = (s₀, k₀, some f) →
            exec (.engineFault d e c) s = .next (s₀.stopEngine d e c k₀ f k₀.prog)))
      ∧ (∀ ch va rest, E.chains = (ch, va) :: rest → E.cur = none → (E.turn = true ∨ E.queue = []) →
          (∀ s₀ f, s.chainHead d e c va = (s₀, .error f) → exec (.chainWalk d e c) s = .next
              (s₀.stopEngine d e c ⟨7, 0, 0, false, false, 0, 0, none, none, none, ch, 0, false, false, false, 0, none⟩ f 0))
          ∧ (∀ s₀, s.chainHead d e c va = (s₀, .ok 0) → exec (.chainWalk d e c) s = .next (s₀.setEngine d e c { E with chains := rest, turn := false }))
          ∧ (∀ s₀ s₁ head bs, s.chainHead d e c va = (s₀, .ok head) → head ≠ 0 →
              (s₀.setEngine d e c { E with chains := rest ++ [(ch, va)], turn := false }).readRun
              (State.engineSite d e) c [] head 128 = (s₁, .ok bs) →
              let ctl := ofBytes ((bs.drop 64).take 8)
              let from' := chainIssuer s₁ ch (ofBytes ((bs.drop 80).take 8))
              let k : EngCmd := ⟨bits ctl 0 3, 0, bits ctl 7 3, bit ctl 10, bit ctl 11, BitVec.ofNat 512 (ofBytes (bs.take 64)), 0, from'.map Prod.fst,
                from'.map Prod.snd, some head, ch, ofBytes ((bs.drop 88).take 8), false, false, false, 0, none⟩
              bits ctl 0 3 < 4 → bits ctl 3 4 = 0 → ctl / 2 ^ 12 = 0 →
              (s₁.issuerBusy k = true → exec (.chainWalk d e c) s = .next s)
                ∧ ∀ s₂, s₁.issuerBusy k = false → s₁.entryStat d e c head 1 = (s₂, none) → exec (.chainWalk d e c) s = .next (startCommand s₂ d e c k)))
      ∧ ∀ va, (∀ s₁ f, s.page (State.engineSite d e) none c (va + 8) (.sync false) = (s₁, .error f) → s.chainHead d e c va = (s₁, .error f))
          ∧ ∀ s₁ q, s.page (State.engineSite d e) none c (va + 8) (.sync false) = (s₁, .ok q) → s₁.barred q.pa (va + 8) = none → inRemote q.pa = false →
            let u := s₁.touch (State.engineSite d e) c (va + 8) q.pa
            (u.badSync q.pa = false → s.chainHead d e c va = (u, .ok (u.homeWord q.pa)))
              ∧ (u.badSync q.pa = true → s.chainHead d e c va = (u.mendSync q.pa, .error (.decmp ((va + 8) / 256 * 256))))

/-- R247, R248, R200: A2A delivers one record to a free slot and counts it there, or is held; a held one goes on when there is room. A COLL of a
group of one takes its own data as the result; with a member still to come it waits. Two members on dies of this package that agree both get
their results of the sends in the order of their ranks, element by element the fold of rank 0's with rank 1's; two that disagree are refused
with PROT. Units that wait for index nodes are reissued once enough are free at the height that the partition then has. The model's choices:
each look of a held A2A counts its accesses anew (log entry 60); a COLL takes its place among those of its group when it starts, and waits for
every member of this package (log entry 38); delivery to a queue of another package, whose room is a free value, is complete at once (log
entry 22). -/
def Obligations.QueuesAndCollectives : Prop :=
  ∀ (s : State) (d e c : Nat) (k : EngCmd),
    let E := s.engine d e c
    (E.cur = some k → E.stopped = none → k.started = true →
      (∀ s₁ dest desc pa bs, k.fn = 3 → k.held = false → k.prog < k.field 192 32 →
          (∀ a w s₂, w < 8 → a2aSlot s d e c k = (s₁, .ok (dest, desc, pa, bs, some (a, w))) →
            (s₁.touch (State.engineSite d e) c desc pa).writeRun (State.engineSite d e) c k.issuer a bs = (s₂, none) →
            let s₃ := s₂.syncWrite (pa + 8 * w) 64 ((queueField s₂ pa w + 1) % 2 ^ 64)
            exec (.a2aDelivery d e c) s = .next (s₃.setEngine d e c { s₃.engine d e c with cur := some { k with prog := k.prog + 1 } }))
          ∧ (∀ a, a2aSlot s d e c k = (s₁, .ok (dest, desc, pa, bs, some (a, 8))) →
              let u := s₁.touch (State.engineSite d e) c desc pa
              exec (.a2aDelivery d e c) s = .next (u.setEngine d e c { u.engine d e c with cur := some { k with prog := k.prog + 1 } }))
          ∧ (a2aSlot s d e c k = (s₁, .ok (dest, desc, pa, bs, none)) → k.qovf = true →
              let u := s₁.touch (State.engineSite d e) c desc pa
              exec (.a2aDelivery d e c) s = .next (u.setEngine d e c { u.engine d e c with cur := some { k with held := true, qovf := true } })))
        ∧ (∀ s₁ dest desc pa bs x, k.fn = 3 → k.held = true → a2aSlot s d e c k = (s₁, .ok (dest, desc, pa, bs, some x)) →
            let u := s₁.touch (State.engineSite d e) c desc pa
            exec (.a2aResume d e c) s = .next (u.setEngine d e c { u.engine d e c with cur := some { k with held := false } }))
        ∧ (∀ s₁ s₂ bs, k.fn = 4 → k.held = false → groupOf s d e c k = (s₁, .ok [(s₁.fleet.pkg.toNat, d)]) → (k.aop = 0 → k.field 312 16 = 0) →
            k.field 296 16 = 0 →
            (s₁.memberCmd d c (k.field 64 64) k.ord = none → exec (.collMatch d e c) s = .next s)
            ∧ (s₁.memberCmd d c (k.field 64 64) k.ord = some (e, k) →
                s₁.readRun (State.engineSite d e) c (s₁.bufferOf k) (k.field 128 64) (k.field 256 32 * (Spec.tyWidth (k.field 288 5) / 8)) = (s₂, .ok bs) →
                exec (.collMatch d e c) s = .next (s₂.setEngine d e c { s₂.engine d e c with cur := some { k with
                  out := collResult k.aop (k.field 288 5) (k.field 293 3) (k.field 256 32) (k.field 312 16) 0 [bs]
                  held := true } })))
        ∧ (∀ s₁ d' e' k', k.fn = 4 → k.held = false → groupOf s d e c k = (s₁, .ok [(s₁.fleet.pkg.toNat, d), (s₁.fleet.pkg.toNat, d')]) →
            (s₁.memberCmd d' c (k.field 64 64) k.ord = none → exec (.collMatch d e c) s = .next s)
            ∧ (s₁.memberCmd d c (k.field 64 64) k.ord = some (e, k) → s₁.memberCmd d' c (k.field 64 64) k.ord = some (e', k') →
                (k'.aop ≠ k.aop → exec (.collMatch d e c) s = .next
                  ((s₁.stopEngine d e c k (.prot (k.field 64 64) 6) k.prog).stopEngine d' e' c k' (.prot (k.field 64 64) 6) k'.prog))
                ∧ ∀ s₂ s₃ bs bs', k.aop ≠ 0 → k'.aop = k.aop → k'.field 256 32 = k.field 256 32 → k'.field 288 8 = k.field 288 8 →
                  k'.field 312 16 = k.field 312 16 → k.field 296 16 = 0 → k'.field 296 16 = 1 →
                  let len := k.field 256 32 * (Spec.tyWidth (k.field 288 5) / 8)
                  s₁.readRun (State.engineSite d e) c (s₁.bufferOf k) (k.field 128 64) len = (s₂, .ok bs) →
                  s₂.readRun (State.engineSite d' e') c (s₂.bufferOf k') (k'.field 128 64) len = (s₃, .ok bs') →
                  let put := fun (v : State) d e (m : EngCmd) rank => v.setEngine d e c { v.engine d e c with cur := some { m with
                    out := collResult k.aop (k.field 288 5) (k.field 293 3) (k.field 256 32) (k.field 312 16) rank [bs, bs']
                    held := true } }
                  exec (.collMatch d e c) s = .next (put (put s₃ d e k 0) d' e' k' 1))))
      ∧ (∀ ty rop cnt root rank bs bs',
          let w := Spec.tyWidth ty / 8
          let at' := fun (bs : List Byte) i => ofBytes ((bs.drop (w * i)).take w)
          let fold := (List.range cnt).flatMap fun i => bytesOf w (foldElem ty rop (at' bs i) (at' bs' i))
          collResult 2 ty rop cnt root rank [bs, bs'] = some fold ∧ collResult 1 ty rop cnt rank rank [bs, bs'] = some fold
            ∧ collResult 3 ty rop cnt root rank [bs, bs'] = some (bs ++ bs')
            ∧ collResult 0 ty rop cnt 0 rank [bs, bs'] = some bs ∧ collResult 0 ty rop cnt 1 rank [bs, bs'] = some bs')
      ∧ ∀ r g x, s.region? r = some g → g.records = [x] → x.code = 0x07 → (∀ d e c, (s.engine d e c).full = false) →
          (s.nodesFree g.ctx x.va x.detail x.stores = true → exec (.idxfullReissue r) s = .next ((s.setRegion r { g with
            records := []
            frozen := g.stopWave || !g.repair.isEmpty }).reissueAll r))
          ∧ (s.nodesFree g.ctx x.va x.detail x.stores = false → exec (.idxfullReissue r) s = .next s)

/-- R158, R287 to R289, R375, R417: a block read gives the load its bytes; a malformed block is fetched once more, which is counted, and
malformed again raises DECMP at its address, after which the load's read is made anew and counts as an access. Every 2^26 clk the access
counters halve. Each die drops what a fence covers, and nothing else, from its walker, its table pointers and its ISEs, and acknowledges; a
host's fence then completes. -/
def Obligations.MemoryInterface : Prop :=
  ∀ s : State,
    (∀ k q r g, s.mit[k]? = some q → s.active q.t = some (r, g) →
        let u := if q.phase = 1 then s.count (dieOf q.t) .zmbRefetch
          else if q.phase = 2 then s.touch ⟨q.t, 0, 0, q.widx⟩ q.ctx q.va q.pa else s
        let i : Instr := if q.phase = 1 then .mitRefetch k else .mitBlockRead k
        (∀ bs, u.taskRead g q.cmp q.pa q.size = some bs →
            let v := if q.signed then BitVec.ofNat 512 (extend (ofBytes bs) (8 * q.size) true).toNat else BitVec.ofNat 512 (ofBytes bs)
            exec i s = .next (({ u with mit := u.mit.eraseIdx k }).onTile q.t fun T => T.deliver q.op v))
          ∧ (u.taskRead g q.cmp q.pa q.size = none →
            (q.phase ≠ 1 → exec i s = .next { u with mit := u.mit.modify k fun q => { q with phase := 1 } })
            ∧ (q.phase = 1 → exec i s = .next
                (State.raise { u with mit := u.mit.modify k fun q => { q with phase := 2 } } ⟨q.t, 0, 0, q.widx⟩ (.decmp (q.va / 256 * 256))))))
      ∧ (∀ d, (s.die d).halveAt ≤ s.time → exec (.counterHalving d) s = .next (s.onDie d fun D => { D with
          access := D.access.map fun q => (q.1, q.2 / 2)
          halveAt := s.time + 2 ^ 26 }))
      ∧ (∀ k f d rest, s.fences[k]? = some f → f.left = d :: rest →
          ∃ v, exec (.tfenceAck k) s = .next v ∧ v.fences = s.fences.modify k (fun f => { f with left := rest })
            ∧ (d < s.dies.length →
                (∀ x, x ∈ (v.die d).tlb ↔ x ∈ (s.die d).tlb ∧ f.covers x = false)
                ∧ (∀ x, x ∈ (v.die d).ptrs ↔ x ∈ (s.die d).ptrs ∧ f.covers x = false)
                ∧ (∀ es ∈ (v.die d).ise, ∀ x ∈ es, f.covers x = false)
                ∧ ∀ i x, x ∈ (v.die d).ise.getD i [] ↔ x ∈ (s.die d).ise.getD i [] ∧ f.covers x = false)
            ∧ ∀ x, x ≠ d → v.die x = s.die x)
      ∧ ∀ k f, s.fences[k]? = some f → f.left = [] → f.t = none → ∃ v, exec (.tfenceAck k) s = .next v
          ∧ v.fences = s.fences.eraseIdx k ∧ v.host.cpls = s.host.cpls ++ [⟨f.tag, 0, 0, []⟩]

/-! ### Scheduler, loader, launches -/

/-- R24, R33 to R37, R360 to R363: the turns of a die's scheduler. That a reservation in which a tile has been fenced is given up first and
chosen anew is the model's choice (log entry 64). -/
def Obligations.SchedulerTurns : Prop :=
  ∀ s : State,
    (∀ r g k, s.region? r = some g → s.task? g.task = some k → g.frozen = false → g.quiet = false → g.drain = none → 2 ^ k.texp ≤ g.clk →
        exec (.timeAllowanceExpiry r) s = .next ((s.setRegion r { g with cause := g.cause ||| 2 ^ 2 }).later [.op (.exhaustion r 2)]))
      ∧ (∀ r g cause, s.region? r = some g → g.frozen = false → g.quiet = false → g.drain = none →
          let causes := g.cause ||| 2 ^ cause
          (s.irrevocable g = false →
            exec (.exhaustion r cause) s = .next (State.drain (s.setRegion r { g with cause := causes }) r .split))
          ∧ (s.irrevocable g = true → ∃ v, exec (.exhaustion r cause) s = .next v ∧ v.region? r = some { g with
              frozen := true
              cause := 0
              records := g.records ++ [⟨s.nextSeq g.die g.ctx, 0x0E, tileAt g.die 0 0, 0, 0, causes, 0, 0⟩] }))
      ∧ (∀ h k l, s.task? h = some k → k.phase = .ready → k.readyAt + 2 ^ (s.die k.die).age ≤ s.time → s.launchBy (State.taskKey k) = some l →
          let s₁ := (s.setTask h { k with aged := true }).freshReserve h
          (∀ a b, splitDom k.dom l.grains = some (a, b) → h < s.nhandle → s₁.queueRoom k.die k.prio ≠ 0 →
            ∃ v, exec (.admissionAgeExpiry h) s = .next v
              ∧ v.task? s.nhandle = some { State.childOf h k a with phase := .ready, readyAt := s.time }
              ∧ v.task? (s.nhandle + 1) = some { State.childOf h k b with phase := .ready, readyAt := s.time }
              ∧ v.task? h = some { k with phase := .split, kids := 2, reserved := false, aged := false })
          ∧ ∀ q, splitDom k.dom l.grains = none → (s₁.die k.die).reserve.getD k.prio none = none → s₁.reservation k.die h l = some q →
            exec (.admissionAgeExpiry h) s
              = .next ((s₁.onDie k.die fun D => { D with reserve := D.reserve.set k.prio (some q) }).count k.die .reservation))
      ∧ (∀ r g, s.region? r = some g →
          (∀ why, g.drain = some why →
            (s.drained g = true → exec (.quiescenceReport r) s = .next (((s.releaseRegion r).afterDrain why g.task g.cause).endActing r))
            ∧ (s.drained g = false → exec (.quiescenceReport r) s = .next s))
          ∧ (g.drain = none → s.quiescent g = true → exec (.quiescenceReport r) s
              = .next ((s.setRegion r { g with quiet := true }).commit r true fun s => (s.complete g.task).releaseRegion r))
          ∧ (g.drain = none → s.quiescent g = false → exec (.quiescenceReport r) s = .next s))
      ∧ (∀ h k, s.task? h = some k → (s.tasks.filter fun q => q.2.phase != .done && q.2.succs.contains h).length < k.deps →
          let ready := k.deps = 1 ∧ k.phase = .waiting
          exec (.dependenceDecrement h) s = .next (s.setTask h { k with
            deps := k.deps - 1
            phase := if ready then .ready else k.phase
            readyAt := if ready then s.time else k.readyAt }))
      ∧ ∀ d h k l i v o, s.boot.live.getLsbD d = true → (s.offered d).head? = some h → s.placement d h = some (k, l, i, v, o) →
          (s.restoreFirst d k = true → exec (.allocate d) s = .next s)
          ∧ (s.restoreFirst d k = false → ∃ t, exec (.allocate d) s = .next t ∧ t.nregion = s.nregion + 1
            ∧ t.task? h = some { k with phase := .running s.nregion, reserved := true, aged := false }
            ∧ ∃ g, t.region? s.nregion = some g ∧ g.die = d ∧ (g.ox, g.oy) = o ∧ g.w = v.w ∧ g.h = v.h ∧ g.ctx = k.ctx ∧ g.task = h
              ∧ g.variant = i ∧ g.running = false ∧ g.loader.phase = .reading)

/-- R28, R47, R59 to R66, R69 to R72: the turns of a region's loader: entries are read in groups, a load that passes its checks is made
ready or switched in, a successor load begins, a scrub that finds its signature goes on; and a tile's bank is rewritten from the image
in the frozen region, with a record that says whether the signature then matched, the region going on with the last of its repairs. That a
scrub mismatch is repaired on the tile of the region's origin is the model's choice (log entry 41). -/
def Obligations.LoaderTurns : Prop :=
  ∀ (s : State) (r : Nat) (g : Region),
    s.region? r = some g →
    let v := variantOf (s.loadHeader g) g.loader.variant
    (∀ s₁ b, g.frozen = false → g.drain = none → g.loader.phase = .reading →
        let k := g.loader.entries.length
        let n := min 16 (v.fcnt - k)
        s.loadBytes g 4 (g.loader.img + v.foff + 40 * k) (40 * n) = (s₁, b) →
        (∀ f, b = .error f → exec (.loaderRead r) s = .next (s₁.loaderFault r g f))
        ∧ ∀ bs, b = .ok bs → ∃ t, exec (.loaderRead r) s = .next t ∧ t.region? r = some { g with loader := { g.loader with
            entries := g.loader.entries ++ (List.range n).map fun i => ((wordsOf bs (5 * n)).drop (5 * i)).take 5
            phase := if v.fcnt ≤ k + n then .verifying else .reading
            due := s.time + 16 + g.w + g.h } })
      ∧ (g.frozen = false → g.drain = none → g.loader.phase = .verifying → g.loader.due ≤ s.time →
          (∀ f, loadFailure v g.loader.entries = some f → exec (.verificationPass r) s = .next (s.cfginv r g f))
          ∧ (loadFailure v g.loader.entries = none → g.loader.succ = true → exec (.verificationPass r) s = .next (s.setRegion r { g with
              shadow := true
              gen := BitVec.ofNat 64 (Hdr.iseq (s.loadHeader g))
              loader := { g.loader with phase := .ready } }))
          ∧ (loadFailure v g.loader.entries = none → g.loader.succ = false → ∃ t g', exec (.verificationPass r) s = .next t
              ∧ t.region? r = some g' ∧ g'.running = true ∧ g'.loader.phase = .idle ∧ g'.nxt = v.nxt ∧ g'.nxtv = v.nxtv))
      ∧ (∀ s₁ bs, g.frozen = false → g.drain = none → g.running = true → g.switching = false → g.shadow = false → g.nxt ≠ 0 → g.nxt % 256 = 0 → g.loader.phase = .idle →
          let L : Loader := { g.loader with img := g.nxt, variant := g.nxtv, succ := true, entries := [] }
          (s.setRegion r { g with loader := L }).loadBytes { g with loader := L } 2 g.nxt 256 = (s₁, .ok bs) →
          let hdr := wordsOf bs 32
          let w := variantOf hdr g.nxtv
          Hdr.bad hdr = false → Hdr.tooBig hdr 15 = false → g.nxtv < Hdr.nvar hdr → w.w = g.w → w.h = g.h → w.quad = g.quad →
          ∃ t, exec (.successorPreload r) s = .next t ∧ t.region? r = some { g with
            loader := { L with
              phase := .reading
              hdr := hdr }
            protect := g.protect ++ [(g.nxt, Hdr.ilen hdr)] })
      ∧ (g.frozen = false → g.drain = none → g.running = true → g.switching = false → g.scrubAt ≤ s.time →
          let s₁ := s.setRegion r { g with scrubAt := s.time + 2 ^ 20 }
          (s.regionSig g = g.sig → exec (.configScrub r) s = .next s₁)
          ∧ (s.regionSig g ≠ g.sig → exec (.configScrub r) s = .next (s₁.configError r (tileAt g.die g.oy g.ox))))
      ∧ ∀ t rest s₁ b, g.repair = t :: rest → (∀ x ∈ g.records, x.unit ≠ 9) → s.rewrite g t = (s₁, b) →
          let pos := (tyOf t - g.oy) * g.w + (txOf t - g.ox)
          let lseq := ((s₁.task? g.task).map Task.lseq).getD 0
          let repaired := fun (detail : Nat) => ((s₁.postDie g.die g.ctx ⟨0x12, 0, detail⟩ false true lseq g.task).count g.die .cfgecc).setRegion r { g with
            repair := rest
            frozen := !g.records.isEmpty || g.stopWave || !rest.isEmpty }
          (b = .ok () → s₁.regionSig g = g.sig → exec (.configRepairComplete r) s = .next (repaired pos))
          ∧ (b = .ok () → s₁.regionSig g ≠ g.sig → exec (.configRepairComplete r) s = .next ((repaired (pos + 2 ^ 16)).fenceTile t))
          ∧ ∀ f, b = .error f → exec (.configRepairComplete r) s = .next (s₁.raise (State.loaderSite g) f)

/-- R256, R257, R352, R357 to R360: an arm writes its status and, accepted, appends a launch with the context's next number; a record that
waits with no dependence left starts; a die takes its pieces of a launch, one that finds no room being pending; the last report
completes the launch. -/
def Obligations.LaunchTurns : Prop :=
  ∀ s : State,
    (∀ c n, (s.ctx c).state = 1 → n < 4096 → s.recordSpoiled c n = false →
        let ws := (List.range 32).map fun k => BitVec.ofNat 64 (s.memWord (s.recordAt c n + 8 * k))
        let h := s.header? c (bits (word ws 0) 0 56)
        let st := h.1.armStatus c n ws h.2
        (st ≠ 0 → exec (.launchArm c n) s = .next (h.1.setRecField c n 11 16 8 st))
        ∧ (st = 0 → c < s.ctxs.length → Memory.wf s.mem → (∀ l ∈ s.launches, l.key ≠ 4 * (s.ctx c).nlseq + c) →
            ∃ v l, exec (.launchArm c n) s = .next v ∧ v.launches.length = s.launches.length + 1
              ∧ v.launches.take s.launches.length = s.launches ∧ v.launches.getLast? = some l
              ∧ l.ctx = c ∧ l.idx = n ∧ l.lseq = (s.ctx c).nlseq ∧ l.snap = ws
              ∧ v.recField c n 11 16 8 = 0 ∧ (v.ctx c).nlseq = (s.ctx c).nlseq + 1))
      ∧ (∀ c n l, s.current c n = some l → l.running = false → s.recField c n 11 8 8 = 1 → s.recField c n 9 16 16 = 0 →
          exec (.launchStart c n) s = .next (s.runRecord l))
      ∧ (∀ d k l, s.launchBy k = some l → l.running = true → d ∉ l.sent → l.live.getLsbD d = true → (s.die d).failed = false →
          let s₁ := s.setLaunch { l with sent := l.sent ++ [d] }
          (piecesFor l d = [] → exec (.launchPacket d k) s = .next s₁)
          ∧ (∀ p, piecesFor l d = [p] → 2 ≤ s₁.queueRoom d l.prio → s₁.pieceWaits d l.prio = false →
              exec (.launchPacket d k) s = .next (s₁.enqueuePiece l d p))
          ∧ ∀ p, piecesFor l d = [p] → s₁.queueRoom d l.prio < 2 →
              exec (.launchPacket d k) s = .next (s₁.onDie d fun D => { D with pending := D.pending ++ [(k, p)] }))
      ∧ (∀ d p l, (s.die d).pending = [p] → s.launchBy p.1 = some l → 2 ≤ s.queueRoom d l.prio →
          exec (.pendingPieceEnqueue d) s = .next ((s.onDie d fun D => { D with pending := D.pending.erase p }).enqueuePiece l d p.2))
      ∧ ∀ d k l, s.launchBy k = some l → d ∈ l.sent → piecesFor l d ≠ [] → d ∉ l.reported →
          (∀ q ∈ s.tasks, State.unfinished l q.2 = false) → (∀ x, ∀ p ∈ (s.die x).pending, p.1 ≠ k) →
          let l' := { l with reported := l.reported ++ [d] }
          exec (.dieReport d k) s = .next (if min l.pieces (popcount l.live.toNat 4) ≤ l.reported.length + 1
            then (s.setLaunch l').completeLaunch d l' else s.setLaunch l')

/-! ### Contexts and commands -/

/-- R348 to R350, R354 to R356, R390, R393: activation checks the fixed fields and makes the counters fresh; removal stops the context, and
ends in FREE once no region of it is left; a record takes its number and goes to the ring while a slot is there, and otherwise is held,
or dropped when it is an event; a write of fqhead clears notify pending and notifies again while records are left; a write of 0 clears
HERR. A record behind held ones is held after them. Outside READY none of these writes is performed. That a record which is no event is held
when the ring is full whether its fault freezes a region or not, and that an event behind held records waits, are the model's choices (log
entry 63). -/
def Obligations.ContextBlocks : Prop :=
  ∀ (s : State) (c : Nat),
    c < s.ctxs.length →
    let C := s.ctx c
    let placed := inHbm (C.pool + 2 ^ 20 - 1) = true ∨ (inVault C.pool = true ∧ inVault (C.pool + 2 ^ 20 - 1) = true)
    (s.boot.bstate = 4 → C.state = 0 → C.pool % 2 ^ 20 = 0 → placed → C.fqbase % 128 = 0 → 6 ≤ C.fqn → C.fqn ≤ 16 → ∃ v, exec (.contextActivate c) s = .next v
        ∧ v.ctx c = { C with state := 1, nlseq := 1, nseq := 1, stop := 0, cmds := [], preempt := none, acting := none, restoring := none, colls := [] })
      ∧ (s.boot.bstate = 4 → C.state = 0 → C.pool % 2 ^ 20 ≠ 0 → s.host.herrV = false → ∃ v, exec (.contextActivate c) s = .next v
          ∧ v.host.herrV = true ∧ v.host.herrSt = 2 ∧ v.ctxs = s.ctxs)
      ∧ (s.boot.bstate = 4 → C.state = 1 → ∃ v, exec (.contextRemove c) s = .next v ∧ (v.ctx c).state = 2 ∧ (∀ l ∈ v.launches, l.ctx ≠ c) ∧ ∀ x ∈ v.saved, x.ctx ≠ c)
      ∧ (C.state = 2 → C.preempt = none → (∀ q ∈ s.regions, q.2.ctx ≠ c) → ∃ v, exec (.removalComplete c) s = .next v ∧ (v.ctx c).state = 0
          ∧ (∀ k ∈ v.tasks, k.2.ctx ≠ c) ∧ ∀ D ∈ v.dies, (∀ e ∈ D.tlb, e.ctx ≠ c) ∧ (∀ e ∈ D.ptrs, e.ctx ≠ c)
            ∧ ∀ es ∈ D.ise, ∀ e ∈ es, e.ctx ≠ c)
      ∧ (∀ d p, ((s.die d).posts.find? fun p => p.1 == c) = some p →
          let taken := s.onDie d fun D => { D with posts := D.posts.erase p }
          ∀ s₁ rec', taken.numberRecord d c p.2 = (s₁, rec') →
          (∀ pa, s.ringFull c = false → s.ringAt c = some pa → (∀ q ∈ (s.die d).holds, q.1 ≠ c) →
            exec (.faultPost d c) s = .next (s₁.writeRecord c pa rec' false))
          ∧ (s.ringFull c = true → bit (word p.2 0) 9 = true → exec (.faultPost d c) s
              = .next ((taken.onCtx c fun C => { C with lost := C.lost + 1 }).count d .eventLost))
          ∧ (s.ringFull c = true → bit (word p.2 0) 9 = false → ((s.die d).holds.filter fun q => q.1 == c).length < 16 →
              exec (.faultPost d c) s = .next ((s₁.onDie d fun D => { D with holds := D.holds ++ [(c, rec')] }).count d .heldEvent))
          ∧ (∀ pa, s.ringFull c = false → s.ringAt c = some pa → (∃ q ∈ (s.die d).holds, q.1 = c) →
              (bit (word p.2 0) 9 = true → exec (.faultPost d c) s = .next s)
                ∧ (bit (word p.2 0) 9 = false → ((s.die d).holds.filter fun q => q.1 == c).length < 16 →
                  exec (.faultPost d c) s = .next ((s₁.onDie d fun D => { D with holds := D.holds ++ [(c, rec')] }).count d .heldEvent))))
      ∧ (∀ d p pa, ((s.die d).holds.find? fun p => p.1 == c) = some p → s.ringFull c = false → s.ringAt c = some pa →
          exec (.heldRecordPost d c) s = .next ((s.onDie d fun D => { D with holds := D.holds.erase p }).writeRecord c pa p.2 true))
      ∧ (∀ x : Word, s.boot.bstate = 4 →
          ∃ v, exec (.fqheadWrite c x) s = .next v ∧ (v.ctx c).fqhead = x.setWidth 32 ∧ (v.ctx c).notify = (x.setWidth 32 != C.fqtail))
      ∧ (s.boot.bstate = 4 → exec .herrClear s = .next { s with host := { s.host with herrV := false, herrSt := 0, herrAddr := 0 } })
      ∧ ∀ i, s.boot.bstate ≠ 4 → (∃ x, i ∈ [.contextActivate c, .contextRemove c, .fqheadWrite c x, .herrClear]) → exec i s = .next s

/-- R379 to R384: the record commands, for a context with no command in progress. RESUME thaws the region that the record froze, and reissues
its deferred PLDs once it goes on; after a TRAP the element goes on behind its instruction, and RESX needs a larger allowance. ABORT and
KILL drain the region, and end when it has been released; ABORT of an irrevocable task gets status 2. SKIP fails an engine's command, and
RETRY offers a SMALLEST task again. A block that breaks its table gets status 5, and a context that is not ACTIVE status 2: that status,
and the fields that a block is held to beyond its table's rows, are the model's choice (log entry 47). -/
def Obligations.RecordCommands : Prop :=
  ∀ (s : State) (k : CmdWords) (i : Instr),
    [(1, Instr.resume k), (2, .abort k), (3, .kill k), (4, .skip k), (5, .retry k)].contains (cmdOp k, i) = true →
    let c := cmdCtx k
    let seq := cmdArg k
    let s₀ := (s.onCtx c fun C => { C with cmds := C.cmds ++ [k] }).onCtx c fun C => { C with cmds := [] }
    let acting := fun (u : State) r => u.onCtx c fun C => { C with acting := some (k, r) }
    (s.boot.bstate ≠ 4 → exec i s = .next s)
      ∧ (s.boot.bstate = 4 → cmdBad k = true → exec i s = .next (s.endCommand k 5))
      ∧ (s.boot.bstate = 4 → cmdBad k = false → (s.ctx c).state ≠ 1 → exec i s = .next (s.endCommand k 2))
      ∧ (s.boot.bstate = 4 → cmdBad k = false → (s.ctx c).state = 1 → (s.ctx c).cmds = [] → State.commanded (s.ctx c) = false → c < s.ctxs.length → seq ≠ 0 →
          (∀ r g, s₀.frozenBy c seq = some (r, g) →
            (∀ x, cmdOp k = 1 → (g.records.find? fun x => x.seq == seq) = some x → cmdTexp k = 0 →
              let u := (if x.code = 0x13 then s₀.onTile x.t Tile.advance else s₀).thaw r seq
              (x.code = 0x0E → exec i s = .next (s₀.endCommand k 2))
                ∧ (x.code ≠ 0x0E → exec i s = .next ((u.reissueAll r).endCommand k 0)))
            ∧ (cmdOp k = 2 → s₀.irrevocable g = true → exec i s = .next (s₀.endCommand k 2))
            ∧ (cmdOp k = 2 → s₀.irrevocable g = false → exec i s = .next (acting (s₀.drain r .abort) r))
            ∧ (cmdOp k = 3 → exec i s = .next (acting (s₀.drain r .kill) r)))
          ∧ (∀ d e, s₀.frozenBy c seq = none → s₀.engineBy c seq = some (d, e) → cmdOp k = 4 → exec i s = .next ((s₀.failEngine d e c).endCommand k 0))
          ∧ ∀ h t, s₀.frozenBy c seq = none → s₀.engineBy c seq = none → s₀.loaderBy c seq = none → s₀.smallestBy c seq = some (h, t) →
              cmdOp k = 5 → exec i s = .next (((s₀.newAllowance h (cmdTexp k)).requeue h).endCommand k 0))

/-- R385 to R389: a pre-emption stops issue of the context on the dies of its mask; by grade it leaves the regions running, aborts the
speculative ones, or stops them all with the stop wave and saves them. It ends once none is left there, a freeze-save also when none that is
left fits. A restore reads its directory, lets regions that were left frozen in place go on, puts the saved ones back one by one, and lets
issue start again. A region that a fenced tile displaces is saved and restored for itself. A saved region is written to its place in the
area, leaves the regions and is kept to be restored; that a region left in place goes on only at RESUMECTX, with the errors found in it
meanwhile, and that values in the return queues are given up at a save, are the model's choice (log entry 48), and so is that a malformed
directory or save area gives BADSAVE (log entry 62). -/
def Obligations.PreemptAndRestore : Prop :=
  ∀ (s : State) (c : Nat),
    (∀ k i, [(1, Instr.preemptBoundary k), (2, .preemptAbort k), (3, .preemptFreezeSave k)].contains (cmdGrade k, i) = true →
        s.boot.bstate = 4 → cmdOp k = 6 → cmdBad k = false → cmdCtx k = c → c < s.ctxs.length → (s.ctx c).state = 1 → (s.ctx c).cmds = [] →
        State.commanded (s.ctx c) = false → (s.regions.map Prod.fst).Nodup →
        let there := fun (g : Region) => g.ctx == c && bit (cmdDies k) g.die && g.drain.isNone
        ∃ v, exec i s = .next v ∧ v.ctx c = { s.ctx c with
            stop := (s.ctx c).stop ||| BitVec.ofNat 4 (cmdDies k)
            preempt := some k
            saving := 2 ^ 16
            nsaved := 0 }
          ∧ (cmdGrade k = 1 → v.regions = s.regions ∧ v.tiles = s.tiles)
          ∧ (∀ r g, s.region? r = some g → there g = false → v.region? r = some g)
          ∧ (∀ r g, cmdGrade k = 2 → s.region? r = some g → there g = true →
              (s.irrevocable g = true → v.region? r = some g)
              ∧ (s.irrevocable g = false → ∃ g', v.region? r = some g' ∧ g'.drain = some .abort ∧ g'.stopped = true))
          ∧ ∀ r g, cmdGrade k = 3 → s.region? r = some g → there g = true → ∃ g', v.region? r = some g' ∧ g'.frozen = true ∧ g'.stopWave = true)
      ∧ (∀ k, s.boot.bstate = 4 → cmdOp k = 7 → cmdBad k = false → cmdCtx k = c → c < s.ctxs.length → (s.ctx c).state = 1 → (s.ctx c).cmds = [] →
          State.commanded (s.ctx c) = false →
          let left := s.regions.filter fun q => q.2.ctx == c && q.2.stopWave && !q.2.moving
          let lost := s.spoiled (cmdArea k) 65536
          let n := if cmdArea k = 0 ∨ lost = true then 0 else min 4092 (s.memWord (cmdArea k) % 2 ^ 32)
          let restoring := fun (u : State) => u.onCtx c fun C => { C with
            restoring := some k
            restore := (List.range n).map fun i => u.memWord (cmdArea k + 64 + 16 * i) % 2 ^ 40
            badsave := lost }
          (left = [] → ∃ v, exec (.resumectx k) s = .next v ∧ v.regions = s.regions ∧ v.ctx c = (restoring s).ctx c)
            ∧ ∀ r g s₀, left = [(r, g)] → s₀ = (s.onCtx c fun C => { C with cmds := C.cmds ++ [k] }).onCtx c (fun C => { C with cmds := [] }) →
                exec (.resumectx k) s = .next (restoring (s₀.goOn r)))
      ∧ ((s.ctx c).preempt = none → exec (.preemptEnd c) s = .next (s.nextCommands c))
      ∧ (∀ k, (s.ctx c).state = 1 → (s.ctx c).preempt = some k →
          let left := s.regions.filter fun q => q.2.ctx == c && bit (cmdDies k) q.2.die
          let ended := fun (u : State) st => State.nextCommands ((u.onCtx c fun C => { C with preempt := none }).endCommand k st) c
          (cmdGrade k ≠ 3 → left = [] → exec (.preemptEnd c) s = .next (ended s 0))
            ∧ (cmdGrade k ≠ 3 → left ≠ [] → exec (.preemptEnd c) s = .next s)
            ∧ (cmdGrade k = 3 → (∀ q ∈ left, q.2.drain = none ∧ q.2.moving = false ∧ s.saveFits c k q.2 = false) →
                exec (.preemptEnd c) s
                  = .next (ended (s.memSet (cellsAt (cmdArea k) (bytesOf 8 (s.ctx c).nsaved))) (if left = [] then 0 else 3))))
      ∧ (∀ r g, s.region? r = some g → s.saveReady g = true →
          (g.moving = true → exec (.saveComplete r) s = .next (s.saveRegion r g 0))
          ∧ ∀ k, g.moving = false → g.ctx = c → c < s.ctxs.length → (s.ctx c).preempt = some k → cmdGrade k = 3 → bit (cmdDies k) g.die = true →
              s.saveFits c k g = true → s.onDies c (cmdDies k) = [(r, g)] → (s.ctx c).state = 1 →
              let base := cmdArea k + (s.ctx c).saving
              let out := g.tiles.foldl (fun (v : State) t => v.onTile t State.settleTile) ((s.scrubRegion r g).takeBack g)
              let u := s.saveRegion r g base
              exec (.saveComplete r) s = .next ((u.memSet (cellsAt (cmdArea k + 64 + 16 * (s.ctx c).nsaved)
                  (bytesOf 8 ((s.ctx c).saving + 2 ^ 40 * g.die) ++ bytesOf 8 (g.ox + 2 ^ 8 * g.oy + 2 ^ 16 * g.w + 2 ^ 24 * g.h)))).onCtx c fun C =>
                    { C with
                      saving := (s.ctx c).saving + saveSize g
                      nsaved := (s.ctx c).nsaved + 1 })
                ∧ u.region? r = none ∧ u.mem = (out.writeArea ((out.region? r).getD g) base).mem
                ∧ ∃ x, u.saved = s.saved ++ [x] ∧ x.num = r ∧ x.ctx = c ∧ x.area = base ∧ x.region.task = g.task ∧ x.tiles.length = g.w * g.h)
      ∧ ((s.saved.find? fun x => x.ctx == c && x.region.moving && (s.restorePlace x.region).isSome) = none →
          ∀ k, (s.ctx c).restoring = some k →
            ((s.ctx c).restore = [] → exec (.regionRestore c) s = .next (State.nextCommands
              ((s.onCtx c fun C => { C with restoring := none, stop := 0 }).endCommand k (if (s.ctx c).badsave then 4 else 0)) c))
            ∧ (∀ off rest x d ox oy, (s.ctx c).restore = off :: rest → s.savedAt c (cmdArea k + off) = some x →
                s.restorePlace x.region = some (d, ox, oy) →
                exec (.regionRestore c) s = .next ((s.restoreRegion x d ox oy).onCtx c fun C => { C with
                  restore := rest
                  badsave := C.badsave || false }))
            ∧ ∀ off rest, (s.ctx c).restore = off :: rest →
                (s.savedAt c (cmdArea k + off) = none → exec (.regionRestore c) s = .next (s.onCtx c fun C => { C with
                  restore := rest
                  badsave := C.badsave || true }))
                ∧ ∀ x, s.savedAt c (cmdArea k + off) = some x → s.restorePlace x.region = none →
                    exec (.regionRestore c) s = .next (s.reserveRestore x.region))
      ∧ ∀ x d ox oy, (s.saved.find? fun x => x.ctx == c && x.region.moving && (s.restorePlace x.region).isSome) = some x →
          s.restorePlace x.region = some (d, ox, oy) → exec (.regionRestore c) s = .next (s.restoreRegion x d ox oy)

/-! ### Boot, errors, power, the pod, the host -/

/-- R393 to R400, R407, R418, R420: the boot stages. A power-on or a reset tests the controllers and leaves ROM with every context FREE, or
RECOVERY when none passes; go has every controller fetch the image, from RECOVERY after the ROM stage anew; copies that differ from the
first are fetched once more; an image that fails its checks, or a watchdog that runs out, sends the package to RECOVERY; a good one is
measured and initialised, parts that fail being left out, and the package is READY. A quote or a certificate chain makes attst busy, and
the response, with the nonce as the device read it, makes it done or an error. That no die passing its self-test means RECOVERY, and that
copies are compared with the first controller's, are the model's choices (log entry 52); the digest and signature algorithms are taken from
outside the spec (log entry 51). -/
def Obligations.BootStages : Prop :=
  ∀ s : State,
    let fresh := fun (v : State) => v.regions = [] ∧ v.tasks = [] ∧ v.launches = [] ∧ ∀ c ∈ v.ctxs, c.state = 0
    let rom := fun (v : State) (failed : BitVec 4) => fresh v ∧ v.boot.live = 0 ∧ v.boot.minseq = s.boot.minseq
      ∧ (failed ≠ 0xF → v.boot.bstate = 1 ∧ v.boot.berr = 0) ∧ (failed = 0xF → v.boot.bstate = 5 ∧ v.boot.berr = 1)
    (s.dies.length = 4 →
        (∀ failed, ∃ v, exec (.powerOnReset failed) s = .next v ∧ rom v failed)
        ∧ ∃ v, exec .reset s = .next v ∧ rom v (s.draw.1.setWidth 4) ∧ v.boot.plim = 3000 ∧ v.host.herrV = false)
      ∧ (s.boot.tripped = true ∨ (s.boot.bstate ≠ 1 ∧ s.boot.bstate ≠ 5) → exec .go s = .next s)
      ∧ (s.boot.bstate = 1 → s.boot.tripped = false → exec .go s = .next { s with
          dies := s.dies.map fun D => { D with image := none, refetched := false }
          boot := { s.boot with bstate := 2 }
          host := { s.host with asked := s.controllers.map fun d => (d, s.boot.imgaddr.toNat, s.boot.imglen.toNat / 8) } })
      ∧ (s.boot.bstate = 5 → s.boot.tripped = false →
          let u := s.draw.2.romStage (s.draw.1.setWidth 4)
          (u.boot.bstate = 5 → exec .go s = .next u) ∧ (u.boot.bstate = 1 → u.boot.tripped = false → exec .go s = exec .go u))
      ∧ (s.boot.bstate = 2 →
          let copies := s.controllers.map fun d => (d, ((s.die d).image).getD [])
          let first := (copies.headD (0, [])).2
          let odd := (copies.filter fun q => sha384 q.2 != sha384 first).map Prod.fst
          ((∃ d ∈ s.controllers, (s.die d).image = none) → exec .checkComplete s = .next s)
          ∧ ((∀ d ∈ s.controllers, (s.die d).image ≠ none) →
              ((∀ q ∈ copies, s.imageFailure q.2 = 0) →
                (odd = [] → exec .checkComplete s = .next { s with boot := { s.boot with
                  bstate := 3
                  header := first.take 512
                  fwseq := BitVec.ofNat 64 (ofBytes (((first.take 512).drop 8).take 8))
                  m1 := extended s.boot.m1 (sha384 ((first.take 512).take 272)) } })
                ∧ ((∃ d ∈ odd, (s.die d).refetched = true) →
                    ∃ v, exec .checkComplete s = .next v ∧ fresh v ∧ v.boot.bstate = 5 ∧ v.boot.berr = 2 ∧ v.boot.live = 0)
                ∧ (odd ≠ [] → (∀ d ∈ odd, (s.die d).refetched = false) → ∃ v, exec .checkComplete s = .next v ∧ v.boot = s.boot
                    ∧ v.host.asked = s.host.asked ++ odd.map fun d => (d, s.boot.imgaddr.toNat, s.boot.imglen.toNat / 8)))
              ∧ ∀ e, e ≠ 0 → (∀ q ∈ copies, s.imageFailure q.2 = e) → copies ≠ [] →
                  ∃ v, exec .checkComplete s = .next v ∧ fresh v ∧ v.boot.bstate = 5 ∧ v.boot.berr = e ∧ v.boot.live = 0))
      ∧ (s.boot.bstate = 3 → s.dies.length = 4 →
          (∀ d < 4, (s.die d).failed = false ∧ s.fencedTiles d < 144 ∧ s.memoryLost d = false) →
          (∃ v, exec (.initComplete 0 ⟨0, [], []⟩) s = .next v ∧ v.boot.bstate = 4 ∧ v.boot.live = 0xF ∧ (∀ c ∈ v.ctxs, c.state = 0) ∧ v.pres = []
            ∧ (∀ a, inHost a = false → memGet a v.mem = 0)
            ∧ v.boot.m2 = extended s.boot.m2 (sha384 (bytesOf 8 s.boot.minseq.toNat ++ bytesOf 8 s.boot.revoked.toNat ++ bytesOf 8 0xF)))
          ∧ (∀ t, (s.tile t).fenced = false → ∃ v, exec (.initComplete 0 ⟨0, [t], []⟩) s = .next v ∧ v.boot.bstate = 4 ∧ v.boot.live = 0xF
              ∧ (v.tile t).fenced = true ∧ v.fleet.repl = true ∧ (s.fleet.rfirst = 0 → v.fleet.rfirst = 2))
          ∧ ∀ bad, bad = 0xF → ∃ v, exec (.initComplete bad ⟨0, [], []⟩) s = .next v ∧ fresh v ∧ v.boot.bstate = 5 ∧ v.boot.berr = 9)
      ∧ (∀ d, (s.die d).hung = true → (s.die d).serviced + 2 ^ 31 ≤ s.time → s.boot.bstate ≠ 5 →
          ∃ v, exec (.watchdogExpiry d) s = .next v ∧ fresh v ∧ v.boot.bstate = 5 ∧ v.boot.berr = 10)
      ∧ (s.boot.bstate = 4 → s.boot.attst ≠ 1 →
          (∃ v, exec .attestQuote s = .next v ∧ v.boot = { s.boot with attop := 1, attst := 1, nonce := [] }
            ∧ v.host.asked = s.host.asked ++ [(4, s.boot.nonceaddr.toNat, 6)])
          ∧ ∃ v, exec .attestCertChain s = .next v ∧ v.boot = { s.boot with attop := 2, attst := 1, nonce := [] }
            ∧ v.host.asked = s.host.asked ++ [(4, s.boot.nonceaddr.toNat, 6)])
      ∧ (s.boot.bstate = 4 → s.boot.attst = 1 → (∃ q ∈ s.host.asked, q.1 = 4) → ∀ b, exec (.attestResponse b) s = .next s)
      ∧ (s.boot.bstate = 4 → s.boot.attst = 1 → (∀ q ∈ s.host.asked, q.1 ≠ 4) →
          (∃ v, exec (.attestResponse false) s = .next v ∧ v.boot = { s.boot with attst := 3, attlen := 0 })
          ∧ (s.boot.attop = 1 → ∃ v, exec (.attestResponse true) s = .next v ∧ v.boot.attst = 2
              ∧ v.mem = memWrite (cellsAt (hostBase + s.boot.rspaddr.toNat) (s.quote s.boot.nonce)) s.mem)
          ∧ (s.boot.attop = 2 → ∃ v, exec (.attestResponse true) s = .next v ∧ v.boot.attst = 2
              ∧ v.mem = memWrite (cellsAt (hostBase + s.boot.rspaddr.toNat) s.certChain) s.mem))

namespace Sys2Proof.Machine

/-- What a fence or an exclusion for a reason of Table 4 leaves in REPLACE: of two in one clk, rlast keeps the higher reason (R420, R421). -/
def State.raised (s v : State) (code : Nat) : Prop :=
  v.fleet.repl = true
    ∧ v.fleet.rlast = (if s.fleet.rlastAt = s.time ∧ code < s.fleet.rlast.toNat then s.fleet.rlast else BitVec.ofNat 8 code)
    ∧ v.fleet.rfirst = (if s.fleet.rfirst = 0 then BitVec.ofNat 8 code else s.fleet.rfirst)

end Sys2Proof.Machine

/-- R71, R401 to R407, R418 to R421: errors, power and fencing. A corrected word is counted, and an uncorrectable one takes the effect of its
structure; the scrub of a bank's last word ends its pass; a sample enters the averages of the last millisecond, and one of 115 °C sends
the package to RECOVERY; the throttle state follows the rows of its table; a fence raises REPLACE with the code of its reason, and a
second fence of a part changes nothing, but that a failed die whose memory is lost later loses its irrevocable tasks. That pavg is the sum
of the dies' means, each rounded down, is the model's choice (log entry 53), and so are that a scan-out takes the one 64-bit word in error
as zero (log entry 29), that a scrub's write-back is counted (log entry 62), that a controller in error hangs (log entry 52), and that an
irrevocable region of a fenced tile is saved and moved (log entry 44). -/
def Obligations.ErrorsAndFences : Prop :=
  ∀ s : State,
    (∀ pa d b, State.bankOfAddr pa = some (d, b) → exec (.eccError (.memWord pa) true) s
        = .next (State.uncorrectableBank { s with bad := setInsert (pa / 8) s.bad } d b)
      ∧ exec (.eccError (.memWord pa) false) s = .next
          (State.correctedBank (if s.scrubs pa = true then (s.count d (.corrected 0)).count d .scrubWrite else s.count d (.corrected 0)) d b))
      ∧ (∀ desc p,
          let vault := s.descVault desc p
          let broken := fun (tr : Tree) => { tr with parts := tr.parts.modify p fun q => { q with broken := true } }
          (∀ tr, tabGet desc s.trees = some tr → exec (.eccError (.treeNode desc p) true) s
            = .next (State.uncorrectableBank { s with trees := tabSet desc (broken tr) s.trees } (vault / 64) (vault % 64)))
          ∧ exec (.eccError (.treeNode desc p) false) s = .next ((s.count (vault / 64) (.corrected 1)).correctedBank (vault / 64) (vault % 64)))
      ∧ (∀ b, exec (.eccError (.tag b) true) s = .next { s with badTags := setInsert b s.badTags })
      ∧ (∀ t off, exec (.eccError (.scratch t off) true) s = .next (s.onTile t fun T => { T with spSites := setInsert (off / 8) T.spSites })
          ∧ exec (.eccError (.scratch t off) false) s = .next ((s.count (dieOf t) (.corrected 3)).correctedTile t)
          ∧ ∀ c, exec (.eccError (.element t c) false) s = .next ((s.count (dieOf t) (.corrected 4)).correctedTile t))
      ∧ (∀ t c r g, s.regionOf t = some (r, g) →
          let p := State.cellSite s t c
          (g.stopWave = false → exec (.eccError (.element t c) true) s = .next (s.raise p (.decmp 0)))
          ∧ (g.stopWave = true → exec (.eccError (.element t c) true) s = .next ((s.onTile t fun T => State.zeroCell T c).setRegion r { g with
              marks := g.marks ++ [(t, some (p.unit, p.sub, p.widx))] }))
          ∧ (∀ k, g.stopWave = false → exec (.eccError (.link t k) true) s = .next (s.raise ⟨t, 13, k, 0⟩ (.lnkerr 0 0)))
          ∧ ∀ bank w, ((bank = 1) ↔ (s.tile t).bank = true) → g.switching = false →
              (g.running = true → exec (.eccError (.config t bank w) true) s = .next (s.configError r t))
              ∧ (g.running = false → exec (.eccError (.config t bank w) true) s = .next s))
      ∧ (∀ t r g bank w, s.regionOf t = some (r, g) → ¬ ((bank = 1) ↔ (s.tile t).bank = true) → g.switching = false →
          (g.loader.phase = .reading ∨ g.loader.phase = .verifying ∨ g.loader.phase = .ready →
            exec (.eccError (.config t bank w) true) s = .next (s.discardShadow r .reading 0))
          ∧ (g.loader.phase = .idle → exec (.eccError (.config t bank w) true) s = .next s))
      ∧ (∀ d, exec (.eccError (.controller d) true) s = .next (s.onDie d fun D => { D with hung := true })
          ∧ ∀ twice, d < s.dies.length → ∃ v, exec (.eccError (.cache d) twice) s = .next v
            ∧ (v.die d).tlb = [] ∧ (v.die d).ptrs = [] ∧ (v.die d).ise = [[], []] ∧ v.tiles = s.tiles ∧ v.mem = s.mem)
      ∧ (∀ a d b, State.bankOfAddr a = some (d, b) →
          let n := (if b < 64 then 2 ^ 24 else 2 ^ 31) / 8
          exec (.patrolScrub a) s = .next (if a % (8 * n) / 8 + 1 = n then s.onDie d fun D => { D with scrubbed := tabErase b D.scrubbed } else s))
      ∧ (∀ d w t, d < s.dies.length → (s.die d).sampleAt ≤ s.time →
          let kept := (s.boot.samples.filter fun q => s.time < q.1 + 1800000) ++ [(s.time, d, w, t)]
          let mean := fun (x : Nat) => let ws := (kept.filter fun q => q.2.1 == x).map fun q => q.2.2.1; if ws.isEmpty then 0 else ws.sum / ws.length
          ∃ v, exec (.powerSample d w t) s = .next v ∧ v.boot.samples = kept
            ∧ v.boot.pavg = BitVec.ofNat 16 (mean 0 + mean 1 + mean 2 + mean 3)
            ∧ v.boot.tjmax = BitVec.ofNat 8 ((kept.map fun q => q.2.2.2).foldl max 0)
            ∧ (t < 115 → (v.die d).watts = w ∧ (v.die d).celsius = t ∧ v.boot.tstate = s.boot.tstate ∧ v.boot.bstate = s.boot.bstate)
            ∧ (115 ≤ t → v.boot.bstate = 5 ∧ v.boot.tripped = true ∧ (s.boot.bstate ≠ 5 → v.boot.berr = 11)))
      ∧ (∀ d w t, s.time < (s.die d).sampleAt → exec (.powerSample d w t) s = .next s)
      ∧ (∀ d, ∃ v, exec (.thermalTrip d) s = .next v ∧ v.boot.bstate = 5 ∧ v.boot.tripped = true ∧ (s.boot.bstate ≠ 5 → v.boot.berr = 11)
          ∧ (s.time, d, (s.die d).watts, max (s.die d).celsius 115) ∈ v.boot.samples)
      ∧ (s.time < s.boot.updateAt → exec .throttleUpdate s = .next s)
      ∧ (s.boot.updateAt ≤ s.time →
          let b := { s.boot with updateAt := s.time + 1800000 }
          let row := if 110 ≤ b.tjmax.toNat then 3 else if 105 * b.plim.toNat < 100 * b.pavg.toNat ∨ 105 ≤ b.tjmax.toNat then 2
            else if b.plim.toNat < b.pavg.toNat then 1 else 0
          let calm := 100 * b.pavg.toNat ≤ 95 * b.plim.toNat ∧ b.tjmax.toNat ≤ 100
          (b.tstate.toNat < row →
            exec .throttleUpdate s = .next { s with boot := { b with tstate := BitVec.ofNat 2 row, calmAt := s.time } })
          ∧ (row ≤ b.tstate.toNat → calm → b.calmAt + 1800000 ≤ s.time → 0 < b.tstate.toNat →
              exec .throttleUpdate s = .next { s with boot := { b with tstate := b.tstate - 1, calmAt := s.time } })
          ∧ (row ≤ b.tstate.toNat → calm → s.time < b.calmAt + 1800000 ∨ b.tstate = 0 → exec .throttleUpdate s = .next { s with boot := b })
          ∧ (row ≤ b.tstate.toNat → ¬ calm → exec .throttleUpdate s = .next { s with boot := { b with calmAt := s.time } }))
      ∧ (∀ t, (s.tile t).fenced = false → s.fencedTiles (dieOf t) < 144 →
          ((s.tile t).region = none → ∃ v, exec (.tileFence t) s = .next v
            ∧ (v.tile t).fenced = true ∧ s.raised v 4 ∧ v.host.irqs = s.host.irqs + 1 ∧ v.regions = s.regions)
          ∧ ∀ r g, s.regionOf t = some (r, g) → g.drain = none →
              (s.irrevocable g = true → ∃ v, exec (.tileFence t) s = .next v ∧ (v.tile t).fenced = true ∧ s.raised v 4
                ∧ v.region? r = some { g with frozen := true, stopWave := true, moving := true })
              ∧ (s.irrevocable g = false → ∃ v, exec (.tileFence t) s = .next v ∧ s.raised v 4 ∧ (v.region? r).map Region.drain = some (some .abort)))
      ∧ (∀ t, (s.tile t).fenced = true → exec (.tileFence t) s = .next s)
      ∧ (∀ x, s.vaultFenced x = false → x / 64 < s.dies.length →
          ∃ v, exec (.vaultFence x) s = .next v ∧ v.fleet.repl = true ∧ v.vaultFenced x = true
            ∧ (s.fencedTiles (x / 64) < 136 → s.raised v 5) ∧ ∀ t ∈ State.vaultTiles x, (v.tile t).fenced = true)
      ∧ (∀ x, s.vaultFenced x = true → exec (.vaultFence x) s = .next s)
      ∧ (∀ k ch, s.channelFenced (k * 2 ^ 36 + ch * 2 ^ 31) = false → k < 8 → ch < 32 → s.dies.length = 4 →
          ∃ v, exec (.hbmChannelFence k ch) s = .next v ∧ v.fleet.repl = true ∧ v.channelFenced (k * 2 ^ 36 + ch * 2 ^ 31) = true
            ∧ (v.memoryLost (k / 2) = false → s.raised v 6))
      ∧ (∀ k ch, s.channelFenced (k * 2 ^ 36 + ch * 2 ^ 31) = true → s.memoryLost (k / 2) = false →
          exec (.hbmChannelFence k ch) s = .next s)
      ∧ (∀ d, (s.die d).failed = false → d < s.dies.length → ∃ v, exec (.dieFence d) s = .next v ∧ s.raised v 7 ∧ (v.die d).failed = true
          ∧ v.boot.live = s.boot.live &&& ~~~(1#4 <<< d))
      ∧ (∀ d, (s.die d).failed = true → s.memoryLost d = false → exec (.dieFence d) s = .next s)
      ∧ (∀ d r g, (s.die d).failed = true → s.memoryLost d = true → s.regions = [(r, g)] → g.die = d → g.drain = none → s.irrevocable g = true →
          ∃ v, exec (.dieFence d) s = .next v ∧ (v.region? r).map Region.drain = some (some .kill) ∧ v.fleet = s.fleet)
      ∧ (∀ p, p < s.fleet.lst.length → s.fleet.lst.getD p 0 ≠ 3 → ∃ v, exec (.portFence p) s = .next v ∧ s.raised v 8
          ∧ v.fleet.lst = s.fleet.lst.set p 3 ∧ (∀ q ∈ v.fleet.tx, q.1 ≠ p)
          ∧ v.fleet.rx = ((s.fleet.tx.filter fun q => q.1 == p).map fun q => (16 + p, q.2.2)) ++ s.fleet.rx)
      ∧ ∀ p, s.fleet.lst.getD p 0 = 3 → exec (.portFence p) s = .next s

/-- R408 to R417, R422: lattice ports. A flit with a good CRC that is for this package, or finds no credit on its way, stays in the receive
buffer of its channel and class; one that finds a credit stands in the sending buffer of a port of its next hop, in its dateline class; a bad
one is retried, and 2^20 retries in 2^30 clk fence the port; a retrain that succeeds brings the port up, and the third failure in a row fences
it; the tenth missed keep-alive loses the neighbour (R422, Table 6); PODCFG starts training, and MONCTL sets and clears counters. That PODCFG
clears the list of lost packages, that MONCTL keeps the count of an unchanged source, and that what a flit carries is not interpreted, are the
model's choices (log entry 53). -/
def Obligations.LatticePorts : Prop :=
  ∀ (s : State) (p : Nat),
    let F := s.fleet
    let lst := F.lst.getD p 0
    let heard := { F with missed := F.missed.set p 0 }
    (∀ f : Flit, lst = 2 → f.crcOk = true →
        let before := F.rx.filter fun q => q.1 == p && State.creditKey 0 q.2 == State.creditKey 0 f
        let stays := { heard with rx := F.rx ++ [(p, f)] }
        ((if f.ctx = 4 then 64 else 256) ≤ before.length → exec (.flitReceive p f) s = .next { s with fleet := heard })
        ∧ (before.length < (if f.ctx = 4 then 64 else 256) → f.dest = F.pkg ∨ before ≠ [] →
            ∃ v, exec (.flitReceive p f) s = .next v ∧ v.fleet = stays)
        ∧ (before = [] → f.dest ≠ F.pkg →
            (s.nextHop f.dest.toNat (State.travels p) = none → ∃ v, exec (.flitReceive p f) s = .next v ∧ v.fleet = heard)
            ∧ ∀ dim plus, s.nextHop f.dest.toNat (State.travels p) = some (dim, plus) →
                let edge := (s.coordsOf F.pkg.toNat).getD dim 0 == if plus then s.torus.getD dim 1 - 1 else 0
                let f' := { f with
                  dim := BitVec.ofNat 2 dim
                  cls := if f.ctx = 4 then f.cls else if edge then 1 else if f.dim.toNat = dim then f.cls else 0 }
                (s.creditPorts dim plus f' = [] → ∃ v, exec (.flitReceive p f) s = .next v ∧ v.fleet = stays)
                ∧ ∀ o os, s.creditPorts dim plus f' = o :: os → ∃ v x, exec (.flitReceive p f) s = .next v ∧ x ∈ o :: os
                    ∧ v.fleet = { heard with
                      tx := F.tx ++ [(x, f', f)]
                      used := tabSet (State.creditKey x f') ((tabGet (State.creditKey x f') F.used).getD 0 + 1) F.used }))
      ∧ (lst ≠ 2 → (∀ f, exec (.flitReceive p f) s = .next s) ∧ exec (.flitCrcRetry p) s = .next s)
      ∧ (lst = 2 → p < F.retries.length → p < F.lst.length →
          let past := (F.retries.getD p []).filter fun x => s.time < x + 2 ^ 30
          (∀ f : Flit, f.crcOk = false → exec (.flitReceive p f) s = exec (.flitCrcRetry p) s)
          ∧ (past.length + 1 < 2 ^ 20 → ∃ v, exec (.flitCrcRetry p) s = .next v ∧ v.fleet = { F with retries := F.retries.set p (past ++ [s.time]) })
          ∧ (2 ^ 20 ≤ past.length + 1 → ∃ v, exec (.flitCrcRetry p) s = .next v ∧ v.fleet.lst = F.lst.set p 3 ∧ s.raised v 8))
      ∧ (lst = 1 ∨ lst = 2 → p < F.retrain.length → p < F.lst.length →
          (∃ v, exec (.portRetrain p true) s = .next v ∧ v.fleet = { F with retrain := F.retrain.set p 0, lst := F.lst.set p 2 })
          ∧ (F.retrain.getD p 0 = 2 → ∃ v, exec (.portRetrain p false) s = .next v ∧ v.fleet.lst.getD p 0 = 3 ∧ s.raised v 8)
          ∧ (F.retrain.getD p 0 < 2 → ∃ v, exec (.portRetrain p false) s = .next v
              ∧ v.fleet = { F with retrain := F.retrain.set p (F.retrain.getD p 0 + 1), lst := F.lst.set p 1 }))
      ∧ (lst = 0 ∨ lst = 3 → (∀ ok, exec (.portRetrain p ok) s = .next s) ∧ exec (.keepaliveLoss p) s = .next s)
      ∧ (lst = 1 ∨ lst = 2 → F.missed.getD p 0 < 9 →
          exec (.keepaliveLoss p) s = .next { s with fleet := { F with missed := F.missed.set p (F.missed.getD p 0 + 1) } })
      ∧ (lst = 1 ∨ lst = 2 → 9 ≤ F.missed.getD p 0 → F.lst.length = 16 → p < 16 → 1 < s.torus.getD (portDir p).1 1 →
          ∃ v, exec (.keepaliveLoss p) s = .next v ∧ v.fleet.lst.getD p 0 = 3 ∧ v.fleet.repl = true
            ∧ v.fleet.lostPkg = setInsert (s.nextPackage (portDir p).1 (portDir p).2) F.lostPkg)
      ∧ (lst = 1 → exec (.portTrainingComplete p) s = .next { s with fleet := { F with
          lst := F.lst.set p 2
          retrain := F.retrain.set p 0
          missed := F.missed.set p 0 } })
      ∧ (lst ≠ 1 → exec (.portTrainingComplete p) s = .next s)
      ∧ (∀ v : Word,
          let inside := bits v.toNat 0 11 < (bits v.toNat 11 4 + 1) * (bits v.toNat 15 4 + 1) * (bits v.toNat 19 3 + 1)
          (s.boot.bstate ≠ 4 ∨ (∃ c ∈ s.ctxs, c.state ≠ 0) → exec (.podcfgWrite v) s = .next (s.logError 2 (State.dcbReg 0x520)))
          ∧ (s.boot.bstate = 4 → (∀ c ∈ s.ctxs, c.state = 0) → ¬ inside → exec (.podcfgWrite v) s = .next s)
          ∧ (s.boot.bstate = 4 → (∀ c ∈ s.ctxs, c.state = 0) → inside →
              ∃ u, exec (.podcfgWrite v) s = .next u ∧ u.fleet.en = v.getLsbD 22 ∧ u.fleet.dimx = BitVec.ofNat 4 (bits v.toNat 11 4)
                ∧ u.fleet.dimy = BitVec.ofNat 4 (bits v.toNat 15 4) ∧ u.fleet.dimz = BitVec.ofNat 3 (bits v.toNat 19 3)
                ∧ u.fleet.pkg = BitVec.ofNat 11 (bits v.toNat 0 11) ∧ u.fleet.lostPkg = []
                ∧ ∀ q < 16, u.fleet.lst.getD q 0 = if F.lst.getD q 0 = 3 then 3 else if v.getLsbD 22 ∧ 1 < u.torus.getD (portDir q).1 1 then 1 else 0))
      ∧ ∀ v : Word,
          let x := tabGet (State.monCtr v) (s.die (State.monDie v)).counters
          (s.boot.bstate ≠ 4 → exec (.monctlSet v) s = .next s ∧ exec (.monctlClr v) s = .next s)
          ∧ (s.boot.bstate = 4 → State.monSrc v ≤ 0xC7 → State.monDie v < s.dies.length →
              (v.getLsbD 16 = false → ∃ u, exec (.monctlSet v) s = .next u ∧ u.fleet.monctl = (v ||| 0x20000).setWidth 18
                ∧ tabGet (State.monCtr v) (u.die (State.monDie v)).counters
                  = some (State.monSrc v, if x.map Prod.fst = some (State.monSrc v) then (x.map Prod.snd).getD 0 else 0))
              ∧ ∀ y, v.getLsbD 17 = false → x = some y → ∃ u, exec (.monctlClr v) s = .next u ∧ u.fleet.monctl = (v ||| 0x10000).setWidth 18
                ∧ tabGet (State.monCtr v) (u.die (State.monDie v)).counters = some (y.1, 0))

/-- R343 to R348, R367, R375, R380, R393, R395: host transactions. Those of a class are performed in order, and wait behind a translation fence
of the class; one of a reserved kind is not performed. A header that breaks its table, or an access to what is shut before READY, answers
BADREQ; others complete with the status and data of their access; a posted write answers nothing and logs its failure; the words of the
device's own reads arrive; a lost module is counted and REPLACE raised. The model's choices: a free draw settles what becomes of a reserved
kind (log entry 49), a host's TFENCE is accepted for a FREE context (log entry 48), and the data of a read of the device are what its CPL
carries (log entry 52). -/
def Obligations.HostTransactions : Prop :=
  ∀ (s : State) (h : TxHdr) (data : List Word),
    let c := h.ctx.toNat
    let a := h.addr.toNat
    let n := h.len.toNat + 1
    let ws := txWords h data
    let six := [(0, [], Instr.rd h), (1, data, .wr h data), (2, data, .wrc h data), (3, data, .append h data), (4, [], .flush h),
      (5, data, .hostTfence h data)]
    let ok := hdrBad h = false ∧ s.shut h = false
    (kindReserved h = true → ∀ q ∈ six, exec q.2.2 s
        = .next (if s.draw.1.getLsbD 0 then s.draw.2.logError 6 a else s.draw.2.complete' h (.code 6)))
      ∧ (kindReserved h = false → s.behindFence h = true → ∀ q ∈ six, exec q.2.2 s
          = .next { s with host := { s.host with waiting := s.host.waiting ++ [⟨q.1, h, q.2.1⟩] } })
      ∧ (kindReserved h = false → s.behindFence h = false →
          (¬ ok → exec (.rd h) s = .next (s.complete' h (.code 6)) ∧ exec (.wrc h data) s = .next (s.complete' h (.code 6))
              ∧ exec (.wr h data) s = .next (s.logError 6 a) ∧ exec (.flush h) s = .next (s.complete' h (.code 6)))
          ∧ (ok → exec (.flush h) s = .next (s.complete' h (.code 0)))
          ∧ (ok → h.ctx ≠ 4 → ∀ s₁ r,
              (s.virtualAccess c a n none = (s₁, r) → exec (.rd h) s = .next (s₁.complete' h r))
              ∧ (s.virtualAccess c a n (some ws) = (s₁, r) →
                  exec (.wrc h data) s = .next (s₁.complete' h r)
                  ∧ exec (.wr h data) s = .next (if r.status = 0 then s₁ else s₁.logError r.status a)))
          ∧ (ok → h.ctx = 4 → State.placed4 a n = true → inDcb a = false → ∀ s₁ r,
              (s.physicalRead a n = (s₁, r) → exec (.rd h) s = .next (s₁.complete' h r))
              ∧ (s.physicalWrite a ws = (s₁, r) → exec (.wrc h data) s = .next (s₁.complete' h r)
                  ∧ exec (.wr h data) s = .next (if r.status = 0 then s₁ else s₁.logError r.status a)))
          ∧ (ok → h.ctx = 4 → State.placed4 a n = true → inDcb a = true →
              let off := a - dcbBase
              exec (.rd h) s = .next (s.complete' h ⟨0, 0, (List.range n).map fun i => BitVec.ofNat 64 (s.readDcb (off + 8 * i))⟩)
              ∧ (off < 0x500 ∨ 0x520 ≤ off → exec (.wr h data) s = .next (s.writeDcbs off ws)
                  ∧ exec (.wrc h data) s = .next ((s.writeDcbs off ws).complete' h (.code 0)))
              ∧ (off = 0x500 → n = 4 → exec (.wr h data) s = .next (s.logError 6 a)
                  ∧ exec (.wrc h data) s
                    = .next ((s.acceptCommand ⟨ws.getD 0 0, ws.getD 1 0, ws.getD 2 0, ws.getD 3 0⟩).complete' h (.code 0))))
          ∧ (ok → h.ctx ≠ 4 → h.len = 0 →
              (∀ s₁ r, s.hostAppend c a (word data 0) = (s₁, r) → exec (.append h data) s = .next (s₁.complete' h r))
              ∧ (a % 4096 = 0 → word data 0 % 4096 = 0 →
                  ((s.ctx c).state = 2 → exec (.hostTfence h data) s = .next (s.complete' h (.code 2)))
                  ∧ ((s.ctx c).state ≠ 2 → exec (.hostTfence h data) s
                    = .next { s with fences := s.fences ++ [⟨c, a, word data 0, [0, 1, 2, 3], none, h.tag.toNat, h.ocls.toNat⟩] }))))
      ∧ (∀ t x m, (s.host.asked.find? fun q => q.1 == h.tag.toNat) = some (t, x, m) →
          let s' := { s with host := { s.host with asked := s.host.asked.filter fun q => q.1 != t } }
          (t < 4 → s.boot.bstate = 2 → h.status = 0 →
            exec (.cpl h data) s = .next (s'.onDie t fun D => { D with image := some (wordsBytes (data.take m)) }))
          ∧ (t < 4 → s.boot.bstate = 2 → h.status ≠ 0 → exec (.cpl h data) s = .next (s'.enterRecovery 2))
          ∧ (4 ≤ t → h.status = 0 → exec (.cpl h data) s = .next { s' with boot := { s'.boot with nonce := wordsBytes (data.take m) } })
          ∧ (4 ≤ t → h.status ≠ 0 → s.boot.attst = 1 → exec (.cpl h data) s = .next s'.attestError))
      ∧ (∀ m, s.host.modules.getLsbD m = true →
          exec (.ucieCrcReplay m) s = .next { s with host := { s.host with replays := s.host.replays + 1 } }
          ∧ ∃ v, exec (.ucieModuleFail m) s = .next v ∧ v.host.modules = s.host.modules &&& ~~~(1#16 <<< m) ∧ s.raised v 9)
      ∧ ∀ v : Word,
          (s.boot.bstate = 4 → (∃ u, exec (.registerWrite 0x540 v) s = .next u ∧ u.fleet.fsel = v.setWidth 9)
            ∧ exec (.registerWrite 0x550 v) s = .next { s with fleet := { s.fleet with rfirst := v.setWidth 8, rlast := (v >>> 8).setWidth 8 } })
          ∧ ∃ u, exec (.registerWrite 0x5C0 v) s = .next u
            ∧ u.boot.plim = if 1500 ≤ v.toNat % 2 ^ 12 ∧ v.toNat % 2 ^ 12 ≤ 3000 then BitVec.ofNat 12 v.toNat else s.boot.plim

/-! ### Exceptions, memory, invariants -/

/-- R163, R275, R354, R376 to R379: taking an exception. A fault of a unit whose task must not replay joins the records its die has to post, with
the next number of the context; a precise one freezes the region, which keeps the record; registers, memory and the index of the
element's instruction stay, so the access is made again when the region thaws. A task that must replay takes none. The return acts on
its record, and thaws the region with the last one. -/
def Obligations.ExceptionsAreTaken : Prop :=
  ∀ (s : State) (p : Site) (f : Flt) (r : Nat) (g : Region),
    s.regionOf p.t = some (r, g) →
    (s.mustReplay g = false → (s.ctx g.ctx).state = 1 → g.ctx < s.ctxs.length → dieOf p.t < s.dies.length →
        let v := s.raise p f
        let seq := s.nextSeq (dieOf p.t) g.ctx
        (∃ x : Record, (v.die (dieOf p.t)).posts = (s.die (dieOf p.t)).posts ++ [(g.ctx, x)]
            ∧ x.length = 16 ∧ x[1]? = some (BitVec.ofNat 64 (f.va % 2 ^ 56)) ∧ x[2]? = some (BitVec.ofNat 64 f.detail)
            ∧ x[3]? = some (BitVec.ofNat 64 seq) ∧ x[5]? = some (BitVec.ofNat 64 g.task)
            ∧ x[6]? = some (BitVec.ofNat 64 (s.recordW6 g p)) ∧ x[7]? = some (BitVec.ofNat 64 s.time)
            ∧ (f.code < 2 ^ 8 → bits (word x 0) 0 8 = f.code ∧ bit (word x 0) 8 = f.replayable ∧ bit (word x 0) 9 = f.isEvent
              ∧ bit (word x 0) 10 = f.freezes))
          ∧ (v.ctx g.ctx).nseq = (s.ctx g.ctx).nseq + (if seq = 0 then 0 else 1) ∧ v.mem = s.mem ∧ v.tiles = s.tiles ∧ v.tasks = s.tasks
          ∧ v.region? r = some (if f.freezes then
              { g with frozen := true, records := g.records ++ [⟨seq, f.code, p.t, p.unit, f.va, f.detail, 0, p.sub⟩] } else g))
      ∧ (s.mustReplay g = true → s.raise p f = s.replay r)
      ∧ ∀ seq, (s.thaw r seq).region? r = some { g with
          records := g.records.filter fun x => x.seq != seq
          frozen := (g.records.any fun x => x.seq != seq) || g.stopWave || !g.repair.isEmpty }

/-- R269, R369: a byte reads as it was last written and every other byte as before; a run of bytes reads back; and the order of two writes to
different addresses does not matter to equality of memories. -/
def Obligations.MemoryReadsBack : Prop :=
  ∀ (m : List Host.Cell) (a : Nat) (bs : List Byte),
    Memory.wf m →
    (∀ b, memGet b (memWrite (cellsAt a bs) m) = if a ≤ b ∧ b < a + bs.length then bs.getD (b - a) 0 else memGet b m)
      ∧ memBytes a bs.length (memWrite (cellsAt a bs) m) = bs
      ∧ (∀ b x y, a ≠ b → memSet a x (memSet b y m) = memSet b y (memSet a x m))
      ∧ ∀ m', Memory.wf m' → (∀ b, memGet b m = memGet b m') → m = m'

namespace Sys2Proof.Machine

/-- The parts of the machine whose number the spec fixes: four context slots, four dies, sixteen lattice ports, and the registers of every
element. -/
def State.sized (s : State) : Prop :=
  s.ctxs.length = 4 ∧ s.dies.length = 4
    ∧ s.fleet.lst.length = 16 ∧ s.fleet.retrain.length = 16 ∧ s.fleet.retries.length = 16 ∧ s.fleet.missed.length = 16
    ∧ (∀ q ∈ s.tiles, q.2.sized) ∧ ∀ x ∈ s.saved, ∀ T ∈ x.tiles, T.sized

end Sys2Proof.Machine

/-- The machine after reset has its memory in canonical form and its parts in number; so has the machine into which a program word is placed. -/
def Obligations.ResetKeepsInvariants : Prop :=
  Memory.wf State.reset.mem ∧ State.reset.sized
    ∧ ∀ n w, Memory.wf (State.reset.withFetchWord n w).mem ∧ (State.reset.withFetchWord n w).sized

/-- Every step keeps the memory in its canonical form: addresses rising, and no zero byte listed. -/
def Obligations.StepKeepsMemoryForm : Prop := ∀ s t, Memory.wf s.mem → step s = .next t → Memory.wf t.mem

/-- Every step keeps the number of context slots, dies, lattice ports, and registers of every element (R7, R73, R349, R408). -/
def Obligations.StepKeepsSizes : Prop := ∀ s t, s.sized → step s = .next t → t.sized
end

