-- ==== Sys2Proof/Laws/State.lean ====
section
/-! SUPPORT. What each update of the state, and of a tile, leaves as it was: one lemma per field per update, true by unfolding,
so that no proof unfolds a record update. -/

namespace Sys2Proof.Machine

namespace State

/-! ### setTile -/

@[simp] theorem setTile_time (s : State) (t : Nat) (T : Tile) : (s.setTile t T).time = s.time := rfl
@[simp] theorem setTile_free (s : State) (t : Nat) (T : Tile) : (s.setTile t T).free = s.free := rfl
@[simp] theorem setTile_here (s : State) (t : Nat) (T : Tile) : (s.setTile t T).here = s.here := rfl
@[simp] theorem setTile_agenda (s : State) (t : Nat) (T : Tile) : (s.setTile t T).agenda = s.agenda := rfl
@[simp] theorem setTile_mem (s : State) (t : Nat) (T : Tile) : (s.setTile t T).mem = s.mem := rfl
@[simp] theorem setTile_pres (s : State) (t : Nat) (T : Tile) : (s.setTile t T).pres = s.pres := rfl
@[simp] theorem setTile_tags (s : State) (t : Nat) (T : Tile) : (s.setTile t T).tags = s.tags := rfl
@[simp] theorem setTile_bad (s : State) (t : Nat) (T : Tile) : (s.setTile t T).bad = s.bad := rfl
@[simp] theorem setTile_zmb (s : State) (t : Nat) (T : Tile) : (s.setTile t T).zmb = s.zmb := rfl
@[simp] theorem setTile_badTags (s : State) (t : Nat) (T : Tile) : (s.setTile t T).badTags = s.badTags := rfl
@[simp] theorem setTile_regions (s : State) (t : Nat) (T : Tile) : (s.setTile t T).regions = s.regions := rfl
@[simp] theorem setTile_tasks (s : State) (t : Nat) (T : Tile) : (s.setTile t T).tasks = s.tasks := rfl
@[simp] theorem setTile_launches (s : State) (t : Nat) (T : Tile) : (s.setTile t T).launches = s.launches := rfl
@[simp] theorem setTile_nregion (s : State) (t : Nat) (T : Tile) : (s.setTile t T).nregion = s.nregion := rfl
@[simp] theorem setTile_nhandle (s : State) (t : Nat) (T : Tile) : (s.setTile t T).nhandle = s.nhandle := rfl
@[simp] theorem setTile_ctxs (s : State) (t : Nat) (T : Tile) : (s.setTile t T).ctxs = s.ctxs := rfl
@[simp] theorem setTile_dies (s : State) (t : Nat) (T : Tile) : (s.setTile t T).dies = s.dies := rfl
@[simp] theorem setTile_trees (s : State) (t : Nat) (T : Tile) : (s.setTile t T).trees = s.trees := rfl
@[simp] theorem setTile_hsq (s : State) (t : Nat) (T : Tile) : (s.setTile t T).hsq = s.hsq := rfl
@[simp] theorem setTile_granted (s : State) (t : Nat) (T : Tile) : (s.setTile t T).granted = s.granted := rfl
@[simp] theorem setTile_armed (s : State) (t : Nat) (T : Tile) : (s.setTile t T).armed = s.armed := rfl
@[simp] theorem setTile_combs (s : State) (t : Nat) (T : Tile) : (s.setTile t T).combs = s.combs := rfl
@[simp] theorem setTile_retry (s : State) (t : Nat) (T : Tile) : (s.setTile t T).retry = s.retry := rfl
@[simp] theorem setTile_deferred (s : State) (t : Nat) (T : Tile) : (s.setTile t T).deferred = s.deferred := rfl
@[simp] theorem setTile_mit (s : State) (t : Nat) (T : Tile) : (s.setTile t T).mit = s.mit := rfl
@[simp] theorem setTile_iseq (s : State) (t : Nat) (T : Tile) : (s.setTile t T).iseq = s.iseq := rfl
@[simp] theorem setTile_fences (s : State) (t : Nat) (T : Tile) : (s.setTile t T).fences = s.fences := rfl
@[simp] theorem setTile_saved (s : State) (t : Nat) (T : Tile) : (s.setTile t T).saved = s.saved := rfl
@[simp] theorem setTile_commits (s : State) (t : Nat) (T : Tile) : (s.setTile t T).commits = s.commits := rfl
@[simp] theorem setTile_host (s : State) (t : Nat) (T : Tile) : (s.setTile t T).host = s.host := rfl
@[simp] theorem setTile_boot (s : State) (t : Nat) (T : Tile) : (s.setTile t T).boot = s.boot := rfl
@[simp] theorem setTile_fleet (s : State) (t : Nat) (T : Tile) : (s.setTile t T).fleet = s.fleet := rfl

/-! ### setRegion -/

@[simp] theorem setRegion_time (s : State) (r : Nat) (g : Region) : (s.setRegion r g).time = s.time := rfl
@[simp] theorem setRegion_free (s : State) (r : Nat) (g : Region) : (s.setRegion r g).free = s.free := rfl
@[simp] theorem setRegion_here (s : State) (r : Nat) (g : Region) : (s.setRegion r g).here = s.here := rfl
@[simp] theorem setRegion_agenda (s : State) (r : Nat) (g : Region) : (s.setRegion r g).agenda = s.agenda := rfl
@[simp] theorem setRegion_mem (s : State) (r : Nat) (g : Region) : (s.setRegion r g).mem = s.mem := rfl
@[simp] theorem setRegion_pres (s : State) (r : Nat) (g : Region) : (s.setRegion r g).pres = s.pres := rfl
@[simp] theorem setRegion_tags (s : State) (r : Nat) (g : Region) : (s.setRegion r g).tags = s.tags := rfl
@[simp] theorem setRegion_bad (s : State) (r : Nat) (g : Region) : (s.setRegion r g).bad = s.bad := rfl
@[simp] theorem setRegion_zmb (s : State) (r : Nat) (g : Region) : (s.setRegion r g).zmb = s.zmb := rfl
@[simp] theorem setRegion_badTags (s : State) (r : Nat) (g : Region) : (s.setRegion r g).badTags = s.badTags := rfl
@[simp] theorem setRegion_tiles (s : State) (r : Nat) (g : Region) : (s.setRegion r g).tiles = s.tiles := rfl
@[simp] theorem setRegion_tasks (s : State) (r : Nat) (g : Region) : (s.setRegion r g).tasks = s.tasks := rfl
@[simp] theorem setRegion_launches (s : State) (r : Nat) (g : Region) : (s.setRegion r g).launches = s.launches := rfl
@[simp] theorem setRegion_nregion (s : State) (r : Nat) (g : Region) : (s.setRegion r g).nregion = s.nregion := rfl
@[simp] theorem setRegion_nhandle (s : State) (r : Nat) (g : Region) : (s.setRegion r g).nhandle = s.nhandle := rfl
@[simp] theorem setRegion_ctxs (s : State) (r : Nat) (g : Region) : (s.setRegion r g).ctxs = s.ctxs := rfl
@[simp] theorem setRegion_dies (s : State) (r : Nat) (g : Region) : (s.setRegion r g).dies = s.dies := rfl
@[simp] theorem setRegion_trees (s : State) (r : Nat) (g : Region) : (s.setRegion r g).trees = s.trees := rfl
@[simp] theorem setRegion_hsq (s : State) (r : Nat) (g : Region) : (s.setRegion r g).hsq = s.hsq := rfl
@[simp] theorem setRegion_granted (s : State) (r : Nat) (g : Region) : (s.setRegion r g).granted = s.granted := rfl
@[simp] theorem setRegion_armed (s : State) (r : Nat) (g : Region) : (s.setRegion r g).armed = s.armed := rfl
@[simp] theorem setRegion_combs (s : State) (r : Nat) (g : Region) : (s.setRegion r g).combs = s.combs := rfl
@[simp] theorem setRegion_retry (s : State) (r : Nat) (g : Region) : (s.setRegion r g).retry = s.retry := rfl
@[simp] theorem setRegion_deferred (s : State) (r : Nat) (g : Region) : (s.setRegion r g).deferred = s.deferred := rfl
@[simp] theorem setRegion_mit (s : State) (r : Nat) (g : Region) : (s.setRegion r g).mit = s.mit := rfl
@[simp] theorem setRegion_iseq (s : State) (r : Nat) (g : Region) : (s.setRegion r g).iseq = s.iseq := rfl
@[simp] theorem setRegion_fences (s : State) (r : Nat) (g : Region) : (s.setRegion r g).fences = s.fences := rfl
@[simp] theorem setRegion_saved (s : State) (r : Nat) (g : Region) : (s.setRegion r g).saved = s.saved := rfl
@[simp] theorem setRegion_commits (s : State) (r : Nat) (g : Region) : (s.setRegion r g).commits = s.commits := rfl
@[simp] theorem setRegion_host (s : State) (r : Nat) (g : Region) : (s.setRegion r g).host = s.host := rfl
@[simp] theorem setRegion_boot (s : State) (r : Nat) (g : Region) : (s.setRegion r g).boot = s.boot := rfl
@[simp] theorem setRegion_fleet (s : State) (r : Nat) (g : Region) : (s.setRegion r g).fleet = s.fleet := rfl

/-! ### setTask -/

@[simp] theorem setTask_time (s : State) (h : Nat) (k : Task) : (s.setTask h k).time = s.time := rfl
@[simp] theorem setTask_free (s : State) (h : Nat) (k : Task) : (s.setTask h k).free = s.free := rfl
@[simp] theorem setTask_here (s : State) (h : Nat) (k : Task) : (s.setTask h k).here = s.here := rfl
@[simp] theorem setTask_agenda (s : State) (h : Nat) (k : Task) : (s.setTask h k).agenda = s.agenda := rfl
@[simp] theorem setTask_mem (s : State) (h : Nat) (k : Task) : (s.setTask h k).mem = s.mem := rfl
@[simp] theorem setTask_pres (s : State) (h : Nat) (k : Task) : (s.setTask h k).pres = s.pres := rfl
@[simp] theorem setTask_tags (s : State) (h : Nat) (k : Task) : (s.setTask h k).tags = s.tags := rfl
@[simp] theorem setTask_bad (s : State) (h : Nat) (k : Task) : (s.setTask h k).bad = s.bad := rfl
@[simp] theorem setTask_zmb (s : State) (h : Nat) (k : Task) : (s.setTask h k).zmb = s.zmb := rfl
@[simp] theorem setTask_badTags (s : State) (h : Nat) (k : Task) : (s.setTask h k).badTags = s.badTags := rfl
@[simp] theorem setTask_tiles (s : State) (h : Nat) (k : Task) : (s.setTask h k).tiles = s.tiles := rfl
@[simp] theorem setTask_regions (s : State) (h : Nat) (k : Task) : (s.setTask h k).regions = s.regions := rfl
@[simp] theorem setTask_launches (s : State) (h : Nat) (k : Task) : (s.setTask h k).launches = s.launches := rfl
@[simp] theorem setTask_nregion (s : State) (h : Nat) (k : Task) : (s.setTask h k).nregion = s.nregion := rfl
@[simp] theorem setTask_nhandle (s : State) (h : Nat) (k : Task) : (s.setTask h k).nhandle = s.nhandle := rfl
@[simp] theorem setTask_ctxs (s : State) (h : Nat) (k : Task) : (s.setTask h k).ctxs = s.ctxs := rfl
@[simp] theorem setTask_dies (s : State) (h : Nat) (k : Task) : (s.setTask h k).dies = s.dies := rfl
@[simp] theorem setTask_trees (s : State) (h : Nat) (k : Task) : (s.setTask h k).trees = s.trees := rfl
@[simp] theorem setTask_hsq (s : State) (h : Nat) (k : Task) : (s.setTask h k).hsq = s.hsq := rfl
@[simp] theorem setTask_granted (s : State) (h : Nat) (k : Task) : (s.setTask h k).granted = s.granted := rfl
@[simp] theorem setTask_armed (s : State) (h : Nat) (k : Task) : (s.setTask h k).armed = s.armed := rfl
@[simp] theorem setTask_combs (s : State) (h : Nat) (k : Task) : (s.setTask h k).combs = s.combs := rfl
@[simp] theorem setTask_retry (s : State) (h : Nat) (k : Task) : (s.setTask h k).retry = s.retry := rfl
@[simp] theorem setTask_deferred (s : State) (h : Nat) (k : Task) : (s.setTask h k).deferred = s.deferred := rfl
@[simp] theorem setTask_mit (s : State) (h : Nat) (k : Task) : (s.setTask h k).mit = s.mit := rfl
@[simp] theorem setTask_iseq (s : State) (h : Nat) (k : Task) : (s.setTask h k).iseq = s.iseq := rfl
@[simp] theorem setTask_fences (s : State) (h : Nat) (k : Task) : (s.setTask h k).fences = s.fences := rfl
@[simp] theorem setTask_saved (s : State) (h : Nat) (k : Task) : (s.setTask h k).saved = s.saved := rfl
@[simp] theorem setTask_commits (s : State) (h : Nat) (k : Task) : (s.setTask h k).commits = s.commits := rfl
@[simp] theorem setTask_host (s : State) (h : Nat) (k : Task) : (s.setTask h k).host = s.host := rfl
@[simp] theorem setTask_boot (s : State) (h : Nat) (k : Task) : (s.setTask h k).boot = s.boot := rfl
@[simp] theorem setTask_fleet (s : State) (h : Nat) (k : Task) : (s.setTask h k).fleet = s.fleet := rfl

/-! ### onTile -/

@[simp] theorem onTile_time (s : State) (t : Nat) (f : Tile → Tile) : (s.onTile t f).time = s.time := rfl
@[simp] theorem onTile_free (s : State) (t : Nat) (f : Tile → Tile) : (s.onTile t f).free = s.free := rfl
@[simp] theorem onTile_here (s : State) (t : Nat) (f : Tile → Tile) : (s.onTile t f).here = s.here := rfl
@[simp] theorem onTile_agenda (s : State) (t : Nat) (f : Tile → Tile) : (s.onTile t f).agenda = s.agenda := rfl
@[simp] theorem onTile_mem (s : State) (t : Nat) (f : Tile → Tile) : (s.onTile t f).mem = s.mem := rfl
@[simp] theorem onTile_pres (s : State) (t : Nat) (f : Tile → Tile) : (s.onTile t f).pres = s.pres := rfl
@[simp] theorem onTile_tags (s : State) (t : Nat) (f : Tile → Tile) : (s.onTile t f).tags = s.tags := rfl
@[simp] theorem onTile_bad (s : State) (t : Nat) (f : Tile → Tile) : (s.onTile t f).bad = s.bad := rfl
@[simp] theorem onTile_zmb (s : State) (t : Nat) (f : Tile → Tile) : (s.onTile t f).zmb = s.zmb := rfl
@[simp] theorem onTile_badTags (s : State) (t : Nat) (f : Tile → Tile) : (s.onTile t f).badTags = s.badTags := rfl
@[simp] theorem onTile_regions (s : State) (t : Nat) (f : Tile → Tile) : (s.onTile t f).regions = s.regions := rfl
@[simp] theorem onTile_tasks (s : State) (t : Nat) (f : Tile → Tile) : (s.onTile t f).tasks = s.tasks := rfl
@[simp] theorem onTile_launches (s : State) (t : Nat) (f : Tile → Tile) : (s.onTile t f).launches = s.launches := rfl
@[simp] theorem onTile_nregion (s : State) (t : Nat) (f : Tile → Tile) : (s.onTile t f).nregion = s.nregion := rfl
@[simp] theorem onTile_nhandle (s : State) (t : Nat) (f : Tile → Tile) : (s.onTile t f).nhandle = s.nhandle := rfl
@[simp] theorem onTile_ctxs (s : State) (t : Nat) (f : Tile → Tile) : (s.onTile t f).ctxs = s.ctxs := rfl
@[simp] theorem onTile_dies (s : State) (t : Nat) (f : Tile → Tile) : (s.onTile t f).dies = s.dies := rfl
@[simp] theorem onTile_trees (s : State) (t : Nat) (f : Tile → Tile) : (s.onTile t f).trees = s.trees := rfl
@[simp] theorem onTile_hsq (s : State) (t : Nat) (f : Tile → Tile) : (s.onTile t f).hsq = s.hsq := rfl
@[simp] theorem onTile_granted (s : State) (t : Nat) (f : Tile → Tile) : (s.onTile t f).granted = s.granted := rfl
@[simp] theorem onTile_armed (s : State) (t : Nat) (f : Tile → Tile) : (s.onTile t f).armed = s.armed := rfl
@[simp] theorem onTile_combs (s : State) (t : Nat) (f : Tile → Tile) : (s.onTile t f).combs = s.combs := rfl
@[simp] theorem onTile_retry (s : State) (t : Nat) (f : Tile → Tile) : (s.onTile t f).retry = s.retry := rfl
@[simp] theorem onTile_deferred (s : State) (t : Nat) (f : Tile → Tile) : (s.onTile t f).deferred = s.deferred := rfl
@[simp] theorem onTile_mit (s : State) (t : Nat) (f : Tile → Tile) : (s.onTile t f).mit = s.mit := rfl
@[simp] theorem onTile_iseq (s : State) (t : Nat) (f : Tile → Tile) : (s.onTile t f).iseq = s.iseq := rfl
@[simp] theorem onTile_fences (s : State) (t : Nat) (f : Tile → Tile) : (s.onTile t f).fences = s.fences := rfl
@[simp] theorem onTile_saved (s : State) (t : Nat) (f : Tile → Tile) : (s.onTile t f).saved = s.saved := rfl
@[simp] theorem onTile_commits (s : State) (t : Nat) (f : Tile → Tile) : (s.onTile t f).commits = s.commits := rfl
@[simp] theorem onTile_host (s : State) (t : Nat) (f : Tile → Tile) : (s.onTile t f).host = s.host := rfl
@[simp] theorem onTile_boot (s : State) (t : Nat) (f : Tile → Tile) : (s.onTile t f).boot = s.boot := rfl
@[simp] theorem onTile_fleet (s : State) (t : Nat) (f : Tile → Tile) : (s.onTile t f).fleet = s.fleet := rfl

/-! ### onMe -/

@[simp] theorem onMe_time (s : State) (f : Tile → Tile) : (s.onMe f).time = s.time := rfl
@[simp] theorem onMe_free (s : State) (f : Tile → Tile) : (s.onMe f).free = s.free := rfl
@[simp] theorem onMe_here (s : State) (f : Tile → Tile) : (s.onMe f).here = s.here := rfl
@[simp] theorem onMe_agenda (s : State) (f : Tile → Tile) : (s.onMe f).agenda = s.agenda := rfl
@[simp] theorem onMe_mem (s : State) (f : Tile → Tile) : (s.onMe f).mem = s.mem := rfl
@[simp] theorem onMe_pres (s : State) (f : Tile → Tile) : (s.onMe f).pres = s.pres := rfl
@[simp] theorem onMe_tags (s : State) (f : Tile → Tile) : (s.onMe f).tags = s.tags := rfl
@[simp] theorem onMe_bad (s : State) (f : Tile → Tile) : (s.onMe f).bad = s.bad := rfl
@[simp] theorem onMe_zmb (s : State) (f : Tile → Tile) : (s.onMe f).zmb = s.zmb := rfl
@[simp] theorem onMe_badTags (s : State) (f : Tile → Tile) : (s.onMe f).badTags = s.badTags := rfl
@[simp] theorem onMe_regions (s : State) (f : Tile → Tile) : (s.onMe f).regions = s.regions := rfl
@[simp] theorem onMe_tasks (s : State) (f : Tile → Tile) : (s.onMe f).tasks = s.tasks := rfl
@[simp] theorem onMe_launches (s : State) (f : Tile → Tile) : (s.onMe f).launches = s.launches := rfl
@[simp] theorem onMe_nregion (s : State) (f : Tile → Tile) : (s.onMe f).nregion = s.nregion := rfl
@[simp] theorem onMe_nhandle (s : State) (f : Tile → Tile) : (s.onMe f).nhandle = s.nhandle := rfl
@[simp] theorem onMe_ctxs (s : State) (f : Tile → Tile) : (s.onMe f).ctxs = s.ctxs := rfl
@[simp] theorem onMe_dies (s : State) (f : Tile → Tile) : (s.onMe f).dies = s.dies := rfl
@[simp] theorem onMe_trees (s : State) (f : Tile → Tile) : (s.onMe f).trees = s.trees := rfl
@[simp] theorem onMe_hsq (s : State) (f : Tile → Tile) : (s.onMe f).hsq = s.hsq := rfl
@[simp] theorem onMe_granted (s : State) (f : Tile → Tile) : (s.onMe f).granted = s.granted := rfl
@[simp] theorem onMe_armed (s : State) (f : Tile → Tile) : (s.onMe f).armed = s.armed := rfl
@[simp] theorem onMe_combs (s : State) (f : Tile → Tile) : (s.onMe f).combs = s.combs := rfl
@[simp] theorem onMe_retry (s : State) (f : Tile → Tile) : (s.onMe f).retry = s.retry := rfl
@[simp] theorem onMe_deferred (s : State) (f : Tile → Tile) : (s.onMe f).deferred = s.deferred := rfl
@[simp] theorem onMe_mit (s : State) (f : Tile → Tile) : (s.onMe f).mit = s.mit := rfl
@[simp] theorem onMe_iseq (s : State) (f : Tile → Tile) : (s.onMe f).iseq = s.iseq := rfl
@[simp] theorem onMe_fences (s : State) (f : Tile → Tile) : (s.onMe f).fences = s.fences := rfl
@[simp] theorem onMe_saved (s : State) (f : Tile → Tile) : (s.onMe f).saved = s.saved := rfl
@[simp] theorem onMe_commits (s : State) (f : Tile → Tile) : (s.onMe f).commits = s.commits := rfl
@[simp] theorem onMe_host (s : State) (f : Tile → Tile) : (s.onMe f).host = s.host := rfl
@[simp] theorem onMe_boot (s : State) (f : Tile → Tile) : (s.onMe f).boot = s.boot := rfl
@[simp] theorem onMe_fleet (s : State) (f : Tile → Tile) : (s.onMe f).fleet = s.fleet := rfl

/-! ### onCtx -/

@[simp] theorem onCtx_time (s : State) (c : Nat) (f : Ctx → Ctx) : (s.onCtx c f).time = s.time := rfl
@[simp] theorem onCtx_free (s : State) (c : Nat) (f : Ctx → Ctx) : (s.onCtx c f).free = s.free := rfl
@[simp] theorem onCtx_here (s : State) (c : Nat) (f : Ctx → Ctx) : (s.onCtx c f).here = s.here := rfl
@[simp] theorem onCtx_agenda (s : State) (c : Nat) (f : Ctx → Ctx) : (s.onCtx c f).agenda = s.agenda := rfl
@[simp] theorem onCtx_mem (s : State) (c : Nat) (f : Ctx → Ctx) : (s.onCtx c f).mem = s.mem := rfl
@[simp] theorem onCtx_pres (s : State) (c : Nat) (f : Ctx → Ctx) : (s.onCtx c f).pres = s.pres := rfl
@[simp] theorem onCtx_tags (s : State) (c : Nat) (f : Ctx → Ctx) : (s.onCtx c f).tags = s.tags := rfl
@[simp] theorem onCtx_bad (s : State) (c : Nat) (f : Ctx → Ctx) : (s.onCtx c f).bad = s.bad := rfl
@[simp] theorem onCtx_zmb (s : State) (c : Nat) (f : Ctx → Ctx) : (s.onCtx c f).zmb = s.zmb := rfl
@[simp] theorem onCtx_badTags (s : State) (c : Nat) (f : Ctx → Ctx) : (s.onCtx c f).badTags = s.badTags := rfl
@[simp] theorem onCtx_tiles (s : State) (c : Nat) (f : Ctx → Ctx) : (s.onCtx c f).tiles = s.tiles := rfl
@[simp] theorem onCtx_regions (s : State) (c : Nat) (f : Ctx → Ctx) : (s.onCtx c f).regions = s.regions := rfl
@[simp] theorem onCtx_tasks (s : State) (c : Nat) (f : Ctx → Ctx) : (s.onCtx c f).tasks = s.tasks := rfl
@[simp] theorem onCtx_launches (s : State) (c : Nat) (f : Ctx → Ctx) : (s.onCtx c f).launches = s.launches := rfl
@[simp] theorem onCtx_nregion (s : State) (c : Nat) (f : Ctx → Ctx) : (s.onCtx c f).nregion = s.nregion := rfl
@[simp] theorem onCtx_nhandle (s : State) (c : Nat) (f : Ctx → Ctx) : (s.onCtx c f).nhandle = s.nhandle := rfl
@[simp] theorem onCtx_dies (s : State) (c : Nat) (f : Ctx → Ctx) : (s.onCtx c f).dies = s.dies := rfl
@[simp] theorem onCtx_trees (s : State) (c : Nat) (f : Ctx → Ctx) : (s.onCtx c f).trees = s.trees := rfl
@[simp] theorem onCtx_hsq (s : State) (c : Nat) (f : Ctx → Ctx) : (s.onCtx c f).hsq = s.hsq := rfl
@[simp] theorem onCtx_granted (s : State) (c : Nat) (f : Ctx → Ctx) : (s.onCtx c f).granted = s.granted := rfl
@[simp] theorem onCtx_armed (s : State) (c : Nat) (f : Ctx → Ctx) : (s.onCtx c f).armed = s.armed := rfl
@[simp] theorem onCtx_combs (s : State) (c : Nat) (f : Ctx → Ctx) : (s.onCtx c f).combs = s.combs := rfl
@[simp] theorem onCtx_retry (s : State) (c : Nat) (f : Ctx → Ctx) : (s.onCtx c f).retry = s.retry := rfl
@[simp] theorem onCtx_deferred (s : State) (c : Nat) (f : Ctx → Ctx) : (s.onCtx c f).deferred = s.deferred := rfl
@[simp] theorem onCtx_mit (s : State) (c : Nat) (f : Ctx → Ctx) : (s.onCtx c f).mit = s.mit := rfl
@[simp] theorem onCtx_iseq (s : State) (c : Nat) (f : Ctx → Ctx) : (s.onCtx c f).iseq = s.iseq := rfl
@[simp] theorem onCtx_fences (s : State) (c : Nat) (f : Ctx → Ctx) : (s.onCtx c f).fences = s.fences := rfl
@[simp] theorem onCtx_saved (s : State) (c : Nat) (f : Ctx → Ctx) : (s.onCtx c f).saved = s.saved := rfl
@[simp] theorem onCtx_commits (s : State) (c : Nat) (f : Ctx → Ctx) : (s.onCtx c f).commits = s.commits := rfl
@[simp] theorem onCtx_host (s : State) (c : Nat) (f : Ctx → Ctx) : (s.onCtx c f).host = s.host := rfl
@[simp] theorem onCtx_boot (s : State) (c : Nat) (f : Ctx → Ctx) : (s.onCtx c f).boot = s.boot := rfl
@[simp] theorem onCtx_fleet (s : State) (c : Nat) (f : Ctx → Ctx) : (s.onCtx c f).fleet = s.fleet := rfl

/-! ### onDie -/

@[simp] theorem onDie_time (s : State) (d : Nat) (f : Die → Die) : (s.onDie d f).time = s.time := rfl
@[simp] theorem onDie_free (s : State) (d : Nat) (f : Die → Die) : (s.onDie d f).free = s.free := rfl
@[simp] theorem onDie_here (s : State) (d : Nat) (f : Die → Die) : (s.onDie d f).here = s.here := rfl
@[simp] theorem onDie_agenda (s : State) (d : Nat) (f : Die → Die) : (s.onDie d f).agenda = s.agenda := rfl
@[simp] theorem onDie_mem (s : State) (d : Nat) (f : Die → Die) : (s.onDie d f).mem = s.mem := rfl
@[simp] theorem onDie_pres (s : State) (d : Nat) (f : Die → Die) : (s.onDie d f).pres = s.pres := rfl
@[simp] theorem onDie_tags (s : State) (d : Nat) (f : Die → Die) : (s.onDie d f).tags = s.tags := rfl
@[simp] theorem onDie_bad (s : State) (d : Nat) (f : Die → Die) : (s.onDie d f).bad = s.bad := rfl
@[simp] theorem onDie_zmb (s : State) (d : Nat) (f : Die → Die) : (s.onDie d f).zmb = s.zmb := rfl
@[simp] theorem onDie_badTags (s : State) (d : Nat) (f : Die → Die) : (s.onDie d f).badTags = s.badTags := rfl
@[simp] theorem onDie_tiles (s : State) (d : Nat) (f : Die → Die) : (s.onDie d f).tiles = s.tiles := rfl
@[simp] theorem onDie_regions (s : State) (d : Nat) (f : Die → Die) : (s.onDie d f).regions = s.regions := rfl
@[simp] theorem onDie_tasks (s : State) (d : Nat) (f : Die → Die) : (s.onDie d f).tasks = s.tasks := rfl
@[simp] theorem onDie_launches (s : State) (d : Nat) (f : Die → Die) : (s.onDie d f).launches = s.launches := rfl
@[simp] theorem onDie_nregion (s : State) (d : Nat) (f : Die → Die) : (s.onDie d f).nregion = s.nregion := rfl
@[simp] theorem onDie_nhandle (s : State) (d : Nat) (f : Die → Die) : (s.onDie d f).nhandle = s.nhandle := rfl
@[simp] theorem onDie_ctxs (s : State) (d : Nat) (f : Die → Die) : (s.onDie d f).ctxs = s.ctxs := rfl
@[simp] theorem onDie_trees (s : State) (d : Nat) (f : Die → Die) : (s.onDie d f).trees = s.trees := rfl
@[simp] theorem onDie_hsq (s : State) (d : Nat) (f : Die → Die) : (s.onDie d f).hsq = s.hsq := rfl
@[simp] theorem onDie_granted (s : State) (d : Nat) (f : Die → Die) : (s.onDie d f).granted = s.granted := rfl
@[simp] theorem onDie_armed (s : State) (d : Nat) (f : Die → Die) : (s.onDie d f).armed = s.armed := rfl
@[simp] theorem onDie_combs (s : State) (d : Nat) (f : Die → Die) : (s.onDie d f).combs = s.combs := rfl
@[simp] theorem onDie_retry (s : State) (d : Nat) (f : Die → Die) : (s.onDie d f).retry = s.retry := rfl
@[simp] theorem onDie_deferred (s : State) (d : Nat) (f : Die → Die) : (s.onDie d f).deferred = s.deferred := rfl
@[simp] theorem onDie_mit (s : State) (d : Nat) (f : Die → Die) : (s.onDie d f).mit = s.mit := rfl
@[simp] theorem onDie_iseq (s : State) (d : Nat) (f : Die → Die) : (s.onDie d f).iseq = s.iseq := rfl
@[simp] theorem onDie_fences (s : State) (d : Nat) (f : Die → Die) : (s.onDie d f).fences = s.fences := rfl
@[simp] theorem onDie_saved (s : State) (d : Nat) (f : Die → Die) : (s.onDie d f).saved = s.saved := rfl
@[simp] theorem onDie_commits (s : State) (d : Nat) (f : Die → Die) : (s.onDie d f).commits = s.commits := rfl
@[simp] theorem onDie_host (s : State) (d : Nat) (f : Die → Die) : (s.onDie d f).host = s.host := rfl
@[simp] theorem onDie_boot (s : State) (d : Nat) (f : Die → Die) : (s.onDie d f).boot = s.boot := rfl
@[simp] theorem onDie_fleet (s : State) (d : Nat) (f : Die → Die) : (s.onDie d f).fleet = s.fleet := rfl

/-! ### count -/

@[simp] theorem count_time (s : State) (d : Nat) (e : Event) : (s.count d e).time = s.time := rfl
@[simp] theorem count_free (s : State) (d : Nat) (e : Event) : (s.count d e).free = s.free := rfl
@[simp] theorem count_here (s : State) (d : Nat) (e : Event) : (s.count d e).here = s.here := rfl
@[simp] theorem count_agenda (s : State) (d : Nat) (e : Event) : (s.count d e).agenda = s.agenda := rfl
@[simp] theorem count_mem (s : State) (d : Nat) (e : Event) : (s.count d e).mem = s.mem := rfl
@[simp] theorem count_pres (s : State) (d : Nat) (e : Event) : (s.count d e).pres = s.pres := rfl
@[simp] theorem count_tags (s : State) (d : Nat) (e : Event) : (s.count d e).tags = s.tags := rfl
@[simp] theorem count_bad (s : State) (d : Nat) (e : Event) : (s.count d e).bad = s.bad := rfl
@[simp] theorem count_zmb (s : State) (d : Nat) (e : Event) : (s.count d e).zmb = s.zmb := rfl
@[simp] theorem count_badTags (s : State) (d : Nat) (e : Event) : (s.count d e).badTags = s.badTags := rfl
@[simp] theorem count_tiles (s : State) (d : Nat) (e : Event) : (s.count d e).tiles = s.tiles := rfl
@[simp] theorem count_regions (s : State) (d : Nat) (e : Event) : (s.count d e).regions = s.regions := rfl
@[simp] theorem count_tasks (s : State) (d : Nat) (e : Event) : (s.count d e).tasks = s.tasks := rfl
@[simp] theorem count_launches (s : State) (d : Nat) (e : Event) : (s.count d e).launches = s.launches := rfl
@[simp] theorem count_nregion (s : State) (d : Nat) (e : Event) : (s.count d e).nregion = s.nregion := rfl
@[simp] theorem count_nhandle (s : State) (d : Nat) (e : Event) : (s.count d e).nhandle = s.nhandle := rfl
@[simp] theorem count_ctxs (s : State) (d : Nat) (e : Event) : (s.count d e).ctxs = s.ctxs := rfl
@[simp] theorem count_trees (s : State) (d : Nat) (e : Event) : (s.count d e).trees = s.trees := rfl
@[simp] theorem count_hsq (s : State) (d : Nat) (e : Event) : (s.count d e).hsq = s.hsq := rfl
@[simp] theorem count_granted (s : State) (d : Nat) (e : Event) : (s.count d e).granted = s.granted := rfl
@[simp] theorem count_armed (s : State) (d : Nat) (e : Event) : (s.count d e).armed = s.armed := rfl
@[simp] theorem count_combs (s : State) (d : Nat) (e : Event) : (s.count d e).combs = s.combs := rfl
@[simp] theorem count_retry (s : State) (d : Nat) (e : Event) : (s.count d e).retry = s.retry := rfl
@[simp] theorem count_deferred (s : State) (d : Nat) (e : Event) : (s.count d e).deferred = s.deferred := rfl
@[simp] theorem count_mit (s : State) (d : Nat) (e : Event) : (s.count d e).mit = s.mit := rfl
@[simp] theorem count_iseq (s : State) (d : Nat) (e : Event) : (s.count d e).iseq = s.iseq := rfl
@[simp] theorem count_fences (s : State) (d : Nat) (e : Event) : (s.count d e).fences = s.fences := rfl
@[simp] theorem count_saved (s : State) (d : Nat) (e : Event) : (s.count d e).saved = s.saved := rfl
@[simp] theorem count_commits (s : State) (d : Nat) (e : Event) : (s.count d e).commits = s.commits := rfl
@[simp] theorem count_host (s : State) (d : Nat) (e : Event) : (s.count d e).host = s.host := rfl
@[simp] theorem count_boot (s : State) (d : Nat) (e : Event) : (s.count d e).boot = s.boot := rfl
@[simp] theorem count_fleet (s : State) (d : Nat) (e : Event) : (s.count d e).fleet = s.fleet := rfl

/-! ### memSet -/

@[simp] theorem memSet_time (s : State) (cells : List Host.Cell) : (s.memSet cells).time = s.time := rfl
@[simp] theorem memSet_free (s : State) (cells : List Host.Cell) : (s.memSet cells).free = s.free := rfl
@[simp] theorem memSet_here (s : State) (cells : List Host.Cell) : (s.memSet cells).here = s.here := rfl
@[simp] theorem memSet_agenda (s : State) (cells : List Host.Cell) : (s.memSet cells).agenda = s.agenda := rfl
@[simp] theorem memSet_pres (s : State) (cells : List Host.Cell) : (s.memSet cells).pres = s.pres := rfl
@[simp] theorem memSet_tags (s : State) (cells : List Host.Cell) : (s.memSet cells).tags = s.tags := rfl
@[simp] theorem memSet_bad (s : State) (cells : List Host.Cell) : (s.memSet cells).bad = s.bad := rfl
@[simp] theorem memSet_zmb (s : State) (cells : List Host.Cell) : (s.memSet cells).zmb = s.zmb := rfl
@[simp] theorem memSet_badTags (s : State) (cells : List Host.Cell) : (s.memSet cells).badTags = s.badTags := rfl
@[simp] theorem memSet_tiles (s : State) (cells : List Host.Cell) : (s.memSet cells).tiles = s.tiles := rfl
@[simp] theorem memSet_regions (s : State) (cells : List Host.Cell) : (s.memSet cells).regions = s.regions := rfl
@[simp] theorem memSet_tasks (s : State) (cells : List Host.Cell) : (s.memSet cells).tasks = s.tasks := rfl
@[simp] theorem memSet_launches (s : State) (cells : List Host.Cell) : (s.memSet cells).launches = s.launches := rfl
@[simp] theorem memSet_nregion (s : State) (cells : List Host.Cell) : (s.memSet cells).nregion = s.nregion := rfl
@[simp] theorem memSet_nhandle (s : State) (cells : List Host.Cell) : (s.memSet cells).nhandle = s.nhandle := rfl
@[simp] theorem memSet_ctxs (s : State) (cells : List Host.Cell) : (s.memSet cells).ctxs = s.ctxs := rfl
@[simp] theorem memSet_dies (s : State) (cells : List Host.Cell) : (s.memSet cells).dies = s.dies := rfl
@[simp] theorem memSet_trees (s : State) (cells : List Host.Cell) : (s.memSet cells).trees = s.trees := rfl
@[simp] theorem memSet_hsq (s : State) (cells : List Host.Cell) : (s.memSet cells).hsq = s.hsq := rfl
@[simp] theorem memSet_granted (s : State) (cells : List Host.Cell) : (s.memSet cells).granted = s.granted := rfl
@[simp] theorem memSet_armed (s : State) (cells : List Host.Cell) : (s.memSet cells).armed = s.armed := rfl
@[simp] theorem memSet_combs (s : State) (cells : List Host.Cell) : (s.memSet cells).combs = s.combs := rfl
@[simp] theorem memSet_retry (s : State) (cells : List Host.Cell) : (s.memSet cells).retry = s.retry := rfl
@[simp] theorem memSet_deferred (s : State) (cells : List Host.Cell) : (s.memSet cells).deferred = s.deferred := rfl
@[simp] theorem memSet_mit (s : State) (cells : List Host.Cell) : (s.memSet cells).mit = s.mit := rfl
@[simp] theorem memSet_iseq (s : State) (cells : List Host.Cell) : (s.memSet cells).iseq = s.iseq := rfl
@[simp] theorem memSet_fences (s : State) (cells : List Host.Cell) : (s.memSet cells).fences = s.fences := rfl
@[simp] theorem memSet_saved (s : State) (cells : List Host.Cell) : (s.memSet cells).saved = s.saved := rfl
@[simp] theorem memSet_commits (s : State) (cells : List Host.Cell) : (s.memSet cells).commits = s.commits := rfl
@[simp] theorem memSet_host (s : State) (cells : List Host.Cell) : (s.memSet cells).host = s.host := rfl
@[simp] theorem memSet_boot (s : State) (cells : List Host.Cell) : (s.memSet cells).boot = s.boot := rfl
@[simp] theorem memSet_fleet (s : State) (cells : List Host.Cell) : (s.memSet cells).fleet = s.fleet := rfl

/-! ### push -/

@[simp] theorem push_time (s : State) (ts : List Turn) : (s.push ts).time = s.time := rfl
@[simp] theorem push_free (s : State) (ts : List Turn) : (s.push ts).free = s.free := rfl
@[simp] theorem push_here (s : State) (ts : List Turn) : (s.push ts).here = s.here := rfl
@[simp] theorem push_mem (s : State) (ts : List Turn) : (s.push ts).mem = s.mem := rfl
@[simp] theorem push_pres (s : State) (ts : List Turn) : (s.push ts).pres = s.pres := rfl
@[simp] theorem push_tags (s : State) (ts : List Turn) : (s.push ts).tags = s.tags := rfl
@[simp] theorem push_bad (s : State) (ts : List Turn) : (s.push ts).bad = s.bad := rfl
@[simp] theorem push_zmb (s : State) (ts : List Turn) : (s.push ts).zmb = s.zmb := rfl
@[simp] theorem push_badTags (s : State) (ts : List Turn) : (s.push ts).badTags = s.badTags := rfl
@[simp] theorem push_tiles (s : State) (ts : List Turn) : (s.push ts).tiles = s.tiles := rfl
@[simp] theorem push_regions (s : State) (ts : List Turn) : (s.push ts).regions = s.regions := rfl
@[simp] theorem push_tasks (s : State) (ts : List Turn) : (s.push ts).tasks = s.tasks := rfl
@[simp] theorem push_launches (s : State) (ts : List Turn) : (s.push ts).launches = s.launches := rfl
@[simp] theorem push_nregion (s : State) (ts : List Turn) : (s.push ts).nregion = s.nregion := rfl
@[simp] theorem push_nhandle (s : State) (ts : List Turn) : (s.push ts).nhandle = s.nhandle := rfl
@[simp] theorem push_ctxs (s : State) (ts : List Turn) : (s.push ts).ctxs = s.ctxs := rfl
@[simp] theorem push_dies (s : State) (ts : List Turn) : (s.push ts).dies = s.dies := rfl
@[simp] theorem push_trees (s : State) (ts : List Turn) : (s.push ts).trees = s.trees := rfl
@[simp] theorem push_hsq (s : State) (ts : List Turn) : (s.push ts).hsq = s.hsq := rfl
@[simp] theorem push_granted (s : State) (ts : List Turn) : (s.push ts).granted = s.granted := rfl
@[simp] theorem push_armed (s : State) (ts : List Turn) : (s.push ts).armed = s.armed := rfl
@[simp] theorem push_combs (s : State) (ts : List Turn) : (s.push ts).combs = s.combs := rfl
@[simp] theorem push_retry (s : State) (ts : List Turn) : (s.push ts).retry = s.retry := rfl
@[simp] theorem push_deferred (s : State) (ts : List Turn) : (s.push ts).deferred = s.deferred := rfl
@[simp] theorem push_mit (s : State) (ts : List Turn) : (s.push ts).mit = s.mit := rfl
@[simp] theorem push_iseq (s : State) (ts : List Turn) : (s.push ts).iseq = s.iseq := rfl
@[simp] theorem push_fences (s : State) (ts : List Turn) : (s.push ts).fences = s.fences := rfl
@[simp] theorem push_saved (s : State) (ts : List Turn) : (s.push ts).saved = s.saved := rfl
@[simp] theorem push_commits (s : State) (ts : List Turn) : (s.push ts).commits = s.commits := rfl
@[simp] theorem push_host (s : State) (ts : List Turn) : (s.push ts).host = s.host := rfl
@[simp] theorem push_boot (s : State) (ts : List Turn) : (s.push ts).boot = s.boot := rfl
@[simp] theorem push_fleet (s : State) (ts : List Turn) : (s.push ts).fleet = s.fleet := rfl

/-! ### later -/

@[simp] theorem later_time (s : State) (ts : List Turn) : (s.later ts).time = s.time := rfl
@[simp] theorem later_free (s : State) (ts : List Turn) : (s.later ts).free = s.free := rfl
@[simp] theorem later_here (s : State) (ts : List Turn) : (s.later ts).here = s.here := rfl
@[simp] theorem later_mem (s : State) (ts : List Turn) : (s.later ts).mem = s.mem := rfl
@[simp] theorem later_pres (s : State) (ts : List Turn) : (s.later ts).pres = s.pres := rfl
@[simp] theorem later_tags (s : State) (ts : List Turn) : (s.later ts).tags = s.tags := rfl
@[simp] theorem later_bad (s : State) (ts : List Turn) : (s.later ts).bad = s.bad := rfl
@[simp] theorem later_zmb (s : State) (ts : List Turn) : (s.later ts).zmb = s.zmb := rfl
@[simp] theorem later_badTags (s : State) (ts : List Turn) : (s.later ts).badTags = s.badTags := rfl
@[simp] theorem later_tiles (s : State) (ts : List Turn) : (s.later ts).tiles = s.tiles := rfl
@[simp] theorem later_regions (s : State) (ts : List Turn) : (s.later ts).regions = s.regions := rfl
@[simp] theorem later_tasks (s : State) (ts : List Turn) : (s.later ts).tasks = s.tasks := rfl
@[simp] theorem later_launches (s : State) (ts : List Turn) : (s.later ts).launches = s.launches := rfl
@[simp] theorem later_nregion (s : State) (ts : List Turn) : (s.later ts).nregion = s.nregion := rfl
@[simp] theorem later_nhandle (s : State) (ts : List Turn) : (s.later ts).nhandle = s.nhandle := rfl
@[simp] theorem later_ctxs (s : State) (ts : List Turn) : (s.later ts).ctxs = s.ctxs := rfl
@[simp] theorem later_dies (s : State) (ts : List Turn) : (s.later ts).dies = s.dies := rfl
@[simp] theorem later_trees (s : State) (ts : List Turn) : (s.later ts).trees = s.trees := rfl
@[simp] theorem later_hsq (s : State) (ts : List Turn) : (s.later ts).hsq = s.hsq := rfl
@[simp] theorem later_granted (s : State) (ts : List Turn) : (s.later ts).granted = s.granted := rfl
@[simp] theorem later_armed (s : State) (ts : List Turn) : (s.later ts).armed = s.armed := rfl
@[simp] theorem later_combs (s : State) (ts : List Turn) : (s.later ts).combs = s.combs := rfl
@[simp] theorem later_retry (s : State) (ts : List Turn) : (s.later ts).retry = s.retry := rfl
@[simp] theorem later_deferred (s : State) (ts : List Turn) : (s.later ts).deferred = s.deferred := rfl
@[simp] theorem later_mit (s : State) (ts : List Turn) : (s.later ts).mit = s.mit := rfl
@[simp] theorem later_iseq (s : State) (ts : List Turn) : (s.later ts).iseq = s.iseq := rfl
@[simp] theorem later_fences (s : State) (ts : List Turn) : (s.later ts).fences = s.fences := rfl
@[simp] theorem later_saved (s : State) (ts : List Turn) : (s.later ts).saved = s.saved := rfl
@[simp] theorem later_commits (s : State) (ts : List Turn) : (s.later ts).commits = s.commits := rfl
@[simp] theorem later_host (s : State) (ts : List Turn) : (s.later ts).host = s.host := rfl
@[simp] theorem later_boot (s : State) (ts : List Turn) : (s.later ts).boot = s.boot := rfl
@[simp] theorem later_fleet (s : State) (ts : List Turn) : (s.later ts).fleet = s.fleet := rfl

/-! ### advance -/

@[simp] theorem advance_time (s : State) : (s.advance).time = s.time := rfl
@[simp] theorem advance_free (s : State) : (s.advance).free = s.free := rfl
@[simp] theorem advance_here (s : State) : (s.advance).here = s.here := rfl
@[simp] theorem advance_agenda (s : State) : (s.advance).agenda = s.agenda := rfl
@[simp] theorem advance_mem (s : State) : (s.advance).mem = s.mem := rfl
@[simp] theorem advance_pres (s : State) : (s.advance).pres = s.pres := rfl
@[simp] theorem advance_tags (s : State) : (s.advance).tags = s.tags := rfl
@[simp] theorem advance_bad (s : State) : (s.advance).bad = s.bad := rfl
@[simp] theorem advance_zmb (s : State) : (s.advance).zmb = s.zmb := rfl
@[simp] theorem advance_badTags (s : State) : (s.advance).badTags = s.badTags := rfl
@[simp] theorem advance_regions (s : State) : (s.advance).regions = s.regions := rfl
@[simp] theorem advance_tasks (s : State) : (s.advance).tasks = s.tasks := rfl
@[simp] theorem advance_launches (s : State) : (s.advance).launches = s.launches := rfl
@[simp] theorem advance_nregion (s : State) : (s.advance).nregion = s.nregion := rfl
@[simp] theorem advance_nhandle (s : State) : (s.advance).nhandle = s.nhandle := rfl
@[simp] theorem advance_ctxs (s : State) : (s.advance).ctxs = s.ctxs := rfl
@[simp] theorem advance_dies (s : State) : (s.advance).dies = s.dies := rfl
@[simp] theorem advance_trees (s : State) : (s.advance).trees = s.trees := rfl
@[simp] theorem advance_hsq (s : State) : (s.advance).hsq = s.hsq := rfl
@[simp] theorem advance_granted (s : State) : (s.advance).granted = s.granted := rfl
@[simp] theorem advance_armed (s : State) : (s.advance).armed = s.armed := rfl
@[simp] theorem advance_combs (s : State) : (s.advance).combs = s.combs := rfl
@[simp] theorem advance_retry (s : State) : (s.advance).retry = s.retry := rfl
@[simp] theorem advance_deferred (s : State) : (s.advance).deferred = s.deferred := rfl
@[simp] theorem advance_mit (s : State) : (s.advance).mit = s.mit := rfl
@[simp] theorem advance_iseq (s : State) : (s.advance).iseq = s.iseq := rfl
@[simp] theorem advance_fences (s : State) : (s.advance).fences = s.fences := rfl
@[simp] theorem advance_saved (s : State) : (s.advance).saved = s.saved := rfl
@[simp] theorem advance_commits (s : State) : (s.advance).commits = s.commits := rfl
@[simp] theorem advance_host (s : State) : (s.advance).host = s.host := rfl
@[simp] theorem advance_boot (s : State) : (s.advance).boot = s.boot := rfl
@[simp] theorem advance_fleet (s : State) : (s.advance).fleet = s.fleet := rfl

/-! ### leave -/

@[simp] theorem leave_time (s : State) : (s.leave).time = s.time := rfl
@[simp] theorem leave_free (s : State) : (s.leave).free = s.free := rfl
@[simp] theorem leave_here (s : State) : (s.leave).here = s.here := rfl
@[simp] theorem leave_agenda (s : State) : (s.leave).agenda = s.agenda := rfl
@[simp] theorem leave_mem (s : State) : (s.leave).mem = s.mem := rfl
@[simp] theorem leave_pres (s : State) : (s.leave).pres = s.pres := rfl
@[simp] theorem leave_tags (s : State) : (s.leave).tags = s.tags := rfl
@[simp] theorem leave_bad (s : State) : (s.leave).bad = s.bad := rfl
@[simp] theorem leave_zmb (s : State) : (s.leave).zmb = s.zmb := rfl
@[simp] theorem leave_badTags (s : State) : (s.leave).badTags = s.badTags := rfl
@[simp] theorem leave_regions (s : State) : (s.leave).regions = s.regions := rfl
@[simp] theorem leave_tasks (s : State) : (s.leave).tasks = s.tasks := rfl
@[simp] theorem leave_launches (s : State) : (s.leave).launches = s.launches := rfl
@[simp] theorem leave_nregion (s : State) : (s.leave).nregion = s.nregion := rfl
@[simp] theorem leave_nhandle (s : State) : (s.leave).nhandle = s.nhandle := rfl
@[simp] theorem leave_ctxs (s : State) : (s.leave).ctxs = s.ctxs := rfl
@[simp] theorem leave_dies (s : State) : (s.leave).dies = s.dies := rfl
@[simp] theorem leave_trees (s : State) : (s.leave).trees = s.trees := rfl
@[simp] theorem leave_hsq (s : State) : (s.leave).hsq = s.hsq := rfl
@[simp] theorem leave_granted (s : State) : (s.leave).granted = s.granted := rfl
@[simp] theorem leave_armed (s : State) : (s.leave).armed = s.armed := rfl
@[simp] theorem leave_combs (s : State) : (s.leave).combs = s.combs := rfl
@[simp] theorem leave_retry (s : State) : (s.leave).retry = s.retry := rfl
@[simp] theorem leave_deferred (s : State) : (s.leave).deferred = s.deferred := rfl
@[simp] theorem leave_mit (s : State) : (s.leave).mit = s.mit := rfl
@[simp] theorem leave_iseq (s : State) : (s.leave).iseq = s.iseq := rfl
@[simp] theorem leave_fences (s : State) : (s.leave).fences = s.fences := rfl
@[simp] theorem leave_saved (s : State) : (s.leave).saved = s.saved := rfl
@[simp] theorem leave_commits (s : State) : (s.leave).commits = s.commits := rfl
@[simp] theorem leave_host (s : State) : (s.leave).host = s.host := rfl
@[simp] theorem leave_boot (s : State) : (s.leave).boot = s.boot := rfl
@[simp] theorem leave_fleet (s : State) : (s.leave).fleet = s.fleet := rfl

/-! ### setHsq -/

@[simp] theorem setHsq_time (s : State) (v : Nat) (q : List HsqEntry) : (s.setHsq v q).time = s.time := rfl
@[simp] theorem setHsq_free (s : State) (v : Nat) (q : List HsqEntry) : (s.setHsq v q).free = s.free := rfl
@[simp] theorem setHsq_here (s : State) (v : Nat) (q : List HsqEntry) : (s.setHsq v q).here = s.here := rfl
@[simp] theorem setHsq_agenda (s : State) (v : Nat) (q : List HsqEntry) : (s.setHsq v q).agenda = s.agenda := rfl
@[simp] theorem setHsq_mem (s : State) (v : Nat) (q : List HsqEntry) : (s.setHsq v q).mem = s.mem := rfl
@[simp] theorem setHsq_pres (s : State) (v : Nat) (q : List HsqEntry) : (s.setHsq v q).pres = s.pres := rfl
@[simp] theorem setHsq_tags (s : State) (v : Nat) (q : List HsqEntry) : (s.setHsq v q).tags = s.tags := rfl
@[simp] theorem setHsq_bad (s : State) (v : Nat) (q : List HsqEntry) : (s.setHsq v q).bad = s.bad := rfl
@[simp] theorem setHsq_zmb (s : State) (v : Nat) (q : List HsqEntry) : (s.setHsq v q).zmb = s.zmb := rfl
@[simp] theorem setHsq_badTags (s : State) (v : Nat) (q : List HsqEntry) : (s.setHsq v q).badTags = s.badTags := rfl
@[simp] theorem setHsq_tiles (s : State) (v : Nat) (q : List HsqEntry) : (s.setHsq v q).tiles = s.tiles := rfl
@[simp] theorem setHsq_regions (s : State) (v : Nat) (q : List HsqEntry) : (s.setHsq v q).regions = s.regions := rfl
@[simp] theorem setHsq_tasks (s : State) (v : Nat) (q : List HsqEntry) : (s.setHsq v q).tasks = s.tasks := rfl
@[simp] theorem setHsq_launches (s : State) (v : Nat) (q : List HsqEntry) : (s.setHsq v q).launches = s.launches := rfl
@[simp] theorem setHsq_nregion (s : State) (v : Nat) (q : List HsqEntry) : (s.setHsq v q).nregion = s.nregion := rfl
@[simp] theorem setHsq_nhandle (s : State) (v : Nat) (q : List HsqEntry) : (s.setHsq v q).nhandle = s.nhandle := rfl
@[simp] theorem setHsq_ctxs (s : State) (v : Nat) (q : List HsqEntry) : (s.setHsq v q).ctxs = s.ctxs := rfl
@[simp] theorem setHsq_dies (s : State) (v : Nat) (q : List HsqEntry) : (s.setHsq v q).dies = s.dies := rfl
@[simp] theorem setHsq_trees (s : State) (v : Nat) (q : List HsqEntry) : (s.setHsq v q).trees = s.trees := rfl
@[simp] theorem setHsq_granted (s : State) (v : Nat) (q : List HsqEntry) : (s.setHsq v q).granted = s.granted := rfl
@[simp] theorem setHsq_armed (s : State) (v : Nat) (q : List HsqEntry) : (s.setHsq v q).armed = s.armed := rfl
@[simp] theorem setHsq_combs (s : State) (v : Nat) (q : List HsqEntry) : (s.setHsq v q).combs = s.combs := rfl
@[simp] theorem setHsq_retry (s : State) (v : Nat) (q : List HsqEntry) : (s.setHsq v q).retry = s.retry := rfl
@[simp] theorem setHsq_deferred (s : State) (v : Nat) (q : List HsqEntry) : (s.setHsq v q).deferred = s.deferred := rfl
@[simp] theorem setHsq_mit (s : State) (v : Nat) (q : List HsqEntry) : (s.setHsq v q).mit = s.mit := rfl
@[simp] theorem setHsq_iseq (s : State) (v : Nat) (q : List HsqEntry) : (s.setHsq v q).iseq = s.iseq := rfl
@[simp] theorem setHsq_fences (s : State) (v : Nat) (q : List HsqEntry) : (s.setHsq v q).fences = s.fences := rfl
@[simp] theorem setHsq_saved (s : State) (v : Nat) (q : List HsqEntry) : (s.setHsq v q).saved = s.saved := rfl
@[simp] theorem setHsq_commits (s : State) (v : Nat) (q : List HsqEntry) : (s.setHsq v q).commits = s.commits := rfl
@[simp] theorem setHsq_host (s : State) (v : Nat) (q : List HsqEntry) : (s.setHsq v q).host = s.host := rfl
@[simp] theorem setHsq_boot (s : State) (v : Nat) (q : List HsqEntry) : (s.setHsq v q).boot = s.boot := rfl
@[simp] theorem setHsq_fleet (s : State) (v : Nat) (q : List HsqEntry) : (s.setHsq v q).fleet = s.fleet := rfl

/-! ### setLaunch -/

@[simp] theorem setLaunch_time (s : State) (l : Launch) : (s.setLaunch l).time = s.time := rfl
@[simp] theorem setLaunch_free (s : State) (l : Launch) : (s.setLaunch l).free = s.free := rfl
@[simp] theorem setLaunch_here (s : State) (l : Launch) : (s.setLaunch l).here = s.here := rfl
@[simp] theorem setLaunch_agenda (s : State) (l : Launch) : (s.setLaunch l).agenda = s.agenda := rfl
@[simp] theorem setLaunch_mem (s : State) (l : Launch) : (s.setLaunch l).mem = s.mem := rfl
@[simp] theorem setLaunch_pres (s : State) (l : Launch) : (s.setLaunch l).pres = s.pres := rfl
@[simp] theorem setLaunch_tags (s : State) (l : Launch) : (s.setLaunch l).tags = s.tags := rfl
@[simp] theorem setLaunch_bad (s : State) (l : Launch) : (s.setLaunch l).bad = s.bad := rfl
@[simp] theorem setLaunch_zmb (s : State) (l : Launch) : (s.setLaunch l).zmb = s.zmb := rfl
@[simp] theorem setLaunch_badTags (s : State) (l : Launch) : (s.setLaunch l).badTags = s.badTags := rfl
@[simp] theorem setLaunch_tiles (s : State) (l : Launch) : (s.setLaunch l).tiles = s.tiles := rfl
@[simp] theorem setLaunch_regions (s : State) (l : Launch) : (s.setLaunch l).regions = s.regions := rfl
@[simp] theorem setLaunch_tasks (s : State) (l : Launch) : (s.setLaunch l).tasks = s.tasks := rfl
@[simp] theorem setLaunch_nregion (s : State) (l : Launch) : (s.setLaunch l).nregion = s.nregion := rfl
@[simp] theorem setLaunch_nhandle (s : State) (l : Launch) : (s.setLaunch l).nhandle = s.nhandle := rfl
@[simp] theorem setLaunch_ctxs (s : State) (l : Launch) : (s.setLaunch l).ctxs = s.ctxs := rfl
@[simp] theorem setLaunch_dies (s : State) (l : Launch) : (s.setLaunch l).dies = s.dies := rfl
@[simp] theorem setLaunch_trees (s : State) (l : Launch) : (s.setLaunch l).trees = s.trees := rfl
@[simp] theorem setLaunch_hsq (s : State) (l : Launch) : (s.setLaunch l).hsq = s.hsq := rfl
@[simp] theorem setLaunch_granted (s : State) (l : Launch) : (s.setLaunch l).granted = s.granted := rfl
@[simp] theorem setLaunch_armed (s : State) (l : Launch) : (s.setLaunch l).armed = s.armed := rfl
@[simp] theorem setLaunch_combs (s : State) (l : Launch) : (s.setLaunch l).combs = s.combs := rfl
@[simp] theorem setLaunch_retry (s : State) (l : Launch) : (s.setLaunch l).retry = s.retry := rfl
@[simp] theorem setLaunch_deferred (s : State) (l : Launch) : (s.setLaunch l).deferred = s.deferred := rfl
@[simp] theorem setLaunch_mit (s : State) (l : Launch) : (s.setLaunch l).mit = s.mit := rfl
@[simp] theorem setLaunch_iseq (s : State) (l : Launch) : (s.setLaunch l).iseq = s.iseq := rfl
@[simp] theorem setLaunch_fences (s : State) (l : Launch) : (s.setLaunch l).fences = s.fences := rfl
@[simp] theorem setLaunch_saved (s : State) (l : Launch) : (s.setLaunch l).saved = s.saved := rfl
@[simp] theorem setLaunch_commits (s : State) (l : Launch) : (s.setLaunch l).commits = s.commits := rfl
@[simp] theorem setLaunch_host (s : State) (l : Launch) : (s.setLaunch l).host = s.host := rfl
@[simp] theorem setLaunch_boot (s : State) (l : Launch) : (s.setLaunch l).boot = s.boot := rfl
@[simp] theorem setLaunch_fleet (s : State) (l : Launch) : (s.setLaunch l).fleet = s.fleet := rfl

/-! ### onRegion -/

@[simp] theorem onRegion_time (s : State) (r : Nat) (f : Region → Region) : (s.onRegion r f).time = s.time := by
  unfold State.onRegion; split <;> rfl
@[simp] theorem onRegion_free (s : State) (r : Nat) (f : Region → Region) : (s.onRegion r f).free = s.free := by
  unfold State.onRegion; split <;> rfl
@[simp] theorem onRegion_here (s : State) (r : Nat) (f : Region → Region) : (s.onRegion r f).here = s.here := by
  unfold State.onRegion; split <;> rfl
@[simp] theorem onRegion_agenda (s : State) (r : Nat) (f : Region → Region) : (s.onRegion r f).agenda = s.agenda := by
  unfold State.onRegion; split <;> rfl
@[simp] theorem onRegion_mem (s : State) (r : Nat) (f : Region → Region) : (s.onRegion r f).mem = s.mem := by
  unfold State.onRegion; split <;> rfl
@[simp] theorem onRegion_pres (s : State) (r : Nat) (f : Region → Region) : (s.onRegion r f).pres = s.pres := by
  unfold State.onRegion; split <;> rfl
@[simp] theorem onRegion_tags (s : State) (r : Nat) (f : Region → Region) : (s.onRegion r f).tags = s.tags := by
  unfold State.onRegion; split <;> rfl
@[simp] theorem onRegion_bad (s : State) (r : Nat) (f : Region → Region) : (s.onRegion r f).bad = s.bad := by
  unfold State.onRegion; split <;> rfl
@[simp] theorem onRegion_zmb (s : State) (r : Nat) (f : Region → Region) : (s.onRegion r f).zmb = s.zmb := by
  unfold State.onRegion; split <;> rfl
@[simp] theorem onRegion_badTags (s : State) (r : Nat) (f : Region → Region) : (s.onRegion r f).badTags = s.badTags := by
  unfold State.onRegion; split <;> rfl
@[simp] theorem onRegion_tiles (s : State) (r : Nat) (f : Region → Region) : (s.onRegion r f).tiles = s.tiles := by
  unfold State.onRegion; split <;> rfl
@[simp] theorem onRegion_tasks (s : State) (r : Nat) (f : Region → Region) : (s.onRegion r f).tasks = s.tasks := by
  unfold State.onRegion; split <;> rfl
@[simp] theorem onRegion_launches (s : State) (r : Nat) (f : Region → Region) : (s.onRegion r f).launches = s.launches := by
  unfold State.onRegion; split <;> rfl
@[simp] theorem onRegion_nregion (s : State) (r : Nat) (f : Region → Region) : (s.onRegion r f).nregion = s.nregion := by
  unfold State.onRegion; split <;> rfl
@[simp] theorem onRegion_nhandle (s : State) (r : Nat) (f : Region → Region) : (s.onRegion r f).nhandle = s.nhandle := by
  unfold State.onRegion; split <;> rfl
@[simp] theorem onRegion_ctxs (s : State) (r : Nat) (f : Region → Region) : (s.onRegion r f).ctxs = s.ctxs := by
  unfold State.onRegion; split <;> rfl
@[simp] theorem onRegion_dies (s : State) (r : Nat) (f : Region → Region) : (s.onRegion r f).dies = s.dies := by
  unfold State.onRegion; split <;> rfl
@[simp] theorem onRegion_trees (s : State) (r : Nat) (f : Region → Region) : (s.onRegion r f).trees = s.trees := by
  unfold State.onRegion; split <;> rfl
@[simp] theorem onRegion_hsq (s : State) (r : Nat) (f : Region → Region) : (s.onRegion r f).hsq = s.hsq := by
  unfold State.onRegion; split <;> rfl
@[simp] theorem onRegion_granted (s : State) (r : Nat) (f : Region → Region) : (s.onRegion r f).granted = s.granted := by
  unfold State.onRegion; split <;> rfl
@[simp] theorem onRegion_armed (s : State) (r : Nat) (f : Region → Region) : (s.onRegion r f).armed = s.armed := by
  unfold State.onRegion; split <;> rfl
@[simp] theorem onRegion_combs (s : State) (r : Nat) (f : Region → Region) : (s.onRegion r f).combs = s.combs := by
  unfold State.onRegion; split <;> rfl
@[simp] theorem onRegion_retry (s : State) (r : Nat) (f : Region → Region) : (s.onRegion r f).retry = s.retry := by
  unfold State.onRegion; split <;> rfl
@[simp] theorem onRegion_deferred (s : State) (r : Nat) (f : Region → Region) : (s.onRegion r f).deferred = s.deferred := by
  unfold State.onRegion; split <;> rfl
@[simp] theorem onRegion_mit (s : State) (r : Nat) (f : Region → Region) : (s.onRegion r f).mit = s.mit := by
  unfold State.onRegion; split <;> rfl
@[simp] theorem onRegion_iseq (s : State) (r : Nat) (f : Region → Region) : (s.onRegion r f).iseq = s.iseq := by
  unfold State.onRegion; split <;> rfl
@[simp] theorem onRegion_fences (s : State) (r : Nat) (f : Region → Region) : (s.onRegion r f).fences = s.fences := by
  unfold State.onRegion; split <;> rfl
@[simp] theorem onRegion_saved (s : State) (r : Nat) (f : Region → Region) : (s.onRegion r f).saved = s.saved := by
  unfold State.onRegion; split <;> rfl
@[simp] theorem onRegion_commits (s : State) (r : Nat) (f : Region → Region) : (s.onRegion r f).commits = s.commits := by
  unfold State.onRegion; split <;> rfl
@[simp] theorem onRegion_host (s : State) (r : Nat) (f : Region → Region) : (s.onRegion r f).host = s.host := by
  unfold State.onRegion; split <;> rfl
@[simp] theorem onRegion_boot (s : State) (r : Nat) (f : Region → Region) : (s.onRegion r f).boot = s.boot := by
  unfold State.onRegion; split <;> rfl
@[simp] theorem onRegion_fleet (s : State) (r : Nat) (f : Region → Region) : (s.onRegion r f).fleet = s.fleet := by
  unfold State.onRegion; split <;> rfl

/-! ### onTask -/

@[simp] theorem onTask_time (s : State) (h : Nat) (f : Task → Task) : (s.onTask h f).time = s.time := by
  unfold State.onTask; split <;> rfl
@[simp] theorem onTask_free (s : State) (h : Nat) (f : Task → Task) : (s.onTask h f).free = s.free := by
  unfold State.onTask; split <;> rfl
@[simp] theorem onTask_here (s : State) (h : Nat) (f : Task → Task) : (s.onTask h f).here = s.here := by
  unfold State.onTask; split <;> rfl
@[simp] theorem onTask_agenda (s : State) (h : Nat) (f : Task → Task) : (s.onTask h f).agenda = s.agenda := by
  unfold State.onTask; split <;> rfl
@[simp] theorem onTask_mem (s : State) (h : Nat) (f : Task → Task) : (s.onTask h f).mem = s.mem := by
  unfold State.onTask; split <;> rfl
@[simp] theorem onTask_pres (s : State) (h : Nat) (f : Task → Task) : (s.onTask h f).pres = s.pres := by
  unfold State.onTask; split <;> rfl
@[simp] theorem onTask_tags (s : State) (h : Nat) (f : Task → Task) : (s.onTask h f).tags = s.tags := by
  unfold State.onTask; split <;> rfl
@[simp] theorem onTask_bad (s : State) (h : Nat) (f : Task → Task) : (s.onTask h f).bad = s.bad := by
  unfold State.onTask; split <;> rfl
@[simp] theorem onTask_zmb (s : State) (h : Nat) (f : Task → Task) : (s.onTask h f).zmb = s.zmb := by
  unfold State.onTask; split <;> rfl
@[simp] theorem onTask_badTags (s : State) (h : Nat) (f : Task → Task) : (s.onTask h f).badTags = s.badTags := by
  unfold State.onTask; split <;> rfl
@[simp] theorem onTask_tiles (s : State) (h : Nat) (f : Task → Task) : (s.onTask h f).tiles = s.tiles := by
  unfold State.onTask; split <;> rfl
@[simp] theorem onTask_regions (s : State) (h : Nat) (f : Task → Task) : (s.onTask h f).regions = s.regions := by
  unfold State.onTask; split <;> rfl
@[simp] theorem onTask_launches (s : State) (h : Nat) (f : Task → Task) : (s.onTask h f).launches = s.launches := by
  unfold State.onTask; split <;> rfl
@[simp] theorem onTask_nregion (s : State) (h : Nat) (f : Task → Task) : (s.onTask h f).nregion = s.nregion := by
  unfold State.onTask; split <;> rfl
@[simp] theorem onTask_nhandle (s : State) (h : Nat) (f : Task → Task) : (s.onTask h f).nhandle = s.nhandle := by
  unfold State.onTask; split <;> rfl
@[simp] theorem onTask_ctxs (s : State) (h : Nat) (f : Task → Task) : (s.onTask h f).ctxs = s.ctxs := by
  unfold State.onTask; split <;> rfl
@[simp] theorem onTask_dies (s : State) (h : Nat) (f : Task → Task) : (s.onTask h f).dies = s.dies := by
  unfold State.onTask; split <;> rfl
@[simp] theorem onTask_trees (s : State) (h : Nat) (f : Task → Task) : (s.onTask h f).trees = s.trees := by
  unfold State.onTask; split <;> rfl
@[simp] theorem onTask_hsq (s : State) (h : Nat) (f : Task → Task) : (s.onTask h f).hsq = s.hsq := by
  unfold State.onTask; split <;> rfl
@[simp] theorem onTask_granted (s : State) (h : Nat) (f : Task → Task) : (s.onTask h f).granted = s.granted := by
  unfold State.onTask; split <;> rfl
@[simp] theorem onTask_armed (s : State) (h : Nat) (f : Task → Task) : (s.onTask h f).armed = s.armed := by
  unfold State.onTask; split <;> rfl
@[simp] theorem onTask_combs (s : State) (h : Nat) (f : Task → Task) : (s.onTask h f).combs = s.combs := by
  unfold State.onTask; split <;> rfl
@[simp] theorem onTask_retry (s : State) (h : Nat) (f : Task → Task) : (s.onTask h f).retry = s.retry := by
  unfold State.onTask; split <;> rfl
@[simp] theorem onTask_deferred (s : State) (h : Nat) (f : Task → Task) : (s.onTask h f).deferred = s.deferred := by
  unfold State.onTask; split <;> rfl
@[simp] theorem onTask_mit (s : State) (h : Nat) (f : Task → Task) : (s.onTask h f).mit = s.mit := by
  unfold State.onTask; split <;> rfl
@[simp] theorem onTask_iseq (s : State) (h : Nat) (f : Task → Task) : (s.onTask h f).iseq = s.iseq := by
  unfold State.onTask; split <;> rfl
@[simp] theorem onTask_fences (s : State) (h : Nat) (f : Task → Task) : (s.onTask h f).fences = s.fences := by
  unfold State.onTask; split <;> rfl
@[simp] theorem onTask_saved (s : State) (h : Nat) (f : Task → Task) : (s.onTask h f).saved = s.saved := by
  unfold State.onTask; split <;> rfl
@[simp] theorem onTask_commits (s : State) (h : Nat) (f : Task → Task) : (s.onTask h f).commits = s.commits := by
  unfold State.onTask; split <;> rfl
@[simp] theorem onTask_host (s : State) (h : Nat) (f : Task → Task) : (s.onTask h f).host = s.host := by
  unfold State.onTask; split <;> rfl
@[simp] theorem onTask_boot (s : State) (h : Nat) (f : Task → Task) : (s.onTask h f).boot = s.boot := by
  unfold State.onTask; split <;> rfl
@[simp] theorem onTask_fleet (s : State) (h : Nat) (f : Task → Task) : (s.onTask h f).fleet = s.fleet := by
  unfold State.onTask; split <;> rfl

end State

namespace Tile

/-! ### setInQ -/

@[simp] theorem setInQ_region (T : Tile) (c : Nat) (q : Queue) : (T.setInQ c q).region = T.region := rfl
@[simp] theorem setInQ_x (T : Tile) (c : Nat) (q : Queue) : (T.setInQ c q).x = T.x := rfl
@[simp] theorem setInQ_v (T : Tile) (c : Nat) (q : Queue) : (T.setInQ c q).v = T.v := rfl
@[simp] theorem setInQ_p (T : Tile) (c : Nat) (q : Queue) : (T.setInQ c q).p = T.p := rfl
@[simp] theorem setInQ_ids (T : Tile) (c : Nat) (q : Queue) : (T.setInQ c q).ids = T.ids := rfl
@[simp] theorem setInQ_array (T : Tile) (c : Nat) (q : Queue) : (T.setInQ c q).array = T.array := rfl
@[simp] theorem setInQ_was (T : Tile) (c : Nat) (q : Queue) : (T.setInQ c q).was = T.was := rfl
@[simp] theorem setInQ_gsr (T : Tile) (c : Nat) (q : Queue) : (T.setInQ c q).gsr = T.gsr := rfl
@[simp] theorem setInQ_beads (T : Tile) (c : Nat) (q : Queue) : (T.setInQ c q).beads = T.beads := rfl
@[simp] theorem setInQ_ops (T : Tile) (c : Nat) (q : Queue) : (T.setInQ c q).ops = T.ops := rfl
@[simp] theorem setInQ_nbead (T : Tile) (c : Nat) (q : Queue) : (T.setInQ c q).nbead = T.nbead := rfl
@[simp] theorem setInQ_nop (T : Tile) (c : Nat) (q : Queue) : (T.setInQ c q).nop = T.nop := rfl
@[simp] theorem setInQ_bseq (T : Tile) (c : Nat) (q : Queue) : (T.setInQ c q).bseq = T.bseq := rfl
@[simp] theorem setInQ_mxc (T : Tile) (c : Nat) (q : Queue) : (T.setInQ c q).mxc = T.mxc := rfl
@[simp] theorem setInQ_units (T : Tile) (c : Nat) (q : Queue) : (T.setInQ c q).units = T.units := rfl
@[simp] theorem setInQ_outs (T : Tile) (c : Nat) (q : Queue) : (T.setInQ c q).outs = T.outs := rfl
@[simp] theorem setInQ_outq (T : Tile) (c : Nat) (q : Queue) : (T.setInQ c q).outq = T.outq := rfl
@[simp] theorem setInQ_wire (T : Tile) (c : Nat) (q : Queue) : (T.setInQ c q).wire = T.wire := rfl
@[simp] theorem setInQ_stamps (T : Tile) (c : Nat) (q : Queue) : (T.setInQ c q).stamps = T.stamps := rfl
@[simp] theorem setInQ_nstamp (T : Tile) (c : Nat) (q : Queue) : (T.setInQ c q).nstamp = T.nstamp := rfl
@[simp] theorem setInQ_joins (T : Tile) (c : Nat) (q : Queue) : (T.setInQ c q).joins = T.joins := rfl
@[simp] theorem setInQ_swsrc (T : Tile) (c : Nat) (q : Queue) : (T.setInQ c q).swsrc = T.swsrc := rfl
@[simp] theorem setInQ_relFence (T : Tile) (c : Nat) (q : Queue) : (T.setInQ c q).relFence = T.relFence := rfl
@[simp] theorem setInQ_bank (T : Tile) (c : Nat) (q : Queue) : (T.setInQ c q).bank = T.bank := rfl
@[simp] theorem setInQ_bank0 (T : Tile) (c : Nat) (q : Queue) : (T.setInQ c q).bank0 = T.bank0 := rfl
@[simp] theorem setInQ_bank1 (T : Tile) (c : Nat) (q : Queue) : (T.setInQ c q).bank1 = T.bank1 := rfl
@[simp] theorem setInQ_scratch (T : Tile) (c : Nat) (q : Queue) : (T.setInQ c q).scratch = T.scratch := rfl
@[simp] theorem setInQ_owner (T : Tile) (c : Nat) (q : Queue) : (T.setInQ c q).owner = T.owner := rfl
@[simp] theorem setInQ_spSites (T : Tile) (c : Nat) (q : Queue) : (T.setInQ c q).spSites = T.spSites := rfl
@[simp] theorem setInQ_fenced (T : Tile) (c : Nat) (q : Queue) : (T.setInQ c q).fenced = T.fenced := rfl
@[simp] theorem setInQ_cfgErr (T : Tile) (c : Nat) (q : Queue) : (T.setInQ c q).cfgErr = T.cfgErr := rfl
@[simp] theorem setInQ_corr (T : Tile) (c : Nat) (q : Queue) : (T.setInQ c q).corr = T.corr := rfl

/-! ### setOutQ -/

@[simp] theorem setOutQ_region (T : Tile) (c : Nat) (q : Queue) : (T.setOutQ c q).region = T.region := rfl
@[simp] theorem setOutQ_x (T : Tile) (c : Nat) (q : Queue) : (T.setOutQ c q).x = T.x := rfl
@[simp] theorem setOutQ_v (T : Tile) (c : Nat) (q : Queue) : (T.setOutQ c q).v = T.v := rfl
@[simp] theorem setOutQ_p (T : Tile) (c : Nat) (q : Queue) : (T.setOutQ c q).p = T.p := rfl
@[simp] theorem setOutQ_ids (T : Tile) (c : Nat) (q : Queue) : (T.setOutQ c q).ids = T.ids := rfl
@[simp] theorem setOutQ_array (T : Tile) (c : Nat) (q : Queue) : (T.setOutQ c q).array = T.array := rfl
@[simp] theorem setOutQ_was (T : Tile) (c : Nat) (q : Queue) : (T.setOutQ c q).was = T.was := rfl
@[simp] theorem setOutQ_gsr (T : Tile) (c : Nat) (q : Queue) : (T.setOutQ c q).gsr = T.gsr := rfl
@[simp] theorem setOutQ_beads (T : Tile) (c : Nat) (q : Queue) : (T.setOutQ c q).beads = T.beads := rfl
@[simp] theorem setOutQ_ops (T : Tile) (c : Nat) (q : Queue) : (T.setOutQ c q).ops = T.ops := rfl
@[simp] theorem setOutQ_nbead (T : Tile) (c : Nat) (q : Queue) : (T.setOutQ c q).nbead = T.nbead := rfl
@[simp] theorem setOutQ_nop (T : Tile) (c : Nat) (q : Queue) : (T.setOutQ c q).nop = T.nop := rfl
@[simp] theorem setOutQ_bseq (T : Tile) (c : Nat) (q : Queue) : (T.setOutQ c q).bseq = T.bseq := rfl
@[simp] theorem setOutQ_mxc (T : Tile) (c : Nat) (q : Queue) : (T.setOutQ c q).mxc = T.mxc := rfl
@[simp] theorem setOutQ_units (T : Tile) (c : Nat) (q : Queue) : (T.setOutQ c q).units = T.units := rfl
@[simp] theorem setOutQ_outs (T : Tile) (c : Nat) (q : Queue) : (T.setOutQ c q).outs = T.outs := rfl
@[simp] theorem setOutQ_inq (T : Tile) (c : Nat) (q : Queue) : (T.setOutQ c q).inq = T.inq := rfl
@[simp] theorem setOutQ_wire (T : Tile) (c : Nat) (q : Queue) : (T.setOutQ c q).wire = T.wire := rfl
@[simp] theorem setOutQ_stamps (T : Tile) (c : Nat) (q : Queue) : (T.setOutQ c q).stamps = T.stamps := rfl
@[simp] theorem setOutQ_nstamp (T : Tile) (c : Nat) (q : Queue) : (T.setOutQ c q).nstamp = T.nstamp := rfl
@[simp] theorem setOutQ_joins (T : Tile) (c : Nat) (q : Queue) : (T.setOutQ c q).joins = T.joins := rfl
@[simp] theorem setOutQ_swsrc (T : Tile) (c : Nat) (q : Queue) : (T.setOutQ c q).swsrc = T.swsrc := rfl
@[simp] theorem setOutQ_relFence (T : Tile) (c : Nat) (q : Queue) : (T.setOutQ c q).relFence = T.relFence := rfl
@[simp] theorem setOutQ_bank (T : Tile) (c : Nat) (q : Queue) : (T.setOutQ c q).bank = T.bank := rfl
@[simp] theorem setOutQ_bank0 (T : Tile) (c : Nat) (q : Queue) : (T.setOutQ c q).bank0 = T.bank0 := rfl
@[simp] theorem setOutQ_bank1 (T : Tile) (c : Nat) (q : Queue) : (T.setOutQ c q).bank1 = T.bank1 := rfl
@[simp] theorem setOutQ_scratch (T : Tile) (c : Nat) (q : Queue) : (T.setOutQ c q).scratch = T.scratch := rfl
@[simp] theorem setOutQ_owner (T : Tile) (c : Nat) (q : Queue) : (T.setOutQ c q).owner = T.owner := rfl
@[simp] theorem setOutQ_spSites (T : Tile) (c : Nat) (q : Queue) : (T.setOutQ c q).spSites = T.spSites := rfl
@[simp] theorem setOutQ_fenced (T : Tile) (c : Nat) (q : Queue) : (T.setOutQ c q).fenced = T.fenced := rfl
@[simp] theorem setOutQ_cfgErr (T : Tile) (c : Nat) (q : Queue) : (T.setOutQ c q).cfgErr = T.cfgErr := rfl
@[simp] theorem setOutQ_corr (T : Tile) (c : Nat) (q : Queue) : (T.setOutQ c q).corr = T.corr := rfl

/-! ### setWireQ -/

@[simp] theorem setWireQ_region (T : Tile) (c : Nat) (q : Queue) : (T.setWireQ c q).region = T.region := rfl
@[simp] theorem setWireQ_x (T : Tile) (c : Nat) (q : Queue) : (T.setWireQ c q).x = T.x := rfl
@[simp] theorem setWireQ_v (T : Tile) (c : Nat) (q : Queue) : (T.setWireQ c q).v = T.v := rfl
@[simp] theorem setWireQ_p (T : Tile) (c : Nat) (q : Queue) : (T.setWireQ c q).p = T.p := rfl
@[simp] theorem setWireQ_ids (T : Tile) (c : Nat) (q : Queue) : (T.setWireQ c q).ids = T.ids := rfl
@[simp] theorem setWireQ_array (T : Tile) (c : Nat) (q : Queue) : (T.setWireQ c q).array = T.array := rfl
@[simp] theorem setWireQ_was (T : Tile) (c : Nat) (q : Queue) : (T.setWireQ c q).was = T.was := rfl
@[simp] theorem setWireQ_gsr (T : Tile) (c : Nat) (q : Queue) : (T.setWireQ c q).gsr = T.gsr := rfl
@[simp] theorem setWireQ_beads (T : Tile) (c : Nat) (q : Queue) : (T.setWireQ c q).beads = T.beads := rfl
@[simp] theorem setWireQ_ops (T : Tile) (c : Nat) (q : Queue) : (T.setWireQ c q).ops = T.ops := rfl
@[simp] theorem setWireQ_nbead (T : Tile) (c : Nat) (q : Queue) : (T.setWireQ c q).nbead = T.nbead := rfl
@[simp] theorem setWireQ_nop (T : Tile) (c : Nat) (q : Queue) : (T.setWireQ c q).nop = T.nop := rfl
@[simp] theorem setWireQ_bseq (T : Tile) (c : Nat) (q : Queue) : (T.setWireQ c q).bseq = T.bseq := rfl
@[simp] theorem setWireQ_mxc (T : Tile) (c : Nat) (q : Queue) : (T.setWireQ c q).mxc = T.mxc := rfl
@[simp] theorem setWireQ_units (T : Tile) (c : Nat) (q : Queue) : (T.setWireQ c q).units = T.units := rfl
@[simp] theorem setWireQ_outs (T : Tile) (c : Nat) (q : Queue) : (T.setWireQ c q).outs = T.outs := rfl
@[simp] theorem setWireQ_inq (T : Tile) (c : Nat) (q : Queue) : (T.setWireQ c q).inq = T.inq := rfl
@[simp] theorem setWireQ_outq (T : Tile) (c : Nat) (q : Queue) : (T.setWireQ c q).outq = T.outq := rfl
@[simp] theorem setWireQ_stamps (T : Tile) (c : Nat) (q : Queue) : (T.setWireQ c q).stamps = T.stamps := rfl
@[simp] theorem setWireQ_nstamp (T : Tile) (c : Nat) (q : Queue) : (T.setWireQ c q).nstamp = T.nstamp := rfl
@[simp] theorem setWireQ_joins (T : Tile) (c : Nat) (q : Queue) : (T.setWireQ c q).joins = T.joins := rfl
@[simp] theorem setWireQ_swsrc (T : Tile) (c : Nat) (q : Queue) : (T.setWireQ c q).swsrc = T.swsrc := rfl
@[simp] theorem setWireQ_relFence (T : Tile) (c : Nat) (q : Queue) : (T.setWireQ c q).relFence = T.relFence := rfl
@[simp] theorem setWireQ_bank (T : Tile) (c : Nat) (q : Queue) : (T.setWireQ c q).bank = T.bank := rfl
@[simp] theorem setWireQ_bank0 (T : Tile) (c : Nat) (q : Queue) : (T.setWireQ c q).bank0 = T.bank0 := rfl
@[simp] theorem setWireQ_bank1 (T : Tile) (c : Nat) (q : Queue) : (T.setWireQ c q).bank1 = T.bank1 := rfl
@[simp] theorem setWireQ_scratch (T : Tile) (c : Nat) (q : Queue) : (T.setWireQ c q).scratch = T.scratch := rfl
@[simp] theorem setWireQ_owner (T : Tile) (c : Nat) (q : Queue) : (T.setWireQ c q).owner = T.owner := rfl
@[simp] theorem setWireQ_spSites (T : Tile) (c : Nat) (q : Queue) : (T.setWireQ c q).spSites = T.spSites := rfl
@[simp] theorem setWireQ_fenced (T : Tile) (c : Nat) (q : Queue) : (T.setWireQ c q).fenced = T.fenced := rfl
@[simp] theorem setWireQ_cfgErr (T : Tile) (c : Nat) (q : Queue) : (T.setWireQ c q).cfgErr = T.cfgErr := rfl
@[simp] theorem setWireQ_corr (T : Tile) (c : Nat) (q : Queue) : (T.setWireQ c q).corr = T.corr := rfl

/-! ### pushOut -/

@[simp] theorem pushOut_region (T : Tile) (c : Nat) (bs : List Beat) : (T.pushOut c bs).region = T.region := rfl
@[simp] theorem pushOut_x (T : Tile) (c : Nat) (bs : List Beat) : (T.pushOut c bs).x = T.x := rfl
@[simp] theorem pushOut_v (T : Tile) (c : Nat) (bs : List Beat) : (T.pushOut c bs).v = T.v := rfl
@[simp] theorem pushOut_p (T : Tile) (c : Nat) (bs : List Beat) : (T.pushOut c bs).p = T.p := rfl
@[simp] theorem pushOut_ids (T : Tile) (c : Nat) (bs : List Beat) : (T.pushOut c bs).ids = T.ids := rfl
@[simp] theorem pushOut_array (T : Tile) (c : Nat) (bs : List Beat) : (T.pushOut c bs).array = T.array := rfl
@[simp] theorem pushOut_was (T : Tile) (c : Nat) (bs : List Beat) : (T.pushOut c bs).was = T.was := rfl
@[simp] theorem pushOut_gsr (T : Tile) (c : Nat) (bs : List Beat) : (T.pushOut c bs).gsr = T.gsr := rfl
@[simp] theorem pushOut_beads (T : Tile) (c : Nat) (bs : List Beat) : (T.pushOut c bs).beads = T.beads := rfl
@[simp] theorem pushOut_ops (T : Tile) (c : Nat) (bs : List Beat) : (T.pushOut c bs).ops = T.ops := rfl
@[simp] theorem pushOut_nbead (T : Tile) (c : Nat) (bs : List Beat) : (T.pushOut c bs).nbead = T.nbead := rfl
@[simp] theorem pushOut_nop (T : Tile) (c : Nat) (bs : List Beat) : (T.pushOut c bs).nop = T.nop := rfl
@[simp] theorem pushOut_bseq (T : Tile) (c : Nat) (bs : List Beat) : (T.pushOut c bs).bseq = T.bseq := rfl
@[simp] theorem pushOut_mxc (T : Tile) (c : Nat) (bs : List Beat) : (T.pushOut c bs).mxc = T.mxc := rfl
@[simp] theorem pushOut_units (T : Tile) (c : Nat) (bs : List Beat) : (T.pushOut c bs).units = T.units := rfl
@[simp] theorem pushOut_outs (T : Tile) (c : Nat) (bs : List Beat) : (T.pushOut c bs).outs = T.outs := rfl
@[simp] theorem pushOut_inq (T : Tile) (c : Nat) (bs : List Beat) : (T.pushOut c bs).inq = T.inq := rfl
@[simp] theorem pushOut_wire (T : Tile) (c : Nat) (bs : List Beat) : (T.pushOut c bs).wire = T.wire := rfl
@[simp] theorem pushOut_stamps (T : Tile) (c : Nat) (bs : List Beat) : (T.pushOut c bs).stamps = T.stamps := rfl
@[simp] theorem pushOut_nstamp (T : Tile) (c : Nat) (bs : List Beat) : (T.pushOut c bs).nstamp = T.nstamp := rfl
@[simp] theorem pushOut_joins (T : Tile) (c : Nat) (bs : List Beat) : (T.pushOut c bs).joins = T.joins := rfl
@[simp] theorem pushOut_swsrc (T : Tile) (c : Nat) (bs : List Beat) : (T.pushOut c bs).swsrc = T.swsrc := rfl
@[simp] theorem pushOut_relFence (T : Tile) (c : Nat) (bs : List Beat) : (T.pushOut c bs).relFence = T.relFence := rfl
@[simp] theorem pushOut_bank (T : Tile) (c : Nat) (bs : List Beat) : (T.pushOut c bs).bank = T.bank := rfl
@[simp] theorem pushOut_bank0 (T : Tile) (c : Nat) (bs : List Beat) : (T.pushOut c bs).bank0 = T.bank0 := rfl
@[simp] theorem pushOut_bank1 (T : Tile) (c : Nat) (bs : List Beat) : (T.pushOut c bs).bank1 = T.bank1 := rfl
@[simp] theorem pushOut_scratch (T : Tile) (c : Nat) (bs : List Beat) : (T.pushOut c bs).scratch = T.scratch := rfl
@[simp] theorem pushOut_owner (T : Tile) (c : Nat) (bs : List Beat) : (T.pushOut c bs).owner = T.owner := rfl
@[simp] theorem pushOut_spSites (T : Tile) (c : Nat) (bs : List Beat) : (T.pushOut c bs).spSites = T.spSites := rfl
@[simp] theorem pushOut_fenced (T : Tile) (c : Nat) (bs : List Beat) : (T.pushOut c bs).fenced = T.fenced := rfl
@[simp] theorem pushOut_cfgErr (T : Tile) (c : Nat) (bs : List Beat) : (T.pushOut c bs).cfgErr = T.cfgErr := rfl
@[simp] theorem pushOut_corr (T : Tile) (c : Nat) (bs : List Beat) : (T.pushOut c bs).corr = T.corr := rfl

/-! ### popIn -/

@[simp] theorem popIn_region (T : Tile) (c : Nat) : (T.popIn c).region = T.region := rfl
@[simp] theorem popIn_x (T : Tile) (c : Nat) : (T.popIn c).x = T.x := rfl
@[simp] theorem popIn_v (T : Tile) (c : Nat) : (T.popIn c).v = T.v := rfl
@[simp] theorem popIn_p (T : Tile) (c : Nat) : (T.popIn c).p = T.p := rfl
@[simp] theorem popIn_ids (T : Tile) (c : Nat) : (T.popIn c).ids = T.ids := rfl
@[simp] theorem popIn_array (T : Tile) (c : Nat) : (T.popIn c).array = T.array := rfl
@[simp] theorem popIn_was (T : Tile) (c : Nat) : (T.popIn c).was = T.was := rfl
@[simp] theorem popIn_gsr (T : Tile) (c : Nat) : (T.popIn c).gsr = T.gsr := rfl
@[simp] theorem popIn_beads (T : Tile) (c : Nat) : (T.popIn c).beads = T.beads := rfl
@[simp] theorem popIn_ops (T : Tile) (c : Nat) : (T.popIn c).ops = T.ops := rfl
@[simp] theorem popIn_nbead (T : Tile) (c : Nat) : (T.popIn c).nbead = T.nbead := rfl
@[simp] theorem popIn_nop (T : Tile) (c : Nat) : (T.popIn c).nop = T.nop := rfl
@[simp] theorem popIn_bseq (T : Tile) (c : Nat) : (T.popIn c).bseq = T.bseq := rfl
@[simp] theorem popIn_mxc (T : Tile) (c : Nat) : (T.popIn c).mxc = T.mxc := rfl
@[simp] theorem popIn_units (T : Tile) (c : Nat) : (T.popIn c).units = T.units := rfl
@[simp] theorem popIn_outs (T : Tile) (c : Nat) : (T.popIn c).outs = T.outs := rfl
@[simp] theorem popIn_outq (T : Tile) (c : Nat) : (T.popIn c).outq = T.outq := rfl
@[simp] theorem popIn_wire (T : Tile) (c : Nat) : (T.popIn c).wire = T.wire := rfl
@[simp] theorem popIn_stamps (T : Tile) (c : Nat) : (T.popIn c).stamps = T.stamps := rfl
@[simp] theorem popIn_nstamp (T : Tile) (c : Nat) : (T.popIn c).nstamp = T.nstamp := rfl
@[simp] theorem popIn_joins (T : Tile) (c : Nat) : (T.popIn c).joins = T.joins := rfl
@[simp] theorem popIn_swsrc (T : Tile) (c : Nat) : (T.popIn c).swsrc = T.swsrc := rfl
@[simp] theorem popIn_relFence (T : Tile) (c : Nat) : (T.popIn c).relFence = T.relFence := rfl
@[simp] theorem popIn_bank (T : Tile) (c : Nat) : (T.popIn c).bank = T.bank := rfl
@[simp] theorem popIn_bank0 (T : Tile) (c : Nat) : (T.popIn c).bank0 = T.bank0 := rfl
@[simp] theorem popIn_bank1 (T : Tile) (c : Nat) : (T.popIn c).bank1 = T.bank1 := rfl
@[simp] theorem popIn_scratch (T : Tile) (c : Nat) : (T.popIn c).scratch = T.scratch := rfl
@[simp] theorem popIn_owner (T : Tile) (c : Nat) : (T.popIn c).owner = T.owner := rfl
@[simp] theorem popIn_spSites (T : Tile) (c : Nat) : (T.popIn c).spSites = T.spSites := rfl
@[simp] theorem popIn_fenced (T : Tile) (c : Nat) : (T.popIn c).fenced = T.fenced := rfl
@[simp] theorem popIn_cfgErr (T : Tile) (c : Nat) : (T.popIn c).cfgErr = T.cfgErr := rfl
@[simp] theorem popIn_corr (T : Tile) (c : Nat) : (T.popIn c).corr = T.corr := rfl

/-! ### onUnit -/

@[simp] theorem onUnit_region (T : Tile) (u : Nat) (f : UState → UState) : (T.onUnit u f).region = T.region := rfl
@[simp] theorem onUnit_x (T : Tile) (u : Nat) (f : UState → UState) : (T.onUnit u f).x = T.x := rfl
@[simp] theorem onUnit_v (T : Tile) (u : Nat) (f : UState → UState) : (T.onUnit u f).v = T.v := rfl
@[simp] theorem onUnit_p (T : Tile) (u : Nat) (f : UState → UState) : (T.onUnit u f).p = T.p := rfl
@[simp] theorem onUnit_ids (T : Tile) (u : Nat) (f : UState → UState) : (T.onUnit u f).ids = T.ids := rfl
@[simp] theorem onUnit_array (T : Tile) (u : Nat) (f : UState → UState) : (T.onUnit u f).array = T.array := rfl
@[simp] theorem onUnit_was (T : Tile) (u : Nat) (f : UState → UState) : (T.onUnit u f).was = T.was := rfl
@[simp] theorem onUnit_gsr (T : Tile) (u : Nat) (f : UState → UState) : (T.onUnit u f).gsr = T.gsr := rfl
@[simp] theorem onUnit_beads (T : Tile) (u : Nat) (f : UState → UState) : (T.onUnit u f).beads = T.beads := rfl
@[simp] theorem onUnit_ops (T : Tile) (u : Nat) (f : UState → UState) : (T.onUnit u f).ops = T.ops := rfl
@[simp] theorem onUnit_nbead (T : Tile) (u : Nat) (f : UState → UState) : (T.onUnit u f).nbead = T.nbead := rfl
@[simp] theorem onUnit_nop (T : Tile) (u : Nat) (f : UState → UState) : (T.onUnit u f).nop = T.nop := rfl
@[simp] theorem onUnit_bseq (T : Tile) (u : Nat) (f : UState → UState) : (T.onUnit u f).bseq = T.bseq := rfl
@[simp] theorem onUnit_mxc (T : Tile) (u : Nat) (f : UState → UState) : (T.onUnit u f).mxc = T.mxc := rfl
@[simp] theorem onUnit_outs (T : Tile) (u : Nat) (f : UState → UState) : (T.onUnit u f).outs = T.outs := rfl
@[simp] theorem onUnit_inq (T : Tile) (u : Nat) (f : UState → UState) : (T.onUnit u f).inq = T.inq := rfl
@[simp] theorem onUnit_outq (T : Tile) (u : Nat) (f : UState → UState) : (T.onUnit u f).outq = T.outq := rfl
@[simp] theorem onUnit_wire (T : Tile) (u : Nat) (f : UState → UState) : (T.onUnit u f).wire = T.wire := rfl
@[simp] theorem onUnit_stamps (T : Tile) (u : Nat) (f : UState → UState) : (T.onUnit u f).stamps = T.stamps := rfl
@[simp] theorem onUnit_nstamp (T : Tile) (u : Nat) (f : UState → UState) : (T.onUnit u f).nstamp = T.nstamp := rfl
@[simp] theorem onUnit_joins (T : Tile) (u : Nat) (f : UState → UState) : (T.onUnit u f).joins = T.joins := rfl
@[simp] theorem onUnit_swsrc (T : Tile) (u : Nat) (f : UState → UState) : (T.onUnit u f).swsrc = T.swsrc := rfl
@[simp] theorem onUnit_relFence (T : Tile) (u : Nat) (f : UState → UState) : (T.onUnit u f).relFence = T.relFence := rfl
@[simp] theorem onUnit_bank (T : Tile) (u : Nat) (f : UState → UState) : (T.onUnit u f).bank = T.bank := rfl
@[simp] theorem onUnit_bank0 (T : Tile) (u : Nat) (f : UState → UState) : (T.onUnit u f).bank0 = T.bank0 := rfl
@[simp] theorem onUnit_bank1 (T : Tile) (u : Nat) (f : UState → UState) : (T.onUnit u f).bank1 = T.bank1 := rfl
@[simp] theorem onUnit_scratch (T : Tile) (u : Nat) (f : UState → UState) : (T.onUnit u f).scratch = T.scratch := rfl
@[simp] theorem onUnit_owner (T : Tile) (u : Nat) (f : UState → UState) : (T.onUnit u f).owner = T.owner := rfl
@[simp] theorem onUnit_spSites (T : Tile) (u : Nat) (f : UState → UState) : (T.onUnit u f).spSites = T.spSites := rfl
@[simp] theorem onUnit_fenced (T : Tile) (u : Nat) (f : UState → UState) : (T.onUnit u f).fenced = T.fenced := rfl
@[simp] theorem onUnit_cfgErr (T : Tile) (u : Nat) (f : UState → UState) : (T.onUnit u f).cfgErr = T.cfgErr := rfl
@[simp] theorem onUnit_corr (T : Tile) (u : Nat) (f : UState → UState) : (T.onUnit u f).corr = T.corr := rfl

/-! ### deliver -/

@[simp] theorem deliver_region (T : Tile) (n : Nat) (v : Vec) : (T.deliver n v).region = T.region := rfl
@[simp] theorem deliver_x (T : Tile) (n : Nat) (v : Vec) : (T.deliver n v).x = T.x := rfl
@[simp] theorem deliver_v (T : Tile) (n : Nat) (v : Vec) : (T.deliver n v).v = T.v := rfl
@[simp] theorem deliver_p (T : Tile) (n : Nat) (v : Vec) : (T.deliver n v).p = T.p := rfl
@[simp] theorem deliver_ids (T : Tile) (n : Nat) (v : Vec) : (T.deliver n v).ids = T.ids := rfl
@[simp] theorem deliver_array (T : Tile) (n : Nat) (v : Vec) : (T.deliver n v).array = T.array := rfl
@[simp] theorem deliver_was (T : Tile) (n : Nat) (v : Vec) : (T.deliver n v).was = T.was := rfl
@[simp] theorem deliver_gsr (T : Tile) (n : Nat) (v : Vec) : (T.deliver n v).gsr = T.gsr := rfl
@[simp] theorem deliver_beads (T : Tile) (n : Nat) (v : Vec) : (T.deliver n v).beads = T.beads := rfl
@[simp] theorem deliver_nbead (T : Tile) (n : Nat) (v : Vec) : (T.deliver n v).nbead = T.nbead := rfl
@[simp] theorem deliver_nop (T : Tile) (n : Nat) (v : Vec) : (T.deliver n v).nop = T.nop := rfl
@[simp] theorem deliver_bseq (T : Tile) (n : Nat) (v : Vec) : (T.deliver n v).bseq = T.bseq := rfl
@[simp] theorem deliver_mxc (T : Tile) (n : Nat) (v : Vec) : (T.deliver n v).mxc = T.mxc := rfl
@[simp] theorem deliver_units (T : Tile) (n : Nat) (v : Vec) : (T.deliver n v).units = T.units := rfl
@[simp] theorem deliver_outs (T : Tile) (n : Nat) (v : Vec) : (T.deliver n v).outs = T.outs := rfl
@[simp] theorem deliver_inq (T : Tile) (n : Nat) (v : Vec) : (T.deliver n v).inq = T.inq := rfl
@[simp] theorem deliver_outq (T : Tile) (n : Nat) (v : Vec) : (T.deliver n v).outq = T.outq := rfl
@[simp] theorem deliver_wire (T : Tile) (n : Nat) (v : Vec) : (T.deliver n v).wire = T.wire := rfl
@[simp] theorem deliver_stamps (T : Tile) (n : Nat) (v : Vec) : (T.deliver n v).stamps = T.stamps := rfl
@[simp] theorem deliver_nstamp (T : Tile) (n : Nat) (v : Vec) : (T.deliver n v).nstamp = T.nstamp := rfl
@[simp] theorem deliver_joins (T : Tile) (n : Nat) (v : Vec) : (T.deliver n v).joins = T.joins := rfl
@[simp] theorem deliver_swsrc (T : Tile) (n : Nat) (v : Vec) : (T.deliver n v).swsrc = T.swsrc := rfl
@[simp] theorem deliver_relFence (T : Tile) (n : Nat) (v : Vec) : (T.deliver n v).relFence = T.relFence := rfl
@[simp] theorem deliver_bank (T : Tile) (n : Nat) (v : Vec) : (T.deliver n v).bank = T.bank := rfl
@[simp] theorem deliver_bank0 (T : Tile) (n : Nat) (v : Vec) : (T.deliver n v).bank0 = T.bank0 := rfl
@[simp] theorem deliver_bank1 (T : Tile) (n : Nat) (v : Vec) : (T.deliver n v).bank1 = T.bank1 := rfl
@[simp] theorem deliver_scratch (T : Tile) (n : Nat) (v : Vec) : (T.deliver n v).scratch = T.scratch := rfl
@[simp] theorem deliver_owner (T : Tile) (n : Nat) (v : Vec) : (T.deliver n v).owner = T.owner := rfl
@[simp] theorem deliver_spSites (T : Tile) (n : Nat) (v : Vec) : (T.deliver n v).spSites = T.spSites := rfl
@[simp] theorem deliver_fenced (T : Tile) (n : Nat) (v : Vec) : (T.deliver n v).fenced = T.fenced := rfl
@[simp] theorem deliver_cfgErr (T : Tile) (n : Nat) (v : Vec) : (T.deliver n v).cfgErr = T.cfgErr := rfl
@[simp] theorem deliver_corr (T : Tile) (n : Nat) (v : Vec) : (T.deliver n v).corr = T.corr := rfl

/-! ### popStamp -/

@[simp] theorem popStamp_region (T : Tile) (c : Nat) : (T.popStamp c).region = T.region := rfl
@[simp] theorem popStamp_x (T : Tile) (c : Nat) : (T.popStamp c).x = T.x := rfl
@[simp] theorem popStamp_v (T : Tile) (c : Nat) : (T.popStamp c).v = T.v := rfl
@[simp] theorem popStamp_p (T : Tile) (c : Nat) : (T.popStamp c).p = T.p := rfl
@[simp] theorem popStamp_ids (T : Tile) (c : Nat) : (T.popStamp c).ids = T.ids := rfl
@[simp] theorem popStamp_array (T : Tile) (c : Nat) : (T.popStamp c).array = T.array := rfl
@[simp] theorem popStamp_was (T : Tile) (c : Nat) : (T.popStamp c).was = T.was := rfl
@[simp] theorem popStamp_gsr (T : Tile) (c : Nat) : (T.popStamp c).gsr = T.gsr := rfl
@[simp] theorem popStamp_beads (T : Tile) (c : Nat) : (T.popStamp c).beads = T.beads := rfl
@[simp] theorem popStamp_ops (T : Tile) (c : Nat) : (T.popStamp c).ops = T.ops := rfl
@[simp] theorem popStamp_nbead (T : Tile) (c : Nat) : (T.popStamp c).nbead = T.nbead := rfl
@[simp] theorem popStamp_nop (T : Tile) (c : Nat) : (T.popStamp c).nop = T.nop := rfl
@[simp] theorem popStamp_bseq (T : Tile) (c : Nat) : (T.popStamp c).bseq = T.bseq := rfl
@[simp] theorem popStamp_mxc (T : Tile) (c : Nat) : (T.popStamp c).mxc = T.mxc := rfl
@[simp] theorem popStamp_units (T : Tile) (c : Nat) : (T.popStamp c).units = T.units := rfl
@[simp] theorem popStamp_outs (T : Tile) (c : Nat) : (T.popStamp c).outs = T.outs := rfl
@[simp] theorem popStamp_inq (T : Tile) (c : Nat) : (T.popStamp c).inq = T.inq := rfl
@[simp] theorem popStamp_outq (T : Tile) (c : Nat) : (T.popStamp c).outq = T.outq := rfl
@[simp] theorem popStamp_wire (T : Tile) (c : Nat) : (T.popStamp c).wire = T.wire := rfl
@[simp] theorem popStamp_nstamp (T : Tile) (c : Nat) : (T.popStamp c).nstamp = T.nstamp := rfl
@[simp] theorem popStamp_joins (T : Tile) (c : Nat) : (T.popStamp c).joins = T.joins := rfl
@[simp] theorem popStamp_swsrc (T : Tile) (c : Nat) : (T.popStamp c).swsrc = T.swsrc := rfl
@[simp] theorem popStamp_relFence (T : Tile) (c : Nat) : (T.popStamp c).relFence = T.relFence := rfl
@[simp] theorem popStamp_bank (T : Tile) (c : Nat) : (T.popStamp c).bank = T.bank := rfl
@[simp] theorem popStamp_bank0 (T : Tile) (c : Nat) : (T.popStamp c).bank0 = T.bank0 := rfl
@[simp] theorem popStamp_bank1 (T : Tile) (c : Nat) : (T.popStamp c).bank1 = T.bank1 := rfl
@[simp] theorem popStamp_scratch (T : Tile) (c : Nat) : (T.popStamp c).scratch = T.scratch := rfl
@[simp] theorem popStamp_owner (T : Tile) (c : Nat) : (T.popStamp c).owner = T.owner := rfl
@[simp] theorem popStamp_spSites (T : Tile) (c : Nat) : (T.popStamp c).spSites = T.spSites := rfl
@[simp] theorem popStamp_fenced (T : Tile) (c : Nat) : (T.popStamp c).fenced = T.fenced := rfl
@[simp] theorem popStamp_cfgErr (T : Tile) (c : Nat) : (T.popStamp c).cfgErr = T.cfgErr := rfl
@[simp] theorem popStamp_corr (T : Tile) (c : Nat) : (T.popStamp c).corr = T.corr := rfl

/-! ### writeX -/

@[simp] theorem writeX_region (T : Tile) (r : Nat) (v : Word) : (T.writeX r v).region = T.region := by
  unfold Tile.writeX; split <;> rfl
@[simp] theorem writeX_v (T : Tile) (r : Nat) (v : Word) : (T.writeX r v).v = T.v := by
  unfold Tile.writeX; split <;> rfl
@[simp] theorem writeX_p (T : Tile) (r : Nat) (v : Word) : (T.writeX r v).p = T.p := by
  unfold Tile.writeX; split <;> rfl
@[simp] theorem writeX_ids (T : Tile) (r : Nat) (v : Word) : (T.writeX r v).ids = T.ids := by
  unfold Tile.writeX; split <;> rfl
@[simp] theorem writeX_array (T : Tile) (r : Nat) (v : Word) : (T.writeX r v).array = T.array := by
  unfold Tile.writeX; split <;> rfl
@[simp] theorem writeX_was (T : Tile) (r : Nat) (v : Word) : (T.writeX r v).was = T.was := by
  unfold Tile.writeX; split <;> rfl
@[simp] theorem writeX_gsr (T : Tile) (r : Nat) (v : Word) : (T.writeX r v).gsr = T.gsr := by
  unfold Tile.writeX; split <;> rfl
@[simp] theorem writeX_beads (T : Tile) (r : Nat) (v : Word) : (T.writeX r v).beads = T.beads := by
  unfold Tile.writeX; split <;> rfl
@[simp] theorem writeX_nbead (T : Tile) (r : Nat) (v : Word) : (T.writeX r v).nbead = T.nbead := by
  unfold Tile.writeX; split <;> rfl
@[simp] theorem writeX_nop (T : Tile) (r : Nat) (v : Word) : (T.writeX r v).nop = T.nop := by
  unfold Tile.writeX; split <;> rfl
@[simp] theorem writeX_bseq (T : Tile) (r : Nat) (v : Word) : (T.writeX r v).bseq = T.bseq := by
  unfold Tile.writeX; split <;> rfl
@[simp] theorem writeX_mxc (T : Tile) (r : Nat) (v : Word) : (T.writeX r v).mxc = T.mxc := by
  unfold Tile.writeX; split <;> rfl
@[simp] theorem writeX_units (T : Tile) (r : Nat) (v : Word) : (T.writeX r v).units = T.units := by
  unfold Tile.writeX; split <;> rfl
@[simp] theorem writeX_outs (T : Tile) (r : Nat) (v : Word) : (T.writeX r v).outs = T.outs := by
  unfold Tile.writeX; split <;> rfl
@[simp] theorem writeX_inq (T : Tile) (r : Nat) (v : Word) : (T.writeX r v).inq = T.inq := by
  unfold Tile.writeX; split <;> rfl
@[simp] theorem writeX_outq (T : Tile) (r : Nat) (v : Word) : (T.writeX r v).outq = T.outq := by
  unfold Tile.writeX; split <;> rfl
@[simp] theorem writeX_wire (T : Tile) (r : Nat) (v : Word) : (T.writeX r v).wire = T.wire := by
  unfold Tile.writeX; split <;> rfl
@[simp] theorem writeX_stamps (T : Tile) (r : Nat) (v : Word) : (T.writeX r v).stamps = T.stamps := by
  unfold Tile.writeX; split <;> rfl
@[simp] theorem writeX_nstamp (T : Tile) (r : Nat) (v : Word) : (T.writeX r v).nstamp = T.nstamp := by
  unfold Tile.writeX; split <;> rfl
@[simp] theorem writeX_joins (T : Tile) (r : Nat) (v : Word) : (T.writeX r v).joins = T.joins := by
  unfold Tile.writeX; split <;> rfl
@[simp] theorem writeX_swsrc (T : Tile) (r : Nat) (v : Word) : (T.writeX r v).swsrc = T.swsrc := by
  unfold Tile.writeX; split <;> rfl
@[simp] theorem writeX_relFence (T : Tile) (r : Nat) (v : Word) : (T.writeX r v).relFence = T.relFence := by
  unfold Tile.writeX; split <;> rfl
@[simp] theorem writeX_bank (T : Tile) (r : Nat) (v : Word) : (T.writeX r v).bank = T.bank := by
  unfold Tile.writeX; split <;> rfl
@[simp] theorem writeX_bank0 (T : Tile) (r : Nat) (v : Word) : (T.writeX r v).bank0 = T.bank0 := by
  unfold Tile.writeX; split <;> rfl
@[simp] theorem writeX_bank1 (T : Tile) (r : Nat) (v : Word) : (T.writeX r v).bank1 = T.bank1 := by
  unfold Tile.writeX; split <;> rfl
@[simp] theorem writeX_scratch (T : Tile) (r : Nat) (v : Word) : (T.writeX r v).scratch = T.scratch := by
  unfold Tile.writeX; split <;> rfl
@[simp] theorem writeX_owner (T : Tile) (r : Nat) (v : Word) : (T.writeX r v).owner = T.owner := by
  unfold Tile.writeX; split <;> rfl
@[simp] theorem writeX_spSites (T : Tile) (r : Nat) (v : Word) : (T.writeX r v).spSites = T.spSites := by
  unfold Tile.writeX; split <;> rfl
@[simp] theorem writeX_fenced (T : Tile) (r : Nat) (v : Word) : (T.writeX r v).fenced = T.fenced := by
  unfold Tile.writeX; split <;> rfl
@[simp] theorem writeX_cfgErr (T : Tile) (r : Nat) (v : Word) : (T.writeX r v).cfgErr = T.cfgErr := by
  unfold Tile.writeX; split <;> rfl
@[simp] theorem writeX_corr (T : Tile) (r : Nat) (v : Word) : (T.writeX r v).corr = T.corr := by
  unfold Tile.writeX; split <;> rfl

/-! ### writeP -/

@[simp] theorem writeP_region (T : Tile) (k : Nat) (v m : Mask) : (T.writeP k v m).region = T.region := by
  unfold Tile.writeP; split <;> rfl
@[simp] theorem writeP_x (T : Tile) (k : Nat) (v m : Mask) : (T.writeP k v m).x = T.x := by
  unfold Tile.writeP; split <;> rfl
@[simp] theorem writeP_v (T : Tile) (k : Nat) (v m : Mask) : (T.writeP k v m).v = T.v := by
  unfold Tile.writeP; split <;> rfl
@[simp] theorem writeP_ids (T : Tile) (k : Nat) (v m : Mask) : (T.writeP k v m).ids = T.ids := by
  unfold Tile.writeP; split <;> rfl
@[simp] theorem writeP_array (T : Tile) (k : Nat) (v m : Mask) : (T.writeP k v m).array = T.array := by
  unfold Tile.writeP; split <;> rfl
@[simp] theorem writeP_was (T : Tile) (k : Nat) (v m : Mask) : (T.writeP k v m).was = T.was := by
  unfold Tile.writeP; split <;> rfl
@[simp] theorem writeP_gsr (T : Tile) (k : Nat) (v m : Mask) : (T.writeP k v m).gsr = T.gsr := by
  unfold Tile.writeP; split <;> rfl
@[simp] theorem writeP_beads (T : Tile) (k : Nat) (v m : Mask) : (T.writeP k v m).beads = T.beads := by
  unfold Tile.writeP; split <;> rfl
@[simp] theorem writeP_ops (T : Tile) (k : Nat) (v m : Mask) : (T.writeP k v m).ops = T.ops := by
  unfold Tile.writeP; split <;> rfl
@[simp] theorem writeP_nbead (T : Tile) (k : Nat) (v m : Mask) : (T.writeP k v m).nbead = T.nbead := by
  unfold Tile.writeP; split <;> rfl
@[simp] theorem writeP_nop (T : Tile) (k : Nat) (v m : Mask) : (T.writeP k v m).nop = T.nop := by
  unfold Tile.writeP; split <;> rfl
@[simp] theorem writeP_bseq (T : Tile) (k : Nat) (v m : Mask) : (T.writeP k v m).bseq = T.bseq := by
  unfold Tile.writeP; split <;> rfl
@[simp] theorem writeP_mxc (T : Tile) (k : Nat) (v m : Mask) : (T.writeP k v m).mxc = T.mxc := by
  unfold Tile.writeP; split <;> rfl
@[simp] theorem writeP_units (T : Tile) (k : Nat) (v m : Mask) : (T.writeP k v m).units = T.units := by
  unfold Tile.writeP; split <;> rfl
@[simp] theorem writeP_outs (T : Tile) (k : Nat) (v m : Mask) : (T.writeP k v m).outs = T.outs := by
  unfold Tile.writeP; split <;> rfl
@[simp] theorem writeP_inq (T : Tile) (k : Nat) (v m : Mask) : (T.writeP k v m).inq = T.inq := by
  unfold Tile.writeP; split <;> rfl
@[simp] theorem writeP_outq (T : Tile) (k : Nat) (v m : Mask) : (T.writeP k v m).outq = T.outq := by
  unfold Tile.writeP; split <;> rfl
@[simp] theorem writeP_wire (T : Tile) (k : Nat) (v m : Mask) : (T.writeP k v m).wire = T.wire := by
  unfold Tile.writeP; split <;> rfl
@[simp] theorem writeP_stamps (T : Tile) (k : Nat) (v m : Mask) : (T.writeP k v m).stamps = T.stamps := by
  unfold Tile.writeP; split <;> rfl
@[simp] theorem writeP_nstamp (T : Tile) (k : Nat) (v m : Mask) : (T.writeP k v m).nstamp = T.nstamp := by
  unfold Tile.writeP; split <;> rfl
@[simp] theorem writeP_joins (T : Tile) (k : Nat) (v m : Mask) : (T.writeP k v m).joins = T.joins := by
  unfold Tile.writeP; split <;> rfl
@[simp] theorem writeP_swsrc (T : Tile) (k : Nat) (v m : Mask) : (T.writeP k v m).swsrc = T.swsrc := by
  unfold Tile.writeP; split <;> rfl
@[simp] theorem writeP_relFence (T : Tile) (k : Nat) (v m : Mask) : (T.writeP k v m).relFence = T.relFence := by
  unfold Tile.writeP; split <;> rfl
@[simp] theorem writeP_bank (T : Tile) (k : Nat) (v m : Mask) : (T.writeP k v m).bank = T.bank := by
  unfold Tile.writeP; split <;> rfl
@[simp] theorem writeP_bank0 (T : Tile) (k : Nat) (v m : Mask) : (T.writeP k v m).bank0 = T.bank0 := by
  unfold Tile.writeP; split <;> rfl
@[simp] theorem writeP_bank1 (T : Tile) (k : Nat) (v m : Mask) : (T.writeP k v m).bank1 = T.bank1 := by
  unfold Tile.writeP; split <;> rfl
@[simp] theorem writeP_scratch (T : Tile) (k : Nat) (v m : Mask) : (T.writeP k v m).scratch = T.scratch := by
  unfold Tile.writeP; split <;> rfl
@[simp] theorem writeP_owner (T : Tile) (k : Nat) (v m : Mask) : (T.writeP k v m).owner = T.owner := by
  unfold Tile.writeP; split <;> rfl
@[simp] theorem writeP_spSites (T : Tile) (k : Nat) (v m : Mask) : (T.writeP k v m).spSites = T.spSites := by
  unfold Tile.writeP; split <;> rfl
@[simp] theorem writeP_fenced (T : Tile) (k : Nat) (v m : Mask) : (T.writeP k v m).fenced = T.fenced := by
  unfold Tile.writeP; split <;> rfl
@[simp] theorem writeP_cfgErr (T : Tile) (k : Nat) (v m : Mask) : (T.writeP k v m).cfgErr = T.cfgErr := by
  unfold Tile.writeP; split <;> rfl
@[simp] theorem writeP_corr (T : Tile) (k : Nat) (v m : Mask) : (T.writeP k v m).corr = T.corr := by
  unfold Tile.writeP; split <;> rfl

/-! ### onHead -/

@[simp] theorem onHead_region (T : Tile) (f : Bead → Bead) : (T.onHead f).region = T.region := by
  unfold Tile.onHead; split <;> rfl
@[simp] theorem onHead_x (T : Tile) (f : Bead → Bead) : (T.onHead f).x = T.x := by
  unfold Tile.onHead; split <;> rfl
@[simp] theorem onHead_v (T : Tile) (f : Bead → Bead) : (T.onHead f).v = T.v := by
  unfold Tile.onHead; split <;> rfl
@[simp] theorem onHead_p (T : Tile) (f : Bead → Bead) : (T.onHead f).p = T.p := by
  unfold Tile.onHead; split <;> rfl
@[simp] theorem onHead_ids (T : Tile) (f : Bead → Bead) : (T.onHead f).ids = T.ids := by
  unfold Tile.onHead; split <;> rfl
@[simp] theorem onHead_array (T : Tile) (f : Bead → Bead) : (T.onHead f).array = T.array := by
  unfold Tile.onHead; split <;> rfl
@[simp] theorem onHead_was (T : Tile) (f : Bead → Bead) : (T.onHead f).was = T.was := by
  unfold Tile.onHead; split <;> rfl
@[simp] theorem onHead_gsr (T : Tile) (f : Bead → Bead) : (T.onHead f).gsr = T.gsr := by
  unfold Tile.onHead; split <;> rfl
@[simp] theorem onHead_ops (T : Tile) (f : Bead → Bead) : (T.onHead f).ops = T.ops := by
  unfold Tile.onHead; split <;> rfl
@[simp] theorem onHead_nbead (T : Tile) (f : Bead → Bead) : (T.onHead f).nbead = T.nbead := by
  unfold Tile.onHead; split <;> rfl
@[simp] theorem onHead_nop (T : Tile) (f : Bead → Bead) : (T.onHead f).nop = T.nop := by
  unfold Tile.onHead; split <;> rfl
@[simp] theorem onHead_bseq (T : Tile) (f : Bead → Bead) : (T.onHead f).bseq = T.bseq := by
  unfold Tile.onHead; split <;> rfl
@[simp] theorem onHead_mxc (T : Tile) (f : Bead → Bead) : (T.onHead f).mxc = T.mxc := by
  unfold Tile.onHead; split <;> rfl
@[simp] theorem onHead_units (T : Tile) (f : Bead → Bead) : (T.onHead f).units = T.units := by
  unfold Tile.onHead; split <;> rfl
@[simp] theorem onHead_outs (T : Tile) (f : Bead → Bead) : (T.onHead f).outs = T.outs := by
  unfold Tile.onHead; split <;> rfl
@[simp] theorem onHead_inq (T : Tile) (f : Bead → Bead) : (T.onHead f).inq = T.inq := by
  unfold Tile.onHead; split <;> rfl
@[simp] theorem onHead_outq (T : Tile) (f : Bead → Bead) : (T.onHead f).outq = T.outq := by
  unfold Tile.onHead; split <;> rfl
@[simp] theorem onHead_wire (T : Tile) (f : Bead → Bead) : (T.onHead f).wire = T.wire := by
  unfold Tile.onHead; split <;> rfl
@[simp] theorem onHead_stamps (T : Tile) (f : Bead → Bead) : (T.onHead f).stamps = T.stamps := by
  unfold Tile.onHead; split <;> rfl
@[simp] theorem onHead_nstamp (T : Tile) (f : Bead → Bead) : (T.onHead f).nstamp = T.nstamp := by
  unfold Tile.onHead; split <;> rfl
@[simp] theorem onHead_joins (T : Tile) (f : Bead → Bead) : (T.onHead f).joins = T.joins := by
  unfold Tile.onHead; split <;> rfl
@[simp] theorem onHead_swsrc (T : Tile) (f : Bead → Bead) : (T.onHead f).swsrc = T.swsrc := by
  unfold Tile.onHead; split <;> rfl
@[simp] theorem onHead_relFence (T : Tile) (f : Bead → Bead) : (T.onHead f).relFence = T.relFence := by
  unfold Tile.onHead; split <;> rfl
@[simp] theorem onHead_bank (T : Tile) (f : Bead → Bead) : (T.onHead f).bank = T.bank := by
  unfold Tile.onHead; split <;> rfl
@[simp] theorem onHead_bank0 (T : Tile) (f : Bead → Bead) : (T.onHead f).bank0 = T.bank0 := by
  unfold Tile.onHead; split <;> rfl
@[simp] theorem onHead_bank1 (T : Tile) (f : Bead → Bead) : (T.onHead f).bank1 = T.bank1 := by
  unfold Tile.onHead; split <;> rfl
@[simp] theorem onHead_scratch (T : Tile) (f : Bead → Bead) : (T.onHead f).scratch = T.scratch := by
  unfold Tile.onHead; split <;> rfl
@[simp] theorem onHead_owner (T : Tile) (f : Bead → Bead) : (T.onHead f).owner = T.owner := by
  unfold Tile.onHead; split <;> rfl
@[simp] theorem onHead_spSites (T : Tile) (f : Bead → Bead) : (T.onHead f).spSites = T.spSites := by
  unfold Tile.onHead; split <;> rfl
@[simp] theorem onHead_fenced (T : Tile) (f : Bead → Bead) : (T.onHead f).fenced = T.fenced := by
  unfold Tile.onHead; split <;> rfl
@[simp] theorem onHead_cfgErr (T : Tile) (f : Bead → Bead) : (T.onHead f).cfgErr = T.cfgErr := by
  unfold Tile.onHead; split <;> rfl
@[simp] theorem onHead_corr (T : Tile) (f : Bead → Bead) : (T.onHead f).corr = T.corr := by
  unfold Tile.onHead; split <;> rfl

/-! ### dropHead -/

@[simp] theorem dropHead_region (T : Tile) : (T.dropHead).region = T.region := by
  unfold Tile.dropHead; split <;> rfl
@[simp] theorem dropHead_x (T : Tile) : (T.dropHead).x = T.x := by
  unfold Tile.dropHead; split <;> rfl
@[simp] theorem dropHead_v (T : Tile) : (T.dropHead).v = T.v := by
  unfold Tile.dropHead; split <;> rfl
@[simp] theorem dropHead_p (T : Tile) : (T.dropHead).p = T.p := by
  unfold Tile.dropHead; split <;> rfl
@[simp] theorem dropHead_ids (T : Tile) : (T.dropHead).ids = T.ids := by
  unfold Tile.dropHead; split <;> rfl
@[simp] theorem dropHead_array (T : Tile) : (T.dropHead).array = T.array := by
  unfold Tile.dropHead; split <;> rfl
@[simp] theorem dropHead_was (T : Tile) : (T.dropHead).was = T.was := by
  unfold Tile.dropHead; split <;> rfl
@[simp] theorem dropHead_gsr (T : Tile) : (T.dropHead).gsr = T.gsr := by
  unfold Tile.dropHead; split <;> rfl
@[simp] theorem dropHead_nbead (T : Tile) : (T.dropHead).nbead = T.nbead := by
  unfold Tile.dropHead; split <;> rfl
@[simp] theorem dropHead_nop (T : Tile) : (T.dropHead).nop = T.nop := by
  unfold Tile.dropHead; split <;> rfl
@[simp] theorem dropHead_bseq (T : Tile) : (T.dropHead).bseq = T.bseq := by
  unfold Tile.dropHead; split <;> rfl
@[simp] theorem dropHead_mxc (T : Tile) : (T.dropHead).mxc = T.mxc := by
  unfold Tile.dropHead; split <;> rfl
@[simp] theorem dropHead_units (T : Tile) : (T.dropHead).units = T.units := by
  unfold Tile.dropHead; split <;> rfl
@[simp] theorem dropHead_outs (T : Tile) : (T.dropHead).outs = T.outs := by
  unfold Tile.dropHead; split <;> rfl
@[simp] theorem dropHead_inq (T : Tile) : (T.dropHead).inq = T.inq := by
  unfold Tile.dropHead; split <;> rfl
@[simp] theorem dropHead_outq (T : Tile) : (T.dropHead).outq = T.outq := by
  unfold Tile.dropHead; split <;> rfl
@[simp] theorem dropHead_wire (T : Tile) : (T.dropHead).wire = T.wire := by
  unfold Tile.dropHead; split <;> rfl
@[simp] theorem dropHead_stamps (T : Tile) : (T.dropHead).stamps = T.stamps := by
  unfold Tile.dropHead; split <;> rfl
@[simp] theorem dropHead_nstamp (T : Tile) : (T.dropHead).nstamp = T.nstamp := by
  unfold Tile.dropHead; split <;> rfl
@[simp] theorem dropHead_joins (T : Tile) : (T.dropHead).joins = T.joins := by
  unfold Tile.dropHead; split <;> rfl
@[simp] theorem dropHead_swsrc (T : Tile) : (T.dropHead).swsrc = T.swsrc := by
  unfold Tile.dropHead; split <;> rfl
@[simp] theorem dropHead_relFence (T : Tile) : (T.dropHead).relFence = T.relFence := by
  unfold Tile.dropHead; split <;> rfl
@[simp] theorem dropHead_bank (T : Tile) : (T.dropHead).bank = T.bank := by
  unfold Tile.dropHead; split <;> rfl
@[simp] theorem dropHead_bank0 (T : Tile) : (T.dropHead).bank0 = T.bank0 := by
  unfold Tile.dropHead; split <;> rfl
@[simp] theorem dropHead_bank1 (T : Tile) : (T.dropHead).bank1 = T.bank1 := by
  unfold Tile.dropHead; split <;> rfl
@[simp] theorem dropHead_scratch (T : Tile) : (T.dropHead).scratch = T.scratch := by
  unfold Tile.dropHead; split <;> rfl
@[simp] theorem dropHead_owner (T : Tile) : (T.dropHead).owner = T.owner := by
  unfold Tile.dropHead; split <;> rfl
@[simp] theorem dropHead_spSites (T : Tile) : (T.dropHead).spSites = T.spSites := by
  unfold Tile.dropHead; split <;> rfl
@[simp] theorem dropHead_fenced (T : Tile) : (T.dropHead).fenced = T.fenced := by
  unfold Tile.dropHead; split <;> rfl
@[simp] theorem dropHead_cfgErr (T : Tile) : (T.dropHead).cfgErr = T.cfgErr := by
  unfold Tile.dropHead; split <;> rfl
@[simp] theorem dropHead_corr (T : Tile) : (T.dropHead).corr = T.corr := by
  unfold Tile.dropHead; split <;> rfl

/-! ### advance -/

@[simp] theorem advance_region (T : Tile) : T.advance.region = T.region := by
  unfold Tile.advance; split
  · rfl
  · split <;> simp
@[simp] theorem advance_x (T : Tile) : T.advance.x = T.x := by
  unfold Tile.advance; split
  · rfl
  · split <;> simp
@[simp] theorem advance_v (T : Tile) : T.advance.v = T.v := by
  unfold Tile.advance; split
  · rfl
  · split <;> simp
@[simp] theorem advance_p (T : Tile) : T.advance.p = T.p := by
  unfold Tile.advance; split
  · rfl
  · split <;> simp
@[simp] theorem advance_ids (T : Tile) : T.advance.ids = T.ids := by
  unfold Tile.advance; split
  · rfl
  · split <;> simp
@[simp] theorem advance_array (T : Tile) : T.advance.array = T.array := by
  unfold Tile.advance; split
  · rfl
  · split <;> simp
@[simp] theorem advance_was (T : Tile) : T.advance.was = T.was := by
  unfold Tile.advance; split
  · rfl
  · split <;> simp
@[simp] theorem advance_gsr (T : Tile) : T.advance.gsr = T.gsr := by
  unfold Tile.advance; split
  · rfl
  · split <;> simp
@[simp] theorem advance_nbead (T : Tile) : T.advance.nbead = T.nbead := by
  unfold Tile.advance; split
  · rfl
  · split <;> simp
@[simp] theorem advance_nop (T : Tile) : T.advance.nop = T.nop := by
  unfold Tile.advance; split
  · rfl
  · split <;> simp
@[simp] theorem advance_bseq (T : Tile) : T.advance.bseq = T.bseq := by
  unfold Tile.advance; split
  · rfl
  · split <;> simp
@[simp] theorem advance_mxc (T : Tile) : T.advance.mxc = T.mxc := by
  unfold Tile.advance; split
  · rfl
  · split <;> simp
@[simp] theorem advance_units (T : Tile) : T.advance.units = T.units := by
  unfold Tile.advance; split
  · rfl
  · split <;> simp
@[simp] theorem advance_outs (T : Tile) : T.advance.outs = T.outs := by
  unfold Tile.advance; split
  · rfl
  · split <;> simp
@[simp] theorem advance_inq (T : Tile) : T.advance.inq = T.inq := by
  unfold Tile.advance; split
  · rfl
  · split <;> simp
@[simp] theorem advance_outq (T : Tile) : T.advance.outq = T.outq := by
  unfold Tile.advance; split
  · rfl
  · split <;> simp
@[simp] theorem advance_wire (T : Tile) : T.advance.wire = T.wire := by
  unfold Tile.advance; split
  · rfl
  · split <;> simp
@[simp] theorem advance_stamps (T : Tile) : T.advance.stamps = T.stamps := by
  unfold Tile.advance; split
  · rfl
  · split <;> simp
@[simp] theorem advance_nstamp (T : Tile) : T.advance.nstamp = T.nstamp := by
  unfold Tile.advance; split
  · rfl
  · split <;> simp
@[simp] theorem advance_joins (T : Tile) : T.advance.joins = T.joins := by
  unfold Tile.advance; split
  · rfl
  · split <;> simp
@[simp] theorem advance_swsrc (T : Tile) : T.advance.swsrc = T.swsrc := by
  unfold Tile.advance; split
  · rfl
  · split <;> simp
@[simp] theorem advance_relFence (T : Tile) : T.advance.relFence = T.relFence := by
  unfold Tile.advance; split
  · rfl
  · split <;> simp
@[simp] theorem advance_bank (T : Tile) : T.advance.bank = T.bank := by
  unfold Tile.advance; split
  · rfl
  · split <;> simp
@[simp] theorem advance_bank0 (T : Tile) : T.advance.bank0 = T.bank0 := by
  unfold Tile.advance; split
  · rfl
  · split <;> simp
@[simp] theorem advance_bank1 (T : Tile) : T.advance.bank1 = T.bank1 := by
  unfold Tile.advance; split
  · rfl
  · split <;> simp
@[simp] theorem advance_scratch (T : Tile) : T.advance.scratch = T.scratch := by
  unfold Tile.advance; split
  · rfl
  · split <;> simp
@[simp] theorem advance_owner (T : Tile) : T.advance.owner = T.owner := by
  unfold Tile.advance; split
  · rfl
  · split <;> simp
@[simp] theorem advance_spSites (T : Tile) : T.advance.spSites = T.spSites := by
  unfold Tile.advance; split
  · rfl
  · split <;> simp
@[simp] theorem advance_fenced (T : Tile) : T.advance.fenced = T.fenced := by
  unfold Tile.advance; split
  · rfl
  · split <;> simp
@[simp] theorem advance_cfgErr (T : Tile) : T.advance.cfgErr = T.cfgErr := by
  unfold Tile.advance; split
  · rfl
  · split <;> simp
@[simp] theorem advance_corr (T : Tile) : T.advance.corr = T.corr := by
  unfold Tile.advance; split
  · rfl
  · split <;> simp

/-! ### setVreg -/

@[simp] theorem setVreg_region (T : Tile) (r : BitVec 6) (x : VReg) : (T.setVreg r x).region = T.region := by
  unfold Tile.setVreg; split <;> simp
@[simp] theorem setVreg_x (T : Tile) (r : BitVec 6) (x : VReg) : (T.setVreg r x).x = T.x := by
  unfold Tile.setVreg; split <;> simp
@[simp] theorem setVreg_p (T : Tile) (r : BitVec 6) (x : VReg) : (T.setVreg r x).p = T.p := by
  unfold Tile.setVreg; split <;> simp
@[simp] theorem setVreg_ids (T : Tile) (r : BitVec 6) (x : VReg) : (T.setVreg r x).ids = T.ids := by
  unfold Tile.setVreg; split <;> simp
@[simp] theorem setVreg_array (T : Tile) (r : BitVec 6) (x : VReg) : (T.setVreg r x).array = T.array := by
  unfold Tile.setVreg; split <;> simp
@[simp] theorem setVreg_was (T : Tile) (r : BitVec 6) (x : VReg) : (T.setVreg r x).was = T.was := by
  unfold Tile.setVreg; split <;> simp
@[simp] theorem setVreg_gsr (T : Tile) (r : BitVec 6) (x : VReg) : (T.setVreg r x).gsr = T.gsr := by
  unfold Tile.setVreg; split <;> simp
@[simp] theorem setVreg_ops (T : Tile) (r : BitVec 6) (x : VReg) : (T.setVreg r x).ops = T.ops := by
  unfold Tile.setVreg; split <;> simp
@[simp] theorem setVreg_nbead (T : Tile) (r : BitVec 6) (x : VReg) : (T.setVreg r x).nbead = T.nbead := by
  unfold Tile.setVreg; split <;> simp
@[simp] theorem setVreg_nop (T : Tile) (r : BitVec 6) (x : VReg) : (T.setVreg r x).nop = T.nop := by
  unfold Tile.setVreg; split <;> simp
@[simp] theorem setVreg_bseq (T : Tile) (r : BitVec 6) (x : VReg) : (T.setVreg r x).bseq = T.bseq := by
  unfold Tile.setVreg; split <;> simp
@[simp] theorem setVreg_mxc (T : Tile) (r : BitVec 6) (x : VReg) : (T.setVreg r x).mxc = T.mxc := by
  unfold Tile.setVreg; split <;> simp
@[simp] theorem setVreg_units (T : Tile) (r : BitVec 6) (x : VReg) : (T.setVreg r x).units = T.units := by
  unfold Tile.setVreg; split <;> simp
@[simp] theorem setVreg_outs (T : Tile) (r : BitVec 6) (x : VReg) : (T.setVreg r x).outs = T.outs := by
  unfold Tile.setVreg; split <;> simp
@[simp] theorem setVreg_inq (T : Tile) (r : BitVec 6) (x : VReg) : (T.setVreg r x).inq = T.inq := by
  unfold Tile.setVreg; split <;> simp
@[simp] theorem setVreg_outq (T : Tile) (r : BitVec 6) (x : VReg) : (T.setVreg r x).outq = T.outq := by
  unfold Tile.setVreg; split <;> simp
@[simp] theorem setVreg_wire (T : Tile) (r : BitVec 6) (x : VReg) : (T.setVreg r x).wire = T.wire := by
  unfold Tile.setVreg; split <;> simp
@[simp] theorem setVreg_stamps (T : Tile) (r : BitVec 6) (x : VReg) : (T.setVreg r x).stamps = T.stamps := by
  unfold Tile.setVreg; split <;> simp
@[simp] theorem setVreg_nstamp (T : Tile) (r : BitVec 6) (x : VReg) : (T.setVreg r x).nstamp = T.nstamp := by
  unfold Tile.setVreg; split <;> simp
@[simp] theorem setVreg_joins (T : Tile) (r : BitVec 6) (x : VReg) : (T.setVreg r x).joins = T.joins := by
  unfold Tile.setVreg; split <;> simp
@[simp] theorem setVreg_swsrc (T : Tile) (r : BitVec 6) (x : VReg) : (T.setVreg r x).swsrc = T.swsrc := by
  unfold Tile.setVreg; split <;> simp
@[simp] theorem setVreg_relFence (T : Tile) (r : BitVec 6) (x : VReg) : (T.setVreg r x).relFence = T.relFence := by
  unfold Tile.setVreg; split <;> simp
@[simp] theorem setVreg_bank (T : Tile) (r : BitVec 6) (x : VReg) : (T.setVreg r x).bank = T.bank := by
  unfold Tile.setVreg; split <;> simp
@[simp] theorem setVreg_bank0 (T : Tile) (r : BitVec 6) (x : VReg) : (T.setVreg r x).bank0 = T.bank0 := by
  unfold Tile.setVreg; split <;> simp
@[simp] theorem setVreg_bank1 (T : Tile) (r : BitVec 6) (x : VReg) : (T.setVreg r x).bank1 = T.bank1 := by
  unfold Tile.setVreg; split <;> simp
@[simp] theorem setVreg_scratch (T : Tile) (r : BitVec 6) (x : VReg) : (T.setVreg r x).scratch = T.scratch := by
  unfold Tile.setVreg; split <;> simp
@[simp] theorem setVreg_owner (T : Tile) (r : BitVec 6) (x : VReg) : (T.setVreg r x).owner = T.owner := by
  unfold Tile.setVreg; split <;> simp
@[simp] theorem setVreg_spSites (T : Tile) (r : BitVec 6) (x : VReg) : (T.setVreg r x).spSites = T.spSites := by
  unfold Tile.setVreg; split <;> simp
@[simp] theorem setVreg_fenced (T : Tile) (r : BitVec 6) (x : VReg) : (T.setVreg r x).fenced = T.fenced := by
  unfold Tile.setVreg; split <;> simp
@[simp] theorem setVreg_cfgErr (T : Tile) (r : BitVec 6) (x : VReg) : (T.setVreg r x).cfgErr = T.cfgErr := by
  unfold Tile.setVreg; split <;> simp
@[simp] theorem setVreg_corr (T : Tile) (r : BitVec 6) (x : VReg) : (T.setVreg r x).corr = T.corr := by
  unfold Tile.setVreg; split <;> simp

/-! ### writeV -/

@[simp] theorem writeV_region (T : Tile) (r : BitVec 6) (v : Vec) (m : Mask) : (T.writeV r v m).region = T.region := by
  simp [Tile.writeV]
@[simp] theorem writeV_x (T : Tile) (r : BitVec 6) (v : Vec) (m : Mask) : (T.writeV r v m).x = T.x := by
  simp [Tile.writeV]
@[simp] theorem writeV_p (T : Tile) (r : BitVec 6) (v : Vec) (m : Mask) : (T.writeV r v m).p = T.p := by
  simp [Tile.writeV]
@[simp] theorem writeV_ids (T : Tile) (r : BitVec 6) (v : Vec) (m : Mask) : (T.writeV r v m).ids = T.ids := by
  simp [Tile.writeV]
@[simp] theorem writeV_array (T : Tile) (r : BitVec 6) (v : Vec) (m : Mask) : (T.writeV r v m).array = T.array := by
  simp [Tile.writeV]
@[simp] theorem writeV_was (T : Tile) (r : BitVec 6) (v : Vec) (m : Mask) : (T.writeV r v m).was = T.was := by
  simp [Tile.writeV]
@[simp] theorem writeV_gsr (T : Tile) (r : BitVec 6) (v : Vec) (m : Mask) : (T.writeV r v m).gsr = T.gsr := by
  simp [Tile.writeV]
@[simp] theorem writeV_nbead (T : Tile) (r : BitVec 6) (v : Vec) (m : Mask) : (T.writeV r v m).nbead = T.nbead := by
  simp [Tile.writeV]
@[simp] theorem writeV_nop (T : Tile) (r : BitVec 6) (v : Vec) (m : Mask) : (T.writeV r v m).nop = T.nop := by
  simp [Tile.writeV]
@[simp] theorem writeV_bseq (T : Tile) (r : BitVec 6) (v : Vec) (m : Mask) : (T.writeV r v m).bseq = T.bseq := by
  simp [Tile.writeV]
@[simp] theorem writeV_mxc (T : Tile) (r : BitVec 6) (v : Vec) (m : Mask) : (T.writeV r v m).mxc = T.mxc := by
  simp [Tile.writeV]
@[simp] theorem writeV_units (T : Tile) (r : BitVec 6) (v : Vec) (m : Mask) : (T.writeV r v m).units = T.units := by
  simp [Tile.writeV]
@[simp] theorem writeV_outs (T : Tile) (r : BitVec 6) (v : Vec) (m : Mask) : (T.writeV r v m).outs = T.outs := by
  simp [Tile.writeV]
@[simp] theorem writeV_inq (T : Tile) (r : BitVec 6) (v : Vec) (m : Mask) : (T.writeV r v m).inq = T.inq := by
  simp [Tile.writeV]
@[simp] theorem writeV_outq (T : Tile) (r : BitVec 6) (v : Vec) (m : Mask) : (T.writeV r v m).outq = T.outq := by
  simp [Tile.writeV]
@[simp] theorem writeV_wire (T : Tile) (r : BitVec 6) (v : Vec) (m : Mask) : (T.writeV r v m).wire = T.wire := by
  simp [Tile.writeV]
@[simp] theorem writeV_stamps (T : Tile) (r : BitVec 6) (v : Vec) (m : Mask) : (T.writeV r v m).stamps = T.stamps := by
  simp [Tile.writeV]
@[simp] theorem writeV_nstamp (T : Tile) (r : BitVec 6) (v : Vec) (m : Mask) : (T.writeV r v m).nstamp = T.nstamp := by
  simp [Tile.writeV]
@[simp] theorem writeV_joins (T : Tile) (r : BitVec 6) (v : Vec) (m : Mask) : (T.writeV r v m).joins = T.joins := by
  simp [Tile.writeV]
@[simp] theorem writeV_swsrc (T : Tile) (r : BitVec 6) (v : Vec) (m : Mask) : (T.writeV r v m).swsrc = T.swsrc := by
  simp [Tile.writeV]
@[simp] theorem writeV_relFence (T : Tile) (r : BitVec 6) (v : Vec) (m : Mask) : (T.writeV r v m).relFence = T.relFence := by
  simp [Tile.writeV]
@[simp] theorem writeV_bank (T : Tile) (r : BitVec 6) (v : Vec) (m : Mask) : (T.writeV r v m).bank = T.bank := by
  simp [Tile.writeV]
@[simp] theorem writeV_bank0 (T : Tile) (r : BitVec 6) (v : Vec) (m : Mask) : (T.writeV r v m).bank0 = T.bank0 := by
  simp [Tile.writeV]
@[simp] theorem writeV_bank1 (T : Tile) (r : BitVec 6) (v : Vec) (m : Mask) : (T.writeV r v m).bank1 = T.bank1 := by
  simp [Tile.writeV]
@[simp] theorem writeV_scratch (T : Tile) (r : BitVec 6) (v : Vec) (m : Mask) : (T.writeV r v m).scratch = T.scratch := by
  simp [Tile.writeV]
@[simp] theorem writeV_owner (T : Tile) (r : BitVec 6) (v : Vec) (m : Mask) : (T.writeV r v m).owner = T.owner := by
  simp [Tile.writeV]
@[simp] theorem writeV_spSites (T : Tile) (r : BitVec 6) (v : Vec) (m : Mask) : (T.writeV r v m).spSites = T.spSites := by
  simp [Tile.writeV]
@[simp] theorem writeV_fenced (T : Tile) (r : BitVec 6) (v : Vec) (m : Mask) : (T.writeV r v m).fenced = T.fenced := by
  simp [Tile.writeV]
@[simp] theorem writeV_cfgErr (T : Tile) (r : BitVec 6) (v : Vec) (m : Mask) : (T.writeV r v m).cfgErr = T.cfgErr := by
  simp [Tile.writeV]
@[simp] theorem writeV_corr (T : Tile) (r : BitVec 6) (v : Vec) (m : Mask) : (T.writeV r v m).corr = T.corr := by
  simp [Tile.writeV]

end Tile

end Sys2Proof.Machine
end

