-- ==== Sys2Proof/Laws/Memory.lean ====
section
/-! SUPPORT. Tables and memory: reading back what was written, and the canonical form that every memory operation keeps. -/

namespace Sys2Proof.Machine

/-! ### Tables -/

@[simp] theorem tabGet_nil {α : Type} (k : Nat) : tabGet k ([] : Tab α) = none := rfl

theorem tabGet_tabSet {α : Type} (k j : Nat) (a : α) (t : Tab α) : tabGet j (tabSet k a t) = if k = j then some a else tabGet j t := by
  induction t with
  | nil => simp [tabSet, tabGet]
  | cons p t ih =>
    obtain ⟨i, b⟩ := p
    simp only [tabSet]
    split
    · subst_vars; simp [tabGet]; split <;> simp_all
    · split
      · simp [tabGet]
      · simp only [tabGet, ih]
        split <;> split <;> simp_all

@[simp] theorem tabGet_tabSet_self {α : Type} (k : Nat) (a : α) (t : Tab α) : tabGet k (tabSet k a t) = some a := by simp [tabGet_tabSet]

theorem tabGet_tabSet_of_ne {α : Type} {k j : Nat} (h : k ≠ j) (a : α) (t : Tab α) : tabGet j (tabSet k a t) = tabGet j t := by
  simp [tabGet_tabSet, h]

/-! ### Bytes -/

theorem memGet_memErase (a b : Nat) (m : List Host.Cell) : memGet a (memErase b m) = if a = b then 0 else memGet a m := by
  induction m with
  | nil => simp [memErase, memGet]
  | cons c m ih =>
    obtain ⟨i, x⟩ := c
    simp only [memErase, List.filter_cons] at ih ⊢
    by_cases hi : i = b
    · subst hi; simp only [bne_self_eq_false, Bool.false_eq_true, if_false, ih, memGet]
      by_cases ha : i = a <;> simp [ha]
    · simp [hi, memGet, ih]; split <;> simp_all

theorem memGet_memInsert (a b : Nat) (x : Byte) (m : List Host.Cell) (h : ∀ c ∈ m, c.1 ≠ b) :
    memGet a (memInsert b x m) = if a = b then x else memGet a m := by
  induction m with
  | nil => simp [memInsert, memGet, eq_comm]
  | cons c m ih =>
    obtain ⟨i, y⟩ := c
    simp only [memInsert]
    split
    · simp [memGet, eq_comm]
    · have := ih fun c hc => h c (List.mem_cons_of_mem _ hc)
      have hi : i ≠ b := h (i, y) (List.mem_cons_self ..)
      simp only [memGet, this]
      split <;> simp_all

/-- A byte reads as it was last written, and every other byte as before. -/
theorem memGet_memSet (a b : Nat) (x : Byte) (m : List Host.Cell) : memGet a (memSet b x m) = if a = b then x else memGet a m := by
  unfold memSet
  split
  · subst_vars; exact memGet_memErase a b m
  · rw [memGet_memInsert, memGet_memErase]
    · split <;> simp_all
    · intro c hc; simp [memErase] at hc; exact hc.2

/-- Bytes outside the cells written read as before. -/
theorem memGet_memWrite_of_not_mem (a : Nat) (cells m : List Host.Cell) (h : ∀ c ∈ cells, c.1 ≠ a) : memGet a (memWrite cells m) = memGet a m := by
  unfold memWrite
  induction cells generalizing m with
  | nil => rfl
  | cons c cs ih =>
    simp only [List.foldl_cons]
    rw [ih _ fun d hd => h d (List.mem_cons_of_mem _ hd), memGet_memSet, if_neg (Ne.symm (h c (List.mem_cons_self ..)))]

/-! ### The canonical form -/

theorem memErase_wf {m : List Host.Cell} (h : Memory.wf m) (a : Nat) : Memory.wf (memErase a m) := by
  refine ⟨?_, fun c hc => h.2 c (List.mem_of_mem_filter hc)⟩
  exact h.1.sublist ((List.filter_sublist ..).map _)

theorem mem_memInsert {a : Nat} {x : Byte} {c : Host.Cell} {m : List Host.Cell} : c ∈ memInsert a x m ↔ c = (a, x) ∨ c ∈ m := by
  induction m with
  | nil => simp [memInsert]
  | cons d m ih =>
    obtain ⟨i, y⟩ := d
    simp only [memInsert]
    split
    · simp
    · simp only [List.mem_cons, ih]; constructor <;> (rintro (h | h | h) <;> simp_all)

theorem memInsert_wf {m : List Host.Cell} (h : Memory.wf m) (a : Nat) (x : Byte) (hx : x ≠ 0) (hm : ∀ c ∈ m, c.1 ≠ a) :
    Memory.wf (memInsert a x m) := by
  refine ⟨?_, fun c hc => (mem_memInsert.1 hc).elim (fun e => e ▸ hx) (h.2 c)⟩
  have h1 := h.1
  clear h
  induction m with
  | nil => simp [memInsert]
  | cons d m ih =>
    obtain ⟨i, y⟩ := d
    simp only [List.map_cons, List.pairwise_cons] at h1
    simp only [memInsert]
    split
    · rename_i hlt
      simp only [List.map_cons, List.pairwise_cons, List.mem_cons]
      exact ⟨fun b hb => hb.elim (fun e => e ▸ hlt) fun e => Nat.lt_trans hlt (h1.1 b e), h1⟩
    · rename_i hge
      have hi : i ≠ a := hm (i, y) (List.mem_cons_self ..)
      simp only [List.map_cons, List.pairwise_cons]
      refine ⟨fun b hb => ?_, ih (fun c hc => hm c (List.mem_cons_of_mem _ hc)) h1.2⟩
      obtain ⟨c, hc, rfl⟩ := List.mem_map.1 hb
      rcases mem_memInsert.1 hc with e | e
      · subst e; show i < a; omega
      · exact h1.1 _ (List.mem_map_of_mem e)

theorem memSet_wf {m : List Host.Cell} (h : Memory.wf m) (a : Nat) (x : Byte) : Memory.wf (memSet a x m) := by
  unfold memSet
  split
  · exact memErase_wf h a
  · refine memInsert_wf (memErase_wf h a) a x ‹_› fun c hc => ?_
    simp [memErase] at hc; exact hc.2

/-- Every write of cells keeps the canonical form. -/
theorem memWrite_wf {m : List Host.Cell} (h : Memory.wf m) (cells : List Host.Cell) : Memory.wf (memWrite cells m) := by
  unfold memWrite
  induction cells generalizing m with
  | nil => exact h
  | cons c cs ih => exact ih (memSet_wf h c.1 c.2)

/-- Dropping cells, as recovery does, keeps the canonical form. -/
theorem memFilter_wf {m : List Host.Cell} (h : Memory.wf m) (p : Host.Cell → Bool) : Memory.wf (m.filter p) :=
  ⟨h.1.sublist ((List.filter_sublist ..).map _), fun c hc => h.2 c (List.mem_of_mem_filter hc)⟩

theorem State.memSet_wf {s : State} (h : Memory.wf s.mem) (cells : List Host.Cell) : Memory.wf (s.memSet cells).mem := memWrite_wf h cells

theorem State.reset_wf : Memory.wf State.reset.mem := by decide

/-! ### Places in the state -/

@[simp] theorem State.tile_setTile (s : State) (t : Nat) (T : Tile) : (s.setTile t T).tile t = T := by simp [State.setTile, State.tile]
theorem State.tile_setTile_of_ne {t u : Nat} (h : t ≠ u) (s : State) (T : Tile) : (s.setTile t T).tile u = s.tile u := by
  simp [State.setTile, State.tile, tabGet_tabSet, h]
@[simp] theorem State.tile_onTile (s : State) (t : Nat) (f : Tile → Tile) : (s.onTile t f).tile t = f (s.tile t) := by simp [State.onTile]
theorem State.tile_onTile_of_ne {t u : Nat} (h : t ≠ u) (s : State) (f : Tile → Tile) : (s.onTile t f).tile u = s.tile u :=
  State.tile_setTile_of_ne h s _
@[simp] theorem State.me_onMe (s : State) (f : Tile → Tile) : (s.onMe f).me = f s.me := by simp [State.onMe, State.me, State.onTile]
@[simp] theorem State.me_advance (s : State) : s.advance.me = s.me.advance := by simp [State.advance]
@[simp] theorem State.region?_setRegion (s : State) (r : Nat) (g : Region) : (s.setRegion r g).region? r = some g := by
  simp [State.setRegion, State.region?]
theorem State.region?_setRegion_of_ne {r q : Nat} (h : r ≠ q) (s : State) (g : Region) : (s.setRegion r g).region? q = s.region? q := by
  simp [State.setRegion, State.region?, tabGet_tabSet, h]
@[simp] theorem State.task?_setTask (s : State) (h : Nat) (k : Task) : (s.setTask h k).task? h = some k := by simp [State.setTask, State.task?]
theorem State.task?_setTask_of_ne {h j : Nat} (n : h ≠ j) (s : State) (k : Task) : (s.setTask h k).task? j = s.task? j := by
  simp [State.setTask, State.task?, tabGet_tabSet, n]
theorem State.setTile_setTile (s : State) (t : Nat) (T U : Tile) (h : tabSet t U (tabSet t T s.tiles) = tabSet t U s.tiles) :
    (s.setTile t T).setTile t U = s.setTile t U := by simp [State.setTile, h]

end Sys2Proof.Machine
end

