-- ==== Sys2Proof/Laws/Ops.lean ====
section
/-! SUPPORT. What the shared operations can do, said once: issue, register reads after writes, traps, requests that leave the combining nodes, chains. -/

namespace Sys2Proof.Machine

/-! ### Issue (R78, R124) -/

theorem ready_go {T : Tile} {srcs : List Src} (h : ∀ x ∈ srcs, T.full x.spec = true) : ready T srcs = .go := by
  have : srcs.filter (fun x => !T.full x.spec) = [] := by simpa [List.filter_eq_nil_iff] using h
  simp [ready, this]

/-- An instruction that can issue takes its effect. -/
theorem State.issue_of_can {s : State} {run : Bool} {srcs : List Src} (h : s.canIssue run srcs) (k : State → State) :
    s.issue run srcs k = k s := by
  simp [State.issue, h.1, ready_go h.2]

/-- With no lane to act on an instruction only advances. -/
theorem State.issue_idle (s : State) (srcs : List Src) (k : State → State) : s.issue false srcs k = s.advance := rfl

/-- Everything that issue can do. -/
theorem State.issue_cases (s : State) (run : Bool) (srcs : List Src) (k : State → State) :
    (run = true ∧ s.issue run srcs k = k s) ∨ s.issue run srcs k = s ∨ (run = false ∧ s.issue run srcs k = s.advance)
      ∨ ∃ r p, s.issue run srcs k = s.trap (.fetrap r p) := by
  unfold State.issue
  cases run with
  | false => simp
  | true =>
    simp only [if_true]
    cases ready s.me srcs with
    | go => simp
    | block => simp
    | trap r p => exact .inr (.inr (.inr ⟨r, p, rfl⟩))

/-! ### Registers (R73, R74) -/

@[simp] theorem Tile.readX_zero (T : Tile) : T.readX 0 = 0 := rfl
@[simp] theorem Tile.readP_zero (T : Tile) : T.readP 0 = 0xFFFF := rfl
@[simp] theorem Tile.writeX_zero (T : Tile) (v : Word) : T.writeX 0 v = T := rfl
@[simp] theorem Tile.writeP_zero (T : Tile) (v m : Mask) : T.writeP 0 v m = T := rfl

/-- An X register reads as it was last written; x0 reads zero. -/
theorem Tile.readX_writeX (T : Tile) (r : Nat) (v : Word) (h : r < T.x.length) : (T.writeX r v).readX r = if r = 0 then 0 else v := by
  unfold Tile.writeX Tile.readX
  split
  · simp [*]
  · simp [List.getD, List.getElem?_set_self h]

theorem Tile.readX_writeX_of_ne {r k : Nat} (h : r ≠ k) (T : Tile) (v : Word) : (T.writeX r v).readX k = T.readX k := by
  by_cases hr : r = 0
  · subst hr; rfl
  · unfold Tile.writeX Tile.readX
    simp [hr, List.getD, List.getElem?_set_ne h]

/-- A predicate register after a write: new bits under the mask, old bits elsewhere; p0 keeps 0xFFFF. -/
theorem Tile.readP_writeP (T : Tile) (k : Nat) (v m : Mask) (h : k < T.p.length) :
    (T.writeP k v m).readP k = if k = 0 then 0xFFFF else (T.readP k &&& ~~~m) ||| (v &&& m) := by
  unfold Tile.writeP
  split
  · simp [*]
  · simp [Tile.readP, *, List.getD]

theorem Tile.readP_writeP_of_ne {k j : Nat} (h : k ≠ j) (T : Tile) (v m : Mask) : (T.writeP k v m).readP j = T.readP j := by
  unfold Tile.writeP
  split
  · rfl
  · simp [Tile.readP, List.getD, List.getElem?_set_ne h]

/-! ### Traps (R163, R275, R376) -/

/-- Everything that taking an exception can do to a state: nothing without a region; a replay where validation fails; or a record
and, for a freezing fault, the region frozen. -/
theorem State.raise_cases (s : State) (p : Site) (f : Flt) :
    (s.regionOf p.t = none ∧ s.raise p f = s)
      ∨ ∃ r g, s.regionOf p.t = some (r, g) ∧ ((s.mustReplay g = true ∧ s.raise p f = s.replay r)
        ∨ (s.mustReplay g = false ∧ ∃ w6 lseq s₁,
            s₁ = (if f.code = 0x0F then (s.post p g.ctx f f.freezes f.replayable f.isEvent lseq g.task w6).count g.die .decmpRaised
              else s.post p g.ctx f f.freezes f.replayable f.isEvent lseq g.task w6)
            ∧ s.raise p f = if f.freezes then s₁.setRegion r { g with
                frozen := true
                records := g.records ++ [⟨s.nextSeq (dieOf p.t) g.ctx, f.code, p.t, p.unit, f.va, f.detail, 0, p.sub⟩] } else s₁)) := by
  unfold State.raise
  cases h : s.regionOf p.t with
  | none => simp
  | some q =>
    obtain ⟨r, g⟩ := q
    refine .inr ⟨r, g, rfl, ?_⟩
    by_cases hm : s.mustReplay g = true
    · exact .inl ⟨hm, by simp [hm]⟩
    · exact .inr ⟨by simpa using hm, _, _, _, rfl, if_neg hm⟩

/-- A thaw takes the record out, and leaves the region frozen while a record, a stop wave or a repair holds it. -/
theorem State.thaw_region {s : State} {r seq : Nat} {g : Region} (h : s.region? r = some g) :
    (s.thaw r seq).region? r = some { g with
      records := g.records.filter fun x => x.seq != seq
      frozen := !(g.records.filter fun x => x.seq != seq).isEmpty || g.stopWave || !g.repair.isEmpty } := by
  simp [State.thaw, State.thawBy, State.onRegion, h, bne]

/-! ### Requests and chains -/

/-- A word of another package is not touched by each part of a combined request (R416). -/
@[simp] theorem State.touchHere_remote {s : State} {p : Site} {c va pa : Nat} (h : inRemote pa = true) : s.touchHere p c va pa = s := by
  simp [State.touchHere, h]
@[simp] theorem State.touchHere_local {s : State} {p : Site} {c va pa : Nat} (h : inRemote pa = false) :
    s.touchHere p c va pa = s.touch p c va pa := by
  simp [State.touchHere, h]

/-- Everything that becomes of a request that leaves the combining nodes. -/
theorem State.sendHome_cases (s : State) (e : HsqEntry) :
    (s.cutOff e.pa = true ∧ s.sendHome e = some (s.stranded e))
      ∨ (s.cutOff e.pa = false ∧ inRemote e.pa = true ∧ s.sendHome e = some ((s.sendRequest e.ctx e.pa).remoteAnswer e))
      ∨ (s.cutOff e.pa = false ∧ inRemote e.pa = false ∧
        ((s.hsqRoom (homeVault e.pa) e.ctx = true ∧ s.sendHome e = some (s.request e))
          ∨ (s.hsqRoom (homeVault e.pa) e.ctx = false ∧ s.sendHome e = none))) := by
  unfold State.sendHome
  cases s.cutOff e.pa <;> cases inRemote e.pa <;> cases s.hsqRoom (homeVault e.pa) e.ctx <;> simp

/-- An engine that reaches words of a chain descriptor has the place of each. -/
theorem State.chainPlaces_length {s s' : State} {d e c va : Nat} {w : Bool} {seen is pas : List Nat}
    (h : s.chainPlaces d e c va w seen is = (s', .ok pas)) : pas.length = is.length := by
  induction is generalizing s seen pas with
  | nil => simp [State.chainPlaces] at h; simp [← h.2]
  | cons i is ih =>
    simp only [State.chainPlaces] at h
    cases hq : s.page (State.engineSite d e) none c (va + 8 * i) (.sync w) with
    | mk s₁ r =>
      cases r with
      | error f => simp [hq] at h
      | ok q =>
        cases hb : s₁.barred q.pa (va + 8 * i) with
        | some f => simp [hq, hb] at h
        | none =>
          simp only [hq, hb] at h
          generalize (if seen.contains (q.pa / 256) = true then s₁ else _) = u at h
          split at h
          · simp at h
          · split at h
            · simp at h
            · rename_i hp
              simp only [Prod.mk.injEq, Except.ok.injEq] at h
              simp [← h.2, ih (h.1 ▸ hp)]

end Sys2Proof.Machine
end

