-- ==== Sys2Proof/Laws/Words.lean ====
section
/-! SUPPORT. The words of the six formats read back field by field (R80 to R85). -/

namespace Sys2Proof

/-- A field above the low part of a word is a field of the high part. -/
theorem field_above {a b s n : Nat} (x : BitVec a) (y : BitVec b) (h : b ≤ s) : (x ++ y).extractLsb' s n = x.extractLsb' (s - b) n := by
  ext k hk
  simp [BitVec.getLsbD_append, show ¬ s + k < b by omega, show s + k - b = s - b + k by omega]
/-- The lowest field of a word. -/
theorem field_low {a b : Nat} (x : BitVec a) (y : BitVec b) : (x ++ y).extractLsb' 0 b = y := by
  ext k hk
  simp [BitVec.getLsbD_append, hk]
/-- A whole word as its own field. -/
theorem field_all {b : Nat} (y : BitVec b) : y.extractLsb' 0 b = y := by
  ext k hk
  simp

/-- The fields of a Format A word. -/
theorem fieldsA_wordA (op : BitVec 8) (fn : BitVec 6) (f : FmtA) : fieldsA (wordA op fn f) = f := by
  rcases f with ⟨dst, sa, sb, sc, fe, pg, ps, ty, rm, sat, mod⟩
  simp only [fieldsA, wordA, FmtA.mk.injEq]
  refine ⟨?_, ?_, ?_, ?_, ?_, ?_, ?_, ?_, ?_, ?_, ?_⟩
  · iterate 10 refine (field_above _ _ (by decide)).trans ?_
    exact field_low _ _
  · iterate 9 refine (field_above _ _ (by decide)).trans ?_
    exact field_low _ _
  · iterate 8 refine (field_above _ _ (by decide)).trans ?_
    exact field_low _ _
  · iterate 7 refine (field_above _ _ (by decide)).trans ?_
    exact field_low _ _
  · iterate 6 refine (field_above _ _ (by decide)).trans ?_
    exact field_low _ _
  · iterate 5 refine (field_above _ _ (by decide)).trans ?_
    exact field_low _ _
  · iterate 4 refine (field_above _ _ (by decide)).trans ?_
    exact field_low _ _
  · iterate 3 refine (field_above _ _ (by decide)).trans ?_
    exact field_low _ _
  · iterate 2 refine (field_above _ _ (by decide)).trans ?_
    exact field_low _ _
  · iterate 1 refine (field_above _ _ (by decide)).trans ?_
    exact field_low _ _
  · exact field_low _ _
theorem opOf_wordA (op : BitVec 8) (fn : BitVec 6) (f : FmtA) : opOf (wordA op fn f) = op.toNat := by
  refine congrArg BitVec.toNat ?_
  unfold wordA
  iterate 12 refine (field_above _ _ (by decide)).trans ?_
  exact field_all _
theorem fnOf_wordA (op : BitVec 8) (fn : BitVec 6) (f : FmtA) : fnOf (wordA op fn f) = fn.toNat := by
  refine congrArg BitVec.toNat ?_
  unfold wordA
  iterate 11 refine (field_above _ _ (by decide)).trans ?_
  exact field_low _ _

/-- The fields of a Format I word. -/
theorem fieldsI_wordI (op : BitVec 8) (fn : BitVec 6) (f : FmtI) : fieldsI (wordI op fn f) = f := by
  rcases f with ⟨dst, sa, fe, pg, ps, imm⟩
  simp only [fieldsI, wordI, FmtI.mk.injEq]
  refine ⟨?_, ?_, ?_, ?_, ?_, ?_⟩
  · iterate 6 refine (field_above _ _ (by decide)).trans ?_
    exact field_low _ _
  · iterate 5 refine (field_above _ _ (by decide)).trans ?_
    exact field_low _ _
  · iterate 4 refine (field_above _ _ (by decide)).trans ?_
    exact field_low _ _
  · iterate 3 refine (field_above _ _ (by decide)).trans ?_
    exact field_low _ _
  · iterate 2 refine (field_above _ _ (by decide)).trans ?_
    exact field_low _ _
  · exact field_low _ _
theorem opOf_wordI (op : BitVec 8) (fn : BitVec 6) (f : FmtI) : opOf (wordI op fn f) = op.toNat := by
  refine congrArg BitVec.toNat ?_
  unfold wordI
  iterate 8 refine (field_above _ _ (by decide)).trans ?_
  exact field_all _
theorem fnOf_wordI (op : BitVec 8) (fn : BitVec 6) (f : FmtI) : fnOf (wordI op fn f) = fn.toNat := by
  refine congrArg BitVec.toNat ?_
  unfold wordI
  iterate 7 refine (field_above _ _ (by decide)).trans ?_
  exact field_low _ _
/-- A fixed field of a Format I word. -/
theorem fixed0_wordI (op : BitVec 8) (fn : BitVec 6) (f : FmtI) : (wordI op fn f).extractLsb' 32 1 = 0#1 := by
  unfold wordI
  iterate 1 refine (field_above _ _ (by decide)).trans ?_
  exact field_low _ _

/-- The fields of a Format M word. -/
theorem fieldsM_wordM (op : BitVec 8) (fn : BitVec 6) (f : FmtM) : fieldsM (wordM op fn f) = f := by
  rcases f with ⟨reg, base, fe, pg, ps, sz, off, space, scope, ord⟩
  simp only [fieldsM, wordM, FmtM.mk.injEq]
  refine ⟨?_, ?_, ?_, ?_, ?_, ?_, ?_, ?_, ?_, ?_⟩
  · iterate 9 refine (field_above _ _ (by decide)).trans ?_
    exact field_low _ _
  · iterate 8 refine (field_above _ _ (by decide)).trans ?_
    exact field_low _ _
  · iterate 7 refine (field_above _ _ (by decide)).trans ?_
    exact field_low _ _
  · iterate 6 refine (field_above _ _ (by decide)).trans ?_
    exact field_low _ _
  · iterate 5 refine (field_above _ _ (by decide)).trans ?_
    exact field_low _ _
  · iterate 4 refine (field_above _ _ (by decide)).trans ?_
    exact field_low _ _
  · iterate 3 refine (field_above _ _ (by decide)).trans ?_
    exact field_low _ _
  · iterate 2 refine (field_above _ _ (by decide)).trans ?_
    exact field_low _ _
  · iterate 1 refine (field_above _ _ (by decide)).trans ?_
    exact field_low _ _
  · exact field_low _ _
theorem opOf_wordM (op : BitVec 8) (fn : BitVec 6) (f : FmtM) : opOf (wordM op fn f) = op.toNat := by
  refine congrArg BitVec.toNat ?_
  unfold wordM
  iterate 11 refine (field_above _ _ (by decide)).trans ?_
  exact field_all _
theorem fnOf_wordM (op : BitVec 8) (fn : BitVec 6) (f : FmtM) : fnOf (wordM op fn f) = fn.toNat := by
  refine congrArg BitVec.toNat ?_
  unfold wordM
  iterate 10 refine (field_above _ _ (by decide)).trans ?_
  exact field_low _ _

/-- The fields of a Format C word. -/
theorem fieldsC_wordC (op : BitVec 8) (fn : BitVec 6) (f : FmtC) : fieldsC (wordC op fn f) = f := by
  rcases f with ⟨pin, pout, smask, pg, ps, fe, sa, tgt, lvl⟩
  simp only [fieldsC, wordC, FmtC.mk.injEq]
  refine ⟨?_, ?_, ?_, ?_, ?_, ?_, ?_, ?_, ?_⟩
  · iterate 9 refine (field_above _ _ (by decide)).trans ?_
    exact field_low _ _
  · iterate 8 refine (field_above _ _ (by decide)).trans ?_
    exact field_low _ _
  · iterate 7 refine (field_above _ _ (by decide)).trans ?_
    exact field_low _ _
  · iterate 6 refine (field_above _ _ (by decide)).trans ?_
    exact field_low _ _
  · iterate 5 refine (field_above _ _ (by decide)).trans ?_
    exact field_low _ _
  · iterate 4 refine (field_above _ _ (by decide)).trans ?_
    exact field_low _ _
  · iterate 3 refine (field_above _ _ (by decide)).trans ?_
    exact field_low _ _
  · iterate 2 refine (field_above _ _ (by decide)).trans ?_
    exact field_low _ _
  · iterate 1 refine (field_above _ _ (by decide)).trans ?_
    exact field_low _ _
theorem opOf_wordC (op : BitVec 8) (fn : BitVec 6) (f : FmtC) : opOf (wordC op fn f) = op.toNat := by
  refine congrArg BitVec.toNat ?_
  unfold wordC
  iterate 11 refine (field_above _ _ (by decide)).trans ?_
  exact field_all _
theorem fnOf_wordC (op : BitVec 8) (fn : BitVec 6) (f : FmtC) : fnOf (wordC op fn f) = fn.toNat := by
  refine congrArg BitVec.toNat ?_
  unfold wordC
  iterate 10 refine (field_above _ _ (by decide)).trans ?_
  exact field_low _ _
/-- A fixed field of a Format C word. -/
theorem fixed0_wordC (op : BitVec 8) (fn : BitVec 6) (f : FmtC) : (wordC op fn f).extractLsb' 0 11 = 0#11 := by
  unfold wordC
  exact field_low _ _

/-- The fields of a Format X word. -/
theorem fieldsX_wordX (op : BitVec 8) (fn : BitVec 6) (nsp sd : BitVec 1) (f : FmtX) : fieldsX (wordX op fn nsp sd f) = f := by
  rcases f with ⟨acc, ak, sa, bk, sb, fmtA, fmtB, mc, nc, kc, sc, pg, ps, fe⟩
  simp only [fieldsX, wordX, FmtX.mk.injEq]
  refine ⟨?_, ?_, ?_, ?_, ?_, ?_, ?_, ?_, ?_, ?_, ?_, ?_, ?_, ?_⟩
  · iterate 16 refine (field_above _ _ (by decide)).trans ?_
    exact field_low _ _
  · iterate 15 refine (field_above _ _ (by decide)).trans ?_
    exact field_low _ _
  · iterate 14 refine (field_above _ _ (by decide)).trans ?_
    exact field_low _ _
  · iterate 13 refine (field_above _ _ (by decide)).trans ?_
    exact field_low _ _
  · iterate 12 refine (field_above _ _ (by decide)).trans ?_
    exact field_low _ _
  · iterate 11 refine (field_above _ _ (by decide)).trans ?_
    exact field_low _ _
  · iterate 10 refine (field_above _ _ (by decide)).trans ?_
    exact field_low _ _
  · iterate 9 refine (field_above _ _ (by decide)).trans ?_
    exact field_low _ _
  · iterate 8 refine (field_above _ _ (by decide)).trans ?_
    exact field_low _ _
  · iterate 7 refine (field_above _ _ (by decide)).trans ?_
    exact field_low _ _
  · iterate 4 refine (field_above _ _ (by decide)).trans ?_
    exact field_low _ _
  · iterate 3 refine (field_above _ _ (by decide)).trans ?_
    exact field_low _ _
  · iterate 2 refine (field_above _ _ (by decide)).trans ?_
    exact field_low _ _
  · iterate 1 refine (field_above _ _ (by decide)).trans ?_
    exact field_low _ _
theorem opOf_wordX (op : BitVec 8) (fn : BitVec 6) (nsp sd : BitVec 1) (f : FmtX) : opOf (wordX op fn nsp sd f) = op.toNat := by
  refine congrArg BitVec.toNat ?_
  unfold wordX
  iterate 18 refine (field_above _ _ (by decide)).trans ?_
  exact field_all _
theorem fnOf_wordX (op : BitVec 8) (fn : BitVec 6) (nsp sd : BitVec 1) (f : FmtX) : fnOf (wordX op fn nsp sd f) = fn.toNat := by
  refine congrArg BitVec.toNat ?_
  unfold wordX
  iterate 17 refine (field_above _ _ (by decide)).trans ?_
  exact field_low _ _
/-- A fixed field of a Format X word. -/
theorem fixed0_wordX (op : BitVec 8) (fn : BitVec 6) (nsp sd : BitVec 1) (f : FmtX) : (wordX op fn nsp sd f).extractLsb' 0 3 = 0#3 := by
  unfold wordX
  exact field_low _ _
/-- A fixed field of a Format X word. -/
theorem fixed1_wordX (op : BitVec 8) (fn : BitVec 6) (nsp sd : BitVec 1) (f : FmtX) : (wordX op fn nsp sd f).extractLsb' 15 1 = nsp := by
  unfold wordX
  iterate 6 refine (field_above _ _ (by decide)).trans ?_
  exact field_low _ _
/-- A fixed field of a Format X word. -/
theorem fixed2_wordX (op : BitVec 8) (fn : BitVec 6) (nsp sd : BitVec 1) (f : FmtX) : (wordX op fn nsp sd f).extractLsb' 14 1 = sd := by
  unfold wordX
  iterate 5 refine (field_above _ _ (by decide)).trans ?_
  exact field_low _ _

/-- The fields of a Format Y word. -/
theorem fieldsY_wordY (op : BitVec 8) (fn : BitVec 6) (f : FmtY) : fieldsY (wordY op fn f) = f := by
  rcases f with ⟨dst, sa, sb, sc, fe, pg, ps, aop, scope, ord, flg, tmo⟩
  simp only [fieldsY, wordY, FmtY.mk.injEq]
  refine ⟨?_, ?_, ?_, ?_, ?_, ?_, ?_, ?_, ?_, ?_, ?_, ?_⟩
  · iterate 11 refine (field_above _ _ (by decide)).trans ?_
    exact field_low _ _
  · iterate 10 refine (field_above _ _ (by decide)).trans ?_
    exact field_low _ _
  · iterate 9 refine (field_above _ _ (by decide)).trans ?_
    exact field_low _ _
  · iterate 8 refine (field_above _ _ (by decide)).trans ?_
    exact field_low _ _
  · iterate 7 refine (field_above _ _ (by decide)).trans ?_
    exact field_low _ _
  · iterate 6 refine (field_above _ _ (by decide)).trans ?_
    exact field_low _ _
  · iterate 5 refine (field_above _ _ (by decide)).trans ?_
    exact field_low _ _
  · iterate 4 refine (field_above _ _ (by decide)).trans ?_
    exact field_low _ _
  · iterate 3 refine (field_above _ _ (by decide)).trans ?_
    exact field_low _ _
  · iterate 2 refine (field_above _ _ (by decide)).trans ?_
    exact field_low _ _
  · iterate 1 refine (field_above _ _ (by decide)).trans ?_
    exact field_low _ _
  · exact field_low _ _
theorem opOf_wordY (op : BitVec 8) (fn : BitVec 6) (f : FmtY) : opOf (wordY op fn f) = op.toNat := by
  refine congrArg BitVec.toNat ?_
  unfold wordY
  iterate 13 refine (field_above _ _ (by decide)).trans ?_
  exact field_all _
theorem fnOf_wordY (op : BitVec 8) (fn : BitVec 6) (f : FmtY) : fnOf (wordY op fn f) = fn.toNat := by
  refine congrArg BitVec.toNat ?_
  unfold wordY
  iterate 12 refine (field_above _ _ (by decide)).trans ?_
  exact field_low _ _
/-- The fixed bits of a Format I word are as they must be. -/
theorem flawsI (op : BitVec 8) (fn : BitVec 6) (f : FmtI) (h : op = 4 ∨ op = 5 ∨ op = 6 ∨ op = 0 ∧ fn ≠ 0) :
    wordFlaws op.toNat fn.toNat (wordI op fn f) = {} := by
  have hb : (wordI op fn f).getLsbD 32 = false := by
    have := congrArg (fun x => x.getLsbD 0) (fixed0_wordI op fn f)
    simpa using this
  rcases h with rfl | rfl | rfl | ⟨rfl, hf⟩
  iterate 3 · show Flaws.mk _ _ _ = _; rw [hb]
  · have : fn.toNat ≠ 0 := fun h => hf (BitVec.eq_of_toNat_eq h)
    show Flaws.mk (if _ then _ else _) _ _ = _
    rw [if_neg this, hb]

/-- The fixed bits of a Format C word are as they must be. -/
theorem flawsC (fn : BitVec 6) (f : FmtC) : wordFlaws (0x20#8).toNat fn.toNat (wordC 0x20 fn f) = {} := by
  have hb := fixed0_wordC 0x20 fn f
  simp only [wordFlaws, hb]
  rfl

/-- The fixed bits of a Format X word are as they must be. -/
theorem flawsX (op : BitVec 8) (fn : BitVec 6) (nsp sd : BitVec 1) (f : FmtX) (ho : op = 0x40 ∨ op = 0x41)
    (h : nspSd op.toNat fn.toNat = (nsp, sd)) : wordFlaws op.toNat fn.toNat (wordX op fn nsp sd f) = {} := by
  have h0 := fixed0_wordX op fn nsp sd f
  have h1 := fixed1_wordX op fn nsp sd f
  have h2 := fixed2_wordX op fn nsp sd f
  rcases ho with rfl | rfl
  · simp only [wordFlaws, h0, h1, h2]
    rw [h]
    simp
  · simp only [wordFlaws, h0, h1, h2]
    rw [h]
    simp

end Sys2Proof
end

