-- ==== Sys2Proof/Laws/PerInstr.lean ====
section
/-! SUPPORT. The family Placed: the word of an instruction names the instruction's own cell of Table 11 (R88), with every field read
back and every fixed bit as its cell fixes it (R79 to R85); one lemma per constructor. -/

namespace Sys2Proof.Laws.Placed

/-- The word of an instruction, if it has one, names the instruction's own cell and breaks no fixed bit. -/
def Statement (i : Instr) : Prop :=
  i.rowOk = true → ∀ w, encode i = some w → cellOf (opOf w) (fnOf w) w = some i ∧ wordFlaws (opOf w) (fnOf w) w = {}

theorem nop : Statement .nop := by
  intro _ w h
  cases (show some (0 : Word) = some w from h)
  exact ⟨rfl, rfl⟩
theorem trap (f : FmtI) : Statement (.trap f) := by
  intro h w hw
  cases (show some (wordI 0x00 1 f) = some w from hw)
  rw [opOf_wordI, fnOf_wordI]
  exact ⟨congrArg (fun f => some (Instr.trap f)) (fieldsI_wordI ..), flawsI _ _ _ (by decide)⟩
theorem halt (f : FmtI) : Statement (.halt f) := by
  intro h w hw
  cases (show some (wordI 0x00 2 f) = some w from hw)
  rw [opOf_wordI, fnOf_wordI]
  exact ⟨congrArg (fun f => some (Instr.halt f)) (fieldsI_wordI ..), flawsI _ _ _ (by decide)⟩
theorem sysrd (f : FmtI) : Statement (.sysrd f) := by
  intro h w hw
  cases (show some (wordI 0x00 3 f) = some w from hw)
  rw [opOf_wordI, fnOf_wordI]
  exact ⟨congrArg (fun f => some (Instr.sysrd f)) (fieldsI_wordI ..), flawsI _ _ _ (by decide)⟩
theorem add (f : FmtA) : Statement (.add f) := by
  intro h w hw
  cases (show some (wordA 0x01 0 f) = some w from hw)
  rw [opOf_wordA, fnOf_wordA]
  exact ⟨congrArg (fun f => some (Instr.add f)) (fieldsA_wordA ..), rfl⟩
theorem sub (f : FmtA) : Statement (.sub f) := by
  intro h w hw
  cases (show some (wordA 0x01 1 f) = some w from hw)
  rw [opOf_wordA, fnOf_wordA]
  exact ⟨congrArg (fun f => some (Instr.sub f)) (fieldsA_wordA ..), rfl⟩
theorem adds (f : FmtA) : Statement (.adds f) := by
  intro h w hw
  cases (show some (wordA 0x01 2 f) = some w from hw)
  rw [opOf_wordA, fnOf_wordA]
  exact ⟨congrArg (fun f => some (Instr.adds f)) (fieldsA_wordA ..), rfl⟩
theorem subs (f : FmtA) : Statement (.subs f) := by
  intro h w hw
  cases (show some (wordA 0x01 3 f) = some w from hw)
  rw [opOf_wordA, fnOf_wordA]
  exact ⟨congrArg (fun f => some (Instr.subs f)) (fieldsA_wordA ..), rfl⟩
theorem mul (f : FmtA) : Statement (.mul f) := by
  intro h w hw
  cases (show some (wordA 0x01 4 f) = some w from hw)
  rw [opOf_wordA, fnOf_wordA]
  exact ⟨congrArg (fun f => some (Instr.mul f)) (fieldsA_wordA ..), rfl⟩
theorem mulh (f : FmtA) : Statement (.mulh f) := by
  intro h w hw
  cases (show some (wordA 0x01 5 f) = some w from hw)
  rw [opOf_wordA, fnOf_wordA]
  exact ⟨congrArg (fun f => some (Instr.mulh f)) (fieldsA_wordA ..), rfl⟩
theorem mad (f : FmtA) : Statement (.mad f) := by
  intro h w hw
  cases (show some (wordA 0x01 6 f) = some w from hw)
  rw [opOf_wordA, fnOf_wordA]
  exact ⟨congrArg (fun f => some (Instr.mad f)) (fieldsA_wordA ..), rfl⟩
theorem div (f : FmtA) : Statement (.div f) := by
  intro h w hw
  cases (show some (wordA 0x01 7 f) = some w from hw)
  rw [opOf_wordA, fnOf_wordA]
  exact ⟨congrArg (fun f => some (Instr.div f)) (fieldsA_wordA ..), rfl⟩
theorem rem (f : FmtA) : Statement (.rem f) := by
  intro h w hw
  cases (show some (wordA 0x01 8 f) = some w from hw)
  rw [opOf_wordA, fnOf_wordA]
  exact ⟨congrArg (fun f => some (Instr.rem f)) (fieldsA_wordA ..), rfl⟩
theorem neg (f : FmtA) : Statement (.neg f) := by
  intro h w hw
  cases (show some (wordA 0x01 9 f) = some w from hw)
  rw [opOf_wordA, fnOf_wordA]
  exact ⟨congrArg (fun f => some (Instr.neg f)) (fieldsA_wordA ..), rfl⟩
theorem abs (f : FmtA) : Statement (.abs f) := by
  intro h w hw
  cases (show some (wordA 0x01 10 f) = some w from hw)
  rw [opOf_wordA, fnOf_wordA]
  exact ⟨congrArg (fun f => some (Instr.abs f)) (fieldsA_wordA ..), rfl⟩
theorem min (f : FmtA) : Statement (.min f) := by
  intro h w hw
  cases (show some (wordA 0x01 11 f) = some w from hw)
  rw [opOf_wordA, fnOf_wordA]
  exact ⟨congrArg (fun f => some (Instr.min f)) (fieldsA_wordA ..), rfl⟩
theorem max (f : FmtA) : Statement (.max f) := by
  intro h w hw
  cases (show some (wordA 0x01 12 f) = some w from hw)
  rw [opOf_wordA, fnOf_wordA]
  exact ⟨congrArg (fun f => some (Instr.max f)) (fieldsA_wordA ..), rfl⟩
theorem addImm (f : FmtI) : Statement (.addImm f) := by
  intro h w hw
  cases (show some (wordI 0x05 0 f) = some w from hw)
  rw [opOf_wordI, fnOf_wordI]
  exact ⟨congrArg (fun f => some (Instr.addImm f)) (fieldsI_wordI ..), flawsI _ _ _ (by decide)⟩
theorem subImm (f : FmtI) : Statement (.subImm f) := by
  intro h w hw
  cases (show some (wordI 0x05 1 f) = some w from hw)
  rw [opOf_wordI, fnOf_wordI]
  exact ⟨congrArg (fun f => some (Instr.subImm f)) (fieldsI_wordI ..), flawsI _ _ _ (by decide)⟩
theorem mulImm (f : FmtI) : Statement (.mulImm f) := by
  intro h w hw
  cases (show some (wordI 0x05 4 f) = some w from hw)
  rw [opOf_wordI, fnOf_wordI]
  exact ⟨congrArg (fun f => some (Instr.mulImm f)) (fieldsI_wordI ..), flawsI _ _ _ (by decide)⟩
theorem minImm (f : FmtI) : Statement (.minImm f) := by
  intro h w hw
  cases (show some (wordI 0x05 11 f) = some w from hw)
  rw [opOf_wordI, fnOf_wordI]
  exact ⟨congrArg (fun f => some (Instr.minImm f)) (fieldsI_wordI ..), flawsI _ _ _ (by decide)⟩
theorem maxImm (f : FmtI) : Statement (.maxImm f) := by
  intro h w hw
  cases (show some (wordI 0x05 12 f) = some w from hw)
  rw [opOf_wordI, fnOf_wordI]
  exact ⟨congrArg (fun f => some (Instr.maxImm f)) (fieldsI_wordI ..), flawsI _ _ _ (by decide)⟩
theorem and (f : FmtA) : Statement (.and f) := by
  intro h w hw
  cases (show some (wordA 0x02 0 f) = some w from hw)
  rw [opOf_wordA, fnOf_wordA]
  exact ⟨congrArg (fun f => some (Instr.and f)) (fieldsA_wordA ..), rfl⟩
theorem or (f : FmtA) : Statement (.or f) := by
  intro h w hw
  cases (show some (wordA 0x02 1 f) = some w from hw)
  rw [opOf_wordA, fnOf_wordA]
  exact ⟨congrArg (fun f => some (Instr.or f)) (fieldsA_wordA ..), rfl⟩
theorem xor (f : FmtA) : Statement (.xor f) := by
  intro h w hw
  cases (show some (wordA 0x02 2 f) = some w from hw)
  rw [opOf_wordA, fnOf_wordA]
  exact ⟨congrArg (fun f => some (Instr.xor f)) (fieldsA_wordA ..), rfl⟩
theorem not (f : FmtA) : Statement (.not f) := by
  intro h w hw
  cases (show some (wordA 0x02 3 f) = some w from hw)
  rw [opOf_wordA, fnOf_wordA]
  exact ⟨congrArg (fun f => some (Instr.not f)) (fieldsA_wordA ..), rfl⟩
theorem andn (f : FmtA) : Statement (.andn f) := by
  intro h w hw
  cases (show some (wordA 0x02 4 f) = some w from hw)
  rw [opOf_wordA, fnOf_wordA]
  exact ⟨congrArg (fun f => some (Instr.andn f)) (fieldsA_wordA ..), rfl⟩
theorem shl (f : FmtA) : Statement (.shl f) := by
  intro h w hw
  cases (show some (wordA 0x02 5 f) = some w from hw)
  rw [opOf_wordA, fnOf_wordA]
  exact ⟨congrArg (fun f => some (Instr.shl f)) (fieldsA_wordA ..), rfl⟩
theorem shr (f : FmtA) : Statement (.shr f) := by
  intro h w hw
  cases (show some (wordA 0x02 6 f) = some w from hw)
  rw [opOf_wordA, fnOf_wordA]
  exact ⟨congrArg (fun f => some (Instr.shr f)) (fieldsA_wordA ..), rfl⟩
theorem sha (f : FmtA) : Statement (.sha f) := by
  intro h w hw
  cases (show some (wordA 0x02 7 f) = some w from hw)
  rw [opOf_wordA, fnOf_wordA]
  exact ⟨congrArg (fun f => some (Instr.sha f)) (fieldsA_wordA ..), rfl⟩
theorem rot (f : FmtA) : Statement (.rot f) := by
  intro h w hw
  cases (show some (wordA 0x02 8 f) = some w from hw)
  rw [opOf_wordA, fnOf_wordA]
  exact ⟨congrArg (fun f => some (Instr.rot f)) (fieldsA_wordA ..), rfl⟩
theorem clz (f : FmtA) : Statement (.clz f) := by
  intro h w hw
  cases (show some (wordA 0x02 9 f) = some w from hw)
  rw [opOf_wordA, fnOf_wordA]
  exact ⟨congrArg (fun f => some (Instr.clz f)) (fieldsA_wordA ..), rfl⟩
theorem popc (f : FmtA) : Statement (.popc f) := by
  intro h w hw
  cases (show some (wordA 0x02 10 f) = some w from hw)
  rw [opOf_wordA, fnOf_wordA]
  exact ⟨congrArg (fun f => some (Instr.popc f)) (fieldsA_wordA ..), rfl⟩
theorem brev (f : FmtA) : Statement (.brev f) := by
  intro h w hw
  cases (show some (wordA 0x02 11 f) = some w from hw)
  rw [opOf_wordA, fnOf_wordA]
  exact ⟨congrArg (fun f => some (Instr.brev f)) (fieldsA_wordA ..), rfl⟩
theorem bext (f : FmtA) : Statement (.bext f) := by
  intro h w hw
  cases (show some (wordA 0x02 12 f) = some w from hw)
  rw [opOf_wordA, fnOf_wordA]
  exact ⟨congrArg (fun f => some (Instr.bext f)) (fieldsA_wordA ..), rfl⟩
theorem bins (f : FmtA) : Statement (.bins f) := by
  intro h w hw
  cases (show some (wordA 0x02 13 f) = some w from hw)
  rw [opOf_wordA, fnOf_wordA]
  exact ⟨congrArg (fun f => some (Instr.bins f)) (fieldsA_wordA ..), rfl⟩
theorem andImm (f : FmtI) : Statement (.andImm f) := by
  intro h w hw
  cases (show some (wordI 0x06 0 f) = some w from hw)
  rw [opOf_wordI, fnOf_wordI]
  exact ⟨congrArg (fun f => some (Instr.andImm f)) (fieldsI_wordI ..), flawsI _ _ _ (by decide)⟩
theorem orImm (f : FmtI) : Statement (.orImm f) := by
  intro h w hw
  cases (show some (wordI 0x06 1 f) = some w from hw)
  rw [opOf_wordI, fnOf_wordI]
  exact ⟨congrArg (fun f => some (Instr.orImm f)) (fieldsI_wordI ..), flawsI _ _ _ (by decide)⟩
theorem xorImm (f : FmtI) : Statement (.xorImm f) := by
  intro h w hw
  cases (show some (wordI 0x06 2 f) = some w from hw)
  rw [opOf_wordI, fnOf_wordI]
  exact ⟨congrArg (fun f => some (Instr.xorImm f)) (fieldsI_wordI ..), flawsI _ _ _ (by decide)⟩
theorem andnImm (f : FmtI) : Statement (.andnImm f) := by
  intro h w hw
  cases (show some (wordI 0x06 4 f) = some w from hw)
  rw [opOf_wordI, fnOf_wordI]
  exact ⟨congrArg (fun f => some (Instr.andnImm f)) (fieldsI_wordI ..), flawsI _ _ _ (by decide)⟩
theorem shlImm (f : FmtI) : Statement (.shlImm f) := by
  intro h w hw
  cases (show some (wordI 0x06 5 f) = some w from hw)
  rw [opOf_wordI, fnOf_wordI]
  exact ⟨congrArg (fun f => some (Instr.shlImm f)) (fieldsI_wordI ..), flawsI _ _ _ (by decide)⟩
theorem shrImm (f : FmtI) : Statement (.shrImm f) := by
  intro h w hw
  cases (show some (wordI 0x06 6 f) = some w from hw)
  rw [opOf_wordI, fnOf_wordI]
  exact ⟨congrArg (fun f => some (Instr.shrImm f)) (fieldsI_wordI ..), flawsI _ _ _ (by decide)⟩
theorem shaImm (f : FmtI) : Statement (.shaImm f) := by
  intro h w hw
  cases (show some (wordI 0x06 7 f) = some w from hw)
  rw [opOf_wordI, fnOf_wordI]
  exact ⟨congrArg (fun f => some (Instr.shaImm f)) (fieldsI_wordI ..), flawsI _ _ _ (by decide)⟩
theorem rotImm (f : FmtI) : Statement (.rotImm f) := by
  intro h w hw
  cases (show some (wordI 0x06 8 f) = some w from hw)
  rw [opOf_wordI, fnOf_wordI]
  exact ⟨congrArg (fun f => some (Instr.rotImm f)) (fieldsI_wordI ..), flawsI _ _ _ (by decide)⟩
theorem cmp (f : FmtA) : Statement (.cmp f) := by
  intro h w hw
  cases (show some (wordA 0x03 0 f) = some w from hw)
  rw [opOf_wordA, fnOf_wordA]
  exact ⟨congrArg (fun f => some (Instr.cmp f)) (fieldsA_wordA ..), rfl⟩
theorem sel (f : FmtA) : Statement (.sel f) := by
  intro h w hw
  cases (show some (wordA 0x03 1 f) = some w from hw)
  rw [opOf_wordA, fnOf_wordA]
  exact ⟨congrArg (fun f => some (Instr.sel f)) (fieldsA_wordA ..), rfl⟩
theorem mov (f : FmtA) : Statement (.mov f) := by
  intro h w hw
  cases (show some (wordA 0x03 2 f) = some w from hw)
  rw [opOf_wordA, fnOf_wordA]
  have hf := fieldsA_wordA 0x03 2 f
  refine ⟨?_, rfl⟩
  show some (if Spec.isX (fieldsA (wordA 0x03 2 f)).dst && Spec.isV (fieldsA (wordA 0x03 2 f)).sa then .movLane (fieldsA (wordA 0x03 2 f)) else .mov (fieldsA (wordA 0x03 2 f)) : Instr) = _
  rw [hf]
  simp_all [Instr.rowOk]
  rcases h with h | h <;> simp [h]
theorem movLane (f : FmtA) : Statement (.movLane f) := by
  intro h w hw
  cases (show some (wordA 0x03 2 f) = some w from hw)
  rw [opOf_wordA, fnOf_wordA]
  have hf := fieldsA_wordA 0x03 2 f
  refine ⟨?_, rfl⟩
  show some (if Spec.isX (fieldsA (wordA 0x03 2 f)).dst && Spec.isV (fieldsA (wordA 0x03 2 f)).sa then .movLane (fieldsA (wordA 0x03 2 f)) else .mov (fieldsA (wordA 0x03 2 f)) : Instr) = _
  rw [hf]
  simp_all [Instr.rowOk]
theorem movid (f : FmtA) : Statement (.movid f) := by
  intro h w hw
  cases (show some (wordA 0x03 3 f) = some w from hw)
  rw [opOf_wordA, fnOf_wordA]
  exact ⟨congrArg (fun f => some (Instr.movid f)) (fieldsA_wordA ..), rfl⟩
theorem lea (f : FmtA) : Statement (.lea f) := by
  intro h w hw
  cases (show some (wordA 0x03 4 f) = some w from hw)
  rw [opOf_wordA, fnOf_wordA]
  exact ⟨congrArg (fun f => some (Instr.lea f)) (fieldsA_wordA ..), rfl⟩
theorem movi (f : FmtI) : Statement (.movi f) := by
  intro h w hw
  cases (show some (wordI 0x04 0 f) = some w from hw)
  rw [opOf_wordI, fnOf_wordI]
  exact ⟨congrArg (fun f => some (Instr.movi f)) (fieldsI_wordI ..), flawsI _ _ _ (by decide)⟩
theorem movhi (f : FmtI) : Statement (.movhi f) := by
  intro h w hw
  cases (show some (wordI 0x04 1 f) = some w from hw)
  rw [opOf_wordI, fnOf_wordI]
  exact ⟨congrArg (fun f => some (Instr.movhi f)) (fieldsI_wordI ..), flawsI _ _ _ (by decide)⟩
theorem pfx (f : FmtA) : Statement (.pfx f) := by
  intro h w hw
  cases (show some (wordA 0x08 0 f) = some w from hw)
  rw [opOf_wordA, fnOf_wordA]
  exact ⟨congrArg (fun f => some (Instr.pfx f)) (fieldsA_wordA ..), rfl⟩
theorem lnred (f : FmtA) : Statement (.lnred f) := by
  intro h w hw
  cases (show some (wordA 0x08 1 f) = some w from hw)
  rw [opOf_wordA, fnOf_wordA]
  exact ⟨congrArg (fun f => some (Instr.lnred f)) (fieldsA_wordA ..), rfl⟩
theorem bcast (f : FmtA) : Statement (.bcast f) := by
  intro h w hw
  cases (show some (wordA 0x08 2 f) = some w from hw)
  rw [opOf_wordA, fnOf_wordA]
  exact ⟨congrArg (fun f => some (Instr.bcast f)) (fieldsA_wordA ..), rfl⟩
theorem shuf (f : FmtA) : Statement (.shuf f) := by
  intro h w hw
  cases (show some (wordA 0x08 3 f) = some w from hw)
  rw [opOf_wordA, fnOf_wordA]
  exact ⟨congrArg (fun f => some (Instr.shuf f)) (fieldsA_wordA ..), rfl⟩
theorem compact (f : FmtA) : Statement (.compact f) := by
  intro h w hw
  cases (show some (wordA 0x08 4 f) = some w from hw)
  rw [opOf_wordA, fnOf_wordA]
  exact ⟨congrArg (fun f => some (Instr.compact f)) (fieldsA_wordA ..), rfl⟩
theorem expand (f : FmtA) : Statement (.expand f) := by
  intro h w hw
  cases (show some (wordA 0x08 5 f) = some w from hw)
  rw [opOf_wordA, fnOf_wordA]
  exact ⟨congrArg (fun f => some (Instr.expand f)) (fieldsA_wordA ..), rfl⟩
theorem pand (f : FmtA) : Statement (.pand f) := by
  intro h w hw
  cases (show some (wordA 0x09 0 f) = some w from hw)
  rw [opOf_wordA, fnOf_wordA]
  exact ⟨congrArg (fun f => some (Instr.pand f)) (fieldsA_wordA ..), rfl⟩
theorem por (f : FmtA) : Statement (.por f) := by
  intro h w hw
  cases (show some (wordA 0x09 1 f) = some w from hw)
  rw [opOf_wordA, fnOf_wordA]
  exact ⟨congrArg (fun f => some (Instr.por f)) (fieldsA_wordA ..), rfl⟩
theorem pxor (f : FmtA) : Statement (.pxor f) := by
  intro h w hw
  cases (show some (wordA 0x09 2 f) = some w from hw)
  rw [opOf_wordA, fnOf_wordA]
  exact ⟨congrArg (fun f => some (Instr.pxor f)) (fieldsA_wordA ..), rfl⟩
theorem pnot (f : FmtA) : Statement (.pnot f) := by
  intro h w hw
  cases (show some (wordA 0x09 3 f) = some w from hw)
  rw [opOf_wordA, fnOf_wordA]
  exact ⟨congrArg (fun f => some (Instr.pnot f)) (fieldsA_wordA ..), rfl⟩
theorem pcnt (f : FmtA) : Statement (.pcnt f) := by
  intro h w hw
  cases (show some (wordA 0x09 4 f) = some w from hw)
  rw [opOf_wordA, fnOf_wordA]
  exact ⟨congrArg (fun f => some (Instr.pcnt f)) (fieldsA_wordA ..), rfl⟩
theorem fadd (f : FmtA) : Statement (.fadd f) := by
  intro h w hw
  cases (show some (wordA 0x10 0 f) = some w from hw)
  rw [opOf_wordA, fnOf_wordA]
  exact ⟨congrArg (fun f => some (Instr.fadd f)) (fieldsA_wordA ..), rfl⟩
theorem fsub (f : FmtA) : Statement (.fsub f) := by
  intro h w hw
  cases (show some (wordA 0x10 1 f) = some w from hw)
  rw [opOf_wordA, fnOf_wordA]
  exact ⟨congrArg (fun f => some (Instr.fsub f)) (fieldsA_wordA ..), rfl⟩
theorem fmul (f : FmtA) : Statement (.fmul f) := by
  intro h w hw
  cases (show some (wordA 0x10 2 f) = some w from hw)
  rw [opOf_wordA, fnOf_wordA]
  exact ⟨congrArg (fun f => some (Instr.fmul f)) (fieldsA_wordA ..), rfl⟩
theorem fma (f : FmtA) : Statement (.fma f) := by
  intro h w hw
  cases (show some (wordA 0x10 3 f) = some w from hw)
  rw [opOf_wordA, fnOf_wordA]
  exact ⟨congrArg (fun f => some (Instr.fma f)) (fieldsA_wordA ..), rfl⟩
theorem fms (f : FmtA) : Statement (.fms f) := by
  intro h w hw
  cases (show some (wordA 0x10 4 f) = some w from hw)
  rw [opOf_wordA, fnOf_wordA]
  exact ⟨congrArg (fun f => some (Instr.fms f)) (fieldsA_wordA ..), rfl⟩
theorem fnma (f : FmtA) : Statement (.fnma f) := by
  intro h w hw
  cases (show some (wordA 0x10 5 f) = some w from hw)
  rw [opOf_wordA, fnOf_wordA]
  exact ⟨congrArg (fun f => some (Instr.fnma f)) (fieldsA_wordA ..), rfl⟩
theorem fdiv (f : FmtA) : Statement (.fdiv f) := by
  intro h w hw
  cases (show some (wordA 0x10 6 f) = some w from hw)
  rw [opOf_wordA, fnOf_wordA]
  exact ⟨congrArg (fun f => some (Instr.fdiv f)) (fieldsA_wordA ..), rfl⟩
theorem fsqrt (f : FmtA) : Statement (.fsqrt f) := by
  intro h w hw
  cases (show some (wordA 0x10 7 f) = some w from hw)
  rw [opOf_wordA, fnOf_wordA]
  exact ⟨congrArg (fun f => some (Instr.fsqrt f)) (fieldsA_wordA ..), rfl⟩
theorem frcp (f : FmtA) : Statement (.frcp f) := by
  intro h w hw
  cases (show some (wordA 0x10 8 f) = some w from hw)
  rw [opOf_wordA, fnOf_wordA]
  exact ⟨congrArg (fun f => some (Instr.frcp f)) (fieldsA_wordA ..), rfl⟩
theorem frsq (f : FmtA) : Statement (.frsq f) := by
  intro h w hw
  cases (show some (wordA 0x10 9 f) = some w from hw)
  rw [opOf_wordA, fnOf_wordA]
  exact ⟨congrArg (fun f => some (Instr.frsq f)) (fieldsA_wordA ..), rfl⟩
theorem fmin (f : FmtA) : Statement (.fmin f) := by
  intro h w hw
  cases (show some (wordA 0x10 10 f) = some w from hw)
  rw [opOf_wordA, fnOf_wordA]
  exact ⟨congrArg (fun f => some (Instr.fmin f)) (fieldsA_wordA ..), rfl⟩
theorem fmax (f : FmtA) : Statement (.fmax f) := by
  intro h w hw
  cases (show some (wordA 0x10 11 f) = some w from hw)
  rw [opOf_wordA, fnOf_wordA]
  exact ⟨congrArg (fun f => some (Instr.fmax f)) (fieldsA_wordA ..), rfl⟩
theorem fabs (f : FmtA) : Statement (.fabs f) := by
  intro h w hw
  cases (show some (wordA 0x10 12 f) = some w from hw)
  rw [opOf_wordA, fnOf_wordA]
  exact ⟨congrArg (fun f => some (Instr.fabs f)) (fieldsA_wordA ..), rfl⟩
theorem fneg (f : FmtA) : Statement (.fneg f) := by
  intro h w hw
  cases (show some (wordA 0x10 13 f) = some w from hw)
  rw [opOf_wordA, fnOf_wordA]
  exact ⟨congrArg (fun f => some (Instr.fneg f)) (fieldsA_wordA ..), rfl⟩
theorem fcmp (f : FmtA) : Statement (.fcmp f) := by
  intro h w hw
  cases (show some (wordA 0x10 14 f) = some w from hw)
  rw [opOf_wordA, fnOf_wordA]
  exact ⟨congrArg (fun f => some (Instr.fcmp f)) (fieldsA_wordA ..), rfl⟩
theorem fclass (f : FmtA) : Statement (.fclass f) := by
  intro h w hw
  cases (show some (wordA 0x10 15 f) = some w from hw)
  rw [opOf_wordA, fnOf_wordA]
  exact ⟨congrArg (fun f => some (Instr.fclass f)) (fieldsA_wordA ..), rfl⟩
theorem frint (f : FmtA) : Statement (.frint f) := by
  intro h w hw
  cases (show some (wordA 0x10 16 f) = some w from hw)
  rw [opOf_wordA, fnOf_wordA]
  exact ⟨congrArg (fun f => some (Instr.frint f)) (fieldsA_wordA ..), rfl⟩
theorem fgetexp (f : FmtA) : Statement (.fgetexp f) := by
  intro h w hw
  cases (show some (wordA 0x10 17 f) = some w from hw)
  rw [opOf_wordA, fnOf_wordA]
  exact ⟨congrArg (fun f => some (Instr.fgetexp f)) (fieldsA_wordA ..), rfl⟩
theorem fexp2f (f : FmtA) : Statement (.fexp2f f) := by
  intro h w hw
  cases (show some (wordA 0x10 18 f) = some w from hw)
  rw [opOf_wordA, fnOf_wordA]
  exact ⟨congrArg (fun f => some (Instr.fexp2f f)) (fieldsA_wordA ..), rfl⟩
theorem fexpins (f : FmtA) : Statement (.fexpins f) := by
  intro h w hw
  cases (show some (wordA 0x10 19 f) = some w from hw)
  rw [opOf_wordA, fnOf_wordA]
  exact ⟨congrArg (fun f => some (Instr.fexpins f)) (fieldsA_wordA ..), rfl⟩
theorem fcvt (f : FmtA) : Statement (.fcvt f) := by
  intro h w hw
  cases (show some (wordA 0x11 0 f) = some w from hw)
  rw [opOf_wordA, fnOf_wordA]
  have hf := fieldsA_wordA 0x11 0 f
  refine ⟨?_, rfl⟩
  show some (if (fieldsA (wordA 0x11 0 f)).mod.getLsbD 9 then .fcvtFrom (fieldsA (wordA 0x11 0 f)) else .fcvt (fieldsA (wordA 0x11 0 f)) : Instr) = _
  rw [hf]
  simp_all [Instr.rowOk]
theorem fcvtFrom (f : FmtA) : Statement (.fcvtFrom f) := by
  intro h w hw
  cases (show some (wordA 0x11 0 f) = some w from hw)
  rw [opOf_wordA, fnOf_wordA]
  have hf := fieldsA_wordA 0x11 0 f
  refine ⟨?_, rfl⟩
  show some (if (fieldsA (wordA 0x11 0 f)).mod.getLsbD 9 then .fcvtFrom (fieldsA (wordA 0x11 0 f)) else .fcvt (fieldsA (wordA 0x11 0 f)) : Instr) = _
  rw [hf]
  simp_all [Instr.rowOk]
theorem ftoi (f : FmtA) : Statement (.ftoi f) := by
  intro h w hw
  cases (show some (wordA 0x11 1 f) = some w from hw)
  rw [opOf_wordA, fnOf_wordA]
  exact ⟨congrArg (fun f => some (Instr.ftoi f)) (fieldsA_wordA ..), rfl⟩
theorem itof (f : FmtA) : Statement (.itof f) := by
  intro h w hw
  cases (show some (wordA 0x11 2 f) = some w from hw)
  rw [opOf_wordA, fnOf_wordA]
  exact ⟨congrArg (fun f => some (Instr.itof f)) (fieldsA_wordA ..), rfl⟩
theorem fpack (f : FmtA) : Statement (.fpack f) := by
  intro h w hw
  cases (show some (wordA 0x11 3 f) = some w from hw)
  rw [opOf_wordA, fnOf_wordA]
  exact ⟨congrArg (fun f => some (Instr.fpack f)) (fieldsA_wordA ..), rfl⟩
theorem funpack (f : FmtA) : Statement (.funpack f) := by
  intro h w hw
  cases (show some (wordA 0x11 4 f) = some w from hw)
  rw [opOf_wordA, fnOf_wordA]
  exact ⟨congrArg (fun f => some (Instr.funpack f)) (fieldsA_wordA ..), rfl⟩
theorem emit (f : FmtC) : Statement (.emit f) := by
  intro h w hw
  cases (show some (wordC 0x20 0 f) = some w from hw)
  rw [opOf_wordC, fnOf_wordC]
  exact ⟨congrArg (fun f => some (Instr.emit f)) (fieldsC_wordC ..), flawsC ..⟩
theorem route (f : FmtC) : Statement (.route f) := by
  intro h w hw
  cases (show some (wordC 0x20 1 f) = some w from hw)
  rw [opOf_wordC, fnOf_wordC]
  exact ⟨congrArg (fun f => some (Instr.route f)) (fieldsC_wordC ..), flawsC ..⟩
theorem split (f : FmtC) : Statement (.split f) := by
  intro h w hw
  cases (show some (wordC 0x20 2 f) = some w from hw)
  rw [opOf_wordC, fnOf_wordC]
  exact ⟨congrArg (fun f => some (Instr.split f)) (fieldsC_wordC ..), flawsC ..⟩
theorem merge (f : FmtC) : Statement (.merge f) := by
  intro h w hw
  cases (show some (wordC 0x20 3 f) = some w from hw)
  rw [opOf_wordC, fnOf_wordC]
  exact ⟨congrArg (fun f => some (Instr.merge f)) (fieldsC_wordC ..), flawsC ..⟩
theorem recirc (f : FmtC) : Statement (.recirc f) := by
  intro h w hw
  cases (show some (wordC 0x20 4 f) = some w from hw)
  rw [opOf_wordC, fnOf_wordC]
  exact ⟨congrArg (fun f => some (Instr.recirc f)) (fieldsC_wordC ..), flawsC ..⟩
theorem accept (f : FmtC) : Statement (.accept f) := by
  intro h w hw
  cases (show some (wordC 0x20 5 f) = some w from hw)
  rw [opOf_wordC, fnOf_wordC]
  exact ⟨congrArg (fun f => some (Instr.accept f)) (fieldsC_wordC ..), flawsC ..⟩
theorem drop (f : FmtC) : Statement (.drop f) := by
  intro h w hw
  cases (show some (wordC 0x20 6 f) = some w from hw)
  rw [opOf_wordC, fnOf_wordC]
  exact ⟨congrArg (fun f => some (Instr.drop f)) (fieldsC_wordC ..), flawsC ..⟩
theorem hold (f : FmtC) : Statement (.hold f) := by
  intro h w hw
  cases (show some (wordC 0x20 7 f) = some w from hw)
  rw [opOf_wordC, fnOf_wordC]
  exact ⟨congrArg (fun f => some (Instr.hold f)) (fieldsC_wordC ..), flawsC ..⟩
theorem newb (f : FmtC) : Statement (.newb f) := by
  intro h w hw
  cases (show some (wordC 0x20 8 f) = some w from hw)
  rw [opOf_wordC, fnOf_wordC]
  exact ⟨congrArg (fun f => some (Instr.newb f)) (fieldsC_wordC ..), flawsC ..⟩
theorem endb (f : FmtC) : Statement (.endb f) := by
  intro h w hw
  cases (show some (wordC 0x20 9 f) = some w from hw)
  rw [opOf_wordC, fnOf_wordC]
  exact ⟨congrArg (fun f => some (Instr.endb f)) (fieldsC_wordC ..), flawsC ..⟩
theorem tok (f : FmtC) : Statement (.tok f) := by
  intro h w hw
  cases (show some (wordC 0x20 10 f) = some w from hw)
  rw [opOf_wordC, fnOf_wordC]
  exact ⟨congrArg (fun f => some (Instr.tok f)) (fieldsC_wordC ..), flawsC ..⟩
theorem bari (f : FmtC) : Statement (.bari f) := by
  intro h w hw
  cases (show some (wordC 0x20 11 f) = some w from hw)
  rw [opOf_wordC, fnOf_wordC]
  exact ⟨congrArg (fun f => some (Instr.bari f)) (fieldsC_wordC ..), flawsC ..⟩
theorem swi (f : FmtC) : Statement (.swi f) := by
  intro h w hw
  cases (show some (wordC 0x20 12 f) = some w from hw)
  rw [opOf_wordC, fnOf_wordC]
  exact ⟨congrArg (fun f => some (Instr.swi f)) (fieldsC_wordC ..), flawsC ..⟩
theorem ld (f : FmtM) : Statement (.ld f) := by
  intro h w hw
  cases (show some (wordM 0x30 0 f) = some w from hw)
  rw [opOf_wordM, fnOf_wordM]
  exact ⟨congrArg (fun f => some (Instr.ld f)) (fieldsM_wordM ..), rfl⟩
theorem st (f : FmtM) : Statement (.st f) := by
  intro h w hw
  cases (show some (wordM 0x30 1 f) = some w from hw)
  rw [opOf_wordM, fnOf_wordM]
  exact ⟨congrArg (fun f => some (Instr.st f)) (fieldsM_wordM ..), rfl⟩
theorem ldv (f : FmtM) : Statement (.ldv f) := by
  intro h w hw
  cases (show some (wordM 0x30 2 f) = some w from hw)
  rw [opOf_wordM, fnOf_wordM]
  exact ⟨congrArg (fun f => some (Instr.ldv f)) (fieldsM_wordM ..), rfl⟩
theorem stv (f : FmtM) : Statement (.stv f) := by
  intro h w hw
  cases (show some (wordM 0x30 3 f) = some w from hw)
  rw [opOf_wordM, fnOf_wordM]
  exact ⟨congrArg (fun f => some (Instr.stv f)) (fieldsM_wordM ..), rfl⟩
theorem pld (f : FmtM) : Statement (.pld f) := by
  intro h w hw
  cases (show some (wordM 0x30 4 f) = some w from hw)
  rw [opOf_wordM, fnOf_wordM]
  exact ⟨congrArg (fun f => some (Instr.pld f)) (fieldsM_wordM ..), rfl⟩
theorem pst (f : FmtM) : Statement (.pst f) := by
  intro h w hw
  cases (show some (wordM 0x30 5 f) = some w from hw)
  rw [opOf_wordM, fnOf_wordM]
  exact ⟨congrArg (fun f => some (Instr.pst f)) (fieldsM_wordM ..), rfl⟩
theorem pclear (f : FmtM) : Statement (.pclear f) := by
  intro h w hw
  cases (show some (wordM 0x30 6 f) = some w from hw)
  rw [opOf_wordM, fnOf_wordM]
  exact ⟨congrArg (fun f => some (Instr.pclear f)) (fieldsM_wordM ..), rfl⟩
theorem sld (f : FmtM) : Statement (.sld f) := by
  intro h w hw
  cases (show some (wordM 0x30 7 f) = some w from hw)
  rw [opOf_wordM, fnOf_wordM]
  exact ⟨congrArg (fun f => some (Instr.sld f)) (fieldsM_wordM ..), rfl⟩
theorem sst (f : FmtM) : Statement (.sst f) := by
  intro h w hw
  cases (show some (wordM 0x30 8 f) = some w from hw)
  rw [opOf_wordM, fnOf_wordM]
  exact ⟨congrArg (fun f => some (Instr.sst f)) (fieldsM_wordM ..), rfl⟩
theorem pfetch (f : FmtM) : Statement (.pfetch f) := by
  intro h w hw
  cases (show some (wordM 0x30 9 f) = some w from hw)
  rw [opOf_wordM, fnOf_wordM]
  exact ⟨congrArg (fun f => some (Instr.pfetch f)) (fieldsM_wordM ..), rfl⟩
theorem fence (f : FmtM) : Statement (.fence f) := by
  intro h w hw
  cases (show some (wordM 0x30 10 f) = some w from hw)
  rw [opOf_wordM, fnOf_wordM]
  exact ⟨congrArg (fun f => some (Instr.fence f)) (fieldsM_wordM ..), rfl⟩
theorem tfence (f : FmtM) : Statement (.tfence f) := by
  intro h w hw
  cases (show some (wordM 0x30 11 f) = some w from hw)
  rw [opOf_wordM, fnOf_wordM]
  exact ⟨congrArg (fun f => some (Instr.tfence f)) (fieldsM_wordM ..), rfl⟩
theorem atom (f : FmtY) : Statement (.atom f) := by
  intro h w hw
  cases (show some (wordY 0x38 0 f) = some w from hw)
  rw [opOf_wordY, fnOf_wordY]
  have hf := fieldsY_wordY 0x38 0 f
  refine ⟨?_, rfl⟩
  show some (if (fieldsY (wordY 0x38 0 f)).flg.getLsbD 3 then .atomTree (fieldsY (wordY 0x38 0 f)) else .atom (fieldsY (wordY 0x38 0 f)) : Instr) = _
  rw [hf]
  simp_all [Instr.rowOk]
theorem atomTree (f : FmtY) : Statement (.atomTree f) := by
  intro h w hw
  cases (show some (wordY 0x38 0 f) = some w from hw)
  rw [opOf_wordY, fnOf_wordY]
  have hf := fieldsY_wordY 0x38 0 f
  refine ⟨?_, rfl⟩
  show some (if (fieldsY (wordY 0x38 0 f)).flg.getLsbD 3 then .atomTree (fieldsY (wordY 0x38 0 f)) else .atom (fieldsY (wordY 0x38 0 f)) : Instr) = _
  rw [hf]
  simp_all [Instr.rowOk]
theorem wait (f : FmtY) : Statement (.wait f) := by
  intro h w hw
  cases (show some (wordY 0x38 1 f) = some w from hw)
  rw [opOf_wordY, fnOf_wordY]
  exact ⟨congrArg (fun f => some (Instr.wait f)) (fieldsY_wordY ..), rfl⟩
theorem hbarArrive (f : FmtY) : Statement (.hbarArrive f) := by
  intro h w hw
  cases (show some (wordY 0x38 2 f) = some w from hw)
  rw [opOf_wordY, fnOf_wordY]
  have hf := fieldsY_wordY 0x38 2 f
  refine ⟨?_, rfl⟩
  show some (if (fieldsY (wordY 0x38 2 f)).aop == 1 then .hbarWait (fieldsY (wordY 0x38 2 f)) else if (fieldsY (wordY 0x38 2 f)).aop == 2 then .hbarAw (fieldsY (wordY 0x38 2 f)) else .hbarArrive (fieldsY (wordY 0x38 2 f)) : Instr) = _
  rw [hf]
  simp_all [Instr.rowOk]
theorem hbarWait (f : FmtY) : Statement (.hbarWait f) := by
  intro h w hw
  cases (show some (wordY 0x38 2 f) = some w from hw)
  rw [opOf_wordY, fnOf_wordY]
  have hf := fieldsY_wordY 0x38 2 f
  refine ⟨?_, rfl⟩
  show some (if (fieldsY (wordY 0x38 2 f)).aop == 1 then .hbarWait (fieldsY (wordY 0x38 2 f)) else if (fieldsY (wordY 0x38 2 f)).aop == 2 then .hbarAw (fieldsY (wordY 0x38 2 f)) else .hbarArrive (fieldsY (wordY 0x38 2 f)) : Instr) = _
  rw [hf]
  simp_all [Instr.rowOk]
theorem hbarAw (f : FmtY) : Statement (.hbarAw f) := by
  intro h w hw
  cases (show some (wordY 0x38 2 f) = some w from hw)
  rw [opOf_wordY, fnOf_wordY]
  have hf := fieldsY_wordY 0x38 2 f
  refine ⟨?_, rfl⟩
  show some (if (fieldsY (wordY 0x38 2 f)).aop == 1 then .hbarWait (fieldsY (wordY 0x38 2 f)) else if (fieldsY (wordY 0x38 2 f)).aop == 2 then .hbarAw (fieldsY (wordY 0x38 2 f)) else .hbarArrive (fieldsY (wordY 0x38 2 f)) : Instr) = _
  rw [hf]
  simp_all [Instr.rowOk]
theorem bsync (f : FmtY) : Statement (.bsync f) := by
  intro h w hw
  cases (show some (wordY 0x38 3 f) = some w from hw)
  rw [opOf_wordY, fnOf_wordY]
  exact ⟨congrArg (fun f => some (Instr.bsync f)) (fieldsY_wordY ..), rfl⟩
theorem cntrEv (f : FmtY) : Statement (.cntrEv f) := by
  intro h w hw
  cases (show some (wordY 0x38 4 f) = some w from hw)
  rw [opOf_wordY, fnOf_wordY]
  have hf := fieldsY_wordY 0x38 4 f
  refine ⟨?_, rfl⟩
  show some (if (fieldsY (wordY 0x38 4 f)).aop == 1 then .cntrTask (fieldsY (wordY 0x38 4 f)) else .cntrEv (fieldsY (wordY 0x38 4 f)) : Instr) = _
  rw [hf]
  simp_all [Instr.rowOk]
theorem cntrTask (f : FmtY) : Statement (.cntrTask f) := by
  intro h w hw
  cases (show some (wordY 0x38 4 f) = some w from hw)
  rw [opOf_wordY, fnOf_wordY]
  have hf := fieldsY_wordY 0x38 4 f
  refine ⟨?_, rfl⟩
  show some (if (fieldsY (wordY 0x38 4 f)).aop == 1 then .cntrTask (fieldsY (wordY 0x38 4 f)) else .cntrEv (fieldsY (wordY 0x38 4 f)) : Instr) = _
  rw [hf]
  simp_all [Instr.rowOk]
theorem time (f : FmtY) : Statement (.time f) := by
  intro h w hw
  cases (show some (wordY 0x38 5 f) = some w from hw)
  rw [opOf_wordY, fnOf_wordY]
  have hf := fieldsY_wordY 0x38 5 f
  refine ⟨?_, rfl⟩
  show some (if (fieldsY (wordY 0x38 5 f)).aop == 1 then .timeLeft (fieldsY (wordY 0x38 5 f)) else .time (fieldsY (wordY 0x38 5 f)) : Instr) = _
  rw [hf]
  simp_all [Instr.rowOk]
theorem timeLeft (f : FmtY) : Statement (.timeLeft f) := by
  intro h w hw
  cases (show some (wordY 0x38 5 f) = some w from hw)
  rw [opOf_wordY, fnOf_wordY]
  have hf := fieldsY_wordY 0x38 5 f
  refine ⟨?_, rfl⟩
  show some (if (fieldsY (wordY 0x38 5 f)).aop == 1 then .timeLeft (fieldsY (wordY 0x38 5 f)) else .time (fieldsY (wordY 0x38 5 f)) : Instr) = _
  rw [hf]
  simp_all [Instr.rowOk]
theorem cpy (f : FmtY) : Statement (.cpy f) := by
  intro h w hw
  cases (show some (wordY 0x39 0 f) = some w from hw)
  rw [opOf_wordY, fnOf_wordY]
  have hf := fieldsY_wordY 0x39 0 f
  refine ⟨?_, rfl⟩
  show some (if (fieldsY (wordY 0x39 0 f)).flg.getLsbD 0 then .cpyChain (fieldsY (wordY 0x39 0 f)) else .cpy (fieldsY (wordY 0x39 0 f)) : Instr) = _
  rw [hf]
  simp_all [Instr.rowOk]
theorem dense (f : FmtY) : Statement (.dense f) := by
  intro h w hw
  cases (show some (wordY 0x39 1 f) = some w from hw)
  rw [opOf_wordY, fnOf_wordY]
  have hf := fieldsY_wordY 0x39 1 f
  refine ⟨?_, rfl⟩
  show some (if (fieldsY (wordY 0x39 1 f)).flg.getLsbD 0 then .denseChain (fieldsY (wordY 0x39 1 f)) else .dense (fieldsY (wordY 0x39 1 f)) : Instr) = _
  rw [hf]
  simp_all [Instr.rowOk]
theorem sparsify (f : FmtY) : Statement (.sparsify f) := by
  intro h w hw
  cases (show some (wordY 0x39 2 f) = some w from hw)
  rw [opOf_wordY, fnOf_wordY]
  have hf := fieldsY_wordY 0x39 2 f
  refine ⟨?_, rfl⟩
  show some (if (fieldsY (wordY 0x39 2 f)).flg.getLsbD 0 then .sparsifyChain (fieldsY (wordY 0x39 2 f)) else .sparsify (fieldsY (wordY 0x39 2 f)) : Instr) = _
  rw [hf]
  simp_all [Instr.rowOk]
theorem a2a (f : FmtY) : Statement (.a2a f) := by
  intro h w hw
  cases (show some (wordY 0x39 3 f) = some w from hw)
  rw [opOf_wordY, fnOf_wordY]
  have hf := fieldsY_wordY 0x39 3 f
  refine ⟨?_, rfl⟩
  show some (if (fieldsY (wordY 0x39 3 f)).flg.getLsbD 0 then .a2aChain (fieldsY (wordY 0x39 3 f)) else .a2a (fieldsY (wordY 0x39 3 f)) : Instr) = _
  rw [hf]
  simp_all [Instr.rowOk]
theorem coll (f : FmtY) : Statement (.coll f) := by
  intro h w hw
  cases (show some (wordY 0x39 4 f) = some w from hw)
  rw [opOf_wordY, fnOf_wordY]
  have hf := fieldsY_wordY 0x39 4 f
  refine ⟨?_, rfl⟩
  show some (if (fieldsY (wordY 0x39 4 f)).flg.getLsbD 0 then .collChain (fieldsY (wordY 0x39 4 f)) else .coll (fieldsY (wordY 0x39 4 f)) : Instr) = _
  rw [hf]
  simp_all [Instr.rowOk]
theorem cpyChain (f : FmtY) : Statement (.cpyChain f) := by
  intro h w hw
  cases (show some (wordY 0x39 0 f) = some w from hw)
  rw [opOf_wordY, fnOf_wordY]
  have hf := fieldsY_wordY 0x39 0 f
  refine ⟨?_, rfl⟩
  show some (if (fieldsY (wordY 0x39 0 f)).flg.getLsbD 0 then .cpyChain (fieldsY (wordY 0x39 0 f)) else .cpy (fieldsY (wordY 0x39 0 f)) : Instr) = _
  rw [hf]
  simp_all [Instr.rowOk]
theorem denseChain (f : FmtY) : Statement (.denseChain f) := by
  intro h w hw
  cases (show some (wordY 0x39 1 f) = some w from hw)
  rw [opOf_wordY, fnOf_wordY]
  have hf := fieldsY_wordY 0x39 1 f
  refine ⟨?_, rfl⟩
  show some (if (fieldsY (wordY 0x39 1 f)).flg.getLsbD 0 then .denseChain (fieldsY (wordY 0x39 1 f)) else .dense (fieldsY (wordY 0x39 1 f)) : Instr) = _
  rw [hf]
  simp_all [Instr.rowOk]
theorem sparsifyChain (f : FmtY) : Statement (.sparsifyChain f) := by
  intro h w hw
  cases (show some (wordY 0x39 2 f) = some w from hw)
  rw [opOf_wordY, fnOf_wordY]
  have hf := fieldsY_wordY 0x39 2 f
  refine ⟨?_, rfl⟩
  show some (if (fieldsY (wordY 0x39 2 f)).flg.getLsbD 0 then .sparsifyChain (fieldsY (wordY 0x39 2 f)) else .sparsify (fieldsY (wordY 0x39 2 f)) : Instr) = _
  rw [hf]
  simp_all [Instr.rowOk]
theorem a2aChain (f : FmtY) : Statement (.a2aChain f) := by
  intro h w hw
  cases (show some (wordY 0x39 3 f) = some w from hw)
  rw [opOf_wordY, fnOf_wordY]
  have hf := fieldsY_wordY 0x39 3 f
  refine ⟨?_, rfl⟩
  show some (if (fieldsY (wordY 0x39 3 f)).flg.getLsbD 0 then .a2aChain (fieldsY (wordY 0x39 3 f)) else .a2a (fieldsY (wordY 0x39 3 f)) : Instr) = _
  rw [hf]
  simp_all [Instr.rowOk]
theorem collChain (f : FmtY) : Statement (.collChain f) := by
  intro h w hw
  cases (show some (wordY 0x39 4 f) = some w from hw)
  rw [opOf_wordY, fnOf_wordY]
  have hf := fieldsY_wordY 0x39 4 f
  refine ⟨?_, rfl⟩
  show some (if (fieldsY (wordY 0x39 4 f)).flg.getLsbD 0 then .collChain (fieldsY (wordY 0x39 4 f)) else .coll (fieldsY (wordY 0x39 4 f)) : Instr) = _
  rw [hf]
  simp_all [Instr.rowOk]
theorem chapp (f : FmtY) : Statement (.chapp f) := by
  intro h w hw
  cases (show some (wordY 0x39 5 f) = some w from hw)
  rw [opOf_wordY, fnOf_wordY]
  exact ⟨congrArg (fun f => some (Instr.chapp f)) (fieldsY_wordY ..), rfl⟩
theorem taskq (f : FmtY) : Statement (.taskq f) := by
  intro h w hw
  cases (show some (wordY 0x39 6 f) = some w from hw)
  rw [opOf_wordY, fnOf_wordY]
  exact ⟨congrArg (fun f => some (Instr.taskq f)) (fieldsY_wordY ..), rfl⟩
theorem lpatch (f : FmtY) : Statement (.lpatch f) := by
  intro h w hw
  cases (show some (wordY 0x39 7 f) = some w from hw)
  rw [opOf_wordY, fnOf_wordY]
  exact ⟨congrArg (fun f => some (Instr.lpatch f)) (fieldsY_wordY ..), rfl⟩
theorem larm (f : FmtY) : Statement (.larm f) := by
  intro h w hw
  cases (show some (wordY 0x39 8 f) = some w from hw)
  rw [opOf_wordY, fnOf_wordY]
  exact ⟨congrArg (fun f => some (Instr.larm f)) (fieldsY_wordY ..), rfl⟩
theorem mma (f : FmtX) : Statement (.mma f) := by
  intro h w hw
  cases (show some (wordX 0x40 0 0 0 f) = some w from hw)
  rw [opOf_wordX, fnOf_wordX]
  exact ⟨congrArg (fun f => some (Instr.mma f)) (fieldsX_wordX ..), flawsX _ _ _ _ _ (by decide) rfl⟩
theorem mmas (f : FmtX) : Statement (.mmas f) := by
  intro h w hw
  cases (show some (wordX 0x40 1 1 0 f) = some w from hw)
  rw [opOf_wordX, fnOf_wordX]
  exact ⟨congrArg (fun f => some (Instr.mmas f)) (fieldsX_wordX ..), flawsX _ _ _ _ _ (by decide) rfl⟩
theorem mmaw (f : FmtX) : Statement (.mmaw f) := by
  intro h w hw
  cases (show some (wordX 0x40 2 0 1 f) = some w from hw)
  rw [opOf_wordX, fnOf_wordX]
  exact ⟨congrArg (fun f => some (Instr.mmaw f)) (fieldsX_wordX ..), flawsX _ _ _ _ _ (by decide) rfl⟩
theorem accz (f : FmtX) : Statement (.accz f) := by
  intro h w hw
  cases (show some (wordX 0x40 3 0 0 f) = some w from hw)
  rw [opOf_wordX, fnOf_wordX]
  exact ⟨congrArg (fun f => some (Instr.accz f)) (fieldsX_wordX ..), flawsX _ _ _ _ _ (by decide) rfl⟩
theorem accrd (f : FmtX) : Statement (.accrd f) := by
  intro h w hw
  cases (show some (wordX 0x40 4 0 0 f) = some w from hw)
  rw [opOf_wordX, fnOf_wordX]
  exact ⟨congrArg (fun f => some (Instr.accrd f)) (fieldsX_wordX ..), flawsX _ _ _ _ _ (by decide) rfl⟩
theorem accwr (f : FmtX) : Statement (.accwr f) := by
  intro h w hw
  cases (show some (wordX 0x40 5 0 0 f) = some w from hw)
  rw [opOf_wordX, fnOf_wordX]
  exact ⟨congrArg (fun f => some (Instr.accwr f)) (fieldsX_wordX ..), flawsX _ _ _ _ _ (by decide) rfl⟩
theorem acccvt (f : FmtX) : Statement (.acccvt f) := by
  intro h w hw
  cases (show some (wordX 0x40 6 0 0 f) = some w from hw)
  rw [opOf_wordX, fnOf_wordX]
  exact ⟨congrArg (fun f => some (Instr.acccvt f)) (fieldsX_wordX ..), flawsX _ _ _ _ _ (by decide) rfl⟩
theorem seedx (f : FmtX) : Statement (.seedx f) := by
  intro h w hw
  cases (show some (wordX 0x41 0 0 1 f) = some w from hw)
  rw [opOf_wordX, fnOf_wordX]
  exact ⟨congrArg (fun f => some (Instr.seedx f)) (fieldsX_wordX ..), flawsX _ _ _ _ _ (by decide) rfl⟩
theorem sfit (f : FmtX) : Statement (.sfit f) := by
  intro h w hw
  cases (show some (wordX 0x41 1 0 1 f) = some w from hw)
  rw [opOf_wordX, fnOf_wordX]
  exact ⟨congrArg (fun f => some (Instr.sfit f)) (fieldsX_wordX ..), flawsX _ _ _ _ _ (by decide) rfl⟩
theorem ssrch (f : FmtX) : Statement (.ssrch f) := by
  intro h w hw
  cases (show some (wordX 0x41 2 0 1 f) = some w from hw)
  rw [opOf_wordX, fnOf_wordX]
  exact ⟨congrArg (fun f => some (Instr.ssrch f)) (fieldsX_wordX ..), flawsX _ _ _ _ _ (by decide) rfl⟩
theorem lshb (f : FmtX) : Statement (.lshb f) := by
  intro h w hw
  cases (show some (wordX 0x41 3 0 1 f) = some w from hw)
  rw [opOf_wordX, fnOf_wordX]
  exact ⟨congrArg (fun f => some (Instr.lshb f)) (fieldsX_wordX ..), flawsX _ _ _ _ _ (by decide) rfl⟩
theorem tpose (f : FmtX) : Statement (.tpose f) := by
  intro h w hw
  cases (show some (wordX 0x41 4 0 0 f) = some w from hw)
  rw [opOf_wordX, fnOf_wordX]
  exact ⟨congrArg (fun f => some (Instr.tpose f)) (fieldsX_wordX ..), flawsX _ _ _ _ _ (by decide) rfl⟩
theorem quant (f : FmtX) : Statement (.quant f) := by
  intro h w hw
  cases (show some (wordX 0x41 5 0 0 f) = some w from hw)
  rw [opOf_wordX, fnOf_wordX]
  exact ⟨congrArg (fun f => some (Instr.quant f)) (fieldsX_wordX ..), flawsX _ _ _ _ _ (by decide) rfl⟩
theorem deq (f : FmtX) : Statement (.deq f) := by
  intro h w hw
  cases (show some (wordX 0x41 6 0 0 f) = some w from hw)
  rw [opOf_wordX, fnOf_wordX]
  exact ⟨congrArg (fun f => some (Instr.deq f)) (fieldsX_wordX ..), flawsX _ _ _ _ _ (by decide) rfl⟩
theorem longLatencyResult (t k : Nat) : Statement (.longLatencyResult t k) := by
  exact fun _ _ h => nomatch (show none = some _ from h)
theorem beadhArrival (t port : Nat) : Statement (.beadhArrival t port) := by
  exact fun _ _ h => nomatch (show none = some _ from h)
theorem beadStart (t : Nat) : Statement (.beadStart t) := by
  exact fun _ _ h => nomatch (show none = some _ from h)
theorem tokenBeadForm (t : Nat) : Statement (.tokenBeadForm t) := by
  exact fun _ _ h => nomatch (show none = some _ from h)
theorem ceControlToken (t : Nat) : Statement (.ceControlToken t) := by
  exact fun _ _ h => nomatch (show none = some _ from h)
theorem selJoinFire (t : Nat) : Statement (.selJoinFire t) := by
  exact fun _ _ h => nomatch (show none = some _ from h)
theorem elementSwitch (t u : Nat) : Statement (.elementSwitch t u) := by
  exact fun _ _ h => nomatch (show none = some _ from h)
theorem barForward (t u : Nat) : Statement (.barForward t u) := by
  exact fun _ _ h => nomatch (show none = some _ from h)
theorem linkBeatReceive (t link flips : Nat) : Statement (.linkBeatReceive t link flips) := by
  exact fun _ _ h => nomatch (show none = some _ from h)
theorem swRt (t w : Nat) : Statement (.swRt t w) := by
  exact fun _ _ h => nomatch (show none = some _ from h)
theorem swFork (t w : Nat) : Statement (.swFork t w) := by
  exact fun _ _ h => nomatch (show none = some _ from h)
theorem swJoin (t w : Nat) : Statement (.swJoin t w) := by
  exact fun _ _ h => nomatch (show none = some _ from h)
theorem rootSourceStart (t u : Nat) : Statement (.rootSourceStart t u) := by
  exact fun _ _ h => nomatch (show none = some _ from h)
theorem scannerRef (t u : Nat) : Statement (.scannerRef t u) := by
  exact fun _ _ h => nomatch (show none = some _ from h)
theorem scannerStop (t u : Nat) : Statement (.scannerStop t u) := by
  exact fun _ _ h => nomatch (show none = some _ from h)
theorem scannerDone (t u : Nat) : Statement (.scannerDone t u) := by
  exact fun _ _ h => nomatch (show none = some _ from h)
theorem scannerSkip (t u : Nat) : Statement (.scannerSkip t u) := by
  exact fun _ _ h => nomatch (show none = some _ from h)
theorem scnTSeek (t u : Nat) : Statement (.scnTSeek t u) := by
  exact fun _ _ h => nomatch (show none = some _ from h)
theorem mrgI (t : Nat) : Statement (.mrgI t) := by
  exact fun _ _ h => nomatch (show none = some _ from h)
theorem mrgU (t : Nat) : Statement (.mrgU t) := by
  exact fun _ _ h => nomatch (show none = some _ from h)
theorem rptCrd (t : Nat) : Statement (.rptCrd t) := by
  exact fun _ _ h => nomatch (show none = some _ from h)
theorem rptStop (t : Nat) : Statement (.rptStop t) := by
  exact fun _ _ h => nomatch (show none = some _ from h)
theorem rptDone (t : Nat) : Statement (.rptDone t) := by
  exact fun _ _ h => nomatch (show none = some _ from h)
theorem rdcVal (t : Nat) : Statement (.rdcVal t) := by
  exact fun _ _ h => nomatch (show none = some _ from h)
theorem rdcStop (t : Nat) : Statement (.rdcStop t) := by
  exact fun _ _ h => nomatch (show none = some _ from h)
theorem rdcDone (t : Nat) : Statement (.rdcDone t) := by
  exact fun _ _ h => nomatch (show none = some _ from h)
theorem lwrEntry (t : Nat) : Statement (.lwrEntry t) := by
  exact fun _ _ h => nomatch (show none = some _ from h)
theorem lwrStop (t : Nat) : Statement (.lwrStop t) := by
  exact fun _ _ h => nomatch (show none = some _ from h)
theorem lwrDone (t : Nat) : Statement (.lwrDone t) := by
  exact fun _ _ h => nomatch (show none = some _ from h)
theorem lwrTStore (t : Nat) : Statement (.lwrTStore t) := by
  exact fun _ _ h => nomatch (show none = some _ from h)
theorem agAff (t p : Nat) : Statement (.agAff t p) := by
  exact fun _ _ h => nomatch (show none = some _ from h)
theorem agInd (t p : Nat) : Statement (.agInd t p) := by
  exact fun _ _ h => nomatch (show none = some _ from h)
theorem iseParamRead (t p : Nat) : Statement (.iseParamRead t p) := by
  exact fun _ _ h => nomatch (show none = some _ from h)
theorem iseValueReturn (t p : Nat) : Statement (.iseValueReturn t p) := by
  exact fun _ _ h => nomatch (show none = some _ from h)
theorem agWr (t p : Nat) : Statement (.agWr t p) := by
  exact fun _ _ h => nomatch (show none = some _ from h)
theorem xfTpose (t : Nat) : Statement (.xfTpose t) := by
  exact fun _ _ h => nomatch (show none = some _ from h)
theorem xfQuant (t : Nat) : Statement (.xfQuant t) := by
  exact fun _ _ h => nomatch (show none = some _ from h)
theorem xfScale (t : Nat) : Statement (.xfScale t) := by
  exact fun _ _ h => nomatch (show none = some _ from h)
theorem xfBmap (t : Nat) : Statement (.xfBmap t) := by
  exact fun _ _ h => nomatch (show none = some _ from h)
theorem matrixOperandPhase (t : Nat) : Statement (.matrixOperandPhase t) := by
  exact fun _ _ h => nomatch (show none = some _ from h)
theorem matrixComputeComplete (t : Nat) : Statement (.matrixComputeComplete t) := by
  exact fun _ _ h => nomatch (show none = some _ from h)
theorem hsqAtomApply (v : Nat) : Statement (.hsqAtomApply v) := by
  exact fun _ _ h => nomatch (show none = some _ from h)
theorem hsqBarrierArrival (v : Nat) : Statement (.hsqBarrierArrival v) := by
  exact fun _ _ h => nomatch (show none = some _ from h)
theorem combiningArrival (k : Nat) : Statement (.combiningArrival k) := by
  exact fun _ _ h => nomatch (show none = some _ from h)
theorem treeHoldExpiry (k : Nat) : Statement (.treeHoldExpiry k) := by
  exact fun _ _ h => nomatch (show none = some _ from h)
theorem waitTimeout (k : Nat) : Statement (.waitTimeout k) := by
  exact fun _ _ h => nomatch (show none = some _ from h)
theorem waitDequeue (v c : Nat) : Statement (.waitDequeue v c) := by
  exact fun _ _ h => nomatch (show none = some _ from h)
theorem bsyncProceed (r : Nat) : Statement (.bsyncProceed r) := by
  exact fun _ _ h => nomatch (show none = some _ from h)
theorem idxfullReissue (r : Nat) : Statement (.idxfullReissue r) := by
  exact fun _ _ h => nomatch (show none = some _ from h)
theorem engineCommandStart (d e c : Nat) : Statement (.engineCommandStart d e c) := by
  exact fun _ _ h => nomatch (show none = some _ from h)
theorem engineCommandComplete (d e c : Nat) : Statement (.engineCommandComplete d e c) := by
  exact fun _ _ h => nomatch (show none = some _ from h)
theorem engineFault (d e c : Nat) : Statement (.engineFault d e c) := by
  exact fun _ _ h => nomatch (show none = some _ from h)
theorem a2aDelivery (d e c : Nat) : Statement (.a2aDelivery d e c) := by
  exact fun _ _ h => nomatch (show none = some _ from h)
theorem a2aResume (d e c : Nat) : Statement (.a2aResume d e c) := by
  exact fun _ _ h => nomatch (show none = some _ from h)
theorem collMatch (d e c : Nat) : Statement (.collMatch d e c) := by
  exact fun _ _ h => nomatch (show none = some _ from h)
theorem chainWalk (d e c : Nat) : Statement (.chainWalk d e c) := by
  exact fun _ _ h => nomatch (show none = some _ from h)
theorem mitBlockRead (k : Nat) : Statement (.mitBlockRead k) := by
  exact fun _ _ h => nomatch (show none = some _ from h)
theorem mitRefetch (k : Nat) : Statement (.mitRefetch k) := by
  exact fun _ _ h => nomatch (show none = some _ from h)
theorem counterHalving (d : Nat) : Statement (.counterHalving d) := by
  exact fun _ _ h => nomatch (show none = some _ from h)
theorem tfenceAck (k : Nat) : Statement (.tfenceAck k) := by
  exact fun _ _ h => nomatch (show none = some _ from h)
theorem timeAllowanceExpiry (r : Nat) : Statement (.timeAllowanceExpiry r) := by
  exact fun _ _ h => nomatch (show none = some _ from h)
theorem admissionAgeExpiry (h : Nat) : Statement (.admissionAgeExpiry h) := by
  exact fun _ _ h => nomatch (show none = some _ from h)
theorem exhaustion (r cause : Nat) : Statement (.exhaustion r cause) := by
  exact fun _ _ h => nomatch (show none = some _ from h)
theorem quiescenceReport (r : Nat) : Statement (.quiescenceReport r) := by
  exact fun _ _ h => nomatch (show none = some _ from h)
theorem dependenceDecrement (h : Nat) : Statement (.dependenceDecrement h) := by
  exact fun _ _ h => nomatch (show none = some _ from h)
theorem allocate (d : Nat) : Statement (.allocate d) := by
  exact fun _ _ h => nomatch (show none = some _ from h)
theorem loaderRead (r : Nat) : Statement (.loaderRead r) := by
  exact fun _ _ h => nomatch (show none = some _ from h)
theorem verificationPass (r : Nat) : Statement (.verificationPass r) := by
  exact fun _ _ h => nomatch (show none = some _ from h)
theorem successorPreload (r : Nat) : Statement (.successorPreload r) := by
  exact fun _ _ h => nomatch (show none = some _ from h)
theorem configScrub (r : Nat) : Statement (.configScrub r) := by
  exact fun _ _ h => nomatch (show none = some _ from h)
theorem configRepairComplete (r : Nat) : Statement (.configRepairComplete r) := by
  exact fun _ _ h => nomatch (show none = some _ from h)
theorem launchArm (c n : Nat) : Statement (.launchArm c n) := by
  exact fun _ _ h => nomatch (show none = some _ from h)
theorem launchStart (c n : Nat) : Statement (.launchStart c n) := by
  exact fun _ _ h => nomatch (show none = some _ from h)
theorem launchPacket (d k : Nat) : Statement (.launchPacket d k) := by
  exact fun _ _ h => nomatch (show none = some _ from h)
theorem pendingPieceEnqueue (d : Nat) : Statement (.pendingPieceEnqueue d) := by
  exact fun _ _ h => nomatch (show none = some _ from h)
theorem dieReport (d k : Nat) : Statement (.dieReport d k) := by
  exact fun _ _ h => nomatch (show none = some _ from h)
theorem removalComplete (c : Nat) : Statement (.removalComplete c) := by
  exact fun _ _ h => nomatch (show none = some _ from h)
theorem faultPost (d c : Nat) : Statement (.faultPost d c) := by
  exact fun _ _ h => nomatch (show none = some _ from h)
theorem heldRecordPost (d c : Nat) : Statement (.heldRecordPost d c) := by
  exact fun _ _ h => nomatch (show none = some _ from h)
theorem preemptEnd (c : Nat) : Statement (.preemptEnd c) := by
  exact fun _ _ h => nomatch (show none = some _ from h)
theorem saveComplete (r : Nat) : Statement (.saveComplete r) := by
  exact fun _ _ h => nomatch (show none = some _ from h)
theorem regionRestore (c : Nat) : Statement (.regionRestore c) := by
  exact fun _ _ h => nomatch (show none = some _ from h)
theorem checkComplete : Statement .checkComplete := by
  exact fun _ _ h => nomatch (show none = some _ from h)
theorem watchdogExpiry (d : Nat) : Statement (.watchdogExpiry d) := by
  exact fun _ _ h => nomatch (show none = some _ from h)
theorem attestResponse (ok : Bool) : Statement (.attestResponse ok) := by
  exact fun _ _ h => nomatch (show none = some _ from h)
theorem throttleUpdate : Statement .throttleUpdate := by
  exact fun _ _ h => nomatch (show none = some _ from h)
theorem patrolScrub (a : Nat) : Statement (.patrolScrub a) := by
  exact fun _ _ h => nomatch (show none = some _ from h)
theorem podBarrierRelease (k : Nat) : Statement (.podBarrierRelease k) := by
  exact fun _ _ h => nomatch (show none = some _ from h)
theorem bsyncDeadline (r : Nat) : Statement (.bsyncDeadline r) := by
  exact fun _ _ h => nomatch (show none = some _ from h)
theorem outputBeat8Clk (t u : Nat) : Statement (.outputBeat8Clk t u) := by
  exact fun _ _ h => nomatch (show none = some _ from h)
theorem rd (h : TxHdr) : Statement (.rd h) := by
  exact fun _ _ h => nomatch (show none = some _ from h)
theorem wr (h : TxHdr) (data : List Word) : Statement (.wr h data) := by
  exact fun _ _ h => nomatch (show none = some _ from h)
theorem wrc (h : TxHdr) (data : List Word) : Statement (.wrc h data) := by
  exact fun _ _ h => nomatch (show none = some _ from h)
theorem append (h : TxHdr) (data : List Word) : Statement (.append h data) := by
  exact fun _ _ h => nomatch (show none = some _ from h)
theorem flush (h : TxHdr) : Statement (.flush h) := by
  exact fun _ _ h => nomatch (show none = some _ from h)
theorem hostTfence (h : TxHdr) (data : List Word) : Statement (.hostTfence h data) := by
  exact fun _ _ h => nomatch (show none = some _ from h)
theorem cpl (h : TxHdr) (data : List Word) : Statement (.cpl h data) := by
  exact fun _ _ h => nomatch (show none = some _ from h)
theorem ucieCrcReplay (m : Nat) : Statement (.ucieCrcReplay m) := by
  exact fun _ _ h => nomatch (show none = some _ from h)
theorem ucieModuleFail (m : Nat) : Statement (.ucieModuleFail m) := by
  exact fun _ _ h => nomatch (show none = some _ from h)
theorem contextActivate (c : Nat) : Statement (.contextActivate c) := by
  exact fun _ _ h => nomatch (show none = some _ from h)
theorem contextRemove (c : Nat) : Statement (.contextRemove c) := by
  exact fun _ _ h => nomatch (show none = some _ from h)
theorem fqheadWrite (c : Nat) (v : Word) : Statement (.fqheadWrite c v) := by
  exact fun _ _ h => nomatch (show none = some _ from h)
theorem herrClear : Statement .herrClear := by
  exact fun _ _ h => nomatch (show none = some _ from h)
theorem registerWrite (off : Nat) (v : Word) : Statement (.registerWrite off v) := by
  exact fun _ _ h => nomatch (show none = some _ from h)
theorem resume (k : CmdWords) : Statement (.resume k) := by
  exact fun _ _ h => nomatch (show none = some _ from h)
theorem abort (k : CmdWords) : Statement (.abort k) := by
  exact fun _ _ h => nomatch (show none = some _ from h)
theorem kill (k : CmdWords) : Statement (.kill k) := by
  exact fun _ _ h => nomatch (show none = some _ from h)
theorem skip (k : CmdWords) : Statement (.skip k) := by
  exact fun _ _ h => nomatch (show none = some _ from h)
theorem retry (k : CmdWords) : Statement (.retry k) := by
  exact fun _ _ h => nomatch (show none = some _ from h)
theorem preemptBoundary (k : CmdWords) : Statement (.preemptBoundary k) := by
  exact fun _ _ h => nomatch (show none = some _ from h)
theorem preemptAbort (k : CmdWords) : Statement (.preemptAbort k) := by
  exact fun _ _ h => nomatch (show none = some _ from h)
theorem preemptFreezeSave (k : CmdWords) : Statement (.preemptFreezeSave k) := by
  exact fun _ _ h => nomatch (show none = some _ from h)
theorem resumectx (k : CmdWords) : Statement (.resumectx k) := by
  exact fun _ _ h => nomatch (show none = some _ from h)
theorem go : Statement .go := by
  exact fun _ _ h => nomatch (show none = some _ from h)
theorem reset : Statement .reset := by
  exact fun _ _ h => nomatch (show none = some _ from h)
theorem powerOnReset (failed : BitVec 4) : Statement (.powerOnReset failed) := by
  exact fun _ _ h => nomatch (show none = some _ from h)
theorem initComplete (failed : BitVec 4) (parts : InitParts) :
    Statement (.initComplete failed parts) := by
  exact fun _ _ h => nomatch (show none = some _ from h)
theorem attestQuote : Statement .attestQuote := by
  exact fun _ _ h => nomatch (show none = some _ from h)
theorem attestCertChain : Statement .attestCertChain := by
  exact fun _ _ h => nomatch (show none = some _ from h)
theorem powerSample (d watts celsius : Nat) : Statement (.powerSample d watts celsius) := by
  exact fun _ _ h => nomatch (show none = some _ from h)
theorem thermalTrip (d : Nat) : Statement (.thermalTrip d) := by
  exact fun _ _ h => nomatch (show none = some _ from h)
theorem eccError (e : EccSite) (double : Bool) : Statement (.eccError e double) := by
  exact fun _ _ h => nomatch (show none = some _ from h)
theorem tileFence (t : Nat) : Statement (.tileFence t) := by
  exact fun _ _ h => nomatch (show none = some _ from h)
theorem vaultFence (v : Nat) : Statement (.vaultFence v) := by
  exact fun _ _ h => nomatch (show none = some _ from h)
theorem hbmChannelFence (stack ch : Nat) : Statement (.hbmChannelFence stack ch) := by
  exact fun _ _ h => nomatch (show none = some _ from h)
theorem dieFence (d : Nat) : Statement (.dieFence d) := by
  exact fun _ _ h => nomatch (show none = some _ from h)
theorem portFence (p : Nat) : Statement (.portFence p) := by
  exact fun _ _ h => nomatch (show none = some _ from h)
theorem flitReceive (p : Nat) (f : Flit) : Statement (.flitReceive p f) := by
  exact fun _ _ h => nomatch (show none = some _ from h)
theorem flitCrcRetry (p : Nat) : Statement (.flitCrcRetry p) := by
  exact fun _ _ h => nomatch (show none = some _ from h)
theorem portRetrain (p : Nat) (ok : Bool) : Statement (.portRetrain p ok) := by
  exact fun _ _ h => nomatch (show none = some _ from h)
theorem keepaliveLoss (p : Nat) : Statement (.keepaliveLoss p) := by
  exact fun _ _ h => nomatch (show none = some _ from h)
theorem podcfgWrite (v : Word) : Statement (.podcfgWrite v) := by
  exact fun _ _ h => nomatch (show none = some _ from h)
theorem monctlSet (v : Word) : Statement (.monctlSet v) := by
  exact fun _ _ h => nomatch (show none = some _ from h)
theorem monctlClr (v : Word) : Statement (.monctlClr v) := by
  exact fun _ _ h => nomatch (show none = some _ from h)
theorem portTrainingComplete (p : Nat) : Statement (.portTrainingComplete p) := by
  exact fun _ _ h => nomatch (show none = some _ from h)

end Sys2Proof.Laws.Placed
end

