-- ==== Sys2Proof/Tests/Slice0.lean ====
section
/-! SUPPORT. Tests: words laid out by hand from R80 to R88 and the spec's example words, ill-formed terms that the checks refuse,
results worked out from the spec, and for each obligation with hypotheses a state and operands that meet them. -/

namespace Sys2Proof.Tests

open Sys2Proof Sys2Proof.Machine

set_option Elab.async false

/-! ### Decoding -/

/-- Each word decodes to its instruction. -/
def allRead (ps : List (Word × Instr)) : Bool := ps.all fun p => decode p.1 == .ok p.2

/-- The example words of R81, R90, R127, R145, R205, R216, R220, R242 and of the programs. -/
theorem test_example_words : allRead
    [(0x100F_0C21_C402_8000, .fma ⟨48, 48, 33, 49, 0, 0, 0, 10, 0, 0, 0⟩), (0x0402_1000_4040_0000, .movi ⟨33, 0, 0, 0, 0, 0x40400000⟩),
     (0x2000_0400_0000_0000, .emit ⟨0, 1, 0, 0, 0, 0, 0, 0, 0⟩), (0x3000_3100_6000_4004, .ld ⟨3, 4, 0, 0, 0, 6, 64, 0, 1, 0⟩),
     (0x010A_28C5_0000_8002, .adds ⟨34, 35, 5, 0, 0, 0, 0, 2, 0, 0, 2⟩), (0x104E_18A3_0002_8000, .fexpins ⟨33, 34, 35, 0, 0, 0, 0, 10, 0, 0, 0⟩),
     (0x2008_0C00_1D00_0000, .split ⟨0, 3, 0, 0, 0, 0, 58, 0, 0⟩), (0x3800_5187_0000_3C00, .atom ⟨5, 6, 7, 0, 0, 0, 0, 0, 3, 3, 0, 0⟩),
     (0x3804_3187_0002_B40C, .wait ⟨3, 6, 7, 0, 0, 0, 0, 5, 3, 1, 0, 12⟩), (0x3808_3187_0001_3014, .hbarAw ⟨3, 6, 7, 0, 0, 0, 0, 2, 3, 0, 0, 20⟩),
     (0x3900_4262_0000_3800, .cpy ⟨4, 9, 34, 0, 0, 0, 0, 0, 3, 2, 0, 0⟩), (0x4001_0A20_C6DB_0000, .mma ⟨0, 1, 2, 1, 4, 3, 3, 3, 3, 3, 0, 0, 0, 0⟩),
     (0x400E_0000_00D8_0000, .accz ⟨1, 0, 0, 0, 0, 0, 0, 3, 3, 0, 0, 0, 0, 0⟩), (0x400A_8919_EE02_4000, .mmaw ⟨1, 0, 34, 0, 35, 7, 23, 0, 0, 2, 0, 0, 0, 0⟩),
     (0x4010_1C00_0000_2400, .accrd ⟨0, 0, 7, 0, 0, 0, 0, 0, 0, 0, 36, 0, 0, 0⟩), (0x4108_8918_6E00_6400, .ssrch ⟨0, 0, 34, 0, 35, 1, 23, 0, 0, 0, 36, 0, 0, 0⟩),
     (0x301C_6080_2000_0104, .sld ⟨6, 2, 0, 0, 0, 2, 1, 0, 1, 0⟩)] = true := by decide +kernel

/-- Words the loader refuses (R64, R79, R88): unassigned cells, an op of another format in a program frame, and a field that is reserved. -/
theorem test_refused_words :
    decode 0x0740_0000_0000_0000 = .error .opc ∧ decode 0x0508_0000_0000_0000 = .error .opc ∧ decode 0x8500_0000_0000_0000 = .error .fmt
      ∧ decode 0x0100_0000_0400_0000 = .error .rsvf := by decide +kernel

/-- Op 0x00 and 0x04 of R88: each instruction of the group from a word laid out by hand. -/
theorem test_decode_system : allRead
    [(0x0000_0000_0000_0000, .nop),
     (0x0004_000E_0000_BEEF, .trap ⟨0, 0, 0, 3, 1, 48879⟩),
     (0x0008_0004_0000_0000, .halt ⟨0, 0, 0, 1, 0, 0⟩),
     (0x000C_7000_0000_0009, .sysrd ⟨7, 0, 0, 0, 0, 9⟩),
     (0x0402_1000_4040_0000, .movi ⟨33, 0, 0, 0, 0, 1077936128⟩),
     (0x0404_9028_8000_0001, .movhi ⟨9, 0, 1, 2, 0, 2147483649⟩)] = true := by decide +kernel

/-- Op 0x01 (R128): each instruction of the group from a word laid out by hand. -/
theorem test_decode_integer : allRead
    [(0x0102_3925_0318_8400, .add ⟨35, 36, 37, 0, 6, 1, 1, 2, 0, 1, 0⟩),
     (0x0104_1083_0201_C000, .sub ⟨1, 2, 3, 0, 4, 0, 0, 7, 0, 0, 0⟩),
     (0x010A_0CAF_0001_400F, .adds ⟨32, 50, 47, 0, 0, 0, 0, 5, 0, 0, 15⟩),
     (0x010E_0862_0000_841F, .subs ⟨32, 33, 34, 0, 0, 0, 0, 2, 0, 1, 31⟩),
     (0x0110_101F_0000_0000, .mul ⟨1, 0, 31, 0, 0, 0, 0, 0, 0, 0, 0⟩),
     (0x0116_18A3_0001_0000, .mulh ⟨33, 34, 35, 0, 0, 0, 0, 4, 0, 0, 0⟩),
     (0x011B_08A3_9080_4400, .mad ⟨48, 34, 35, 36, 1, 0, 0, 1, 0, 1, 0⟩),
     (0x011C_4146_0000_C400, .div ⟨4, 5, 6, 0, 0, 0, 0, 3, 0, 1, 0⟩),
     (0x0122_4946_0001_8000, .rem ⟨36, 37, 6, 0, 0, 0, 0, 6, 0, 0, 0⟩),
     (0x0126_9A00_0200_8000, .neg ⟨41, 40, 0, 0, 4, 0, 0, 2, 0, 0, 0⟩),
     (0x012A_9DC0_0000_8000, .abs ⟨41, 55, 0, 0, 0, 0, 0, 2, 0, 0, 0⟩),
     (0x012C_A2CC_0000_8000, .min ⟨10, 11, 12, 0, 0, 0, 0, 2, 0, 0, 0⟩),
     (0x0132_AAEC_0101_4000, .max ⟨42, 43, 44, 0, 2, 0, 0, 5, 0, 0, 0⟩)] = true := by decide +kernel

/-- Op 0x02 (R131): each instruction of the group from a word laid out by hand. -/
theorem test_decode_logical : allRead
    [(0x0202_18A3_0001_8000, .and ⟨33, 34, 35, 0, 0, 0, 0, 6, 0, 0, 0⟩),
     (0x0204_1083_0001_C000, .or ⟨1, 2, 3, 0, 0, 0, 0, 7, 0, 0, 0⟩),
     (0x020A_10A3_0001_8000, .xor ⟨33, 2, 35, 0, 0, 0, 0, 6, 0, 0, 0⟩),
     (0x020E_1880_0001_0000, .not ⟨33, 34, 0, 0, 0, 0, 0, 4, 0, 0, 0⟩),
     (0x0212_18B3_0000_8000, .andn ⟨33, 34, 51, 0, 0, 0, 0, 2, 0, 0, 0⟩),
     (0x0216_18A3_0000_0000, .shl ⟨33, 34, 35, 0, 0, 0, 0, 0, 0, 0, 0⟩),
     (0x021A_18A3_0000_4000, .shr ⟨33, 34, 35, 0, 0, 0, 0, 1, 0, 0, 0⟩),
     (0x021C_1083_0000_C000, .sha ⟨1, 2, 3, 0, 0, 0, 0, 3, 0, 0, 0⟩),
     (0x0222_18A3_0001_4000, .rot ⟨33, 34, 35, 0, 0, 0, 0, 5, 0, 0, 0⟩),
     (0x0224_1080_0001_C000, .clz ⟨1, 2, 0, 0, 0, 0, 0, 7, 0, 0, 0⟩),
     (0x022A_1880_0001_8000, .popc ⟨33, 34, 0, 0, 0, 0, 0, 6, 0, 0, 0⟩),
     (0x022E_1880_0001_0000, .brev ⟨33, 34, 0, 0, 0, 0, 0, 4, 0, 0, 0⟩),
     (0x0232_18A3_0000_801F, .bext ⟨33, 34, 35, 0, 0, 0, 0, 2, 0, 0, 31⟩),
     (0x0236_18A3_9380_0007, .bins ⟨33, 34, 35, 36, 7, 0, 0, 0, 0, 0, 7⟩)] = true := by decide +kernel

/-- Op 0x03 (R133, R134): each instruction of the group from a word laid out by hand. -/
theorem test_decode_compareAndMove : allRead
    [(0x0303_B862_0001_8005, .cmp ⟨59, 33, 34, 0, 0, 0, 0, 6, 0, 0, 5⟩),
     (0x0306_18A3_F000_0000, .sel ⟨33, 34, 35, 60, 0, 0, 0, 0, 0, 0, 0⟩),
     (0x030A_1080_0000_0000, .mov ⟨33, 2, 0, 0, 0, 0, 0, 0, 0, 0, 0⟩),
     (0x0308_1880_0000_C00E, .movLane ⟨1, 34, 0, 0, 0, 0, 0, 3, 0, 0, 14⟩),
     (0x030C_3280_0000_0000, .movid ⟨3, 10, 0, 0, 0, 0, 0, 0, 0, 0, 0⟩),
     (0x0310_1083_0000_03FB, .lea ⟨1, 2, 3, 0, 0, 0, 0, 0, 0, 0, 1019⟩)] = true := by decide +kernel

/-- Op 0x05 and 0x06 (R130, R131): each instruction of the group from a word laid out by hand. -/
theorem test_decode_immediate : allRead
    [(0x0500_30C0_FFFF_FFF8, .addImm ⟨3, 3, 0, 0, 0, 4294967288⟩),
     (0x0506_3920_0000_0007, .subImm ⟨35, 36, 1, 0, 0, 7⟩),
     (0x0512_3100_0000_0003, .mulImm ⟨35, 4, 0, 0, 0, 3⟩),
     (0x052C_1080_0000_0005, .minImm ⟨1, 2, 0, 0, 0, 5⟩),
     (0x0530_108A_0000_0005, .maxImm ⟨1, 2, 0, 2, 1, 5⟩),
     (0x0600_1080_0000_00FF, .andImm ⟨1, 2, 0, 0, 0, 255⟩),
     (0x0604_1080_0000_0001, .orImm ⟨1, 2, 0, 0, 0, 1⟩),
     (0x060A_1880_FFFF_FFFF, .xorImm ⟨33, 34, 0, 0, 0, 4294967295⟩),
     (0x0612_1880_0000_0002, .andnImm ⟨33, 34, 0, 0, 0, 2⟩),
     (0x0614_1080_0000_003F, .shlImm ⟨1, 2, 0, 0, 0, 63⟩),
     (0x061A_1880_0000_001F, .shrImm ⟨33, 34, 0, 0, 0, 31⟩),
     (0x061E_1880_0000_0004, .shaImm ⟨33, 34, 0, 0, 0, 4⟩),
     (0x0622_1880_0000_0008, .rotImm ⟨33, 34, 0, 0, 0, 8⟩)] = true := by decide +kernel

/-- Op 0x08 and 0x09 (R135, R137): each instruction of the group from a word laid out by hand. -/
theorem test_decode_lanesAndPredicates : allRead
    [(0x0802_1880_0002_9801, .pfx ⟨33, 34, 0, 0, 0, 0, 0, 10, 3, 0, 1⟩),
     (0x0806_1880_0000_8400, .lnred ⟨33, 34, 0, 0, 0, 0, 0, 2, 0, 1, 0⟩),
     (0x080A_1880_0000_000F, .bcast ⟨33, 34, 0, 0, 0, 0, 0, 0, 0, 0, 15⟩),
     (0x080E_18A3_0000_0000, .shuf ⟨33, 34, 35, 0, 0, 0, 0, 0, 0, 0, 0⟩),
     (0x0812_1880_EC00_0000, .compact ⟨33, 34, 0, 59, 0, 0, 0, 0, 0, 0, 0⟩),
     (0x0816_1880_FC00_0000, .expand ⟨33, 34, 0, 63, 0, 0, 0, 0, 0, 0, 0⟩),
     (0x0903_9EBB_0000_0001, .pand ⟨57, 58, 59, 0, 0, 0, 0, 0, 0, 0, 1⟩),
     (0x0907_9EBB_0000_0000, .por ⟨57, 58, 59, 0, 0, 0, 0, 0, 0, 0, 0⟩),
     (0x090B_9EBB_0000_0000, .pxor ⟨57, 58, 59, 0, 0, 0, 0, 0, 0, 0, 0⟩),
     (0x090F_9E80_0000_0000, .pnot ⟨57, 58, 0, 0, 0, 0, 0, 0, 0, 0, 0⟩),
     (0x0912_1E80_0000_0000, .pcnt ⟨33, 58, 0, 0, 0, 0, 0, 0, 0, 0, 0⟩)] = true := by decide +kernel

/-- Op 0x10 (R138): each instruction of the group from a word laid out by hand. -/
theorem test_decode_float : allRead
    [(0x1002_18A3_0002_8C00, .fadd ⟨33, 34, 35, 0, 0, 0, 0, 10, 1, 1, 0⟩),
     (0x1004_1083_0002_C000, .fsub ⟨1, 2, 3, 0, 0, 0, 0, 11, 0, 0, 0⟩),
     (0x100A_18A3_0002_0000, .fmul ⟨33, 34, 35, 0, 0, 0, 0, 8, 0, 0, 0⟩),
     (0x100F_0C21_8802_8000, .fma ⟨48, 48, 33, 34, 0, 0, 0, 10, 0, 0, 0⟩),
     (0x1012_18A3_9002_4000, .fms ⟨33, 34, 35, 36, 0, 0, 0, 9, 0, 0, 0⟩),
     (0x1016_18A3_9282_8000, .fnma ⟨33, 34, 35, 36, 5, 0, 0, 10, 0, 0, 0⟩),
     (0x101A_18A3_0002_9000, .fdiv ⟨33, 34, 35, 0, 0, 0, 0, 10, 2, 0, 0⟩),
     (0x101E_1880_0002_8000, .fsqrt ⟨33, 34, 0, 0, 0, 0, 0, 10, 0, 0, 0⟩),
     (0x1022_1880_0002_8000, .frcp ⟨33, 34, 0, 0, 0, 0, 0, 10, 0, 0, 0⟩),
     (0x1026_1880_0002_0000, .frsq ⟨33, 34, 0, 0, 0, 0, 0, 8, 0, 0, 0⟩),
     (0x102A_18A3_0002_8000, .fmin ⟨33, 34, 35, 0, 0, 0, 0, 10, 0, 0, 0⟩),
     (0x102E_18A3_0002_C000, .fmax ⟨33, 34, 35, 0, 0, 0, 0, 11, 0, 0, 0⟩),
     (0x1032_1880_0002_4000, .fabs ⟨33, 34, 0, 0, 0, 0, 0, 9, 0, 0, 0⟩),
     (0x1034_1080_0002_8000, .fneg ⟨1, 2, 0, 0, 0, 0, 0, 10, 0, 0, 0⟩),
     (0x103B_98A3_0002_8007, .fcmp ⟨57, 34, 35, 0, 0, 0, 0, 10, 0, 0, 7⟩),
     (0x103E_1880_0002_0000, .fclass ⟨33, 34, 0, 0, 0, 0, 0, 8, 0, 0, 0⟩),
     (0x1042_1880_0002_9800, .frint ⟨33, 34, 0, 0, 0, 0, 0, 10, 3, 0, 0⟩),
     (0x1046_1880_0002_8000, .fgetexp ⟨33, 34, 0, 0, 0, 0, 0, 10, 0, 0, 0⟩),
     (0x104A_1880_0002_8000, .fexp2f ⟨33, 34, 0, 0, 0, 0, 0, 10, 0, 0, 0⟩),
     (0x104E_18A3_0002_8000, .fexpins ⟨33, 34, 35, 0, 0, 0, 0, 10, 0, 0, 0⟩)] = true := by decide +kernel

/-- Op 0x11 (R142 to R144): each instruction of the group from a word laid out by hand. -/
theorem test_decode_conversion : allRead
    [(0x1102_1880_0002_A883, .fcvt ⟨33, 34, 0, 0, 0, 0, 0, 10, 5, 0, 131⟩),
     (0x1102_1880_0002_8202, .fcvtFrom ⟨33, 34, 0, 0, 0, 0, 0, 10, 0, 0, 514⟩),
     (0x1104_1080_0002_C803, .ftoi ⟨1, 2, 0, 0, 0, 0, 0, 11, 1, 0, 3⟩),
     (0x110A_1880_0000_8000, .itof ⟨33, 34, 0, 0, 0, 0, 0, 2, 0, 0, 0⟩),
     (0x110E_18A3_0002_A013, .fpack ⟨33, 34, 35, 0, 0, 0, 0, 10, 4, 0, 19⟩),
     (0x1112_1880_0002_804F, .funpack ⟨33, 34, 0, 0, 0, 0, 0, 10, 0, 0, 79⟩)] = true := by decide +kernel

/-- Op 0x20 (R148): each instruction of the group from a word laid out by hand. -/
theorem test_decode_beads : allRead
    [(0x2000_0400_0000_0000, .emit ⟨0, 1, 0, 0, 0, 0, 0, 0, 0⟩),
     (0x2004_0800_222D_0000, .route ⟨0, 2, 0, 0, 0, 1, 4, 90, 0⟩),
     (0x2008_0C00_1D00_0000, .split ⟨0, 3, 0, 0, 0, 0, 58, 0, 0⟩),
     (0x200E_0000_0000_0000, .merge ⟨8, 0, 0, 0, 0, 0, 0, 0, 0⟩),
     (0x2010_1000_0007_8000, .recirc ⟨0, 4, 0, 0, 0, 0, 0, 15, 0⟩),
     (0x2014_8000_1302_0000, .accept ⟨2, 0, 0, 0, 0, 0, 38, 4, 0⟩),
     (0x2018_0002_C000_0000, .drop ⟨0, 0, 0, 5, 1, 0, 0, 0, 0⟩),
     (0x201C_0000_0000_0000, .hold ⟨0, 0, 0, 0, 0, 0, 0, 0, 0⟩),
     (0x2020_0400_11FF_8000, .newb ⟨0, 1, 0, 0, 0, 0, 35, 255, 0⟩),
     (0x2024_0000_8000_0000, .endb ⟨0, 0, 0, 1, 0, 0, 0, 0, 0⟩),
     (0x2028_2400_0000_7800, .tok ⟨0, 9, 0, 0, 0, 0, 0, 0, 15⟩),
     (0x202C_0400_0004_8000, .bari ⟨0, 1, 0, 0, 0, 0, 0, 9, 0⟩),
     (0x2030_0800_0000_0000, .swi ⟨0, 2, 0, 0, 0, 0, 0, 0, 0⟩)] = true := by decide +kernel

/-- Op 0x30 (R151): each instruction of the group from a word laid out by hand. -/
theorem test_decode_memory : allRead
    [(0x3000_3100_6000_4004, .ld ⟨3, 4, 0, 0, 0, 6, 64, 0, 1, 0⟩),
     (0x3004_3133_2FFF_FF2E, .st ⟨3, 4, 3, 1, 1, 2, 1048575, 1, 3, 2⟩),
     (0x300A_3100_7000_0040, .ldv ⟨35, 4, 0, 0, 0, 7, 0, 2, 0, 0⟩),
     (0x300F_1100_7800_0060, .stv ⟨49, 4, 0, 0, 0, 7, 524288, 3, 0, 0⟩),
     (0x3012_3100_7000_0001, .pld ⟨35, 4, 0, 0, 0, 7, 0, 0, 0, 1⟩),
     (0x3014_3100_3000_0000, .pst ⟨3, 4, 0, 0, 0, 3, 0, 0, 0, 0⟩),
     (0x3018_3100_3000_0000, .pclear ⟨3, 4, 0, 0, 0, 3, 0, 0, 0, 0⟩),
     (0x301C_6080_2000_0104, .sld ⟨6, 2, 0, 0, 0, 2, 1, 0, 1, 0⟩),
     (0x3022_6780_7000_0002, .sst ⟨38, 30, 0, 0, 0, 7, 0, 0, 0, 2⟩),
     (0x3024_0100_0000_0860, .pfetch ⟨0, 4, 0, 0, 0, 0, 8, 3, 0, 0⟩),
     (0x3028_0000_0000_001B, .fence ⟨0, 0, 0, 0, 0, 0, 0, 0, 6, 3⟩),
     (0x302C_3100_3000_0000, .tfence ⟨3, 4, 0, 0, 0, 3, 0, 0, 0, 0⟩)] = true := by decide +kernel

/-- Op 0x38 (R231 to R242): each instruction of the group from a word laid out by hand. -/
theorem test_decode_synchronisation : allRead
    [(0x3800_5187_2004_3C20, .atom ⟨5, 6, 7, 8, 0, 0, 0, 8, 3, 3, 1, 0⟩),
     (0x3800_0187_0000_4920, .atomTree ⟨0, 6, 7, 0, 0, 0, 0, 0, 4, 2, 9, 0⟩),
     (0x3804_3187_0002_B48C, .wait ⟨3, 6, 7, 0, 0, 0, 0, 5, 3, 1, 4, 12⟩),
     (0x3808_3187_0000_3000, .hbarArrive ⟨3, 6, 7, 0, 0, 0, 0, 0, 3, 0, 0, 0⟩),
     (0x3808_3187_0000_A014, .hbarWait ⟨3, 6, 7, 0, 0, 0, 0, 1, 2, 0, 0, 20⟩),
     (0x3808_3187_0001_5014, .hbarAw ⟨3, 6, 7, 0, 0, 0, 0, 2, 5, 0, 0, 20⟩),
     (0x380C_3187_0000_401F, .bsync ⟨3, 6, 7, 0, 0, 0, 0, 0, 4, 0, 0, 31⟩),
     (0x3810_3007_0000_0000, .cntrEv ⟨3, 0, 7, 0, 0, 0, 0, 0, 0, 0, 0, 0⟩),
     (0x3810_3007_0100_8000, .cntrTask ⟨3, 0, 7, 0, 2, 0, 0, 1, 0, 0, 0, 0⟩),
     (0x3814_3000_0000_0000, .time ⟨3, 0, 0, 0, 0, 0, 0, 0, 0, 0, 0, 0⟩),
     (0x3814_3000_0020_8000, .timeLeft ⟨3, 0, 0, 0, 0, 2, 0, 1, 0, 0, 0, 0⟩)] = true := by decide +kernel

/-- Op 0x39 (R243 to R259): each instruction of the group from a word laid out by hand. -/
theorem test_decode_engines : allRead
    [(0x3900_4262_0000_0000, .cpy ⟨4, 9, 34, 0, 0, 0, 0, 0, 0, 0, 0, 0⟩),
     (0x3904_4262_0000_0C00, .dense ⟨4, 9, 34, 0, 0, 0, 0, 0, 0, 3, 0, 0⟩),
     (0x3908_4272_0000_3800, .sparsify ⟨4, 9, 50, 0, 0, 0, 0, 0, 3, 2, 0, 0⟩),
     (0x390C_4262_0000_0000, .a2a ⟨4, 9, 34, 0, 0, 0, 0, 0, 0, 0, 0, 0⟩),
     (0x3910_4262_0002_0000, .coll ⟨4, 9, 34, 0, 0, 0, 0, 4, 0, 0, 0, 0⟩),
     (0x3900_4262_0F80_0020, .cpyChain ⟨4, 9, 34, 3, 7, 0, 0, 0, 0, 0, 1, 0⟩),
     (0x3904_4262_0C00_0020, .denseChain ⟨4, 9, 34, 3, 0, 0, 0, 0, 0, 0, 1, 0⟩),
     (0x3908_4262_0C00_0020, .sparsifyChain ⟨4, 9, 34, 3, 0, 0, 0, 0, 0, 0, 1, 0⟩),
     (0x390C_4262_0C00_0020, .a2aChain ⟨4, 9, 34, 3, 0, 0, 0, 0, 0, 0, 1, 0⟩),
     (0x3910_4262_0C01_0020, .collChain ⟨4, 9, 34, 3, 0, 0, 0, 2, 0, 0, 1, 0⟩),
     (0x3914_4242_0000_0800, .chapp ⟨4, 9, 2, 0, 0, 0, 0, 0, 0, 2, 0, 0⟩),
     (0x3918_4240_0000_0000, .taskq ⟨4, 9, 0, 0, 0, 0, 0, 0, 0, 0, 0, 0⟩),
     (0x391C_4242_0000_02C0, .lpatch ⟨4, 9, 2, 0, 0, 0, 0, 0, 0, 0, 22, 0⟩),
     (0x3920_4240_0000_5800, .larm ⟨4, 9, 0, 0, 0, 0, 0, 0, 5, 2, 0, 0⟩)] = true := by decide +kernel

/-- Op 0x40 (R215, R220): each instruction of the group from a word laid out by hand. -/
theorem test_decode_matrix : allRead
    [(0x4001_0A20_C6DB_0000, .mma ⟨0, 1, 2, 1, 4, 3, 3, 3, 3, 3, 0, 0, 0, 0⟩),
     (0x4007_0A22_9452_8608, .mmas ⟨1, 1, 2, 1, 4, 10, 10, 1, 2, 2, 6, 0, 0, 1⟩),
     (0x400A_8A33_AE0A_4000, .mmaw ⟨1, 0, 34, 1, 6, 14, 23, 0, 1, 2, 0, 0, 0, 0⟩),
     (0x400E_0000_00D9_0000, .accz ⟨1, 0, 0, 0, 0, 0, 0, 3, 3, 1, 0, 0, 0, 0⟩),
     (0x4010_1C00_0000_2400, .accrd ⟨0, 0, 7, 0, 0, 0, 0, 0, 0, 0, 36, 0, 0, 0⟩),
     (0x4016_1C00_0000_3438, .accwr ⟨1, 0, 7, 0, 0, 0, 0, 0, 0, 0, 52, 1, 1, 1⟩),
     (0x4018_0C01_004B_2100, .acccvt ⟨0, 0, 3, 0, 0, 4, 0, 1, 1, 3, 33, 0, 0, 0⟩)] = true := by decide +kernel

/-- Op 0x41 (R224 to R229); SFIT is fn 1 and SSRCH fn 2 (log entry 30): each instruction of the group from a word laid out by hand. -/
theorem test_decode_weights : allRead
    [(0x4101_0A20_EE1A_4000, .seedx ⟨0, 1, 2, 1, 4, 3, 23, 0, 3, 2, 0, 0, 0, 0⟩),
     (0x4105_0918_AE0A_6500, .sfit ⟨0, 1, 2, 0, 35, 2, 23, 0, 1, 2, 37, 0, 0, 0⟩),
     (0x4109_0918_6E02_6500, .ssrch ⟨0, 1, 2, 0, 35, 1, 23, 0, 0, 2, 37, 0, 0, 0⟩),
     (0x410D_0918_6E9A_6500, .lshb ⟨0, 1, 2, 0, 35, 1, 23, 2, 3, 2, 37, 0, 0, 0⟩),
     (0x4111_0A20_42C2_0000, .tpose ⟨0, 1, 2, 1, 4, 1, 1, 3, 0, 2, 0, 0, 0, 0⟩),
     (0x4115_0A20_26C2_0500, .quant ⟨0, 1, 2, 1, 4, 0, 19, 3, 0, 2, 5, 0, 0, 0⟩),
     (0x4119_0A24_C2C2_0300, .deq ⟨0, 1, 2, 1, 4, 19, 1, 3, 0, 2, 3, 0, 0, 0⟩)] = true := by decide +kernel

/-! ### Well-formedness -/

/-- Each term is refused, for this reason where its row's own fields are right. -/
def allBad (ps : List (Instr × Reject)) : Bool := ps.all fun p => p.1.reject == some p.2

/-- One ill-formed term for each check of Format A: operand classes, predicates, F/E mode, shape, types, rounding, saturation, modifiers (R64,
R74, R78, R80, R87, R123, R127). -/
theorem test_refused_formatA : allBad
    [(.add ⟨56, 1, 1, 0, 0, 0, 0, 2, 0, 0, 0⟩, .reg), (.add ⟨1, 1, 1, 3, 0, 0, 0, 2, 0, 0, 0⟩, .rsvf), (.add ⟨1, 1, 1, 0, 0, 0, 1, 2, 0, 0, 0⟩, .fmt),
     (.neg ⟨1, 1, 0, 0, 2, 0, 0, 2, 0, 0, 0⟩, .rsvf), (.add ⟨1, 33, 1, 0, 0, 0, 0, 2, 0, 0, 0⟩, .reg), (.add ⟨1, 1, 1, 0, 0, 0, 0, 10, 0, 0, 0⟩, .fmt),
     (.add ⟨1, 1, 1, 0, 0, 0, 0, 2, 1, 0, 0⟩, .fmt), (.rem ⟨1, 1, 1, 0, 0, 0, 0, 2, 0, 1, 0⟩, .fmt), (.add ⟨1, 1, 1, 0, 0, 0, 0, 2, 0, 0, 1⟩, .rsvf),
     (.adds ⟨1, 1, 1, 0, 0, 0, 0, 2, 0, 0, 32⟩, .fmt), (.bext ⟨1, 1, 1, 0, 0, 0, 0, 0, 0, 0, 8⟩, .fmt), (.cmp ⟨57, 1, 33, 0, 0, 0, 0, 1, 0, 0, 0⟩, .fmt),
     (.cmp ⟨57, 1, 1, 0, 0, 0, 0, 2, 0, 0, 6⟩, .fmt), (.mov ⟨57, 1, 0, 0, 0, 0, 0, 0, 0, 0, 0⟩, .reg), (.movLane ⟨1, 33, 0, 0, 0, 0, 0, 3, 0, 0, 1⟩, .fmt),
     (.movid ⟨1, 11, 0, 0, 0, 0, 0, 0, 0, 0, 0⟩, .reg), (.pfx ⟨33, 33, 0, 0, 0, 0, 0, 2, 0, 0, 12⟩, .fmt), (.lnred ⟨33, 33, 0, 0, 0, 0, 0, 2, 0, 0, 1⟩, .fmt),
     (.fadd ⟨1, 1, 1, 0, 0, 0, 0, 10, 4, 0, 0⟩, .fmt), (.fcvt ⟨33, 33, 0, 0, 0, 0, 0, 10, 0, 0, 5⟩, .fmt), (.fcvt ⟨33, 33, 0, 0, 0, 0, 0, 10, 0, 0, 128⟩, .fmt),
     (.fcvt ⟨33, 33, 0, 0, 0, 0, 0, 10, 5, 0, 1⟩, .fmt), (.fcvtFrom ⟨33, 33, 0, 0, 0, 0, 0, 10, 0, 0, 520⟩, .fmt), (.ftoi ⟨1, 1, 0, 0, 0, 0, 0, 10, 0, 0, 8⟩, .fmt),
     (.itof ⟨1, 1, 0, 0, 0, 0, 0, 2, 0, 0, 3⟩, .fmt), (.fpack ⟨33, 33, 33, 0, 0, 0, 0, 10, 0, 0, 9⟩, .fmt), (.funpack ⟨33, 33, 0, 0, 0, 0, 0, 10, 0, 0, 72⟩, .fmt)]
    = true := by decide +kernel

/-- The same for Formats I, C and M (R81 to R83, R127, R130, R148, R151, R197). -/
theorem test_refused_formatsICM : allBad
    [(.addImm ⟨1, 33, 0, 0, 0, 0⟩, .reg), (.shlImm ⟨33, 33, 0, 0, 0, 32⟩, .fmt), (.trap ⟨1, 0, 0, 0, 0, 0⟩, .rsvf), (.halt ⟨0, 0, 0, 0, 0, 1⟩, .rsvf),
     (.sysrd ⟨1, 0, 0, 0, 0, 10⟩, .fmt), (.movi ⟨1, 0, 1, 0, 0, 0⟩, .rsvf), (.movhi ⟨33, 0, 0, 0, 0, 0⟩, .reg),
     (.emit ⟨0, 1, 0, 0, 0, 0, 0, 3, 0⟩, .fmt), (.emit ⟨1, 1, 0, 0, 0, 0, 0, 0, 0⟩, .rsvf), (.split ⟨0, 7, 0, 0, 0, 0, 57, 0, 0⟩, .fmt), (.merge ⟨3, 0, 0, 0, 0, 0, 0, 0, 0⟩, .fmt),
     (.recirc ⟨0, 1, 0, 0, 0, 0, 0, 0, 0⟩, .fmt), (.accept ⟨1, 0, 0, 0, 0, 0, 33, 0, 0⟩, .fmt), (.newb ⟨0, 1, 0, 0, 0, 0, 48, 0, 0⟩, .reg), (.drop ⟨0, 0, 0, 0, 0, 1, 0, 0, 0⟩, .rsvf),
     (.ld ⟨33, 1, 0, 0, 0, 3, 0, 0, 0, 0⟩, .reg), (.ld ⟨1, 33, 0, 0, 0, 3, 0, 0, 0, 0⟩, .reg), (.ld ⟨1, 1, 2, 0, 0, 3, 0, 0, 0, 0⟩, .rsvf), (.ld ⟨1, 1, 0, 0, 0, 8, 0, 0, 0, 0⟩, .fmt),
     (.st ⟨1, 1, 0, 0, 0, 3, 0, 2, 0, 0⟩, .fmt), (.ld ⟨1, 1, 0, 0, 0, 3, 0, 0, 7, 0⟩, .fmt), (.sld ⟨1, 3, 0, 0, 0, 3, 0, 0, 0, 0⟩, .reg), (.sld ⟨1, 2, 0, 0, 0, 7, 0, 0, 0, 0⟩, .fmt),
     (.fence ⟨0, 0, 0, 1, 0, 0, 0, 0, 0, 1⟩, .rsvf), (.fence ⟨0, 0, 0, 0, 0, 0, 0, 0, 0, 0⟩, .fmt)]
    = true := by decide +kernel

/-- The same for Formats X and Y (R84, R85, R205 to R229, R233 to R259). -/
theorem test_refused_formatsXY : allBad
    [(.atom ⟨1, 2, 3, 0, 0, 0, 0, 9, 0, 0, 0, 0⟩, .fmt), (.atom ⟨1, 2, 3, 0, 0, 0, 0, 0, 0, 0, 4, 0⟩, .fmt), (.atomTree ⟨1, 2, 3, 0, 0, 0, 0, 0, 2, 0, 8, 0⟩, .reg),
     (.wait ⟨0, 2, 3, 0, 0, 0, 0, 0, 0, 0, 0, 0⟩, .reg), (.hbarAw ⟨1, 2, 3, 0, 0, 0, 0, 2, 6, 0, 0, 0⟩, .fmt), (.hbarArrive ⟨1, 2, 3, 0, 0, 0, 0, 0, 3, 0, 0, 5⟩, .rsvf),
     (.bsync ⟨1, 2, 3, 0, 0, 0, 0, 0, 2, 0, 0, 0⟩, .fmt), (.time ⟨1, 2, 0, 0, 0, 0, 0, 0, 0, 0, 0, 0⟩, .rsvf), (.cpy ⟨1, 2, 3, 0, 0, 0, 0, 0, 0, 0, 0, 0⟩, .reg),
     (.coll ⟨1, 2, 34, 0, 0, 0, 0, 5, 0, 0, 0, 0⟩, .fmt), (.larm ⟨1, 33, 0, 0, 0, 0, 0, 0, 0, 0, 0, 0⟩, .reg),
     (.mma ⟨0, 1, 3, 1, 4, 3, 3, 3, 3, 3, 0, 0, 0, 0⟩, .reg), (.mma ⟨0, 1, 2, 1, 4, 3, 3, 5, 3, 3, 0, 0, 0, 0⟩, .fmt), (.mma ⟨0, 1, 2, 1, 4, 3, 3, 3, 3, 3, 1, 0, 0, 0⟩, .rsvf),
     (.accz ⟨0, 0, 0, 0, 0, 0, 0, 3, 3, 2, 0, 0, 0, 0⟩, .fmt), (.accrd ⟨0, 0, 33, 0, 0, 0, 0, 0, 0, 0, 36, 0, 0, 0⟩, .reg), (.acccvt ⟨0, 0, 1, 0, 0, 5, 0, 0, 0, 0, 36, 0, 0, 0⟩, .fmt),
     (.ssrch ⟨0, 0, 34, 0, 35, 1, 23, 1, 0, 0, 36, 0, 0, 0⟩, .fmt), (.lshb ⟨0, 0, 34, 0, 35, 1, 23, 0, 0, 0, 36, 0, 0, 0⟩, .fmt), (.tpose ⟨0, 1, 2, 1, 4, 1, 2, 0, 0, 0, 0, 0, 0, 0⟩, .fmt),
     (.quant ⟨0, 1, 2, 1, 4, 0, 23, 0, 0, 2, 0, 0, 0, 0⟩, .fmt), (.deq ⟨0, 1, 2, 1, 4, 19, 3, 0, 0, 2, 0, 0, 0, 0⟩, .fmt)]
    = true := by decide +kernel

/-- Rows that share an op and fn: the discriminating field must be the row's (R85, R134, R143). -/
theorem test_refused_rows :
    ([.mov ⟨1, 33, 0, 0, 0, 0, 0, 2, 0, 0, 0⟩, .movLane ⟨33, 33, 0, 0, 0, 0, 0, 2, 0, 0, 0⟩, .fcvt ⟨1, 1, 0, 0, 0, 0, 0, 10, 0, 0, 512⟩,
      .fcvtFrom ⟨1, 1, 0, 0, 0, 0, 0, 10, 0, 0, 0⟩, .atomTree ⟨0, 2, 3, 0, 0, 0, 0, 0, 2, 0, 0, 0⟩, .hbarWait ⟨1, 2, 3, 0, 0, 0, 0, 0, 3, 0, 0, 0⟩,
      .timeLeft ⟨1, 0, 0, 0, 0, 0, 0, 0, 0, 0, 0, 0⟩, .cntrTask ⟨1, 0, 3, 0, 0, 0, 0, 0, 0, 0, 0, 0⟩, .cpyChain ⟨1, 2, 34, 3, 0, 0, 0, 0, 0, 0, 0, 0⟩] : List Instr).all
      (fun i => !i.rowOk) = true := by decide +kernel

/-! ### A small machine -/

/-- A leaf of class `cls` that may be read and written (R371, R372). -/
def leaf (pa cls : Nat) : Nat := pa + 0x39 + 0x80 * cls

/-- 64-bit words put into memory. -/
def words (ws : List (Nat × Nat)) : List Host.Cell := ws.flatMap fun p => cellsAt p.1 (bytesOf 8 p.2)

/-- Tables of context 0 at 0x1000: the pages 0 to 9 of its space lie at 0x10000 up and are PLAIN, PRESENCE, SYNC, SPARSE, SPARSE, IMG, PLAIN,
PLAIN, PLAIN, PLAIN (R370 to R372). -/
def pages : List Host.Cell := memWrite (words
  ([(0x1000, 0x2001), (0x2000, 0x3001), (0x3000, 0x4001), (0x4000, 0x5001)]
    ++ (List.range 10).map fun n => (0x5000 + 8 * n, leaf (0x10000 + 0x1000 * n) ([0, 1, 2, 3, 3, 5].getD n 0)))) []

/-- Memory with these words beside the tables. -/
def memory (ws : List (Nat × Nat)) : List Host.Cell := memWrite (words ws) pages

/-- The task of the small machine, and its launch. -/
def aTask : Task :=
  { ctx := 0, idx := 2, lseq := 1, die := 0, dom := [(0, 8)], texp := 20, prio := 1, args := [], phase := .running 0, deps := 0, succs := [],
    irrev := false, replays := 0, depth := 0, parent := none, kids := 0, readyAt := 0, aged := false, reserved := true, by_ := none, record := 0 }
def aLaunch : Launch :=
  { ctx := 0, idx := 2, lseq := 1, snap := List.replicate 32 0, hdr := List.replicate 32 0, running := true, live := 1, pieces := 1, reported := [],
    sent := [], result := 0, aborts := 0, stopped := false }

/-- A bead with two full slots, started at the first instruction. -/
def aBead : Bead := ⟨0xFFFF, 0, 0, 0, [⟨0, true⟩, ⟨0, true⟩], 0, true, 0, 0⟩

/-- The header of an element with an eight-instruction program, two slots, inputs 0 and 1 and outputs 0 and 1 (R52 Table 5). -/
def aHeader (join : Nat) : Word := BitVec.ofNat 64 (3 * 2 ^ 60 + 3 * 2 ^ 56 + 2 * 2 ^ 52 + 2 * 2 ^ 48 + join * 2 ^ 46)

/-- Tile 0 of the small machine: a node program of NOPs, a bead, and a carve-out of 1 KiB. -/
def aTile : Tile :=
  { Tile.reset with
    region := some 0
    bank0 := ⟨[(0, [aHeader 0, BitVec.ofNat 64 (2 ^ 48), 0, 0]), (1, [0, 0, 0, 0])], false, false⟩
    beads := [aBead] }

/-- A READY package whose context 0 is ACTIVE and runs a task on tile 0. -/
def small (T : Tile) (ws : List (Nat × Nat)) : State :=
  { State.reset with
    mem := memory ws
    tiles := [(0, T)]
    nregion := 1
    nhandle := 2
    regions := [(0, { unitRegion with task := 1, scr := 1 })]
    tasks := [(1, aTask)]
    launches := [aLaunch]
    ctxs := [{ Ctx.reset with state := 1, ptroot := 0x1000, pool := 0x100000, fqbase := 0x10000, fqn := 6 }, .reset, .reset, .reset]
    boot := { Boot.reset with bstate := 4, live := 0xF } }

/-- Tile 0 with X registers set. -/
def withX (T : Tile) (rs : List (Nat × Nat)) : Tile := { T with x := rs.foldl (fun x r => x.set r.1 ⟨BitVec.ofNat 64 r.2, true⟩) T.x }

/-- The Bool of `State.canIssue`: the two agree. -/
def can (s : State) (run : Bool) (srcs : List Src) : Bool := run && srcs.all fun x => s.me.full x.spec
theorem can_iff (s : State) (run : Bool) (srcs : List Src) : can s run srcs = true ↔ s.canIssue run srcs := by
  simp [can, State.canIssue, List.all_eq_true]

/-- The Bool forms of the other conditions to issue. -/
def canA (s : State) (f : FmtA) (n : Nat) : Bool := can s (executes (s.me.effMask f.pg f.ps) (!Spec.isX f.dst)) (srcsA f n)
def canI (s : State) (f : FmtI) (src : Bool) : Bool :=
  can s (executes (s.me.effMask f.pg f.ps) (!Spec.isX f.dst)) (if src then [⟨f.sa, f.fe == 1, 0⟩] else [])
def canC (s : State) (f : FmtC) (srcs : List Src) : Bool := can s (executes (s.me.effMask f.pg f.ps) true) srcs
def canM (s : State) (f : FmtM) (vector source : Bool) : Bool :=
  can s (executes (s.me.effMask f.pg f.ps) vector)
    (if source then [⟨f.reg, f.fe.getLsbD 1, 0⟩, ⟨f.base, f.fe.getLsbD 0, 1⟩] else [⟨f.base, f.fe.getLsbD 0, 1⟩]) && !s.heldBack
def canY (s : State) (f : FmtY) (n : Nat) : Bool := can s (executes (s.me.effMask f.pg f.ps) false) (srcsY f n) && !s.heldBack
theorem can_forms (s : State) :
    (∀ f n, canA s f n = true ↔ s.canA f n) ∧ (∀ f b, canI s f b = true ↔ s.canI f b) ∧ (∀ f l, canC s f l = true ↔ s.canC f l)
      ∧ (∀ f v b, canM s f v b = true ↔ s.canM f v b) ∧ ∀ f n, canY s f n = true ↔ s.canY f n := by
  refine ⟨fun f n => can_iff _ _ _, fun f b => can_iff _ _ _, fun f l => can_iff _ _ _, fun f v b => ?_, fun f n => ?_⟩
  · simp [canM, State.canM, can_iff]
  · simp [canY, State.canY, can_iff]

/-- Tile 0 works and a unit of it can take a step. -/
def unitCan (s : State) (t u : Nat) : Bool := (s.active t).isSome && (s.tile t).configured u && (s.tile t).roomy u

/-- What a computation answers, when it is no fault. -/
def good {α : Type} (x : State × Except Flt α) (p : State → α → Bool) : Bool := match x.2 with | .ok a => p x.1 a | .error _ => false

/-! ### Witnesses: element instructions -/

/-- NoLaneNoEffect: a bead with no lane left of the mask p1 = 0. -/
theorem witness_NoLaneNoEffect :
    executes ((small aTile []).me.effMask 1 0) (!Spec.isX 33) = false ∧ executes ((small aTile []).me.effMask 1 0) (!Spec.isX 1) = false
      ∧ executes ((small aTile []).me.effMask 1 0) false = false := by decide +kernel

/-- The small machine with x2 empty. -/
def emptyX2 : State := small { aTile with x := aTile.x.set 2 ⟨0, false⟩ } []

/-- EmptySourcesBlockOrTrap: an empty source without its mode bit, and one with it. -/
theorem witness_EmptySourcesBlockOrTrap :
    (let f : FmtA := ⟨1, 2, 3, 0, 0, 0, 0, 2, 0, 0, 0⟩
     executes (emptyX2.me.effMask f.pg f.ps) (!Spec.isX f.dst) && (srcsA f 2).any (fun x => !emptyX2.me.full x.spec)
      && (srcsA f 2).all fun x => emptyX2.me.full x.spec || !x.fe) = true
    ∧ (let f : FmtA := ⟨1, 2, 3, 0, 4, 0, 0, 2, 0, 0, 0⟩
     executes (emptyX2.me.effMask f.pg f.ps) (!Spec.isX f.dst) && (srcsA f 2).any fun x => !emptyX2.me.full x.spec && x.fe) = true := by decide +kernel

/-- EmptySourcesBlockOrTrap: an instruction of each format with an empty source without its mode bit, and, where the format has one, with it. -/
theorem witness_EmptySources_formats :
    (let s := small { aTile with
       x := aTile.x.set 2 ⟨0, false⟩
       v := aTile.v.set 2 ⟨0, false⟩
       beads := [{ aBead with slots := [⟨0, true⟩, ⟨0, false⟩] }] } []
     let has := fun (l : List (Instr × Bool × List Src)) (i : Instr) (fe : Bool) =>
       l.any fun q => q.1 == i && q.2.1 && q.2.2.any fun x => !s.me.full x.spec && x.fe == fe
     [false, true].all (fun b =>
       let n := if b then 7 else 0
       let ai := s.sourcedAI ⟨1, 2, 3, 0, BitVec.ofNat 3 n, 0, 0, 2, 0, 0, 0⟩ ⟨2, 2, BitVec.ofNat 1 n, 0, 0, 5⟩
       let cm := s.sourcedCM ⟨0, 1, 0, 0, 0, BitVec.ofNat 1 n, 2, 0, 0⟩ ⟨2, 3, BitVec.ofNat 2 n, 0, 0, 3, 0, 0, 1, 0⟩
       let xy := s.sourcedXY ⟨0, 0, 1, 0, 35, 3, 3, 0, 0, 0, 34, 0, 0, BitVec.ofNat 1 n⟩ ⟨4, 2, 3, 5, BitVec.ofNat 3 n, 0, 0, 0, 3, 0, 0, 0⟩
       has ai (.add ⟨1, 2, 3, 0, BitVec.ofNat 3 n, 0, 0, 2, 0, 0, 0⟩) b && has ai (.addImm ⟨2, 2, BitVec.ofNat 1 n, 0, 0, 5⟩) b
        && has ai (.movhi ⟨2, 2, BitVec.ofNat 1 n, 0, 0, 5⟩) b && has cm (.route ⟨0, 1, 0, 0, 0, BitVec.ofNat 1 n, 2, 0, 0⟩) b
        && has cm (.st ⟨2, 3, BitVec.ofNat 2 n, 0, 0, 3, 0, 0, 1, 0⟩) b
        && has xy (.accwr ⟨0, 0, 1, 0, 35, 3, 3, 0, 0, 0, 34, 0, 0, BitVec.ofNat 1 n⟩) b
        && has xy (.atom ⟨4, 2, 3, 5, BitVec.ofNat 3 n, 0, 0, 0, 3, 0, 0, 0⟩) b)
      && has (s.sourcedCM ⟨0, 1, 0, 0, 0, 0, 1, 0, 0⟩ ⟨1, 3, 0, 0, 0, 3, 0, 0, 1, 0⟩) (.recirc ⟨0, 1, 0, 0, 0, 0, 1, 0, 0⟩) false) = true := by decide +kernel

/-- ElementResultsAreWritten and LongLatencyIssue: x0, x31, v0, v15 and the last slot of a bead are there. -/
theorem witness_ElementResultsAreWritten :
    aTile.sized ∧ aTile.has 0 ∧ aTile.has 31 ∧ aTile.has 32 ∧ aTile.has 47 ∧ aTile.has 49 ∧ Spec.isX 0 = true ∧ Spec.isX 31 = true
      ∧ Spec.isV 32 = true ∧ Spec.isV 49 = true ∧ Spec.isP 49 = false := by
  refine ⟨⟨rfl, rfl, rfl⟩, ?_, ?_, ?_, ?_, ?_, by decide, by decide, by decide, by decide, by decide⟩
  · exact fun h => absurd h (by decide)
  · exact fun h => absurd h (by decide)
  · exact fun h => absurd h (by decide)
  · exact fun h => absurd h (by decide)
  · exact fun _ => ⟨aBead, rfl, by decide⟩

/-- The small machine can issue Format A in scalar, vector and predicate shape, and Format I in both shapes: the hypotheses of
IntegerResults, LogicalResults, CompareAndMoveResults, LaneAndPredicateResults, FloatResults, ConversionResults and
RegisterInstructionsFrame. -/
theorem witness_RegisterInstructions :
    (let s := small aTile []
     [1, 2, 3].all fun n => canA s ⟨0, 31, 1, 2, 0, 0, 0, 2, 0, 0, 0⟩ n && canA s ⟨47, 33, 49, 2, 7, 0, 0, 2, 0, 0, 0⟩ n
        && canA s ⟨63, 33, 34, 0, 0, 0, 0, 2, 0, 0, 0⟩ n && canI s ⟨31, 0, 1, 0, 0, 0⟩ true && canI s ⟨33, 33, 0, 0, 0, 0⟩ false
        && can s ((s.me.effMask 0 0).getLsbD 0) [⟨9, true, 0⟩]) = true
    ∧ (small aTile []).me.effMask 0 0 ≠ 0 := by decide +kernel

/-- LaneAndPredicateResults, PAND with mod[0] = 1: lanes fail, some or all. -/
theorem witness_PandDropsLanes :
    (let s := small { aTile with p := [0xFFFF, 0x00F0, 0, 0, 0, 0, 0, 0] } []
     let left := fun (a : BitVec 6) => s.me.lmask &&& ~~~(s.me.effMask 0 0 &&& ~~~(s.me.srcPred a &&& s.me.srcPred 56))
     (1 : BitVec 10).getLsbD 0 ∧ left 57 = 0x00F0 ∧ left 58 = 0) := by decide +kernel

/-- BeadPortInstructions and BeadInstructionsFrame: beads to emit, ports with room and without, a port that xs names and one it does not, side
inputs that are empty, hold a token, a STOP, a bead; lanes left and none; operations outstanding; a region that is shadow-ready. -/
def portTile (bs : List Beat) : Tile := { withX aTile [(2, 5)] with inq := [(1, ⟨bs, 0⟩)] }
theorem witness_BeadPortInstructions :
    (let s := small (portTile []) []
     let full := small { portTile [] with outq := [(0, ⟨List.replicate 15 (.control 5 0 0 0), 0⟩)] } []
     let bead := Beat.ofBead 0 aBead [0, 0]
     canC s ⟨0, 3, 0, 0, 0, 0, 0, 0, 0⟩ (slotSrcs (allSlots s.me)) && canC s ⟨0, 3, 0, 0, 0, 0, 2, 0, 0⟩ (⟨2, false, 0⟩ :: slotSrcs (allSlots s.me))
      && (s.me.readX 2).toNat % 4 == 1 && canC s ⟨0, 1, 0, 0, 0, 0, 33, 0, 0⟩ [⟨33, false, 0⟩, ⟨34, false, 0⟩] && canC s ⟨2, 0, 0, 0, 0, 0, 0, 0, 0⟩ []
      && decide ((s.me.outQ 0).beats.length + bead.length ≤ 16) && !decide ((full.me.outQ 0).beats.length + bead.length ≤ 16)
      && (s.me.inHead 1).isNone) = true
    ∧ ((portTile [.tokens 2 0 [7]]).inHead 1).map Beat.kind = some 2 ∧ ((portTile [.control 3 1 0 0]).inHead 1).map Beat.kind = some 3
    ∧ ((portTile [.control 4 0 0 0]).inHead 1).map Beat.kind = some 4 ∧ (beadAt ((portTile (Beat.ofBead 0 aBead [0, 0])).inQ 1)).isSome = true
    ∧ (portTile []).ops = [] ∧ (aTile.issueOp .load 1 0 none false .nop).ops ≠ []
    ∧ (portTile []).unperformed = false ∧ (aTile.issueOp .load 1 0 none false .nop).unperformed = true
    ∧ (((small aTile []).regionOf 0).map fun q => q.2.shadow) = some false
    ∧ ((((small aTile []).onRegion 0 fun g => { g with shadow := true }).regionOf 0).map fun q => q.2.shadow) = some true := by decide +kernel

/-! ### Witnesses: memory -/

/-- A load and a store at its place: what `State.readsAt` and `State.storesAt` ask. -/
def readable (s : State) (w : Want) (va n : Nat) : Bool :=
  good (s.page s.site none 0 va w) fun s q => !s.loading q.pa n && (s.barred q.pa va).isNone && match (s.fetch 0 q va n).2 with
    | .now bs => bs.length == n | _ => false
def storable (s : State) (va : Nat) : Bool :=
  good (s.page s.site none 0 va .store) fun s q => !s.loading q.pa 8 && (s.barred q.pa va).isNone && !s.wouldSpoil q.cmp (cellsAt q.pa (bytesOf 8 0))

/-- LoadsAndStores and StoreFrame: places in a page, in the carve-out at its last byte, in a vault window, addresses that fault, and a block
that the memory interface decodes first. -/
theorem witness_LoadsAndStores :
    (let s := small (withX aTile [(2, 0x10), (3, 0x3FF), (4, 2 ^ 24 + 8), (5, 0x40)]) []
     let g := s.onCtx 0 fun C => { C with vgrant := [2, 0, 0, 0] }
     let ld := fun (base sz space : BitVec 6) => (⟨1, base, 0, 0, 0, sz.setWidth 4, 0, space.setWidth 3, 1, 0⟩ : FmtM)
     let at' := fun (s : State) (f : FmtM) => s.resolve f.space.toNat (s.effAddr f) (accessBytes f.sz.toNat)
     canM s (ld 2 3 0) false false && canM s (ld 5 7 0) true false && canM s (ld 2 3 0) false true && canM s (ld 5 7 0) true true
      && at' s (ld 2 3 0) == .at_ (.virt 0x10 false) && readable s (.load 3) 0x10 8 && storable s 0x10
      && at' s (ld 5 7 0) == .at_ (.virt 0x40 false) && readable s (.load 7) 0x40 64
      && (laneCells (s.me.effMask 0 0) (s.me.readV 33)).length == 64 && s.resolve 2 0x40 64 == .at_ (.scratch 0 0x40)
      && at' s (ld 3 0 1) == .at_ (.scratch 0 0x3FF) && !s.scratchBad 0 0x3FF 1 && at' s (ld 5 3 2) == .at_ (.scratch 0 0x40)
      && at' g (ld 4 3 3) == .at_ (.vault (vaultBase + 2 ^ 24 + 8)) && (match (g.fetch 0 ⟨vaultBase + 2 ^ 24 + 8, 24, 0⟩ (2 ^ 24 + 8) 8).2 with | .now _ => true | _ => false)
      && good (s.page s.site none 0 0x10 (.load 3)) (fun s q => match (({ s with tags := [(q.pa / 256, 9)] } : State).fetch 0 { q with pte := q.pte ||| 2 ^ 10 } 0x10 8).2 with
        | .mit => s.mitRoom q.pa 0 | _ => false)
      && at' s (ld 3 3 0) == .fault (.prot 0x3FF 2) && at' s (ld 4 3 3) == .fault (.prot (2 ^ 24 + 8) 3)
      && (match s.region? 0 with | some g => decide (g.used + 1 ≤ g.capacity) | none => false)) = true := by decide +kernel

/-- PresenceAndFences: words that are there and that are not, one that is there already, a range to clear, and fences with something and with
nothing outstanding, sent and not sent, acknowledged and not. -/
theorem witness_PresenceAndFences :
    (let s := small (withX aTile [(2, 0x1000), (3, 8), (4, 0x1000)]) []
     let full := { s with pres := [0x2200] }
     let busy := small { withX aTile [(2, 0x1000)] with ops := [⟨0, .load, .none, 0, none, false, .nop⟩] } []
     let sent := fun (left : List Nat) => { s with fences := [⟨0, 0x1000, 0x1000, left, some 0, 0, 0⟩] }
     let f : FmtM := ⟨3, 2, 0, 0, 0, 3, 0, 0, 1, 0⟩
     canM s f false false && canM s f false true && good (s.page s.site none 0 0x1000 .present) (fun s q => (s.barred q.pa 0x1000).isNone && !inRemote q.pa && !s.pres.contains (q.pa / 8))
      && good (full.page s.site none 0 0x1000 .present) (fun s q => s.pres.contains (q.pa / 8))
      && good (s.page s.site none 0 0x1000 .setPresent) (fun s q => (s.barred q.pa 0x1000).isNone && !s.pres.contains (q.pa / 8) && !s.wouldSpoil q.cmp (cellsAt q.pa (bytesOf 8 0)))
      && good (full.page s.site none 0 0x1000 .setPresent) (fun s q => s.acted.pres.contains (q.pa / 8))
      && good (s.pieces s.site s.myCtx .setPresent (8 / 4096 + 2) 0x1000 0x1008) (fun _ ps => ps == [(0x1000, 0x11000, 8)])
      && !s.mustReplay unitRegion && !s.me.unperformed && !s.uncommitted 0 unitRegion && (s.me.readX 3).toNat % 8 == 0 && (s.me.readX 3).toNat != 0 && busy.outstanding && !s.outstanding && can s (executes (s.me.effMask 0 0) false) []
      && (s.fences.find? fun x => x.t == some s.here).isNone && ((sent []).fences.find? fun x => x.t == some 0).isSome
      && ((sent [0]).fences.find? fun x => x.t == some 0).isSome) = true
    ∧ presenceWords ⟨33, 2, 0, 0, 0, 7, 0, 0, 1, 0⟩ 0xFFFF = [0, 1, 2, 3, 4, 5, 6, 7] := by decide +kernel

/-- A descriptor at 0x3000 of one partition with extent 100, of INT32 values, already named (R193). -/
def aDescriptor : List (Nat × Nat) :=
  [(0x13000, 0x53504152 + 2 * 2 ^ 44), (0x13008, 100), (0x13018, 0x3100), (0x13020, 16), (0x13080, 1)]
def treeState (T : Tile) (more : List (Nat × Nat)) : State :=
  { small T (aDescriptor ++ more) with trees := [(0x13000, { ok := true, parts := [{ Part.empty with leaves := [[(7, 70)]] }], vseq := 0, words := [] })] }

/-- KeyAccesses: one key, at the last one of the region, and a vector of keys; a store of it finds its nodes. -/
theorem witness_KeyAccesses :
    (let s := treeState (withX aTile [(2, 0x3000), (3, 98), (6, 5)]) []
     let v := treeState (withX aTile [(2, 0x3000), (3, 83)]) []
     let b : List Src := [⟨2, false, 1⟩, ⟨3, false, 1⟩]
     can s (executes (s.me.effMask 0 0) false) (⟨6, false, 0⟩ :: b) && can v (executes (v.me.effMask 0 0) true) b && !s.heldBack
      && good (s.openKeys 0x3000 false) (fun s d => !inRemote d && 8 * accessBytes 2 == Spec.tyWidth (s.descVty d) && decide (98 + 1 < s.keyEnd d)
        && !s.brokenAt d 99 && (s.regionOf s.here).isSome)
      && good (v.openKeys 0x3000 false) (fun s d => decide (83 + 1 + 15 < s.keyEnd d))
      && good (s.openKeys 0x3000 true) (fun s d => !s.me.unperformed && (match (s.reserveAll d [(99, 5)] []).2 with | .ok _ => true | .error _ => false))
      && decide (0 + 2 * 1 ≤ unitRegion.capacity)) = true := by decide +kernel

/-! ### Witnesses: synchronisation -/

def syncGood (s : State) (ea n : Nat) (write : Bool) (p : State → Nat → Bool) : Bool :=
  match s.syncWord ea n write with | (s, .word pa) => p s pa | _ => false
def syncBad (s : State) (ea n : Nat) (write : Bool) : Bool := match (s.syncWord ea n write).2 with | .bad _ => true | _ => false

/-- SynchronisationRequests, and the frame of CountersAndSystemReads: a SYNC word that may be asked, one with an operation of the element on
it, a page of another class, a misaligned address, one with no page, a word of a package that is lost, counts of 0, 1, 2^32 − 1 and 2^32, a
region with no BSYNC and one with it. -/
theorem witness_SynchronisationRequests :
    (let xs := [(6, 0x2008), (7, 1), (8, 0x8), (9, 0x2004), (10, 2 ^ 32 - 1), (11, 2 ^ 32)]
     let s := small (withX aTile xs) []
     let f : FmtY := ⟨5, 6, 7, 10, 0, 0, 0, 0, 3, 3, 0, 0⟩
     let busy : State := { s with armed := [⟨0, 0x12008, 0, 64, true, 0, 5, 0, 0, 0x2008, 0, false⟩] }
     let lost : State := { small (withX aTile xs) [(0x5048, leaf (remoteBase + 2 ^ 42) 2)] with
       fleet := { Fleet.reset with en := true, dimx := 1, lst := List.replicate 16 2, lostPkg := [1] } }
     canY s f 3 && canY s f 2 && canY busy f 2 && canY lost f 2
      && syncGood s 0x2008 8 true (fun s pa => !s.combining pa && !inRemote pa && !s.mustReplay unitRegion && !s.me.unperformed && !s.uncommitted 0 unitRegion)
      && syncGood s 0x2008 8 false (fun _ pa => pa == 0x12008) && syncGood busy 0x2008 8 true (fun s pa => s.combining pa && !s.mayAsk pa)
      && syncBad s 8 8 true && syncBad s 0x2004 8 true && syncBad s 8 8 false && syncGood s 0x2004 4 true (fun _ pa => pa == 0x12004)
      && (match (s.syncWord 0xF0000000 8 true).2 with | .fault _ => true | _ => false)
      && (match (lost.syncWord 0x9008 8 true).2 with | .lost pa => inRemote pa | _ => false)
      && yB s { f with sb := 0 } == 0 && decide (0 < yB s f) && decide (yB s { f with sb := 10 } < 2 ^ 32) && decide (2 ^ 32 ≤ yB s { f with sb := 11 }) && decide (yC s f < 2 ^ 32)
      && (match s.regionOf s.here with | some (_, g) => g.bsync.isNone | none => false)
      && (match (s.onRegion 0 fun g => { g with bsync := some ⟨0, 0, 2, 4, 5, false, 0x2008, 0⟩ }).regionOf 0 with | some (_, g) => g.bsync.isSome | none => false)) = true := by
  decide +kernel

/-- A word with nothing of the element on it may be asked while its home has room, as it has when its queue is empty. -/
theorem witness_mayAsk : (small aTile []).mayAsk 0x12008 = true := by
  have c : (small aTile []).combining 0x12008 = false := by decide +kernel
  have q : (small aTile []).hsq = [] := rfl
  have m : (small aTile []).myCtx = 0 := by decide +kernel
  simp [State.mayAsk, c, State.hsqRoom, State.shares, q, m, tabGet]

/-- CountersAndSystemReads. -/
theorem witness_CountersAndSystemReads :
    (let s := small aTile []
     can s ((s.me.effMask 0 0).getLsbD 0) [⟨7, true, 1⟩] && (match s.regionOf s.here with | some (_, g) => (s.task? g.task).isSome | none => false)) = true := by decide +kernel

/-- A request of tile 0's operation 0 on the word at 0x12008. -/
def aRequest (r : HsqReq) : HsqEntry := ⟨0, 0x12008, 0, some 0, 0x2008, 0, r, 0⟩
def homeState (r : HsqReq) : State := { small aTile [] with hsq := [(0, [aRequest r])] }

/-- AtomicsAreApplied: an ATOM, a merged group and a CHAPP at the head of vault 0. -/
theorem witness_AtomicsAreApplied :
    (([HsqReq.atom 8 64 false 1 0, .atoms 0 64 false [(1, 0, 0), (2, 0, 1)], .chapp false 0x6080 0x16080 false (cellsAt 0x16080 [1, 2])].all fun r =>
      match (homeState r).takeHead 0 (fun e => match e.req with | .atom .. | .atoms .. | .chapp .. => true | _ => false) with
      | some (e, s) => !s.badSync e.pa && e.op == some 0 && (s.badWords e.pa).isEmpty && (s.appendSpoils 0 0x6080 (s.homeWord e.pa)).isNone
          && !s.wouldSpoil false (cellsAt 0x16080 [0]) && [0, 0x6100].all (fun tail => good (s.tailPlace ⟨0, 0, 0, 0⟩ 0 tail) fun _ l => l.isSome == (tail != 0))
          && !good (s.tailPlace ⟨0, 0, 0, 0⟩ 0 0xF0000000) (fun _ _ => true) && (match s.regionOf e.t with | some (_, g) => g.drain.isNone | none => false)
          && ({ s with bad := [0x12008 / 8] } : State).badSync e.pa
      | none => false) = true
    ∧ (let s : State := { small aTile [(0x5000, leaf 0x10000 0 + 2 ^ 10)] with tags := [(0x100, 9)] }
       s.appendSpoils 0 0x80 0 = some 0)) := by decide +kernel

/-- BarriersAndWaits: arrivals, a wait evaluated once, one past its deadline and one before it, and an armed WAIT whose time has come. -/
theorem witness_BarriersAndWaits :
    (let late := fun (s : State) => { s with time := 9 }
     (match (homeState (.arrive 1 0 [(0, 0, none), (0, 1, some (some 5))])).takeHead 0 (fun e => match e.req with | .arrive .. => true | _ => false) with
      | some (e, s) => !s.badSync e.pa | none => false)
     && ([(homeState (.wait 0 64 true 0 5 true false)), late (homeState (.wait 0 64 true 0 5 false false)), homeState (.wait 0 64 true 0 5 false false)].all fun s =>
      match s.takeHead 0 (fun e => e.ctx == 0 && match e.req with | .wait .. => true | _ => false) with
      | some (e, s) => !s.badSync e.pa && decide ((s.armed.filter fun a => homeVault a.pa == 0 && a.ctx == 0).length < 64) && homeVault e.pa == 0
          && !condHolds 0 64 true (s.syncRead e.pa 64) 0 == decide (s.syncRead e.pa 64 != 0)
      | none => false)
     && (late (homeState (.wait 0 64 true 0 5 false false))).hsq.any (fun q => q.2.any fun e => match e.req with | .wait _ _ _ _ due once _ => !once && decide (due < 9) | _ => false)
     && ({ small aTile [] with armed := List.replicate 64 ⟨0, 0x12010, 0, 64, true, 0, 5, 0, 0, 0x2010, 0, false⟩ } : State).armedFull 0 0
     && (let s := { small aTile [] with time := 5, armed := [⟨0, 0x12008, 0, 64, true, 0, 5, 0, 0, 0x2008, 0, false⟩] }
         (s.armed.map fun a => decide (a.deadline ≤ s.time)) == [true])) = true := by decide +kernel

/-- NodesAndBsync: an arrival below the top, a tree ATOM, an arrival at the top; a BSYNC that may arrive, and one before and past its deadline. -/
theorem witness_NodesAndBsync :
    (let node := fun (l : Nat) (r : HsqReq) => ({ small aTile [] with time := 8, combs := [⟨l, 0, 5, 8, aRequest r⟩] } : State)
     let b : Bsync := ⟨0, 0, 2, 4, 5, false, 0x2008, 0⟩
     let s := (small aTile []).onRegion 0 fun g => { g with bsync := some b }
     ([node 2 (.arrive 2 0 [(0, 0, none)]), node 4 (.atoms 0 64 true []), node 5 (.arrive 2 0 [])].all fun s =>
        match s.combs[0]? with | some n => decide (n.until_ ≤ s.time) && !inRemote n.entry.pa | none => false)
      && (match s.region? 0 with
        | some g => !g.frozen && g.bsync == some b && s.time ≤ b.deadline && !s.regionBusy g && !s.beforeBsync b
          && good (s.page ⟨b.t, 0, 0, b.widx⟩ none g.ctx b.va (.sync true)) (fun s q => q.pa == 0x12008 && !s.cutOff q.pa)
          && !good (s.page ⟨b.t, 0, 0, b.widx⟩ none g.ctx 0xF0000000 (.sync true)) (fun _ _ => true)
        | none => false)
      && (let pod : State := { s with fleet := { Fleet.reset with en := true, dimx := 1, lst := List.replicate 16 3, pkg := 1, lostPkg := [0] } }
          let up : State := { pod with fleet := { pod.fleet with lst := List.replicate 16 2, lostPkg := [] } }
          decide (1 < pod.podSize) && pod.treeCut && !({ pod with fleet := { pod.fleet with pkg := 0 } } : State).treeCut && !s.fleet.en
            && (up.firstHop 0).isSome && up.fleet.pkg != 0)
      && decide (s.time < b.deadline) && decide (b.deadline ≤ ({ s with time := 5 } : State).time)) = true := by decide +kernel

/-! ### Witnesses: engines, launches, the matrix cell -/

/-- A task record at 0x6000: the range 0 to 7, an allowance of 2^20 clk, priority 1 (R253). -/
def aRecord (texp : Nat) : List (Nat × Nat) := [(0x16000, 7), (0x16018, texp * 2 ^ 58 + 2 ^ 56)]

/-- EngineCommandsIssue: a port with room, a full one, a port that does not exist; a chain and an entry to append. -/
theorem witness_EngineCommandsIssue :
    (let s := small (withX aTile [(9, 7), (3, 0x6080), (10, 8), (11, 0x2008)]) []
     let full := s.setEngine 0 7 0 { Engine.fresh with queue := List.replicate 16 (commandOf ⟨4, 9, 34, 0, 0, 0, 0, 0, 0, 0, 0, 0⟩ 0 0 none (0, 0)) }
     let cpy : FmtY := ⟨4, 9, 34, 3, 0, 0, 0, 0, 3, 2, 0, 0⟩
     let chain : FmtY := { cpy with sa := 11, flg := 1 }
     canY s cpy 2 && canY s chain 3 && canY full cpy 2 && decide ((s.engine 0 7 0).queue.length < 16) && decide (16 ≤ (full.engine 0 7 0).queue.length)
      && decide (8 ≤ yA s { cpy with sa := 10 }) && decide (yA s cpy < 8) && !s.mustReplay unitRegion
      && decide (yC s chain % 128 = 0)
      && syncGood s (yA s chain) 8 true (fun s₁ pa => !inRemote pa && good (s₁.page s₁.site none 0 0x6080 (.spill true)) (fun s q =>
          (s.barred q.pa 0x6080).isNone && !s.combining pa && !s.mustReplay unitRegion && (s.taskRead unitRegion q.cmp q.pa 128).isSome
            && !s.wouldSpoil q.cmp (cellsAt q.pa [0]) && [0, 0x6100].all fun tail => (s.tailFault s.site 0 tail).2.isNone))) = true := by decide +kernel

/-- LaunchInstructions: a record that is accepted and one that is not, the last index of a record, a patch. -/
theorem witness_LaunchInstructions :
    (let s := fun (texp : Nat) => small (withX aTile [(9, 0x6000), (10, 4095)]) (aRecord texp)
     let ok := fun (texp : Nat) => match (s texp).page (s texp).site none 0 0x6000 (.load 3) with
       | (s₁, .ok q) => if s₁.loading q.pa 128 || (s₁.barred q.pa 0x6000).isSome then none else match s₁.fetchAll 0 q 0x6000 128 with
         | (s₂, some bs) => match s₂.task? 1, s₂.launchOf { unitRegion with task := 1 } with
           | some k, some l => some (taskRecordOk s₂ k l (wordsOf bs 16) && s₂.queueRoom k.die 1 != 0 && s₂.queueRoom k.die 0 != 0)
           | _, _ => none
         | _ => none
       | _ => none
     canY (s 20) ⟨4, 9, 10, 0, 0, 0, 0, 0, 0, 0, 0, 0⟩ 2 && ok 10 == some true && ok 9 == some false && ok 45 == some false && decide (yB (s 20) ⟨4, 9, 10, 0, 0, 0, 0, 0, 0, 0, 22, 0⟩ < 4096)
      && !(s 20).recordSpoiled 0 2 && ({ s 20 with bad := [0x100200 / 8] } : State).recordSpoiled 0 2
      && !(s 20).mustReplay unitRegion && (s 20).me.region == some 0 && can (s 20) (((s 20).me.effMask 0 0).getLsbD 0) []) = true := by decide +kernel

/-- The register operands of the cell's instructions, all full, and the queue with room, full, or held back by an acquire. -/
theorem witness_MatrixInstructionsIssue :
    (let s := small aTile []
     let f : FmtX := ⟨0, 1, 2, 1, 4, 3, 3, 3, 3, 3, 36, 0, 0, 0⟩
     let o := MatOp.fresh aTile (.accz f) 0 [] [] [] none
     let full := small { aTile with mxc := { aTile.mxc with queue := List.replicate 4 o } } []
     let waits := small { aTile with ops := [⟨0, .load, .none, 0, none, true, .nop⟩] } []
     (cellInstrs f).all (fun e => can s (executes (s.me.effMask 0 0) e.2.2.1) e.2.1 && can full (executes (full.me.effMask 0 0) e.2.2.1) e.2.1)
      && !s.acquiring && waits.acquiring && decide (s.me.mxc.queue.length < 4) && decide (4 ≤ full.me.mxc.queue.length)
      && can s (executes (s.me.effMask 0 0) false) (operandSrcs 1 2 0 ++ operandSrcs 1 4 1)) = true := by decide +kernel

/-- MatrixPhases: an operand phase that reads its operands, one that finds a descriptor bad, a compute phase that ends now and one that does
not. -/
theorem witness_MatrixPhases :
    (let f : FmtX := ⟨1, 1, 2, 1, 4, 3, 3, 0, 0, 0, 0, 0, 0, 0⟩
     let z := MatOp.fresh aTile (.accz f) 0 [] [] [] none
     let bad := MatOp.fresh aTile (.mma f) 0 [0xFFFFFFFFFFFFFFFF, 0] [0, 0] [] none
     let s := fun (o : MatOp) => small { aTile with mxc := { aTile.mxc with queue := [o] } } []
     let loads : State := { s z with mit := [⟨0, 0, 0, 0x10000, 0, 8, false, true, 0, 0⟩] }
     ((s z).active 0).isSome && (nextOperand [z]).isSome && (match (stage (s z) ⟨0, 0, 0, 0⟩ z).2 with | .ok _ => true | _ => false)
      && (match (stage (s bad) ⟨0, 0, 0, 0⟩ bad).2 with | .error (.fault _) => true | _ => false)
      && !z.asks && bad.asks && !({ bad with due := 16 } : MatOp).asks && (s bad).mit.isEmpty
      && (nextOperand [{ z with staged := true, due := 0 }]).isNone && decide (({ z with staged := true, due := 1 } : MatOp).due > (s z).time)
      && loads.mit.any (fun m => m.t == 0) && (s z).mit.isEmpty && z.held.isEmpty && decide (unitRegion.used ≤ unitRegion.capacity)) = true := by decide +kernel

/-! ### Witnesses: beads, tokens and switches -/

/-- A switch word: kind, sources, destinations and slot count (Tables 2 to 4 of R165 to R167). -/
def rt (src dst slot : Nat) : Word := BitVec.ofNat 64 (0x86 * 2 ^ 56 + src * 2 ^ 43 + dst * 2 ^ 36 + slot * 2 ^ 32)
def fork (src a b slot : Nat) : Word := BitVec.ofNat 64 (0x86 * 2 ^ 56 + 2 ^ 50 + src * 2 ^ 43 + a * 2 ^ 36 + b * 2 ^ 29 + 0x7F * 2 ^ 22 + slot * 2 ^ 18)
def joinSw (a b dst slot : Nat) : Word := BitVec.ofNat 64 (0x86 * 2 ^ 56 + 2 * 2 ^ 50 + a * 2 ^ 43 + b * 2 ^ 36 + dst * 2 ^ 29 + slot * 2 ^ 23)

/-- Tile 0 with a join, switch words and beats at its inputs, and no bead in flight. -/
def joinTile (join : Nat) (sw : List Word) (ins : List (Nat × List Beat)) : Tile :=
  { aTile with
    beads := []
    bank0 := ⟨[(0, [aHeader join, 0, 0, 0]), (19, sw)], false, false⟩
    inq := ins.map fun p => (p.1, ⟨p.2, 0⟩) }

def sentBead (l : Nat) : List Beat := Beat.ofBead 0 ⟨BitVec.ofNat 16 l, 0, 0, 0, [], 0, false, 0, 0⟩ [1, 0]

/-- ResultsAndBeadsEnter: an operation with a value and one without; a bead at a single, a ZIP and an ARB input; a control bead that names a
data input and one that names none; equal token beats; a bead to start. -/
theorem witness_ResultsAndBeadsEnter :
    (let op := fun (v : Option Vec) => small { aTile with ops := [⟨0, .load, .x 31, 0, v, false, .nop⟩] } []
     let at' := fun (T : Tile) => small T []
     let two := [(0, sentBead 1), (1, sentBead 1)]
     let adm := fun (T : Tile) (c : Nat) => match (at' T).region? 0 with | some g => admits (at' T) g 0 c | none => false
     let tok := joinTile 0 [rt 8 0 0, rt 9 1 0, 0, 0] [(0, [.tokens 2 0 [1, 2]]), (1, [.tokens 1 0 [3, 4]])]
     [op none, op (some 5)].all (fun s => (s.active 0).isSome && (s.tile 0).ops.any fun o => o.num == 0)
      && [0, 1, 2].all (fun j => let T := joinTile j [] two
          T.isCe && T.joinInputs == [0, 1] && T.join == j && !T.tokenIn 0 && hasBead T 0 && adm T 0 && hasBead T 1 && adm T 1)
      && (match (at' (joinTile 2 [] two)).region? 0 with | some g => arbChoice (at' (joinTile 2 [] two)) g 0 == some 0 | none => false)
      && selTarget (joinTile 3 [] two) == some 1 && (beadAt ((joinTile 3 [] two).inQ 0)).isSome && adm (joinTile 3 [] two) 1
      && selTarget (joinTile 3 [] [(0, Beat.ofBead 0 aBead [0, 0])]) == none && (beadAt ((joinTile 3 [] [(0, Beat.ofBead 0 aBead [0, 0])]).inQ 0)).isSome
      && tok.joinInputs.all (fun k => tok.tokenIn k && (tok.inHead k).any fun b => decide (b.kind ≤ 2) && b.count == 2)
      && ({ aBead with started := false } : Bead).started == false) = true := by decide +kernel

/-- ControlTokensPass: STOP at both inputs of a single join, DONE at an ARB and a SEL join; BAR and SW at every routed input. -/
theorem witness_ControlTokensPass :
    (let stop := [(0, [Beat.control 3 2 0 0]), (1, [.control 3 2 0 0])]
     let s := fun (T : Tile) => small T []
     let routed := fun (k : Nat) => joinTile 0 [rt 8 0 2, rt 9 1 2, 0, 0] [(0, [.control k 0 0 7]), (1, [.control k 0 0 7])]
     [0, 1].all (fun j => let T := joinTile j [] stop
       T.isCe && T.beads.isEmpty && T.outputs.all (fun c => T.outRoom c 1) && T.joinInputs.all fun c => (T.inHead c).any fun b => b.kind == 3 && b.stop == 2)
      && (let T := joinTile 2 [] [(1, [.control 4 0 0 0])]
          hasEnd T 1 && (match (s T).region? 0 with | some g => arbChoice (s T) g 0 == some 1 | none => false))
      && (let T := joinTile 3 [] [(0, [.control 4 0 0 0])]; hasEnd T T.selin)
      && (let T := joinTile 3 [] [(0, Beat.ofBead 0 ⟨1, 1, 0, 0, [], 0, false, 0, 0⟩ [1, 0]), (1, [.control 4 0 0 0])]
          !hasEnd T T.selin && (beadAt (T.inQ T.selin)).isSome)
      && (let T := routed 5; T.configured 0 && T.roomy 0 && !T.isXf && !(T.mainInputs 0).isEmpty && allAt T 0 5)
      && (let T := routed 6; allAt T 0 6 && settled T 0 && T.roomy 0 && !(T.unit 0).switched && ((s T).active 0).isSome)) = true := by decide +kernel

/-- BeatsMove: a word with a beat to move and one without, a fork, a join of two sources; a good and a malformed beat on a link; an output
beat 8 clk old. -/
theorem witness_BeatsMove :
    (let T := { joinTile 0 [rt 8 0 0, fork 9 1 81 0, joinSw 16 17 80 0, rt 10 2 0] [] with
                outq := [(8, ⟨[.tokens 0 0 [1]], 0⟩), (9, ⟨[.tokens 0 0 [1]], 0⟩), (16, ⟨[.tokens 0 0 [1]], 0⟩), (17, ⟨[.control 4 0 0 0], 0⟩)]
                joins := [(2, 1)]
                wire := [(64, ⟨[.tokens 2 0 [1]], 0⟩)] }
     let s := small T []
     let ready := fun (r : Route) => !(sourceQ (s.tile 0) (r.srcs.headD 0)).beats.isEmpty && r.dsts.all fun c => destRoom s 0 c 1
     match s.active 0 with
     | some (_, g) => (liveRoute s g 0 0 0 ready).isSome && (liveRoute s g 0 3 0 ready).isNone && (liveRoute s g 0 1 1 ready).isSome
        && (match liveRoute s g 0 2 2 (fun _ => true) with
          | some (b, r) => T.sourceBank (r.srcs.getD 0 0) g.switching == b && decide (0 < granule r (sourceQ T 16)) && destRoom s 0 (r.dsts.headD 0) 1 && r.slot == 0
          | none => false)
        && malformed (.tokens 2 0 [1]) g.ctx false == none && malformed (.tokens 2 1 [1]) g.ctx false == some 5 && closesByClk 3
     | none => false) = true := by decide +kernel

/-! ### Witnesses: stream units -/

/-- Tile 0 with frames of words, beats at inputs and the state of one unit; the task's tree is at 0x3000. -/
def unitTile (frames : List (Nat × List Nat)) (ins : List (Nat × List Beat)) (u : Nat) (U : UState) : Tile :=
  { aTile with
    bank0 := ⟨frames.map fun f => (f.1, f.2.map (BitVec.ofNat 64)), false, false⟩
    inq := ins.map fun p => (p.1, ⟨p.2, 0⟩)
    units := [(u, U)] }
/-- A word of a stream unit: function, root bit and extent. -/
def unitWord' (fn root n : Nat) : Nat := fn * 2 ^ 50 + root * 2 ^ 47 + n
def opened (ref pos lim : Nat) : UState := { UState.fresh with started := true, ref := some ref, pos := pos, lim := lim, fibre := 1, checked := true }
def goes (T : Tile) (u : Nat) : Bool := !T.isRoot u || T.rootRuns u unitRegion

/-- ScannersOpenAndEmit: a root to start; an open fibre with a coordinate left, and with none; a REF to open. -/
theorem witness_ScannersOpenAndEmit :
    (let root := unitTile [(9, [unitWord' 0 1 4])] [] 1 UState.fresh
     let T := fun (pos : Nat) => unitTile [(9, [unitWord' 0 1 4])] [] 1 (opened 0 pos 4)
     let wait := unitTile [(9, [unitWord' 0 0 4])] [(8, [.tokens 1 0 [2]])] 1 UState.fresh
     unitCan (small root []) 0 1 && root.isRoot 1 && [T 3, T 4].all (fun T => unitCan (small T []) 0 1 && goes T 1 && T.unitFn 1 == 0 && (T.unit 1).ref == some 0)
      && decide (((T 3).unit 1).pos < ((T 3).unit 1).lim) && unitCan (small wait []) 0 1 && !wait.isRoot 1 && wait.token 8 == some (1, 2)) = true := by decide +kernel

/-- A descriptor of two dimensions, 5 and 20, of INT32 values, already named (R193). -/
def planeState (T : Tile) : State :=
  { small T [(0x13000, 0x53504152 + 2 ^ 34 + 2 ^ 38 + 2 * 2 ^ 44), (0x13008, 5 + 20 * 2 ^ 32), (0x13018, 0x3100), (0x13020, 16), (0x13080, 1)] with
    trees := [(0x13000, { ok := true, parts := [{ Part.empty with leaves := [[(7, 70), (25, 9)]] }], vseq := 0, words := [] })] }

/-- ScannersStopAndSkip: a stop of the top level, an end, a root whose fibre is done; a SKIP for the open fibre and one that is not; a tree
scanner with a key in its fibre, one with the next key past it, and one with none. -/
theorem witness_ScannersStopAndSkip :
    (let at' := fun (b : Beat) => unitTile [(9, [unitWord' 0 0 4])] [(8, [b])] 1 UState.fresh
     let root := unitTile [(9, [unitWord' 0 1 4])] [] 1 { UState.fresh with started := true, fibre := 1 }
     let skip := fun (f : Nat) => unitTile [(9, [unitWord' 0 0 4])] [(9, [⟨8, 1, 0, 0, 0, 0, ofLanes [2, BitVec.ofNat 32 f, 0]⟩])] 1 (opened 0 0 4)
     let tree := fun (pos : Nat) => unitTile [(9, [unitWord' 4 0 0, 0x3000])] [] 1 (opened 0 pos 20)
     let finds := fun (pos : Nat) (p : Option (Nat × Word) → Bool) => let s := planeState (tree pos)
       unitCan s 0 1 && goes (tree pos) 1 && good (openScanTree s { unitRegion with task := 1 } (unitSite 0 1) (tree pos) 1) fun s x =>
         let s₂ := s.touch (unitSite 0 1) 0 0x3000 x.1
         let torn : State := { s with trees := s.trees.map fun q => (q.1, { q.2 with parts := q.2.parts.map fun q => { q with broken := true } }) }
         !s.brokenFrom x.1 pos && torn.brokenFrom x.1 pos && decide (0 + 1 < s₂.descOrder x.1) && p (s₂.seek x.1 pos)
     unitCan (small (at' (.control 3 14 0 0)) []) 0 1 && (at' (.control 3 14 0 0)).token 8 == some (3, 14) && (at' (.control 4 0 0 0)).token 8 == some (4, 0)
      && !(at' (.control 4 0 0 0)).isRoot 1 && root.isRoot 1 && root.rootRuns 1 unitRegion && (root.unit 1).ref.isNone && (root.unit 1).fibre == 1
      && [0, 1].all (fun f => unitCan (small (skip f) []) 0 1 && (skip f).unitFn 1 == 0 && match (skip f).inHead 9 with
          | some b => ((lane b.data 1).toNat == ((skip f).unit 1).fibre - 1 && (lane b.data 2).toNat == ((skip f).unit 1).stream) == (f == 0) | none => false)
      && finds 0 (fun k => k == some (7, 70)) && finds 8 (fun k => k.any fun k => decide (20 ≤ k.1)) && finds 26 (fun k => k == none)) = true := by decide +kernel

/-- MergeRepeatReduce: equal, lower and higher coordinates, equal and unequal stops, ends at the two sides, and each against each; a held
reference and one to come, a stop with a reference open, at level 0 and above, and of an empty fibre; an end with what ref_in still holds; a
beat of values, a stop, an end. -/
theorem witness_MergeRepeatReduce :
    (let mrg := fun (fn : Nat) (a b : Beat) => unitTile [(11, [unitWord' fn 0 0])] [(24, [a]), (25, [a]), (26, [b]), (27, [b])] 3 UState.fresh
     let heads := fun (T : Tile) => (sideHead T 0, sideHead T 1)
     let v := fun (x : Nat) => Beat.tokens 0 0 [BitVec.ofNat 32 x]
     let rpt := fun (U : UState) (a : Beat) (b : Beat) => unitTile [(12, [0])] [(32, [a]), (33, [b])] 4 U
     let rdc := fun (b : Beat) => unitTile [(13, [unitWord' 0 0 0])] [(40, [b])] 5 UState.fresh
     [0, 1].all (fun fn => unitCan (small (mrg fn (v 3) (v 3)) []) 0 3 && (mrg fn (v 3) (v 3)).unitFn 3 == fn
       && heads (mrg fn (v 3) (v 3)) == (some (0, 3, 3), some (0, 3, 3)) && heads (mrg fn (v 3) (v 4)) == (some (0, 3, 3), some (0, 4, 4))
       && heads (mrg fn (v 5) (v 4)) == (some (0, 5, 5), some (0, 4, 4))
       && heads (mrg fn (.control 3 2 0 0) (.control 3 2 0 0)) == (some (3, 2, 2), some (3, 2, 2))
       && heads (mrg fn (.control 4 0 0 0) (.control 4 0 0 0)) == (some (4, 0, 0), some (4, 0, 0))
       && heads (mrg fn (.control 3 2 0 0) (.control 3 1 0 0)) == (some (3, 2, 2), some (3, 1, 1))
       && [3, 4, 5].all (fun k => heads (mrg fn (v 5) (.control k 0 0 0)) == (some (0, 5, 5), some (k, 0, 0))
         && heads (mrg fn (.control k 0 0 0) (v 5)) == (some (k, 0, 0), some (0, 5, 5)))
       && [(3, 4), (3, 5), (4, 3), (5, 3), (4, 5), (5, 4)].all fun k =>
         heads (mrg fn (.control k.1 0 0 0) (.control k.2 0 0 0)) == (some (k.1, 0, 0), some (k.2, 0, 0)))
     && (let T := rpt (opened 6 0 0) (v 1) (v 2); unitCan (small T []) 0 4 && T.token 32 == some (0, 1) && (T.unit 4).ref == some 6)
     && (let T := rpt UState.fresh (v 1) (v 2); T.token 33 == some (0, 2) && (T.unit 4).ref.isNone)
     && (let T := rpt (opened 6 0 0) (.control 3 0 0 0) (v 2); T.token 32 == some (3, 0) && (T.unit 4).ref.isSome && !(T.unit 4).pending)
     && (let T := rpt { UState.fresh with pending := true } (.control 3 1 0 0) (.control 3 0 0 0); T.token 32 == some (3, 1) && T.token 33 == some (3, 0) && (T.unit 4).pending)
     && (let T := rpt UState.fresh (.control 3 0 0 0) (v 2); T.token 32 == some (3, 0) && T.token 33 == some (0, 2) && (T.unit 4).ref.isNone && !(T.unit 4).pending)
     && [(v 2, (0, 2)), (.control 3 1 0 0, (3, 1)), (.control 4 0 0 0, (4, 0))].all (fun q => let T := rpt UState.fresh (.control 4 0 0 0) q.1
       T.token 32 == some (4, 0) && T.token 33 == some q.2)
     && unitCan (small (rdc (.tokens 2 0 [1, 2])) []) 0 5 && ((rdc (.tokens 2 0 [1, 2])).inHead 40).map Beat.kind == some 2
     && (rdc (.control 3 0 0 0)).token 40 == some (3, 0) && (rdc (.control 4 0 0 0)).token 40 == some (4, 0)) = true := by decide +kernel

/-- LevelAndTreeWriters: entries of a compressed, a dense and a bitmap writer, at the last coordinate and past it; a stop, an end; a tree
writer with a key inside and outside the region. -/
theorem witness_LevelAndTreeWriters :
    (let lwr := fun (fn n vw : Nat) (U : UState) (a b c : Beat) =>
       unitTile [(14, [fn * 2 ^ 50 + vw * 2 ^ 46 + 2 * 2 ^ 38 + n, 0x3000])] [(48, [a]), (49, [b]), (50, [c])] 6 U
     let v := fun (x : Nat) => Beat.tokens 0 0 [BitVec.ofNat 32 x]
     let at' := fun (fn : Nat) (c : Nat) => let T := lwr fn 8 1 (opened 0 0 0) (v c) (v 5) (v 0); unitCan (small T []) 0 6 && lwrHead T (lwrWord T) == some (0, c, 5)
       && (lwrWord T).fn == fn && (lwrWord T).n == 8 && !(lwrWord T).nz
     let tree := fun (c : Nat) => let T := lwr 3 0 1 (opened 1 0 0) (v c) (v 5) (v 0)
       let s := planeState T
       good (s.openAt (unitSite 0 6) 0 (T.ext 6 0) true) fun s d => ((T.unit 6).ref == some 1) && (decide (1 * (s.extents d).getLastD 1 + c < s.keyEnd d)) == decide (c < 80)
         && !s.brokenAt d 20
     at' 1 3 && at' 0 7 && at' 0 8 && at' 2 7 && at' 2 8
      && (let T := lwr 1 8 0 UState.fresh (.control 3 0 0 0) (v 0) (v 0); lwrHead T (lwrWord T) == some (3, 0, 0))
      && (let T := lwr 3 8 0 { UState.fresh with checked := true } (.control 3 1 0 0) (v 0) (.control 3 0 0 0); lwrHead T (lwrWord T) == some (3, 1, 0) && T.token 50 == some (3, 0) && (T.unit 6).checked)
      && (let T := lwr 3 8 0 UState.fresh (.control 4 0 0 0) (v 0) (.control 4 0 0 0); lwrHead T (lwrWord T) == some (4, 0, 0) && T.token 50 == some (4, 0))
      && tree 79 && tree 80) = true := by decide +kernel

/-- AddressGenerators: an affine pass with an element left, passes by REF, a parameter block that is read, an index that leads to a value, and
the two writing modes. -/
theorem witness_AddressGenerators :
    (let ag := fun (fn mode : Nat) (U : UState) (ins : List (Nat × List Beat)) =>
       unitTile [(15, [fn * 2 ^ 50 + mode * 2 ^ 46 + 2 * 2 ^ 44, 0x6000, 3, 0])] ins 7 U
     let v := fun (x : Nat) => Beat.tokens 1 0 [BitVec.ofNat 32 x]
     let ok := fun (T : Tile) => unitCan (small T []) 0 7
     let aff := ag 0 0 (opened 0 0 0) []
     let ind := ag 1 0 { opened 0 0 0 with ref := none, checked := false } []
     let val := ag 1 0 { opened 0 0 0 with block := [0x6100, 0x7000, 0, BitVec.ofNat 64 (2 + 2 * 2 ^ 36), 0, 0, 0, 0] } []
     ok aff && (agWord aff 0).fn == 0 && (agWord aff 0).mode == 0 && aff.rootRuns 7 unitRegion && (aff.unit 7).ref == some 0
      && [0, 1].all (fun fn => let T := ag fn 1 { UState.fresh with checked := true } [(56, [v 2])]
          ok T && (agWord T 0).fn == fn && (agWord T 0).mode == 1 && T.token 56 == some (1, 2) && (T.unit 7).ref.isNone)
      && (let T := ag 0 2 UState.fresh [(56, [.tokens 1 0 [3, 4]])]
          ok T && (agWord T 0).mode == 2 && (T.inHead 56).map Beat.kind == some 1
            && [3, 4].all fun r => good ((small T []).unitRead 0 (unitSite 0 7) (agWord T 0).pg ((agWord T 0).base + (agWord T 0).bytes * r) (agWord T 0).bytes) fun _ _ => true)
      && (let s := { small ind [(0x16018, 2 + 2 * 2 ^ 36)] with dies := [] }
          unitCan s 0 7 && ind.rootRuns 7 unitRegion && good (s.page ⟨0, 10, 0, 0⟩ (s.iseOf ⟨0, 10, 0, 0⟩ 0) 0 0x6000 .streamRead) fun s q => q.cls == 0
            && good (s.taskRun 0 ⟨0, 10, 0, 0⟩ .streamRead 0x6000 64) fun _ bs => iseOk (wordsOf bs 8))
      && (let s := small val [(0x16100, 9)]
          let b := iseBlock (val.unit 7).block
          b.icnt == 2 && b.bytes == 4 && good (s.unitRead 0 ⟨0, 10, 0, 0⟩ b.ipg b.ibase 4) fun s i => i == 9 && good (s.unitRead 0 ⟨0, 10, 0, 0⟩ b.vpg (b.vbase + 4 * i) 4) fun _ v => v == 0)
      && (let T := ag 2 0 UState.fresh [(57, [v 5])]; ok T && (agWord T 0).fn == 2 && T.token 57 == some (1, 5) && decide ((T.unit 7).mark < (agWord T 0).total))
      && (let T := ag 2 1 UState.fresh [(56, [v 4]), (57, [v 5])]; ok T && (agWord T 0).mode == 1 && T.token 56 == some (1, 4) && T.token 57 == some (1, 5))) = true := by decide +kernel

/-- ControlTokensPass, BAR at the units: at every input of a scanner, a merge unit, the repeater, the reducer and a level writer, at the ports of
each function, and at a transform node with nothing open. -/
theorem witness_ControlTokensPass_units :
    (let bar := Beat.control 5 0 0 9
     let merged := fun (u frame w : Nat) (ins : List Nat) =>
       { unitTile [] [] u UState.fresh with
         bank0 := ⟨[(frame, [BitVec.ofNat 64 w, 0x3000]), (19, ins.zipIdx.map fun c => rt (64 + c.2) c.1 0)], false, false⟩
         inq := ins.map fun c => (c, ⟨[bar], 0⟩) }
     [(1, 9, [8]), (2, 10, [16]), (3, 11, [24, 25, 26, 27]), (4, 12, [32, 33]), (5, 13, [40]), (6, 14, [48])].all (fun q =>
       let T := merged q.1 q.2.1 0 q.2.2
       unitCan (small T []) 0 q.1 && T.mainInputs q.1 == q.2.2 && allAt T q.1 5 && T.token (8 * q.1) == some (5, 9) && !T.isRoot q.1 && (T.unit q.1).ref.isNone)
     && (let T := merged 6 14 0 [48]; lwrHead T (lwrWord T) == some (5, 9, 0) && (lwrWord T).fn == 0)
     && [0, 1, 2].all (fun fn => let T := { merged 7 15 (fn * 2 ^ 50 + 2 ^ 46) [56, 57] with units := [(7, { UState.fresh with checked := true })] }
       unitCan (small T []) 0 7 && (agWord T 0).fn == fn && (agWord T 0).mode == 1 && T.token 56 == some (5, 9) && T.token 57 == some (5, 9) && (T.unit 7).ref.isNone)
     && (agWord (merged 7 15 (2 * 2 ^ 50) [57]) 0).mode == 0) = true := by decide +kernel

/-- TransformNodes: each function with a beat of each kind and room for it, a group and a block that are full or that a control token closes, a
bitmap with a word to send and with none left, and a STOP and a DONE with nothing open. -/
theorem witness_TransformNodes :
    (let xf := fun (fn : Nat) (U : UState) (b : Beat) => { aTile with
       bank0 := ⟨[(0, [BitVec.ofNat 64 (fn * 2 ^ 46 + 15 * 2 ^ 41 + 40)])], true, false⟩
       units := [(0, U)]
       inq := [(0, ⟨[b], 0⟩)] }
     let ok := fun (T : Tile) (fn : Nat) => unitCan (small T []) 0 0 && T.isXf && (xfWord T).1 == fn
     let stop := Beat.control 3 1 0 0
     let room := fun (T : Tile) => (T.unit 0).group.length != 16 && decide ((T.unit 0).lanes.length < blockLen (xfWord T).2.1)
     let words := fun (T : Tile) => ceilDiv (bitmapWords (xfWord T).2.2.2.2) 8
     [0, 1, 2, 3].all (fun fn => [0, 1, 2].all (fun k => let T := xf fn UState.fresh (.tokens k 0 [1, 2]); ok T fn && (T.inHead 0).map Beat.kind == some k && room T)
        && [3, 4, 5].all fun k => let T := xf fn { UState.fresh with pos := if fn = 3 then 1 else 0 } (.control k 0 0 0)
          ok T fn && (T.unit 0).group.isEmpty && (T.unit 0).lanes.isEmpty && (fn != 3 || decide (words T ≤ (T.unit 0).pos)))
      && [xf 0 { UState.fresh with group := List.replicate 16 (2, 0) } (.tokens 2 0 [1]), xf 0 { UState.fresh with group := [(2, 0)] } stop].all (fun T =>
        ok T 0 && ((T.unit 0).group.length == 16 || (T.inHead 0).map Beat.kind == some 3))
      && [xf 1 { UState.fresh with lanes := List.replicate 40 0 } (.tokens 2 0 [1]), xf 1 { UState.fresh with lanes := [0] } stop].all (fun T =>
        ok T 1 && (decide (blockLen (xfWord T).2.1 ≤ (T.unit 0).lanes.length) || (T.inHead 0).map Beat.kind == some 3))
      && (let T := xf 3 UState.fresh stop; ok T 3 && decide ((T.unit 0).pos < words T))) = true := by decide +kernel

/-! ### Witnesses: engines, the memory interface -/

/-- A command of an engine from the words of its body. -/
def aCommand (fn : Nat) (ws : List Nat) : EngCmd :=
  { fn := fn, aop := 0, scope := 3, acq := false, rel := false, body := BitVec.ofNat 512 (packNat 64 ws), ticket := 1, task := none, by_ := none, entry := none, chain := 0,
    prog := 0, started := true, held := false, qovf := false, ord := 0, out := none }
def engineState (E : Engine) (ws : List (Nat × Nat)) : State := (small aTile ws).setEngine 0 0 0 E
def runs (k : EngCmd) : Engine := { Engine.fresh with cur := some k }

/-- EngineCommands: a copy at the head of a queue, with its body right and wrong; a copy that is done and one to a page that is not there; a chain
with no entry, one with an entry, one whose head is a word in error and one whose page is not there. -/
theorem witness_EngineCommands :
    (let cpy := aCommand 0 [0, 0x6000, 0x7000, 16]
     let far := aCommand 0 [0, 0x6000, 0xF000000, 16]
     let starts := fun (k : EngCmd) => let E := { Engine.fresh with queue := [k] }
       ((engineState E []).setEngine 0 0 0 { E with queue := [], turn := true }).bodyFault 0 0 0 k
     let chain := engineState { Engine.fresh with chains := [(0x12100, 0x2100)] } [(0x12108, 0x6000), (0x16040, 0)]
     let E := chain.engine 0 0 0
     let none' := engineState { Engine.fresh with chains := [(0x12100, 0x2100)] } []
     let spoilt : State := { chain with bad := [0x12108 / 8] }
     let page := fun (s : State) va => s.page (State.engineSite 0 0) none 0 va (.sync false)
     let loads := (small { aTile with ops := [⟨0, .load, .x 1, 0, none, false, .nop⟩] } []).issuerBusy { cpy with task := some 1, by_ := some (0, 1) }
     let laps := aCommand 0 [0, 0x9FF0, 0x9FF8, 32]
     (match (engineState (runs laps) []).readAhead (State.engineSite 0 0) 0 laps with | (_, k, some f) => f.code == 3 && (k.out.map List.length).isSome | _ => false)
      && loads && !(engineState Engine.fresh []).issuerBusy cpy && (starts cpy).2.isNone && (starts (aCommand 0 [0, 2 ^ 56])).2.isSome
      && (match ((engineState (runs cpy) []).readAhead (State.engineSite 0 0) 0 cpy).1.runCommand 0 0 0 cpy with | (s, .done) => (s.writeCw 0 0 0 cpy 1).2.isNone | _ => false)
      && (match ((engineState (runs far) []).readAhead (State.engineSite 0 0) 0 far).1.runCommand 0 0 0 far with | (_, .stopped _ _) => true | _ => false)
      && (match (none'.chainHead 0 0 0 0x2100).2 with | .ok h => h == 0 | .error _ => false) && (match (chain.chainHead 0 0 0 0xF000000).2 with | .error f => f.code == 3 | .ok _ => false)
      && good (page chain 0x2108) (fun s q => (s.barred q.pa 0x2108).isNone && !inRemote q.pa && !(s.touch (State.engineSite 0 0) 0 0x2108 q.pa).badSync q.pa)
      && good (page spoilt 0x2108) (fun s q => (s.barred q.pa 0x2108).isNone && !inRemote q.pa && (s.touch (State.engineSite 0 0) 0 0x2108 q.pa).badSync q.pa)
      && (match (page chain 0xF000008).2 with | .error _ => true | .ok _ => false)
      && E.stopped.isNone && E.cur.isNone && (match chain.chainHead 0 0 0 0x2100 with
        | (u, .ok h) => h == 0x6000 && good ((u.setEngine 0 0 0 { E with chains := [(0x12100, 0x2100)], turn := false }).readRun (State.engineSite 0 0) 0 [] h 128)
          fun s bs => ofBytes ((bs.drop 64).take 8) == 0 && (chainIssuer s 0x12100 0).isNone && (s.entryStat 0 0 0 0x6000 1).2.isNone
        | _ => false)) = true := by
  decide +kernel

/-- QueuesAndCollectives: a record with a slot to go to and one with none, held or not; a group of one whose member has its command and one whose
member has none; a group of two that agree, that disagree, and one whose second member has none yet; a region that waits for nodes that are free. No
state shows what a queue of another package answers: its room is a free value (log entry 22). -/
theorem witness_QueuesAndCollectives :
    (let a2a := aCommand 3 [0, 0x6000, 0x7000, 1 + 2 ^ 40]
     let q := fun (cap : Nat) => [(0x17000, 0x2040), (0x12040, 0x8000), (0x12048, cap)]
     let slot := fun (cap : Nat) => a2aSlot (engineState (runs a2a) (q cap)) 0 0 0 a2a
     let coll := aCommand 4 [0, 0x6FF8, 0x8000, 0x9000, 4 + 2 * 2 ^ 32]
     let group := groupOf (engineState (runs coll) [(0x16FF8, 1)]) 0 0 0 coll
     let other := groupOf (engineState { Engine.fresh with cur := some coll, stopped := some 1 } [(0x16FF8, 1)]) 0 0 0 coll
     let sum := fun (rank root : Nat) => { aCommand 4 [0, 0x6FF8, 0x8000, 0x9000, 4 + 2 * 2 ^ 32 + rank * 2 ^ 40 + root * 2 ^ 56] with aop := 2 }
     let two := fun (k : EngCmd) => (engineState (runs (sum 0 0)) [(0x16FF8, 2), (0x17000, 0), (0x17008, 2048)]).setEngine 1 0 0 (runs k)
     let pair := fun (k : EngCmd) => groupOf (two k) 0 0 0 (sum 0 0)
     let send := fun (s : State) d k => s.readRun (State.engineSite d 0) 0 (s.bufferOf k) 0x8000 16
     let tree := (treeState aTile []).onRegion 0 fun g => { g with frozen := true, records := [⟨1, 7, 0, 0, 0x3000, 0, 2, 0⟩] }
     [sum 1 0, sum 1 1, coll].all (fun k => good (pair k) fun s ms => ms == [(0, 0), (0, 1)] && (s.memberCmd 0 0 0x6FF8 0) == some (0, sum 0 0)
        && (s.memberCmd 1 0 0x6FF8 0) == some (0, k) && good (send s 0 (sum 0 0)) fun s bs => bs.length == 16 && good (send s 1 k) fun _ bs => bs.length == 16)
      && (sum 0 0).field 296 16 == 0 && (sum 1 0).field 296 16 == 1 && (sum 1 0).field 312 16 == 0 && (sum 1 1).field 312 16 == 1
      && [256, 288].all (fun i => (sum 0 0).field i (if i = 256 then 32 else 8) == (sum 1 0).field i (if i = 256 then 32 else 8)) && coll.aop != (sum 0 0).aop
      && good (pair { coll with started := true, fn := 0 }) (fun s _ => (s.memberCmd 1 0 0x6FF8 0).isNone) && coll.field 296 16 == 0
      && decide (a2a.prog < a2a.field 192 32)
      && good (slot 4) (fun s x => (match x.2.2.2.2 with | some (a, w) => w == 3 && (s.writeRun (State.engineSite 0 0) 0 none a x.2.2.2.1).2.isNone | none => false))
      && good (slot 0) (fun _ x => x.2.2.2.2 == none)
      && (match group.2 with | .ok ms => ms == [(0, 0)] | .error _ => false) && (match other.2 with | .ok ms => ms == [(0, 0)] | .error _ => false) && (group.1.memberCmd 0 0 0x6FF8 0).map (fun x => x.1) == some 0
      && (other.1.memberCmd 0 0 0x6FF8 0).isNone
      && good (group.1.readRun (State.engineSite 0 0) 0 [] 0x8000 16) (fun _ bs => bs.length == 16)
      && tree.nodesFree 0 0x3000 0 2 && !tree.nodesFree 0 0x3000 0 (2 ^ 40) && (tree.region? 0).map (fun g => g.records.map LiveRecord.code) == some [7] && tree.dies.all fun D => D.engines.isEmpty) = true := by
  decide +kernel

/-- MemoryInterface: a block that is whole, and one whose tag is none, in each phase of its read; counters whose period is over; a fence with a die
left, and with none. -/
theorem witness_MemoryInterface :
    (let q := fun (phase : Nat) => (⟨0, 0, 0, 0x10000, 0, 8, false, true, phase, 0⟩ : MitReq)
     let s := fun (tag : Nat) => ({ small aTile [] with mit := [q 0, q 1, q 2], tags := [(0x100, tag)], time := 2 ^ 26, fences := [⟨0, 0, 0, [0], none, 3, 0⟩, ⟨0, 0, 0, [], none, 3, 0⟩] } : State)
     ((s 1).active 0).isSome && [fun (v : State) => v, fun v => v.count 0 .zmbRefetch, fun v => v.touch ⟨0, 0, 0, 0⟩ 0 0 0x10000].all (fun f =>
        ((f (s 9)).taskRead unitRegion true 0x10000 8).isNone && ((f (s 0)).taskRead unitRegion true 0x10000 8).isSome)
      && (s 1).mit.map (fun q => q.phase) == [0, 1, 2] && decide (((s 1).die 0).halveAt ≤ (s 1).time) && (s 1).fences.map (fun f => f.left) == [[0], []]) = true := by decide +kernel

/-! ### Witnesses: scheduler, loader, launches -/

/-- The header and the frame list of an image with one variant of one tile: a header frame with input 0, one slot and four instructions, and a
program frame of NOPs (R44, R45, R49, R52). -/
def anImage : List Nat × List (List Word) :=
  let list : List (List Word) := [[0x0101, BitVec.ofNat 64 (2 ^ 60 + 2 ^ 52 + 2 ^ 48), 0, 0, 0], [0x1000101, 0, 0, 0, 0]]
  ([0x4B594D49 + 2 ^ 32 + 2 ^ 48 + 2 ^ 56, 7, 336, 0, 0, 0, 1 + 2 ^ 8 + 2 * 2 ^ 16 + 256 * 2 ^ 32, (crc64 (list.flatMap wordsBytes)).toNat] ++ List.replicate 24 0, list)
/-- The image at 0x5000 of context 0, with other words. -/
def imageState (T : Tile) (more : List (Nat × Nat)) : State :=
  let ws := anImage.1 ++ (anImage.2.flatten.map BitVec.toNat)
  small T (((List.range ws.length).map fun i => (0x15000 + 8 * i, ws.getD i 0)) ++ more)
def imageLaunch : Launch :=
  { aLaunch with
    snap := [0x5000, BitVec.ofNat 64 (20 * 2 ^ 58 + 2 ^ 56 + 2 ^ 52), BitVec.ofNat 64 (7 * 2 ^ 32)] ++ List.replicate 29 0
    hdr := (anImage.1.map (BitVec.ofNat 64)) }
/-- The small machine with this task and launch, and the task in the queue of its die. -/
def taskState (k : Task) : State :=
  let s := { imageState aTile [] with tasks := [(1, k)], launches := [imageLaunch] }
  s.onDie 0 fun D => { D with queues := [[], [1], [], []] }

set_option maxRecDepth 100000 in
/-- SchedulerTurns. -/
theorem witness_SchedulerTurns :
    (let ready : Task := { aTask with phase := .ready, readyAt := 0 }
     let s : State := { taskState ready with time := 2 ^ 20 }
     let spent := (small aTile []).onRegion 0 fun g => { g with clk := 2 ^ 20 }
     let g := unitRegion
     spent.spent { g with task := 1, clk := 2 ^ 20 } && !(small aTile []).irrevocable { g with task := 1 }
      && ({ small aTile [] with tasks := [(1, { aTask with irrev := true })] } : State).irrevocable { g with task := 1 }
      && (s.launchBy (State.taskKey ready)).isSome && decide (ready.readyAt + 2 ^ (s.die 0).age ≤ s.time)
      && (splitDom ready.dom imageLaunch.grains).isSome && s.queueRoom 0 1 != 0 && decide (1 < s.nhandle)
      && (splitDom [(0, 1)] imageLaunch.grains).isNone && (s.reservation 0 1 imageLaunch).isSome && ((s.die 0).reserve.getD 1 none).isNone
      && (small { aTile with beads := [] } []).drained { g with drain := some .abort } && !(small aTile []).drained { g with drain := some .abort }
      && !(taskState ready).restoreFirst 0 ready && (small { aTile with beads := [] } []).quiescent unitRegion && !(small aTile []).quiescent unitRegion
      && decide ((s.tasks.filter fun q => q.2.phase != .done && q.2.succs.contains 1).length < 1)
      && s.boot.live.getLsbD 0 && (s.offered 0).head? == some 1) = true := by decide +kernel

set_option maxRecDepth 100000 in
/-- SchedulerTurns, the placing of a task: the first free rectangle is beside the region that runs; and a region that waits to be restored and
comes before the task. -/
theorem witness_SchedulerTurns_allocate :
    ((taskState { aTask with phase := .ready }).placement 0 1).map (fun x => x.2.2.2.2) = some (1, 0)
      ∧ ({ taskState { aTask with phase := .ready } with
          saved := [⟨5, 0, 0, { unitRegion with task := 1, moving := true }, [], [], [], [], []⟩] } : State).restoreFirst 0 { aTask with phase := .ready } = true := by
  decide +kernel

set_option maxRecDepth 100000 in
/-- LoaderTurns. -/
theorem witness_LoaderTurns :
    (let L := fun (p : LoadPhase) (img : Nat) (succ : Bool) (es : List (List Word)) => (⟨p, img, 0, succ, es, 0, []⟩ : Loader)
     let at' := fun (f : Region → Region) => ({ imageState aTile [] with launches := [imageLaunch] } : State).onRegion 0 f
     let reads := fun (img : Nat) => let s := at' fun g => { g with running := false, loader := L .reading img false [] }
       match s.region? 0 with
       | some g => (variantOf (s.loadHeader g) 0).fcnt == 2 && ((match (s.loadBytes g 4 (img + 256) 80).2 with | .ok _ => true | .error _ => false) == (img == 0x5000))
       | none => false
     let v := variantOf imageLaunch.hdr 0
     let next := at' fun g => { g with nxt := 0x5000 }
     let repairs := fun (img : Nat) => let s := at' fun g => { g with img := img, repair := [0], frozen := true }
       match s.region? 0 with
       | some g => g.frozen && !(g.records.any fun x => x.unit == 9) && ((match (s.rewrite g 0).2 with | .ok _ => true | .error _ => false) == (img == 0x5000))
       | none => false
     reads 0x5000 && reads 0xF000000 && loadFailure v anImage.2 == none && (loadFailure v [[0x0101, 0, 0, 0, 0]]).isSome
      && (match (next.region? 0).map fun g => (next.loadBytes g 2 0x5000 256).2 with
        | some (.ok bs) => let h := wordsOf bs 32; !Hdr.bad h && !Hdr.tooBig h 15 && decide (0 < Hdr.nvar h) && (variantOf h 0).w == 1 && (variantOf h 0).h == 1 && !(variantOf h 0).quad
        | _ => false)
      && repairs 0x5000 && repairs 0xF000000) = true := by decide +kernel

set_option maxRecDepth 100000 in
/-- LoaderTurns, the scrub and the repair: the signature of a region is what its banks give, or it is not. -/
theorem witness_LoaderTurns_scrub :
    (let T := { aTile with bank0 := State.bankFrom (variantOf imageLaunch.hdr 0) anImage.2 0 0 }
     let s := imageState T []
     s.regionSig unitRegion != unitRegion.sig && s.regionSig { unitRegion with sig := s.regionSig unitRegion } == (s.regionSig unitRegion)) = true := by decide +kernel

set_option maxRecDepth 100000 in
/-- LaunchTurns. -/
theorem witness_LaunchTurns :
    (let rec' := fun (texp : Nat) => [(0x100200, 0x5000), (0x100208, texp * 2 ^ 58 + 2 ^ 56 + 2 ^ 52), (0x100210, 7 * 2 ^ 32), (0x100258, 1 * 2 ^ 8)]
     let st := fun (texp : Nat) => let s := imageState aTile (rec' texp)
       let ws := (List.range 32).map fun k => BitVec.ofNat 64 (s.memWord (s.recordAt 0 2 + 8 * k))
       let h := s.header? 0 (bits (word ws 0) 0 56)
       h.1.armStatus 0 2 ws h.2
     let s : State := { imageState aTile (rec' 20) with launches := [{ imageLaunch with running := false }] }
     let l := { imageLaunch with live := 1 }
     let full := s.onDie 0 fun D => { D with queues := [[], List.replicate 1023 1, [], []] }
     st 20 == 0 && st 9 == 0x12 && (s.current 0 2).isSome && s.recField 0 2 11 8 8 == 1 && s.recField 0 2 9 16 16 == 0
      && piecesFor l 0 == [[(0, 8)]] && piecesFor { l with live := 3, lseq := 2 } 1 == [] && decide (2 ≤ s.queueRoom 0 l.prio) && !s.pieceWaits 0 l.prio
      && decide (full.queueRoom 0 l.prio < 2) && (s.launchBy (Launch.key l)).isSome
      && (let d : State := { s with tasks := [] }; d.dies.all (fun D => D.pending.isEmpty) && d.tasks.isEmpty)) = true := by decide +kernel

/-! ### Contexts, commands, boot, errors, the pod, the host -/

/-- The small machine with another context block 0. -/
def ctxState (f : Ctx → Ctx) : State := (small aTile []).onCtx 0 f

/-- ContextBlocks: a free block that activates and one that does not, a removal, a post and a held record with a slot, and a full ring. -/
theorem witness_ContextBlocks :
    (let ok := ctxState fun C => { C with state := 0 }
     let odd := ctxState fun C => { C with state := 0, pool := 0x100001 }
     let gone : State := { ctxState (fun C => { C with state := 2 }) with regions := [] }
     let ring : State := (ctxState fun C => { C with fqbase := 0x6000 })
     let full : State := (ctxState fun C => { C with fqtail := 64 })
     let rec' : Record := [BitVec.ofNat 64 (3 + 2 ^ 8 + 2 ^ 10)]
     let posts := fun (s : State) => s.onDie 0 fun D => { D with posts := [(0, rec')] }
     inHbm ((ok.ctx 0).pool + 2 ^ 20 - 1) && (ok.ctx 0).pool % 2 ^ 20 == 0 && (ok.ctx 0).fqbase % 128 == 0 && (ok.ctx 0).fqn == 6 && (ok.ctx 0).state == 0
      && (odd.ctx 0).pool % 2 ^ 20 != 0 && !odd.host.herrV && (ring.ctx 0).state == 1 && (gone.ctx 0).state == 2 && gone.regions.isEmpty
      && ((posts ring).die 0).posts.find? (fun p => p.1 == 0) == some (0, rec') && !ring.ringFull 0 && (ring.ringAt 0).map Page.pa == some 0x16000 && ring.boot.bstate == 4 && (gone.ctx 0).preempt.isNone
      && (ring.die 0).holds.isEmpty && ((ring.onDie 0 fun D => { D with holds := [(0, rec')] }).die 0).holds.length == 1 && full.ringFull 0 && !bit (word rec' 0) 9 && decide (0 < ring.ctxs.length)) = true := by decide +kernel

/-- A command block for context 0. -/
def aBlock (op arg : Nat) : CmdWords := ⟨BitVec.ofNat 64 op, BitVec.ofNat 64 arg, 0, 0x17000⟩
/-- The small machine with its region frozen by record 7. -/
def frozenState : State := (small aTile []).onRegion 0 fun g => { g with frozen := true, records := [⟨7, 3, 0, 0, 0x6000, 0, 0, 0⟩] }

/-- RecordCommands: a block that breaks its table, one for a context that is not ACTIVE, and a record of each kind that a command names, of a task
that is irrevocable and of one that is not. -/
theorem witness_RecordCommands :
    (let s := frozenState
     let stopped := (small aTile []).setEngine 0 0 0 { Engine.fresh with stopped := some 7 }
     let held : State := { small aTile [] with tasks := [(1, { aTask with phase := .smallest, record := 7 })] }
     cmdBad (aBlock 9 7) && [1, 2, 3, 4, 5].all (fun op => cmdOp (aBlock op 7) == op && !cmdBad (aBlock op 7) && cmdCtx (aBlock op 7) == 0)
      && cmdTexp (aBlock 1 7) == 0 && cmdArg (aBlock 1 7) == 7 && (s.ctx 0).state == 1 && (s.ctx 0).cmds.isEmpty && !State.commanded (s.ctx 0) && s.boot.bstate == 4
      && ({ s with tasks := [(1, { aTask with irrev := true })] } : State).irrevocable { unitRegion with task := 1 }
      && [0x0E, 0x13].all (fun code => ((s.onRegion 0 fun g => { g with records := [⟨7, code, 0, 0, 0, 0, 0, 0⟩] }).frozenBy 0 7).isSome)
      && ((s.thaw 0 7).region? 0).isSome
      && ((ctxState fun C => { C with state := 0 }).ctx 0).state != 1
      && (s.frozenBy 0 7).isSome && (match s.frozenBy 0 7 with
        | some (_, g) => ((g.records.find? fun x => x.seq == 7).map LiveRecord.code) == some 3 && !s.irrevocable g
        | none => false)
      && (stopped.frozenBy 0 7).isNone && stopped.engineBy 0 7 == some (0, 0)
      && (held.frozenBy 0 7).isNone && (held.engineBy 0 7).isNone && (held.loaderBy 0 7).isNone && (held.smallestBy 0 7).isSome) = true := by decide +kernel

/-- The check word of zeros is zero. -/
theorem crc64_zeros (n : Nat) : crc64 (List.replicate n 0) = 0 := by
  have h : ∀ n, List.foldl crcByte 0 (List.replicate n 0) = 0 := fun n => by
    induction n with
    | zero => rfl
    | succ n ih => rw [List.replicate_succ, List.foldl_cons, show crcByte 0 0 = 0 by decide +kernel, ih]
  exact h n
/-- A saved region whose area holds only zeros, which is an area that passes its check. -/
def zeroSaved : Saved := ⟨5, 0, 0x20000, { unitRegion with task := 0 }, [], [], [], [], []⟩
def zeroState : State := { State.reset with saved := [zeroSaved], tasks := [(0, aTask)], boot := { Boot.reset with live := 1 } }
theorem savedAt_zeros : zeroState.savedAt 0 0x20000 = some zeroSaved := by
  have bytes : ∀ n, memBytes 0x20000 n [] = List.replicate n 0 := fun n => by
    rw [List.eq_replicate_iff]
    simp [memBytes, memGet]
  have word' : zeroState.memWord 0x20000 = 0 ∧ zeroState.memWord (0x20000 + 32) = 0 := by decide +kernel
  have area : State.areaCrc (memBytes 0x20000 (saveSize zeroSaved.region) zeroState.mem) = 0 := by
    change crc64 (List.replicate 8 0 ++ List.drop 8 (memBytes 0x20000 _ [])) = 0
    rw [bytes, List.drop_replicate, List.replicate_append_replicate, crc64_zeros]
  have find : (zeroState.saved.find? fun x =>
      x.ctx == 0 && !x.region.moving && x.region.task == zeroState.memWord (0x20000 + 32)) = some zeroSaved := by
    rw [word'.2]; decide +kernel
  simp only [State.savedAt, find, area, word'.1]
  rfl

set_option maxRecDepth 100000 in
/-- PreemptAndRestore: the blocks of each grade, a region on the die that is speculative or irrevocable, or that a pre-emption left in place, one
stopped in turn that fits its area, an end with a region left and with none, a saved region with room for it and with none, and an area that
holds none (`savedAt_zeros` gives one that does). -/
theorem witness_PreemptAndRestore :
    (let block := fun (grade arg : Nat) => (⟨BitVec.ofNat 64 (6 + 2 ^ 11 + 2 ^ 15 * grade), BitVec.ofNat 64 arg, if grade = 3 then 0x20000 else 0, 0x17000⟩ : CmdWords)
     let back : CmdWords := ⟨7, 0, 0x20000, 0x17000⟩
     let k := block 3 (2 ^ 24)
     let s := (ctxState fun C => { C with preempt := some k, saving := 2 ^ 16 }).onRegion 0 fun g => { g with frozen := true, stopWave := true }
     let g : Region := { unitRegion with task := 1, scr := 1, frozen := true, stopWave := true }
     let one := { zeroSaved with region := { unitRegion with task := 1, moving := true } }
     [1, 2, 3].all (fun n => cmdOp (block n 0) == 6 && !cmdBad (block n 0) && cmdGrade (block n 0) == n && cmdCtx (block n 0) == 0)
      && cmdOp back == 7 && !cmdBad back && (s.ctx 0).cmds.isEmpty && (s.ctx 0).restoring.isNone && ((small aTile []).ctx 0).preempt.isNone
      && s.region? 0 == some g && s.saveReady g && bit (cmdDies k) g.die && s.saveFits 0 k g && s.onDies 0 (cmdDies k) == [(0, g)]
      && (small aTile []).boot.bstate == 4 && !State.commanded ((small aTile []).ctx 0) && ((small aTile []).regions.map Prod.fst) == [0]
      && !(small aTile []).irrevocable { unitRegion with task := 1 }
      && ({ small aTile [] with tasks := [(1, { aTask with irrev := true })] } : State).irrevocable { unitRegion with task := 1 }
      && ((small aTile []).regions.filter fun q => q.2.ctx == 0 && q.2.stopWave && !q.2.moving).isEmpty
      && ((small aTile []).onRegion 0 (fun g => { g with stopWave := true })).regions.any (fun q => q.2.ctx == 0 && q.2.stopWave && !q.2.moving)
      && (small aTile []).regions.any (fun q => q.2.ctx == 0 && bit (cmdDies (block 2 0)) q.2.die) && !(s.saveFits 0 (block 3 0) g)
      && ((small aTile []).savedAt 0 0x20000).isNone && (({ small aTile [] with boot := Boot.reset } : State).restorePlace one.region).isNone
      && ({ s with saved := [one] } : State).restorePlace one.region == some (0, 1, 0)
      && (zeroState.restorePlace zeroSaved.region).isSome) = true := by decide +kernel

/-- A CHECK stage in which every controller has read an image of 4,608 bytes that begins with this word. -/
def checking (first : Nat) (second : Nat) : State :=
  let image := fun (n : Nat) (D : Die) => { D with image := some (bytesOf 4 n ++ List.replicate 4604 0) }
  { State.reset with
    dies := (State.reset.dies.map (image first)).modify 3 (image second)
    boot := { Boot.reset with bstate := 2, imgaddr := 0x100000, imglen := 4608 } }

set_option maxRecDepth 100000 in
/-- BootStages: the states of each stage, and an image with a bad magic number. -/
theorem witness_BootStages :
    (let s := checking 1 1
     s.controllers == [0, 1, 2, 3] && (s.controllers.all fun d => (s.die d).image.isSome) && (State.reset.controllers.all fun d => (State.reset.die d).image.isNone)
      && s.imageFailure ((s.die 0).image.getD []) == 3 && !State.reset.boot.tripped && State.reset.dies.length == 4
      && (List.range 4).all (fun d => !(State.reset.die d).failed && State.reset.fencedTiles d == 0 && !State.reset.memoryLost d)
      && (let hung : State := { State.reset.onDie 0 (fun D => { D with hung := true }) with time := 2 ^ 31 }
          (hung.die 0).hung && decide ((hung.die 0).serviced + 2 ^ 31 ≤ hung.time) && hung.boot.bstate != 5)) = true := by decide +kernel

/-- A header for a body of 4,096 bytes of zeros, signed with the private key 1 and the nonce 2; the digest and the signature are computed
outside the model, by the standards that R394 names. -/
def signedHeader : List Byte :=
  bytesOf 4 0x4B465731 ++ bytesOf 4 1 ++ bytesOf 8 1 ++ bytesOf 8 4096 ++ bytesOf 8 0
    ++ toBig 48 0xc0e59a3e3ffbd3b5c75428fb36432facabc745944296ff515f737c4fef4efc64586809f7a16f56354a1eaecf2aa8d774
    ++ toBig 48 0xaa87ca22be8b05378eb1c71ef320ad746e1d3b628ba79b9859f741e082542a385502f25dbf55296c3a545e3872760ab7
    ++ toBig 48 0x3617de4a96262c6f5d9e98bf9292dc29f8f41dbd289a147ce9da3113b5f0b8c00a60b1ce1d7e819d7a431d7c90ea0e5f
def signature : List Byte :=
  toBig 48 0x8d999057ba3d2d969260045c55b97f089025959a6f434d651d207d19fb96e9e4fe0e86ebe0e64f85b96a9c75295df61
    ++ toBig 48 0xc12790b57d0ace8b2633e43ffa9cc754756842dfb4dc97c2a61b5e66a8f62e7cd60d2f0e7dd0790b3df0173817603c11
def signedImage : List Byte := signedHeader ++ signature ++ List.replicate (240 + 4096) 0

set_option maxRecDepth 100000 in
theorem test_body_digest : beBytes (sha384 (List.replicate 4096 0)) = (signedHeader.drop 32).take 48 := by decide +kernel

set_option maxRecDepth 100000 in
/-- BootStages: an image that passes, where the fuses hold the hash of its key and its signature verifies. -/
theorem witness_BootStages_passes (h : Config.keyHash 0 = sha384 ((signedHeader.drop 80).take 96))
    (verifies : ecdsaVerify ((signedHeader.drop 80).take 96) (signedHeader.take 176) signature = true) :
    ({ State.reset with boot := { Boot.reset with imglen := 4608 } } : State).imageFailure signedImage = 0 := by
  have fields : signedImage.take 512 = signedHeader ++ signature ++ List.replicate 240 0 ∧ signedImage.drop 512 = List.replicate 4096 0
      ∧ ((signedImage.take 512).drop 80).take 96 = (signedHeader.drop 80).take 96 ∧ (signedImage.take 512).take 176 = signedHeader.take 176
      ∧ ((signedImage.take 512).drop 176).take 96 = signature ∧ ((signedImage.take 512).drop 32).take 48 = (signedHeader.drop 32).take 48 := by
    decide +kernel
  have numbers : ofBytes (((signedImage.take 512).drop 0).take 4) = 0x4B465731 ∧ ofBytes (((signedImage.take 512).drop 4).take 4) = 1
      ∧ ofBytes (((signedImage.take 512).drop 16).take 8) = 4096 ∧ ofBytes (((signedImage.take 512).drop 24).take 8) = 0
      ∧ ofBytes (((signedImage.take 512).drop 8).take 8) = 1 ∧ ((signedImage.take 512).drop 272).any (· != 0) = false := by
    decide +kernel
  obtain ⟨-, rest, key, msg, sig, dig⟩ := fields
  obtain ⟨n0, n1, n2, n3, n4, n5⟩ := numbers
  have body : List.take 4096 (signedImage.drop 512) = List.replicate 4096 0 := by rw [rest, List.take_replicate]; rfl
  simp only [State.imageFailure, n0, n1, n2, n3, n4, n5, key, msg, sig, dig, body, verifies, test_body_digest, h]
  decide +kernel

/-- ErrorsAndFences: a word of a vault and one of HBM, a named tensor, a region that runs, waits to be saved or has not started, a shadow bank
that is loaded and one that is idle, and samples that are due and not. -/
theorem witness_ErrorsAndFences :
    (let s := small aTile []
     let at' := fun (f : Region → Region) => s.onRegion 0 f
     let has := fun (s : State) (q : Region → Bool) => match s.regionOf 0 with | some (r, g) => r == 0 && q g | none => false
     let shadow := fun (p : LoadPhase) => at' fun g => { g with loader := ⟨p, 0x5000, 0, false, [], 0, []⟩ }
     State.bankOfAddr 0x10000 == some (0, 64) && (State.bankOfAddr (2 ^ 40 + 2 ^ 30)).isSome && (tabGet 0x13000 (treeState aTile []).trees).isSome
      && has s (fun g => !g.stopWave && !g.switching && g.running && g.drain.isNone) && has (at' fun g => { g with stopWave := true }) (fun g => g.stopWave)
      && has (at' fun g => { g with running := false }) (fun g => !g.running && !g.switching) && !(s.tile 0).bank
      && has (shadow .ready) (fun g => g.loader.phase == .ready && !g.switching) && has (shadow .idle) (fun g => g.loader.phase == .idle && !g.switching)
      && decide (0 < s.dies.length) && decide ((s.die 0).sampleAt ≤ ({ s with time := 2 ^ 22 } : State).time) && decide (s.time < (s.die 0).sampleAt)
      && !s.boot.tripped && s.boot.bstate == 4) = true := by decide +kernel

/-- ErrorsAndFences: an update that is early, and one in each row of the throttle table, going up, down and staying. -/
theorem witness_ErrorsAndFences_throttle :
    (let s := small aTile []
     let power := fun (t : Nat) (p : Nat) (state : Nat) => ({ s with
       time := 2 ^ 22
       boot := { s.boot with tjmax := BitVec.ofNat 8 t, pavg := BitVec.ofNat 16 p, tstate := BitVec.ofNat 2 state, updateAt := 0 } } : State)
     let due := fun (s : State) => decide (s.boot.updateAt ≤ s.time)
     let calm := fun (s : State) => decide (100 * s.boot.pavg.toNat ≤ 95 * s.boot.plim.toNat) && decide (s.boot.tjmax.toNat ≤ 100)
     let above := fun (s : State) => decide (100 * s.boot.pavg.toNat > 105 * s.boot.plim.toNat)
     due (power 110 0 0) && due (power 105 0 0) && due (power 40 3151 0) && above (power 40 3151 0) && decide ((power 40 3150 0).boot.plim.toNat < (power 40 3150 0).boot.pavg.toNat)
      && !above (power 40 3150 0) && decide ((power 110 0 0).boot.tstate.toNat < 3)
      && due (power 40 100 2) && calm (power 40 100 2) && decide ((power 40 100 2).boot.calmAt + 1800000 ≤ (power 40 100 2).time) && calm (power 40 100 0) && (power 40 100 0).boot.tstate == 0
      && due (power 40 2900 0) && !calm (power 40 2900 0) && decide ((power 40 2900 0).boot.pavg.toNat ≤ (power 40 2900 0).boot.plim.toNat)
      && decide (State.reset.time < ({ State.reset with boot := { State.reset.boot with updateAt := 5 } } : State).boot.updateAt)) = true := by decide +kernel

/-- ErrorsAndFences: parts that are not fenced, each fenced once, and a tile in a region that is irrevocable and in one that is not. -/
theorem witness_ErrorsAndFences_fences :
    (let s := small aTile []
     let irr : State := { s with tasks := [(1, { aTask with irrev := true })] }
     let g : Region := { unitRegion with task := 1, scr := 1 }
     let ports : State := { s with fleet := { s.fleet with lst := s.fleet.lst.set 5 3 } }
     !(s.tile 3).fenced && (s.tile 3).region.isNone && decide (s.fencedTiles 0 < 136) && ((State.fenceTile s 3).tile 3).fenced
      && s.regionOf 0 == some (0, g) && !(s.tile 0).fenced && !s.irrevocable g && irr.irrevocable g && g.drain.isNone
      && !s.vaultFenced 70 && (s.fenceVault 70).vaultFenced 70 && decide (70 / 64 < s.dies.length)
      && !s.channelFenced (3 * 2 ^ 36 + 7 * 2 ^ 31) && (s.fenceChannel 3 7).channelFenced (3 * 2 ^ 36 + 7 * 2 ^ 31) && !(s.fenceChannel 3 7).memoryLost 1 && s.dies.length == 4
      && !(s.die 2).failed && (s.fenceDie 2 |>.die 2).failed && decide (5 < s.fleet.lst.length) && s.fleet.lst.getD 5 0 == 0 && ports.fleet.lst.getD 5 0 == 3) = true := by decide +kernel

/-- A flit for package n. -/
def aFlit (n : Nat) : Flit := ⟨BitVec.ofNat 11 n, 0, 0, 0, 3, 0, 0, true⟩
/-- A package of a pod of 4 by 2 whose ports are in these states. -/
def podState (lst : List Nat) : State :=
  { State.reset with
    boot := { Boot.reset with bstate := 4, live := 0xF }
    fleet := { Fleet.reset with en := true, dimx := 3, dimy := 1, lst := lst } }
/-- All ports in state l, and port 2 in state k. -/
def ports (l k : Nat) : List Nat := (List.replicate 16 l).set 2 k

/-- LatticePorts: an up port with room and without, a flit for this package, flits that have no way, no credit and a credit, and a bad one. -/
theorem witness_LatticePorts :
    (let s := podState (ports 0 2)
     let both := podState ((ports 0 2).set 3 2)
     let came := State.travels 2
     let mine := fun (s : State) => (s.fleet.rx.filter fun q => q.1 == 2 && State.creditKey 0 q.2 == State.creditKey 0 (aFlit 0)).length
     let full : State := { s with fleet := { s.fleet with rx := List.replicate 256 (2, aFlit 0) } }
     s.fleet.lst.getD 2 0 == 2 && (podState (ports 0 1)).fleet.lst.getD 2 0 == 1 && (aFlit 0).crcOk && !({ aFlit 0 with crcOk := false } : Flit).crcOk
      && mine full == 256 && mine s == 0 && (aFlit 0).dest == s.fleet.pkg && (aFlit 1).dest != s.fleet.pkg && (aFlit 0).ctx != 4
      && ((podState (ports 3 2)).nextHop 4 came).isNone && s.nextHop 1 came == some (0, false) && s.creditPorts 0 false { aFlit 1 with dim := 0, cls := 1 } == []
      && both.creditPorts 0 false { aFlit 1 with dim := 0, cls := 1 } == [3]
      && decide (2 < s.fleet.retries.length) && decide (2 < s.fleet.lst.length) && ((s.fleet.retries.getD 2 []).filter fun x => s.time < x + 2 ^ 30).length == 0) = true := by
  decide +kernel
/-- The retry that fences a port: as many as that lie in the time that counts. -/
theorem witness_LatticePorts_retries : ((List.replicate (2 ^ 20) 5).filter fun x => decide ((9 : Nat) < x + 2 ^ 30)).length = 2 ^ 20 := by
  rw [List.filter_replicate_of_pos (by decide), List.length_replicate]

/-- LatticePorts: retrains, missed keep-alives, and writes of PODCFG and MONCTL that are performed and not. -/
theorem witness_LatticePorts_control :
    (let s := podState (ports 0 2)
     let cfg : Nat := 2 ^ 22 + 3 * 2 ^ 11 + 2 ^ 15 + 5
     let mon : Word := BitVec.ofNat 64 (1 + 4 * 9 + 256 * 0x10)
     let third : State := { podState (ports 0 1) with fleet := { (podState (ports 0 1)).fleet with retrain := (List.replicate 16 0).set 2 2, missed := (List.replicate 16 0).set 2 9 } }
     let runs := third.onDie 1 fun D => { D with counters := [(State.monCtr mon, (0x10, 77))] }
     let active : State := { s with ctxs := s.ctxs.set 1 { Ctx.reset with state := 1 } }
     third.fleet.lst.getD 2 0 == 1 && third.fleet.retrain.getD 2 0 == 2 && s.fleet.retrain.getD 2 0 == 0 && decide (2 < s.fleet.retrain.length)
      && decide (s.fleet.missed.getD 2 0 < 9) && third.fleet.missed.getD 2 0 == 9 && third.fleet.lst.length == 16 && decide (1 < third.torus.getD (portDir 2).1 1)
      && (podState (ports 0 0)).fleet.lst.getD 2 0 == 0 && (podState (ports 0 3)).fleet.lst.getD 2 0 == 3
      && s.boot.bstate == 4 && State.reset.boot.bstate == 0 && s.ctxs.all (fun c => c.state == 0) && active.ctxs.any (fun c => c.state != 0)
      && decide (bits cfg 0 11 < (bits cfg 11 4 + 1) * (bits cfg 15 4 + 1) * (bits cfg 19 3 + 1)) && !decide (bits 9 0 11 < (bits 9 11 4 + 1) * (bits 9 15 4 + 1) * (bits 9 19 3 + 1))
      && decide (State.monSrc mon ≤ 0xC7) && State.monDie mon == 1 && decide (1 < s.dies.length) && !mon.getLsbD 16 && !mon.getLsbD 17
      && (tabGet (State.monCtr mon) (s.die 1).counters).isNone && tabGet (State.monCtr mon) (runs.die 1).counters == some (0x10, 77)) = true := by decide +kernel

/-- A host transaction of n words. -/
def aTx (ctx addr n : Nat) : TxHdr := ⟨BitVec.ofNat 56 addr, 0, 9, BitVec.ofNat 5 (n - 1), 0, BitVec.ofNat 3 ctx, if ctx = 4 then 1 else 0, 0, 0, 0⟩

/-- HostTransactions: a reserved kind, a transaction behind a fence and one with none before it, a header that breaks its table, and good ones
for memory under a context and under ctx 4 and for the control block. -/
theorem witness_HostTransactions :
    (let s := small aTile []
     let ok := fun (h : TxHdr) => !hdrBad h && !s.shut h && !kindReserved h && !s.behindFence h
     let fenced : State := { s with fences := [⟨0, 0x6000, 4096, [0], none, 3, 0⟩] }
     kindReserved { aTx 0 0x6000 1 with kind := 6 } && kindReserved { aTx 0 0x6000 1 with kind := 15 } && !kindReserved { aTx 0 0x6000 1 with kind := 9 }
      && fenced.behindFence (aTx 0 0x6000 1) && !fenced.behindFence { aTx 0 0x6000 1 with ocls := 1 }
      && hdrBad (aTx 0 0x6001 1) && ok (aTx 0 0x6000 2) && ok (aTx 4 0x6000 2) && State.placed4 0x6000 2 && !inDcb 0x6000
      && ok (aTx 4 (dcbBase + 0x100) 2) && State.placed4 (dcbBase + 0x100) 2 && inDcb (dcbBase + 0x100)
      && ok (aTx 4 (dcbBase + 0x500) 4) && State.placed4 (dcbBase + 0x500) 4 && inDcb (dcbBase + 0x500)
      && (s.virtualAccess 0 0x6000 2 none).2.status == 0 && (s.virtualAccess 0 0x6000 1 (some [7])).2.status == 0 && (s.virtualAccess 0 0xF0000000 1 (some [7])).2.status != 0
      && (s.physicalRead 0x16000 2).2.status == 0 && (s.physicalWrite 0x16000 [1, 2]).2.status == 0
      && State.shut { s with boot := { s.boot with bstate := 1 } } (aTx 0 0x6000 2)) = true := by decide +kernel

/-- HostTransactions: APPEND and TFENCE, words that the device has asked for, and the state of the link. -/
theorem witness_HostTransactions_replies :
    (let s := small aTile []
     let ok := fun (h : TxHdr) => !hdrBad h && !s.shut h && !kindReserved h && !s.behindFence h
     let asked := fun (tag bstate attst : Nat) => ({ s with
       host := { s.host with asked := [(tag, 0x2000, 2)] }
       boot := { s.boot with bstate := bstate, attst := BitVec.ofNat 2 attst } } : State)
     let cpl := fun (tag status : Nat) => { aTx 0 0x6000 2 with tag := BitVec.ofNat 16 tag, status := BitVec.ofNat 4 status }
     let finds := fun (s : State) (h : TxHdr) => (s.host.asked.find? fun q => q.1 == h.tag.toNat) == some (h.tag.toNat, 0x2000, 2)
     ok (aTx 0 0x2000 1) && (aTx 0 0x2000 1).len == 0 && (s.ctx 0).state != 2 && ((s.onCtx 0 fun C => { C with state := 2 }).ctx 0).state == 2
      && finds (asked 3 2 0) (cpl 3 0) && (asked 3 2 0).boot.bstate == 2 && (cpl 3 0).status == 0 && finds (asked 3 2 0) (cpl 3 5) && (cpl 3 5).status != 0
      && finds (asked 4 4 1) (cpl 4 0) && finds (asked 4 4 1) (cpl 4 5) && (asked 4 4 1).boot.attst == 1 && s.host.modules.getLsbD 4 && s.boot.bstate == 4) = true := by
  decide +kernel

/-- ExceptionsAreTaken: a task that need not replay, and one that must, since a commit has written what it has read. -/
theorem witness_ExceptionsAreTaken :
    (let s := small aTile []
     let g : Region := { unitRegion with task := 1, scr := 1 }
     s.regionOf 0 == some (0, g) && !s.mustReplay g && (s.ctx g.ctx).state == 1 && decide (g.ctx < s.ctxs.length) && decide (dieOf 0 < s.dies.length)
      && Flt.freezes (.pgflt 0x6000 0 1)
      && ({ s with commits := [[.word 5]] } : State).mustReplay { g with reads := [.word 5] }) = true := by decide +kernel

/-- MemoryReadsBack and StepKeepsMemoryForm, StepKeepsSizes: a memory in canonical form, and a step of a machine that has its parts in
number. -/
theorem witness_MemoryReadsBack : Memory.wf (small aTile []).mem := by decide +kernel
theorem witness_StepKeepsForm :
    Memory.wf State.reset.mem ∧ (∃ t, step State.reset = .next t) ∧ State.reset.sized := by
  refine ⟨by decide, ⟨_, rfl⟩, by decide, by decide, by decide, by decide, by decide, by decide, ?_, ?_⟩ <;> simp [State.reset]
theorem witness_EncodedInstructionsDecode :
    (match decode 0x100F_0C21_C402_8000 with | .ok i => encode i == some 0x100F_0C21_C402_8000 && i.rowOk && i.reject.isNone | .error _ => false) = true := by decide +kernel
/-- StepRunsDecoded: the element of the machine into which NOP is placed, a turn of an event, and a host transaction that waits. -/
theorem witness_StepRunsDecoded :
    (let s := State.reset.withFetchWord 64 0
     let turn := fun (t : Turn) => ({ s with agenda := [t] } : State).agenda
     s.agenda == [.elem 0] && s.runs 0 && decode ((s.tile 0).program (s.tile 0).pc) == .ok .nop && turn (.op (.powerOnReset 0)) == [.op (.powerOnReset 0)]
      && turn (.tx ⟨1, aTx 0 0x6000 1, [5]⟩) == [.tx ⟨1, aTx 0 0x6000 1, [5]⟩]) = true := by decide +kernel

/-- BankUpdates: the operands and the bank of its equations, at the last row and column. -/
theorem witness_BankUpdates : 31 < 32 ∧ (3 : BitVec 3).toNat ≤ 3
    ∧ (MatOp.fresh aTile (.mma ⟨0, 1, 2, 1, 4, 3, 3, 3, 3, 3, 0, 0, 0, 0⟩) 0 [] [] [] none).instr = .mma ⟨0, 1, 2, 1, 4, 3, 3, 3, 3, 3, 0, 0, 0, 0⟩ := by decide

set_option maxRecDepth 100000 in
/-- LaunchTurns, an arm that is accepted over a memory in canonical form; PreemptAndRestore, a
directory that is spoiled and one that is not; PresenceAndFences, a length of 0. -/
theorem witness_launch_restore_clear :
    (let s := (imageState aTile [(0x100200, 0x5000), (0x100208, 20 * 2 ^ 58 + 2 ^ 56 + 2 ^ 52), (0x100210, 7 * 2 ^ 32)]).onCtx 0 fun C => { C with nlseq := 2 }
     let ws := (List.range 32).map fun k => BitVec.ofNat 64 (s.memWord (s.recordAt 0 2 + 8 * k))
     let hurt : State := { s with bad := [0x20000 / 8] }
     let h := s.header? 0 (bits (word ws 0) 0 56)
     h.1.armStatus 0 2 ws h.2 == 0 && decide (Memory.wf s.mem) && (s.ctx 0).state == 1 && !s.recordSpoiled 0 2 && decide (0 < s.ctxs.length) && s.launches.all (fun l => l.key != 4 * (s.ctx 0).nlseq + 0)
      && !s.spoiled 0x20000 65536 && hurt.spoiled 0x20000 65536
      && (let c := small (withX aTile [(2, 0x1000)]) []
          canM c ⟨0, 2, 0, 0, 0, 3, 0, 0, 1, 0⟩ false true && c.effAddr ⟨0, 2, 0, 0, 0, 3, 0, 0, 1, 0⟩ % 8 == 0 && c.me.readX 0 == 0)) = true := by decide +kernel

/-- ErrorsAndFences: the word that the scrubber reads in this clk and another, and a failed die that has lost its memory under an irrevocable
task. MemoryInterface: a leaf that a fence covers and one that it does not. -/
theorem witness_scrub_lost_fence :
    (let s := small aTile []
     let g : Region := { unitRegion with task := 1, scr := 1 }
     let lost := ({ s with tasks := [(1, { aTask with irrev := true })] } : State).onDie 0 fun D => { D with failed := true, hbmF := BitVec.allOnes 64 }
     let f : Fence := ⟨0, 0x6000, 0x1000, [0], none, 3, 0⟩
     State.bankOfAddr 8 == some (0, 64) && s.scrubs 0 && !s.scrubs 8
      && (lost.die 0).failed && lost.memoryLost 0 && lost.irrevocable g && lost.regions == [(0, g)] && g.die == 0 && g.drain.isNone
      && f.covers ⟨0, 0x6000, 12, 0⟩ && !f.covers ⟨0, 0x7000, 12, 0⟩ && !f.covers ⟨1, 0x6000, 12, 0⟩) = true := by decide +kernel

/-- TransformNodes: a DONE that passes to a routed output. ControlTokensPass: an element with outputs and all its accesses performed.
AddressGenerators: a value in the return queue that ends its pass, and a port whose queue is empty and whose pass has an index left. -/
theorem witness_outputs_returns :
    (let done := { aTile with
       bank0 := ⟨[(0, [BitVec.ofNat 64 40]), (19, [rt 0 80 0, 0, 0, 0])], true, false⟩
       inq := [(0, ⟨[Beat.control 4 0 0 0], 0⟩)] }
     let stop := joinTile 0 [] [(0, [Beat.control 3 2 0 0]), (1, [.control 3 2 0 0])]
     let sw := joinTile 0 [rt 8 0 2, rt 9 1 2, rt 0 80 2, 0] [(0, [.control 6 0 0 7]), (1, [.control 6 0 0 7])]
     let ag := unitTile [(15, [2 ^ 50 + 2 * 2 ^ 44, 0x6000, 3, 0])] [] 7 { opened 0 0 0 with block := [0x6100, 0x7000, 0, BitVec.ofNat 64 (2 + 2 * 2 ^ 36), 0, 0, 0, 0] }
     let x : IseReturn := ⟨0, 0, 0, 0, 9, true⟩
     let full := { small ag [] with iseq := [x] }
     unitCan (small done []) 0 0 && done.isXf && (xfWord done).1 == 0 && done.mainOutputs 0 == [0] && (done.inHead 0).map Beat.kind == some 4 && (done.unit 0).group.isEmpty
      && !stop.outputs.isEmpty && !stop.unperformed
      && allAt sw 0 6 && settled sw 0 && sw.roomy 0 && !sw.outputs.isEmpty
      && (full.returned 0 0) == [x] && unitCan full 0 7 && ((small ag []).returned 0 0).isEmpty && (small ag []).iseRuns 0 0 0) = true := by decide +kernel

/-! ### Results: one step each, expected values from the spec -/

/-- Tile 0 after an instruction of its element. -/
def after (x : Host.Outcome State Fault Refusal) : Tile := match x with | .next t => t.tile 0 | _ => Tile.reset
def xReg (T : Tile) (r : Nat) : Nat := (T.x.getD r ⟨0, false⟩).val.toNat
/-- Lane l of vector register n, as a 32-bit word. -/
def lane32 (T : Tile) (n l : Nat) : Nat := bits (T.v.getD n ⟨0, false⟩).val.toNat (32 * l) 32
/-- The small machine with X registers, and v1, v2 in their 32-bit lanes. -/
def operands (xs : List (Nat × Nat)) (v1 v2 : List Nat) : State :=
  small { withX aTile xs with v := (aTile.v.set 1 ⟨pack 32 v1, true⟩).set 2 ⟨pack 32 v2, true⟩ } []

/-- R129 Table 1: signed and unsigned 64-bit corners of x1 = -2^63, x2 = -1, x3 = 0. -/
theorem test_integer_corners :
    (let s := operands [(1, 2 ^ 63), (2, 2 ^ 64 - 1), (3, 0)] [] []
     let f := fun (sa sb ty sat : Nat) => (⟨4, BitVec.ofNat 6 sa, BitVec.ofNat 6 sb, 0, 0, 0, 0, BitVec.ofNat 5 ty, 0, BitVec.ofNat 1 sat, 0⟩ : FmtA)
     xReg (after (exec (.add (f 1 2 3 0)) s)) 4 == 2 ^ 63 - 1 && xReg (after (exec (.add (f 1 2 3 1)) s)) 4 == 2 ^ 63
      && xReg (after (exec (.sub (f 3 2 7 1)) s)) 4 == 0 && xReg (after (exec (.mulh (f 2 2 7 0)) s)) 4 == 2 ^ 64 - 2
      && xReg (after (exec (.div (f 1 3 3 0)) s)) 4 == 2 ^ 64 - 1 && xReg (after (exec (.rem (f 1 3 3 0)) s)) 4 == 2 ^ 63
      && xReg (after (exec (.div (f 1 2 3 0)) s)) 4 == 2 ^ 63 && xReg (after (exec (.rem (f 1 2 3 0)) s)) 4 == 0) = true := by decide +kernel

/-- R145 Example 1: FEXP2F and FEXPINS on FP32 lanes. -/
theorem test_exponentials :
    (let s := operands [] [0x3F000000, 0xBF000000, 0x3F400000, 0x3FC00000, 0x3F802000, 0x3F802000, 0x3F800000, 0x3F800000]
       [0, 0, 0, 2 ^ 32 - 140, 2 ^ 32 - 140, 2 ^ 32 - 140, 128, 128]
     let e := after (exec (.fexp2f ⟨35, 33, 0, 0, 0, 0, 0, 10, 0, 0, 0⟩) s)
     let i := fun (rm sat : Nat) => after (exec (.fexpins ⟨35, 33, 34, 0, 0, 0, 0, 10, BitVec.ofNat 3 rm, BitVec.ofNat 1 sat, 0⟩) s)
     lane32 e 3 0 == 0x3FB504F3 && lane32 e 3 1 == 0x3F3504F3 && lane32 e 3 2 == 0x7FC00000
      && lane32 (i 0 0) 3 3 == 0x300 && lane32 (i 0 0) 3 4 == 0x200 && lane32 (i 2 0) 3 5 == 0x201 && lane32 (i 0 0) 3 6 == 0x7F800000
      && lane32 (i 0 1) 3 7 == 0x7F7FFFFF) = true := by decide +kernel

/-- R112 Example 2: FP32 to the 8-bit formats. -/
theorem test_eight_bit_formats :
    ([(e4m3, 0, false, 0x43960000), (e4m3, 0, false, 0x43EB0000), (e4m3, 0, false, 0xBA83126F), (e4m3, 1, false, 0xBA83126F),
      (e5m2, 0, false, 0x4788B800), (e5m2, 0, true, 0x4788B800)].map fun (f, rm, sat, x) => convert f rm sat 0 (fp32.value x))
     = [0x79, 0x7E, 0x81, 0x80, 0x7C, 0x7B] := by decide +kernel

/-- R116 Example 4: the accumulator of eight products of 0.25 with E4M3, BF16 and FP32 operands. -/
theorem test_accumulation :
    (let product := fun (code half : Nat) => (plainValue code half).mul (plainValue code half)
     let run := fun (code half : Nat) => sumChunks false false 0x4B800000 (List.replicate (8 / min (chunkK code code) 8) (List.replicate (min (chunkK code code) 8) (product code half)))
     [run 3 0x30, run 1 0x3F00, run 2 0x3F000000]) = [0x4B800001, 0x4B800001, 0x4B800000] := by decide +kernel

/-- R119 Example 5: the first three elements of basis 0 and basis 1 of seed 1, as signs. -/
theorem test_seed_bases :
    (basisSigns 3 (basisStart 1 0), basisSigns 3 (basisStart 1 1), galoisSteps 2 1) = ([true, false, true], [false, false, true], 0xC0300002) := by decide +kernel

/-- R216 Example 5: `mmaw.e2m1.seed.m4n4k32 a1, v2, v3` from its operand phase to row 0 of the bank. -/
theorem test_seeded_multiply :
    (let f : FmtX := ⟨1, 0, 34, 0, 35, 7, 23, 0, 0, 2, 0, 0, 0, 0⟩
     let T := { aTile with v := (aTile.v.set 2 ⟨2, true⟩).set 3 ⟨pack 32 [1, 0x017F0002, 0x3E803F00], true⟩ }
     let step1 := match exec (.mmaw f) (small T []) with | .next t => t | _ => State.reset
     let phase := fun (s : State) => match exec (.matrixOperandPhase 0) s with | .next t => t | _ => State.reset
     let step2 := phase { phase step1 with time := 16 }
     match (step2.tile 0).mxc.queue with
     | [o] => let b := bankAfter (step2.tile 0).mxc.a1 o
       (List.range 4).map (fun j => b.get 0 j) ++ [b.get 1 0]
     | _ => []) = [0xBE800000, 0x3F400000, 0xBF400000, 0xBE800000, 0] := by decide +kernel

/-- R134 Example: the FP32 sum over lanes 3, 5 and 7 of 1.0, 2^24 and 1.0, in lane order, is 2^24. -/
theorem test_reduction_order :
    (let s := small { aTile with
       v := aTile.v.set 1 ⟨pack 32 [0, 0, 0, 0x3F800000, 0, 0x4B800000, 0, 0x3F800000], true⟩
       p := aTile.p.set 1 0xA8 } []
     match exec (.lnred ⟨35, 33, 0, 0, 0, 1, 0, 10, 0, 0, 0⟩) s with
     | .next t => lane32 (t.tile 0) 3 3
     | _ => 0) = 0x4B800000 := by decide +kernel

/-- R394: the digest of the three bytes "abc" (FIPS 180-4, which the rule names, gives it as an example). -/
theorem test_digest :
    (sha384 [0x61, 0x62, 0x63]).toNat
      = 0xcb00753f45a35e8bb5a03d699ac65007272c32ab0eded1631a8b605a43ff5bed8086072ba1e7cc2358baeca134c825a7 := by decide +kernel

/-- R286 Example 3 (10_kernel_memory_and_tasks): a block of 64 words with words 3 and 40 nonzero has tag 1 and sixteen coded bytes. -/
theorem test_coded_block :
    (let bs := (List.range 64).flatMap fun i => bytesOf 4 (if i = 3 then 0x3F800000 else if i = 40 then 0x40000000 else 0)
     (State.zmbEncode bs).1 == 1 && (State.zmbEncode bs).2.take 16 == [8, 0, 0, 0, 0, 1, 0, 0, 0, 0, 0x80, 0x3F, 0, 0, 0, 0x40]
      && State.zmbDecode 1 ((State.zmbEncode bs).2 ++ List.replicate 256 0) == some bs) = true := by decide +kernel

/-- R36 Example 4: [0, 1000) with grain 64 by [0, 48) with grain 16 splits at 512, its second half at 768, and [960, 1000) by [32, 48) not. -/
theorem test_task_split :
    (splitDom [(0, 1000), (0, 48)] [64, 16] == some ([(0, 512), (0, 48)], [(512, 1000), (0, 48)])
      && splitDom [(512, 1000), (0, 48)] [64, 16] == some ([(512, 768), (0, 48)], [(768, 1000), (0, 48)])
      && splitDom [(960, 1000), (32, 48)] [64, 16] == none) = true := by decide +kernel

/-- R269, R270: a store of 32 bits puts its bytes at rising addresses, least significant first. -/
theorem test_store_byte_order :
    (let s := small (withX aTile [(3, 0x11223344), (4, 0x6000)]) []
     match exec (.st ⟨3, 4, 0, 0, 0, 2, 4, 0, 0, 0⟩) s with
     | .next t => match t.region? 0 with
       | some g => ((t.taskRead g false 0x16004 4).getD []).map BitVec.toNat
       | none => []
     | _ => []) = [0x44, 0x33, 0x22, 0x11] := by decide +kernel

end Sys2Proof.Tests
end

section
/-! Proofs of the family of the model's scope. `State.sized` speaks of five fields of the state; a lemma `f_sized` says that the operation
`f` leaves a sized state sized, operation by operation in the model's order, up to `step`. An operation that changes none of the five
fields needs no lemma: the state after it is sized by the same proof. -/
namespace Sys2Proof.Machine
open State

/-! ### The sizes -/

/-- The lists of a lattice's registers have one entry for each of its sixteen ports (R408). -/
def Fleet.sized (F : Fleet) : Prop :=
  F.lst.length = 16 ∧ F.retrain.length = 16 ∧ F.retries.length = 16 ∧ F.missed.length = 16

/-- The tiles of a saved region have their registers in number. -/
def Saved.sized (x : Saved) : Prop := ∀ T ∈ x.tiles, T.sized

/-- The parts of `State.sized`, by name. -/
structure State.Sizes (s : State) : Prop where
  ctxs : s.ctxs.length = 4
  dies : s.dies.length = 4
  fleet : s.fleet.sized
  tiles : ∀ q ∈ s.tiles, q.2.sized
  saved : ∀ x ∈ s.saved, x.sized

/-- An outcome that goes on, goes on in a sized state. -/
def NextSized : Host.Outcome State Fault Refusal → Prop
  | .next t => t.sized
  | _ => True

/-- A state that an operation gives, where it gives one, is sized. -/
def SomeSized (o : Option State) : Prop := ∀ t ∈ o, t.sized

theorem State.sized.sizes {s : State} (hs : s.sized) : s.Sizes := by
  obtain ⟨hc, hd, hl, hn, hr, hm, ht, hx⟩ := hs
  exact ⟨hc, hd, ⟨hl, hn, hr, hm⟩, ht, hx⟩

theorem State.Sizes.sized {s : State} (h : s.Sizes) : s.sized := by
  obtain ⟨hc, hd, ⟨hl, hn, hr, hm⟩, ht, hx⟩ := h
  exact ⟨hc, hd, hl, hn, hr, hm, ht, hx⟩

/-- An update of other fields keeps a state sized. -/
theorem sized_of_eq {s t : State} (hs : s.sized)
    (e : (t.ctxs, t.dies, t.fleet, t.tiles, t.saved) = (s.ctxs, s.dies, s.fleet, s.tiles, s.saved)) : t.sized := by
  obtain ⟨hc, hd, hf, ht, hx⟩ := hs.sizes
  simp only [Prod.mk.injEq] at e
  obtain ⟨ec, ed, ef, et, ex⟩ := e
  exact State.Sizes.sized ⟨ec ▸ hc, ed ▸ hd, ef ▸ hf, et ▸ ht, ex ▸ hx⟩

section
variable {α : Type} {c : Prop} [Decidable c]

theorem ite_sized {a b : State} (ha : a.sized) (hb : b.sized) : (if c then a else b).sized := by
  split <;> assumption

theorem Tile.ite_sized {a b : Tile} (ha : a.sized) (hb : b.sized) : (if c then a else b).sized := by
  split <;> assumption

theorem ite_fst_sized {a b : State × α} (ha : a.1.sized) (hb : b.1.sized) : (if c then a else b).1.sized := by
  split <;> assumption

theorem ite_snd_sized {a b : α × State} (ha : a.2.sized) (hb : b.2.sized) : (if c then a else b).2.sized := by
  split <;> assumption

theorem ite_nextSized {a b : Host.Outcome State Fault Refusal} (ha : NextSized a) (hb : NextSized b) :
    NextSized (if c then a else b) := by
  split <;> assumption

theorem fst_sized {p : State × α} {s : State} {a : α} (e : p = (s, a)) (h : p.1.sized) : s.sized := by
  subst e; exact h

theorem snd_sized {p : α × State} {s : State} {a : α} (e : p = (a, s)) (h : p.2.sized) : s.sized := by
  subst e; exact h

theorem none_sized : SomeSized none := nofun

theorem some_sized {s : State} (hs : s.sized) : SomeSized (some s) := by
  rintro _ ⟨⟩; exact hs

theorem forall_mem_some {β : Type} {P : β → Prop} {b : β} (h : P b) : ∀ q ∈ some b, P q := by
  rintro _ ⟨⟩; exact h

theorem getD_sized {o : Option State} {s : State} (ho : SomeSized o) (hs : s.sized) : (o.getD s).sized := by
  cases o with
  | none => exact hs
  | some t => exact ho t rfl

variable {l : List α}

theorem foldl_sized {f : State → α → State} {s : State} (hf : ∀ s a, s.sized → (f s a).sized) (hs : s.sized) :
    (l.foldl f s).sized :=
  l.foldlRecOn f hs fun s h a _ => hf s a h

theorem Tile.foldl_sized {f : Tile → α → Tile} {T : Tile} (hf : ∀ T a, T.sized → (f T a).sized) (hT : T.sized) :
    (l.foldl f T).sized :=
  l.foldlRecOn f hT fun T h a _ => hf T a h

theorem foldl_fst_sized {β : Type} {f : State × β → α → State × β} {p : State × β} (hf : ∀ p a, p.1.sized → (f p a).1.sized)
    (hp : p.1.sized) : (l.foldl f p).1.sized :=
  l.foldlRecOn (motive := fun p => p.1.sized) f hp fun p h a _ => hf p a h

end

theorem Fleet.set_lst_sized {F : Fleet} {p l} (hF : F.sized) : Fleet.sized { F with lst := F.lst.set p l } := by
  obtain ⟨hl, hn, hr, hm⟩ := hF
  exact ⟨List.length_set.trans hl, hn, hr, hm⟩

theorem Tile.set_x_sized {T : Tile} {r a} (hT : T.sized) : Tile.sized { T with x := T.x.set r a } := by
  obtain ⟨hx, hv, hp⟩ := hT
  exact ⟨List.length_set.trans hx, hv, hp⟩

theorem Tile.set_v_sized {T : Tile} {r a} (hT : T.sized) : Tile.sized { T with v := T.v.set r a } := by
  obtain ⟨hx, hv, hp⟩ := hT
  exact ⟨hx, List.length_set.trans hv, hp⟩

theorem Tile.set_p_sized {T : Tile} {r a} (hT : T.sized) : Tile.sized { T with p := T.p.set r a } := by
  obtain ⟨hx, hv, hp⟩ := hT
  exact ⟨hx, hv, List.length_set.trans hp⟩

theorem Tile.reset_sized : Tile.reset.sized := ⟨rfl, rfl, rfl⟩

theorem forall_tabSet {α : Type} {P : α → Prop} {k : Nat} {a : α} {t : Tab α} (ha : P a) (ht : ∀ q ∈ t, P q.2) :
    ∀ q ∈ tabSet k a t, P q.2 := by
  induction t with
  | nil => simpa [tabSet] using ha
  | cons p t ih =>
    obtain ⟨hp, ht⟩ := List.forall_mem_cons.1 ht
    unfold tabSet
    split
    · exact List.forall_mem_cons.2 ⟨ha, ht⟩
    · split
      · exact List.forall_mem_cons.2 ⟨ha, List.forall_mem_cons.2 ⟨hp, ht⟩⟩
      · exact List.forall_mem_cons.2 ⟨hp, ih ht⟩

theorem mem_of_tabGet {α : Type} {k : Nat} {a : α} {t : Tab α} (h : tabGet k t = some a) : (k, a) ∈ t := by
  induction t with
  | nil => cases h
  | cons p t ih =>
    unfold tabGet at h
    split at h
    next e => exact List.mem_cons.2 (.inl (by rw [← e, ← Option.some.inj h]))
    · exact List.mem_cons_of_mem _ (ih h)

section
variable {s : State} {T : Tile}

/-! ### The operations of the state -/

theorem State.tile_sized {t} (hs : s.sized) : (s.tile t).sized := by
  unfold State.tile
  cases e : tabGet t s.tiles with
  | none => exact Tile.reset_sized
  | some T => exact hs.sizes.tiles _ (mem_of_tabGet e)

theorem State.setTile_sized {t} (hs : s.sized) (hT : T.sized) : (s.setTile t T).sized :=
  State.Sizes.sized { hs.sizes with tiles := forall_tabSet hT hs.sizes.tiles }

theorem State.onTile_sized {t} {f : Tile → Tile} (hs : s.sized) (hf : ∀ T, T.sized → (f T).sized) : (s.onTile t f).sized :=
  setTile_sized hs (hf _ (tile_sized hs))

theorem State.onMe_sized {f : Tile → Tile} (hs : s.sized) (hf : ∀ T, T.sized → (f T).sized) : (s.onMe f).sized :=
  onTile_sized hs hf

theorem State.onRegion_sized {r f} (hs : s.sized) : (s.onRegion r f).sized := by
  unfold State.onRegion
  split <;> exact hs

theorem State.onTask_sized {h f} (hs : s.sized) : (s.onTask h f).sized := by
  unfold State.onTask
  split <;> exact hs

theorem State.withBoot_sized {b} (hs : s.sized) : State.sized { s with boot := b } :=
  hs

theorem State.withFleet_sized {F : Fleet} (hs : s.sized) (hF : F.sized) : State.sized { s with fleet := F } :=
  State.Sizes.sized { hs.sizes with fleet := hF }

theorem State.mapDies_sized {f} (hs : s.sized) : State.sized { s with dies := s.dies.map f } :=
  State.Sizes.sized { hs.sizes with dies := List.length_map f |>.trans hs.sizes.dies }

theorem State.onCtx_sized {c f} (hs : s.sized) : (s.onCtx c f).sized :=
  State.Sizes.sized { hs.sizes with ctxs := (List.length_modify ..).trans hs.sizes.ctxs }

theorem State.onDie_sized {d f} (hs : s.sized) : (s.onDie d f).sized :=
  State.Sizes.sized { hs.sizes with dies := (List.length_modify ..).trans hs.sizes.dies }

theorem State.draw_sized (hs : s.sized) : s.draw.2.sized :=
  hs

theorem State.countBy_sized {d e n} (hs : s.sized) : (s.countBy d e n).sized :=
  onDie_sized hs

theorem State.count_sized {d e} (hs : s.sized) : (s.count d e).sized :=
  countBy_sized hs

theorem Tile.pushIn_sized {c bs} (hT : T.sized) : (T.pushIn c bs).sized :=
  Tile.ite_sized hT hT

theorem Tile.onHead_sized {f} (hT : T.sized) : (T.onHead f).sized := by
  unfold Tile.onHead
  split <;> exact hT

theorem Tile.setVreg_sized {r x} (hT : T.sized) : (T.setVreg r x).sized :=
  Tile.ite_sized (Tile.set_v_sized hT) (Tile.onHead_sized hT)

theorem Tile.writeX_sized {r v} (hT : T.sized) : (T.writeX r v).sized :=
  Tile.ite_sized hT (Tile.set_x_sized hT)

theorem Tile.writeV_sized {r v m} (hT : T.sized) : (T.writeV r v m).sized :=
  Tile.setVreg_sized hT

theorem Tile.writeP_sized {k v m} (hT : T.sized) : (T.writeP k v m).sized :=
  Tile.ite_sized hT (Tile.set_p_sized hT)

theorem Tile.issueOp_sized {kind r lanes value acq i} (hT : T.sized) : (T.issueOp kind r lanes value acq i).sized := by
  unfold Tile.issueOp
  cases T.destOf r with
  | none => exact hT
  | x k => exact Tile.set_x_sized hT
  | v k => exact Tile.setVreg_sized hT
  | b n k => exact Tile.setVreg_sized hT

theorem Tile.writeResult_sized {o v} (hT : T.sized) : (T.writeResult o v).sized := by
  unfold Tile.writeResult
  extract_lets +onlyGivenNames _ _ _
  split
  · exact hT
  · exact Tile.set_x_sized hT
  · exact Tile.set_v_sized hT
  · exact hT

theorem Tile.dropHead_sized (hT : T.sized) : T.dropHead.sized := by
  unfold Tile.dropHead
  split <;> exact hT

theorem Tile.advance_sized (hT : T.sized) : T.advance.sized := by
  unfold Tile.advance
  split
  · exact hT
  · exact Tile.ite_sized (Tile.dropHead_sized hT) (Tile.onHead_sized hT)

theorem Tile.clear_sized {g} : (T.clear g).sized :=
  Tile.reset_sized

theorem State.physWrite_sized {cmp cells} (hs : s.sized) : SomeSized (s.physWrite cmp cells) := by
  unfold State.physWrite
  split
  · exact some_sized hs
  · extract_lets +onlyGivenNames _
    split
    · split
      · exact none_sized
      · exact some_sized (sized_of_eq hs rfl)
    · exact some_sized (sized_of_eq hs rfl)

theorem State.homeWrite_sized {cells} (hs : s.sized) : (s.homeWrite cells).sized :=
  getD_sized (physWrite_sized hs) hs

theorem State.withTrees_sized {ts} (hs : s.sized) : State.sized { s with trees := ts } :=
  hs

theorem State.mirror_sized {d tr} (hs : s.sized) : (s.mirror d tr).sized :=
  withTrees_sized (homeWrite_sized hs)

theorem State.unreserve_sized {buf} (hs : s.sized) : (s.unreserve buf).sized := by
  unfold State.unreserve
  refine foldl_sized (fun _ _ h => ?_) hs
  split
  · split
    · exact mirror_sized h
    · exact h
  · exact h

theorem State.discard_sized {r} (hs : s.sized) : (s.discard r).sized := by
  unfold State.discard
  split
  · exact hs
  · exact unreserve_sized hs

theorem State.enterArgument_sized {r} (hs : s.sized) : (s.enterArgument r).sized := by
  unfold State.enterArgument
  split
  · exact hs
  · exact onTile_sized hs fun _ => Tile.pushIn_sized

theorem State.clearTiles_sized {g} (hs : s.sized) : (s.clearTiles g).sized :=
  foldl_sized (fun _ _ h => onTile_sized h (fun _ _ => Tile.clear_sized)) hs

theorem State.reload_sized {r} (hs : s.sized) : (s.reload r).sized := by
  unfold State.reload
  split
  · exact hs
  · exact foldl_sized (fun _ _ h => onTile_sized h (fun _ h₁ => Tile.ite_sized h₁ h₁)) hs

theorem State.replay_sized {r} (hs : s.sized) : (s.replay r).sized := by
  unfold State.replay
  split
  · exact hs
  · extract_lets +onlyGivenNames _ s₂ _
    have hs₂ : s₂.sized := count_sized (onTask_sized (clearTiles_sized (discard_sized hs)))
    exact ite_sized (enterArgument_sized (onRegion_sized hs₂)) (reload_sized (onRegion_sized hs₂))

theorem State.exhaust_sized {r cause} (hs : s.sized) : (s.exhaust r cause).sized := by
  unfold State.exhaust
  split
  · exact hs
  · exact ite_sized hs hs

theorem State.postWith_sized {qs p c f frz repl event lseq hdl w6} (hs : s.sized) :
    (s.postWith qs p c f frz repl event lseq hdl w6).sized :=
  ite_sized hs (onDie_sized (onCtx_sized hs))

theorem State.post_sized {p c f frz repl event lseq hdl w6} (hs : s.sized) : (s.post p c f frz repl event lseq hdl w6).sized :=
  postWith_sized hs

theorem State.postDie_sized {d c f frz event lseq hdl} (hs : s.sized) : (s.postDie d c f frz event lseq hdl).sized :=
  postWith_sized hs

theorem State.raise_sized {p f} (hs : s.sized) : (s.raise p f).sized := by
  unfold State.raise
  split
  · exact hs
  · refine ite_sized (replay_sized hs) ?_
    extract_lets +onlyGivenNames _ _ _ s₂
    have hs₂ : s₂.sized := ite_sized (count_sized (post_sized hs)) (post_sized hs)
    exact ite_sized hs₂ hs₂

theorem State.raiseFull_sized {p f stores} (hs : s.sized) : (s.raiseFull p f stores).sized := by
  unfold State.raiseFull
  split
  · exact hs
  · exact onRegion_sized (raise_sized hs)

theorem State.trap_sized {f} (hs : s.sized) : (s.trap f).sized :=
  raise_sized hs

theorem State.thawBy_sized {r p} (hs : s.sized) : (s.thawBy r p).sized :=
  onRegion_sized hs

theorem State.thaw_sized {r seq} (hs : s.sized) : (s.thaw r seq).sized :=
  thawBy_sized hs

theorem State.advance_sized (hs : s.sized) : s.advance.sized :=
  onMe_sized hs fun _ => Tile.advance_sized

theorem State.leave_sized (hs : s.sized) : s.leave.sized :=
  onMe_sized hs fun _ => Tile.dropHead_sized

/-! ### Operands and results -/

theorem Tile.writeElems_sized {dst m w signed g} (hT : T.sized) : (T.writeElems dst m w signed g).sized :=
  Tile.ite_sized (Tile.writeX_sized hT) (Tile.writeV_sized hT)

/-! ### Scalar and vector operations -/

theorem State.issue_sized {run srcs} {effect : State → State} (hs : s.sized) (heffect : ∀ s, s.sized → (effect s).sized) :
    (s.issue run srcs effect).sized := by
  unfold State.issue
  refine ite_sized ?_ (advance_sized hs)
  split
  · exact heffect _ hs
  · exact hs
  · exact trap_sized hs

theorem State.alu_sized {f n} {effect : Mask → Tile → Tile} (hs : s.sized) (heffect : ∀ a T, T.sized → (effect a T).sized) :
    (s.alu f n effect).sized :=
  issue_sized hs fun _ h => advance_sized (onMe_sized h (fun _ => heffect _ _))

theorem State.aluI_sized {f src} {effect : Mask → Tile → Tile} (hs : s.sized) (heffect : ∀ a T, T.sized → (effect a T).sized) :
    (s.aluI f src effect).sized :=
  issue_sized hs fun _ h => advance_sized (onMe_sized h (fun _ => heffect _ _))

/-! ### Physical accesses -/

theorem State.touch_sized {p c va pa} (hs : s.sized) : (s.touch p c va pa).sized := by
  unfold State.touch
  exact ite_sized (ite_sized (count_sized (post_sized (onDie_sized hs))) (onDie_sized hs)) (ite_sized hs (ite_sized
    (onDie_sized hs) hs))

theorem State.touchBad_sized {p c va pa} (hs : s.sized) : (s.touchBad p c va pa).sized :=
  count_sized (touch_sized hs)

theorem State.touchHere_sized {p c va pa} (hs : s.sized) : (s.touchHere p c va pa).sized :=
  ite_sized hs (touch_sized hs)

/-! ### Translation -/

theorem State.addLeaf_sized {d i e} (hs : s.sized) : (s.addLeaf d i e).sized := by
  unfold State.addLeaf
  split <;> exact onDie_sized hs

theorem State.xlate_sized {d i c va k} (hs : s.sized) : (s.xlate d i c va k).1.sized := by
  unfold State.xlate
  split
  · exact hs
  · extract_lets +onlyGivenNames _
    split
    · extract_lets +onlyGivenNames s₁
      have hs₁ : s₁.sized := onDie_sized (count_sized (count_sized hs))
      split
      · exact addLeaf_sized hs₁
      · exact hs₁

theorem State.noteCmp_sized {q} (hs : s.sized) : (s.noteCmp q).sized :=
  ite_sized (foldl_sized (fun _ _ h => h) hs) hs

theorem State.page_sized {p i c va w} (hs : s.sized) : (s.page p i c va w).1.sized := by
  unfold State.page
  split
  next e => exact fst_sized e (xlate_sized hs)
  next e =>
    have hs₁ := fst_sized e (xlate_sized hs)
    split
    · exact hs₁
    · exact ite_fst_sized (noteCmp_sized hs₁) hs₁

theorem State.heldRead_sized {buf cmp pa n} (hs : s.sized) : (s.heldRead buf cmp pa n).2.sized :=
  ite_snd_sized hs (ite_snd_sized hs hs)

theorem State.noteRead_sized {r locs} (hs : s.sized) : (s.noteRead r locs).sized :=
  onRegion_sized hs

theorem State.cutTask_sized {h f} (hs : s.sized) : (s.cutTask h f).sized := by
  unfold State.cutTask
  split
  · exact hs
  · refine State.Sizes.sized { hs.sizes with saved := List.forall_mem_map.2 fun x hx => ?_ }
    split
    · exact hs.sizes.saved x hx
    · exact hs.sizes.saved x hx

theorem State.hold_sized {r h} {k : State → State} (hs : s.sized) (hk : ∀ s, s.sized → (k s).sized) : (s.hold r h k).sized := by
  unfold State.hold
  split
  · exact hk _ hs
  · exact ite_sized (exhaust_sized hs) (hk _ (countBy_sized hs))

/-! ### Trees -/

theorem State.openTree_sized {c va d} (hs : s.sized) : (s.openTree c va d).1.sized := by
  unfold State.openTree
  extract_lets tr₁ tr₂ fresh
  have hfresh : fresh.1.sized := ite_fst_sized (mirror_sized hs) (withTrees_sized hs)
  split
  · exact ite_fst_sized hfresh hs
  · exact hfresh

theorem State.applyKeys_sized {d kvs} (hs : s.sized) : (s.applyKeys d kvs).sized := by
  unfold State.applyKeys
  split
  · exact hs
  · exact mirror_sized hs

theorem State.reserve_sized {d k v} (hs : s.sized) : ∀ q ∈ s.reserve d k v, q.2.sized := by
  unfold State.reserve
  split
  · exact nofun
  · extract_lets +onlyGivenNames _ _
    split
    · exact forall_mem_some hs
    · split
      · exact nofun
      · exact forall_mem_some (mirror_sized hs)

/-! ### Commits -/

theorem State.enqueue_sized {h} (hs : s.sized) : (s.enqueue h).sized := by
  unfold State.enqueue
  split
  · exact hs
  · exact onDie_sized hs

theorem State.releaseHeld_sized {r} (hs : s.sized) : (s.releaseHeld r).sized :=
  foldl_sized (fun _ _ => enqueue_sized) hs

theorem State.applyBuffer_sized {g} (hs : s.sized) : (s.applyBuffer g).sized := by
  unfold State.applyBuffer
  extract_lets +onlyGivenNames s₁ _ _
  have hs₁ : s₁.sized := by
    unfold s₁
    refine foldl_sized (fun _ _ h => ?_) hs
    split
    · extract_lets +onlyGivenNames s₄
      have hs₄ : s₄.sized := by
        unfold s₄
        split
        · exact touch_sized h
        · exact h
      exact getD_sized (physWrite_sized hs₄) hs₄
    · exact touch_sized h
    · exact h
    · exact h
  refine foldl_sized (fun _ _ h => ?_) (unreserve_sized (foldl_sized (fun _ _ => applyKeys_sized) hs₁))
  split
  · exact onTile_sized h fun _ h₁ => h₁
  · exact h

theorem State.commit_sized {r final} {k : State → State} (hs : s.sized) (hk : ∀ s, s.sized → (k s).sized) :
    (s.commit r final k).sized := by
  unfold State.commit
  split
  · exact hs
  · refine ite_sized (replay_sized hs) (ite_sized (replay_sized hs) (ite_sized hs ?_))
    split
    · refine raise_sized ?_
      split
      · exact touchBad_sized hs
      · exact touch_sized hs
      · exact hs
    · exact hk _ (count_sized (releaseHeld_sized (ite_sized (onRegion_sized (applyBuffer_sized hs)) (onTask_sized
      (onRegion_sized (applyBuffer_sized hs))))))

theorem State.irrevocably_sized {rel} {k : State → State} (hs : s.sized) (hk : ∀ s, s.sized → (k s).sized) :
    (s.irrevocably rel k).sized := by
  unfold State.irrevocably
  split
  · exact hk _ hs
  · refine ite_sized (replay_sized hs) ?_
    extract_lets +onlyGivenNames k'
    have hk' : ∀ s, s.sized → (k' s).sized := fun _ h => hk _ (onMe_sized (onTask_sized h) (fun _ h₁ => h₁))
    exact ite_sized (ite_sized hs (ite_sized (commit_sized hs hk') (hk' _ hs))) (hk' _ hs)

theorem State.irrevocablyRead_sized {k : State → State} (hs : s.sized) (hk : ∀ s, s.sized → (k s).sized) :
    (s.irrevocablyRead k).sized := by
  unfold State.irrevocablyRead
  split
  · exact hk _ hs
  · exact ite_sized (replay_sized hs) (hk _ (onTask_sized hs))

/-! ### Loads and stores -/

theorem State.finish_sized {t op v} (hs : s.sized) : (s.finish t op v).sized := by
  unfold State.finish
  extract_lets +onlyGivenNames s₁
  have hs₁ : s₁.sized := onTile_sized hs fun _ h => h
  split
  · split
    · exact ite_sized hs₁ hs₁
    · exact hs₁
  · exact hs₁

theorem State.mendBlock_sized {pa} (hs : s.sized) : (s.mendBlock pa).sized :=
  ite_sized hs (getD_sized (physWrite_sized hs) hs)

theorem State.mendSync_sized {pa} (hs : s.sized) : (s.mendSync pa).sized :=
  homeWrite_sized (mendBlock_sized (foldl_sized (fun _ _ => finish_sized) hs))

theorem State.fetch_sized {r q va n} (hs : s.sized) : (s.fetch r q va n).1.sized := by
  unfold State.fetch
  split
  · exact hs
  · extract_lets +onlyGivenNames _ s₁
    have hs₁ : s₁.sized := ite_sized hs (touch_sized hs)
    refine ite_fst_sized (heldRead_sized hs₁) ?_
    refine ite_fst_sized (ite_fst_sized (mendSync_sized hs₁) hs₁) (ite_fst_sized (noteRead_sized hs₁) ?_)
    split <;> exact noteRead_sized hs₁

theorem State.fetchAll_sized {r q va n} (hs : s.sized) : (s.fetchAll r q va n).1.sized := by
  unfold State.fetchAll
  split
  next e => exact fst_sized e (fetch_sized hs)
  next e => exact fst_sized e (fetch_sized hs)
  next e =>
    have hs₁ := fst_sized e (fetch_sized hs)
    split
    · split
      · exact hs₁
      · exact count_sized hs₁
    · exact hs₁

theorem State.loadFrom_sized {f i lanes p} (hs : s.sized) : (s.loadFrom f i lanes p).sized := by
  unfold State.loadFrom
  extract_lets +onlyGivenNames _ _ done _
  have hdone : ∀ s bs, s.sized → (done s bs).sized := fun _ _ h => advance_sized (onMe_sized h (fun _ => Tile.issueOp_sized))
  split
  · exact ite_sized (trap_sized hs) (hdone _ _ hs)
  · split
    · exact hs
    · split
      next e => exact hdone _ _ (fst_sized e (fetch_sized hs))
      next e => exact trap_sized (count_sized (fst_sized e (fetch_sized hs)))
  · split
    · exact hs
    · split
      next e => exact trap_sized (fst_sized e (page_sized hs))
      next e =>
        have hs₁ := fst_sized e (page_sized hs)
        refine ite_sized hs₁ ?_
        split
        · exact trap_sized hs₁
        · split
          next e => exact hdone _ _ (fst_sized e (fetch_sized hs₁))
          next e => exact trap_sized (fst_sized e (fetch_sized hs₁))
          next e =>
            have hs' := fst_sized e (fetch_sized hs₁)
            exact ite_sized hs₁ (advance_sized (onMe_sized hs' (fun _ => Tile.issueOp_sized)))

theorem State.storeTo_sized {p data} {k : State → State} (hs : s.sized) (hk : ∀ s, s.sized → (k s).sized) :
    (s.storeTo p data k).sized := by
  unfold State.storeTo
  extract_lets +onlyGivenNames _ _
  split
  · exact hk _ (onTile_sized hs (fun _ h => h))
  · split
    · exact hs
    · exact hold_sized hs hk
  · split
    · exact hs
    · split
      next e => exact trap_sized (fst_sized e (page_sized hs))
      next e =>
        have hs₁ := fst_sized e (page_sized hs)
        refine ite_sized hs₁ ?_
        split
        · exact trap_sized hs₁
        · exact ite_sized (trap_sized (touchBad_sized hs₁)) (hold_sized hs₁ hk)

theorem memOp_sized {f vector source} {effect : Mask → State → State} (hs : s.sized)
    (heffect : ∀ a s, s.sized → (effect a s).sized) :
    NextSized (memOp s f vector source effect) :=
  issue_sized hs fun _ h => ite_sized h (heffect _ _ h)

theorem afterRelease_sized {f} {k : State → State} (hs : s.sized) (hk : ∀ s, s.sized → (k s).sized) :
    (afterRelease s f k).sized :=
  ite_sized hs (hk _ hs)

theorem placed_sized {space ea n} {k : Place → State → State} (hs : s.sized) (hk : ∀ a s, s.sized → (k a s).sized) :
    (placed s space ea n k).sized := by
  unfold placed
  split
  · exact hk _ _ hs
  · exact trap_sized hs
  · split
    · exact exhaust_sized hs
    · exact hs

theorem execSt_sized {f} (hs : s.sized) : NextSized (execSt f s) :=
  memOp_sized hs (fun _ _ h =>
    afterRelease_sized h (fun _ h₁ => placed_sized h₁ (fun _ _ h₂ => storeTo_sized h₂ (fun _ => advance_sized))))

theorem execStv_sized {f} (hs : s.sized) : NextSized (execStv f s) :=
  memOp_sized hs (fun _ _ h =>
    afterRelease_sized h (fun _ h₁ => placed_sized h₁ (fun _ _ h₂ => storeTo_sized h₂ (fun _ => advance_sized))))

theorem State.wake_sized {d} (hs : s.sized) : (s.wake d).sized := by
  unfold State.wake
  refine ite_sized hs ?_
  split
  · exact onTile_sized hs fun _ h => h
  · exact ite_sized hs (raise_sized (count_sized hs))

theorem State.wakeDeferred_sized (hs : s.sized) : s.wakeDeferred.sized :=
  foldl_sized (fun _ _ => wake_sized) hs

theorem State.reissuePld_sized {d} (hs : s.sized) : (s.reissuePld d).sized := by
  unfold State.reissuePld
  split
  next e => exact raise_sized (fst_sized e (page_sized hs))
  next e =>
    have hs₁ := fst_sized e (page_sized hs)
    extract_lets +onlyGivenNames _
    split
    · exact raise_sized hs₁
    · exact ite_sized (onTile_sized (touch_sized hs₁) (fun _ h => h)) (wake_sized (touch_sized hs₁))

theorem State.reissuePlds_sized {g} (hs : s.sized) : (s.reissuePlds g).sized := by
  unfold State.reissuePlds
  refine foldl_sized (fun _ _ h => ?_) hs
  split
  · exact reissuePld_sized h
  · exact ite_sized (wake_sized (touch_sized h)) h

theorem execPld_sized {f} (hs : s.sized) : NextSized (execPld f s) := by
  unfold execPld
  refine memOp_sized hs fun _ _ h => ?_
  refine placed_sized h fun _ _ h₁ => ?_
  split
  · split
    next e => exact trap_sized (fst_sized e (page_sized h₁))
    next e =>
      have hs₁ := fst_sized e (page_sized h₁)
      split
      · exact trap_sized hs₁
      · extract_lets +onlyGivenNames _ _ issued _
        have hissued : ∀ s, s.sized → (issued s).sized := fun _ h₂ => advance_sized (onMe_sized h₂ (fun _ => Tile.issueOp_sized))
        refine ite_sized (onMe_sized (hissued _ (touch_sized hs₁)) (fun _ h₂ => h₂)) ?_
        refine ite_sized (count_sized (hissued _ (touch_sized hs₁))) ?_
        split
        · exact onMe_sized (hissued _ (touch_sized hs₁)) fun _ h₂ => h₂
        · exact trap_sized (count_sized (touch_sized hs₁))
  · exact h₁

theorem execPst_sized {f} (hs : s.sized) : NextSized (execPst f s) := by
  unfold execPst
  refine memOp_sized hs fun _ _ h => ?_
  refine placed_sized h fun _ _ h₁ => ?_
  split
  · refine ite_sized (advance_sized h₁) ?_
    split
    next e => exact trap_sized (fst_sized e (page_sized h₁))
    next e =>
      have hs₁ := fst_sized e (page_sized h₁)
      split
      · exact trap_sized hs₁
      · extract_lets +onlyGivenNames _ _ attempt perform
        have hattempt : ∀ s k, s.sized → (∀ s, s.sized → (k s).sized) → (attempt s k).sized := by
          unfold attempt
          intro _ _ h₂ hk
          extract_lets +onlyGivenNames _
          split
          · exact trap_sized (touch_sized h₂)
          · exact ite_sized (trap_sized (touchBad_sized h₂)) (hk _ h₂)
        have hperform : ∀ s, s.sized → (perform s).sized := fun _ h₂ =>
          advance_sized (wakeDeferred_sized (getD_sized (physWrite_sized (touch_sized h₂)) (touch_sized h₂)))
        exact ite_sized
          (irrevocably_sized hs₁ (fun _ h₂ => ite_sized (trap_sized (touch_sized h₂)) (advance_sized (touch_sized h₂))))
          (ite_sized
            (irrevocably_sized hs₁ (fun _ h₂ => hattempt _ _ h₂ hperform))
            (hattempt _ _ hs₁ (fun _ h₂ => irrevocably_sized h₂ hperform)))
  · exact h₁

theorem State.pieces_sized {p c w n va fin'} (hs : s.sized) : (s.pieces p c w n va fin').1.sized := by
  induction n generalizing s va with
  | zero => exact hs
  | succ n ih =>
    unfold State.pieces
    refine ite_fst_sized hs ?_
    split
    next e => exact fst_sized e (page_sized hs)
    next e =>
      have hs₁ := fst_sized e (page_sized hs)
      extract_lets next
      split
      next e => exact fst_sized e (ih hs₁)
      next e => exact fst_sized e (ih hs₁)

theorem execPclear_sized {f} (hs : s.sized) : NextSized (execPclear f s) := by
  unfold execPclear
  refine memOp_sized hs fun _ _ h => ?_
  refine ite_sized (trap_sized h) (ite_sized (advance_sized h) ?_)
  split
  next e => exact trap_sized (fst_sized e (pieces_sized h))
  next e =>
    have hs₁ := fst_sized e (pieces_sized h)
    split
    · exact trap_sized hs₁
    · exact irrevocably_sized hs₁ fun _ h₁ => advance_sized (foldl_sized (fun _ _ => touch_sized) h₁)

theorem execPfetch_sized {f} (hs : s.sized) : NextSized (execPfetch f s) := by
  unfold execPfetch
  refine memOp_sized hs fun _ _ h => ?_
  extract_lets +onlyGivenNames _ s₁
  have hs₁ : s₁.sized := by
    unfold s₁
    split
    · split
      next e =>
        have hs₂ := fst_sized e (xlate_sized h)
        exact ite_sized (touch_sized hs₂) hs₂
      next e => exact fst_sized e (xlate_sized h)
    · exact h
  exact advance_sized hs₁

theorem execFence_sized {f} (hs : s.sized) : NextSized (execFence f s) :=
  issue_sized hs fun _ h => ite_sized h (advance_sized (ite_sized (onMe_sized h (fun _ h₁ => h₁)) h))

theorem execTfence_sized {f} (hs : s.sized) : NextSized (execTfence f s) := by
  unfold execTfence
  refine memOp_sized hs fun _ _ h => ?_
  refine ite_sized (trap_sized h) ?_
  split
  · exact h
  · exact ite_sized (advance_sized h) h

/-! ### Sparse accesses -/

theorem State.reserveAll_sized {d kvs ns} (hs : s.sized) : (s.reserveAll d kvs ns).1.sized := by
  induction kvs generalizing s ns with
  | nil => exact hs
  | cons kv kvs ih =>
    unfold State.reserveAll
    split
    next e => exact ih (reserve_sized hs _ e)
    next => exact hs

theorem State.holdKeys_sized {r p va d kvs} {k : State → State} (hs : s.sized) (hk : ∀ s, s.sized → (k s).sized) :
    (s.holdKeys r p va d kvs k).sized := by
  unfold State.holdKeys
  split
  · exact hs
  · refine ite_sized (exhaust_sized hs) ?_
    split
    · exact raiseFull_sized hs
    next e =>
      have hs' := fst_sized e (ite_fst_sized hs (reserveAll_sized hs))
      exact hk _ (countBy_sized (onRegion_sized hs'))

theorem State.openFound_sized {c va q} (hs : s.sized) : (s.openFound c va q).1.sized :=
  ite_fst_sized hs (ite_fst_sized hs (openTree_sized hs))

theorem State.openAt_sized {p c va write} (hs : s.sized) : (s.openAt p c va write).1.sized := by
  unfold State.openAt
  split
  next e => exact fst_sized e (page_sized hs)
  next e =>
    have hs₁ := fst_sized e (page_sized hs)
    exact ite_fst_sized hs₁ (openFound_sized hs₁)

theorem State.openKeys_sized {va write} (hs : s.sized) : (s.openKeys va write).1.sized := by
  unfold State.openKeys
  split
  next e => exact fst_sized e (page_sized hs)
  next e =>
    have hs₁ := fst_sized e (page_sized hs)
    refine ite_fst_sized ?_ (openFound_sized hs₁)
    split <;> exact hs₁

theorem keyOp_sized {f write} {effect : Mask → ℕ → ℕ → List (ℕ × ℕ) → State → State} (hs : s.sized)
    (heffect : ∀ a b c d s, s.sized → (effect a b c d s).sized) :
    NextSized (keyOp s f write effect) := by
  unfold keyOp
  refine issue_sized hs fun _ h => ?_
  refine ite_sized h ?_
  extract_lets +onlyGivenNames _ _
  split
  next e => exact trap_sized (fst_sized e (openKeys_sized h))
  next e =>
    have hs₁ := fst_sized e (openKeys_sized h)
    exact ite_sized (heffect _ _ _ _ _ hs₁) (ite_sized (trap_sized hs₁) (ite_sized (trap_sized hs₁) (ite_sized (trap_sized
      (touch_sized hs₁)) (heffect _ _ _ _ _ hs₁))))

theorem State.keyRead_sized {g d ks n} (hs : s.sized) : (s.keyRead g d ks n).1.sized :=
  ite_fst_sized hs hs

theorem execSld_sized {f} (hs : s.sized) : NextSized (execSld f s) := by
  unfold execSld
  refine keyOp_sized hs fun _ _ _ _ _ h => ?_
  split
  · exact h
  · exact advance_sized (onMe_sized
      (keyRead_sized (touch_sized (ite_sized h (noteRead_sized h))))
      (fun _ h₁ => Tile.ite_sized (Tile.writeV_sized h₁) (Tile.writeX_sized h₁)))

theorem execSst_sized {f} (hs : s.sized) : NextSized (execSst f s) := by
  unfold execSst
  refine keyOp_sized hs fun _ _ _ _ _ h => ?_
  refine afterRelease_sized h fun _ h₁ => ?_
  split
  · exact h₁
  · exact holdKeys_sized h₁ fun _ => advance_sized

/-! ### The synchronisation queues -/

theorem State.setEngine_sized {d e c E} (hs : s.sized) : (s.setEngine d e c E).sized :=
  onDie_sized hs

theorem State.onRegionOf_sized {t f} (hs : s.sized) : (s.onRegionOf t f).sized := by
  unfold State.onRegionOf
  split <;> exact hs

theorem State.markOlder_sized (hs : s.sized) : s.markOlder.sized :=
  onRegionOf_sized hs

theorem State.wakeChain_sized {c desc va} (hs : s.sized) : (s.wakeChain c desc va).sized :=
  setEngine_sized hs

theorem State.wakeArmed_sized {pa} (hs : s.sized) : (s.wakeArmed pa).sized :=
  foldl_sized (fun _ _ => finish_sized) hs

theorem State.syncWrite_sized {pa width v} (hs : s.sized) : (s.syncWrite pa width v).sized :=
  wakeArmed_sized (homeWrite_sized hs)

theorem State.request_sized {e} (hs : s.sized) : (s.request e).sized :=
  hs

theorem State.takeHead_sized {v p} (hs : s.sized) : ∀ q ∈ s.takeHead v p, q.2.sized := by
  unfold State.takeHead
  split
  · exact forall_mem_some hs
  · rintro _ ⟨⟩

theorem State.evaluate_sized {e} (hs : s.sized) : (s.evaluate e).sized := by
  unfold State.evaluate
  split
  · exact ite_sized (finish_sized hs) (ite_sized (finish_sized hs) (ite_sized (finish_sized hs) (ite_sized hs hs)))
  · exact hs

theorem State.reissueWait_sized {a} (hs : s.sized) : (s.reissueWait a).sized := by
  unfold State.reissueWait
  extract_lets +onlyGivenNames _ _
  split
  next e => exact ite_sized (finish_sized hs) (raise_sized (fst_sized e (page_sized hs)))
  next e =>
    have hs₁ := fst_sized e (page_sized hs)
    refine ite_sized hs₁ ?_
    split
    · exact raise_sized hs₁
    · exact ite_sized (finish_sized (touch_sized hs₁)) (ite_sized
        (mendSync_sized (finish_sized (touch_sized hs₁)))
        (evaluate_sized (touch_sized hs₁)))

theorem State.refuse_sized {x f} (hs : s.sized) : (s.refuse x f).sized := by
  unfold State.refuse
  split
  · exact ite_sized hs (raise_sized hs)
  · exact hs

theorem State.issuerBad_sized {e f} (hs : s.sized) : (s.issuerBad e f).sized := by
  unfold State.issuerBad
  split
  · exact finish_sized hs
  · exact foldl_sized (fun _ _ => refuse_sized) hs

theorem State.writeEntry_sized {cmp cells} (hs : s.sized) : (s.writeEntry cmp cells).sized :=
  getD_sized (physWrite_sized hs) hs

theorem State.enterEntry_sized {cmp entryPa n cells} (hs : s.sized) : (s.enterEntry cmp entryPa n cells).sized :=
  writeEntry_sized (writeEntry_sized hs)

theorem State.tailPlace_sized {p c tail} (hs : s.sized) : (s.tailPlace p c tail).1.sized := by
  unfold State.tailPlace
  refine ite_fst_sized hs ?_
  split
  next e => exact fst_sized e (page_sized hs)
  next e =>
    have hs₁ := fst_sized e (page_sized hs)
    split
    · exact hs₁
    · exact ite_fst_sized (touchBad_sized hs₁) hs₁

theorem State.tailFault_sized {p c tail} (hs : s.sized) : (s.tailFault p c tail).1.sized := by
  unfold State.tailFault
  split
  next e => exact fst_sized e (tailPlace_sized hs)
  next e => exact fst_sized e (tailPlace_sized hs)

theorem State.appendEntry_sized {desc entryVa entryPa cmp cells link} (hs : s.sized) :
    (s.appendEntry desc entryVa entryPa cmp cells link).2.sized := by
  unfold State.appendEntry
  extract_lets +onlyGivenNames _ _ s₂
  have hs₂ : s₂.sized := by
    unfold s₂
    split
    · exact writeEntry_sized (enterEntry_sized hs)
    · exact syncWrite_sized (enterEntry_sized hs)
  exact syncWrite_sized (syncWrite_sized hs₂)

theorem State.takeEntry_sized {e pa cells} (hs : s.sized) : (s.takeEntry e pa cells).2.sized := by
  unfold State.takeEntry
  split
  · exact hs
  · exact ite_snd_sized hs hs

theorem State.entryCells_sized {e cmd pa cells} (hs : s.sized) : (s.entryCells e cmd pa cells).2.sized :=
  takeEntry_sized hs

theorem State.enterNode_sized {level scope e} (hs : s.sized) : (s.enterNode level scope e).sized := by
  unfold State.enterNode
  extract_lets +onlyGivenNames _ _
  split
  · exact ite_sized hs hs
  · exact hs

theorem State.remoteAnswer_sized {e} (hs : s.sized) : (s.remoteAnswer e).sized := by
  unfold State.remoteAnswer
  split
  · exact foldl_sized (fun _ _ h => finish_sized h) hs
  · exact foldl_sized (fun _ _ => finish_sized) hs
  · exact finish_sized hs
  · exact finish_sized hs
  next cmd _ _ _ _ _ => exact finish_sized (enterEntry_sized (entryCells_sized (cmd := cmd) hs))

theorem State.stranded_sized {e} (hs : s.sized) : (s.stranded e).sized := by
  unfold State.stranded
  refine foldl_sized (fun _ _ h => ?_) hs
  split
  · exact h
  · exact finish_sized h
  · exact refuse_sized h

theorem State.sendHome_sized {e} (hs : s.sized) : SomeSized (s.sendHome e) := by
  unfold State.sendHome
  split
  · exact some_sized (stranded_sized hs)
  · split
    · exact some_sized (remoteAnswer_sized hs)
    · split
      · exact some_sized hs
      · exact none_sized

theorem State.forward_sized {i k top} (hs : s.sized) : (s.forward i k top).sized :=
  ite_sized (enterNode_sized hs) (getD_sized (sendHome_sized hs) hs)

theorem State.askAgain_sized {e} (hs : s.sized) : (s.askAgain e).1.sized := by
  unfold State.askAgain
  extract_lets +onlyGivenNames _
  split
  next e => exact fst_sized e (page_sized hs)
  next e =>
    have hs₁ := fst_sized e (page_sized hs)
    split
    · exact hs₁
    · split
      next e => exact fst_sized e (page_sized hs₁)
      next e => exact fst_sized e (page_sized hs₁)
    · exact hs₁

theorem State.reissueAsk_sized {e} (hs : s.sized) : (s.reissueAsk e).sized := by
  unfold State.reissueAsk
  split
  next e => exact raise_sized (fst_sized e (askAgain_sized hs))
  next e =>
    have hs₁ := fst_sized e (askAgain_sized hs)
    exact ite_sized (enterNode_sized (touchHere_sized hs₁)) (ite_sized hs₁ (ite_sized (remoteAnswer_sized (touch_sized hs₁))
      (touch_sized hs₁)))

theorem State.retryAll_sized (hs : s.sized) : s.retryAll.sized := by
  unfold State.retryAll
  refine foldl_sized (fun _ _ h => ?_) hs
  split
  · exact ite_sized h (reissueAsk_sized h)
  · exact h

theorem State.reissueAll_sized {r} (hs : s.sized) : (s.reissueAll r).sized := by
  unfold State.reissueAll
  split
  · exact hs
  · exact ite_sized hs (foldl_sized (fun _ _ => reissueAsk_sized) (foldl_sized (fun _ _ => reissueWait_sized)
    (reissuePlds_sized hs)))

theorem execHsqAtomApply_sized {v} (hs : s.sized) : NextSized (execHsqAtomApply v s) := by
  unfold execHsqAtomApply
  split
  · exact hs
  next e =>
    have hs₁ := takeHead_sized hs _ e
    refine ite_sized (mendSync_sized (issuerBad_sized hs₁)) ?_
    split
    · extract_lets +onlyGivenNames _ s₂
      have hs₂ : s₂.sized := by
        unfold s₂
        split
        · exact finish_sized hs₁
        · exact hs₁
      exact syncWrite_sized hs₂
    · exact syncWrite_sized (foldl_sized (fun _ _ => finish_sized) hs₁)
    · split
      · exact foldl_sized (fun _ _ => mendSync_sized) (issuerBad_sized hs₁)
      · refine ite_sized (issuerBad_sized (count_sized hs₁)) ?_
        split
        next e => exact issuerBad_sized (fst_sized e (tailPlace_sized hs₁))
        next e =>
          have hs₂ := fst_sized e (tailPlace_sized hs₁)
          extract_lets +onlyGivenNames s₃
          have hs₃ : s₃.sized := by
            unfold s₃
            split
            · exact touch_sized hs₂
            · exact hs₂
          split
          rename_i _ s₄ e
          have hs₄ := snd_sized e (entryCells_sized hs₃)
          split
          rename_i _ s₅ e
          have hs₅ := snd_sized e (appendEntry_sized hs₄)
          extract_lets +onlyGivenNames s₆ _
          have hs₆ : s₆.sized := ite_sized (onRegionOf_sized hs₅) hs₅
          split
          · exact finish_sized (wakeChain_sized hs₆)
          · exact wakeChain_sized hs₆
    · exact hs₁

theorem execHsqBarrierArrival_sized {v} (hs : s.sized) : NextSized (execHsqBarrierArrival v s) := by
  unfold execHsqBarrierArrival
  split
  · exact hs
  next e =>
    have hs₁ := takeHead_sized hs _ e
    refine ite_sized (mendSync_sized (issuerBad_sized hs₁)) ?_
    split
    · refine foldl_sized (fun _ _ h => ?_) (syncWrite_sized hs₁)
      split
      · exact finish_sized h
      · exact evaluate_sized h
    · exact hs₁

theorem execWaitDequeue_sized {v c} (hs : s.sized) : NextSized (execWaitDequeue v c s) := by
  unfold execWaitDequeue
  extract_lets +onlyGivenNames _ s₁
  have hs₁ : s₁.sized := by
    unfold s₁
    refine foldl_sized (fun _ _ h => ?_) hs
    split
    · exact finish_sized h
    · exact h
  split
  · exact hs₁
  next e =>
    have hs₂ := takeHead_sized hs₁ _ e
    exact ite_sized (mendSync_sized (issuerBad_sized hs₂)) (evaluate_sized hs₂)

theorem State.expireWaits_sized (hs : s.sized) : s.expireWaits.sized :=
  foldl_sized (fun _ _ => finish_sized) hs

theorem execWaitTimeout_sized {k} (hs : s.sized) : NextSized (execWaitTimeout k s) := by
  unfold execWaitTimeout
  split
  · exact ite_sized (finish_sized hs) hs
  · exact hs

theorem execCombiningArrival_sized {k} (hs : s.sized) : NextSized (execCombiningArrival k s) := by
  unfold execCombiningArrival
  split
  · split
    · exact ite_sized (forward_sized hs) hs
    · exact hs
  · exact hs

theorem execTreeHoldExpiry_sized {k} (hs : s.sized) : NextSized (execTreeHoldExpiry k s) := by
  unfold execTreeHoldExpiry
  split
  · split
    · exact ite_sized (forward_sized hs) hs
    · exact hs
  · exact hs

theorem State.sendUp_sized {e} (hs : s.sized) : (s.sendUp e).sized := by
  unfold State.sendUp
  split <;> exact hs

theorem execPodBarrierRelease_sized {k} (hs : s.sized) : NextSized (execPodBarrierRelease k s) := by
  unfold execPodBarrierRelease
  split
  · refine ite_sized ?_ hs
    refine ite_sized (getD_sized (sendHome_sized hs) hs) ?_
    refine ite_sized (stranded_sized hs) (ite_sized (getD_sized (sendHome_sized hs) hs) ?_)
    split
    · exact sendUp_sized hs
    · exact ite_sized (stranded_sized (sendUp_sized hs)) (ite_sized (remoteAnswer_sized (sendUp_sized hs)) (getD_sized
      (sendHome_sized (sendUp_sized hs)) hs))
  · exact hs

/-! ### Runs of bytes -/

theorem State.spans_sized {p c w bound k va n} (hs : s.sized) : (s.spans p c w bound k va n).1.sized := by
  induction k generalizing s va n with
  | zero => exact hs
  | succ k ih =>
    unfold State.spans
    refine ite_fst_sized hs ?_
    extract_lets _
    split
    next e => exact fst_sized e (page_sized hs)
    next e =>
      have hs₁ := fst_sized e (page_sized hs)
      refine ite_fst_sized hs₁ ?_
      split
      · exact hs₁
      · split
        next e => exact fst_sized e (ih hs₁)
        next e => exact fst_sized e (ih hs₁)

theorem State.readSpans_sized {p c buf sps} (hs : s.sized) : (s.readSpans p c buf sps).1.sized := by
  induction sps generalizing s with
  | nil => exact hs
  | cons sp rest ih =>
    unfold State.readSpans
    split
    next e => exact count_sized (snd_sized e (heldRead_sized (ite_sized hs (touch_sized hs))))
    next e =>
      have hs₁ := snd_sized e (heldRead_sized (ite_sized hs (touch_sized hs)))
      split
      next e => exact fst_sized e (ih hs₁)
      next e => exact fst_sized e (ih hs₁)

theorem State.readRun_sized {p c buf va n} (hs : s.sized) : (s.readRun p c buf va n).1.sized := by
  unfold State.readRun
  split
  next e => exact fst_sized e (spans_sized hs)
  next e => exact readSpans_sized (fst_sized e (spans_sized hs))

theorem State.writePieces_sized {p c h sps bs} (hs : s.sized) : (s.writePieces p c h sps bs).sized := by
  induction sps generalizing s bs with
  | nil => exact hs
  | cons sp rest ih =>
    have hs₁ := touch_sized (p := p) (c := c) (va := sp.va) (pa := sp.pa) (cutTask_sized (h := h) (f := cutStore sp.pa
      (sp.pa + sp.len)) hs)
    exact ih (ite_sized hs₁ (getD_sized (physWrite_sized hs₁) hs₁))

theorem State.writeSpans_sized {p c h sp bs} (hs : s.sized) : (s.writeSpans p c h sp bs).1.sized := by
  unfold State.writeSpans
  split
  · exact touchBad_sized hs
  · exact writePieces_sized hs

theorem State.writeRun_sized {p c h va bs} (hs : s.sized) : (s.writeRun p c h va bs).1.sized := by
  unfold State.writeRun
  split
  next e => exact fst_sized e (spans_sized hs)
  next e => exact writeSpans_sized (fst_sized e (spans_sized hs))

theorem State.taskRun_sized {r p w va n bound} (hs : s.sized) : (s.taskRun r p w va n bound).1.sized := by
  unfold State.taskRun
  split
  · exact hs
  · split
    next e => exact fst_sized e (spans_sized hs)
    next e =>
      have hs₁ := fst_sized e (spans_sized hs)
      split
      next e => exact fst_sized e (readSpans_sized hs₁)
      next e =>
        have hs₂ := fst_sized e (readSpans_sized hs₁)
        exact ite_sized hs₂ (noteRead_sized hs₂)

theorem State.storesOf_sized {c p w va bs bound} (hs : s.sized) : (s.storesOf c p w va bs bound).1.sized := by
  unfold State.storesOf
  split
  next e => exact fst_sized e (spans_sized hs)
  next e =>
    have hs₁ := fst_sized e (spans_sized hs)
    split
    · exact touchBad_sized hs₁
    · exact hs₁

theorem State.holdAll_sized {r hs'} {k : State → State} (hs : s.sized) (hk : ∀ s, s.sized → (k s).sized) :
    (s.holdAll r hs' k).sized := by
  unfold State.holdAll
  split
  · exact hs
  · exact ite_sized (exhaust_sized hs) (hk _ (countBy_sized (onRegion_sized hs)))

theorem State.taskStores_sized {r p w bound runs} {k : State → State} (hs : s.sized) (hk : ∀ s, s.sized → (k s).sized) :
    (s.taskStores r p w bound runs k).sized := by
  unfold State.taskStores
  extract_lets +onlyGivenNames res
  have hres : res.1.sized := by
    refine foldl_fst_sized (fun _ _ h => ?_) hs
    split
    · exact h
    · split
      next e => exact fst_sized e (storesOf_sized h)
      next e => exact fst_sized e (storesOf_sized h)
  clear_value res
  split
  · exact raise_sized hres
  · exact holdAll_sized hres hk

/-! ### Launch records and images -/

theorem State.imageBlock_sized {c va m q} (hs : s.sized) : (s.imageBlock c va m q).1.sized := by
  unfold State.imageBlock
  refine ite_fst_sized hs (ite_fst_sized hs ?_)
  split
  · exact hs
  · refine ite_fst_sized hs ?_
    split
    · exact count_sized hs
    · exact hs

theorem State.imageBytes_sized {c k va n} (hs : s.sized) : (s.imageBytes c k va n).1.sized := by
  induction k generalizing s va n with
  | zero => exact hs
  | succ k ih =>
    unfold State.imageBytes
    refine ite_fst_sized hs ?_
    extract_lets _
    split
    · exact hs
    · split
      next e => exact fst_sized e (imageBlock_sized hs)
      next e =>
        have hs₁ := fst_sized e (imageBlock_sized hs)
        split
        next e => exact fst_sized e (ih hs₁)
        next e => exact fst_sized e (ih hs₁)

theorem State.header?_sized {c img} (hs : s.sized) : (s.header? c img).1.sized := by
  unfold State.header?
  refine ite_fst_sized hs ?_
  split
  next e => exact fst_sized e (imageBytes_sized hs)
  next e => exact fst_sized e (imageBytes_sized hs)

theorem State.setRecField_sized {c idx k lo n v} (hs : s.sized) : (s.setRecField c idx k lo n v).sized :=
  ite_sized hs (ite_sized hs hs)

theorem State.runRecord_sized {l} (hs : s.sized) : (s.runRecord l).sized :=
  setRecField_sized (setRecField_sized hs)

theorem State.startRecord_sized {l} (hs : s.sized) : (s.startRecord l).sized :=
  ite_sized (runRecord_sized (setRecField_sized hs)) (setRecField_sized (setRecField_sized hs))

theorem State.armRecord_sized {c idx new} (hs : s.sized) : (s.armRecord c idx new).2.sized := by
  unfold State.armRecord
  exact ite_snd_sized (setRecField_sized (header?_sized hs)) (ite_sized
    (setRecField_sized (onCtx_sized (setRecField_sized (header?_sized hs))))
    (startRecord_sized (onCtx_sized (setRecField_sized (header?_sized hs)))))

/-! ### Synchronisation instructions -/

theorem syncOp_sized {f n} {effect : State → State} (hs : s.sized) (heffect : ∀ s, s.sized → (effect s).sized) :
    NextSized (syncOp s f n effect) :=
  issue_sized hs fun _ h => ite_sized h (heffect _ h)

theorem State.issueY_sized {kind f value acq i} (hs : s.sized) : (s.issueY kind f value acq i).sized :=
  advance_sized (onMe_sized hs (fun _ => Tile.issueOp_sized))

theorem State.syncWord_sized {ea n write} (hs : s.sized) : (s.syncWord ea n write).1.sized := by
  unfold State.syncWord
  refine ite_fst_sized hs ?_
  split
  next e => exact fst_sized e (page_sized hs)
  next e => exact fst_sized e (page_sized hs)

theorem State.armLost_sized {pa p va due op} (hs : s.sized) : (s.armLost pa p va due op).sized := by
  unfold State.armLost
  split
  · exact finish_sized hs
  · exact hs

theorem execAtom_sized {f} (hs : s.sized) : NextSized (execAtom f s) := by
  unfold execAtom
  refine syncOp_sized hs fun _ h => ?_
  extract_lets +onlyGivenNames _ _ _
  split
  next e => exact trap_sized (fst_sized e (syncWord_sized h))
  next e => exact trap_sized (fst_sized e (syncWord_sized h))
  next e => exact trap_sized (fst_sized e (syncWord_sized h))
  next e =>
    have hs₁ := fst_sized e (syncWord_sized h)
    exact ite_sized hs₁ (irrevocably_sized hs₁ (fun _ h₁ =>
      ite_sized (finish_sized (draw_sized (issueY_sized (touch_sized h₁)))) (request_sized (issueY_sized (touch_sized h₁)))))

theorem execAtomTree_sized {f} (hs : s.sized) : NextSized (execAtomTree f s) := by
  unfold execAtomTree
  refine syncOp_sized hs fun _ h => ?_
  extract_lets +onlyGivenNames _ _
  split
  next e => exact trap_sized (fst_sized e (syncWord_sized h))
  next e => exact trap_sized (fst_sized e (syncWord_sized h))
  next e => exact trap_sized (fst_sized e (syncWord_sized h))
  next e =>
    have hs₁ := fst_sized e (syncWord_sized h)
    exact ite_sized hs₁ (irrevocably_sized hs₁ (fun _ h₁ => enterNode_sized (issueY_sized (touchHere_sized h₁))))

theorem execWait_sized {f} (hs : s.sized) : NextSized (execWait f s) := by
  unfold execWait
  refine syncOp_sized hs fun _ h => ?_
  extract_lets +onlyGivenNames _ _
  split
  next e => exact irrevocablyRead_sized (fst_sized e (syncWord_sized h)) fun _ => issueY_sized
  next e => exact trap_sized (fst_sized e (syncWord_sized h))
  next e => exact irrevocablyRead_sized (fst_sized e (syncWord_sized h)) fun _ h₁ => armLost_sized (issueY_sized h₁)
  next e =>
    have hs₁ := fst_sized e (syncWord_sized h)
    exact ite_sized hs₁ (irrevocablyRead_sized hs₁ (fun _ h₁ =>
      ite_sized (finish_sized (draw_sized (issueY_sized (touch_sized h₁)))) (request_sized (issueY_sized (touch_sized h₁)))))

theorem arriveAt_sized {f pa due i} (hs : s.sized) : (arriveAt s f pa due i).sized :=
  ite_sized hs (irrevocably_sized hs (fun _ h => enterNode_sized (issueY_sized (touchHere_sized h))))

theorem execHbarArrive_sized {f} (hs : s.sized) : NextSized (execHbarArrive f s) := by
  unfold execHbarArrive
  refine syncOp_sized hs fun _ h => ?_
  extract_lets +onlyGivenNames _
  split
  next e => exact trap_sized (fst_sized e (syncWord_sized h))
  next e => exact trap_sized (fst_sized e (syncWord_sized h))
  next e => exact trap_sized (fst_sized e (syncWord_sized h))
  next e =>
    have hs₁ := fst_sized e (syncWord_sized h)
    exact ite_sized (arriveAt_sized hs₁) (trap_sized hs₁)

theorem execHbarWait_sized {f} (hs : s.sized) : NextSized (execHbarWait f s) := by
  unfold execHbarWait
  refine syncOp_sized hs fun _ h => ?_
  extract_lets +onlyGivenNames _
  split
  next e => exact irrevocablyRead_sized (fst_sized e (syncWord_sized h)) fun _ => issueY_sized
  next e => exact trap_sized (fst_sized e (syncWord_sized h))
  next e => exact irrevocablyRead_sized (fst_sized e (syncWord_sized h)) fun _ h₁ => armLost_sized (issueY_sized h₁)
  next e =>
    have hs₁ := fst_sized e (syncWord_sized h)
    exact ite_sized hs₁ (irrevocablyRead_sized hs₁ (fun _ h₁ =>
      ite_sized (finish_sized (draw_sized (issueY_sized (touch_sized h₁)))) (request_sized (issueY_sized (touch_sized h₁)))))

theorem execHbarAw_sized {f} (hs : s.sized) : NextSized (execHbarAw f s) := by
  unfold execHbarAw
  refine syncOp_sized hs fun _ h => ?_
  extract_lets +onlyGivenNames bad
  have hbad : ∀ s, s.sized → (bad s).sized := fun _ h₁ => irrevocablyRead_sized h₁ fun _ => issueY_sized
  split
  next e => exact hbad _ (fst_sized e (syncWord_sized h))
  next e => exact trap_sized (fst_sized e (syncWord_sized h))
  next e =>
    have hs₁ := fst_sized e (syncWord_sized h)
    exact ite_sized (irrevocably_sized hs₁ (fun _ h₁ => armLost_sized (issueY_sized h₁))) (hbad _ hs₁)
  next e =>
    have hs₁ := fst_sized e (syncWord_sized h)
    exact ite_sized (arriveAt_sized hs₁) (hbad _ hs₁)

theorem execBsync_sized {f} (hs : s.sized) : NextSized (execBsync f s) := by
  unfold execBsync
  refine syncOp_sized hs fun _ h => ?_
  split
  · exact h
  · refine ite_sized (trap_sized h) ?_
    split
    next e => exact irrevocablyRead_sized (fst_sized e (syncWord_sized h)) fun _ => issueY_sized
    next e => exact trap_sized (fst_sized e (syncWord_sized h))
    next e =>
      have hs₁ := fst_sized e (syncWord_sized h)
      exact irrevocablyRead_sized hs₁ fun _ h₁ => ite_sized (onRegion_sized (issueY_sized h₁)) (issueY_sized h₁)
    next e =>
      have hs₁ := fst_sized e (syncWord_sized h)
      exact irrevocablyRead_sized hs₁ fun _ h₁ => ite_sized (onRegion_sized (issueY_sized h₁)) (issueY_sized h₁)

theorem execBsyncProceed_sized {r} (hs : s.sized) : NextSized (execBsyncProceed r s) := by
  unfold execBsyncProceed
  split
  · exact hs
  · split
    · exact hs
    · refine ite_sized hs ?_
      extract_lets +onlyGivenNames _
      split
      next e => exact raise_sized (fst_sized e (page_sized hs))
      next e =>
        have hs₁ := fst_sized e (page_sized hs)
        refine commit_sized hs₁ fun _ h => ?_
        extract_lets +onlyGivenNames _ s₂
        have hs₂ : s₂.sized := onRegion_sized (touchHere_sized h)
        exact ite_sized (stranded_sized hs₂) (enterNode_sized hs₂)

theorem execBsyncDeadline_sized {r} (hs : s.sized) : NextSized (execBsyncDeadline r s) := by
  unfold execBsyncDeadline
  split
  · exact hs
  · split
    · exact hs
    · exact ite_sized (finish_sized hs) hs

theorem State.result_sized {r v} (hs : s.sized) : (s.result r v).sized :=
  advance_sized (onMe_sized hs (fun _ => Tile.writeX_sized))

theorem execCntrEv_sized {f} (hs : s.sized) : NextSized (execCntrEv f s) :=
  issue_sized hs fun _ h => result_sized h

theorem execCntrTask_sized {f} (hs : s.sized) : NextSized (execCntrTask f s) := by
  unfold execCntrTask
  refine issue_sized hs fun _ h => ?_
  split <;> exact result_sized h

theorem execTimeLeft_sized {f} (hs : s.sized) : NextSized (execTimeLeft f s) := by
  unfold execTimeLeft
  refine issue_sized hs fun _ h => ?_
  split <;> exact result_sized h

/-! ### Launch instructions -/

theorem holdTask_sized {r k l ws} (hs : s.sized) : (holdTask s r k l ws).2.sized :=
  foldl_sized (fun _ _ => onTask_sized) hs

theorem execTaskq_sized {f} (hs : s.sized) : NextSized (execTaskq f s) := by
  unfold execTaskq
  refine syncOp_sized hs fun _ h => ?_
  extract_lets +onlyGivenNames _
  split
  · exact h
  · refine ite_sized (trap_sized h) ?_
    split
    next e => exact trap_sized (fst_sized e (page_sized h))
    next e =>
      have hs₁ := fst_sized e (page_sized h)
      refine ite_sized (trap_sized hs₁) ?_
      split
      · exact trap_sized hs₁
      · refine ite_sized hs₁ ?_
        split
        next e => exact trap_sized (fst_sized e (fetchAll_sized hs₁))
        next e =>
          have hs₂ := fst_sized e (fetchAll_sized hs₁)
          extract_lets +onlyGivenNames _
          split
          · exact ite_sized (issueY_sized (holdTask_sized hs₂)) (count_sized (issueY_sized hs₂))
          · exact count_sized (issueY_sized hs₂)

theorem execLpatch_sized {f} (hs : s.sized) : NextSized (execLpatch f s) := by
  unfold execLpatch
  refine syncOp_sized hs fun _ h => ?_
  extract_lets +onlyGivenNames _
  split
  · exact h
  · exact ite_sized (trap_sized h) (hold_sized h (fun _ => issueY_sized))

theorem execLarm_sized {f} (hs : s.sized) : NextSized (execLarm f s) :=
  syncOp_sized hs (fun _ h =>
    ite_sized (trap_sized h) (irrevocably_sized h (fun _ h₁ => ite_sized (trap_sized h₁) (issueY_sized (armRecord_sized h₁)))))

theorem execHalt_sized {f} (hs : s.sized) : NextSized (execHalt f s) := by
  unfold execHalt
  refine issue_sized hs fun _ h => ?_
  split
  · exact advance_sized (onRegion_sized h)
  · exact advance_sized h

/-! ### Streams of the units -/

theorem Tile.takeToken_sized {c} (hT : T.sized) : (T.takeToken c).sized := by
  unfold Tile.takeToken
  split
  · exact Tile.ite_sized hT hT
  · exact hT

theorem Tile.flushOut_sized {ctx c} (hT : T.sized) : (T.flushOut ctx c).sized := by
  unfold Tile.flushOut
  split
  · exact Tile.ite_sized hT hT
  · exact hT

theorem Tile.sendBeat_sized {ctx u c b} (hT : T.sized) : (T.sendBeat ctx u c b).sized :=
  Tile.ite_sized (Tile.flushOut_sized hT) hT

theorem Tile.sendToken_sized {ctx now u c kind x} (hT : T.sized) : (T.sendToken ctx now u c kind x).sized := by
  unfold Tile.sendToken
  refine Tile.ite_sized ?_ hT
  extract_lets +onlyGivenNames T₁ _ _
  have hT₁ : T₁.sized := by
    unfold T₁
    split
    · exact Tile.ite_sized hT (Tile.flushOut_sized hT)
    · exact hT
  exact Tile.ite_sized (Tile.flushOut_sized hT₁) hT₁

theorem Tile.sendStop_sized {ctx u k} (hT : T.sized) : (T.sendStop ctx u k).sized :=
  Tile.foldl_sized (fun _ _ => Tile.sendBeat_sized) hT

theorem Tile.sendEnd_sized {ctx u kind tag} (hT : T.sized) : (T.sendEnd ctx u kind tag).sized :=
  Tile.foldl_sized (fun _ _ => Tile.sendBeat_sized) hT

theorem State.take_sized {t c want} (hs : s.sized) : (s.take t c want).sized := by
  unfold State.take
  extract_lets +onlyGivenNames _ _ s₁
  have hs₁ : s₁.sized := onTile_sized hs fun _ => Tile.takeToken_sized
  exact ite_sized (count_sized hs₁) hs₁

theorem State.unitRead_sized {r p pg va n} (hs : s.sized) : (s.unitRead r p pg va n).1.sized := by
  unfold State.unitRead
  split
  next e => exact fst_sized e (taskRun_sized hs)
  next e => exact fst_sized e (taskRun_sized hs)

theorem State.reading_sized {r p pg va n} {k : ℕ → State → State} (hs : s.sized) (hk : ∀ a s, s.sized → (k a s).sized) :
    (s.reading r p pg va n k).sized := by
  unfold State.reading
  split
  next e => exact hk _ _ (fst_sized e (unitRead_sized hs))
  next e => exact raise_sized (fst_sized e (unitRead_sized hs))

theorem State.endStream_sized {t u} (hs : s.sized) : (s.endStream t u).sized :=
  onTile_sized hs fun _ h => h

theorem unitStep_sized {t u} {step : ℕ → Region → State → State} (hs : s.sized) (hstep : ∀ a b s, s.sized → (step a b s).sized) :
    NextSized (unitStep s t u step) := by
  unfold unitStep
  split
  · exact ite_sized (hstep _ _ _ hs) hs
  · exact hs

/-! ### Tasks and launches -/

theorem State.setTask_sized {h k} (hs : s.sized) : (s.setTask h k).sized :=
  hs

theorem State.unqueue_sized {d h} (hs : s.sized) : (s.unqueue d h).sized :=
  onDie_sized hs

theorem State.releaseRegion_sized {r} (hs : s.sized) : (s.releaseRegion r).sized := by
  unfold State.releaseRegion
  split
  · exact hs
  · exact foldl_sized (fun _ _ h => onTile_sized h (fun _ h₁ => h₁)) (clearTiles_sized hs)

theorem State.measureDrain_sized (hs : s.sized) : s.measureDrain.sized :=
  ite_sized hs (withBoot_sized hs)

theorem State.drain_sized {r why} (hs : s.sized) : (s.drain r why).sized := by
  unfold State.drain
  split
  · exact hs
  · exact onRegion_sized (measureDrain_sized (foldl_sized (fun _ _ h => onTile_sized h (fun _ h₁ => h₁)) (discard_sized hs)))

theorem State.completeTask_sized {h n} (hs : s.sized) : (s.completeTask h n).sized := by
  induction n generalizing s h with
  | zero => exact hs
  | succ n ih =>
    unfold State.completeTask
    split
    · exact hs
    · refine ite_sized hs ?_
      extract_lets s₁ s₂
      have hs₂ : s₂.sized := unqueue_sized hs
      split
      · exact hs₂
      · split
        · exact hs₂
        · exact ite_sized (ih hs₂) hs₂

theorem State.complete_sized {h} (hs : s.sized) : (s.complete h).sized :=
  completeTask_sized hs

theorem State.onLaunch_sized {key f} (hs : s.sized) : (s.onLaunch key f).sized := by
  unfold State.onLaunch
  split <;> exact hs

theorem State.splitTask_sized {h} (hs : s.sized) : SomeSized (s.splitTask h) := by
  unfold State.splitTask
  split
  · exact none_sized
  · split
    · exact none_sized
    · split
      · exact none_sized
      · extract_lets _ s₁ s₂
        have hs₁ : s₁.sized := unqueue_sized (setTask_sized hs)
        have hs₂ : s₂.sized := hs₁
        exact some_sized (count_sized (enqueue_sized (enqueue_sized hs₂)))

theorem State.smallest_sized {h cause} (hs : s.sized) : (s.smallest h cause).sized := by
  unfold State.smallest
  split
  · exact hs
  · exact count_sized (postDie_sized hs)

theorem State.requeue_sized {h} (hs : s.sized) : (s.requeue h).sized :=
  onTask_sized hs

theorem State.noteAbort_sized {h} (hs : s.sized) : (s.noteAbort h).sized := by
  unfold State.noteAbort
  split
  · exact count_sized (onLaunch_sized hs)
  · exact hs

theorem State.unreserveLaunch_sized {key} (hs : s.sized) : (s.unreserveLaunch key).sized :=
  mapDies_sized hs

theorem State.failLaunch_sized {h result stop} (hs : s.sized) : (s.failLaunch h result stop).sized := by
  unfold State.failLaunch
  split
  · exact onLaunch_sized hs
  · exact hs

theorem State.evacuate_sized {d} (hs : s.sized) : (s.evacuate d).sized := by
  unfold State.evacuate
  split
  · exact hs
  · exact ite_sized hs (onDie_sized (onDie_sized (foldl_sized (fun _ _ => onTask_sized) hs)))

theorem State.afterDrain_sized {why h cause} (hs : s.sized) : (s.afterDrain why h cause).sized := by
  unfold State.afterDrain
  split
  · extract_lets +onlyGivenNames _
    split
    next e => exact splitTask_sized (noteAbort_sized hs) _ e
    · exact smallest_sized (noteAbort_sized hs)
  · extract_lets +onlyGivenNames s₁
    have hs₁ : s₁.sized := requeue_sized (noteAbort_sized hs)
    split
    · exact evacuate_sized hs₁
    · exact hs₁
  · extract_lets +onlyGivenNames s₁
    have hs₁ : s₁.sized := requeue_sized (noteAbort_sized hs)
    split
    · exact evacuate_sized hs₁
    · exact hs₁
  · exact complete_sized (failLaunch_sized hs)
  · exact hs

theorem State.endCommand_sized {k status} (hs : s.sized) : (s.endCommand k status).sized :=
  ite_sized hs (syncWrite_sized hs)

theorem State.endActing_sized {r} (hs : s.sized) : (s.endActing r).sized := by
  unfold State.endActing
  refine foldl_sized (fun _ _ h => ?_) hs
  split
  · exact ite_sized (endCommand_sized (onCtx_sized h)) h
  · exact h

theorem State.decrementRecord_sized {d c idx} (hs : s.sized) : (s.decrementRecord d c idx).sized :=
  ite_sized (post_sized hs) (ite_sized (count_sized hs) (ite_sized (setRecField_sized hs) (setRecField_sized hs)))

theorem State.launchCw_sized {d l} (hs : s.sized) : (s.launchCw d l).sized := by
  unfold State.launchCw
  refine ite_sized hs ?_
  extract_lets +onlyGivenNames tell
  have htell : ∀ f, (tell f).sized := fun _ => post_sized hs
  split
  · exact htell _
  · refine ite_sized (htell _) ?_
    refine ite_sized (htell _) ?_
    refine ite_sized ?_ (ite_sized (mendSync_sized (post_sized (noteCmp_sized hs))) (syncWrite_sized (noteCmp_sized hs)))
    split
    · exact htell _
    · exact hs

theorem State.completeLaunch_sized {d l} (hs : s.sized) : (s.completeLaunch d l).sized := by
  unfold State.completeLaunch
  extract_lets +onlyGivenNames _ _ _ _ _ _ s₄ _
  have hs₄ : s₄.sized := foldl_sized (fun _ _ => decrementRecord_sized) (launchCw_sized (setRecField_sized (setRecField_sized
    (mapDies_sized hs))))
  split
  · exact setRecField_sized hs₄
  · exact startRecord_sized (setRecField_sized (setRecField_sized hs₄))

/-! ### Fences and the lattice -/

theorem State.fenceDie_sized {d} (hs : s.sized) : (s.fenceDie d).sized := by
  unfold State.fenceDie
  exact ite_sized hs (evacuate_sized (foldl_sized
    (fun _ _ h => ite_sized (drain_sized h) (ite_sized (drain_sized h) h))
    (ite_sized hs (onDie_sized hs))))

theorem State.markTile_sized {t reason} (hs : s.sized) : (s.markTile t reason).sized :=
  ite_sized hs (onTile_sized hs (fun _ h => h))

theorem State.leaveTile_sized {t} (hs : s.sized) : (s.leaveTile t).sized := by
  unfold State.leaveTile
  split
  · exact ite_sized hs (ite_sized hs (drain_sized hs))
  · exact hs

theorem State.thinDie_sized {d} (hs : s.sized) : (s.thinDie d).sized :=
  ite_sized (fenceDie_sized hs) hs

theorem State.fenceTile_sized {t} (hs : s.sized) : (s.fenceTile t).sized :=
  ite_sized hs (thinDie_sized (leaveTile_sized (markTile_sized hs)))

theorem State.fenceVault_sized {v} (hs : s.sized) : (s.fenceVault v).sized :=
  ite_sized hs (foldl_sized (fun _ _ => fenceTile_sized) (foldl_sized (fun _ _ => finish_sized) (onDie_sized hs)))

theorem State.markChannel_sized {stack ch reason} (hs : s.sized) : (s.markChannel stack ch reason).sized :=
  ite_sized hs (onDie_sized hs)

theorem State.fenceChannel_sized {stack ch} (hs : s.sized) : (s.fenceChannel stack ch).sized :=
  ite_sized (fenceDie_sized (markChannel_sized hs)) (markChannel_sized hs)

theorem State.rangeHints_sized {base size} (hs : s.sized) : (s.rangeHints base size).sized :=
  foldl_sized (fun _ _ => foldl_sized (fun _ _ h₁ => count_sized (postDie_sized h₁))) hs

theorem State.sendFlit_sized {f₀ came} (hs : s.sized) : SomeSized (s.sendFlit f₀ came) := by
  unfold State.sendFlit
  split
  · exact some_sized hs
  · split
    · exact none_sized
    · exact some_sized (count_sized hs)

theorem State.replacePart_sized {reason} (hs : s.sized) : (s.replacePart reason).sized :=
  hs

theorem State.fencePort_sized {p} (hs : s.sized) : (s.fencePort p).sized :=
  ite_sized hs (replacePart_sized (withFleet_sized hs (Fleet.set_lst_sized hs.sizes.fleet)))

theorem State.takeGroup_sized {c a k n up} (hs : s.sized) : (s.takeGroup c a k n up).sized :=
  ite_sized (enterNode_sized hs) (ite_sized (mendSync_sized hs) (syncWrite_sized hs))

theorem State.serve_sized {c} (hs : s.sized) : (s.serve c).sized := by
  unfold State.serve
  split
  rename_i _ s₁ e
  have hs₁ := snd_sized e hs
  split
  rename_i _ s₂ e
  have hs₂ := snd_sized e hs₁
  extract_lets +onlyGivenNames _ written _ _
  have hwritten : written.sized := getD_sized (physWrite_sized hs₂) hs₂
  refine ite_sized (takeGroup_sized hs₂) (ite_sized hs₂ ?_)
  split
  · exact hwritten
  · exact ite_sized (mendSync_sized hs₂) (ite_sized (syncWrite_sized hs₂) (takeGroup_sized hs₂))
  · exact ite_sized hs₂ (wakeDeferred_sized hwritten)
  · exact hs₂

theorem State.lattice_sized (hs : s.sized) : s.lattice.sized := by
  unfold State.lattice
  refine foldl_sized (fun _ _ h => ?_) hs
  refine ite_sized (serve_sized h) (ite_sized h ?_)
  split
  next e => exact sendFlit_sized h _ e
  · exact count_sized h

/-! ### The loader -/

theorem Tile.setBank_sized {b B} (hT : T.sized) : (T.setBank b B).sized :=
  Tile.ite_sized hT hT

theorem Tile.writeShadow_sized {e} (hT : T.sized) : (T.writeShadow e).sized :=
  Tile.setBank_sized hT

theorem Tile.clearShadow_sized (hT : T.sized) : T.clearShadow.sized :=
  Tile.setBank_sized hT

theorem State.onTiles_sized {g} {f : ℕ → ℕ → Tile → Tile} (hs : s.sized) (hf : ∀ a b T, T.sized → (f a b T).sized) :
    (s.onTiles g f).sized :=
  foldl_sized (fun _ _ => foldl_sized (fun _ _ h₁ => onTile_sized h₁ (fun _ => hf _ _ _))) hs

theorem State.loadBytes_sized {g k va n} (hs : s.sized) : (s.loadBytes g k va n).1.sized := by
  induction k generalizing s va n with
  | zero => exact hs
  | succ k ih =>
    unfold State.loadBytes
    refine ite_fst_sized hs ?_
    extract_lets _
    split
    next e => exact fst_sized e (xlate_sized hs)
    next e =>
      have hs₁ := fst_sized e (xlate_sized hs)
      split
      next e => exact fst_sized e (imageBlock_sized hs₁)
      next e =>
        have hs₂ := fst_sized e (imageBlock_sized hs₁)
        split
        next e => exact fst_sized e (ih hs₂)
        next e => exact fst_sized e (ih hs₂)

theorem State.setRegion_sized {r g} (hs : s.sized) : (s.setRegion r g).sized :=
  hs

theorem State.onLoader_sized {r f} (hs : s.sized) : (s.onLoader r f).sized :=
  onRegion_sized hs

theorem State.discardShadow_sized {r phase due} (hs : s.sized) : (s.discardShadow r phase due).sized := by
  unfold State.discardShadow
  split
  · exact hs
  · exact onTiles_sized hs fun _ _ _ => Tile.clearShadow_sized

theorem State.loaderFault_sized {r g f} (hs : s.sized) : (s.loaderFault r g f).sized :=
  ite_sized (discardShadow_sized (post_sized hs)) (raise_sized (ite_sized (discardShadow_sized hs) hs))

theorem State.cfginv_sized {r g f} (hs : s.sized) : (s.cfginv r g f).sized :=
  ite_sized (discardShadow_sized (post_sized hs))
    (mapDies_sized (unreserveLaunch_sized (releaseRegion_sized (complete_sized (failLaunch_sized (post_sized hs))))))

theorem State.switchIn_sized {r g v} (hs : s.sized) : (s.switchIn r g v).sized :=
  enterArgument_sized (onTiles_sized (clearTiles_sized hs) (fun _ _ _ h => h))

theorem State.finishSwitch_sized {r} (hs : s.sized) : (s.finishSwitch r).sized := by
  unfold State.finishSwitch
  split
  · exact hs
  · exact ite_sized (onTiles_sized hs (fun _ _ _ h => h)) hs

theorem execLoaderRead_sized {r} (hs : s.sized) : NextSized (execLoaderRead r s) := by
  unfold execLoaderRead
  split
  · exact hs
  · refine ite_sized hs ?_
    extract_lets +onlyGivenNames _ _ _
    split
    next e => exact loaderFault_sized (fst_sized e (loadBytes_sized hs))
    next e =>
      have hs₁ := fst_sized e (loadBytes_sized hs)
      exact onLoader_sized (onTiles_sized hs₁ (fun _ _ _ =>
        Tile.foldl_sized (fun _ _ h₁ => Tile.ite_sized (Tile.writeShadow_sized h₁) h₁)))

theorem execVerificationPass_sized {r} (hs : s.sized) : NextSized (execVerificationPass r s) := by
  unfold execVerificationPass
  split
  · exact hs
  · refine ite_sized hs ?_
    extract_lets +onlyGivenNames _ _
    split
    · exact cfginv_sized hs
    · exact ite_sized hs (switchIn_sized hs)

theorem execSuccessorPreload_sized {r} (hs : s.sized) : NextSized (execSuccessorPreload r s) := by
  unfold execSuccessorPreload
  split
  · exact hs
  · refine ite_sized hs ?_
    extract_lets +onlyGivenNames _ _ _ _
    split
    next e =>
      have hs₂ := fst_sized e (loadBytes_sized hs)
      exact ite_sized (loaderFault_sized hs₂) (cfginv_sized hs₂)
    next e =>
      have hs₂ := fst_sized e (loadBytes_sized hs)
      exact ite_sized (cfginv_sized hs₂) (ite_sized (cfginv_sized hs₂) (onTiles_sized hs₂ (fun _ _ _ => Tile.clearShadow_sized)))

theorem State.configError_sized {r t} (hs : s.sized) : (s.configError r t).sized := by
  unfold State.configError
  split
  · exact hs
  · extract_lets +onlyGivenNames _ _ _ s₁ _ s₂
    have hs₁ : s₁.sized := onTile_sized hs fun _ h => h
    have hs₂ : s₂.sized := ite_sized hs₁ hs₁
    refine ite_sized ?_ (ite_sized hs₂ hs₂)
    extract_lets +onlyGivenNames s₃
    have hs₃ : s₃.sized := count_sized (postDie_sized hs₂)
    exact ite_sized (thinDie_sized (markTile_sized hs₃)) (fenceTile_sized hs₃)

theorem State.startRepair_sized {r t} (hs : s.sized) : (s.startRepair r t).sized :=
  ite_sized (leaveTile_sized hs) (onRegion_sized hs)

theorem State.applyMarks_sized {r place marks} (hs : s.sized) : (s.applyMarks r place marks).sized := by
  unfold State.applyMarks
  refine foldl_sized (fun _ _ h => ?_) hs
  split
  · exact startRepair_sized h
  · exact raise_sized h

theorem execConfigScrub_sized {r} (hs : s.sized) : NextSized (execConfigScrub r s) := by
  unfold execConfigScrub
  split
  · exact hs
  · exact ite_sized hs (ite_sized hs (configError_sized hs))

theorem State.repairList_sized {g img variant} (hs : s.sized) : (s.repairList g img variant).1.sized := by
  unfold State.repairList
  split
  next e => exact fst_sized e (loadBytes_sized hs)
  next e =>
    have hs₁ := fst_sized e (loadBytes_sized hs)
    extract_lets +onlyGivenNames _
    split
    next e => exact fst_sized e (loadBytes_sized hs₁)
    next e => exact fst_sized e (loadBytes_sized hs₁)

theorem State.rewrite_sized {g t} (hs : s.sized) : (s.rewrite g t).1.sized := by
  unfold State.rewrite
  extract_lets +onlyGivenNames _ _
  split
  next e => exact fst_sized e (repairList_sized hs)
  next e =>
    have hs₁ := fst_sized e (repairList_sized hs)
    refine ite_fst_sized (onTile_sized hs₁ (fun _ => Tile.setBank_sized)) ?_
    split
    next e => exact fst_sized e (repairList_sized hs₁)
    next e => exact onTile_sized (fst_sized e (repairList_sized hs₁)) fun _ h => Tile.setBank_sized (Tile.setBank_sized h)

theorem execConfigRepairComplete_sized {r} (hs : s.sized) : NextSized (execConfigRepairComplete r s) := by
  unfold execConfigRepairComplete
  split
  · exact hs
  · split
    · exact hs
    · refine ite_sized hs ?_
      split
      next e => exact raise_sized (fst_sized e (rewrite_sized hs))
      next e =>
        have hs₁ := fst_sized e (rewrite_sized hs)
        extract_lets +onlyGivenNames _ _ _ s₂ _
        have hs₂ : s₂.sized := count_sized (postDie_sized hs₁)
        exact ite_sized (fenceTile_sized hs₂) hs₂

/-! ### Bead control -/

theorem State.emitThen_sized {ports} {k : State → State} (hs : s.sized) (hk : ∀ s, s.sized → (k s).sized) :
    (s.emitThen ports k).sized :=
  ite_sized hs (ite_sized (hk _ (onMe_sized hs (fun _ => Tile.foldl_sized (fun _ _ h₁ => h₁)))) hs)

theorem beadOp_sized {f srcs} {effect : Mask → State → State} (hs : s.sized) (heffect : ∀ a s, s.sized → (effect a s).sized) :
    NextSized (beadOp s f srcs effect) :=
  issue_sized hs fun _ => heffect _ _

theorem execRoute_sized {f} (hs : s.sized) : NextSized (execRoute f s) :=
  beadOp_sized hs fun _ _ h => ite_sized (emitThen_sized h (fun _ => leave_sized)) (count_sized (leave_sized h))

theorem execSplit_sized {f} (hs : s.sized) : NextSized (execSplit f s) :=
  beadOp_sized hs fun _ _ h => emitThen_sized h (fun _ => leave_sized)

theorem execMerge_sized {f} (hs : s.sized) : NextSized (execMerge f s) := by
  unfold execMerge
  refine beadOp_sized hs fun _ _ h => ?_
  extract_lets +onlyGivenNames _ _
  split
  · exact h
  · refine ite_sized (advance_sized (count_sized (onMe_sized h (fun _ h₂ => h₂)))) ?_
    split
    · exact h
    · extract_lets +onlyGivenNames _ _ _ _ _ _ s₁
      have hs₁ : s₁.sized := onMe_sized h fun _ h₂ => Tile.onHead_sized h₂
      exact advance_sized (ite_sized hs₁ (count_sized hs₁))

theorem execRecirc_sized {f} (hs : s.sized) : NextSized (execRecirc f s) :=
  beadOp_sized hs fun _ _ h => emitThen_sized h (fun _ => leave_sized)

theorem execAccept_sized {f} (hs : s.sized) : NextSized (execAccept f s) := by
  unfold execAccept
  refine beadOp_sized hs fun _ _ h => ?_
  extract_lets +onlyGivenNames _ _
  split
  · exact h
  · exact ite_sized
      (advance_sized (onMe_sized h (fun _ h₂ => Tile.writeP_sized (Tile.writeV_sized h₂))))
      (ite_sized (advance_sized (onMe_sized h (fun _ h₂ => Tile.writeP_sized (Tile.writeV_sized h₂)))) h)

theorem execDrop_sized {f} (hs : s.sized) : NextSized (execDrop f s) :=
  beadOp_sized hs fun _ _ h => ite_sized (leave_sized h) (advance_sized (onMe_sized h (fun _ => Tile.onHead_sized)))

theorem execHold_sized {f} (hs : s.sized) : NextSized (execHold f s) :=
  beadOp_sized hs fun _ _ h => ite_sized (advance_sized h) h

theorem execNewb_sized {f} (hs : s.sized) : NextSized (execNewb f s) := by
  unfold execNewb
  extract_lets _ _
  refine beadOp_sized hs fun _ _ h => ?_
  extract_lets _
  exact emitThen_sized h fun _ h₁ => advance_sized (onMe_sized h₁ (fun _ h₂ => h₂))

theorem execTok_sized {f} (hs : s.sized) : NextSized (execTok f s) :=
  beadOp_sized hs fun _ _ h => emitThen_sized h (fun _ => advance_sized)

theorem execSwi_sized {f} (hs : s.sized) : NextSized (execSwi f s) := by
  unfold execSwi
  refine beadOp_sized hs fun _ _ h => ?_
  split
  · exact h
  · refine ite_sized (emitThen_sized h fun s hs => ?_) h
    exact setRegion_sized (onMe_sized (advance_sized hs) fun _ hT => hT)

/-! ### Engines -/

theorem enginePort_sized {f fn i} (hs : s.sized) : NextSized (enginePort s f fn i) :=
  syncOp_sized hs (fun _ h =>
    ite_sized (trap_sized h) (ite_sized h (irrevocably_sized h (fun _ h₁ => issueY_sized (markOlder_sized
      (setEngine_sized h₁))))))

theorem chainAppend_sized {f desc entryVa rel bytes cmd i} (hs : s.sized) :
    (chainAppend s f desc entryVa rel bytes cmd i).sized := by
  unfold chainAppend
  split
  · exact hs
  · refine ite_sized (trap_sized hs) ?_
    split
    next e => exact trap_sized (fst_sized e (syncWord_sized hs))
    next e => exact trap_sized (fst_sized e (syncWord_sized hs))
    next e => exact trap_sized (fst_sized e (syncWord_sized hs))
    next e =>
      have hs₁ := fst_sized e (syncWord_sized hs)
      split
      next e => exact trap_sized (fst_sized e (page_sized hs₁))
      next e =>
        have hs₂ := fst_sized e (page_sized hs₁)
        split
        · exact trap_sized hs₂
        · split
          · exact trap_sized (touchBad_sized hs₂)
          · exact trap_sized (touchBad_sized hs₂)
          · split
            next e => exact trap_sized (fst_sized e (tailFault_sized hs₂))
            next e =>
              have hs₃ := fst_sized e (tailFault_sized hs₂)
              refine ite_sized hs₃ (irrevocably_sized hs₃ (fun _ h => ?_))
              extract_lets +onlyGivenNames s₄ _ _ s₅
              have hs₄ : s₄.sized := touch_sized (touch_sized h)
              have hs₅ : s₅.sized := issueY_sized (ite_sized (markOlder_sized hs₄) hs₄)
              exact ite_sized (remoteAnswer_sized hs₅) hs₅

theorem engineChain_sized {f fn i} (hs : s.sized) : NextSized (engineChain s f fn i) :=
  syncOp_sized hs fun _ h => chainAppend_sized h

theorem State.bodyFault_sized {d e c k} (hs : s.sized) : (s.bodyFault d e c k).1.sized := by
  unfold State.bodyFault
  extract_lets +onlyGivenNames _ _
  split
  rename_i s₁ _ e
  have hs₁ := fst_sized e (by
    refine ite_fst_sized hs (ite_fst_sized hs ?_)
    split
    next e => exact fst_sized e (page_sized hs)
    next e => exact fst_sized e (page_sized hs))
  split
  · exact hs₁
  · split
    · exact hs₁
    · exact hs₁
    · refine ite_fst_sized hs₁ (ite_fst_sized hs₁ (ite_fst_sized hs₁ (ite_fst_sized hs₁ ?_)))
      split
      next e => exact fst_sized e (readRun_sized hs₁)
      next e => exact fst_sized e (readRun_sized hs₁)
    · refine ite_fst_sized hs₁ ?_
      split
      next e => exact fst_sized e (openAt_sized hs₁)
      next e => exact fst_sized e (openAt_sized hs₁)

theorem State.copyUnits_sized {p c h dst len} {get : State → ℕ → ℕ → State × Except Flt (List Byte)} {n o} (hs : s.sized)
    (hget : ∀ s a b, s.sized → (get s a b).1.sized) : (s.copyUnits p c h dst len get n o).1.sized := by
  induction n generalizing s o with
  | zero => exact hs
  | succ n ih =>
    unfold State.copyUnits
    refine ite_fst_sized hs ?_
    split
    next e => exact fst_sized e (hget _ _ _ hs)
    next e =>
      have hs₁ := fst_sized e (hget _ _ _ hs)
      split
      next e => exact ih (fst_sized e (writeRun_sized hs₁))
      next e => exact fst_sized e (writeRun_sized hs₁)

theorem State.cutKey_sized {h desc key} (hs : s.sized) : (s.cutKey h desc key).sized := by
  unfold State.cutKey
  split
  · exact hs
  · exact cutTask_sized (unreserve_sized hs)

theorem State.sparsifyFrom_sized {p c desc pa k wb total n i} (hs : s.sized) :
    (s.sparsifyFrom p c desc pa k wb total n i).1.sized := by
  induction n generalizing s i with
  | zero => exact hs
  | succ n ih =>
    unfold State.sparsifyFrom
    refine ite_fst_sized hs ?_
    split
    next e => exact fst_sized e (readRun_sized hs)
    next e =>
      have hs₁ := fst_sized e (readRun_sized hs)
      extract_lets _ _ s₂
      have hs₂ : s₂.sized := touch_sized hs₁
      refine ite_fst_sized (ih hs₁) (ite_fst_sized hs₂ ?_)
      split
      · exact hs₂
      next e => exact ih (cutKey_sized (unreserve_sized (applyKeys_sized (reserve_sized hs₂ _ e))))

theorem State.maxWord_sized {pa n} (hs : s.sized) : (s.maxWord pa n).sized :=
  syncWrite_sized hs

theorem State.readAheadFrom_sized {p c k n got} (hs : s.sized) : (s.readAheadFrom p c k n got).1.sized := by
  induction n generalizing s got with
  | zero => exact hs
  | succ n ih =>
    unfold State.readAheadFrom
    refine ite_fst_sized hs ?_
    split
    next e => exact ih (fst_sized e (readRun_sized hs))
    next e => exact fst_sized e (readRun_sized hs)

theorem State.readAhead_sized {p c k} (hs : s.sized) : (s.readAhead p c k).1.sized :=
  ite_fst_sized (readAheadFrom_sized hs) hs

theorem State.runCommand_sized {d e c k} (hs : s.sized) : (s.runCommand d e c k).1.sized := by
  unfold State.runCommand
  extract_lets +onlyGivenNames _
  split
  · exact copyUnits_sized hs fun _ _ _ h => ite_fst_sized h (readRun_sized h)
  · extract_lets +onlyGivenNames _
    split
    next e => exact fst_sized e (openAt_sized hs)
    next e =>
      have hs₁ := fst_sized e (openAt_sized hs)
      refine copyUnits_sized hs₁ fun _ _ _ h => ?_
      extract_lets +onlyGivenNames _ s₂
      have hs₂ : s₂.sized := foldl_sized (fun _ _ => touch_sized) h
      exact ite_fst_sized hs₂ hs₂
  · extract_lets +onlyGivenNames _
    split
    next e => exact fst_sized e (openAt_sized hs)
    next e => exact sparsifyFrom_sized (fst_sized e (openAt_sized hs))
  · split
    · exact copyUnits_sized hs fun _ _ _ h => h
    · exact hs
  · exact hs

theorem State.writeCw_sized {d e c k n} (hs : s.sized) : (s.writeCw d e c k n).1.sized := by
  unfold State.writeCw
  refine ite_fst_sized hs ?_
  split
  next e => exact fst_sized e (page_sized hs)
  next e =>
    have hs₁ := fst_sized e (page_sized hs)
    split
    · exact hs₁
    · exact ite_fst_sized (mendSync_sized (touch_sized hs₁)) (ite_fst_sized (touch_sized hs₁) (maxWord_sized (touch_sized hs₁)))

theorem State.entryWord_sized {d e c a} (hs : s.sized) : (s.entryWord d e c a).1.sized := by
  unfold State.entryWord
  split
  next e => exact fst_sized e (readRun_sized hs)
  next e => exact fst_sized e (readRun_sized hs)

theorem State.setEntryWord_sized {d e c a v} (hs : s.sized) : (s.setEntryWord d e c a v).1.sized := by
  unfold State.setEntryWord
  split
  next e => exact fst_sized e (spans_sized hs)
  next e => exact writeSpans_sized (fst_sized e (spans_sized hs))

theorem State.entryStat_sized {d e c entry v} (hs : s.sized) : (s.entryStat d e c entry v).1.sized :=
  setEntryWord_sized hs

theorem State.chainPlaces_sized {d e c va write seen is} (hs : s.sized) : (s.chainPlaces d e c va write seen is).1.sized := by
  induction is generalizing s seen with
  | nil => exact hs
  | cons i is ih =>
    unfold State.chainPlaces
    extract_lets _
    split
    next e => exact fst_sized e (page_sized hs)
    next e =>
      have hs₁ := fst_sized e (page_sized hs)
      split
      · exact hs₁
      · extract_lets s₂
        have hs₂ : s₂.sized := ite_sized hs₁ (touch_sized hs₁)
        refine ite_fst_sized (mendSync_sized hs₂) ?_
        split
        next e => exact fst_sized e (ih hs₂)
        next e => exact fst_sized e (ih hs₂)

theorem State.chainHead_sized {d e c va} (hs : s.sized) : (s.chainHead d e c va).1.sized := by
  unfold State.chainHead
  split
  next e => exact fst_sized e (chainPlaces_sized hs)
  next e =>
    have hs₁ := fst_sized e (chainPlaces_sized hs)
    exact ite_fst_sized hs₁ hs₁

theorem State.chainStepPlaces_sized {d e c desc link seq} (hs : s.sized) : (s.chainStepPlaces d e c desc link seq).1.sized :=
  chainPlaces_sized hs

theorem State.chainStep_sized {link seq pas} (hs : s.sized) : (s.chainStep link seq pas).sized := by
  unfold State.chainStep
  extract_lets +onlyGivenNames put _
  have hput : ∀ s pa v, s.sized → (put s pa v).sized := fun _ _ _ h => ite_sized h (syncWrite_sized h)
  split
  · extract_lets +onlyGivenNames s₁
    have hs₁ : s₁.sized := hput _ _ _ (hput _ _ _ hs)
    exact ite_sized (hput _ _ _ hs₁) hs₁
  · extract_lets +onlyGivenNames s₁
    have hs₁ : s₁.sized := hput _ _ _ hs
    exact ite_sized (hput _ _ _ hs₁) hs₁

theorem State.entryEnd_sized {d e c a} (hs : s.sized) : (s.entryEnd d e c a).1.sized := by
  unfold State.entryEnd
  split
  next e => exact fst_sized e (entryWord_sized hs)
  next e =>
    have hs₁ := fst_sized e (entryWord_sized hs)
    split
    next e => exact fst_sized e (spans_sized hs₁)
    next e =>
      have hs₂ := fst_sized e (spans_sized hs₁)
      split
      next e => exact fst_sized e (entryWord_sized hs₂)
      next e => exact fst_sized e (entryWord_sized hs₂)

theorem State.stopEngine_sized {d e c k f prog} (hs : s.sized) : (s.stopEngine d e c k f prog).sized := by
  unfold State.stopEngine
  extract_lets +onlyGivenNames s₁ _ _ _ _
  have hs₁ : s₁.sized := by
    unfold s₁
    split
    · exact ite_sized (setEntryWord_sized hs) (entryStat_sized (setEntryWord_sized hs))
    · exact hs
  exact setEngine_sized (ite_sized (count_sized (post_sized hs₁)) (post_sized hs₁))

theorem nextOrdinal_sized {d c grp} (hs : s.sized) : (nextOrdinal s d c grp).2.sized := by
  unfold nextOrdinal
  extract_lets +onlyGivenNames _
  split <;> exact onCtx_sized hs

theorem startCommand_sized {d e c k} (hs : s.sized) : (startCommand s d e c k).sized := by
  unfold startCommand
  split
  next e => exact stopEngine_sized (fst_sized e (bodyFault_sized hs))
  next e =>
    have hs₁ := fst_sized e (bodyFault_sized hs)
    exact setEngine_sized (ite_snd_sized (nextOrdinal_sized hs₁) hs₁)

theorem execEngineCommandStart_sized {d e c} (hs : s.sized) : NextSized (execEngineCommandStart d e c s) := by
  unfold execEngineCommandStart
  extract_lets +onlyGivenNames _
  split
  · exact ite_sized hs (startCommand_sized (setEngine_sized hs))
  · exact hs

theorem execChainWalk_sized {d e c} (hs : s.sized) : NextSized (execChainWalk d e c s) := by
  unfold execChainWalk
  extract_lets +onlyGivenNames _
  split
  · refine ite_sized hs ?_
    extract_lets +onlyGivenNames _
    split
    next e => exact stopEngine_sized (fst_sized e (chainHead_sized hs))
    next e =>
      have hs₁ := fst_sized e (chainHead_sized hs)
      refine ite_sized (setEngine_sized hs₁) ?_
      extract_lets +onlyGivenNames _
      split
      next e => exact stopEngine_sized (fst_sized e (readRun_sized (setEngine_sized hs₁)))
      next e =>
        have hs₃ := fst_sized e (readRun_sized (setEngine_sized hs₁))
        refine ite_sized hs ?_
        split
        next e => exact stopEngine_sized (fst_sized e (entryStat_sized hs₃))
        next e =>
          have hs₄ := fst_sized e (entryStat_sized hs₃)
          exact ite_sized (stopEngine_sized hs₄) (startCommand_sized hs₄)
  · exact hs

theorem finished_sized {d e c k} (hs : s.sized) : SomeSized (finished s d e c k) := by
  unfold finished
  split
  · split
    · exact some_sized hs
    · exact none_sized
  · split
    · exact none_sized
    · split
      · exact none_sized
      next e =>
        have hs₁ := fst_sized e (readAhead_sized hs)
        split
        next e => exact some_sized (fst_sized e (runCommand_sized hs₁))
        · exact none_sized

theorem execEngineCommandComplete_sized {d e c} (hs : s.sized) : NextSized (execEngineCommandComplete d e c s) := by
  unfold execEngineCommandComplete
  extract_lets +onlyGivenNames _
  split
  · refine ite_sized hs ?_
    split
    · exact hs
    next e =>
      have hs₁ := finished_sized hs _ e
      extract_lets +onlyGivenNames stop
      have hstop : ∀ s f, s.sized → (stop s f).sized := fun _ _ => stopEngine_sized
      split
      · split
        next e => exact hstop _ _ (fst_sized e (writeCw_sized hs₁))
        next e => exact setEngine_sized (fst_sized e (writeCw_sized hs₁))
      · split
        next e => exact hstop _ _ (fst_sized e (entryEnd_sized hs₁))
        next e =>
          have hs₂ := fst_sized e (entryEnd_sized hs₁)
          split
          next e => exact hstop _ _ (fst_sized e (writeCw_sized hs₂))
          next e =>
            have hs₃ := fst_sized e (writeCw_sized hs₂)
            split
            next e => exact hstop _ _ (fst_sized e (chainStepPlaces_sized hs₃))
            next e =>
              have hs₄ := fst_sized e (chainStepPlaces_sized hs₃)
              split
              next e => exact hstop _ _ (fst_sized e (entryStat_sized hs₄))
              next e => exact setEngine_sized (chainStep_sized (fst_sized e (entryStat_sized hs₄)))
  · exact hs

theorem execEngineFault_sized {d e c} (hs : s.sized) : NextSized (execEngineFault d e c s) := by
  unfold execEngineFault
  extract_lets +onlyGivenNames _
  split
  · refine ite_sized hs ?_
    split
    next e => exact stopEngine_sized (fst_sized e (readAhead_sized hs))
    next e =>
      have hs₁ := fst_sized e (readAhead_sized hs)
      split
      next e => exact stopEngine_sized (fst_sized e (runCommand_sized hs₁))
      · exact hs
  · exact hs

theorem a2aSlot_sized {d e c k} (hs : s.sized) : (a2aSlot s d e c k).1.sized := by
  unfold a2aSlot
  extract_lets +onlyGivenNames _ _ _ _
  split
  next e => exact fst_sized e (readRun_sized hs)
  next e =>
    have hs₁ := fst_sized e (readRun_sized hs)
    refine ite_fst_sized hs₁ ?_
    split
    next e => exact fst_sized e (readRun_sized hs₁)
    next e =>
      have hs₂ := fst_sized e (readRun_sized hs₁)
      refine ite_fst_sized hs₂ ?_
      split
      next e => exact fst_sized e (page_sized hs₂)
      next e =>
        have hs₃ := fst_sized e (page_sized hs₂)
        split
        · exact hs₃
        · refine ite_fst_sized (draw_sized hs₃) ?_
          split
          · dsimp only
            refine foldl_sized (fun _ _ h => ?_) hs₃
            exact ite_sized (mendSync_sized h) h
          · exact ite_fst_sized hs₃ hs₃

theorem execA2aDelivery_sized {d e c} (hs : s.sized) : NextSized (execA2aDelivery d e c s) := by
  unfold execA2aDelivery
  extract_lets +onlyGivenNames _
  split
  · refine ite_sized hs ?_
    split
    next e => exact stopEngine_sized (fst_sized e (a2aSlot_sized hs))
    next e =>
      have hs₁ := fst_sized e (a2aSlot_sized hs)
      extract_lets +onlyGivenNames _
      split
      · exact setEngine_sized (ite_sized (touch_sized hs₁) (count_sized (post_sized (touch_sized hs₁))))
      · exact setEngine_sized (touch_sized hs₁)
      · split
        next e => exact stopEngine_sized (fst_sized e (writeRun_sized (touch_sized hs₁)))
        next e => exact setEngine_sized (syncWrite_sized (fst_sized e (writeRun_sized (touch_sized hs₁))))
  · exact hs

theorem execA2aResume_sized {d e c} (hs : s.sized) : NextSized (execA2aResume d e c s) := by
  unfold execA2aResume
  extract_lets +onlyGivenNames _
  split
  · refine ite_sized ?_ hs
    split
    next e => exact stopEngine_sized (fst_sized e (a2aSlot_sized hs))
    next e =>
      have hs₁ := fst_sized e (a2aSlot_sized hs)
      exact ite_sized (setEngine_sized (touch_sized hs₁)) (touch_sized hs₁)
  · exact hs

theorem groupOf_sized {d e c k} (hs : s.sized) : (groupOf s d e c k).1.sized := by
  unfold groupOf
  extract_lets +onlyGivenNames _
  split
  next e => exact fst_sized e (readRun_sized hs)
  next e =>
    have hs₁ := fst_sized e (readRun_sized hs)
    extract_lets +onlyGivenNames _
    split
    next e => exact fst_sized e (readRun_sized hs₁)
    next e => exact fst_sized e (readRun_sized hs₁)

theorem execCollMatch_sized {d e c} (hs : s.sized) : NextSized (execCollMatch d e c s) := by
  unfold execCollMatch
  extract_lets +onlyGivenNames _
  split
  · refine ite_sized hs ?_
    split
    next e => exact stopEngine_sized (fst_sized e (groupOf_sized hs))
    next e =>
      have hs₁ := fst_sized e (groupOf_sized hs)
      refine ite_sized hs (ite_sized (foldl_sized (fun _ _ => stopEngine_sized) hs₁) ?_)
      extract_lets +onlyGivenNames _ _ _ _
      split
      rename_i s₂ _ _ e
      have hs₂ := fst_sized e (by
        refine foldl_fst_sized (fun _ _ h => ?_) hs₁
        refine ite_fst_sized h ?_
        split
        · exact h
        · split
          next e => exact fst_sized e (readRun_sized h)
          next e => exact fst_sized e (readRun_sized h))
      split
      · exact stopEngine_sized hs₂
      · exact foldl_sized (fun _ _ h => setEngine_sized h) hs₂
  · exact hs

/-! ### The scheduler -/

theorem State.resx_sized {r g causes} (hs : s.sized) : (s.resx r g causes).sized :=
  count_sized (postDie_sized hs)

theorem State.freshReserve_sized {h} (hs : s.sized) : (s.freshReserve h).sized :=
  State.Sizes.sized { hs.sizes with dies := (List.length_map _).trans (List.length_range.trans hs.sizes.dies) }

theorem State.makeRegion_sized {d h c img i v o} (hs : s.sized) : (s.makeRegion d h c img i v o).sized :=
  foldl_sized (fun _ _ h₁ => onTile_sized h₁ (fun _ h₂ => Tile.clearShadow_sized (Tile.ite_sized h₂ h₂))) hs

theorem State.dropReserve_sized {h} (hs : s.sized) : (s.dropReserve h).sized :=
  mapDies_sized hs

theorem State.placeTask_sized {d h i k l v o} (hs : s.sized) : (s.placeTask d h i k l v o).sized :=
  count_sized (dropReserve_sized (makeRegion_sized hs))

theorem State.reserveRestore_sized {g} (hs : s.sized) : (s.reserveRestore g).sized := by
  unfold State.reserveRestore
  split
  · exact hs
  · extract_lets +onlyGivenNames _ _ _ _
    split
    · exact freshReserve_sized hs
    · split
      · exact ite_sized (freshReserve_sized hs) (count_sized (onDie_sized (freshReserve_sized hs)))
      · exact freshReserve_sized hs

theorem State.reissueEngine_sized {d e c} (hs : s.sized) : (s.reissueEngine d e c).sized := by
  unfold State.reissueEngine
  extract_lets +onlyGivenNames _
  split
  · refine ite_sized hs ?_
    split
    · exact hs
    · exact ite_sized (setEngine_sized hs) hs
  · exact hs

theorem execTimeAllowanceExpiry_sized {r} (hs : s.sized) : NextSized (execTimeAllowanceExpiry r s) := by
  unfold execTimeAllowanceExpiry
  split
  · exact ite_sized (exhaust_sized hs) hs
  · exact hs

theorem execExhaustion_sized {r cause} (hs : s.sized) : NextSized (execExhaustion r cause s) := by
  unfold execExhaustion
  split
  · exact hs
  · exact ite_sized hs (ite_sized hs (ite_sized (resx_sized hs) (drain_sized hs)))

theorem execAdmissionAgeExpiry_sized {h} (hs : s.sized) : NextSized (execAdmissionAgeExpiry h s) := by
  unfold execAdmissionAgeExpiry
  split
  · exact hs
  · refine ite_sized hs ?_
    split
    · exact hs
    · extract_lets +onlyGivenNames _
      split
      · exact ite_sized (freshReserve_sized hs) (getD_sized (splitTask_sized (freshReserve_sized hs)) (freshReserve_sized hs))
      · split
        · exact count_sized (onDie_sized (freshReserve_sized hs))
        · exact freshReserve_sized hs

theorem execQuiescenceReport_sized {r} (hs : s.sized) : NextSized (execQuiescenceReport r s) := by
  unfold execQuiescenceReport
  split
  · exact hs
  · split
    · exact ite_sized (endActing_sized (afterDrain_sized (releaseRegion_sized hs))) hs
    · exact ite_sized (commit_sized hs (fun _ h => releaseRegion_sized (complete_sized h))) hs

theorem execDependenceDecrement_sized {h} (hs : s.sized) : NextSized (execDependenceDecrement h s) := by
  unfold execDependenceDecrement
  split
  · exact hs
  · exact ite_sized hs hs

theorem execAllocate_sized {d} (hs : s.sized) : NextSized (execAllocate d s) := by
  unfold execAllocate
  refine ite_sized hs ?_
  split
  · exact ite_sized hs (placeTask_sized hs)
  · exact hs

theorem execIdxfullReissue_sized {r} (hs : s.sized) : NextSized (execIdxfullReissue r s) := by
  unfold execIdxfullReissue
  extract_lets +onlyGivenNames s₁
  have hs₁ : s₁.sized := by
    unfold s₁
    split
    · exact hs
    · exact ite_sized (reissueAll_sized (thawBy_sized hs)) hs
  exact foldl_sized (fun _ _ => foldl_sized (fun _ _ => foldl_sized (fun _ _ => reissueEngine_sized))) hs₁

/-! ### Launch events -/

theorem execLaunchArm_sized {c n} (hs : s.sized) : NextSized (execLaunchArm c n s) :=
  ite_sized (armRecord_sized hs) hs

theorem execLaunchStart_sized {c n} (hs : s.sized) : NextSized (execLaunchStart c n s) := by
  unfold execLaunchStart
  split
  · exact hs
  · exact ite_sized (runRecord_sized hs) hs

theorem State.enqueuePiece_sized {l d dom} (hs : s.sized) : (s.enqueuePiece l d dom).sized :=
  enqueue_sized hs

theorem execLaunchPacket_sized {d k} (hs : s.sized) : NextSized (execLaunchPacket d k s) := by
  unfold execLaunchPacket
  split
  · exact hs
  · exact ite_sized hs (foldl_sized (fun _ _ h => ite_sized (onDie_sized h) (enqueuePiece_sized h)) hs)

theorem execPendingPieceEnqueue_sized {d} (hs : s.sized) : NextSized (execPendingPieceEnqueue d s) := by
  unfold execPendingPieceEnqueue
  extract_lets +onlyGivenNames _
  split
  · exact hs
  · extract_lets +onlyGivenNames _
    split
    · exact enqueuePiece_sized (onDie_sized hs)
    · exact onDie_sized hs

theorem execDieReport_sized {d k} (hs : s.sized) : NextSized (execDieReport d k s) := by
  unfold execDieReport
  split
  · exact hs
  · exact ite_sized hs (ite_sized (completeLaunch_sized hs) hs)

/-! ### Contexts and their records -/

theorem State.whenReady_sized {k : State → State} (hs : s.sized) (hk : ∀ s, s.sized → (k s).sized) : (s.whenReady k).sized :=
  ite_sized (hk _ hs) hs

theorem State.logError_sized {status addr} (hs : s.sized) : (s.logError status addr).sized :=
  ite_sized hs hs

theorem State.idleRecords_sized {c fresh} (hs : s.sized) : (s.idleRecords c fresh).sized := by
  unfold State.idleRecords
  refine foldl_sized (fun _ _ h => ?_) hs
  extract_lets +onlyGivenNames s₁
  have hs₁ : s₁.sized := setRecField_sized (setRecField_sized h)
  exact ite_sized (setRecField_sized (setRecField_sized hs₁)) hs₁

theorem State.dropEngines_sized {c} (hs : s.sized) : (s.dropEngines c).sized :=
  mapDies_sized hs

theorem State.activate_sized {c} (hs : s.sized) : (s.activate c).sized :=
  ite_sized hs (ite_sized (logError_sized hs) (onCtx_sized (dropEngines_sized (idleRecords_sized hs))))

theorem State.sendNotify_sized {c} (hs : s.sized) : (s.sendNotify c).sized :=
  onCtx_sized hs

theorem State.writeHead_sized {c v} (hs : s.sized) : (s.writeHead c v).sized :=
  ite_sized (onCtx_sized hs) (sendNotify_sized (onCtx_sized hs))

theorem State.writeRecord_sized {c q rec' held} (hs : s.sized) : (s.writeRecord c q rec' held).sized := by
  unfold State.writeRecord
  extract_lets +onlyGivenNames _ _ s₁ _ s₃
  have hs₁ : s₁.sized := ite_sized hs (getD_sized (physWrite_sized hs) hs)
  have hs₃ : s₃.sized := ite_sized (onCtx_sized hs₁) (sendNotify_sized (onCtx_sized hs₁))
  exact ite_sized hs₃ (ite_sized
    (ite_snd_sized hs₃ (armRecord_sized hs₃))
    (count_sized (onCtx_sized (ite_snd_sized hs₃ (armRecord_sized hs₃)))))

theorem State.numberRecord_sized {d c rec'} (hs : s.sized) : (s.numberRecord d c rec').1.sized := by
  unfold State.numberRecord
  refine ite_fst_sized hs ?_
  extract_lets _ _ _ _ _ _ _ _ _ s₃ _
  have hs₃ : s₃.sized := ite_sized (ite_sized (setEngine_sized (onCtx_sized hs)) (onCtx_sized hs)) (onCtx_sized hs)
  exact ite_sized (onTask_sized hs₃) hs₃

theorem State.dropEvent_sized {d c} (hs : s.sized) : (s.dropEvent d c).sized :=
  count_sized (onCtx_sized hs)

theorem execFaultPost_sized {d c} (hs : s.sized) : NextSized (execFaultPost d c s) := by
  unfold execFaultPost
  split
  · exact hs
  · extract_lets _ _ slot
    clear_value slot
    split
    rename_i formed _ e
    have hformed := fst_sized e (numberRecord_sized (onDie_sized hs))
    split
    · exact ite_sized (writeRecord_sized hformed) (ite_sized hs (count_sized (onDie_sized hformed)))
    · refine ite_sized (dropEvent_sized (onDie_sized hs)) (ite_sized (count_sized (onDie_sized hformed)) ?_)
      split
      · exact dropEvent_sized (onDie_sized hs)
      · exact hs

theorem execHeldRecordPost_sized {d c} (hs : s.sized) : NextSized (execHeldRecordPost d c s) := by
  unfold execHeldRecordPost
  split
  · exact writeRecord_sized (onDie_sized hs)
  · exact hs

theorem State.drainContext_sized {c kept} (hs : s.sized) : (s.drainContext c kept).sized :=
  foldl_sized (fun _ _ => drain_sized) hs

theorem State.startRemoval_sized {c} (hs : s.sized) : (s.startRemoval c).sized := by
  unfold State.startRemoval
  refine ite_sized hs ?_
  extract_lets _ s₂ _ _ _ _ s₃
  have hs₂ : s₂.sized := onCtx_sized (foldl_sized (fun _ _ => unreserve_sized) hs)
  have hs₃ : s₃.sized := State.Sizes.sized { hs₂.sizes with
    dies := (List.length_map _).trans hs₂.sizes.dies
    saved := fun x hx => hs₂.sizes.saved x (List.mem_of_mem_filter hx) }
  exact drainContext_sized (dropEngines_sized hs₃)

/-- The update that ends a context's removal. -/
theorem State.removed_sized {dies tiles tasks} (hs : s.sized) (hd : dies.length = 4) (ht : ∀ q ∈ tiles, q.2.sized) :
    State.sized { s with dies := dies, tiles := tiles, tasks := tasks } :=
  State.Sizes.sized { hs.sizes with dies := hd, tiles := ht }

theorem execRemovalComplete_sized {c} (hs : s.sized) : NextSized (execRemovalComplete c s) := by
  unfold execRemovalComplete
  refine ite_sized hs ?_
  extract_lets s₁ _ drop disown
  have hs₁ : s₁.sized := idleRecords_sized hs
  have hdisown : ∀ q : Nat × Tile, q.2.sized → (disown q).2.sized := fun _ hT => Tile.ite_sized hT hT
  have hd : (s₁.dies.map drop).length = 4 := (List.length_map drop).trans hs₁.sizes.dies
  have ht : ∀ q ∈ s₁.tiles.map disown, q.2.sized :=
    List.forall_mem_map.2 fun q hq => hdisown q (hs₁.sizes.tiles q hq)
  exact onCtx_sized (removed_sized hs₁ hd ht)

/-! ### Commands, save and restore -/

theorem State.newAllowance_sized {h e} (hs : s.sized) : (s.newAllowance h e).sized :=
  ite_sized hs (onTask_sized hs)

theorem State.resumeRegion_sized {r seq g texp} (hs : s.sized) : (s.resumeRegion r seq g texp).2.sized := by
  unfold State.resumeRegion
  split
  · exact hs
  · exact ite_snd_sized hs (reissueAll_sized (thaw_sized (ite_sized
      (onTile_sized (newAllowance_sized hs) (fun _ => Tile.advance_sized))
      (newAllowance_sized hs))))

theorem State.resumeEngine_sized {d e c} (hs : s.sized) : (s.resumeEngine d e c).sized := by
  unfold State.resumeEngine
  extract_lets +onlyGivenNames _ _
  split
  · exact setEngine_sized hs
  · refine ite_sized ?_ ?_
    · extract_lets +onlyGivenNames _
      split
      · exact setEngine_sized hs
      · split
        next e => exact stopEngine_sized (fst_sized e (entryStat_sized (setEngine_sized hs)))
        next e => exact fst_sized e (entryStat_sized (setEngine_sized hs))
    · split <;> exact setEngine_sized hs

theorem State.failEngine_sized {d e c} (hs : s.sized) : (s.failEngine d e c).sized := by
  unfold State.failEngine
  extract_lets +onlyGivenNames _ _
  split
  · exact setEngine_sized hs
  · split
    · exact setEngine_sized hs
    · extract_lets
      split
      next e => exact stopEngine_sized (fst_sized e (entryWord_sized (setEngine_sized hs)))
      next e =>
        have hs₁ := fst_sized e (entryWord_sized (setEngine_sized hs))
        split
        next e => exact stopEngine_sized (fst_sized e (chainStepPlaces_sized hs₁))
        next e =>
          have hs₂ := fst_sized e (chainStepPlaces_sized hs₁)
          split
          next e => exact stopEngine_sized (fst_sized e (entryStat_sized hs₂))
          next e => exact chainStep_sized (fst_sized e (entryStat_sized hs₂))

theorem State.recordCommand_sized {op c seq texp} (hs : s.sized) : (s.recordCommand op c seq texp).2.sized := by
  unfold State.recordCommand
  refine ite_snd_sized hs ?_
  split
  · split
    · exact resumeRegion_sized hs
    · exact ite_snd_sized hs (drain_sized hs)
    · exact drain_sized hs
    · exact hs
  · split
    · split
      · exact resumeEngine_sized hs
      · exact failEngine_sized hs
      · exact failEngine_sized hs
      · exact hs
    · split
      · exact ite_snd_sized (onLoader_sized hs) hs
      · split
        · split
          · exact complete_sized (failLaunch_sized hs)
          · exact requeue_sized (newAllowance_sized hs)
          · exact hs
        · exact hs

theorem State.stopWave_sized {r} (hs : s.sized) : (s.stopWave r).sized := by
  unfold State.stopWave
  split
  · exact hs
  · exact onRegion_sized (ite_sized (discardShadow_sized hs) hs)

theorem State.startPreempt_sized {c k} (hs : s.sized) : (s.startPreempt c k).sized := by
  unfold State.startPreempt
  extract_lets +onlyGivenNames _ _ _ s₂
  have hs₂ : s₂.sized := ite_sized (onCtx_sized hs) (onCtx_sized hs)
  split
  · exact foldl_sized (fun _ _ => drain_sized) hs₂
  · exact foldl_sized (fun _ _ => stopWave_sized) hs₂
  · exact hs₂

theorem State.goOn_sized {r} (hs : s.sized) : (s.goOn r).sized := by
  unfold State.goOn
  split
  · exact hs
  · exact applyMarks_sized (reissueAll_sized hs)

theorem State.startRestore_sized {c k} (hs : s.sized) : (s.startRestore c k).sized :=
  onCtx_sized (foldl_sized (fun _ _ => goOn_sized) hs)

theorem State.performCommand_sized {c k} (hs : s.sized) : (s.performCommand c k).sized := by
  unfold State.performCommand
  split
  · exact startPreempt_sized hs
  · exact startRestore_sized hs
  · extract_lets held
    clear_value held
    split
    rename_i _ s₁ e
    have hs₁ := snd_sized e (recordCommand_sized hs)
    split
    · exact ite_sized (onCtx_sized hs₁) (endCommand_sized hs₁)
    · exact endCommand_sized hs₁

theorem State.runCommands_sized {c n} (hs : s.sized) : (s.runCommands c n).sized := by
  induction n generalizing s with
  | zero => exact hs
  | succ n ih =>
    unfold State.runCommands
    split
    · exact hs
    · exact ite_sized hs (ih (performCommand_sized (onCtx_sized hs)))

theorem State.nextCommands_sized {c} (hs : s.sized) : (s.nextCommands c).sized :=
  runCommands_sized hs

theorem State.acceptCommand_sized {k} (hs : s.sized) : (s.acceptCommand k).sized :=
  ite_sized (endCommand_sized hs) (ite_sized (endCommand_sized hs) (nextCommands_sized (onCtx_sized hs)))

theorem execResume_sized {k} (hs : s.sized) : NextSized (execResume k s) :=
  ite_sized (whenReady_sized hs (fun _ => acceptCommand_sized)) hs

theorem execAbort_sized {k} (hs : s.sized) : NextSized (execAbort k s) :=
  ite_sized (whenReady_sized hs (fun _ => acceptCommand_sized)) hs

theorem execKill_sized {k} (hs : s.sized) : NextSized (execKill k s) :=
  ite_sized (whenReady_sized hs (fun _ => acceptCommand_sized)) hs

theorem execSkip_sized {k} (hs : s.sized) : NextSized (execSkip k s) :=
  ite_sized (whenReady_sized hs (fun _ => acceptCommand_sized)) hs

theorem execRetry_sized {k} (hs : s.sized) : NextSized (execRetry k s) :=
  ite_sized (whenReady_sized hs (fun _ => acceptCommand_sized)) hs

theorem execPreemptBoundary_sized {k} (hs : s.sized) : NextSized (execPreemptBoundary k s) :=
  ite_sized (whenReady_sized hs (fun _ => acceptCommand_sized)) hs

theorem execPreemptAbort_sized {k} (hs : s.sized) : NextSized (execPreemptAbort k s) :=
  ite_sized (whenReady_sized hs (fun _ => acceptCommand_sized)) hs

theorem execPreemptFreezeSave_sized {k} (hs : s.sized) : NextSized (execPreemptFreezeSave k s) :=
  ite_sized (whenReady_sized hs (fun _ => acceptCommand_sized)) hs

theorem execResumectx_sized {k} (hs : s.sized) : NextSized (execResumectx k s) :=
  ite_sized (whenReady_sized hs (fun _ => acceptCommand_sized)) hs

theorem State.tileImage_sized {scr} (hs : s.sized) : (s.tileImage scr T).2.sized := by
  unfold State.tileImage
  extract_lets +onlyGivenNames own
  have hown : ∀ n some' s, s.sized → ((own n some' s).2).sized := fun _ _ _ h => ite_snd_sized h h
  exact hown _ _ _ (hown _ _ _ (hown _ _ _ (hown _ _ _ hs)))

theorem State.tileImages_sized {scr ts} (hs : s.sized) : (s.tileImages scr ts).2.sized := by
  induction ts generalizing s with
  | nil => exact hs
  | cons T ts ih =>
    unfold State.tileImages
    split
    rename_i _ s₁ e
    have hs₁ := snd_sized e (tileImage_sized hs)
    split
    rename_i _ s₂ e
    exact snd_sized e (ih hs₁)

theorem State.writeArea_sized {g base} (hs : s.sized) : (s.writeArea g base).sized :=
  tileImages_sized hs

theorem State.scrubRegion_sized {r g} (hs : s.sized) : (s.scrubRegion r g).sized := by
  unfold State.scrubRegion
  refine foldl_sized (fun _ _ h => ?_) hs
  split
  · exact h
  · exact onRegion_sized (onTile_sized h (fun _ h₁ => h₁))

theorem State.takeBack_sized {g} (hs : s.sized) : (s.takeBack g).sized :=
  foldl_sized (fun _ _ h => onTile_sized h (fun _ h₁ => h₁)) hs

theorem State.settleTile_sized (hT : T.sized) : (State.settleTile T).sized := by
  unfold State.settleTile
  refine Tile.foldl_sized (fun _ _ h => ?_) hT
  split
  · exact Tile.writeResult_sized h
  · exact h

theorem State.filterSaved_sized {p} (hs : s.sized) : State.sized { s with saved := s.saved.filter p } :=
  State.Sizes.sized { hs.sizes with saved := fun x hx => hs.sizes.saved x (List.mem_of_mem_filter hx) }

theorem State.appendSaved_sized {x : Saved} (hs : s.sized) (hx : x.sized) : State.sized { s with saved := s.saved ++ [x] } :=
  State.Sizes.sized { hs.sizes with saved := List.forall_mem_append.2 ⟨hs.sizes.saved, List.forall_mem_singleton.2 hx⟩ }

theorem State.savedTile_sized (hT : T.sized) : (s.savedTile T).sized :=
  hT

theorem State.saveRegion_sized {r g₀ base} (hs : s.sized) : (s.saveRegion r g₀ base).sized := by
  unfold State.saveRegion
  extract_lets s₁ g _ _ _ _ x s₂
  have hs₁ : s₁.sized := foldl_sized (fun _ _ h => onTile_sized h fun _ => settleTile_sized) (takeBack_sized
    (scrubRegion_sized hs))
  have hx : x.sized := List.forall_mem_map.2 fun _ _ => savedTile_sized (tile_sized hs₁)
  have hs₂ : s₂.sized := ite_sized hs₁ (writeArea_sized hs₁)
  exact unqueue_sized (onTask_sized (releaseRegion_sized (appendSaved_sized hs₂ hx)))

theorem State.forgetSaved_sized {c} (hs : s.sized) : (s.forgetSaved c).sized :=
  filterSaved_sized (foldl_sized (fun _ _ => unreserve_sized) hs)

theorem execSaveComplete_sized {r} (hs : s.sized) : NextSized (execSaveComplete r s) := by
  unfold execSaveComplete
  split
  · exact hs
  · refine ite_sized hs (ite_sized (saveRegion_sized hs) ?_)
    extract_lets +onlyGivenNames _
    split
    · exact hs
    · extract_lets _ _ _ s₁ s₂
      have hs₁ : s₁.sized := saveRegion_sized hs
      have hs₂ : s₂.sized := ite_sized (forgetSaved_sized hs₁) hs₁
      clear_value s₂
      exact ite_sized hs (onCtx_sized hs₂)

theorem execPreemptEnd_sized {c} (hs : s.sized) : NextSized (execPreemptEnd c s) := by
  unfold execPreemptEnd
  split
  · exact nextCommands_sized hs
  · extract_lets +onlyGivenNames _ finish
    have hfinish : ∀ s st, s.sized → (finish s st).sized := by
      unfold finish
      intro _ _ h
      extract_lets +onlyGivenNames s₁
      have hs₁ : s₁.sized := endCommand_sized (onCtx_sized h)
      exact ite_sized (drainContext_sized hs₁) (nextCommands_sized hs₁)
    exact ite_sized (ite_sized hs (hfinish _ _ hs)) (ite_sized (hfinish _ _ hs) hs)

theorem State.restoredTile_sized {r g t move} (hT : T.sized) : (s.restoredTile r g t move T).sized :=
  hT

theorem Tile.getD_sized {ts : List Tile} {i} (hts : ∀ T ∈ ts, T.sized) : (ts.getD i Tile.reset).sized := by
  rcases lt_or_ge i ts.length with h | h
  · rw [List.getD_eq_getElem _ _ h]
    exact hts _ (List.getElem_mem h)
  · rw [List.getD_eq_default _ _ h]
    exact Tile.reset_sized

theorem State.restoreRegion_sized {x : Saved} {d ox oy} (hs : s.sized) (hx : x.sized) : (s.restoreRegion x d ox oy).sized := by
  unfold State.restoreRegion
  extract_lets _ _ _ _ s₁ s₂ _ _ _ s₃ s₄ _ s₅ _ s₆
  have hs₁ : s₁.sized := foldl_sized (fun _ _ h => setTile_sized h (restoredTile_sized (Tile.getD_sized hx))) hs
  have hs₃ : s₃.sized := filterSaved_sized (setRegion_sized hs₁)
  have hs₄ : s₄.sized := onTask_sized (dropReserve_sized hs₃)
  have hs₆ : s₆.sized := onDie_sized hs₄
  exact applyMarks_sized (reissueAll_sized hs₆)

theorem State.savedAt_sized {c base} (hs : s.sized) : ∀ q ∈ s.savedAt c base, q.sized := by
  unfold State.savedAt
  split
  · rintro _ ⟨⟩
  next x ex =>
    have hx : x.sized := hs.sizes.saved x (List.mem_of_find?_eq_some ex)
    split
    · exact forall_mem_some hx
    · rintro _ ⟨⟩

theorem execRegionRestore_sized {c} (hs : s.sized) : NextSized (execRegionRestore c s) := by
  unfold execRegionRestore
  split
  next x ex =>
    have hx : x.sized := hs.sizes.saved x (List.mem_of_find?_eq_some ex)
    split
    · exact restoreRegion_sized hs hx
    · exact hs
  · split
    · exact hs
    · split
      · exact nextCommands_sized (endCommand_sized (onCtx_sized hs))
      · extract_lets +onlyGivenNames next
        have hnext : ∀ s bad, s.sized → (next s bad).sized := fun _ _ => onCtx_sized
        split
        · exact hnext _ _ hs
        next ex =>
          have hx := savedAt_sized hs _ ex
          split
          · exact hnext _ _ (restoreRegion_sized hs hx)
          · exact reserveRestore_sized hs

/-! ### Boot and reset -/

theorem State.wipedTile_sized : (State.wipedTile T).sized :=
  Tile.reset_sized

theorem Fleet.reset_sized : Fleet.reset.sized := by
  simp [Fleet.sized, Fleet.reset]

theorem Fleet.map_lst_sized {F : Fleet} {f} (hF : F.sized) :
    Fleet.sized { F with lst := F.lst.map f, rx := [], tx := [], used := [] } := by
  obtain ⟨hl, hn, hr, hm⟩ := hF
  exact ⟨(List.length_map f).trans hl, hn, hr, hm⟩

theorem State.reset_ctxs_length : State.reset.ctxs.length = 4 :=
  rfl

theorem State.wipe_sized (hs : s.sized) : s.wipe.sized := by
  obtain ⟨-, hd, hf, -, -⟩ := hs.sizes
  unfold State.wipe
  refine State.Sizes.sized ⟨reset_ctxs_length, (List.length_map _).trans hd, Fleet.map_lst_sized hf, ?_, ?_⟩
  · exact List.forall_mem_map.2 fun _ _ => wipedTile_sized
  · rintro _ ⟨⟩

theorem State.enterRecovery_sized {berr} (hs : s.sized) : (s.enterRecovery berr).sized :=
  wipe_sized hs

theorem State.exclude_sized {dies reason} (hs : s.sized) : (s.exclude dies reason).sized :=
  foldl_sized (fun _ _ => onDie_sized) hs

theorem State.romStage_sized {failed} (hs : s.sized) : (s.romStage failed).sized :=
  ite_sized (enterRecovery_sized (exclude_sized hs)) (exclude_sized hs)

theorem State.goNow_sized (hs : s.sized) : s.goNow.sized := by
  unfold State.goNow
  refine ite_sized hs ?_
  extract_lets s₁ fresh
  have hs₁ : s₁.sized := ite_sized (romStage_sized hs) hs
  clear_value s₁
  exact ite_sized hs₁ (mapDies_sized (f := fresh) hs₁)

theorem State.resetTo_sized {failed} (hs : s.sized) : (s.resetTo failed).sized := by
  unfold State.resetTo
  extract_lets s₁ _ die _
  have hs₁ : s₁.sized := wipe_sized hs
  clear_value s₁
  obtain ⟨hc, hd, -, -, hx⟩ := hs₁.sizes
  refine romStage_sized (State.Sizes.sized ⟨hc, (List.length_map die).trans hd, Fleet.reset_sized, ?_, hx⟩)
  rintro _ ⟨⟩

theorem State.resetNow_sized (hs : s.sized) : s.resetNow.sized :=
  resetTo_sized hs

theorem State.compareCopies_sized {copies} (hs : s.sized) : (s.compareCopies copies).sized :=
  ite_sized hs (ite_sized (enterRecovery_sized hs) (foldl_sized (fun _ _ => onDie_sized) hs))

theorem execCheckComplete_sized (hs : s.sized) : NextSized (execCheckComplete s) := by
  unfold execCheckComplete
  refine ite_sized hs ?_
  extract_lets +onlyGivenNames _
  split
  · exact enterRecovery_sized hs
  · exact compareCopies_sized hs

theorem execInitComplete_sized {failed parts} (hs : s.sized) : NextSized (execInitComplete failed parts s) := by
  unfold execInitComplete
  refine ite_sized hs ?_
  extract_lets _ s₂ _ s₄ s₅ _ _ _ _
  have hs₂ : s₂.sized := foldl_sized (fun _ _ => markChannel_sized) (foldl_sized (fun _ _ => markTile_sized) hs)
  have hs₄ : s₄.sized := exclude_sized (exclude_sized hs₂)
  have hs₅ : s₅.sized := ite_sized hs₄ (replacePart_sized hs₄)
  refine ite_sized (enterRecovery_sized hs₅) (State.Sizes.sized ?_)
  exact { hs₅.sizes with ctxs := rfl, dies := (List.length_map _).trans hs₅.sizes.dies }

theorem execWatchdogExpiry_sized {d} (hs : s.sized) : NextSized (execWatchdogExpiry d s) :=
  ite_sized (enterRecovery_sized hs) hs

theorem State.attestNow_sized {op} (hs : s.sized) : (s.attestNow op).sized :=
  ite_sized hs hs

theorem execAttestResponse_sized {ok} (hs : s.sized) : NextSized (execAttestResponse ok s) :=
  ite_sized hs (ite_sized hs hs)

/-! ### Integer operations -/

theorem State.intCodes_sized {f n g} (hs : s.sized) : (s.intCodes f n g).sized :=
  alu_sized hs fun _ _ => Tile.writeElems_sized

theorem State.intOp_sized {f n t} (hs : s.sized) : (s.intOp f n t).sized :=
  intCodes_sized hs

theorem State.intImm_sized {f t} (hs : s.sized) : (s.intImm f t).sized :=
  aluI_sized hs fun _ _ => Tile.writeElems_sized

/-! ### Lane operations -/

theorem execExpand_sized {f} (hs : s.sized) : NextSized (execExpand f s) :=
  alu_sized hs fun _ _ h => Tile.writeV_sized h

/-! ### Matrix instructions -/

theorem matrixOp_sized {f i srcs dest ops} (hs : s.sized) : NextSized (matrixOp s f i srcs dest ops) := by
  unfold matrixOp
  exact issue_sized hs fun _ h => ite_sized h (advance_sized (onMe_sized h (fun _ h₁ => Tile.ite_sized
    (Tile.issueOp_sized h₁) h₁)))

/-! ### Stream units -/

theorem Tile.onUnit_sized {u f} (hT : T.sized) : (T.onUnit u f).sized :=
  hT

theorem Tile.passStop_sized {ctx u k drop lone} (hT : T.sized) : (T.passStop ctx u k drop lone).sized := by
  unfold Tile.passStop
  refine Tile.ite_sized (Tile.sendStop_sized hT) (Tile.ite_sized hT ?_)
  extract_lets +onlyGivenNames T₁
  have hT₁ : T₁.sized := by
    unfold T₁
    split
    · exact Tile.ite_sized (Tile.sendStop_sized hT) hT
    · exact hT
  exact hT₁

theorem Tile.releaseStop_sized {ctx u} (hT : T.sized) : (T.releaseStop ctx u).sized := by
  unfold Tile.releaseStop
  split
  · exact Tile.sendStop_sized hT
  · exact hT

theorem Tile.drainUnit_sized {ctx now u} (hT : T.sized) : (T.drainUnit ctx now u).sized := by
  unfold Tile.drainUnit
  extract_lets +onlyGivenNames _ T₁
  have hT₁ : T₁.sized := by
    unfold T₁
    refine Tile.ite_sized (Tile.sendStop_sized hT) ?_
    refine Tile.ite_sized (Tile.sendStop_sized hT) (Tile.ite_sized ?_ (Tile.ite_sized (Tile.releaseStop_sized hT) hT))
    split
    · exact Tile.sendToken_sized hT
    · exact hT
  exact hT₁

theorem State.endUnit_sized {t u ctx kind tag} (hs : s.sized) : (s.endUnit t u ctx kind tag).sized :=
  endStream_sized (onTile_sized hs (fun _ h => Tile.sendEnd_sized (Tile.drainUnit_sized h)))

theorem State.takeAll_sized {t cs} (hs : s.sized) : (s.takeAll t cs).sized := by
  unfold State.takeAll
  extract_lets +onlyGivenNames _ _ s₁
  have hs₁ : s₁.sized := onTile_sized hs fun _ => Tile.foldl_sized (fun _ _ => Tile.takeToken_sized)
  exact ite_sized (count_sized hs₁) hs₁

theorem execRootSourceStart_sized {t u} (hs : s.sized) : NextSized (execRootSourceStart t u s) :=
  unitStep_sized hs fun _ _ _ h => ite_sized (onTile_sized h (fun _ h₁ => h₁)) h

theorem scanEmit_sized {ctx now u crd ref v} (hT : T.sized) : (scanEmit T ctx now u crd ref v).sized := by
  unfold scanEmit
  extract_lets +onlyGivenNames T₁
  have hT₁ : T₁.sized := Tile.sendToken_sized (Tile.sendToken_sized hT)
  split
  · exact Tile.sendToken_sized hT₁
  · exact hT₁

theorem openFibre_sized {r p u ref} {k : ℕ × ℕ × ℕ → State → State} (hs : s.sized) (hk : ∀ a s, s.sized → (k a s).sized) :
    (openFibre s r p T u ref k).sized := by
  unfold openFibre
  extract_lets +onlyGivenNames _ _
  split
  · exact hk _ _ hs
  · exact ite_sized (hk _ _ hs) (reading_sized hs (fun _ _ h => reading_sized h (fun _ _ => hk _ _)))
  · exact hk _ _ hs
  · exact reading_sized hs fun _ _ => hk _ _

theorem scanStep_sized {r g p t u} (hs : s.sized) : (scanStep s r g p t u).sized := by
  unfold scanStep
  extract_lets +onlyGivenNames _ _ _ _ _ _ emit
  have hemit : ∀ crd rf pos s, s.sized → (emit crd rf pos s).sized :=
    fun _ _ _ _ h => onTile_sized h fun _ hT => Tile.onUnit_sized (scanEmit_sized hT)
  refine ite_sized (onTile_sized hs (fun _ h => h)) ?_
  split
  · exact hemit _ _ _ _ hs
  · refine ite_sized (reading_sized hs (fun _ _ => hemit _ _ _ _)) ?_
    extract_lets +onlyGivenNames _ _ _ _ go
    have hgo : ∀ w s, s.sized → (go w s).sized := by
      unfold go
      intro _ _ h
      extract_lets +onlyGivenNames _
      split
      · exact onTile_sized h fun _ h₁ => h₁
      · exact hemit _ _ _ _ h
    refine ite_sized (reading_sized hs (fun _ _ h => ?_)) (hgo _ _ hs)
    split
    · exact raise_sized h
    · exact hgo _ _ (onTile_sized h (fun _ h₁ => h₁))
  · refine ite_sized ?_ ?_
    · split
      · exact onTile_sized hs fun _ h => h
      · exact hemit _ _ _ _ hs
    · exact ite_sized (onTile_sized hs (fun _ h => h)) (ite_sized hs (reading_sized hs (fun _ _ h =>
        reading_sized h (fun _ _ h₁ => ite_sized (raise_sized h₁) (onTile_sized h₁ (fun _ h₂ => h₂))))))
  · exact reading_sized hs fun _ _ h => ite_sized (onTile_sized h (fun _ h₁ => h₁)) (hemit _ _ _ _ h)
  · exact hs

theorem openScanTree_sized {g p u} (hs : s.sized) : (openScanTree s g p T u).1.sized := by
  unfold openScanTree
  extract_lets +onlyGivenNames _ _
  split
  next e => exact fst_sized e (openAt_sized hs)
  next e =>
    have hs₁ := fst_sized e (openAt_sized hs)
    exact ite_fst_sized hs₁ hs₁

theorem scanOpen_sized {r g p t u ref take} (hs : s.sized) : (scanOpen s r g p t u ref take).sized := by
  unfold scanOpen
  extract_lets +onlyGivenNames done
  have hdone : ∀ o s, s.sized → (done o s).sized := by
    unfold done
    intro _ _ h
    extract_lets +onlyGivenNames s₁
    have hs₁ : s₁.sized := onTile_sized h fun _ h₁ => Tile.ite_sized (Tile.sendStop_sized h₁) h₁
    exact ite_sized (take_sized hs₁) hs₁
  refine ite_sized ?_ (openFibre_sized hs hdone)
  split
  next e => exact raise_sized (fst_sized e (openScanTree_sized hs))
  next e => exact hdone _ _ (fst_sized e (openScanTree_sized hs))

theorem execScannerRef_sized {t u} (hs : s.sized) : NextSized (execScannerRef t u s) := by
  unfold execScannerRef
  refine ite_nextSized (unitStep_sized hs (fun _ _ _ h => ?_)) hs
  refine ite_sized h (ite_sized (ite_sized h (scanStep_sized h)) (ite_sized (ite_sized (scanOpen_sized h) h) ?_))
  split
  · exact ite_sized (scanOpen_sized h) h
  · exact h

theorem execScnTSeek_sized {t u} (hs : s.sized) : NextSized (execScnTSeek t u s) := by
  unfold execScnTSeek
  refine ite_nextSized (unitStep_sized hs (fun _ _ _ h => ?_)) hs
  refine ite_sized h ?_
  split
  · exact h
  · split
    next e => exact raise_sized (fst_sized e (openScanTree_sized h))
    next e =>
      have hs₁ := fst_sized e (openScanTree_sized h)
      refine ite_sized (raise_sized hs₁) ?_
      extract_lets +onlyGivenNames _
      split
      · exact onTile_sized (touch_sized hs₁) fun _ h₁ => h₁
      · exact ite_sized
          (onTile_sized (touch_sized hs₁) (fun _ h₁ => h₁))
          (ite_sized (raise_sized (touch_sized hs₁)) (onTile_sized (touch_sized hs₁) (fun _ => scanEmit_sized)))

theorem execScannerStop_sized {t u} (hs : s.sized) : NextSized (execScannerStop t u s) := by
  unfold execScannerStop
  refine ite_nextSized (unitStep_sized hs (fun _ _ _ h => ?_)) hs
  extract_lets +onlyGivenNames _
  split
  · refine ite_sized h ?_
    extract_lets +onlyGivenNames s₁
    have hs₁ : s₁.sized := onTile_sized h fun _ h₁ => Tile.takeToken_sized (Tile.sendStop_sized h₁)
    exact ite_sized (count_sized hs₁) hs₁
  · exact h

theorem scanEnd_sized {g t u} (hs : s.sized) : (scanEnd s g t u).sized := by
  unfold scanEnd
  refine ite_sized hs (ite_sized (ite_sized (endUnit_sized hs) hs) ?_)
  split
  · exact ite_sized (endUnit_sized (takeAll_sized hs)) hs
  · exact hs

theorem execScannerDone_sized {t u} (hs : s.sized) : NextSized (execScannerDone t u s) :=
  ite_nextSized (unitStep_sized hs (fun _ _ _ => scanEnd_sized)) hs

theorem gallop_sized {below : ℕ → State → State × Except Flt Bool} {fin' n lo step} (hs : s.sized)
    (hbelow : ∀ a s, s.sized → (below a s).1.sized) : (gallop s below fin' n lo step).1.sized := by
  induction n generalizing s lo step with
  | zero => exact hs
  | succ n ih =>
    unfold gallop
    refine ite_fst_sized ?_ hs
    split
    next e => exact fst_sized e (hbelow _ _ hs)
    next e => exact ih (fst_sized e (hbelow _ _ hs))
    next e => exact fst_sized e (hbelow _ _ hs)

theorem bisect_sized {below : ℕ → State → State × Except Flt Bool} {n lo hi} (hs : s.sized)
    (hbelow : ∀ a s, s.sized → (below a s).1.sized) : (bisect s below n lo hi).1.sized := by
  induction n generalizing s lo hi with
  | zero => exact hs
  | succ n ih =>
    unfold bisect
    refine ite_fst_sized ?_ hs
    split
    next e => exact fst_sized e (hbelow _ _ hs)
    next e =>
      have hs₁ := fst_sized e (hbelow _ _ hs)
      exact ite_fst_sized (ih hs₁) (ih hs₁)

theorem nextEntry_sized {read : ℕ → State → State × Except Flt ℕ} {floor lim n i} (hread : ∀ a s, s.sized → (read a s).1.sized)
    (hs : s.sized) : (nextEntry read floor lim n i s).1.sized := by
  induction n generalizing s i with
  | zero => exact hs
  | succ n ih =>
    unfold nextEntry
    refine ite_fst_sized hs ?_
    split
    next e => exact fst_sized e (hread _ _ hs)
    next e =>
      have hs₁ := fst_sized e (hread _ _ hs)
      exact ite_fst_sized (ih hs₁) hs₁

theorem execScannerSkip_sized {t u} (hs : s.sized) : NextSized (execScannerSkip t u s) := by
  unfold execScannerSkip
  refine ite_nextSized (unitStep_sized hs (fun _ _ _ h => ?_)) hs
  extract_lets +onlyGivenNames _ _ _
  split
  · exact h
  · extract_lets +onlyGivenNames _ pop moveTo
    have hpop : ∀ s, s.sized → (pop s).sized := fun _ h₁ => onTile_sized h₁ fun _ h₂ => h₂
    have hmoveTo : ∀ pos s, s.sized → (moveTo pos s).sized := fun _ _ h₁ => hpop _ (onTile_sized h₁ (fun _ h₂ => h₂))
    refine ite_sized (count_sized (hpop _ h)) ?_
    split
    · refine ite_sized (hmoveTo _ _ h) (ite_sized (hpop _ h) ?_)
      extract_lets +onlyGivenNames below
      have hbelow : ∀ i s, s.sized → ((below i s).1).sized := by
        unfold below
        intro _ _ h₁
        split
        next e => exact fst_sized e (unitRead_sized h₁)
        next e => exact fst_sized e (unitRead_sized h₁)
      split
      next e => exact raise_sized (fst_sized e (hbelow _ _ h))
      next e => exact hpop _ (fst_sized e (hbelow _ _ h))
      next e =>
        have hs₁ := fst_sized e (hbelow _ _ h)
        split
        next e => exact raise_sized (fst_sized e (gallop_sized hs₁ hbelow))
        next e =>
          have hs₂ := fst_sized e (gallop_sized hs₁ hbelow)
          split
          next e => exact raise_sized (fst_sized e (bisect_sized hs₂ hbelow))
          next e => exact hmoveTo _ _ (fst_sized e (bisect_sized hs₂ hbelow))
    · extract_lets +onlyGivenNames read
      have hread : ∀ i s, s.sized → ((read i s).1).sized := fun _ _ => unitRead_sized
      split
      next e => exact raise_sized (fst_sized e (nextEntry_sized hread h))
      next e =>
        have hs₁ := fst_sized e (nextEntry_sized hread h)
        exact ite_sized (hpop _ hs₁) (hmoveTo _ _ hs₁)
      next e => exact hmoveTo _ _ (fst_sized e (nextEntry_sized hread h))
    · split
      next e => exact raise_sized (fst_sized e (openScanTree_sized h))
      next e => exact hmoveTo _ _ (fst_sized e (openScanTree_sized h))
    · exact hmoveTo _ _ h

theorem popSide_sized {t n k} (hs : s.sized) : (popSide s t n k).sized :=
  onTile_sized (take_sized (take_sized hs)) fun _ h => h

theorem mergeEmit_sized {ctx now c x y} (hT : T.sized) : (mergeEmit T ctx now c x y).sized := by
  unfold mergeEmit
  extract_lets T₁ T₂
  have hT₁ : T₁.sized := Tile.releaseStop_sized hT
  have hT₂ : T₂.sized := Tile.sendToken_sized (Tile.sendToken_sized (Tile.sendToken_sized hT₁))
  exact Tile.onUnit_sized hT₂

theorem mergeStop_sized {ctx k} (hT : T.sized) : (mergeStop T ctx k).sized :=
  Tile.passStop_sized hT

theorem mergeSkip_sized {g t n c} (hs : s.sized) : (mergeSkip s g t n c).sized :=
  ite_sized (count_sized (onTile_sized hs (fun _ h => h))) hs

theorem mergeStep_sized {g t union} (hs : s.sized) : (mergeStep s g t union).sized := by
  unfold mergeStep
  split
  · extract_lets +onlyGivenNames s₁ emit stop _
    have hs₁ : s₁.sized := onTile_sized hs fun _ h => h
    have hemit : ∀ s c x y, s.sized → (emit s c x y).sized := fun _ _ _ _ h => onTile_sized h fun _ => mergeEmit_sized
    have hstop : ∀ s k, s.sized → (stop s k).sized := fun _ _ h => onTile_sized h fun _ => mergeStop_sized
    exact ite_sized hs₁ (ite_sized
      (ite_sized
        (popSide_sized (popSide_sized (hemit _ _ _ _ hs₁)))
        (popSide_sized (ite_sized (ite_sized (hemit _ _ _ _ hs₁) (hemit _ _ _ _ hs₁)) (mergeSkip_sized hs₁))))
      (ite_sized
        (popSide_sized (popSide_sized (hstop _ _ (ite_sized hs₁ (count_sized hs₁)))))
        (ite_sized
          (popSide_sized (ite_sized (hemit _ _ _ _ hs₁) hs₁))
          (ite_sized
            (popSide_sized (ite_sized (hemit _ _ _ _ hs₁) hs₁))
            (ite_sized
              (popSide_sized (ite_sized (hstop _ _ (count_sized hs₁)) (count_sized hs₁)))
              (ite_sized (endUnit_sized (takeAll_sized hs₁)) (popSide_sized hs₁)))))))
  · exact hs

theorem execMrgI_sized {t} (hs : s.sized) : NextSized (execMrgI t s) :=
  unitStep_sized hs fun _ _ _ h => ite_sized (mergeStep_sized h) h

theorem execMrgU_sized {t} (hs : s.sized) : NextSized (execMrgU t s) :=
  unitStep_sized hs fun _ _ _ h => ite_sized (mergeStep_sized h) h

theorem execRptCrd_sized {t} (hs : s.sized) : NextSized (execRptCrd t s) := by
  unfold execRptCrd
  refine unitStep_sized hs fun _ _ _ h => ?_
  extract_lets +onlyGivenNames _
  split
  · refine ite_sized ?_ h
    extract_lets +onlyGivenNames held
    clear_value held
    split
    · exact h
    · exact take_sized (onTile_sized (ite_sized (take_sized h) h) (fun _ h₁ =>
        Tile.ite_sized (Tile.flushOut_sized (Tile.sendToken_sized h₁)) (Tile.sendToken_sized h₁)))
  · exact h

theorem execRptStop_sized {t} (hs : s.sized) : NextSized (execRptStop t s) := by
  unfold execRptStop
  refine unitStep_sized hs fun _ _ _ h => ?_
  extract_lets +onlyGivenNames _ _
  split
  · refine ite_sized ?_ ?_
    · extract_lets +onlyGivenNames mark
      have hmark : ∀ s, s.sized → (mark s).sized := fun _ h₁ => onTile_sized h₁ fun _ h₂ => h₂
      refine ite_sized (hmark _ h) ?_
      split
      · exact ite_sized (hmark _ (take_sized h)) h
      · exact h
    · extract_lets +onlyGivenNames out
      have hout : ∀ s, s.sized → (out s).sized := fun _ h₁ => onTile_sized h₁ fun _ h₂ => Tile.takeToken_sized
        (Tile.sendStop_sized h₂)
      refine ite_sized (hout _ h) ?_
      split
      · exact ite_sized (hout _ (onTile_sized h (fun _ => Tile.takeToken_sized))) h
      · exact h
  · exact h

theorem rptEnd_sized {g t} (hs : s.sized) : (rptEnd s g t).sized := by
  unfold rptEnd
  extract_lets +onlyGivenNames _
  split
  · exact ite_sized hs (ite_sized (endUnit_sized (takeAll_sized hs)) (ite_sized hs (ite_sized (count_sized (take_sized hs))
    (ite_sized
      (onTile_sized hs (fun _ => Tile.takeToken_sized))
      hs))))
  · exact hs

theorem execRdcVal_sized {t} (hs : s.sized) : NextSized (execRdcVal t s) := by
  unfold execRdcVal
  refine unitStep_sized hs fun _ _ _ h => ?_
  extract_lets +onlyGivenNames _
  split
  · refine ite_sized ?_ h
    extract_lets +onlyGivenNames _ s₁
    have hs₁ : s₁.sized := onTile_sized h fun _ h₁ => h₁
    exact ite_sized hs₁ (count_sized hs₁)
  · exact h

theorem execRdcStop_sized {t} (hs : s.sized) : NextSized (execRdcStop t s) := by
  unfold execRdcStop
  refine unitStep_sized hs fun _ _ _ h => ?_
  split
  · refine onTile_sized h fun _ h₁ => ?_
    extract_lets +onlyGivenNames _ v T₁ _
    have hT₁ : T₁.sized := by
      unfold T₁
      clear_value v
      split
      · exact Tile.sendToken_sized h₁
      · exact h₁
    exact Tile.takeToken_sized (Tile.ite_sized hT₁ (Tile.sendStop_sized hT₁))
  · exact h

theorem rdcEnd_sized {g t} (hs : s.sized) : (rdcEnd s g t).sized := by
  unfold rdcEnd
  split
  · exact ite_sized (endUnit_sized (takeAll_sized hs)) hs
  · exact hs

/-! ### Writers and generators -/

theorem lwrTake_sized {t w} (hs : s.sized) : (lwrTake s t w).sized :=
  ite_sized (take_sized (take_sized hs)) (take_sized hs)

theorem lwrPass_sized {g t w c keep} (hs : s.sized) : (lwrPass s g t w c keep).sized := by
  unfold lwrPass
  extract_lets +onlyGivenNames _ s₁
  have hs₁ : s₁.sized := by
    unfold s₁
    refine onTile_sized hs fun _ h => ?_
    extract_lets +onlyGivenNames T₁ _
    have hT₁ : T₁.sized := Tile.ite_sized (Tile.sendToken_sized (Tile.releaseStop_sized h)) h
    exact Tile.ite_sized (Tile.flushOut_sized hT₁) hT₁
  exact lwrTake_sized hs₁

theorem execLwrEntry_sized {t} (hs : s.sized) : NextSized (execLwrEntry t s) := by
  unfold execLwrEntry
  refine unitStep_sized hs fun _ _ _ h => ?_
  extract_lets +onlyGivenNames _ _ _ _
  split
  · exact h
  · refine ite_sized h ?_
    extract_lets +onlyGivenNames _
    split
    · exact ite_sized (count_sized (lwrPass_sized h)) (taskStores_sized h (fun _ h₁ => lwrPass_sized (onTile_sized h₁
      (fun _ h₂ => h₂))))
    · exact ite_sized
        (taskStores_sized h (fun _ => lwrPass_sized))
        (taskStores_sized h (fun _ h₁ => lwrPass_sized (onTile_sized h₁ (fun _ h₂ => h₂))))
    · exact ite_sized (count_sized (lwrPass_sized h)) (lwrPass_sized (onTile_sized h (fun _ h₁ => h₁)))

theorem lwrClose_sized {r g t w k} (hs : s.sized) : (lwrClose s r g t w k).sized := by
  unfold lwrClose
  exact taskStores_sized hs fun _ h => lwrTake_sized (onTile_sized h (fun _ h₁ => Tile.passStop_sized (Tile.flushOut_sized h₁)))

theorem execLwrStop_sized {t} (hs : s.sized) : NextSized (execLwrStop t s) := by
  unfold execLwrStop
  refine unitStep_sized hs fun _ _ _ h => ?_
  extract_lets +onlyGivenNames _ _ _
  split
  · refine ite_sized (lwrClose_sized h) (ite_sized ?_ (ite_sized (lwrClose_sized h) ?_))
    · extract_lets +onlyGivenNames mark
      have hmark : ∀ s, s.sized → (mark s).sized := fun _ h₁ => onTile_sized h₁ fun _ h₂ => h₂
      refine ite_sized (hmark _ h) ?_
      split
      · exact ite_sized (hmark _ (take_sized h)) h
      · exact h
    · split
      · exact ite_sized (lwrClose_sized (onTile_sized h (fun _ => Tile.takeToken_sized))) h
      · exact h
  · exact h

theorem lwrEnd_sized {r g t} (hs : s.sized) : (lwrEnd s r g t).sized := by
  unfold lwrEnd
  extract_lets +onlyGivenNames _ _
  split
  · exact ite_sized hs (ite_sized hs (taskStores_sized hs (fun _ h => endUnit_sized (takeAll_sized h))))
  · exact hs

theorem execLwrTStore_sized {t} (hs : s.sized) : NextSized (execLwrTStore t s) := by
  unfold execLwrTStore
  refine unitStep_sized hs fun _ _ _ h => ?_
  extract_lets +onlyGivenNames _ _ _
  split
  · exact h
  · refine ite_sized h ?_
    extract_lets +onlyGivenNames pre
    have hpre : ∀ q ∈ pre, q.2.sized := by
      unfold pre
      split
      · exact forall_mem_some h
      · split
        · split
          · exact forall_mem_some (onTile_sized (take_sized h) (fun _ h₁ => h₁))
          · rintro _ ⟨⟩
        · rintro _ ⟨⟩
    clear_value pre
    split
    · exact h
    · have hs₁ := hpre _ rfl
      extract_lets +onlyGivenNames _
      split
      next e => exact raise_sized (fst_sized e (openAt_sized hs₁))
      next e =>
        have hs₂ := fst_sized e (openAt_sized hs₁)
        exact ite_sized (raise_sized hs₂) (ite_sized (raise_sized hs₂) (holdKeys_sized hs₂ (fun _ => lwrPass_sized)))

theorem agControl_sized {g t p k x st up} (hs : s.sized) : (agControl s g t p k x st up).sized := by
  unfold agControl
  refine ite_sized ?_ (ite_sized (endUnit_sized (takeAll_sized hs)) hs)
  extract_lets +onlyGivenNames s₁
  have hs₁ : s₁.sized := onTile_sized hs fun _ h => Tile.takeToken_sized (Tile.ite_sized (Tile.sendStop_sized h) h)
  exact ite_sized (count_sized hs₁) hs₁

theorem agOpen_sized {g t p ref stop take} (hs : s.sized) : (agOpen s g t p ref stop take).sized := by
  unfold agOpen
  extract_lets +onlyGivenNames _ s₁
  have hs₁ : s₁.sized := onTile_sized hs fun _ h => Tile.ite_sized (Tile.sendStop_sized h) h
  exact ite_sized (take_sized hs₁) hs₁

theorem agClose_sized {g t p free st} (hs : s.sized) : (agClose s g t p free st).sized := by
  unfold agClose
  extract_lets +onlyGivenNames _ s₁
  have hs₁ : s₁.sized := onTile_sized hs fun _ h => h
  exact ite_sized (endUnit_sized hs₁) hs₁

theorem execAgAff_sized {t p} (hs : s.sized) : NextSized (execAgAff t p s) := by
  unfold execAgAff
  refine unitStep_sized hs fun _ _ _ h => ?_
  refine ite_sized h (ite_sized ?_ ?_)
  · split
    · exact h
    · refine ite_sized ?_ ?_
      · extract_lets +onlyGivenNames _ res
        have hres : (res.1).sized := by
          unfold res
          refine foldl_fst_sized (fun _ _ h₁ => ?_) h
          split
          · exact h₁
          · refine ite_fst_sized h₁ ?_
            split
            next e => exact fst_sized e (unitRead_sized h₁)
            next e => exact fst_sized e (unitRead_sized h₁)
        clear_value res
        split
        next e =>
          exact raise_sized hres
        next e =>
          have hs₁ := hres
          extract_lets +onlyGivenNames s₂
          have hs₂ : s₂.sized := onTile_sized hs₁ fun _ => Tile.sendBeat_sized
          exact ite_sized hs₂ (count_sized hs₂)
      · split
        · exact ite_sized (onTile_sized h (fun _ h₁ => Tile.takeToken_sized (Tile.sendStop_sized h₁))) (agControl_sized h)
        · exact h
  · split
    · refine ite_sized h (reading_sized h (fun _ _ h₁ => ?_))
      extract_lets +onlyGivenNames _ s₁
      have hs₁ : s₁.sized := by
        unfold s₁
        refine onTile_sized h₁ fun _ h₂ => ?_
        extract_lets +onlyGivenNames _
        split
        · exact Tile.ite_sized (Tile.sendStop_sized (Tile.sendToken_sized h₂)) (Tile.sendToken_sized h₂)
        · exact Tile.sendToken_sized h₂
      exact ite_sized (agClose_sized hs₁) hs₁
    · refine ite_sized (ite_sized (agOpen_sized h) h) ?_
      split
      · exact ite_sized (agOpen_sized h) (agControl_sized h)
      · exact h

theorem execAgWr_sized {t p} (hs : s.sized) : NextSized (execAgWr t p s) := by
  unfold execAgWr
  refine unitStep_sized hs fun _ _ _ h => ?_
  extract_lets +onlyGivenNames _ _ _ _ _ _ store
  have hstore : ∀ va v k, (∀ s, s.sized → (k s).sized) → (store va v k).sized := fun _ _ _ hk => taskStores_sized h hk
  refine ite_sized h (ite_sized ?_ ?_)
  · split
    · exact h
    · extract_lets +onlyGivenNames next
      have hnext : ∀ s, s.sized → (next s).sized := fun _ h₁ => onTile_sized (take_sized h₁) fun _ h₂ => h₂
      exact ite_sized
        (ite_sized (hstore _ _ _ hnext) (count_sized (hnext _ h)))
        (ite_sized (endUnit_sized (takeAll_sized h)) (ite_sized (onTile_sized h (fun _ => Tile.takeToken_sized)) h))
  · split
    · extract_lets +onlyGivenNames both
      have hboth : ∀ s, s.sized → (both s).sized := fun _ h₁ => take_sized (take_sized h₁)
      exact ite_sized (ite_sized (hboth _ h) (hstore _ _ _ hboth)) (ite_sized (endUnit_sized (takeAll_sized h)) (ite_sized
        (hboth _ h) h))
    · exact h

theorem execIseParamRead_sized {t p} (hs : s.sized) : NextSized (execIseParamRead t p s) := by
  unfold execIseParamRead
  refine unitStep_sized hs fun _ _ _ h => ?_
  refine ite_sized h ?_
  split
  next e => exact raise_sized (fst_sized e (page_sized h))
  next e =>
    have hs₁ := fst_sized e (page_sized h)
    refine ite_sized (raise_sized hs₁) ?_
    split
    next e => exact raise_sized (fst_sized e (taskRun_sized hs₁))
    next e =>
      have hs₂ := fst_sized e (taskRun_sized hs₁)
      exact ite_sized (onTile_sized hs₂ (fun _ h₁ => h₁)) (raise_sized hs₂)

theorem execAgInd_sized {t p} (hs : s.sized) : NextSized (execAgInd t p s) := by
  unfold execAgInd
  refine unitStep_sized hs fun _ _ _ h => ?_
  refine ite_sized h (ite_sized (ite_sized (agOpen_sized h) h) ?_)
  split
  · exact ite_sized (agOpen_sized h) (agControl_sized h)
  · exact h

theorem State.iseFetch_sized {r c t p} (hs : s.sized) : (s.iseFetch r c t p).sized := by
  unfold State.iseFetch
  extract_lets +onlyGivenNames _ _ _ _ _ keep
  have hkeep : ∀ v s, s.sized → (keep v s).sized := by
    intro _ _ h₁
    unfold keep
    extract_lets s₁
    have hs₁ : s₁.sized := onTile_sized h₁ fun _ h₂ => h₂
    exact hs₁
  refine reading_sized hs fun _ _ h₁ => ?_
  refine ite_sized (hkeep _ _ h₁) ?_
  split
  next e => exact hkeep _ _ (fst_sized e (unitRead_sized h₁))
  next e =>
    have hs₁ := fst_sized e (unitRead_sized h₁)
    exact ite_sized (reading_sized hs₁ hkeep) (raise_sized hs₁)

theorem State.iseGive_sized {g t p} (hs : s.sized) : (s.iseGive g t p).sized := by
  unfold State.iseGive
  extract_lets +onlyGivenNames _
  split
  · exact hs
  · extract_lets +onlyGivenNames s₁ _
    have hs₁ : s₁.sized := onTile_sized hs fun _ => Tile.sendToken_sized
    exact ite_sized (agClose_sized hs₁) hs₁

theorem execIseValueReturn_sized {t p} (hs : s.sized) : NextSized (execIseValueReturn t p s) := by
  unfold execIseValueReturn
  extract_lets +onlyGivenNames _
  split
  · exact hs
  · refine ite_sized hs (ite_sized hs ?_)
    extract_lets +onlyGivenNames s₁
    have hs₁ : s₁.sized := ite_sized (iseGive_sized hs) hs
    exact ite_sized (iseFetch_sized hs₁) hs₁

theorem xfStep_sized {t fn} {step : Region → Option Beat → State → State} (hs : s.sized)
    (hstep : ∀ a b s, s.sized → (step a b s).sized) :
    NextSized (xfStep s t fn step) :=
  unitStep_sized hs fun _ _ _ h => ite_sized (hstep _ _ _ h) h

theorem Tile.popIn_sized {c} (hT : T.sized) : (T.popIn c).sized :=
  hT

theorem Tile.setGsr_sized {g} (hT : T.sized) : Tile.sized { T with gsr := g } :=
  hT

theorem xfControl_sized {g t b} (hs : s.sized) : (xfControl s g t b).sized :=
  ite_sized (onTile_sized hs fun _ hT => Tile.onUnit_sized (Tile.popIn_sized (Tile.sendStop_sized hT)))
    (ite_sized (endUnit_sized (takeAll_sized hs)) hs)

theorem execXfTpose_sized {t} (hs : s.sized) : NextSized (execXfTpose t s) := by
  unfold execXfTpose
  refine xfStep_sized hs fun _ _ _ h => ?_
  refine ite_sized (onTile_sized h (fun _ => Tile.sendBeat_sized)) ?_
  split
  · exact h
  · exact ite_sized (onTile_sized h (fun _ h₁ => h₁)) (xfControl_sized h)

theorem execXfQuant_sized {t} (hs : s.sized) : NextSized (execXfQuant t s) := by
  unfold execXfQuant
  refine xfStep_sized hs fun _ _ _ h => ?_
  extract_lets +onlyGivenNames _
  split
  · refine ite_sized (onTile_sized h fun _ hT => ?_) ?_
    · exact Tile.setGsr_sized (Tile.onUnit_sized (Tile.sendBeat_sized hT))
    split
    · exact h
    · refine ite_sized ?_ (xfControl_sized h)
      extract_lets +onlyGivenNames s₁
      have hs₁ : s₁.sized := onTile_sized h fun _ h₁ => h₁
      exact ite_sized hs₁ (count_sized hs₁)

theorem execXfScale_sized {t} (hs : s.sized) : NextSized (execXfScale t s) := by
  unfold execXfScale
  refine xfStep_sized hs fun _ _ _ h => ?_
  split
  · extract_lets +onlyGivenNames _
    split
    · exact h
    · exact ite_sized (onTile_sized h (fun _ h₁ => Tile.sendBeat_sized h₁)) (xfControl_sized h)

theorem execXfBmap_sized {t} (hs : s.sized) : NextSized (execXfBmap t s) := by
  unfold execXfBmap
  refine xfStep_sized hs fun _ _ _ h => ?_
  extract_lets +onlyGivenNames _
  split
  · extract_lets +onlyGivenNames _
    split
    · exact h
    · refine ite_sized ?_ (ite_sized (onTile_sized h (fun _ => Tile.sendBeat_sized)) (xfControl_sized (onTile_sized h
      (fun _ h₁ => h₁))))
      extract_lets +onlyGivenNames _ _ _ s₂
      have hs₂ : s₂.sized := foldl_sized (fun _ _ => count_sized) (onTile_sized h (fun _ h₁ => h₁))
      exact ite_sized hs₂ (count_sized hs₂)

/-! ### Element events -/

theorem execLongLatencyResult_sized {t k} (hs : s.sized) : NextSized (execLongLatencyResult t k s) := by
  unfold execLongLatencyResult
  split
  · split
    · exact onTile_sized hs fun _ => Tile.writeResult_sized
    · exact hs
  · exact hs

theorem Tile.acceptBead_sized {c} (hT : T.sized) : (T.acceptBead c).sized := by
  unfold Tile.acceptBead
  split <;> exact hT

theorem execBeadhArrival_sized {t port} (hs : s.sized) : NextSized (execBeadhArrival t port s) := by
  unfold execBeadhArrival
  split
  · exact hs
  · refine ite_sized hs ?_
    split
    · exact ite_sized (onTile_sized hs (fun _ => Tile.acceptBead_sized)) hs
    · exact ite_sized (onTile_sized hs (fun _ => Tile.foldl_sized (fun _ _ => Tile.acceptBead_sized))) hs
    · exact ite_sized (onTile_sized hs (fun _ => Tile.acceptBead_sized)) hs
    · exact hs

theorem execSelJoinFire_sized {t} (hs : s.sized) : NextSized (execSelJoinFire t s) := by
  unfold execSelJoinFire
  split
  · exact hs
  · refine ite_sized hs ?_
    split
    · exact hs
    · split
      · exact ite_sized hs (count_sized (onTile_sized hs (fun _ h => h)))
      · exact ite_sized (onTile_sized hs (fun _ h => Tile.onUnit_sized (Tile.acceptBead_sized h))) hs

theorem execTokenBeadForm_sized {t} (hs : s.sized) : NextSized (execTokenBeadForm t s) := by
  unfold execTokenBeadForm
  split
  · exact hs
  · exact ite_sized hs (onTile_sized hs (fun _ h => Tile.foldl_sized (fun _ _ h₁ => h₁) h))

theorem execBeadStart_sized {t} (hs : s.sized) : NextSized (execBeadStart t s) := by
  unfold execBeadStart
  split
  · exact hs
  · split
    · exact ite_sized hs (onTile_sized hs (fun _ => Tile.onHead_sized))
    · exact hs

theorem execCeControlToken_sized {t} (hs : s.sized) : NextSized (execCeControlToken t s) := by
  unfold execCeControlToken
  split
  · exact hs
  · refine ite_sized hs ?_
    extract_lets +onlyGivenNames fire
    have hfire : ∀ b k, (∀ T, T.sized → (k T).sized) → (fire b k).sized := fun _ _ hk =>
      onTile_sized hs fun _ hT => Tile.foldl_sized (fun _ _ h₁ => h₁) (hk _ hT)
    split
    · split
      · split
        · exact ite_sized (hfire _ _ fun _ hT => hT) hs
        · exact hs
      · exact hs
    · refine ite_sized ?_ ?_
      · split
        · exact hfire _ _ fun _ hT => hT
        · exact hs
      · split
        · split
          · exact ite_sized (hfire _ _ fun _ hT => hT) hs
          · exact hs
        · exact hs
    · split
      · exact hs
      · exact ite_sized (hfire _ _ fun _ hT => Tile.foldl_sized (fun _ _ h => h) hT) hs

theorem execBarForward_sized {t u} (hs : s.sized) : NextSized (execBarForward t u s) := by
  unfold execBarForward
  refine unitStep_sized hs fun _ _ _ h => ?_
  refine ite_sized h ?_
  split
  · exact ite_sized (onTile_sized (takeAll_sized h) (fun _ => Tile.foldl_sized (fun _ _ h₂ => h₂))) h
  · exact scanEnd_sized h
  · exact scanEnd_sized h
  · exact ite_sized (mergeStep_sized h) (mergeStep_sized h)
  · exact rptEnd_sized h
  · exact rdcEnd_sized h
  · exact lwrEnd_sized h
  · exact h

theorem execElementSwitch_sized {t u} (hs : s.sized) : NextSized (execElementSwitch t u s) := by
  unfold execElementSwitch
  split
  · exact hs
  · refine ite_sized hs ?_
    extract_lets +onlyGivenNames _ s₁
    have hs₁ : s₁.sized := by
      unfold s₁
      refine onTile_sized hs fun _ h => ?_
      extract_lets +onlyGivenNames _ _ _ T₄
      have hT₄ : T₄.sized := Tile.foldl_sized (fun _ _ => Tile.takeToken_sized) (Tile.ite_sized
          (Tile.foldl_sized (fun _ _ h₁ => h₁) (Tile.drainUnit_sized h))
          (Tile.sendEnd_sized (Tile.drainUnit_sized h)))
      exact Tile.ite_sized hT₄ hT₄
    exact hs₁

theorem sendTo_sized {t c bs} (hs : s.sized) : (sendTo s t c bs).sized := by
  unfold sendTo
  refine ite_sized (onTile_sized hs (fun _ => Tile.pushIn_sized)) ?_
  split
  · exact onTile_sized hs fun _ h => h
  · exact hs

theorem leaveSource_sized {t c n} (hs : s.sized) : (leaveSource s t c n).sized := by
  unfold leaveSource
  refine onTile_sized hs fun _ h => ?_
  extract_lets +onlyGivenNames _ _ T₁
  have hT₁ : T₁.sized := Tile.ite_sized h h
  exact Tile.ite_sized hT₁ hT₁

theorem passBeat_sized {t w kind} (hs : s.sized) : (passBeat s t w kind).sized := by
  unfold passBeat
  split
  · exact hs
  · extract_lets +onlyGivenNames _
    split
    · exact hs
    · extract_lets +onlyGivenNames _
      split
      · exact hs
      · exact foldl_sized (fun _ _ => sendTo_sized) (leaveSource_sized hs)

theorem execSwJoin_sized {t w} (hs : s.sized) : NextSized (execSwJoin t w s) := by
  unfold execSwJoin
  split
  · exact hs
  · split
    · exact hs
    · refine ite_sized (ite_sized ?_ hs) ?_
      · extract_lets +onlyGivenNames _ _ s₁ s₂
        have hs₁ : s₁.sized := sendTo_sized (leaveSource_sized (leaveSource_sized hs))
        have hs₂ : s₂.sized := ite_sized (count_sized hs₁) hs₁
        exact ite_sized (onTile_sized hs₂ (fun _ h₁ => h₁)) hs₂
      · extract_lets +onlyGivenNames _ _ _ _ _ _
        split
        · exact hs
        · exact ite_sized (onTile_sized (sendTo_sized (leaveSource_sized hs)) (fun _ h => h)) hs

theorem execLinkBeatReceive_sized {t link flips} (hs : s.sized) : NextSized (execLinkBeatReceive t link flips s) := by
  unfold execLinkBeatReceive
  split
  · exact hs
  · split
    · exact hs
    · extract_lets +onlyGivenNames _ err
      clear_value err
      split
      · exact raise_sized hs
      · extract_lets +onlyGivenNames s₁
        have hs₁ : s₁.sized := onTile_sized hs fun _ h => h
        exact ite_sized (count_sized hs₁) hs₁

theorem execOutputBeat8Clk_sized {t u} (hs : s.sized) : NextSized (execOutputBeat8Clk t u s) := by
  unfold execOutputBeat8Clk
  split
  · exact hs
  · refine ite_sized (onTile_sized hs (fun _ => ?_)) hs
    refine Tile.foldl_sized fun _ _ h₁ => ?_
    split
    · exact Tile.ite_sized (Tile.flushOut_sized h₁) h₁
    · exact h₁

/-! ### Moves -/

theorem execCmp_sized {f} (hs : s.sized) : NextSized (execCmp f s) :=
  alu_sized hs fun _ _ => Tile.writeP_sized

theorem execSel_sized {f} (hs : s.sized) : NextSized (execSel f s) :=
  alu_sized hs fun _ _ h => Tile.ite_sized (Tile.writeX_sized h) (Tile.writeV_sized h)

theorem execMov_sized {f} (hs : s.sized) : NextSized (execMov f s) :=
  alu_sized hs fun _ _ h => Tile.ite_sized (Tile.writeP_sized h) (Tile.ite_sized (Tile.writeX_sized h)
    (Tile.writeV_sized h))

theorem execMovLane_sized {f} (hs : s.sized) : NextSized (execMovLane f s) :=
  alu_sized hs fun _ _ h => Tile.writeX_sized h

theorem execMovid_sized {f} (hs : s.sized) : NextSized (execMovid f s) :=
  alu_sized hs fun _ _ h => Tile.ite_sized (Tile.writeX_sized h) (Tile.writeV_sized h)

theorem execMovi_sized {f} (hs : s.sized) : NextSized (execMovi f s) :=
  aluI_sized hs fun _ _ h => Tile.ite_sized (Tile.writeX_sized h) (Tile.writeV_sized h)

theorem execMovhi_sized {f} (hs : s.sized) : NextSized (execMovhi f s) :=
  issue_sized hs fun _ h => advance_sized (onMe_sized h (fun _ => Tile.writeX_sized))

/-! ### Floating point -/

theorem State.fpCodes_sized {f n g} (hs : s.sized) : (s.fpCodes f n g).sized :=
  alu_sized hs fun _ _ => Tile.writeElems_sized

theorem State.fp1_sized {f v} (hs : s.sized) : (s.fp1 f v).sized :=
  fpCodes_sized hs

theorem State.fp2_sized {f v} (hs : s.sized) : (s.fp2 f v).sized :=
  fpCodes_sized hs

theorem State.fp3_sized {f v} (hs : s.sized) : (s.fp3 f v).sized :=
  fpCodes_sized hs

theorem execFcmp_sized {f} (hs : s.sized) : NextSized (execFcmp f s) :=
  alu_sized hs fun _ _ => Tile.writeP_sized

/-! ### Conversions -/

theorem convertTile_sized {f m wS wD signed g} (hT : T.sized) : (convertTile T f m wS wD signed g).sized :=
  Tile.ite_sized (Tile.writeX_sized hT) (Tile.writeV_sized hT)

theorem execFcvt_sized {f} (hs : s.sized) : NextSized (execFcvt f s) :=
  alu_sized hs fun _ _ => convertTile_sized

theorem execFcvtFrom_sized {f} (hs : s.sized) : NextSized (execFcvtFrom f s) :=
  alu_sized hs fun _ _ => convertTile_sized

theorem execFtoi_sized {f} (hs : s.sized) : NextSized (execFtoi f s) :=
  alu_sized hs fun _ _ => convertTile_sized

theorem execItof_sized {f} (hs : s.sized) : NextSized (execItof f s) :=
  alu_sized hs fun _ _ => convertTile_sized

theorem execFpack_sized {f} (hs : s.sized) : NextSized (execFpack f s) :=
  alu_sized hs fun _ _ h => Tile.writeV_sized h

theorem execFunpack_sized {f} (hs : s.sized) : NextSized (execFunpack f s) :=
  alu_sized hs fun _ _ h => Tile.writeV_sized h

/-! ### Errors and power -/

theorem State.fenceBank_sized {d k} (hs : s.sized) : (s.fenceBank d k).sized :=
  ite_sized (fenceVault_sized hs) (fenceChannel_sized hs)

theorem State.bankHints_sized {d k} (hs : s.sized) : (s.bankHints d k).sized :=
  rangeHints_sized hs

theorem State.correctedBank_sized {d k} (hs : s.sized) : (s.correctedBank d k).sized :=
  ite_sized (fenceBank_sized (bankHints_sized (onDie_sized hs))) (onDie_sized hs)

theorem State.uncorrectableBank_sized {d k} (hs : s.sized) : (s.uncorrectableBank d k).sized :=
  ite_sized (onDie_sized hs) (fenceBank_sized (onDie_sized hs))

theorem State.correctedTile_sized {t} (hs : s.sized) : (s.correctedTile t).sized := by
  unfold State.correctedTile
  extract_lets +onlyGivenNames _ s₁
  have hs₁ : s₁.sized := onTile_sized hs fun _ h => h
  exact ite_sized (fenceTile_sized hs₁) hs₁

theorem State.corrected_sized {e} (hs : s.sized) : (s.corrected e).sized := by
  unfold State.corrected
  extract_lets +onlyGivenNames _
  split
  · split
    · exact correctedBank_sized (ite_sized (count_sized (count_sized hs)) (count_sized hs))
    · exact count_sized hs
  · exact correctedBank_sized (count_sized hs)
  · exact correctedTile_sized (count_sized hs)
  · exact correctedTile_sized (count_sized hs)
  · exact correctedTile_sized (count_sized hs)
  · exact correctedTile_sized (count_sized hs)
  · exact count_sized hs

theorem State.zeroCell_sized {c} (hT : T.sized) : (State.zeroCell T c).sized := by
  obtain ⟨hx, hv, hp⟩ := hT
  have hT : T.sized := ⟨hx, hv, hp⟩
  unfold State.zeroCell
  split
  · exact ⟨(List.length_modify ..).trans hx, hv, hp⟩
  · exact ⟨hx, (List.length_modify ..).trans hv, hp⟩
  · exact hT
  · exact hT
  · exact hT

theorem State.stateError_sized {p f} {zero : Tile → Tile} (hs : s.sized) (hzero : ∀ T, T.sized → (zero T).sized) :
    (s.stateError p f zero).sized := by
  unfold State.stateError
  split
  · exact ite_sized (onTile_sized hs hzero) (raise_sized hs)
  · exact hs

theorem State.uncorrectable_sized {e} (hs : s.sized) : (s.uncorrectable e).sized := by
  unfold State.uncorrectable
  split
  · extract_lets +onlyGivenNames _
    split
    · exact uncorrectableBank_sized hs
    · exact hs
  · extract_lets +onlyGivenNames s₁
    have hs₁ : s₁.sized := by
      unfold s₁
      split <;> exact hs
    exact uncorrectableBank_sized hs₁
  · exact hs
  · exact onTile_sized hs fun _ h => h
  · exact stateError_sized hs fun _ => zeroCell_sized
  · exact stateError_sized hs fun _ h => h
  · split
    · exact hs
    · exact ite_sized (configError_sized hs) (ite_sized hs (discardShadow_sized hs))
  · exact onDie_sized hs
  · exact onDie_sized hs

theorem execEccError_sized {e double} (hs : s.sized) : NextSized (execEccError e double s) := by
  unfold execEccError
  refine ite_sized (uncorrectable_sized hs) ?_
  split
  · exact uncorrectable_sized (count_sized hs)
  · exact corrected_sized hs

theorem execPatrolScrub_sized {a} (hs : s.sized) : NextSized (execPatrolScrub a s) := by
  unfold execPatrolScrub
  split
  · exact hs
  · exact ite_sized (onDie_sized hs) hs

theorem State.expireSamples_sized (hs : s.sized) : s.expireSamples.sized :=
  ite_sized hs hs

theorem State.sample_sized {d watts celsius} (hs : s.sized) : (s.sample d watts celsius).sized :=
  ite_sized (onDie_sized hs) (ite_sized (onDie_sized hs) (enterRecovery_sized (onDie_sized hs)))

theorem execPowerSample_sized {d watts celsius} (hs : s.sized) : NextSized (execPowerSample d watts celsius s) :=
  ite_sized hs (sample_sized (onDie_sized hs))

theorem execThrottleUpdate_sized (hs : s.sized) : NextSized (execThrottleUpdate s) :=
  ite_sized hs (ite_sized hs (ite_sized hs hs))

/-! ### The lattice ports -/

theorem State.latchLost_sized (hs : s.sized) : s.latchLost.sized :=
  ite_sized hs hs

theorem State.setRetries_sized {p l} (hs : s.sized) :
    State.sized { s with fleet := { s.fleet with retries := s.fleet.retries.set p l } } := by
  obtain ⟨hl, hn, hr, hm⟩ := hs.sizes.fleet
  exact withFleet_sized hs ⟨hl, hn, List.length_set.trans hr, hm⟩

theorem State.setMissed_sized {p n} (hs : s.sized) :
    State.sized { s with fleet := { s.fleet with missed := s.fleet.missed.set p n } } := by
  obtain ⟨hl, hn, hr, hm⟩ := hs.sizes.fleet
  exact withFleet_sized hs ⟨hl, hn, hr, List.length_set.trans hm⟩

theorem State.setRetrain_sized {p n l} (hs : s.sized) :
    State.sized { s with fleet := { s.fleet with retrain := s.fleet.retrain.set p n, lst := s.fleet.lst.set p l } } := by
  obtain ⟨hl, hn, hr, hm⟩ := hs.sizes.fleet
  exact withFleet_sized hs ⟨List.length_set.trans hl, List.length_set.trans hn, hr, hm⟩

theorem State.retryFlit_sized {p} (hs : s.sized) : (s.retryFlit p).sized := by
  unfold State.retryFlit
  extract_lets s₁ _ _ s₂
  have hs₂ : s₂.sized := setRetries_sized (count_sized hs)
  exact ite_sized (fencePort_sized hs₂) hs₂

theorem State.trainPorts_sized (hs : s.sized) : s.trainPorts.sized := by
  obtain ⟨-, hn, hr, hm⟩ := hs.sizes.fleet
  exact withFleet_sized hs ⟨(List.length_map _).trans List.length_range, hn, hr, hm⟩

theorem State.writePodcfg_sized {v} (hs : s.sized) : (s.writePodcfg v).sized :=
  ite_sized (logError_sized hs) (ite_sized hs (trainPorts_sized hs))

theorem State.setCounter_sized {v} (hs : s.sized) : (s.setCounter v).sized :=
  onDie_sized hs

theorem State.clearCounter_sized {v} (hs : s.sized) : (s.clearCounter v).sized :=
  onDie_sized hs

theorem State.writeMonctl_sized {v} (hs : s.sized) : (s.writeMonctl v).sized := by
  unfold State.writeMonctl
  refine ite_sized hs ?_
  extract_lets +onlyGivenNames _ _ s₂
  have hs₂ : s₂.sized := ite_sized (setCounter_sized hs) hs
  exact ite_sized (clearCounter_sized hs₂) hs₂

theorem execFlitReceive_sized {p f} (hs : s.sized) : NextSized (execFlitReceive p f s) := by
  unfold execFlitReceive
  refine ite_sized hs (ite_sized (retryFlit_sized hs) ?_)
  extract_lets _ s₁ _ s₂ _ stay
  have hs₁ : s₁.sized := setMissed_sized hs
  have hs₂ : s₂.sized := count_sized hs₁
  have hstay : stay.sized := hs₂
  exact ite_sized hs₁ (ite_sized hstay (getD_sized (sendFlit_sized hs₂) hstay))

theorem execFlitCrcRetry_sized {p} (hs : s.sized) : NextSized (execFlitCrcRetry p s) :=
  ite_sized (retryFlit_sized hs) hs

theorem execPortRetrain_sized {p ok} (hs : s.sized) : NextSized (execPortRetrain p ok s) := by
  unfold execPortRetrain
  refine ite_sized hs ?_
  extract_lets _ _ s₁
  have hs₁ : s₁.sized := count_sized (setRetrain_sized hs)
  exact ite_sized (fencePort_sized hs₁) hs₁

theorem execKeepaliveLoss_sized {p} (hs : s.sized) : NextSized (execKeepaliveLoss p s) := by
  unfold execKeepaliveLoss
  refine ite_sized hs ?_
  extract_lets _ _ s₁ _ _ _ _ s₂
  have hs₁ : s₁.sized := setMissed_sized hs
  have hs₂ : s₂.sized := hs₁
  exact ite_sized hs₁ (foldl_sized (fun _ _ => fencePort_sized) hs₂)

theorem execPortTrainingComplete_sized {p} (hs : s.sized) : NextSized (execPortTrainingComplete p s) :=
  ite_sized (setMissed_sized (setRetrain_sized hs)) hs

/-! ### Host transactions -/

theorem State.writePerDie_sized {v lo hi f} (hs : s.sized) : (s.writePerDie v lo hi f).sized :=
  foldl_sized (fun _ _ h => ite_sized (onDie_sized h) h) hs

theorem State.writeCtxBlock_sized {c o v} (hs : s.sized) : (s.writeCtxBlock c o v).sized :=
  ite_sized (logError_sized hs) (onCtx_sized hs)

theorem State.writePlain_sized {off v} (hs : s.sized) : (s.writePlain off v).sized := by
  unfold State.writePlain
  refine ite_sized hs (ite_sized hs (ite_sized (writeCtxBlock_sized hs) ?_))
  split
  · exact writePerDie_sized hs
  · exact writePerDie_sized hs
  · exact hs
  · exact hs
  · exact hs

theorem State.writeState_sized {c v} (hs : s.sized) : (s.writeState c v).sized := by
  unfold State.writeState
  split
  · exact activate_sized hs
  · exact startRemoval_sized hs
  · exact logError_sized hs
  · exact hs

theorem State.writeDcb_sized {off v} (hs : s.sized) : (s.writeDcb off v).sized := by
  unfold State.writeDcb
  exact ite_sized
    (ite_sized (resetNow_sized hs) (ite_sized (goNow_sized hs) hs))
    (ite_sized
      (ite_sized (attestNow_sized hs) (ite_sized (attestNow_sized hs) hs))
      (ite_sized (writePlain_sized hs) (ite_sized (ite_sized hs hs) (ite_sized (writeState_sized hs) (ite_sized
        (writeHead_sized hs) (ite_sized (writePodcfg_sized hs) (ite_sized (writeMonctl_sized hs) (writePlain_sized hs))))))))

theorem State.writeDcbs_sized {off ws} (hs : s.sized) : (s.writeDcbs off ws).sized := by
  induction ws generalizing s off with
  | nil => exact hs
  | cons v vs ih => exact ih (writeDcb_sized hs)

theorem State.writeRecordWords_sized {c pa ws} (hs : s.sized) : (s.writeRecordWords c pa ws).1.sized :=
  ite_fst_sized (ite_fst_sized hs (armRecord_sized hs)) hs

theorem State.wakeWords_sized {pa n} (hs : s.sized) : (s.wakeWords pa n).sized :=
  foldl_sized (fun _ _ => wakeArmed_sized) hs

theorem State.physicalWrite_sized {addr ws} (hs : s.sized) : (s.physicalWrite addr ws).1.sized := by
  unfold State.physicalWrite
  split
  · exact hs
  · split
    · exact writeRecordWords_sized hs
    · refine ite_fst_sized hs ?_
      split
      next e => exact wakeWords_sized (physWrite_sized hs _ e)
      · exact hs

theorem State.physicalRead_sized {addr n} (hs : s.sized) : (s.physicalRead addr n).1.sized := by
  unfold State.physicalRead
  split
  · exact hs
  · refine ite_fst_sized hs ?_
    split <;> exact hs

theorem State.virtualRead_sized {q n} (hs : s.sized) : (s.virtualRead q n).1.sized := by
  unfold State.virtualRead
  refine ite_fst_sized hs (ite_fst_sized (ite_fst_sized (mendSync_sized hs) hs) (ite_fst_sized (ite_fst_sized hs hs) ?_))
  split <;> exact hs

theorem State.virtualWrite_sized {c va q ws} (hs : s.sized) : (s.virtualWrite c va q ws).1.sized := by
  unfold State.virtualWrite
  refine ite_fst_sized hs ?_
  refine ite_fst_sized hs ?_
  refine ite_fst_sized (ite_fst_sized (mendSync_sized hs) (syncWrite_sized hs)) (ite_fst_sized (ite_fst_sized hs ?_) ?_)
  · split
    next e =>
      have hs₁ := physWrite_sized hs _ e
      exact wakeDeferred_sized hs₁
    · exact hs
  · split
    next e => exact physWrite_sized hs _ e
    · exact hs

theorem State.remotePageRead_sized {c q n} (hs : s.sized) : (s.remotePageRead c q n).1.sized :=
  ite_fst_sized hs (ite_fst_sized hs hs)

theorem State.remoteWrite_sized {c va q n} (hs : s.sized) : (s.remoteWrite c va q n).1.sized :=
  ite_fst_sized hs (ite_fst_sized hs (ite_fst_sized hs hs))

theorem State.virtualAccess_sized {c va n data} (hs : s.sized) : (s.virtualAccess c va n data).1.sized := by
  unfold State.virtualAccess
  refine ite_fst_sized hs ?_
  split
  · exact hs
  · refine ite_fst_sized (ite_fst_sized (noteCmp_sized hs) ?_) ?_
    · split
      · exact remoteWrite_sized (noteCmp_sized hs)
      · exact remotePageRead_sized (noteCmp_sized hs)
    · split
      · exact virtualRead_sized (noteCmp_sized hs)
      · exact virtualWrite_sized (noteCmp_sized hs)

theorem State.access_sized {h wrc data} (hs : s.sized) : ∀ q ∈ s.access h wrc data, q.1.sized := by
  unfold State.access
  extract_lets +onlyGivenNames _ _
  split
  · exact forall_mem_some (virtualAccess_sized hs)
  · split
    · exact nofun
    · split
      · extract_lets +onlyGivenNames _
        split
        · exact forall_mem_some hs
        · split
          · split
            · exact forall_mem_some (acceptCommand_sized hs)
            · exact forall_mem_some hs
          · exact forall_mem_some (writeDcbs_sized hs)
      · split
        · exact forall_mem_some (physicalRead_sized hs)
        · exact forall_mem_some (physicalWrite_sized hs)

theorem State.leaveFor_sized {c pa} (hs : s.sized) : (s.leaveFor c pa).sized :=
  ite_sized hs hs

theorem State.hostAppend_sized {c desc entry} (hs : s.sized) : (s.hostAppend c desc entry).1.sized := by
  unfold State.hostAppend
  refine ite_fst_sized hs ?_
  split
  · exact hs
  · exact hs
  · refine ite_fst_sized hs (ite_fst_sized (ite_fst_sized (noteCmp_sized hs) ?_) ?_)
    · split
      · exact noteCmp_sized hs
      · exact enterEntry_sized (leaveFor_sized (noteCmp_sized hs))
    · split
      · exact foldl_sized (fun _ _ => mendSync_sized) (noteCmp_sized hs)
      · split
        · exact noteCmp_sized hs
        · extract_lets +onlyGivenNames link _ s₃
          have hs₃ : s₃.sized := by
            unfold s₃
            clear_value link
            split
            · exact leaveFor_sized (leaveFor_sized (noteCmp_sized hs))
            · exact leaveFor_sized (noteCmp_sized hs)
          exact wakeChain_sized (appendEntry_sized hs₃)

theorem State.inClass_sized {kind h data} {k : State → Host.Outcome State Fault Refusal} (hs : s.sized)
    (hk : ∀ s, s.sized → NextSized (k s)) :
    NextSized (s.inClass kind h data k) :=
  ite_nextSized (ite_sized (logError_sized hs) hs) (ite_nextSized hs (hk _ hs))

theorem execRd_sized {h} (hs : s.sized) : NextSized (execRd h s) := by
  unfold execRd
  refine inClass_sized hs fun _ h₁ => ?_
  refine ite_nextSized h₁ ?_
  split
  next e => exact access_sized h₁ _ e
  · exact trivial

theorem execWr_sized {h data} (hs : s.sized) : NextSized (execWr h data s) := by
  unfold execWr
  refine inClass_sized hs fun _ h₁ => ?_
  refine ite_nextSized (logError_sized h₁) ?_
  split
  next e =>
    have hs₁ := access_sized h₁ _ e
    exact ite_sized hs₁ (logError_sized hs₁)
  · exact trivial

theorem execWrc_sized {h data} (hs : s.sized) : NextSized (execWrc h data s) := by
  unfold execWrc
  refine inClass_sized hs fun _ h₁ => ?_
  refine ite_nextSized h₁ ?_
  split
  next e => exact access_sized h₁ _ e
  · exact trivial

theorem execAppend_sized {h data} (hs : s.sized) : NextSized (execAppend h data s) :=
  inClass_sized hs fun _ h₁ => ite_sized h₁ (hostAppend_sized h₁)

theorem execHostTfence_sized {h data} (hs : s.sized) : NextSized (execHostTfence h data s) :=
  inClass_sized hs fun _ h₁ => ite_sized h₁ (ite_sized h₁ h₁)

theorem execFlush_sized {h} (hs : s.sized) : NextSized (execFlush h s) := by
  unfold execFlush
  exact inClass_sized hs fun _ h => h

theorem performTx_sized {x} (hs : s.sized) : NextSized (performTx x s) := by
  unfold performTx
  split
  · exact execRd_sized hs
  · exact execWr_sized hs
  · exact execWrc_sized hs
  · exact execAppend_sized hs
  · exact execFlush_sized hs
  · exact execHostTfence_sized hs

theorem execCpl_sized {h data} (hs : s.sized) : NextSized (execCpl h data s) := by
  unfold execCpl
  split
  · exact hs
  · exact ite_sized (ite_sized hs (ite_sized (onDie_sized hs) (enterRecovery_sized hs))) (ite_sized hs (ite_sized hs hs))

theorem execUcieCrcReplay_sized {m} (hs : s.sized) : NextSized (execUcieCrcReplay m s) :=
  ite_sized hs hs

theorem execUcieModuleFail_sized {m} (hs : s.sized) : NextSized (execUcieModuleFail m s) :=
  ite_sized hs (count_sized hs)

theorem execRegisterWrite_sized {off v} (hs : s.sized) : NextSized (execRegisterWrite off v s) :=
  ite_sized (writePlain_sized hs) hs

/-! ### Bit operations -/

theorem State.bitOp_sized {f n nat g} (hs : s.sized) : (s.bitOp f n nat g).sized :=
  alu_sized hs fun _ _ => Tile.writeElems_sized

theorem State.bitImm_sized {f g} (hs : s.sized) : (s.bitImm f g).sized :=
  aluI_sized hs fun _ _ => Tile.writeElems_sized

/-! ### Late answers -/

theorem State.mitTry_sized {k refetch} {bad : State → MitReq → State} (hs : s.sized) (hbad : ∀ s b, s.sized → (bad s b).sized) :
    (s.mitTry k refetch bad).sized := by
  unfold State.mitTry
  split
  · exact hs
  · split
    · exact hs
    · refine ite_sized hs ?_
      extract_lets +onlyGivenNames s₁
      have hs₁ : s₁.sized := ite_sized (count_sized hs) (ite_sized (touch_sized hs) hs)
      split
      · exact onTile_sized hs₁ fun _ h => h
      · exact hbad _ _ hs₁

theorem execCounterHalving_sized {d} (hs : s.sized) : NextSized (execCounterHalving d s) :=
  ite_sized hs (onDie_sized hs)

theorem execTfenceAck_sized {k} (hs : s.sized) : NextSized (execTfenceAck k s) := by
  unfold execTfenceAck
  split
  · exact hs
  · split
    · exact ite_sized hs hs
    · exact onDie_sized hs

/-! ### Predicates -/

theorem State.predOp_sized {f g} (hs : s.sized) : (s.predOp f g).sized :=
  alu_sized hs fun _ _ => Tile.writeP_sized

theorem execPand_sized {f} (hs : s.sized) : NextSized (execPand f s) := by
  unfold execPand
  refine ite_nextSized (issue_sized hs (fun _ h => ?_)) (predOp_sized hs)
  extract_lets +onlyGivenNames _ _ s₁
  have hs₁ : s₁.sized := onMe_sized h fun _ h₁ => Tile.onHead_sized (Tile.writeP_sized h₁)
  exact ite_sized (leave_sized hs₁) (advance_sized hs₁)

/-! ### Operand phases of the matrix unit -/

theorem execQuant_sized {f} (hs : s.sized) : NextSized (execQuant f s) :=
  issue_sized hs fun _ h => ite_sized h (advance_sized (onMe_sized h (fun _ h₁ => h₁)))

/-! ### Operand phases -/

section
variable {α β : Type}

theorem Reading.and_sized {x : Reading α} {k : α → State → Reading β} (hx : x.1.sized) (hk : ∀ a s, s.sized → (k a s).1.sized) :
    (x.and k).1.sized := by
  unfold Reading.and
  split
  · exact hk _ _ hx
  · exact hx

theorem demand_sized {b f} {k : Reading α} (hs : s.sized) (hk : k.1.sized) : (demand s b f k).1.sized :=
  ite_fst_sized hk hs

end

theorem readCell_sized {p d a n} (hs : s.sized) : (readCell s p d a n).1.sized := by
  unfold readCell
  extract_lets lift scr
  have hlift : ∀ x label, x.1.sized → (lift x label).1.sized := by
    intro x label hx
    unfold lift
    split <;> exact hx
  have hscr : ∀ t off, (scr t off).1.sized := fun _ _ => ite_fst_sized hs hs
  split
  · exact hs
  · refine ite_fst_sized (hlift _ _ (taskRun_sized hs)) (ite_fst_sized (ite_fst_sized hs (hscr _ _)) (ite_fst_sized
    (hscr _ _) ?_))
    split
    · exact ite_fst_sized (hlift _ _ (taskRun_sized hs)) hs
    · exact hs

theorem readRuns_sized {p d runs} (hs : s.sized) : (readRuns s p d runs).1.sized := by
  induction runs generalizing s with
  | nil => exact hs
  | cons q rest ih => exact Reading.and_sized (readCell_sized hs) fun _ _ h => Reading.and_sized (ih h) fun _ _ h => h

theorem readFrom_sized {p d runs} (hs : s.sized) : (readFrom s p d runs).1.sized :=
  readRuns_sized hs

theorem resolveFmt_sized {p d c rows k accept} (hs : s.sized) : (resolveFmt s p d c rows k accept).1.sized :=
  ite_fst_sized (demand_sized hs hs)
    (Reading.and_sized (readFrom_sized hs) fun _ _ h => demand_sized h (demand_sized h h))

theorem readTile_sized {p d c R rows k per} (hs : s.sized) : (readTile s p d c R rows k per).1.sized :=
  demand_sized hs (Reading.and_sized (readFrom_sized hs) fun _ _ h => Reading.and_sized (readFrom_sized h) fun _ _ h => h)

theorem checkSeeds_sized {base n ws} (hs : s.sized) : (checkSeeds s base n ws).1.sized := by
  unfold checkSeeds
  split <;> exact hs

theorem readOperand_sized {p o kind ws c rows k per accept} (hs : s.sized) :
    (readOperand s p o kind ws c rows k per accept).1.sized := by
  unfold readOperand
  extract_lets _
  refine ite_fst_sized (ite_fst_sized (Reading.and_sized (checkSeeds_sized hs) fun _ _ h => h) hs) ?_
  refine demand_sized hs (Reading.and_sized (resolveFmt_sized hs) fun _ _ h => ?_)
  refine ite_fst_sized (demand_sized h ?_) (Reading.and_sized (readTile_sized h) fun _ _ h => h)
  exact Reading.and_sized (readFrom_sized h) fun _ _ h => Reading.and_sized (checkSeeds_sized h) fun _ _ h => h

theorem readSlots_sized {p o ws m k} (hs : s.sized) : (readSlots s p o ws m k).1.sized := by
  unfold readSlots
  extract_lets _ _ _
  refine demand_sized hs (Reading.and_sized (readFrom_sized hs) fun _ _ h => ?_)
  extract_lets _
  split <;> exact h

theorem stageMultiply_sized {p o f form} (hs : s.sized) : (stageMultiply s p o f form).1.sized := by
  unfold stageMultiply
  refine Reading.and_sized (ite_fst_sized (readSlots_sized hs) hs) fun _ _ h => ?_
  exact Reading.and_sized (readOperand_sized h) fun _ _ h => Reading.and_sized (readOperand_sized h) fun _ _ h => h

theorem placeBytes_sized {p d ps} (hs : s.sized) : (placeBytes s p d ps).1.sized := by
  induction ps generalizing s with
  | nil => exact hs
  | cons q rest ih =>
    unfold placeBytes
    extract_lets stores
    have hstores : ∀ va w label, (stores va w label).1.sized := by
      intro va w label
      unfold stores
      split
      next e => exact fst_sized e (storesOf_sized hs)
      next e => exact Reading.and_sized (ih (fst_sized e (storesOf_sized hs))) fun _ _ h => h
    refine ite_fst_sized (hstores _ _ _) (ite_fst_sized hs (ite_fst_sized (Reading.and_sized (ih hs) fun _ _ h => h) ?_))
    split
    · exact ite_fst_sized (hstores _ _ _) hs
    · exact hs

theorem stageTile_sized {p o d c k rows sides clk} (hs : s.sized) : (stageTile s p o d c k rows sides clk).1.sized :=
  demand_sized hs (Reading.and_sized (placeBytes_sized hs) fun _ _ h => h)

theorem stageSeedx_sized {p o f} (hs : s.sized) : (stageSeedx s p o f).1.sized :=
  Reading.and_sized (readOperand_sized hs) fun _ _ h => demand_sized h (stageTile_sized h)

theorem stageFit_sized {p o f many} (hs : s.sized) : (stageFit s p o f many).1.sized :=
  Reading.and_sized (readOperand_sized hs) fun _ _ h => demand_sized h h

theorem stageHash_sized {p o f} (hs : s.sized) : (stageHash s p o f).1.sized :=
  Reading.and_sized (readOperand_sized hs) fun _ _ h => h

theorem stageTransform_sized {p o f form} (hs : s.sized) : (stageTransform s p o f form).1.sized := by
  unfold stageTransform
  refine Reading.and_sized (readOperand_sized hs) fun ⟨_, _⟩ _ h => ?_
  dsimp only
  split
  · exact stageTile_sized h
  · exact ite_fst_sized (stageTile_sized h) (stageTile_sized h)
  · exact stageTile_sized h

theorem stage_sized {p o} (hs : s.sized) : (stage s p o).1.sized := by
  unfold stage
  split
  iterate 3 exact stageMultiply_sized hs
  · exact stageSeedx_sized hs
  iterate 2 exact stageFit_sized hs
  · exact stageHash_sized hs
  iterate 3 exact stageTransform_sized hs
  all_goals exact hs

theorem execMatrixOperandPhase_sized {t} (hs : s.sized) : NextSized (execMatrixOperandPhase t s) := by
  unfold execMatrixOperandPhase
  split
  · refine ite_sized hs (ite_sized (onTile_sized hs (fun _ h => h)) (ite_sized hs ?_))
    split
    next e => exact raise_sized (fst_sized e (stage_sized hs))
    next e => exact exhaust_sized (fst_sized e (stage_sized hs))
    next e => exact count_sized (onTile_sized (fst_sized e (stage_sized hs)) fun _ hT => hT)
  · exact hs

theorem execMatrixComputeComplete_sized {t} (hs : s.sized) : NextSized (execMatrixComputeComplete t s) := by
  unfold execMatrixComputeComplete
  split
  · refine ite_sized hs (holdAll_sized hs (fun _ h => ?_))
    extract_lets +onlyGivenNames s₁ _
    have hs₁ : s₁.sized := ite_sized (countBy_sized h) h
    refine onTile_sized (ite_sized hs₁ (countBy_sized hs₁)) fun _ h₁ => ?_
    extract_lets
    split <;> exact h₁
  · exact hs

/-! ### Dispatch -/

theorem execEmit_sized {f} (hs : s.sized) : NextSized (execEmit f s) :=
  beadOp_sized hs fun _ _ h => emitThen_sized h fun _ => advance_sized

theorem execBari_sized {f} (hs : s.sized) : NextSized (execBari f s) :=
  beadOp_sized hs fun _ _ h => emitThen_sized h fun _ => advance_sized

theorem execLd_sized {f} (hs : s.sized) : NextSized (execLd f s) :=
  memOp_sized hs fun _ _ h => placed_sized h fun _ _ => loadFrom_sized

theorem execLdv_sized {f} (hs : s.sized) : NextSized (execLdv f s) :=
  memOp_sized hs fun _ _ h => placed_sized h fun _ _ => loadFrom_sized

theorem exec_sized {i} (hs : s.sized) : NextSized (exec i s) := by
  cases i with
  | nop => exact advance_sized hs
  | trap => exact issue_sized hs fun _ => trap_sized
  | halt => exact execHalt_sized hs
  | sysrd | time => exact issue_sized hs fun _ => result_sized
  | add | sub | adds | subs | mul | mulh | mad | neg | abs | min | max => exact intOp_sized hs
  | div | rem => exact intCodes_sized hs
  | addImm | subImm | mulImm | minImm | maxImm => exact intImm_sized hs
  | and | or | xor | not | andn | shl | shr | sha | rot | clz | popc | brev | bext | bins => exact bitOp_sized hs
  | andImm | orImm | xorImm | andnImm | shlImm | shrImm | shaImm | rotImm => exact bitImm_sized hs
  | cmp => exact execCmp_sized hs
  | sel => exact execSel_sized hs
  | mov => exact execMov_sized hs
  | movLane => exact execMovLane_sized hs
  | movid => exact execMovid_sized hs
  | lea => exact alu_sized hs fun _ _ => Tile.writeX_sized
  | movi => exact execMovi_sized hs
  | movhi => exact execMovhi_sized hs
  | pfx | lnred | bcast | shuf | compact | pcnt => exact alu_sized hs fun _ _ => Tile.writeV_sized
  | expand => exact execExpand_sized hs
  | pand => exact execPand_sized hs
  | por | pxor => exact predOp_sized hs
  | pnot => exact alu_sized hs fun _ _ => Tile.writeP_sized
  | fadd | fsub | fmul | fdiv => exact fp2_sized hs
  | fma | fms | fnma => exact fp3_sized hs
  | fsqrt | frcp | frsq => exact fp1_sized hs
  | fmin | fmax | fabs | fneg | fclass | frint | fgetexp | fexp2f | fexpins => exact fpCodes_sized hs
  | fcmp => exact execFcmp_sized hs
  | fcvt => exact execFcvt_sized hs
  | fcvtFrom => exact execFcvtFrom_sized hs
  | ftoi => exact execFtoi_sized hs
  | itof => exact execItof_sized hs
  | fpack => exact execFpack_sized hs
  | funpack => exact execFunpack_sized hs
  | emit => exact execEmit_sized hs
  | bari => exact execBari_sized hs
  | route => exact execRoute_sized hs
  | split => exact execSplit_sized hs
  | merge => exact execMerge_sized hs
  | recirc => exact execRecirc_sized hs
  | accept => exact execAccept_sized hs
  | drop => exact execDrop_sized hs
  | hold => exact execHold_sized hs
  | newb => exact execNewb_sized hs
  | endb => exact beadOp_sized hs fun _ _ => leave_sized
  | tok => exact execTok_sized hs
  | swi => exact execSwi_sized hs
  | ld => exact execLd_sized hs
  | ldv => exact execLdv_sized hs
  | st => exact execSt_sized hs
  | stv => exact execStv_sized hs
  | pld => exact execPld_sized hs
  | pst => exact execPst_sized hs
  | pclear => exact execPclear_sized hs
  | sld => exact execSld_sized hs
  | sst => exact execSst_sized hs
  | pfetch => exact execPfetch_sized hs
  | fence => exact execFence_sized hs
  | tfence => exact execTfence_sized hs
  | atom => exact execAtom_sized hs
  | atomTree => exact execAtomTree_sized hs
  | wait => exact execWait_sized hs
  | hbarArrive => exact execHbarArrive_sized hs
  | hbarWait => exact execHbarWait_sized hs
  | hbarAw => exact execHbarAw_sized hs
  | bsync => exact execBsync_sized hs
  | cntrEv => exact execCntrEv_sized hs
  | cntrTask => exact execCntrTask_sized hs
  | timeLeft => exact execTimeLeft_sized hs
  | cpy | dense | sparsify | a2a | coll => exact enginePort_sized hs
  | cpyChain | denseChain | sparsifyChain | a2aChain | collChain => exact engineChain_sized hs
  | chapp => exact syncOp_sized hs fun _ => chainAppend_sized
  | taskq => exact execTaskq_sized hs
  | lpatch => exact execLpatch_sized hs
  | larm => exact execLarm_sized hs
  | mma | mmas | mmaw | accz | accrd | accwr | acccvt | seedx | sfit | ssrch | lshb | tpose | deq =>
    dsimp only [exec, execMma, execMmas, execMmaw, execAccz, execAccrd, execAccwr, execAcccvt, execSeedx, execSfit, execSsrch,
      execLshb, execTpose, execDeq]
    exact matrixOp_sized hs
  | quant => exact execQuant_sized hs
  | longLatencyResult => exact execLongLatencyResult_sized hs
  | beadhArrival => exact execBeadhArrival_sized hs
  | beadStart => exact execBeadStart_sized hs
  | tokenBeadForm => exact execTokenBeadForm_sized hs
  | ceControlToken => exact execCeControlToken_sized hs
  | selJoinFire => exact execSelJoinFire_sized hs
  | elementSwitch => exact execElementSwitch_sized hs
  | barForward => exact execBarForward_sized hs
  | linkBeatReceive => exact execLinkBeatReceive_sized hs
  | swRt | swFork => exact passBeat_sized hs
  | swJoin => exact execSwJoin_sized hs
  | rootSourceStart => exact execRootSourceStart_sized hs
  | scannerRef => exact execScannerRef_sized hs
  | scannerStop => exact execScannerStop_sized hs
  | scannerDone => exact execScannerDone_sized hs
  | scannerSkip => exact execScannerSkip_sized hs
  | scnTSeek => exact execScnTSeek_sized hs
  | mrgI => exact execMrgI_sized hs
  | mrgU => exact execMrgU_sized hs
  | rptCrd => exact execRptCrd_sized hs
  | rptStop => exact execRptStop_sized hs
  | rptDone => exact unitStep_sized hs fun _ _ _ => rptEnd_sized
  | rdcVal => exact execRdcVal_sized hs
  | rdcStop => exact execRdcStop_sized hs
  | rdcDone => exact unitStep_sized hs fun _ _ _ => rdcEnd_sized
  | lwrEntry => exact execLwrEntry_sized hs
  | lwrStop => exact execLwrStop_sized hs
  | lwrDone => exact unitStep_sized hs fun _ _ _ => lwrEnd_sized
  | lwrTStore => exact execLwrTStore_sized hs
  | agAff => exact execAgAff_sized hs
  | agInd => exact execAgInd_sized hs
  | iseParamRead => exact execIseParamRead_sized hs
  | iseValueReturn => exact execIseValueReturn_sized hs
  | agWr => exact execAgWr_sized hs
  | xfTpose => exact execXfTpose_sized hs
  | xfQuant => exact execXfQuant_sized hs
  | xfScale => exact execXfScale_sized hs
  | xfBmap => exact execXfBmap_sized hs
  | matrixOperandPhase => exact execMatrixOperandPhase_sized hs
  | matrixComputeComplete => exact execMatrixComputeComplete_sized hs
  | hsqAtomApply => exact execHsqAtomApply_sized hs
  | hsqBarrierArrival => exact execHsqBarrierArrival_sized hs
  | combiningArrival => exact execCombiningArrival_sized hs
  | treeHoldExpiry => exact execTreeHoldExpiry_sized hs
  | waitTimeout => exact execWaitTimeout_sized hs
  | waitDequeue => exact execWaitDequeue_sized hs
  | bsyncProceed => exact execBsyncProceed_sized hs
  | idxfullReissue => exact execIdxfullReissue_sized hs
  | engineCommandStart => exact execEngineCommandStart_sized hs
  | engineCommandComplete => exact execEngineCommandComplete_sized hs
  | engineFault => exact execEngineFault_sized hs
  | a2aDelivery => exact execA2aDelivery_sized hs
  | a2aResume => exact execA2aResume_sized hs
  | collMatch => exact execCollMatch_sized hs
  | chainWalk => exact execChainWalk_sized hs
  | mitBlockRead => exact mitTry_sized hs fun _ _ h => h
  | mitRefetch => exact mitTry_sized hs fun _ _ h => raise_sized h
  | counterHalving => exact execCounterHalving_sized hs
  | tfenceAck => exact execTfenceAck_sized hs
  | timeAllowanceExpiry => exact execTimeAllowanceExpiry_sized hs
  | admissionAgeExpiry => exact execAdmissionAgeExpiry_sized hs
  | exhaustion => exact execExhaustion_sized hs
  | quiescenceReport => exact execQuiescenceReport_sized hs
  | dependenceDecrement => exact execDependenceDecrement_sized hs
  | allocate => exact execAllocate_sized hs
  | loaderRead => exact execLoaderRead_sized hs
  | verificationPass => exact execVerificationPass_sized hs
  | successorPreload => exact execSuccessorPreload_sized hs
  | configScrub => exact execConfigScrub_sized hs
  | configRepairComplete => exact execConfigRepairComplete_sized hs
  | launchArm => exact execLaunchArm_sized hs
  | launchStart => exact execLaunchStart_sized hs
  | launchPacket => exact execLaunchPacket_sized hs
  | pendingPieceEnqueue => exact execPendingPieceEnqueue_sized hs
  | dieReport => exact execDieReport_sized hs
  | removalComplete => exact execRemovalComplete_sized hs
  | faultPost => exact execFaultPost_sized hs
  | heldRecordPost => exact execHeldRecordPost_sized hs
  | preemptEnd => exact execPreemptEnd_sized hs
  | saveComplete => exact execSaveComplete_sized hs
  | regionRestore => exact execRegionRestore_sized hs
  | checkComplete => exact execCheckComplete_sized hs
  | watchdogExpiry => exact execWatchdogExpiry_sized hs
  | attestResponse => exact execAttestResponse_sized hs
  | powerSample => exact execPowerSample_sized hs
  | throttleUpdate => exact execThrottleUpdate_sized hs
  | patrolScrub => exact execPatrolScrub_sized hs
  | podBarrierRelease => exact execPodBarrierRelease_sized hs
  | bsyncDeadline => exact execBsyncDeadline_sized hs
  | outputBeat8Clk => exact execOutputBeat8Clk_sized hs
  | rd => exact execRd_sized hs
  | wr => exact execWr_sized hs
  | wrc => exact execWrc_sized hs
  | append => exact execAppend_sized hs
  | flush => exact execFlush_sized hs
  | hostTfence => exact execHostTfence_sized hs
  | cpl => exact execCpl_sized hs
  | ucieCrcReplay => exact execUcieCrcReplay_sized hs
  | ucieModuleFail => exact execUcieModuleFail_sized hs
  | contextActivate => exact whenReady_sized hs fun _ => activate_sized
  | contextRemove => exact whenReady_sized hs fun _ => startRemoval_sized
  | fqheadWrite => exact whenReady_sized hs fun _ => writeHead_sized
  | herrClear => exact whenReady_sized hs fun _ h => h
  | registerWrite => exact execRegisterWrite_sized hs
  | resume => exact execResume_sized hs
  | abort => exact execAbort_sized hs
  | kill => exact execKill_sized hs
  | skip => exact execSkip_sized hs
  | retry => exact execRetry_sized hs
  | preemptBoundary => exact execPreemptBoundary_sized hs
  | preemptAbort => exact execPreemptAbort_sized hs
  | preemptFreezeSave => exact execPreemptFreezeSave_sized hs
  | resumectx => exact execResumectx_sized hs
  | go => exact goNow_sized hs
  | reset => exact resetNow_sized hs
  | powerOnReset => exact resetTo_sized hs
  | initComplete => exact execInitComplete_sized hs
  | attestQuote | attestCertChain => exact attestNow_sized hs
  | thermalTrip => exact sample_sized hs
  | eccError => exact execEccError_sized hs
  | tileFence => exact fenceTile_sized hs
  | vaultFence => exact fenceVault_sized hs
  | hbmChannelFence => exact fenceChannel_sized hs
  | dieFence => exact fenceDie_sized hs
  | portFence => exact fencePort_sized hs
  | flitReceive => exact execFlitReceive_sized hs
  | flitCrcRetry => exact execFlitCrcRetry_sized hs
  | portRetrain => exact execPortRetrain_sized hs
  | keepaliveLoss => exact execKeepaliveLoss_sized hs
  | podcfgWrite => exact writePodcfg_sized hs
  | monctlSet | monctlClr => exact whenReady_sized hs fun _ => writeMonctl_sized
  | portTrainingComplete => exact execPortTrainingComplete_sized hs

/-! ### The tick -/

theorem State.tick_sized (hs : s.sized) : s.tick.sized := by
  unfold State.tick
  extract_lets _ s₁ _ _ _ _ _ _ s₂ s₃ _ s₄ s₅
  have hs₁ : s₁.sized := latchLost_sized (expireWaits_sized hs)
  have hs₂ : s₂.sized := State.Sizes.sized { hs₁.sizes with dies := List.length_mapIdx.trans hs₁.sizes.dies }
  have hs₃ : s₃.sized := foldl_sized (fun _ _ => count_sized) hs₂
  have hs₄ : s₄.sized := foldl_sized (fun _ _ h => onTile_sized h fun _ hT => hT) hs₃
  have hs₅ : s₅.sized := foldl_sized (fun _ _ => evacuate_sized) (expireSamples_sized (lattice_sized hs₄))
  exact foldl_sized (fun _ _ => finishSwitch_sized) (retryAll_sized hs₅)

/-! ### The step -/

theorem elementTurn_sized {t} (hs : s.sized) : NextSized (elementTurn s t) := by
  unfold elementTurn
  refine ite_nextSized ?_ hs
  split
  · exact exec_sized hs
  · exact trivial

theorem step_sized (hs : s.sized) : NextSized (step s) := by
  unfold step
  split
  · exact tick_sized hs
  · exact exec_sized hs
  · exact performTx_sized hs
  · exact elementTurn_sized hs

end

/-- Settles O60: a step is a tick, an operation, a host transaction or an element's turn, and each keeps a sized state sized. -/
theorem stepKeepsSizes : Obligations.StepKeepsSizes := by
  intro s t hs e
  have h := step_sized hs
  rw [e] at h
  exact h

end Sys2Proof.Machine
end

section
namespace Sys2Proof.Machine

/-! ### Empty sources (R20, R124) -/

/-- An instruction issues from the sources that a row of a `sourced` list names: it has its effect only once these are full. -/
def State.IssuesFrom (s : State) (q : Instr × Bool × List Src) : Prop := ∃ effect, exec q.1 s = .next (s.issue q.2.1 q.2.2 effect)

section
variable {i : Instr} {s : State} {f : FmtA} {g : FmtI} {n : Nat}

/-- A row of an element-wise instruction of Format A. -/
def State.IssuesA (s : State) (f : FmtA) (n : Nat) (i : Instr) : Prop :=
  s.IssuesFrom (i, executes (s.me.effMask f.pg f.ps) (!Spec.isX f.dst), srcsA f n)

/-- A row of an immediate form. -/
def State.IssuesI (s : State) (f : FmtI) (i : Instr) : Prop :=
  s.IssuesFrom (i, executes (s.me.effMask f.pg f.ps) (!Spec.isX f.dst), [⟨f.sa, f.fe == 1, 0⟩])

theorem alu_issues {e} (h : exec i s = .next (s.alu f n e)) : s.IssuesA f n i :=
  ⟨fun u => (u.onMe (e (s.me.effMask f.pg f.ps))).advance, h⟩

theorem intCodes_issues {e} (h : exec i s = .next (s.intCodes f n e)) : s.IssuesA f n i := by
  unfold State.intCodes at h; exact alu_issues h

theorem intOp_issues {e} (h : exec i s = .next (s.intOp f n e)) : s.IssuesA f n i := by
  unfold State.intOp at h; exact intCodes_issues h

theorem bitOp_issues {b e} (h : exec i s = .next (s.bitOp f n b e)) : s.IssuesA f n i := by
  unfold State.bitOp at h; exact alu_issues h

theorem predOp_issues {e} (h : exec i s = .next (s.predOp f e)) : s.IssuesA f 2 i := by
  unfold State.predOp at h; exact alu_issues h

theorem fpCodes_issues {e} (h : exec i s = .next (s.fpCodes f n e)) : s.IssuesA f n i := by
  unfold State.fpCodes at h; exact alu_issues h

theorem fp1_issues {e} (h : exec i s = .next (s.fp1 f e)) : s.IssuesA f 1 i := by
  unfold State.fp1 at h; exact fpCodes_issues h

theorem fp2_issues {e} (h : exec i s = .next (s.fp2 f e)) : s.IssuesA f 2 i := by
  unfold State.fp2 at h; exact fpCodes_issues h

theorem fp3_issues {e} (h : exec i s = .next (s.fp3 f e)) : s.IssuesA f 3 i := by
  unfold State.fp3 at h; exact fpCodes_issues h

theorem intImm_issues {e} (h : exec i s = .next (s.intImm g e)) : s.IssuesI g i :=
  ⟨_, by unfold State.intImm State.aluI at h; exact h⟩

theorem bitImm_issues {e} (h : exec i s = .next (s.bitImm g e)) : s.IssuesI g i :=
  ⟨_, by unfold State.bitImm State.aluI at h; exact h⟩

end

theorem State.aluInstrs_issue (s : State) (f : FmtA) : ∀ q ∈ aluInstrs f, s.IssuesA f q.2 q.1 := by
  simp only [aluInstrs, List.forall_mem_append, List.forall_mem_cons, List.not_mem_nil, false_implies, implies_true, and_true]
  refine ⟨⟨⟨⟨⟨⟨?integer, ?logical⟩, ?move⟩, ?lane⟩, ?predicate⟩, ?float⟩, ?convert⟩
  case integer =>
    exact ⟨intOp_issues rfl, intOp_issues rfl, intOp_issues rfl, intOp_issues rfl, intOp_issues rfl, intOp_issues rfl, intOp_issues
      rfl, intCodes_issues rfl, intCodes_issues rfl, intOp_issues rfl, intOp_issues rfl, intOp_issues rfl, intOp_issues rfl⟩
  case logical => and_intros <;> exact bitOp_issues rfl
  case move => and_intros <;> exact alu_issues rfl
  case lane => and_intros <;> exact alu_issues rfl
  case predicate => exact ⟨predOp_issues rfl, predOp_issues rfl, alu_issues rfl, alu_issues rfl⟩
  case float =>
    exact ⟨fp2_issues rfl, fp2_issues rfl, fp2_issues rfl, fp3_issues rfl, fp3_issues rfl, fp3_issues rfl, fp2_issues rfl, fp1_issues
      rfl, fp1_issues rfl, fp1_issues rfl, fpCodes_issues rfl, fpCodes_issues rfl, fpCodes_issues rfl, fpCodes_issues rfl, alu_issues
      rfl, fpCodes_issues rfl, fpCodes_issues rfl, fpCodes_issues rfl, fpCodes_issues rfl, fpCodes_issues rfl⟩
  case convert => and_intros <;> exact alu_issues rfl

theorem State.immInstrs_issue (s : State) (f : FmtI) : ∀ i ∈ immInstrs f, s.IssuesI f i := by
  simp only [immInstrs, List.forall_mem_cons, List.not_mem_nil, false_implies, implies_true, and_true]
  exact ⟨intImm_issues rfl, intImm_issues rfl, intImm_issues rfl, intImm_issues rfl, intImm_issues rfl, bitImm_issues rfl,
      bitImm_issues rfl, bitImm_issues rfl, bitImm_issues rfl, bitImm_issues rfl, bitImm_issues rfl, bitImm_issues rfl, bitImm_issues
      rfl⟩

theorem State.sourcedAI_issue (s : State) (a : FmtA) (i : FmtI) : ∀ q ∈ s.sourcedAI a i, s.IssuesFrom q := by
  simp only [sourcedAI, List.forall_mem_append, List.forall_mem_map, List.forall_mem_singleton]
  exact ⟨⟨s.aluInstrs_issue a, s.immInstrs_issue i⟩, _, rfl⟩

theorem State.sourcedCM_issue (s : State) (c : FmtC) (m : FmtM) : ∀ q ∈ s.sourcedCM c m, s.IssuesFrom q := by
  simp only [sourcedCM, List.forall_mem_append, List.forall_mem_map, List.forall_mem_cons, List.not_mem_nil, false_implies,
    implies_true, and_true]
  refine ⟨⟨⟨_, rfl⟩, ⟨_, rfl⟩, ⟨_, rfl⟩, ⟨_, rfl⟩, ?newb⟩, ?memory⟩
  case newb =>
    simp only [IssuesFrom, exec, execNewb, beadOp, List.map_map, Function.comp_def]
    exact ⟨_, rfl⟩
  case memory => and_intros <;> exact ⟨_, rfl⟩

theorem State.sourcedXY_issue (s : State) (x : FmtX) (y : FmtY) : ∀ q ∈ s.sourcedXY x y, s.IssuesFrom q := by
  simp only [sourcedXY, List.forall_mem_append, List.forall_mem_map, List.forall_mem_cons, List.not_mem_nil, false_implies,
    implies_true, and_true]
  refine ⟨⟨?matrix, ?sync⟩, ?counter⟩
  case matrix => and_intros <;> exact ⟨_, rfl⟩
  case sync => and_intros <;> exact ⟨_, rfl⟩
  case counter => and_intros <;> exact ⟨_, rfl⟩

theorem ready_block {T : Tile} {srcs : List Src} (he : ∃ x ∈ srcs, T.full x.spec = false)
    (hf : ∀ x ∈ srcs, T.full x.spec = false → x.fe = false) : ready T srcs = .block := by
  obtain ⟨x, hx, hx0⟩ := he
  have hm : x ∈ srcs.filter fun x => !T.full x.spec := by simp [hx, hx0]
  have hn : (srcs.filter fun x => !T.full x.spec).find? Src.fe = none := by
    simp only [List.find?_eq_none, List.mem_filter]
    rintro y ⟨hy, hy0⟩
    simp [hf y hy (by simpa using hy0)]
  unfold ready
  split
  next e => simp [e] at hm
  next y ys e => rw [← e, hn]

theorem ready_trap {T : Tile} {srcs : List Src} (h : ∃ x ∈ srcs, T.full x.spec = false ∧ x.fe = true) :
    ∃ x ∈ srcs, T.full x.spec = false ∧ x.fe = true ∧ ready T srcs = .trap x.spec.toNat x.pos := by
  obtain ⟨x, hx, hx0, hx1⟩ := h
  obtain ⟨y, hy⟩ : ∃ y, (srcs.filter fun x => !T.full x.spec).find? Src.fe = some y := by
    rw [← Option.isSome_iff_exists, List.find?_isSome]
    exact ⟨x, by simp [hx, hx0], hx1⟩
  obtain ⟨hys, hy0⟩ := List.mem_filter.1 (List.mem_of_find?_eq_some hy)
  refine ⟨y, hys, by simpa using hy0, List.find?_some hy, ?_⟩
  unfold ready
  split
  next e => rw [e] at hy; cases hy
  next z zs e => rw [← e, hy]

/-- Settles O8: every instruction that reads a register takes its effect through `State.issue`, which asks `ready` for the sources. -/
theorem emptySourcesBlockOrTrap : Obligations.EmptySourcesBlockOrTrap := by
  intro s a fi c m x y i srcs hi he
  obtain ⟨effect, hk⟩ : s.IssuesFrom (i, true, srcs) := by
    rcases List.mem_append.1 hi with hi | hi
    · rcases List.mem_append.1 hi with hi | hi
      · exact s.sourcedAI_issue a fi _ hi
      · exact s.sourcedCM_issue c m _ hi
    · exact s.sourcedXY_issue x y _ hi
  rw [hk]
  refine ⟨fun hf => ?_, fun ht => ?_⟩
  · simp [State.issue, ready_block he hf]
  · obtain ⟨z, hz, hz0, hz1, hr⟩ := ready_trap ht
    exact ⟨z, hz, hz0, hz1, by simp [State.issue, hr]⟩

end Sys2Proof.Machine
end

section
namespace Sys2Proof.Machine

/-! ### Long-latency producers (R20, R77) -/

namespace Tile

/-- A tile with another register file, bead slots, operations or counter of operations: the full bits depend on the registers and the
oldest bead alone. -/
theorem full_congr {T U : Tile} (hx : U.x = T.x) (hv : U.v = T.v) (hb : U.beads = T.beads) (q : BitVec 6) : U.full q = T.full q := by
  simp only [Tile.full, Tile.vreg, Tile.head?, hx, hv, hb]

theorem full_setVreg_of_vector {T : Tile} {r q : BitVec 6} (x : VReg) (hT : T.sized) (h : T.has r) (hr : 32 ≤ r.toNat ∧ r.toNat < 56) :
    (T.setVreg r x).full q = if q = r then x.full else T.full q := by
  obtain ⟨-, hv, -⟩ := hT
  have hne : q ≠ r → q.toNat ≠ r.toNat := fun n e => n (BitVec.eq_of_toNat_eq e)
  by_cases h48 : r.toNat < 48
  · have hin : r.toNat - 32 < T.v.length := by omega
    split
    next e =>
      subst e
      have : ¬ q.toNat < 32 := by omega
      have : ¬ 56 ≤ q.toNat := by omega
      simp [Tile.setVreg, Tile.full, Tile.vreg, Spec.isX, Spec.isP, List.getElem?_set_self hin, *]
    next e =>
      by_cases hq : q.toNat < 32
      · simp [Tile.setVreg, Tile.full, Spec.isX, *]
      · have : r.toNat - 32 ≠ q.toNat - 32 := by have := hne e; omega
        simp [Tile.setVreg, Tile.full, Tile.vreg, Tile.head?, Spec.isX, List.getElem?_set_ne, *]
  · obtain ⟨b, hb, hk⟩ := h ⟨by omega, hr.2⟩
    obtain ⟨rest, hrest⟩ : ∃ rest, T.beads = b :: rest := List.head?_eq_some_iff.1 hb
    split
    next e =>
      subst e
      have : ¬ q.toNat < 32 := by omega
      have : ¬ 56 ≤ q.toNat := by omega
      simp [Tile.setVreg, Tile.onHead, Tile.full, Tile.vreg, Tile.head?, Spec.isX, Spec.isP, *]
    next e =>
      by_cases hq : q.toNat < 48
      · simp [Tile.setVreg, Tile.onHead, Tile.full, Tile.vreg, *]
      · have : r.toNat - 48 ≠ q.toNat - 48 := by have := hne e; omega
        simp [Tile.setVreg, Tile.onHead, Tile.full, Tile.vreg, Tile.head?, List.getElem?_set_ne, *]

theorem full_setX {T : Tile} {r q : BitVec 6} (v : Word) (hT : T.sized) (hr : r.toNat < 32) (h0 : r ≠ 0) :
    Tile.full { T with x := T.x.set r.toNat ⟨v, false⟩ } q = if q = r then false else T.full q := by
  obtain ⟨hx, -, -⟩ := hT
  split
  next e =>
    subst e
    simpa [Tile.full, Spec.isX, hr, hx] using h0
  next e =>
    have : r.toNat ≠ q.toNat := fun n => e (BitVec.eq_of_toNat_eq n.symm)
    simp [Tile.full, Tile.vreg, Tile.head?, List.getElem?_set_ne this]

theorem readX_setX_same {T : Tile} {r : Nat} (f : Bool) (h : r < T.x.length) : Tile.readX { T with x := T.x.set r ⟨T.readX r, f⟩ } r = T.readX r := by
  unfold Tile.readX
  split <;> simp [*]

/-- What `issueOp` does to the full bits: its destination is empty, unless it is x0, and every other register is as before. -/
theorem full_issueOp {T : Tile} {r : BitVec 6} (k : OpKind) (m : Mask) (v : Option Vec) (acq : Bool) (i : Instr) (hT : T.sized) (h : T.has r)
    (hP : Spec.isP r = false) (q : BitVec 6) : (T.issueOp k r m v acq i).full q = if q = r then r == 0 else T.full q := by
  have h56 : r.toNat < 56 := by simpa [Spec.isP] using hP
  by_cases hX : r.toNat < 32
  · by_cases h0 : r = 0
    · subst h0
      rw [(full_congr rfl rfl rfl q : (T.issueOp k 0 m v acq i).full q = T.full q)]
      split
      next e => subst e; rfl
      next e => rfl
    · simp only [Tile.issueOp, Tile.destOf, Spec.isX, hX, h0, decide_true, if_true, if_false, beq_eq_false_iff_ne.2 h0]
      exact (full_congr rfl rfl rfl q).trans (full_setX _ hT hX h0)
  · have hr0 : (r == 0) = false := by rw [beq_eq_false_iff_ne]; rintro rfl; exact hX (by decide)
    have hset := full_setVreg_of_vector (q := q) ⟨T.readV r, false⟩ hT h ⟨by omega, h56⟩
    rw [hr0]
    by_cases h48 : r.toNat < 48
    · simp only [Tile.issueOp, Tile.destOf, Spec.isX, hX, h48, decide_false, Bool.false_eq_true, if_true, if_false]
      exact (full_congr rfl rfl rfl q).trans hset
    · obtain ⟨b, hb, -⟩ := h ⟨by omega, h56⟩
      simp only [Tile.issueOp, Tile.destOf, Spec.isX, hX, h48, hb, decide_false, Bool.false_eq_true, if_false]
      exact (full_congr rfl rfl rfl q).trans hset

theorem readX_issueOp {T : Tile} {r : BitVec 6} (k : OpKind) (m : Mask) (v : Option Vec) (acq : Bool) (i : Instr) (hT : T.sized)
    (hX : Spec.isX r = true) : (T.issueOp k r m v acq i).readX r.toNat = T.readX r.toNat := by
  obtain ⟨hx, -, -⟩ := hT
  have hr : r.toNat < T.x.length := by simpa [Spec.isX, hx] using hX
  unfold Tile.issueOp Tile.destOf
  by_cases h0 : r = 0
  · subst h0; rfl
  · simp only [hX, h0, if_true, if_false]
    exact readX_setX_same _ hr

theorem mem_ops_issueOp (T : Tile) (k : OpKind) (r : BitVec 6) (m : Mask) (v : Option Vec) (acq : Bool) (i : Instr) :
    ⟨T.nop, k, T.destOf r, m, v, acq, i⟩ ∈ (T.issueOp k r m v acq i).ops := by
  simp [Tile.issueOp]

end Tile

/-- Settles O21: `Tile.issueOp` marks its destination empty and appends its entry. -/
theorem longLatencyIssue : Obligations.LongLatencyIssue := by
  intro T k r m v acq i hT h hP
  have hfull := Tile.full_issueOp k m v acq i hT h hP
  exact ⟨by simp [hfull], Tile.readX_issueOp k m v acq i hT, rfl, ⟨_, T.mem_ops_issueOp k r m v acq i, rfl, rfl, rfl, rfl, rfl, rfl⟩,
    fun q hq => by rw [hfull, if_neg hq]⟩

end Sys2Proof.Machine
end

section
namespace Sys2Proof.Machine

/-! ### Bead instructions (R145, R148 to R150) -/

/-- A bead instruction that can issue takes its effect under its effective mask. -/
theorem beadOp_of_can {s : State} {f : FmtC} {srcs : List Src} (h : s.canC f srcs) (effect : Mask → State → State) :
    beadOp s f srcs effect = .next (effect (s.me.effMask f.pg f.ps) s) := by
  unfold beadOp
  exact congrArg _ (s.issue_of_can h _)

/-- The room that `fits` asks for is what `emitThen` checks. -/
theorem State.fits_iff {s : State} {ports : List (Nat × List Beat)} :
    s.fits ports ↔ (ports.all fun p => s.me.outRoom p.1 ((ports.filter fun q => q.1 == p.1).map fun q => q.2.length).sum) = true := by
  simp [State.fits, Tile.outRoom]

/-- Once earlier accesses are performed and every port has room, `emitThen` puts the beats on the ports and goes on. -/
theorem State.emitThen_of_fits {s : State} {ports : List (Nat × List Beat)} (hp : s.me.unperformed = false) (hf : s.fits ports)
    (k : State → State) : s.emitThen ports k = k (s.sends ports) := by
  unfold State.emitThen State.sends
  simp only [hp, fits_iff.1 hf, Bool.false_eq_true, if_false, if_true]

/-- Otherwise it leaves the state as it is. -/
theorem State.emitThen_of_not_fits {s : State} {ports : List (Nat × List Beat)} (h : s.me.unperformed = true ∨ ¬ s.fits ports)
    (k : State → State) : s.emitThen ports k = s := by
  rw [fits_iff] at h
  unfold State.emitThen
  rcases h with h | h
  · simp only [h, if_true]
  · simp only [h, Bool.false_eq_true, if_false, ite_self]

theorem State.emitsThen_of_emitThen {s : State} {i : Instr} {ports : List (Nat × List Beat)} {after : State → State}
    (h : exec i s = .next (s.emitThen ports after)) : s.emitsThen i ports after :=
  ⟨fun hp hf => h.trans (congrArg _ (emitThen_of_fits hp hf _)), fun hn => h.trans (congrArg _ (emitThen_of_not_fits hn _))⟩

/-- The loop count of a bead that goes round once more saturates at 255 (R148). -/
theorem loopc_saturates (c : BitVec 8) : BitVec.ofNat 8 (min (c.toNat + 1) 255) = if c = 255 then 255 else c + 1 := by
  split
  next h => subst h; rfl
  next h =>
    have hc : c.toNat ≠ 255 := fun e => h (BitVec.eq_of_toNat_eq e)
    have := c.isLt
    rw [min_eq_left (by omega)]
    exact BitVec.eq_of_toNat_eq (by simp)

/-- A bead at the head of an input stands behind its header. -/
theorem inHead_of_beadAt {T : Tile} {k n : Nat} {h : Beat} {vs : List Vec} (e : beadAt (T.inQ k) = some (h, vs, n)) :
    T.inHead k = some h ∧ h.kind = 7 := by
  unfold beadAt at e
  unfold Tile.inHead
  cases hb : (T.inQ k).beats with
  | nil => simp [hb] at e
  | cons b rest =>
    simp only [hb, Option.ite_none_right_eq_some, Option.some.injEq, Prod.mk.injEq] at e
    obtain ⟨⟨h7, -⟩, rfl, -⟩ := e
    exact ⟨rfl, h7⟩

/-- What the running element does to its own tile, and going on, leaves every other tile. -/
theorem State.tile_onMe_advance_of_ne {u : Nat} (s : State) (h : u ≠ s.here) (f : Tile → Tile) : (s.onMe f).advance.tile u = s.tile u :=
  (tile_onTile_of_ne h.symm _ _).trans (tile_onTile_of_ne h.symm s f)

section
variable {f : FmtC} {s : State}

/-- What stands in the place of the bead that has merged with one at input k (R149). -/
def mergedBead (T : Tile) (k : Nat) (h : Beat) (vs : List Vec) : Bead :=
  let b := headBead T
  let other : Mask := BitVec.ofNat 16 h.data.toNat
  { b with
    lmask := b.lmask ||| other
    loopc := BitVec.ofNat 8 (max b.loopc.toNat (bits h.data.toNat 48 8))
    bseq := if T.stampAt k < b.stamp then BitVec.ofNat 16 (bits h.data.toNat 32 16) else b.bseq
    slots := (List.range b.slots.length).map fun j =>
      ⟨merge (b.slots.getD j ⟨0, false⟩).val (vs.getD j 0) (other &&& ~~~b.lmask), (b.slots.getD j ⟨0, false⟩).full⟩ }

theorem exec_merge_none (h : s.canC f []) (e : s.me.inHead ((setBits f.pin).headD 0) = none) : exec (.merge f) s = .next s := by
  change execMerge f s = _
  simp only [execMerge, beadOp_of_can h, e]

theorem exec_merge_stop {b : Beat} (h : s.canC f []) (e : s.me.inHead ((setBits f.pin).headD 0) = some b) (hk : b.kind = 3 ∨ b.kind = 4) :
    exec (.merge f) s = .next ((s.onMe fun T => T.popIn ((setBits f.pin).headD 0)).count (dieOf s.here) .mergeStop).advance := by
  change execMerge f s = _
  simp only [execMerge, beadOp_of_can h, e, hk, if_true]

theorem exec_merge_bead {b : Beat} {vs : List Vec} {n : Nat} (h : s.canC f [])
    (e : beadAt (s.me.inQ ((setBits f.pin).headD 0)) = some (b, vs, n)) :
    let k := (setBits f.pin).headD 0
    let other : Mask := BitVec.ofNat 16 b.data.toNat
    exec (.merge f) s = .next ((if other &&& (headBead s.me).lmask = 0 then id else fun (u : State) => u.count (dieOf s.here) .mergeOverlap)
      ((s.onMe fun T => ((T.setInQ k ⟨(T.inQ k).beats.drop n, 0⟩).popStamp k).onHead fun _ => mergedBead s.me k b vs)).advance) := by
  intro k other
  obtain ⟨hb, h7⟩ := inHead_of_beadAt e
  change execMerge f s = _
  have hk : ¬ (b.kind = 3 ∨ b.kind = 4) := by omega
  simp only [execMerge, beadOp_of_can h, hb, e, hk, if_false]
  by_cases ho : BitVec.ofNat 16 b.data.toNat &&& (headBead s.me).lmask = 0
  · simp only [ho, other, if_true]; rfl
  · simp only [ho, other, if_false]; rfl

theorem exec_accept_none (h : s.canC f []) (e : s.me.inHead ((setBits f.pin).headD 0) = none) : exec (.accept f) s = .next s := by
  change execAccept f s = _
  simp only [execAccept, beadOp_of_can h, e]

theorem exec_accept_data {b : Beat} (h : s.canC f []) (e : s.me.inHead ((setBits f.pin).headD 0) = some b) (hk : b.kind ≤ 2) :
    exec (.accept f) s = .next (s.onMe fun T => ((T.popIn ((setBits f.pin).headD 0)).writeV f.sa
      (b.data &&& laneBits (maskOf fun i => i < b.count)) (s.me.effMask f.pg f.ps)).writeP (bits f.tgt.toNat 0 3)
        (maskOf fun i => i < b.count) (s.me.effMask f.pg f.ps)).advance := by
  change execAccept f s = _
  simp only [execAccept, beadOp_of_can h, e, hk, if_true]

theorem exec_accept_stop {b : Beat} (h : s.canC f []) (e : s.me.inHead ((setBits f.pin).headD 0) = some b) (hk : b.kind = 3 ∨ b.kind = 4) :
    exec (.accept f) s = .next (s.onMe fun T => ((T.popIn ((setBits f.pin).headD 0)).writeV f.sa
      (splat (BitVec.ofNat 32 (b.kind + 16 * b.stop))) (s.me.effMask f.pg f.ps)).writeP (bits f.tgt.toNat 0 3) 0
        (s.me.effMask f.pg f.ps)).advance := by
  have h2 : ¬ b.kind ≤ 2 := by omega
  change execAccept f s = _
  simp only [execAccept, beadOp_of_can h, e, hk, h2, if_true, if_false]

end

/-- Settles O17: each instruction of the group is a `beadOp`, and each that emits an `emitThen`. -/
theorem beadPortInstructions : Obligations.BeadPortInstructions := by
  unfold Obligations.BeadPortInstructions
  refine ⟨fun f s => ⟨rfl, fun h => ?emit, fun h => ⟨fun hk => ?route, fun hk => ?discard⟩, fun h => ?split, fun h => ?recirc, fun h => ?newb,
    fun h => ⟨?tok, ?bari, ?endb⟩⟩, ?takes⟩
  case emit =>
    apply State.emitsThen_of_emitThen
    change execEmit f s = _
    simp only [execEmit, beadOp_of_can h]
  case route =>
    apply State.emitsThen_of_emitThen
    change execRoute f s = _
    simp only [execRoute, beadOp_of_can h, hk, if_true]
  case discard =>
    change execRoute f s = _
    simp only [execRoute, beadOp_of_can h, hk, Bool.false_eq_true, if_false]
  case split =>
    apply State.emitsThen_of_emitThen
    change execSplit f s = _
    simp only [execSplit, beadOp_of_can h]
  case recirc =>
    apply State.emitsThen_of_emitThen
    change execRecirc f s = _
    simp only [execRecirc, beadOp_of_can h, loopc_saturates]
  case newb =>
    apply State.emitsThen_of_emitThen
    change execNewb f s = _
    simp only [execNewb, beadOp_of_can h]
  case tok =>
    apply State.emitsThen_of_emitThen
    change execTok f s = _
    simp only [execTok, beadOp_of_can h]
  case bari =>
    apply State.emitsThen_of_emitThen
    change execBari f s = _
    simp only [execBari, beadOp_of_can h]
  case endb =>
    change execEndb f s = _
    simp only [execEndb, beadOp_of_can h]
  case takes =>
    intro f s m k h
    refine ⟨fun e => ⟨exec_accept_none h e, exec_merge_none h e⟩,
      fun b e => ⟨exec_accept_data h e, fun hk => ⟨exec_accept_stop h e hk, exec_merge_stop h e hk⟩⟩,
      fun b vs n e => ⟨_, exec_merge_bead h e, ?other, rfl⟩, ?drop, fun e => ?drained, fun e => ?held,
      fun r g e => ⟨fun hg => ?wait, fun hg => ?switch⟩⟩
    case other =>
      split
      · exact ⟨rfl, fun u hu => s.tile_onMe_advance_of_ne hu _⟩
      · exact ⟨rfl, fun u hu => s.tile_onMe_advance_of_ne hu _⟩
    case drop =>
      change execDrop f s = _
      simp only [execDrop, beadOp_of_can h, m]
    case drained =>
      change execHold f s = _
      simp only [execHold, beadOp_of_can h, e, List.isEmpty_nil, if_true]
    case held =>
      change execHold f s = _
      simp only [execHold, beadOp_of_can h, List.isEmpty_iff, e, if_false]
    case wait =>
      change execSwi f s = _
      simp only [execSwi, beadOp_of_can h, e, hg, Bool.false_eq_true, if_false]
    case switch =>
      apply State.emitsThen_of_emitThen
      change execSwi f s = _
      simp only [execSwi, beadOp_of_can h, e, hg, if_true]

end Sys2Proof.Machine
end

section
namespace Sys2Proof.Machine

/-! ### Loads and stores (R151 to R153) -/

theorem length_bytesOf (n v : Nat) : (bytesOf n v).length = n := by
  induction n generalizing v with
  | zero => rfl
  | succ n ih => simp [bytesOf, ih]

/-- Byte i of a little-endian string. -/
theorem getD_bytesOf {n i : Nat} (v : Nat) (h : i < n) : (bytesOf n v).getD i 0 = BitVec.ofNat 8 (v / 256 ^ i) := by
  induction n generalizing v i with
  | zero => omega
  | succ n ih =>
    cases i with
    | zero => simp [bytesOf]
    | succ i =>
      rw [bytesOf, List.getD_cons_succ, ih (v / 256) (by omega), Nat.div_div_eq_div_mul, ← Nat.pow_succ']

theorem cellsAt_zero_bytesOf (n v : Nat) : cellsAt 0 (bytesOf n v) = (List.range n).map fun i => (i, BitVec.ofNat 8 (v / 256 ^ i)) := by
  rw [cellsAt, length_bytesOf]
  refine List.map_congr_left fun i hi => ?_
  rw [Nat.zero_add, getD_bytesOf v (List.mem_range.1 hi)]

/-- An instruction of Format M that can issue takes its effect under its effective mask. -/
theorem memOp_of_can {s : State} {f : FmtM} {vector source : Bool} (h : s.canM f vector source) (effect : Mask → State → State) :
    memOp s f vector source effect = .next (effect (s.me.effMask f.pg f.ps) s) := by
  obtain ⟨hi, hb⟩ := h
  refine congrArg _ ((s.issue_of_can hi _).trans ?_)
  rw [hb, if_neg Bool.false_ne_true]

theorem afterRelease_of_released {s : State} {f : FmtM} (h : s.released f) (k : State → State) : afterRelease s f k = k s := by
  unfold afterRelease
  refine if_neg fun hn => ?_
  obtain ⟨ho, hp⟩ := Bool.and_eq_true_iff.1 hn
  rw [State.outstanding, h ho] at hp
  cases hp

theorem placed_of_at {s : State} {space ea n : Nat} {p : Place} (h : s.resolve space ea n = .at_ p) (k : Place → State → State) :
    placed s space ea n k = k p s := by
  simp only [placed, h]

theorem placed_of_fault {s : State} {space ea n : Nat} {e : Flt} (h : s.resolve space ea n = .fault e) (k : Place → State → State) :
    placed s space ea n k = s.trap e := by
  simp only [placed, h]

section
variable {s s' : State} {f : FmtM}

/-- A page whose bytes the element has nothing still to do to does not hold its load back. -/
theorem State.inOrder.free {q : Page} {n : Nat} (h : s.inOrder q n) : (s.loading q.pa n || (q.cls == 2 && s.pendingOn q.pa)) = false := by
  obtain ⟨hl, hp⟩ := h
  by_cases hc : q.cls = 2
  · simp [hl, hp hc]
  · simp [hl, hc]

/-- A load from where bytes are read issues with them. -/
theorem loadFrom_of_readsAt {p : Place} {bs : List Byte} (i : Instr) (lanes : Mask)
    (h : s.readsAt (.load f.sz.toNat) p (accessBytes f.sz.toNat) s' bs) :
    s.loadFrom f i lanes p
      = (s'.onMe fun T => T.issueOp .load f.reg lanes (some (loaded f.sz.toNat bs)) (f.ord.getLsbD 0) i).advance := by
  cases p with
  | scratch t off =>
    obtain ⟨hb, rfl, rfl⟩ := h
    simp only [State.loadFrom, hb, Bool.false_eq_true, if_false]
    rfl
  | vault pa =>
    obtain ⟨r, g, hr, hf⟩ := h
    simp only [State.loadFrom, hr, hf]
  | virt va spill =>
    obtain ⟨r, g, s₁, q, hr, hp, ho, hb, hf⟩ := h
    simp only [State.loadFrom, hr, hp, ho.free, hb, hf, Bool.false_eq_true, if_false]

/-- A load of a block that the memory interface decodes asks it for the bytes. -/
theorem loadFrom_of_mit {r : Nat} {g : Region} {va : Nat} {s₁ s₂ : State} {q : Page} (i : Instr) (lanes : Mask)
    (hr : s.regionOf s.here = some (r, g)) (hp : s.page s.site none g.ctx va (.load f.sz.toNat) = (s₁, .ok q))
    (ho : s₁.inOrder q (accessBytes f.sz.toNat)) (hb : s₁.barred q.pa va = none)
    (hf : s₁.fetch r q va (accessBytes f.sz.toNat) = (s₂, .mit)) (hm : s₁.mitRoom q.pa g.ctx = true) :
    s.loadFrom f i lanes (.virt va false)
      = let u := (s₂.onMe fun T => T.issueOp .load f.reg lanes none (f.ord.getLsbD 0) i).advance
        { u with mit := u.mit ++ [⟨u.here, s₂.me.nop, g.ctx, q.pa, va, accessBytes f.sz.toNat, 4 ≤ f.sz.toNat && f.sz.toNat ≤ 6, q.cmp, 0,
          s.site.widx⟩] } := by
  simp only [State.loadFrom, hr, hp, ho.free, hb, hf, hm, Bool.not_true, Bool.false_eq_true, if_false]

theorem exec_ld_at {p : Place} (h : s.canM f false false) (hp : s.resolve f.space.toNat (s.effAddr f) (accessBytes f.sz.toNat) = .at_ p) :
    exec (.ld f) s = .next (s.loadFrom f (.ld f) 0 p) := by
  change execLd f s = _
  rw [execLd, memOp_of_can h, placed_of_at hp]

/-- A store that its region's buffer takes is performed. -/
theorem State.hold_of_buffers {r : Nat} {h : HeldStore} (hb : s.buffers r h s') (k : State → State) : s.hold r h k = k s' := by
  obtain ⟨g, hg, hroom, rfl⟩ := hb
  simp only [State.hold, hg, Nat.not_lt.2 hroom, if_false]

/-- A store to where bytes are stored is performed, and the instruction goes on. -/
theorem storeTo_of_storesAt {p : Place} {data : State.Bytes} (h : s.storesAt p data s') (k : State → State) : s.storeTo p data k = k s' := by
  cases p with
  | scratch t off =>
    subst h
    rfl
  | vault pa =>
    obtain ⟨r, g, hr, hb⟩ := h
    simp only [State.storeTo, hr, State.hold_of_buffers hb]
  | virt va spill =>
    obtain ⟨r, g, s₁, q, hr, hp, hl, hb, hw, hh⟩ := h
    have hany : (data.any fun d => s₁.loading (q.pa + d.1) 1) = false := by simpa using hl
    simp only [State.storeTo, hr, hp, hany, hb, hw, State.hold_of_buffers hh, Bool.false_eq_true, if_false]

end

/-- Settles O19: an access that `placed` finds a place for is a `loadFrom` or a `storeTo` there. -/
theorem loadsAndStores : Obligations.LoadsAndStores := by
  intro f s s' p bs n ea
  refine ⟨fun h hp hr => ?ld, fun h h7 hp hr => ?ldv, fun r g va s₁ q s₂ h hp hr hq ho hb hf hm => ?mit, fun h hl hp hr => ?st,
    fun h hl hp hr => ?stv, fun e => ⟨fun h hp => ?ldFault, fun h h7 hp => ?ldvFault, fun h hl hp => ?stFault, fun h hl hp => ?stvFault⟩⟩
  case ld => rw [exec_ld_at h hp, loadFrom_of_readsAt _ _ hr]
  case ldv =>
    change execLdv f s = _
    have h7' : loaded f.sz.toNat bs = BitVec.ofNat 512 (ofBytes bs) := by rw [h7]; rfl
    rw [execLdv, memOp_of_can h, placed_of_at hp, loadFrom_of_readsAt (s' := s') (bs := bs) _ _ (by rw [h7]; exact hr), h7']
  case mit =>
    exact ⟨_, (exec_ld_at h hp).trans (congrArg _ (loadFrom_of_mit _ _ hr hq ho hb hf hm)), rfl, rfl, rfl⟩
  case st =>
    change execSt f s = _
    rw [execSt, memOp_of_can h, afterRelease_of_released hl]
    dsimp only
    rw [placed_of_at hp, cellsAt_zero_bytesOf, storeTo_of_storesAt hr]
  case stv =>
    change execStv f s = _
    rw [execStv, memOp_of_can h, afterRelease_of_released hl, placed_of_at hp, storeTo_of_storesAt hr]
  case ldFault =>
    change execLd f s = _
    rw [execLd, memOp_of_can h, placed_of_fault hp]
  case ldvFault =>
    change execLdv f s = _
    rw [execLdv, memOp_of_can h, placed_of_fault hp]
  case stFault =>
    change execSt f s = _
    rw [execSt, memOp_of_can h, afterRelease_of_released hl]
    dsimp only
    rw [placed_of_fault hp]
  case stvFault =>
    change execStv f s = _
    rw [execStv, memOp_of_can h, afterRelease_of_released hl, placed_of_fault hp]

end Sys2Proof.Machine
end

section
namespace Sys2Proof.Machine

/-! ### Combining nodes and BSYNC (R41, R235, R240, R241, R416) -/

/-- A group whose node is emptied goes up the pod's tree by the same hop: the way depends on the lattice alone. -/
theorem State.sendUp_without {s : State} {cs : List Comb} {e : HsqEntry} {dim : Nat} {plus : Bool} (h : s.firstHop 0 = some (dim, plus)) :
    State.sendUp { s with combs := cs } e
      = State.sendRequest { s with combs := cs } e.ctx (remoteBase + s.nextPackage dim plus * 2 ^ 42) := by
  have h' : State.firstHop { s with combs := cs } 0 = some (dim, plus) := h
  simp only [State.sendUp, h']
  rfl

section
variable {s : State} {k : Nat} {n : Comb}

theorem exec_combiningArrival {m j ms} (hn : s.combs[k]? = some n) (hu : n.until_ ≤ s.time) (hr : n.entry.req = .arrive m j ms)
    (hl : n.level < 5) : exec (.combiningArrival k) s = .next (s.forward k n 5) := by
  change execCombiningArrival k s = _
  simp [execCombiningArrival, hn, hr, hu, hl]

theorem exec_treeHoldExpiry {a w u items} (hn : s.combs[k]? = some n) (hu : n.until_ ≤ s.time) (hr : n.entry.req = .atoms a w u items) :
    exec (.treeHoldExpiry k) s = .next (s.forward k n 4) := by
  change execTreeHoldExpiry k s = _
  simp [execTreeHoldExpiry, hn, hr, hu]

/-- A package alone in its pod, or off the lattice, answers for itself. -/
theorem exec_podBarrierRelease_alone (hn : s.combs[k]? = some n) (hu : n.until_ ≤ s.time) (hl : n.level = 5)
    (h : s.fleet.en = false ∨ s.podSize ≤ 1) :
    exec (.podBarrierRelease k) s = .next ((State.sendHome { s with combs := s.combs.eraseIdx k } n.entry).getD s) := by
  have hb : (!s.fleet.en || decide (s.podSize ≤ 1)) = true := by simpa using h
  change execPodBarrierRelease k s = _
  simp only [execPodBarrierRelease, hn, hu, hl, hb, and_self, if_true]

variable (hn : s.combs[k]? = some n) (hu : n.until_ ≤ s.time) (hl : n.level = 5) (he : s.fleet.en = true) (hp : 1 < s.podSize)
include hn hu hl he hp

theorem exec_podBarrierRelease_cut (hc : s.treeCut = true) :
    exec (.podBarrierRelease k) s = .next (State.stranded { s with combs := s.combs.eraseIdx k } n.entry) := by
  have hb : (!s.fleet.en || decide (s.podSize ≤ 1)) = false := by simp [he, hp]
  change execPodBarrierRelease k s = _
  simp only [execPodBarrierRelease, hn, hu, hl, hb, hc, and_self, if_true, Bool.false_eq_true, if_false]

theorem exec_podBarrierRelease_root (hc : s.treeCut = false) (h0 : s.fleet.pkg = 0) :
    exec (.podBarrierRelease k) s = .next ((State.sendHome { s with combs := s.combs.eraseIdx k } n.entry).getD s) := by
  have hb : (!s.fleet.en || decide (s.podSize ≤ 1)) = false := by simp [he, hp]
  change execPodBarrierRelease k s = _
  simp only [execPodBarrierRelease, hn, hu, hl, hb, hc, h0, and_self, if_true, Bool.false_eq_true, if_false]

variable {m j : Nat} {ms : List (Nat × Nat × Option (Option Nat))} {dim : Nat} {plus : Bool} (hc : s.treeCut = false) (h0 : s.fleet.pkg ≠ 0)
  (hr : n.entry.req = .arrive m j ms) (hf : s.firstHop 0 = some (dim, plus))
include hc h0 hr hf

/-- At a package that is not the root, the group goes up; its own members get what the tree answers. -/
theorem exec_podBarrierRelease_up :
    let u := State.sendRequest { s with combs := s.combs.eraseIdx k } n.entry.ctx (remoteBase + s.nextPackage dim plus * 2 ^ 42)
    ∃ x, x < 2 ^ 32 ∧
      let e := { n.entry with req := .arrive m (j + x) ms }
      exec (.podBarrierRelease k) s = .next (if ms = [] then u else if s.cutOff n.entry.pa then u.stranded n.entry
        else if inRemote e.pa then u.draw.2.remoteAnswer e else (u.draw.2.sendHome e).getD s) := by
  intro u
  refine ⟨u.draw.1.toNat % 2 ^ 32, Nat.mod_lt _ (by decide), ?_⟩
  have hb : (!s.fleet.en || decide (s.podSize ≤ 1)) = false := by simp [he, hp]
  change execPodBarrierRelease k s = _
  cases ms with
  | nil => simp only [execPodBarrierRelease, hn, hu, hl, hb, hc, h0, hr, State.sendUp_without hf, u, and_self, if_true,
      Bool.false_eq_true, if_false]
  | cons x xs =>
    simp only [execPodBarrierRelease, hn, hu, hl, hb, hc, h0, hr, State.sendUp_without hf, HsqReq.joined, u, and_self, if_true,
      Bool.false_eq_true, if_false, reduceCtorEq]

end

section
variable {s : State} {r : Nat} {g : Region} {b : Bsync} (hg : s.region? r = some g) (hb : g.bsync = some b)
include hg hb

theorem exec_bsyncProceed_blocked (h : g.frozen = true ∨ s.regionBusy g = true ∨ s.beforeBsync b = true) :
    exec (.bsyncProceed r) s = .next s := by
  change execBsyncProceed r s = _
  simp only [execBsyncProceed, hg, hb]
  rw [if_pos (by rcases h with h | h | h <;> simp [h])]

theorem exec_bsyncDeadline (ha : b.arrived = false) :
    exec (.bsyncDeadline r) s = .next (if b.deadline ≤ s.time then s.finish b.t b.op 1 else s) := by
  change execBsyncDeadline r s = _
  simp [execBsyncDeadline, hg, hb, ha]

variable (ha : b.arrived = false) (hz : g.frozen = false) (ht : s.time ≤ b.deadline) (hq : s.regionBusy g = false) (hp : s.beforeBsync b = false)
include ha hz ht hq hp

omit hg hb in
theorem bsync_free : (b.arrived || g.frozen || decide (b.deadline < s.time) || s.regionBusy g || s.beforeBsync b) = false := by
  simp [ha, hz, ht, hq, hp]

theorem exec_bsyncProceed_fault {s₁ : State} {f : Flt} (h : s.page ⟨b.t, 0, 0, b.widx⟩ none g.ctx b.va (.sync true) = (s₁, .error f)) :
    exec (.bsyncProceed r) s = .next (s₁.raise ⟨b.t, 0, 0, b.widx⟩ f) := by
  change execBsyncProceed r s = _
  simp only [execBsyncProceed, hg, hb, bsync_free ha hz ht hq hp, h, Bool.false_eq_true, if_false]

theorem exec_bsyncProceed_arrives {s₁ : State} {q : Page} (h : s.page ⟨b.t, 0, 0, b.widx⟩ none g.ctx b.va (.sync true) = (s₁, .ok q)) :
    let e : HsqEntry := ⟨g.ctx, q.pa, b.t, none, b.va, b.widx, .arrive b.n 0 [(b.t, b.op, some (some b.deadline))], b.scope⟩
    exec (.bsyncProceed r) s = .next (s₁.commit r false fun s =>
      let s := (s.touchHere ⟨b.t, 0, 0, b.widx⟩ g.ctx b.va q.pa).onRegion r fun g => { g with bsync := some { b with arrived := true } }
      if s.cutOff q.pa then s.stranded e else s.enterNode 2 (effScope b.t q.pa b.scope) e) := by
  change execBsyncProceed r s = _
  simp only [execBsyncProceed, hg, hb, bsync_free ha hz ht hq hp, h, Bool.false_eq_true, if_false]

end

/-- Settles O28: each event of a node and of a BSYNC by its own rule. -/
theorem nodesAndBsync : Obligations.NodesAndBsync := by
  refine ⟨fun s k n hn hu => ?nodes, fun s r g b hg hb ha => ?bsync⟩
  case nodes =>
    refine ⟨fun m j ms hr hl => exec_combiningArrival hn hu hr hl, fun a w u items hr => exec_treeHoldExpiry hn hu hr,
      fun hl h => exec_podBarrierRelease_alone hn hu hl h, fun hl he hp => ⟨exec_podBarrierRelease_cut hn hu hl he hp,
        exec_podBarrierRelease_root hn hu hl he hp, fun hc h0 m j ms dim plus hr hf => ?up⟩⟩
    obtain ⟨x, hx, hup⟩ := exec_podBarrierRelease_up hn hu hl he hp hc h0 hr hf
    refine ⟨fun h => ?_, fun h hcut => ?_, fun h hcut => ⟨x, hx, ?_⟩⟩
    · rw [hup, if_pos h]
    · rw [hup, if_neg h, if_pos hcut]
    · rw [hup, if_neg h, if_neg (by simp [hcut])]
  case bsync =>
    refine ⟨fun hz ht hq hp => ⟨fun s₁ q h => exec_bsyncProceed_arrives hg hb ha hz ht hq hp h,
        fun s₁ f h => exec_bsyncProceed_fault hg hb ha hz ht hq hp h⟩, exec_bsyncProceed_blocked hg hb, fun h => ?_, fun h => ?_⟩
    · rw [exec_bsyncDeadline hg hb ha, if_pos h]
    · rw [exec_bsyncDeadline hg hb ha, if_neg (by omega)]

end Sys2Proof.Machine
end

section
namespace Sys2Proof.Machine

/-! ### Long-latency results (R20, R77) -/

namespace Tile

section
variable (T : Tile) (o : LongOp) (v : Vec)

theorem ops_writeResult : (T.writeResult o v).ops = T.ops.filter fun q => q.num != o.num := by
  unfold Tile.writeResult
  cases o.dest <;> rfl

variable {T o v} {r : Nat}

/-- No operation that is still outstanding after o is to write o's register. -/
def noLaterProducer (T : Tile) (o : LongOp) : Bool := !((T.ops.filter fun q => q.num != o.num).any fun q => q.dest == o.dest && o.num < q.num)

theorem x_writeResult (hd : o.dest = .x r) :
    (T.writeResult o v).x = T.x.set r ⟨if r = 0 then 0 else v.setWidth 64, T.noLaterProducer o⟩ := by
  simp only [Tile.writeResult, hd, noLaterProducer]

theorem v_writeResult (hd : o.dest = .v r) :
    (T.writeResult o v).v = T.v.set r ⟨merge (T.v.getD r ⟨0, true⟩).val v o.lanes, T.noLaterProducer o⟩ := by
  simp only [Tile.writeResult, hd, noLaterProducer]

theorem writeResult_of_none (hd : o.dest = .none) : T.writeResult o v = { T with ops := T.ops.filter fun q => q.num != o.num } := by
  simp only [Tile.writeResult, hd]

/-- An X register that a result is owed reads as the result, and is full unless a later producer has taken it over. -/
theorem writeResult_x_spec (h : r < T.x.length) (h0 : 0 < r) (hd : o.dest = .x r) :
    (T.writeResult o v).readX r = v.setWidth 64
      ∧ ((T.writeResult o v).x.getD r ⟨0, true⟩).full = !((T.writeResult o v).ops.any fun q => q.dest == .x r && o.num < q.num)
      ∧ ∀ j, j ≠ r → (T.writeResult o v).x[j]? = T.x[j]? := by
  have hr : r ≠ 0 := h0.ne'
  rw [ops_writeResult, ← hd]
  refine ⟨?_, ?_, fun j hj => ?_⟩
  · simp [Tile.readX, x_writeResult hd, hr, h]
  · simp [x_writeResult hd, h, noLaterProducer]
  · rw [x_writeResult hd, List.getElem?_set_ne hj.symm]

theorem writeResult_v_spec (h : r < T.v.length) (hd : o.dest = .v r) :
    ((T.writeResult o v).v.getD r ⟨0, true⟩).val = merge (T.v.getD r ⟨0, true⟩).val v o.lanes
      ∧ ((T.writeResult o v).v.getD r ⟨0, true⟩).full = !((T.writeResult o v).ops.any fun q => q.dest == .v r && o.num < q.num)
      ∧ ∀ j, j ≠ r → (T.writeResult o v).v[j]? = T.v[j]? := by
  rw [ops_writeResult, ← hd]
  refine ⟨?_, ?_, fun j hj => ?_⟩
  · simp [v_writeResult hd, h]
  · simp [v_writeResult hd, h, noLaterProducer]
  · rw [v_writeResult hd, List.getElem?_set_ne hj.symm]

end

/-! ### Beads at the inputs (R17, R18, R22, R146, R423) -/

/-- The bead that one data beat of every join input forms (R146). -/
def tokenBead (T : Tile) : Bead :=
  let hs := T.joinInputs.filterMap T.inHead
  ⟨maskOf fun i => i < (hs.headD (.control 0 0 0 0)).count, 0, T.bseq.getD 4 0, 0, hs.map fun b => ⟨b.data, true⟩, 0, false, T.nbead, T.nstamp⟩

/-- A tile whose join inputs have given their beats to a bead. -/
def formTokenBead (T : Tile) : Tile :=
  let U := T.joinInputs.foldl Tile.popIn T
  { U with
    beads := U.beads ++ [T.tokenBead]
    nbead := U.nbead + 1
    nstamp := U.nstamp + 1
    bseq := U.bseq.set 4 (U.bseq.getD 4 0 + 1) }

theorem foldl_popIn_beads (cs : List Nat) (T : Tile) : (cs.foldl Tile.popIn T).beads = T.beads :=
  cs.foldlRecOn (motive := fun U : Tile => U.beads = T.beads) _ rfl fun _ h _ _ => h

theorem formTokenBead_beads (T : Tile) : T.formTokenBead.beads = T.beads ++ [T.tokenBead] :=
  congrArg (· ++ [T.tokenBead]) (foldl_popIn_beads T.joinInputs T)

end Tile

section
variable {s : State} {t c : Nat} {g : Region} (hw : s.works t g) (hce : (s.tile t).isCe = true)
include hw

theorem exec_longLatencyResult {k : Nat} {o : LongOp} (h : (s.tile t).ops.find? (fun o => o.num == k) = some o) :
    exec (.longLatencyResult t k) s
      = .next (match o.value with | some v => s.setTile t ((s.tile t).writeResult o v) | none => s) := by
  obtain ⟨r, hr⟩ := hw
  change execLongLatencyResult t k s = _
  simp only [execLongLatencyResult, hr, h]
  cases o.value <;> rfl

include hce

section
variable (h8 : (s.tile t).beads.length < 8) (hc : c ∈ (s.tile t).joinInputs) (ht : (s.tile t).tokenIn c = false)
include h8 hc ht

omit hw in
/-- An input whose bead may enter is none of those that BEADH_ARRIVAL passes over. -/
theorem beadh_open : (!(s.tile t).isCe || decide (8 ≤ (s.tile t).beads.length) || !(s.tile t).joinInputs.contains c || (s.tile t).tokenIn c) = false := by
  simp [hce, h8, hc, ht]

theorem exec_beadhArrival_single (hj : (s.tile t).join = 0) (hb : hasBead (s.tile t) c = true) (ha : admits s g t c = true) :
    exec (.beadhArrival t c) s = .next (s.onTile t fun T => T.acceptBead c) := by
  obtain ⟨r, hr⟩ := hw
  change execBeadhArrival t c s = _
  simp only [execBeadhArrival, hr, beadh_open hce h8 hc ht, hj, hb, ha, Bool.and_self, Bool.false_eq_true, if_true, if_false]

theorem exec_beadhArrival_zip (hj : (s.tile t).join = 1) (hh : (s.tile t).joinInputs.head? = some c)
    (hr : (s.tile t).beads.length + (s.tile t).joinInputs.length ≤ 8)
    (ha : ∀ k ∈ (s.tile t).joinInputs, hasBead (s.tile t) k = true ∧ admits s g t k = true) :
    exec (.beadhArrival t c) s = .next (s.onTile t fun T => T.joinInputs.foldl Tile.acceptBead T) := by
  obtain ⟨r, hr'⟩ := hw
  have hall : ((s.tile t).joinInputs.head? == some c && decide ((s.tile t).beads.length + (s.tile t).joinInputs.length ≤ 8)
      && (s.tile t).joinInputs.all fun c => hasBead (s.tile t) c && admits s g t c) = true := by
    simpa [hh, hr] using ha
  change execBeadhArrival t c s = _
  simp only [execBeadhArrival, hr', beadh_open hce h8 hc ht, hj, hall, Bool.false_eq_true, if_true, if_false, State.onTile]

theorem exec_beadhArrival_arb (hj : (s.tile t).join = 2) (ha : arbChoice s g t = some c) (hb : hasBead (s.tile t) c = true) :
    exec (.beadhArrival t c) s = .next (s.onTile t fun T => (T.acceptBead c).onUnit 0 fun U => { U with served := c + 1 }) := by
  obtain ⟨r, hr⟩ := hw
  change execBeadhArrival t c s = _
  simp only [execBeadhArrival, hr, beadh_open hce h8 hc ht, hj, ha, hb, beq_self_eq_true, Bool.and_self, Bool.false_eq_true, if_true, if_false]

end

section
variable {h : Beat} {vs : List Vec} {n : Nat} (hj : (s.tile t).join = 3) (h8 : (s.tile t).beads.length < 8)
  (hb : beadAt ((s.tile t).inQ (s.tile t).selin) = some (h, vs, n))
include hj h8 hb

theorem exec_selJoinFire_named {k : Nat} (hk : selTarget (s.tile t) = some k) (hh : hasBead (s.tile t) k = true) (ha : admits s g t k = true) :
    exec (.selJoinFire t) s = .next (s.onTile t fun T =>
      (((T.setInQ T.selin ⟨(T.inQ T.selin).beats.drop n, 0⟩).popStamp T.selin).acceptBead k).onUnit 0 fun U => { U with checked := false }) := by
  obtain ⟨r, hr⟩ := hw
  have hopen : (!(s.tile t).isCe || (s.tile t).join != 3 || decide (8 ≤ (s.tile t).beads.length)) = false := by simp [hce, hj, h8]
  change execSelJoinFire t s = _
  simp only [execSelJoinFire, hr, hopen, hb, hk, hh, ha, Bool.and_self, Bool.false_eq_true, if_true, if_false]

theorem exec_selJoinFire_bad (hk : selTarget (s.tile t) = none) (hc : ((s.tile t).unit 0).checked = false) :
    exec (.selJoinFire t) s = .next ((s.onTile t fun T => T.onUnit 0 fun U => { U with checked := true }).count g.die .selBad) := by
  obtain ⟨r, hr⟩ := hw
  have hopen : (!(s.tile t).isCe || (s.tile t).join != 3 || decide (8 ≤ (s.tile t).beads.length)) = false := by simp [hce, hj, h8]
  change execSelJoinFire t s = _
  simp only [execSelJoinFire, hr, hopen, hb, hk, hc, Bool.false_eq_true, if_false]

end

/-- One data beat of every token input forms the youngest bead (R146). -/
theorem exec_tokenBeadForm (hj : (s.tile t).join ≤ 1) (h8 : (s.tile t).beads.length < 8) (hne : (s.tile t).joinInputs ≠ [])
    (ha : ∀ k ∈ (s.tile t).joinInputs, (s.tile t).tokenIn k = true ∧ admits s g t k = true)
    (hd : ∀ k ∈ (s.tile t).joinInputs, ∃ b, (s.tile t).inHead k = some b ∧ b.kind ≤ 2
      ∧ b.count = (((s.tile t).joinInputs.filterMap (s.tile t).inHead).headD (.control 0 0 0 0)).count) :
    exec (.tokenBeadForm t) s = .next (s.setTile t (s.tile t).formTokenBead) := by
  obtain ⟨r, hr⟩ := hw
  have htok : (s.tile t).joinInputs.all (s.tile t).tokenIn = true := List.all_eq_true.2 fun k hk => (ha k hk).1
  have hadm : (s.tile t).joinInputs.all (admits s g t) = true := List.all_eq_true.2 fun k hk => (ha k hk).2
  have hlen : ((s.tile t).joinInputs.filterMap (s.tile t).inHead).length = (s.tile t).joinInputs.length := by
    rw [List.filterMap_length_eq_length]
    intro k hk
    obtain ⟨b, hb, -⟩ := hd k hk
    simp [hb]
  have hbeats : (((s.tile t).joinInputs.filterMap (s.tile t).inHead).any fun b => decide (2 < b.kind)
      || b.count != (((s.tile t).joinInputs.filterMap (s.tile t).inHead).headD (.control 0 0 0 0)).count) = false := by
    rw [List.any_eq_false]
    intro b hb
    obtain ⟨k, hk, hkb⟩ := List.mem_filterMap.1 hb
    obtain ⟨b', hb', h2, hc⟩ := hd k hk
    rw [hkb] at hb'
    cases hb'
    simp [h2, hc]
  have hopen : (!(s.tile t).isCe || (s.tile t).joinInputs.isEmpty || decide (1 < (s.tile t).join) || decide (8 ≤ (s.tile t).beads.length)) = false := by
    simp [hce, hne, hj, h8]
  change execTokenBeadForm t s = _
  simp only [execTokenBeadForm, hr, hopen, htok, hadm, hlen, hbeats, bne_self_eq_false, Bool.not_true, Bool.or_self, Bool.false_eq_true, if_false]
  rfl

theorem exec_beadStart {b : Bead} {rest : List Bead} (hb : (s.tile t).beads = b :: rest) (hs : b.started = false) :
    exec (.beadStart t) s = .next (s.onTile t fun T => { T with beads := { b with started := true, pc := T.entry } :: rest }) := by
  obtain ⟨r, hr⟩ := hw
  have hh : (s.tile t).head? = some b := by simp [Tile.head?, hb]
  have hopen : (b.started || !(s.tile t).isCe) = false := by simp [hs, hce]
  change execBeadStart t s = _
  simp only [execBeadStart, hr, hh, hopen, Bool.false_eq_true, if_false, State.onTile, Tile.onHead, hb]

end

/-- Settles O34: each arrival and each firing by its own rule. -/
theorem resultsAndBeadsEnter : Obligations.ResultsAndBeadsEnter := by
  constructor
  · intro s t k g o v hw ⟨hx, hv, _⟩ ho
    have hexec := exec_longLatencyResult hw ho
    refine ⟨fun h => by rw [hexec, h], fun h => ⟨_, by rw [hexec, h], Tile.ops_writeResult .., fun r h0 hr hd => ?_, fun r hr hd => ?_, fun hd => ?_⟩⟩
    · exact Tile.writeResult_x_spec (by omega) h0 hd
    · exact Tile.writeResult_v_spec (by omega) hd
    · rw [Tile.writeResult_of_none hd]
      exact ⟨rfl, rfl, rfl⟩
  · intro s t c g T hw hce
    refine ⟨fun h8 hc ht => ⟨exec_beadhArrival_single hw hce h8 hc ht, exec_beadhArrival_zip hw hce h8 hc ht, exec_beadhArrival_arb hw hce h8 hc ht⟩,
      fun h vs n hj h8 hb => ⟨fun k => exec_selJoinFire_named hw hce hj h8 hb, exec_selJoinFire_bad hw hce hj h8 hb⟩,
      fun hj h8 hne ha hd => ⟨_, exec_tokenBeadForm hw hce hj h8 hne ha hd, ⟨rfl, fun u hu => State.tile_setTile_of_ne hu.symm s _⟩,
        ?_⟩,
      fun b rest => exec_beadStart hw hce⟩
    rw [State.tile_setTile]
    exact ⟨_, Tile.formTokenBead_beads _, rfl, rfl, rfl, rfl, rfl, rfl⟩

end Sys2Proof.Machine
end

section
namespace Sys2Proof.Machine

/-! ### What a unit's outputs change of its tile -/

namespace Tile

/-- A tile of which unit u has put tokens on its outputs: only output queues, output beats and the units' stream state may differ, and the
unit runs under the same bank. -/
def emitsFrom (u : Nat) (T U : Tile) : Prop :=
  U = { T with outq := U.outq, outs := U.outs, units := U.units } ∧ (U.unit u).switched = (T.unit u).switched

section
variable {u : Nat} {T U V : Tile}

theorem emitsFrom.refl (T : Tile) : T.emitsFrom u T := ⟨rfl, rfl⟩

theorem emitsFrom.trans (h : T.emitsFrom u U) (k : U.emitsFrom u V) : T.emitsFrom u V :=
  ⟨k.1.trans (congrArg (fun W : Tile => { W with outq := V.outq, outs := V.outs, units := V.units }) h.1), k.2.trans h.2⟩

theorem emitsFrom_foldl {α : Type} {f : Tile → α → Tile} (h : ∀ (T : Tile) a, T.emitsFrom u (f T a)) (l : List α) (T : Tile) : T.emitsFrom u (l.foldl f T) :=
  l.foldlRecOn f (.refl T) fun _ k a _ => k.trans (h _ a)

theorem emitsFrom_pushOut (T : Tile) (c : Nat) (bs : List Beat) : T.emitsFrom u (T.pushOut c bs) := ⟨rfl, rfl⟩

theorem emitsFrom_flushOut (T : Tile) (ctx c : Nat) : T.emitsFrom u (T.flushOut ctx c) := by
  unfold Tile.flushOut
  split
  · split
    · exact .refl T
    · exact ⟨rfl, rfl⟩
  · exact .refl T

theorem emitsFrom_sendBeat (T : Tile) (ctx w c : Nat) (b : Beat) : T.emitsFrom u (T.sendBeat ctx w c b) := by
  unfold Tile.sendBeat
  split
  · exact (emitsFrom_flushOut T ctx c).trans (emitsFrom_pushOut ..)
  · exact .refl T

theorem emitsFrom_sendStop (T : Tile) (ctx w k : Nat) : T.emitsFrom u (T.sendStop ctx w k) :=
  emitsFrom_foldl (fun _ _ => emitsFrom_sendBeat ..) _ T

theorem emitsFrom_sendEnd (T : Tile) (ctx w kind tag : Nat) : T.emitsFrom u (T.sendEnd ctx w kind tag) :=
  emitsFrom_foldl (fun _ _ => emitsFrom_sendBeat ..) _ T

theorem emitsFrom_outs (T : Tile) (os) : T.emitsFrom u { T with outs := os } := ⟨rfl, rfl⟩

theorem emitsFrom_sendToken (T : Tile) (ctx now w c kind : Nat) (x : Lane) : T.emitsFrom u (T.sendToken ctx now w c kind x) := by
  unfold Tile.sendToken
  split
  · extract_lets T₁ ls T₂
    have h₁ : T.emitsFrom u T₁ := by
      dsimp only [T₁]
      split
      · split
        · exact .refl T
        · exact emitsFrom_flushOut ..
      · exact .refl T
    have h₂ : T.emitsFrom u T₂ := h₁.trans (emitsFrom_outs ..)
    split
    · exact h₂.trans (emitsFrom_flushOut ..)
    · exact h₂
  · exact .refl T

@[simp] theorem unit_onUnit (T : Tile) (u : Nat) (f : UState → UState) : (T.onUnit u f).unit u = f (T.unit u) := by
  simp [Tile.onUnit, Tile.unit]

theorem emitsFrom_onUnit (T : Tile) {f : UState → UState} (h : (f (T.unit u)).switched = (T.unit u).switched) : T.emitsFrom u (T.onUnit u f) :=
  ⟨rfl, by rw [unit_onUnit, h]⟩

theorem emitsFrom_releaseStop (T : Tile) (ctx u : Nat) : T.emitsFrom u (T.releaseStop ctx u) := by
  unfold Tile.releaseStop
  split
  · exact (emitsFrom_sendStop ..).trans (emitsFrom_onUnit _ rfl)
  · exact .refl T

theorem emitsFrom_drainUnit (T : Tile) (ctx now u : Nat) : T.emitsFrom u (T.drainUnit ctx now u) := by
  unfold Tile.drainUnit
  extract_lets U T₁
  suffices T.emitsFrom u T₁ from this.trans (emitsFrom_onUnit _ rfl)
  dsimp only [T₁]
  split
  · exact emitsFrom_sendStop ..
  · split
    · exact emitsFrom_sendStop ..
    · split
      · split
        · exact emitsFrom_sendToken ..
        · exact .refl T
      · split
        · exact emitsFrom_releaseStop ..
        · exact .refl T

variable (h : T.emitsFrom u U)
include h

theorem emitsFrom.bankOf : U.bankOf u = T.bankOf u := by
  obtain ⟨e, hs⟩ := h
  have hb : U.bank = T.bank := by rw [e]
  simp only [Tile.bankOf, hb, hs]

theorem emitsFrom.physBank (b : Bool) : U.physBank b = T.physBank b := by
  obtain ⟨e, -⟩ := h
  rw [e]
  rfl

theorem emitsFrom.outRoute (c : Nat) : U.outRoute u c = T.outRoute u c := by
  simp only [Tile.outRoute, Tile.routesOf, h.bankOf, h.physBank]

theorem emitsFrom.mainOutputs : U.mainOutputs u = T.mainOutputs u := by
  simp only [Tile.mainOutputs, h.outRoute]

end

theorem emitsFrom.outputs {T U : Tile} (h : T.emitsFrom 0 U) : U.outputs = T.outputs := by
  have hf : U.frame 0 = T.frame 0 := by simp only [Tile.frame, Tile.frameUnit, Nat.zero_lt_succ, if_true, h.bankOf, h.physBank]
  simp only [Tile.outputs, Tile.outen, Tile.header, hf]

/-! ### The last beat of an output -/

/-- The beat put on an output last. -/
def lastOut (T : Tile) (c : Nat) : Option Beat := (T.outQ c).beats.getLast?

theorem outQ_setOutQ (T : Tile) (c d : Nat) (q : Queue) : (T.setOutQ c q).outQ d = if c = d then q else T.outQ d := by
  simp only [Tile.setOutQ, Tile.outQ, tabGet_tabSet]
  split <;> rfl

theorem lastOut_pushOut (T : Tile) (c d : Nat) (b : Beat) : (T.pushOut c [b]).lastOut d = if c = d then some b else T.lastOut d := by
  simp only [lastOut, Tile.pushOut, outQ_setOutQ]
  split
  · exact List.getLast?_concat
  · rfl

theorem lastOut_flushOut_of_ne {c d : Nat} (h : c ≠ d) (T : Tile) (ctx : Nat) : (T.flushOut ctx c).lastOut d = T.lastOut d := by
  unfold Tile.flushOut
  split
  · split
    · rfl
    · exact (lastOut_pushOut T c d _).trans (if_neg h)
  · rfl

theorem lastOut_sendBeat (T : Tile) (ctx u c d : Nat) (b : Beat) :
    (T.sendBeat ctx u c b).lastOut d = if c = d ∧ (T.outRoute u c).isSome then some b else T.lastOut d := by
  unfold Tile.sendBeat
  by_cases hr : (T.outRoute u c).isSome = true
  · rw [if_pos hr, lastOut_pushOut]
    by_cases hc : c = d
    · rw [if_pos hc, if_pos ⟨hc, hr⟩]
    · rw [if_neg hc, if_neg (fun h => hc h.1), lastOut_flushOut_of_ne hc]
  · rw [if_neg hr, if_neg (fun h => hr h.2)]

/-- A beat sent on each of some routed outputs is the last of each. -/
theorem lastOut_foldl_sendBeat {u d : Nat} (ctx : Nat) (b : Beat) {l : List Nat} {T : Tile} (hd : d ∈ l) (hr : (T.outRoute u d).isSome = true) :
    (l.foldl (fun T c => T.sendBeat ctx u c b) T).lastOut d = some b := by
  have keeps : ∀ (l : List Nat) (T : Tile), T.lastOut d = some b → (l.foldl (fun T c => T.sendBeat ctx u c b) T).lastOut d = some b := fun l T h =>
    l.foldlRecOn (motive := fun U : Tile => U.lastOut d = some b) _ h fun U hU c _ => by rw [lastOut_sendBeat, hU, ite_self]
  induction l generalizing T with
  | nil => cases hd
  | cons c l ih =>
    rw [List.foldl_cons]
    rcases List.mem_cons.1 hd with rfl | hd
    · exact keeps l _ (by rw [lastOut_sendBeat, if_pos ⟨rfl, hr⟩])
    · exact ih hd (by rw [(emitsFrom_sendBeat T ctx u c b).outRoute, hr])

theorem lastOut_sendEnd {T : Tile} {u d : Nat} (ctx kind tag : Nat) (hd : d ∈ T.mainOutputs u) :
    (T.sendEnd ctx u kind tag).lastOut d = some (.control kind 0 ctx tag) := by
  refine lastOut_foldl_sendBeat ctx _ hd ?_
  have := (List.mem_filter.1 hd).2
  exact (Bool.and_eq_true_iff.1 this).1

theorem lastOut_foldl_pushOut {d : Nat} (b : Beat) {l : List Nat} (T : Tile) (hd : d ∈ l) :
    (l.foldl (fun T c => T.pushOut c [b]) T).lastOut d = some b := by
  have keeps : ∀ (l : List Nat) (T : Tile), T.lastOut d = some b → (l.foldl (fun T c => T.pushOut c [b]) T).lastOut d = some b := fun l T h =>
    l.foldlRecOn (motive := fun U : Tile => U.lastOut d = some b) _ h fun U hU c _ => by rw [lastOut_pushOut, hU, ite_self]
  induction l generalizing T with
  | nil => cases hd
  | cons c l ih =>
    rw [List.foldl_cons]
    rcases List.mem_cons.1 hd with rfl | hd
    · exact keeps l _ (by rw [lastOut_pushOut, if_pos rfl])
    · exact ih _ hd

/-! ### Control tokens taken from inputs -/

theorem takeToken_of_control {T : Tile} {c : Nat} {b : Beat} (h : T.inHead c = some b) (hk : 2 < b.kind) : T.takeToken c = T.popIn c := by
  have : (decide (b.kind ≤ 2) && !T.lastLane c) = false := by simp [hk]
  simp only [Tile.takeToken, h, this, Bool.false_eq_true, if_false]

theorem inQ_setInQ (T : Tile) (c d : Nat) (q : Queue) : (T.setInQ c q).inQ d = if c = d then q else T.inQ d := by
  simp only [Tile.setInQ, Tile.inQ, tabGet_tabSet]
  split <;> rfl

theorem inQ_takeToken_of_ne {c d : Nat} (h : c ≠ d) (T : Tile) : (T.takeToken c).inQ d = T.inQ d := by
  unfold Tile.takeToken Tile.popIn
  split
  · split <;> rw [inQ_setInQ, if_neg h]
  · rfl

theorem takeToken_frame (T : Tile) (c : Nat) : T.takeToken c = { T with inq := (T.takeToken c).inq } := by
  unfold Tile.takeToken
  split
  · split <;> rfl
  · rfl

theorem foldl_takeToken_frame (l : List Nat) (T : Tile) : l.foldl Tile.takeToken T = { T with inq := (l.foldl Tile.takeToken T).inq } :=
  l.foldlRecOn (motive := fun U : Tile => U = { T with inq := U.inq }) _ rfl fun U hU c _ =>
    (takeToken_frame U c).trans (congrArg (fun W : Tile => { W with inq := (U.takeToken c).inq }) hU)

/-- Control tokens taken from several inputs: each loses its head beat. -/
theorem beats_foldl_takeToken {l : List Nat} {T : Tile} {d : Nat} (hn : l.Nodup) (hk : ∀ c ∈ l, ∃ b, T.inHead c = some b ∧ 2 < b.kind) (hd : d ∈ l) :
    ((l.foldl Tile.takeToken T).inQ d).beats = (T.inQ d).beats.drop 1 := by
  have keeps : ∀ (l : List Nat) (T : Tile), d ∉ l → (l.foldl Tile.takeToken T).inQ d = T.inQ d := fun l T h =>
    l.foldlRecOn (motive := fun U : Tile => U.inQ d = T.inQ d) _ rfl fun U hU c hc => by
      rw [inQ_takeToken_of_ne (ne_of_mem_of_not_mem hc h), hU]
  induction l generalizing T with
  | nil => cases hd
  | cons c l ih =>
    obtain ⟨hc, hn⟩ := List.nodup_cons.1 hn
    rw [List.foldl_cons]
    rcases List.mem_cons.1 hd with rfl | hd
    · obtain ⟨b, hb, h2⟩ := hk d (List.mem_cons_self ..)
      rw [keeps l _ hc, takeToken_of_control hb h2, Tile.popIn, inQ_setInQ, if_pos rfl]
    · have hcd : ∀ e ∈ l, (T.takeToken c).inQ e = T.inQ e := fun e he => inQ_takeToken_of_ne (ne_of_mem_of_not_mem he hc).symm T
      rw [ih hn (fun e he => ?_) hd, hcd d hd]
      rw [Tile.inHead, hcd e he]
      exact hk e (List.mem_cons_of_mem _ he)

end Tile

end Sys2Proof.Machine
end

section
namespace Sys2Proof.Machine

/-! ### STOP and DONE at an element (R22, R147, R265) -/

section
variable {s : State} {t : Nat} {g : Region}

/-- A control token taken from the join inputs as `take` says, and copied to every output. -/
def State.copiesControl (s : State) (t : Nat) (g : Region) (b : Beat) (take : Tile → Tile) : State :=
  s.onTile t fun T => T.outputs.foldl (fun T c => T.pushOut c [.control b.kind b.stop g.ctx 0]) (take T)

/-- The element may pass a control token on: it has no bead in flight, its accesses are performed, and each output has room. -/
def State.canPass (s : State) (t : Nat) (g : Region) : Prop :=
  s.works t g ∧ (s.tile t).isCe = true ∧ (s.tile t).beads = [] ∧ (s.tile t).unperformed = false
    ∧ ∀ c ∈ (s.tile t).outputs, (s.tile t).outRoom c 1 = true

theorem State.canPass.open_ (h : s.canPass t g) : (!(s.tile t).isCe || !(s.tile t).beads.isEmpty || (s.tile t).unperformed
    || !((s.tile t).outputs.all fun c => (s.tile t).outRoom c 1)) = false := by
  obtain ⟨-, hce, hb, hp, ho⟩ := h
  have hall : ((s.tile t).outputs.all fun c => (s.tile t).outRoom c 1) = true := List.all_eq_true.2 ho
  simp [hce, hb, hp, hall]

variable (h : s.canPass t g)
include h

theorem exec_ceControlToken_zip {b : Beat} (hj : (s.tile t).join ≤ 1) (hne : (s.tile t).joinInputs ≠ []) (hk : b.kind = 3 ∨ b.kind = 4)
    (hb : ∀ c ∈ (s.tile t).joinInputs, ∃ x, (s.tile t).inHead c = some x ∧ x.kind = b.kind ∧ x.stop = b.stop) :
    exec (.ceControlToken t) s = .next (s.copiesControl t g b fun T => T.joinInputs.foldl Tile.popIn T) := by
  obtain ⟨⟨r, hr⟩, -⟩ := id h
  have hlen : ((s.tile t).joinInputs.filterMap (s.tile t).inHead).length = (s.tile t).joinInputs.length := by
    rw [List.filterMap_length_eq_length]
    intro c hc
    obtain ⟨x, hx, -⟩ := hb c hc
    simp [hx]
  have hall : ∀ x ∈ (s.tile t).joinInputs.filterMap (s.tile t).inHead, x.kind = b.kind ∧ x.stop = b.stop := by
    intro x hx
    obtain ⟨c, hc, hcx⟩ := List.mem_filterMap.1 hx
    obtain ⟨y, hy, hyb⟩ := hb c hc
    rw [hcx] at hy
    cases hy
    exact hyb
  change execCeControlToken t s = _
  simp only [execCeControlToken, hr, h.open_, Bool.false_eq_true, if_false]
  split
  next e => omega
  next e => omega
  next =>
    split
    next e => rw [e] at hlen; exact absurd (List.length_eq_zero_iff.1 hlen.symm) hne
    next x xs e =>
      rw [e] at hlen hall
      obtain ⟨hx, hxs⟩ := List.forall_mem_cons.1 hall
      have hcond : (decide (xs.length + 1 = (s.tile t).joinInputs.length) && (x.kind == 3 || x.kind == 4)
          && xs.all fun y => y.kind == x.kind && y.stop == x.stop) = true := by
        have hxs' : (xs.all fun y => y.kind == x.kind && y.stop == x.stop) = true := List.all_eq_true.2 fun y hy => by
          simp [(hxs y hy).1, (hxs y hy).2, hx.1, hx.2]
        have hl : xs.length + 1 = (s.tile t).joinInputs.length := hlen
        rw [hxs', hl, hx.1]
        rcases hk with hk | hk <;> simp [hk]
      rw [if_pos hcond]
      simp only [State.copiesControl, State.onTile, hx.1, hx.2]

theorem exec_ceControlToken_arb {b : Beat} {c : Nat} (hj : (s.tile t).join = 2) (hc : arbChoice s g t = some c)
    (hb : (s.tile t).inHead c = some b) (he : hasEnd (s.tile t) c = true) :
    exec (.ceControlToken t) s = .next (s.copiesControl t g b fun T => (T.popIn c).onUnit 0 fun U => { U with served := c + 1 }) := by
  obtain ⟨⟨r, hr⟩, -⟩ := id h
  change execCeControlToken t s = _
  simp only [execCeControlToken, hr, h.open_, hj, hc, hb, he, Bool.false_eq_true, if_false, if_true, State.copiesControl]

theorem exec_ceControlToken_sel {b : Beat} (hj : (s.tile t).join = 3) (hb : (s.tile t).inHead (s.tile t).selin = some b)
    (he : hasEnd (s.tile t) (s.tile t).selin = true) :
    exec (.ceControlToken t) s = .next (s.copiesControl t g b fun T => T.popIn T.selin) := by
  obtain ⟨⟨r, hr⟩, -⟩ := id h
  change execCeControlToken t s = _
  simp only [execCeControlToken, hr, h.open_, hj, hb, he, Bool.false_eq_true, if_false, if_true, State.copiesControl]

/-- Under SEL a STOP or DONE at the input that the control bead names takes the control bead with it (log entry 68). -/
theorem exec_ceControlToken_named {b x : Beat} {c n : Nat} {vs : List Vec} (hj : (s.tile t).join = 3)
    (hs : hasEnd (s.tile t) (s.tile t).selin = false) (ha : beadAt ((s.tile t).inQ (s.tile t).selin) = some (x, vs, n))
    (hc : selTarget (s.tile t) = some c) (hb : (s.tile t).inHead c = some b) (he : hasEnd (s.tile t) c = true) :
    exec (.ceControlToken t) s = .next (s.copiesControl t g b fun T =>
      ((T.popIn c).setInQ T.selin ⟨(T.inQ T.selin).beats.drop n, 0⟩).popStamp T.selin) := by
  obtain ⟨⟨r, hr⟩, -⟩ := id h
  change execCeControlToken t s = _
  simp only [execCeControlToken, hr, h.open_, hj, hs, ha, hc, hb, he, Bool.false_eq_true, if_false, if_true, State.copiesControl]

end

/-! ### BAR (R41, R192) -/

section
variable {s : State} {t u r : Nat} {g : Region}

theorem unitStep_of_can (h : s.unitCan t u r g) (step : Nat → Region → State → State) : unitStep s t u step = .next (step r g s) := by
  obtain ⟨ha, hc, hr⟩ := h
  simp only [unitStep, ha, hc, hr, Bool.and_self, if_true]

/-- A control token at an input's head: its kind, and its stop level or lane 0. -/
theorem Tile.token_of_inHead {T : Tile} {c : Nat} {b : Beat} (h : T.inHead c = some b) (hk : 3 < b.kind) : T.token c = some (b.kind, b.lane0) := by
  obtain ⟨rest, hr⟩ := List.head?_eq_some_iff.1 h
  have h2 : ¬ b.kind ≤ 2 := by omega
  have h3 : b.kind ≠ 3 := by omega
  simp only [Tile.token, hr, h2, h3, if_false]

theorem Tile.inHead_of_token {T : Tile} {c k x : Nat} (h : T.token c = some (k, x)) : ∃ b, T.inHead c = some b ∧ b.kind = k := by
  unfold Tile.token at h
  unfold Tile.inHead
  cases hb : (T.inQ c).beats with
  | nil => simp [hb] at h
  | cons b bs =>
    simp only [hb, Option.some.injEq, Prod.mk.injEq] at h
    exact ⟨b, rfl, h.1⟩

theorem inHead_of_allAt {T : Tile} {k c : Nat} (h : allAt T u k = true) (hc : c ∈ T.mainInputs u) : ∃ b, T.inHead c = some b ∧ b.kind = k := by
  have := List.all_eq_true.1 h c hc
  rw [beq_iff_eq] at this
  exact Option.map_eq_some_iff.1 this

theorem token_of_allAt {T : Tile} {c : Nat} (h : allAt T u 5 = true) (hc : c ∈ T.mainInputs u) : ∃ x, T.token c = some (5, x) := by
  obtain ⟨b, hb, hk⟩ := inHead_of_allAt h hc
  exact ⟨_, hk ▸ T.token_of_inHead hb (by omega)⟩

/-- BAR at every input of a unit that can step is taken on by the unit's own rule. -/
theorem barForward_open {T : Tile} (hm : T.mainInputs u ≠ []) (ha : allAt T u 5 = true) (hx : u = 0 → T.isXf = false) :
    ¬ ((T.mainInputs u).isEmpty || !allAt T u 5 || T.isXf && decide (u = 0)) = true := by
  have hi : (T.mainInputs u).isEmpty = false := by simpa [List.isEmpty_eq_false_iff] using hm
  have hx' : (T.isXf && decide (u = 0)) = false := by
    rw [← Bool.not_eq_true, Bool.and_eq_true_iff, decide_eq_true_iff]
    exact fun h => by simp [hx h.2] at h
  rw [hi, ha, hx']
  exact Bool.false_ne_true

theorem exec_barForward_element (hc : s.unitCan t 0 r g) (hx : (s.tile t).isXf = false) (hm : (s.tile t).mainInputs 0 ≠ [])
    (ha : allAt (s.tile t) 0 5 = true) (hb : (s.tile t).beads = []) (hp : (s.tile t).unperformed = false) :
    exec (.barForward t 0) s = .next ((s.takeAll t ((s.tile t).mainInputs 0)).onTile t fun T =>
      T.outputs.foldl (fun T c => T.pushOut c [.control 5 0 g.ctx
        (match (s.tile t).token (((s.tile t).mainInputs 0).headD 0) with | some (_, x) => x | none => 0)]) T) := by
  have hidle : ((s.tile t).beads.isEmpty && !(s.tile t).unperformed) = true := by simp [hb, hp]
  change execBarForward t 0 s = _
  rw [execBarForward, unitStep_of_can hc]
  refine congrArg _ ((if_neg (barForward_open hm ha fun _ => hx)).trans ?_)
  exact if_pos hidle

section
variable {x : Nat}

theorem scanEnd_bar (hr : (s.tile t).isRoot u = false) (hf : ((s.tile t).unit u).ref = none) (ht : (s.tile t).token (8 * u) = some (5, x)) :
    scanEnd s g t u = (s.takeAll t [8 * u]).endUnit t u g.ctx 5 x := by
  simp [scanEnd, hr, hf, ht]

theorem rptEnd_bar {y : Nat} (ht : (s.tile t).token 32 = some (5, x)) (hy : (s.tile t).token 33 = some (5, y)) :
    rptEnd s g t = (s.takeAll t [32, 33]).endUnit t 4 g.ctx 5 x := by
  simp [rptEnd, ht, hy]

theorem rdcEnd_bar (ht : (s.tile t).token 40 = some (5, x)) : rdcEnd s g t = (s.takeAll t [40]).endUnit t 5 g.ctx 5 x := by
  simp [rdcEnd, ht]

theorem settleSkip_control (o : Option Nat) {k : Nat} (hk : 3 ≤ k) (c : Nat) : settleSkip o k c = none := by
  cases o with
  | none => rfl
  | some b => simp [settleSkip, hk]

theorem mergeStep_bar (union : Bool) {a b c : Nat} (h24 : (s.tile t).token 24 = some (5, x)) (h25 : (s.tile t).token 25 = some (5, a))
    (h26 : (s.tile t).token 26 = some (5, b)) (h27 : (s.tile t).token 27 = some (5, c)) :
    mergeStep s g t union = ((s.onTile t fun T => T.onUnit 3 fun U => { U with skip0 := none, skip1 := none }).takeAll t [24, 25, 26, 27]).endUnit
      t 3 g.ctx 5 x := by
  have h0 : sideHead (s.tile t) 0 = some (5, x, a) := by simp [sideHead, h24, h25]
  have h1 : sideHead (s.tile t) 1 = some (5, b, c) := by simp [sideHead, h26, h27]
  simp [mergeStep, h0, h1, settleSkip_control]

end

/-- A stream unit with BAR at its inputs ends its stream, by the rule of its own kind. -/
theorem exec_barForward_stream {x : Nat} {ins : List Nat} (hc : s.unitCan t u r g)
    (hu : (u, ins) ∈ [(1, [8]), (2, [16]), (3, [24, 25, 26, 27]), (4, [32, 33]), (5, [40])]) (hi : (s.tile t).mainInputs u = ins)
    (ha : allAt (s.tile t) u 5 = true) (ht : (s.tile t).token (8 * u) = some (5, x))
    (hs : u ≤ 2 → (s.tile t).isRoot u = false ∧ ((s.tile t).unit u).ref = none) :
    exec (.barForward t u) s = .next (((if u = 3 then s.onTile t fun T => T.onUnit 3 fun U => { U with skip0 := none, skip1 := none } else s).takeAll
      t ins).endUnit t u g.ctx 5 x) := by
  have htok : ∀ c ∈ ins, ∃ y, (s.tile t).token c = some (5, y) := fun c hcs => token_of_allAt ha (hi ▸ hcs)
  have hm : (s.tile t).mainInputs u ≠ [] := by
    rintro e
    rw [← hi, e] at hu
    simp at hu
  have h0 : u ≠ 0 := by
    rintro rfl
    simp at hu
  change execBarForward t u s = _
  rw [execBarForward, unitStep_of_can hc]
  refine congrArg _ ((if_neg (barForward_open hm ha fun h => absurd h h0)).trans ?_)
  simp only [List.mem_cons, Prod.mk.injEq, List.not_mem_nil, or_false] at hu
  rcases hu with ⟨rfl, rfl⟩ | ⟨rfl, rfl⟩ | ⟨rfl, rfl⟩ | ⟨rfl, rfl⟩ | ⟨rfl, rfl⟩
  · exact scanEnd_bar (hs (by decide)).1 (hs (by decide)).2 ht
  · exact scanEnd_bar (hs (by decide)).1 (hs (by decide)).2 ht
  · obtain ⟨_, h25⟩ := htok 25 (by decide)
    obtain ⟨_, h26⟩ := htok 26 (by decide)
    obtain ⟨_, h27⟩ := htok 27 (by decide)
    change (if (s.tile t).unitFn 3 = 0 then mergeStep s g t false else mergeStep s g t true) = _
    rw [mergeStep_bar false ht h25 h26 h27, mergeStep_bar true ht h25 h26 h27, ite_self]
    rfl
  · obtain ⟨_, h33⟩ := htok 33 (by decide)
    exact rptEnd_bar ht h33
  · exact rdcEnd_bar ht

theorem exec_barForward_writer {x y : Nat} (hc : s.unitCan t 6 r g) (hm : (s.tile t).mainInputs 6 ≠ []) (ha : allAt (s.tile t) 6 5 = true)
    (hh : lwrHead (s.tile t) (lwrWord (s.tile t)) = some (5, x, y)) (hp : (lwrWord (s.tile t)).fn = 3 → ∃ z, (s.tile t).token 50 = some (5, z)) :
    let w := lwrWord (s.tile t)
    exec (.barForward t 6) s = .next (s.taskStores r (unitSite t 6) .streamWrite (some w.pg)
      (if ((s.tile t).unit 6).ended then [] else segStart (s.tile t) w) fun s =>
        (s.takeAll t ([48] ++ (if w.vw then [49] else []) ++ if w.fn = 3 then [50] else [])).endUnit t 6 g.ctx 5 x) := by
  intro w
  have hpre : ¬ (decide (w.fn = 3) && Option.map Prod.fst ((s.tile t).token 50) != some 5) = true := by
    rw [Bool.and_eq_true_iff, decide_eq_true_iff]
    rintro ⟨h3, hne⟩
    obtain ⟨z, hz⟩ := hp h3
    simp [hz] at hne
  change execBarForward t 6 s = _
  rw [execBarForward, unitStep_of_can hc]
  refine congrArg _ ((if_neg (barForward_open hm ha fun h => absurd h (by decide))).trans ?_)
  simp only [lwrEnd, hh]
  refine (if_neg (by decide)).trans ((if_neg hpre).trans ?_)
  simp only [decide_true, Bool.true_and, if_true]
  rfl

/-! #### Address generators and transform nodes -/

theorem agControl_bar {p x : Nat} (st : Bool) (up : Nat) :
    agControl s g t p 5 x st up = (s.takeAll t [56 + 2 * p]).endUnit t (7 + p) g.ctx 5 x := by
  simp [agControl]

section
variable {p x : Nat} (hp : p < 4) (hc : s.unitCan t (7 + p) r g)
include hp hc

theorem exec_agAff_bar (hf : (agWord (s.tile t) p).fn = 0) (hm : (agWord (s.tile t) p).mode ≠ 0)
    (ht : (s.tile t).token (56 + 2 * p) = some (5, x)) (hr : ((s.tile t).unit (7 + p)).ref = none) :
    exec (.agAff t p) s = .next ((s.takeAll t [56 + 2 * p]).endUnit t (7 + p) g.ctx 5 x) := by
  obtain ⟨b, hb, hk⟩ := Tile.inHead_of_token ht
  have hopen : ¬ ((agWord (s.tile t) p).fn != 0 || decide (3 < p)) = true := by simp [hf]; omega
  have hk2 : ¬ b.kind ≤ 2 := by omega
  change execAgAff t p s = _
  rw [execAgAff]
  dsimp only
  rw [unitStep_of_can hc]
  refine congrArg _ ((if_neg hopen).trans ?_)
  by_cases h2 : (agWord (s.tile t) p).mode = 2
  · rw [if_pos h2]
    simp only [hb, hk2, ht, if_false]
    rw [if_neg (by decide), agControl_bar]
  · rw [if_neg h2]
    simp only [hr, hm, ht, if_false]
    rw [if_neg (by decide), agControl_bar]

theorem exec_agInd_bar (hf : (agWord (s.tile t) p).fn = 1) (hm : (agWord (s.tile t) p).mode ≠ 0)
    (ht : (s.tile t).token (56 + 2 * p) = some (5, x)) (hr : ((s.tile t).unit (7 + p)).ref = none)
    (hk : ((s.tile t).unit (7 + p)).checked = true) :
    exec (.agInd t p) s = .next ((s.takeAll t [56 + 2 * p]).endUnit t (7 + p) g.ctx 5 x) := by
  have hopen : ¬ ((agWord (s.tile t) p).fn != 1 || decide (3 < p) || !((s.tile t).unit (7 + p)).checked
      || ((s.tile t).unit (7 + p)).ref.isSome) = true := by simp [hf, hk, hr]; omega
  change execAgInd t p s = _
  rw [execAgInd]
  dsimp only
  rw [unitStep_of_can hc]
  refine congrArg _ ((if_neg hopen).trans ((if_neg hm).trans ?_))
  simp only [ht]
  rw [if_neg (by decide), agControl_bar]

theorem exec_agWr_bar_free (hf : (agWord (s.tile t) p).fn = 2) (hm : (agWord (s.tile t) p).mode = 0)
    (ht : (s.tile t).token (56 + 2 * p + 1) = some (5, x)) :
    exec (.agWr t p) s = .next ((s.takeAll t [56 + 2 * p + 1]).endUnit t (7 + p) g.ctx 5 x) := by
  have hi : 57 + 2 * p = 56 + 2 * p + 1 := by omega
  have hopen : ¬ ((agWord (s.tile t) p).fn != 2 || decide (3 < p)) = true := by simp [hf]; omega
  change execAgWr t p s = _
  rw [execAgWr]
  dsimp only
  rw [unitStep_of_can hc]
  refine congrArg _ ((if_neg hopen).trans ((if_pos hm).trans ?_))
  simp [hi, ht]

theorem exec_agWr_bar_by_reference {y : Nat} (hf : (agWord (s.tile t) p).fn = 2) (hm : (agWord (s.tile t) p).mode ≠ 0)
    (ht : (s.tile t).token (56 + 2 * p) = some (5, x)) (hv : (s.tile t).token (56 + 2 * p + 1) = some (5, y)) :
    exec (.agWr t p) s = .next ((s.takeAll t [56 + 2 * p, 56 + 2 * p + 1]).endUnit t (7 + p) g.ctx 5 x) := by
  have hi : 57 + 2 * p = 56 + 2 * p + 1 := by omega
  have hopen : ¬ ((agWord (s.tile t) p).fn != 2 || decide (3 < p)) = true := by simp [hf]; omega
  change execAgWr t p s = _
  rw [execAgWr]
  dsimp only
  rw [unitStep_of_can hc]
  refine congrArg _ ((if_neg hopen).trans ((if_neg hm).trans ?_))
  simp [hi, ht, hv]

end

theorem blockLen_pos (c : Nat) : 0 < blockLen c := by
  unfold blockLen
  split <;> decide

theorem xfControl_bar {b : Beat} (hk : b.kind = 5) : xfControl s g t b = (s.takeAll t [0]).endUnit t 0 g.ctx 5 b.lane0 := by
  simp [xfControl, hk]

theorem xfStep_of_fn {fn : Nat} (hc : s.unitCan t 0 r g) (hx : (s.tile t).isXf = true) (hf : (xfWord (s.tile t)).1 = fn)
    (step : Region → Option Beat → State → State) : xfStep s t fn step = .next (step g ((s.tile t).inHead 0) s) := by
  rw [xfStep, unitStep_of_can hc]
  exact congrArg _ (if_pos (by simp [hx, hf]))

section
variable {b : Beat} (hc : s.unitCan t 0 r g) (hx : (s.tile t).isXf = true) (hb : (s.tile t).inHead 0 = some b) (hk : b.kind = 5)
include hc hx hb hk

theorem exec_xfTpose_bar (hf : (xfWord (s.tile t)).1 = 0) (ho : ((s.tile t).unit 0).group = []) :
    exec (.xfTpose t) s = .next ((s.takeAll t [0]).endUnit t 0 g.ctx 5 b.lane0) := by
  change execXfTpose t s = _
  rw [execXfTpose, xfStep_of_fn hc hx hf]
  simp [hb, hk, ho, isControl, xfControl_bar]

theorem exec_xfQuant_bar (hf : (xfWord (s.tile t)).1 = 1) (ho : ((s.tile t).unit 0).lanes = []) :
    exec (.xfQuant t) s = .next ((s.takeAll t [0]).endUnit t 0 g.ctx 5 b.lane0) := by
  have hl : blockLen (xfWord (s.tile t)).2.1 ≠ 0 := (blockLen_pos _).ne'
  change execXfQuant t s = _
  rw [execXfQuant, xfStep_of_fn hc hx hf]
  simp [hb, hk, ho, hl, isControl, xfControl_bar]

theorem exec_xfScale_bar (hf : (xfWord (s.tile t)).1 = 2) :
    exec (.xfScale t) s = .next ((s.takeAll t [0]).endUnit t 0 g.ctx 5 b.lane0) := by
  change execXfScale t s = _
  rw [execXfScale, xfStep_of_fn hc hx hf]
  simp [hb, hk, xfControl_bar]

theorem exec_xfBmap_bar (hf : (xfWord (s.tile t)).1 = 3)
    (ho : ceilDiv (bitmapWords (xfWord (s.tile t)).2.2.2.2) 8 ≤ ((s.tile t).unit 0).pos ∨ ((s.tile t).unit 0).pending = false) :
    exec (.xfBmap t) s = .next (((s.onTile t fun T => T.onUnit 0 fun U => { U with entries := [], pos := 0, pending := false }).takeAll
      t [0]).endUnit t 0 g.ctx 5 b.lane0) := by
  have hw : ¬ (((s.tile t).unit 0).pos < ceilDiv (bitmapWords (xfWord (s.tile t)).2.2.2.2) 8 ∧ ((s.tile t).unit 0).pending = true) := by
    rintro ⟨h1, h2⟩
    rcases ho with h | h
    · omega
    · rw [h] at h2; cases h2
  change execXfBmap t s = _
  rw [execXfBmap, xfStep_of_fn hc hx hf]
  simp [hb, hk, hw, xfControl_bar]

end

end

end Sys2Proof.Machine
end

section
namespace Sys2Proof.Machine

/-! ### SW (R26) -/

namespace Tile

/-- What unit u puts on its outputs as it switches: what it still held back, then SW. -/
def sentSwitch (T : Tile) (ctx now u gen : Nat) : Tile :=
  let U := T.drainUnit ctx now u
  if u = 0 && !U.isXf then U.outputs.foldl (fun T c => T.pushOut c [.control 6 0 ctx gen]) U else U.sendEnd ctx u 6 gen

/-- A tile whose unit u has gone over to the other bank: SW is on its outputs and taken from its inputs, and its stream state is fresh. -/
def switchUnit (T : Tile) (ctx now u gen : Nat) : Tile :=
  ((T.mainInputs u).foldl Tile.takeToken (T.sentSwitch ctx now u gen)).onUnit u UState.switch

theorem emitsFrom.isXf {T U : Tile} (h : T.emitsFrom 0 U) : U.isXf = T.isXf := by
  simp only [Tile.isXf, h.bankOf, h.physBank]

theorem inputCodes_nodup (u : Nat) : (Tile.inputCodes u).Nodup := by
  unfold Tile.inputCodes
  split <;> simp [List.range_succ]

section
variable (T : Tile) (ctx now u gen : Nat)

theorem emitsFrom_sentSwitch : T.emitsFrom u (T.sentSwitch ctx now u gen) := by
  refine (emitsFrom_drainUnit T ctx now u).trans ?_
  dsimp only [sentSwitch]
  split
  · exact emitsFrom_foldl (fun _ _ => emitsFrom_pushOut ..) _ _
  · exact emitsFrom_sendEnd ..

/-- SW is the last beat of each output that carries a unit's control tokens. -/
theorem lastOut_sentSwitch {c : Nat} (hc : c ∈ if u = 0 ∧ T.isXf = false then T.outputs else T.mainOutputs u) :
    (T.sentSwitch ctx now u gen).lastOut c = some (.control 6 0 ctx gen) := by
  have hd := emitsFrom_drainUnit T ctx now u
  unfold sentSwitch
  by_cases h : u = 0 ∧ T.isXf = false
  · obtain ⟨rfl, hx⟩ := h
    rw [if_pos ⟨rfl, hx⟩, ← hd.outputs] at hc
    simp only [hd.isXf, hx, decide_true, Bool.not_false, Bool.and_self, if_true]
    exact lastOut_foldl_pushOut _ _ hc
  · have h' : ¬ (decide (u = 0) && !(T.drainUnit ctx now u).isXf) = true := by
      rw [Bool.and_eq_true_iff, decide_eq_true_iff, Bool.not_eq_true']
      rintro ⟨rfl, hx⟩
      exact h ⟨rfl, hd.isXf ▸ hx⟩
    rw [if_neg h, ← hd.mainOutputs] at hc
    rw [if_neg h']
    exact lastOut_sendEnd ctx 6 gen hc

theorem unit_switchUnit : (T.switchUnit ctx now u gen).unit u = { UState.fresh with switched := true } := unit_onUnit ..

/-- A switch leaves the tile's bank and the element's registers, and puts nothing on outputs besides what `sentSwitch` does. -/
theorem switchUnit_keeps : (T.switchUnit ctx now u gen).bank = T.bank ∧ (T.switchUnit ctx now u gen).x = T.x ∧ (T.switchUnit ctx now u gen).v = T.v
    ∧ (T.switchUnit ctx now u gen).p = T.p ∧ (T.switchUnit ctx now u gen).outq = (T.sentSwitch ctx now u gen).outq := by
  obtain ⟨e, -⟩ := T.emitsFrom_sentSwitch ctx now u gen
  have h := foldl_takeToken_frame (T.mainInputs u) (T.sentSwitch ctx now u gen)
  have hbank := congrArg Tile.bank e
  have hx := congrArg Tile.x e
  have hv := congrArg Tile.v e
  have hp := congrArg Tile.p e
  exact ⟨(congrArg Tile.bank h).trans hbank, (congrArg Tile.x h).trans hx, (congrArg Tile.v h).trans hv, (congrArg Tile.p h).trans hp,
    (congrArg Tile.outq h :)⟩

theorem beats_switchUnit {c : Nat} (h : ∀ c ∈ T.mainInputs u, ∃ b, T.inHead c = some b ∧ 2 < b.kind) (hc : c ∈ T.mainInputs u) :
    ((T.switchUnit ctx now u gen).inQ c).beats = (T.inQ c).beats.drop 1 := by
  obtain ⟨e, -⟩ := T.emitsFrom_sentSwitch ctx now u gen
  have hq : ∀ d, (T.sentSwitch ctx now u gen).inQ d = T.inQ d := fun d => by rw [e]; rfl
  have hn : (T.mainInputs u).Nodup := (inputCodes_nodup u).filter _
  rw [← hq c]
  refine beats_foldl_takeToken hn (fun d hd => ?_) hc
  rw [Tile.inHead, hq]
  exact h d hd

end

end Tile

theorem exec_elementSwitch {s : State} {t u r : Nat} {g : Region} (ha : s.active t = some (r, g)) (hu : u < 11)
    (hb : g.switching = true ∨ (g.shadow = true ∧ (s.tile t).mainInputs u ≠ [])) (hs : ((s.tile t).unit u).switched = false)
    (hall : allAt (s.tile t) u 6 = true) (hd : settled (s.tile t) u = true) (hr : (s.tile t).roomy u = true) :
    let U := (s.tile t).switchUnit g.ctx s.time u (bits g.gen.toNat 0 32)
    exec (.elementSwitch t u) s
      = .next ((s.setTile t (if u = 0 then s.takeArray g t U else U)).setRegion r { g with switching := true }) := by
  have hbegun : (g.switching || (g.shadow && !((s.tile t).mainInputs u).isEmpty)) = true := by
    simpa [List.isEmpty_eq_false_iff] using hb
  have hopen : (decide (11 ≤ u) || !(g.switching || (g.shadow && !((s.tile t).mainInputs u).isEmpty)) || ((s.tile t).unit u).switched
      || !allAt (s.tile t) u 6 || !settled (s.tile t) u || !(s.tile t).roomy u) = false := by
    have : ¬ 11 ≤ u := by omega
    simp [hbegun, hs, hall, hd, hr, this]
  change execElementSwitch t u s = _
  simp only [execElementSwitch, ha, hopen, Bool.false_eq_true, if_false]
  rfl

/-- The machine after a unit has switched: the tile is that of `Tile.switchUnit`, which as an element takes its place in its array node, and
its region's switch is in progress. -/
theorem elementSwitch_spec {s : State} {t u r : Nat} {g : Region} {gen : Nat}
    (htok : ∀ c ∈ (s.tile t).mainInputs u, ∃ b, (s.tile t).inHead c = some b ∧ 2 < b.kind) :
    let T := s.tile t
    let U := T.switchUnit g.ctx s.time u gen
    let v := (s.setTile t (if u = 0 then s.takeArray g t U else U)).setRegion r { g with switching := true }
    ((v.tile t).unit u) = { UState.fresh with switched := true } ∧ (v.tile t).bankOf u = !(v.tile t).bank ∧ (v.tile t).bank = T.bank
      ∧ (v.tile t).x = T.x ∧ (v.tile t).v = T.v ∧ (v.tile t).p = T.p
      ∧ (∀ c ∈ T.mainInputs u, ((v.tile t).inQ c).beats = (T.inQ c).beats.drop 1)
      ∧ (∀ c ∈ (if u = 0 ∧ T.isXf = false then T.outputs else T.mainOutputs u),
          ((v.tile t).outQ c).beats.getLast? = some (.control 6 0 g.ctx gen))
      ∧ (∀ c, c ≠ t → v.tile c = s.tile c) ∧ v.region? r = some { g with switching := true } ∧ v.mem = s.mem := by
  intro T U v
  obtain ⟨hbank, hx, hv, hp, ho⟩ := T.switchUnit_keeps g.ctx s.time u gen
  have hU : U.unit u = { UState.fresh with switched := true } := T.unit_switchUnit ..
  obtain ⟨W, hW, hvt⟩ : ∃ W, W = { U with ids := W.ids, array := W.array, was := W.was } ∧ v.tile t = W := by
    refine ⟨_, ?_, s.tile_setTile t _⟩
    split <;> rfl
  have hunit : W.unit u = { UState.fresh with switched := true } := by rw [hW]; exact hU
  have hb : W.bank = T.bank := (congrArg Tile.bank hW).trans hbank
  rw [hvt]
  refine ⟨hunit, ?_, hb, (congrArg Tile.x hW).trans hx, (congrArg Tile.v hW).trans hv, (congrArg Tile.p hW).trans hp, fun c hc => ?_, fun c hc => ?_,
    fun c hc => State.tile_setTile_of_ne (Ne.symm hc) s _, State.region?_setRegion .., rfl⟩
  · rw [Tile.bankOf, hunit]
    exact Bool.bne_true _
  · have hq : W.inQ c = U.inQ c := by rw [hW]; rfl
    rw [hq]
    exact T.beats_switchUnit g.ctx s.time u gen htok hc
  · have hq : W.outQ c = (T.sentSwitch g.ctx s.time u gen).outQ c := by
      have : W.outq = (T.sentSwitch g.ctx s.time u gen).outq := (congrArg Tile.outq hW).trans ho
      rw [Tile.outQ, this, Tile.outQ]
    rw [hq]
    exact T.lastOut_sentSwitch g.ctx s.time u gen hc

/-- Settles O35: a STOP or DONE by CE_CONTROL_TOKEN, a BAR by the event of the unit it stands at, SW by ELEMENT_SWITCH. -/
theorem controlTokensPass : Obligations.ControlTokensPass := by
  constructor
  · intro s t g T fires hw hce hb hp ho
    have h : s.canPass t g := ⟨hw, hce, hb, hp, ho⟩
    exact ⟨fun b => exec_ceControlToken_zip h, fun b c => exec_ceControlToken_arb h, fun b => exec_ceControlToken_sel h,
      fun b c x vs n => exec_ceControlToken_named h⟩
  · intro s t u r g T ha
    refine ⟨fun hc hr => exec_barForward_element ⟨ha, hc, hr⟩, fun x hcan => ⟨fun ins hu hi hall ht hs => ?stream, ?writer, ?ag, ?xf⟩,
      fun hu hb hs hall hd hr => ?switch⟩
    case stream => exact exec_barForward_stream hcan hu hi hall ht hs
    case writer =>
      rintro y w rfl hm hall hh hp
      exact exec_barForward_writer hcan hm hall hh hp
    case ag =>
      rintro p hp rfl
      exact ⟨fun hm ht hr => ⟨fun hf => exec_agAff_bar hp hcan hf hm ht hr, fun hf hk => exec_agInd_bar hp hcan hf hm ht hr hk⟩,
        fun hf hm ht => exec_agWr_bar_free hp hcan hf hm ht, fun y hf hm ht hv => exec_agWr_bar_by_reference hp hcan hf hm ht hv⟩
    case xf =>
      rintro i b xf U rfl hx hi hh hk rfl h0 h1 h3
      simp only [List.mem_cons, Prod.mk.injEq, List.not_mem_nil, or_false] at hi
      rcases hi with ⟨rfl, hf⟩ | ⟨rfl, hf⟩ | ⟨rfl, hf⟩ | ⟨rfl, hf⟩
      · rw [exec_xfTpose_bar hcan hx hh hk hf (h0 hf), if_neg (by omega)]
      · rw [exec_xfQuant_bar hcan hx hh hk hf (h1 hf), if_neg (by omega)]
      · rw [exec_xfScale_bar hcan hx hh hk hf, if_neg (by omega)]
      · rw [exec_xfBmap_bar hcan hx hh hk hf (h3 hf), if_pos hf]
    case switch =>
      have htok : ∀ c ∈ T.mainInputs u, ∃ b, T.inHead c = some b ∧ 2 < b.kind := fun c hc =>
        (inHead_of_allAt hall hc).imp fun b hb => ⟨hb.1, by omega⟩
      exact ⟨_, exec_elementSwitch ha hu hb hs hall hd hr, elementSwitch_spec htok⟩

end Sys2Proof.Machine
end

section
namespace Sys2Proof.Machine

/-! ### A merge unit's output beats leave together (R161) -/

/-- A tile whose merge unit fills a coordinate and a reference output, both due, and holds no credit for the reference output. -/
def heldMergeTile : Tile :=
  { Tile.reset with
    region := some 0
    outs := [(24, ⟨0, [7], 0⟩), (25, ⟨1, [9], 0⟩)]
    outq := [(25, ⟨List.replicate 16 (.control 3 0 0 0), 0⟩)] }

/-- That tile at work, 8 clk after the tokens. -/
def heldMerge : State := { State.reset with time := 8, regions := [(0, unitRegion)], tiles := [(0, heldMergeTile)] }

theorem heldMerge_works : heldMerge.works 0 unitRegion := ⟨0, rfl⟩

/-- The unit waits until both its beats can leave. -/
theorem heldMerge_waits : exec (.outputBeat8Clk 0 3) heldMerge = .next heldMerge := rfl

/-- Refutes O36: OUTPUT_BEAT_8_CLK lets the beats of a merge unit leave together, so that one whose output has credit stays while the other's
has none; the statement lets it leave by itself. -/
theorem not_beatsMove : ¬ Obligations.BeatsMove := by
  intro h
  obtain ⟨-, -, -, hclk⟩ := h heldMerge 0 0 unitRegion heldMerge_works
  have hleaves := hclk 3 rfl
  rw [heldMerge_waits] at hleaves
  have houts := congrArg (fun s : State => (s.tile 0).outs) (Host.Outcome.next.inj hleaves)
  exact absurd houts (by decide)

end Sys2Proof.Machine
end

section
namespace Sys2Proof.Machine

/-! ### Splitting a task (R35, R36, R361) -/

section
variable {s : State} {h : Nat} {k : Task}

theorem State.task?_enqueue_of_ne {j : Nat} (n : h ≠ j) : (s.enqueue h).task? j = s.task? j := by
  unfold State.enqueue
  split
  · rfl
  · exact s.task?_setTask_of_ne n _

/-- A task with no predecessor left is ready as it enters its queue. -/
theorem State.task?_enqueue_of_free (hk : s.task? h = some k) (hd : k.deps = 0) :
    (s.enqueue h).task? h = some { k with phase := .ready, readyAt := s.time, aged := false, reserved := false, by_ := none } := by
  simp only [State.enqueue, hk, hd, if_true]
  exact s.task?_setTask h _

/-- A child is ready as it enters its queue. -/
theorem State.task?_enqueue_child {p : Nat} {a : List (Nat × Nat)} (hk : s.task? h = some (State.childOf p k a)) :
    (s.enqueue h).task? h = some { State.childOf p k a with phase := .ready, readyAt := s.time } :=
  State.task?_enqueue_of_free hk rfl

theorem State.task?_count (d j : Nat) (e : Event) : (s.count d e).task? j = s.task? j := rfl

theorem State.enqueue_time : (s.enqueue h).time = s.time := by
  unfold State.enqueue
  split <;> rfl

/-- A task that is split, with its two children in the table of tasks. -/
def State.withChildren (s : State) (h : Nat) (k : Task) (a b : List (Nat × Nat)) : State :=
  let s' := (s.setTask h { k with phase := .split, kids := 2, reserved := false, aged := false }).unqueue k.die h
  { (s'.setTask s.nhandle (State.childOf h k a)).setTask (s.nhandle + 1) (State.childOf h k b) with nhandle := s.nhandle + 2 }

theorem State.withChildren_tasks (a b : List (Nat × Nat)) (hn : h < s.nhandle) :
    (s.withChildren h k a b).task? s.nhandle = some (State.childOf h k a)
      ∧ (s.withChildren h k a b).task? (s.nhandle + 1) = some (State.childOf h k b)
      ∧ (s.withChildren h k a b).task? h = some { k with phase := .split, kids := 2, reserved := false, aged := false } :=
  ⟨(State.task?_setTask_of_ne (by omega) ..).trans (State.task?_setTask ..), State.task?_setTask ..,
    (State.task?_setTask_of_ne (by omega) ..).trans ((State.task?_setTask_of_ne (by omega) ..).trans (State.task?_setTask ..))⟩

theorem State.withChildren_time (a b : List (Nat × Nat)) : (s.withChildren h k a b).time = s.time := by
  simp only [State.withChildren, State.setTask_time, State.unqueue, State.onDie_time]

/-- A task above minimum grain is replaced by its two halves, both ready (R35). -/
theorem State.splitTask_spec {l : Launch} {a b : List (Nat × Nat)} (hk : s.task? h = some k) (hl : s.launchBy (State.taskKey k) = some l)
    (hd : splitDom k.dom l.grains = some (a, b)) (hn : h < s.nhandle) :
    ∃ v, s.splitTask h = some v
      ∧ v.task? s.nhandle = some { State.childOf h k a with phase := .ready, readyAt := s.time }
      ∧ v.task? (s.nhandle + 1) = some { State.childOf h k b with phase := .ready, readyAt := s.time }
      ∧ v.task? h = some { k with phase := .split, kids := 2, reserved := false, aged := false } := by
  have he : s.splitTask h
      = some ((((s.withChildren h k a b).enqueue s.nhandle).enqueue (s.nhandle + 1)).count k.die .splitMade) := by
    rw [State.splitTask, hk]
    simp only [hl, hd]
    rfl
  obtain ⟨hA, hB, hS⟩ := State.withChildren_tasks (s := s) (h := h) (k := k) a b hn
  refine ⟨_, he, ?_, ?_, ?_⟩ <;> rw [State.task?_count]
  · rw [State.task?_enqueue_of_ne (by omega), State.task?_enqueue_child hA, State.withChildren_time]
  · rw [State.task?_enqueue_child ((State.task?_enqueue_of_ne (by omega)).trans hB), State.enqueue_time, State.withChildren_time]
  · rw [State.task?_enqueue_of_ne (by omega), State.task?_enqueue_of_ne (by omega), hS]

end

/-! ### The turns of the scheduler (R24, R33 to R37, R361, R362) -/

section
variable {s : State} {r : Nat} {g : Region} (hr : s.region? r = some g)
include hr

/-- An exhaustion event of a region that has not reported quiescence, and is not drained, is due at the end of the clk. -/
theorem State.exhaust_open (hq : g.quiet = false) (hd : g.drain = none) (cause : Nat) :
    s.exhaust r cause = (s.setRegion r { g with cause := g.cause ||| 2 ^ cause }).later [.op (.exhaustion r cause)] := by
  simp only [State.exhaust, hr, hq, hd, Option.isSome_none, Bool.or_self, Bool.false_eq_true, if_false]

theorem exec_timeAllowanceExpiry {k : Task} (hk : s.task? g.task = some k) (hf : g.frozen = false) (hc : 2 ^ k.texp ≤ g.clk) :
    exec (.timeAllowanceExpiry r) s = .next (s.exhaust r 2) := by
  have hs : (!g.frozen && s.spent g) = true := by simp [State.spent, hk, hf, hc]
  change execTimeAllowanceExpiry r s = _
  simp only [execTimeAllowanceExpiry, hr, hs, if_true]

theorem exec_exhaustion (cause : Nat) (hf : g.frozen = false) (hq : g.quiet = false) (hd : g.drain = none) :
    exec (.exhaustion r cause) s = .next (if s.irrevocable g then s.resx r g (g.cause ||| 2 ^ cause)
      else State.drain (s.setRegion r { g with cause := g.cause ||| 2 ^ cause }) r .split) := by
  change execExhaustion r cause s = _
  simp only [execExhaustion, hr, hf, hq, hd, Option.isSome_none, Bool.or_self, Bool.false_eq_true, if_false]

theorem exec_quiescenceReport_drain {why : Drain} (hd : g.drain = some why) :
    exec (.quiescenceReport r) s
      = .next (if s.drained g then ((s.releaseRegion r).afterDrain why g.task g.cause).endActing r else s) := by
  change execQuiescenceReport r s = _
  simp only [execQuiescenceReport, hr, hd]

theorem exec_quiescenceReport_commit (hd : g.drain = none) :
    exec (.quiescenceReport r) s
      = .next (if s.quiescent g then (s.setRegion r { g with quiet := true }).commit r true fun s => (s.complete g.task).releaseRegion r
        else s) := by
  change execQuiescenceReport r s = _
  simp only [execQuiescenceReport, hr, hd]

end

section
variable {s : State} {h : Nat} {k : Task} {l : Launch}

/-- A ready task that has reached its age, and the reservations that its die then keeps. -/
def State.agedTask (s : State) (h : Nat) (k : Task) : State := (s.setTask h { k with aged := true }).freshReserve h

theorem exec_admissionAgeExpiry (hk : s.task? h = some k) (hp : k.phase = .ready) (ha : k.readyAt + 2 ^ (s.die k.die).age ≤ s.time)
    (hl : s.launchBy (State.taskKey k) = some l) :
    exec (.admissionAgeExpiry h) s = .next (match splitDom k.dom l.grains with
      | some _ => if (s.agedTask h k).queueRoom k.die k.prio = 0 then s.agedTask h k
        else ((s.agedTask h k).splitTask h).getD (s.agedTask h k)
      | none => match ((s.agedTask h k).die k.die).reserve.getD k.prio none, (s.agedTask h k).reservation k.die h l with
        | none, some q => ((s.agedTask h k).onDie k.die fun D => { D with reserve := D.reserve.set k.prio (some q) }).count k.die .reservation
        | _, _ => s.agedTask h k) := by
  have ho : (k.phase != .ready || decide (s.time < k.readyAt + 2 ^ (s.die k.die).age)) = false := by simp [hp, ha]
  change execAdmissionAgeExpiry h s = _
  simp only [execAdmissionAgeExpiry, hk, ho, hl, Bool.false_eq_true, if_false]
  rfl

theorem exec_dependenceDecrement (hk : s.task? h = some k)
    (hd : (s.tasks.filter fun q => q.2.phase != .done && q.2.succs.contains h).length < k.deps) :
    exec (.dependenceDecrement h) s = .next (s.setTask h { k with
      deps := k.deps - 1
      phase := if k.deps = 1 ∧ k.phase = .waiting then .ready else k.phase
      readyAt := if k.deps = 1 ∧ k.phase = .waiting then s.time else k.readyAt }) := by
  change execDependenceDecrement h s = _
  simp only [execDependenceDecrement, hk, if_neg (Nat.not_le.mpr hd), Bool.and_eq_true, decide_eq_true_eq, beq_iff_eq]

end

/-! ### Allocation (R37, R362) -/

section
variable {s : State} {d h i : Nat} {k : Task} {l : Launch} {v : Variant} {o : Nat × Nat}

theorem exec_allocate (hd : s.boot.live.getLsbD d = true) (ho : (s.offered d).head? = some h) (hp : s.placement d h = some (k, l, i, v, o)) :
    exec (.allocate d) s = .next (if s.restoreFirst d k then s else s.placeTask d h i k l v o) := by
  obtain ⟨rest, hq⟩ := List.head?_eq_some_iff.mp ho
  change execAllocate d s = _
  simp only [execAllocate, hd, hq, List.findSome?_cons, hp, Option.map_some, Bool.not_true, Bool.false_eq_true, if_false]

/-- A task that is placed runs on a new region on its rectangle, whose load begins. -/
theorem State.placeTask_spec :
    (s.placeTask d h i k l v o).nregion = s.nregion + 1
      ∧ (s.placeTask d h i k l v o).task? h = some { k with phase := .running s.nregion, reserved := true, aged := false }
      ∧ ∃ g, (s.placeTask d h i k l v o).region? s.nregion = some g ∧ g.die = d ∧ (g.ox, g.oy) = o ∧ g.w = v.w ∧ g.h = v.h ∧ g.ctx = k.ctx
        ∧ g.task = h ∧ g.variant = i ∧ g.running = false ∧ g.loader.phase = .reading := by
  refine ⟨rfl, State.task?_setTask .., ?_⟩
  have hr : (s.placeTask d h i k l v o).region? s.nregion = (s.makeRegion d h k.ctx l.img i v o).region? s.nregion := rfl
  rw [hr, State.makeRegion]
  exact ⟨_, State.region?_setRegion _ s.nregion _, rfl, rfl, rfl, rfl, rfl, rfl, rfl, rfl, rfl⟩

end

/-- Settles O46: each turn by the equation of its operation, a split and an allocation by what they leave. -/
theorem schedulerTurns : Obligations.SchedulerTurns := by
  unfold Obligations.SchedulerTurns
  intro s
  refine ⟨fun r g k hr hk hf hq hd hc => ?_, fun r g cause hr hf hq hd => ?_, fun h k l hk hp ha hl => ?_, fun r g hr => ⟨fun why hd => ?_, ?_, ?_⟩,
    fun h k hk hd => exec_dependenceDecrement hk hd, fun d h k l i v o hd ho hp => ?_⟩
  · rw [exec_timeAllowanceExpiry hr hk hf hc, State.exhaust_open hr hq hd]
  · rw [exec_exhaustion hr cause hf hq hd]
    refine ⟨fun hi => by rw [hi]; rfl, fun hi => ⟨s.resx r g (g.cause ||| 2 ^ cause), by rw [hi]; rfl, State.region?_setRegion ..⟩⟩
  · rw [exec_admissionAgeExpiry hk hp ha hl]
    refine ⟨fun a b hs hn hq => ?_, fun q hs (hn : ((s.agedTask h k).die k.die).reserve.getD k.prio none = none)
      (hq : (s.agedTask h k).reservation k.die h l = some q) => ?_⟩
    · obtain ⟨v, hv, hspec⟩ := (State.splitTask_spec (s := s.agedTask h k) (State.task?_setTask ..) hl hs hn :)
      refine ⟨v, ?_, hspec⟩
      simp only [hs, hv, Option.getD_some]
      exact congrArg _ (if_neg hq)
    · simp only [hs, hn, hq]
      rfl
  · rw [exec_quiescenceReport_drain hr hd]
    exact ⟨fun h => by rw [if_pos h], fun h => by rw [h]; rfl⟩
  · intro hd h
    rw [exec_quiescenceReport_commit hr hd, if_pos h]
  · intro hd h
    rw [exec_quiescenceReport_commit hr hd, h]
    rfl
  · rw [exec_allocate hd ho hp]
    exact ⟨fun h => by rw [if_pos h], fun h => ⟨_, by rw [h]; rfl, State.placeTask_spec⟩⟩

end Sys2Proof.Machine
end

section
namespace Sys2Proof.Machine

/-! ### What the loader's reads and a change of the tiles leave alone -/

/-- The regions and the time of a state are those of another. -/
def State.keepsRegions (s s' : State) : Prop := s'.regions = s.regions ∧ s'.time = s.time

section
variable {s : State}

theorem State.keepsRegions.refl : s.keepsRegions s := ⟨rfl, rfl⟩

theorem State.keepsRegions.trans {s₁ s₂ : State} (h : s.keepsRegions s₁) (k : s₁.keepsRegions s₂) : s.keepsRegions s₂ :=
  ⟨k.1.trans h.1, k.2.trans h.2⟩

theorem State.keepsRegions.region? {s' : State} (h : s.keepsRegions s') (r : Nat) : s'.region? r = s.region? r :=
  congrArg (tabGet r) h.1

theorem State.keepsRegions.of_fst {α : Type} {p : State × α} {s' : State} {a : α} (e : p = (s', a)) (h : s.keepsRegions p.1) : s.keepsRegions s' := by
  subst e
  exact h

theorem State.keepsRegions_ite {α : Type} {c : Prop} [Decidable c] {p q : State × α} (hp : s.keepsRegions p.1) (hq : s.keepsRegions q.1) :
    s.keepsRegions (if c then p else q).1 := by
  split
  · exact hp
  · exact hq

theorem State.keepsRegions_foldl {α : Type} {f : State → α → State} (h : ∀ (s : State) a, s.keepsRegions (f s a)) (l : List α) :
    s.keepsRegions (l.foldl f s) :=
  l.foldlRecOn f .refl fun _ k a _ => k.trans (h _ a)

theorem State.keepsRegions_onTile (t : Nat) (f : Tile → Tile) : s.keepsRegions (s.onTile t f) := ⟨rfl, rfl⟩

theorem State.keepsRegions_onTiles (g : Region) (f : Nat → Nat → Tile → Tile) : s.keepsRegions (s.onTiles g f) :=
  keepsRegions_foldl (fun _ _ => keepsRegions_foldl (fun _ _ => keepsRegions_onTile ..) _) _

theorem State.keepsRegions_addLeaf (d : Nat) (i : Ise) (e : TlbEntry) : s.keepsRegions (s.addLeaf d i e) := by
  cases i <;> exact ⟨rfl, rfl⟩

theorem State.keepsRegions_xlate (d : Nat) (i : Ise) (c va : Nat) (k : AKind) : s.keepsRegions (s.xlate d i c va k).1 := by
  unfold State.xlate
  split
  · exact .refl
  · dsimp only
    split
    · exact .trans ⟨rfl, rfl⟩ (keepsRegions_addLeaf ..)
    · exact ⟨rfl, rfl⟩

theorem State.keepsRegions_imageBlock (c va m : Nat) (q : Page) : s.keepsRegions (s.imageBlock c va m q).1 := by
  unfold State.imageBlock
  refine keepsRegions_ite .refl (keepsRegions_ite .refl ?_)
  split
  · exact .refl
  · refine keepsRegions_ite ⟨rfl, rfl⟩ ?_
    split <;> exact ⟨rfl, rfl⟩

theorem State.keepsRegions_loadBytes (g : Region) (k va n : Nat) : s.keepsRegions (s.loadBytes g k va n).1 := by
  induction k generalizing s va n with
  | zero => exact .refl
  | succ k ih =>
    unfold State.loadBytes
    refine keepsRegions_ite .refl ?_
    extract_lets m
    split
    next e => exact .of_fst e (keepsRegions_xlate ..)
    next e =>
      have hs₁ := keepsRegions.of_fst e (keepsRegions_xlate ..)
      split
      next e => exact hs₁.trans (.of_fst e (keepsRegions_imageBlock ..))
      next e =>
        have hs₂ := hs₁.trans (.of_fst e (keepsRegions_imageBlock ..))
        split
        next e => exact hs₂.trans (.of_fst e (ih ..))
        next e => exact hs₂.trans (.of_fst e (ih ..))

theorem State.region?_enterArgument (r q : Nat) : (s.enterArgument r).region? q = s.region? q := by
  unfold State.enterArgument
  split <;> rfl

theorem State.region?_onLoader {r : Nat} {g : Region} (hr : s.region? r = some g) (f : Loader → Loader) :
    (s.onLoader r f).region? r = some { g with loader := f g.loader } := by
  simp only [State.onLoader, State.onRegion, hr, State.region?_setRegion]

end

/-! ### The turns of the loader (R28, R47, R59 to R72) -/

section
variable {s : State} {r : Nat} {g : Region} (hr : s.region? r = some g)

/-- The variant that a region's loader loads. -/
def State.loadVariant (s : State) (g : Region) : Variant := variantOf (s.loadHeader g) g.loader.variant

/-- The entries that LOADER_READ reads next (R59). -/
def nextEntries (v : Variant) (g : Region) : Nat := min 16 (v.fcnt - g.loader.entries.length)

include hr

section
variable (hf : g.frozen = false) (hd : g.drain = none)
include hf hd

section
variable (hp : g.loader.phase = .reading)
include hp

omit hr in
theorem loaderRead_open : (g.loader.phase != .reading || g.frozen || g.drain.isSome) = false := by simp [hp, hf, hd]

theorem exec_loaderRead_fault {s₁ : State} {f : Flt}
    (hb : s.loadBytes g 4 (g.loader.img + (s.loadVariant g).foff + 40 * g.loader.entries.length) (40 * nextEntries (s.loadVariant g) g)
      = (s₁, .error f)) :
    exec (.loaderRead r) s = .next (s₁.loaderFault r g f) := by
  rw [State.loadVariant, nextEntries] at hb
  change execLoaderRead r s = _
  simp only [execLoaderRead, hr, loaderRead_open hf hd hp, hb, Bool.false_eq_true, if_false]

theorem exec_loaderRead {s₁ : State} {bs : List Byte}
    (hb : s.loadBytes g 4 (g.loader.img + (s.loadVariant g).foff + 40 * g.loader.entries.length) (40 * nextEntries (s.loadVariant g) g)
      = (s₁, .ok bs)) :
    ∃ t, exec (.loaderRead r) s = .next t ∧ t.region? r = some { g with loader := { g.loader with
      entries := g.loader.entries ++ (List.range (nextEntries (s.loadVariant g) g)).map fun i =>
        ((wordsOf bs (5 * nextEntries (s.loadVariant g) g)).drop (5 * i)).take 5
      phase := if (s.loadVariant g).fcnt ≤ g.loader.entries.length + nextEntries (s.loadVariant g) g then .verifying else .reading
      due := s.time + 16 + g.w + g.h } } := by
  have hs₁ : s.keepsRegions s₁ := .of_fst hb (s.keepsRegions_loadBytes ..)
  rw [State.loadVariant, nextEntries] at hb
  change ∃ t, execLoaderRead r s = _ ∧ _
  simp only [execLoaderRead, hr, loaderRead_open hf hd hp, hb, Bool.false_eq_true, if_false]
  have hs₂ (f) := hs₁.trans (s₁.keepsRegions_onTiles g f)
  refine ⟨_, rfl, (State.region?_onLoader (((hs₂ _).region? r).trans hr) _).trans ?_⟩
  rw [(hs₂ _).2]
  rfl

end

section
variable (hp : g.loader.phase = .verifying) (ht : g.loader.due ≤ s.time)
include hp ht

theorem exec_verificationPass :
    exec (.verificationPass r) s = .next (match loadFailure (s.loadVariant g) g.loader.entries with
      | some f => s.cfginv r g f
      | none => if g.loader.succ then s.setRegion r { g with
          shadow := true
          gen := BitVec.ofNat 64 (Hdr.iseq (s.loadHeader g))
          loader := { g.loader with phase := .ready } }
        else s.switchIn r g (s.loadVariant g)) := by
  have ho : (g.loader.phase != .verifying || g.frozen || g.drain.isSome || decide (s.time < g.loader.due)) = false := by simp [hp, hf, hd, ht]
  change execVerificationPass r s = _
  simp only [execVerificationPass, hr, ho, Bool.false_eq_true, if_false]
  rfl

end

theorem exec_configScrub (hn : g.running = true) (hw : g.switching = false) (ht : g.scrubAt ≤ s.time) :
    exec (.configScrub r) s = .next (if s.regionSig g = g.sig then s.setRegion r { g with scrubAt := s.time + 2 ^ 20 }
      else (s.setRegion r { g with scrubAt := s.time + 2 ^ 20 }).configError r (tileAt g.die g.oy g.ox)) := by
  have ho : (!g.running || g.frozen || g.drain.isSome || g.switching || decide (s.time < g.scrubAt)) = false := by simp [hn, hf, hd, hw, ht]
  change execConfigScrub r s = _
  simp only [execConfigScrub, hr, ho, Bool.false_eq_true, if_false, beq_iff_eq]

section
variable (hn : g.running = true) (hw : g.switching = false) (hs : g.shadow = false) (h0 : g.nxt ≠ 0) (hi : g.loader.phase = .idle)
include hn hw hs h0 hi

/-- A region whose loader has begun on the successor image (R47). -/
def succRegion (g : Region) : Region := { g with loader := { g.loader with img := g.nxt, variant := g.nxtv, succ := true, entries := [] } }

/-- A successor whose header passes the checks of SUCCESSOR_PRELOAD (R47). -/
def goodSuccessor (g : Region) (hdr : List Word) : Prop :=
  g.nxt % 256 = 0 ∧ Hdr.bad hdr = false ∧ Hdr.tooBig hdr 15 = false ∧ g.nxtv < Hdr.nvar hdr ∧ (variantOf hdr g.nxtv).w = g.w
    ∧ (variantOf hdr g.nxtv).h = g.h ∧ (variantOf hdr g.nxtv).quad = g.quad

theorem exec_successorPreload {s₁ : State} {bs : List Byte}
    (hb : (s.setRegion r (succRegion g)).loadBytes (succRegion g) 2 g.nxt 256 = (s₁, .ok bs)) (hg : goodSuccessor g (wordsOf bs 32)) :
    exec (.successorPreload r) s = .next ((s₁.onTiles (succRegion g) fun _ _ T => T.clearShadow).setRegion r { g with
      loader := { (succRegion g).loader with
        phase := .reading
        hdr := wordsOf bs 32 }
      protect := g.protect ++ [(g.nxt, Hdr.ilen (wordsOf bs 32))] }) := by
  obtain ⟨h256, hbad, hbig, hvar, hww, hhh, hquad⟩ := hg
  have ho : (!g.running || g.frozen || g.drain.isSome || g.switching || g.shadow || decide (g.nxt = 0) || g.loader.phase != .idle) = false := by
    simp [hn, hf, hd, hw, hs, h0, hi]
  rw [succRegion] at hb
  change execSuccessorPreload r s = _
  simp only [execSuccessorPreload, hr, ho, hb, h256, hbad, hbig, hww, hhh, hquad, Nat.not_le.mpr hvar, bne_self_eq_false, decide_false,
    Bool.or_self, Bool.false_eq_true, if_false]
  rfl

end

end

/-! ### The end of a load and of a repair (R62, R66, R70 to R72) -/

omit hr in
/-- A fresh region runs under its configuration, with the successor that its variant names. -/
theorem State.switchIn_spec (v : Variant) :
    ∃ g', (s.switchIn r g v).region? r = some g' ∧ g'.running = true ∧ g'.loader.phase = .idle ∧ g'.nxt = v.nxt ∧ g'.nxtv = v.nxtv := by
  refine ⟨_, (State.region?_enterArgument r r).trans (State.region?_setRegion ..), ?_⟩
  exact ⟨rfl, rfl, rfl, rfl⟩

omit hr in
theorem noLoaderRecord (hu : ∀ x ∈ g.records, x.unit ≠ 9) : (g.records.any fun x => x.unit == 9) = false := by simpa using hu

section
variable {t : Nat} {rest : List Nat} {s₁ : State} (hp : g.repair = t :: rest) (hu : ∀ x ∈ g.records, x.unit ≠ 9)
include hp hu

/-- A region after the repair of its tile t, with the record of that repair, whose detail is given (R70, R378). -/
def State.repaired (s : State) (r : Nat) (g : Region) (rest : List Nat) (detail : Nat) : State :=
  ((s.postDie g.die g.ctx ⟨0x12, 0, detail⟩ false true (((s.task? g.task).map Task.lseq).getD 0) g.task).count g.die .cfgecc).setRegion r { g with
    repair := rest
    frozen := !g.records.isEmpty || g.stopWave || !rest.isEmpty }

theorem exec_configRepairComplete (hw : s.rewrite g t = (s₁, .ok ())) :
    exec (.configRepairComplete r) s = .next (if s₁.regionSig g = g.sig
      then s₁.repaired r g rest ((tyOf t - g.oy) * g.w + (txOf t - g.ox))
      else (s₁.repaired r g rest ((tyOf t - g.oy) * g.w + (txOf t - g.ox) + 2 ^ 16)).fenceTile t) := by
  change execConfigRepairComplete r s = _
  simp only [execConfigRepairComplete, hr, hp, noLoaderRecord hu, hw, Bool.false_eq_true, if_false, bne_iff_ne]
  by_cases hsig : s₁.regionSig g = g.sig
  · simp only [hsig, ne_eq, not_true_eq_false, if_true, if_false]
    rfl
  · simp only [hsig, ne_eq, not_false_eq_true, if_true, if_false]
    rfl

theorem exec_configRepairComplete_fault {f : Flt} (hw : s.rewrite g t = (s₁, .error f)) :
    exec (.configRepairComplete r) s = .next (s₁.raise (State.loaderSite g) f) := by
  change execConfigRepairComplete r s = _
  simp only [execConfigRepairComplete, hr, hp, noLoaderRecord hu, hw, Bool.false_eq_true, if_false]

end

end

/-- Settles O47: each turn by the equation of its operation, and the loader's reads by the regions and the time, which they keep. -/
theorem loaderTurns : Obligations.LoaderTurns := by
  unfold Obligations.LoaderTurns
  intro s r g hr v
  refine ⟨?_, fun hf hd hp ht => ?_, ?_, ?_, ?_⟩
  · intro s₁ b hf hd hp k n hb
    exact ⟨fun f hf' => exec_loaderRead_fault hr hf hd hp (hf' ▸ hb), fun bs hbs => exec_loaderRead hr hf hd hp (hbs ▸ hb)⟩
  · rw [exec_verificationPass hr hf hd hp ht]
    refine ⟨fun f hl => ?_, fun hl hs => ?_, fun hl hs => ?_⟩
    · simp only [show loadFailure (s.loadVariant g) g.loader.entries = some f from hl]
    · simp only [show loadFailure (s.loadVariant g) g.loader.entries = none from hl, hs, if_true]
    · obtain ⟨g', hg'⟩ := State.switchIn_spec (s := s) (r := r) (g := g) v
      refine ⟨s.switchIn r g v, g', ?_, hg'⟩
      simp only [show loadFailure (s.loadVariant g) g.loader.entries = none from hl, hs, Bool.false_eq_true, if_false]
      rfl
  · intro s₁ bs hf hd hn hw hs h0 h256 hi L hb hdr w hbad hbig hvar hww hhh hquad
    exact ⟨_, exec_successorPreload hr hf hd hn hw hs h0 hi hb ⟨h256, hbad, hbig, hvar, hww, hhh, hquad⟩, State.region?_setRegion ..⟩
  · intro hf hd hn hw ht s₁
    rw [exec_configScrub hr hf hd hn hw ht]
    exact ⟨fun h => by rw [if_pos h], fun h => by rw [if_neg h]⟩
  · intro t rest s₁ b hp hu hw pos lseq repaired
    refine ⟨fun hb hsig => ?_, fun hb hsig => ?_, fun f hb => exec_configRepairComplete_fault hr hp hu (hb ▸ hw)⟩
    · rw [exec_configRepairComplete hr hp hu (hb ▸ hw), if_pos hsig]
      rfl
    · rw [exec_configRepairComplete hr hp hu (hb ▸ hw), if_neg hsig]
      rfl

end Sys2Proof.Machine
end

section
namespace Sys2Proof.Machine

/-! ### A step runs the turn at the head of the agenda (R54, R126) -/

section
variable {s : State} {rest : List Turn}

/-- The turn of an element that can run, whose program word decodes. -/
theorem step_elem {t : Nat} {i : Instr} (ha : s.agenda = .elem t :: rest) (hr : s.runs t = true)
    (hd : decode ((s.tile t).program (s.tile t).pc) = .ok i) : step s = exec i { s with agenda := rest, here := t } := by
  have hr' : State.runs { s with agenda := rest } t = true := hr
  have hd' : decode ((State.tile { s with agenda := rest } t).program (State.tile { s with agenda := rest } t).pc) = .ok i := hd
  simp only [step, ha, elementTurn, hr', hd', if_true]

theorem step_op {i : Instr} (ha : s.agenda = .op i :: rest) : step s = exec i { s with agenda := rest } := by
  simp only [step, ha]

theorem step_tx {x : HostTx} (ha : s.agenda = .tx x :: rest) : step s = performTx x { s with agenda := rest } := by
  simp only [step, ha]

end

/-- A host transaction that has waited is performed as the event of its kind. -/
theorem performTx_eq_exec {x : HostTx} {i : Instr} (s : State)
    (hi : (x.kind, i) ∈ [(0, Instr.rd x.h), (1, .wr x.h x.data), (2, .wrc x.h x.data), (3, .append x.h x.data), (4, .flush x.h),
      (5, .hostTfence x.h x.data)]) : performTx x s = exec i s := by
  simp only [List.mem_cons, Prod.mk.injEq, List.not_mem_nil, or_false] at hi
  unfold performTx
  obtain ⟨hk, rfl⟩ | ⟨hk, rfl⟩ | ⟨hk, rfl⟩ | ⟨hk, rfl⟩ | ⟨hk, rfl⟩ | ⟨hk, rfl⟩ := hi <;> rw [hk] <;> rfl

/-- Settles O4: the head of the agenda says what the step runs. -/
theorem stepRunsDecoded : Obligations.StepRunsDecoded := by
  unfold Obligations.StepRunsDecoded
  exact fun s rest i => ⟨fun t => step_elem, step_op, fun x ha hi => (step_tx ha).trans (performTx_eq_exec _ hi)⟩

end Sys2Proof.Machine
end

section
namespace Sys2Proof.Machine

/-! ### The fence of a tile of a speculative region (R71) -/

section
variable {s : State} {t r : Nat} {g : Region}

theorem State.leaveTile_of_speculative (hr : s.regionOf t = some (r, g)) (hd : g.drain = none) (hi : s.irrevocable g = false) :
    s.leaveTile t = s.drain r .abort := by
  simp only [State.leaveTile, hr, hd, hi, Option.isSome_none, Bool.false_eq_true, if_false]

/-- What is discarded of a region without held stores is not in its tiles. -/
theorem State.discard_tiles (hr : s.region? r = some g) (hb : g.buffer = []) : (s.discard r).tiles = s.tiles := by
  simp only [State.discard, hr, hb, State.setRegion_tiles]
  rfl

theorem State.measureDrain_tiles : s.measureDrain.tiles = s.tiles := by
  unfold State.measureDrain
  split <;> rfl

/-- An update of tiles leaves tables that were equal equal. -/
theorem State.foldl_onTile_tiles {u : State} (h : s.tiles = u.tiles) (f : Tile → Tile) (l : List Nat) :
    (l.foldl (fun s t => s.onTile t f) s).tiles = (l.foldl (fun s t => s.onTile t f) u).tiles := by
  induction l generalizing s u with
  | nil => exact h
  | cons t l ih => exact ih (by simp only [State.onTile, State.setTile, State.tile, h])

/-- A drain writes the drain configuration into each tile of its region (R40). -/
theorem State.drain_tiles (hr : s.region? r = some g) (hb : g.buffer = []) (why : Drain) :
    (s.drain r why).tiles = (g.tiles.foldl (fun s t => s.onTile t Tile.toDrain) s).tiles := by
  simp only [State.drain, hr, State.onRegion_tiles, State.measureDrain_tiles]
  exact State.foldl_onTile_tiles (State.discard_tiles hr hb) ..

/-- A fence of a tile that leaves its die with more than 144 fenced tiles fences the die (R418). -/
theorem State.fenceTile_of_crowded (hf : (s.tile t).fenced = false) (hc : 144 < ((s.markTile t 4).leaveTile t).fencedTiles (dieOf t)) :
    s.fenceTile t = ((s.markTile t 4).leaveTile t).fenceDie (dieOf t) := by
  simp only [State.fenceTile, State.thinDie, hf, hc, Bool.false_eq_true, if_false, if_true]

end

/-! ### A tile table out of order -/

/-- A tile that is fenced. -/
def fencedTile : Tile := { Tile.reset with fenced := true }

/-- Tiles 1 to 143 of die 0, all fenced. -/
def fencedRow : Tab Tile := (List.range 143).map fun k => (k + 1, fencedTile)

theorem fencedRow_length : fencedRow.length = 143 := by simp [fencedRow]

theorem filter_fencedRow : (fencedRow.filter fun q => dieOf q.1 == 0 && q.2.fenced) = fencedRow := by
  refine List.filter_eq_self.mpr fun q hq => ?_
  obtain ⟨k, hk, rfl⟩ := List.mem_map.mp hq
  have hdie : dieOf (k + 1) = 0 := Nat.div_eq_of_lt (by have := List.mem_range.mp hk; omega)
  simp [hdie, fencedTile]

/-- A region of tiles 0 and 1 of die 0, whose task is speculative. -/
def pairRegion : Region := { unitRegion with w := 2 }

/-- That region, on a die whose tiles 1 to 143 are fenced. The tile table is not in order: a tile of die 1 stands before the fenced ones, so that
an update of a fenced one adds an entry. -/
def unorderedTiles : State := { State.reset with
  regions := [(0, pairRegion)]
  tiles := (0, { Tile.reset with region := some 0 }) :: (576, Tile.reset) :: fencedRow }

/-- Fencing tile 0 drains its region, and the drain of tile 1 enters it in the table a second time. -/
theorem unorderedTiles_tiles_left : ((unorderedTiles.markTile 0 4).leaveTile 0).tiles
    = (0, Tile.toDrain { fencedTile with region := some 0 }) :: (1, fencedTile.toDrain) :: (576, Tile.reset) :: fencedRow := by
  have hmarked : (unorderedTiles.markTile 0 4).tiles = (0, { fencedTile with region := some 0 }) :: (576, Tile.reset) :: fencedRow := rfl
  have hfenced : tabGet 1 fencedRow = some fencedTile := rfl
  have hpair : pairRegion.tiles = [0, 1] := rfl
  rw [State.leaveTile_of_speculative (r := 0) (g := pairRegion) rfl rfl rfl, State.drain_tiles (g := pairRegion) rfl rfl, hpair]
  simp [State.onTile, State.setTile, State.tile, hmarked, hfenced, tabSet, tabGet]

theorem unorderedTiles_fencedTiles : unorderedTiles.fencedTiles 0 = 143 :=
  (congrArg List.length filter_fencedRow).trans fencedRow_length

theorem unorderedTiles_fencedTiles_left : ((unorderedTiles.markTile 0 4).leaveTile 0).fencedTiles 0 = 145 := by
  rw [State.fencedTiles, unorderedTiles_tiles_left]
  exact congrArg (· + 2) unorderedTiles_fencedTiles

/-- Its die then counts more than 144 fenced tiles and is fenced too, so that REPLACE names the die, reason 7, and not the tile. -/
theorem unorderedTiles_rlast : (unorderedTiles.fenceTile 0).fleet.rlast = 7 := by
  have hc : 144 < ((unorderedTiles.markTile 0 4).leaveTile 0).fencedTiles 0 := unorderedTiles_fencedTiles_left ▸ by decide
  rw [State.fenceTile_of_crowded rfl hc]
  decide

/-- Refutes O53: the statement takes every tile table, also one whose keys do not rise, in which a tile that is drained can be entered, and
counted as fenced, a second time. A fence of a tile, with fewer than 144 fenced before it, then fences the die, and REPLACE holds reason 7
where the statement has 4. -/
theorem not_errorsAndFences : ¬ Obligations.ErrorsAndFences := by
  unfold Obligations.ErrorsAndFences
  intro h
  obtain ⟨-, -, -, -, -, -, -, -, -, -, -, -, -, htile, -⟩ := h unorderedTiles
  have hfew : unorderedTiles.fencedTiles 0 < 144 := unorderedTiles_fencedTiles ▸ by decide
  obtain ⟨-, hregion⟩ := htile 0 rfl hfew
  obtain ⟨-, hspeculative⟩ := hregion 0 pairRegion rfl rfl
  obtain ⟨v, hv, ⟨-, hlast, -⟩, -⟩ := hspeculative rfl
  obtain rfl : unorderedTiles.fenceTile 0 = v := Host.Outcome.next.inj hv
  rw [unorderedTiles_rlast] at hlast
  exact absurd hlast (by decide)

end Sys2Proof.Machine
end

section
/-! Proofs of the family of the opcode map: encoding and decoding. A word is put together again from its fields by `field_join`, format by
format; `decode_eq_ok` says when a word decodes, and one lemma for each op of Table 11 (R88) that what the op's cell answers has the word
of that cell. -/
namespace Sys2Proof

/-! ### What decodes -/

theorem Flaws.reason_eq_none {f : Flaws} : f.reason = none ↔ f = {} := by
  obtain ⟨rsvf, reg, fmt⟩ := f
  cases rsvf <;> cases reg <;> cases fmt <;> decide

theorem Flaws.or_eq_empty {f g : Flaws} : f.or g = {} ↔ f = {} ∧ g = {} := by
  simp only [Flaws.or, Flaws.mk.injEq, Bool.or_eq_false_iff]
  constructor
  · rintro ⟨⟨hf, hg⟩, ⟨hf', hg'⟩, hf'', hg''⟩
    exact ⟨congr (congr (congrArg Flaws.mk hf) hf') hf'', congr (congr (congrArg Flaws.mk hg) hg') hg''⟩
  · rintro ⟨rfl, rfl⟩
    exact ⟨⟨rfl, rfl⟩, ⟨rfl, rfl⟩, rfl, rfl⟩

theorem decode_eq_ok {w : Word} {i : Instr} :
    decode w = .ok i ↔ cellOf (opOf w) (fnOf w) w = some i ∧ wordFlaws (opOf w) (fnOf w) w = {} ∧ i.reject = none := by
  unfold decode Instr.reject
  cases cellOf (opOf w) (fnOf w) w with
  | none => simp
  | some j =>
    have hr : ((wordFlaws (opOf w) (fnOf w) w).or j.flaws).reason = none
        ↔ wordFlaws (opOf w) (fnOf w) w = {} ∧ j.flaws.reason = none := by
      rw [Flaws.reason_eq_none, Flaws.or_eq_empty, Flaws.reason_eq_none]
    dsimp only
    split
    next e =>
      obtain ⟨hw, hj⟩ := hr.1 e
      constructor
      · rintro ⟨⟩; exact ⟨rfl, hw, hj⟩
      · rintro ⟨⟨⟩, -⟩; rfl
    next r e =>
      constructor
      · nofun
      · rintro ⟨⟨⟩, hw, hj⟩
        cases e.symm.trans (hr.2 ⟨hw, hj⟩)

end Sys2Proof

namespace Sys2Proof.Laws.Placed

/-- Every instruction's word names its own cell: an event of the part has no word. -/
theorem statement (i : Instr) : Statement i := by
  cases i with
  | nop => exact nop | trap f => exact trap f | halt f => exact halt f | sysrd f => exact sysrd f | add f => exact add f
  | sub f => exact sub f | adds f => exact adds f | subs f => exact subs f | mul f => exact mul f | mulh f => exact mulh f
  | mad f => exact mad f | div f => exact div f | rem f => exact rem f | neg f => exact neg f | abs f => exact abs f | min f => exact min f
  | max f => exact max f | and f => exact and f | or f => exact or f | xor f => exact xor f | not f => exact not f | andn f => exact andn f
  | shl f => exact shl f | shr f => exact shr f | sha f => exact sha f | rot f => exact rot f | clz f => exact clz f
  | popc f => exact popc f | brev f => exact brev f | bext f => exact bext f | bins f => exact bins f | cmp f => exact cmp f
  | sel f => exact sel f | mov f => exact mov f | movLane f => exact movLane f | movid f => exact movid f | lea f => exact lea f
  | movi f => exact movi f | movhi f => exact movhi f | addImm f => exact addImm f | subImm f => exact subImm f
  | mulImm f => exact mulImm f | minImm f => exact minImm f | maxImm f => exact maxImm f | andImm f => exact andImm f
  | orImm f => exact orImm f | xorImm f => exact xorImm f | andnImm f => exact andnImm f | shlImm f => exact shlImm f
  | shrImm f => exact shrImm f | shaImm f => exact shaImm f | rotImm f => exact rotImm f | pfx f => exact pfx f | lnred f => exact lnred f
  | bcast f => exact bcast f | shuf f => exact shuf f | compact f => exact compact f | expand f => exact expand f | pand f => exact pand f
  | por f => exact por f | pxor f => exact pxor f | pnot f => exact pnot f | pcnt f => exact pcnt f | fadd f => exact fadd f
  | fsub f => exact fsub f | fmul f => exact fmul f | fma f => exact fma f | fms f => exact fms f | fnma f => exact fnma f
  | fdiv f => exact fdiv f | fsqrt f => exact fsqrt f | frcp f => exact frcp f | frsq f => exact frsq f | fmin f => exact fmin f
  | fmax f => exact fmax f | fabs f => exact fabs f | fneg f => exact fneg f | fcmp f => exact fcmp f | fclass f => exact fclass f
  | frint f => exact frint f | fgetexp f => exact fgetexp f | fexp2f f => exact fexp2f f | fexpins f => exact fexpins f
  | fcvt f => exact fcvt f | fcvtFrom f => exact fcvtFrom f | ftoi f => exact ftoi f | itof f => exact itof f | fpack f => exact fpack f
  | funpack f => exact funpack f | emit f => exact emit f | route f => exact route f | split f => exact split f | merge f => exact merge f
  | recirc f => exact recirc f | accept f => exact accept f | drop f => exact drop f | hold f => exact hold f | newb f => exact newb f
  | endb f => exact endb f | tok f => exact tok f | bari f => exact bari f | swi f => exact swi f | ld f => exact ld f | st f => exact st f
  | ldv f => exact ldv f | stv f => exact stv f | pld f => exact pld f | pst f => exact pst f | pclear f => exact pclear f
  | sld f => exact sld f | sst f => exact sst f | pfetch f => exact pfetch f | fence f => exact fence f | tfence f => exact tfence f
  | atom f => exact atom f | atomTree f => exact atomTree f | wait f => exact wait f | hbarArrive f => exact hbarArrive f
  | hbarWait f => exact hbarWait f | hbarAw f => exact hbarAw f | bsync f => exact bsync f | cntrEv f => exact cntrEv f
  | cntrTask f => exact cntrTask f | time f => exact time f | timeLeft f => exact timeLeft f | cpy f => exact cpy f
  | cpyChain f => exact cpyChain f | dense f => exact dense f | denseChain f => exact denseChain f | sparsify f => exact sparsify f
  | sparsifyChain f => exact sparsifyChain f | a2a f => exact a2a f | a2aChain f => exact a2aChain f | coll f => exact coll f
  | collChain f => exact collChain f | chapp f => exact chapp f | taskq f => exact taskq f | lpatch f => exact lpatch f
  | larm f => exact larm f | mma f => exact mma f | mmas f => exact mmas f | mmaw f => exact mmaw f | accz f => exact accz f
  | accrd f => exact accrd f | accwr f => exact accwr f | acccvt f => exact acccvt f | seedx f => exact seedx f | sfit f => exact sfit f
  | ssrch f => exact ssrch f | lshb f => exact lshb f | tpose f => exact tpose f | quant f => exact quant f | deq f => exact deq f
  | _ => exact fun _ _ h => nomatch (show none = some _ from h)

end Sys2Proof.Laws.Placed

namespace Sys2Proof

/-- Settles O2: the word of an instruction names the instruction's own cell with no fixed bit broken, and well-formedness is the rest of
what `decode` checks. -/
theorem encodedInstructionsDecode : Obligations.EncodedInstructionsDecode := by
  rintro i w ⟨hrow, hreject⟩ he
  obtain ⟨hcell, hfixed⟩ := Laws.Placed.statement i hrow w he
  exact decode_eq_ok.2 ⟨hcell, hfixed, hreject⟩

/-! ### Words from their fields -/

/-- Two fields of a word side by side are one field. -/
theorem field_join (w : Word) {a b s t : Nat} (h : t = s + b) : w.extractLsb' t a ++ w.extractLsb' s b = w.extractLsb' s (a + b) := by
  subst h
  ext k hk
  rw [BitVec.getElem_append]
  split
  next => simp
  next hb => simp [show s + b + (k - b) = s + k by omega]

theorem wordA_fieldsA (w : Word) : wordA (w.extractLsb' 56 8) (w.extractLsb' 50 6) (fieldsA w) = w := by
  simp only [wordA, fieldsA]
  iterate 12 rw [field_join w]
  · exact field_all w
  all_goals rfl

theorem wordI_fieldsI {w : Word} (h : w.getLsbD 32 = false) : wordI (w.extractLsb' 56 8) (w.extractLsb' 50 6) (fieldsI w) = w := by
  have h : 0#1 = w.extractLsb' 32 1 := by
    ext k hk
    simpa [show k = 0 by omega] using h.symm
  simp only [wordI, fieldsI, h]
  iterate 8 rw [field_join w]
  · exact field_all w
  all_goals rfl

theorem wordM_fieldsM (w : Word) : wordM (w.extractLsb' 56 8) (w.extractLsb' 50 6) (fieldsM w) = w := by
  simp only [wordM, fieldsM]
  iterate 11 rw [field_join w]
  · exact field_all w
  all_goals rfl

theorem wordC_fieldsC {w : Word} (h : w.extractLsb' 0 11 = 0#11) : wordC (w.extractLsb' 56 8) (w.extractLsb' 50 6) (fieldsC w) = w := by
  simp only [wordC, fieldsC, ← h]
  iterate 11 rw [field_join w]
  · exact field_all w
  all_goals rfl

theorem wordX_fieldsX {w : Word} (h : w.extractLsb' 0 3 = 0#3) :
    wordX (w.extractLsb' 56 8) (w.extractLsb' 50 6) (w.extractLsb' 15 1) (w.extractLsb' 14 1) (fieldsX w) = w := by
  simp only [wordX, fieldsX, ← h]
  iterate 18 rw [field_join w]
  · exact field_all w
  all_goals rfl

theorem wordY_fieldsY (w : Word) : wordY (w.extractLsb' 56 8) (w.extractLsb' 50 6) (fieldsY w) = w := by
  simp only [wordY, fieldsY]
  iterate 13 rw [field_join w]
  · exact field_all w
  all_goals rfl

/-! ### Cells and their words (R88) -/

/-- An instruction is of the row that its fields tell, and w is its word. -/
def Instr.Encodes (i : Instr) (w : Word) : Prop := i.rowOk = true ∧ encode i = some w

section
variable {fn : Nat} {i : Instr}

theorem cell00_encodes {f} (h : cell00 fn f = some i) : i.Encodes (wordI 0x00 (BitVec.ofNat 6 fn) f) := by
  unfold cell00 at h
  split at h <;> cases h <;> exact ⟨rfl, rfl⟩

theorem cell01_encodes {f} (h : cell01 fn f = some i) : i.Encodes (wordA 0x01 (BitVec.ofNat 6 fn) f) := by
  unfold cell01 at h
  split at h <;> cases h <;> exact ⟨rfl, rfl⟩

theorem cell02_encodes {f} (h : cell02 fn f = some i) : i.Encodes (wordA 0x02 (BitVec.ofNat 6 fn) f) := by
  unfold cell02 at h
  split at h <;> cases h <;> exact ⟨rfl, rfl⟩

/-- MOV takes a lane where X is from V. -/
theorem cell03_encodes {f} (h : cell03 fn f = some i) : i.Encodes (wordA 0x03 (BitVec.ofNat 6 fn) f) := by
  unfold cell03 at h
  split at h <;> cases h
  case h_3 =>
    split
    next e => exact ⟨e, rfl⟩
    next e => exact ⟨(Bool.not_eq_true' _).mpr (Bool.eq_false_iff.2 e), rfl⟩
  all_goals exact ⟨rfl, rfl⟩

theorem cell04_encodes {f} (h : cell04 fn f = some i) : i.Encodes (wordI 0x04 (BitVec.ofNat 6 fn) f) := by
  unfold cell04 at h
  split at h <;> cases h <;> exact ⟨rfl, rfl⟩

theorem cell05_encodes {f} (h : cell05 fn f = some i) : i.Encodes (wordI 0x05 (BitVec.ofNat 6 fn) f) := by
  unfold cell05 at h
  split at h <;> cases h <;> exact ⟨rfl, rfl⟩

theorem cell06_encodes {f} (h : cell06 fn f = some i) : i.Encodes (wordI 0x06 (BitVec.ofNat 6 fn) f) := by
  unfold cell06 at h
  split at h <;> cases h <;> exact ⟨rfl, rfl⟩

theorem cell08_encodes {f} (h : cell08 fn f = some i) : i.Encodes (wordA 0x08 (BitVec.ofNat 6 fn) f) := by
  unfold cell08 at h
  split at h <;> cases h <;> exact ⟨rfl, rfl⟩

theorem cell09_encodes {f} (h : cell09 fn f = some i) : i.Encodes (wordA 0x09 (BitVec.ofNat 6 fn) f) := by
  unfold cell09 at h
  split at h <;> cases h <;> exact ⟨rfl, rfl⟩

theorem cell10_encodes {f} (h : cell10 fn f = some i) : i.Encodes (wordA 0x10 (BitVec.ofNat 6 fn) f) := by
  unfold cell10 at h
  split at h <;> cases h <;> exact ⟨rfl, rfl⟩

/-- FCVT converts from a matrix format where mod[9] says so. -/
theorem cell11_encodes {f} (h : cell11 fn f = some i) : i.Encodes (wordA 0x11 (BitVec.ofNat 6 fn) f) := by
  unfold cell11 at h
  split at h <;> cases h
  case h_1 =>
    split
    next e => exact ⟨e, rfl⟩
    next e => exact ⟨(Bool.not_eq_true' _).mpr (Bool.eq_false_iff.2 e), rfl⟩
  all_goals exact ⟨rfl, rfl⟩

theorem cell20_encodes {f} (h : cell20 fn f = some i) : i.Encodes (wordC 0x20 (BitVec.ofNat 6 fn) f) := by
  unfold cell20 at h
  split at h <;> cases h <;> exact ⟨rfl, rfl⟩

theorem cell30_encodes {f} (h : cell30 fn f = some i) : i.Encodes (wordM 0x30 (BitVec.ofNat 6 fn) f) := by
  unfold cell30 at h
  split at h <;> cases h <;> exact ⟨rfl, rfl⟩

/-- An aop that the loader accepts is one that the entry lists. -/
theorem aop_mem_of_accepted {e : Spec.YEntry} {f : FmtY} (h : (Spec.yFlaw e f).reason = none) (he : (e.aops != [0]) = true) :
    f.aop.toNat ∈ e.aops := by
  have h := Flaws.reason_eq_none.1 h
  simp only [Spec.yFlaw, Flaws.or_eq_empty, Flaws.mk.injEq, Bool.or_eq_false_iff] at h
  obtain ⟨-, -, -, -, -, -, -, ⟨hfmt, -⟩, -⟩ := h
  simpa [he] using hfmt

theorem aop_eq_zero_of_three {f : FmtY} (h : f.aop.toNat ∈ [0, 1, 2]) (h1 : ¬ (f.aop == 1) = true) (h2 : ¬ (f.aop == 2) = true) :
    (f.aop == 0) = true := by
  simp only [beq_iff_eq, BitVec.toNat_eq, BitVec.reduceToNat] at *
  simpa [h1, h2] using h

theorem aop_eq_zero_of_two {f : FmtY} (h : f.aop.toNat ∈ [0, 1]) (h1 : ¬ (f.aop == 1) = true) : (f.aop == 0) = true := by
  simp only [beq_iff_eq, BitVec.toNat_eq, BitVec.reduceToNat] at *
  simpa [h1] using h

/-- ATOM, HBAR, CNTR and TIME tell their forms apart by fields; an aop of no form is refused (R235, R239, R242). -/
theorem cell38_encodes {f} (h : cell38 fn f = some i) (hi : i.reject = none) : i.Encodes (wordY 0x38 (BitVec.ofNat 6 fn) f) := by
  unfold cell38 at h
  split at h <;> cases h
  case h_1 =>
    split
    next e => exact ⟨e, rfl⟩
    next e => exact ⟨(Bool.not_eq_true' _).mpr (Bool.eq_false_iff.2 e), rfl⟩
  case h_3 =>
    by_cases h1 : (f.aop == 1) = true
    · rw [if_pos h1]
      exact ⟨h1, rfl⟩
    · by_cases h2 : (f.aop == 2) = true
      · rw [if_neg h1, if_pos h2]
        exact ⟨h2, rfl⟩
      · rw [if_neg h1, if_neg h2] at hi ⊢
        exact ⟨aop_eq_zero_of_three (aop_mem_of_accepted hi rfl) h1 h2, rfl⟩
  case h_5 =>
    by_cases h1 : (f.aop == 1) = true
    · rw [if_pos h1]
      exact ⟨h1, rfl⟩
    · rw [if_neg h1] at hi ⊢
      exact ⟨aop_eq_zero_of_two (aop_mem_of_accepted hi rfl) h1, rfl⟩
  case h_6 =>
    by_cases h1 : (f.aop == 1) = true
    · rw [if_pos h1]
      exact ⟨h1, rfl⟩
    · rw [if_neg h1] at hi ⊢
      exact ⟨aop_eq_zero_of_two (aop_mem_of_accepted hi rfl) h1, rfl⟩
  all_goals exact ⟨rfl, rfl⟩

/-- The engine commands have a port form and a chain form (R243). -/
theorem cell39_encodes {f} (h : cell39 fn f = some i) : i.Encodes (wordY 0x39 (BitVec.ofNat 6 fn) f) := by
  unfold cell39 at h
  split at h <;> cases h
  iterate 5
    split
    next e => exact ⟨e, rfl⟩
    next e => exact ⟨(Bool.not_eq_true' _).mpr (Bool.eq_false_iff.2 e), rfl⟩
  all_goals exact ⟨rfl, rfl⟩

theorem cell40_encodes {f} (h : cell40 fn f = some i) :
    i.Encodes (wordX 0x40 (BitVec.ofNat 6 fn) (nspSd 0x40 fn).1 (nspSd 0x40 fn).2 f) := by
  unfold cell40 at h
  split at h <;> cases h <;> exact ⟨rfl, rfl⟩

theorem cell41_encodes {f} (h : cell41 fn f = some i) :
    i.Encodes (wordX 0x41 (BitVec.ofNat 6 fn) (nspSd 0x41 fn).1 (nspSd 0x41 fn).2 f) := by
  unfold cell41 at h
  split at h <;> cases h <;> exact ⟨rfl, rfl⟩

end

/-! ### The word that was read -/

section
variable {w : Word} {op : BitVec 8} {i : Instr}

theorem op_of_word (h : opOf w = op.toNat) : w.extractLsb' 56 8 = op := BitVec.eq_of_toNat_eq h

theorem fn_of_word (w : Word) : w.extractLsb' 50 6 = BitVec.ofNat 6 (fnOf w) := by
  rw [fnOf, BitVec.ofNat_toNat, BitVec.setWidth_eq]

theorem encodes_of_fieldsA (h : i.Encodes (wordA op (BitVec.ofNat 6 (fnOf w)) (fieldsA w))) (hop : opOf w = op.toNat) : i.Encodes w := by
  rwa [← op_of_word hop, ← fn_of_word, wordA_fieldsA] at h

theorem encodes_of_fieldsI (h : i.Encodes (wordI op (BitVec.ofNat 6 (fnOf w)) (fieldsI w))) (hop : opOf w = op.toNat)
    (hw : w.getLsbD 32 = false) : i.Encodes w := by
  rwa [← op_of_word hop, ← fn_of_word, wordI_fieldsI hw] at h

theorem encodes_of_fieldsM (h : i.Encodes (wordM op (BitVec.ofNat 6 (fnOf w)) (fieldsM w))) (hop : opOf w = op.toNat) : i.Encodes w := by
  rwa [← op_of_word hop, ← fn_of_word, wordM_fieldsM] at h

theorem encodes_of_fieldsC (h : i.Encodes (wordC op (BitVec.ofNat 6 (fnOf w)) (fieldsC w))) (hop : opOf w = op.toNat)
    (hw : (w.extractLsb' 0 11 != 0) = false) : i.Encodes w := by
  rwa [← op_of_word hop, ← fn_of_word, wordC_fieldsC (by simpa using hw)] at h

theorem encodes_of_fieldsX {nsp : BitVec 1 × BitVec 1} (h : i.Encodes (wordX op (BitVec.ofNat 6 (fnOf w)) nsp.1 nsp.2 (fieldsX w)))
    (hop : opOf w = op.toNat)
    (hw : ⟨w.extractLsb' 0 3 != 0, false, (w.extractLsb' 15 1, w.extractLsb' 14 1) != nsp⟩ = ({} : Flaws)) : i.Encodes w := by
  simp only [Flaws.mk.injEq, bne_eq_false_iff_eq] at hw
  obtain ⟨hlow, -, rfl⟩ := hw
  rwa [← op_of_word hop, ← fn_of_word, wordX_fieldsX hlow] at h

theorem encodes_of_fieldsY (h : i.Encodes (wordY op (BitVec.ofNat 6 (fnOf w)) (fieldsY w))) (hop : opOf w = op.toNat) : i.Encodes w := by
  rwa [← op_of_word hop, ← fn_of_word, wordY_fieldsY] at h

end

/-- Settles O3: the cell of the word's op answers an instruction whose word has the word's op, fn and fields; the other bits are as the
cell fixes them, so that this is the word. -/
theorem decodedWordsEncode : Obligations.DecodedWordsEncode := by
  intro w i h
  obtain ⟨hcell, hfixed, hreject⟩ := decode_eq_ok.1 h
  suffices hw : i.Encodes w by
    obtain ⟨hrow, he⟩ := hw
    exact ⟨⟨hrow, hreject⟩, he⟩
  unfold cellOf at hcell
  split at hcell
  case h_1 hop =>
    rw [hop] at hfixed
    have hlow := congrArg Flaws.rsvf hfixed
    dsimp only [wordFlaws] at hlow
    split at hcell
    next hfn =>
      cases hcell
      rw [if_pos hfn] at hlow
      obtain rfl : w = 0 := by simpa using hlow
      exact ⟨rfl, rfl⟩
    next hfn =>
      rw [if_neg hfn] at hlow
      exact encodes_of_fieldsI (cell00_encodes hcell) hop hlow
  case h_2 hop => exact encodes_of_fieldsA (cell01_encodes hcell) hop
  case h_3 hop => exact encodes_of_fieldsA (cell02_encodes hcell) hop
  case h_4 hop => exact encodes_of_fieldsA (cell03_encodes hcell) hop
  case h_5 hop => exact encodes_of_fieldsI (cell04_encodes hcell) hop (congrArg Flaws.rsvf (hop ▸ hfixed))
  case h_6 hop => exact encodes_of_fieldsI (cell05_encodes hcell) hop (congrArg Flaws.rsvf (hop ▸ hfixed))
  case h_7 hop => exact encodes_of_fieldsI (cell06_encodes hcell) hop (congrArg Flaws.rsvf (hop ▸ hfixed))
  case h_8 hop => exact encodes_of_fieldsA (cell08_encodes hcell) hop
  case h_9 hop => exact encodes_of_fieldsA (cell09_encodes hcell) hop
  case h_10 hop => exact encodes_of_fieldsA (cell10_encodes hcell) hop
  case h_11 hop => exact encodes_of_fieldsA (cell11_encodes hcell) hop
  case h_12 hop => exact encodes_of_fieldsC (cell20_encodes hcell) hop (congrArg Flaws.rsvf (hop ▸ hfixed))
  case h_13 hop => exact encodes_of_fieldsM (cell30_encodes hcell) hop
  case h_14 hop => exact encodes_of_fieldsY (cell38_encodes hcell hreject) hop
  case h_15 hop => exact encodes_of_fieldsY (cell39_encodes hcell) hop
  case h_16 hop => exact encodes_of_fieldsX (cell40_encodes hcell) hop (show wordFlaws 0x40 (fnOf w) w = {} from hop ▸ hfixed)
  case h_17 hop => exact encodes_of_fieldsX (cell41_encodes hcell) hop (show wordFlaws 0x41 (fnOf w) w = {} from hop ▸ hfixed)
  case h_18 => cases hcell

end Sys2Proof
end

section
namespace Sys2Proof.Machine

/-! ### An instruction with no lane (R78) -/

/-- An instruction issues under a condition and so, when that fails, only advances. -/
def State.IssuesWhen (s : State) (q : Instr × Bool) : Prop := ∃ srcs effect, exec q.1 s = .next (s.issue q.2 srcs effect)

theorem State.IssuesFrom.issuesWhen {s : State} {q : Instr × Bool × List Src} (h : s.IssuesFrom q) : s.IssuesWhen (q.1, q.2.1) := by
  obtain ⟨effect, h⟩ := h
  exact ⟨_, effect, h⟩

theorem State.IssuesWhen.idle {s : State} {i : Instr} (h : s.IssuesWhen (i, false)) : exec i s = .next s.advance := by
  obtain ⟨srcs, effect, h⟩ := h
  exact h

/-- A mask without a lane has no lane 0. -/
theorem executes_of_none {m : Mask} (h : executes m true = false) (any : Bool) : executes m any = false := by
  obtain rfl : m = 0 := by simpa [executes] using h
  cases any <;> rfl

/-- PAND issues for any lane where it thins the bead, and as its destination asks where it does not. -/
theorem execPand_idle {s : State} {f : FmtA} (h : executes (s.me.effMask f.pg f.ps) true = false) : exec (.pand f) s = .next s.advance := by
  show execPand f s = _
  unfold execPand
  split
  · dsimp only
    rw [h, s.issue_idle]
  · unfold State.predOp State.alu
    dsimp only
    rw [executes_of_none h, s.issue_idle]

/-- Settles O7: each instruction of an element takes its effect through `State.issue`, which only advances when there is no lane. -/
theorem noLaneNoEffect : Obligations.NoLaneNoEffect := by
  intro s a fi c m x y i hi
  suffices h : ∀ q ∈ s.masked a fi c m x y, q.2 = false → exec q.1 s = .next s.advance from h _ hi rfl
  have hidle : ∀ {j : Instr} {run : Bool}, s.IssuesWhen (j, run) → run = false → exec j s = .next s.advance := by
    rintro j _ h rfl
    exact h.idle
  simp only [State.masked, List.forall_mem_append, List.forall_mem_map, List.forall_mem_cons, List.not_mem_nil, false_implies,
    implies_true, and_true]
  refine ⟨⟨⟨⟨⟨?sourced, ?pand, ?movi⟩, ?system⟩, ?bead⟩, ?fence, ?accz⟩, ?time⟩
  case sourced =>
    exact ⟨⟨fun q hq => hidle (s.sourcedAI_issue a fi q hq).issuesWhen, fun q hq => hidle (s.sourcedCM_issue c m q hq).issuesWhen⟩,
      fun q hq => hidle (s.sourcedXY_issue x y q hq).issuesWhen⟩
  case pand => exact execPand_idle
  case movi => exact hidle ⟨[], fun s => (s.onMe _).advance, rfl⟩
  case system => and_intros <;> exact hidle ⟨_, _, rfl⟩
  case bead => and_intros <;> exact hidle ⟨_, _, rfl⟩
  case fence => exact hidle ⟨_, _, rfl⟩
  case accz => exact hidle ⟨_, _, rfl⟩
  case time => and_intros <;> exact hidle ⟨_, _, rfl⟩

end Sys2Proof.Machine
end

section
namespace Sys2Proof

/-! ### Worked words (R80 to R85, R89) -/

/-- Settles O1, by decoding each of the words. -/
theorem exampleWordsDecode : Obligations.ExampleWordsDecode := by
  unfold Obligations.ExampleWordsDecode
  decide

end Sys2Proof

namespace Sys2Proof.Machine

/-! ### Compare, select and move (R81, R133, R134) -/

theorem State.alu_of_can {s : State} {f : FmtA} {n : Nat} (h : s.canA f n) (e : Mask → Tile → Tile) :
    s.alu f n e = (s.onMe fun T => e (T.effMask f.pg f.ps) T).advance := by
  unfold State.alu
  exact State.issue_of_can h _

theorem State.aluI_of_can {s : State} {f : FmtI} {src : Bool} (h : s.canI f src) (e : Mask → Tile → Tile) :
    s.aluI f src e = (s.onMe fun T => e (T.effMask f.pg f.ps) T).advance := by
  unfold State.aluI
  exact State.issue_of_can h _

/-- An instruction that is an `alu` of g, or of what g equals, does g. -/
theorem does_of_alu {f : FmtA} {i : Instr} {n : Nat} {e g : Mask → Tile → Tile} (hi : ∀ s, exec i s = .next (s.alu f n e))
    (hg : ∀ m T, e m T = g m T) : f.does i n g := by
  intro s h
  obtain rfl : e = g := funext fun m => funext (hg m)
  rw [hi, s.alu_of_can h]

/-- The two readings of an element agree: elements of an X source are its element 0. -/
theorem cmpBits_eq (T : Tile) (f : FmtA) (w : Nat) (holds : Nat → Nat → Bool) :
    cmpBits T f w holds = maskOf fun l =>
      holds (T.srcElem f.sa w (if Spec.isX f.sa && Spec.isX f.sb then 0 else l * 32 / w))
        (T.srcElem f.sb w (if Spec.isX f.sa && Spec.isX f.sb then 0 else l * 32 / w)) := by
  unfold cmpBits
  split <;> rfl

theorem sext_toNat {n : Nat} (x : BitVec n) : sext x.toNat n = x.toInt := by
  simp only [sext, Nat.mod_eq_of_lt x.isLt, BitVec.toInt_eq_toNat_cond]
  cases n with
  | zero => simp [BitVec.eq_nil x]
  | succ n =>
    rw [Nat.pow_succ, Nat.add_sub_cancel, ← Nat.cast_ofNat (R := Int), ← Nat.cast_pow, Nat.pow_succ]
    split <;> split <;> omega

theorem ofInt_sext {n : Nat} (x : BitVec n) (m : Nat) : BitVec.ofInt m (sext x.toNat n) = x.signExtend m := by
  rw [sext_toNat]
  rfl

theorem ofNat_mul_two_pow {n : Nat} (x : BitVec n) (k : Nat) : BitVec.ofNat n (x.toNat * 2 ^ k) = x <<< k := by
  apply BitVec.eq_of_toNat_eq
  rw [BitVec.toNat_ofNat, BitVec.toNat_shiftLeft, Nat.shiftLeft_eq]

/-- The address of LEA, as a number that wraps and in the operations of words (R134). -/
theorem ofInt_lea (a b : Word) (k : Nat) (d : Int) :
    BitVec.ofInt 64 (a.toNat + b.toNat * 2 ^ k + d) = a + (b <<< k) + BitVec.ofInt 64 d := by
  have h : (a.toNat + b.toNat * 2 ^ k : Int) = ((a.toNat + b.toNat * 2 ^ k : Nat) : Int) := by push_cast; rfl
  rw [BitVec.ofInt_add, h, BitVec.ofInt_natCast, BitVec.ofNat_add, BitVec.ofNat_toNat, BitVec.setWidth_eq, ofNat_mul_two_pow]

/-- Settles O12: each is an `alu` of its change of the tile. -/
theorem compareAndMoveResults : Obligations.CompareAndMoveResults := by
  refine ⟨fun f => ⟨?cmp, ?sel, ?mov, ?movLane, ?movid, ?lea⟩, fun f s => ⟨?movi, ?movhi⟩⟩
  case cmp =>
    refine does_of_alu (fun _ => rfl) fun m T => ?_
    rw [cmpBits_eq]
    refine congrArg (fun g => T.writeP (f.dst.toNat - 56) (maskOf g) m) (funext fun l => ?_)
    dsimp only
    generalize bits f.mod.toNat 0 4 = cc
    match cc with
    | 1 => exact decide_not.symm
    | 0 | 2 | 3 | 4 | _ + 5 => rfl
  case sel => exact does_of_alu (fun _ => rfl) fun _ _ => rfl
  case mov => exact does_of_alu (fun _ => rfl) fun _ _ => rfl
  case movLane => exact does_of_alu (fun _ => rfl) fun _ _ => rfl
  case movid => exact does_of_alu (fun _ => rfl) fun _ _ => rfl
  case lea => exact does_of_alu (fun _ => rfl) fun _ T => congrArg (T.writeX f.dst.toNat) (ofInt_lea ..)
  case movi =>
    intro h
    show Host.Outcome.next (s.aluI f false _) = _
    simp only [State.aluI_of_can h, ofInt_sext]
  case movhi =>
    intro h
    exact congrArg Host.Outcome.next (State.issue_of_can h _)

end Sys2Proof.Machine
end

section
namespace Sys2Proof.Machine

/-! ### Vectors and their elements (R73, R74, R78) -/

theorem testBit_packNat {w : Nat} (hw : 0 < w) (xs : List Nat) (k : Nat) :
    (packNat w xs).testBit k = (xs.getD (k / w) 0).testBit (k % w) := by
  induction xs generalizing k with
  | nil => simp [packNat]
  | cons x xs ih =>
    rw [packNat, Nat.add_comm, Nat.testBit_two_pow_mul_add _ (Nat.mod_lt _ (Nat.two_pow_pos w))]
    split
    next h => simp [Nat.testBit_mod_two_pow, h, Nat.div_eq_of_lt h, Nat.mod_eq_of_lt h]
    next h =>
      obtain ⟨l, rfl⟩ : ∃ l, k = l + w := ⟨k - w, by omega⟩
      simp [ih, Nat.add_div_right _ hw]

theorem getLsbD_pack {w k : Nat} (hw : 0 < w) (xs : List Nat) (hk : k < 512) :
    (pack w xs).getLsbD k = (xs.getD (k / w) 0).testBit (k % w) := by
  rw [pack, BitVec.getLsbD_ofNat, testBit_packNat hw]
  simp [hk]

theorem testBit_elem (v : Vec) (w j b : Nat) : (elem v w j).testBit b = (decide (b < w) && v.getLsbD (w * j + b)) := by
  rw [elem, bits, Nat.testBit_mod_two_pow, Nat.testBit_div_two_pow, BitVec.testBit_toNat, Nat.add_comm]

/-- An element of a vector, from its bits. -/
theorem elem_eq_of_bits {v : Vec} {w j x : Nat} (hx : x < 2 ^ w) (h : ∀ b, b < w → v.getLsbD (w * j + b) = x.testBit b) :
    elem v w j = x := by
  refine Nat.eq_of_testBit_eq fun b => ?_
  rw [testBit_elem]
  by_cases hb : b < w
  · simp [hb, h b hb]
  · simp [hb, Nat.testBit_lt_two_pow (hx.trans_le (Nat.pow_le_pow_right two_pos (Nat.le_of_not_lt hb)))]

theorem elem_lt (v : Vec) (w j : Nat) : elem v w j < 2 ^ w := Nat.mod_lt _ (Nat.two_pow_pos w)

/-- Element j of packed elements is the j-th. -/
theorem elem_pack {w n j : Nat} {g : Nat → Nat} (hw : 0 < w) (hn : w * n ≤ 512) (hj : j < n) (hg : g j < 2 ^ w) :
    elem (pack w ((List.range n).map g)) w j = g j := by
  refine elem_eq_of_bits hg fun b hb => ?_
  have hk : w * j + b < 512 := by
    have : w * (j + 1) ≤ w * n := Nat.mul_le_mul_left w hj
    rw [Nat.mul_succ] at this
    omega
  rw [getLsbD_pack hw _ hk, Nat.mul_add_div hw, Nat.div_eq_of_lt hb, Nat.mul_add_mod, Nat.mod_eq_of_lt hb]
  simp [hj]

theorem getLsbD_laneBits (m : Mask) {k : Nat} (hk : k < 512) : (laneBits m).getLsbD k = m.getLsbD (k / 32) := by
  have hl : k / 32 < 16 := by omega
  have hb : k % 32 < 32 := Nat.mod_lt _ (by decide)
  rw [laneBits, getLsbD_pack (by decide) _ hk]
  simp only [List.getD_eq_getElem?_getD, List.getElem?_map, List.getElem?_range hl, Option.map_some, Option.getD_some]
  split
  next h => rw [h, show (0xFFFFFFFF : Nat) = 2 ^ 32 - 1 from rfl, Nat.testBit_two_pow_sub_one, decide_eq_true hb]
  next h => rw [Nat.zero_testBit, Bool.eq_false_iff.2 h]

/-- Each bit of a merge is the new one where the mask has its lane. -/
theorem getLsbD_merge (old new : Vec) (m : Mask) {k : Nat} (hk : k < 512) :
    (merge old new m).getLsbD k = if m.getLsbD (k / 32) then new.getLsbD k else old.getLsbD k := by
  simp only [merge, BitVec.getLsbD_or, BitVec.getLsbD_and, BitVec.getLsbD_not, getLsbD_laneBits m hk, hk, decide_true]
  cases m.getLsbD (k / 32) <;> simp

/-- An element whose lanes the mask has all or none of is the new one, or the old. -/
theorem elem_merge {old new : Vec} {m : Mask} {w j : Nat} {c : Bool} (hj : w * (j + 1) ≤ 512)
    (hc : ∀ b, b < w → m.getLsbD ((w * j + b) / 32) = c) : elem (merge old new m) w j = if c then elem new w j else elem old w j := by
  refine elem_eq_of_bits (by split <;> exact elem_lt ..) fun b hb => ?_
  rw [Nat.mul_succ] at hj
  rw [getLsbD_merge _ _ _ (by omega), hc b hb]
  cases c <;> simp [testBit_elem, hb]

/-- A 64-bit element in two lanes follows the even one (R78). -/
theorem getLsbD_maskFor_64 (m : Mask) {l : Nat} (hl : l < 16) : (maskFor 64 m).getLsbD l = m.getLsbD (2 * (l / 2)) := by
  interval_cases l <;> simp [maskFor]

theorem maskFor_of_ne {w : Nat} (h : w ≠ 64) (m : Mask) : maskFor w m = m := if_neg h

/-- The lanes of an element are governed together (R78). -/
theorem getLsbD_maskFor_elem {m : Mask} {w j b : Nat} (hw : w = 8 ∨ w = 16 ∨ w = 32 ∨ w = 64) (hj : j < 512 / w) (hb : b < w) :
    (maskFor w m).getLsbD ((w * j + b) / 32) = m.getLsbD (if w = 64 then 2 * j else w * j / 32) := by
  rcases hw with rfl | rfl | rfl | rfl
  · rw [maskFor_of_ne (by decide), if_neg (by decide)]
    congr 1
    omega
  · rw [maskFor_of_ne (by decide), if_neg (by decide)]
    congr 1
    omega
  · rw [maskFor_of_ne (by decide), if_neg (by decide)]
    congr 1
    omega
  · rw [getLsbD_maskFor_64 _ (by omega), if_pos rfl]
    congr 1
    omega

/-! ### Registers after a write (R73, R74, R125) -/

namespace Tile
variable {T : Tile} {r : BitVec 6}

theorem vreg_setVreg (x : VReg) (hT : T.sized) (h : T.has r) (hr : Spec.isV r = true) : (T.setVreg r x).vreg r = x := by
  obtain ⟨-, hv, -⟩ := hT
  obtain ⟨h32, h56⟩ : 32 ≤ r.toNat ∧ r.toNat < 56 := by simpa [Spec.isV] using hr
  unfold setVreg vreg
  by_cases h48 : r.toNat < 48
  · have hin : r.toNat - 32 < T.v.length := by omega
    simp [h48, List.getElem?_set_self hin]
  · obtain ⟨b, hb, hk⟩ := h ⟨by omega, h56⟩
    obtain ⟨rest, hrest⟩ := List.head?_eq_some_iff.1 hb
    simp [h48, onHead, head?, hrest, hk]

theorem full_of_isV (hr : Spec.isV r = true) : T.full r = (T.vreg r).full := by
  obtain ⟨h32, h56⟩ : 32 ≤ r.toNat ∧ r.toNat < 56 := by simpa [Spec.isV] using hr
  rw [full, if_neg (by simpa [Spec.isX] using h32), if_neg (by simpa [Spec.isP] using h56)]

theorem vreg_writeV (v : Vec) (m : Mask) (hT : T.sized) (h : T.has r) (hr : Spec.isV r = true) :
    (T.writeV r v m).vreg r = ⟨merge (T.readV r) v m, (T.vreg r).full⟩ := vreg_setVreg _ hT h hr

theorem readV_writeV (v : Vec) (m : Mask) (hT : T.sized) (h : T.has r) (hr : Spec.isV r = true) :
    (T.writeV r v m).readV r = merge (T.readV r) v m := congrArg VReg.val (vreg_writeV v m hT h hr)

theorem full_writeV (v : Vec) (m : Mask) (hT : T.sized) (h : T.has r) (hr : Spec.isV r = true) :
    (T.writeV r v m).full r = T.full r := by
  rw [full_of_isV hr, full_of_isV hr, vreg_writeV v m hT h hr]

theorem full_writeX (v : Word) (hT : T.sized) (hr : Spec.isX r = true) : (T.writeX r.toNat v).full r = true := by
  obtain ⟨hx, -, -⟩ := hT
  have h32 : r.toNat < T.x.length := by simpa [Spec.isX, hx] using hr
  rw [full, if_pos hr, writeX]
  split
  next h =>
    obtain rfl : r = 0 := BitVec.eq_of_toNat_eq h
    rfl
  next h => simp [List.getElem?_set_self h32]

end Tile

/-- Settles O9: an X destination is `writeX` of element 0, and a V destination `writeV` of the packed elements under the mask of their
lanes. -/
theorem elementResultsAreWritten : Obligations.ElementResultsAreWritten := by
  intro T dst m w signed g hT hhas hw hg
  have hpos : 0 < w := by omega
  have hdvd : w * (512 / w) = 512 := by rcases hw with rfl | rfl | rfl | rfl <;> rfl
  refine ⟨fun hX => ?_, fun hV => ?_⟩
  · have hlen : dst.toNat < T.x.length := by
      obtain ⟨hx, -, -⟩ := hT
      simpa [Spec.isX, hx] using hX
    have hg0 : g 0 % 2 ^ 64 = g 0 := Nat.mod_eq_of_lt ((hg 0).trans_le (Nat.pow_le_pow_right two_pos (by omega)))
    rw [Tile.writeElems, if_pos hX, T.readX_writeX _ _ hlen, BitVec.toNat_ofNat, hg0]
    exact ⟨by simp only [BitVec.toNat_eq]; rfl, Tile.full_writeX _ hT hX⟩
  · have hX : Spec.isX dst = false := by
      obtain ⟨h32, -⟩ : 32 ≤ dst.toNat ∧ dst.toNat < 56 := by simpa [Spec.isV] using hV
      simpa [Spec.isX] using h32
    rw [Tile.writeElems, if_neg (by simp [hX])]
    refine ⟨fun j hj => ?_, Tile.full_writeV _ _ hT hhas hV⟩
    have hend : w * (j + 1) ≤ 512 := (Nat.mul_le_mul_left w hj).trans hdvd.le
    rw [Tile.readV_writeV _ _ hT hhas hV, elem_merge hend fun b hb => getLsbD_maskFor_elem hw hj hb,
      elem_pack hpos hdvd.le hj (hg j)]

end Sys2Proof.Machine
end

section
namespace Sys2Proof.Machine

/-! ### A register instruction with a destination of another class -/

/-- PCNT of p0 with the destination x0, where the loader asks for a V register. -/
def pcntToX0 : FmtA := ⟨0, 56, 0, 0, 0, 0, 0, 0, 0, 0, 0⟩

/-- A machine whose first element has a bead in all lanes. -/
def allLanes : State := State.reset.setTile 0 { Tile.reset with beads := [⟨0xFFFF, 0, 0, 0, [], 0, true, 0, 0⟩] }

theorem allLanes_canA : allLanes.canA pcntToX0 1 := by
  refine ⟨by decide, ?_⟩
  decide

/-- Refutes O16: the statement takes every Format A operand, also a destination whose class the loader refuses. PCNT, which writes a V
register, then takes the specifier 0 of x0 for v0 and counts the lanes into v0, which is not its destination. -/
theorem not_registerInstructionsFrame : ¬ Obligations.RegisterInstructionsFrame := by
  unfold Obligations.RegisterInstructionsFrame
  rintro ⟨hA, -, -⟩
  obtain ⟨-, hkeeps, -, -⟩ := hA pcntToX0 allLanes _ (.pcnt pcntToX0) 1 (by simp [aluInstrs]) allLanes_canA rfl
  obtain ⟨-, hv, -⟩ := hkeeps
  exact absurd (hv 0 (by decide)) (by decide +kernel)

end Sys2Proof.Machine
end

section
namespace Sys2Proof.Machine

/-! ### Outcomes of instructions (R89, R347, R369) -/

/-- An outcome is a next state, or, where p holds, possibly a fault. -/
def NextOr (p : Prop) (o : Host.Outcome State Fault Refusal) : Prop := (∃ t, o = .next t) ∨ p ∧ ∃ e, o = .fault e

section
variable {p : Prop} {s : State} {h : TxHdr} {data : List Word}

theorem nextOr_next (t : State) : NextOr p (.next t) := .inl ⟨t, rfl⟩

theorem nextOr_ite {c : Prop} [Decidable c] {a b : Host.Outcome State Fault Refusal} (ha : NextOr p a) (hb : NextOr p b) :
    NextOr p (if c then a else b) := by
  split <;> assumption

theorem inClass_nextOr {kind : Nat} {k : State → Host.Outcome State Fault Refusal} (hk : ∀ s, NextOr p (k s)) :
    NextOr p (s.inClass kind h data k) :=
  nextOr_ite (nextOr_next _) (nextOr_ite (nextOr_next _) (hk s))

/-- A transaction that names no place is one under ctx 4: an access under another context is answered (R347, R369). -/
theorem ctx_of_access_eq_none {wrc : Bool} {ws : Option (List Word)} (e : s.access h wrc ws = none) : h.ctx = 4 := by
  by_contra hc
  have hc : (h.ctx != 4) = true := by simpa using hc
  unfold State.access at e
  dsimp only at e
  rw [if_pos hc] at e
  cases e

theorem execRd_nextOr : NextOr (h.ctx = 4) (execRd h s) := by
  unfold execRd
  refine inClass_nextOr fun s => nextOr_ite (nextOr_next _) ?_
  split
  next => exact nextOr_next _
  next e => exact .inr ⟨ctx_of_access_eq_none e, _, rfl⟩

theorem execWr_nextOr : NextOr (h.ctx = 4) (execWr h data s) := by
  unfold execWr
  refine inClass_nextOr fun s => nextOr_ite (nextOr_next _) ?_
  split
  next => exact nextOr_next _
  next e => exact .inr ⟨ctx_of_access_eq_none e, _, rfl⟩

theorem execWrc_nextOr : NextOr (h.ctx = 4) (execWrc h data s) := by
  unfold execWrc
  refine inClass_nextOr fun s => nextOr_ite (nextOr_next _) ?_
  split
  next => exact nextOr_next _
  next e => exact .inr ⟨ctx_of_access_eq_none e, _, rfl⟩

end

/-- A read or write of the host under ctx 4. -/
def UnderCtx4 : Instr → Prop
  | .rd h | .wr h _ | .wrc h _ => h.ctx = 4
  | _ => False

theorem exec_nextOr (i : Instr) (s : State) : NextOr (UnderCtx4 i) (exec i s) := by
  cases i with
  | rd h => exact execRd_nextOr
  | wr h data => exact execWr_nextOr
  | wrc h data => exact execWrc_nextOr
  | append h data => exact inClass_nextOr fun _ => nextOr_next _
  | flush h => exact inClass_nextOr fun _ => nextOr_next _
  | hostTfence h data => exact inClass_nextOr fun _ => nextOr_next _
  | pand f => exact nextOr_ite (nextOr_next _) (nextOr_next _)
  | scannerRef t u | scannerStop t u | scannerDone t u | scannerSkip t u | scnTSeek t u => exact nextOr_ite (nextOr_next _) (nextOr_next _)
  | _ => exact nextOr_next _

theorem underCtx4_cases {i : Instr} (h : UnderCtx4 i) :
    (∃ h, i = .rd h ∧ h.ctx = 4) ∨ (∃ h d, i = .wr h d ∧ h.ctx = 4) ∨ ∃ h d, i = .wrc h d ∧ h.ctx = 4 := by
  cases i with
  | rd x => exact .inl ⟨x, rfl, h⟩
  | wr x d => exact .inr (.inl ⟨x, d, rfl, h⟩)
  | wrc x d => exact .inr (.inr ⟨x, d, rfl, h⟩)
  | _ => exact h.elim

/-- Settles O6: every arm of `exec` answers a next state, but for a host access whose address no rule places, which is under ctx 4. -/
theorem onlyHostAccessesStop : Obligations.OnlyHostAccessesStop := by
  intro i s
  rcases exec_nextOr i s with ⟨t, ht⟩ | ⟨h4, e, he⟩
  · rw [ht]
    exact ⟨nofun, nofun, fun _ _ _ => ⟨t, rfl⟩⟩
  · rw [he]
    have hi := underCtx4_cases h4
    refine ⟨nofun, fun _ _ => hi, fun hrd hwr hwrc => ?_⟩
    rcases hi with ⟨h, rfl, hc⟩ | ⟨h, d, rfl, hc⟩ | ⟨h, d, rfl, hc⟩
    · exact (hrd h rfl hc).elim
    · exact (hwr h d rfl hc).elim
    · exact (hwrc h d rfl hc).elim

end Sys2Proof.Machine
end

section
namespace Sys2Proof.Machine

/-! ### Floating-point results (R102, R103, R138 to R141) -/

section
variable {f : FmtA} {i : Instr}

/-- Rounding the first NaN or else the exact value, in one application (R102, R103). -/
theorem fpResult_eq_roundVal (F : Fmt) (rm : Nat) (sat : Bool) (xs : List Val) (v : Val) :
    fpResult F rm sat xs v = roundVal F rm sat 0 ((Val.firstNan xs).getD v) := by
  unfold fpResult
  cases Val.firstNan xs <;> rfl

/-- An instruction that is an `alu` of an element-wise write gives the codes written. -/
theorem gives_of_alu {n w : Nat} {signed : Bool} {g : Tile → Nat → Nat}
    (hi : ∀ s, exec i s = .next (s.alu f n fun m T => T.writeElems f.dst m w signed (g T))) : f.gives i n w signed g := by
  intro s h
  rw [hi, s.alu_of_can h]

theorem fp_of_fpCodes {n : Nat} {g : Fmt → Nat → Nat → Nat → Nat} (hi : ∀ s, exec i s = .next (s.fpCodes f n g)) : f.fp i n g :=
  gives_of_alu hi

theorem rounds_of_fp1 {v : Val → Val} (hi : ∀ s, exec i s = .next (s.fp1 f v)) : f.rounds i 1 fun a _ _ => v a := by
  simp only [State.fp1, fpResult_eq_roundVal] at hi
  exact fp_of_fpCodes hi

theorem rounds_of_fp2 {v : Val → Val → Val} (hi : ∀ s, exec i s = .next (s.fp2 f v)) : f.rounds i 2 fun a b _ => v a b := by
  simp only [State.fp2, fpResult_eq_roundVal] at hi
  exact fp_of_fpCodes hi

theorem rounds_of_fp3 {v : Val → Val → Val → Val} (hi : ∀ s, exec i s = .next (s.fp3 f v)) : f.rounds i 3 v := by
  simp only [State.fp3, fpResult_eq_roundVal] at hi
  exact fp_of_fpCodes hi

end

/-- Settles O14: a rounding entry is an `fp1`, `fp2` or `fp3`, another entry an `fpCodes`, and FCMP an `alu` of its bits. -/
theorem floatResults : Obligations.FloatResults := by
  intro f
  refine ⟨?fadd, ?fsub, ?fmul, ?fma, ?fms, ?fnma, ?fdiv, ?fsqrt, ?frcp, ?frsq, ?fmin, ?fmax, ?fabs, ?fneg, ?fclass, ?frint, ?fgetexp,
    ?fexp2f, ?fexpins, ?fcmp⟩
  case fadd | fsub | fmul | fdiv => exact rounds_of_fp2 fun _ => rfl
  case fma | fms | fnma => exact rounds_of_fp3 fun _ => rfl
  case fsqrt | frcp | frsq => exact rounds_of_fp1 fun _ => rfl
  case fmin | fmax | fabs | fneg | fclass | frint | fgetexp | fexp2f | fexpins => exact fp_of_fpCodes fun _ => rfl
  case fcmp =>
    refine does_of_alu (fun _ => rfl) fun m T => ?_
    rw [cmpBits_eq]

end Sys2Proof.Machine
end

section
namespace Sys2Proof.Machine

/-! ### Conversions and the packing of blocks (R109 to R111, R142 to R144) -/

/-- Settles O15: each is an `alu` of its change of the tile. -/
theorem conversionResults : Obligations.ConversionResults := by
  intro f
  refine ⟨?fcvt, ?fcvtFrom, ?ftoi, ?itof, ?fpack, ?funpack⟩
  case fcvt | fcvtFrom | ftoi | itof | fpack | funpack => exact does_of_alu (fun _ => rfl) fun _ _ => rfl

end Sys2Proof.Machine
end

section
namespace Sys2Proof.Machine

/-! ### Elements of an accumulator bank (R204) -/

theorem tabGet_tabErase {α : Type} (k j : Nat) (t : Tab α) : tabGet j (tabErase k t) = if k = j then none else tabGet j t := by
  induction t with
  | nil => simp [tabErase]
  | cons p t ih =>
    obtain ⟨i, a⟩ := p
    unfold tabErase at ih ⊢
    by_cases hik : i = k
    · rw [List.filter_cons_of_neg (by simp [hik]), ih]
      subst hik
      simp only [tabGet]
      split <;> rfl
    · rw [List.filter_cons_of_pos (by simp [hik])]
      simp only [tabGet, ih]
      by_cases hij : i = j
      · simp [hij, (hij ▸ hik : j ≠ k).symm]
      · simp [hij]

namespace AccBank

/-- An element after one is set: its number among the bank's is 32 × row + column. -/
theorem get_set {j l : Nat} (b : AccBank) (i k v : Nat) (hj : j < 32) (hl : l < 32) :
    (b.set i j v).get k l = if k = i ∧ l = j then v % 2 ^ 32 else b.get k l := by
  have hkey : 32 * i + j = 32 * k + l ↔ k = i ∧ l = j := by omega
  unfold get set
  split
  next h0 => simp only [tabGet_tabErase, hkey, h0]; split <;> rfl
  next => simp only [tabGet_tabSet, hkey]; split <;> simp

theorem sat_set (b : AccBank) (i j v : Nat) : (b.set i j v).sat = b.sat := rfl

section
variable {α : Type} {row col val : α → Nat}

theorem sat_foldl_set (l : List α) (b : AccBank) : (l.foldl (fun c q => c.set (row q) (col q) (val q)) b).sat = b.sat :=
  List.foldlRecOn (motive := fun c : AccBank => c.sat = b.sat) l _ rfl fun c h _ _ => (sat_set c ..).trans h

/-- An element after a list of writes none of which is to it. -/
theorem get_foldl_set_of_not_mem {k j : Nat} (hj : j < 32) (l : List α) (b : AccBank) (hcol : ∀ q ∈ l, col q < 32)
    (hne : ∀ q ∈ l, ¬ (k = row q ∧ j = col q)) : (l.foldl (fun c q => c.set (row q) (col q) (val q)) b).get k j = b.get k j :=
  List.foldlRecOn (motive := fun c : AccBank => c.get k j = b.get k j) l _ rfl fun c h q hq => by
    rw [get_set c _ _ _ (hcol q hq) hj, if_neg (hne q hq), h]

/-- An element after a list of writes, all of which give it one value. -/
theorem get_foldl_set_of_mem {k j v : Nat} (hj : j < 32) (l : List α) (b : AccBank) (hcol : ∀ q ∈ l, col q < 32)
    (hval : ∀ q ∈ l, k = row q → j = col q → val q = v) (hmem : ∃ q ∈ l, k = row q ∧ j = col q) :
    (l.foldl (fun c q => c.set (row q) (col q) (val q)) b).get k j = v % 2 ^ 32 := by
  induction l generalizing b with
  | nil => simp at hmem
  | cons q l ih =>
    obtain ⟨hcolq, hcoll⟩ := List.forall_mem_cons.1 hcol
    obtain ⟨hvalq, hvall⟩ := List.forall_mem_cons.1 hval
    by_cases hl : ∃ q ∈ l, k = row q ∧ j = col q
    · exact ih _ hcoll hvall hl
    · obtain ⟨hr, hc⟩ : k = row q ∧ j = col q := (List.exists_mem_cons_iff .. |>.1 hmem).resolve_right hl
      rw [List.foldl_cons, get_foldl_set_of_not_mem hj l _ hcoll fun q hq h => hl ⟨q, hq, h⟩, get_set b _ _ _ hcolq hj,
        if_pos ⟨hr, hc⟩, hvalq hr hc]

end

theorem mem_cells {m n i j : Nat} : (i, j) ∈ ((List.range m).flatMap fun i => (List.range n).map fun j => (i, j)) ↔ i < m ∧ j < n := by
  simp

theorem sat_update (b : AccBank) (m n : Nat) (g : Nat → Nat → Nat → Nat) : (b.update m n g).sat = b.sat := sat_foldl_set ..

/-- An element after an update of those in the first m rows and n columns. -/
theorem get_update {m n i j : Nat} (b : AccBank) (g : Nat → Nat → Nat → Nat) (hn : n ≤ 32) (hj : j < 32) :
    (b.update m n g).get i j = if i < m ∧ j < n then g i j (b.get i j) % 2 ^ 32 else b.get i j := by
  have hcol : ∀ q ∈ ((List.range m).flatMap fun i => (List.range n).map fun j => (i, j)), q.2 < 32 := fun q hq =>
    (mem_cells.1 hq).2.trans_le hn
  unfold update
  split
  next h =>
    refine get_foldl_set_of_mem hj _ b hcol ?_ ⟨(i, j), mem_cells.2 h, rfl, rfl⟩
    rintro q - rfl rfl
    rfl
  next h =>
    refine get_foldl_set_of_not_mem hj _ b hcol ?_
    rintro q hq ⟨rfl, rfl⟩
    exact h (mem_cells.1 hq)

end AccBank

/-! ### What completion does to a bank (R117, R216, R220) -/

theorem shapeM_le {c : BitVec 3} (h : c.toNat ≤ 3) : Spec.shapeM c ≤ 32 :=
  Nat.pow_le_pow_right (j := 5) two_pos (Nat.add_le_add_right h 2)

/-- A chunk of an INT32 accumulator: one exact sum, wrapped or saturated (R117). -/
theorem chunkInt_eq (acc : Nat) (sat : Bool) (s : Int) :
    chunkInt acc sat s = wrap (if sat then max (-2 ^ 31) (min (2 ^ 31 - 1) (sext acc 32 + s)) else sext acc 32 + s) 32 := by
  have h : satI (sext acc 32 + s) 32 = max (-2 ^ 31) (min (2 ^ 31 - 1) (sext acc 32 + s)) := by unfold satI; omega
  cases sat
  · rfl
  · exact congrArg (wrap · 32) h

theorem sat_apply (x : Product) (b : AccBank) : (x.apply b).sat = b.sat := AccBank.sat_update ..

/-- An element after a multiply. -/
theorem get_apply {i j : Nat} (x : Product) (b : AccBank) (hn : x.n ≤ 32) (hj : j < 32) :
    (x.apply b).get i j = if i < x.m ∧ j < x.n then
        (sumChunks (bothInt x.fa x.fb) b.sat (b.get i j) ((List.range (x.k / min (chunkK x.fa x.fb) x.k)).map fun q =>
          ((x.rows.getD i []).filter fun e => e.1 / min (chunkK x.fa x.fb) x.k == q).map fun e =>
            e.2.mul ((x.cols.getD j []).getD e.1 Val.default))) % 2 ^ 32
      else b.get i j :=
  AccBank.get_update b _ hn hj

theorem writeHalf_eq (b : AccBank) (o : MatOp) :
    writeHalf b o = (lanesIn o.lanes).foldl (fun c l =>
      c.set (bits (word o.a 0) 0 5) (16 * bits (word o.a 0) 5 1 + l) (elem (vecOf o.c) 32 l)) b := rfl

theorem sat_writeHalf (b : AccBank) (o : MatOp) : (writeHalf b o).sat = b.sat := AccBank.sat_foldl_set ..

theorem mem_lanesIn {m : Mask} {l : Nat} : l ∈ lanesIn m ↔ l < 16 ∧ m.getLsbD l = true := by simp [lanesIn]

/-- An element after ACCWR: lane l of the half row is column first + l. -/
theorem get_writeHalf {i j : Nat} (b : AccBank) (o : MatOp) (hj : j < 32) :
    let row := bits (word o.a 0) 0 5
    let first := 16 * bits (word o.a 0) 5 1
    (writeHalf b o).get i j = if i = row ∧ first ≤ j ∧ j < first + 16 ∧ o.lanes.getLsbD (j - first) = true then elem (vecOf o.c) 32 (j - first)
      else b.get i j := by
  intro row first
  have hfirst : first ≤ 16 := by
    have : bits (word o.a 0) 5 1 < 2 := Nat.mod_lt _ (by decide)
    omega
  have hcol : ∀ l ∈ lanesIn o.lanes, first + l < 32 := fun l hl => by
    have := (mem_lanesIn.1 hl).1
    omega
  rw [writeHalf_eq]
  split
  next h =>
    obtain ⟨hi, hlo, hhi, hlane⟩ := h
    rw [← Nat.mod_eq_of_lt (elem_lt (vecOf o.c) 32 (j - first))]
    refine AccBank.get_foldl_set_of_mem (row := fun _ => row) hj _ b hcol ?_
      ⟨j - first, mem_lanesIn.2 ⟨by omega, hlane⟩, hi, by omega⟩
    rintro l - - rfl
    rw [Nat.add_sub_cancel_left]
  next h =>
    refine AccBank.get_foldl_set_of_not_mem (row := fun _ => row) hj _ b hcol ?_
    rintro l hl ⟨hi, rfl⟩
    obtain ⟨hl16, hlane⟩ := mem_lanesIn.1 hl
    exact h ⟨hi, by omega, by omega, by rwa [Nat.add_sub_cancel_left]⟩

/-- A multiply leaves its product applied to the bank, whichever of the three it is (R215 to R217). -/
theorem bankAfter_of_multiply {o : MatOp} {f : FmtX} {sparse : Bool} (b : AccBank)
    (h : (o.instr = if sparse then .mmas f else .mma f) ∨ (sparse = false ∧ o.instr = .mmaw f)) :
    bankAfter b o = (o.product f sparse).apply b := by
  unfold bankAfter
  rcases h with h | ⟨rfl, h⟩
  · cases sparse <;> rw [h] <;> rfl
  · rw [h]

theorem bankAfter_of_accz {o : MatOp} {f : FmtX} (b : AccBank) (h : o.instr = .accz f) :
    bankAfter b o = { b.update (Spec.shapeM f.mc) (Spec.shapeM f.nc) (fun _ _ _ => 0) with sat := f.kc == 1 } := by
  unfold bankAfter
  rw [h]

theorem bankAfter_of_accwr {o : MatOp} {f : FmtX} (b : AccBank) (h : o.instr = .accwr f) : bankAfter b o = writeHalf b o := by
  unfold bankAfter
  rw [h]

/-- Settles O33: an INT32 chunk by `chunkInt_eq`; a multiply and ACCZ are an update of the bank, ACCWR the writes of its lanes. -/
theorem bankUpdates : Obligations.BankUpdates := by
  refine ⟨fun sat acc c cs => ⟨rfl, ?chunk⟩, fun b o f i j _ hj _ hn => ⟨fun sparse h => ?multiply, fun h => ?accz, fun h => ?accwr⟩⟩
  case chunk => exact congrArg (sumChunks true sat · cs) (chunkInt_eq ..)
  case multiply =>
    rw [bankAfter_of_multiply b h]
    exact ⟨sat_apply .., get_apply _ b (shapeM_le hn) hj⟩
  case accz =>
    rw [bankAfter_of_accz b h]
    exact ⟨rfl, AccBank.get_update b _ (shapeM_le hn) hj⟩
  case accwr =>
    rw [bankAfter_of_accwr b h]
    exact ⟨sat_writeHalf .., get_writeHalf b o hj⟩

end Sys2Proof.Machine
end

section
namespace Sys2Proof.Machine

/-! ### A bead instruction with a destination of another class -/

/-- ACCEPT from input 0 with the destination x0, where the loader asks for a V register. -/
def acceptToX0 : FmtC := ⟨1, 0, 0, 0, 0, 0, 0, 0, 0⟩

/-- A machine whose first element has a bead in all lanes, and a token with the value 7 at input 0. -/
def tokenAtInput0 : State := allLanes.onTile 0 fun T => { T with inq := [(0, ⟨[.tokens 2 0 [7]], 0⟩)] }

theorem tokenAtInput0_canC : tokenAtInput0.canC acceptToX0 [] := ⟨by decide, nofun⟩

/-- Refutes O18: the statement takes every Format C operand, also a destination whose class the loader refuses. ACCEPT, which writes a V
register, then takes the specifier 0 of x0 for v0 and writes the token into v0, which is not the register that it names. -/
theorem not_beadInstructionsFrame : ¬ Obligations.BeadInstructionsFrame := by
  unfold Obligations.BeadInstructionsFrame
  intro h
  obtain ⟨-, -, -, -, -, hv, -⟩ := h acceptToX0 tokenAtInput0 _ (.accept acceptToX0) [] (by simp) tokenAtInput0_canC rfl
  exact absurd (hv 0 (by decide)) (by decide +kernel)

end Sys2Proof.Machine
end

section
namespace Sys2Proof.Machine

/-! ### What translations and requests leave alone (R289, R354, R372, R373, R412) -/

/-- Nothing differs but what translations and requests keep account of: the caches, counters and records of the dies, the numbers of the
contexts' records, the homes' note of compressed blocks, flits that wait, and free values. -/
def State.Accounts (s t : State) : Prop :=
  ∃ free zmb ctxs dies fleet, t = { s with free := free, zmb := zmb, ctxs := ctxs, dies := dies, fleet := fleet }

namespace State
variable {s t u : State}

theorem Accounts.refl (s : State) : s.Accounts s := ⟨_, _, _, _, _, rfl⟩

theorem Accounts.trans (h : s.Accounts t) (h' : t.Accounts u) : s.Accounts u := by
  obtain ⟨_, _, _, _, _, rfl⟩ := h
  obtain ⟨_, _, _, _, _, rfl⟩ := h'
  exact ⟨_, _, _, _, _, rfl⟩

section
variable (h : s.Accounts t)
include h

theorem Accounts.here : t.here = s.here := by obtain ⟨_, _, _, _, _, rfl⟩ := h; rfl
theorem Accounts.mem : t.mem = s.mem := by obtain ⟨_, _, _, _, _, rfl⟩ := h; rfl
theorem Accounts.pres : t.pres = s.pres := by obtain ⟨_, _, _, _, _, rfl⟩ := h; rfl
theorem Accounts.tiles : t.tiles = s.tiles := by obtain ⟨_, _, _, _, _, rfl⟩ := h; rfl
theorem Accounts.regions : t.regions = s.regions := by obtain ⟨_, _, _, _, _, rfl⟩ := h; rfl
theorem Accounts.me : t.me = s.me := by obtain ⟨_, _, _, _, _, rfl⟩ := h; rfl
theorem Accounts.site : t.site = s.site := by obtain ⟨_, _, _, _, _, rfl⟩ := h; rfl
theorem Accounts.regionOf (x : Nat) : t.regionOf x = s.regionOf x := by obtain ⟨_, _, _, _, _, rfl⟩ := h; rfl

end

theorem accounts_onDie (s : State) (d : Nat) (f : Die → Die) : s.Accounts (s.onDie d f) := ⟨_, _, _, _, _, rfl⟩

theorem accounts_ite {c : Prop} [Decidable c] (ht : s.Accounts t) (hu : s.Accounts u) : s.Accounts (if c then t else u) := by
  split <;> assumption

theorem accounts_foldl {α : Type} {f : State → α → State} (hf : ∀ (s : State) a, s.Accounts (f s a)) (l : List α) (s : State) :
    s.Accounts (l.foldl f s) :=
  l.foldlRecOn f (.refl s) fun t ht a _ => ht.trans (hf t a)

theorem accounts_post (s : State) (p : Site) (c : Nat) (f : Flt) (frz repl event : Bool) (lseq hdl w6 : Nat) :
    s.Accounts (s.post p c f frz repl event lseq hdl w6) :=
  accounts_ite (.refl s) ⟨_, _, _, _, _, rfl⟩

/-- A request changes accounts alone. -/
theorem accounts_touch (s : State) (p : Site) (c va pa : Nat) : s.Accounts (s.touch p c va pa) := by
  unfold State.touch
  refine accounts_ite ((accounts_onDie s _ _).trans (accounts_ite ?hint (.refl _)))
    (accounts_ite ?remote (accounts_ite (accounts_onDie ..) (.refl s)))
  case hint => exact (accounts_post ..).trans (accounts_onDie ..)
  case remote => exact ⟨_, _, _, _, _, rfl⟩

theorem accounts_addLeaf (s : State) (d : Nat) (i : Ise) (e : TlbEntry) : s.Accounts (s.addLeaf d i e) := by
  unfold State.addLeaf
  split <;> exact accounts_onDie ..

theorem accounts_xlate (s : State) (d : Nat) (i : Ise) (c va : Nat) (k : AKind) : s.Accounts (s.xlate d i c va k).1 := by
  unfold State.xlate
  split
  · exact .refl s
  · extract_lets d'
    generalize s.walkOf d' c va k = walk
    obtain ⟨r, ps⟩ := walk
    have hw (f : Die → Die) : s.Accounts (((s.count d' .tlbMiss).count d' .walkMade).onDie d' f) := ⟨_, _, _, _, _, rfl⟩
    cases r with
    | error f => exact hw _
    | ok q => exact (hw _).trans (accounts_addLeaf ..)

theorem accounts_noteCmp (s : State) (q : Page) : s.Accounts (s.noteCmp q) :=
  accounts_ite (accounts_foldl (fun _ _ => ⟨_, _, _, _, _, rfl⟩) _ _) (.refl s)

/-- A translation changes accounts alone. -/
theorem accounts_page_fst (s : State) (p : Site) (i : Ise) (c va : Nat) (w : Want) : s.Accounts (s.page p i c va w).1 := by
  have hx := s.accounts_xlate (dieOf p.t) i c va w.kind
  unfold State.page
  split
  next e => rwa [e] at hx
  next e =>
    rw [e] at hx
    split
    · exact hx
    · split
      · exact hx.trans (accounts_noteCmp ..)
      · exact hx

theorem accounts_of_page {p : Site} {i : Ise} {c va : Nat} {w : Want} {r : Except Flt Page} (h : s.page p i c va w = (t, r)) :
    s.Accounts t := by
  have ht := s.accounts_page_fst p i c va w
  rwa [h] at ht

theorem accounts_of_pieces {p : Site} {c : Nat} {w : Want} {n va fin' : Nat} {r : Except Flt (List (Nat × Nat × Nat))}
    (h : s.pieces p c w n va fin' = (t, r)) : s.Accounts t := by
  induction n generalizing s va r with
  | zero => cases h; exact .refl _
  | succ n ih =>
    unfold State.pieces at h
    split at h
    · cases h; exact .refl _
    · split at h
      next e => cases h; exact accounts_of_page e
      next e =>
        dsimp only at h
        split at h
        next e' => cases h; exact (accounts_of_page e).trans (ih e')
        next e' => cases h; exact (accounts_of_page e).trans (ih e')

end State

end Sys2Proof.Machine
end

section
namespace Sys2Proof.Machine

/-! ### Where a store goes (R151 to R153) -/

/-- What a write of cells leaves, when b gives the byte of each of them. -/
theorem memGet_memWrite {cells : List Host.Cell} {b : Nat → Byte} (h : ∀ c ∈ cells, c.2 = b c.1) (a : Nat) (m : List Host.Cell) :
    memGet a (memWrite cells m) = if a ∈ cells.map Prod.fst then b a else memGet a m := by
  induction cells generalizing m with
  | nil => simp [memWrite]
  | cons c cs ih =>
    obtain ⟨hc, hcs⟩ := List.forall_mem_cons.1 h
    change memGet a (memWrite cs (memSet c.1 c.2 m)) = _
    rw [ih hcs, memGet_memSet, hc]
    by_cases ha : a = c.1 <;> simp [ha]

/-- What a reader of the buffer finds once a store has been added to it, when b gives the byte of each of its cells. -/
theorem heldByte_append {cells : List Host.Cell} {b : Nat → Byte} (h : ∀ c ∈ cells, c.2 = b c.1) (a : Nat) (buf : List HeldStore)
    (p : Site) (va : Nat) (cmp : Bool) :
    State.heldByte (buf ++ [.bytes p va cells cmp]) a = if a ∈ cells.map Prod.fst then some (b a) else State.heldByte buf a := by
  rw [State.heldByte, List.foldl_append]
  change cells.foldl (fun r c => if c.1 = a then some c.2 else r) (State.heldByte buf a) = _
  generalize State.heldByte buf a = r
  induction cells generalizing r with
  | nil => simp
  | cons c cs ih =>
    obtain ⟨hc, hcs⟩ := List.forall_mem_cons.1 h
    rw [List.foldl_cons, ih hcs, hc]
    by_cases ha : a = c.1 <;> simp [ha, eq_comm]

section
variable {s s' : State} {data : State.Bytes}

/-- A store that enters the buffer of a region leaves memory and tiles. -/
theorem State.buffers.frame {r : Nat} {x : HeldStore} (hb : s.buffers r x s') : s'.mem = s.mem ∧ s'.tiles = s.tiles ∧ s'.here = s.here := by
  obtain ⟨g, -, -, rfl⟩ := hb
  exact ⟨rfl, rfl, rfl⟩

theorem State.buffers.buffer_eq {r : Nat} {x : HeldStore} {g g' : Region} (hb : s.buffers r x s') (hg : s.region? r = some g)
    (hg' : s'.region? r = some g') : g'.buffer = g.buffer ++ [x] := by
  obtain ⟨g₀, hg₀, -, rfl⟩ := hb
  obtain rfl : g₀ = g := Option.some.inj (hg₀.symm.trans hg)
  have e := (s.region?_setRegion r _).symm.trans hg'
  rw [← Option.some.inj e]

theorem region?_of_regionOf {t r : Nat} {g : Region} (hr : s.regionOf t = some (r, g)) : s.region? r = some g := by
  unfold State.regionOf at hr
  split at hr
  · simp only [Option.map_eq_some_iff, Prod.mk.injEq] at hr
    obtain ⟨_, hg, rfl, rfl⟩ := hr
    exact hg
  · cases hr

/-- Elsewhere than in a scratchpad a store leaves memory and tiles. -/
theorem storesAt_buffered {p : Place} (hs : s.storesAt p data s') (hp : ∀ v off, p ≠ .scratch v off) :
    s'.mem = s.mem ∧ s'.tiles = s.tiles ∧ s'.here = s.here := by
  cases p with
  | scratch v off => exact absurd rfl (hp v off)
  | vault pa =>
    obtain ⟨r, g, -, hb⟩ := hs
    exact hb.frame
  | virt va spill =>
    obtain ⟨r, g, s₁, q, -, hq, -, -, -, hb⟩ := hs
    obtain ⟨hm, ht, hh⟩ := hb.frame
    have ha := State.accounts_of_page hq
    exact ⟨hm.trans ha.mem, ht.trans ha.tiles, hh.trans ha.here⟩

/-- The address at which the bytes of a store enter the buffer of its region: that of the vault, or of the page. -/
def State.buffersFrom (s : State) (p : Place) (pa : Nat) : Prop :=
  p = .vault pa ∨ ∃ va sp s₁ q, p = .virt va sp ∧ q.pa = pa
    ∧ s.page s.site none (s.ctxOf s.here) va (if sp then .spill true else .store) = (s₁, .ok q)

theorem storesAt_buffer_eq {p : Place} {pa r : Nat} {g g' : Region} (hs : s.storesAt p data s') (hp : s.buffersFrom p pa)
    (hr : s.regionOf s.here = some (r, g)) (hg' : s'.region? r = some g') :
    ∃ va cmp, g'.buffer = g.buffer ++ [.bytes s.site va (data.map fun d => (pa + d.1, d.2)) cmp] := by
  have hg := region?_of_regionOf hr
  rcases hp with rfl | ⟨va, sp, s₁, q, rfl, rfl, hq⟩
  · obtain ⟨r₀, g₀, hr₀, hb⟩ := hs
    obtain ⟨rfl, rfl⟩ := Prod.mk.inj (Option.some.inj (hr₀.symm.trans hr))
    exact ⟨_, _, hb.buffer_eq hg hg'⟩
  · obtain ⟨r₀, g₀, s₂, q₂, hr₀, hq₂, -, -, -, hb⟩ := hs
    obtain ⟨rfl, rfl⟩ := Prod.mk.inj (Option.some.inj (hr₀.symm.trans hr))
    have hc : s.ctxOf s.here = g₀.ctx := by simp only [State.ctxOf, hr]
    rw [hc, hq₂] at hq
    cases hq
    refine ⟨_, _, hb.buffer_eq ?_ hg'⟩
    rw [State.region?, (State.accounts_of_page hq₂).regions]
    exact hg

/-- A store leaves committed memory, and the registers of every element. -/
theorem storesAt_frame {p : Place} (hs : s.storesAt p data s') :
    s'.mem = s.mem ∧ s'.here = s.here
      ∧ ∀ u, (s'.tile u).x = (s.tile u).x ∧ (s'.tile u).v = (s.tile u).v ∧ (s'.tile u).p = (s.tile u).p := by
  have hbuf (hp : ∀ v off, p ≠ .scratch v off) : s'.mem = s.mem ∧ s'.here = s.here
      ∧ ∀ u, (s'.tile u).x = (s.tile u).x ∧ (s'.tile u).v = (s.tile u).v ∧ (s'.tile u).p = (s.tile u).p := by
    obtain ⟨hm, ht, hh⟩ := storesAt_buffered hs hp
    refine ⟨hm, hh, fun u => ?_⟩
    rw [State.tile, ht]
    exact ⟨rfl, rfl, rfl⟩
  cases p with
  | vault pa | virt va spill => exact hbuf nofun
  | scratch v off =>
    obtain rfl : s' = s.onTile v fun T => T.writeScratch (data.map fun d => (off + d.1, d.2)) := hs
    refine ⟨rfl, rfl, fun u => ?_⟩
    by_cases hu : v = u
    · subst hu
      rw [State.tile_onTile]
      exact ⟨rfl, rfl, rfl⟩
    · rw [State.tile_onTile_of_ne hu]
      exact ⟨rfl, rfl, rfl⟩

end

/-- Bytes given by offset, put at a base, are those of `byte` at the addresses that are written. -/
def StoresBytes (data : State.Bytes) (wrote : Nat → Nat → Prop) (byte : Nat → Byte) : Prop :=
  ∀ base (c : Host.Cell), c ∈ data.map (fun d => (base + d.1, d.2)) ↔ wrote c.1 base ∧ c.2 = byte (c.1 - base)

section
variable {data : State.Bytes} {wrote : Nat → Nat → Prop} {byte : Nat → Byte} (h : StoresBytes data wrote byte)
include h

theorem StoresBytes.byte_eq (base : Nat) : ∀ c ∈ data.map (fun d => (base + d.1, d.2)), c.2 = byte (c.1 - base) := fun c hc =>
  ((h base c).1 hc).2

theorem StoresBytes.mem_fst_iff (a base : Nat) : a ∈ (data.map fun d => (base + d.1, d.2)).map Prod.fst ↔ wrote a base := by
  rw [List.mem_map]
  constructor
  · rintro ⟨c, hc, rfl⟩
    exact ((h base c).1 hc).1
  · exact fun ha => ⟨(a, byte (a - base)), (h base _).2 ⟨ha, rfl⟩, rfl⟩

variable {s s' : State} [∀ a base, Decidable (wrote a base)]

/-- A store to a scratchpad is there at once. -/
theorem storesAt_scratch {v off : Nat} (hs : s.storesAt (.scratch v off) data s') (u a : Nat) :
    memGet a (s'.tile u).scratch = if u = v ∧ wrote a off then byte (a - off) else memGet a (s.tile u).scratch := by
  obtain rfl : s' = s.onTile v fun T => T.writeScratch (data.map fun d => (off + d.1, d.2)) := hs
  by_cases hu : u = v
  · subst hu
    rw [State.tile_onTile]
    simp only [Tile.writeScratch, memGet_memWrite (b := fun a => byte (a - off)) (h.byte_eq off), h.mem_fst_iff, true_and]
  · rw [State.tile_onTile_of_ne (Ne.symm hu)]
    simp only [hu, false_and, if_false]

/-- A store that is buffered is seen by its own task at its bytes. -/
theorem storesAt_heldByte {p : Place} {pa r : Nat} {g g' : Region} (hs : s.storesAt p data s') (hp : s.buffersFrom p pa)
    (hr : s.regionOf s.here = some (r, g)) (hg' : s'.region? r = some g') (a : Nat) :
    State.heldByte g'.buffer a = if wrote a pa then some (byte (a - pa)) else State.heldByte g.buffer a := by
  obtain ⟨va, cmp, e⟩ := storesAt_buffer_eq hs hp hr hg'
  rw [e, heldByte_append (b := fun a => byte (a - pa)) (h.byte_eq pa)]
  simp only [h.mem_fst_iff]

end

/-- The bytes of ST: the low n of the source. -/
theorem storesBytes_low (n v : Nat) :
    StoresBytes ((List.range n).map fun i => (i, BitVec.ofNat 8 (v / 256 ^ i))) (fun a base => base ≤ a ∧ a < base + n)
      fun k => BitVec.ofNat 8 (v / 256 ^ k) := by
  rintro base ⟨a, b⟩
  simp only [List.map_map, List.mem_map, List.mem_range, Function.comp_apply, Prod.mk.injEq]
  constructor
  · rintro ⟨i, hi, rfl, rfl⟩
    exact ⟨⟨by omega, by omega⟩, by rw [Nat.add_sub_cancel_left]⟩
  · rintro ⟨⟨h1, h2⟩, rfl⟩
    exact ⟨a - base, by omega, by omega, rfl⟩

/-- Byte j of lane i of a vector is its byte 4 i + j. -/
theorem ofNat_elem_div (v : Vec) (i : Nat) {j : Nat} (hj : j < 4) :
    BitVec.ofNat 8 (elem v 32 i / 256 ^ j) = BitVec.ofNat 8 (v.toNat / 256 ^ (4 * i + j)) := by
  apply BitVec.eq_of_toNat_eq
  simp only [BitVec.toNat_ofNat, elem, bits, show 256 = 2 ^ 8 from rfl, ← Nat.pow_mul]
  refine Nat.eq_of_testBit_eq fun b => ?_
  simp only [Nat.testBit_mod_two_pow, Nat.testBit_div_two_pow]
  by_cases hb : b < 8
  · rw [decide_eq_true (by omega : b + 8 * j < 32), show b + 8 * j + 32 * i = b + 8 * (4 * i + j) by omega, Bool.true_and]
  · simp only [hb, decide_false, Bool.false_and]

theorem mem_laneCells {m : Mask} {v : Vec} {d : Nat × Byte} :
    d ∈ laneCells m v ↔ d.1 < 64 ∧ m.getLsbD (d.1 / 4) = true ∧ d.2 = BitVec.ofNat 8 (v.toNat / 256 ^ d.1) := by
  obtain ⟨k, b⟩ := d
  simp only [laneCells, cellsAt, length_bytesOf, List.mem_flatMap, List.mem_map, List.mem_range, mem_lanesIn, Prod.mk.injEq]
  constructor
  · rintro ⟨i, ⟨hi, hm⟩, j, hj, rfl, rfl⟩
    rw [getD_bytesOf _ hj, ofNat_elem_div v i hj, show (4 * i + j) / 4 = i by omega]
    exact ⟨by omega, hm, rfl⟩
  · rintro ⟨hk, hm, rfl⟩
    refine ⟨k / 4, ⟨by omega, hm⟩, k % 4, by omega, by omega, ?_⟩
    rw [getD_bytesOf _ (by omega), ofNat_elem_div v _ (by omega), show 4 * (k / 4) + k % 4 = k by omega]

/-- The bytes of STV: those of the active lanes. -/
theorem storesBytes_laneCells (m : Mask) (v : Vec) :
    StoresBytes (laneCells m v) (fun a base => base ≤ a ∧ a < base + 64 ∧ m.getLsbD ((a - base) / 4) = true)
      fun k => BitVec.ofNat 8 (v.toNat / 256 ^ k) := by
  rintro base ⟨a, b⟩
  simp only [List.mem_map, mem_laneCells, Prod.mk.injEq]
  constructor
  · rintro ⟨⟨k, c⟩, ⟨hk, hm, hc⟩, rfl, rfl⟩
    rw [Nat.add_sub_cancel_left]
    exact ⟨⟨by omega, by omega, hm⟩, hc⟩
  · rintro ⟨⟨h1, h2, hm⟩, hb⟩
    exact ⟨(a - base, b), ⟨by omega, hm, hb⟩, by omega, rfl⟩

theorem State.scratch_advance (s : State) (u : Nat) : (s.advance.tile u).scratch = (s.tile u).scratch := by
  by_cases hu : s.here = u
  · subst hu
    rw [State.advance, State.onMe, State.tile_onTile, Tile.advance_scratch]
  · rw [State.advance, State.onMe, State.tile_onTile_of_ne hu]

section
variable {s s' : State} {p : Place} {data : State.Bytes} (hs : s.storesAt p data s')
include hs

theorem storesAt_registers : s'.advance.me.x = s.me.x ∧ s'.advance.me.v = s.me.v ∧ s'.advance.me.p = s.me.p := by
  obtain ⟨-, hh, hT⟩ := storesAt_frame hs
  have hme : s'.me = s'.tile s.here := congrArg s'.tile hh
  rw [State.me_advance, Tile.advance_x, Tile.advance_v, Tile.advance_p, hme]
  exact hT s.here

theorem storesAt_scratch_of_buffered (hp : ∀ v off, p ≠ .scratch v off) (u : Nat) : (s'.advance.tile u).scratch = (s.tile u).scratch := by
  obtain ⟨-, ht, -⟩ := storesAt_buffered hs hp
  rw [State.scratch_advance, State.tile, ht]
  rfl

end

/-- What the state is once an instruction has stored bytes at a place and is complete. -/
theorem storesAt_effect {s s' : State} {p : Place} {data : State.Bytes} {wrote : Nat → Nat → Prop}
    {byte : Nat → Byte} [∀ a base, Decidable (wrote a base)] (hd : StoresBytes data wrote byte) :
    s.storesAt p data s' →
      (∀ a, memGet a s'.advance.mem = memGet a s.mem)
      ∧ (∀ u a, memGet a (s'.advance.tile u).scratch = match p with
          | .scratch v off => if u = v ∧ wrote a off then byte (a - off) else memGet a (s.tile u).scratch
          | _ => memGet a (s.tile u).scratch)
      ∧ (∀ pa, s.buffersFrom p pa → ∀ r g g', s.regionOf s.here = some (r, g) → s'.advance.region? r = some g' →
          ∀ a, State.heldByte g'.buffer a = if wrote a pa then some (byte (a - pa)) else State.heldByte g.buffer a)
      ∧ s'.advance.me.x = s.me.x ∧ s'.advance.me.v = s.me.v ∧ s'.advance.me.p = s.me.p := by
  intro hs
  obtain ⟨hm, -⟩ := storesAt_frame hs
  refine ⟨fun a => congrArg (memGet a) hm, fun u a => ?_, fun pa hpa r g g' hr hg' => storesAt_heldByte hd hs hpa hr hg',
    storesAt_registers hs⟩
  cases p with
  | scratch v off => exact (congrArg (memGet a) (s'.scratch_advance u)).trans (storesAt_scratch hd hs u a)
  | vault pa | virt va sp => exact congrArg (memGet a) (storesAt_scratch_of_buffered hs nofun u)

/-- Settles O20: ST and STV are stores of known bytes at the place found, and go on. -/
theorem storeFrame : Obligations.StoreFrame := by
  intro f s t p s' n data
  obtain ⟨-, -, -, hst, hstv, -⟩ := loadsAndStores f s s' p []
  refine ⟨fun hc hl hp hs ht => ?stv, fun hc hl hp hs ht => ?st⟩
  case stv =>
    obtain rfl : s'.advance = t := Host.Outcome.next.inj ((hstv hc hl hp hs).symm.trans ht)
    exact storesAt_effect (storesBytes_laneCells _ _) hs
  case st =>
    obtain rfl : s'.advance = t := Host.Outcome.next.inj ((hst hc hl hp hs).symm.trans ht)
    exact storesAt_effect (storesBytes_low _ _) hs

end Sys2Proof.Machine
end

section
namespace Sys2Proof.Machine

/-! ### Integer and logical results (R128 to R132) -/

/-- The quotient of R129, of the absolute values under the sign of the operands, is the truncated quotient. -/
theorem truncDiv_eq_tdiv (a b : Int) : truncDiv a b = a.tdiv b := by
  have hdiv (m n : Nat) : Int.tdiv m n = (m / n : Nat) := rfl
  unfold truncDiv
  obtain ⟨m, rfl | rfl⟩ := a.eq_nat_or_neg <;> obtain ⟨n, rfl | rfl⟩ := b.eq_nat_or_neg
  · simp [hdiv, not_lt.2]
  · rw [Int.tdiv_neg, hdiv]
    rcases n.eq_zero_or_pos with rfl | hn <;> simp [*]
  · rw [Int.neg_tdiv, hdiv]
    rcases m.eq_zero_or_pos with rfl | hm <;> simp [*]
  · rw [Int.neg_tdiv, Int.tdiv_neg, neg_neg, hdiv]
    rcases m.eq_zero_or_pos with rfl | hm <;> rcases n.eq_zero_or_pos with rfl | hn <;> simp [*]

theorem wrap_neg_one (w : Nat) : wrap (-1) w = 2 ^ w - 1 := by
  have h : (1 : Int) ≤ 2 ^ w := one_le_pow₀ (by decide)
  rw [wrap, ← Int.add_emod_right, Int.emod_eq_of_lt (by omega) (by omega)]
  rw [neg_add_eq_sub, ← Int.toNat_natCast (2 ^ w - 1), Nat.cast_sub Nat.one_le_two_pow]
  push_cast
  rfl

theorem intResult_eq (int : Bool) (sat : BitVec 1) (w : Nat) (t : Int) :
    intResult int (sat == 1) w t = wrap (if sat = 1 then satT int w t else t) w := by
  simp only [intResult, beq_iff_eq]
  split <;> rfl

theorem divCode_eq (int : Bool) (sat : BitVec 1) (w : Nat) (a b : Int) :
    divCode int (sat == 1) w a b = if b = 0 then 2 ^ w - 1 else wrap (if sat = 1 then satT int w (a.tdiv b) else a.tdiv b) w := by
  rw [divCode, truncDiv_eq_tdiv, wrap_neg_one, intResult_eq]

theorem remCode_eq (w : Nat) (a b : Int) : remCode w a b = wrap (if b = 0 then a else a.tmod b) w := by
  rw [remCode, truncDiv_eq_tdiv, ← Int.tmod_def]
  split <;> rfl

section
variable {f : FmtA} {g : FmtI} {i : Instr} {n : Nat}

theorem int_of_intOp {t : Int → Int → Int → Int} {u : Nat → Int → Int → Int → Int} (hi : ∀ s, exec i s = .next (s.intOp f n t))
    (hu : ∀ a b c, t a b c = u (Spec.tyWidth f.ty.toNat) a b c) : f.int i n u := by
  refine gives_of_alu fun s => ?_
  simp only [hi, State.intOp, State.intCodes, intResult_eq, hu]

/-- An instruction that is an `aluI` of an element-wise write gives the codes written. -/
theorem givesI_of_aluI {c : Nat → Nat → Nat}
    (hi : ∀ s, exec i s = .next (s.aluI g true fun m T =>
      T.writeElems g.dst m (immWidth g) true fun k => c (immWidth g) (T.srcElem g.sa (immWidth g) k))) : g.gives i c := by
  intro s h
  rw [hi, s.aluI_of_can h]

end

/-- Settles O10: an integer entry is an `intOp`, a quotient or remainder an `intCodes`, and an immediate form an `aluI`. -/
theorem integerResults : Obligations.IntegerResults := by
  refine ⟨fun f => ⟨?add, ?sub, ?adds, ?subs, ?mul, ?mulh, ?mad, ?neg, ?abs, ?min, ?max, ?div, ?rem⟩,
    fun f => ⟨?addI, ?subI, ?mulI, ?minI, ?maxI⟩⟩
  case add | sub | adds | subs | mul | mad | neg => exact int_of_intOp (fun _ => rfl) fun _ _ _ => rfl
  case mulh => exact int_of_intOp (fun _ => rfl) fun _ _ _ => (Int.fdiv_eq_ediv_of_nonneg _ (by positivity)).symm
  case abs =>
    refine int_of_intOp (fun _ => rfl) fun a _ _ => ?_
    split <;> omega
  case min => exact int_of_intOp (fun _ => rfl) fun a b _ => min_def a b
  case max => exact int_of_intOp (fun _ => rfl) fun a b _ => max_def a b
  case div =>
    simp only [← divCode_eq]
    exact gives_of_alu fun _ => rfl
  case rem =>
    simp only [← remCode_eq]
    exact gives_of_alu fun _ => rfl
  case addI | subI | mulI => exact givesI_of_aluI fun _ => rfl
  case minI =>
    simp only [← min_def]
    exact givesI_of_aluI fun _ => rfl
  case maxI =>
    simp only [← max_def]
    exact givesI_of_aluI fun _ => rfl

theorem pattern_of_bitOp {f : FmtA} {i : Instr} {n : Nat} {nat : Bool} {g u : Nat → Nat → Nat → Nat → Nat}
    (hi : ∀ s, exec i s = .next (s.bitOp f n nat g)) (hu : ∀ w a b c, g w a b c = u w a b c) : f.pattern i n nat u := by
  refine gives_of_alu fun s => ?_
  obtain rfl : g = u := by
    funext w a b c
    exact hu w a b c
  exact hi s

/-- An arithmetic shift right rounds toward minus infinity (R131). -/
theorem shaCode_eq (w a n : Nat) : shaCode w a n = wrap ((sext a w).fdiv (2 ^ min n w)) w := by
  rw [shaCode, Int.fdiv_eq_ediv_of_nonneg _ (by positivity)]

/-- Settles O11: a bit operation is a `bitOp`, and its immediate form an `aluI`. -/
theorem logicalResults : Obligations.LogicalResults := by
  refine ⟨fun f => ⟨?and, ?or, ?xor, ?not, ?andn, ?shl, ?shr, ?sha, ?rot, ?clz, ?popc, ?brev, ?bext, ?bins⟩,
    fun f => ⟨?andI, ?orI, ?xorI, ?andnI, ?shlI, ?shrI, ?shaI, ?rotI⟩⟩
  case and | or | xor | not | andn | shl | shr | rot | clz | popc | brev | bext | bins =>
    exact pattern_of_bitOp (fun _ => rfl) fun _ _ _ _ => rfl
  case sha => exact pattern_of_bitOp (fun _ => rfl) fun _ _ _ _ => shaCode_eq ..
  case andI | orI | xorI | andnI | shlI | shrI | rotI => exact givesI_of_aluI fun _ => rfl
  case shaI =>
    simp only [← shaCode_eq]
    exact givesI_of_aluI fun _ => rfl

end Sys2Proof.Machine
end

section
namespace Sys2Proof.Machine

/-! ### Lanes and predicates (R135 to R137) -/

/-- PAND that thins the bead takes its effect when a lane is active (R137). -/
theorem exec_pand_thins {f : FmtA} {s : State} (h0 : f.mod.getLsbD 0 = true) (hm : s.me.effMask f.pg f.ps ≠ 0) :
    let v := s.me.srcPred f.sa &&& s.me.srcPred f.sb
    let m := s.me.effMask f.pg f.ps
    let left := s.me.lmask &&& ~~~(m &&& ~~~v)
    let t := s.onMe fun T => (T.writeP (f.dst.toNat - 56) v m).onHead fun b => { b with lmask := left }
    exec (.pand f) s = .next (if left = 0 then t.leave else t.advance) := by
  have hc : s.canIssue (executes (s.me.effMask f.pg f.ps) true) [] := ⟨by simpa [executes] using hm, nofun⟩
  change execPand f s = _
  rw [execPand, if_pos h0]
  exact congrArg Host.Outcome.next (State.issue_of_can hc _)

/-- Settles O13: each is an `alu` of its change of the tile, but for a PAND that thins the bead. -/
theorem laneAndPredicateResults : Obligations.LaneAndPredicateResults := by
  intro f
  refine ⟨?pfx, ?lnred, ?bcast, ?shuf, ?compact, ?expand, ?por, ?pxor, ?pnot, ?pcnt, fun h0 => ?pand, fun s h0 hm => exec_pand_thins h0 hm⟩
  case pfx | lnred | bcast | shuf | compact | expand | por | pxor | pnot | pcnt => exact does_of_alu (fun _ => rfl) fun _ _ => rfl
  case pand =>
    refine does_of_alu (fun s => ?_) fun _ _ => rfl
    change execPand f s = _
    rw [execPand, h0, if_neg Bool.false_ne_true]
    rfl

end Sys2Proof.Machine
end

section
namespace Sys2Proof.Machine

/-! ### Presence words and fences (R154, R156 to R158, R311) -/

section
variable {s s₁ : State} {f : FmtM} {r : Nat} {g : Region} {q : Page}

/-- An irrevocable action that is taken at once goes on in the state in which the task has acted (R231, R275). -/
theorem irrevocably_of_actsAtOnce {rel : Bool} (hr : s.regionOf s.here = some (r, g)) (h : s.actsAtOnce rel) (k : State → State) :
    s.irrevocably rel k = k s.acted := by
  obtain ⟨hm, hrel⟩ := h r g hr
  simp only [State.irrevocably, State.acted, hr, hm, Bool.false_eq_true, if_false]
  split
  next hb =>
    obtain ⟨hp, hu⟩ := hrel hb
    simp only [hp, hu, Bool.false_eq_true, if_false]
  next => rfl

theorem pres_acted (s : State) : s.acted.pres = s.pres := by
  unfold State.acted
  split
  · simp
  · rfl

theorem mem_acted (s : State) : s.acted.mem = s.mem := by
  unfold State.acted
  split
  · simp
  · rfl

theorem wouldSpoil_acted (s : State) (cmp : Bool) (cells : List Host.Cell) : s.acted.wouldSpoil cmp cells = s.wouldSpoil cmp cells := by
  unfold State.acted State.onTask
  split
  · split <;> rfl
  · rfl

/-- An access in the space of virtual addresses that is aligned is placed in a page (R152). -/
theorem placed_virtual {s : State} {ea n : Nat} (h : ea % n = 0) (k : Place → State → State) : placed s 0 ea n k = k (.virt ea false) s := by
  refine placed_of_at ?_ k
  simp only [State.resolve, h, bne_self_eq_false, Bool.false_eq_true, if_false]

theorem isPresent_iff {d : Deferred} {pa : Nat} (h : d.pa = some pa) : s.isPresent d = true ↔ ∀ j ∈ d.words, pa / 8 + j ∈ s.pres := by
  simp [State.isPresent, h]

/-- What PST does of the words js: the first that is there already raises PRESDUP, a malformed block DECMP, and else `k` goes on (R154,
R288). -/
def attemptPst (p : Site) (c va : Nat) (q : Page) (js : List Nat) (cells : List Host.Cell) (s : State) (k : State → State) : State :=
  match js.find? fun j => s.pres.contains (q.pa / 8 + j) with
  | some j => (s.touch p c va q.pa).trap (.presdup (va + 8 * j))
  | none => if s.wouldSpoil q.cmp cells then (s.touchBad p c va q.pa).trap (.decmp (va / 256 * 256)) else k s

/-- What PST does once it may: its words are written and there, and the loads that wait for them return (R154). -/
def performPst (p : Site) (c va : Nat) (q : Page) (js : List Nat) (cells : List Host.Cell) (s : State) : State :=
  let w := ((s.touch p c va q.pa).physWrite q.cmp cells).getD (s.touch p c va q.pa)
  ({ w with pres := js.foldl (fun ps j => setInsert (q.pa / 8 + j) ps) w.pres }.wakeDeferred).advance

/-- The cells of the words that PST writes. -/
def pstCells (f : FmtM) (T : Tile) (pa : Nat) (js : List Nat) : List Host.Cell :=
  js.flatMap fun j => cellsAt (pa + 8 * j)
    (bytesOf 8 (bits (if f.sz = 3 then (T.readX f.reg.toNat).toNat else (T.readV f.reg).toNat) (64 * j) 64))

section
variable {p : Site} {c va : Nat} {js : List Nat} {cells : List Host.Cell}

theorem attemptPst_of_find {j : Nat} (h : js.find? (fun j => s.pres.contains (q.pa / 8 + j)) = some j) (k : State → State) :
    attemptPst p c va q js cells s k = (s.touch p c va q.pa).trap (.presdup (va + 8 * j)) := by
  simp only [attemptPst, h]

theorem attemptPst_of_absent (h : ∀ j ∈ js, q.pa / 8 + j ∉ s.pres) (hw : s.wouldSpoil q.cmp cells = false) (k : State → State) :
    attemptPst p c va q js cells s k = k s := by
  have hn : js.find? (fun j => s.pres.contains (q.pa / 8 + j)) = none := by simpa using h
  simp only [attemptPst, hn, hw, Bool.false_eq_true, if_false]

theorem performPst_of_write {w : State} (h : (s.touch p c va q.pa).physWrite q.cmp cells = some w) :
    performPst p c va q js cells s
      = ({ w with pres := js.foldl (fun ps j => setInsert (q.pa / 8 + j) ps) w.pres }.wakeDeferred).advance := by
  simp only [performPst, h, Option.getD_some]

end

/-- What a PLD leaves at the bank while a word is not there (R154). -/
def pldRequest (f : FmtM) (s : State) (c : Nat) (q : Page) : Deferred :=
  let m := s.me.effMask f.pg f.ps
  ⟨c, s.here, s.me.nop, s.effAddr f, some q.pa, q.cmp, presenceWords f m, if f.sz == 7 then maskFor 64 m else 0, s.me.pc⟩

/-- A PLD that has been issued for lanes, and has no value yet. -/
def pldIssued (f : FmtM) (lanes : Mask) (u : State) : State :=
  (u.onMe fun T => T.issueOp .pld f.reg lanes none (f.ord.getLsbD 0) (.pld f)).advance

section
variable (hr : s.regionOf s.here = some (r, g)) (ha : s.effAddr f % accessBytes f.sz.toNat = 0)
  (hb : s₁.barred q.pa (s.effAddr f) = none) (hl : inRemote q.pa = false)
include hr ha hb hl

section
variable {d : Deferred} {u : State} (hd : pldRequest f s g.ctx q = d) (hu : s₁.touch s.site g.ctx (s.effAddr f) q.pa = u)
  (hc : s.canM f (f.sz == 7) false) (hq : s.page s.site none g.ctx (s.effAddr f) .present = (s₁, .ok q))
include hd hu hc hq

/-- A PLD of words of this package, once its page is found: it issues, and is deferred while a word is not there (R154). -/
theorem exec_pld_local :
    exec (.pld f) s = .next (if !u.isPresent d
      then State.count { pldIssued f d.lanes u with deferred := u.deferred ++ [d] } (dieOf s.here) .pldDeferral
      else match u.presenceValue d with
        | some v => (pldIssued f d.lanes u).onMe fun T => T.deliver s.me.nop v
        | none => (u.count (dieOf s.here) .zmbRefetch).trap (.decmp (s.effAddr f / 256 * 256))) := by
  have h₁ := State.accounts_of_page hq
  have hh : u.here = s.here := by rw [← hu, (s₁.accounts_touch ..).here, h₁.here]
  subst hd
  change execPld f s = _
  rw [execPld, memOp_of_can hc, placed_virtual ha]
  simp only [hr, hq, hb, hl, hu, hh, h₁.site, h₁.here, h₁.me, Bool.false_eq_true, if_false, pldRequest, beq_iff_eq]
  rfl

theorem exec_pld_present {v : Vec} (hp : u.isPresent d = true) (hv : u.presenceValue d = some v) :
    exec (.pld f) s = .next ((pldIssued f d.lanes u).onMe fun T => T.deliver s.me.nop v) := by
  rw [exec_pld_local hr ha hb hl hd hu hc hq, hp, hv]
  rfl

theorem exec_pld_absent (hp : u.isPresent d = false) :
    exec (.pld f) s = .next (State.count { pldIssued f d.lanes u with deferred := u.deferred ++ [d] } (dieOf s.here) .pldDeferral) := by
  rw [exec_pld_local hr ha hb hl hd hu hc hq, hp]
  rfl

end

section
variable {js : List Nat} {cells : List Host.Cell} (hjs : presenceWords f (s.me.effMask f.pg f.ps) = js)
  (hcells : pstCells f s.me q.pa js = cells) (hj : js ≠ []) (hc : s.canM f (f.sz == 7) true)
  (hq : s.page s.site none g.ctx (s.effAddr f) .setPresent = (s₁, .ok q))
include hjs hcells hj hc hq

/-- A PST of words of this package, once its page is found: with release, or after FENCE.rel, the task acts first; else it acts only when
the words are not there (R154, R274, R311). -/
theorem exec_pst_local :
    exec (.pst f) s = .next (if f.ord.getLsbD 1 || s.me.relFence
      then s₁.irrevocably true fun s' => attemptPst s.site g.ctx (s.effAddr f) q js cells s' (performPst s.site g.ctx (s.effAddr f) q js cells)
      else attemptPst s.site g.ctx (s.effAddr f) q js cells s₁ fun s' =>
        s'.irrevocably false (performPst s.site g.ctx (s.effAddr f) q js cells)) := by
  have h₁ := State.accounts_of_page hq
  subst hcells
  change execPst f s = _
  rw [execPst, memOp_of_can hc, placed_virtual ha]
  simp only [hr, hq, hb, hl, hjs, h₁.me, List.isEmpty_iff, hj, Bool.false_eq_true, if_false]
  rfl

theorem exec_pst_absent {w : State} (hp : ∀ j ∈ js, q.pa / 8 + j ∉ s₁.pres) (hw : s₁.wouldSpoil q.cmp cells = false)
    (hact : s₁.actsAtOnce (f.ord.getLsbD 1 || s.me.relFence))
    (hphys : (s₁.acted.touch s.site g.ctx (s.effAddr f) q.pa).physWrite q.cmp cells = some w) :
    exec (.pst f) s
      = .next ({ w with pres := js.foldl (fun ps j => setInsert (q.pa / 8 + j) ps) w.pres }.wakeDeferred).advance := by
  have h₁ := State.accounts_of_page hq
  have hr₁ : s₁.regionOf s₁.here = some (r, g) := by rw [h₁.regionOf, h₁.here, hr]
  rw [exec_pst_local hr ha hb hl hjs hcells hj hc hq]
  cases hrel : f.ord.getLsbD 1 || s.me.relFence with
  | true =>
    rw [hrel] at hact
    rw [if_pos rfl, irrevocably_of_actsAtOnce hr₁ hact, attemptPst_of_absent (by rwa [pres_acted]) (by rwa [wouldSpoil_acted]),
      performPst_of_write hphys]
  | false =>
    rw [hrel] at hact
    rw [if_neg Bool.false_ne_true, attemptPst_of_absent hp hw, irrevocably_of_actsAtOnce hr₁ hact, performPst_of_write hphys]

theorem exec_pst_relaxed_present {j : Nat} (hf : js.find? (fun j => s₁.pres.contains (q.pa / 8 + j)) = some j)
    (hrel : (f.ord.getLsbD 1 || s.me.relFence) = false) :
    exec (.pst f) s = .next ((s₁.touch s.site g.ctx (s.effAddr f) q.pa).trap (.presdup (s.effAddr f + 8 * j))) := by
  rw [exec_pst_local hr ha hb hl hjs hcells hj hc hq, hrel, if_neg Bool.false_ne_true, attemptPst_of_find hf]

theorem exec_pst_release_present {j : Nat} (hf : js.find? (fun j => s₁.acted.pres.contains (q.pa / 8 + j)) = some j)
    (hrel : (f.ord.getLsbD 1 || s.me.relFence) = true) (hact : s₁.actsAtOnce true) :
    exec (.pst f) s = .next ((s₁.acted.touch s.site g.ctx (s.effAddr f) q.pa).trap (.presdup (s.effAddr f + 8 * j))) := by
  have h₁ := State.accounts_of_page hq
  have hr₁ : s₁.regionOf s₁.here = some (r, g) := by rw [h₁.regionOf, h₁.here, hr]
  rw [exec_pst_local hr ha hb hl hjs hcells hj hc hq, hrel, if_pos rfl, irrevocably_of_actsAtOnce hr₁ hact, attemptPst_of_find hf]

end

end

/-- PCLEAR of a range in pages that it may name clears the presence bits of its pieces (R154). -/
theorem exec_pclear_range {ps : List (Nat × Nat × Nat)} (hr : s.regionOf s.here = some (r, g)) (hc : s.canM f false true)
    (ha : s.effAddr f % 8 = 0) (hn : (s.me.readX f.reg.toNat).toNat % 8 = 0) (h0 : (s.me.readX f.reg.toNat).toNat ≠ 0)
    (hp : s.pieces s.site s.myCtx .setPresent ((s.me.readX f.reg.toNat).toNat / 256 + 2) (s.effAddr f)
      (s.effAddr f + (s.me.readX f.reg.toNat).toNat) = (s₁, .ok ps))
    (hb : ∀ q ∈ ps, s₁.barred q.2.1 q.1 = none) (hact : s₁.actsAtOnce (f.ord.getLsbD 1)) :
    let u := ps.foldl (fun (v : State) q => v.touch v.site v.myCtx q.1 q.2.1) s₁.acted
    exec (.pclear f) s
      = .next (State.advance { u with pres := u.pres.filter fun w => !(ps.any fun q => q.2.1 ≤ 8 * w && 8 * w < q.2.1 + q.2.2) }) := by
  intro u
  have h₁ := State.accounts_of_pieces hp
  have hr₁ : s₁.regionOf s₁.here = some (r, g) := by rw [h₁.regionOf, h₁.here, hr]
  have hbar : (ps.findSome? fun q => s₁.barred q.2.1 q.1) = none := by simpa using hb
  change execPclear f s = _
  rw [execPclear, memOp_of_can hc]
  simp only [ha, hn, h0, hp, hbar, irrevocably_of_actsAtOnce hr₁ hact, bne_self_eq_false, Bool.or_self, Bool.false_eq_true, if_false]
  rfl

/-- PCLEAR of length 0 only advances. -/
theorem exec_pclear_empty (hc : s.canM f false true) (ha : s.effAddr f % 8 = 0) (h0 : s.me.readX f.reg.toNat = 0) :
    exec (.pclear f) s = .next s.advance := by
  change execPclear f s = _
  rw [execPclear, memOp_of_can hc]
  simp [ha, h0]

/-- PFETCH only asks for its bytes (R157). -/
theorem exec_pfetch (hc : s.canM f false false) : ∃ u : State, exec (.pfetch f) s = .next u.advance ∧ s.Accounts u := by
  change ∃ u : State, execPfetch f s = _ ∧ _
  rw [execPfetch, memOp_of_can hc]
  refine ⟨_, rfl, ?_⟩
  split
  next va _ _ =>
    have hx := s.accounts_xlate (dieOf s.here) none s.myCtx va 0
    split
    next e =>
      rw [e] at hx
      exact State.accounts_ite (hx.trans (State.accounts_touch ..)) hx
    next e => rwa [e] at hx
  next => exact .refl s

section
variable (hc : s.canM f false true) (ha : s.effAddr f % 4096 = 0) (hn : (s.me.readX f.reg.toNat).toNat % 4096 = 0)
include hc ha hn

/-- A TFENCE that has not been sent is sent to the dies of its scope (R158). -/
theorem exec_tfence_unsent (h : s.fences.find? (fun x => x.t == some s.here) = none) :
    exec (.tfence f) s = .next { s with fences := s.fences ++
      [⟨s.myCtx, s.effAddr f, (s.me.readX f.reg.toNat).toNat, scopeDies s f.scope.toNat, some s.here, 0, 0⟩] } := by
  change execTfence f s = _
  rw [execTfence, memOp_of_can hc]
  simp only [ha, hn, h, bne_self_eq_false, Bool.or_self, Bool.false_eq_true, if_false]

/-- One that has been sent keeps the element until every die has acknowledged it (R158). -/
theorem exec_tfence_sent {x : Fence} (h : s.fences.find? (fun x => x.t == some s.here) = some x) :
    exec (.tfence f) s
      = .next (if x.left = [] then { s with fences := s.fences.filter fun x => x.t != some s.here }.advance else s) := by
  change execTfence f s = _
  rw [execTfence, memOp_of_can hc]
  simp only [ha, hn, h, List.isEmpty_iff, bne_self_eq_false, Bool.or_self, Bool.false_eq_true, if_false]

end

end

/-- Settles O22: PLD and PST by their requests once the page is found, PCLEAR by its pieces, and the fences as they stand. -/
theorem presenceAndFences : Obligations.PresenceAndFences := by
  intro f s s₁ r g q ea m wide js hr
  refine ⟨fun hc ha hq hb hl => ?pld, fun hc ha hq hb hl hj => ?pst, fun ps hc ha hn h0 hp hb hact => ?pclear,
    exec_pclear_empty, fun hc => ?pfetch, fun hc => ?fence, fun hc ha hn => ⟨exec_tfence_unsent hc ha hn, fun x => exec_tfence_sent hc ha hn⟩⟩
  case pld =>
    have hd (u : State) : u.isPresent (pldRequest f s g.ctx q) = true ↔ ∀ j ∈ js, q.pa / 8 + j ∈ u.pres := isPresent_iff rfl
    refine ⟨fun v hp hv => ?_, fun ⟨j, hj, hn⟩ => ?_⟩
    · have he := exec_pld_present hr ha hb hl rfl rfl hc hq ((hd _).2 hp) hv
      exact he
    · have he := exec_pld_absent hr ha hb hl rfl rfl hc hq (Bool.eq_false_iff.2 fun h => hn ((hd _).1 h j hj))
      exact he
  case pst =>
    exact ⟨fun w => exec_pst_absent hr ha hb hl rfl rfl hj hc hq, fun j => exec_pst_relaxed_present hr ha hb hl rfl rfl hj hc hq,
      fun j => exec_pst_release_present hr ha hb hl rfl rfl hj hc hq⟩
  case pclear =>
    have hu := State.accounts_foldl (fun (v : State) (q : Nat × Nat × Nat) => v.accounts_touch v.site v.myCtx q.1 q.2.1) ps s₁.acted
    refine ⟨_, exec_pclear_range hr hc ha hn h0 hp hb hact, ?_, ?_⟩
    · exact hu.mem.trans ((mem_acted s₁).trans (State.accounts_of_pieces hp).mem)
    · exact congrArg _ hu.pres
  case pfetch =>
    obtain ⟨u, he, hu⟩ := exec_pfetch hc
    exact ⟨u, he, hu.mem, hu.tiles, hu.regions⟩
  case fence =>
    have he : exec (.fence f) s = _ := congrArg Host.Outcome.next (State.issue_of_can hc _)
    refine ⟨fun ho => ?_, fun ho => ?_⟩
    · rw [he, if_pos ho]
    · rw [he, if_neg (by simp [ho])]

end Sys2Proof.Machine
end

section
namespace Sys2Proof.Machine

/-! ### The memory interface and its fences (R158, R287 to R289, R375, R417) -/

/-- The state in which a block read is tried: a refetch is counted, and a read made again after a DECMP is a new request (R289, R417). -/
def mitAsked (s : State) (q : MitReq) : State :=
  if q.phase = 1 then s.count (dieOf q.t) .zmbRefetch
  else if q.phase = 2 then s.touch ⟨q.t, 0, 0, q.widx⟩ q.ctx q.va q.pa else s

section
variable {s : State} {k : Nat} {q : MitReq} {r : Nat} {g : Region} {refetch : Bool}

theorem mitAsked_eq (hp : (q.phase == 1) = refetch) :
    (if refetch then s.count (dieOf q.t) .zmbRefetch
      else if q.phase = 2 then s.touch ⟨q.t, 0, 0, q.widx⟩ q.ctx q.va q.pa else s) = mitAsked s q := by
  simp [mitAsked, ← hp]

variable (hk : s.mit[k]? = some q) (ha : s.active q.t = some (r, g)) (hp : (q.phase == 1) = refetch)
include hk ha hp

/-- A block read whose turn it is delivers its bytes. -/
theorem mitTry_of_bytes {bs : List Byte} (hb : (mitAsked s q).taskRead g q.cmp q.pa q.size = some bs) (bad : State → MitReq → State) :
    s.mitTry k refetch bad = { mitAsked s q with mit := (mitAsked s q).mit.eraseIdx k }.onTile q.t fun T => T.deliver q.op
      (if q.signed then BitVec.ofNat 512 (extend (ofBytes bs) (8 * q.size) true).toNat else BitVec.ofNat 512 (ofBytes bs)) := by
  simp only [State.mitTry, hk, ha, hp, mitAsked_eq hp, hb, bne_self_eq_false, Bool.false_eq_true, if_false]

/-- One that finds its block malformed does what `bad` says. -/
theorem mitTry_of_malformed (hb : (mitAsked s q).taskRead g q.cmp q.pa q.size = none) (bad : State → MitReq → State) :
    s.mitTry k refetch bad = bad (mitAsked s q) q := by
  simp only [State.mitTry, hk, ha, hp, mitAsked_eq hp, hb, bne_self_eq_false, Bool.false_eq_true, if_false]

end

theorem exec_counterHalving {s : State} {d : Nat} (h : (s.die d).halveAt ≤ s.time) :
    exec (.counterHalving d) s = .next (s.onDie d fun D => { D with
      access := D.access.map fun q => (q.1, q.2 / 2)
      halveAt := s.time + 2 ^ 26 }) :=
  congrArg Host.Outcome.next (if_neg (Nat.not_lt.2 h))

theorem die_onDie (s : State) {d : Nat} (f : Die → Die) (h : d < s.dies.length) : (s.onDie d f).die d = f (s.die d) := by
  simp [State.die, State.onDie, h]

theorem die_onDie_of_ne (s : State) {d x : Nat} (f : Die → Die) (h : x ≠ d) : (s.onDie d f).die x = s.die x := by
  simp [State.die, State.onDie, Ne.symm h]

/-- A die with nothing left in its caches that a fence covers (R158). -/
def Fence.dropFrom (f : Fence) (D : Die) : Die :=
  { D with
    tlb := D.tlb.filter fun e => !f.covers e
    ptrs := D.ptrs.filter fun e => !f.covers e
    ise := D.ise.map fun es => es.filter fun e => !f.covers e }

/-- What a die keeps of its caches is what the fence does not cover, and no less. -/
theorem Fence.caches_dropFrom (f : Fence) (D : Die) :
    (∀ x, x ∈ (f.dropFrom D).tlb ↔ x ∈ D.tlb ∧ f.covers x = false)
      ∧ (∀ x, x ∈ (f.dropFrom D).ptrs ↔ x ∈ D.ptrs ∧ f.covers x = false)
      ∧ (∀ es ∈ (f.dropFrom D).ise, ∀ x ∈ es, f.covers x = false)
      ∧ ∀ i x, x ∈ (f.dropFrom D).ise.getD i [] ↔ x ∈ D.ise.getD i [] ∧ f.covers x = false := by
  refine ⟨fun x => ?_, fun x => ?_, fun es hes x hx => ?_, fun i x => ?_⟩
  · simp [Fence.dropFrom]
  · simp [Fence.dropFrom]
  · obtain ⟨es', -, rfl⟩ := List.mem_map.1 hes
    simpa using List.of_mem_filter hx
  · simp only [Fence.dropFrom, List.getD_eq_getElem?_getD, List.getElem?_map]
    cases D.ise[i]? <;> simp

theorem exec_tfenceAck_die {s : State} {k d : Nat} {f : Fence} {rest : List Nat} (hk : s.fences[k]? = some f) (hl : f.left = d :: rest) :
    exec (.tfenceAck k) s = .next { s.onDie d f.dropFrom with fences := s.fences.modify k fun f => { f with left := rest } } := by
  change execTfenceAck k s = _
  simp only [execTfenceAck, hk, hl]
  rfl

/-- Settles O45: each block read is a `mitTry`, and an acknowledgement drops what its fence covers from one die. -/
theorem memoryInterface : Obligations.MemoryInterface := by
  intro s
  refine ⟨fun k q r g hk ha => ?read, fun d h => exec_counterHalving h, fun k f d rest hk hl => ?ack, fun k f hk hl ht => ?done⟩
  case read =>
    intro u i
    refine ⟨fun bs hb => ?_, fun hb => ⟨fun h1 => ?_, fun h1 => ?_⟩⟩
    · by_cases h1 : q.phase = 1
      · rw [show i = .mitRefetch k from if_pos h1]
        exact congrArg Host.Outcome.next (mitTry_of_bytes hk ha (beq_iff_eq.2 h1) hb _)
      · rw [show i = .mitBlockRead k from if_neg h1]
        exact congrArg Host.Outcome.next (mitTry_of_bytes hk ha (beq_eq_false_iff_ne.2 h1) hb _)
    · rw [show i = .mitBlockRead k from if_neg h1]
      exact congrArg Host.Outcome.next (mitTry_of_malformed hk ha (beq_eq_false_iff_ne.2 h1) hb _)
    · rw [show i = .mitRefetch k from if_pos h1]
      exact congrArg Host.Outcome.next (mitTry_of_malformed hk ha (beq_iff_eq.2 h1) hb _)
  case ack =>
    refine ⟨_, exec_tfenceAck_die hk hl, rfl, fun hd => ?_, fun x hx => die_onDie_of_ne s _ hx⟩
    have hD := f.caches_dropFrom (s.die d)
    rwa [← die_onDie s f.dropFrom hd] at hD
  case done =>
    change ∃ v, execTfenceAck k s = _ ∧ _
    simp only [execTfenceAck, hk, hl, ht]
    exact ⟨_, rfl, rfl, rfl⟩

end Sys2Proof.Machine
end

section
namespace Sys2Proof.Machine

/-! ### Taking an exception, and the return from one (R163, R275, R354, R376 to R379) -/

theorem length_queueWords (q : Queue) : (queueWords q).length = 2 := by
  unfold queueWords
  split <;> rfl

/-- Every record has eight queue words, whichever the unit (R377). -/
theorem State.length_recordQueues (s : State) (p : Site) : (s.recordQueues p).length = 8 := by
  unfold State.recordQueues
  dsimp only
  split
  · simp [List.range, List.range.loop, length_queueWords]
  · split
    · simp [length_queueWords]
    · rfl

/-- The code and the three flags of a record stand in its lowest bits (R376 Table 4). -/
theorem recordWord0_low {p : Site} {c : Nat} {f : Flt} (frz repl event : Bool) (h : f.code < 2 ^ 8) :
    let w := (BitVec.ofNat 64 (State.recordWord0 p c f frz repl event)).toNat
    bits w 0 8 = f.code ∧ bit w 8 = repl ∧ bit w 9 = event ∧ bit w 10 = frz := by
  obtain ⟨n, hn⟩ : ∃ n, State.recordWord0 p c f frz repl event
      = f.code + (if repl then 2 ^ 8 else 0) + (if event then 2 ^ 9 else 0) + (if frz then 2 ^ 10 else 0) + 2 ^ 12 * n :=
    ⟨p.unit + 2 ^ 4 * dieOf p.t + 2 ^ 6 * txOf p.t + 2 ^ 11 * tyOf p.t + 2 ^ 16 * p.sub + 2 ^ 19 * p.widx + 2 ^ 24 * c, by
      unfold State.recordWord0; ring⟩
  simp only [hn, BitVec.toNat_ofNat, bits, bit, beq_eq_decide]
  cases frz <;> cases repl <;> cases event <;> simp <;> omega

section
variable (s : State) (p : Site) (f : Flt) (g : Region)

/-- The record of a fault of a unit of a region (R376, R377). -/
def State.faultRecord : Record :=
  [BitVec.ofNat 64 (State.recordWord0 p g.ctx f f.freezes f.replayable f.isEvent), BitVec.ofNat 64 (f.va % 2 ^ 56), BitVec.ofNat 64 f.detail,
    BitVec.ofNat 64 (s.nextSeq (dieOf p.t) g.ctx), BitVec.ofNat 64 (match s.task? g.task with | some k => k.lseq | none => 0),
    BitVec.ofNat 64 g.task, BitVec.ofNat 64 (s.recordW6 g p), BitVec.ofNat 64 s.time] ++ s.recordQueues p

/-- The state in which that record has joined those that the die of the unit has to post. -/
def State.faultPosted : State :=
  (s.onCtx g.ctx fun C => { C with nseq := if s.nextSeq (dieOf p.t) g.ctx = 0 then C.nseq else C.nseq + 1 }).onDie (dieOf p.t) fun D =>
    { D with posts := D.posts ++ [(g.ctx, s.faultRecord p f g)] }

/-- The live record that a freezing fault leaves with its region. -/
def State.liveRecord : LiveRecord := ⟨s.nextSeq (dieOf p.t) g.ctx, f.code, p.t, p.unit, f.va, f.detail, 0, p.sub⟩

variable {s p f g}

/-- A fault of a task that need not replay is posted; a DECMP is counted; a precise one freezes the region. -/
theorem State.raise_of_valid {r : Nat} (hr : s.regionOf p.t = some (r, g)) (hm : s.mustReplay g = false) (hc : (s.ctx g.ctx).state ≠ 2) :
    s.raise p f =
      let u := if f.code = 0x0F then (s.faultPosted p f g).count g.die .decmpRaised else s.faultPosted p f g
      if f.freezes then u.setRegion r { g with frozen := true, records := g.records ++ [s.liveRecord p f g] } else u := by
  simp only [State.raise, hr, hm, Bool.false_eq_true, if_false, State.post, State.postWith, if_neg hc]
  rfl

theorem State.raise_of_mustReplay {r : Nat} (hr : s.regionOf p.t = some (r, g)) (hm : s.mustReplay g = true) : s.raise p f = s.replay r := by
  simp only [State.raise, hr, hm, if_true]

/-- Counting an event leaves the records that a die has to post. -/
theorem State.posts_count (s : State) (d x : Nat) (e : Event) : ((s.count d e).die x).posts = (s.die x).posts := by
  simp only [State.count, State.countBy, State.die, State.onDie, List.getD_eq_getElem?_getD, List.getElem?_modify]
  cases s.dies[x]? with
  | none => rfl
  | some D => by_cases h : d = x <;> simp [h]

theorem ctx_onCtx (s : State) {c : Nat} (h : Ctx → Ctx) (hc : c < s.ctxs.length) : (s.onCtx c h).ctx c = h (s.ctx c) := by
  simp [State.ctx, State.onCtx, hc]

/-- What a posted fault changes and leaves as it was: the element's registers and the memory stay, so the access is made again. -/
theorem State.raise_of_valid_parts {r : Nat} (hr : s.regionOf p.t = some (r, g)) (hm : s.mustReplay g = false) (hs : (s.ctx g.ctx).state ≠ 2)
    (hc : g.ctx < s.ctxs.length) (hd : dieOf p.t < s.dies.length) :
    let v := s.raise p f
    (v.die (dieOf p.t)).posts = (s.die (dieOf p.t)).posts ++ [(g.ctx, s.faultRecord p f g)]
      ∧ (v.ctx g.ctx).nseq = (s.ctx g.ctx).nseq + (if s.nextSeq (dieOf p.t) g.ctx = 0 then 0 else 1)
      ∧ v.mem = s.mem ∧ v.tiles = s.tiles ∧ v.tasks = s.tasks
      ∧ v.region? r = some (if f.freezes then { g with frozen := true, records := g.records ++ [s.liveRecord p f g] } else g) := by
  have hposts : ((s.faultPosted p f g).die (dieOf p.t)).posts = (s.die (dieOf p.t)).posts ++ [(g.ctx, s.faultRecord p f g)] :=
    congrArg Die.posts (die_onDie (s.onCtx g.ctx _) _ hd)
  have hnseq : ((s.faultPosted p f g).ctx g.ctx).nseq = (s.ctx g.ctx).nseq + (if s.nextSeq (dieOf p.t) g.ctx = 0 then 0 else 1) := by
    refine (congrArg Ctx.nseq (ctx_onCtx s _ hc)).trans ?_
    dsimp only
    split <;> rfl
  have hregion : (s.faultPosted p f g).region? r = some g := region?_of_regionOf hr
  obtain ⟨u, hu, hup⟩ : ∃ u, (if f.code = 0x0F then (s.faultPosted p f g).count g.die .decmpRaised else s.faultPosted p f g) = u
      ∧ (u.die (dieOf p.t)).posts = ((s.faultPosted p f g).die (dieOf p.t)).posts ∧ u.ctxs = (s.faultPosted p f g).ctxs
      ∧ u.mem = s.mem ∧ u.tiles = s.tiles ∧ u.tasks = s.tasks ∧ u.regions = (s.faultPosted p f g).regions := by
    refine ⟨_, rfl, ?_⟩
    split
    · exact ⟨State.posts_count .., rfl, rfl, rfl, rfl, rfl⟩
    · exact ⟨rfl, rfl, rfl, rfl, rfl, rfl⟩
  obtain ⟨hp, hx, hmem, ht, hk, hg⟩ := hup
  have hxn : (u.ctx g.ctx).nseq = _ := (congrArg (fun cs : List Ctx => (cs.getD g.ctx Ctx.reset).nseq) hx).trans hnseq
  rw [State.raise_of_valid hr hm hs]
  simp only [hu]
  split
  · exact ⟨hp.trans hposts, hxn, hmem, ht, hk, State.region?_setRegion ..⟩
  · exact ⟨hp.trans hposts, hxn, hmem, ht, hk, (congrArg (tabGet r) hg).trans hregion⟩

end

/-- Settles O56: a fault is a replay where validation fails, and a posted record where it does not; a thaw filters the records. -/
theorem exceptionsAreTaken : Obligations.ExceptionsAreTaken := by
  intro s p f r g hr
  refine ⟨fun hm h1 hc hd => ?taken, fun hm => State.raise_of_mustReplay hr hm, fun seq => ?thawed⟩
  case taken =>
    have hs : (s.ctx g.ctx).state ≠ 2 := by rw [h1]; decide
    obtain ⟨hp, hrest⟩ := State.raise_of_valid_parts (f := f) hr hm hs hc hd
    exact ⟨⟨_, hp, by simp [State.faultRecord, State.length_recordQueues], rfl, rfl, rfl, rfl, rfl, rfl, fun h => recordWord0_low _ _ _ h⟩, hrest⟩
  case thawed =>
    have hleft : (!(g.records.filter fun x => x.seq != seq).isEmpty) = g.records.any fun x => x.seq != seq := by
      rw [Bool.eq_iff_iff]
      simp
    rw [State.thaw_region (region?_of_regionOf hr), hleft]

end Sys2Proof.Machine
end

section
namespace Sys2Proof.Machine

/-! ### Descriptors and reservations (R193, R195, R200) -/

/-- The machine has the same tiles and regions as before, and the same running element. -/
structure State.SamePlaces (s t : State) : Prop where
  here : t.here = s.here
  tiles : t.tiles = s.tiles
  regions : t.regions = s.regions

namespace State
variable {s t u : State}

theorem SamePlaces.trans (h : s.SamePlaces t) (h' : t.SamePlaces u) : s.SamePlaces u :=
  ⟨h'.here.trans h.here, h'.tiles.trans h.tiles, h'.regions.trans h.regions⟩

theorem SamePlaces.refl (s : State) : s.SamePlaces s := ⟨rfl, rfl, rfl⟩

theorem Accounts.samePlaces (h : s.Accounts t) : s.SamePlaces t := ⟨h.here, h.tiles, h.regions⟩

section
variable (h : s.SamePlaces t)
include h

theorem SamePlaces.tile (x : Nat) : t.tile x = s.tile x := by simp only [State.tile, h.tiles]
theorem SamePlaces.me : t.me = s.me := by simp only [State.me, h.here, h.tile]
theorem SamePlaces.site : t.site = s.site := by simp only [State.site, h.here, h.me]
theorem SamePlaces.region? (r : Nat) : t.region? r = s.region? r := by simp only [State.region?, h.regions]
theorem SamePlaces.regionOf (x : Nat) : t.regionOf x = s.regionOf x := by
  simp only [State.regionOf, h.tile]
  split <;> simp only [h.region?]

end

theorem samePlaces_of_physWrite {cmp : Bool} {cells : List Host.Cell} (h : s.physWrite cmp cells = some t) : s.SamePlaces t := by
  unfold State.physWrite at h
  split at h
  · cases h; exact .refl s
  · dsimp only at h
    split at h
    · split at h
      · cases h
      · cases h; exact ⟨rfl, rfl, rfl⟩
    · cases h; exact ⟨rfl, rfl, rfl⟩

theorem samePlaces_homeWrite (s : State) (cells : List Host.Cell) : s.SamePlaces (s.homeWrite cells) := by
  unfold State.homeWrite
  cases h : s.physWrite (s.inCode (cells.headD (0, 0)).1) cells with
  | none => exact .refl s
  | some t => exact samePlaces_of_physWrite h

theorem samePlaces_ite_fst {α : Type} {c : Prop} [Decidable c] {a b : State × α} (ha : s.SamePlaces a.1) (hb : s.SamePlaces b.1) :
    s.SamePlaces (if c then a else b).1 := by
  split <;> assumption

theorem SamePlaces.withTrees (h : s.SamePlaces t) (ts : Tab Tree) : s.SamePlaces { t with trees := ts } := ⟨h.here, h.tiles, h.regions⟩

theorem samePlaces_mirror (s : State) (d : Nat) (tr : Tree) : s.SamePlaces (s.mirror d tr) :=
  (s.samePlaces_homeWrite _).withTrees _

theorem samePlaces_openTree (s : State) (c va d : Nat) : s.SamePlaces (s.openTree c va d).1 := by
  unfold State.openTree
  extract_lets tr₁ tr₂ fresh
  have hfresh : s.SamePlaces fresh.1 := samePlaces_ite_fst (samePlaces_mirror ..) ((SamePlaces.refl s).withTrees _)
  split
  · exact samePlaces_ite_fst hfresh (.refl s)
  · exact hfresh

theorem samePlaces_openFound (s : State) (c va : Nat) (q : Page) : s.SamePlaces (s.openFound c va q).1 :=
  samePlaces_ite_fst (.refl s) (samePlaces_ite_fst (.refl s) (samePlaces_openTree ..))

/-- Opening the region that a key access names leaves every tile and region. -/
theorem samePlaces_of_openKeys {va : Nat} {write : Bool} {r : Except Flt Nat} (h : s.openKeys va write = (t, r)) : s.SamePlaces t := by
  unfold State.openKeys at h
  split at h
  next e => cases h; exact (accounts_of_page e).samePlaces
  next u q e =>
    have hu := (accounts_of_page e).samePlaces
    split at h
    · split at h <;> (cases h; exact hu)
    · have ho := u.samePlaces_openFound u.myCtx va q
      rw [h] at ho
      exact hu.trans ho

theorem samePlaces_of_reserve {d k n : Nat} {v : Word} (h : s.reserve d k v = some (n, t)) : s.SamePlaces t := by
  unfold State.reserve at h
  split at h
  · cases h
  · dsimp only at h
    split at h
    · cases h; exact .refl s
    · split at h
      · cases h
      · cases h; exact samePlaces_mirror ..

theorem samePlaces_of_reserveAll {d : Nat} {kvs : List (Nat × Word)} {ns : List Nat} {r : Except Nat (List Nat)}
    (h : s.reserveAll d kvs ns = (t, r)) : s.SamePlaces t := by
  induction kvs generalizing s ns with
  | nil => cases h; exact .refl _
  | cons kv kvs ih =>
    unfold State.reserveAll at h
    split at h
    next e => exact (samePlaces_of_reserve e).trans (ih h)
    next => cases h; exact .refl _

end State

/-! ### SLD and SST (R197 to R200) -/

/-- The keys of the lanes of a key access: of each lane of a vector, or one (R197). -/
def keysOf (f : FmtM) (s : State) : List (Nat × Nat) :=
  let key := ((s.me.readX (f.base + 1).toNat).toNat + (sext f.off.toNat 20 % 2 ^ 64).toNat) % 2 ^ 64
  if f.sz == 7 then (lanesIn (s.me.effMask f.pg f.ps)).map fun i => (i, key + i) else [(0, key)]

theorem keysOf_scalar {f : FmtM} {s : State} (h : f.sz ≠ 7) :
    keysOf f s = [(0, ((s.me.readX (f.base + 1).toNat).toNat + (sext f.off.toNat 20 % 2 ^ 64).toNat) % 2 ^ 64)] :=
  if_neg (mt beq_iff_eq.1 h)

/-- The sources of a key access: its register when it stores, and the pair of its base (R197). -/
def keySrcs (f : FmtM) (write : Bool) : List Src :=
  let bases : List Src := [⟨f.base, f.fe.getLsbD 0, 1⟩, ⟨f.base + 1, f.fe.getLsbD 0, 1⟩]
  if write then ⟨f.reg, f.fe.getLsbD 1, 0⟩ :: bases else bases

section
variable {f : FmtM} {s s₁ : State} {r d : Nat} {g : Region}

/-- A key access that issues, to a region that opens, whose keys lie in it and in no broken partition, takes its effect. -/
theorem keyOp_of_can {write : Bool} (hi : s.canIssue (executes (s.me.effMask f.pg f.ps) (f.sz == 7)) (keySrcs f write)) (hb : s.heldBack = false)
    (ho : s.openKeys (s.me.readX f.base.toNat).toNat write = (s₁, .ok d)) (hl : inRemote d = false)
    (hw : 8 * (if f.sz == 7 then 4 else accessBytes f.sz.toNat) = Spec.tyWidth (s₁.descVty d))
    (hk : ∀ k ∈ keysOf f s, k.2 < s₁.keyEnd d) (hn : ∀ k ∈ keysOf f s, s₁.brokenAt d k.2 = false)
    (effect : Mask → Nat → Nat → List (Nat × Nat) → State → State) :
    keyOp s f write effect
      = .next (effect (s.me.effMask f.pg f.ps) (s.me.readX f.base.toNat).toNat d (keysOf f s) s₁) := by
  have hend : ((keysOf f s).any fun k => s₁.keyEnd d ≤ k.2) = false := by simpa using hk
  have hbroken : ((keysOf f s).any fun k => s₁.brokenAt d k.2) = false := by simpa using hn
  refine congrArg Host.Outcome.next ((s.issue_of_can hi _).trans ?_)
  rw [hb, if_neg Bool.false_ne_true]
  dsimp only
  rw [ho]
  dsimp only
  rw [hl, hw, bne_self_eq_false, if_neg Bool.false_ne_true, if_neg Bool.false_ne_true]
  exact (if_neg (Bool.eq_false_iff.1 hend)).trans (if_neg (Bool.eq_false_iff.1 hbroken))

end

theorem State.region?_onRegion {s : State} {r : Nat} {g : Region} (h : s.region? r = some g) (f : Region → Region) :
    (s.onRegion r f).region? r = some (f g) := by
  simp only [State.onRegion, h, State.region?_setRegion]

/-- The stores of a key access as they stand in a buffer (R199). -/
def keyStores (p : Site) (va d : Nat) (kvs : List (Nat × Word)) (ns : List Nat) : List HeldStore :=
  (List.range kvs.length).map fun i => .key p va d (kvs.getD i (0, 0)).1 (kvs.getD i (0, 0)).2 (ns.getD i 0)

/-- Key stores that fit the buffer, and whose nodes are reserved, enter it (R199, R200). -/
theorem State.holdKeys_of_reserved {s s' : State} {r d va : Nat} {p : Site} {g : Region} {kvs : List (Nat × Word)} {ns : List Nat}
    (hl : inRemote d = false) (hg : s.region? r = some g) (hroom : g.used + 2 * kvs.length ≤ g.capacity)
    (hns : s.reserveAll d kvs [] = (s', .ok ns)) (k : State → State) :
    ∃ t : State, s.holdKeys r p va d kvs k = k t ∧ ∃ g', t.region? r = some g' ∧ g'.used = g.used + 2 * kvs.length
      ∧ g'.buffer = g.buffer ++ keyStores p va d kvs ns := by
  have hg' := ((State.samePlaces_of_reserveAll hns).region? r).trans hg
  unfold State.holdKeys
  simp only [hg, Nat.not_lt.2 hroom, hl, hns, Bool.false_eq_true, if_false]
  have hstored := State.region?_onRegion hg' fun g => { g with
    buffer := g.buffer ++ keyStores p va d kvs ns
    used := g.used + 2 * kvs.length
    writes := g.writes ++ ((keyStores p va d kvs ns).flatMap storeLocs).filter fun l => !g.writes.contains l }
  exact ⟨_, rfl, _, hstored, rfl, rfl⟩

/-- What SLD finds for a lane: the value of its key, and 0 for a lane with none. -/
def laneValue (value : Nat → Nat) (keys : List (Nat × Nat)) (i : Nat) : Nat :=
  match (keys.map Prod.fst).idxOf? i with | some j => ((keys.map Prod.snd).map value).getD j 0 | none => 0

theorem laneValue_one (value : Nat → Nat) (k : Nat) : laneValue value [(0, k)] 0 = value k := by
  simp [laneValue, List.idxOf?_cons]

theorem ofNat_laneValue (value : Nat → Nat) (keys : List (Nat × Nat)) (i : Nat) :
    BitVec.ofNat 32 (laneValue value keys i) = match keys.find? fun k => k.1 == i with | some k => BitVec.ofNat 32 (value k.2) | none => 0 := by
  unfold laneValue
  induction keys with
  | nil => rfl
  | cons k keys ih =>
    by_cases h : k.1 = i
    · simp [List.idxOf?_cons, h]
    · rw [List.find?_cons_of_neg (by simpa using h), ← ih]
      simp only [List.map_cons, List.idxOf?_cons, beq_iff_eq, h, if_false]
      cases (keys.map Prod.fst).idxOf? i <;> simp

/-- Settles O23: both are a `keyOp`, which takes its effect in the state in which its region is open. -/
theorem keyAccesses : Obligations.KeyAccesses := by
  intro f s s₁ r g d wide m va key keys bases good
  refine ⟨?load, ?store⟩
  case load =>
    intro hi hgood u
    obtain ⟨hb, ho, hl, hw, hk, hn, hr⟩ := hgood
    have hp := State.samePlaces_of_openKeys ho
    change execSld f s = _
    rw [execSld, keyOp_of_can hi hb ho hl hw hk hn]
    simp only [hr, hl, hp.site, State.keyRead, Bool.false_eq_true, if_false]
    change Host.Outcome.next (u.onMe fun T =>
      if f.sz = 7 then T.writeV f.reg (ofLanes ((List.range 16).map fun i => BitVec.ofNat 32 (laneValue (u.keyValue g d) keys i))) m
      else T.writeX f.reg.toNat (BitVec.ofNat 64 (loaded f.sz.toNat
        (bytesOf (if f.sz = 7 then 4 else accessBytes f.sz.toNat) (laneValue (u.keyValue g d) keys 0))).toNat)).advance = _
    refine congrArg (fun change => Host.Outcome.next (u.onMe change).advance) (funext fun T => ?_)
    by_cases h7 : f.sz = 7
    · rw [if_pos h7, if_pos (beq_iff_eq.2 h7)]
      exact congrArg (fun xs => T.writeV f.reg (ofLanes xs) m) (List.map_congr_left fun i _ => ofNat_laneValue (u.keyValue g d) keys i)
    · rw [if_neg h7, if_neg h7, if_neg (mt beq_iff_eq.1 h7), show keys = [(0, key)] from keysOf_scalar h7, laneValue_one]
  case store =>
    intro hi hgood hrel v kvs s₂ ns hroom hns
    obtain ⟨hb, ho, hl, hw, hk, hn, hr⟩ := hgood
    have hp := State.samePlaces_of_openKeys ho
    change ∃ t : State, execSst f s = _ ∧ _
    rw [execSst, keyOp_of_can hi hb ho hl hw hk hn]
    rw [afterRelease_of_released hrel]
    simp only [hr, hp.site, ← beq_iff_eq (a := f.sz)]
    obtain ⟨t, ht, hbuffer⟩ := State.holdKeys_of_reserved (p := s.site) (va := va) hl (region?_of_regionOf hr) hroom hns State.advance
    exact ⟨t, congrArg _ ht, hbuffer⟩
end Sys2Proof.Machine
end

section
namespace Sys2Proof.Machine

/-! ### Scanners open fibres and emit coordinates (R162, R171, R174) -/

section
variable {s : State} {t u r : Nat} {g : Region}

/-- An event of a scanner that can step is its step. -/
theorem scannerStep_of_can (hu : u = 1 ∨ u = 2) (hc : s.unitCan t u r g) (step : Nat → Region → State → State) :
    (if u = 1 || u = 2 then unitStep s t u step else .next s) = .next (step r g s) := by
  rw [if_pos (by simpa using hu), unitStep_of_can hc]

/-- A scanner that goes is no root that waits. -/
theorem Tile.goes.root {T : Tile} (h : T.goes u g) : ¬ (T.isRoot u && !T.rootRuns u g) = true := by
  rw [Bool.and_eq_true_iff, Bool.not_eq_true']
  exact fun ⟨hr, hn⟩ => by simp [h hr] at hn

theorem exec_rootSourceStart (hc : s.unitCan t u r g) (hr : (s.tile t).isRoot u = true) (hs : g.stopped = false) :
    exec (.rootSourceStart t u) s = .next (s.onTile t fun T => T.onUnit u fun U => { U with started := true }) := by
  change execRootSourceStart t u s = _
  rw [execRootSourceStart, unitStep_of_can hc]
  exact congrArg _ (if_pos (by simp [hr, hs]))

section
variable (hu : u = 1 ∨ u = 2) (hc : s.unitCan t u r g) (hg : (s.tile t).goes u g)
include hu hc hg

theorem exec_scannerRef_open {x : Nat} (hr : ((s.tile t).unit u).ref = some x) (hf : (s.tile t).unitFn u ≠ 4) :
    exec (.scannerRef t u) s = .next (scanStep s r g (unitSite t u) t u) := by
  change execScannerRef t u s = _
  rw [execScannerRef, scannerStep_of_can hu hc]
  refine congrArg _ ((if_neg hg.root).trans ?_)
  rw [hr, if_neg hf]
  rfl

theorem exec_scannerRef_ref {k x : Nat} (hr : ((s.tile t).unit u).ref = none) (hroot : (s.tile t).isRoot u = false)
    (ht : (s.tile t).token (8 * u) = some (k, x)) (hk : k ≤ 2) :
    exec (.scannerRef t u) s = .next (scanOpen s r g (unitSite t u) t u x true) := by
  change execScannerRef t u s = _
  rw [execScannerRef, scannerStep_of_can hu hc]
  refine congrArg _ ((if_neg hg.root).trans ?_)
  simp only [hr, hroot, ht, hk, Option.isSome_none, Bool.false_eq_true, if_false, if_true]

end

/-- The end of an open fibre is pending (R174). -/
theorem scanStep_end {p : Site} (h : ((s.tile t).unit u).lim ≤ ((s.tile t).unit u).pos) :
    scanStep s r g p t u = s.onTile t fun T => scanClose T u := if_pos h

/-- A dense fibre gives each coordinate below its extent n, with the reference r n + c (R171). -/
theorem scanStep_dense {p : Site} {x : Nat} (hf : (s.tile t).unitFn u = 0) (hr : ((s.tile t).unit u).ref = some x)
    (h : ((s.tile t).unit u).pos < ((s.tile t).unit u).lim) :
    scanStep s r g p t u = s.onTile t fun T =>
      (scanEmit T g.ctx s.time u (T.unit u).pos ((x * bits (T.unitWord u 0) 0 32 + (T.unit u).pos) % 2 ^ 32) none).onUnit u fun U =>
        { U with pos := ((s.tile t).unit u).pos + 1 } := by
  refine (if_neg (Nat.not_le.2 h)).trans ?_
  rw [hf, hr]
  rfl

end

/-- Settles O37: SCANNER_REF is a `scanStep` while a fibre is open, and a `scanOpen` else. -/
theorem scannersOpenAndEmit : Obligations.ScannersOpenAndEmit := by
  intro s t u r g T U hc
  refine ⟨exec_rootSourceStart hc, fun hu hg => ⟨fun x hr hf => exec_scannerRef_open hu hc hg hr hf, fun x hr hf hp => ?dense,
    fun x hr hf hp => ?close, fun k x hr hroot ht hk => exec_scannerRef_ref hu hc hg hr hroot ht hk⟩⟩
  case dense =>
    have h4 : (s.tile t).unitFn u ≠ 4 := by rw [show (s.tile t).unitFn u = 0 from hf]; decide
    rw [exec_scannerRef_open hu hc hg hr h4, scanStep_dense hf hr hp]
    rfl
  case close =>
    rw [exec_scannerRef_open hu hc hg hr hf, scanStep_end hp]
    rfl

end Sys2Proof.Machine
end

section
namespace Sys2Proof.Machine

/-! ### Scanners at stops, ends and SKIPs, and the tree scanner (R174, R175, R192, R201, R402) -/

/-- A SKIP names the open fibre of a scanner, and its stream (R175). -/
def skipsOpen (b : Beat) (U : UState) : Bool :=
  U.ref.isSome && (lane b.data 1).toNat == (U.fibre - 1) % 2 ^ 32 && (lane b.data 2).toNat == U.stream

theorem not_skipsOpen (b : Beat) (U : UState) : (!skipsOpen b U)
    = (U.ref.isNone || (lane b.data 1).toNat != (U.fibre - 1) % 2 ^ 32 || (lane b.data 2).toNat != U.stream) := by
  rw [skipsOpen, Bool.not_and, Bool.not_and, Option.not_isSome]
  rfl

/-- What SCN.T makes of the answer of its seek from a tile: the fibre closes, or its next coordinate leaves (R201). -/
def seekTaken (s : State) (T : Tile) (g : Region) (t u P d e m : Nat) : Option (Nat × Word) → State
  | none => s.onTile t fun T => scanClose T u
  | some (k, v) =>
    if (T.unit u).lim ≤ k then s.onTile t fun T => scanClose T u
    else
      let c := (k - P * e * m) / m
      let inner := bits (T.unitWord u 0) 32 4 + 1 < s.descOrder d
      let x := if bit (T.unitWord u 0) 45 then some (extend v.toNat (Spec.tyWidth (s.descVty d)) (Spec.tyInt (s.descVty d))).toNat else none
      if inner && 2 ^ 32 ≤ P * e + c then s.raise (unitSite t u) (.prot (T.ext u 0) 3)
      else s.onTile t fun T => (scanEmit T g.ctx s.time u c (if inner then P * e + c else k) x).onUnit u
        fun U => { U with pos := P * e * m + (c + 1) * m }

section
variable {s s₁ : State} {t u r : Nat} {g : Region} (hu : u = 1 ∨ u = 2) (hc : s.unitCan t u r g)
include hu hc

section
variable (hr : ((s.tile t).unit u).ref = none)
include hr

theorem exec_scannerStop {k : Nat} (hroot : (s.tile t).isRoot u = false) (ht : (s.tile t).token (8 * u) = some (3, k)) :
    let v := s.onTile t fun T => ((T.sendStop g.ctx u (min (k + 1) 14)).takeToken (8 * u)).onUnit u fun U => { U with pending := false, ended := false }
    exec (.scannerStop t u) s = .next (if k = 14 then v.count g.die .depthOverflow else v) := by
  change execScannerStop t u s = _
  rw [execScannerStop, scannerStep_of_can hu hc]
  simp only [ht, hr, hroot, Option.isSome_none, Bool.or_self, Bool.false_eq_true, if_false]

theorem exec_scannerDone_input {x : Nat} (hroot : (s.tile t).isRoot u = false) (ht : (s.tile t).token (8 * u) = some (4, x)) :
    exec (.scannerDone t u) s = .next ((s.takeAll t [8 * u]).endUnit t u g.ctx 4 0) := by
  change execScannerDone t u s = _
  rw [execScannerDone, scannerStep_of_can hu hc]
  simp [scanEnd, hr, hroot, ht]

theorem exec_scannerDone_root (hroot : (s.tile t).isRoot u = true) (hruns : (s.tile t).rootRuns u g = true)
    (hf : ((s.tile t).unit u).fibre = 1) : exec (.scannerDone t u) s = .next (s.endUnit t u g.ctx 4 0) := by
  change execScannerDone t u s = _
  rw [execScannerDone, scannerStep_of_can hu hc]
  simp [scanEnd, hr, hroot, hruns, hf]

end

section
variable {b : Beat} (hb : (s.tile t).inHead (8 * u + 1) = some b)
include hb

/-- A SKIP that names another fibre or stream than the open one is discarded and counted (R175). -/
theorem exec_scannerSkip_other (h : skipsOpen b ((s.tile t).unit u) = false) :
    exec (.scannerSkip t u) s = .next ((s.onTile t fun T => T.popIn (8 * u + 1)).count g.die .skipDiscarded) := by
  change execScannerSkip t u s = _
  rw [execScannerSkip, scannerStep_of_can hu hc]
  simp only [hb]
  exact congrArg _ (if_pos (by rw [← not_skipsOpen, h, Bool.not_false]))

/-- One for the open fibre moves a dense or bitmap scanner to its coordinate, never backwards (R175). -/
theorem exec_scannerSkip_open (h : skipsOpen b ((s.tile t).unit u) = true) (hf : (s.tile t).unitFn u = 0 ∨ (s.tile t).unitFn u = 2) :
    exec (.scannerSkip t u) s = .next ((s.onTile t fun T => T.onUnit u fun U =>
      { U with pos := max U.pos (lane b.data 0).toNat, floor := max U.floor (lane b.data 0).toNat }).onTile t fun T => T.popIn (8 * u + 1)) := by
  change execScannerSkip t u s = _
  rw [execScannerSkip, scannerStep_of_can hu hc]
  simp only [hb]
  refine congrArg _ ((if_neg (by rw [← not_skipsOpen, h]; decide)).trans ?_)
  rcases hf with hf | hf <;> rw [hf] <;> rfl

end

section
variable {P d e m : Nat} (hf : (s.tile t).unitFn u = 4) (hg : (s.tile t).goes u g) (hr : ((s.tile t).unit u).ref = some P)
  (ho : openScanTree s g (unitSite t u) (s.tile t) u = (s₁, .ok (d, e, m)))
include hf hg hr ho

/-- A seek that enters a broken partition raises DECMP; another is a request of the unit, and its answer is taken (R201, R289, R402). -/
theorem exec_scnTSeek :
    exec (.scnTSeek t u) s = .next (if s₁.brokenFrom d ((s.tile t).unit u).pos then s₁.raise (unitSite t u) (.decmp ((s.tile t).ext u 0))
      else
        let s₂ := s₁.touch (unitSite t u) g.ctx ((s.tile t).ext u 0) d
        seekTaken s₂ (s.tile t) g t u P d e m (s₂.seek d ((s.tile t).unit u).pos)) := by
  have hopen : ¬ ((s.tile t).unitFn u != 4 || ((s.tile t).isRoot u && !(s.tile t).rootRuns u g)) = true := by
    rw [hf, bne_self_eq_false, Bool.false_or]
    exact hg.root
  change execScnTSeek t u s = _
  rw [execScnTSeek, scannerStep_of_can hu hc]
  refine congrArg _ ((if_neg hopen).trans ?_)
  simp only [hr, ho]
  rfl

end
end

section
variable {s : State} {T : Tile} {g : Region} {t u P d e m k : Nat} {v : Word}

theorem seekTaken_past (h : (T.unit u).lim ≤ k) : seekTaken s T g t u P d e m (some (k, v)) = s.onTile t fun T => scanClose T u := if_pos h

/-- A key of the open fibre above the innermost level leaves as its coordinate, the reference P e + c, and its value (R201). -/
theorem seekTaken_within (h : k < (T.unit u).lim) (hl : bits (T.unitWord u 0) 32 4 + 1 < s.descOrder d)
    (hr : P * e + (k - P * e * m) / m < 2 ^ 32) :
    seekTaken s T g t u P d e m (some (k, v)) =
      let c := (k - P * e * m) / m
      let x := if bit (T.unitWord u 0) 45 then some (extend v.toNat (Spec.tyWidth (s.descVty d)) (Spec.tyInt (s.descVty d))).toNat else none
      s.onTile t fun T => (scanEmit T g.ctx s.time u c (P * e + c) x).onUnit u fun U => { U with pos := P * e * m + (c + 1) * m } := by
  refine (if_neg (Nat.not_le.2 h)).trans ?_
  simp only [hl, Nat.not_le.2 hr, decide_true, decide_false, Bool.and_false, Bool.false_eq_true, if_false, if_true]

end

/-- Settles O38: each event of a scanner by its own rule, and a seek by what it finds. -/
theorem scannersStopAndSkip : Obligations.ScannersStopAndSkip := by
  refine ⟨?stop, ?skip⟩
  case stop =>
    intro s t u r g T hc hu hr
    exact ⟨fun k hroot ht => exec_scannerStop hu hc hr hroot ht, fun x hroot ht => exec_scannerDone_input hu hc hr hroot ht,
      fun hroot hruns hf => exec_scannerDone_root hu hc hr hroot hruns hf⟩
  case skip =>
    intro s t u r g T U hc hu
    refine ⟨fun b hb => ⟨fun h => exec_scannerSkip_other hu hc hb h, fun h hf => exec_scannerSkip_open hu hc hb h hf⟩, ?seek⟩
    intro P d e m s₁ hf hg hr ho s₂
    rw [exec_scnTSeek hu hc hf hg hr ho]
    have hanswer (q : Option (Nat × Word)) (hq : s₂.seek d U.pos = q) :
        seekTaken s₂ T g t u P d e m (s₂.seek d U.pos) = seekTaken s₂ T g t u P d e m q :=
      congrArg (seekTaken s₂ T g t u P d e m) hq
    refine ⟨fun hb => congrArg _ (if_pos hb), fun hb hk => congrArg _ ((if_neg (Bool.eq_false_iff.1 hb)).trans (hanswer none hk)), fun k v hb hk => ?_⟩
    rw [if_neg (Bool.eq_false_iff.1 hb)]
    refine ⟨fun hl => congrArg _ ((hanswer _ hk).trans (seekTaken_past hl)), ?_⟩
    intro hl hi c vty x hr'
    exact congrArg _ ((hanswer _ hk).trans (seekTaken_within hl hi hr'))

end Sys2Proof.Machine
end

section
namespace Sys2Proof.Machine

/-! ### Merge units (R177 to R179) -/

/-- A merge unit whose outstanding SKIPs are settled by the heads of its sides (R179). -/
def skipsSettled (s : State) (t ka a kb b : Nat) : State :=
  s.onTile t fun T => T.onUnit 3 fun U => { U with skip0 := settleSkip U.skip0 ka a, skip1 := settleSkip U.skip1 kb b }

/-- It gives a coordinate with its references. -/
def mergeGives (s : State) (g : Region) (t c x y : Nat) : State := s.onTile t fun T => mergeEmit T g.ctx s.time c x y

/-- It emits a stop. -/
def mergeStops (s : State) (g : Region) (t k : Nat) : State := s.onTile t fun T => mergeStop T g.ctx k

section
variable {s : State} {t r a b ra rb ka kb : Nat} {g : Region} {union : Bool}

theorem exec_merge (hc : s.unitCan t 3 r g) (hf : (s.tile t).unitFn 3 = if union then 1 else 0) :
    exec (if union then .mrgU t else .mrgI t) s = .next (mergeStep s g t union) := by
  cases union with
  | false =>
    change execMrgI t s = _
    rw [execMrgI, unitStep_of_can hc]
    exact congrArg _ (if_pos hf)
  | true =>
    change execMrgU t s = _
    rw [execMrgU, unitStep_of_can hc]
    exact congrArg _ (if_pos hf)

section
variable (h0 : sideHead (s.tile t) 0 = some (ka, a, ra)) (h1 : sideHead (s.tile t) 1 = some (kb, b, rb))
include h0 h1

/-- Two equal coordinates leave with both references (R177, R178). -/
theorem mergeStep_equal (ha : ka ≤ 2) (hb : kb ≤ 2) (h : a = b) :
    mergeStep s g t union = popSide (popSide (mergeGives (skipsSettled s t ka a kb b) g t a ra rb) t 0 0) t 1 0 := by
  have hsw : ¬ (6 ≤ ka ∨ 6 ≤ kb) := by omega
  simp only [mergeStep, h0, h1, ha, hb, h, hsw, Bool.or_eq_true, decide_eq_true_eq, decide_true, Bool.and_self, if_true, if_false]
  rfl

theorem mergeStep_lower0 (ha : ka ≤ 2) (hb : kb ≤ 2) (h : a < b) :
    mergeStep s g t union = popSide (if union then mergeGives (skipsSettled s t ka a kb b) g t a ra 0xFFFFFFFF
      else mergeSkip (skipsSettled s t ka a kb b) g t 0 b) t 0 0 := by
  have hsw : ¬ (6 ≤ ka ∨ 6 ≤ kb) := by omega
  simp only [mergeStep, h0, h1, ha, hb, h, h.ne, hsw, Nat.max_eq_right h.le, Bool.or_eq_true, decide_eq_true_eq, decide_true, Bool.and_self,
    if_true, if_false]
  rfl

theorem mergeStep_lower1 (ha : ka ≤ 2) (hb : kb ≤ 2) (h : b < a) :
    mergeStep s g t union = popSide (if union then mergeGives (skipsSettled s t ka a kb b) g t b 0xFFFFFFFF rb
      else mergeSkip (skipsSettled s t ka a kb b) g t 1 a) t 1 0 := by
  have hsw : ¬ (6 ≤ ka ∨ 6 ≤ kb) := by omega
  simp only [mergeStep, h0, h1, ha, hb, Nat.not_lt.2 h.le, h.ne', hsw, Nat.max_eq_left h.le, Bool.or_eq_true, decide_eq_true_eq, decide_true,
    Bool.and_self, if_true, if_false, Nat.one_ne_zero]
  rfl

theorem mergeStep_stops_equal (ha : ka = 3) (hb : kb = 3) (h : a = b) :
    mergeStep s g t union = popSide (popSide (mergeStops (skipsSettled s t ka a kb b) g t a) t 0 3) t 1 3 := by
  subst ha hb h
  simp only [mergeStep, h0, h1]
  simp
  rfl

theorem mergeStep_stops_unequal (ha : ka = 3) (hb : kb = 3) (h : a ≠ b) :
    mergeStep s g t union
      = popSide (popSide (mergeStops ((skipsSettled s t ka a kb b).count g.die .stopMismatch) g t (max a b)) t 0 3) t 1 3 := by
  subst ha hb
  simp only [mergeStep, h0, h1]
  simp [h]
  rfl

theorem mergeStep_ends (ha : ka = 4) (hb : kb = 4) :
    mergeStep s g t union = ((skipsSettled s t ka a kb b).takeAll t [24, 25, 26, 27]).endUnit t 3 g.ctx 4 0 := by
  subst ha hb
  simp only [mergeStep, h0, h1]
  simp
  rfl

/-- A coordinate against a stop or an end is emitted by a union and discarded by an intersection (R177, R178). -/
theorem mergeStep_data_control (ha : ka ≤ 2) (h3 : 3 ≤ kb) (h5 : kb ≤ 5) :
    mergeStep s g t union
      = popSide (if union then mergeGives (skipsSettled s t ka a kb b) g t a ra 0xFFFFFFFF else skipsSettled s t ka a kb b) t 0 0 := by
  have hsw : ¬ (6 ≤ ka ∨ 6 ≤ kb) := by omega
  have hka : ka ≠ 3 := by omega
  have hkb : ¬ kb ≤ 2 := by omega
  simp only [mergeStep, h0, h1]
  simp [ha, hsw, hka, hkb]
  rfl

theorem mergeStep_control_data (h3 : 3 ≤ ka) (h5 : ka ≤ 5) (hb : kb ≤ 2) :
    mergeStep s g t union
      = popSide (if union then mergeGives (skipsSettled s t ka a kb b) g t b 0xFFFFFFFF rb else skipsSettled s t ka a kb b) t 1 0 := by
  have hsw : ¬ (6 ≤ ka ∨ 6 ≤ kb) := by omega
  have hka : ¬ ka ≤ 2 := by omega
  have hkb : kb ≠ 3 := by omega
  simp only [mergeStep, h0, h1]
  simp [hb, hsw, hka, hkb]
  rfl

/-- A stop against an end is emitted by a union alone, and counted (R177, R178). -/
theorem mergeStep_stop_end (ha : ka = 3) (hb : kb = 4 ∨ kb = 5) :
    mergeStep s g t union = popSide (let v := (skipsSettled s t ka a kb b).count g.die .stopMismatch
      if union then mergeStops v g t a else v) t 0 3 := by
  simp only [mergeStep, h0, h1]
  rcases hb with rfl | rfl <;> simp [ha] <;> rfl

theorem mergeStep_end_stop (ha : ka = 4 ∨ ka = 5) (hb : kb = 3) :
    mergeStep s g t union = popSide (let v := (skipsSettled s t ka a kb b).count g.die .stopMismatch
      if union then mergeStops v g t b else v) t 1 3 := by
  simp only [mergeStep, h0, h1]
  rcases ha with rfl | rfl <;> simp [hb] <;> rfl

theorem mergeStep_done_bar (ha : ka = 4) (hb : kb = 5) : mergeStep s g t union = popSide (skipsSettled s t ka a kb b) t 0 4 := by
  simp only [mergeStep, h0, h1]
  simp [ha, hb]
  rfl

theorem mergeStep_bar_done (ha : ka = 5) (hb : kb = 4) : mergeStep s g t union = popSide (skipsSettled s t ka a kb b) t 1 4 := by
  simp only [mergeStep, h0, h1]
  simp [ha, hb]
  rfl

end
end

/-! ### The repeater (R180) -/

/-- The repeater gives a reference for the driving coordinate at its input, which it takes. -/
def repeaterGives (s : State) (g : Region) (t x : Nat) (last : Bool) : State :=
  (s.onTile t fun T =>
    let T := (T.sendToken g.ctx s.time 4 32 1 (BitVec.ofNat 32 x)).onUnit 4 fun U => { U with ref := some x, ended := false }
    if last then T.flushOut g.ctx 32 else T).take t 32 0

/-- It releases its reference at a stop. -/
def repeaterMarks (s : State) (t : Nat) : State :=
  s.onTile t fun T => T.onUnit 4 fun U => { U with ref := none, pending := true, ended := false }

/-- It takes the stop and passes it on. -/
def repeaterStops (s : State) (g : Region) (t k : Nat) : State :=
  s.onTile t fun T => ((T.sendStop g.ctx 4 k).takeToken 32).onUnit 4 fun U => { U with pending := false }

section
variable {s : State} {t r : Nat} {g : Region} (hc : s.unitCan t 4 r g)
include hc

theorem exec_rptCrd_held {k y x : Nat} (ht : (s.tile t).token 32 = some (k, y)) (hk : k ≤ 2) (hr : ((s.tile t).unit 4).ref = some x) :
    exec (.rptCrd t) s = .next (repeaterGives s g t x ((s.tile t).lastLane 32)) := by
  change execRptCrd t s = _
  rw [execRptCrd, unitStep_of_can hc]
  simp only [ht, hk, hr, if_true]
  rfl

theorem exec_rptCrd_next {k y k' x : Nat} (ht : (s.tile t).token 32 = some (k, y)) (hk : k ≤ 2) (hr : ((s.tile t).unit 4).ref = none)
    (hi : (s.tile t).token 33 = some (k', x)) (hk' : k' ≤ 2) :
    exec (.rptCrd t) s = .next (repeaterGives (s.take t 33 1) g t x ((s.tile t).lastLane 32)) := by
  change execRptCrd t s = _
  rw [execRptCrd, unitStep_of_can hc]
  simp only [ht, hk, hr, hi, hk', if_true]
  rfl

section
variable {k : Nat} (ht : (s.tile t).token 32 = some (3, k))
include ht

theorem exec_rptStop_release (hp : ((s.tile t).unit 4).pending = false) (hr : ((s.tile t).unit 4).ref.isSome = true) :
    exec (.rptStop t) s = .next (repeaterMarks s t) := by
  change execRptStop t s = _
  rw [execRptStop, unitStep_of_can hc]
  simp only [ht, hp, hr, Bool.not_false, if_true]
  rfl

theorem exec_rptStop_empty {k' x : Nat} (hp : ((s.tile t).unit 4).pending = false) (hr : ((s.tile t).unit 4).ref = none)
    (hi : (s.tile t).token 33 = some (k', x)) (hk' : k' ≤ 2) : exec (.rptStop t) s = .next (repeaterMarks (s.take t 33 1) t) := by
  change execRptStop t s = _
  rw [execRptStop, unitStep_of_can hc]
  simp only [ht, hp, hr, hi, hk', Bool.not_false, Option.isSome_none, Bool.false_eq_true, if_true, if_false]
  rfl

theorem exec_rptStop_lowest (hp : ((s.tile t).unit 4).pending = true) (hk : k = 0) :
    exec (.rptStop t) s = .next (repeaterStops s g t k) := by
  change execRptStop t s = _
  rw [execRptStop, unitStep_of_can hc]
  simp only [ht, hp, hk, Bool.not_true, Bool.false_eq_true, if_true, if_false]
  rfl

theorem exec_rptStop_higher {j : Nat} (hp : ((s.tile t).unit 4).pending = true) (hk : k = j + 1) (hi : (s.tile t).token 33 = some (3, j)) :
    exec (.rptStop t) s = .next (repeaterStops (s.onTile t fun T => T.takeToken 33) g t k) := by
  subst hk
  change execRptStop t s = _
  rw [execRptStop, unitStep_of_can hc]
  simp only [ht, hp, hi, Bool.not_true, Bool.false_eq_true, Nat.succ_ne_zero, if_true, if_false]
  rfl

end

section
variable {x k y : Nat} (ht : (s.tile t).token 32 = some (4, x)) (hi : (s.tile t).token 33 = some (k, y))
include ht hi

/-- At the end of the driving stream ref_in is taken up to its own end, and each REF is counted (R180). -/
theorem exec_rptDone :
    (k = 4 → exec (.rptDone t) s = .next ((s.takeAll t [32, 33]).endUnit t 4 g.ctx 4 0))
      ∧ (k ≤ 2 → exec (.rptDone t) s = .next ((s.take t 33 1).count g.die .repeaterDiscard))
      ∧ (k = 3 → exec (.rptDone t) s = .next (s.onTile t fun T => T.takeToken 33)) := by
  have hd : exec (.rptDone t) s = .next (rptEnd s g t) := by
    change execRptDone t s = _
    rw [execRptDone, unitStep_of_can hc]
  rw [hd]
  refine ⟨fun hk => ?_, fun hk => ?_, fun hk => ?_⟩
  · simp [rptEnd, ht, hi, hk]
  · have h4 : ¬ 4 = k := by omega
    have h5 : ¬ 5 ≤ k := by omega
    simp [rptEnd, ht, hi, hk, h4, h5]
  · simp [rptEnd, ht, hi, hk]

end
end

/-! ### The reducer (R181, R182) -/

section
variable {s : State} {t r : Nat} {g : Region} (hc : s.unitCan t 5 r g)
include hc

theorem exec_rdcVal {b : Beat} (hb : (s.tile t).inHead 40 = some b) (hk : b.kind = 2) :
    exec (.rdcVal t) s = .next (s.onTile t fun T => (T.popIn 40).onUnit 5 fun U =>
      { U with
        acc := (((lanesOf b.data).take b.count).drop ((s.tile t).inQ 40).used).foldl (fun a x => some (reduceOne (s.tile t) a x)) U.acc
        ended := false }) := by
  have h2 : b.kind ≤ 2 := hk.le
  change execRdcVal t s = _
  rw [execRdcVal, unitStep_of_can hc]
  simp only [hb, h2, if_true]
  exact congrArg _ (if_pos hk)

theorem exec_rdcDone {x : Nat} (ht : (s.tile t).token 40 = some (4, x)) :
    exec (.rdcDone t) s = .next ((s.takeAll t [40]).endUnit t 5 g.ctx 4 0) := by
  change execRdcDone t s = _
  rw [execRdcDone, unitStep_of_can hc]
  simp [rdcEnd, ht]

end

/-- Settles O39: a merge unit by the heads of its sides, the repeater and the reducer by the token at their inputs. -/
theorem mergeRepeatReduce : Obligations.MergeRepeatReduce := by
  refine ⟨?merge, ?repeater, ?reduce⟩
  case merge =>
    intro s t r g a b ra rb ka kb union i s' out hc hf h0 h1
    rw [show exec i s = _ from exec_merge hc hf]
    exact ⟨fun ha hb h => congrArg _ (mergeStep_equal h0 h1 ha hb h), fun ha hb h => congrArg _ (mergeStep_lower0 h0 h1 ha hb h),
      fun ha hb h => congrArg _ (mergeStep_lower1 h0 h1 ha hb h), fun ha hb h => congrArg _ (mergeStep_stops_equal h0 h1 ha hb h),
      fun ha hb => congrArg _ (mergeStep_ends h0 h1 ha hb), fun ha h3 h5 => congrArg _ (mergeStep_data_control h0 h1 ha h3 h5),
      fun h3 h5 hb => congrArg _ (mergeStep_control_data h0 h1 h3 h5 hb),
      ⟨fun ha hb h => congrArg _ (mergeStep_stops_unequal h0 h1 ha hb h), fun ha hb => congrArg _ (mergeStep_stop_end h0 h1 ha hb),
        fun ha hb => congrArg _ (mergeStep_end_stop h0 h1 ha hb)⟩,
      fun ha hb => congrArg _ (mergeStep_done_bar h0 h1 ha hb), fun ha hb => congrArg _ (mergeStep_bar_done h0 h1 ha hb)⟩
  case repeater =>
    intro s t r g T U hc
    refine ⟨?crd, ?stop, fun x k y ht hi => exec_rptDone hc ht hi⟩
    case crd =>
      intro k y x ht hk gives
      exact ⟨fun hr => exec_rptCrd_held hc ht hk hr, fun k' hr hi hk' => exec_rptCrd_next hc ht hk hr hi hk'⟩
    case stop =>
      intro k ht sends marks
      exact ⟨fun hp hr => exec_rptStop_release hc ht hp hr, fun k' x hp hr hi hk' => exec_rptStop_empty hc ht hp hr hi hk',
        fun hp hk => exec_rptStop_lowest hc ht hp hk, fun j hp hk hi => exec_rptStop_higher hc ht hp hk hi⟩
  case reduce =>
    intro s t r g T hc
    refine ⟨fun b hb hk => exec_rdcVal hc hb hk, fun k ht => ?stop, fun x ht => exec_rdcDone hc ht⟩
    case stop =>
      change execRdcStop t s = _
      rw [execRdcStop, unitStep_of_can hc]
      simp only [show (s.tile t).token 40 = some (3, k) from ht]

end Sys2Proof.Machine
end

section
namespace Sys2Proof.Machine

/-! ### Level writers (R183 to R185) and the tree writer (R202) -/

/-- A coordinate at a writer of a level, which is not a tree's. -/
theorem writerData {k fn : Nat} (hk : k ≤ 2) (hf : fn ≠ 3) : ¬ (decide (3 ≤ k) || decide (fn = 3)) = true := by
  simp [hf]
  omega

section
variable {s : State} {t r : Nat} {g : Region} (hc : s.unitCan t 6 r g)
include hc

section
variable {k c v : Nat} {w : LwrWord} (hw : lwrWord (s.tile t) = w) (hh : lwrHead (s.tile t) w = some (k, c, v)) (hk : k ≤ 2)
include hw hh hk

/-- An entry of LWR.C is stored at the write position, which moves on (R184). -/
theorem exec_lwrEntry_compressed (hf : w.fn = 1) (hz : (w.nz && w.zero v) = false) :
    exec (.lwrEntry t) s = .next (s.taskStores r (unitSite t 6) .streamWrite (some w.pg)
      (segStart (s.tile t) w ++ [((s.tile t).ext 6 1 + 4 * ((s.tile t).unit 6).pos, bytesOf 4 c)]
        ++ if w.vw then [((s.tile t).ext 6 2 + w.bytes * ((s.tile t).unit 6).pos, bytesOf w.bytes v)] else []) fun s =>
      lwrPass (s.onTile t fun T => T.onUnit 6 fun U => { U with pos := U.pos + 1 }) g t w c true) := by
  change execLwrEntry t s = _
  rw [execLwrEntry, unitStep_of_can hc]
  simp only [hw, hh, hf]
  exact congrArg _ ((if_neg (writerData hk (by decide))).trans (if_neg (Bool.eq_false_iff.1 hz)))

/-- An entry of a dense fibre is stored at its coordinate (R184). -/
theorem exec_lwrEntry_dense (hf : w.fn = 0) (hn : c < w.n) :
    exec (.lwrEntry t) s = .next (s.taskStores r (unitSite t 6) .streamWrite (some w.pg)
      [((s.tile t).ext 6 0 + w.bytes * (((s.tile t).unit 6).fibre * w.n + c), bytesOf w.bytes v)] fun s =>
      lwrPass (s.onTile t fun T => T.onUnit 6 fun U => { U with entries := U.entries ++ [(c, 0)] }) g t w c true) := by
  change execLwrEntry t s = _
  rw [execLwrEntry, unitStep_of_can hc]
  simp only [hw, hh, hf]
  exact congrArg _ ((if_neg (writerData hk (by decide))).trans (if_neg (Nat.not_le.2 hn)))

/-- An entry of a bitmap fibre is kept until the fibre closes, unless nz removes it (R184). -/
theorem exec_lwrEntry_bitmap (hf : w.fn = 2) (hn : c < w.n) (hp : ((s.tile t).unit 6).floor ≤ c) :
    exec (.lwrEntry t) s = .next (lwrPass (s.onTile t fun T => T.onUnit 6 fun U => { U with
      floor := c + 1
      entries := if !(w.nz && w.zero v) then U.entries ++ [(c, BitVec.ofNat 32 v)] else U.entries })
      g t w c !(w.nz && w.zero v)) := by
  have hkept : ¬ (decide (w.n ≤ c) || decide (c < ((s.tile t).unit 6).floor)) = true := by simp; omega
  change execLwrEntry t s = _
  rw [execLwrEntry, unitStep_of_can hc]
  simp only [hw, hh, hf]
  exact congrArg _ ((if_neg (writerData hk (by decide))).trans (if_neg hkept))

/-- A coordinate outside a dense or bitmap fibre is discarded and counted (R184). -/
theorem exec_lwrEntry_outside (hf : w.fn = 0 ∨ w.fn = 2) (hn : w.n ≤ c) :
    exec (.lwrEntry t) s = .next ((lwrPass s g t w c false).count g.die .writerDiscard) := by
  change execLwrEntry t s = _
  rw [execLwrEntry, unitStep_of_can hc]
  simp only [hw, hh]
  rcases hf with hf | hf <;> simp only [hf] <;> refine congrArg _ ((if_neg (writerData hk (by decide))).trans (if_pos ?_))
  · exact hn
  · simp [hn]

end

section
variable {k x : Nat} (hh : lwrHead (s.tile t) (lwrWord (s.tile t)) = some (3, k, x))
include hh

theorem exec_lwrStop_level (hf : (lwrWord (s.tile t)).fn ≠ 3) : exec (.lwrStop t) s = .next (lwrClose s r g t (lwrWord (s.tile t)) k) := by
  change execLwrStop t s = _
  rw [execLwrStop, unitStep_of_can hc]
  simp only [hh]
  exact congrArg _ (if_pos (bne_iff_ne.2 hf))

/-- LWR.T, which has released the REF of its fibre, passes the lowest stop on, and another with the one a level lower at pre_in (R202). -/
theorem exec_lwrStop_tree (hf : (lwrWord (s.tile t)).fn = 3) (hr : ((s.tile t).unit 6).checked = true) :
    (k = 0 → exec (.lwrStop t) s = .next (lwrClose s r g t (lwrWord (s.tile t)) k))
      ∧ ∀ j, k = j + 1 → (s.tile t).token 50 = some (3, j) →
        exec (.lwrStop t) s = .next (lwrClose (s.onTile t fun T => T.takeToken 50) r g t (lwrWord (s.tile t)) k) := by
  have hstop : exec (.lwrStop t) s = execLwrStop t s := rfl
  rw [hstop, execLwrStop, unitStep_of_can hc]
  simp only [hh, hf, hr, bne_self_eq_false, Bool.not_true, Bool.false_eq_true, if_false]
  refine ⟨fun hk => congrArg _ (if_pos hk), fun j hk hj => ?_⟩
  subst hk
  simp only [hj, Nat.succ_ne_zero, if_true, if_false]

end

theorem exec_lwrDone {x y : Nat} (hh : lwrHead (s.tile t) (lwrWord (s.tile t)) = some (4, x, y))
    (hp : (lwrWord (s.tile t)).fn = 3 → ∃ z, (s.tile t).token 50 = some (4, z)) :
    let w := lwrWord (s.tile t)
    exec (.lwrDone t) s = .next (s.taskStores r (unitSite t 6) .streamWrite (some w.pg) (segStart (s.tile t) w) fun s =>
      (s.takeAll t ([48] ++ (if w.vw then [49] else []) ++ if w.fn = 3 then [50] else [])).endUnit t 6 g.ctx 4 0) := by
  intro w
  have hpre : ¬ (decide (w.fn = 3) && ((s.tile t).token 50).map Prod.fst != some 4) = true := by
    rw [Bool.and_eq_true_iff, decide_eq_true_iff]
    rintro ⟨h3, hne⟩
    obtain ⟨z, hz⟩ := hp h3
    simp [hz] at hne
  change execLwrDone t s = _
  rw [execLwrDone, unitStep_of_can hc]
  simp only [lwrEnd, hh]
  exact congrArg _ ((if_neg (by decide)).trans (if_neg hpre))

section
variable {s₁ : State} {d x k c v : Nat} {w : LwrWord} (hw : lwrWord (s.tile t) = w) (hf : w.fn = 3)
  (hh : lwrHead (s.tile t) w = some (k, c, v)) (hk : k ≤ 2) (hr : ((s.tile t).unit 6).ref = some x)
  (ho : s.openAt (unitSite t 6) g.ctx ((s.tile t).ext 6 0) true = (s₁, .ok d))
include hw hf hh hk hr ho

/-- A tree store is of the key of the fibre's REF and the coordinate, which must lie below the end (R202). -/
theorem exec_lwrTStore :
    exec (.lwrTStore t) s = .next (let key := x * (s₁.extents d).getLastD 1 + c
      if s₁.keyEnd d ≤ key then s₁.raise (unitSite t 6) (.prot ((s.tile t).ext 6 0) 3)
      else if s₁.brokenAt d key then s₁.raise (unitSite t 6) (.decmp ((s.tile t).ext 6 0))
      else s₁.holdKeys r (unitSite t 6) ((s.tile t).ext 6 0) d [(key, BitVec.ofNat 64 v)] fun s => lwrPass s g t w c true) := by
  have hopen : ¬ (decide (3 ≤ k) || w.fn != 3) = true := by simp [hf]; omega
  change execLwrTStore t s = _
  rw [execLwrTStore, unitStep_of_can hc]
  simp only [hw, hh, if_neg hopen, hr, ho]

end
end

/-- Settles O40: an entry by the function of the writer, a stop and an end by what closes there, and a tree store by its key. -/
theorem levelAndTreeWriters : Obligations.LevelAndTreeWriters := by
  refine ⟨?level, ?tree⟩
  case level =>
    intro s t r g T U w stores hc
    refine ⟨fun k c v hh hk => ⟨fun hf hz => exec_lwrEntry_compressed hc rfl hh hk hf hz, fun hf hn => exec_lwrEntry_dense hc rfl hh hk hf hn,
      fun hf hn => exec_lwrEntry_outside hc rfl hh hk hf hn, fun hf hn hp => exec_lwrEntry_bitmap hc rfl hh hk hf hn hp⟩,
      fun k x hh => ⟨fun hf => exec_lwrStop_level hc hh hf, fun hf hr hk => (exec_lwrStop_tree hc hh hf hr).1 hk,
        fun j hf hr hk hj => (exec_lwrStop_tree hc hh hf hr).2 j hk hj⟩,
      fun x y hh hp => exec_lwrDone hc hh hp⟩
  case tree =>
    intro s s₁ t r d x k c v g T w key hc hf hh hk hr ho
    rw [exec_lwrTStore hc rfl hf hh hk hr ho]
    exact ⟨fun hn hb => congrArg _ ((if_neg (Nat.not_le.2 hn)).trans (if_neg (Bool.eq_false_iff.1 hb))), fun hn => congrArg _ (if_pos hn)⟩

end Sys2Proof.Machine
end

section
namespace Sys2Proof.Machine

/-! ### Address generators (R186 to R190) -/

/-- A token put on an output changes output queues and output beats alone. -/
theorem Tile.sendToken_frame (T : Tile) (ctx now u c kind : Nat) (x : Lane) :
    ∃ q o, T.sendToken ctx now u c kind x = { T with outq := q, outs := o } := by
  have hflush (T : Tile) : ∃ q o, T.flushOut ctx c = { T with outq := q, outs := o } := by
    unfold Tile.flushOut
    split
    · split
      · exact ⟨_, _, rfl⟩
      · exact ⟨_, _, rfl⟩
    · exact ⟨_, _, rfl⟩
  unfold Tile.sendToken
  split
  · extract_lets T₁ ls T₂
    obtain ⟨q, o, h₁⟩ : ∃ q o, T₁ = { T with outq := q, outs := o } := by
      dsimp only [T₁]
      split
      · split
        · exact ⟨_, _, rfl⟩
        · exact hflush T
      · exact ⟨_, _, rfl⟩
    split
    · obtain ⟨q', o', h₂⟩ := hflush T₂
      exact ⟨q', o', by rw [h₂]; dsimp only [T₂]; rw [h₁]⟩
    · exact ⟨q, tabSet c ⟨kind, ls ++ [x], now⟩ T₁.outs, by dsimp only [T₂]; rw [h₁]⟩
  · exact ⟨_, _, rfl⟩

section
variable {s : State} {t p r : Nat} {g : Region} (hp : p < 4) (hc : s.unitCan t (7 + p) r g)
include hp hc

/-- An element of an affine pass is read and emitted, with the stop of the loop levels it closes (R187). -/
theorem exec_agAff_element {rf : Nat} {w : AgWord} (hw : agWord (s.tile t) p = w) (hf : w.fn = 0) (hm : w.mode ≠ 2)
    (hroot : w.mode = 0 → (s.tile t).rootRuns (7 + p) g = true) (hr : ((s.tile t).unit (7 + p)).ref = some rf) :
    let u := 7 + p
    let U := (s.tile t).unit u
    exec (.agAff t p) s = .next (s.reading r (unitSite t u) w.pg (w.addr rf U.pos) w.bytes fun v s =>
      let last := U.pos + 1 = w.total
      let s := s.onTile t fun T =>
        let T := (T.sendToken g.ctx s.time u (56 + p) w.kind (w.lane v)).onUnit u fun U => { U with pos := U.pos + 1 }
        match w.closes U.pos with
        | some j => if w.st && !last then T.sendStop g.ctx u j else T
        | none => T
      if last then agClose s g t p (w.mode = 0) w.st else s) := by
  intro u U
  have hopen : ¬ (w.fn != 0 || decide (3 < p)) = true := by simp [hf]; omega
  have hgoes : ¬ (decide (w.mode = 0) && !(s.tile t).rootRuns (7 + p) g) = true := by
    rw [Bool.and_eq_true_iff, decide_eq_true_iff, Bool.not_eq_true']
    exact fun ⟨h0, hn⟩ => by simp [hroot h0] at hn
  change execAgAff t p s = _
  rw [execAgAff]
  dsimp only
  rw [unitStep_of_can hc, hw]
  refine congrArg _ ((if_neg hopen).trans ((if_neg hm).trans ?_))
  simp only [hr]
  exact if_neg hgoes

theorem exec_agAff_open {k x : Nat} {w : AgWord} (hw : agWord (s.tile t) p = w) (hf : w.fn = 0) (h0 : w.mode ≠ 0) (h2 : w.mode ≠ 2)
    (hr : ((s.tile t).unit (7 + p)).ref = none) (ht : (s.tile t).token (56 + 2 * p) = some (k, x)) (hk : k ≤ 2) :
    exec (.agAff t p) s = .next (agOpen s g t p x w.nlv true) := by
  have hopen : ¬ (w.fn != 0 || decide (3 < p)) = true := by simp [hf]; omega
  change execAgAff t p s = _
  rw [execAgAff]
  dsimp only
  rw [unitStep_of_can hc, hw]
  refine congrArg _ ((if_neg hopen).trans ((if_neg h2).trans ?_))
  simp only [hr, h0, ht, hk, if_true, if_false]

theorem exec_agInd_open {k x : Nat} {w : AgWord} (hw : agWord (s.tile t) p = w) (hf : w.fn = 1) (h0 : w.mode ≠ 0)
    (hk' : ((s.tile t).unit (7 + p)).checked = true)
    (hr : ((s.tile t).unit (7 + p)).ref = none) (ht : (s.tile t).token (56 + 2 * p) = some (k, x)) (hk : k ≤ 2) :
    exec (.agInd t p) s = .next (agOpen s g t p x 0 true) := by
  have hopen : ¬ (w.fn != 1 || decide (3 < p) || !((s.tile t).unit (7 + p)).checked || ((s.tile t).unit (7 + p)).ref.isSome) = true := by
    simp [hf, hk', hr]; omega
  change execAgInd t p s = _
  rw [execAgInd]
  dsimp only
  rw [unitStep_of_can hc, hw]
  refine congrArg _ ((if_neg hopen).trans ((if_neg h0).trans ?_))
  simp only [ht, hk, if_true]

end

/-- What AG.AFF does by reference for one lane of a beat, in sequence (R187). -/
def gatherOne (r : Nat) (site : Site) (w : AgWord) (x : State × Except Flt (List Lane)) (rf : Lane) : State × Except Flt (List Lane) :=
  match x with
  | (s, .error e) => (s, .error e)
  | (s, .ok vs) =>
    if rf = 0xFFFFFFFF && w.zabs then (s, .ok (vs ++ [0]))
    else match s.unitRead r site w.pg (w.base + w.bytes * rf.toNat) w.bytes with
      | (s, .ok v) => (s, .ok (vs ++ [w.lane v]))
      | (s, .error e) => (s, .error e)

theorem foldl_gatherOne {s s' : State} {r : Nat} {site : Site} {w : AgWord} {refs vs : List Lane} (h : s.gathers r site w refs s' vs)
    (before : List Lane) : refs.foldl (gatherOne r site w) (s, .ok before) = (s', .ok (before ++ vs)) := by
  induction refs generalizing s vs before with
  | nil =>
    obtain ⟨rfl, rfl⟩ := h
    rw [List.append_nil]
    rfl
  | cons rf refs ih =>
    obtain ⟨v, vs, rfl, h | h⟩ := h
    · obtain ⟨hrf, hz, rfl, h⟩ := h
      have hstep : gatherOne r site w (s, .ok before) rf = (s, .ok (before ++ [0])) := if_pos (by simp [hrf, hz])
      rw [List.foldl_cons, hstep, ih h, List.append_assoc, List.singleton_append]
    · obtain ⟨hn, s₁, x, hx, rfl, h⟩ := h
      have hstep : gatherOne r site w (s, .ok before) rf = (s₁, .ok (before ++ [w.lane x])) := by
        refine (if_neg (by simpa using hn)).trans ?_
        simp only [hx]
      rw [List.foldl_cons, hstep, ih h, List.append_assoc, List.singleton_append]

/-- A beat of references gives a beat of the elements they name (R187). -/
theorem exec_agAff_gather {s s₁ : State} {t p r : Nat} {g : Region} {b : Beat} {vs : List Lane} {w : AgWord} (hp : p < 4)
    (hc : s.unitCan t (7 + p) r g) (hw : agWord (s.tile t) p = w) (hf : w.fn = 0) (h2 : w.mode = 2)
    (hb : (s.tile t).inHead (56 + 2 * p) = some b) (hk : b.kind = 1)
    (hg : s.gathers r (unitSite t (7 + p)) w ((lanesOf b.data).take b.count) s₁ vs) :
    exec (.agAff t p) s = .next (s₁.onTile t fun T => (T.sendBeat g.ctx (7 + p) (56 + p) (.tokens w.kind g.ctx vs)).popIn (56 + 2 * p)) := by
  have hopen : ¬ (w.fn != 0 || decide (3 < p)) = true := by simp [hf]; omega
  have hk2 : b.kind ≤ 2 := by omega
  have hfold := foldl_gatherOne hg []
  change execAgAff t p s = _
  rw [execAgAff]
  dsimp only
  rw [unitStep_of_can hc, hw]
  refine congrArg _ ((if_neg hopen).trans ((if_pos h2).trans ?_))
  simp only [hb, hk2, if_true]
  change (match ((lanesOf b.data).take b.count).foldl (gatherOne r (unitSite t (7 + p)) w) (s, .ok []) with
    | (s, .error e) => s.raise (unitSite t (7 + p)) e
    | (s, .ok vs) =>
      let s := s.onTile t fun T => (T.sendBeat g.ctx (7 + p) (56 + p) (.tokens w.kind g.ctx vs)).popIn (56 + 2 * p)
      if b.kind = 1 then s else s.count g.die .kindMismatch) = _
  rw [hfold]
  exact if_pos hk

/-! #### The indirect-stream engine (R30, R188, R189) -/

/-- The site of the ISE's accesses for a port. -/
def iseSite (t p : Nat) : Site := ⟨t, 10, p, 0⟩

section
variable {s s₁ s₂ : State} {t p r : Nat} {g : Region} (hp : p < 4) (hc : s.unitCan t (7 + p) r g)
include hp hc

/-- The parameters of an indirect pass are read once, and checked (R189). -/
theorem exec_iseParamRead {q : Page} {bs : List Byte} {w : AgWord} (hw : agWord (s.tile t) p = w) (hf : w.fn = 1)
    (hn : ((s.tile t).unit (7 + p)).checked = false)
    (hstarts : (if w.mode = 0 then (s.tile t).rootRuns (7 + p) g else ((s.tile t).token (56 + 2 * p)).isSome) = true)
    (hq : s.page (iseSite t p) (s.iseOf (iseSite t p) g.ctx) g.ctx w.base .streamRead = (s₁, .ok q)) (hcls : q.cls = 0)
    (hb : s₁.taskRun r (iseSite t p) .streamRead w.base 64 = (s₂, .ok bs)) :
    exec (.iseParamRead t p) s = .next (if iseOk (wordsOf bs 8)
      then s₂.onTile t fun T => T.onUnit (7 + p) fun U => { U with block := wordsOf bs 8, checked := true }
      else s₂.raise (iseSite t p) (.prot w.base 6)) := by
  have hopen : ¬ (w.fn != 1 || decide (3 < p) || ((s.tile t).unit (7 + p)).checked
      || !(if w.mode = 0 then (s.tile t).rootRuns (7 + p) g else ((s.tile t).token (56 + 2 * p)).isSome)) = true := by
    rw [hstarts]
    simp [hf, hn]
    omega
  unfold iseSite at *
  change execIseParamRead t p s = _
  rw [execIseParamRead]
  dsimp only
  rw [unitStep_of_can hc, hw]
  refine congrArg _ ((if_neg hopen).trans ?_)
  simp only [hq, hcls, hb, bne_self_eq_false, Bool.false_eq_true, if_false]

/-- The fabric takes the oldest value returned to a port that goes on, and the ISE fetches the next (R30, R189). -/
theorem exec_iseValueReturn {w : AgWord} (hw : agWord (s.tile t) p = w) (hf : w.fn = 1)
    (hroot : w.mode = 0 → (s.tile t).rootRuns (7 + p) g = true) :
    exec (.iseValueReturn t p) s = .next (let v := s.iseGive g t p; if v.iseRuns t p g.ctx then v.iseFetch r g.ctx t p else v) := by
  obtain ⟨ha, hconf, hroomy⟩ := hc
  have hopen : ¬ (!(s.tile t).configured (7 + p) || w.fn != 1 || decide (3 < p)) = true := by simp [hconf, hf]; omega
  have hgoes : ¬ (decide (w.mode = 0) && !(s.tile t).rootRuns (7 + p) g) = true := by
    rw [Bool.and_eq_true_iff, decide_eq_true_iff, Bool.not_eq_true']
    exact fun ⟨h0, hn⟩ => by simp [hroot h0] at hn
  change execIseValueReturn t p s = _
  rw [execIseValueReturn]
  simp only [ha, hw]
  exact congrArg _ ((if_neg hopen).trans ((if_neg hgoes).trans (by rw [if_pos hroomy])))

end

section
variable {s s₁ s₂ : State} {t p : Nat} {g : Region}

theorem iseGive_none (h : s.returned t p = []) : s.iseGive g t p = s := by
  simp only [State.iseGive, h]

/-- The oldest value enters the fabric, and the last one of a pass closes it (R189). -/
theorem iseGive_some {x : IseReturn} {rest : List IseReturn} (h : s.returned t p = x :: rest) :
    s.iseGive g t p =
      let v := s.onTile t fun T => T.sendToken g.ctx s.time (7 + p) (56 + p) 2 x.value
      let v := { v with iseq := v.iseq.erase x }
      if x.last then agClose v g t p ((agWord (s.tile t) p).mode = 0) (iseBlock ((s.tile t).unit (7 + p)).block).st else v := by
  obtain ⟨q, o, hframe⟩ := (s.tile t).sendToken_frame g.ctx s.time (7 + p) (56 + p) 2 x.value
  have htile : (s.onTile t fun T => T.sendToken g.ctx s.time (7 + p) (56 + p) 2 x.value).tile t = { s.tile t with outq := q, outs := o } :=
    (s.tile_onTile t _).trans hframe
  have hsame (v : State) (hv : v.tile t = { s.tile t with outq := q, outs := o }) :
      agWord (v.tile t) p = agWord (s.tile t) p ∧ (v.tile t).unit (7 + p) = (s.tile t).unit (7 + p) := by
    rw [hv]
    exact ⟨rfl, rfl⟩
  obtain ⟨hword, hunit⟩ := hsame { s.onTile t fun T => T.sendToken g.ctx s.time (7 + p) (56 + p) 2 x.value with
    iseq := (s.onTile t fun T => T.sendToken g.ctx s.time (7 + p) (56 + p) 2 x.value).iseq.erase x } htile
  simp only [State.iseGive, h]
  rw [hword, hunit]

/-- An index that is not absent leads to a value in the ISE's return queue (R189). -/
theorem iseFetch_of_reads {r c k idx v : Nat} (hr : ((s.tile t).unit (7 + p)).ref = some k)
    (hi : s.unitRead r (iseSite t p) (iseBlock ((s.tile t).unit (7 + p)).block).ipg ((iseBlock ((s.tile t).unit (7 + p)).block).ibase
      + 4 * (k * (iseBlock ((s.tile t).unit (7 + p)).block).icnt + ((s.tile t).unit (7 + p)).pos)) 4 = (s₁, .ok idx))
    (ha : ¬ (idx = 0xFFFFFFFF ∧ (iseBlock ((s.tile t).unit (7 + p)).block).zabs = true))
    (hv : s₁.unitRead r (iseSite t p) (iseBlock ((s.tile t).unit (7 + p)).block).vpg ((iseBlock ((s.tile t).unit (7 + p)).block).vbase
      + (iseBlock ((s.tile t).unit (7 + p)).block).bytes * idx) (iseBlock ((s.tile t).unit (7 + p)).block).bytes = (s₂, .ok v)) :
    s.iseFetch r c t p =
      let b := iseBlock ((s.tile t).unit (7 + p)).block
      let s₃ := s₂.onTile t fun T => T.onUnit (7 + p) fun U => { U with pos := U.pos + 1 }
      { s₃ with iseq := s₃.iseq ++ [⟨(s.iseOf (iseSite t p) c).getD 0, t, p, c,
        BitVec.ofNat 32 (extend v (8 * b.bytes) b.sx).toNat, decide (((s.tile t).unit (7 + p)).pos + 1 = b.icnt)⟩] } := by
  have hpresent : ¬ (decide (idx = 0xFFFFFFFF) && (iseBlock ((s.tile t).unit (7 + p)).block).zabs) = true := by
    rwa [Bool.and_eq_true_iff, decide_eq_true_iff]
  unfold iseSite at *
  simp only [State.iseFetch, State.reading, hr, Option.getD_some, hi]
  refine (if_neg hpresent).trans ?_
  simp only [hv]

end

/-! #### Writing ports (R190) -/

section
variable {s : State} {t p r k x : Nat} {g : Region} {w : AgWord} (hp : p < 4) (hc : s.unitCan t (7 + p) r g)
  (hw : agWord (s.tile t) p = w) (hf : w.fn = 2) (hk : k ≤ 2)
include hp hc hw hf hk

theorem exec_agWr_affine (h0 : w.mode = 0) (ht : (s.tile t).token (57 + 2 * p) = some (k, x))
    (hm : ((s.tile t).unit (7 + p)).mark < w.total) :
    exec (.agWr t p) s = .next (s.taskStores r (unitSite t (7 + p)) .streamWrite (some w.pg)
      [(w.addr 0 ((s.tile t).unit (7 + p)).mark % 2 ^ 56, bytesOf w.bytes x)]
      fun s => (s.take t (57 + 2 * p) 2).onTile t fun T => T.onUnit (7 + p) fun U => { U with mark := U.mark + 1, ended := false }) := by
  have hopen : ¬ (w.fn != 2 || decide (3 < p)) = true := by simp [hf]; omega
  change execAgWr t p s = _
  rw [execAgWr]
  dsimp only
  rw [unitStep_of_can hc, hw]
  refine congrArg _ ((if_neg hopen).trans ((if_pos h0).trans ?_))
  simp only [ht, hk, hm, if_true]

theorem exec_agWr_by_reference {k' v : Nat} (h0 : w.mode ≠ 0) (ht : (s.tile t).token (56 + 2 * p) = some (k, x))
    (hv : (s.tile t).token (57 + 2 * p) = some (k', v)) (hk' : k' ≤ 2) (hx : x ≠ 0xFFFFFFFF) :
    exec (.agWr t p) s = .next (s.taskStores r (unitSite t (7 + p)) .streamWrite (some w.pg)
      [((w.base + w.bytes * x) % 2 ^ 56, bytesOf w.bytes v)] fun s => (s.take t (56 + 2 * p) 1).take t (57 + 2 * p) 2) := by
  have hopen : ¬ (w.fn != 2 || decide (3 < p)) = true := by simp [hf]; omega
  change execAgWr t p s = _
  rw [execAgWr]
  dsimp only
  rw [unitStep_of_can hc, hw]
  refine congrArg _ ((if_neg hopen).trans ((if_neg h0).trans ?_))
  simp only [ht, hv, hk, hk', hx, decide_true, Bool.and_self, if_true, if_false]

end

/-- Settles O41: a port by its mode and its function, and the ISE by what it has returned and what it reads. -/
theorem addressGenerators : Obligations.AddressGenerators := by
  intro s t p r g T u U w hc hp
  refine ⟨fun rf hf hm hroot hr => exec_agAff_element hp hc rfl hf hm hroot hr,
    fun b s₁ vs hf h2 hb hk hg => exec_agAff_gather hp hc rfl hf h2 hb hk hg,
    fun k x h0 h2 hr ht hk => ⟨fun hf => exec_agAff_open hp hc rfl hf h0 h2 hr ht hk, fun hf hk' => exec_agInd_open hp hc rfl hf h0 hk' hr ht hk⟩,
    fun s₁ s₂ q bs hf hn hstarts hq hcls hb => exec_iseParamRead hp hc rfl hf hn hstarts hq hcls hb, ?ise,
    fun k x hf hk => ⟨fun h0 ht hm => exec_agWr_affine hp hc rfl hf hk h0 ht hm,
      fun k' v h0 ht hv hk' hx => exec_agWr_by_reference hp hc rfl hf hk h0 ht hv hk' hx⟩⟩
  case ise =>
    intro hf hroot b
    rw [exec_iseValueReturn hp hc rfl hf hroot]
    refine ⟨fun k s₁ s₂ idx v hn hr hruns hi ha hv => ?fetch, fun x rest hx => ?give⟩
    case fetch =>
      intro s₃
      rw [iseGive_none hn]
      exact congrArg _ ((if_pos hruns).trans (iseFetch_of_reads hr hi ha hv))
    case give =>
      intro s₁ s₂ s₃
      exact congrArg (fun v : State => Host.Outcome.next (if v.iseRuns t p g.ctx then v.iseFetch r g.ctx t p else v)) (iseGive_some hx)

end Sys2Proof.Machine
end

section
namespace Sys2Proof.Machine

/-! ### Transform nodes (R191) -/

section
variable {s : State} {t r : Nat} {g : Region} (hc : s.unitCan t 0 r g) (hx : (s.tile t).isXf = true)
include hc hx

/-! #### A data beat -/

section
variable {b : Beat} (hb : (s.tile t).inHead 0 = some b) (hk : b.kind ≤ 2)
include hb hk

theorem exec_xfTpose_data (hf : (xfWord (s.tile t)).1 = 0) (hn : ((s.tile t).unit 0).group.length ≠ 16) :
    exec (.xfTpose t) s = .next (s.onTile t fun T => (T.popIn 0).onUnit 0 fun U => { U with
      group := U.group ++ [(b.count, b.data)]
      lim := if ((s.tile t).unit 0).group.length = 0 then b.kind else U.lim }) := by
  have h3 : ¬ 3 ≤ b.kind := by omega
  have hopen : ¬ (decide (((s.tile t).unit 0).group.length = 16)
      || (isControl (some b) && ((s.tile t).unit 0).group.length != 0)) = true := by simp [hn, isControl, h3]
  change execXfTpose t s = _
  rw [execXfTpose, xfStep_of_fn hc hx hf, hb]
  exact congrArg _ ((if_neg hopen).trans (if_pos hk))

theorem exec_xfQuant_data (hf : (xfWord (s.tile t)).1 = 1) (hn : ((s.tile t).unit 0).lanes.length < blockLen (xfWord (s.tile t)).2.1) :
    let v := s.onTile t fun T => (T.popIn 0).onUnit 0 fun U => { U with lanes := U.lanes ++ (lanesOf b.data).take b.count }
    exec (.xfQuant t) s = .next (if b.kind = 2 then v else v.count g.die .kindMismatch) := by
  have h3 : ¬ 3 ≤ b.kind := by omega
  have hopen : ¬ (decide (blockLen (xfWord (s.tile t)).2.1 ≤ ((s.tile t).unit 0).lanes.length)
      || (isControl (some b) && !((s.tile t).unit 0).lanes.isEmpty)) = true := by simp [Nat.not_le.2 hn, isControl, h3]
  change execXfQuant t s = _
  rw [execXfQuant, xfStep_of_fn hc hx hf, hb]
  exact congrArg _ ((if_neg hopen).trans (if_pos hk))

/-- Each lane of a VAL beat times the constant, the first NaN winning; other beats pass. -/
theorem exec_xfScale_data (hf : (xfWord (s.tile t)).1 = 2) :
    exec (.xfScale t) s = .next (s.onTile t fun T =>
      (T.sendBeat g.ctx 0 0 (.tokens b.kind g.ctx (if b.kind = 2 then ((lanesOf b.data).take b.count).map fun x =>
        let a := fp32.value x.toNat
        let k := fp32.value (xfWord (s.tile t)).2.2.2.2
        BitVec.ofNat 32 (roundVal fp32 (xfWord (s.tile t)).2.2.1 (xfWord (s.tile t)).2.2.2.1 0 ((Val.firstNan [a, k]).getD (a.mul k)))
        else (lanesOf b.data).take b.count))).popIn 0) := by
  change execXfScale t s = _
  rw [execXfScale, xfStep_of_fn hc hx hf, hb]
  refine congrArg _ ((if_pos hk).trans ?_)
  refine congrArg (fun one : Lane → Lane => s.onTile t fun T =>
    (T.sendBeat g.ctx 0 0 (.tokens b.kind g.ctx (if b.kind = 2 then ((lanesOf b.data).take b.count).map one
      else (lanesOf b.data).take b.count))).popIn 0) (funext fun x => ?_)
  change BitVec.ofNat 32 (match Val.firstNan [fp32.value x.toNat, fp32.value (xfWord (s.tile t)).2.2.2.2] with
    | some v => roundVal fp32 (xfWord (s.tile t)).2.2.1 (xfWord (s.tile t)).2.2.2.1 0 v
    | none => roundVal fp32 (xfWord (s.tile t)).2.2.1 (xfWord (s.tile t)).2.2.2.1 0
      ((fp32.value x.toNat).mul (fp32.value (xfWord (s.tile t)).2.2.2.2)))
    = BitVec.ofNat 32 (roundVal fp32 (xfWord (s.tile t)).2.2.1 (xfWord (s.tile t)).2.2.2.1 0
      ((Val.firstNan [fp32.value x.toNat, fp32.value (xfWord (s.tile t)).2.2.2.2]).getD
        ((fp32.value x.toNat).mul (fp32.value (xfWord (s.tile t)).2.2.2.2))))
  cases Val.firstNan [fp32.value x.toNat, fp32.value (xfWord (s.tile t)).2.2.2.2] <;> rfl

/-- The coordinates below the extent are gathered, and the others counted. -/
theorem exec_xfBmap_data (hf : (xfWord (s.tile t)).1 = 3) :
    ∃ v, exec (.xfBmap t) s = .next v ∧ v.mem = s.mem ∧ v.tiles = (s.onTile t fun T => (T.popIn 0).onUnit 0 fun U => { U with
      entries := U.entries ++ ((((lanesOf b.data).take b.count).map BitVec.toNat).filter (· < (xfWord (s.tile t)).2.2.2.2)).map fun c => (c, 0)
      pending := true }).tiles := by
  have hcounts (n : Nat) (v : State) : ((List.range n).foldl (fun s _ => s.count g.die .bmapDiscard) v).mem = v.mem
      ∧ ((List.range n).foldl (fun s _ => s.count g.die .bmapDiscard) v).tiles = v.tiles :=
    (List.range n).foldlRecOn (motive := fun u : State => u.mem = v.mem ∧ u.tiles = v.tiles) _ ⟨rfl, rfl⟩ fun _ hu _ _ => hu
  have he : exec (.xfBmap t) s = execXfBmap t s := rfl
  rw [he, execXfBmap, xfStep_of_fn hc hx hf, hb]
  refine ⟨_, congrArg _ (if_pos hk), ?_⟩
  split
  · exact hcounts ..
  · exact hcounts ..

end

/-! #### What is gathered leaves -/

section
variable {b : Beat}

/-- A full group, or one that a control token closes, leaves as one beat for each lane of the longest. -/
theorem exec_xfTpose_leaves (hf : (xfWord (s.tile t)).1 = 0) (hn : ((s.tile t).unit 0).group ≠ [])
    (hw : ((s.tile t).unit 0).group.length = 16 ∨ isControl ((s.tile t).inHead 0) = true) :
    exec (.xfTpose t) s = .next (s.onTile t fun T =>
      (T.sendBeat g.ctx 0 0 (.tokens ((s.tile t).unit 0).lim g.ctx
        (((s.tile t).unit 0).group.map fun q => if q.1 ≤ ((s.tile t).unit 0).pos then 0 else lane q.2 ((s.tile t).unit 0).pos))).onUnit 0 fun V =>
        if ((s.tile t).unit 0).pos + 1 < (((s.tile t).unit 0).group.map Prod.fst).foldl max 0
        then { V with pos := ((s.tile t).unit 0).pos + 1 } else { V with pos := 0, group := [] }) := by
  have hclosed : (decide (((s.tile t).unit 0).group.length = 16)
      || (isControl ((s.tile t).inHead 0) && ((s.tile t).unit 0).group.length != 0)) = true := by
    have hlen : ((s.tile t).unit 0).group.length ≠ 0 := mt List.length_eq_zero_iff.1 hn
    rcases hw with h | h <;> simp [h, hlen]
  change execXfTpose t s = _
  rw [execXfTpose, xfStep_of_fn hc hx hf]
  exact congrArg _ (if_pos hclosed)

/-- A full block, or one that a control token closes, leaves packed as one beat. -/
theorem exec_xfQuant_leaves {F rm imm side : Nat} {sat : Bool} {gs : BitVec 32} {ds codes : List Nat}
    (hX : xfWord (s.tile t) = (1, F, rm, sat, imm)) (hn : ((s.tile t).unit 0).lanes ≠ [])
    (hw : blockLen F ≤ ((s.tile t).unit 0).lanes.length ∨ isControl ((s.tile t).inHead 0) = true)
    (hd : (if rm = 5 then srDraws (blockLen F) (s.tile t).gsr else ((s.tile t).gsr, [])) = (gs, ds))
    (hp : packBlock F rm ((List.range (blockLen F)).map fun i => fp32.value (((s.tile t).unit 0).lanes.getD i 0).toNat) ds = (codes, side)) :
    exec (.xfQuant t) s = .next (s.onTile t fun T =>
      { (T.sendBeat g.ctx 0 0 (.tokens 2 g.ctx (lanesOf (BitVec.ofNat 512 (packNat (elemBits F) codes + side * 2 ^ 480))))).onUnit
        0 (fun V => { V with lanes := V.lanes.drop (blockLen F) }) with gsr := gs }) := by
  have hclosed : (decide (blockLen F ≤ ((s.tile t).unit 0).lanes.length)
      || (isControl ((s.tile t).inHead 0) && !((s.tile t).unit 0).lanes.isEmpty)) = true := by
    have hempty : ((s.tile t).unit 0).lanes.isEmpty = false := by simpa [List.isEmpty_eq_false_iff] using hn
    rcases hw with h | h <;> simp [h, hempty]
  change execXfQuant t s = _
  rw [execXfQuant, xfStep_of_fn hc hx (congrArg Prod.fst hX)]
  simp only [hX]
  refine congrArg _ ((if_pos hclosed).trans ?_)
  simp only [State.onTile, hd, hp]

/-- At a fibre's stop its words leave, eight to a beat. -/
theorem exec_xfBmap_leaves (hf : (xfWord (s.tile t)).1 = 3) (hb : (s.tile t).inHead 0 = some b) (hk : 3 ≤ b.kind)
    (hp : ((s.tile t).unit 0).pos < ceilDiv (bitmapWords (xfWord (s.tile t)).2.2.2.2) 8) (ho : ((s.tile t).unit 0).pending = true ∨ b.kind = 3) :
    let W := bitmapWords (xfWord (s.tile t)).2.2.2.2
    let ws := (List.range (min 8 (W - 8 * ((s.tile t).unit 0).pos))).map fun j => packNat 1 ((List.range 64).map fun i =>
      if ((s.tile t).unit 0).entries.any fun e => e.1 == 64 * (8 * ((s.tile t).unit 0).pos + j) + i then 1 else 0)
    exec (.xfBmap t) s = .next (s.onTile t fun T =>
      (T.sendBeat g.ctx 0 0 (.tokens 2 g.ctx (ws.flatMap fun w => [BitVec.ofNat 32 w, BitVec.ofNat 32 (w / 2 ^ 32)]))).onUnit 0
        fun V => { V with pos := V.pos + 1 }) := by
  have h2 : ¬ b.kind ≤ 2 := by omega
  have hwords : (decide (((s.tile t).unit 0).pos < ceilDiv (bitmapWords (xfWord (s.tile t)).2.2.2.2) 8)
      && (decide (b.kind = 3) || ((s.tile t).unit 0).pending)) = true := by
    rcases ho with h | h <;> simp [hp, h]
  intro W ws
  change execXfBmap t s = _
  rw [execXfBmap, xfStep_of_fn hc hx hf, hb]
  exact congrArg _ ((if_neg h2).trans (if_pos hwords))

/-! #### A control token passes -/

section
variable (hb : (s.tile t).inHead 0 = some b) (hk : 3 ≤ b.kind)
include hb hk

theorem exec_xfTpose_control (hf : (xfWord (s.tile t)).1 = 0) (ho : ((s.tile t).unit 0).group = []) :
    exec (.xfTpose t) s = .next (xfControl s g t b) := by
  have h2 : ¬ b.kind ≤ 2 := by omega
  change execXfTpose t s = _
  rw [execXfTpose, xfStep_of_fn hc hx hf]
  simp [hb, h2, ho]

theorem exec_xfQuant_control (hf : (xfWord (s.tile t)).1 = 1) (ho : ((s.tile t).unit 0).lanes = []) :
    exec (.xfQuant t) s = .next (xfControl s g t b) := by
  have h2 : ¬ b.kind ≤ 2 := by omega
  have hl : blockLen (xfWord (s.tile t)).2.1 ≠ 0 := (blockLen_pos _).ne'
  change execXfQuant t s = _
  rw [execXfQuant, xfStep_of_fn hc hx hf]
  simp [hb, h2, ho, hl]

theorem exec_xfScale_control (hf : (xfWord (s.tile t)).1 = 2) : exec (.xfScale t) s = .next (xfControl s g t b) := by
  have h2 : ¬ b.kind ≤ 2 := by omega
  change execXfScale t s = _
  rw [execXfScale, xfStep_of_fn hc hx hf]
  simp [hb, h2]

theorem exec_xfBmap_control (hf : (xfWord (s.tile t)).1 = 3) (ho : ceilDiv (bitmapWords (xfWord (s.tile t)).2.2.2.2) 8 ≤ ((s.tile t).unit 0).pos
      ∨ (b.kind = 4 ∧ ((s.tile t).unit 0).pending = false)) :
    exec (.xfBmap t) s = .next (xfControl (s.onTile t fun T => T.onUnit 0 fun U =>
      if b.kind = 3 then { U with entries := [] } else { U with entries := [], pos := 0, pending := false }) g t b) := by
  have h2 : ¬ b.kind ≤ 2 := by omega
  have hwords : ¬ (decide (((s.tile t).unit 0).pos < ceilDiv (bitmapWords (xfWord (s.tile t)).2.2.2.2) 8)
      && (decide (b.kind = 3) || ((s.tile t).unit 0).pending)) = true := by
    rcases ho with h | ⟨h, hp⟩
    · simp [Nat.not_lt.2 h]
    · simp [h, hp]
  change execXfBmap t s = _
  rw [execXfBmap, xfStep_of_fn hc hx hf, hb]
  exact congrArg _ ((if_neg h2).trans (if_neg hwords))

end
end
end

/-- The state in which a control token passes a transform node of a function: a bitmap's coordinates are gone. -/
def xfCleared (s : State) (t fn kind : Nat) : State :=
  if fn = 3 then s.onTile t fun T => T.onUnit 0 fun U =>
    if kind = 3 then { U with entries := [] } else { U with entries := [], pos := 0, pending := false } else s

theorem exec_xf_control {s : State} {t r : Nat} {g : Region} {b : Beat} {i : Instr} (hc : s.unitCan t 0 r g) (hx : (s.tile t).isXf = true)
    (hb : (s.tile t).inHead 0 = some b) (hk : 3 ≤ b.kind)
    (hi : (i, (xfWord (s.tile t)).1) ∈ [(Instr.xfTpose t, 0), (.xfQuant t, 1), (.xfScale t, 2), (.xfBmap t, 3)])
    (h0 : (xfWord (s.tile t)).1 = 0 → ((s.tile t).unit 0).group = []) (h1 : (xfWord (s.tile t)).1 = 1 → ((s.tile t).unit 0).lanes = [])
    (h3 : (xfWord (s.tile t)).1 = 3 → ceilDiv (bitmapWords (xfWord (s.tile t)).2.2.2.2) 8 ≤ ((s.tile t).unit 0).pos
      ∨ (b.kind = 4 ∧ ((s.tile t).unit 0).pending = false)) :
    exec i s = .next (xfControl (xfCleared s t (xfWord (s.tile t)).1 b.kind) g t b) := by
  simp only [List.mem_cons, Prod.mk.injEq, List.not_mem_nil, or_false] at hi
  rcases hi with ⟨rfl, hf⟩ | ⟨rfl, hf⟩ | ⟨rfl, hf⟩ | ⟨rfl, hf⟩
  · rw [exec_xfTpose_control hc hx hb hk hf (h0 hf), hf]
    rfl
  · rw [exec_xfQuant_control hc hx hb hk hf (h1 hf), hf]
    rfl
  · rw [exec_xfScale_control hc hx hb hk hf, hf]
    rfl
  · rw [exec_xfBmap_control hc hx hb hk hf (h3 hf), hf]
    rfl

theorem xfControl_stop {s : State} {g : Region} {t : Nat} {b : Beat} (h : b.kind = 3) :
    xfControl s g t b = s.onTile t fun T => ((T.sendStop g.ctx 0 b.stop).popIn 0).onUnit 0 fun U => { U with pos := 0, pending := false } := if_pos h

theorem xfControl_done {s : State} {g : Region} {t : Nat} {b : Beat} (h : b.kind = 4) :
    xfControl s g t b = (s.takeAll t [0]).endUnit t 0 g.ctx 4 0 := by
  simp [xfControl, h]

/-! #### The end of a stream (R162, R192) -/

theorem tile_takeAll (s : State) (t : Nat) (cs : List Nat) : (s.takeAll t cs).tile t = cs.foldl Tile.takeToken (s.tile t) := by
  unfold State.takeAll
  dsimp only
  split <;> exact s.tile_onTile t fun T => cs.foldl Tile.takeToken T

theorem mem_takeAll (s : State) (t : Nat) (cs : List Nat) : (s.takeAll t cs).mem = s.mem := by
  unfold State.takeAll
  dsimp only
  split <;> rfl

/-- A unit that has ended its stream: the token is the last beat of its main outputs, and nothing is gathered. -/
theorem endUnit_tile (s : State) (t u ctx kind tag : Nat) :
    let T := s.tile t
    let U := (s.endUnit t u ctx kind tag).tile t
    U.inq = T.inq ∧ (∀ c ∈ T.mainOutputs u, (U.outQ c).beats.getLast? = some (.control kind 0 ctx tag))
      ∧ (U.unit u).group = [] ∧ (U.unit u).entries = [] ∧ (U.unit u).ended = true := by
  intro T U
  have hd := Tile.emitsFrom_drainUnit T ctx s.time u
  obtain ⟨hframe, -⟩ := hd.trans (Tile.emitsFrom_sendEnd _ ctx u kind tag)
  have hsent : (s.onTile t fun T => (T.drainUnit ctx s.time u).sendEnd ctx u kind tag).tile t
      = (T.drainUnit ctx s.time u).sendEnd ctx u kind tag := s.tile_onTile t _
  obtain ⟨f, hf, hg, he, hn⟩ : ∃ f : UState → UState, U = ((T.drainUnit ctx s.time u).sendEnd ctx u kind tag).onUnit u f
      ∧ (∀ V, (f V).group = []) ∧ (∀ V, (f V).entries = []) ∧ ∀ V, (f V).ended = true := by
    refine ⟨_, (State.tile_onTile _ t _).trans (congrArg (fun X : Tile => X.onUnit u _) hsent), ?_⟩
    exact ⟨fun _ => rfl, fun _ => rfl, fun _ => rfl⟩
  refine ⟨(congrArg Tile.inq hf).trans (congrArg Tile.inq hframe :), fun c hc => ?_, ?_⟩
  · rw [← hd.mainOutputs] at hc
    have hq : U.outQ c = ((T.drainUnit ctx s.time u).sendEnd ctx u kind tag).outQ c := by rw [hf]; rfl
    rw [hq]
    exact Tile.lastOut_sendEnd ctx kind tag hc
  · rw [hf, Tile.unit_onUnit]
    exact ⟨hg _, he _, hn _⟩

theorem mem_endUnit (s : State) (t u ctx kind tag : Nat) : (s.endUnit t u ctx kind tag).mem = s.mem := rfl

/-- DONE goes through a transform node: it is taken from the input, and ends the stream of every output (R162, R191). -/
theorem xfDone_tile {s : State} {g : Region} {t fn : Nat} {b : Beat} (hb : (s.tile t).inHead 0 = some b) (hk : b.kind = 4) :
    let v := xfControl (xfCleared s t fn b.kind) g t b
    (v.tile t).inQ 0 = ⟨((s.tile t).inQ 0).beats.drop 1, 0⟩
      ∧ (∀ c ∈ (s.tile t).mainOutputs 0, ((v.tile t).outQ c).beats.getLast? = some (.control 4 0 g.ctx 0))
      ∧ ((v.tile t).unit 0).group = [] ∧ ((v.tile t).unit 0).entries = [] ∧ ((v.tile t).unit 0).ended = true ∧ v.mem = s.mem := by
  obtain ⟨u, hu, hmem, hin, hout⟩ : ∃ u, xfCleared s t fn b.kind = u ∧ u.mem = s.mem ∧ (u.tile t).inq = (s.tile t).inq
      ∧ (u.tile t).mainOutputs 0 = (s.tile t).mainOutputs 0 := by
    refine ⟨_, rfl, ?_⟩
    unfold xfCleared
    split
    · rw [State.tile_onTile]
      refine ⟨rfl, rfl, (Tile.emitsFrom_onUnit (u := 0) (s.tile t) ?_).mainOutputs⟩
      split <;> rfl
    · exact ⟨rfl, rfl, rfl⟩
  rw [hu, xfControl_done hk]
  have hpop : ((u.takeAll t [0]).tile t) = (u.tile t).popIn 0 := by
    have hub : (u.tile t).inHead 0 = some b := by rw [Tile.inHead, Tile.inQ, hin]; exact hb
    rw [tile_takeAll]
    exact Tile.takeToken_of_control hub (by omega)
  obtain ⟨hinq, hlast, hgroup, hentries, hended⟩ := endUnit_tile (u.takeAll t [0]) t 0 g.ctx 4 0
  rw [hpop] at hinq hlast
  refine ⟨?_, fun c hc => hlast c (hout ▸ hc), hgroup, hentries, hended, (mem_endUnit ..).trans ((mem_takeAll ..).trans hmem)⟩
  have hq : (u.tile t).inQ 0 = (s.tile t).inQ 0 := by rw [Tile.inQ, hin, Tile.inQ]
  rw [Tile.inQ, hinq, ← hq]
  exact (Tile.inQ_setInQ (u.tile t) 0 0 _).trans (if_pos rfl)

theorem isControl_of_waits {T : Tile} (h : ∃ b, T.inHead 0 = some b ∧ 3 ≤ b.kind) : isControl (T.inHead 0) = true := by
  obtain ⟨b, hb, hk⟩ := h
  rw [hb]
  exact decide_eq_true hk

/-- Settles O42: a transform node by its function, and by what it has gathered and what waits at its input. -/
theorem transformNodes : Obligations.TransformNodes := by
  intro s t r g T U xf L W closing sends hc hx
  refine ⟨?data, fun hf hn hw => exec_xfTpose_leaves hc hx hf hn (hw.imp_right isControl_of_waits), ?block, ?words, ?control⟩
  case data =>
    intro b hb hk xs
    refine ⟨fun hf hn => exec_xfTpose_data hc hx hb hk hf hn, fun hf hn => exec_xfQuant_data hc hx hb hk hf hn,
      fun hf => exec_xfScale_data hc hx hb hk hf, fun hf => ?_⟩
    obtain ⟨v, hv, hmem, htiles⟩ := exec_xfBmap_data hc hx hb hk hf
    have htile (x : Nat) : v.tile x = (s.onTile t _).tile x := congrArg (fun ts => (tabGet x ts).getD Tile.reset) htiles
    have hunit : (v.tile t).unit 0 = { U with
        entries := U.entries ++ ((xs.map BitVec.toNat).filter (· < xf.2.2.2.2)).map fun c => (c, 0)
        pending := true } := by
      rw [htile, State.tile_onTile, Tile.unit_onUnit]
      rfl
    exact ⟨v, hv, by rw [hunit], hmem, fun u hu => (htile u).trans (State.tile_onTile_of_ne hu.symm s _), by rw [hunit]⟩
  case block =>
    intro hf hn hw draws block
    exact exec_xfQuant_leaves (F := xf.2.1) (rm := xf.2.2.1) (sat := xf.2.2.2.1) (imm := xf.2.2.2.2) hc hx (Prod.ext hf rfl) hn
      (hw.imp_right isControl_of_waits) rfl rfl
  case words =>
    rintro hf ⟨b, hb, hk⟩ hp ho ws
    refine exec_xfBmap_leaves hc hx hf hb hk hp (ho.imp_right fun h => ?_)
    rw [hb] at h
    exact Option.some.inj h
  case control =>
    intro b i hb hi h0 h1 h3
    refine ⟨?stop, fun hk => ?done⟩
    case stop =>
      intro hk cleared
      have hcleared : xfCleared s t xf.1 b.kind = cleared := by simp only [xfCleared, hk, if_true, cleared]
      rw [exec_xf_control hc hx hb (by omega) hi h0 h1 h3, xfControl_stop hk]
      exact congrArg (fun v : State => Host.Outcome.next (v.onTile t _)) hcleared
    case done => exact ⟨_, exec_xf_control hc hx hb (by omega) hi h0 h1 h3, xfDone_tile hb hk⟩

end Sys2Proof.Machine
end

section
/-! O44, its reissue: no function that a region which goes on calls touches an engine, as the tables of the dies have them. -/

namespace Sys2Proof.Machine

/-- The engines of the dies, as a state has them. -/
def State.enginesAre (s : State) (l : List (Tab Engine)) : Prop := s.dies.map Die.engines = l

/-- An outcome that leaves a state, leaves one with these engines. -/
def SomeEnginesAre (o : Option State) (l : List (Tab Engine)) : Prop := ∀ t ∈ o, t.enginesAre l

section
variable {α : Type} {c : Prop} [Decidable c] {s : State} {l : List (Tab Engine)}

theorem enginesAre_of_dies {t : State} (hs : s.enginesAre l) (e : t.dies = s.dies) : t.enginesAre l :=
  (congrArg (List.map Die.engines) e).trans hs

theorem enginesAre_ite {a b : State} (ha : a.enginesAre l) (hb : b.enginesAre l) : (if c then a else b).enginesAre l := by
  split <;> assumption

theorem enginesAre_foldl {f : State → α → State} {xs : List α} (hf : ∀ s a, s.enginesAre l → (f s a).enginesAre l)
    (hs : s.enginesAre l) : (xs.foldl f s).enginesAre l :=
  List.foldlRecOn xs f hs fun s hs a _ => hf s a hs

theorem enginesAre_fst {p : State × α} {a : α} (e : p = (s, a)) (h : p.1.enginesAre l) : s.enginesAre l := by
  subst e; exact h

theorem enginesAre_getD {o : Option State} (ho : SomeEnginesAre o l) (hs : s.enginesAre l) : (o.getD s).enginesAre l := by
  cases o with
  | none => exact hs
  | some t => exact ho t rfl

theorem someEnginesAre_some (hs : s.enginesAre l) : SomeEnginesAre (some s) l := by
  rintro _ ⟨⟩
  exact hs

end

section
variable {s : State} {l : List (Tab Engine)}

theorem State.engine_of_enginesAre {t : State} (hs : s.enginesAre l) (ht : t.enginesAre l) (d e c : Nat) : t.engine d e c = s.engine d e c := by
  have h : (t.die d).engines = (s.die d).engines := by
    simpa only [State.die, List.getD_map] using congrArg (·.getD d Die.reset.engines) (ht.trans hs.symm)
  rw [State.engine, State.engine, h]

namespace State

theorem onDie_enginesAre {d : Nat} {f : Die → Die} (hf : ∀ D, (f D).engines = D.engines) (hs : s.enginesAre l) : (s.onDie d f).enginesAre l := by
  refine Eq.trans (List.ext_getElem? fun i => ?_) hs
  simp only [onDie, List.getElem?_map, List.getElem?_modify, Option.map_eq_map, Option.map_map]
  refine congrArg (fun g => Option.map g s.dies[i]?) (funext fun D => ?_)
  rw [Function.comp_apply]
  split
  · exact hf D
  · rfl

theorem count_enginesAre {d e} (hs : s.enginesAre l) : (s.count d e).enginesAre l := onDie_enginesAre (fun _ => rfl) hs

theorem onRegion_enginesAre {r f} (hs : s.enginesAre l) : (s.onRegion r f).enginesAre l := by
  unfold onRegion
  split <;> exact hs

theorem onTask_enginesAre {h f} (hs : s.enginesAre l) : (s.onTask h f).enginesAre l := by
  unfold onTask
  split <;> exact hs

/-! Physical writes, and the end of an interval. -/

theorem physWrite_enginesAre {cmp cells} (hs : s.enginesAre l) : SomeEnginesAre (s.physWrite cmp cells) l := by
  unfold physWrite
  split
  · exact someEnginesAre_some hs
  · extract_lets +onlyGivenNames _
    split
    · split
      · exact nofun
      · exact someEnginesAre_some (enginesAre_of_dies hs rfl)
    · exact someEnginesAre_some (enginesAre_of_dies hs rfl)

theorem homeWrite_enginesAre {cells} (hs : s.enginesAre l) : (s.homeWrite cells).enginesAre l :=
  enginesAre_getD (physWrite_enginesAre hs) hs

theorem withTrees_enginesAre {ts} (hs : s.enginesAre l) : State.enginesAre { s with trees := ts } l :=
  hs

theorem mirror_enginesAre {d tr} (hs : s.enginesAre l) : (s.mirror d tr).enginesAre l :=
  withTrees_enginesAre (homeWrite_enginesAre hs)

theorem unreserve_enginesAre {buf} (hs : s.enginesAre l) : (s.unreserve buf).enginesAre l := by
  unfold unreserve
  refine enginesAre_foldl (fun s _ h => ?_) hs
  split
  · split
    · exact mirror_enginesAre h
    · exact h
  · exact h

theorem discard_enginesAre {r} (hs : s.enginesAre l) : (s.discard r).enginesAre l := by
  unfold discard
  split
  · exact hs
  · exact unreserve_enginesAre hs

theorem clearTiles_enginesAre {g} (hs : s.enginesAre l) : (s.clearTiles g).enginesAre l :=
  enginesAre_foldl (fun _ _ h => h) hs

theorem enterArgument_enginesAre {r} (hs : s.enginesAre l) : (s.enterArgument r).enginesAre l := by
  unfold enterArgument
  split <;> exact hs

theorem reload_enginesAre {r} (hs : s.enginesAre l) : (s.reload r).enginesAre l := by
  unfold reload
  split
  · exact hs
  · extract_lets +onlyGivenNames s₁
    exact (enginesAre_foldl (fun _ _ h => h) hs : s₁.enginesAre l)

theorem replay_enginesAre {r} (hs : s.enginesAre l) : (s.replay r).enginesAre l := by
  unfold replay
  split
  · exact hs
  · extract_lets +onlyGivenNames _ s₂ _
    have h : s₂.enginesAre l := count_enginesAre (onTask_enginesAre (clearTiles_enginesAre (discard_enginesAre hs)))
    exact enginesAre_ite (enterArgument_enginesAre (onRegion_enginesAre h)) (reload_enginesAre (onRegion_enginesAre h))

/-! Faults and accesses. -/

theorem post_enginesAre {p c f frz repl event lseq hdl w6} (hs : s.enginesAre l) : (s.post p c f frz repl event lseq hdl w6).enginesAre l :=
  enginesAre_ite hs (onDie_enginesAre (fun _ => rfl) hs)

theorem raise_enginesAre {p f} (hs : s.enginesAre l) : (s.raise p f).enginesAre l := by
  unfold raise
  split
  · exact hs
  · refine enginesAre_ite (replay_enginesAre hs) ?_
    extract_lets +onlyGivenNames _ _ _ s₂
    have h : s₂.enginesAre l := enginesAre_ite (count_enginesAre (post_enginesAre hs)) (post_enginesAre hs)
    exact enginesAre_ite h h

theorem touch_enginesAre {p c va pa} (hs : s.enginesAre l) : (s.touch p c va pa).enginesAre l := by
  unfold touch
  have h {f : Die → Die} (hf : ∀ D, (f D).engines = D.engines) := onDie_enginesAre (d := dieOf p.t) hf hs
  exact enginesAre_ite (enginesAre_ite (count_enginesAre (post_enginesAre (h fun _ => rfl))) (h fun _ => rfl))
    (enginesAre_ite hs (enginesAre_ite (h fun _ => rfl) hs))

theorem touchHere_enginesAre {p c va pa} (hs : s.enginesAre l) : (s.touchHere p c va pa).enginesAre l :=
  enginesAre_ite hs (touch_enginesAre hs)

theorem addLeaf_enginesAre {d i e} (hs : s.enginesAre l) : (s.addLeaf d i e).enginesAre l := by
  unfold addLeaf
  split <;> exact onDie_enginesAre (fun _ => rfl) hs

theorem xlate_enginesAre {d i c va k} (hs : s.enginesAre l) : (s.xlate d i c va k).1.enginesAre l := by
  unfold xlate
  split
  · exact hs
  · extract_lets +onlyGivenNames d'
    split
    next ps _ =>
      have h (d) : (((s.count d .tlbMiss).count d .walkMade).onDie d fun D => { D with ptrs := D.ptrs ++ ps }).enginesAre l :=
        onDie_enginesAre (fun _ => rfl) (count_enginesAre (count_enginesAre hs))
      extract_lets +onlyGivenNames s₁
      split
      · exact addLeaf_enginesAre (h _)
      · exact h _

theorem noteCmp_enginesAre {q} (hs : s.enginesAre l) : (s.noteCmp q).enginesAre l :=
  enginesAre_ite hs hs

theorem page_enginesAre {p i c va w} (hs : s.enginesAre l) : (s.page p i c va w).1.enginesAre l := by
  unfold page
  split
  next e => exact enginesAre_fst e (xlate_enginesAre hs)
  next e =>
    have h := enginesAre_fst e (xlate_enginesAre hs)
    split
    · exact h
    · split
      · exact noteCmp_enginesAre h
      · exact h

/-! Deferred loads, restored waits and requests made again. -/

theorem finish_enginesAre {t op v} (hs : s.enginesAre l) : (s.finish t op v).enginesAre l := by
  unfold finish
  extract_lets +onlyGivenNames s₁
  split
  · split
    · exact enginesAre_ite hs hs
    · exact hs
  · exact hs

theorem wake_enginesAre {d} (hs : s.enginesAre l) : (s.wake d).enginesAre l := by
  unfold wake
  refine enginesAre_ite hs ?_
  split
  · exact hs
  · exact enginesAre_ite hs (raise_enginesAre (count_enginesAre hs))

theorem reissuePld_enginesAre {d} (hs : s.enginesAre l) : (s.reissuePld d).enginesAre l := by
  unfold reissuePld
  split
  next e => exact raise_enginesAre (enginesAre_fst e (page_enginesAre hs))
  next e =>
    have h := enginesAre_fst e (page_enginesAre hs)
    extract_lets +onlyGivenNames _
    split
    · exact raise_enginesAre h
    · exact enginesAre_ite (touch_enginesAre h) (wake_enginesAre (touch_enginesAre h))

theorem reissuePlds_enginesAre {g} (hs : s.enginesAre l) : (s.reissuePlds g).enginesAre l := by
  unfold reissuePlds
  refine enginesAre_foldl (fun s _ h => ?_) hs
  split
  · exact reissuePld_enginesAre h
  · exact enginesAre_ite (wake_enginesAre (touch_enginesAre h)) h

theorem mendBlock_enginesAre {pa} (hs : s.enginesAre l) : (s.mendBlock pa).enginesAre l :=
  enginesAre_ite hs (enginesAre_getD (physWrite_enginesAre hs) hs)

theorem mendSync_enginesAre {pa} (hs : s.enginesAre l) : (s.mendSync pa).enginesAre l :=
  homeWrite_enginesAre <| mendBlock_enginesAre (enginesAre_foldl (fun _ _ => finish_enginesAre) hs)

theorem evaluate_enginesAre {e} (hs : s.enginesAre l) : (s.evaluate e).enginesAre l := by
  unfold evaluate
  split
  · exact enginesAre_ite (finish_enginesAre hs) (enginesAre_ite (finish_enginesAre hs) (enginesAre_ite (finish_enginesAre hs)
      (enginesAre_ite hs hs)))
  · exact hs

theorem reissueWait_enginesAre {a} (hs : s.enginesAre l) : (s.reissueWait a).enginesAre l := by
  unfold reissueWait
  extract_lets +onlyGivenNames _ _
  split
  next e => exact enginesAre_ite (finish_enginesAre hs) (raise_enginesAre (enginesAre_fst e (page_enginesAre hs)))
  next e =>
    have h := enginesAre_fst e (page_enginesAre hs)
    refine enginesAre_ite h ?_
    split
    · exact raise_enginesAre h
    · have h' {p c va pa armed} := touch_enginesAre (s := { (_ : State) with armed := armed }) (p := p) (c := c) (va := va) (pa := pa) h
      exact enginesAre_ite (finish_enginesAre h') (enginesAre_ite (mendSync_enginesAre (finish_enginesAre h')) (evaluate_enginesAre h'))

theorem writeEntry_enginesAre {cmp cells} (hs : s.enginesAre l) : (s.writeEntry cmp cells).enginesAre l :=
  enginesAre_getD (physWrite_enginesAre hs) hs

theorem entryCells_enginesAre {e cmd pa cells} (hs : s.enginesAre l) : (s.entryCells e cmd pa cells).2.enginesAre l := by
  change (s.takeEntry e pa cells).2.enginesAre l
  unfold takeEntry
  split
  · exact hs
  · split <;> exact hs

theorem enterNode_enginesAre {level scope e} (hs : s.enginesAre l) : (s.enterNode level scope e).enginesAre l := by
  unfold enterNode
  extract_lets +onlyGivenNames _ _
  split
  · exact enginesAre_ite hs hs
  · exact hs

theorem remoteAnswer_enginesAre {e} (hs : s.enginesAre l) : (s.remoteAnswer e).enginesAre l := by
  unfold remoteAnswer
  split
  · exact enginesAre_foldl (fun _ _ h => finish_enginesAre h) hs
  · exact enginesAre_foldl (fun _ _ => finish_enginesAre) hs
  · exact finish_enginesAre hs
  · exact finish_enginesAre hs
  next cmd _ _ _ _ _ =>
    exact finish_enginesAre (writeEntry_enginesAre (writeEntry_enginesAre (entryCells_enginesAre (cmd := cmd) hs)))

theorem askAgain_enginesAre {e} (hs : s.enginesAre l) : (s.askAgain e).1.enginesAre l := by
  unfold askAgain
  extract_lets +onlyGivenNames _
  split
  next e => exact enginesAre_fst e (page_enginesAre hs)
  next e =>
    have h := enginesAre_fst e (page_enginesAre hs)
    split
    · exact h
    · split
      next e => exact enginesAre_fst e (page_enginesAre h)
      next e => exact enginesAre_fst e (page_enginesAre h)
    · exact h

theorem reissueAsk_enginesAre {e} (hs : s.enginesAre l) : (s.reissueAsk e).enginesAre l := by
  unfold reissueAsk
  split
  next e => exact raise_enginesAre (enginesAre_fst e (askAgain_enginesAre hs))
  next e =>
    have h := enginesAre_fst e (askAgain_enginesAre hs)
    exact enginesAre_ite (enterNode_enginesAre (touchHere_enginesAre h)) (enginesAre_ite h (enginesAre_ite
      (remoteAnswer_enginesAre (touch_enginesAre h)) (touch_enginesAre h)))

theorem reissueAll_enginesAre {r} (hs : s.enginesAre l) : (s.reissueAll r).enginesAre l := by
  unfold reissueAll
  split
  · exact hs
  · exact enginesAre_ite hs (enginesAre_foldl (fun _ _ => reissueAsk_enginesAre) (enginesAre_foldl (fun _ _ => reissueWait_enginesAre)
      (reissuePlds_enginesAre hs)))

end State

end

end Sys2Proof.Machine
end

section
/-! O44, queues: what a delivery of an A2A, and a look at its queue, do with the slot that they find (R247). -/

namespace Sys2Proof.Machine

/-- An engine with this command as its current one. -/
def State.withCur (s : State) (d e c : Nat) (k : EngCmd) : State := s.setEngine d e c { s.engine d e c with cur := some k }

section
variable {s s₁ : State} {d e c dest desc pa : Nat} {k : EngCmd} {bs : List Byte}
  (hcur : (s.engine d e c).cur = some k) (hstop : (s.engine d e c).stopped = none)
include hcur hstop

section
variable (hgo : (k.fn != 3 || !k.started || k.held || decide (k.field 192 32 ≤ k.prog)) = false)
include hgo

theorem exec_a2aDelivery_of_room {a w : Nat} {s₂ : State} (hw : w < 8)
    (hslot : a2aSlot s d e c k = (s₁, .ok (dest, desc, pa, bs, some (a, w))))
    (hput : (s₁.touch (State.engineSite d e) c desc pa).writeRun (State.engineSite d e) c k.issuer a bs = (s₂, none)) :
    exec (.a2aDelivery d e c) s = .next
      ((s₂.syncWrite (pa + 8 * w) 64 ((queueField s₂ pa w + 1) % 2 ^ 64)).withCur d e c { k with prog := k.prog + 1 }) := by
  change execA2aDelivery d e c s = _
  simp only [execA2aDelivery, hcur, hstop, hgo, hslot, Bool.false_eq_true, if_false]
  split
  next h => cases h
  next h => cases h; omega
  next h =>
    cases h
    simp only [hput]
    rfl

theorem exec_a2aDelivery_of_remote {a : Nat} (hslot : a2aSlot s d e c k = (s₁, .ok (dest, desc, pa, bs, some (a, 8)))) :
    exec (.a2aDelivery d e c) s = .next ((s₁.touch (State.engineSite d e) c desc pa).withCur d e c { k with prog := k.prog + 1 }) := by
  change execA2aDelivery d e c s = _
  simp only [execA2aDelivery, hcur, hstop, hgo, hslot]
  rfl

theorem exec_a2aDelivery_of_full (hslot : a2aSlot s d e c k = (s₁, .ok (dest, desc, pa, bs, none))) (hq : k.qovf = true) :
    exec (.a2aDelivery d e c) s
      = .next ((s₁.touch (State.engineSite d e) c desc pa).withCur d e c { k with held := true, qovf := true }) := by
  change execA2aDelivery d e c s = _
  simp only [execA2aDelivery, hcur, hstop, hgo, hslot, if_pos hq]
  rfl

end

theorem exec_a2aResume_of_room {x : Nat × Nat} (hgo : (decide (k.fn = 3) && k.held) = true)
    (hslot : a2aSlot s d e c k = (s₁, .ok (dest, desc, pa, bs, some x))) :
    exec (.a2aResume d e c) s = .next ((s₁.touch (State.engineSite d e) c desc pa).withCur d e c { k with held := false }) := by
  change execA2aResume d e c s = _
  simp only [execA2aResume, hcur, hstop, hgo, hslot]
  rfl

end

end Sys2Proof.Machine
end

section
/-! O44, collectives: the members of a group of this package, and what a match gives each of them (R248). -/

namespace Sys2Proof.Machine

/-- The members of a group in this package that have their COLL running: die, engine and command. -/
def State.membersHere (s : State) (c : Nat) (k : EngCmd) (ms : List (Nat × Nat)) : List (Nat × Nat × EngCmd) :=
  (ms.map fun m => if m.1 == s.fleet.pkg.toNat then (s.memberCmd m.2 c (k.field 64 64) k.ord).map fun x => (m.2, x.1, x.2) else none).filterMap id

/-- A member's command that agrees with another one of its group: operation, count, type and fold, root. -/
def EngCmd.agrees (k m : EngCmd) : Bool :=
  m.aop == k.aop && m.field 256 32 == k.field 256 32 && m.field 288 8 == k.field 288 8 && m.field 312 16 == k.field 312 16

/-- A member's command with its result, formed by its rank of what the members of its group have sent. -/
def EngCmd.served (m k : EngCmd) (rank : Nat) (sends : List (List Byte)) : EngCmd :=
  { m with
    out := collResult k.aop (k.field 288 5) (k.field 293 3) (k.field 256 32) (k.field 312 16) rank sends
    held := true }

/-- How many bytes a member of a collective sends. -/
def EngCmd.sendLen (k : EngCmd) : Nat := k.field 256 32 * (Spec.tyWidth (k.field 288 5) / 8)

/-- A pair whose second member has not come. -/
theorem membersHere_pair_lt {s : State} {c d d' : Nat} {k : EngCmd} (h : s.memberCmd d' c (k.field 64 64) k.ord = none) :
    (s.membersHere c k [(s.fleet.pkg.toNat, d), (s.fleet.pkg.toNat, d')]).length
      < ([(s.fleet.pkg.toNat, d), (s.fleet.pkg.toNat, d')].filter fun m => m.1 == s.fleet.pkg.toNat).length := by
  cases hd : s.memberCmd d c (k.field 64 64) k.ord with
  | none => simp [State.membersHere, h, hd]
  | some _ => simp [State.membersHere, h, hd]

/-- What the member of a rank sends, and the fault that its read meets: nothing, when the rank is not the root of a broadcast. -/
def State.gatherStep (c : Nat) (k : EngCmd) (q : State × List (List Byte) × Option (Nat × Nat × EngCmd × Flt))
    (x : Option (Nat × Nat × EngCmd) × Nat) : State × List (List Byte) × Option (Nat × Nat × EngCmd × Flt) :=
  if k.aop = 0 && x.2 != k.field 312 16 then (q.1, q.2.1 ++ [[]], q.2.2)
  else match x.1 with
  | none => let (bs, s) := q.1.remoteRead remoteBase k.sendLen; (s, q.2.1 ++ [bs], q.2.2)
  | some (md, me, m) =>
    match q.1.readRun (State.engineSite md me) c (q.1.bufferOf m) (m.field 128 64) k.sendLen with
    | (s, .ok bs) => (s, q.2.1 ++ [bs], q.2.2)
    | (s, .error f) => (s, q.2.1 ++ [[]], some (md, me, m, f))

/-- What the members of a group send, in the order of their ranks. -/
def State.gather (s : State) (c : Nat) (k : EngCmd) (ranked : List (Option (Nat × Nat × EngCmd))) :
    State × List (List Byte) × Option (Nat × Nat × EngCmd × Flt) :=
  ranked.zipIdx.foldl (State.gatherStep c k) (s, [], none)

/-- What a group does with what its members have sent: a fault stops the member that met it, or each one gets its result. -/
def State.serveMembers (c : Nat) (k : EngCmd) (here : List (Nat × Nat × EngCmd))
    (q : State × List (List Byte) × Option (Nat × Nat × EngCmd × Flt)) : State :=
  match q.2.2 with
  | some (md, me, m, f) => q.1.stopEngine md me c m f m.prog
  | none => here.foldl (fun s x => s.withCur x.1 x.2.1 c (x.2.2.served k (x.2.2.field 296 16) q.2.1)) q.1

section
variable {s s₁ : State} {d e c : Nat} {k : EngCmd} (hcur : (s.engine d e c).cur = some k) (hstop : (s.engine d e c).stopped = none)
  (hgo : (k.fn != 4 || !k.started || k.held) = false)
include hcur hstop hgo

theorem exec_collMatch_of_missing {ms : List (Nat × Nat)} (hg : groupOf s d e c k = (s₁, .ok ms))
    (hm : (s₁.membersHere c k ms).length < (ms.filter fun m => m.1 == s₁.fleet.pkg.toNat).length) :
    exec (.collMatch d e c) s = .next s := by
  change execCollMatch d e c s = _
  simp only [execCollMatch, hcur, hstop, hgo, hg, Bool.false_eq_true, if_false]
  exact congrArg _ (if_pos (bne_iff_ne.2 hm.ne'))

/-- A match whose members disagree refuses each of them. -/
theorem exec_collMatch_of_disagreement {ms : List (Nat × Nat)} {here : List (Nat × Nat × EngCmd)} (hg : groupOf s d e c k = (s₁, .ok ms))
    (hm : s₁.membersHere c k ms = here) (hn : (ms.filter fun m => m.1 == s₁.fleet.pkg.toNat).length = here.length)
    (ha : here.all (fun x => k.agrees x.2.2) = false) :
    exec (.collMatch d e c) s
      = .next (here.foldl (fun s x => s.stopEngine x.1 x.2.1 c x.2.2 (.prot (k.field 64 64) 6) x.2.2.prog) s₁) := by
  subst hm
  change execCollMatch d e c s = _
  simp only [execCollMatch, hcur, hstop, hgo, hg, Bool.false_eq_true, if_false]
  exact congrArg _ ((if_neg (ne_true_of_eq_false (bne_eq_false_iff_eq.2 hn))).trans (if_pos (congrArg not ha)))

/-- A match of members that agree gives each one its result of what they have sent. -/
theorem exec_collMatch_of_sends {ms : List (Nat × Nat)} {here : List (Nat × Nat × EngCmd)} {s₂ : State} {sends : List (List Byte)}
    (hg : groupOf s d e c k = (s₁, .ok ms)) (hm : s₁.membersHere c k ms = here)
    (hn : (ms.filter fun m => m.1 == s₁.fleet.pkg.toNat).length = here.length) (ha : here.all (fun x => k.agrees x.2.2) = true)
    (hs : s₁.gather c k ((List.range ms.length).map fun r => here.find? fun x => x.2.2.field 296 16 == r) = (s₂, sends, none)) :
    exec (.collMatch d e c) s
      = .next (here.foldl (fun s x => s.withCur x.1 x.2.1 c (x.2.2.served k (x.2.2.field 296 16) sends)) s₂) := by
  subst hm
  change execCollMatch d e c s = _
  simp only [execCollMatch, hcur, hstop, hgo, hg, Bool.false_eq_true, if_false]
  exact congrArg _ ((if_neg (ne_true_of_eq_false (bne_eq_false_iff_eq.2 hn))).trans ((if_neg (ne_true_of_eq_false (congrArg not ha))).trans
    (congrArg (State.serveMembers c k (s₁.membersHere c k ms)) hs)))

section
variable (hg : groupOf s d e c k = (s₁, .ok [(s₁.fleet.pkg.toNat, d)])) (hk : s₁.memberCmd d c (k.field 64 64) k.ord = some (e, k))
include hg hk

/-- A group of one: its member's result is of its own data. -/
theorem exec_collMatch_alone {s₂ : State} {bs : List Byte} (hroot : k.aop = 0 → k.field 312 16 = 0) (hrank : k.field 296 16 = 0)
    (hread : s₁.readRun (State.engineSite d e) c (s₁.bufferOf k) (k.field 128 64) k.sendLen = (s₂, .ok bs)) :
    exec (.collMatch d e c) s = .next (s₂.withCur d e c (k.served k 0 [bs])) := by
  have hskip : (decide (k.aop = 0) && 0 != k.field 312 16) = false := by
    by_cases h0 : k.aop = 0
    · simp [hroot h0]
    · simp [h0]
  have hsends : s₁.gather c k [some (d, e, k)] = (s₂, [bs], none) := by
    simp [State.gather, State.gatherStep, hskip, hread]
  have := exec_collMatch_of_sends hcur hstop hgo hg (here := [(d, e, k)]) (by simp [State.membersHere, hk]) (by simp)
    (by simp [EngCmd.agrees]) (s₂ := s₂) (sends := [bs]) (by simpa [hrank] using hsends)
  rwa [List.foldl_cons, hrank] at this

end

section
variable {d' e' : Nat} {k' : EngCmd} (hg : groupOf s d e c k = (s₁, .ok [(s₁.fleet.pkg.toNat, d), (s₁.fleet.pkg.toNat, d')]))
  (hk : s₁.memberCmd d c (k.field 64 64) k.ord = some (e, k)) (hk' : s₁.memberCmd d' c (k.field 64 64) k.ord = some (e', k'))
include hg hk hk'

theorem exec_collMatch_pair_disagree (haop : k'.aop ≠ k.aop) :
    exec (.collMatch d e c) s = .next
      ((s₁.stopEngine d e c k (.prot (k.field 64 64) 6) k.prog).stopEngine d' e' c k' (.prot (k.field 64 64) 6) k'.prog) :=
  exec_collMatch_of_disagreement hcur hstop hgo hg (here := [(d, e, k), (d', e', k')]) (by simp [State.membersHere, hk, hk']) (by simp)
    (by simp [EngCmd.agrees, haop])

/-- Two members that agree: rank 0 is read first, and each gets its result of both sends. -/
theorem exec_collMatch_pair_agree {s₂ s₃ : State} {bs bs' : List Byte} (h0 : k.aop ≠ 0) (ha : k.agrees k' = true)
    (hrank : k.field 296 16 = 0) (hrank' : k'.field 296 16 = 1)
    (hread : s₁.readRun (State.engineSite d e) c (s₁.bufferOf k) (k.field 128 64) k.sendLen = (s₂, .ok bs))
    (hread' : s₂.readRun (State.engineSite d' e') c (s₂.bufferOf k') (k'.field 128 64) k.sendLen = (s₃, .ok bs')) :
    exec (.collMatch d e c) s = .next ((s₃.withCur d e c (k.served k 0 [bs, bs'])).withCur d' e' c (k'.served k 1 [bs, bs'])) := by
  have hsends : s₁.gather c k [some (d, e, k), some (d', e', k')] = (s₃, [bs, bs'], none) := by
    simp [State.gather, State.gatherStep, h0, hread, hread']
  have := exec_collMatch_of_sends hcur hstop hgo hg (here := [(d, e, k), (d', e', k')]) (by simp [State.membersHere, hk, hk']) (by simp)
    (by simpa [EngCmd.agrees] using ha) (s₂ := s₃) (sends := [bs, bs']) (by simpa [List.range_succ, hrank, hrank'] using hsends)
  rwa [List.foldl_cons, List.foldl_cons, hrank, hrank'] at this

end

end

end Sys2Proof.Machine
end

section
/-! O44, nodes: the units of a region that wait for nodes go on, or nothing happens, where no engine waits for any (R200). -/

namespace Sys2Proof.Machine

section
variable {s : State}

theorem reissueEngine_of_not_full {d e c : Nat} (h : (s.engine d e c).full = false) : s.reissueEngine d e c = s := by
  unfold State.reissueEngine
  extract_lets E
  split
  · exact if_pos (congrArg not h)
  · rfl

theorem foldl_reissueEngine_of_none_full (h : ∀ d e c, (s.engine d e c).full = false) (ds es cs : List Nat) :
    ds.foldl (fun s d => es.foldl (fun s e => cs.foldl (fun s c => s.reissueEngine d e c) s) s) s = s := by
  have hc (d e : Nat) : cs.foldl (fun s c => s.reissueEngine d e c) s = s := List.foldl_fixed' (fun c => reissueEngine_of_not_full (h d e c)) cs
  have he (d : Nat) : es.foldl (fun s e => cs.foldl (fun s c => s.reissueEngine d e c) s) s = s := List.foldl_fixed' (hc d) es
  exact List.foldl_fixed' he ds

variable {r : Nat} {g : Region} {x : LiveRecord} (hg : s.region? r = some g) (hx : g.records = [x])
include hg hx

/-- A region whose one record is answered thaws, unless a stop wave or a repair holds it. -/
theorem thawBy_of_singleton {p : LiveRecord → Bool} (hp : p x = true) :
    s.thawBy r p = s.setRegion r { g with records := [], frozen := g.stopWave || !g.repair.isEmpty } := by
  simp [State.thawBy, State.onRegion, hg, hx, hp]

variable (hfull : ∀ d e c, (s.engine d e c).full = false)
include hfull

theorem exec_idxfullReissue_of_free (hcode : x.code = 0x07) (h : s.nodesFree g.ctx x.va x.detail x.stores = true) :
    exec (.idxfullReissue r) s
      = .next ((s.setRegion r { g with records := [], frozen := g.stopWave || !g.repair.isEmpty }).reissueAll r) := by
  have hdone : (x.code == 0x07 && s.nodesFree g.ctx x.va x.detail x.stores) = true := by simp [hcode, h]
  have hnone := fun d e c => (congrArg Engine.full (State.engine_of_enginesAre (s := s) rfl (State.reissueAll_enginesAre (r := r)
    (s := s.setRegion r { g with records := [], frozen := g.stopWave || !g.repair.isEmpty }) rfl) d e c)).trans (hfull d e c)
  change execIdxfullReissue r s = _
  simp only [execIdxfullReissue, hg, hx, List.any_cons, hdone, Bool.true_or, if_true,
    thawBy_of_singleton hg hx (p := fun x => x.code == 0x07 && s.nodesFree g.ctx x.va x.detail x.stores) hdone]
  exact congrArg _ (foldl_reissueEngine_of_none_full hnone ..)

theorem exec_idxfullReissue_of_not_free (h : s.nodesFree g.ctx x.va x.detail x.stores = false) : exec (.idxfullReissue r) s = .next s := by
  change execIdxfullReissue r s = _
  simp only [execIdxfullReissue, hg, hx, List.any_cons, List.any_nil, h, Bool.and_false, Bool.or_false, Bool.false_eq_true, if_false]
  exact congrArg _ (foldl_reissueEngine_of_none_full hfull ..)

end

end Sys2Proof.Machine
end

section
/-! O44, the obligation. -/

namespace Sys2Proof.Machine

/-- Settles O44: a delivery and a look by the slot that they find, a match by the members that are here, and a reissue that leaves every engine
as it was. -/
theorem queuesAndCollectives : Obligations.QueuesAndCollectives := by
  intro s d e c k E
  refine ⟨fun hcur hstop hst => ⟨?delivery, ?resume, ?alone, ?pair⟩, ?results, ?nodes⟩
  case delivery =>
    intro s₁ dest desc pa bs hfn hheld hprog
    have hgo : (k.fn != 3 || !k.started || k.held || decide (k.field 192 32 ≤ k.prog)) = false := by simp [hfn, hst, hheld, hprog]
    exact ⟨fun a w s₂ hw hslot hput => exec_a2aDelivery_of_room hcur hstop hgo hw hslot hput,
      fun a hslot => exec_a2aDelivery_of_remote hcur hstop hgo hslot, fun hslot hq => exec_a2aDelivery_of_full hcur hstop hgo hslot hq⟩
  case resume =>
    intro s₁ dest desc pa bs x hfn hheld hslot
    exact exec_a2aResume_of_room hcur hstop (by simp [hfn, hheld]) hslot
  case alone =>
    intro s₁ s₂ bs hfn hheld hg hroot hrank
    have hgo : (k.fn != 4 || !k.started || k.held) = false := by simp [hfn, hst, hheld]
    exact ⟨fun hk => exec_collMatch_of_missing hcur hstop hgo hg (by simp [State.membersHere, hk]),
      fun hk hread => exec_collMatch_alone hcur hstop hgo hg hk hroot hrank hread⟩
  case pair =>
    intro s₁ d' e' k' hfn hheld hg
    have hgo : (k.fn != 4 || !k.started || k.held) = false := by simp [hfn, hst, hheld]
    refine ⟨fun hk' => exec_collMatch_of_missing hcur hstop hgo hg (membersHere_pair_lt hk'), fun hk hk' =>
      ⟨exec_collMatch_pair_disagree hcur hstop hgo hg hk hk', ?_⟩⟩
    intro s₂ s₃ bs bs' h0 haop hcnt hty hroot hrank hrank' len hread hread' put
    exact exec_collMatch_pair_agree hcur hstop hgo hg hk hk' h0 (by simp [EngCmd.agrees, haop, hcnt, hty, hroot]) hrank hrank' hread hread'
  case results =>
    intro ty rop cnt root rank bs bs' w at' fold
    exact ⟨rfl, if_pos rfl, by simp [collResult], rfl, rfl⟩
  case nodes =>
    intro r g x hg hx hcode hfull
    exact ⟨exec_idxfullReissue_of_free hg hx hfull hcode, exec_idxfullReissue_of_not_free hg hx hfull⟩

end Sys2Proof.Machine
end

section
namespace Sys2Proof.Machine

/-! ### Matrix instructions join the queue of the cell (R206, R207, R213, R229) -/

/-- A change of the running element's tile counts by what it makes of that tile. -/
theorem State.onMe_congr {s : State} {f h : Tile → Tile} (e : f s.me = h s.me) : s.onMe f = s.onMe h := congrArg (s.setTile s.here) e

/-- Each instruction of the cell issues through `matrixOp`, with the sources and the operands that `cellInstrs` names. -/
theorem exec_of_mem_cellInstrs (f : FmtX) (s : State) : ∀ e ∈ cellInstrs f, exec e.1 s = matrixOp s f e.1 e.2.1 e.2.2.1 e.2.2.2 := by
  simp only [cellInstrs, List.forall_mem_cons]
  exact ⟨rfl, rfl, rfl, rfl, rfl, rfl, rfl, rfl, rfl, rfl, rfl, rfl, rfl, List.forall_mem_nil _⟩

/-- The condition under which a matrix instruction that can issue still waits (R155, R207). -/
theorem acquiring_or_queueFull_iff {s : State} : (s.acquiring || 4 ≤ s.me.mxc.queue.length) = true ↔ s.acquiring = true ∨ 4 ≤ s.me.mxc.queue.length := by
  rw [Bool.or_eq_true_iff, decide_eq_true_iff]

theorem not_acquiring_or_queueFull {s : State} (ha : s.acquiring = false) (hq : s.me.mxc.queue.length < 4) :
    ¬ (s.acquiring || 4 ≤ s.me.mxc.queue.length) = true := by
  simpa [ha] using hq

section
variable {s : State} {f : FmtX} {i : Instr} {srcs : List Src} {dest : Bool} {ops : Tile → List Word × List Word × List Word}
  (hc : s.canIssue (executes (s.me.effMask f.pg f.ps) dest) srcs)
include hc

/-- A matrix instruction waits while an acquire is pending or the queue is full. -/
theorem matrixOp_waits (h : s.acquiring = true ∨ 4 ≤ s.me.mxc.queue.length) : matrixOp s f i srcs dest ops = .next s :=
  congrArg Host.Outcome.next ((s.issue_of_can hc _).trans (if_pos (acquiring_or_queueFull_iff.2 h)))

/-- Otherwise it joins the queue with the operands that it read. -/
theorem matrixOp_joins (ha : s.acquiring = false) (hq : s.me.mxc.queue.length < 4) :
    let m := s.me.effMask f.pg f.ps
    matrixOp s f i srcs dest ops = .next (s.onMe fun T =>
      let T' := if dest then T.issueOp .matrix f.sc m none false i else T
      { T' with mxc := { T'.mxc with queue := T'.mxc.queue
          ++ [MatOp.fresh T i m (ops T).1 (ops T).2.1 (ops T).2.2 (if dest then some T.nop else none)] } }).advance :=
  congrArg Host.Outcome.next ((s.issue_of_can hc _).trans (if_neg (not_acquiring_or_queueFull ha hq)))

end

/-- QUANT joins the queue with the draws that the element makes for it at issue (R111, R229). -/
theorem exec_quant_joins {s : State} {f : FmtX}
    (hc : s.canIssue (executes (s.me.effMask f.pg f.ps) false) (operandSrcs f.ak f.sa 0 ++ operandSrcs f.bk f.sb 1))
    (ha : s.acquiring = false) (hq : s.me.mxc.queue.length < 4) :
    let draws := if f.sc = 5 then srDraws (Spec.shapeM f.mc * Spec.shapeK f.kc) s.me.gsr else (s.me.gsr, [])
    exec (.quant f) s = .next (s.onMe fun T =>
      { T with
        gsr := draws.1
        mxc := { T.mxc with queue := T.mxc.queue ++ [MatOp.fresh T (.quant f) (s.me.effMask f.pg f.ps) (T.pair f.sa) (T.pair f.sb)
          (draws.2.map (BitVec.ofNat 64)) none] } }).advance := by
  change execQuant f s = _
  refine congrArg Host.Outcome.next ((s.issue_of_can hc _).trans ((if_neg (not_acquiring_or_queueFull ha hq)).trans (congrArg State.advance ?_)))
  exact State.onMe_congr rfl

/-- Settles O31: every instruction of `cellInstrs` is a `matrixOp`, which waits or joins; QUANT does as its own arm says. -/
theorem matrixInstructionsIssue : Obligations.MatrixInstructionsIssue := by
  intro f s m
  refine ⟨fun i srcs dest ops hi hc => ?_, exec_quant_joins⟩
  rw [exec_of_mem_cellInstrs f s _ hi]
  exact ⟨matrixOp_waits hc, matrixOp_joins hc⟩

end Sys2Proof.Machine
end

section
namespace Sys2Proof.Machine

/-! ### The operand phase and the compute phase of a matrix instruction (R206, R214, R216, R220) -/

theorem State.mit_any_eq_false {s : State} {t : Nat} (hm : ∀ m ∈ s.mit, m.t ≠ t) : (s.mit.any fun m => m.t == t) = false := by
  simpa using hm

section
variable {s s₁ : State} {t r i : Nat} {g : Region} {o o' : MatOp}
  (ha : s.active t = some (r, g)) (hn : nextOperand (s.tile t).mxc.queue = some (i, o))
include ha hn

/-- The operand phase waits for the element's loads that are still at the MIT (R155). -/
theorem exec_matrixOperandPhase_of_load (hm : ∃ m ∈ s.mit, m.t = t) : exec (.matrixOperandPhase t) s = .next s := by
  have hload : (s.mit.any fun m => m.t == t) = true := by simpa using hm
  change execMatrixOperandPhase t s = _
  simp only [execMatrixOperandPhase, ha, hn, hload, if_true]

variable (hm : ∀ m ∈ s.mit, m.t ≠ t)
include hm

theorem exec_matrixOperandPhase_of_asks (hk : o.asks = true) :
    exec (.matrixOperandPhase t) s = .next (s.onTile t fun T =>
      { T with mxc := { T.mxc with queue := T.mxc.queue.set i { o with due := s.time + operandLatency } } }) := by
  change execMatrixOperandPhase t s = _
  simp only [execMatrixOperandPhase, ha, hn, State.mit_any_eq_false hm, hk, Bool.false_eq_true, if_false, if_true]

variable (hk : o.asks = false)
include hk

theorem exec_matrixOperandPhase_of_early (hd : s.time < o.due) : exec (.matrixOperandPhase t) s = .next s := by
  change execMatrixOperandPhase t s = _
  simp only [execMatrixOperandPhase, ha, hn, State.mit_any_eq_false hm, hk, hd, Bool.false_eq_true, if_false, if_true]

variable (hd : o.due ≤ s.time)
include hd

/-- The bytes are there: the entry is staged, and its compute phase begins after those before it. -/
theorem exec_matrixOperandPhase_of_staged (h : stage s ⟨t, 0, 0, o.widx⟩ o = (s₁, .ok o')) :
    let q := (s₁.tile t).mxc.queue
    let start := max s₁.time ((q.take i).foldl (fun m x => max m x.due) 0)
    exec (.matrixOperandPhase t) s = .next ((s₁.onTile t fun T =>
      { T with mxc := { T.mxc with queue := q.set i { o' with staged := true, due := start + o'.due } } }).count g.die .operandPhase) := by
  change execMatrixOperandPhase t s = _
  simp only [execMatrixOperandPhase, ha, hn, State.mit_any_eq_false hm, hk, Nat.not_lt.2 hd, h, Bool.false_eq_true, if_false]

theorem exec_matrixOperandPhase_of_fault {f : Flt} (h : stage s ⟨t, 0, 0, o.widx⟩ o = (s₁, .error (.fault f))) :
    exec (.matrixOperandPhase t) s = .next (s₁.raise ⟨t, 0, 0, o.widx⟩ f) := by
  change execMatrixOperandPhase t s = _
  simp only [execMatrixOperandPhase, ha, hn, State.mit_any_eq_false hm, hk, Nat.not_lt.2 hd, h, Bool.false_eq_true, if_false]

end

/-- The bank that an instruction names. -/
def Mxc.named (c : Mxc) (o : MatOp) : AccBank := if bankBit o.instr then c.a1 else c.a0

/-- A tile whose cell has completed an instruction: its carve-out bytes are written, its bank is updated, and its result is delivered. -/
def Tile.completeMatrix (o : MatOp) (rest : List MatOp) (T : Tile) : Tile :=
  let b' := bankAfter (T.mxc.named o) o
  let U := { T.writeScratch o.cells with mxc := ⟨if bankBit o.instr then T.mxc.a0 else b', if bankBit o.instr then b' else T.mxc.a1, rest⟩ }
  match o.op with
  | some n => U.deliver n (resultOf (T.mxc.named o) o)
  | none => U

namespace Tile
variable (T : Tile) (o : MatOp) (rest : List MatOp)

theorem completeMatrix_mxc : (T.completeMatrix o rest).mxc = ⟨if bankBit o.instr then T.mxc.a0 else bankAfter (T.mxc.named o) o,
    if bankBit o.instr then bankAfter (T.mxc.named o) o else T.mxc.a1, rest⟩ := by
  unfold completeMatrix
  cases o.op <;> rfl

theorem completeMatrix_x : (T.completeMatrix o rest).x = T.x := by
  unfold completeMatrix
  cases o.op <;> rfl

theorem completeMatrix_v : (T.completeMatrix o rest).v = T.v := by
  unfold completeMatrix
  cases o.op <;> rfl

/-- What is delivered to an operation is the value that it then holds (R206). -/
theorem value_of_mem_deliver {n : Nat} {v : Vec} {x : LongOp} (hx : x ∈ (T.deliver n v).ops) (hn : x.num = n) : x.value = some v := by
  obtain ⟨y, -, rfl⟩ := List.mem_map.1 hx
  have hy : y.num = n := by
    by_contra h
    exact h (by rwa [if_neg h] at hn)
  rw [if_pos hy]

variable {o rest}

theorem value_of_mem_completeMatrix {n : Nat} {x : LongOp} (ho : o.op = some n) (hx : x ∈ (T.completeMatrix o rest).ops) (hn : x.num = n) :
    x.value = some (resultOf (T.mxc.named o) o) := by
  simp only [completeMatrix, ho] at hx
  exact value_of_mem_deliver _ hx hn

end Tile

/-- The events that a die counts as an instruction of the cell completes: the seeds it tried, and its clk of multiplies (R417). -/
def State.countCompleted (s : State) (d : Nat) (o : MatOp) : State :=
  let u := if o.instr matches .ssrch .. then s.countBy d .ssrchSeed o.seeds else s
  if o.macClk = 0 then u else u.countBy d (.macClk (macRate o.fa / 256)) o.macClk

theorem State.accounts_countCompleted (s : State) (d : Nat) (o : MatOp) : s.Accounts (s.countCompleted d o) := by
  refine accounts_ite ?seeds (.trans ?seeds (accounts_onDie ..))
  exact accounts_ite (accounts_onDie ..) (.refl s)

theorem State.regionOf_of_active {s : State} {t : Nat} {q : Nat × Region} (ha : s.active t = some q) : s.regionOf t = some q :=
  (Option.filter_eq_some_iff.1 ha).1

/-- Where no store is held the buffer has room for what enters it, as it did before; tiles and memory are as they were. -/
theorem State.holdAll_nil {s : State} {r : Nat} {g : Region} (hr : s.region? r = some g) (hroom : g.used ≤ g.capacity) (k : State → State) :
    ∃ u : State, s.holdAll r [] k = k u ∧ u.tiles = s.tiles ∧ u.mem = s.mem := by
  have hfits : ¬ g.capacity < g.used + (([] : List HeldStore).map entriesOf).sum := Nat.not_lt.2 hroom
  simp only [State.holdAll, hr, hfits, if_false, State.onRegion]
  exact ⟨_, rfl, rfl, rfl⟩

section
variable {s : State} {t r : Nat} {g : Region} {o : MatOp} {rest : List MatOp}
  (ha : s.active t = some (r, g)) (hq : (s.tile t).mxc.queue = o :: rest)
include ha hq

/-- The oldest instruction waits for its operand phase, and for the end of its compute phase. -/
theorem exec_matrixComputeComplete_waits (h : o.staged = false ∨ s.time < o.due) : exec (.matrixComputeComplete t) s = .next s := by
  have hwait : (!o.staged || decide (s.time < o.due)) = true := by simpa using h
  change execMatrixComputeComplete t s = _
  simp only [execMatrixComputeComplete, ha, hq, hwait, if_true]

/-- An instruction without stores completes in its tile, and what is counted with it is no part of tiles or memory. -/
theorem exec_matrixComputeComplete_of_due (hst : o.staged = true) (hd : o.due ≤ s.time) (hh : o.held = []) (hroom : g.used ≤ g.capacity) :
    ∃ u : State, exec (.matrixComputeComplete t) s = .next (u.onTile t (Tile.completeMatrix o rest)) ∧ u.tiles = s.tiles ∧ u.mem = s.mem := by
  have hgo : (!o.staged || decide (s.time < o.due)) = false := by simpa [hst] using hd
  have hr := region?_of_regionOf (State.regionOf_of_active ha)
  obtain ⟨u, hu, htiles, hmem⟩ := s.holdAll_nil hr hroom fun u => (u.countCompleted g.die o).onTile t (Tile.completeMatrix o rest)
  have hcount := u.accounts_countCompleted g.die o
  refine ⟨_, ?_, hcount.tiles.trans htiles, hcount.mem.trans hmem⟩
  change execMatrixComputeComplete t s = _
  simp only [execMatrixComputeComplete, ha, hq, hgo, hh, Bool.false_eq_true, if_false]
  exact congrArg Host.Outcome.next hu

end

/-- Settles O32: each clause of the operand phase is a case of its arm; completion is `Tile.completeMatrix` in a state with the same tiles and
memory. -/
theorem matrixPhases : Obligations.MatrixPhases := by
  refine ⟨fun s s₁ t r i g o o' ha hn => ⟨exec_matrixOperandPhase_of_load ha hn, exec_matrixOperandPhase_of_asks ha hn,
    exec_matrixOperandPhase_of_early ha hn, fun hm hk hd => ⟨exec_matrixOperandPhase_of_staged ha hn hm hk hd,
      fun _ => exec_matrixOperandPhase_of_fault ha hn hm hk hd⟩⟩, fun s t r g o rest ha hq => ⟨exec_matrixComputeComplete_waits ha hq, ?_⟩⟩
  intro hst hd hh hroom
  obtain ⟨w, hexec, htiles, hmem⟩ := exec_matrixComputeComplete_of_due ha hq hst hd hh hroom
  have htile : ∀ v, w.tile v = s.tile v := fun v => congrArg (fun ts => (tabGet v ts).getD Tile.reset) htiles
  have hu : (w.onTile t (Tile.completeMatrix o rest)).tile t = (s.tile t).completeMatrix o rest := by rw [State.tile_onTile, htile]
  refine ⟨_, hexec, ?queue, ?x, ?v, ?bank0, ?bank1, ?value, fun a => congrArg (memGet a) hmem,
    fun v hv => (State.tile_onTile_of_ne hv.symm w _).trans (htile v)⟩ <;> rw [hu]
  case queue => rw [Tile.completeMatrix_mxc]
  case x => exact Tile.completeMatrix_x ..
  case v => exact Tile.completeMatrix_v ..
  case bank0 | bank1 => exact fun hb => by simp [Tile.completeMatrix_mxc, Mxc.named, hb]
  case value => exact fun n x => Tile.value_of_mem_completeMatrix _

end Sys2Proof.Machine
end

section
namespace Sys2Proof.Machine

/-! ### Instructions of Format Y (R231) -/

/-- An instruction of Format Y that can issue takes its effect. -/
theorem syncOp_of_can {s : State} {f : FmtY} {n : Nat} (h : s.canY f n) (effect : State → State) :
    syncOp s f n effect = .next (effect s) := by
  obtain ⟨hi, hb⟩ := h
  simp only [syncOp, State.issue_of_can hi, hb, Bool.false_eq_true, if_false]

namespace State
variable {s : State}

theorem irrevocably_eq_acted {rel : Bool} (h : s.actsAtOnce rel) (k : State → State) : s.irrevocably rel k = k s.acted := by
  cases hr : s.regionOf s.here with
  | some q => exact irrevocably_of_actsAtOnce hr h k
  | none => simp only [irrevocably, acted, hr]

theorem irrevocablyRead_eq_bound (h : s.mayBind) (k : State → State) : s.irrevocablyRead k = k s.bound := by
  cases hr : s.regionOf s.here with
  | some q => simp only [irrevocablyRead, bound, hr, h q.1 q.2 hr, Bool.false_eq_true, if_false]
  | none => simp only [irrevocablyRead, bound, hr]

end State

/-! ### Launch and system instructions (R253, R254, R258 to R260) -/

/-- Tasks of priority `prio` of a die have a free place in its queue, and no piece of a launch of that priority waits for one before them
(R254). -/
def State.taskRoom (s : State) (d prio : Nat) : Bool :=
  s.queueRoom d prio != 0 && !((s.die d).pending.any fun p => match s.launchBy p.1 with | some x => x.prio == prio | none => false)

section
variable {f : FmtY} {s s₁ s₂ : State} {r : Nat} {g : Region} {q : Page} {bs : List Byte} {k : Task} {l : Launch}
  (hc : s.canY f 1) (hr : s.regionOf s.here = some (r, g)) (ha : yA s f % 128 = 0)
  (hq : s.page s.site none g.ctx (yA s f) (.load 3) = (s₁, .ok q)) (h0 : q.cls = 0) (hb : s₁.barred q.pa (yA s f) = none)
  (hl : s₁.loading q.pa 128 = false) (hf : s₁.fetchAll r q (yA s f) 128 = (s₂, some bs)) (hk : s₂.task? g.task = some k)
  (hL : s₂.launchOf g = some l)
include hc hr ha hq h0 hb hl hf hk hL

/-- TASKQ of a record that has been read holds its task when the record is accepted and the queue has room, else it is refused (R254). -/
theorem exec_taskq_of_record :
    exec (.taskq f) s = .next (if taskRecordOk s₂ k l (wordsOf bs 16) && s₂.taskRoom k.die (bits (word (wordsOf bs 16) 3) 56 2)
      then (holdTask s₂ r k l (wordsOf bs 16)).2.issueY .taskq f (some s₂.nhandle) false (.taskq f)
      else (s₂.issueY .taskq f (some 0) false (.taskq f)).count g.die .taskqRefused) := by
  change execTaskq f s = _
  rw [execTaskq, syncOp_of_can hc]
  simp only [hr, ha, hq, h0, hb, hl, hf, hk, hL, bne_self_eq_false, Bool.false_eq_true, if_false]
  rfl

end

theorem exec_lpatch_of_buffers {f : FmtY} {s s₁ : State} {r : Nat} {g : Region} (hc : s.canY f 2) (hr : s.regionOf s.here = some (r, g))
    (hn : yA s f < 4096) (hb : s.buffers r (.patch s.site (yA s f) f.flg.toNat (BitVec.ofNat 64 (yB s f)) s.me.nop) s₁) :
    exec (.lpatch f) s = .next (s₁.asks f .lpatch false (.lpatch f)) := by
  change execLpatch f s = _
  rw [execLpatch, syncOp_of_can hc]
  simp only [hr, Nat.not_le.2 hn, if_false, State.hold_of_buffers hb]
  rfl

theorem exec_larm_of_acts {f : FmtY} {s : State} (hc : s.canY f 1) (hn : yA s f < 4096) (h : s.actsAtOnce (f.ord.getLsbD 1)) :
    exec (.larm f) s = .next (if s.acted.recordSpoiled s.acted.myCtx (yA s f) then s.acted.trap (.decmp (yA s f))
      else (s.acted.armRecord s.acted.myCtx (yA s f) []).2.issueY .larm f (some (s.acted.armRecord s.acted.myCtx (yA s f) []).1) false
        (.larm f)) := by
  change execLarm f s = _
  rw [execLarm, syncOp_of_can hc]
  simp only [Nat.not_le.2 hn, if_false, State.irrevocably_eq_acted h]

theorem exec_trap_of_can {h : FmtI} {s : State} (hc : s.canIssue ((s.me.effMask h.pg h.ps).getLsbD 0) []) :
    exec (.trap h) s = .next (s.trap ⟨0x13, 0, h.imm.toNat⟩) :=
  congrArg Host.Outcome.next (State.issue_of_can hc _)

theorem exec_halt_of_can {h : FmtI} {s : State} {r : Nat} (hc : s.canIssue ((s.me.effMask h.pg h.ps).getLsbD 0) []) (hr : s.me.region = some r) :
    exec (.halt h) s = .next (s.onRegion r fun g => { g with stopped := true }).advance := by
  refine congrArg Host.Outcome.next ((State.issue_of_can hc _).trans ?_)
  simp only [hr]

/-- Settles O30: each instruction takes its effect once it can issue, LARM in the state in which its task has acted. -/
theorem launchInstructions : Obligations.LaunchInstructions := by
  intro f h s
  refine ⟨fun s₁ s₂ r g q bs k l hc hr ha hq h0 hb hl hf hk hL => ?taskq, fun r g s₁ => exec_lpatch_of_buffers, fun hc hn ha => ?larm,
    fun hc => ⟨exec_trap_of_can hc, fun r => exec_halt_of_can hc⟩⟩
  case taskq =>
    have he := exec_taskq_of_record hc hr ha hq h0 hb hl hf hk hL
    exact ⟨fun ht => he.trans (congrArg _ (if_pos ht)), fun ht => he.trans (congrArg _ (if_neg (Bool.eq_false_iff.1 ht)))⟩
  case larm =>
    have he := exec_larm_of_acts hc hn ha
    exact ⟨fun hs => he.trans (congrArg _ (if_neg (Bool.eq_false_iff.1 hs))), fun hs => he.trans (congrArg _ (if_pos hs))⟩

end Sys2Proof.Machine
end

section
namespace Sys2Proof.Machine

/-! ### The element that asks for something (R231, R275) -/

/-- The running element is where it was, and its tile differs at most in a pending FENCE.rel. -/
structure State.SameElement (s t : State) : Prop where
  here : t.here = s.here
  me : ∃ b, t.me = { s.me with relFence := b }

namespace State
variable {s t u : State}

theorem SamePlaces.sameElement (h : s.SamePlaces t) : s.SameElement t := ⟨h.here, s.me.relFence, h.me⟩
theorem Accounts.sameElement (h : s.Accounts t) : s.SameElement t := h.samePlaces.sameElement

theorem SameElement.trans (h : s.SameElement t) (h' : t.SameElement u) : s.SameElement u := by
  obtain ⟨hh, b, hm⟩ := h
  obtain ⟨hh', b', hm'⟩ := h'
  exact ⟨hh'.trans hh, b', by rw [hm', hm]⟩

section
variable (h : s.SameElement t) (f : FmtY)
include h

theorem SameElement.readX (r : Nat) : t.me.readX r = s.me.readX r := by obtain ⟨-, b, hm⟩ := h; rw [hm]; rfl
theorem SameElement.readV (r : BitVec 6) : t.me.readV r = s.me.readV r := by obtain ⟨-, b, hm⟩ := h; rw [hm]; rfl
theorem SameElement.nop : t.me.nop = s.me.nop := by obtain ⟨-, b, hm⟩ := h; rw [hm]
theorem SameElement.pc : t.me.pc = s.me.pc := by obtain ⟨-, b, hm⟩ := h; rw [hm]; rfl
theorem SameElement.site : t.site = s.site := by rw [State.site, State.site, h.here, h.pc]
theorem SameElement.yA : yA t f = yA s f := congrArg BitVec.toNat (h.readX _)
theorem SameElement.yB : yB t f = yB s f := congrArg BitVec.toNat (h.readX _)
theorem SameElement.yC : yC t f = yC s f := congrArg BitVec.toNat (h.readX _)

end

theorem samePlaces_onTask (s : State) (h : Nat) (f : Task → Task) : s.SamePlaces (s.onTask h f) :=
  ⟨onTask_here .., onTask_tiles .., onTask_regions ..⟩

theorem sameElement_acted (s : State) : s.SameElement s.acted := by
  unfold acted
  split
  next r g _ =>
    refine (s.samePlaces_onTask g.task _).sameElement.trans ⟨rfl, false, me_onMe ..⟩
  next => exact (SamePlaces.refl s).sameElement

theorem samePlaces_bound (s : State) : s.SamePlaces s.bound := by
  unfold bound
  split
  next r g _ => exact s.samePlaces_onTask g.task _
  next => exact .refl s

theorem accounts_draw (s : State) : s.Accounts s.draw.2 := ⟨_, _, _, _, _, rfl⟩

theorem accounts_touchHere (s : State) (p : Site) (c va pa : Nat) : s.Accounts (s.touchHere p c va pa) :=
  accounts_ite (.refl s) (s.accounts_touch ..)

theorem accounts_of_syncWord {ea n : Nat} {wr : Bool} {w : SyncWord} (h : s.syncWord ea n wr = (t, w)) : s.Accounts t := by
  have hp := s.accounts_page_fst s.site none s.myCtx ea (.sync wr)
  unfold syncWord at h
  split at h
  · cases h
    exact .refl s
  · split at h
    next e =>
      cases h
      rwa [e] at hp
    next e =>
      cases h
      rwa [e] at hp

theorem accounts_of_tailPlace {p : Site} {c tail : Nat} {x : Except Flt (Option (Nat × Bool))} (h : s.tailPlace p c tail = (t, x)) :
    s.Accounts t := by
  have hp := s.accounts_page_fst p none c (tail + 72) (.spill true)
  unfold tailPlace at h
  split at h
  · cases h
    exact .refl s
  · split at h
    next e =>
      cases h
      rwa [e] at hp
    next q e =>
      rw [e] at hp
      split at h
      · cases h
        exact hp
      · split at h
        · cases h
          exact (hp.trans (accounts_touch ..)).trans (accounts_onDie ..)
        · cases h
          exact hp

theorem accounts_of_tailFault {p : Site} {c tail : Nat} {x : Option Flt} (h : s.tailFault p c tail = (t, x)) : s.Accounts t := by
  unfold tailFault at h
  split at h <;> cases h <;> exact accounts_of_tailPlace ‹_›

end State

/-! ### The port and chain forms of engine commands, and CHAPP (R243, R244, R249 to R252) -/

section
variable {s : State} {f : FmtY} {fn : Nat} {i : Instr} (hc : s.canY f 2)
include hc

/-- The address and the detail of the PROT of an engine number above 7 are the model's choice (log entry 17). -/
theorem enginePort_of_noEngine (hn : 8 ≤ yA s f) : enginePort s f fn i = .next (s.trap (.prot (yA s f) 3)) := by
  simp only [enginePort, syncOp_of_can hc, hn, if_true]

variable (hn : yA s f < 8)
include hn

theorem enginePort_of_full (hq : 16 ≤ (s.engine (dieOf s.here) (yA s f) s.myCtx).queue.length) : enginePort s f fn i = .next s := by
  simp only [enginePort, syncOp_of_can hc, hn.not_ge, hq, if_false, if_true]

/-- A command of the port form enters the queue of its engine, and its ticket is returned (R244). -/
theorem enginePort_of_room (hq : (s.engine (dieOf s.here) (yA s f) s.myCtx).queue.length < 16) (ha : s.actsAtOnce false) :
    let d := dieOf s.here
    let u := s.acted
    let E := u.engine d (yA s f) s.myCtx
    enginePort s f fn i = .next ((State.markOlder (u.setEngine d (yA s f) s.myCtx { E with
        queue := E.queue ++ [{ commandOf f fn (u.me.readV f.sb) ((u.regionOf u.here).map fun q => q.2.task)
          (((u.regionOf u.here).map fun q => q.2.place s.here).getD 0, s.me.nop) with ticket := E.next }]
        next := (E.next + 1) % 2 ^ 64 })).issueY .ticket f (some E.next) false i) := by
  simp only [enginePort, syncOp_of_can hc, hn.not_ge, hq.not_ge, if_false, State.irrevocably_eq_acted ha, s.sameElement_acted.here,
    s.sameElement_acted.nop, Option.map_map]
  rfl

end

section
variable {s s₁ s₂ s₃ : State} {f : FmtY} {r : Nat} {g : Region} {pa desc entry : Nat} {q : Page} {rel cmd : Bool} {cells : List Host.Cell}
  {bytes : State → Region → Nat → Bool → Option (List Host.Cell)}

theorem sameElement_of_append {p : Site} {c n : Nat} {x : Option Flt} (hw : s.syncWord desc 8 true = (s₁, .word pa))
    (hq : s₁.page p none c entry (.spill true) = (s₂, .ok q)) (ht : s₂.tailFault p c n = (s₃, x)) (va va' pa' : Nat) :
    s.SameElement ((s₃.acted.touch p c va q.pa).touch p c va' pa') := by
  have h₃ := ((State.accounts_of_syncWord hw).trans (State.accounts_of_page hq)).trans (State.accounts_of_tailFault ht)
  exact (h₃.sameElement.trans s₃.sameElement_acted).trans ((State.accounts_touch ..).trans (State.accounts_touch ..)).sameElement

/-- An append that the element may ask for is asked of the chain's home; one of another package answers at once (R252, log entry 22). -/
theorem chainAppend_of_asks (hr : s.regionOf s.here = some (r, g)) (ha : entry % 128 = 0) (hw : s.syncWord desc 8 true = (s₁, .word pa))
    (hq : s₁.page s.site none g.ctx entry (.spill true) = (s₂, .ok q)) (hb : s₂.barred q.pa entry = none)
    (hbytes : bytes s₂ g q.pa q.cmp = some cells) (hs : s₂.wouldSpoil q.cmp (cellsAt q.pa [0]) = false)
    (ht : s₂.tailFault s.site g.ctx (if inRemote pa then 0 else s₂.homeWord pa) = (s₃, none)) (hm : s₃.mayAsk pa = true)
    (hact : s₃.actsAtOnce rel) (i : Instr) :
    let u := (s₃.acted.touch s.site g.ctx entry q.pa).touch s.site g.ctx desc pa
    let e : HsqEntry := ⟨g.ctx, pa, u.here, some u.me.nop, desc, u.me.pc, .chapp cmd entry q.pa q.cmp cells, 0⟩
    let v := (if cmd then u.markOlder else u).asks f .chapp false i
    chainAppend s f desc entry rel bytes cmd i = if inRemote pa then v.remoteAnswer e else v.request e := by
  have h₁ := State.accounts_of_syncWord hw
  have h₂ := h₁.trans (State.accounts_of_page hq)
  have h₃ := (h₂.trans (State.accounts_of_tailFault ht)).sameElement.trans s₃.sameElement_acted
  simp only [chainAppend, hr, ha, hw, h₁.site, hq, hb, hbytes, hs, h₂.site, ht, hm, State.irrevocably_eq_acted hact, h₃.site,
    bne_self_eq_false, Bool.not_true, Bool.false_eq_true, if_false]
  rfl

end

/-- An append that has been asked for goes to its chain's home, or gets the number that the home in another package gives it (R252). -/
theorem append_cases {v w : State} {e : HsqEntry} {cmd cmp : Bool} {entry pa here op : Nat} {cells : List Host.Cell}
    (he : e.req = .chapp cmd entry pa cmp cells) (ht : e.t = here) (hop : e.op = some op)
    (hw : w = if inRemote e.pa then v.remoteAnswer e else v.request e) :
    let y := v.draw.2.entryCells e cmd pa cells
    (inRemote e.pa = false → w = v.request e)
      ∧ (inRemote e.pa = true → ∃ x, w = (y.2.enterEntry cmp pa x y.1).finish here op x) := by
  intro y
  refine ⟨fun hl => by rw [hw, hl, if_neg Bool.false_ne_true], fun hl => ⟨v.draw.1.toNat, ?_⟩⟩
  rw [hw, if_pos hl]
  simp only [State.remoteAnswer, he, ht, hop, Option.getD_some]
  rfl

section
variable {f : FmtY} {i : Instr} {fn : Nat}

theorem exec_eq_enginePort (h : (i, fn) ∈ [(Instr.cpy f, 0), (.dense f, 1), (.sparsify f, 2), (.a2a f, 3), (.coll f, 4)]) (s : State) :
    exec i s = enginePort s f fn i := by
  simp only [List.mem_cons, Prod.mk.injEq, List.not_mem_nil, or_false] at h
  obtain ⟨rfl, rfl⟩ | ⟨rfl, rfl⟩ | ⟨rfl, rfl⟩ | ⟨rfl, rfl⟩ | ⟨rfl, rfl⟩ := h <;> rfl

/-- The bytes of an entry that an instruction of the chain form writes (R249, R251). -/
def commandBytes (body : Vec) (ctl : Nat) : State → Region → Nat → Bool → Option (List Host.Cell) :=
  fun _ _ pa _ => some (cellsAt pa (bytesOf 64 body.toNat ++ bytesOf 8 ctl ++ List.replicate 56 0))

/-- The bytes of the entry that CHAPP appends which its region's store buffer holds (R252). -/
def chappBytes : State → Region → Nat → Bool → Option (List Host.Cell) :=
  fun s g pa cmp => (s.taskRead g cmp pa 128).map fun _ => State.heldCells g.buffer pa 128

theorem chappBytes_of_read {s : State} {g : Region} {pa : Nat} {cmp : Bool} {bs : List Byte} (h : s.taskRead g cmp pa 128 = some bs) :
    chappBytes s g pa cmp = some (State.heldCells g.buffer pa 128) := by
  rw [chappBytes, h, Option.map_some]

theorem exec_engineChain {s : State}
    (h : (i, fn) ∈ [(Instr.cpyChain f, 0), (.denseChain f, 1), (.sparsifyChain f, 2), (.a2aChain f, 3), (.collChain f, 4)])
    (hc : s.canY f 3) :
    exec i s = .next (chainAppend s f (yA s f) (yC s f) false (commandBytes (s.me.readV f.sb) (ctlWord f fn)) true i) := by
  simp only [List.mem_cons, Prod.mk.injEq, List.not_mem_nil, or_false] at h
  obtain ⟨rfl, rfl⟩ | ⟨rfl, rfl⟩ | ⟨rfl, rfl⟩ | ⟨rfl, rfl⟩ | ⟨rfl, rfl⟩ := h <;> exact syncOp_of_can hc _

theorem exec_chapp {s : State} (hc : s.canY f 2) :
    exec (.chapp f) s = .next (chainAppend s f (yA s f) (yB s f) (f.ord.getLsbD 1) chappBytes false (.chapp f)) :=
  syncOp_of_can hc _

end

/-- Settles O29: the port forms are `enginePort`; the chain forms and CHAPP are a `chainAppend` that may ask for its append. -/
theorem engineCommandsIssue : Obligations.EngineCommandsIssue := by
  intro f s
  refine ⟨fun i fn hi hc => ?port, fun i fn s₁ s₂ s₃ r g pa q hi hc hr ha hw hq hb hs ht hm hact => ?chain,
    fun s₁ s₂ s₃ r g pa q bs hc hr ha hw hq hb hbs hs ht hm hact => ?chapp⟩
  case port =>
    intro n d
    rw [exec_eq_enginePort hi]
    exact ⟨enginePort_of_noEngine hc, enginePort_of_full hc, enginePort_of_room hc⟩
  case chain =>
    intro u entry e v y
    have hu : s.SameElement u := sameElement_of_append hw hq ht (yC s f) (yA s f) pa
    have ha := chainAppend_of_asks (f := f) (cmd := true) hr ha hw hq hb (bytes := commandBytes (s.me.readV f.sb) (ctlWord f fn)) rfl hs ht hm hact i
    have h := append_cases (e := e) (v := v.asks f .chapp false i) rfl hu.here (congrArg some hu.nop) ha
    rw [exec_engineChain hi hc]
    exact ⟨fun hl => congrArg _ (h.1 hl), fun hl => (h.2 hl).imp fun x => congrArg _⟩
  case chapp =>
    intro u e y
    have hu : s.SameElement u := sameElement_of_append hw hq ht (yB s f) (yA s f) pa
    have ha := chainAppend_of_asks (f := f) (cmd := false) hr ha hw hq hb (chappBytes_of_read hbs) hs ht hm hact (.chapp f)
    have h := append_cases (e := e) (v := u.asks f .chapp false (.chapp f)) rfl hu.here (congrArg some hu.nop) ha
    rw [exec_chapp hc]
    exact ⟨fun hl => congrArg _ (h.1 hl), fun hl => (h.2 hl).imp fun x => congrArg _⟩

end Sys2Proof.Machine
end

section
namespace Sys2Proof.Machine

/-! ### Requests of synchronisation instructions (R231 to R241, R263, R413) -/

namespace State
variable {s t : State}

theorem Accounts.time (h : s.Accounts t) : t.time = s.time := by obtain ⟨_, _, _, _, _, rfl⟩ := h; rfl
theorem SamePlaces.ctxOf (h : s.SamePlaces t) (x : Nat) : t.ctxOf x = s.ctxOf x := by simp only [State.ctxOf, h.regionOf]
theorem SamePlaces.myCtx (h : s.SamePlaces t) : t.myCtx = s.myCtx := by rw [State.myCtx, State.myCtx, h.here, h.ctxOf]

theorem time_bound (s : State) : s.bound.time = s.time := by
  unfold bound
  split
  next r g _ => exact onTask_time ..
  next => rfl

theorem time_acted (s : State) : s.acted.time = s.time := by
  unfold acted
  split
  next r g _ => exact (onMe_time ..).trans (onTask_time ..)
  next => rfl

section
variable (s : State) (p : Site) (c va pa : Nat)

theorem samePlaces_touch : s.SamePlaces (s.touch p c va pa) := (s.accounts_touch p c va pa).samePlaces
theorem samePlaces_touchHere : s.SamePlaces (s.touchHere p c va pa) := (s.accounts_touchHere p c va pa).samePlaces

end

theorem here_issueY (s : State) (k : OpKind) (f : FmtY) (v : Option Nat) (acq : Bool) (i : Instr) : (s.issueY k f v acq i).here = s.here := rfl
theorem here_draw (s : State) : s.draw.2.here = s.here := rfl

/-- What leaves the element with an operation on a word: the request `e` to the word's home, or the answer of another package (log entry 22). -/
def sent (s : State) (f : FmtY) (k : OpKind) (acq : Bool) (i : Instr) (pa : Nat) (e : HsqEntry) (value : Nat → Nat) : State :=
  let u := (s.touch s.site s.myCtx (yA s f) pa).asks f k acq i
  if inRemote pa then u.draw.2.finish s.here s.me.nop (value u.draw.1.toNat) else u.request e

theorem sends'_sent {f : FmtY} {k : OpKind} {acq : Bool} {i : Instr} {pa : Nat} {req : HsqReq} {value : Nat → Nat} {e : HsqEntry}
    (he : inRemote pa = false → e = ⟨s.myCtx, pa, s.here, some s.me.nop, yA s f, s.me.pc, req, 0⟩) :
    s.sends' f k acq i pa req value (s.sent f k acq i pa e value) := by
  unfold sends' sent
  cases h : inRemote pa with
  | true => exact ⟨_, rfl⟩
  | false => rw [he h]; rfl

end State

theorem dueOf_eq (s : State) (tmo : BitVec 5) : dueOf s tmo.toNat = if tmo = 0 then none else some (s.time + 2 ^ tmo.toNat) := by
  have h : tmo.toNat = 0 ↔ tmo = 0 := BitVec.toNat_inj (y := 0)
  simp only [dueOf, h]

theorem countOk_iff {n : Nat} : countOk n = true ↔ 0 < n ∧ n < 2 ^ 32 := by simp [countOk]

section
variable {f : FmtY} {s s₁ : State} {pa : Nat}

/-! #### The request leaves -/

section
variable (hm : s₁.mayAsk pa = true)
include hm

theorem exec_atom_of_word (hc : s.canY f (if f.aop = 8 then 3 else 2)) (hw : s.syncWord (yA s f) (atomWidth f / 8) true = (s₁, .word pa))
    (ha : s₁.actsAtOnce (f.ord.getLsbD 1)) :
    let u := s₁.acted
    exec (.atom f) s = .next (u.sent f .atom (f.ord.getLsbD 0) (.atom f) pa ⟨u.myCtx, pa, u.here, some u.me.nop, yA u f, u.me.pc,
      .atom f.aop.toNat (atomWidth f) (f.flg.getLsbD 2) (BitVec.ofNat 64 (yB s f)) (BitVec.ofNat 64 (yC s f)), 0⟩
      fun x => (atomResult f.aop.toNat (atomWidth f) (f.flg.getLsbD 2) x).toNat) := by
  have hu : s.SameElement s₁.acted := (State.accounts_of_syncWord hw).sameElement.trans s₁.sameElement_acted
  have ht := s₁.acted.samePlaces_touch s₁.acted.site s₁.acted.myCtx (yA s f) pa
  refine (syncOp_of_can hc _).trans ?_
  simp only [hw, hm, State.irrevocably_eq_acted ha, Bool.not_true, Bool.false_eq_true, if_false, State.sent, hu.yA, yB, yC, ht.here, ht.me,
    ht.myCtx, hu.readX, State.asks, State.here_draw, State.here_issueY]

variable (hc : s.canY f 2) (hb : s₁.mayBind)
include hc hb

theorem exec_wait_of_word (hw : s.syncWord (yA s f) (atomWidth f / 8) false = (s₁, .word pa)) :
    let u := s₁.bound
    exec (.wait f) s = .next (u.sent f .wait (f.ord.getLsbD 0) (.wait f) pa ⟨u.myCtx, pa, u.here, some u.me.nop, yA u f, u.me.pc,
      .wait f.aop.toNat (atomWidth f) (f.flg.getLsbD 2) (BitVec.ofNat 64 (yB s f)) (s₁.time + 2 ^ f.tmo.toNat) (f.tmo == 0)
        (f.ord.getLsbD 0), 0⟩ (· % 2)) := by
  have hu : s.SameElement s₁.bound := ((State.accounts_of_syncWord hw).samePlaces.trans s₁.samePlaces_bound).sameElement
  have ht := s₁.bound.samePlaces_touch s₁.bound.site s₁.bound.myCtx (yA s f) pa
  refine (syncOp_of_can hc _).trans ?_
  simp only [hw, hm, State.irrevocablyRead_eq_bound hb, Bool.not_true, Bool.false_eq_true, if_false, State.sent, hu.yA, yB, ht.here, ht.me,
    ht.myCtx, hu.readX, State.asks, State.here_draw, State.here_issueY, (State.accounts_touch ..).time, s₁.time_bound]

/-- The wait of HBAR is one on the generation, the upper half of its word (R240). -/
theorem exec_hbarWait_of_word (hw : s.syncWord (yA s f) 8 false = (s₁, .word pa)) :
    let u := s₁.bound
    exec (.hbarWait f) s = .next (u.sent f .wait true (.hbarWait f) pa ⟨u.myCtx, pa + 4, u.here, some u.me.nop, yA u f, u.me.pc,
      .wait 1 32 true (BitVec.ofNat 64 (yB s f % 2 ^ 32)) (s₁.time + 2 ^ f.tmo.toNat) (f.tmo == 0) true, 0⟩ (· % 2)) := by
  have hu : s.SameElement s₁.bound := ((State.accounts_of_syncWord hw).samePlaces.trans s₁.samePlaces_bound).sameElement
  have ht := s₁.bound.samePlaces_touch s₁.bound.site s₁.bound.myCtx (yA s f) pa
  refine (syncOp_of_can hc _).trans ?_
  simp only [hw, hm, State.irrevocablyRead_eq_bound hb, Bool.not_true, Bool.false_eq_true, if_false, State.sent, hu.yA, yB, ht.here, ht.me,
    ht.myCtx, hu.readX, State.asks, State.here_draw, State.here_issueY, (State.accounts_touch ..).time, s₁.time_bound]

end

section
variable (hn : s₁.combining pa = false)
include hn

theorem exec_atomTree_of_word (hc : s.canY f 2) (hw : s.syncWord (yA s f) (atomWidth f / 8) true = (s₁, .word pa))
    (ha : s₁.actsAtOnce (f.ord.getLsbD 1)) :
    let u := s₁.acted
    exec (.atomTree f) s = .next (((u.touchHere u.site u.myCtx (yA s f) pa).asks f .atom false (.atomTree f)).enterNode 2
      (effScope s.here pa f.scope.toNat) ⟨u.myCtx, pa, u.here, none, yA s f, u.me.pc,
        .atoms f.aop.toNat (atomWidth f) (f.flg.getLsbD 2) [(BitVec.ofNat 64 (yB s f), u.here, u.me.nop)], f.scope.toNat⟩) := by
  have hu : s.SameElement s₁.acted := (State.accounts_of_syncWord hw).sameElement.trans s₁.sameElement_acted
  have ht := s₁.acted.samePlaces_touchHere s₁.acted.site s₁.acted.myCtx (yA s f) pa
  refine (syncOp_of_can hc _).trans ?_
  simp only [hw, hn, State.irrevocably_eq_acted ha, Bool.false_eq_true, if_false, yB, ht.here, ht.me, ht.myCtx, hu.readX, hu.here,
    State.asks, State.here_issueY]

theorem arriveAt_of_acts (ha : s₁.actsAtOnce true) (due : Option (Option Nat)) (i : Instr) :
    arriveAt s₁ f pa due i = s₁.acted.arrives f pa due i := by
  have ht := s₁.acted.samePlaces_touchHere s₁.acted.site s₁.acted.myCtx (yA s₁.acted f) pa
  simp only [arriveAt, hn, State.irrevocably_eq_acted ha, Bool.false_eq_true, if_false, State.arrives, State.asks, ht.here,
    ht.me, ht.myCtx, ht.sameElement.yA, ht.sameElement.yB]

variable (hc : s.canY f 2) (hw : s.syncWord (yA s f) 8 true = (s₁, .word pa)) (ha : s₁.actsAtOnce true) (hk : countOk (yB s f) = true)
include hc hw ha hk

theorem exec_hbarArrive_of_word : exec (.hbarArrive f) s = .next (s₁.acted.arrives f pa none (.hbarArrive f)) := by
  refine (syncOp_of_can hc _).trans ?_
  simp only [hw, (State.accounts_of_syncWord hw).sameElement.yB, hk, if_true, arriveAt_of_acts hn ha]

theorem exec_hbarAw_of_word :
    exec (.hbarAw f) s = .next (s₁.acted.arrives f pa (some (dueOf s₁ f.tmo.toNat)) (.hbarAw f)) := by
  refine (syncOp_of_can hc _).trans ?_
  simp only [hw, (State.accounts_of_syncWord hw).sameElement.yB, hk, if_true, arriveAt_of_acts hn ha]

end

section
variable {r : Nat} {g : Region} (hc : s.canY f 2) (hr : s.regionOf s.here = some (r, g))
include hc hr

/-- A second BSYNC of a region traps; the detail of its PROT is the model's choice (log entry 18). -/
theorem exec_bsync_of_second (hg : g.bsync ≠ none) :
    exec (.bsync f) s = .next (s.draw.2.trap (.prot (yA s f) (s.draw.1.toNat % 8))) := by
  refine (syncOp_of_can hc _).trans ?_
  simp only [hr, Option.isSome_iff_ne_none.2 hg, if_true]

variable (hg : g.bsync = none)
include hg

theorem exec_bsync_of_word (hw : s.syncWord (yA s f) 8 true = (s₁, .word pa) ∨ s.syncWord (yA s f) 8 true = (s₁, .lost pa)) (hb : s₁.mayBind) :
    exec (.bsync f) s = .next (if countOk (yB s f)
      then (s₁.bound.asks f .bsync true (.bsync f)).onRegion r fun g =>
        { g with bsync := some ⟨s.here, s.me.nop, yB s f, f.scope.toNat, s₁.time + 2 ^ f.tmo.toNat, false, yA s f, s.me.pc⟩ }
      else s₁.bound.issueY .bsync f (some 2) true (.bsync f)) := by
  have h₁ : s.Accounts s₁ := by rcases hw with hw | hw <;> exact State.accounts_of_syncWord hw
  have hu := (h₁.samePlaces.trans s₁.samePlaces_bound).sameElement
  refine (syncOp_of_can hc _).trans ?_
  rcases hw with hw | hw <;>
    simp only [hr, hg, hw, Option.isSome_none, State.irrevocablyRead_eq_bound hb, Bool.false_eq_true, if_false, hu.yB, hu.here, hu.nop, hu.pc,
      s₁.time_bound, State.asks]

end

/-! #### The word cannot be reached, or the count is out of range -/

section
variable {i : Instr} {n k j : Nat} {wr : Bool}

theorem exec_of_mayNotAsk (hi : (i, k, j, wr) ∈ [(.atom f, if f.aop = 8 then 3 else 2, atomWidth f / 8, true), (.wait f, 2, atomWidth f / 8, false),
      (.hbarWait f, 2, 8, false)]) (hc : s.canY f k) (hw : s.syncWord (yA s f) j wr = (s₁, .word pa)) (hm : s₁.mayAsk pa = false) :
    exec i s = .next s₁ := by
  simp only [List.mem_cons, Prod.mk.injEq, List.not_mem_nil, or_false] at hi
  obtain ⟨rfl, rfl, rfl, rfl⟩ | ⟨rfl, rfl, rfl, rfl⟩ | ⟨rfl, rfl, rfl, rfl⟩ := hi <;>
    exact (syncOp_of_can hc _).trans (by simp only [hw, hm, Bool.not_false, if_true])

theorem exec_of_combining (hi : (i, k, j, wr) ∈ [(.atomTree f, 2, atomWidth f / 8, true), (.hbarArrive f, 2, 8, true), (.hbarAw f, 2, 8, true)])
    (hc : s.canY f k) (hw : s.syncWord (yA s f) j wr = (s₁, .word pa)) (hn : s₁.combining pa = true)
    (hk : i = .atomTree f ∨ countOk (yB s f) = true) : exec i s = .next s₁ := by
  have hB := (State.accounts_of_syncWord hw).sameElement.yB f
  simp only [List.mem_cons, Prod.mk.injEq, List.not_mem_nil, or_false] at hi
  obtain ⟨rfl, rfl, rfl, rfl⟩ | ⟨rfl, rfl, rfl, rfl⟩ | ⟨rfl, rfl, rfl, rfl⟩ := hi
  · exact (syncOp_of_can hc _).trans (by simp only [hw, hn, if_true])
  all_goals
    have hk := hk.resolve_left nofun
    exact (syncOp_of_can hc _).trans (by simp only [hw, hB, hk, arriveAt, hn, if_true])

section
variable (hi : (i, k, j, wr) ∈ [(.atom f, if f.aop = 8 then 3 else 2, atomWidth f / 8, true), (.atomTree f, 2, atomWidth f / 8, true),
  (.hbarArrive f, 2, 8, true)]) (hc : s.canY f k)
include hi hc

theorem exec_of_unreached {w : State.SyncWord} {e : Flt} (hw : s.syncWord (yA s f) j wr = (s₁, w))
    (he : w = .fault e ∨ (∃ d, w = .bad d ∧ e = .prot (yA s f) d) ∨ ∃ pa, w = .lost pa ∧ e = .lnkerr pa 4) :
    exec i s = .next (s₁.trap e) := by
  simp only [List.mem_cons, Prod.mk.injEq, List.not_mem_nil, or_false] at hi
  obtain rfl | ⟨d, rfl, rfl⟩ | ⟨pa, rfl, rfl⟩ := he <;>
    obtain ⟨rfl, rfl, rfl, rfl⟩ | ⟨rfl, rfl, rfl, rfl⟩ | ⟨rfl, rfl, rfl, rfl⟩ := hi <;>
    exact (syncOp_of_can hc _).trans (by simp only [hw])

end

section
variable {a : Bool} {o : OpKind} {acq : Bool}
  (hi : (i, j, wr, o, a) ∈ [(Instr.wait f, atomWidth f / 8, false, OpKind.wait, f.ord.getLsbD 0), (.hbarWait f, 8, false, .wait, true),
    (.hbarAw f, 8, true, .wait, true), (.bsync f, 8, true, .bsync, true)])
  (hc : s.canY f 2) (hg : i = .bsync f → ∃ r g, s.regionOf s.here = some (r, g) ∧ g.bsync = none)
include hi hc hg

/-- An instruction that waits answers BADWORD at a bad word (R231, R239). -/
theorem exec_of_badWord {d : Nat} (hw : s.syncWord (yA s f) j wr = (s₁, .bad d)) (hb : s₁.mayBind) :
    exec i s = .next (s₁.bound.issueY o f (some 2) a i) := by
  simp only [List.mem_cons, Prod.mk.injEq, List.not_mem_nil, or_false] at hi
  obtain ⟨rfl, rfl, rfl, rfl, rfl⟩ | ⟨rfl, rfl, rfl, rfl, rfl⟩ | ⟨rfl, rfl, rfl, rfl, rfl⟩ | ⟨rfl, rfl, rfl, rfl, rfl⟩ := hi
  case inr.inr.inr =>
    obtain ⟨r, g, hr, hg⟩ := hg rfl
    exact (syncOp_of_can hc _).trans (by simp only [hr, hg, Option.isSome_none, hw, State.irrevocablyRead_eq_bound hb, Bool.false_eq_true, if_false])
  all_goals exact (syncOp_of_can hc _).trans (by simp only [hw, State.irrevocablyRead_eq_bound hb])

theorem exec_of_wordFault {e : Flt} (hw : s.syncWord (yA s f) j wr = (s₁, .fault e)) : exec i s = .next (s₁.trap e) := by
  simp only [List.mem_cons, Prod.mk.injEq, List.not_mem_nil, or_false] at hi
  obtain ⟨rfl, rfl, rfl, rfl, rfl⟩ | ⟨rfl, rfl, rfl, rfl, rfl⟩ | ⟨rfl, rfl, rfl, rfl, rfl⟩ | ⟨rfl, rfl, rfl, rfl, rfl⟩ := hi
  case inr.inr.inr =>
    obtain ⟨r, g, hr, hg⟩ := hg rfl
    exact (syncOp_of_can hc _).trans (by simp only [hr, hg, Option.isSome_none, hw, Bool.false_eq_true, if_false])
  all_goals exact (syncOp_of_can hc _).trans (by simp only [hw])

end

end

/-! #### A word of a package that is lost (R413) -/

section
variable (hc : s.canY f 2)
include hc

theorem exec_wait_of_lost (hw : s.syncWord (yA s f) (atomWidth f / 8) false = (s₁, .lost pa)) (hb : s₁.mayBind) :
    exec (.wait f) s = .next ((s₁.bound.asks f .wait (f.ord.getLsbD 0) (.wait f)).armLost pa s.site (yA s f) (dueOf s₁ f.tmo.toNat) s.me.nop) := by
  have hu := ((State.accounts_of_syncWord hw).samePlaces.trans s₁.samePlaces_bound).sameElement
  refine (syncOp_of_can hc _).trans ?_
  simp only [hw, State.irrevocablyRead_eq_bound hb, hu.site, hu.nop, dueOf, s₁.time_bound, State.asks]

theorem exec_hbarWait_of_lost (hw : s.syncWord (yA s f) 8 false = (s₁, .lost pa)) (hb : s₁.mayBind) :
    exec (.hbarWait f) s = .next ((s₁.bound.asks f .wait true (.hbarWait f)).armLost pa s.site (yA s f + 4) (dueOf s₁ f.tmo.toNat) s.me.nop) := by
  have hu := ((State.accounts_of_syncWord hw).samePlaces.trans s₁.samePlaces_bound).sameElement
  refine (syncOp_of_can hc _).trans ?_
  simp only [hw, State.irrevocablyRead_eq_bound hb, hu.site, hu.nop, dueOf, s₁.time_bound, State.asks]

theorem exec_hbarAw_of_lost (hw : s.syncWord (yA s f) 8 true = (s₁, .lost pa)) (hk : countOk (yB s f) = true) (ha : s₁.actsAtOnce true) :
    exec (.hbarAw f) s = .next ((s₁.acted.asks f .wait true (.hbarAw f)).armLost pa s.site (yA s f + 4) (dueOf s₁ f.tmo.toNat) s.me.nop) := by
  have h₁ := (State.accounts_of_syncWord hw).sameElement
  have hu := h₁.trans s₁.sameElement_acted
  refine (syncOp_of_can hc _).trans ?_
  simp only [hw, h₁.yB, hk, if_true, State.irrevocably_eq_acted ha, hu.yA, hu.site, hu.nop, dueOf, s₁.time_acted, State.asks]

end

section
variable (hc : s.canY f 2) (hw : s.syncWord (yA s f) 8 true = (s₁, .word pa)) (hk : countOk (yB s f) = false)
include hc hw hk

theorem exec_hbarArrive_of_count : exec (.hbarArrive f) s = .next (s₁.trap (.prot (yA s f) 3)) := by
  refine (syncOp_of_can hc _).trans ?_
  simp only [hw, (State.accounts_of_syncWord hw).sameElement.yB, hk, Bool.false_eq_true, if_false]

theorem exec_hbarAw_of_count (hb : s₁.mayBind) : exec (.hbarAw f) s = .next (s₁.bound.issueY .wait f (some 2) true (.hbarAw f)) := by
  refine (syncOp_of_can hc _).trans ?_
  simp only [hw, (State.accounts_of_syncWord hw).sameElement.yB, hk, Bool.false_eq_true, if_false, State.irrevocablyRead_eq_bound hb]

end

end

/-- Settles O24: each outcome of the word's translation is an arm of the instruction; what is sent or entered is asked for in the state in which
the task has acted. -/
theorem synchronisationRequests : Obligations.SynchronisationRequests := by
  intro f s s₁ pa ea w uns acq b due n asking entering trapping answering begins
  have hk (h0 : 0 < yB s f) (h1 : yB s f < 2 ^ 32) : countOk (yB s f) = true := countOk_iff.2 ⟨h0, h1⟩
  have hdue : dueOf s₁ f.tmo.toNat = due := dueOf_eq ..
  refine ⟨fun hc hw hm ha => ⟨_, exec_atom_of_word hm hc hw ha, State.sends'_sent fun _ => rfl⟩,
    fun hc hw hm hb => ⟨_, exec_wait_of_word hm hc hb hw, State.sends'_sent fun _ => rfl⟩,
    fun hc hw hm hb hl => ?hbarWait,
    fun hc hw hm hb hl => ⟨_, exec_hbarWait_of_word hm hc hb hw, State.sends'_sent fun h => absurd (h.symm.trans hl) Bool.false_ne_true⟩,
    fun hc hw hn ha => exec_atomTree_of_word hn hc hw ha,
    fun hc hw hn ha h0 h1 => ⟨exec_hbarArrive_of_word hn hc hw ha (hk h0 h1), hdue ▸ exec_hbarAw_of_word hn hc hw ha (hk h0 h1)⟩,
    fun hc hbegins hw h0 h1 hb r g hr => ?bsync,
    fun i k j wr hi hc hw hm => exec_of_mayNotAsk hi hc hw hm,
    fun i k j wr hi hc hw hn hB => exec_of_combining hi hc hw hn (hB.imp_right fun h => hk h.1 h.2),
    fun i k j wr hi hc => ⟨fun d hw => exec_of_unreached hi hc hw (.inr (.inl ⟨d, rfl, rfl⟩)), fun e hw => exec_of_unreached hi hc hw (.inl rfl),
      fun hw => exec_of_unreached hi hc hw (.inr (.inr ⟨pa, rfl, rfl⟩))⟩,
    fun i j wr k a hi hc hg => ⟨fun d hw hb => exec_of_badWord hi hc hg hw hb, fun e hw => exec_of_wordFault hi hc hg hw⟩,
    fun hc hw hb => hdue ▸ exec_wait_of_lost hc hw hb, fun hc hw hb => hdue ▸ exec_hbarWait_of_lost hc hw hb,
    fun hc hw h0 h1 ha => hdue ▸ exec_hbarAw_of_lost hc hw (hk h0 h1) ha,
    fun hc hw hn => ?count,
    fun r g hc hr hg => ⟨_, Nat.mod_lt _ (by decide), exec_bsync_of_second hc hr hg⟩⟩
  case hbarWait =>
    have hA := ((State.accounts_of_syncWord hw).samePlaces.trans s₁.samePlaces_bound).sameElement.yA f
    rw [exec_hbarWait_of_word hm hc hb hw, State.sent, hl, if_neg Bool.false_ne_true, hA]
  case bsync =>
    have hg : g.bsync = none := by
      obtain ⟨r', g', hr', hg⟩ := hbegins
      cases hr.symm.trans hr'
      exact hg
    rw [exec_bsync_of_word hc hr hg hw hb, if_pos (hk h0 h1)]
  case count =>
    have hk : countOk (yB s f) = false := by
      refine Bool.eq_false_iff.2 fun h => ?_
      have := countOk_iff.1 h
      omega
    refine ⟨exec_hbarArrive_of_count hc hw hk, exec_hbarAw_of_count hc hw hk, fun hb ⟨r, g, hr, hg⟩ => ?_⟩
    rw [exec_bsync_of_word hc hr hg (.inl hw) hb, if_neg (Bool.eq_false_iff.1 hk)]

end Sys2Proof.Machine
end

section
namespace Sys2Proof.Machine

/-! ### Counters, times and system values (R242, R260) -/

namespace Tile

theorem x_writeX_of_ne (T : Tile) {r k : Nat} (h : k ≠ r) (v : Word) : (T.writeX r v).x[k]? = T.x[k]? := by
  unfold writeX
  split
  · rfl
  · exact List.getElem?_set_ne h.symm

/-- A write of an X register changes nothing else but a pending producer's claim. -/
theorem writeX_eq (T : Tile) (r : Nat) (v : Word) : T.writeX r v = { T with x := (T.writeX r v).x, ops := (T.writeX r v).ops } := by
  unfold writeX
  split <;> rfl

theorem dropHead_eq (T : Tile) : T.dropHead = { T with beads := T.beads.drop 1, ops := T.dropHead.ops } := by
  unfold dropHead
  split
  next h =>
    have hdrop : T.beads.drop 1 = T.beads := by rw [h]; rfl
    rw [hdrop]
  next h => rw [h]; rfl

theorem beadsKeep_advance {T U : Tile} (h : U.beads = T.beads) (dst : BitVec 6) : T.beadsKeep U.advance dst := by
  unfold advance beadsKeep
  split
  next hb => exact .inl (by rw [← h, hb]; rfl)
  next b rest hb =>
    split
    · exact .inl (by rw [dropHead_eq, ← h])
    · exact .inr ⟨b, { b with pc := b.pc + 1 }, rest, h ▸ hb, by simp [onHead, hb], rfl, fun _ _ => rfl⟩

theorem advance_eq (T : Tile) : T.advance = { T with beads := T.advance.beads, ops := T.advance.ops } := by
  unfold advance
  split
  · rfl
  next b rest hb =>
    split
    · rw [dropHead_eq]
    · simp [onHead, hb]

/-- A tile after a short-latency result in an X register. -/
theorem keeps_writeX (T : Tile) (dst : BitVec 6) (v : Word) : T.keeps (T.writeX dst.toNat v).advance dst false := by
  have hw := T.writeX_eq dst.toNat v
  refine ⟨fun k hk => ?x, fun k _ => ?v, fun k _ => ?p, ?rest, fun _ => ?gsr, beadsKeep_advance (by rw [hw]) dst⟩
  case x => rw [advance_x, T.x_writeX_of_ne hk]
  case v => rw [advance_v, hw]
  case p => rw [advance_p, hw]
  case gsr => rw [advance_gsr, hw]
  case rest =>
    rw [advance_eq]
    generalize (T.writeX dst.toNat v).advance.beads = bs
    generalize (T.writeX dst.toNat v).advance.ops = os
    rw [hw]

end Tile

/-- A short-latency result of the running element changes its tile alone. -/
theorem State.result_frame (s : State) (dst : BitVec 6) (v : Nat) :
    s.onlyTile (s.result dst v) s.here ∧ s.me.keeps (s.result dst v).me dst false ∧ ∀ a, memGet a (s.result dst v).mem = memGet a s.mem := by
  refine ⟨⟨rfl, fun u hu => s.tile_onMe_advance_of_ne hu _⟩, ?_, fun a => rfl⟩
  rw [State.result, State.me_advance, State.me_onMe]
  exact s.me.keeps_writeX dst _

section
variable {f : FmtY} {s : State}

theorem exec_cntrEv (h : s.canIssue ((s.me.effMask f.pg f.ps).getLsbD 0) [⟨f.sb, f.fe.getLsbD 1, 1⟩]) :
    exec (.cntrEv f) s = .next (s.result f.dst (if (s.ctx s.myCtx).visible then
      (match tabGet (yB s f % 64) (s.die (dieOf s.here)).counters with | some c => c.2.toNat | none => 0) else 0)) :=
  congrArg Host.Outcome.next (State.issue_of_can h _)

theorem exec_time (h : s.canIssue ((s.me.effMask f.pg f.ps).getLsbD 0) []) : exec (.time f) s = .next (s.result f.dst s.time) :=
  congrArg Host.Outcome.next (State.issue_of_can h _)

theorem exec_sysrd {f : FmtI} (h : s.canIssue ((s.me.effMask f.pg f.ps).getLsbD 0) []) :
    exec (.sysrd f) s = .next (s.result f.dst (sysValue s f.imm.toNat)) :=
  congrArg Host.Outcome.next (State.issue_of_can h _)

/-- What CNTR.TASK counts of the running region (R242). -/
def taskCounter (s : State) (sel : Nat) : Nat :=
  match s.regionOf s.here with
  | none => 0
  | some (_, g) => match sel % 4 with
    | 0 => ((s.task? g.task).map Task.replays).getD 0
    | 1 => ((s.task? g.task).map Task.depth).getD 0
    | 2 => ((s.launchOf g).map Launch.aborts).getD 0
    | _ => g.clk

theorem exec_cntrTask (h : s.canIssue ((s.me.effMask f.pg f.ps).getLsbD 0) [⟨f.sb, f.fe.getLsbD 1, 1⟩]) :
    exec (.cntrTask f) s = .next (s.result f.dst (taskCounter s (yB s f))) := by
  refine congrArg Host.Outcome.next ((State.issue_of_can h _).trans ?_)
  unfold taskCounter
  cases s.regionOf s.here <;> rfl

/-- What is left of the running task's allowance (R242). -/
def timeLeft (s : State) : Nat :=
  match s.regionOf s.here with
  | none => 0
  | some (_, g) => 2 ^ ((s.task? g.task).map Task.texp).getD 0 - g.clk

theorem exec_timeLeft (h : s.canIssue ((s.me.effMask f.pg f.ps).getLsbD 0) []) : exec (.timeLeft f) s = .next (s.result f.dst (timeLeft s)) := by
  refine congrArg Host.Outcome.next ((State.issue_of_can h _).trans ?_)
  unfold timeLeft
  cases s.regionOf s.here <;> rfl

section
variable {r : Nat} {g : Region} {k : Task} (hr : s.regionOf s.here = some (r, g)) (hk : s.task? g.task = some k)
include hr hk

theorem taskCounter_eq (sel : Nat) : taskCounter s sel = match sel % 4 with
    | 0 => k.replays | 1 => k.depth | 2 => ((s.launchOf g).map Launch.aborts).getD 0 | _ => g.clk := by
  simp only [taskCounter, hr, hk, Option.map_some, Option.getD_some]

theorem timeLeft_eq : timeLeft s = 2 ^ k.texp - g.clk := by
  simp only [timeLeft, hr, hk, Option.map_some, Option.getD_some]

theorem sysValue_eq (code : Nat) : sysValue s code = match code with
    | 0 => 0x53834 | 1 => s.boot.fwseq.toNat | 2 => s.boot.live.toNat | 3 => 1800
    | 4 => ((s.ctx g.ctx).vgrant.getD (dieOf s.here) 0).toNat | 5 => k.idx | 6 => k.prio | 7 => k.texp
    | 8 => (s.die (dieOf s.here)).age | _ => g.task := by
  have hc : s.myCtx = g.ctx := by simp only [State.myCtx, State.ctxOf, hr]
  simp only [sysValue, hr, hk, hc, Option.map_some, Option.getD_some] <;> rfl

end

end

/-! ### What synchronisation instructions leave alone (R231, R240) -/

namespace Tile
variable (T : Tile) (k : OpKind) (r : BitVec 6) (m : Mask) (v : Option Vec) (acq : Bool) (i : Instr)

/-- A long-latency producer marks the X register that it names empty, or the V register or slot, or nothing. -/
theorem issueOp_marks : ∃ T', ((T.issueOp k r m v acq i).x = T'.x ∧ (T.issueOp k r m v acq i).v = T'.v ∧ (T.issueOp k r m v acq i).p = T'.p)
    ∧ (T' = T ∨ T' = { T with x := T.x.set r.toNat ⟨T.readX r.toNat, false⟩ }
      ∨ Spec.isX r = false ∧ T' = T.setVreg r ⟨T.readV r, false⟩) := by
  unfold issueOp destOf
  cases hX : Spec.isX r with
  | true =>
    by_cases h0 : r = 0
    · exact ⟨T, by simp [h0], .inl rfl⟩
    · exact ⟨_, by simp only [if_true, if_neg h0, and_self], .inr (.inl rfl)⟩
  | false =>
    by_cases h48 : r.toNat < 48
    · exact ⟨_, by simp [h48], .inr (.inr ⟨rfl, rfl⟩)⟩
    · cases hb : T.head? with
      | none => exact ⟨T, by simp [h48], .inl rfl⟩
      | some b => exact ⟨_, by simp [h48], .inr (.inr ⟨rfl, rfl⟩)⟩

theorem issueOp_registers : (∀ n, n ≠ r.toNat → (T.issueOp k r m v acq i).x[n]? = T.x[n]?)
    ∧ (∀ n, n + 32 ≠ r.toNat → (T.issueOp k r m v acq i).v[n]? = T.v[n]?) ∧ (T.issueOp k r m v acq i).p = T.p := by
  obtain ⟨T', ⟨hx, hv, hp⟩, h⟩ := T.issueOp_marks k r m v acq i
  rw [hx, hv, hp]
  obtain rfl | rfl | ⟨hX, rfl⟩ := h
  · exact ⟨fun _ _ => rfl, fun _ _ => rfl, rfl⟩
  · exact ⟨fun n hn => List.getElem?_set_ne hn.symm, fun _ _ => rfl, rfl⟩
  · have h32 : 32 ≤ r.toNat := by simpa [Spec.isX] using hX
    refine ⟨fun n _ => by rw [setVreg_x], fun n hn => ?_, setVreg_p ..⟩
    unfold setVreg
    split
    · exact List.getElem?_set_ne (by omega)
    · rw [onHead_v]

end Tile

/-- The running element has at most written a register: memory, the other tiles, and its other registers are as they were. -/
structure State.WritesAtMost (s t : State) (dst : BitVec 6) : Prop where
  here : t.here = s.here
  mem : t.mem = s.mem
  tile : ∀ u, u ≠ s.here → t.tile u = s.tile u
  x : ∀ k, k ≠ dst.toNat → t.me.x[k]? = s.me.x[k]?
  v : ∀ k, k + 32 ≠ dst.toNat → t.me.v[k]? = s.me.v[k]?
  p : ∀ k, k + 56 ≠ dst.toNat → t.me.p[k]? = s.me.p[k]?

namespace State
variable {s t u : State} {dst : BitVec 6}

theorem WritesAtMost.trans (h : s.WritesAtMost t dst) (h' : t.WritesAtMost u dst) : s.WritesAtMost u dst where
  here := h'.here.trans h.here
  mem := h'.mem.trans h.mem
  tile := fun x hx => (h'.tile x (h.here ▸ hx)).trans (h.tile x hx)
  x := fun k hk => (h'.x k hk).trans (h.x k hk)
  v := fun k hk => (h'.v k hk).trans (h.v k hk)
  p := fun k hk => (h'.p k hk).trans (h.p k hk)

theorem writesAtMost_of_eq (hh : t.here = s.here) (ht : t.tiles = s.tiles) (hm : t.mem = s.mem) : s.WritesAtMost t dst := by
  have hme : t.me = s.me := by simp only [State.me, State.tile, hh, ht]
  refine ⟨hh, hm, fun u _ => by simp only [State.tile, ht], ?_, ?_, ?_⟩ <;> rw [hme] <;> exact fun _ _ => rfl

theorem Accounts.writesAtMost (h : s.Accounts t) : s.WritesAtMost t dst := writesAtMost_of_eq h.here h.tiles h.mem

theorem writesAtMost_bound (s : State) : s.WritesAtMost s.bound dst := by
  have h := s.samePlaces_bound
  refine writesAtMost_of_eq h.here h.tiles ?_
  unfold bound
  split
  next r g _ => exact onTask_mem ..
  next => rfl

theorem writesAtMost_acted (s : State) : s.WritesAtMost s.acted dst := by
  have h := s.sameElement_acted
  obtain ⟨b, hme⟩ := h.me
  refine ⟨h.here, mem_acted s, ?tile, ?_, ?_, ?_⟩
  case tile =>
    intro u hu
    unfold acted
    split
    next r g _ =>
      rw [onMe, onTask_here, tile_onTile_of_ne hu.symm]
      exact (s.samePlaces_onTask ..).tile u
    next => rfl
  all_goals rw [hme]; exact fun _ _ => rfl

/-- The issue of a long-latency instruction of Format Y marks its destination, and no other register. -/
theorem writesAtMost_issueY (s : State) (k : OpKind) (f : FmtY) (v : Option Nat) (acq : Bool) (i : Instr) :
    s.WritesAtMost (s.issueY k f v acq i) f.dst := by
  have hme : (s.issueY k f v acq i).me = (s.me.issueOp k f.dst 0 (v.map (BitVec.ofNat 512)) acq i).advance := by
    rw [issueY, me_advance, me_onMe]
  obtain ⟨hx, hv, hp⟩ := s.me.issueOp_registers k f.dst 0 (v.map (BitVec.ofNat 512)) acq i
  refine ⟨rfl, rfl, fun u hu => s.tile_onMe_advance_of_ne hu _, fun n hn => ?x, fun n hn => ?v, fun n _ => ?p⟩ <;> rw [hme]
  case x => rw [Tile.advance_x, hx n hn]
  case v => rw [Tile.advance_v, hv n hn]
  case p => rw [Tile.advance_p, hp]

theorem writesAtMost_enterNode (s : State) (l sc : Nat) (e : HsqEntry) : s.WritesAtMost (s.enterNode l sc e) dst := by
  unfold enterNode
  dsimp only
  split
  · split <;> exact writesAtMost_of_eq rfl rfl rfl
  · exact writesAtMost_of_eq rfl rfl rfl

theorem writesAtMost_onRegion (s : State) (r : Nat) (f : Region → Region) : s.WritesAtMost (s.onRegion r f) dst := by
  unfold onRegion
  split <;> exact writesAtMost_of_eq rfl rfl rfl

/-- A fault of a task that need not replay is posted: the registers and memory stay. -/
theorem writesAtMost_trap (hb : s.mayBind) (f : Flt) : s.WritesAtMost (s.trap f) dst := by
  obtain ⟨-, h⟩ | ⟨r, g, hr, ⟨hm, -⟩ | ⟨-, w6, lseq, s₁, hs₁, h⟩⟩ := s.raise_cases ⟨s.here, 0, 0, s.me.pc⟩ f
  · rw [trap, h]
    exact writesAtMost_of_eq rfl rfl rfl
  · exact absurd (hm.symm.trans (hb r g hr)) Bool.noConfusion
  · have h₁ : s.Accounts s₁ := by
      rw [hs₁]
      exact accounts_ite ((accounts_post ..).trans (accounts_onDie ..)) (accounts_post ..)
    rw [trap, h]
    split
    · exact (h₁.writesAtMost).trans (writesAtMost_of_eq rfl rfl rfl)
    · exact h₁.writesAtMost

theorem Accounts.actsAtOnce (h : s.Accounts t) {rel : Bool} (ha : s.actsAtOnce rel) : t.actsAtOnce rel := by
  obtain ⟨_, _, _, _, _, rfl⟩ := h
  exact ha

theorem actsAtOnce.of_true (h : s.actsAtOnce true) (rel : Bool) : s.actsAtOnce rel :=
  fun r g hr => ⟨(h r g hr).1, fun _ => (h r g hr).2 rfl⟩

theorem actsAtOnce.mayBind {rel : Bool} (h : s.actsAtOnce rel) : s.mayBind := fun r g hr => (h r g hr).1

end State

theorem atomWidth_div (f : FmtY) : atomWidth f / 8 = if f.flg.getLsbD 0 then 4 else 8 := by
  unfold atomWidth
  split <;> rfl

namespace State
variable {s u : State} {f : FmtY} {k : OpKind} {acq : Bool} {i : Instr} {pa : Nat} {e : HsqEntry}

theorem writesAtMost_sent (hu : s.WritesAtMost u f.dst) (hl : inRemote pa = false) (value : Nat → Nat) :
    s.WritesAtMost (u.sent f k acq i pa e value) f.dst := by
  rw [sent, hl, if_neg Bool.false_ne_true]
  exact ((hu.trans (accounts_touch ..).writesAtMost).trans (writesAtMost_issueY ..)).trans (writesAtMost_of_eq rfl rfl rfl)

theorem writesAtMost_entered (hu : s.WritesAtMost u f.dst) (p : Site) (c va : Nat) (l sc : Nat) :
    s.WritesAtMost (((u.touchHere p c va pa).asks f k acq i).enterNode l sc e) f.dst :=
  ((hu.trans (accounts_touchHere ..).writesAtMost).trans (writesAtMost_issueY ..)).trans (writesAtMost_enterNode ..)

end State

section
variable {f : FmtY} {s s₁ : State} {pa : Nat}

/-- An instruction ends in a state that differs from the one it began in by its destination at most. -/
def OnlyWrites (i : Instr) (s : State) (dst : BitVec 6) : Prop := ∃ t, exec i s = .next t ∧ s.WritesAtMost t dst

section
variable (ha : s₁.actsAtOnce true) (h₁ : s.WritesAtMost s₁ f.dst)
include ha h₁

section
variable (hm : inRemote pa = false)
include hm

theorem onlyWrites_atom (hc : s.canY f (if f.aop = 8 then 3 else 2)) (hw : s.syncWord (yA s f) (atomWidth f / 8) true = (s₁, .word pa)) :
    OnlyWrites (.atom f) s f.dst := by
  cases hq : s₁.mayAsk pa with
  | true => exact ⟨_, exec_atom_of_word hq hc hw (ha.of_true _), State.writesAtMost_sent (h₁.trans s₁.writesAtMost_acted) hm _⟩
  | false => exact ⟨s₁, exec_of_mayNotAsk (by simp) hc hw hq, h₁⟩

variable (hc : s.canY f 2)
include hc

theorem onlyWrites_wait (hw : s.syncWord (yA s f) (atomWidth f / 8) false = (s₁, .word pa)) : OnlyWrites (.wait f) s f.dst := by
  cases hq : s₁.mayAsk pa with
  | true => exact ⟨_, exec_wait_of_word hq hc ha.mayBind hw, State.writesAtMost_sent (h₁.trans s₁.writesAtMost_bound) hm _⟩
  | false => exact ⟨s₁, exec_of_mayNotAsk (f := f) (by simp) hc hw hq, h₁⟩

theorem onlyWrites_hbarWait (hw : s.syncWord (yA s f) 8 false = (s₁, .word pa)) : OnlyWrites (.hbarWait f) s f.dst := by
  cases hq : s₁.mayAsk pa with
  | true => exact ⟨_, exec_hbarWait_of_word hq hc ha.mayBind hw, State.writesAtMost_sent (h₁.trans s₁.writesAtMost_bound) hm _⟩
  | false => exact ⟨s₁, exec_of_mayNotAsk (f := f) (by simp) hc hw hq, h₁⟩

end

section
variable (hc : s.canY f 2)
include hc

theorem onlyWrites_atomTree (hw : s.syncWord (yA s f) (atomWidth f / 8) true = (s₁, .word pa)) : OnlyWrites (.atomTree f) s f.dst := by
  cases hn : s₁.combining pa with
  | true => exact ⟨s₁, exec_of_combining (f := f) (by simp) hc hw hn (.inl rfl), h₁⟩
  | false => exact ⟨_, exec_atomTree_of_word hn hc hw (ha.of_true _), State.writesAtMost_entered (h₁.trans s₁.writesAtMost_acted) ..⟩

variable (hw : s.syncWord (yA s f) 8 true = (s₁, .word pa))
include hw

theorem onlyWrites_hbarArrive : OnlyWrites (.hbarArrive f) s f.dst := by
  cases hk : countOk (yB s f) with
  | false => exact ⟨_, exec_hbarArrive_of_count hc hw hk, h₁.trans (State.writesAtMost_trap ha.mayBind _)⟩
  | true =>
    cases hn : s₁.combining pa with
    | true => exact ⟨s₁, exec_of_combining (f := f) (by simp) hc hw hn (.inr hk), h₁⟩
    | false => exact ⟨_, exec_hbarArrive_of_word hn hc hw ha hk, State.writesAtMost_entered (h₁.trans s₁.writesAtMost_acted) ..⟩

theorem onlyWrites_hbarAw : OnlyWrites (.hbarAw f) s f.dst := by
  cases hk : countOk (yB s f) with
  | false => exact ⟨_, exec_hbarAw_of_count hc hw hk ha.mayBind, (h₁.trans s₁.writesAtMost_bound).trans (State.writesAtMost_issueY ..)⟩
  | true =>
    cases hn : s₁.combining pa with
    | true => exact ⟨s₁, exec_of_combining (f := f) (by simp) hc hw hn (.inr hk), h₁⟩
    | false => exact ⟨_, exec_hbarAw_of_word hn hc hw ha hk, State.writesAtMost_entered (h₁.trans s₁.writesAtMost_acted) ..⟩

theorem onlyWrites_bsync {r : Nat} {g : Region} (hr : s.regionOf s.here = some (r, g)) (hg : g.bsync = none) :
    OnlyWrites (.bsync f) s f.dst := by
  refine ⟨_, exec_bsync_of_word hc hr hg (.inl hw) ha.mayBind, ?_⟩
  have hb : s.WritesAtMost s₁.bound f.dst := h₁.trans s₁.writesAtMost_bound
  split
  · exact (hb.trans (s₁.bound.writesAtMost_issueY .bsync f none true (.bsync f))).trans (State.writesAtMost_onRegion ..)
  · exact hb.trans (State.writesAtMost_issueY ..)

end

section
variable {i : Instr} {n j : Nat} {wr : Bool}

/-- An atomic, or an arrival alone, that its word refuses traps. -/
theorem onlyWrites_of_traps {w : State.SyncWord} (hi : (i, n, j, wr) ∈ [(.atom f, if f.aop = 8 then 3 else 2, atomWidth f / 8, true),
      (.atomTree f, 2, atomWidth f / 8, true), (.hbarArrive f, 2, 8, true)]) (hc : s.canY f n)
    (hw : s.syncWord (yA s f) j wr = (s₁, w)) (hx : (∃ d, w = .bad d) ∨ ∃ e, w = .fault e) : OnlyWrites i s f.dst := by
  obtain ⟨d, rfl⟩ | ⟨e, rfl⟩ := hx
  · exact ⟨_, exec_of_unreached hi hc hw (.inr (.inl ⟨d, rfl, rfl⟩)), h₁.trans (State.writesAtMost_trap ha.mayBind _)⟩
  · exact ⟨_, exec_of_unreached hi hc hw (.inl rfl), h₁.trans (State.writesAtMost_trap ha.mayBind _)⟩

/-- An instruction that waits answers BADWORD at a word that is none, and traps at another fault. -/
theorem onlyWrites_of_answers {w : State.SyncWord}
    (hi : ∃ o acq, (i, j, wr, o, acq) ∈ [(Instr.wait f, atomWidth f / 8, false, OpKind.wait, f.ord.getLsbD 0),
      (.hbarWait f, 8, false, .wait, true), (.hbarAw f, 8, true, .wait, true), (.bsync f, 8, true, .bsync, true)]) (hc : s.canY f 2)
    (hg : i = .bsync f → ∃ r g, s.regionOf s.here = some (r, g) ∧ g.bsync = none) (hw : s.syncWord (yA s f) j wr = (s₁, w))
    (hx : (∃ d, w = .bad d) ∨ ∃ e, w = .fault e) : OnlyWrites i s f.dst := by
  obtain ⟨o, acq, hi⟩ := hi
  obtain ⟨d, rfl⟩ | ⟨e, rfl⟩ := hx
  · exact ⟨_, exec_of_badWord hi hc hg hw ha.mayBind, (h₁.trans s₁.writesAtMost_bound).trans (State.writesAtMost_issueY ..)⟩
  · exact ⟨_, exec_of_wordFault hi hc hg hw, h₁.trans (State.writesAtMost_trap ha.mayBind _)⟩

end

end

theorem exec_bsync_of_noRegion (hc : s.canY f 2) (hr : s.regionOf s.here = none) : exec (.bsync f) s = .next s := by
  refine (syncOp_of_can hc _).trans ?_
  simp only [hr]

/-- A BSYNC that does not begin one of its region traps, or finds no region. -/
theorem begins_or_onlyWrites_bsync (hc : s.canY f 2) (ha : s.actsAtOnce true) :
    (∃ r g, s.regionOf s.here = some (r, g) ∧ g.bsync = none) ∨ OnlyWrites (.bsync f) s f.dst := by
  cases hr : s.regionOf s.here with
  | none => exact .inr ⟨s, exec_bsync_of_noRegion hc hr, State.writesAtMost_of_eq rfl rfl rfl⟩
  | some q =>
    by_cases hg : q.2.bsync = none
    · exact .inl ⟨q.1, q.2, rfl, hg⟩
    · have hb := (s.accounts_draw.actsAtOnce ha).mayBind
      exact .inr ⟨_, exec_bsync_of_second hc hr hg, s.accounts_draw.writesAtMost.trans (State.writesAtMost_trap hb _)⟩

/-- A synchronisation instruction at a word of this package writes its destination at most, with nothing to replay, to wait for or to commit. -/
theorem onlyWrites_sync {i : Instr} {n j : Nat} {wr : Bool} (hi : (i, n, j, wr) ∈ [(.atom f, if f.aop = 8 then 3 else 2, atomWidth f / 8, true),
      (.atomTree f, 2, atomWidth f / 8, true), (.wait f, 2, atomWidth f / 8, false), (.hbarArrive f, 2, 8, true), (.hbarWait f, 2, 8, false),
      (.hbarAw f, 2, 8, true), (.bsync f, 2, 8, true)]) (hc : s.canY f n) (ha : s.actsAtOnce true)
    (hw : ∀ pa, ((s.syncWord (yA s f) j wr).2 = .word pa → inRemote pa = false) ∧ (s.syncWord (yA s f) j wr).2 ≠ .lost pa) :
    OnlyWrites i s f.dst := by
  obtain ⟨s₁, w, hx⟩ : ∃ s₁ w, s.syncWord (yA s f) j wr = (s₁, w) := ⟨_, _, rfl⟩
  rw [hx] at hw
  have h₁ := State.accounts_of_syncWord hx
  have ha₁ := h₁.actsAtOnce ha
  simp only [List.mem_cons, Prod.mk.injEq, List.not_mem_nil, or_false] at hi
  cases w with
  | lost pa => exact absurd rfl (hw pa).2
  | word pa =>
    have hl := (hw pa).1 rfl
    obtain ⟨rfl, rfl, rfl, rfl⟩ | ⟨rfl, rfl, rfl, rfl⟩ | ⟨rfl, rfl, rfl, rfl⟩ | ⟨rfl, rfl, rfl, rfl⟩ | ⟨rfl, rfl, rfl, rfl⟩
      | ⟨rfl, rfl, rfl, rfl⟩ | ⟨rfl, rfl, rfl, rfl⟩ := hi
    · exact onlyWrites_atom ha₁ h₁.writesAtMost hl hc hx
    · exact onlyWrites_atomTree ha₁ h₁.writesAtMost hc hx
    · exact onlyWrites_wait ha₁ h₁.writesAtMost hl hc hx
    · exact onlyWrites_hbarArrive ha₁ h₁.writesAtMost hc hx
    · exact onlyWrites_hbarWait ha₁ h₁.writesAtMost hl hc hx
    · exact onlyWrites_hbarAw ha₁ h₁.writesAtMost hc hx
    · exact (begins_or_onlyWrites_bsync hc ha).elim (fun ⟨r, g, hr, hg⟩ => onlyWrites_bsync ha₁ h₁.writesAtMost hc hx hr hg) id
  | bad | fault =>
    have traps {k} (h) (hc : s.canY f k) := onlyWrites_of_traps (i := i) ha₁ h₁.writesAtMost h hc hx (by simp)
    have answers (h) (hc : s.canY f 2) hg := onlyWrites_of_answers (i := i) ha₁ h₁.writesAtMost h hc hg hx (by simp)
    obtain ⟨rfl, rfl, rfl, rfl⟩ | ⟨rfl, rfl, rfl, rfl⟩ | ⟨rfl, rfl, rfl, rfl⟩ | ⟨rfl, rfl, rfl, rfl⟩ | ⟨rfl, rfl, rfl, rfl⟩
      | ⟨rfl, rfl, rfl, rfl⟩ | ⟨rfl, rfl, rfl, rfl⟩ := hi
    case inr.inr.inr.inr.inr.inr =>
      exact (begins_or_onlyWrites_bsync hc ha).elim (fun hg => answers (by simp) hc fun _ => hg) id
    case inl | inr.inl | inr.inr.inr.inl => exact traps (by simp) hc
    all_goals exact answers (by simp) hc nofun

end

/-- Settles O25: a counter, a time or a system value is a `State.result`; a synchronisation instruction ends in a state that `WritesAtMost`
relates to the one it began in. -/
theorem countersAndSystemReads : Obligations.CountersAndSystemReads := by
  refine ⟨fun f g s r R k => ?values, fun f s t i srcs hi hc ht => ?reads, fun f s t hc ht => ?sysrdFrame, fun f s t i n j wr => ?sync⟩
  case values =>
    intro lane0 writes sel hr hk
    refine ⟨fun hc => ⟨exec_cntrEv hc, (exec_cntrTask hc).trans ?task⟩, fun hc => ⟨exec_time hc, (exec_timeLeft hc).trans ?left⟩,
      fun hc => (exec_sysrd hc).trans ?sysrd⟩
    case task => rw [taskCounter_eq hr hk]; rfl
    case left => rw [timeLeft_eq hr hk]; rfl
    case sysrd => rw [sysValue_eq hr hk]; rfl
  case reads =>
    simp only [List.mem_cons, Prod.mk.injEq, List.not_mem_nil, or_false] at hi
    have frame {v} (h : exec i s = .next (s.result f.dst v)) := Host.Outcome.next.inj (h.symm.trans ht) ▸ s.result_frame f.dst v
    obtain ⟨rfl, rfl⟩ | ⟨rfl, rfl⟩ | ⟨rfl, rfl⟩ | ⟨rfl, rfl⟩ := hi
    · exact frame (exec_cntrEv hc)
    · exact frame (exec_cntrTask hc)
    · exact frame (exec_time hc)
    · exact frame (exec_timeLeft hc)
  case sysrdFrame => exact Host.Outcome.next.inj ((exec_sysrd hc).symm.trans ht) ▸ s.result_frame f.dst _
  case sync =>
    intro w hi hc ha hw ht
    simp only [w, ← atomWidth_div] at hi
    obtain ⟨t', he, h⟩ := onlyWrites_sync hi hc ha hw
    obtain rfl : t' = t := Host.Outcome.next.inj (he.symm.trans ht)
    exact ⟨fun a => congrArg (memGet a) h.mem, h.tile, h.x, h.v, h.p⟩

end Sys2Proof.Machine
end

section
namespace Sys2Proof.Machine

/-! ### Requests at the head of a channel (R234, R235, R237, R238, R240, R252) -/

section
variable {s : State} {e x : HsqEntry} {r : Nat} {g : Region}

/-- An issuer whose region is not being drained meets the fault, and its request is kept to be made again (R381). -/
theorem State.refuse_of_undrained (hr : s.regionOf x.t = some (r, g)) (hd : g.drain = none) (f : Flt) :
    s.refuse x f = State.raise { s with retry := s.retry ++ [x] } ⟨x.t, 0, 0, x.widx⟩ f := by
  simp only [State.refuse, hr, hd, Option.isSome_none, Bool.false_eq_true, if_false]

/-- The request of an ATOM or of an append: one element made it. -/
def HsqEntry.isSingle (e : HsqEntry) : Prop :=
  (∃ aop w uns b c, e.req = .atom aop w uns b c) ∨ ∃ cmd entry pa cmp cells, e.req = .chapp cmd entry pa cmp cells

theorem State.issuerBad_of_isSingle (he : e.isSingle) (f : Flt) : s.issuerBad e f = s.refuse e f := by
  obtain ⟨aop, w, uns, b, c, he⟩ | ⟨cmd, entry, pa, cmp, cells, he⟩ := he <;>
    simp only [State.issuerBad, HsqEntry.parts, he, List.foldl_cons, List.foldl_nil]

theorem State.blockFault_self (e : HsqEntry) : State.blockFault e e.pa = .decmp (e.va / 256 * 256) := by
  rw [State.blockFault, Nat.add_sub_cancel]

/-- The operations whose results R234 writes out are those of `atomOp`. -/
theorem atomOp_eq (aop w : Nat) (uns : Bool) (old b c : Nat) :
    atomOp aop w uns old b c = match aop with
      | 0 => (old % 2 ^ w + b % 2 ^ w) % 2 ^ w
      | 4 => old % 2 ^ w &&& b % 2 ^ w | 5 => old % 2 ^ w ||| b % 2 ^ w | 6 => old % 2 ^ w ^^^ b % 2 ^ w
      | 7 => b % 2 ^ w
      | n => atomOp n w uns old b c := by
  split <;> rfl

end

/-- The requests that HSQ_ATOM_APPLY serves: ATOMs, merged groups and appends. -/
def HsqEntry.isUpdate (e : HsqEntry) : Bool := match e.req with | .atom .. | .atoms .. | .chapp .. => true | _ => false

section
variable {v : Nat} {s s₁ : State} {e : HsqEntry} (h : s.takeHead v HsqEntry.isUpdate = some (e, s₁))
include h

/-- A request at a bad word: its issuer meets DECMP, and the word is made good (R402). -/
theorem exec_hsqAtomApply_of_bad {r : Nat} {g : Region} (hbad : s₁.badSync e.pa = true) (hr : s₁.regionOf e.t = some (r, g))
    (hd : g.drain = none) (he : e.isSingle) :
    exec (.hsqAtomApply v) s = .next
      ((State.raise { s₁ with retry := s₁.retry ++ [e] } ⟨e.t, 0, 0, e.widx⟩ (.decmp (e.va / 256 * 256))).mendSync e.pa) := by
  rw [← State.refuse_of_undrained hr hd, ← State.issuerBad_of_isSingle he, ← State.blockFault_self]
  change execHsqAtomApply v s = _
  erw [execHsqAtomApply, h]
  simp only [hbad, if_true]

variable (hbad : s₁.badSync e.pa = false)
include hbad

/-- An ATOM is applied to its word, and its issuer gets the old value (R234). -/
theorem exec_hsqAtomApply_of_atom {aop w : Nat} {uns : Bool} {b c : Word} {op : Nat} (he : e.req = .atom aop w uns b c) (hop : e.op = some op) :
    exec (.hsqAtomApply v) s = .next ((s₁.finish e.t op (atomResult aop w uns (s₁.syncRead e.pa w)).toNat).syncWrite e.pa w
      (atomOp aop w uns (s₁.syncRead e.pa w) b.toNat c.toNat)) := by
  change execHsqAtomApply v s = _
  erw [execHsqAtomApply, h]
  simp only [hbad, he, hop, Bool.false_eq_true, if_false]

/-- A merged group is applied together, and its issuers get 0 (R235). -/
theorem exec_hsqAtomApply_of_atoms {aop w : Nat} {uns : Bool} {items : List (Word × Nat × Nat)} (he : e.req = .atoms aop w uns items) :
    let u := items.foldl (fun s m => s.finish m.2.1 m.2.2 0) s₁
    exec (.hsqAtomApply v) s = .next (u.syncWrite e.pa w (groupOp aop w uns (u.syncRead e.pa w) (items.map fun m => m.1.toNat))) := by
  change execHsqAtomApply v s = _
  erw [execHsqAtomApply, h]
  simp only [hbad, he, Bool.false_eq_true, if_false]

section
variable {cmd cmp : Bool} {entry pa : Nat} {cells : List Host.Cell} (he : e.req = .chapp cmd entry pa cmp cells)
  (hw : s₁.badWords e.pa = [])
include he hw

/-- An append whose new entry lies in a malformed block is met by its issuer (R288). -/
theorem exec_hsqAtomApply_of_spoiled {r : Nat} {g : Region} (hr : s₁.regionOf e.t = some (r, g)) (hd : g.drain = none)
    (hs : s₁.wouldSpoil cmp (cellsAt pa [0]) = true) :
    let u := s₁.count (dieOf e.t) .zmbRefetch
    exec (.hsqAtomApply v) s = .next
      (State.raise { u with retry := u.retry ++ [e] } ⟨e.t, 0, 0, e.widx⟩ (.decmp (entry / 256 * 256))) := by
  intro u
  have hsingle : e.isSingle := .inr ⟨_, _, _, _, _, he⟩
  have hru : u.regionOf e.t = some (r, g) := hr
  rw [← State.refuse_of_undrained hru hd, ← State.issuerBad_of_isSingle hsingle]
  change execHsqAtomApply v s = _
  erw [execHsqAtomApply, h]
  simp only [hbad, he, hw, hs, Bool.false_eq_true, if_false, if_true, u]

variable (hs : s₁.wouldSpoil cmp (cellsAt pa [0]) = false)
include hs

/-- The link of the chain's former tail cannot be written: the issuer meets the fault (R374). -/
theorem exec_hsqAtomApply_of_tailFault {s₂ : State} {f : Flt} {r : Nat} {g : Region}
    (ht : s₁.tailPlace ⟨e.t, 0, 0, e.widx⟩ e.ctx (s₁.homeWord e.pa) = (s₂, .error f)) (hr : s₂.regionOf e.t = some (r, g))
    (hd : g.drain = none) :
    exec (.hsqAtomApply v) s = .next (State.raise { s₂ with retry := s₂.retry ++ [e] } ⟨e.t, 0, 0, e.widx⟩ f) := by
  have hsingle : e.isSingle := .inr ⟨_, _, _, _, _, he⟩
  rw [← State.refuse_of_undrained hr hd, ← State.issuerBad_of_isSingle hsingle]
  change execHsqAtomApply v s = _
  erw [execHsqAtomApply, h]
  simp only [hbad, he, hw, hs, ht, Bool.false_eq_true, if_false]

/-- An append writes its entry, links it at the former tail, wakes the chain and answers with the sequence number (R252). -/
theorem exec_hsqAtomApply_of_append {s₂ : State} {link : Option (Nat × Bool)} {op : Nat} (hop : e.op = some op)
    (ht : s₁.tailPlace ⟨e.t, 0, 0, e.widx⟩ e.ctx (s₁.homeWord e.pa) = (s₂, .ok link)) :
    let s₃ := match link with | some l => s₂.touch ⟨e.t, 0, 0, e.widx⟩ e.ctx (s₁.homeWord e.pa + 72) l.1 | none => s₂
    let y := s₃.entryCells e cmd pa cells
    let x := y.2.appendEntry e.pa entry pa cmp y.1 link
    let u := if cmd then x.2.onRegionOf e.t fun g => { g with chained := g.chained ++ [(e.pa, x.1, g.place e.t, op)] } else x.2
    exec (.hsqAtomApply v) s = .next ((u.wakeChain e.ctx e.pa e.va).finish e.t op x.1) := by
  intro s₃ y x u
  change execHsqAtomApply v s = _
  erw [execHsqAtomApply, h]
  simp only [hbad, he, hw, hs, ht, hop, Bool.false_eq_true, if_false, Option.getD_some]
  rfl

end

end

/-- Settles O26: each outcome is the branch of HSQ_ATOM_APPLY for the request taken. -/
theorem atomicsAreApplied : Obligations.AtomicsAreApplied := by
  intro v s s₁ e h fails
  have h : s.takeHead v HsqEntry.isUpdate = some (e, s₁) := h
  refine ⟨fun r g hbad hr hd he => exec_hsqAtomApply_of_bad h hbad hr hd he, fun hbad => ⟨fun aop w uns b c op he hop => ?atom,
    fun aop w uns items he => exec_hsqAtomApply_of_atoms h hbad he, fun cmd entry pa cmp cells op he hop hw => ⟨fun r g hr hd hs => ?spoiled,
      fun hs => ⟨fun s₂ f r g ht hr hd => ?tail, fun s₂ link ht => ?append⟩⟩⟩⟩
  case atom =>
    refine (exec_hsqAtomApply_of_atom h hbad he hop).trans (congrArg _ (congrArg _ ?_))
    exact atomOp_eq ..
  case spoiled => exact exec_hsqAtomApply_of_spoiled h hbad he hw hr hd hs
  case tail => exact exec_hsqAtomApply_of_tailFault h hbad he hw hs ht hr hd
  case append => exact exec_hsqAtomApply_of_append h hbad he hw hs hop ht

end Sys2Proof.Machine
end

section
namespace Sys2Proof.Machine

/-! ### Barriers and waits at a word's home (R237, R238, R240) -/

/-- Arrivals move the count of a barrier word, and its generation each time the count is complete (R240). -/
theorem arriveWord_eq {w k n : Nat} (h0 : 0 < n) (h1 : n < 2 ^ 32) :
    arriveWord w k n = (w / 2 ^ 32 + (w % 2 ^ 32 + k) / n) % 2 ^ 32 * 2 ^ 32 + (w % 2 ^ 32 + k) % n := by
  rw [arriveWord, Nat.mod_eq_of_lt ((Nat.mod_lt _ h0).trans h1)]

/-- A group of arrivals at a barrier (R240). -/
def HsqEntry.isArrival (e : HsqEntry) : Bool := match e.req with | .arrive .. => true | _ => false

/-- The arrivals at the head of a channel are applied as one step; those that go on wait past their generation (R240). -/
theorem exec_hsqBarrierArrival_of_arrive {v n more : Nat} {s s₁ : State} {e : HsqEntry} {ms : List (Nat × Nat × Option (Option Nat))}
    (h : s.takeHead v HsqEntry.isArrival = some (e, s₁)) (hbad : s₁.badSync e.pa = false) (he : e.req = .arrive n more ms) :
    let old := s₁.syncRead e.pa 64
    exec (.hsqBarrierArrival v) s = .next (ms.foldl (fun s m =>
      match m.2.2 with
      | none => s.finish m.1 m.2.1 (old / 2 ^ 32)
      | some due => s.evaluate { e with
          pa := e.pa + 4
          t := m.1
          op := some m.2.1
          req := .wait 1 32 true (BitVec.ofNat 64 (old / 2 ^ 32)) (due.getD 0) due.isNone true })
      (s₁.syncWrite e.pa 64 (arriveWord old (ms.length + more) n))) := by
  change execHsqBarrierArrival v s = _
  erw [execHsqBarrierArrival, h]
  simp only [hbad, he, Bool.false_eq_true, if_false] <;> rfl

namespace State
variable {s : State}

theorem time_finish (s : State) (t op v : Nat) : (s.finish t op v).time = s.time := by
  unfold finish
  dsimp only
  split
  next r g _ =>
    split
    next b _ => split <;> rfl
    next => rfl
  next => rfl

theorem time_foldl {α : Type} {step : State → α → State} (h : ∀ s a, (step s a).time = s.time) (as : List α) (s : State) :
    (as.foldl step s).time = s.time := by
  induction as generalizing s with
  | nil => rfl
  | cons a as ih => exact (ih _).trans (h s a)

theorem time_of_takeHead {s₁ : State} {v : Nat} {p : HsqEntry → Bool} {e : HsqEntry} (h : s.takeHead v p = some (e, s₁)) : s₁.time = s.time := by
  unfold takeHead at h
  split at h
  · cases h
    rfl
  · cases h

section
variable {e : HsqEntry} {cc w : Nat} {uns once acq : Bool} {b : Word} {due op : Nat} (he : e.req = .wait cc w uns b due once acq)
  (hop : e.op = some op)
include he hop

/-- A WAIT that is not late and whose condition holds is answered MET (R237). -/
theorem evaluate_of_holds (hl : once = true ∨ s.time ≤ due) (hc : condHolds cc w uns (s.syncRead e.pa w) b.toNat = true) :
    s.evaluate e = s.finish e.t op 0 := by
  have hlate : (!once && decide (due < s.time)) = false := by
    rcases hl with rfl | hl
    · rfl
    · simp [hl.not_gt]
  simp only [evaluate, he, hop, hlate, hc, Bool.false_eq_true, if_false, if_true]

variable (hc : condHolds cc w uns (s.syncRead e.pa w) b.toNat = false)
include hc

/-- One that makes one evaluation, whose condition does not hold, is answered TIMEOUT (R237). -/
theorem evaluate_of_once (ho : once = true) : s.evaluate e = s.finish e.t op 1 := by
  simp only [evaluate, he, hop, ho, hc, Bool.not_true, Bool.false_and, Bool.false_eq_true, if_false, if_true]

variable (ho : once = false) (hl : s.time ≤ due)
include ho hl

/-- Another stays at the head of its channel while no entry is free (R238). -/
theorem evaluate_of_full (hf : s.armedFull (homeVault e.pa) e.ctx = true) :
    s.evaluate e = s.setHsq (homeVault e.pa) (e :: s.hsqOf (homeVault e.pa)) := by
  simp only [evaluate, he, hop, ho, hl.not_gt, hc, hf, decide_false, Bool.and_false, Bool.false_eq_true, if_false, if_true]

/-- With an entry free it is armed (R238). -/
theorem evaluate_of_room (hf : s.armedFull (homeVault e.pa) e.ctx = false) : s.evaluate e
    = { s with armed := s.armed ++ [⟨e.ctx, e.pa, cc, w, uns, b, due, e.t, op, e.va / 8 * 8 + e.pa % 8, e.widx, false⟩] } := by
  simp only [evaluate, he, hop, ho, hl.not_gt, hc, hf, decide_false, Bool.and_false, Bool.false_eq_true, if_false]

end

end State

/-- A WAIT of a channel that waits in the queue at its word's home past its deadline (R238). -/
def HsqEntry.isLate (c now : Nat) (e : HsqEntry) : Bool :=
  e.ctx == c && match e.req with | .wait _ _ _ _ due once _ => !once && decide (due < now) | _ => false

/-- A WAIT of a channel. -/
def HsqEntry.isWait (c : Nat) (e : HsqEntry) : Bool := e.ctx == c && match e.req with | .wait .. => true | _ => false

/-- The late WAITs of a channel are answered TIMEOUT, unevaluated (R238). -/
def State.dropLate (s : State) (v c : Nat) : State :=
  ((s.hsqOf v).filter (HsqEntry.isLate c s.time)).foldl (fun s e => match e.op with | some op => s.finish e.t op 1 | none => s)
    (s.setHsq v ((s.hsqOf v).filter fun e => !e.isLate c s.time))

theorem State.time_dropLate (s : State) (v c : Nat) : (s.dropLate v c).time = s.time := by
  refine State.time_foldl (fun s e => ?_) _ _
  split
  next op _ => exact s.time_finish ..
  next => rfl

section
variable {v c : Nat} {s s₁ : State} {e : HsqEntry}

theorem exec_waitDequeue_of_none (h : (s.dropLate v c).takeHead v (HsqEntry.isWait c) = none) :
    exec (.waitDequeue v c) s = .next (s.dropLate v c) := by
  change execWaitDequeue v c s = _
  simp only [execWaitDequeue]
  erw [h]
  rfl

theorem exec_waitDequeue_of_wait (h : (s.dropLate v c).takeHead v (HsqEntry.isWait c) = some (e, s₁)) (hbad : s₁.badSync e.pa = false) :
    exec (.waitDequeue v c) s = .next (s₁.evaluate e) := by
  change execWaitDequeue v c s = _
  simp only [execWaitDequeue]
  erw [h]
  simp only [hbad, Bool.false_eq_true, if_false]

end

theorem exec_waitTimeout_of_due {k : Nat} {s : State} {a : Armed} (h : s.armed[k]? = some a) (hd : a.deadline ≤ s.time) :
    exec (.waitTimeout k) s = .next ({ s with armed := s.armed.eraseIdx k }.finish a.t a.op 1) := by
  change execWaitTimeout k s = _
  simp only [execWaitTimeout, h, hd, if_true]

/-- Settles O27: arrivals by `arriveWord_eq`; a WAIT at the head is evaluated at the time of the step, which dropping late ones keeps. -/
theorem barriersAndWaits : Obligations.BarriersAndWaits := by
  intro v c k s s₁ e
  refine ⟨fun n more ms h hbad he h0 h1 => ?arrive, ⟨fun h => exec_waitDequeue_of_none h,
    fun cc w uns b due once acq op h hbad he hop => ?wait⟩, fun a h hd => exec_waitTimeout_of_due h hd⟩
  case arrive =>
    intro old cnt u
    have hu : u = s₁.syncWrite e.pa 64 (arriveWord old (ms.length + more) n) := by rw [arriveWord_eq h0 h1]
    rw [hu]
    exact exec_hsqBarrierArrival_of_arrive h hbad he
  case wait =>
    intro holds
    have htime : s₁.time = s.time := (State.time_of_takeHead h).trans (s.time_dropLate v c)
    rw [exec_waitDequeue_of_wait h hbad, ← htime]
    refine ⟨fun ho => ?once, fun ho hl => ⟨fun hc => ?met, fun hc hv hf => ?stays, fun hc hf hctx => ?armed⟩⟩
    case once =>
      cases hc : holds with
      | true => exact congrArg _ (State.evaluate_of_holds he hop (.inl ho) hc)
      | false => exact congrArg _ (State.evaluate_of_once he hop hc ho)
    case met => exact congrArg _ (State.evaluate_of_holds he hop (.inr hl) hc)
    case stays =>
      subst hv
      exact congrArg _ (State.evaluate_of_full he hop hc ho hl hf)
    case armed =>
      subst hctx
      refine congrArg _ (State.evaluate_of_room he hop hc ho hl ?_)
      exact decide_eq_false (Nat.not_le.2 hf)

end Sys2Proof.Machine
end

section
namespace Sys2Proof.Machine

/-! ### Engine commands and chains (R244 to R251, R366, R374) -/

section
variable {s s₁ : State} {d e c : Nat} {k : EngCmd}

theorem startCommand_of_fault {f : Flt} (h : s.bodyFault d e c k = (s₁, some f)) :
    startCommand s d e c k = s₁.stopEngine d e c k f k.prog := by
  simp only [startCommand, h]

/-- A command that is no COLL and passes its checks becomes the current one (R245). -/
theorem startCommand_of_ok (h : s.bodyFault d e c k = (s₁, none)) (hfn : k.fn ≠ 4) :
    startCommand s d e c k = s₁.setEngine d e c { s₁.engine d e c with cur := some { k with started := true, ord := 0 } } := by
  simp only [startCommand, h, hfn, if_false]

/-- The command at the head of an idle engine's queue starts once its issuer has no earlier access to perform (R244, R245). -/
theorem exec_engineCommandStart_of_idle {q : List EngCmd} (hs : (s.engine d e c).stopped = none) (hq : (s.engine d e c).queue = k :: q)
    (hcur : (s.engine d e c).cur = none) (ht : (s.engine d e c).turn = false ∨ (s.engine d e c).chains = []) :
    exec (.engineCommandStart d e c) s = .next (if s.issuerBusy k then s
      else startCommand (s.setEngine d e c { s.engine d e c with queue := q, turn := true }) d e c k) := by
  have hturn : ((s.engine d e c).turn && !(s.engine d e c).chains.isEmpty) = false := by
    rcases ht with h | h <;> simp [h]
  change execEngineCommandStart d e c s = _
  simp only [execEngineCommandStart, hs, hq, hcur, hturn, Bool.false_or]

end

section
variable {s s₀ s₁ : State} {d e c : Nat} {k k₀ : EngCmd}

/-- A command that is no A2A and no COLL is finished once its run has done all of it (R244). -/
theorem finished_of_done (h3 : k.fn ≠ 3) (h4 : k.fn ≠ 4) (ha : s.readAhead (State.engineSite d e) c k = (s₀, k₀, none))
    (hrun : s₀.runCommand d e c k₀ = (s₁, .done)) : finished s d e c k = some s₁ := by
  simp [finished, h3, h4, ha, hrun]

variable (hs : (s.engine d e c).stopped = none) (hk : (s.engine d e c).cur = some k) (hst : k.started = true)
include hs hk hst

/-- A finished command of the port form writes its completion word, and its ticket is done (R244). -/
theorem exec_engineCommandComplete_of_ticket {s₂ : State} (hf : finished s d e c k = some s₁) (he : k.entry = none)
    (hw : s₁.writeCw d e c k k.ticket = (s₂, none)) :
    exec (.engineCommandComplete d e c) s = .next (s₂.setEngine d e c { s₂.engine d e c with cur := none, done := k.ticket }) := by
  change execEngineCommandComplete d e c s = _
  simp only [execEngineCommandComplete, hs, hk, hst, hf, he, hw, Bool.not_true, Bool.false_eq_true, if_false]

section
variable {f : Flt} (h3 : k.fn ≠ 3) (hheld : ¬ (k.fn = 4 ∧ k.held = false))
include h3 hheld

theorem exec_engineFault_of_stopped {prog : Nat} (ha : s.readAhead (State.engineSite d e) c k = (s₀, k₀, none))
    (hrun : s₀.runCommand d e c k₀ = (s₁, .stopped f prog)) :
    exec (.engineFault d e c) s = .next (s₁.stopEngine d e c k₀ f prog) := by
  change execEngineFault d e c s = _
  simp only [execEngineFault, hs, hk]
  simp [hst, h3, hheld, ha, hrun]

theorem exec_engineFault_of_readAhead (ha : s.readAhead (State.engineSite d e) c k = (s₀, k₀, some f)) :
    exec (.engineFault d e c) s = .next (s₀.stopEngine d e c k₀ f k₀.prog) := by
  change execEngineFault d e c s = _
  simp only [execEngineFault, hs, hk]
  simp [hst, h3, hheld, ha]

end

end

/-- The command of a chain entry, as an engine reads the entry's bytes (R249, R251). -/
def entryCommand (s : State) (ch head : Nat) (bs : List Byte) : EngCmd :=
  let ctl := ofBytes ((bs.drop 64).take 8)
  let issuer := chainIssuer s ch (ofBytes ((bs.drop 80).take 8))
  ⟨bits ctl 0 3, bits ctl 3 4, bits ctl 7 3, bit ctl 10, bit ctl 11, BitVec.ofNat 512 (ofBytes (bs.take 64)), 0, issuer.map Prod.fst,
    issuer.map Prod.snd, some head, ch, ofBytes ((bs.drop 88).take 8), false, false, false, 0, none⟩

/-- The chains have the turn when they are to take it, or no command of the port form waits. -/
theorem chainTurn_eq_false {E : Engine} (ht : E.turn = true ∨ E.queue = []) : (!E.turn && !E.queue.isEmpty) = false := by
  rcases ht with h | h <;> simp [h]

section
variable {s s₀ : State} {d e c ch va : Nat} {rest : List (Nat × Nat)} (hs : (s.engine d e c).stopped = none)
  (hch : (s.engine d e c).chains = (ch, va) :: rest) (hcur : (s.engine d e c).cur = none)
  (ht : (s.engine d e c).turn = true ∨ (s.engine d e c).queue = [])
include hs hch hcur ht

theorem exec_chainWalk_of_error {f : Flt} (h : s.chainHead d e c va = (s₀, .error f)) :
    exec (.chainWalk d e c) s = .next
      (s₀.stopEngine d e c ⟨7, 0, 0, false, false, 0, 0, none, none, none, ch, 0, false, false, false, 0, none⟩ f 0) := by
  have hturn := chainTurn_eq_false ht
  change execChainWalk d e c s = _
  simp only [execChainWalk, hs, hch, hcur, hturn, h, Bool.false_eq_true, if_false]

/-- A chain with no entry sleeps (R366). -/
theorem exec_chainWalk_of_empty (h : s.chainHead d e c va = (s₀, .ok 0)) :
    exec (.chainWalk d e c) s = .next (s₀.setEngine d e c { s.engine d e c with chains := rest, turn := false }) := by
  have hturn := chainTurn_eq_false ht
  change execChainWalk d e c s = _
  simp only [execChainWalk, hs, hch, hcur, hturn, h, Bool.false_eq_true, if_false, if_true]

section
variable {s₁ : State} {head : Nat} {bs : List Byte} (h : s.chainHead d e c va = (s₀, .ok head)) (h0 : head ≠ 0)
  (hr : (s₀.setEngine d e c { s.engine d e c with chains := rest ++ [(ch, va)], turn := false }).readRun (State.engineSite d e) c [] head 128
    = (s₁, .ok bs))
include h h0 hr

/-- An entry whose issuer has an earlier access to perform stays at the head of its chain (R244). -/
theorem exec_chainWalk_of_busy (hb : s₁.issuerBusy (entryCommand s₁ ch head bs) = true) : exec (.chainWalk d e c) s = .next s := by
  have hturn := chainTurn_eq_false ht
  simp only [hs, hcur] at hr
  simp only [entryCommand] at hb
  change execChainWalk d e c s = _
  simp only [execChainWalk, hs, hch, hcur, hturn, h, h0, hr, hb, Bool.false_eq_true, if_false, if_true]

/-- An entry of a command that is no COLL is marked RUNNING and started (R251, R366). -/
theorem exec_chainWalk_of_entry {s₂ : State} (hfn : (entryCommand s₁ ch head bs).fn < 4) (haop : (entryCommand s₁ ch head bs).aop = 0)
    (hz : ofBytes ((bs.drop 64).take 8) / 2 ^ 12 = 0) (hb : s₁.issuerBusy (entryCommand s₁ ch head bs) = false)
    (hst : s₁.entryStat d e c head 1 = (s₂, none)) :
    exec (.chainWalk d e c) s = .next (startCommand s₂ d e c (entryCommand s₁ ch head bs)) := by
  have hturn := chainTurn_eq_false ht
  have h4 : ¬ 4 < (entryCommand s₁ ch head bs).fn := hfn.not_gt
  simp only [hs, hcur] at hr
  simp only [entryCommand] at hb h4 haop ⊢
  simp only [haop] at hb
  change execChainWalk d e c s = _
  simp only [execChainWalk, hs, hch, hcur, hturn, h, h0, hr, hb, hst, h4, haop, hz, Nat.not_lt_zero, decide_false, bne_self_eq_false,
    Bool.and_false, Bool.or_self, Bool.false_eq_true, if_false]

end

end

section
variable {s s₁ : State} {d e c va : Nat}

theorem chainHead_of_error {f : Flt} (h : s.page (State.engineSite d e) none c (va + 8) (.sync false) = (s₁, .error f)) :
    s.chainHead d e c va = (s₁, .error f) := by
  simp only [State.chainHead, State.chainPlaces, Nat.mul_one, h]

variable {q : Page} (h : s.page (State.engineSite d e) none c (va + 8) (.sync false) = (s₁, .ok q)) (hb : s₁.barred q.pa (va + 8) = none)
include h hb

theorem chainHead_of_bad (hbad : (s₁.touch (State.engineSite d e) c (va + 8) q.pa).badSync q.pa = true) :
    s.chainHead d e c va
      = ((s₁.touch (State.engineSite d e) c (va + 8) q.pa).mendSync q.pa, .error (.decmp ((va + 8) / 256 * 256))) := by
  simp only [State.chainHead, State.chainPlaces, Nat.mul_one, h, hb, hbad, List.contains_nil, Bool.false_eq_true, if_false, if_true]

/-- The head of a chain of this package is the second word of its descriptor (R251). -/
theorem chainHead_of_ok (hl : inRemote q.pa = false) (hbad : (s₁.touch (State.engineSite d e) c (va + 8) q.pa).badSync q.pa = false) :
    s.chainHead d e c va
      = (s₁.touch (State.engineSite d e) c (va + 8) q.pa, .ok ((s₁.touch (State.engineSite d e) c (va + 8) q.pa).homeWord q.pa)) := by
  simp only [State.chainHead, State.chainPlaces, Nat.mul_one, h, hb, hbad, hl, List.contains_nil, List.headD_cons, Bool.false_eq_true, if_false]

end

/-- Settles O43: each event by the case of its arm that the premises leave. -/
theorem engineCommands : Obligations.EngineCommands := by
  intro s d e c E hs
  refine ⟨fun k q s₁ b hq hcur ht => ⟨fun hb => ?waits, fun hb hbody => ⟨fun hn hfn => ?starts, fun f hf => ?refused⟩⟩,
    fun k k₀ s₀ s₁ s₂ hk hst h3 h4 he ha hrun hw => ?completes,
    fun k k₀ s₀ s₁ f prog hk hst h3 h4 => ?faults,
    fun ch va rest hch hcur ht => ⟨fun s₀ f => exec_chainWalk_of_error hs hch hcur ht, fun s₀ => exec_chainWalk_of_empty hs hch hcur ht,
      fun s₀ s₁ head bs h h0 hr => ?entry⟩,
    fun va => ⟨fun s₁ f => chainHead_of_error, fun s₁ q h hb hl => ⟨chainHead_of_ok h hb hl, chainHead_of_bad h hb⟩⟩⟩
  case waits => rw [exec_engineCommandStart_of_idle hs hq hcur ht, if_pos hb]
  case starts =>
    rw [exec_engineCommandStart_of_idle hs hq hcur ht, if_neg (Bool.eq_false_iff.1 hb), startCommand_of_ok (hbody.trans (by rw [hn])) hfn]
  case refused =>
    rw [exec_engineCommandStart_of_idle hs hq hcur ht, if_neg (Bool.eq_false_iff.1 hb), startCommand_of_fault (hbody.trans (by rw [hf]))]
  case faults =>
    have hheld : ¬ (k.fn = 4 ∧ k.held = false) := fun h => Bool.false_ne_true (h.2.symm.trans (h4 h.1))
    exact ⟨exec_engineFault_of_stopped hs hk hst h3 hheld, exec_engineFault_of_readAhead hs hk hst h3 hheld⟩
  case completes => exact exec_engineCommandComplete_of_ticket hs hk hst (finished_of_done h3 h4 ha hrun) he hw
  case entry =>
    intro ctl issuer k hfn haop hz
    have hk : entryCommand s₁ ch head bs = k := congrArg (fun a => { k with aop := a }) haop
    have hfn' : (entryCommand s₁ ch head bs).fn < 4 := hfn
    have haop' : (entryCommand s₁ ch head bs).aop = 0 := haop
    rw [← hk]
    exact ⟨exec_chainWalk_of_busy hs hch hcur ht h h0 hr,
      fun s₂ hb hst => exec_chainWalk_of_entry hs hch hcur ht h h0 hr hfn' haop' hz hb hst⟩

end Sys2Proof.Machine
end

section
namespace Sys2Proof.Machine

/-! ### Words of launch records (R255, R256, R351) -/

theorem ofBytes_bytesOf (n v : Nat) : ofBytes (bytesOf n v) = v % 256 ^ n := by
  induction n generalizing v with
  | zero => simp [bytesOf, ofBytes, Nat.mod_one]
  | succ n ih =>
    rw [bytesOf, ofBytes, ih, BitVec.toNat_ofNat, pow_succ' 256 n]
    exact Nat.mod_mul.symm

theorem memBytes_memWrite_same (a : Nat) (bs : List Byte) (m : List Host.Cell) :
    memBytes a bs.length (memWrite (cellsAt a bs) m) = bs := by
  have hb : ∀ c ∈ cellsAt a bs, c.2 = (fun x => bs.getD (x - a) 0) c.1 := by simp [cellsAt]
  refine List.ext_getElem (by simp [memBytes]) fun i hi _ => ?_
  have hi : i < bs.length := by simpa [memBytes] using hi
  have hmem : a + i ∈ (cellsAt a bs).map Prod.fst := by simpa [cellsAt] using hi
  have hget : memGet (a + i) (memWrite (cellsAt a bs) m) = bs[i] := by
    rw [memGet_memWrite (b := fun x => bs.getD (x - a) 0) hb, if_pos hmem]
    simp [hi]
  simpa [memBytes] using hget

theorem memBytes_memWrite_of_disjoint {a b n : Nat} {bs : List Byte} (h : a + n ≤ b ∨ b + bs.length ≤ a) (m : List Host.Cell) :
    memBytes a n (memWrite (cellsAt b bs) m) = memBytes a n m := by
  refine List.map_congr_left fun i hi => memGet_memWrite_of_not_mem _ _ _ fun c hc => ?_
  simp only [cellsAt, List.mem_map, List.mem_range] at hi hc
  obtain ⟨j, hj, rfl⟩ := hc
  dsimp only
  omega

/-- A number with a field of n bits from bit lo up replaced. -/
def withField (w lo n v : Nat) : Nat := w / 2 ^ (lo + n) * 2 ^ (lo + n) + v % 2 ^ n * 2 ^ lo + w % 2 ^ lo

namespace State
variable {s : State} {c idx k : Nat}

theorem memWord_memSet_same (s : State) (a v : Nat) : (s.memSet (cellsAt a (bytesOf 8 v))).memWord a = v % 2 ^ 64 := by
  have h := memBytes_memWrite_same a (bytesOf 8 v) s.mem
  rw [length_bytesOf] at h
  rw [memWord, memSet, h, ofBytes_bytesOf]
  rfl

theorem memWord_memSet_of_disjoint {a b : Nat} (h : a + 8 ≤ b ∨ b + 8 ≤ a) (s : State) (v : Nat) :
    (s.memSet (cellsAt b (bytesOf 8 v))).memWord a = s.memWord a := by
  rw [memWord, memSet, memBytes_memWrite_of_disjoint (by rwa [length_bytesOf])]
  rfl

theorem ctx_memSet (s : State) (cells : List Host.Cell) (c : Nat) : (s.memSet cells).ctx c = s.ctx c := rfl

/-- A word of a record without errors has none. -/
theorem spoiled_of_recordSpoiled (h : s.recordSpoiled c idx = false) (hk : k < 32) : s.spoiled (s.recordAt c idx + 8 * k) 8 = false := by
  simp only [recordSpoiled, spoiled, List.any_eq_false, Bool.and_eq_true, decide_eq_true_eq] at h ⊢
  intro w hw
  have := h w hw
  omega

/-- A field of a record without errors is written in its word. -/
theorem setRecField_eq (h : s.recordSpoiled c idx = false) (hk : k < 32) (lo n v : Nat) :
    s.setRecField c idx k lo n v = s.memSet (cellsAt (s.recordAt c idx + 8 * k)
      (bytesOf 8 (withField (s.memWord (s.recordAt c idx + 8 * k)) lo n v))) := by
  simp only [setRecField, spoiled_of_recordSpoiled h hk, Bool.not_false, if_true, withField]

end State

/-- Bits [23:16] of a word, the arm status in word 11 of a record, as they stand after another field of it is written. -/
theorem status_withField_busy (w v : Nat) : bits (withField w 8 8 v % 2 ^ 64) 16 8 = bits w 16 8 := by
  simp only [bits, withField]
  omega

theorem status_withField_rearm (w v : Nat) : bits (withField w 24 2 v % 2 ^ 64) 16 8 = bits w 16 8 := by
  simp only [bits, withField]
  omega

theorem status_withField_status (w : Nat) : bits (withField w 16 8 0 % 2 ^ 64) 16 8 = 0 := by
  simp only [bits, withField]
  omega

/-! ### Arming and starting launches (R256, R257, R352, R357 to R360) -/

/-- Nothing differs but what the read of an image leaves: counters of the dies, flits that wait, and free values. -/
def State.ReadsImage (s t : State) : Prop := ∃ free dies fleet, t = { s with free := free, dies := dies, fleet := fleet }

namespace State
variable {s t u : State}

theorem ReadsImage.refl (s : State) : s.ReadsImage s := ⟨_, _, _, rfl⟩

theorem ReadsImage.trans (h : s.ReadsImage t) (h' : t.ReadsImage u) : s.ReadsImage u := by
  obtain ⟨_, _, _, rfl⟩ := h
  obtain ⟨_, _, _, rfl⟩ := h'
  exact ⟨_, _, _, rfl⟩

theorem ReadsImage.ctx (h : s.ReadsImage t) {c : Nat} : t.ctx c = s.ctx c := by obtain ⟨_, _, _, rfl⟩ := h; rfl
theorem ReadsImage.recordSpoiled (h : s.ReadsImage t) {c n : Nat} : t.recordSpoiled c n = s.recordSpoiled c n := by
  obtain ⟨_, _, _, rfl⟩ := h; rfl

theorem readsImage_imageBlock (s : State) (c va m : Nat) (q : Page) : s.ReadsImage (s.imageBlock c va m q).1 := by
  unfold imageBlock
  split
  · exact .refl s
  · split
    · exact .refl s
    · split
      · exact .refl s
      · split
        · exact ⟨_, _, _, rfl⟩
        · split
          · exact ⟨_, _, _, rfl⟩
          · exact .refl s

theorem readsImage_imageBytes (s : State) (c k va n : Nat) : s.ReadsImage (s.imageBytes c k va n).1 := by
  induction k generalizing s va n with
  | zero => exact .refl s
  | succ k ih =>
    unfold imageBytes
    split
    · exact .refl s
    · dsimp only
      split
      · exact .refl s
      next q _ =>
        have hb := s.readsImage_imageBlock c va (min n (256 - va % 256)) { q with pa := s.localOf q.pa }
        split
        next e => rwa [e] at hb
        next s₁ bs e =>
          rw [e] at hb
          have hm := hb.trans (ih s₁ (va + min n (256 - va % 256)) (n - min n (256 - va % 256)))
          split
          next e => rwa [e] at hm
          next e => rwa [e] at hm

theorem readsImage_header (s : State) (c img : Nat) : s.ReadsImage (s.header? c img).1 := by
  have hb := s.readsImage_imageBytes c 2 img 256
  unfold header?
  split
  · exact .refl s
  · split
    next e => rwa [e] at hb
    next e => rwa [e] at hb

end State

/-- Record n of context c has been armed between two states, with a launch behind those there were: its status is 0, and the context's next
number is taken (R256, R257). -/
structure State.ArmsTo (s t : State) (c n : Nat) (l : Launch) : Prop where
  launches : t.launches = s.launches ++ [l]
  ctxs : t.ctxs = s.ctxs.modify c fun C => { C with nlseq := C.nlseq + 1 }
  bad : t.bad = s.bad
  status : bits (t.memWord (s.recordAt c n + 8 * 11)) 16 8 = 0

/-- A launch is another in what its arm fixed. -/
def Launch.sameArm (l l' : Launch) : Prop := l'.ctx = l.ctx ∧ l'.idx = l.idx ∧ l'.lseq = l.lseq ∧ l'.snap = l.snap

/-- Where no other launch has the number of the last, that one alone is replaced. -/
theorem map_replace_last {ls : List Launch} {l l' : Launch} (h : ∀ x ∈ ls, x.key ≠ l.key) (hk : l'.key = l.key) :
    (ls ++ [l]).map (fun x => if x.key == l'.key then l' else x) = ls ++ [l'] := by
  have hid : ls.map (fun x => if x.key == l'.key then l' else x) = ls :=
    (List.map_congr_left fun x hx => if_neg (by simpa [hk] using h x hx)).trans (List.map_id' ls)
  rw [List.map_append, hid]
  simp [hk]

namespace State
variable {s t : State} {c n : Nat} {l : Launch}

theorem pool_modify (Cs : List Ctx) (c : Nat) :
    ((Cs.modify c fun C => { C with nlseq := C.nlseq + 1 }).getD c Ctx.reset).pool = (Cs.getD c Ctx.reset).pool := by
  simp only [List.getD_eq_getElem?_getD, List.getElem?_modify_eq]
  cases Cs[c]? <;> rfl

section
variable (h : s.ArmsTo t c n l)
include h

theorem ArmsTo.recordAt : t.recordAt c n = s.recordAt c n := by
  simp only [State.recordAt, State.ctx, h.ctxs, pool_modify]

theorem ArmsTo.recordSpoiled : t.recordSpoiled c n = s.recordSpoiled c n := by
  simp only [State.recordSpoiled, spoiled, h.recordAt, h.bad]

variable (hs : s.recordSpoiled c n = false)
include hs

theorem ArmsTo.recField_status : t.recField c n 11 16 8 = 0 := by
  rw [recField, h.recordSpoiled, hs, if_neg Bool.false_ne_true, h.recordAt, h.status]

/-- Another field of the record may be written. -/
theorem ArmsTo.setRecField {k lo m v : Nat} (hk : k < 32) (hf : k = 11 → ∀ w, bits (withField w lo m v % 2 ^ 64) 16 8 = bits w 16 8) :
    s.ArmsTo (t.setRecField c n k lo m v) c n l := by
  rw [setRecField_eq (h.recordSpoiled.trans hs) hk, h.recordAt]
  refine ⟨h.launches, h.ctxs, h.bad, ?_⟩
  by_cases hk11 : k = 11
  · subst hk11
    rw [memWord_memSet_same, hf rfl, h.status]
  · rw [memWord_memSet_of_disjoint (by omega), h.status]

/-- The record becomes RUNNING (R257). -/
theorem ArmsTo.runRecord (hc : l.ctx = c) (hn : l.idx = n) (hkey : ∀ x ∈ s.launches, x.key ≠ l.key) :
    ∃ l', s.ArmsTo (t.runRecord l) c n l' ∧ l.sameArm l' := by
  subst hc hn
  have h₁ := (h.setRecField hs (k := 11) (lo := 8) (m := 8) (v := 2) (by decide) fun _ w => status_withField_busy w 2).setRecField hs
    (k := 9) (lo := 16) (m := 16) (v := l.ndep) (by decide) nofun
  refine ⟨_, ⟨(congrArg (List.map _) h₁.launches).trans (map_replace_last hkey ?key), h₁.ctxs, h₁.bad, h₁.status⟩, rfl, rfl, rfl, rfl⟩
  case key => rfl

theorem ArmsTo.startRecord (hc : l.ctx = c) (hn : l.idx = n) (hkey : ∀ x ∈ s.launches, x.key ≠ l.key) :
    ∃ l', s.ArmsTo (t.startRecord l) c n l' ∧ l.sameArm l' := by
  have h₁ := h.setRecField hs (k := 13) (lo := 0) (m := 64) (v := l.lseq) (by decide) nofun
  unfold State.startRecord
  subst hc hn
  dsimp only
  split
  · exact h₁.runRecord hs rfl rfl hkey
  · exact ⟨l, h₁.setRecField hs (by decide) fun _ w => status_withField_busy w 1, rfl, rfl, rfl, rfl⟩

end

/-- The words of a launch record (R255). -/
def recordWords (s : State) (c n : Nat) : List Word := (List.range 32).map fun k => BitVec.ofNat 64 (s.memWord (s.recordAt c n + 8 * k))

/-- The header of the image that a launch record names, and the state that its read leaves. -/
def recordHeader (s : State) (c n : Nat) : State × Option (List Word) := s.header? c (bits (word (s.recordWords c n) 0) 0 56)

/-- The status of an accepted arm, and its launch (R256, R257). -/
theorem armsTo_of_readsImage {u : State} (hu : s.ReadsImage u) (hs : s.recordSpoiled c n = false) (l : Launch) :
    let v := (u.setRecField c n 11 16 8 0).onCtx c fun C => { C with nlseq := C.nlseq + 1 }
    s.ArmsTo { v with launches := v.launches ++ [l] } c n l := by
  rw [setRecField_eq (hu.recordSpoiled.trans hs) (by decide)]
  obtain ⟨free, dies, fleet, rfl⟩ := hu
  refine ⟨rfl, rfl, rfl, ?_⟩
  have hw := memWord_memSet_same s (s.recordAt c n + 8 * 11) (withField (s.memWord (s.recordAt c n + 8 * 11)) 16 8 0)
  exact (congrArg (bits · 16 8) hw).trans (status_withField_status _)

section
variable {st : Nat} (hst : (s.recordHeader c n).1.armStatus c n (s.recordWords c n) (s.recordHeader c n).2 = st)
include hst

theorem armRecord_of_refused (h0 : st ≠ 0) : (s.armRecord c n []).2 = (s.recordHeader c n).1.setRecField c n 11 16 8 st := by
  unfold recordHeader recordWords at hst
  simp only [armRecord, hst, bne_iff_ne.2 h0, if_true]
  rfl

/-- An accepted arm appends a launch with the words of its record, under the context's next number (R256, R257). -/
theorem armRecord_of_accepted (h0 : st = 0) (hs : s.recordSpoiled c n = false) (hkey : ∀ x ∈ s.launches, x.key ≠ 4 * (s.ctx c).nlseq + c) :
    ∃ l, s.ArmsTo (s.armRecord c n []).2 c n l ∧ l.ctx = c ∧ l.idx = n ∧ l.lseq = (s.ctx c).nlseq ∧ l.snap = s.recordWords c n := by
  subst h0
  have hread : s.ReadsImage (s.recordHeader c n).1 := s.readsImage_header ..
  have hnl : (((s.recordHeader c n).1.setRecField c n 11 16 8 0).ctx c).nlseq = (s.ctx c).nlseq := by
    rw [setRecField_eq (hread.recordSpoiled.trans hs) (by decide), ctx_memSet, hread.ctx]
  let l : Launch := ⟨c, n, (((s.recordHeader c n).1.setRecField c n 11 16 8 0).ctx c).nlseq, s.recordWords c n,
    (s.recordHeader c n).2.getD [], false, 0, 0, [], [], 0, 0, false⟩
  have harm := s.armsTo_of_readsImage hread hs l
  have hlkey : l.key = 4 * (s.ctx c).nlseq + c := congrArg (4 * · + c) hnl
  obtain ⟨l', h, hc, hn, hl, hw⟩ : ∃ l', s.ArmsTo (s.armRecord c n []).2 c n l' ∧ l.sameArm l' := by
    unfold recordHeader recordWords at hst
    simp only [armRecord, hst, bne_self_eq_false, Bool.false_eq_true, if_false]
    split
    · exact ⟨l, harm.setRecField hs (by decide) fun _ w => status_withField_rearm w _, rfl, rfl, rfl, rfl⟩
    · exact harm.startRecord hs rfl rfl (hlkey ▸ hkey)
  exact ⟨l', h, hc, hn, hl.trans hnl, hw⟩

end

end State

theorem exec_launchArm {s : State} {c n : Nat} (hc : (s.ctx c).state = 1) (hn : n < 4096) (hs : s.recordSpoiled c n = false) :
    exec (.launchArm c n) s = .next (s.armRecord c n []).2 :=
  congrArg Host.Outcome.next (if_pos (by simp [hc, hn, hs]))

theorem exec_launchStart {s : State} {c n : Nat} {l : Launch} (h : s.current c n = some l) (hr : l.running = false)
    (hb : s.recField c n 11 8 8 = 1) (hd : s.recField c n 9 16 16 = 0) : exec (.launchStart c n) s = .next (s.runRecord l) := by
  change execLaunchStart c n s = _
  simp only [execLaunchStart, h, hr, hb, hd, beq_self_eq_true, Bool.not_false, Bool.and_self, if_true]

/-- A die that is in use takes its pieces of a launch that it has not taken before, each into its queue, or into its list when it finds no
room (R358, R360). -/
theorem exec_launchPacket {s : State} {d k : Nat} {l : Launch} (h : s.launchBy k = some l) (hr : l.running = true) (hd : d ∉ l.sent)
    (hl : l.live.getLsbD d = true) (hf : (s.die d).failed = false) :
    exec (.launchPacket d k) s = .next ((piecesFor l d).foldl (fun s p =>
      if s.queueRoom d l.prio < 2 || s.pieceWaits d l.prio then s.onDie d fun D => { D with pending := D.pending ++ [(k, p)] }
      else s.enqueuePiece l d p) (s.setLaunch { l with sent := l.sent ++ [d] })) := by
  have hdie : ∀ l', (s.setLaunch l').die d = s.die d := fun _ => rfl
  have hd' : l.sent.contains d = false := by simpa using hd
  change execLaunchPacket d k s = _
  simp only [execLaunchPacket, h, hr, hd', hl, hdie, hf, Bool.not_true, Bool.or_self, Bool.false_eq_true, if_false]

theorem exec_pendingPieceEnqueue_of_single {s : State} {d : Nat} {p : Nat × List (Nat × Nat)} {l : Launch} (hp : (s.die d).pending = [p])
    (h : s.launchBy p.1 = some l) (hroom : 2 ≤ s.queueRoom d l.prio) :
    exec (.pendingPieceEnqueue d) s = .next ((s.onDie d fun D => { D with pending := D.pending.erase p }).enqueuePiece l d p.2) := by
  have hsort : sortOn (fun a : Nat × List (Nat × Nat) => a.1 / 4) [p] = [p] := rfl
  have hby (f : Die → Die) : (s.onDie d f).launchBy p.1 = some l := h
  change execPendingPieceEnqueue d s = _
  simp only [execPendingPieceEnqueue, hp, hsort, List.find?_singleton, h, hby, hroom, decide_true, if_true]

/-- A die with no task and no piece of a launch left reports, and the last report completes the launch (R359). -/
theorem exec_dieReport_of_idle {s : State} {d k : Nat} {l : Launch} (h : s.launchBy k = some l) (hd : d ∈ l.sent) (hp : piecesFor l d ≠ [])
    (hr : d ∉ l.reported) (ht : ∀ q ∈ s.tasks, State.unfinished l q.2 = false) (hw : ∀ x, ∀ p ∈ (s.die x).pending, p.1 ≠ k) :
    let l' := { l with reported := l.reported ++ [d] }
    exec (.dieReport d k) s = .next (if min l.pieces (popcount l.live.toNat 4) ≤ l.reported.length + 1
      then (s.setLaunch l').completeLaunch d l' else s.setLaunch l') := by
  have htasks (g : Nat × Task → Bool) : (s.tasks.any fun q => State.unfinished l q.2 && g q) = false :=
    List.any_eq_false.2 fun q hq => by simp [ht q hq]
  have hpending (x : Nat) : ((s.die x).pending.any fun p => p.1 == k) = false :=
    List.any_eq_false.2 fun p hp => by simpa using hw x p hp
  have hsent : l.sent.contains d = true := by simpa using hd
  have hreported : l.reported.contains d = false := by simpa using hr
  have hpieces : (piecesFor l d).isEmpty = false := by simpa using hp
  have hnone : ((List.range 4).any fun _ => false) = false := rfl
  change execDieReport d k s = _
  simp only [execDieReport, h, htasks, hpending, hsent, hreported, hpieces, hnone, Bool.and_false, Bool.not_true, Bool.or_self, Bool.false_eq_true,
    if_false]

/-- Settles O48: an accepted arm by `armRecord_of_accepted`; the other turns by the case of their arm. -/
theorem launchTurns : Obligations.LaunchTurns := by
  intro s
  refine ⟨fun c n hc hn hs => ?arm, fun c n l => exec_launchStart, fun d k l h hr hd hl hf => ?packet,
    fun d p l hp h => exec_pendingPieceEnqueue_of_single hp h, fun d k l => exec_dieReport_of_idle⟩
  case arm =>
    intro ws h st
    rw [exec_launchArm hc hn hs]
    refine ⟨fun h0 => congrArg _ (s.armRecord_of_refused rfl h0), fun h0 hlen hwf hkey => ?_⟩
    obtain ⟨l, harm, hctx, hidx, hlseq, hsnap⟩ := s.armRecord_of_accepted rfl h0 hs hkey
    refine ⟨_, l, rfl, ?length, ?take, ?last, hctx, hidx, hlseq, hsnap, harm.recField_status hs, ?nlseq⟩
    case length => rw [harm.launches, List.length_append, List.length_singleton]
    case take => rw [harm.launches, List.take_left]
    case last => rw [harm.launches, List.getLast?_concat]
    case nlseq =>
      have hv := ctx_onCtx s (fun C => { C with nlseq := C.nlseq + 1 }) hlen
      rw [State.ctx, harm.ctxs]
      exact congrArg Ctx.nlseq hv
  case packet =>
    intro s₁
    rw [exec_launchPacket h hr hd hl hf]
    refine ⟨fun hp => by rw [hp]; rfl, fun p hp hroom hw => ?enters, fun p hp hroom => ?pending⟩ <;>
      rw [hp, List.foldl_cons, List.foldl_nil]
    case enters =>
      have hcond : (decide (s₁.queueRoom d l.prio < 2) || s₁.pieceWaits d l.prio) = false := by rw [decide_eq_false hroom.not_gt, hw]; rfl
      exact congrArg _ (if_neg (Bool.eq_false_iff.1 hcond))
    case pending =>
      have hcond : (decide (s₁.queueRoom d l.prio < 2) || s₁.pieceWaits d l.prio) = true := by rw [decide_eq_true hroom, Bool.true_or]
      exact congrArg _ (if_pos hcond)

end Sys2Proof.Machine
end

section
namespace Sys2Proof.Machine

/-! ### Reading back a memory (R269, R369) -/

/-- A byte of a run reads as the run last wrote it, and a byte outside as before. -/
theorem memGet_memWrite_cellsAt (a b : Nat) (bs : List Byte) (m : List Host.Cell) :
    memGet b (memWrite (cellsAt a bs) m) = if a ≤ b ∧ b < a + bs.length then bs.getD (b - a) 0 else memGet b m := by
  have hval : ∀ c ∈ cellsAt a bs, c.2 = (fun x => bs.getD (x - a) 0) c.1 := by simp [cellsAt]
  have hmem : b ∈ (cellsAt a bs).map Prod.fst ↔ a ≤ b ∧ b < a + bs.length := by
    simp only [cellsAt, List.map_map, List.mem_map, List.mem_range, Function.comp_apply]
    exact ⟨by rintro ⟨i, hi, rfl⟩; omega, fun h => ⟨b - a, by omega, by omega⟩⟩
  rw [memGet_memWrite (b := fun x => bs.getD (x - a) 0) hval]
  exact if_congr hmem rfl rfl

theorem mem_of_memGet_ne_zero {a : Nat} {m : List Host.Cell} (h : memGet a m ≠ 0) : (a, memGet a m) ∈ m := by
  induction m with
  | nil => exact absurd rfl h
  | cons c m ih =>
    unfold memGet at h ⊢
    split
    next e => exact e ▸ List.mem_cons_self ..
    next e => rw [if_neg e] at h; exact List.mem_cons_of_mem _ (ih h)

theorem memGet_of_mem {m : List Host.Cell} (h : (m.map Prod.fst).Pairwise (· < ·)) {c : Host.Cell} (hc : c ∈ m) : memGet c.1 m = c.2 := by
  induction m with
  | nil => cases hc
  | cons d m ih =>
    obtain ⟨hlow, hm⟩ := List.pairwise_cons.1 h
    unfold memGet
    rcases List.mem_cons.1 hc with rfl | hc
    · exact if_pos rfl
    · exact (if_neg (hlow _ (List.mem_map_of_mem hc)).ne).trans (ih hm hc)

/-- In canonical form the cells of a memory are its bytes that are not zero. -/
theorem Memory.wf.mem_iff {m : List Host.Cell} (h : Memory.wf m) {c : Host.Cell} : c ∈ m ↔ memGet c.1 m = c.2 ∧ c.2 ≠ 0 := by
  obtain ⟨hrise, hne⟩ := h
  refine ⟨fun hc => ⟨memGet_of_mem hrise hc, hne c hc⟩, fun ⟨hg, h0⟩ => ?_⟩
  have hin := mem_of_memGet_ne_zero (hg.symm ▸ h0)
  rwa [hg] at hin

/-- Memories in canonical form that read alike are equal. -/
theorem Memory.wf.ext {m m' : List Host.Cell} (h : Memory.wf m) (h' : Memory.wf m') (e : ∀ b, memGet b m = memGet b m') : m = m' := by
  have : Std.Asymm fun c d : Host.Cell => c.1 < d.1 := ⟨fun _ _ => Nat.lt_asymm⟩
  refine List.Pairwise.eq_of_mem_iff (List.pairwise_map.1 h.1) (List.pairwise_map.1 h'.1) fun c => ?_
  rw [h.mem_iff, h'.mem_iff, e]

/-- The order of writes to two bytes does not matter. -/
theorem memSet_comm {m : List Host.Cell} (h : Memory.wf m) {a b : Nat} (hab : a ≠ b) (x y : Byte) :
    memSet a x (memSet b y m) = memSet b y (memSet a x m) := by
  refine (memSet_wf (memSet_wf h b y) a x).ext (memSet_wf (memSet_wf h a x) b y) fun c => ?_
  simp only [memGet_memSet]
  by_cases hc : c = a
  · rw [if_pos hc, if_pos hc, if_neg (hc ▸ hab)]
  · rw [if_neg hc, if_neg hc]

/-- Settles O57: reads by the cells of a run; equality of memories by their cells, which are the bytes that are not zero. -/
theorem memoryReadsBack : Obligations.MemoryReadsBack := fun m a bs h =>
  ⟨fun b => memGet_memWrite_cellsAt a b bs m, memBytes_memWrite_same a bs m, fun _ x y hab => memSet_comm h hab x y,
    fun _ h' => h.ext h'⟩

end Sys2Proof.Machine
end

section
/-!
### The memory stays in canonical form

`State.formed` says that the memory is in canonical form; a lemma `f_formed` says that the operation `f` keeps it so,
operation by operation in the model's order, up to `step`. The memory changes only by writes of cells (`State.memSet`,
`State.physWrite`) and by dropping cells (`State.zeroRange`, a wipe, power-on reset, the end of INIT). An operation that
changes other fields only keeps it by definition, with a lemma where checking that would unfold a large update.
-/
namespace Sys2Proof.Machine
open State

/-- The memory is in canonical form. -/
def State.formed (s : State) : Prop := Memory.wf s.mem

/-- An outcome that goes on, goes on in a state with its memory in form. -/
def NextFormed : Host.Outcome State Fault Refusal → Prop
  | .next t => t.formed
  | _ => True

/-- A state that an operation gives, where it gives one, has its memory in form. -/
def SomeFormed (o : Option State) : Prop := ∀ t ∈ o, t.formed

section
variable {α : Type} {c : Prop} [Decidable c]

theorem ite_formed {a b : State} (ha : a.formed) (hb : b.formed) : (if c then a else b).formed := by
  split <;> assumption

theorem ite_fst_formed {a b : State × α} (ha : a.1.formed) (hb : b.1.formed) : (if c then a else b).1.formed := by
  split <;> assumption

theorem ite_snd_formed {a b : α × State} (ha : a.2.formed) (hb : b.2.formed) : (if c then a else b).2.formed := by
  split <;> assumption

theorem ite_nextFormed {a b : Host.Outcome State Fault Refusal} (ha : NextFormed a) (hb : NextFormed b) :
    NextFormed (if c then a else b) := by
  split <;> assumption

theorem fst_formed {p : State × α} {s : State} {a : α} (e : p = (s, a)) (h : p.1.formed) : s.formed := by
  subst e; exact h

theorem snd_formed {p : α × State} {s : State} {a : α} (e : p = (a, s)) (h : p.2.formed) : s.formed := by
  subst e; exact h

theorem forall_mem_none {β : Type} {P : β → Prop} : ∀ q ∈ (none : Option β), P q :=
  fun _ h => absurd h (Option.not_mem_none _)

theorem none_formed : SomeFormed none := forall_mem_none

theorem some_formed {s : State} (hs : s.formed) : SomeFormed (some s) := by
  rintro _ ⟨⟩; exact hs

theorem getD_formed {o : Option State} {s : State} (ho : SomeFormed o) (hs : s.formed) : (o.getD s).formed := by
  cases o with
  | none => exact hs
  | some t => exact ho t rfl

variable {l : List α}

theorem foldl_formed {f : State → α → State} {s : State} (hf : ∀ s a, s.formed → (f s a).formed)
    (hs : s.formed) : (l.foldl f s).formed :=
  l.foldlRecOn f hs fun s h a _ => hf s a h

theorem foldl_fst_formed {β : Type} {f : State × β → α → State × β} {p : State × β}
    (hf : ∀ p a, p.1.formed → (f p a).1.formed) (hp : p.1.formed) : (l.foldl f p).1.formed :=
  l.foldlRecOn (motive := fun p => p.1.formed) f hp fun p h a _ => hf p a h

end

section
variable {s : State}

/-! ### The operations of the state -/

theorem State.memSet_formed {cells} (hs : s.formed) : (s.memSet cells).formed := memWrite_wf hs cells

theorem State.withBoot_formed {b} (hs : s.formed) : State.formed { s with boot := b } := hs

theorem State.withTrees_formed {ts} (hs : s.formed) : State.formed { s with trees := ts } := hs

theorem State.withBad_formed {b} (hs : s.formed) : State.formed { s with bad := b } := hs

theorem State.onCtx_formed {c f} (hs : s.formed) : (s.onCtx c f).formed := hs

theorem State.count_formed {d e} (hs : s.formed) : (s.count d e).formed := hs

theorem State.leave_formed (hs : s.formed) : s.leave.formed := hs

theorem State.setEngine_formed {d e c E} (hs : s.formed) : (s.setEngine d e c E).formed := hs

theorem State.wakeChain_formed {c desc va} (hs : s.formed) : (s.wakeChain c desc va).formed := hs

theorem State.issueY_formed {kind f value acq i} (hs : s.formed) : (s.issueY kind f value acq i).formed := hs

theorem State.dropEngines_formed {c} (hs : s.formed) : (s.dropEngines c).formed := hs

theorem State.setTile_formed {t T} (hs : s.formed) : (s.setTile t T).formed := hs

theorem State.onTile_formed {t} {f : Tile → Tile} (hs : s.formed) : (s.onTile t f).formed := hs

theorem State.onMe_formed {f : Tile → Tile} (hs : s.formed) : (s.onMe f).formed := hs

theorem State.mapDies_formed {f} (hs : s.formed) : State.formed { s with dies := s.dies.map f } := hs

theorem State.onDie_formed {d f} (hs : s.formed) : (s.onDie d f).formed := hs

theorem State.draw_formed (hs : s.formed) : s.draw.2.formed := hs

theorem State.advance_formed (hs : s.formed) : s.advance.formed := hs

theorem State.request_formed {e} (hs : s.formed) : (s.request e).formed := hs

theorem State.setTask_formed {h k} (hs : s.formed) : (s.setTask h k).formed := hs

theorem State.unqueue_formed {d h} (hs : s.formed) : (s.unqueue d h).formed := hs

theorem State.unreserveLaunch_formed {key} (hs : s.formed) : (s.unreserveLaunch key).formed := hs

theorem State.setRegion_formed {r g} (hs : s.formed) : (s.setRegion r g).formed := hs

theorem State.freshReserve_formed {h} (hs : s.formed) : (s.freshReserve h).formed := hs

theorem State.dropReserve_formed {h} (hs : s.formed) : (s.dropReserve h).formed := hs

theorem State.endUnit_formed {t u ctx kind tag} (hs : s.formed) : (s.endUnit t u ctx kind tag).formed := hs

theorem leaveSource_formed {t c n} (hs : s.formed) : (leaveSource s t c n).formed := hs

theorem State.onRegion_formed {r f} (hs : s.formed) : (s.onRegion r f).formed := by
  unfold State.onRegion
  split <;> exact hs

theorem State.onTask_formed {h f} (hs : s.formed) : (s.onTask h f).formed := by
  unfold State.onTask
  split <;> exact hs

theorem State.physWrite_formed {cmp cells} (hs : s.formed) : SomeFormed (s.physWrite cmp cells) := by
  unfold State.physWrite
  split
  · exact some_formed hs
  · extract_lets +onlyGivenNames _
    split
    · split
      · exact none_formed
      · extract_lets
        split
        exact some_formed (memWrite_wf hs _)
    · exact some_formed (memWrite_wf hs _)

theorem State.homeWrite_formed {cells} (hs : s.formed) : (s.homeWrite cells).formed :=
  getD_formed (physWrite_formed hs) hs

theorem State.mirror_formed {d tr} (hs : s.formed) : (s.mirror d tr).formed :=
  withTrees_formed (homeWrite_formed hs)

theorem State.unreserve_formed {buf} (hs : s.formed) : (s.unreserve buf).formed := by
  refine foldl_formed (fun _ _ h => ?_) hs
  split
  · split
    · exact mirror_formed h
    · exact h
  · exact h

theorem State.discard_formed {r} (hs : s.formed) : (s.discard r).formed := by
  unfold State.discard
  split
  · exact hs
  · exact unreserve_formed hs

theorem State.enterArgument_formed {r} (hs : s.formed) : (s.enterArgument r).formed := by
  unfold State.enterArgument
  split <;> exact hs

theorem State.clearTiles_formed {g} (hs : s.formed) : (s.clearTiles g).formed :=
  foldl_formed (fun _ _ h => h) hs

theorem State.reload_formed {r} (hs : s.formed) : (s.reload r).formed := by
  unfold State.reload
  split
  · exact hs
  · exact foldl_formed (fun _ _ h => h) hs

theorem State.replay_formed {r} (hs : s.formed) : (s.replay r).formed := by
  unfold State.replay
  split
  · exact hs
  · extract_lets +onlyGivenNames _ s₂ _
    have hs₂ : s₂.formed := count_formed (onTask_formed (clearTiles_formed (discard_formed hs)))
    exact ite_formed (enterArgument_formed (onRegion_formed hs₂)) (reload_formed (onRegion_formed hs₂))

theorem State.exhaust_formed {r cause} (hs : s.formed) : (s.exhaust r cause).formed := by
  unfold State.exhaust
  split
  · exact hs
  · exact ite_formed hs hs

theorem State.postWith_formed {qs p c f frz repl event lseq hdl w6} (hs : s.formed) :
    (s.postWith qs p c f frz repl event lseq hdl w6).formed := ite_formed hs hs

theorem State.post_formed {p c f frz repl event lseq hdl w6} (hs : s.formed) :
    (s.post p c f frz repl event lseq hdl w6).formed := postWith_formed hs

theorem State.postDie_formed {d c f frz event lseq hdl} (hs : s.formed) :
    (s.postDie d c f frz event lseq hdl).formed := postWith_formed hs

theorem State.raise_formed {p f} (hs : s.formed) : (s.raise p f).formed := by
  unfold State.raise
  split
  · exact hs
  · refine ite_formed (replay_formed hs) ?_
    extract_lets +onlyGivenNames _ _ _ s₂
    have hs₂ : s₂.formed := ite_formed (post_formed hs) (post_formed hs)
    exact ite_formed hs₂ hs₂

theorem State.raiseFull_formed {p f stores} (hs : s.formed) : (s.raiseFull p f stores).formed := by
  unfold State.raiseFull
  split
  · exact hs
  · exact onRegion_formed (raise_formed hs)

theorem State.trap_formed {f} (hs : s.formed) : (s.trap f).formed := raise_formed hs

theorem State.thawBy_formed {r p} (hs : s.formed) : (s.thawBy r p).formed := onRegion_formed hs

theorem State.thaw_formed {r seq} (hs : s.formed) : (s.thaw r seq).formed := thawBy_formed hs

/-! ### Scalar and vector operations -/

theorem State.issue_formed {run srcs} {effect : State → State} (hs : s.formed)
    (heffect : ∀ s, s.formed → (effect s).formed) :
    (s.issue run srcs effect).formed := by
  refine ite_formed ?_ hs
  split
  · exact heffect _ hs
  · exact hs
  · exact trap_formed hs

theorem State.alu_formed {f n} {effect : Mask → Tile → Tile} (hs : s.formed) : (s.alu f n effect).formed :=
  issue_formed hs fun _ h => h

theorem State.aluI_formed {f src} {effect : Mask → Tile → Tile} (hs : s.formed) :
    (s.aluI f src effect).formed := issue_formed hs fun _ h => h

/-! ### Physical accesses -/

theorem State.touch_formed {p c va pa} (hs : s.formed) : (s.touch p c va pa).formed :=
  ite_formed (ite_formed (post_formed hs) hs) (ite_formed hs (ite_formed hs hs))

theorem State.touchBad_formed {p c va pa} (hs : s.formed) : (s.touchBad p c va pa).formed := touch_formed hs

theorem State.touchHere_formed {p c va pa} (hs : s.formed) : (s.touchHere p c va pa).formed :=
  ite_formed hs (touch_formed hs)

/-! ### Translation -/

theorem State.addLeaf_formed {d i e} (hs : s.formed) : (s.addLeaf d i e).formed := by
  unfold State.addLeaf
  split <;> exact hs

theorem State.xlate_formed {d i c va k} (hs : s.formed) : (s.xlate d i c va k).1.formed := by
  unfold State.xlate
  split
  · exact hs
  · extract_lets +onlyGivenNames _
    split
    · extract_lets +onlyGivenNames s₁
      have hs₁ : s₁.formed := hs
      split
      · exact addLeaf_formed hs₁
      · exact hs₁

theorem State.noteCmp_formed {q} (hs : s.formed) : (s.noteCmp q).formed :=
  ite_formed (foldl_formed (fun _ _ h => h) hs) hs

theorem State.page_formed {p i c va w} (hs : s.formed) : (s.page p i c va w).1.formed := by
  unfold State.page
  split
  next e => exact fst_formed e (xlate_formed hs)
  next e =>
    have hs₁ := fst_formed e (xlate_formed hs)
    split
    · exact hs₁
    · exact ite_fst_formed (noteCmp_formed hs₁) hs₁

theorem State.heldRead_formed {buf cmp pa n} (hs : s.formed) : (s.heldRead buf cmp pa n).2.formed :=
  ite_snd_formed hs (ite_snd_formed hs hs)

theorem State.noteRead_formed {r locs} (hs : s.formed) : (s.noteRead r locs).formed := onRegion_formed hs

theorem State.cutTask_formed {h f} (hs : s.formed) : (s.cutTask h f).formed := by
  unfold State.cutTask
  split <;> exact hs

theorem State.hold_formed {r h} {k : State → State} (hs : s.formed) (hk : ∀ s, s.formed → (k s).formed) :
    (s.hold r h k).formed := by
  unfold State.hold
  split
  · exact hk _ hs
  · exact ite_formed (exhaust_formed hs) (hk _ hs)

/-! ### Trees -/

theorem State.openTree_formed {c va d} (hs : s.formed) : (s.openTree c va d).1.formed := by
  unfold State.openTree
  extract_lets _ _ fresh
  have hfresh : fresh.1.formed := ite_fst_formed (mirror_formed hs) hs
  split
  · exact ite_fst_formed hfresh hs
  · exact hfresh

theorem State.applyKeys_formed {d kvs} (hs : s.formed) : (s.applyKeys d kvs).formed := by
  unfold State.applyKeys
  split
  · exact hs
  · exact mirror_formed hs

theorem State.reserve_formed {d k v} (hs : s.formed) : ∀ q ∈ s.reserve d k v, q.2.formed := by
  unfold State.reserve
  split
  · exact forall_mem_none
  · extract_lets +onlyGivenNames _ _
    split
    · exact forall_mem_some hs
    · split
      · exact forall_mem_none
      · exact forall_mem_some (mirror_formed hs)

/-! ### Commits -/

theorem State.enqueue_formed {h} (hs : s.formed) : (s.enqueue h).formed := by
  unfold State.enqueue
  split <;> exact hs

theorem State.releaseHeld_formed {r} (hs : s.formed) : (s.releaseHeld r).formed :=
  foldl_formed (fun _ _ => enqueue_formed) hs

theorem State.applyBuffer_formed {g} (hs : s.formed) : (s.applyBuffer g).formed := by
  unfold State.applyBuffer
  extract_lets +onlyGivenNames s₁
  have hs₁ : s₁.formed := by
    unfold s₁
    refine foldl_formed (fun _ _ h => ?_) hs
    split
    · extract_lets +onlyGivenNames s₄
      have hs₄ : s₄.formed := by
        unfold s₄
        split
        · exact touch_formed h
        · exact h
      exact getD_formed (physWrite_formed hs₄) hs₄
    · exact touch_formed h
    · exact h
    · exact h
  refine foldl_formed (fun _ _ h => ?_) (unreserve_formed (foldl_formed (fun _ _ => applyKeys_formed) hs₁))
  split
  · exact onTile_formed (withBad_formed (memSet_formed h))
  · exact h

theorem State.commit_formed {r final} {k : State → State} (hs : s.formed) (hk : ∀ s, s.formed → (k s).formed) :
    (s.commit r final k).formed := by
  unfold State.commit
  split
  · exact hs
  · refine ite_formed (replay_formed hs) (ite_formed (replay_formed hs) (ite_formed hs ?_))
    split
    · refine raise_formed ?_
      split
      · exact touchBad_formed hs
      · exact touch_formed hs
      · exact hs
    · exact hk _ (releaseHeld_formed (ite_formed (onRegion_formed (applyBuffer_formed hs))
        (onTask_formed (onRegion_formed (applyBuffer_formed hs)))))

theorem State.irrevocably_formed {rel} {k : State → State} (hs : s.formed) (hk : ∀ s, s.formed → (k s).formed) :
    (s.irrevocably rel k).formed := by
  unfold State.irrevocably
  split
  · exact hk _ hs
  · refine ite_formed (replay_formed hs) ?_
    extract_lets +onlyGivenNames k'
    have hk' : ∀ s, s.formed → (k' s).formed := fun _ h => hk _ (onTask_formed h)
    exact ite_formed (ite_formed hs (ite_formed (commit_formed hs hk') (hk' _ hs))) (hk' _ hs)

theorem State.irrevocablyRead_formed {k : State → State} (hs : s.formed) (hk : ∀ s, s.formed → (k s).formed) :
    (s.irrevocablyRead k).formed := by
  unfold State.irrevocablyRead
  split
  · exact hk _ hs
  · exact ite_formed (replay_formed hs) (hk _ (onTask_formed hs))

/-! ### Loads and stores -/

theorem State.finish_formed {t op v} (hs : s.formed) : (s.finish t op v).formed := by
  unfold State.finish
  extract_lets +onlyGivenNames _
  split
  · split
    · exact ite_formed hs hs
    · exact hs
  · exact hs

theorem State.mendBlock_formed {pa} (hs : s.formed) : (s.mendBlock pa).formed :=
  ite_formed hs (getD_formed (physWrite_formed hs) hs)

theorem State.mendSync_formed {pa} (hs : s.formed) : (s.mendSync pa).formed :=
  homeWrite_formed (mendBlock_formed (foldl_formed (fun _ _ => finish_formed) hs))

theorem State.fetch_formed {r q va n} (hs : s.formed) : (s.fetch r q va n).1.formed := by
  unfold State.fetch
  split
  · exact hs
  · extract_lets +onlyGivenNames _ s₁
    have hs₁ : s₁.formed := ite_formed hs (touch_formed hs)
    refine ite_fst_formed (heldRead_formed hs₁) ?_
    refine ite_fst_formed (ite_fst_formed (mendSync_formed hs₁) hs₁) (ite_fst_formed (noteRead_formed hs₁) ?_)
    split <;> exact noteRead_formed hs₁

theorem State.fetchAll_formed {r q va n} (hs : s.formed) : (s.fetchAll r q va n).1.formed := by
  unfold State.fetchAll
  split
  next e => exact fst_formed e (fetch_formed hs)
  next e => exact fst_formed e (fetch_formed hs)
  next e =>
    have hs₁ := fst_formed e (fetch_formed hs)
    split
    · split <;> exact hs₁
    · exact hs₁

theorem State.loadFrom_formed {f i lanes p} (hs : s.formed) : (s.loadFrom f i lanes p).formed := by
  unfold State.loadFrom
  extract_lets +onlyGivenNames _ _ done _
  have hdone : ∀ {s bs}, s.formed → (done s bs).formed := fun h => h
  split
  · exact ite_formed (trap_formed hs) (hdone hs)
  · split
    · exact hs
    · split
      next e => exact hdone (fst_formed e (fetch_formed hs))
      next e => exact trap_formed (count_formed (fst_formed e (fetch_formed hs)))
  · split
    · exact hs
    · split
      next e => exact trap_formed (fst_formed e (page_formed hs))
      next e =>
        have hs₁ := fst_formed e (page_formed hs)
        refine ite_formed hs₁ ?_
        split
        · exact trap_formed hs₁
        · split
          next e => exact hdone (fst_formed e (fetch_formed hs₁))
          next e => exact trap_formed (fst_formed e (fetch_formed hs₁))
          next e =>
            have hs₂ := fst_formed e (fetch_formed hs₁)
            exact ite_formed hs₁ hs₂

theorem State.storeTo_formed {p data} {k : State → State} (hs : s.formed) (hk : ∀ s, s.formed → (k s).formed) :
    (s.storeTo p data k).formed := by
  unfold State.storeTo
  extract_lets +onlyGivenNames _
  split
  · exact hk _ hs
  · split
    · exact hs
    · exact hold_formed hs hk
  · split
    · exact hs
    · split
      next e => exact trap_formed (fst_formed e (page_formed hs))
      next e =>
        have hs₁ := fst_formed e (page_formed hs)
        refine ite_formed hs₁ ?_
        split
        · exact trap_formed hs₁
        · exact ite_formed (trap_formed (touchBad_formed hs₁)) (hold_formed hs₁ hk)

theorem memOp_formed {f vector source} {effect : Mask → State → State} (hs : s.formed)
    (heffect : ∀ a s, s.formed → (effect a s).formed) :
    NextFormed (memOp s f vector source effect) := issue_formed hs fun _ h => ite_formed h (heffect _ _ h)

theorem afterRelease_formed {f} {k : State → State} (hs : s.formed) (hk : ∀ s, s.formed → (k s).formed) :
    (afterRelease s f k).formed := ite_formed hs (hk _ hs)

theorem placed_formed {space ea n} {k : Place → State → State} (hs : s.formed)
    (hk : ∀ a s, s.formed → (k a s).formed) :
    (placed s space ea n k).formed := by
  unfold placed
  split
  · exact hk _ _ hs
  · exact trap_formed hs
  · split
    · exact exhaust_formed hs
    · exact hs

theorem execSt_formed {f} (hs : s.formed) : NextFormed (execSt f s) :=
  memOp_formed hs fun _ _ h => afterRelease_formed h fun _ h₁ =>
    placed_formed h₁ fun _ _ h₂ => storeTo_formed h₂ fun _ h₃ => h₃

theorem execStv_formed {f} (hs : s.formed) : NextFormed (execStv f s) :=
  memOp_formed hs fun _ _ h => afterRelease_formed h fun _ h₁ =>
    placed_formed h₁ fun _ _ h₂ => storeTo_formed h₂ fun _ h₃ => h₃

theorem State.wake_formed {d} (hs : s.formed) : (s.wake d).formed := by
  refine ite_formed hs ?_
  split
  · exact hs
  · exact ite_formed hs (raise_formed hs)

theorem State.wakeDeferred_formed (hs : s.formed) : s.wakeDeferred.formed :=
  foldl_formed (fun _ _ => wake_formed) hs

theorem State.reissuePld_formed {d} (hs : s.formed) : (s.reissuePld d).formed := by
  unfold State.reissuePld
  split
  next e => exact raise_formed (fst_formed e (page_formed hs))
  next e =>
    have hs₁ := fst_formed e (page_formed hs)
    split
    · exact raise_formed hs₁
    · exact ite_formed (touch_formed hs₁) (wake_formed (touch_formed hs₁))

theorem State.reissuePlds_formed {g} (hs : s.formed) : (s.reissuePlds g).formed := by
  refine foldl_formed (fun _ _ h => ?_) hs
  split
  · exact reissuePld_formed h
  · exact ite_formed (wake_formed (touch_formed h)) h

theorem execPld_formed {f} (hs : s.formed) : NextFormed (execPld f s) := by
  refine memOp_formed hs fun _ _ h => placed_formed h fun _ _ h₁ => ?_
  split
  · split
    next e => exact trap_formed (fst_formed e (page_formed h₁))
    next e =>
      have hs₁ := fst_formed e (page_formed h₁)
      split
      · exact trap_formed hs₁
      · extract_lets +onlyGivenNames _ _ issued s₂
        have hissued : ∀ {s}, s.formed → (issued s).formed := fun h₂ => advance_formed (onMe_formed h₂)
        have hs₂ : s₂.formed := touch_formed hs₁
        refine ite_formed (onMe_formed (hissued hs₂)) (ite_formed (count_formed (hissued hs₂)) ?_)
        split
        · exact onMe_formed (hissued hs₂)
        · exact trap_formed (count_formed hs₂)
  · exact h₁

theorem execPst_formed {f} (hs : s.formed) : NextFormed (execPst f s) := by
  unfold execPst
  refine memOp_formed hs fun _ _ h => ?_
  refine placed_formed h fun _ _ h₁ => ?_
  split
  · refine ite_formed (advance_formed h₁) ?_
    split
    next e => exact trap_formed (fst_formed e (page_formed h₁))
    next e =>
      have hs₁ := fst_formed e (page_formed h₁)
      split
      · exact trap_formed hs₁
      · extract_lets +onlyGivenNames _ _ attempt perform
        have hattempt : ∀ s k, s.formed → (∀ s, s.formed → (k s).formed) → (attempt s k).formed := by
          unfold attempt
          intro _ _ h₂ hk
          extract_lets +onlyGivenNames _
          split
          · exact trap_formed (touch_formed h₂)
          · exact ite_formed (trap_formed (touchBad_formed h₂)) (hk _ h₂)
        have hperform : ∀ s, s.formed → (perform s).formed := fun _ h₂ =>
          advance_formed (wakeDeferred_formed (getD_formed (physWrite_formed (touch_formed h₂)) (touch_formed h₂)))
        exact ite_formed (irrevocably_formed hs₁ (fun _ h₂ => ite_formed (trap_formed (touch_formed h₂))
          (advance_formed (touch_formed h₂)))) (ite_formed (irrevocably_formed hs₁
            (fun _ h₂ => hattempt _ _ h₂ hperform)) (hattempt _ _ hs₁ (fun _ h₂ => irrevocably_formed h₂ hperform)))
  · exact h₁

theorem State.pieces_formed {p c w n va fin'} (hs : s.formed) : (s.pieces p c w n va fin').1.formed := by
  induction n generalizing s va with
  | zero => exact hs
  | succ n ih =>
    refine ite_fst_formed hs ?_
    split
    next e => exact fst_formed e (page_formed hs)
    next e =>
      extract_lets _
      split <;> exact fst_formed ‹_› (ih (fst_formed e (page_formed hs)))

theorem execPclear_formed {f} (hs : s.formed) : NextFormed (execPclear f s) := by
  refine memOp_formed hs fun _ _ h => ite_formed (trap_formed h) (ite_formed h ?_)
  split
  next e => exact trap_formed (fst_formed e (pieces_formed h))
  next e =>
    have hs₁ := fst_formed e (pieces_formed h)
    split
    · exact trap_formed hs₁
    · exact irrevocably_formed hs₁ fun _ h₁ => foldl_formed (fun _ _ => touch_formed) h₁

theorem execPfetch_formed {f} (hs : s.formed) : NextFormed (execPfetch f s) := by
  refine memOp_formed hs fun _ _ h => ?_
  extract_lets +onlyGivenNames _ s₁
  change s₁.formed
  unfold s₁
  split
  · split
    next e =>
      have hs₁ := fst_formed e (xlate_formed h)
      exact ite_formed (touch_formed hs₁) hs₁
    next e => exact fst_formed e (xlate_formed h)
  · exact h

theorem execFence_formed {f} (hs : s.formed) : NextFormed (execFence f s) :=
  issue_formed hs fun _ h => ite_formed h (ite_formed h h)

theorem execTfence_formed {f} (hs : s.formed) : NextFormed (execTfence f s) := by
  refine memOp_formed hs fun _ _ h => ite_formed (trap_formed h) ?_
  split
  · exact h
  · exact ite_formed h h

/-! ### Sparse accesses -/

theorem State.reserveAll_formed {d kvs ns} (hs : s.formed) : (s.reserveAll d kvs ns).1.formed := by
  induction kvs generalizing s ns with
  | nil => exact hs
  | cons kv kvs ih =>
    unfold State.reserveAll
    split
    next e => exact ih (reserve_formed hs _ e)
    next => exact hs

theorem State.holdKeys_formed {r p va d kvs} {k : State → State} (hs : s.formed)
    (hk : ∀ s, s.formed → (k s).formed) :
    (s.holdKeys r p va d kvs k).formed := by
  unfold State.holdKeys
  split
  · exact hs
  · refine ite_formed (exhaust_formed hs) ?_
    split
    · exact raiseFull_formed hs
    next e => exact hk _ (onRegion_formed (fst_formed e (ite_fst_formed hs (reserveAll_formed hs))))

theorem State.openFound_formed {c va q} (hs : s.formed) : (s.openFound c va q).1.formed :=
  ite_fst_formed hs (ite_fst_formed hs (openTree_formed hs))

theorem State.openAt_formed {p c va write} (hs : s.formed) : (s.openAt p c va write).1.formed := by
  unfold State.openAt
  split
  next e => exact fst_formed e (page_formed hs)
  next e =>
    have hs₁ := fst_formed e (page_formed hs)
    exact ite_fst_formed hs₁ (openFound_formed hs₁)

theorem State.openKeys_formed {va write} (hs : s.formed) : (s.openKeys va write).1.formed := by
  unfold State.openKeys
  split
  next e => exact fst_formed e (page_formed hs)
  next e =>
    have hs₁ := fst_formed e (page_formed hs)
    refine ite_fst_formed ?_ (openFound_formed hs₁)
    split <;> exact hs₁

theorem keyOp_formed {f write} {effect : Mask → ℕ → ℕ → List (ℕ × ℕ) → State → State} (hs : s.formed)
    (heffect : ∀ a b c d s, s.formed → (effect a b c d s).formed) :
    NextFormed (keyOp s f write effect) := by
  refine issue_formed hs fun _ h => ite_formed h ?_
  extract_lets +onlyGivenNames _
  split
  next e => exact trap_formed (fst_formed e (openKeys_formed h))
  next e =>
    have hs₁ := fst_formed e (openKeys_formed h)
    exact ite_formed (heffect _ _ _ _ _ hs₁) (ite_formed (trap_formed hs₁)
      (ite_formed (trap_formed hs₁) (ite_formed (trap_formed (touch_formed hs₁)) (heffect _ _ _ _ _ hs₁))))

theorem State.keyRead_formed {g d ks n} (hs : s.formed) : (s.keyRead g d ks n).1.formed :=
  ite_fst_formed hs hs

theorem execSld_formed {f} (hs : s.formed) : NextFormed (execSld f s) := by
  unfold execSld
  refine keyOp_formed hs fun _ _ _ _ _ h => ?_
  split
  · exact h
  · exact advance_formed (onMe_formed (keyRead_formed (touch_formed (ite_formed h (noteRead_formed h)))))

theorem execSst_formed {f} (hs : s.formed) : NextFormed (execSst f s) := by
  refine keyOp_formed hs fun _ _ _ _ _ h => afterRelease_formed h fun _ h₁ => ?_
  split
  · exact h₁
  · exact holdKeys_formed h₁ fun _ h => h

/-! ### The synchronisation queues -/

theorem State.onRegionOf_formed {t f} (hs : s.formed) : (s.onRegionOf t f).formed := by
  unfold State.onRegionOf
  split <;> exact hs

theorem State.markOlder_formed (hs : s.formed) : s.markOlder.formed := onRegionOf_formed hs

theorem State.wakeArmed_formed {pa} (hs : s.formed) : (s.wakeArmed pa).formed :=
  foldl_formed (fun _ _ => finish_formed) hs

theorem State.syncWrite_formed {pa width v} (hs : s.formed) : (s.syncWrite pa width v).formed :=
  wakeArmed_formed (homeWrite_formed hs)

theorem State.takeHead_formed {v p} (hs : s.formed) : ∀ q ∈ s.takeHead v p, q.2.formed := by
  unfold State.takeHead
  split
  · exact forall_mem_some hs
  · exact forall_mem_none

theorem State.evaluate_formed {e} (hs : s.formed) : (s.evaluate e).formed := by
  unfold State.evaluate
  split
  · exact ite_formed (finish_formed hs) (ite_formed (finish_formed hs)
      (ite_formed (finish_formed hs) (ite_formed hs hs)))
  · exact hs

theorem State.reissueWait_formed {a} (hs : s.formed) : (s.reissueWait a).formed := by
  unfold State.reissueWait
  extract_lets +onlyGivenNames _
  split
  next e => exact ite_formed (finish_formed hs) (raise_formed (fst_formed e (page_formed hs)))
  next e =>
    have hs₁ := fst_formed e (page_formed hs)
    refine ite_formed hs₁ ?_
    split
    · exact raise_formed hs₁
    · exact ite_formed (finish_formed (touch_formed hs₁)) (ite_formed
        (mendSync_formed (finish_formed (touch_formed hs₁))) (evaluate_formed (touch_formed hs₁)))

theorem State.refuse_formed {x f} (hs : s.formed) : (s.refuse x f).formed := by
  unfold State.refuse
  split
  · exact ite_formed hs (raise_formed hs)
  · exact hs

theorem State.issuerBad_formed {e f} (hs : s.formed) : (s.issuerBad e f).formed := by
  unfold State.issuerBad
  split
  · exact finish_formed hs
  · exact foldl_formed (fun _ _ => refuse_formed) hs

theorem State.writeEntry_formed {cmp cells} (hs : s.formed) : (s.writeEntry cmp cells).formed :=
  getD_formed (physWrite_formed hs) hs

theorem State.enterEntry_formed {cmp entryPa n cells} (hs : s.formed) :
    (s.enterEntry cmp entryPa n cells).formed := writeEntry_formed (writeEntry_formed hs)

theorem State.tailPlace_formed {p c tail} (hs : s.formed) : (s.tailPlace p c tail).1.formed := by
  refine ite_fst_formed hs ?_
  split
  next e => exact fst_formed e (page_formed hs)
  next e =>
    have hs₁ := fst_formed e (page_formed hs)
    split
    · exact hs₁
    · exact ite_fst_formed (touchBad_formed hs₁) hs₁

theorem State.tailFault_formed {p c tail} (hs : s.formed) : (s.tailFault p c tail).1.formed := by
  unfold State.tailFault
  split <;> exact fst_formed ‹_› (tailPlace_formed hs)

theorem State.appendEntry_formed {desc entryVa entryPa cmp cells link} (hs : s.formed) :
    (s.appendEntry desc entryVa entryPa cmp cells link).2.formed := by
  unfold State.appendEntry
  extract_lets +onlyGivenNames _ _ s₂
  have hs₂ : s₂.formed := by
    unfold s₂
    split
    · exact writeEntry_formed (enterEntry_formed hs)
    · exact syncWrite_formed (enterEntry_formed hs)
  exact syncWrite_formed (syncWrite_formed hs₂)

theorem State.takeEntry_formed {e pa cells} (hs : s.formed) : (s.takeEntry e pa cells).2.formed := by
  unfold State.takeEntry
  split
  · exact hs
  · exact ite_snd_formed hs hs

theorem State.entryCells_formed {e cmd pa cells} (hs : s.formed) : (s.entryCells e cmd pa cells).2.formed :=
  takeEntry_formed hs

theorem State.enterNode_formed {level scope e} (hs : s.formed) : (s.enterNode level scope e).formed := by
  unfold State.enterNode
  extract_lets +onlyGivenNames _ _
  split
  · exact ite_formed hs hs
  · exact hs

theorem State.remoteAnswer_formed {e} (hs : s.formed) : (s.remoteAnswer e).formed := by
  unfold State.remoteAnswer
  split
  · exact foldl_formed (fun _ _ h => finish_formed h) hs
  · exact foldl_formed (fun _ _ => finish_formed) hs
  · exact finish_formed hs
  · exact finish_formed hs
  next cmd _ _ _ _ _ => exact finish_formed (enterEntry_formed (entryCells_formed (cmd := cmd) hs))

theorem State.stranded_formed {e} (hs : s.formed) : (s.stranded e).formed := by
  refine foldl_formed (fun _ _ h => ?_) hs
  split
  · exact h
  · exact finish_formed h
  · exact refuse_formed h

theorem State.sendHome_formed {e} (hs : s.formed) : SomeFormed (s.sendHome e) := by
  unfold State.sendHome
  split
  · exact some_formed (stranded_formed hs)
  · split
    · exact some_formed (remoteAnswer_formed hs)
    · split
      · exact some_formed hs
      · exact none_formed

theorem State.forward_formed {i k top} (hs : s.formed) : (s.forward i k top).formed :=
  ite_formed (enterNode_formed hs) (getD_formed (sendHome_formed hs) hs)

theorem State.askAgain_formed {e} (hs : s.formed) : (s.askAgain e).1.formed := by
  unfold State.askAgain
  extract_lets +onlyGivenNames _
  split
  next e => exact fst_formed e (page_formed hs)
  next e =>
    have hs₁ := fst_formed e (page_formed hs)
    split
    · exact hs₁
    · split <;> exact fst_formed ‹_› (page_formed hs₁)
    · exact hs₁

theorem State.reissueAsk_formed {e} (hs : s.formed) : (s.reissueAsk e).formed := by
  unfold State.reissueAsk
  split
  next e => exact raise_formed (fst_formed e (askAgain_formed hs))
  next e =>
    have hs₁ := fst_formed e (askAgain_formed hs)
    exact ite_formed (enterNode_formed (touchHere_formed hs₁))
      (ite_formed hs₁ (ite_formed (remoteAnswer_formed (touch_formed hs₁)) (touch_formed hs₁)))

theorem State.retryAll_formed (hs : s.formed) : s.retryAll.formed := by
  refine foldl_formed (fun _ _ h => ?_) hs
  split
  · exact ite_formed h (reissueAsk_formed h)
  · exact h

theorem State.reissueAll_formed {r} (hs : s.formed) : (s.reissueAll r).formed := by
  unfold State.reissueAll
  split
  · exact hs
  · exact ite_formed hs (foldl_formed (fun _ _ => reissueAsk_formed)
      (foldl_formed (fun _ _ => reissueWait_formed) (reissuePlds_formed hs)))

theorem execHsqAtomApply_formed {v} (hs : s.formed) : NextFormed (execHsqAtomApply v s) := by
  unfold execHsqAtomApply
  split
  · exact hs
  next e =>
    have hs₁ := takeHead_formed hs _ e
    refine ite_formed (mendSync_formed (issuerBad_formed hs₁)) ?_
    split
    · extract_lets +onlyGivenNames _ s₂
      have hs₂ : s₂.formed := by
        unfold s₂
        split
        · exact finish_formed hs₁
        · exact hs₁
      exact syncWrite_formed hs₂
    · exact syncWrite_formed (foldl_formed (fun _ _ => finish_formed) hs₁)
    · split
      · exact foldl_formed (fun _ _ => mendSync_formed) (issuerBad_formed hs₁)
      · refine ite_formed (issuerBad_formed hs₁) ?_
        split
        next e => exact issuerBad_formed (fst_formed e (tailPlace_formed hs₁))
        next e =>
          have hs₂ := fst_formed e (tailPlace_formed hs₁)
          extract_lets +onlyGivenNames s₃
          have hs₃ : s₃.formed := by
            unfold s₃
            split
            · exact touch_formed hs₂
            · exact hs₂
          split
          rename_i _ s₄ e
          have hs₄ := snd_formed e (entryCells_formed hs₃)
          split
          rename_i _ s₅ e
          have hs₅ := snd_formed e (appendEntry_formed hs₄)
          extract_lets +onlyGivenNames s₆
          have hs₆ : s₆.formed := ite_formed (onRegionOf_formed hs₅) hs₅
          split
          · exact finish_formed hs₆
          · exact hs₆
    · exact hs₁

theorem execHsqBarrierArrival_formed {v} (hs : s.formed) : NextFormed (execHsqBarrierArrival v s) := by
  unfold execHsqBarrierArrival
  split
  · exact hs
  next e =>
    have hs₁ := takeHead_formed hs _ e
    refine ite_formed (mendSync_formed (issuerBad_formed hs₁)) ?_
    split
    · refine foldl_formed (fun _ _ h => ?_) (syncWrite_formed hs₁)
      split
      · exact finish_formed h
      · exact evaluate_formed h
    · exact hs₁

theorem execWaitDequeue_formed {v c} (hs : s.formed) : NextFormed (execWaitDequeue v c s) := by
  unfold execWaitDequeue
  extract_lets +onlyGivenNames _ s₁
  have hs₁ : s₁.formed := by
    refine foldl_formed (fun _ _ h => ?_) hs
    split
    · exact finish_formed h
    · exact h
  split
  · exact hs₁
  next e =>
    have hs₂ := takeHead_formed hs₁ _ e
    exact ite_formed (mendSync_formed (issuerBad_formed hs₂)) (evaluate_formed hs₂)

theorem State.expireWaits_formed (hs : s.formed) : s.expireWaits.formed :=
  foldl_formed (fun _ _ => finish_formed) hs

theorem execWaitTimeout_formed {k} (hs : s.formed) : NextFormed (execWaitTimeout k s) := by
  unfold execWaitTimeout
  split
  · exact ite_formed (finish_formed hs) hs
  · exact hs

theorem execCombiningArrival_formed {k} (hs : s.formed) : NextFormed (execCombiningArrival k s) := by
  unfold execCombiningArrival
  split
  · split
    · exact ite_formed (forward_formed hs) hs
    · exact hs
  · exact hs

theorem execTreeHoldExpiry_formed {k} (hs : s.formed) : NextFormed (execTreeHoldExpiry k s) := by
  unfold execTreeHoldExpiry
  split
  · split
    · exact ite_formed (forward_formed hs) hs
    · exact hs
  · exact hs

theorem State.sendUp_formed {e} (hs : s.formed) : (s.sendUp e).formed := by
  unfold State.sendUp
  split <;> exact hs

theorem execPodBarrierRelease_formed {k} (hs : s.formed) : NextFormed (execPodBarrierRelease k s) := by
  unfold execPodBarrierRelease
  split
  · refine ite_formed (ite_formed (getD_formed (sendHome_formed hs) hs) ?_) hs
    refine ite_formed (stranded_formed hs) (ite_formed (getD_formed (sendHome_formed hs) hs) ?_)
    split
    · exact sendUp_formed hs
    · exact ite_formed (stranded_formed (sendUp_formed hs)) (ite_formed (remoteAnswer_formed (sendUp_formed hs))
        (getD_formed (sendHome_formed (sendUp_formed hs)) hs))
  · exact hs

/-! ### Runs of bytes -/

theorem State.spans_formed {p c w bound k va n} (hs : s.formed) : (s.spans p c w bound k va n).1.formed := by
  induction k generalizing s va n with
  | zero => exact hs
  | succ k ih =>
    refine ite_fst_formed hs ?_
    split
    next e => exact fst_formed e (page_formed hs)
    next e =>
      have hs₁ := fst_formed e (page_formed hs)
      refine ite_fst_formed hs₁ ?_
      split
      · exact hs₁
      · split <;> exact fst_formed ‹_› (ih hs₁)

theorem State.readSpans_formed {p c buf sps} (hs : s.formed) : (s.readSpans p c buf sps).1.formed := by
  induction sps generalizing s with
  | nil => exact hs
  | cons sp rest ih =>
    unfold State.readSpans
    split
    next e => exact count_formed (snd_formed e (heldRead_formed (ite_formed hs (touch_formed hs))))
    next e =>
      split <;> exact fst_formed ‹_› (ih (snd_formed e (heldRead_formed (ite_formed hs (touch_formed hs)))))

theorem State.readRun_formed {p c buf va n} (hs : s.formed) : (s.readRun p c buf va n).1.formed := by
  unfold State.readRun
  split
  next e => exact fst_formed e (spans_formed hs)
  next e => exact readSpans_formed (fst_formed e (spans_formed hs))

theorem State.writePieces_formed {p c h sps bs} (hs : s.formed) : (s.writePieces p c h sps bs).formed := by
  induction sps generalizing s bs with
  | nil => exact hs
  | cons sp rest ih =>
    have hs₁ := touch_formed (p := p) (c := c) (va := sp.va) (pa := sp.pa)
      (cutTask_formed (h := h) (f := cutStore sp.pa (sp.pa + sp.len)) hs)
    exact ih (ite_formed hs₁ (getD_formed (physWrite_formed hs₁) hs₁))

theorem State.writeSpans_formed {p c h sp bs} (hs : s.formed) : (s.writeSpans p c h sp bs).1.formed := by
  unfold State.writeSpans
  split
  · exact touchBad_formed hs
  · exact writePieces_formed hs

theorem State.writeRun_formed {p c h va bs} (hs : s.formed) : (s.writeRun p c h va bs).1.formed := by
  unfold State.writeRun
  split
  next e => exact fst_formed e (spans_formed hs)
  next e => exact writeSpans_formed (fst_formed e (spans_formed hs))

theorem State.taskRun_formed {r p w va n bound} (hs : s.formed) : (s.taskRun r p w va n bound).1.formed := by
  unfold State.taskRun
  split
  · exact hs
  · split
    next e => exact fst_formed e (spans_formed hs)
    next e =>
      have hs₁ := fst_formed e (spans_formed hs)
      split
      next e => exact fst_formed e (readSpans_formed hs₁)
      next e =>
        have hs₂ := fst_formed e (readSpans_formed hs₁)
        exact ite_formed hs₂ (noteRead_formed hs₂)

theorem State.storesOf_formed {c p w va bs bound} (hs : s.formed) : (s.storesOf c p w va bs bound).1.formed := by
  unfold State.storesOf
  split
  next e => exact fst_formed e (spans_formed hs)
  next e =>
    have hs₁ := fst_formed e (spans_formed hs)
    split
    · exact touchBad_formed hs₁
    · exact hs₁

theorem State.holdAll_formed {r hs'} {k : State → State} (hs : s.formed) (hk : ∀ s, s.formed → (k s).formed) :
    (s.holdAll r hs' k).formed := by
  unfold State.holdAll
  split
  · exact hs
  · exact ite_formed (exhaust_formed hs) (hk _ (onRegion_formed hs))

theorem State.taskStores_formed {r p w bound runs} {k : State → State} (hs : s.formed)
    (hk : ∀ s, s.formed → (k s).formed) :
    (s.taskStores r p w bound runs k).formed := by
  unfold State.taskStores
  extract_lets +onlyGivenNames res
  have hres : res.1.formed := by
    refine foldl_fst_formed (fun _ _ h => ?_) hs
    split
    · exact h
    · split <;> exact fst_formed ‹_› (storesOf_formed h)
  clear_value res
  split
  · exact raise_formed hres
  · exact holdAll_formed hres hk

/-! ### Launch records and images -/

theorem State.imageBlock_formed {c va m q} (hs : s.formed) : (s.imageBlock c va m q).1.formed := by
  refine ite_fst_formed hs (ite_fst_formed hs ?_)
  split
  · exact hs
  · refine ite_fst_formed hs ?_
    split <;> exact hs

theorem State.imageBytes_formed {c k va n} (hs : s.formed) : (s.imageBytes c k va n).1.formed := by
  induction k generalizing s va n with
  | zero => exact hs
  | succ k ih =>
    refine ite_fst_formed hs ?_
    extract_lets _
    split
    · exact hs
    · split
      next e => exact fst_formed e (imageBlock_formed hs)
      next e =>
        split <;> exact fst_formed ‹_› (ih (fst_formed e (imageBlock_formed hs)))

theorem State.header?_formed {c img} (hs : s.formed) : (s.header? c img).1.formed := by
  refine ite_fst_formed hs ?_
  split <;> exact fst_formed ‹_› (imageBytes_formed hs)

theorem State.setRecField_formed {c idx k lo n v} (hs : s.formed) : (s.setRecField c idx k lo n v).formed :=
  ite_formed (memSet_formed hs) (ite_formed (withBad_formed (memSet_formed hs)) hs)

theorem State.runRecord_formed {l} (hs : s.formed) : (s.runRecord l).formed :=
  setRecField_formed (setRecField_formed hs)

theorem State.startRecord_formed {l} (hs : s.formed) : (s.startRecord l).formed :=
  ite_formed (runRecord_formed (setRecField_formed hs)) (setRecField_formed (setRecField_formed hs))

theorem State.armRecord_formed {c idx new} (hs : s.formed) : (s.armRecord c idx new).2.formed := by
  unfold State.armRecord
  extract_lets _
  split
  next e =>
    extract_lets _ s₂
    have hs₂ : s₂.formed := setRecField_formed (fst_formed e (header?_formed hs))
    exact ite_snd_formed hs₂ (ite_formed (setRecField_formed hs₂) (startRecord_formed hs₂))

/-! ### Synchronisation instructions -/

theorem syncOp_formed {f n} {effect : State → State} (hs : s.formed)
    (heffect : ∀ s, s.formed → (effect s).formed) :
    NextFormed (syncOp s f n effect) := issue_formed hs fun _ h => ite_formed h (heffect _ h)

theorem State.syncWord_formed {ea n write} (hs : s.formed) : (s.syncWord ea n write).1.formed := by
  refine ite_fst_formed hs ?_
  split <;> exact fst_formed ‹_› (page_formed hs)

theorem State.armLost_formed {pa p va due op} (hs : s.formed) : (s.armLost pa p va due op).formed := by
  unfold State.armLost
  split
  · exact finish_formed hs
  · exact hs

theorem execAtom_formed {f} (hs : s.formed) : NextFormed (execAtom f s) := by
  unfold execAtom
  refine syncOp_formed hs fun _ h => ?_
  extract_lets +onlyGivenNames _ _ _
  split
  next e => exact trap_formed (fst_formed e (syncWord_formed h))
  next e => exact trap_formed (fst_formed e (syncWord_formed h))
  next e => exact trap_formed (fst_formed e (syncWord_formed h))
  next e =>
    have hs₁ := fst_formed e (syncWord_formed h)
    exact ite_formed hs₁ (irrevocably_formed hs₁ (fun _ h₁ =>
      ite_formed (finish_formed (draw_formed (issueY_formed (touch_formed h₁))))
        (request_formed (issueY_formed (touch_formed h₁)))))

theorem execAtomTree_formed {f} (hs : s.formed) : NextFormed (execAtomTree f s) := by
  unfold execAtomTree
  refine syncOp_formed hs fun _ h => ?_
  extract_lets +onlyGivenNames _ _
  split
  next e => exact trap_formed (fst_formed e (syncWord_formed h))
  next e => exact trap_formed (fst_formed e (syncWord_formed h))
  next e => exact trap_formed (fst_formed e (syncWord_formed h))
  next e =>
    have hs₁ := fst_formed e (syncWord_formed h)
    exact ite_formed hs₁ (irrevocably_formed hs₁ (fun _ h₁ => enterNode_formed (issueY_formed (touchHere_formed h₁))))

theorem execWait_formed {f} (hs : s.formed) : NextFormed (execWait f s) := by
  unfold execWait
  refine syncOp_formed hs fun _ h => ?_
  extract_lets +onlyGivenNames _ _
  split
  next e => exact irrevocablyRead_formed (fst_formed e (syncWord_formed h)) fun _ => issueY_formed
  next e => exact trap_formed (fst_formed e (syncWord_formed h))
  next e =>
    exact irrevocablyRead_formed (fst_formed e (syncWord_formed h)) fun _ h₁ => armLost_formed (issueY_formed h₁)
  next e =>
    have hs₁ := fst_formed e (syncWord_formed h)
    exact ite_formed hs₁ (irrevocablyRead_formed hs₁ (fun _ h₁ =>
      ite_formed (finish_formed (draw_formed (issueY_formed (touch_formed h₁))))
        (request_formed (issueY_formed (touch_formed h₁)))))

theorem arriveAt_formed {f pa due i} (hs : s.formed) : (arriveAt s f pa due i).formed :=
  ite_formed hs (irrevocably_formed hs (fun _ h => enterNode_formed (issueY_formed (touchHere_formed h))))

theorem execHbarArrive_formed {f} (hs : s.formed) : NextFormed (execHbarArrive f s) := by
  refine syncOp_formed hs fun _ h => ?_
  extract_lets +onlyGivenNames _
  split
  next e => exact trap_formed (fst_formed e (syncWord_formed h))
  next e => exact trap_formed (fst_formed e (syncWord_formed h))
  next e => exact trap_formed (fst_formed e (syncWord_formed h))
  next e =>
    have hs₁ := fst_formed e (syncWord_formed h)
    exact ite_formed (arriveAt_formed hs₁) (trap_formed hs₁)

theorem execHbarWait_formed {f} (hs : s.formed) : NextFormed (execHbarWait f s) := by
  unfold execHbarWait
  refine syncOp_formed hs fun _ h => ?_
  extract_lets +onlyGivenNames _
  split
  next e => exact irrevocablyRead_formed (fst_formed e (syncWord_formed h)) fun _ => issueY_formed
  next e => exact trap_formed (fst_formed e (syncWord_formed h))
  next e =>
    exact irrevocablyRead_formed (fst_formed e (syncWord_formed h)) fun _ h₁ => armLost_formed (issueY_formed h₁)
  next e =>
    have hs₁ := fst_formed e (syncWord_formed h)
    exact ite_formed hs₁ (irrevocablyRead_formed hs₁ (fun _ h₁ =>
      ite_formed (finish_formed (draw_formed (issueY_formed (touch_formed h₁))))
        (request_formed (issueY_formed (touch_formed h₁)))))

theorem execHbarAw_formed {f} (hs : s.formed) : NextFormed (execHbarAw f s) := by
  refine syncOp_formed hs fun _ h => ?_
  extract_lets +onlyGivenNames bad
  have hbad : ∀ s, s.formed → (bad s).formed := fun _ h₁ => irrevocablyRead_formed h₁ fun _ h => h
  split
  next e => exact hbad _ (fst_formed e (syncWord_formed h))
  next e => exact trap_formed (fst_formed e (syncWord_formed h))
  next e =>
    have hs₁ := fst_formed e (syncWord_formed h)
    exact ite_formed (irrevocably_formed hs₁ (fun _ h₁ => armLost_formed h₁)) (hbad _ hs₁)
  next e =>
    have hs₁ := fst_formed e (syncWord_formed h)
    exact ite_formed (arriveAt_formed hs₁) (hbad _ hs₁)

theorem execBsync_formed {f} (hs : s.formed) : NextFormed (execBsync f s) := by
  refine syncOp_formed hs fun _ h => ?_
  split
  · exact h
  · refine ite_formed (trap_formed h) ?_
    split
    next e => exact irrevocablyRead_formed (fst_formed e (syncWord_formed h)) fun _ h => h
    next e => exact trap_formed (fst_formed e (syncWord_formed h))
    next e =>
      exact irrevocablyRead_formed (fst_formed e (syncWord_formed h)) fun _ h₁ => ite_formed (onRegion_formed h₁) h₁
    next e =>
      exact irrevocablyRead_formed (fst_formed e (syncWord_formed h)) fun _ h₁ => ite_formed (onRegion_formed h₁) h₁

theorem execBsyncProceed_formed {r} (hs : s.formed) : NextFormed (execBsyncProceed r s) := by
  unfold execBsyncProceed
  split
  · exact hs
  · split
    · exact hs
    · refine ite_formed hs ?_
      extract_lets +onlyGivenNames _
      split
      next e => exact raise_formed (fst_formed e (page_formed hs))
      next e =>
        refine commit_formed (fst_formed e (page_formed hs)) fun _ h => ?_
        extract_lets +onlyGivenNames _ s₂
        have hs₂ : s₂.formed := onRegion_formed (touchHere_formed h)
        exact ite_formed (stranded_formed hs₂) (enterNode_formed hs₂)

theorem execBsyncDeadline_formed {r} (hs : s.formed) : NextFormed (execBsyncDeadline r s) := by
  unfold execBsyncDeadline
  split
  · exact hs
  · split
    · exact hs
    · exact ite_formed (finish_formed hs) hs

theorem execCntrEv_formed {f} (hs : s.formed) : NextFormed (execCntrEv f s) := issue_formed hs fun _ h => h

theorem execCntrTask_formed {f} (hs : s.formed) : NextFormed (execCntrTask f s) := by
  refine issue_formed hs fun _ h => ?_
  split <;> exact h

theorem execTimeLeft_formed {f} (hs : s.formed) : NextFormed (execTimeLeft f s) := by
  refine issue_formed hs fun _ h => ?_
  split <;> exact h

/-! ### Launch instructions -/

theorem holdTask_formed {r k l ws} (hs : s.formed) : (holdTask s r k l ws).2.formed :=
  foldl_formed (fun _ _ => onTask_formed) hs

theorem execTaskq_formed {f} (hs : s.formed) : NextFormed (execTaskq f s) := by
  refine syncOp_formed hs fun _ h => ?_
  split
  · exact h
  · refine ite_formed (trap_formed h) ?_
    split
    next e => exact trap_formed (fst_formed e (page_formed h))
    next e =>
      have hs₁ := fst_formed e (page_formed h)
      refine ite_formed (trap_formed hs₁) ?_
      split
      · exact trap_formed hs₁
      · refine ite_formed hs₁ ?_
        split
        next e => exact trap_formed (fst_formed e (fetchAll_formed hs₁))
        next e =>
          have hs₂ := fst_formed e (fetchAll_formed hs₁)
          split
          · exact ite_formed (issueY_formed (holdTask_formed hs₂)) hs₂
          · exact hs₂

theorem execLpatch_formed {f} (hs : s.formed) : NextFormed (execLpatch f s) := by
  refine syncOp_formed hs fun _ h => ?_
  split
  · exact h
  · exact ite_formed (trap_formed h) (hold_formed h (fun _ h => h))

theorem execLarm_formed {f} (hs : s.formed) : NextFormed (execLarm f s) :=
  syncOp_formed hs fun _ h => ite_formed (trap_formed h) (irrevocably_formed h
    (fun _ h₁ => ite_formed (trap_formed h₁) (issueY_formed (armRecord_formed h₁))))

theorem execHalt_formed {f} (hs : s.formed) : NextFormed (execHalt f s) := by
  refine issue_formed hs fun _ h => ?_
  split
  · exact onRegion_formed h
  · exact h

/-! ### Streams of the units -/

theorem State.take_formed {t c want} (hs : s.formed) : (s.take t c want).formed := ite_formed hs hs

theorem State.unitRead_formed {r p pg va n} (hs : s.formed) : (s.unitRead r p pg va n).1.formed := by
  unfold State.unitRead
  split <;> exact fst_formed ‹_› (taskRun_formed hs)

theorem State.reading_formed {r p pg va n} {k : ℕ → State → State} (hs : s.formed)
    (hk : ∀ a s, s.formed → (k a s).formed) :
    (s.reading r p pg va n k).formed := by
  unfold State.reading
  split
  next e => exact hk _ _ (fst_formed e (unitRead_formed hs))
  next e => exact raise_formed (fst_formed e (unitRead_formed hs))

theorem unitStep_formed {t u} {step : ℕ → Region → State → State} (hs : s.formed)
    (hstep : ∀ a b s, s.formed → (step a b s).formed) :
    NextFormed (unitStep s t u step) := by
  unfold unitStep
  split
  · exact ite_formed (hstep _ _ _ hs) hs
  · exact hs

/-! ### Tasks and launches -/

theorem State.releaseRegion_formed {r} (hs : s.formed) : (s.releaseRegion r).formed := by
  unfold State.releaseRegion
  split
  · exact hs
  · exact foldl_formed (fun _ _ h => h) (clearTiles_formed hs)

theorem State.measureDrain_formed (hs : s.formed) : s.measureDrain.formed :=
  ite_formed hs (withBoot_formed hs)

theorem State.drain_formed {r why} (hs : s.formed) : (s.drain r why).formed := by
  unfold State.drain
  split
  · exact hs
  · exact onRegion_formed (measureDrain_formed (foldl_formed (fun _ _ h => h) (discard_formed hs)))

theorem State.completeTask_formed {h n} (hs : s.formed) : (s.completeTask h n).formed := by
  induction n generalizing s h with
  | zero => exact hs
  | succ n ih =>
    unfold State.completeTask
    split
    · exact hs
    · refine ite_formed hs ?_
      extract_lets _ _
      split
      · exact hs
      · split
        · exact hs
        · exact ite_formed (ih hs) hs

theorem State.complete_formed {h} (hs : s.formed) : (s.complete h).formed := completeTask_formed hs

theorem State.onLaunch_formed {key f} (hs : s.formed) : (s.onLaunch key f).formed := by
  unfold State.onLaunch
  split <;> exact hs

theorem State.splitTask_formed {h} (hs : s.formed) : SomeFormed (s.splitTask h) := by
  unfold State.splitTask
  split
  · exact none_formed
  · split
    · exact none_formed
    · split
      · exact none_formed
      · extract_lets _ s₁ s₂
        have hs₁ : s₁.formed := unqueue_formed (setTask_formed hs)
        have hs₂ : s₂.formed := hs₁
        exact some_formed (count_formed (enqueue_formed (enqueue_formed hs₂)))

theorem State.smallest_formed {h cause} (hs : s.formed) : (s.smallest h cause).formed := by
  unfold State.smallest
  split
  · exact hs
  · exact count_formed (postDie_formed hs)

theorem State.requeue_formed {h} (hs : s.formed) : (s.requeue h).formed := onTask_formed hs

theorem State.noteAbort_formed {h} (hs : s.formed) : (s.noteAbort h).formed := by
  unfold State.noteAbort
  split
  · exact onLaunch_formed hs
  · exact hs

theorem State.failLaunch_formed {h result stop} (hs : s.formed) : (s.failLaunch h result stop).formed := by
  unfold State.failLaunch
  split
  · exact onLaunch_formed hs
  · exact hs

theorem State.evacuate_formed {d} (hs : s.formed) : (s.evacuate d).formed := by
  unfold State.evacuate
  split
  · exact hs
  · exact ite_formed hs (onDie_formed (onDie_formed (foldl_formed (fun _ _ => onTask_formed) hs)))

theorem State.afterDrain_formed {why h cause} (hs : s.formed) : (s.afterDrain why h cause).formed := by
  unfold State.afterDrain
  split
  · extract_lets +onlyGivenNames _
    split
    next e => exact splitTask_formed (noteAbort_formed hs) _ e
    · exact smallest_formed (noteAbort_formed hs)
  · extract_lets +onlyGivenNames s₁
    have hs₁ : s₁.formed := requeue_formed (noteAbort_formed hs)
    split
    · exact evacuate_formed hs₁
    · exact hs₁
  · extract_lets +onlyGivenNames s₁
    have hs₁ : s₁.formed := requeue_formed (noteAbort_formed hs)
    split
    · exact evacuate_formed hs₁
    · exact hs₁
  · exact complete_formed (failLaunch_formed hs)
  · exact hs

theorem State.endCommand_formed {k status} (hs : s.formed) : (s.endCommand k status).formed :=
  ite_formed hs (syncWrite_formed hs)

theorem State.endActing_formed {r} (hs : s.formed) : (s.endActing r).formed := by
  refine foldl_formed (fun _ _ h => ?_) hs
  split
  · exact ite_formed (endCommand_formed h) h
  · exact h

theorem State.decrementRecord_formed {d c idx} (hs : s.formed) : (s.decrementRecord d c idx).formed :=
  ite_formed (post_formed hs) (ite_formed hs (ite_formed (setRecField_formed hs) (setRecField_formed hs)))

theorem State.launchCw_formed {d l} (hs : s.formed) : (s.launchCw d l).formed := by
  refine ite_formed hs ?_
  extract_lets +onlyGivenNames tell
  have htell : ∀ f, (tell f).formed := fun _ => post_formed hs
  split
  · exact htell _
  · refine ite_formed (htell _) (ite_formed (htell _) ?_)
    refine ite_formed ?_ (ite_formed (mendSync_formed (post_formed (noteCmp_formed hs)))
      (syncWrite_formed (noteCmp_formed hs)))
    split
    · exact htell _
    · exact hs

theorem State.completeLaunch_formed {d l} (hs : s.formed) : (s.completeLaunch d l).formed := by
  unfold State.completeLaunch
  extract_lets +onlyGivenNames _ _ _ _ _ _ s₄ _
  have hs₄ : s₄.formed := foldl_formed (fun _ _ => decrementRecord_formed)
    (launchCw_formed (setRecField_formed (setRecField_formed hs)))
  split
  · exact setRecField_formed hs₄
  · exact startRecord_formed (setRecField_formed (setRecField_formed hs₄))

/-! ### Fences and the lattice -/

theorem State.fenceDie_formed {d} (hs : s.formed) : (s.fenceDie d).formed :=
  ite_formed hs (evacuate_formed (foldl_formed (fun _ _ h => ite_formed (drain_formed h)
    (ite_formed (drain_formed h) h)) (ite_formed hs hs)))

theorem State.markTile_formed {t reason} (hs : s.formed) : (s.markTile t reason).formed := ite_formed hs hs

theorem State.leaveTile_formed {t} (hs : s.formed) : (s.leaveTile t).formed := by
  unfold State.leaveTile
  split
  · exact ite_formed hs (ite_formed hs (drain_formed hs))
  · exact hs

theorem State.thinDie_formed {d} (hs : s.formed) : (s.thinDie d).formed := ite_formed (fenceDie_formed hs) hs

theorem State.fenceTile_formed {t} (hs : s.formed) : (s.fenceTile t).formed :=
  ite_formed hs (thinDie_formed (leaveTile_formed (markTile_formed hs)))

theorem State.fenceVault_formed {v} (hs : s.formed) : (s.fenceVault v).formed :=
  ite_formed hs (foldl_formed (fun _ _ => fenceTile_formed) (foldl_formed (fun _ _ => finish_formed) hs))

theorem State.markChannel_formed {stack ch reason} (hs : s.formed) : (s.markChannel stack ch reason).formed :=
  ite_formed hs hs

theorem State.fenceChannel_formed {stack ch} (hs : s.formed) : (s.fenceChannel stack ch).formed :=
  ite_formed (fenceDie_formed (markChannel_formed hs)) (markChannel_formed hs)

theorem State.rangeHints_formed {base size} (hs : s.formed) : (s.rangeHints base size).formed :=
  foldl_formed (fun _ _ => foldl_formed (fun _ _ h₁ => postDie_formed h₁)) hs

theorem State.sendFlit_formed {f₀ came} (hs : s.formed) : SomeFormed (s.sendFlit f₀ came) := by
  unfold State.sendFlit
  split
  · exact some_formed hs
  · split
    · exact none_formed
    · exact some_formed hs

theorem State.fencePort_formed {p} (hs : s.formed) : (s.fencePort p).formed := ite_formed hs hs

theorem State.takeGroup_formed {c a k n up} (hs : s.formed) : (s.takeGroup c a k n up).formed :=
  ite_formed (enterNode_formed hs) (ite_formed (mendSync_formed hs) (syncWrite_formed hs))

theorem State.serve_formed {c} (hs : s.formed) : (s.serve c).formed := by
  unfold State.serve
  split
  rename_i _ s₁ e
  have hs₁ := snd_formed e hs
  split
  rename_i _ s₂ e
  have hs₂ := snd_formed e hs₁
  extract_lets +onlyGivenNames _ written _ _
  have hwritten : written.formed := getD_formed (physWrite_formed hs₂) hs₂
  refine ite_formed (takeGroup_formed hs₂) (ite_formed hs₂ ?_)
  split
  · exact hwritten
  · exact ite_formed (mendSync_formed hs₂) (ite_formed (syncWrite_formed hs₂) (takeGroup_formed hs₂))
  · exact ite_formed hs₂ (wakeDeferred_formed hwritten)
  · exact hs₂

theorem State.lattice_formed (hs : s.formed) : s.lattice.formed := by
  refine foldl_formed (fun _ _ h => ite_formed (serve_formed h) (ite_formed h ?_)) hs
  split
  next e => exact sendFlit_formed h _ e
  · exact h

/-! ### The loader -/

theorem State.onTiles_formed {g} {f : ℕ → ℕ → Tile → Tile} (hs : s.formed) : (s.onTiles g f).formed :=
  foldl_formed (fun _ _ => foldl_formed (fun _ _ h₁ => h₁)) hs

theorem State.loadBytes_formed {g k va n} (hs : s.formed) : (s.loadBytes g k va n).1.formed := by
  induction k generalizing s va n with
  | zero => exact hs
  | succ k ih =>
    refine ite_fst_formed hs ?_
    extract_lets _
    split
    next e => exact fst_formed e (xlate_formed hs)
    next e =>
      have hs₁ := fst_formed e (xlate_formed hs)
      split
      next e => exact fst_formed e (imageBlock_formed hs₁)
      next e =>
        split <;> exact fst_formed ‹_› (ih (fst_formed e (imageBlock_formed hs₁)))

theorem State.onLoader_formed {r f} (hs : s.formed) : (s.onLoader r f).formed := onRegion_formed hs

theorem State.discardShadow_formed {r phase due} (hs : s.formed) : (s.discardShadow r phase due).formed := by
  unfold State.discardShadow
  split
  · exact hs
  · exact onTiles_formed hs

theorem State.loaderFault_formed {r g f} (hs : s.formed) : (s.loaderFault r g f).formed :=
  ite_formed (discardShadow_formed (post_formed hs)) (raise_formed (ite_formed (discardShadow_formed hs) hs))

theorem State.cfginv_formed {r g f} (hs : s.formed) : (s.cfginv r g f).formed := by
  unfold State.cfginv
  extract_lets _ _ s₁ _ s₂
  have hs₁ : s₁.formed := post_formed hs
  have hs₂ : s₂.formed := unreserveLaunch_formed (releaseRegion_formed (complete_formed (failLaunch_formed hs₁)))
  exact ite_formed (discardShadow_formed hs₁) (mapDies_formed hs₂)

theorem State.switchIn_formed {r g v} (hs : s.formed) : (s.switchIn r g v).formed :=
  enterArgument_formed (onTiles_formed (clearTiles_formed hs))

theorem State.finishSwitch_formed {r} (hs : s.formed) : (s.finishSwitch r).formed := by
  unfold State.finishSwitch
  split
  · exact hs
  · exact ite_formed (onTiles_formed hs) hs

theorem execLoaderRead_formed {r} (hs : s.formed) : NextFormed (execLoaderRead r s) := by
  unfold execLoaderRead
  split
  · exact hs
  · refine ite_formed hs ?_
    extract_lets +onlyGivenNames _ _ _
    split
    next e => exact loaderFault_formed (fst_formed e (loadBytes_formed hs))
    next e => exact onLoader_formed (onTiles_formed (fst_formed e (loadBytes_formed hs)))

theorem execVerificationPass_formed {r} (hs : s.formed) : NextFormed (execVerificationPass r s) := by
  unfold execVerificationPass
  split
  · exact hs
  · refine ite_formed hs ?_
    extract_lets +onlyGivenNames _ _
    split
    · exact cfginv_formed hs
    · exact ite_formed hs (switchIn_formed hs)

theorem execSuccessorPreload_formed {r} (hs : s.formed) : NextFormed (execSuccessorPreload r s) := by
  unfold execSuccessorPreload
  split
  · exact hs
  · refine ite_formed hs ?_
    extract_lets +onlyGivenNames _ _ _ _
    split
    next e =>
      have hs₂ := fst_formed e (loadBytes_formed hs)
      exact ite_formed (loaderFault_formed hs₂) (cfginv_formed hs₂)
    next e =>
      have hs₂ := fst_formed e (loadBytes_formed hs)
      exact ite_formed (cfginv_formed hs₂) (ite_formed (cfginv_formed hs₂) (onTiles_formed hs₂))

theorem State.configError_formed {r t} (hs : s.formed) : (s.configError r t).formed := by
  unfold State.configError
  split
  · exact hs
  · extract_lets +onlyGivenNames _ _ _ s₁ _ s₂
    have hs₁ : s₁.formed := onTile_formed hs
    have hs₂ : s₂.formed := ite_formed hs₁ hs₁
    refine ite_formed ?_ (ite_formed hs₂ hs₂)
    extract_lets +onlyGivenNames s₃
    have hs₃ : s₃.formed := count_formed (postDie_formed hs₂)
    exact ite_formed (thinDie_formed (markTile_formed hs₃)) (fenceTile_formed hs₃)

theorem State.startRepair_formed {r t} (hs : s.formed) : (s.startRepair r t).formed :=
  ite_formed (leaveTile_formed hs) (onRegion_formed hs)

theorem State.applyMarks_formed {r place marks} (hs : s.formed) : (s.applyMarks r place marks).formed := by
  refine foldl_formed (fun _ _ h => ?_) hs
  split
  · exact startRepair_formed h
  · exact raise_formed h

theorem execConfigScrub_formed {r} (hs : s.formed) : NextFormed (execConfigScrub r s) := by
  unfold execConfigScrub
  split
  · exact hs
  · exact ite_formed hs (ite_formed hs (configError_formed hs))

theorem State.repairList_formed {g img variant} (hs : s.formed) : (s.repairList g img variant).1.formed := by
  unfold State.repairList
  split
  next e => exact fst_formed e (loadBytes_formed hs)
  next e =>
    extract_lets +onlyGivenNames _
    split <;> exact fst_formed ‹_› (loadBytes_formed (fst_formed e (loadBytes_formed hs)))

theorem State.rewrite_formed {g t} (hs : s.formed) : (s.rewrite g t).1.formed := by
  unfold State.rewrite
  split
  next e => exact fst_formed e (repairList_formed hs)
  next e =>
    have hs₁ := fst_formed e (repairList_formed hs)
    refine ite_fst_formed hs₁ ?_
    split
    next e => exact fst_formed e (repairList_formed hs₁)
    next e => exact onTile_formed (fst_formed e (repairList_formed hs₁))

theorem execConfigRepairComplete_formed {r} (hs : s.formed) : NextFormed (execConfigRepairComplete r s) := by
  unfold execConfigRepairComplete
  split
  · exact hs
  · split
    · exact hs
    · refine ite_formed hs ?_
      split
      next e => exact raise_formed (fst_formed e (rewrite_formed hs))
      next e =>
        extract_lets +onlyGivenNames _ _ _ s₂
        have hs₂ : s₂.formed := postDie_formed (fst_formed e (rewrite_formed hs))
        exact ite_formed (fenceTile_formed hs₂) hs₂

/-! ### Bead control -/

theorem State.emitThen_formed {ports} {k : State → State} (hs : s.formed) (hk : ∀ s, s.formed → (k s).formed) :
    (s.emitThen ports k).formed := ite_formed hs (ite_formed (hk _ hs) hs)

theorem beadOp_formed {f srcs} {effect : Mask → State → State} (hs : s.formed)
    (heffect : ∀ a s, s.formed → (effect a s).formed) :
    NextFormed (beadOp s f srcs effect) := issue_formed hs fun _ => heffect _ _

theorem execRoute_formed {f} (hs : s.formed) : NextFormed (execRoute f s) :=
  beadOp_formed hs fun _ _ h => ite_formed (emitThen_formed h (fun _ h => h)) h

theorem execSplit_formed {f} (hs : s.formed) : NextFormed (execSplit f s) :=
  beadOp_formed hs fun _ _ h => emitThen_formed h fun _ h => h

theorem execMerge_formed {f} (hs : s.formed) : NextFormed (execMerge f s) := by
  refine beadOp_formed hs fun _ _ h => ?_
  extract_lets +onlyGivenNames _ _
  split
  · exact h
  · refine ite_formed h ?_
    split
    · exact h
    · exact ite_formed h h

theorem execRecirc_formed {f} (hs : s.formed) : NextFormed (execRecirc f s) :=
  beadOp_formed hs fun _ _ h => emitThen_formed h fun _ h => h

theorem execAccept_formed {f} (hs : s.formed) : NextFormed (execAccept f s) := by
  refine beadOp_formed hs fun _ _ h => ?_
  extract_lets +onlyGivenNames _
  split
  · exact h
  · exact ite_formed h (ite_formed h h)

theorem execDrop_formed {f} (hs : s.formed) : NextFormed (execDrop f s) :=
  beadOp_formed hs fun _ _ h => ite_formed h h

theorem execHold_formed {f} (hs : s.formed) : NextFormed (execHold f s) :=
  beadOp_formed hs fun _ _ h => ite_formed h h

theorem execNewb_formed {f} (hs : s.formed) : NextFormed (execNewb f s) := by
  unfold execNewb
  exact beadOp_formed hs fun _ _ h => emitThen_formed h fun _ h₁ => h₁

theorem execTok_formed {f} (hs : s.formed) : NextFormed (execTok f s) :=
  beadOp_formed hs fun _ _ h => emitThen_formed h fun _ h => h

theorem execSwi_formed {f} (hs : s.formed) : NextFormed (execSwi f s) := by
  refine beadOp_formed hs fun _ _ h => ?_
  split
  · exact h
  · exact ite_formed (emitThen_formed h fun _ h => h) h

/-! ### Engines -/

theorem enginePort_formed {f fn i} (hs : s.formed) : NextFormed (enginePort s f fn i) :=
  syncOp_formed hs fun _ h => ite_formed (trap_formed h) (ite_formed h
    (irrevocably_formed h (fun _ h₁ => issueY_formed (markOlder_formed (setEngine_formed h₁)))))

theorem chainAppend_formed {f desc entryVa rel bytes cmd i} (hs : s.formed) :
    (chainAppend s f desc entryVa rel bytes cmd i).formed := by
  unfold chainAppend
  split
  · exact hs
  · refine ite_formed (trap_formed hs) ?_
    split
    next e => exact trap_formed (fst_formed e (syncWord_formed hs))
    next e => exact trap_formed (fst_formed e (syncWord_formed hs))
    next e => exact trap_formed (fst_formed e (syncWord_formed hs))
    next e =>
      have hs₁ := fst_formed e (syncWord_formed hs)
      split
      next e => exact trap_formed (fst_formed e (page_formed hs₁))
      next e =>
        have hs₂ := fst_formed e (page_formed hs₁)
        split
        · exact trap_formed hs₂
        · split
          · exact trap_formed (touchBad_formed hs₂)
          · exact trap_formed (touchBad_formed hs₂)
          · split
            next e => exact trap_formed (fst_formed e (tailFault_formed hs₂))
            next e =>
              have hs₃ := fst_formed e (tailFault_formed hs₂)
              refine ite_formed hs₃ (irrevocably_formed hs₃ (fun _ h => ?_))
              extract_lets +onlyGivenNames s₄ _ _ s₅
              have hs₄ : s₄.formed := touch_formed (touch_formed h)
              have hs₅ : s₅.formed := ite_formed (markOlder_formed hs₄) hs₄
              exact ite_formed (remoteAnswer_formed hs₅) hs₅

theorem engineChain_formed {f fn i} (hs : s.formed) : NextFormed (engineChain s f fn i) :=
  syncOp_formed hs fun _ h => chainAppend_formed h

theorem State.bodyFault_formed {d e c k} (hs : s.formed) : (s.bodyFault d e c k).1.formed := by
  unfold State.bodyFault
  extract_lets +onlyGivenNames _ _
  split
  rename_i s₁ _ e
  have hs₁ := fst_formed e (by
    refine ite_fst_formed hs (ite_fst_formed hs ?_)
    split
    next e => exact fst_formed e (page_formed hs)
    next e => exact fst_formed e (page_formed hs))
  split
  · exact hs₁
  · split
    · exact hs₁
    · exact hs₁
    · refine ite_fst_formed hs₁ (ite_fst_formed hs₁ (ite_fst_formed hs₁ (ite_fst_formed hs₁ ?_)))
      split <;> exact fst_formed ‹_› (readRun_formed hs₁)
    · refine ite_fst_formed hs₁ ?_
      split <;> exact fst_formed ‹_› (openAt_formed hs₁)

theorem State.copyUnits_formed {p c h dst len} {get : State → ℕ → ℕ → State × Except Flt (List Byte)} {n o}
    (hs : s.formed) (hget : ∀ s a b, s.formed → (get s a b).1.formed) :
    (s.copyUnits p c h dst len get n o).1.formed := by
  induction n generalizing s o with
  | zero => exact hs
  | succ n ih =>
    refine ite_fst_formed hs ?_
    split
    next e => exact fst_formed e (hget _ _ _ hs)
    next e =>
      have hs₁ := fst_formed e (hget _ _ _ hs)
      split
      next e => exact ih (fst_formed e (writeRun_formed hs₁))
      next e => exact fst_formed e (writeRun_formed hs₁)

theorem State.cutKey_formed {h desc key} (hs : s.formed) : (s.cutKey h desc key).formed := by
  unfold State.cutKey
  split
  · exact hs
  · exact cutTask_formed (unreserve_formed hs)

theorem State.sparsifyFrom_formed {p c desc pa k wb total n i} (hs : s.formed) :
    (s.sparsifyFrom p c desc pa k wb total n i).1.formed := by
  induction n generalizing s i with
  | zero => exact hs
  | succ n ih =>
    refine ite_fst_formed hs ?_
    split
    next e => exact fst_formed e (readRun_formed hs)
    next e =>
      have hs₁ := fst_formed e (readRun_formed hs)
      extract_lets _ _ s₂
      have hs₂ : s₂.formed := touch_formed hs₁
      refine ite_fst_formed (ih hs₁) (ite_fst_formed hs₂ ?_)
      split
      · exact hs₂
      next e => exact ih (cutKey_formed (unreserve_formed (applyKeys_formed (reserve_formed hs₂ _ e))))

theorem State.maxWord_formed {pa n} (hs : s.formed) : (s.maxWord pa n).formed := syncWrite_formed hs

theorem State.readAheadFrom_formed {p c k n got} (hs : s.formed) : (s.readAheadFrom p c k n got).1.formed := by
  induction n generalizing s got with
  | zero => exact hs
  | succ n ih =>
    refine ite_fst_formed hs ?_
    split
    next e => exact ih (fst_formed e (readRun_formed hs))
    next e => exact fst_formed e (readRun_formed hs)

theorem State.readAhead_formed {p c k} (hs : s.formed) : (s.readAhead p c k).1.formed :=
  ite_fst_formed (readAheadFrom_formed hs) hs

theorem State.runCommand_formed {d e c k} (hs : s.formed) : (s.runCommand d e c k).1.formed := by
  unfold State.runCommand
  extract_lets +onlyGivenNames _
  split
  · exact copyUnits_formed hs fun _ _ _ h => ite_fst_formed h (readRun_formed h)
  · extract_lets +onlyGivenNames _
    split
    next e => exact fst_formed e (openAt_formed hs)
    next e =>
      refine copyUnits_formed (fst_formed e (openAt_formed hs)) fun _ _ _ h => ?_
      extract_lets +onlyGivenNames _ s₂
      have hs₂ : s₂.formed := foldl_formed (fun _ _ => touch_formed) h
      exact ite_fst_formed hs₂ hs₂
  · extract_lets +onlyGivenNames _
    split
    next e => exact fst_formed e (openAt_formed hs)
    next e => exact sparsifyFrom_formed (fst_formed e (openAt_formed hs))
  · split
    · exact copyUnits_formed hs fun _ _ _ h => h
    · exact hs
  · exact hs

theorem State.writeCw_formed {d e c k n} (hs : s.formed) : (s.writeCw d e c k n).1.formed := by
  unfold State.writeCw
  refine ite_fst_formed hs ?_
  split
  next e => exact fst_formed e (page_formed hs)
  next e =>
    have hs₁ := fst_formed e (page_formed hs)
    split
    · exact hs₁
    · exact ite_fst_formed (mendSync_formed (touch_formed hs₁))
        (ite_fst_formed (touch_formed hs₁) (maxWord_formed (touch_formed hs₁)))

theorem State.entryWord_formed {d e c a} (hs : s.formed) : (s.entryWord d e c a).1.formed := by
  unfold State.entryWord
  split <;> exact fst_formed ‹_› (readRun_formed hs)

theorem State.setEntryWord_formed {d e c a v} (hs : s.formed) : (s.setEntryWord d e c a v).1.formed := by
  unfold State.setEntryWord
  split
  next e => exact fst_formed e (spans_formed hs)
  next e => exact writeSpans_formed (fst_formed e (spans_formed hs))

theorem State.entryStat_formed {d e c entry v} (hs : s.formed) : (s.entryStat d e c entry v).1.formed :=
  setEntryWord_formed hs

theorem State.chainPlaces_formed {d e c va write seen is} (hs : s.formed) :
    (s.chainPlaces d e c va write seen is).1.formed := by
  induction is generalizing s seen with
  | nil => exact hs
  | cons i is ih =>
    unfold State.chainPlaces
    extract_lets _
    split
    next e => exact fst_formed e (page_formed hs)
    next e =>
      have hs₁ := fst_formed e (page_formed hs)
      split
      · exact hs₁
      · extract_lets s₂
        have hs₂ : s₂.formed := ite_formed hs₁ (touch_formed hs₁)
        refine ite_fst_formed (mendSync_formed hs₂) ?_
        split <;> exact fst_formed ‹_› (ih hs₂)

theorem State.chainHead_formed {d e c va} (hs : s.formed) : (s.chainHead d e c va).1.formed := by
  unfold State.chainHead
  split
  next e => exact fst_formed e (chainPlaces_formed hs)
  next e =>
    have hs₁ := fst_formed e (chainPlaces_formed hs)
    exact ite_fst_formed hs₁ hs₁

theorem State.chainStepPlaces_formed {d e c desc link seq} (hs : s.formed) :
    (s.chainStepPlaces d e c desc link seq).1.formed := chainPlaces_formed hs

theorem State.chainStep_formed {link seq pas} (hs : s.formed) : (s.chainStep link seq pas).formed := by
  unfold State.chainStep
  extract_lets +onlyGivenNames put _
  have hput : ∀ s pa v, s.formed → (put s pa v).formed := fun _ _ _ h => ite_formed h (syncWrite_formed h)
  split
  · extract_lets +onlyGivenNames s₁
    have hs₁ : s₁.formed := hput _ _ _ (hput _ _ _ hs)
    exact ite_formed (hput _ _ _ hs₁) hs₁
  · extract_lets +onlyGivenNames s₁
    have hs₁ : s₁.formed := hput _ _ _ hs
    exact ite_formed (hput _ _ _ hs₁) hs₁

theorem State.entryEnd_formed {d e c a} (hs : s.formed) : (s.entryEnd d e c a).1.formed := by
  unfold State.entryEnd
  split
  next e => exact fst_formed e (entryWord_formed hs)
  next e =>
    have hs₁ := fst_formed e (entryWord_formed hs)
    split
    next e => exact fst_formed e (spans_formed hs₁)
    next e =>
      split <;> exact fst_formed ‹_› (entryWord_formed (fst_formed e (spans_formed hs₁)))

theorem State.stopEngine_formed {d e c k f prog} (hs : s.formed) : (s.stopEngine d e c k f prog).formed := by
  unfold State.stopEngine
  extract_lets +onlyGivenNames s₁
  have hs₁ : s₁.formed := by
    unfold s₁
    split
    · exact ite_formed (setEntryWord_formed hs) (entryStat_formed (setEntryWord_formed hs))
    · exact hs
  exact ite_formed (post_formed hs₁) (post_formed hs₁)

theorem nextOrdinal_formed {d c grp} (hs : s.formed) : (nextOrdinal s d c grp).2.formed := by
  unfold nextOrdinal
  extract_lets +onlyGivenNames _
  split <;> exact hs

theorem startCommand_formed {d e c k} (hs : s.formed) : (startCommand s d e c k).formed := by
  unfold startCommand
  split
  next e => exact stopEngine_formed (fst_formed e (bodyFault_formed hs))
  next e =>
    have hs₁ := fst_formed e (bodyFault_formed hs)
    exact ite_snd_formed (nextOrdinal_formed hs₁) hs₁

theorem execEngineCommandStart_formed {d e c} (hs : s.formed) : NextFormed (execEngineCommandStart d e c s) := by
  unfold execEngineCommandStart
  extract_lets +onlyGivenNames _
  split
  · exact ite_formed hs (startCommand_formed hs)
  · exact hs

theorem execChainWalk_formed {d e c} (hs : s.formed) : NextFormed (execChainWalk d e c s) := by
  unfold execChainWalk
  extract_lets +onlyGivenNames _
  split
  · refine ite_formed hs ?_
    split
    next e => exact stopEngine_formed (fst_formed e (chainHead_formed hs))
    next e =>
      have hs₁ := fst_formed e (chainHead_formed hs)
      refine ite_formed hs₁ ?_
      extract_lets +onlyGivenNames _
      split
      next e => exact stopEngine_formed (fst_formed e (readRun_formed hs₁))
      next e =>
        have hs₃ := fst_formed e (readRun_formed hs₁)
        refine ite_formed hs ?_
        split
        next e => exact stopEngine_formed (fst_formed e (entryStat_formed hs₃))
        next e =>
          have hs₄ := fst_formed e (entryStat_formed hs₃)
          exact ite_formed (stopEngine_formed hs₄) (startCommand_formed hs₄)
  · exact hs

theorem finished_formed {d e c k} (hs : s.formed) : SomeFormed (finished s d e c k) := by
  unfold finished
  split
  · split
    · exact some_formed hs
    · exact none_formed
  · split
    · exact none_formed
    · split
      · exact none_formed
      next e =>
        have hs₁ := fst_formed e (readAhead_formed hs)
        split
        next e => exact some_formed (fst_formed e (runCommand_formed hs₁))
        · exact none_formed

theorem execEngineCommandComplete_formed {d e c} (hs : s.formed) :
    NextFormed (execEngineCommandComplete d e c s) := by
  unfold execEngineCommandComplete
  extract_lets +onlyGivenNames _
  split
  · refine ite_formed hs ?_
    split
    · exact hs
    next e =>
      have hs₁ := finished_formed hs _ e
      split
      · split
        next e => exact stopEngine_formed (fst_formed e (writeCw_formed hs₁))
        next e => exact setEngine_formed (fst_formed e (writeCw_formed hs₁))
      · split
        next e => exact stopEngine_formed (fst_formed e (entryEnd_formed hs₁))
        next e =>
          have hs₂ := fst_formed e (entryEnd_formed hs₁)
          split
          next e => exact stopEngine_formed (fst_formed e (writeCw_formed hs₂))
          next e =>
            have hs₃ := fst_formed e (writeCw_formed hs₂)
            split
            next e => exact stopEngine_formed (fst_formed e (chainStepPlaces_formed hs₃))
            next e =>
              have hs₄ := fst_formed e (chainStepPlaces_formed hs₃)
              split
              next e => exact stopEngine_formed (fst_formed e (entryStat_formed hs₄))
              next e => exact setEngine_formed (chainStep_formed (fst_formed e (entryStat_formed hs₄)))
  · exact hs

theorem execEngineFault_formed {d e c} (hs : s.formed) : NextFormed (execEngineFault d e c s) := by
  unfold execEngineFault
  extract_lets +onlyGivenNames _
  split
  · refine ite_formed hs ?_
    split
    next e => exact stopEngine_formed (fst_formed e (readAhead_formed hs))
    next e =>
      have hs₁ := fst_formed e (readAhead_formed hs)
      split
      next e => exact stopEngine_formed (fst_formed e (runCommand_formed hs₁))
      · exact hs
  · exact hs

theorem a2aSlot_formed {d e c k} (hs : s.formed) : (a2aSlot s d e c k).1.formed := by
  unfold a2aSlot
  extract_lets +onlyGivenNames _ _ _ _
  split
  next e => exact fst_formed e (readRun_formed hs)
  next e =>
    have hs₁ := fst_formed e (readRun_formed hs)
    refine ite_fst_formed hs₁ ?_
    split
    next e => exact fst_formed e (readRun_formed hs₁)
    next e =>
      have hs₂ := fst_formed e (readRun_formed hs₁)
      refine ite_fst_formed hs₂ ?_
      split
      next e => exact fst_formed e (page_formed hs₂)
      next e =>
        have hs₃ := fst_formed e (page_formed hs₂)
        split
        · exact hs₃
        · refine ite_fst_formed hs₃ ?_
          split
          · dsimp only
            exact foldl_formed (fun _ _ h => ite_formed (mendSync_formed h) h) hs₃
          · exact ite_fst_formed hs₃ hs₃

theorem execA2aDelivery_formed {d e c} (hs : s.formed) : NextFormed (execA2aDelivery d e c s) := by
  unfold execA2aDelivery
  extract_lets +onlyGivenNames _
  split
  · refine ite_formed hs ?_
    split
    next e => exact stopEngine_formed (fst_formed e (a2aSlot_formed hs))
    next e =>
      have hs₁ := fst_formed e (a2aSlot_formed hs)
      extract_lets +onlyGivenNames _
      split
      · exact setEngine_formed (ite_formed (touch_formed hs₁) (count_formed (post_formed (touch_formed hs₁))))
      · exact setEngine_formed (touch_formed hs₁)
      · split
        next e => exact stopEngine_formed (fst_formed e (writeRun_formed (touch_formed hs₁)))
        next e => exact setEngine_formed (syncWrite_formed (fst_formed e (writeRun_formed (touch_formed hs₁))))
  · exact hs

theorem execA2aResume_formed {d e c} (hs : s.formed) : NextFormed (execA2aResume d e c s) := by
  unfold execA2aResume
  extract_lets +onlyGivenNames _
  split
  · refine ite_formed ?_ hs
    split
    next e => exact stopEngine_formed (fst_formed e (a2aSlot_formed hs))
    next e =>
      have hs₁ := fst_formed e (a2aSlot_formed hs)
      exact ite_formed (touch_formed hs₁) (touch_formed hs₁)
  · exact hs

theorem groupOf_formed {d e c k} (hs : s.formed) : (groupOf s d e c k).1.formed := by
  unfold groupOf
  extract_lets +onlyGivenNames _
  split
  next e => exact fst_formed e (readRun_formed hs)
  next e =>
    extract_lets +onlyGivenNames _
    split <;> exact fst_formed ‹_› (readRun_formed (fst_formed e (readRun_formed hs)))

theorem execCollMatch_formed {d e c} (hs : s.formed) : NextFormed (execCollMatch d e c s) := by
  unfold execCollMatch
  split
  · refine ite_formed hs ?_
    split
    next e => exact stopEngine_formed (fst_formed e (groupOf_formed hs))
    next e =>
      have hs₁ := fst_formed e (groupOf_formed hs)
      refine ite_formed hs (ite_formed (foldl_formed (fun _ _ => stopEngine_formed) hs₁) ?_)
      extract_lets +onlyGivenNames _ _ _ _
      split
      rename_i s₂ _ _ e
      have hs₂ := fst_formed e (by
        refine foldl_fst_formed (fun _ _ h => ite_fst_formed h ?_) hs₁
        split
        · exact h
        · split
          next e => exact fst_formed e (readRun_formed h)
          next e => exact fst_formed e (readRun_formed h))
      split
      · exact stopEngine_formed hs₂
      · exact foldl_formed (fun _ _ h => h) hs₂
  · exact hs

/-! ### The scheduler -/

theorem State.resx_formed {r g causes} (hs : s.formed) : (s.resx r g causes).formed :=
  setRegion_formed (count_formed (postDie_formed hs))

theorem State.makeRegion_formed {d h c img i v o} (hs : s.formed) : (s.makeRegion d h c img i v o).formed :=
  foldl_formed (fun _ _ h₁ => h₁) hs

theorem State.placeTask_formed {d h i k l v o} (hs : s.formed) : (s.placeTask d h i k l v o).formed :=
  count_formed (dropReserve_formed (makeRegion_formed hs))

theorem State.reserveRestore_formed {g} (hs : s.formed) : (s.reserveRestore g).formed := by
  unfold State.reserveRestore
  split
  · exact hs
  · extract_lets +onlyGivenNames _ _ _ _
    split
    · exact freshReserve_formed hs
    · split
      · exact ite_formed (freshReserve_formed hs) (count_formed (onDie_formed (freshReserve_formed hs)))
      · exact freshReserve_formed hs

theorem State.reissueEngine_formed {d e c} (hs : s.formed) : (s.reissueEngine d e c).formed := by
  unfold State.reissueEngine
  extract_lets +onlyGivenNames _
  split
  · refine ite_formed hs ?_
    split
    · exact hs
    · exact ite_formed hs hs
  · exact hs

theorem execTimeAllowanceExpiry_formed {r} (hs : s.formed) : NextFormed (execTimeAllowanceExpiry r s) := by
  unfold execTimeAllowanceExpiry
  split
  · exact ite_formed (exhaust_formed hs) hs
  · exact hs

theorem execExhaustion_formed {r cause} (hs : s.formed) : NextFormed (execExhaustion r cause s) := by
  unfold execExhaustion
  split
  · exact hs
  · exact ite_formed hs (ite_formed hs (ite_formed (resx_formed hs) (drain_formed hs)))

theorem execAdmissionAgeExpiry_formed {h} (hs : s.formed) : NextFormed (execAdmissionAgeExpiry h s) := by
  unfold execAdmissionAgeExpiry
  split
  · exact hs
  · refine ite_formed hs ?_
    split
    · exact hs
    · extract_lets +onlyGivenNames _
      split
      · exact ite_formed (freshReserve_formed hs) (getD_formed (splitTask_formed (freshReserve_formed hs))
          (freshReserve_formed hs))
      · split
        · exact count_formed (onDie_formed (freshReserve_formed hs))
        · exact freshReserve_formed hs

theorem execQuiescenceReport_formed {r} (hs : s.formed) : NextFormed (execQuiescenceReport r s) := by
  unfold execQuiescenceReport
  split
  · exact hs
  · split
    · exact ite_formed (endActing_formed (afterDrain_formed (releaseRegion_formed hs))) hs
    · exact ite_formed (commit_formed hs (fun _ h => releaseRegion_formed (complete_formed h))) hs

theorem execDependenceDecrement_formed {h} (hs : s.formed) : NextFormed (execDependenceDecrement h s) := by
  unfold execDependenceDecrement
  split
  · exact hs
  · exact ite_formed hs hs

theorem execAllocate_formed {d} (hs : s.formed) : NextFormed (execAllocate d s) := by
  refine ite_formed hs ?_
  split
  · exact ite_formed hs (placeTask_formed hs)
  · exact hs

theorem execIdxfullReissue_formed {r} (hs : s.formed) : NextFormed (execIdxfullReissue r s) := by
  unfold execIdxfullReissue
  extract_lets +onlyGivenNames s₁
  have hs₁ : s₁.formed := by
    unfold s₁
    split
    · exact hs
    · exact ite_formed (reissueAll_formed (thawBy_formed hs)) hs
  exact foldl_formed (fun _ _ => foldl_formed (fun _ _ => foldl_formed (fun _ _ => reissueEngine_formed))) hs₁

/-! ### Launch events -/

theorem execLaunchArm_formed {c n} (hs : s.formed) : NextFormed (execLaunchArm c n s) :=
  ite_formed (armRecord_formed hs) hs

theorem execLaunchStart_formed {c n} (hs : s.formed) : NextFormed (execLaunchStart c n s) := by
  unfold execLaunchStart
  split
  · exact hs
  · exact ite_formed (runRecord_formed hs) hs

theorem State.enqueuePiece_formed {l d dom} (hs : s.formed) : (s.enqueuePiece l d dom).formed :=
  enqueue_formed hs

theorem execLaunchPacket_formed {d k} (hs : s.formed) : NextFormed (execLaunchPacket d k s) := by
  unfold execLaunchPacket
  split
  · exact hs
  · exact ite_formed hs (foldl_formed (fun _ _ h => ite_formed h (enqueuePiece_formed h)) hs)

theorem execPendingPieceEnqueue_formed {d} (hs : s.formed) : NextFormed (execPendingPieceEnqueue d s) := by
  unfold execPendingPieceEnqueue
  extract_lets +onlyGivenNames _
  split
  · exact hs
  · extract_lets +onlyGivenNames _
    split
    · exact enqueuePiece_formed hs
    · exact hs

theorem execDieReport_formed {d k} (hs : s.formed) : NextFormed (execDieReport d k s) := by
  unfold execDieReport
  split
  · exact hs
  · exact ite_formed hs (ite_formed (completeLaunch_formed hs) hs)

/-! ### Contexts and their records -/

theorem State.whenReady_formed {k : State → State} (hs : s.formed) (hk : ∀ s, s.formed → (k s).formed) :
    (s.whenReady k).formed := ite_formed (hk _ hs) hs

theorem State.logError_formed {status addr} (hs : s.formed) : (s.logError status addr).formed :=
  ite_formed hs hs

theorem State.idleRecords_formed {c fresh} (hs : s.formed) : (s.idleRecords c fresh).formed := by
  refine foldl_formed (fun _ _ h => ?_) hs
  extract_lets +onlyGivenNames s₁
  have hs₁ : s₁.formed := setRecField_formed (setRecField_formed h)
  exact ite_formed (setRecField_formed (setRecField_formed hs₁)) hs₁

theorem State.activate_formed {c} (hs : s.formed) : (s.activate c).formed :=
  ite_formed hs (ite_formed (logError_formed hs) (onCtx_formed (dropEngines_formed (idleRecords_formed hs))))

theorem State.sendNotify_formed {c} (hs : s.formed) : (s.sendNotify c).formed := memSet_formed hs

theorem State.writeHead_formed {c v} (hs : s.formed) : (s.writeHead c v).formed :=
  ite_formed hs (sendNotify_formed hs)

theorem State.writeRecord_formed {c q rec' held} (hs : s.formed) : (s.writeRecord c q rec' held).formed := by
  unfold State.writeRecord
  extract_lets +onlyGivenNames _ _ s₁ _ s₃
  have hs₁ : s₁.formed := ite_formed hs (getD_formed (physWrite_formed hs) hs)
  have hs₃ : s₃.formed := ite_formed (onCtx_formed hs₁) (sendNotify_formed (onCtx_formed hs₁))
  exact ite_formed hs₃ (ite_formed (ite_snd_formed hs₃ (armRecord_formed hs₃))
    (count_formed (onCtx_formed (ite_snd_formed hs₃ (armRecord_formed hs₃)))))

theorem State.numberRecord_formed {d c rec'} (hs : s.formed) : (s.numberRecord d c rec').1.formed := by
  refine ite_fst_formed hs ?_
  extract_lets _ _ _ _ _ _ _ _ _ s₃ _
  have hs₃ : s₃.formed := ite_formed (ite_formed hs hs) hs
  exact ite_formed (onTask_formed hs₃) hs₃

theorem execFaultPost_formed {d c} (hs : s.formed) : NextFormed (execFaultPost d c s) := by
  unfold execFaultPost
  split
  · exact hs
  · extract_lets _ _ slot
    clear_value slot
    split
    rename_i s₁ _ e
    have hs₁ := fst_formed e (numberRecord_formed hs)
    split
    · exact ite_formed (writeRecord_formed hs₁) (ite_formed hs hs₁)
    · refine ite_formed hs (ite_formed hs₁ ?_)
      split <;> exact hs

theorem execHeldRecordPost_formed {d c} (hs : s.formed) : NextFormed (execHeldRecordPost d c s) := by
  unfold execHeldRecordPost
  split
  · exact writeRecord_formed hs
  · exact hs

theorem State.drainContext_formed {c kept} (hs : s.formed) : (s.drainContext c kept).formed :=
  foldl_formed (fun _ _ => drain_formed) hs

theorem State.startRemoval_formed {c} (hs : s.formed) : (s.startRemoval c).formed :=
  ite_formed hs (drainContext_formed (foldl_formed (fun _ _ => unreserve_formed) hs))

theorem State.withoutContext_formed {dies tiles tasks} (hs : s.formed) :
    State.formed { s with dies := dies, tiles := tiles, tasks := tasks } := hs

theorem execRemovalComplete_formed {c} (hs : s.formed) : NextFormed (execRemovalComplete c s) :=
  ite_formed hs (onCtx_formed (withoutContext_formed (idleRecords_formed hs)))

/-! ### Commands, save and restore -/

theorem State.newAllowance_formed {h e} (hs : s.formed) : (s.newAllowance h e).formed :=
  ite_formed hs (onTask_formed hs)

theorem State.resumeRegion_formed {r seq g texp} (hs : s.formed) : (s.resumeRegion r seq g texp).2.formed := by
  unfold State.resumeRegion
  split
  · exact hs
  · exact ite_snd_formed hs (reissueAll_formed (thaw_formed (ite_formed (newAllowance_formed hs)
      (newAllowance_formed hs))))

theorem State.resumeEngine_formed {d e c} (hs : s.formed) : (s.resumeEngine d e c).formed := by
  unfold State.resumeEngine
  extract_lets +onlyGivenNames _ _
  split
  · exact hs
  · refine ite_formed ?_ ?_
    · extract_lets +onlyGivenNames _
      split
      · exact hs
      · split
        next e => exact stopEngine_formed (fst_formed e (entryStat_formed hs))
        next e => exact fst_formed e (entryStat_formed hs)
    · split <;> exact hs

theorem State.failEngine_formed {d e c} (hs : s.formed) : (s.failEngine d e c).formed := by
  unfold State.failEngine
  split
  · exact hs
  · split
    · exact hs
    · extract_lets
      split
      next e => exact stopEngine_formed (fst_formed e (entryWord_formed hs))
      next e =>
        have hs₁ := fst_formed e (entryWord_formed hs)
        split
        next e => exact stopEngine_formed (fst_formed e (chainStepPlaces_formed hs₁))
        next e =>
          have hs₂ := fst_formed e (chainStepPlaces_formed hs₁)
          split
          next e => exact stopEngine_formed (fst_formed e (entryStat_formed hs₂))
          next e => exact chainStep_formed (fst_formed e (entryStat_formed hs₂))

theorem State.recordCommand_formed {op c seq texp} (hs : s.formed) : (s.recordCommand op c seq texp).2.formed := by
  refine ite_snd_formed hs ?_
  split
  · split
    · exact resumeRegion_formed hs
    · exact ite_snd_formed hs (drain_formed hs)
    · exact drain_formed hs
    · exact hs
  · split
    · split
      · exact resumeEngine_formed hs
      · exact failEngine_formed hs
      · exact failEngine_formed hs
      · exact hs
    · split
      · exact ite_snd_formed (onLoader_formed hs) hs
      · split
        · split
          · exact complete_formed (failLaunch_formed hs)
          · exact requeue_formed (newAllowance_formed hs)
          · exact hs
        · exact hs

theorem State.stopWave_formed {r} (hs : s.formed) : (s.stopWave r).formed := by
  unfold State.stopWave
  split
  · exact hs
  · exact onRegion_formed (ite_formed (discardShadow_formed hs) hs)

theorem State.startPreempt_formed {c k} (hs : s.formed) : (s.startPreempt c k).formed := by
  unfold State.startPreempt
  extract_lets +onlyGivenNames _ _ _ s₂
  have hs₂ : s₂.formed := ite_formed (memFilter_wf hs _) hs
  split
  · exact foldl_formed (fun _ _ => drain_formed) hs₂
  · exact foldl_formed (fun _ _ => stopWave_formed) hs₂
  · exact hs₂

theorem State.goOn_formed {r} (hs : s.formed) : (s.goOn r).formed := by
  unfold State.goOn
  split
  · exact hs
  · exact applyMarks_formed (reissueAll_formed hs)

theorem State.startRestore_formed {c k} (hs : s.formed) : (s.startRestore c k).formed :=
  foldl_formed (fun _ _ => goOn_formed) hs

theorem State.performCommand_formed {c k} (hs : s.formed) : (s.performCommand c k).formed := by
  unfold State.performCommand
  split
  · exact startPreempt_formed hs
  · exact startRestore_formed hs
  · extract_lets held
    clear_value held
    split
    rename_i _ s₁ e
    have hs₁ := snd_formed e (recordCommand_formed hs)
    split
    · exact ite_formed hs₁ (endCommand_formed hs₁)
    · exact endCommand_formed hs₁

theorem State.runCommands_formed {c n} (hs : s.formed) : (s.runCommands c n).formed := by
  induction n generalizing s with
  | zero => exact hs
  | succ n ih =>
    unfold State.runCommands
    split
    · exact hs
    · exact ite_formed hs (ih (performCommand_formed hs))

theorem State.nextCommands_formed {c} (hs : s.formed) : (s.nextCommands c).formed := runCommands_formed hs

theorem State.acceptCommand_formed {k} (hs : s.formed) : (s.acceptCommand k).formed :=
  ite_formed (endCommand_formed hs) (ite_formed (endCommand_formed hs) (nextCommands_formed hs))

theorem execResume_formed {k} (hs : s.formed) : NextFormed (execResume k s) :=
  ite_formed (whenReady_formed hs (fun _ => acceptCommand_formed)) hs

theorem execAbort_formed {k} (hs : s.formed) : NextFormed (execAbort k s) :=
  ite_formed (whenReady_formed hs (fun _ => acceptCommand_formed)) hs

theorem execKill_formed {k} (hs : s.formed) : NextFormed (execKill k s) :=
  ite_formed (whenReady_formed hs (fun _ => acceptCommand_formed)) hs

theorem execSkip_formed {k} (hs : s.formed) : NextFormed (execSkip k s) :=
  ite_formed (whenReady_formed hs (fun _ => acceptCommand_formed)) hs

theorem execRetry_formed {k} (hs : s.formed) : NextFormed (execRetry k s) :=
  ite_formed (whenReady_formed hs (fun _ => acceptCommand_formed)) hs

theorem execPreemptBoundary_formed {k} (hs : s.formed) : NextFormed (execPreemptBoundary k s) :=
  ite_formed (whenReady_formed hs (fun _ => acceptCommand_formed)) hs

theorem execPreemptAbort_formed {k} (hs : s.formed) : NextFormed (execPreemptAbort k s) :=
  ite_formed (whenReady_formed hs (fun _ => acceptCommand_formed)) hs

theorem execPreemptFreezeSave_formed {k} (hs : s.formed) : NextFormed (execPreemptFreezeSave k s) :=
  ite_formed (whenReady_formed hs (fun _ => acceptCommand_formed)) hs

theorem execResumectx_formed {k} (hs : s.formed) : NextFormed (execResumectx k s) :=
  ite_formed (whenReady_formed hs (fun _ => acceptCommand_formed)) hs

theorem State.tileImage_formed {scr T} (hs : s.formed) : (s.tileImage scr T).2.formed := by
  unfold State.tileImage
  extract_lets +onlyGivenNames own
  have hown : ∀ {n some' s}, s.formed → (own n some' s).2.formed := fun h => ite_snd_formed h h
  exact hown (hown (hown (hown hs)))

theorem State.tileImages_formed {scr ts} (hs : s.formed) : (s.tileImages scr ts).2.formed := by
  induction ts generalizing s with
  | nil => exact hs
  | cons T ts ih =>
    unfold State.tileImages
    split
    rename_i _ s₁ e
    have hs₁ := snd_formed e (tileImage_formed hs)
    split
    rename_i _ s₂ e
    exact snd_formed e (ih hs₁)

theorem State.writeArea_formed {g base} (hs : s.formed) : (s.writeArea g base).formed :=
  memSet_formed (memSet_formed (tileImages_formed hs))

theorem State.scrubRegion_formed {r g} (hs : s.formed) : (s.scrubRegion r g).formed := by
  refine foldl_formed (fun _ _ h => ?_) hs
  split
  · exact h
  · exact onRegion_formed h

theorem State.takeBack_formed {g} (hs : s.formed) : (s.takeBack g).formed := foldl_formed (fun _ _ h => h) hs

theorem State.saveRegion_formed {r g₀ base} (hs : s.formed) : (s.saveRegion r g₀ base).formed := by
  unfold State.saveRegion
  extract_lets s₁ _ _ _ _ _ _ s₂ s₃ _ _
  have hs₁ : s₁.formed := foldl_formed (fun _ _ => onTile_formed) (takeBack_formed (scrubRegion_formed hs))
  have hs₃ : s₃.formed := ite_formed hs₁ (writeArea_formed hs₁)
  exact unqueue_formed (onTask_formed (releaseRegion_formed hs₃))

theorem State.forgetSaved_formed {c} (hs : s.formed) : (s.forgetSaved c).formed :=
  foldl_formed (fun _ _ => unreserve_formed) hs

theorem execSaveComplete_formed {r} (hs : s.formed) : NextFormed (execSaveComplete r s) := by
  unfold execSaveComplete
  split
  · exact hs
  · refine ite_formed hs (ite_formed (saveRegion_formed hs) ?_)
    extract_lets +onlyGivenNames _
    split
    · exact hs
    · extract_lets _ _ _ s₁ _
      have hs₁ : s₁.formed := saveRegion_formed hs
      exact ite_formed hs (onCtx_formed (memSet_formed (ite_formed (forgetSaved_formed hs₁) hs₁)))

theorem execPreemptEnd_formed {c} (hs : s.formed) : NextFormed (execPreemptEnd c s) := by
  unfold execPreemptEnd
  split
  · exact nextCommands_formed hs
  · extract_lets +onlyGivenNames _ finish
    have hfinish : ∀ s st, s.formed → (finish s st).formed := by
      unfold finish
      intro _ _ h
      extract_lets +onlyGivenNames s₁
      have hs₁ : s₁.formed := endCommand_formed h
      exact ite_formed (drainContext_formed hs₁) (nextCommands_formed hs₁)
    exact ite_formed (ite_formed hs (hfinish _ _ (memSet_formed hs))) (ite_formed (hfinish _ _ hs) hs)

theorem State.restoreRegion_formed {x : Saved} {d ox oy} (hs : s.formed) : (s.restoreRegion x d ox oy).formed := by
  unfold State.restoreRegion
  extract_lets _ _ _ _ s₁ s₂ _ _ _ s₃ s₄ _ s₅ _ s₆
  have hs₁ : s₁.formed := foldl_formed (fun _ _ => setTile_formed) hs
  have hs₃ : s₃.formed := hs₁
  have hs₄ : s₄.formed := onTask_formed (dropReserve_formed hs₃)
  have hs₆ : s₆.formed := hs₄
  exact applyMarks_formed (reissueAll_formed hs₆)

theorem execRegionRestore_formed {c} (hs : s.formed) : NextFormed (execRegionRestore c s) := by
  unfold execRegionRestore
  split
  · split
    · exact restoreRegion_formed hs
    · exact hs
  · split
    · exact hs
    · split
      · exact nextCommands_formed (endCommand_formed hs)
      · split
        · exact hs
        · split
          · exact restoreRegion_formed hs
          · exact reserveRestore_formed hs

/-! ### Boot and reset -/

theorem State.wipe_formed (hs : s.formed) : s.wipe.formed := memFilter_wf hs _

theorem State.enterRecovery_formed {berr} (hs : s.formed) : (s.enterRecovery berr).formed := wipe_formed hs

theorem State.exclude_formed {dies reason} (hs : s.formed) : (s.exclude dies reason).formed :=
  foldl_formed (fun _ _ h => h) hs

theorem State.romStage_formed {failed} (hs : s.formed) : (s.romStage failed).formed :=
  ite_formed (enterRecovery_formed (exclude_formed hs)) (exclude_formed hs)

theorem State.goNow_formed (hs : s.formed) : s.goNow.formed := by
  refine ite_formed hs ?_
  extract_lets s₁ _
  have hs₁ : s₁.formed := ite_formed (romStage_formed hs) hs
  exact ite_formed hs₁ hs₁

theorem State.resetTo_formed {failed} (hs : s.formed) : (s.resetTo failed).formed :=
  romStage_formed (wipe_formed hs)

theorem State.resetNow_formed (hs : s.formed) : s.resetNow.formed := resetTo_formed hs

theorem State.compareCopies_formed {copies} (hs : s.formed) : (s.compareCopies copies).formed :=
  ite_formed hs (ite_formed (enterRecovery_formed hs) (foldl_formed (fun _ _ h => h) hs))

theorem execCheckComplete_formed (hs : s.formed) : NextFormed (execCheckComplete s) := by
  refine ite_formed hs ?_
  extract_lets +onlyGivenNames _
  split
  · exact enterRecovery_formed hs
  · exact compareCopies_formed hs

theorem execInitComplete_formed {failed parts} (hs : s.formed) : NextFormed (execInitComplete failed parts s) := by
  refine ite_formed hs ?_
  extract_lets _ s₂ _ s₄ s₅ _ _ _ _
  have hs₂ : s₂.formed := foldl_formed (fun _ _ => markChannel_formed) (foldl_formed (fun _ _ => markTile_formed) hs)
  have hs₄ : s₄.formed := exclude_formed (exclude_formed hs₂)
  have hs₅ : s₅.formed := ite_formed hs₄ hs₄
  exact ite_formed (enterRecovery_formed hs₅) (memFilter_wf hs₅ _)

theorem execWatchdogExpiry_formed {d} (hs : s.formed) : NextFormed (execWatchdogExpiry d s) :=
  ite_formed (enterRecovery_formed hs) hs

theorem State.attestNow_formed {op} (hs : s.formed) : (s.attestNow op).formed := ite_formed hs hs

theorem execAttestResponse_formed {ok} (hs : s.formed) : NextFormed (execAttestResponse ok s) :=
  ite_formed hs (ite_formed hs (memSet_formed hs))

/-! ### Integer operations -/

theorem State.intCodes_formed {f n g} (hs : s.formed) : (s.intCodes f n g).formed := by
  unfold State.intCodes
  exact alu_formed hs

theorem State.intOp_formed {f n t} (hs : s.formed) : (s.intOp f n t).formed := intCodes_formed hs

theorem State.intImm_formed {f t} (hs : s.formed) : (s.intImm f t).formed := by
  unfold State.intImm
  exact aluI_formed hs

/-! ### Matrix instructions -/

theorem matrixOp_formed {f i srcs dest ops} (hs : s.formed) : NextFormed (matrixOp s f i srcs dest ops) :=
  issue_formed hs fun _ h => ite_formed h h

/-! ### Stream units -/

theorem State.takeAll_formed {t cs} (hs : s.formed) : (s.takeAll t cs).formed := ite_formed hs hs

theorem execRootSourceStart_formed {t u} (hs : s.formed) : NextFormed (execRootSourceStart t u s) :=
  unitStep_formed hs fun _ _ _ h => ite_formed h h

theorem openFibre_formed {r p T u ref} {k : ℕ × ℕ × ℕ → State → State} (hs : s.formed)
    (hk : ∀ a s, s.formed → (k a s).formed) :
    (openFibre s r p T u ref k).formed := by
  unfold openFibre
  split
  · exact hk _ _ hs
  · exact ite_formed (hk _ _ hs) (reading_formed hs (fun _ _ h => reading_formed h (fun _ _ => hk _ _)))
  · exact hk _ _ hs
  · exact reading_formed hs fun _ _ => hk _ _

theorem scanStep_formed {r g p t u} (hs : s.formed) : (scanStep s r g p t u).formed := by
  unfold scanStep
  extract_lets +onlyGivenNames _ _ _ _ _ _ emit
  have hemit : ∀ crd rf pos s, s.formed → (emit crd rf pos s).formed := fun _ _ _ _ h => onTile_formed h
  refine ite_formed (onTile_formed hs) ?_
  split
  · exact hemit _ _ _ _ hs
  · refine ite_formed (reading_formed hs (fun _ _ => hemit _ _ _ _)) ?_
    extract_lets +onlyGivenNames _ _ _ _ go
    have hgo : ∀ w s, s.formed → (go w s).formed := by
      unfold go
      intro _ _ h
      extract_lets +onlyGivenNames _
      split
      · exact onTile_formed h
      · exact hemit _ _ _ _ h
    refine ite_formed (reading_formed hs (fun _ _ h => ?_)) (hgo _ _ hs)
    split
    · exact raise_formed h
    · exact hgo _ _ (onTile_formed h)
  · refine ite_formed ?_ ?_
    · split
      · exact onTile_formed hs
      · exact hemit _ _ _ _ hs
    · exact ite_formed (onTile_formed hs) (ite_formed hs (reading_formed hs (fun _ _ h =>
        reading_formed h (fun _ _ h₁ => ite_formed (raise_formed h₁) (onTile_formed h₁)))))
  · exact reading_formed hs fun _ _ h => ite_formed (onTile_formed h) (hemit _ _ _ _ h)
  · exact hs

theorem openScanTree_formed {g p T u} (hs : s.formed) : (openScanTree s g p T u).1.formed := by
  unfold openScanTree
  extract_lets +onlyGivenNames _
  split
  next e => exact fst_formed e (openAt_formed hs)
  next e =>
    have hs₁ := fst_formed e (openAt_formed hs)
    exact ite_fst_formed hs₁ hs₁

theorem scanOpen_formed {r g p t u ref take} (hs : s.formed) : (scanOpen s r g p t u ref take).formed := by
  unfold scanOpen
  extract_lets +onlyGivenNames done
  have hdone : ∀ o s, s.formed → (done o s).formed := by
    unfold done
    intro _ _ h
    exact ite_formed (take_formed h) h
  refine ite_formed ?_ (openFibre_formed hs hdone)
  split
  next e => exact raise_formed (fst_formed e (openScanTree_formed hs))
  next e => exact hdone _ _ (fst_formed e (openScanTree_formed hs))

theorem execScannerRef_formed {t u} (hs : s.formed) : NextFormed (execScannerRef t u s) := by
  refine ite_nextFormed (unitStep_formed hs (fun _ _ _ h => ?_)) hs
  refine ite_formed h (ite_formed (ite_formed h (scanStep_formed h)) (ite_formed (ite_formed (scanOpen_formed h) h) ?_))
  split
  · exact ite_formed (scanOpen_formed h) h
  · exact h

theorem execScnTSeek_formed {t u} (hs : s.formed) : NextFormed (execScnTSeek t u s) := by
  refine ite_nextFormed (unitStep_formed hs (fun _ _ _ h => ite_formed h ?_)) hs
  split
  · exact h
  · split
    next e => exact raise_formed (fst_formed e (openScanTree_formed h))
    next e =>
      have hs₁ := fst_formed e (openScanTree_formed h)
      refine ite_formed (raise_formed hs₁) ?_
      extract_lets +onlyGivenNames _
      split
      · exact touch_formed hs₁
      · exact ite_formed (touch_formed hs₁) (ite_formed (raise_formed (touch_formed hs₁)) (touch_formed hs₁))

theorem execScannerStop_formed {t u} (hs : s.formed) : NextFormed (execScannerStop t u s) := by
  refine ite_nextFormed (unitStep_formed hs (fun _ _ _ h => ?_)) hs
  extract_lets +onlyGivenNames _
  split
  · exact ite_formed h (ite_formed h h)
  · exact h

theorem scanEnd_formed {g t u} (hs : s.formed) : (scanEnd s g t u).formed := by
  unfold scanEnd
  refine ite_formed hs (ite_formed (ite_formed (endUnit_formed hs) hs) ?_)
  split
  · exact ite_formed (endUnit_formed (takeAll_formed hs)) hs
  · exact hs

theorem execScannerDone_formed {t u} (hs : s.formed) : NextFormed (execScannerDone t u s) :=
  ite_nextFormed (unitStep_formed hs (fun _ _ _ => scanEnd_formed)) hs

theorem gallop_formed {below : ℕ → State → State × Except Flt Bool} {fin' n lo step} (hs : s.formed)
    (hbelow : ∀ a s, s.formed → (below a s).1.formed) :
    (gallop s below fin' n lo step).1.formed := by
  induction n generalizing s lo step with
  | zero => exact hs
  | succ n ih =>
    refine ite_fst_formed ?_ hs
    split
    next e => exact fst_formed e (hbelow _ _ hs)
    next e => exact ih (fst_formed e (hbelow _ _ hs))
    next e => exact fst_formed e (hbelow _ _ hs)

theorem bisect_formed {below : ℕ → State → State × Except Flt Bool} {n lo hi} (hs : s.formed)
    (hbelow : ∀ a s, s.formed → (below a s).1.formed) :
    (bisect s below n lo hi).1.formed := by
  induction n generalizing s lo hi with
  | zero => exact hs
  | succ n ih =>
    refine ite_fst_formed ?_ hs
    split
    next e => exact fst_formed e (hbelow _ _ hs)
    next e =>
      have hs₁ := fst_formed e (hbelow _ _ hs)
      exact ite_fst_formed (ih hs₁) (ih hs₁)

theorem nextEntry_formed {read : ℕ → State → State × Except Flt ℕ} {floor lim n i}
    (hread : ∀ a s, s.formed → (read a s).1.formed) (hs : s.formed) :
    (nextEntry read floor lim n i s).1.formed := by
  induction n generalizing s i with
  | zero => exact hs
  | succ n ih =>
    refine ite_fst_formed hs ?_
    split
    next e => exact fst_formed e (hread _ _ hs)
    next e =>
      have hs₁ := fst_formed e (hread _ _ hs)
      exact ite_fst_formed (ih hs₁) hs₁

theorem execScannerSkip_formed {t u} (hs : s.formed) : NextFormed (execScannerSkip t u s) := by
  refine ite_nextFormed (unitStep_formed hs (fun _ _ _ h => ?_)) hs
  extract_lets +onlyGivenNames _ _ _
  split
  · exact h
  · extract_lets +onlyGivenNames _ pop moveTo
    have hpop : ∀ s, s.formed → (pop s).formed := fun _ h₁ => h₁
    have hmoveTo : ∀ pos s, s.formed → (moveTo pos s).formed := fun _ _ h₁ => hpop _ h₁
    refine ite_formed (hpop _ h) ?_
    split
    · refine ite_formed (hmoveTo _ _ h) (ite_formed (hpop _ h) ?_)
      extract_lets +onlyGivenNames below
      have hbelow : ∀ i s, s.formed → ((below i s).1).formed := by
        unfold below
        intro _ _ h₁
        split <;> exact fst_formed ‹_› (unitRead_formed h₁)
      split
      next e => exact raise_formed (fst_formed e (hbelow _ _ h))
      next e => exact hpop _ (fst_formed e (hbelow _ _ h))
      next e =>
        have hs₁ := fst_formed e (hbelow _ _ h)
        split
        next e => exact raise_formed (fst_formed e (gallop_formed hs₁ hbelow))
        next e =>
          have hs₂ := fst_formed e (gallop_formed hs₁ hbelow)
          split
          next e => exact raise_formed (fst_formed e (bisect_formed hs₂ hbelow))
          next e => exact hmoveTo _ _ (fst_formed e (bisect_formed hs₂ hbelow))
    · extract_lets +onlyGivenNames read
      have hread : ∀ i s, s.formed → ((read i s).1).formed := fun _ _ => unitRead_formed
      split
      next e => exact raise_formed (fst_formed e (nextEntry_formed hread h))
      next e =>
        have hs₁ := fst_formed e (nextEntry_formed hread h)
        exact ite_formed (hpop _ hs₁) (hmoveTo _ _ hs₁)
      next e => exact hmoveTo _ _ (fst_formed e (nextEntry_formed hread h))
    · split
      next e => exact raise_formed (fst_formed e (openScanTree_formed h))
      next e => exact hmoveTo _ _ (fst_formed e (openScanTree_formed h))
    · exact hmoveTo _ _ h

theorem popSide_formed {t n k} (hs : s.formed) : (popSide s t n k).formed :=
  onTile_formed (take_formed (take_formed hs))

theorem mergeSkip_formed {g t n c} (hs : s.formed) : (mergeSkip s g t n c).formed := ite_formed hs hs

theorem mergeStep_formed {g t union} (hs : s.formed) : (mergeStep s g t union).formed := by
  unfold mergeStep
  split
  · extract_lets +onlyGivenNames s₁ emit stop _
    have hs₁ : s₁.formed := onTile_formed hs
    have hemit : ∀ s c x y, s.formed → (emit s c x y).formed := fun _ _ _ _ h => onTile_formed h
    have hstop : ∀ s k, s.formed → (stop s k).formed := fun _ _ h => onTile_formed h
    exact ite_formed hs₁ (ite_formed (ite_formed (popSide_formed (popSide_formed (hemit _ _ _ _ hs₁)))
      (popSide_formed (ite_formed (ite_formed (hemit _ _ _ _ hs₁) (hemit _ _ _ _ hs₁)) (mergeSkip_formed hs₁))))
        (ite_formed (popSide_formed (popSide_formed (hstop _ _ (ite_formed hs₁ (count_formed hs₁)))))
          (ite_formed (popSide_formed (ite_formed (hemit _ _ _ _ hs₁) hs₁))
            (ite_formed (popSide_formed (ite_formed (hemit _ _ _ _ hs₁) hs₁))
              (ite_formed (popSide_formed (ite_formed (hstop _ _ (count_formed hs₁)) (count_formed hs₁)))
                (ite_formed (endUnit_formed (takeAll_formed hs₁)) (popSide_formed hs₁)))))))
  · exact hs

theorem execMrgI_formed {t} (hs : s.formed) : NextFormed (execMrgI t s) :=
  unitStep_formed hs fun _ _ _ h => ite_formed (mergeStep_formed h) h

theorem execMrgU_formed {t} (hs : s.formed) : NextFormed (execMrgU t s) :=
  unitStep_formed hs fun _ _ _ h => ite_formed (mergeStep_formed h) h

theorem execRptCrd_formed {t} (hs : s.formed) : NextFormed (execRptCrd t s) := by
  refine unitStep_formed hs fun _ _ _ h => ?_
  extract_lets +onlyGivenNames _
  split
  · refine ite_formed ?_ h
    extract_lets +onlyGivenNames held
    clear_value held
    split
    · exact h
    · exact take_formed (ite_formed (take_formed h) h)
  · exact h

theorem execRptStop_formed {t} (hs : s.formed) : NextFormed (execRptStop t s) := by
  refine unitStep_formed hs fun _ _ _ h => ?_
  extract_lets +onlyGivenNames _
  split
  · refine ite_formed ?_ ?_
    · extract_lets +onlyGivenNames mark
      have hmark : ∀ s, s.formed → (mark s).formed := fun _ h₁ => h₁
      refine ite_formed (hmark _ h) ?_
      split
      · exact ite_formed (hmark _ (take_formed h)) h
      · exact h
    · extract_lets +onlyGivenNames out
      have hout : ∀ s, s.formed → (out s).formed := fun _ h₁ => h₁
      refine ite_formed (hout _ h) ?_
      split
      · exact ite_formed (hout _ h) h
      · exact h
  · exact h

theorem rptEnd_formed {g t} (hs : s.formed) : (rptEnd s g t).formed := by
  unfold rptEnd
  extract_lets +onlyGivenNames _
  split
  · exact ite_formed hs (ite_formed (endUnit_formed (takeAll_formed hs))
      (ite_formed hs (ite_formed (count_formed (take_formed hs)) (ite_formed (onTile_formed hs) hs))))
  · exact hs

theorem execRdcVal_formed {t} (hs : s.formed) : NextFormed (execRdcVal t s) := by
  refine unitStep_formed hs fun _ _ _ h => ?_
  extract_lets +onlyGivenNames _
  split
  · exact ite_formed (ite_formed h h) h
  · exact h

theorem execRdcStop_formed {t} (hs : s.formed) : NextFormed (execRdcStop t s) := by
  refine unitStep_formed hs fun _ _ _ h => ?_
  split <;> exact h

theorem rdcEnd_formed {g t} (hs : s.formed) : (rdcEnd s g t).formed := by
  unfold rdcEnd
  split
  · exact ite_formed (endUnit_formed (takeAll_formed hs)) hs
  · exact hs

/-! ### Writers and generators -/

theorem lwrTake_formed {t w} (hs : s.formed) : (lwrTake s t w).formed :=
  ite_formed (take_formed (take_formed hs)) (take_formed hs)

theorem lwrPass_formed {g t w c keep} (hs : s.formed) : (lwrPass s g t w c keep).formed := lwrTake_formed hs

theorem execLwrEntry_formed {t} (hs : s.formed) : NextFormed (execLwrEntry t s) := by
  unfold execLwrEntry
  refine unitStep_formed hs fun _ _ _ h => ?_
  extract_lets +onlyGivenNames _ _ _ _
  split
  · exact h
  · refine ite_formed h ?_
    extract_lets +onlyGivenNames _
    split
    · exact ite_formed (count_formed (lwrPass_formed h)) (taskStores_formed h
        (fun _ h₁ => lwrPass_formed (onTile_formed h₁)))
    · exact ite_formed (taskStores_formed h (fun _ => lwrPass_formed))
        (taskStores_formed h (fun _ h₁ => lwrPass_formed (onTile_formed h₁)))
    · exact ite_formed (count_formed (lwrPass_formed h)) (lwrPass_formed (onTile_formed h))

theorem lwrClose_formed {r g t w k} (hs : s.formed) : (lwrClose s r g t w k).formed :=
  taskStores_formed hs fun _ h => lwrTake_formed h

theorem execLwrStop_formed {t} (hs : s.formed) : NextFormed (execLwrStop t s) := by
  refine unitStep_formed hs fun _ _ _ h => ?_
  extract_lets +onlyGivenNames _ _ _
  split
  · refine ite_formed (lwrClose_formed h) (ite_formed ?_ (ite_formed (lwrClose_formed h) ?_))
    · extract_lets +onlyGivenNames mark
      have hmark : ∀ s, s.formed → (mark s).formed := fun _ h₁ => h₁
      refine ite_formed (hmark _ h) ?_
      split
      · exact ite_formed (hmark _ (take_formed h)) h
      · exact h
    · split
      · exact ite_formed (lwrClose_formed h) h
      · exact h
  · exact h

theorem lwrEnd_formed {r g t} (hs : s.formed) : (lwrEnd s r g t).formed := by
  unfold lwrEnd
  extract_lets +onlyGivenNames _ _
  split
  · exact ite_formed hs (ite_formed hs (taskStores_formed hs (fun _ h => endUnit_formed (takeAll_formed h))))
  · exact hs

theorem execLwrTStore_formed {t} (hs : s.formed) : NextFormed (execLwrTStore t s) := by
  refine unitStep_formed hs fun _ _ _ h => ?_
  extract_lets +onlyGivenNames _ _
  split
  · exact h
  · refine ite_formed h ?_
    extract_lets +onlyGivenNames pre
    have hpre : ∀ q ∈ pre, q.2.formed := by
      unfold pre
      split
      · exact forall_mem_some h
      · split
        · split
          · exact forall_mem_some (take_formed h)
          · exact forall_mem_none
        · exact forall_mem_none
    clear_value pre
    split
    · exact h
    · have hs₁ := hpre _ rfl
      extract_lets +onlyGivenNames _
      split
      next e => exact raise_formed (fst_formed e (openAt_formed hs₁))
      next e =>
        have hs₂ := fst_formed e (openAt_formed hs₁)
        exact ite_formed (raise_formed hs₂) (ite_formed (raise_formed hs₂)
          (holdKeys_formed hs₂ (fun _ => lwrPass_formed)))

theorem agControl_formed {g t p k x st up} (hs : s.formed) : (agControl s g t p k x st up).formed := by
  unfold agControl
  refine ite_formed ?_ (ite_formed (endUnit_formed (takeAll_formed hs)) hs)
  extract_lets +onlyGivenNames s₁
  have hs₁ : s₁.formed := onTile_formed hs
  exact ite_formed (count_formed hs₁) hs₁

theorem agOpen_formed {g t p ref stop take} (hs : s.formed) : (agOpen s g t p ref stop take).formed :=
  ite_formed (take_formed hs) hs

theorem agClose_formed {g t p free st} (hs : s.formed) : (agClose s g t p free st).formed := ite_formed hs hs

theorem execAgAff_formed {t p} (hs : s.formed) : NextFormed (execAgAff t p s) := by
  unfold execAgAff
  refine unitStep_formed hs fun _ _ _ h => ite_formed h (ite_formed ?_ ?_)
  · split
    · exact h
    · refine ite_formed ?_ ?_
      · extract_lets +onlyGivenNames _ res
        have hres : res.1.formed := by
          refine foldl_fst_formed (fun _ _ h₁ => ?_) h
          split
          · exact h₁
          · refine ite_fst_formed h₁ ?_
            split <;> exact fst_formed ‹_› (unitRead_formed h₁)
        clear_value res
        split
        next e => exact raise_formed hres
        next e => exact ite_formed hres hres
      · split
        · exact ite_formed h (agControl_formed h)
        · exact h
  · split
    · exact ite_formed h (reading_formed h (fun _ _ h₁ => ite_formed (agClose_formed h₁) h₁))
    · refine ite_formed (ite_formed (agOpen_formed h) h) ?_
      split
      · exact ite_formed (agOpen_formed h) (agControl_formed h)
      · exact h

theorem execAgWr_formed {t p} (hs : s.formed) : NextFormed (execAgWr t p s) := by
  unfold execAgWr
  refine unitStep_formed hs fun _ _ _ h => ?_
  extract_lets +onlyGivenNames _ _ _ _ _ _ store
  have hstore : ∀ va v k, (∀ s, s.formed → (k s).formed) → (store va v k).formed :=
    fun _ _ _ hk => taskStores_formed h hk
  refine ite_formed h (ite_formed ?_ ?_)
  · split
    · exact h
    · extract_lets +onlyGivenNames next
      have hnext : ∀ s, s.formed → (next s).formed := fun _ h₁ => onTile_formed (take_formed h₁)
      exact ite_formed (ite_formed (hstore _ _ _ hnext) (count_formed (hnext _ h)))
        (ite_formed (endUnit_formed (takeAll_formed h)) (ite_formed (onTile_formed h) h))
  · split
    · extract_lets +onlyGivenNames both
      have hboth : ∀ s, s.formed → (both s).formed := fun _ h₁ => take_formed (take_formed h₁)
      exact ite_formed (ite_formed (hboth _ h) (hstore _ _ _ hboth))
        (ite_formed (endUnit_formed (takeAll_formed h)) (ite_formed (hboth _ h) h))
    · exact h

theorem execIseParamRead_formed {t p} (hs : s.formed) : NextFormed (execIseParamRead t p s) := by
  unfold execIseParamRead
  refine unitStep_formed hs fun _ _ _ h => ite_formed h ?_
  split
  next e => exact raise_formed (fst_formed e (page_formed h))
  next e =>
    have hs₁ := fst_formed e (page_formed h)
    refine ite_formed (raise_formed hs₁) ?_
    split
    next e => exact raise_formed (fst_formed e (taskRun_formed hs₁))
    next e =>
      have hs₂ := fst_formed e (taskRun_formed hs₁)
      exact ite_formed hs₂ (raise_formed hs₂)

theorem execAgInd_formed {t p} (hs : s.formed) : NextFormed (execAgInd t p s) := by
  unfold execAgInd
  refine unitStep_formed hs fun _ _ _ h => ite_formed h (ite_formed (ite_formed (agOpen_formed h) h) ?_)
  split
  · exact ite_formed (agOpen_formed h) (agControl_formed h)
  · exact h

theorem State.iseFetch_formed {r c t p} (hs : s.formed) : (s.iseFetch r c t p).formed := by
  unfold State.iseFetch
  extract_lets +onlyGivenNames _ _ _ _ _ keep
  have hkeep : ∀ v s, s.formed → (keep v s).formed := by
    intro _ _ h₁
    exact h₁
  refine reading_formed hs fun _ _ h₁ => ite_formed (hkeep _ _ h₁) ?_
  split
  next e => exact hkeep _ _ (fst_formed e (unitRead_formed h₁))
  next e =>
    have hs₁ := fst_formed e (unitRead_formed h₁)
    exact ite_formed (reading_formed hs₁ hkeep) (raise_formed hs₁)

theorem State.iseGive_formed {g t p} (hs : s.formed) : (s.iseGive g t p).formed := by
  unfold State.iseGive
  split
  · exact hs
  · exact ite_formed (agClose_formed hs) hs

theorem execIseValueReturn_formed {t p} (hs : s.formed) : NextFormed (execIseValueReturn t p s) := by
  unfold execIseValueReturn
  split
  · exact hs
  · refine ite_formed hs (ite_formed hs ?_)
    extract_lets +onlyGivenNames s₁
    have hs₁ : s₁.formed := ite_formed (iseGive_formed hs) hs
    exact ite_formed (iseFetch_formed hs₁) hs₁

theorem xfStep_formed {t fn} {step : Region → Option Beat → State → State} (hs : s.formed)
    (hstep : ∀ a b s, s.formed → (step a b s).formed) :
    NextFormed (xfStep s t fn step) := unitStep_formed hs fun _ _ _ h => ite_formed (hstep _ _ _ h) h

theorem xfControl_formed {g t b} (hs : s.formed) : (xfControl s g t b).formed :=
  ite_formed (onTile_formed hs) (ite_formed (endUnit_formed (takeAll_formed hs)) hs)

theorem execXfTpose_formed {t} (hs : s.formed) : NextFormed (execXfTpose t s) := by
  refine xfStep_formed hs fun _ _ _ h => ite_formed h ?_
  split
  · exact h
  · exact ite_formed h (xfControl_formed h)

theorem execXfQuant_formed {t} (hs : s.formed) : NextFormed (execXfQuant t s) := by
  refine xfStep_formed hs fun _ _ _ h => ?_
  split
  · refine ite_formed h ?_
    split
    · exact h
    · exact ite_formed (ite_formed h h) (xfControl_formed h)

theorem execXfScale_formed {t} (hs : s.formed) : NextFormed (execXfScale t s) := by
  refine xfStep_formed hs fun _ _ _ h => ?_
  split
  · split
    · exact h
    · exact ite_formed h (xfControl_formed h)

theorem execXfBmap_formed {t} (hs : s.formed) : NextFormed (execXfBmap t s) := by
  refine xfStep_formed hs fun _ _ _ h => ?_
  split
  · split
    · exact h
    · refine ite_formed ?_ (ite_formed h (xfControl_formed h))
      extract_lets +onlyGivenNames _ _ _ s₂
      have hs₂ : s₂.formed := foldl_formed (fun _ _ h => h) h
      exact ite_formed hs₂ hs₂

/-! ### Element events -/

theorem execLongLatencyResult_formed {t k} (hs : s.formed) : NextFormed (execLongLatencyResult t k s) := by
  unfold execLongLatencyResult
  split
  · split <;> exact hs
  · exact hs

theorem execBeadhArrival_formed {t port} (hs : s.formed) : NextFormed (execBeadhArrival t port s) := by
  unfold execBeadhArrival
  split
  · exact hs
  · refine ite_formed hs ?_
    split
    · exact ite_formed hs hs
    · exact ite_formed hs hs
    · exact ite_formed hs hs
    · exact hs

theorem execSelJoinFire_formed {t} (hs : s.formed) : NextFormed (execSelJoinFire t s) := by
  unfold execSelJoinFire
  split
  · exact hs
  · refine ite_formed hs ?_
    split
    · exact hs
    · split <;> exact ite_formed hs hs

theorem execTokenBeadForm_formed {t} (hs : s.formed) : NextFormed (execTokenBeadForm t s) := by
  unfold execTokenBeadForm
  split
  · exact hs
  · exact ite_formed hs hs

theorem execBeadStart_formed {t} (hs : s.formed) : NextFormed (execBeadStart t s) := by
  unfold execBeadStart
  split
  · exact hs
  · split
    · exact ite_formed hs hs
    · exact hs

theorem execCeControlToken_formed {t} (hs : s.formed) : NextFormed (execCeControlToken t s) := by
  unfold execCeControlToken
  split
  · exact hs
  · refine ite_formed hs ?_
    split
    · split
      · split
        · exact ite_formed hs hs
        · exact hs
      · exact hs
    · refine ite_formed ?_ ?_
      · split <;> exact hs
      · split
        · split
          · exact ite_formed hs hs
          · exact hs
        · exact hs
    · split
      · exact hs
      · exact ite_formed hs hs

theorem execBarForward_formed {t u} (hs : s.formed) : NextFormed (execBarForward t u s) := by
  unfold execBarForward
  refine unitStep_formed hs fun _ _ _ h => ?_
  refine ite_formed h ?_
  split
  · exact ite_formed (onTile_formed (takeAll_formed h)) h
  · exact scanEnd_formed h
  · exact scanEnd_formed h
  · exact ite_formed (mergeStep_formed h) (mergeStep_formed h)
  · exact rptEnd_formed h
  · exact rdcEnd_formed h
  · exact lwrEnd_formed h
  · exact h

theorem execElementSwitch_formed {t u} (hs : s.formed) : NextFormed (execElementSwitch t u s) := by
  unfold execElementSwitch
  split
  · exact hs
  · exact ite_formed hs hs

theorem sendTo_formed {t c bs} (hs : s.formed) : (sendTo s t c bs).formed := by
  refine ite_formed hs ?_
  split <;> exact hs

theorem passBeat_formed {t w kind} (hs : s.formed) : (passBeat s t w kind).formed := by
  unfold passBeat
  split
  · exact hs
  · extract_lets +onlyGivenNames _
    split
    · exact hs
    · extract_lets +onlyGivenNames _
      split
      · exact hs
      · exact foldl_formed (fun _ _ => sendTo_formed) hs

theorem execSwJoin_formed {t w} (hs : s.formed) : NextFormed (execSwJoin t w s) := by
  unfold execSwJoin
  split
  · exact hs
  · split
    · exact hs
    · refine ite_formed (ite_formed ?_ hs) ?_
      · extract_lets +onlyGivenNames _ _ s₁ s₂
        have hs₁ : s₁.formed := sendTo_formed (leaveSource_formed (leaveSource_formed hs))
        have hs₂ : s₂.formed := ite_formed (count_formed hs₁) hs₁
        exact ite_formed (onTile_formed hs₂) hs₂
      · extract_lets +onlyGivenNames _ _ _ _ _ _
        split
        · exact hs
        · exact ite_formed (onTile_formed (sendTo_formed (leaveSource_formed hs))) hs

theorem execLinkBeatReceive_formed {t link flips} (hs : s.formed) :
    NextFormed (execLinkBeatReceive t link flips s) := by
  unfold execLinkBeatReceive
  split
  · exact hs
  · split
    · exact hs
    · extract_lets +onlyGivenNames _ err
      clear_value err
      split
      · exact raise_formed hs
      · exact ite_formed hs hs

theorem execOutputBeat8Clk_formed {t u} (hs : s.formed) : NextFormed (execOutputBeat8Clk t u s) := by
  unfold execOutputBeat8Clk
  split
  · exact hs
  · exact ite_formed hs hs

/-! ### Moves -/

theorem execMovhi_formed {f} (hs : s.formed) : NextFormed (execMovhi f s) := issue_formed hs fun _ h => h

/-! ### Floating point -/

theorem State.fpCodes_formed {f n g} (hs : s.formed) : (s.fpCodes f n g).formed := by
  unfold State.fpCodes
  exact alu_formed hs

theorem State.fp1_formed {f v} (hs : s.formed) : (s.fp1 f v).formed := fpCodes_formed hs

theorem State.fp2_formed {f v} (hs : s.formed) : (s.fp2 f v).formed := fpCodes_formed hs

theorem State.fp3_formed {f v} (hs : s.formed) : (s.fp3 f v).formed := fpCodes_formed hs

/-! ### Errors and power -/

theorem State.fenceBank_formed {d k} (hs : s.formed) : (s.fenceBank d k).formed :=
  ite_formed (fenceVault_formed hs) (fenceChannel_formed hs)

theorem State.bankHints_formed {d k} (hs : s.formed) : (s.bankHints d k).formed := rangeHints_formed hs

theorem State.correctedBank_formed {d k} (hs : s.formed) : (s.correctedBank d k).formed :=
  ite_formed (fenceBank_formed (bankHints_formed hs)) hs

theorem State.uncorrectableBank_formed {d k} (hs : s.formed) : (s.uncorrectableBank d k).formed :=
  ite_formed hs (fenceBank_formed hs)

theorem State.correctedTile_formed {t} (hs : s.formed) : (s.correctedTile t).formed :=
  ite_formed (fenceTile_formed hs) hs

theorem State.corrected_formed {e} (hs : s.formed) : (s.corrected e).formed := by
  unfold State.corrected
  split
  · split
    · exact correctedBank_formed (ite_formed hs hs)
    · exact hs
  · exact correctedBank_formed hs
  · exact correctedTile_formed hs
  · exact correctedTile_formed hs
  · exact correctedTile_formed hs
  · exact correctedTile_formed hs
  · exact hs

theorem State.stateError_formed {p f} {zero : Tile → Tile} (hs : s.formed) : (s.stateError p f zero).formed := by
  unfold State.stateError
  split
  · exact ite_formed hs (raise_formed hs)
  · exact hs

theorem State.uncorrectable_formed {e} (hs : s.formed) : (s.uncorrectable e).formed := by
  unfold State.uncorrectable
  split
  · split
    · exact uncorrectableBank_formed hs
    · exact hs
  · extract_lets +onlyGivenNames s₁
    have hs₁ : s₁.formed := by
      unfold s₁
      split <;> exact hs
    exact uncorrectableBank_formed hs₁
  · exact hs
  · exact hs
  · exact stateError_formed hs
  · exact stateError_formed hs
  · split
    · exact hs
    · exact ite_formed (configError_formed hs) (ite_formed hs (discardShadow_formed hs))
  · exact hs
  · exact hs

theorem execEccError_formed {e double} (hs : s.formed) : NextFormed (execEccError e double s) := by
  refine ite_formed (uncorrectable_formed hs) ?_
  split
  · exact uncorrectable_formed hs
  · exact corrected_formed hs

theorem execPatrolScrub_formed {a} (hs : s.formed) : NextFormed (execPatrolScrub a s) := by
  unfold execPatrolScrub
  split
  · exact hs
  · exact ite_formed hs hs

theorem State.expireSamples_formed (hs : s.formed) : s.expireSamples.formed := ite_formed hs hs

theorem State.sample_formed {d watts celsius} (hs : s.formed) : (s.sample d watts celsius).formed :=
  ite_formed hs (ite_formed hs (enterRecovery_formed hs))

theorem execPowerSample_formed {d watts celsius} (hs : s.formed) :
    NextFormed (execPowerSample d watts celsius s) := ite_formed hs (sample_formed hs)

theorem execThrottleUpdate_formed (hs : s.formed) : NextFormed (execThrottleUpdate s) :=
  ite_formed hs (ite_formed hs (ite_formed hs hs))

/-! ### The lattice ports -/

theorem State.latchLost_formed (hs : s.formed) : s.latchLost.formed := ite_formed hs hs

theorem State.retryFlit_formed {p} (hs : s.formed) : (s.retryFlit p).formed :=
  ite_formed (fencePort_formed hs) hs

theorem State.writePodcfg_formed {v} (hs : s.formed) : (s.writePodcfg v).formed :=
  ite_formed (logError_formed hs) (ite_formed hs hs)

theorem State.writeMonctl_formed {v} (hs : s.formed) : (s.writeMonctl v).formed := by
  refine ite_formed hs ?_
  extract_lets +onlyGivenNames _ _ s₂
  have hs₂ : s₂.formed := ite_formed hs hs
  exact ite_formed hs₂ hs₂

theorem execFlitReceive_formed {p f} (hs : s.formed) : NextFormed (execFlitReceive p f s) :=
  ite_formed hs (ite_formed (retryFlit_formed hs) (ite_formed hs (ite_formed hs (getD_formed (sendFlit_formed hs) hs))))

theorem execFlitCrcRetry_formed {p} (hs : s.formed) : NextFormed (execFlitCrcRetry p s) :=
  ite_formed (retryFlit_formed hs) hs

theorem execPortRetrain_formed {p ok} (hs : s.formed) : NextFormed (execPortRetrain p ok s) :=
  ite_formed hs (ite_formed (fencePort_formed hs) hs)

theorem execKeepaliveLoss_formed {p} (hs : s.formed) : NextFormed (execKeepaliveLoss p s) :=
  ite_formed hs (ite_formed hs (foldl_formed (fun _ _ => fencePort_formed) hs))

theorem execPortTrainingComplete_formed {p} (hs : s.formed) : NextFormed (execPortTrainingComplete p s) :=
  ite_formed hs hs

/-! ### Host transactions -/

theorem State.writePerDie_formed {v lo hi f} (hs : s.formed) : (s.writePerDie v lo hi f).formed :=
  foldl_formed (fun _ _ h => ite_formed h h) hs

theorem State.writeCtxBlock_formed {c o v} (hs : s.formed) : (s.writeCtxBlock c o v).formed :=
  ite_formed (logError_formed hs) hs

theorem State.writePlain_formed {off v} (hs : s.formed) : (s.writePlain off v).formed := by
  refine ite_formed hs (ite_formed hs (ite_formed (writeCtxBlock_formed hs) ?_))
  split
  · exact writePerDie_formed hs
  · exact writePerDie_formed hs
  · exact hs
  · exact hs
  · exact hs

theorem State.writeState_formed {c v} (hs : s.formed) : (s.writeState c v).formed := by
  unfold State.writeState
  split
  · exact activate_formed hs
  · exact startRemoval_formed hs
  · exact logError_formed hs
  · exact hs

theorem State.writeDcb_formed {off v} (hs : s.formed) : (s.writeDcb off v).formed :=
  ite_formed (ite_formed (resetNow_formed hs) (ite_formed (goNow_formed hs) hs))
    (ite_formed (ite_formed (attestNow_formed hs) (ite_formed (attestNow_formed hs) hs))
    (ite_formed (writePlain_formed hs) (ite_formed (ite_formed hs hs)
      (ite_formed (writeState_formed hs) (ite_formed (writeHead_formed hs)
        (ite_formed (writePodcfg_formed hs) (ite_formed (writeMonctl_formed hs) (writePlain_formed hs))))))))

theorem State.writeDcbs_formed {off ws} (hs : s.formed) : (s.writeDcbs off ws).formed := by
  induction ws generalizing s off with
  | nil => exact hs
  | cons v vs ih => exact ih (writeDcb_formed hs)

theorem State.writeRecordWords_formed {c pa ws} (hs : s.formed) : (s.writeRecordWords c pa ws).1.formed :=
  ite_fst_formed (ite_fst_formed (memSet_formed hs) (armRecord_formed (memSet_formed hs))) (memSet_formed hs)

theorem State.wakeWords_formed {pa n} (hs : s.formed) : (s.wakeWords pa n).formed :=
  foldl_formed (fun _ _ => wakeArmed_formed) hs

theorem State.physicalWrite_formed {addr ws} (hs : s.formed) : (s.physicalWrite addr ws).1.formed := by
  unfold State.physicalWrite
  split
  · exact hs
  · split
    · exact writeRecordWords_formed hs
    · refine ite_fst_formed hs ?_
      split
      next e => exact wakeWords_formed (physWrite_formed hs _ e)
      · exact hs

theorem State.physicalRead_formed {addr n} (hs : s.formed) : (s.physicalRead addr n).1.formed := by
  unfold State.physicalRead
  split
  · exact hs
  · refine ite_fst_formed hs ?_
    split <;> exact hs

theorem State.virtualRead_formed {q n} (hs : s.formed) : (s.virtualRead q n).1.formed := by
  refine ite_fst_formed hs (ite_fst_formed (ite_fst_formed (mendSync_formed hs) hs)
    (ite_fst_formed (ite_fst_formed hs hs) ?_))
  split <;> exact hs

theorem State.virtualWrite_formed {c va q ws} (hs : s.formed) : (s.virtualWrite c va q ws).1.formed := by
  refine ite_fst_formed hs (ite_fst_formed hs ?_)
  refine ite_fst_formed (ite_fst_formed (mendSync_formed hs) (syncWrite_formed hs))
    (ite_fst_formed (ite_fst_formed hs ?_) ?_)
  · split
    next e =>
      have hs₁ := physWrite_formed hs _ e
      exact wakeDeferred_formed hs₁
    · exact hs
  · split
    next e => exact physWrite_formed hs _ e
    · exact hs

theorem State.remotePageRead_formed {c q n} (hs : s.formed) : (s.remotePageRead c q n).1.formed :=
  ite_fst_formed hs (ite_fst_formed hs hs)

theorem State.remoteWrite_formed {c va q n} (hs : s.formed) : (s.remoteWrite c va q n).1.formed :=
  ite_fst_formed hs (ite_fst_formed hs (ite_fst_formed hs hs))

theorem State.virtualAccess_formed {c va n data} (hs : s.formed) : (s.virtualAccess c va n data).1.formed := by
  refine ite_fst_formed hs ?_
  split
  · exact hs
  · refine ite_fst_formed (ite_fst_formed (noteCmp_formed hs) ?_) ?_
    · split
      · exact remoteWrite_formed (noteCmp_formed hs)
      · exact remotePageRead_formed (noteCmp_formed hs)
    · split
      · exact virtualRead_formed (noteCmp_formed hs)
      · exact virtualWrite_formed (noteCmp_formed hs)

theorem State.access_formed {h wrc data} (hs : s.formed) : ∀ q ∈ s.access h wrc data, q.1.formed := by
  unfold State.access
  extract_lets +onlyGivenNames _ _
  split
  · exact forall_mem_some (virtualAccess_formed hs)
  · split
    · exact forall_mem_none
    · split
      · extract_lets +onlyGivenNames _
        split
        · exact forall_mem_some hs
        · split
          · split
            · exact forall_mem_some (acceptCommand_formed hs)
            · exact forall_mem_some hs
          · exact forall_mem_some (writeDcbs_formed hs)
      · split
        · exact forall_mem_some (physicalRead_formed hs)
        · exact forall_mem_some (physicalWrite_formed hs)

theorem State.leaveFor_formed {c pa} (hs : s.formed) : (s.leaveFor c pa).formed := ite_formed hs hs

theorem State.hostAppend_formed {c desc entry} (hs : s.formed) : (s.hostAppend c desc entry).1.formed := by
  unfold State.hostAppend
  refine ite_fst_formed hs ?_
  split
  · exact hs
  · exact hs
  · extract_lets _ s₁ link _ s₃
    have hs₁ : s₁.formed := noteCmp_formed hs
    clear_value s₁
    refine ite_fst_formed hs (ite_fst_formed (ite_fst_formed hs₁ ?_) ?_)
    · split
      · exact hs₁
      · exact enterEntry_formed (leaveFor_formed hs₁)
    · split
      · exact foldl_formed (fun _ _ => mendSync_formed) hs₁
      · split
        · exact hs₁
        · have hs₃ : s₃.formed := by
            unfold s₃
            clear_value link
            split
            · exact leaveFor_formed (leaveFor_formed hs₁)
            · exact leaveFor_formed hs₁
          exact wakeChain_formed (appendEntry_formed hs₃)

theorem State.inClass_formed {kind h data} {k : State → Host.Outcome State Fault Refusal} (hs : s.formed)
    (hk : ∀ s, s.formed → NextFormed (k s)) :
    NextFormed (s.inClass kind h data k) :=
  ite_nextFormed (ite_formed (logError_formed hs) hs) (ite_nextFormed hs (hk _ hs))

theorem execRd_formed {h} (hs : s.formed) : NextFormed (execRd h s) := by
  refine inClass_formed hs fun _ h₁ => ite_nextFormed h₁ ?_
  split
  next e => exact access_formed h₁ _ e
  · exact trivial

theorem execWr_formed {h data} (hs : s.formed) : NextFormed (execWr h data s) := by
  refine inClass_formed hs fun _ h₁ => ite_nextFormed (logError_formed h₁) ?_
  split
  next e =>
    have hs₁ := access_formed h₁ _ e
    exact ite_formed hs₁ (logError_formed hs₁)
  · exact trivial

theorem execWrc_formed {h data} (hs : s.formed) : NextFormed (execWrc h data s) := by
  refine inClass_formed hs fun _ h₁ => ite_nextFormed h₁ ?_
  split
  next e => exact access_formed h₁ _ e
  · exact trivial

theorem execAppend_formed {h data} (hs : s.formed) : NextFormed (execAppend h data s) :=
  inClass_formed hs fun _ h₁ => ite_formed h₁ (hostAppend_formed h₁)

theorem execHostTfence_formed {h data} (hs : s.formed) : NextFormed (execHostTfence h data s) :=
  inClass_formed hs fun _ h₁ => ite_formed h₁ (ite_formed h₁ h₁)

theorem execFlush_formed {h} (hs : s.formed) : NextFormed (execFlush h s) := inClass_formed hs fun _ h => h

theorem performTx_formed {x} (hs : s.formed) : NextFormed (performTx x s) := by
  unfold performTx
  split
  · exact execRd_formed hs
  · exact execWr_formed hs
  · exact execWrc_formed hs
  · exact execAppend_formed hs
  · exact execFlush_formed hs
  · exact execHostTfence_formed hs

theorem execCpl_formed {h data} (hs : s.formed) : NextFormed (execCpl h data s) := by
  unfold execCpl
  split
  · exact hs
  · exact ite_formed (ite_formed hs (ite_formed hs (enterRecovery_formed hs))) (ite_formed hs (ite_formed hs hs))

theorem execUcieCrcReplay_formed {m} (hs : s.formed) : NextFormed (execUcieCrcReplay m s) := ite_formed hs hs

theorem execUcieModuleFail_formed {m} (hs : s.formed) : NextFormed (execUcieModuleFail m s) :=
  ite_formed hs hs

theorem execRegisterWrite_formed {off v} (hs : s.formed) : NextFormed (execRegisterWrite off v s) :=
  ite_formed (writePlain_formed hs) hs

/-! ### Bit operations -/

theorem State.bitOp_formed {f n nat g} (hs : s.formed) : (s.bitOp f n nat g).formed := by
  unfold State.bitOp
  exact alu_formed hs

theorem State.bitImm_formed {f g} (hs : s.formed) : (s.bitImm f g).formed := by
  unfold State.bitImm
  exact aluI_formed hs

/-! ### Late answers -/

theorem State.mitTry_formed {k refetch} {bad : State → MitReq → State} (hs : s.formed)
    (hbad : ∀ s b, s.formed → (bad s b).formed) :
    (s.mitTry k refetch bad).formed := by
  unfold State.mitTry
  split
  · exact hs
  · split
    · exact hs
    · refine ite_formed hs ?_
      extract_lets +onlyGivenNames s₁
      have hs₁ : s₁.formed := ite_formed hs (ite_formed (touch_formed hs) hs)
      split
      · exact hs₁
      · exact hbad _ _ hs₁

theorem execCounterHalving_formed {d} (hs : s.formed) : NextFormed (execCounterHalving d s) :=
  ite_formed hs hs

theorem execTfenceAck_formed {k} (hs : s.formed) : NextFormed (execTfenceAck k s) := by
  unfold execTfenceAck
  split
  · exact hs
  · split
    · exact ite_formed hs hs
    · exact hs

/-! ### Predicates -/

theorem State.predOp_formed {f g} (hs : s.formed) : (s.predOp f g).formed := alu_formed hs

theorem execPand_formed {f} (hs : s.formed) : NextFormed (execPand f s) :=
  ite_nextFormed (issue_formed hs (fun _ h => ite_formed h h)) (predOp_formed hs)

/-! ### Operand phases of the matrix unit -/

theorem execQuant_formed {f} (hs : s.formed) : NextFormed (execQuant f s) :=
  issue_formed hs fun _ h => ite_formed h h

/-! ### Operand phases -/

section
variable {α β : Type}

theorem Reading.and_formed {x : Reading α} {k : α → State → Reading β} (hx : x.1.formed)
    (hk : ∀ a s, s.formed → (k a s).1.formed) :
    (x.and k).1.formed := by
  unfold Reading.and
  split
  · exact hk _ _ hx
  · exact hx

theorem demand_formed {b f} {k : Reading α} (hs : s.formed) (hk : k.1.formed) : (demand s b f k).1.formed :=
  ite_fst_formed hk hs

end

theorem readCell_formed {p d a n} (hs : s.formed) : (readCell s p d a n).1.formed := by
  unfold readCell
  extract_lets lift scr
  have hlift : ∀ x label, x.1.formed → (lift x label).1.formed := by
    intro x label hx
    unfold lift
    split <;> exact hx
  have hscr : ∀ t off, (scr t off).1.formed := fun _ _ => ite_fst_formed hs hs
  split
  · exact hs
  · refine ite_fst_formed (hlift _ _ (taskRun_formed hs)) (ite_fst_formed (ite_fst_formed hs (hscr _ _))
      (ite_fst_formed (hscr _ _) ?_))
    split
    · exact ite_fst_formed (hlift _ _ (taskRun_formed hs)) hs
    · exact hs

theorem readRuns_formed {p d runs} (hs : s.formed) : (readRuns s p d runs).1.formed := by
  induction runs generalizing s with
  | nil => exact hs
  | cons q rest ih =>
    exact Reading.and_formed (readCell_formed hs) fun _ _ h => Reading.and_formed (ih h) fun _ _ h => h

theorem readFrom_formed {p d runs} (hs : s.formed) : (readFrom s p d runs).1.formed := readRuns_formed hs

theorem resolveFmt_formed {p d c rows k accept} (hs : s.formed) : (resolveFmt s p d c rows k accept).1.formed :=
  ite_fst_formed (demand_formed hs hs) (Reading.and_formed (readFrom_formed hs) fun _ _ h =>
    demand_formed h (demand_formed h h))

theorem readTile_formed {p d c R rows k per} (hs : s.formed) : (readTile s p d c R rows k per).1.formed :=
  demand_formed hs (Reading.and_formed (readFrom_formed hs) fun _ _ h =>
    Reading.and_formed (readFrom_formed h) fun _ _ h => h)

theorem checkSeeds_formed {base n ws} (hs : s.formed) : (checkSeeds s base n ws).1.formed := by
  unfold checkSeeds
  split <;> exact hs

theorem readOperand_formed {p o kind ws c rows k per accept} (hs : s.formed) :
    (readOperand s p o kind ws c rows k per accept).1.formed :=
  ite_fst_formed (ite_fst_formed (Reading.and_formed (checkSeeds_formed hs) fun _ _ h => h) hs)
    (demand_formed hs (Reading.and_formed (resolveFmt_formed hs) fun _ _ h => ite_fst_formed
      (demand_formed h (Reading.and_formed (readFrom_formed h) fun _ _ h =>
        Reading.and_formed (checkSeeds_formed h) fun _ _ h => h))
      (Reading.and_formed (readTile_formed h) fun _ _ h => h)))

theorem readSlots_formed {p o ws m k} (hs : s.formed) : (readSlots s p o ws m k).1.formed := by
  refine demand_formed hs (Reading.and_formed (readFrom_formed hs) fun _ _ h => ?_)
  extract_lets _
  split <;> exact h

theorem stageMultiply_formed {p o f form} (hs : s.formed) : (stageMultiply s p o f form).1.formed :=
  Reading.and_formed (ite_fst_formed (readSlots_formed hs) hs) fun _ _ h =>
    Reading.and_formed (readOperand_formed h) fun _ _ h => Reading.and_formed (readOperand_formed h) fun _ _ h => h

theorem placeBytes_formed {p d ps} (hs : s.formed) : (placeBytes s p d ps).1.formed := by
  induction ps generalizing s with
  | nil => exact hs
  | cons q rest ih =>
    unfold placeBytes
    extract_lets stores
    have hstores : ∀ va w label, (stores va w label).1.formed := by
      intro va w label
      unfold stores
      split
      next e => exact fst_formed e (storesOf_formed hs)
      next e => exact Reading.and_formed (ih (fst_formed e (storesOf_formed hs))) fun _ _ h => h
    refine ite_fst_formed (hstores _ _ _) (ite_fst_formed hs (ite_fst_formed
      (Reading.and_formed (ih hs) fun _ _ h => h) ?_))
    split
    · exact ite_fst_formed (hstores _ _ _) hs
    · exact hs

theorem stageTile_formed {p o d c k rows sides clk} (hs : s.formed) :
    (stageTile s p o d c k rows sides clk).1.formed :=
  demand_formed hs (Reading.and_formed (placeBytes_formed hs) fun _ _ h => h)

theorem stageSeedx_formed {p o f} (hs : s.formed) : (stageSeedx s p o f).1.formed :=
  Reading.and_formed (readOperand_formed hs) fun _ _ h => demand_formed h (stageTile_formed h)

theorem stageFit_formed {p o f many} (hs : s.formed) : (stageFit s p o f many).1.formed :=
  Reading.and_formed (readOperand_formed hs) fun _ _ h => demand_formed h h

theorem stageHash_formed {p o f} (hs : s.formed) : (stageHash s p o f).1.formed :=
  Reading.and_formed (readOperand_formed hs) fun _ _ h => h

theorem stageTransform_formed {p o f form} (hs : s.formed) : (stageTransform s p o f form).1.formed := by
  refine Reading.and_formed (readOperand_formed hs) fun ⟨_, _⟩ _ h => ?_
  dsimp only
  split
  · exact stageTile_formed h
  · exact ite_fst_formed (stageTile_formed h) (stageTile_formed h)
  · exact stageTile_formed h

theorem stage_formed {p o} (hs : s.formed) : (stage s p o).1.formed := by
  unfold stage
  split
  iterate 3 exact stageMultiply_formed hs
  · exact stageSeedx_formed hs
  iterate 2 exact stageFit_formed hs
  · exact stageHash_formed hs
  iterate 3 exact stageTransform_formed hs
  all_goals exact hs

theorem execMatrixOperandPhase_formed {t} (hs : s.formed) : NextFormed (execMatrixOperandPhase t s) := by
  unfold execMatrixOperandPhase
  split
  · refine ite_formed hs (ite_formed hs (ite_formed hs ?_))
    split
    next e => exact raise_formed (fst_formed e (stage_formed hs))
    next e => exact exhaust_formed (fst_formed e (stage_formed hs))
    next e => exact count_formed (onTile_formed (fst_formed e (stage_formed hs)))
  · exact hs

theorem execMatrixComputeComplete_formed {t} (hs : s.formed) : NextFormed (execMatrixComputeComplete t s) := by
  unfold execMatrixComputeComplete
  split
  · refine ite_formed hs (holdAll_formed hs fun _ h => ?_)
    extract_lets +onlyGivenNames s₁
    have hs₁ : s₁.formed := ite_formed h h
    exact ite_formed hs₁ hs₁
  · exact hs

/-! ### Dispatch -/

theorem execEmit_formed {f} (hs : s.formed) : NextFormed (execEmit f s) :=
  beadOp_formed hs fun _ _ h => emitThen_formed h fun _ h => h

theorem execBari_formed {f} (hs : s.formed) : NextFormed (execBari f s) :=
  beadOp_formed hs fun _ _ h => emitThen_formed h fun _ h => h

theorem execLd_formed {f} (hs : s.formed) : NextFormed (execLd f s) :=
  memOp_formed hs fun _ _ h => placed_formed h fun _ _ => loadFrom_formed

theorem execLdv_formed {f} (hs : s.formed) : NextFormed (execLdv f s) :=
  memOp_formed hs fun _ _ h => placed_formed h fun _ _ => loadFrom_formed

theorem exec_formed {i} (hs : s.formed) : NextFormed (exec i s) := by
  cases i with
  | nop => exact hs
  | trap => exact issue_formed hs fun _ => trap_formed
  | halt => exact execHalt_formed hs
  | sysrd | time => exact issue_formed hs fun _ h => h
  | add | sub | adds | subs | mul | mulh | mad | neg | abs | min | max => exact intOp_formed hs
  | div | rem => exact intCodes_formed hs
  | addImm | subImm | mulImm | minImm | maxImm => exact intImm_formed hs
  | and | or | xor | not | andn | shl | shr | sha | rot | clz | popc | brev | bext | bins => exact bitOp_formed hs
  | andImm | orImm | xorImm | andnImm | shlImm | shrImm | shaImm | rotImm => exact bitImm_formed hs
  | cmp | sel | mov | movLane | movid | lea | pfx | lnred | bcast | shuf | compact | pcnt | expand | pnot | fcmp
  | fcvt | fcvtFrom | ftoi | itof | fpack | funpack => exact alu_formed hs
  | movi => exact aluI_formed hs
  | movhi => exact execMovhi_formed hs
  | pand => exact execPand_formed hs
  | por | pxor => exact predOp_formed hs
  | fadd | fsub | fmul | fdiv => exact fp2_formed hs
  | fma | fms | fnma => exact fp3_formed hs
  | fsqrt | frcp | frsq => exact fp1_formed hs
  | fmin | fmax | fabs | fneg | fclass | frint | fgetexp | fexp2f | fexpins => exact fpCodes_formed hs
  | emit => exact execEmit_formed hs
  | bari => exact execBari_formed hs
  | route => exact execRoute_formed hs
  | split => exact execSplit_formed hs
  | merge => exact execMerge_formed hs
  | recirc => exact execRecirc_formed hs
  | accept => exact execAccept_formed hs
  | drop => exact execDrop_formed hs
  | hold => exact execHold_formed hs
  | newb => exact execNewb_formed hs
  | endb => exact beadOp_formed hs fun _ _ => leave_formed
  | tok => exact execTok_formed hs
  | swi => exact execSwi_formed hs
  | ld => exact execLd_formed hs
  | ldv => exact execLdv_formed hs
  | st => exact execSt_formed hs
  | stv => exact execStv_formed hs
  | pld => exact execPld_formed hs
  | pst => exact execPst_formed hs
  | pclear => exact execPclear_formed hs
  | sld => exact execSld_formed hs
  | sst => exact execSst_formed hs
  | pfetch => exact execPfetch_formed hs
  | fence => exact execFence_formed hs
  | tfence => exact execTfence_formed hs
  | atom => exact execAtom_formed hs
  | atomTree => exact execAtomTree_formed hs
  | wait => exact execWait_formed hs
  | hbarArrive => exact execHbarArrive_formed hs
  | hbarWait => exact execHbarWait_formed hs
  | hbarAw => exact execHbarAw_formed hs
  | bsync => exact execBsync_formed hs
  | cntrEv => exact execCntrEv_formed hs
  | cntrTask => exact execCntrTask_formed hs
  | timeLeft => exact execTimeLeft_formed hs
  | cpy | dense | sparsify | a2a | coll => exact enginePort_formed hs
  | cpyChain | denseChain | sparsifyChain | a2aChain | collChain => exact engineChain_formed hs
  | chapp => exact syncOp_formed hs fun _ => chainAppend_formed
  | taskq => exact execTaskq_formed hs
  | lpatch => exact execLpatch_formed hs
  | larm => exact execLarm_formed hs
  | mma | mmas | mmaw | accz | accrd | accwr | acccvt | seedx | sfit | ssrch | lshb | tpose | deq =>
    dsimp only [exec, execMma, execMmas, execMmaw, execAccz, execAccrd, execAccwr, execAcccvt, execSeedx, execSfit,
      execSsrch, execLshb, execTpose, execDeq]
    exact matrixOp_formed hs
  | quant => exact execQuant_formed hs
  | longLatencyResult => exact execLongLatencyResult_formed hs
  | beadhArrival => exact execBeadhArrival_formed hs
  | beadStart => exact execBeadStart_formed hs
  | tokenBeadForm => exact execTokenBeadForm_formed hs
  | ceControlToken => exact execCeControlToken_formed hs
  | selJoinFire => exact execSelJoinFire_formed hs
  | elementSwitch => exact execElementSwitch_formed hs
  | barForward => exact execBarForward_formed hs
  | linkBeatReceive => exact execLinkBeatReceive_formed hs
  | swRt | swFork => exact passBeat_formed hs
  | swJoin => exact execSwJoin_formed hs
  | rootSourceStart => exact execRootSourceStart_formed hs
  | scannerRef => exact execScannerRef_formed hs
  | scannerStop => exact execScannerStop_formed hs
  | scannerDone => exact execScannerDone_formed hs
  | scannerSkip => exact execScannerSkip_formed hs
  | scnTSeek => exact execScnTSeek_formed hs
  | mrgI => exact execMrgI_formed hs
  | mrgU => exact execMrgU_formed hs
  | rptCrd => exact execRptCrd_formed hs
  | rptStop => exact execRptStop_formed hs
  | rptDone => exact unitStep_formed hs fun _ _ _ => rptEnd_formed
  | rdcVal => exact execRdcVal_formed hs
  | rdcStop => exact execRdcStop_formed hs
  | rdcDone => exact unitStep_formed hs fun _ _ _ => rdcEnd_formed
  | lwrEntry => exact execLwrEntry_formed hs
  | lwrStop => exact execLwrStop_formed hs
  | lwrDone => exact unitStep_formed hs fun _ _ _ => lwrEnd_formed
  | lwrTStore => exact execLwrTStore_formed hs
  | agAff => exact execAgAff_formed hs
  | agInd => exact execAgInd_formed hs
  | iseParamRead => exact execIseParamRead_formed hs
  | iseValueReturn => exact execIseValueReturn_formed hs
  | agWr => exact execAgWr_formed hs
  | xfTpose => exact execXfTpose_formed hs
  | xfQuant => exact execXfQuant_formed hs
  | xfScale => exact execXfScale_formed hs
  | xfBmap => exact execXfBmap_formed hs
  | matrixOperandPhase => exact execMatrixOperandPhase_formed hs
  | matrixComputeComplete => exact execMatrixComputeComplete_formed hs
  | hsqAtomApply => exact execHsqAtomApply_formed hs
  | hsqBarrierArrival => exact execHsqBarrierArrival_formed hs
  | combiningArrival => exact execCombiningArrival_formed hs
  | treeHoldExpiry => exact execTreeHoldExpiry_formed hs
  | waitTimeout => exact execWaitTimeout_formed hs
  | waitDequeue => exact execWaitDequeue_formed hs
  | bsyncProceed => exact execBsyncProceed_formed hs
  | idxfullReissue => exact execIdxfullReissue_formed hs
  | engineCommandStart => exact execEngineCommandStart_formed hs
  | engineCommandComplete => exact execEngineCommandComplete_formed hs
  | engineFault => exact execEngineFault_formed hs
  | a2aDelivery => exact execA2aDelivery_formed hs
  | a2aResume => exact execA2aResume_formed hs
  | collMatch => exact execCollMatch_formed hs
  | chainWalk => exact execChainWalk_formed hs
  | mitBlockRead => exact mitTry_formed hs fun _ _ h => h
  | mitRefetch => exact mitTry_formed hs fun _ _ h => raise_formed h
  | counterHalving => exact execCounterHalving_formed hs
  | tfenceAck => exact execTfenceAck_formed hs
  | timeAllowanceExpiry => exact execTimeAllowanceExpiry_formed hs
  | admissionAgeExpiry => exact execAdmissionAgeExpiry_formed hs
  | exhaustion => exact execExhaustion_formed hs
  | quiescenceReport => exact execQuiescenceReport_formed hs
  | dependenceDecrement => exact execDependenceDecrement_formed hs
  | allocate => exact execAllocate_formed hs
  | loaderRead => exact execLoaderRead_formed hs
  | verificationPass => exact execVerificationPass_formed hs
  | successorPreload => exact execSuccessorPreload_formed hs
  | configScrub => exact execConfigScrub_formed hs
  | configRepairComplete => exact execConfigRepairComplete_formed hs
  | launchArm => exact execLaunchArm_formed hs
  | launchStart => exact execLaunchStart_formed hs
  | launchPacket => exact execLaunchPacket_formed hs
  | pendingPieceEnqueue => exact execPendingPieceEnqueue_formed hs
  | dieReport => exact execDieReport_formed hs
  | removalComplete => exact execRemovalComplete_formed hs
  | faultPost => exact execFaultPost_formed hs
  | heldRecordPost => exact execHeldRecordPost_formed hs
  | preemptEnd => exact execPreemptEnd_formed hs
  | saveComplete => exact execSaveComplete_formed hs
  | regionRestore => exact execRegionRestore_formed hs
  | checkComplete => exact execCheckComplete_formed hs
  | watchdogExpiry => exact execWatchdogExpiry_formed hs
  | attestResponse => exact execAttestResponse_formed hs
  | powerSample => exact execPowerSample_formed hs
  | throttleUpdate => exact execThrottleUpdate_formed hs
  | patrolScrub => exact execPatrolScrub_formed hs
  | podBarrierRelease => exact execPodBarrierRelease_formed hs
  | bsyncDeadline => exact execBsyncDeadline_formed hs
  | outputBeat8Clk => exact execOutputBeat8Clk_formed hs
  | rd => exact execRd_formed hs
  | wr => exact execWr_formed hs
  | wrc => exact execWrc_formed hs
  | append => exact execAppend_formed hs
  | flush => exact execFlush_formed hs
  | hostTfence => exact execHostTfence_formed hs
  | cpl => exact execCpl_formed hs
  | ucieCrcReplay => exact execUcieCrcReplay_formed hs
  | ucieModuleFail => exact execUcieModuleFail_formed hs
  | contextActivate => exact whenReady_formed hs fun _ => activate_formed
  | contextRemove => exact whenReady_formed hs fun _ => startRemoval_formed
  | fqheadWrite => exact whenReady_formed hs fun _ => writeHead_formed
  | herrClear => exact whenReady_formed hs fun _ h => h
  | registerWrite => exact execRegisterWrite_formed hs
  | resume => exact execResume_formed hs
  | abort => exact execAbort_formed hs
  | kill => exact execKill_formed hs
  | skip => exact execSkip_formed hs
  | retry => exact execRetry_formed hs
  | preemptBoundary => exact execPreemptBoundary_formed hs
  | preemptAbort => exact execPreemptAbort_formed hs
  | preemptFreezeSave => exact execPreemptFreezeSave_formed hs
  | resumectx => exact execResumectx_formed hs
  | go => exact goNow_formed hs
  | reset => exact resetNow_formed hs
  | powerOnReset => exact resetTo_formed (memFilter_wf hs _)
  | initComplete => exact execInitComplete_formed hs
  | attestQuote | attestCertChain => exact attestNow_formed hs
  | thermalTrip => exact sample_formed hs
  | eccError => exact execEccError_formed hs
  | tileFence => exact fenceTile_formed hs
  | vaultFence => exact fenceVault_formed hs
  | hbmChannelFence => exact fenceChannel_formed hs
  | dieFence => exact fenceDie_formed hs
  | portFence => exact fencePort_formed hs
  | flitReceive => exact execFlitReceive_formed hs
  | flitCrcRetry => exact execFlitCrcRetry_formed hs
  | portRetrain => exact execPortRetrain_formed hs
  | keepaliveLoss => exact execKeepaliveLoss_formed hs
  | podcfgWrite => exact writePodcfg_formed hs
  | monctlSet | monctlClr => exact whenReady_formed hs fun _ => writeMonctl_formed
  | portTrainingComplete => exact execPortTrainingComplete_formed hs

/-! ### The tick -/

theorem State.tick_formed (hs : s.formed) : s.tick.formed := by
  unfold State.tick
  extract_lets _ _ _ _ _ _ _ _ _ s₃ _ s₄ s₅
  have hs₃ : s₃.formed := foldl_formed (fun _ _ h => h) (latchLost_formed (expireWaits_formed hs))
  have hs₄ : s₄.formed := foldl_formed (fun _ _ h => h) hs₃
  have hs₅ : s₅.formed := foldl_formed (fun _ _ => evacuate_formed) (expireSamples_formed (lattice_formed hs₄))
  exact foldl_formed (fun _ _ => finishSwitch_formed) (retryAll_formed hs₅)

/-! ### The step -/

theorem elementTurn_formed {t} (hs : s.formed) : NextFormed (elementTurn s t) := by
  refine ite_nextFormed ?_ hs
  split
  · exact exec_formed hs
  · exact trivial

theorem step_formed (hs : s.formed) : NextFormed (step s) := by
  unfold step
  split
  · exact tick_formed hs
  · exact exec_formed hs
  · exact performTx_formed hs
  · exact elementTurn_formed hs

end

/-- Settles O59: a step is a tick, an operation, a host transaction or an element's turn; each keeps the memory in form. -/
theorem stepKeepsMemoryForm : Obligations.StepKeepsMemoryForm := by
  intro s t hs e
  have h := step_formed hs
  rw [e] at h
  exact h

end Sys2Proof.Machine
end

section
namespace Sys2Proof.Machine

/-! ### The machine after reset (R349, R393, R395) -/

theorem ctx_of_mem_reset {c : Ctx} (h : c ∈ State.reset.ctxs) : c = Ctx.reset :=
  List.eq_of_mem_replicate (n := 4) h

/-- Settles O5: the boot block of the reset state is `Boot.reset`, and each of its four contexts `Ctx.reset`. -/
theorem resetValues : Obligations.ResetValues := by
  refine ⟨rfl, rfl, rfl, rfl, rfl, rfl, State.reset_ctxs_length, fun c hc => ?_⟩
  rw [ctx_of_mem_reset hc]
  exact ⟨rfl, rfl, rfl, rfl, rfl, rfl⟩

theorem State.reset_sized : State.reset.sized := by
  refine State.Sizes.sized ⟨reset_ctxs_length, rfl, Fleet.reset_sized, ?_, ?_⟩
  · rintro _ ⟨⟩
  · rintro _ ⟨⟩

/-- Placing a program word changes no register of tile 0, the only tile it touches. -/
theorem State.withFetchWord_sized {s : State} (hs : s.sized) (n w : Nat) : (s.withFetchWord n w).sized :=
  State.Sizes.sized { hs.sizes with tiles := forall_tabSet (s.tile_sized hs) hs.sizes.tiles }

/-- Settles O58: the machine after reset meets both invariants, and placing a program word writes no memory and keeps the sizes. -/
theorem resetKeepsInvariants : Obligations.ResetKeepsInvariants :=
  ⟨State.reset_wf, State.reset_sized, fun n w => ⟨State.reset_wf, State.withFetchWord_sized State.reset_sized n w⟩⟩

end Sys2Proof.Machine
end

section
namespace Sys2Proof.Machine

/-! ### What writes of memory and drains leave of the contexts (R40, R200, R350, R390) -/

/-- The contexts, the launches and the saved regions are the same. -/
structure State.SameContexts (s t : State) : Prop where
  ctxs : t.ctxs = s.ctxs
  launches : t.launches = s.launches
  saved : t.saved = s.saved

namespace State
variable {s t u : State}

theorem SameContexts.refl (s : State) : s.SameContexts s := ⟨rfl, rfl, rfl⟩

theorem SameContexts.trans (h : s.SameContexts t) (h' : t.SameContexts u) : s.SameContexts u :=
  ⟨h'.ctxs.trans h.ctxs, h'.launches.trans h.launches, h'.saved.trans h.saved⟩

theorem SameContexts.ctx (h : s.SameContexts t) (c : Nat) : t.ctx c = s.ctx c := by rw [State.ctx, State.ctx, h.ctxs]

theorem sameContexts_foldl {α : Type} {f : State → α → State} (hf : ∀ (s : State) a, s.SameContexts (f s a)) (l : List α) (s : State) :
    s.SameContexts (l.foldl f s) :=
  l.foldlRecOn f (.refl s) fun t h a _ => h.trans (hf t a)

theorem sameContexts_ite {p : Prop} [Decidable p] (ht : s.SameContexts t) (hu : s.SameContexts u) : s.SameContexts (if p then t else u) := by
  split <;> assumption

theorem sameContexts_of_physWrite {cmp : Bool} {cells : List Host.Cell} (h : s.physWrite cmp cells = some t) : s.SameContexts t := by
  unfold physWrite at h
  split at h
  · cases h; exact .refl s
  · dsimp only at h
    split at h
    · split at h
      · cases h
      · cases h; exact ⟨rfl, rfl, rfl⟩
    · cases h; exact ⟨rfl, rfl, rfl⟩

theorem sameContexts_homeWrite (s : State) (cells : List Host.Cell) : s.SameContexts (s.homeWrite cells) := by
  unfold homeWrite
  cases h : s.physWrite (s.inCode (cells.headD (0, 0)).1) cells with
  | none => exact .refl s
  | some t => exact sameContexts_of_physWrite h

theorem SameContexts.withTrees (h : s.SameContexts t) (ts : Tab Tree) : s.SameContexts { t with trees := ts } := ⟨h.ctxs, h.launches, h.saved⟩

theorem sameContexts_mirror (s : State) (d : Nat) (tr : Tree) : s.SameContexts (s.mirror d tr) := (s.sameContexts_homeWrite _).withTrees _

theorem sameContexts_unreserve (s : State) (buf : List HeldStore) : s.SameContexts (s.unreserve buf) := by
  refine sameContexts_foldl (fun s x => ?_) buf s
  split
  · split
    · exact s.sameContexts_mirror _ _
    · exact .refl s
  · exact .refl s

theorem sameContexts_discard (s : State) (r : Nat) : s.SameContexts (s.discard r) := by
  unfold discard
  split
  · exact .refl s
  next g _ => exact (s.sameContexts_unreserve g.buffer).trans ⟨rfl, rfl, rfl⟩

theorem sameContexts_measureDrain (s : State) : s.SameContexts s.measureDrain := sameContexts_ite (.refl s) ⟨rfl, rfl, rfl⟩

theorem sameContexts_onTile (s : State) (t : Nat) (f : Tile → Tile) : s.SameContexts (s.onTile t f) := ⟨rfl, rfl, rfl⟩

theorem sameContexts_onRegion (s : State) (r : Nat) (f : Region → Region) : s.SameContexts (s.onRegion r f) :=
  ⟨onRegion_ctxs .., onRegion_launches .., onRegion_saved ..⟩

theorem sameContexts_drain (s : State) (r : Nat) (why : Drain) : s.SameContexts (s.drain r why) := by
  unfold drain
  split
  · exact .refl s
  next g _ =>
    have htiles := sameContexts_foldl (fun s t => s.sameContexts_onTile t Tile.toDrain) g.tiles (s.discard r)
    exact (((s.sameContexts_discard r).trans htiles).trans (sameContexts_measureDrain _)).trans (sameContexts_onRegion ..)

theorem sameContexts_drainContext (s : State) (c kept : Nat) : s.SameContexts (s.drainContext c kept) :=
  sameContexts_foldl (fun s _ => s.sameContexts_drain _ _) _ s

theorem sameContexts_dropEngines (s : State) (c : Nat) : s.SameContexts (s.dropEngines c) := ⟨rfl, rfl, rfl⟩

theorem sameContexts_setRecField (s : State) (c idx k lo n v : Nat) : s.SameContexts (s.setRecField c idx k lo n v) :=
  sameContexts_ite ⟨rfl, rfl, rfl⟩ (sameContexts_ite ⟨rfl, rfl, rfl⟩ (.refl s))

theorem sameContexts_idleRecords (s : State) (c : Nat) (fresh : Bool) : s.SameContexts (s.idleRecords c fresh) := by
  refine sameContexts_foldl (fun s i => ?_) _ s
  have hidle := (s.sameContexts_setRecField c i 11 8 8 0).trans (sameContexts_setRecField _ c i 11 24 2 0)
  exact sameContexts_ite (hidle.trans ((sameContexts_setRecField ..).trans (sameContexts_setRecField ..))) hidle

end State

/-! ### Activation, removal, and the writes of a context block (R348 to R350, R355, R390, R393) -/

section
variable {s : State} {c : Nat}

theorem State.whenReady_of_ready (h : s.boot.bstate = 4) (k : State → State) : s.whenReady k = k s := if_pos h

theorem State.whenReady_of_notReady (h : s.boot.bstate ≠ 4) (k : State → State) : s.whenReady k = s := if_neg h

/-- The fixed fields of a context block that activation checks (R350). -/
structure Ctx.Placed (C : Ctx) : Prop where
  pool : C.pool % 2 ^ 20 = 0
  range : inHbm (C.pool + 2 ^ 20 - 1) = true ∨ (inVault C.pool = true ∧ inVault (C.pool + 2 ^ 20 - 1) = true)
  ring : C.fqbase % 128 = 0
  least : 6 ≤ C.fqn
  most : C.fqn ≤ 16

theorem State.activate_of_placed (hc : c < s.ctxs.length) (h0 : (s.ctx c).state = 0) (hp : (s.ctx c).Placed) :
    (s.activate c).ctx c = { s.ctx c with
      state := 1, nlseq := 1, nseq := 1, stop := 0, cmds := [], preempt := none, acting := none, restoring := none, colls := [] } := by
  obtain ⟨hpool, hrange, hring, hleast, hmost⟩ := hp
  have hsame := (s.sameContexts_idleRecords c true).trans (State.sameContexts_dropEngines _ c)
  have hr : (inHbm ((s.ctx c).pool + 2 ^ 20 - 1) || inVault (s.ctx c).pool && inVault ((s.ctx c).pool + 2 ^ 20 - 1)) = true := by
    simpa only [Bool.or_eq_true, Bool.and_eq_true] using hrange
  have hcheck : ((s.ctx c).pool % 2 ^ 20 != 0
      || !(inHbm ((s.ctx c).pool + 2 ^ 20 - 1) || (inVault (s.ctx c).pool && inVault ((s.ctx c).pool + 2 ^ 20 - 1)))
      || (s.ctx c).fqbase % 128 != 0 || (s.ctx c).fqn < 6 || 16 < (s.ctx c).fqn) = false := by
    rw [hpool, hr, hring]
    simp [hleast, hmost]
  unfold State.activate
  simp only [h0, hcheck, bne_self_eq_false, Bool.false_eq_true, if_false]
  rw [ctx_onCtx _ _ (by rwa [hsame.ctxs]), hsame.ctx]

theorem State.activate_of_unaligned (h0 : (s.ctx c).state = 0) (hp : (s.ctx c).pool % 2 ^ 20 ≠ 0) :
    s.activate c = s.logError 2 (State.dcbReg (0x100 + 0x100 * c)) := by
  have hp : ((s.ctx c).pool % 2 ^ 20 != 0) = true := bne_iff_ne.2 hp
  simp only [State.activate, h0, hp, bne_self_eq_false, Bool.false_eq_true, Bool.true_or, if_false, if_true]

/-- A removal stops the context at once, and leaves none of its launches and of its saved regions. -/
theorem State.startRemoval_parts (hc : c < s.ctxs.length) (h1 : (s.ctx c).state = 1) :
    ((s.startRemoval c).ctx c).state = 2 ∧ (∀ l ∈ (s.startRemoval c).launches, l.ctx ≠ c) ∧ ∀ x ∈ (s.startRemoval c).saved, x.ctx ≠ c := by
  unfold State.startRemoval
  rw [if_neg (by simp [h1])]
  extract_lets s₁ s₂ _ _ _ _ s₃
  have hs₁ : s.SameContexts s₁ := State.sameContexts_foldl (fun s x => s.sameContexts_unreserve _) _ s
  have hs₂ : (s₂.ctx c).state = 2 := congrArg Ctx.state (ctx_onCtx s₁ _ (hs₁.ctxs ▸ hc))
  have hend := (s₃.sameContexts_dropEngines c).trans (State.sameContexts_drainContext _ c (State.savingDies (s₃.ctx c)))
  refine ⟨(congrArg Ctx.state (hend.ctx c)).trans hs₂, ?_, ?_⟩
  · rw [hend.launches]
    exact fun l hl => bne_iff_ne.1 (List.mem_filter.1 hl).2
  · rw [hend.saved]
    exact fun x hx => bne_iff_ne.1 (List.mem_filter.1 hx).2

theorem State.sendNotify_ctx (hc : c < s.ctxs.length) : (s.sendNotify c).ctx c = { s.ctx c with notify := true } :=
  ctx_onCtx s _ hc

theorem State.writeHead_parts (hc : c < s.ctxs.length) (x : Word) :
    ((s.writeHead c x).ctx c).fqhead = x.setWidth 32 ∧ ((s.writeHead c x).ctx c).notify = (x.setWidth 32 != (s.ctx c).fqtail) := by
  unfold State.writeHead
  extract_lets s₁
  have h₁ : s₁.ctx c = { s.ctx c with fqhead := x.setWidth 32, notify := false } := ctx_onCtx s _ hc
  have hc₁ : c < s₁.ctxs.length := (List.length_modify ..).symm ▸ hc
  split
  next e =>
    rw [h₁] at e ⊢
    exact ⟨rfl, (bne_eq_false_iff_eq.2 e).symm⟩
  next e =>
    rw [State.sendNotify_ctx hc₁, h₁]
    rw [h₁] at e
    exact ⟨rfl, (bne_iff_ne.2 e).symm⟩

/-- The state without the tasks and translations of a context, whose slot is FREE (R390 steps 6 and 7). -/
def State.vacated (s : State) (c : Nat) : State :=
  let mine := fun (h : Nat) => (s.task? h).any fun k => k.ctx == c
  State.onCtx { s with
    dies := s.dies.map fun D => { D with
      queues := D.queues.map fun (q : List Nat) => q.filter fun h => !mine h
      tlb := D.tlb.filter fun e => e.ctx != c
      ptrs := D.ptrs.filter fun e => e.ctx != c
      ise := D.ise.map fun es => es.filter fun e => e.ctx != c }
    tiles := s.tiles.map fun q => (q.1, if q.2.owner = some c then { q.2 with owner := none } else q.2)
    tasks := s.tasks.filter fun k => k.2.ctx != c } c fun C => { C with state := 0 }

theorem exec_removalComplete_of_idle (h2 : (s.ctx c).state = 2) (hp : (s.ctx c).preempt = none) (hr : ∀ q ∈ s.regions, q.2.ctx ≠ c) :
    exec (.removalComplete c) s = .next ((s.idleRecords c false).vacated c) := by
  have hidle : ((s.ctx c).state != 2 || (s.ctx c).preempt.isSome || s.regions.any fun q => q.2.ctx == c) = false := by
    simpa [h2, hp] using hr
  exact congrArg Host.Outcome.next (if_neg (Bool.eq_false_iff.1 hidle))

theorem State.vacated_parts (hc : c < s.ctxs.length) :
    ((s.vacated c).ctx c).state = 0 ∧ (∀ k ∈ (s.vacated c).tasks, k.2.ctx ≠ c)
      ∧ ∀ D ∈ (s.vacated c).dies, (∀ e ∈ D.tlb, e.ctx ≠ c) ∧ (∀ e ∈ D.ptrs, e.ctx ≠ c) ∧ ∀ es ∈ D.ise, ∀ e ∈ es, e.ctx ≠ c := by
  refine ⟨congrArg Ctx.state (ctx_onCtx _ _ hc), fun k hk => bne_iff_ne.1 (List.mem_filter.1 hk).2, fun D hD => ?_⟩
  obtain ⟨D, -, rfl⟩ := List.mem_map.1 hD
  refine ⟨fun e he => bne_iff_ne.1 (List.mem_filter.1 he).2, fun e he => bne_iff_ne.1 (List.mem_filter.1 he).2, fun es hes e he => ?_⟩
  obtain ⟨es, -, rfl⟩ := List.mem_map.1 hes
  exact bne_iff_ne.1 (List.mem_filter.1 he).2

end

/-! ### Posting (R354, R356) -/

section
variable {s s₁ : State} {d c : Nat} {p : Nat × Record} {rec' : Record} {q : Page}

theorem exec_heldRecordPost (hp : ((s.die d).holds.find? fun p => p.1 == c) = some p) (hf : s.ringFull c = false)
    (hq : s.ringAt c = some q) :
    exec (.heldRecordPost d c) s
      = .next ((s.onDie d fun D => { D with holds := D.holds.erase p }).writeRecord c q p.2 true) := by
  change execHeldRecordPost d c s = _
  simp only [execHeldRecordPost, hp, hf, hq, Bool.false_eq_true, if_false]

variable (hp : ((s.die d).posts.find? fun p => p.1 == c) = some p)
include hp

/-- An event that finds the ring full is dropped. -/
theorem exec_faultPost_of_full_event (hf : s.ringFull c = true) (he : bit (word p.2 0) 9 = true) :
    exec (.faultPost d c) s = .next ((s.onDie d fun D => { D with posts := D.posts.erase p }).dropEvent d c) := by
  change execFaultPost d c s = _
  simp only [execFaultPost, hp, hf, State.recEvent, he, if_true]

/-- An event behind held records waits. -/
theorem exec_faultPost_of_held_event (hf : s.ringFull c = false) (hq : s.ringAt c = some q) (hh : ∃ q ∈ (s.die d).holds, q.1 = c)
    (he : bit (word p.2 0) 9 = true) :
    exec (.faultPost d c) s = .next s := by
  have hheld : ((s.die d).holds.filter fun q => q.1 == c).length ≠ 0 := by simpa using hh
  change execFaultPost d c s = _
  simp only [execFaultPost, hp, hf, hq, State.recEvent, he, hheld, Bool.false_eq_true, Bool.true_or, if_false, if_true]

variable (hn : (s.onDie d fun D => { D with posts := D.posts.erase p }).numberRecord d c p.2 = (s₁, rec'))
include hn

theorem exec_faultPost_of_slot (hf : s.ringFull c = false) (hq : s.ringAt c = some q) (hh : ∀ q ∈ (s.die d).holds, q.1 ≠ c) :
    exec (.faultPost d c) s = .next (s₁.writeRecord c q rec' false) := by
  have hheld : ((s.die d).holds.filter fun q => q.1 == c).length = 0 := by simpa using hh
  change execFaultPost d c s = _
  simp only [execFaultPost, hp, hn, hf, hq, hheld, Bool.false_eq_true, if_false, if_true]

/-- A record that is no event is held when the ring is full, and behind held records. -/
theorem exec_faultPost_of_holds (hl : ((s.die d).holds.filter fun q => q.1 == c).length < 16) (he : bit (word p.2 0) 9 = false)
    (hw : s.ringFull c = true ∨ s.ringFull c = false ∧ (∃ q, s.ringAt c = some q) ∧ ∃ q ∈ (s.die d).holds, q.1 = c) :
    exec (.faultPost d c) s = .next ((s₁.onDie d fun D => { D with holds := D.holds ++ [(c, rec')] }).count d .heldEvent) := by
  change execFaultPost d c s = _
  obtain hf | ⟨hf, ⟨q, hq⟩, hh⟩ := hw
  · simp only [execFaultPost, hp, hn, hf, State.recEvent, he, hl, Bool.false_eq_true, if_false, if_true]
  · have hheld : ((s.die d).holds.filter fun q => q.1 == c).length ≠ 0 := by simpa using hh
    simp only [execFaultPost, hp, hn, hf, hq, State.recEvent, he, hheld, hl.not_ge, decide_false, Bool.or_false, Bool.false_eq_true, if_false]

end

/-- Outside READY no write of a context block is performed (R393). -/
theorem exec_of_notReady {s : State} {c : Nat} {i : Instr} (h : s.boot.bstate ≠ 4)
    (hi : ∃ x, i ∈ [.contextActivate c, .contextRemove c, .fqheadWrite c x, .herrClear]) : exec i s = .next s := by
  obtain ⟨x, hi⟩ := hi
  simp only [List.mem_cons, List.not_mem_nil, or_false] at hi
  obtain rfl | rfl | rfl | rfl := hi <;> exact congrArg Host.Outcome.next (State.whenReady_of_notReady h _)

/-- Settles O49: what READY lets each write of a block do, and where a record goes by the room in its ring. -/
theorem contextBlocks : Obligations.ContextBlocks := by
  intro s c hc C placed
  refine ⟨fun hb h0 hpool hrange hring hleast hmost => ?activate, fun hb h0 hpool hv => ?refused, fun hb h1 => ?remove,
    fun h2 hp hr => ?removed, fun d p hp => ?post, fun d p pa => exec_heldRecordPost, fun x hb => ?head,
    fun hb => congrArg Host.Outcome.next (State.whenReady_of_ready hb _), fun i => exec_of_notReady⟩
  case activate =>
    refine ⟨s.activate c, congrArg Host.Outcome.next (State.whenReady_of_ready hb _), ?_⟩
    exact State.activate_of_placed hc h0 ⟨hpool, hrange, hring, hleast, hmost⟩
  case refused =>
    refine ⟨s.activate c, congrArg Host.Outcome.next (State.whenReady_of_ready hb _), ?_⟩
    rw [State.activate_of_unaligned h0 hpool, State.logError, hv]
    exact ⟨rfl, rfl, rfl⟩
  case remove =>
    exact ⟨s.startRemoval c, congrArg Host.Outcome.next (State.whenReady_of_ready hb _), State.startRemoval_parts hc h1⟩
  case removed =>
    exact ⟨_, exec_removalComplete_of_idle h2 hp hr, State.vacated_parts ((s.sameContexts_idleRecords c false).ctxs.symm ▸ hc)⟩
  case post =>
    intro taken s₁ rec' hn
    exact ⟨fun pa => exec_faultPost_of_slot hp hn, exec_faultPost_of_full_event hp, fun hf he hl => exec_faultPost_of_holds hp hn hl he (.inl hf),
      fun pa hf hq hh => ⟨exec_faultPost_of_held_event hp hf hq hh,
        fun he hl => exec_faultPost_of_holds hp hn hl he (.inr ⟨hf, ⟨pa, hq⟩, hh⟩)⟩⟩
  case head =>
    exact ⟨s.writeHead c x, congrArg Host.Outcome.next (State.whenReady_of_ready hb _), State.writeHead_parts hc x⟩

end Sys2Proof.Machine
end

section
namespace Sys2Proof.Machine

/-! ### Transactions of a class (R345, R346) -/

section
variable {s : State} {h : TxHdr} {data : List Word}

section
variable {kind : Nat} {k : State → Host.Outcome State Fault Refusal}

theorem State.inClass_of_reserved (hk : kindReserved h = true) :
    s.inClass kind h data k
      = .next (if s.draw.1.getLsbD 0 then s.draw.2.logError 6 h.addr.toNat else s.draw.2.complete' h (.code 6)) := if_pos hk

variable (hk : kindReserved h = false)
include hk

theorem State.inClass_of_behindFence (hf : s.behindFence h = true) :
    s.inClass kind h data k = .next { s with host := { s.host with waiting := s.host.waiting ++ [⟨kind, h, data⟩] } } := by
  simp only [inClass, hk, hf, Bool.false_eq_true, if_false, if_true]

theorem State.inClass_of_first (hf : s.behindFence h = false) : s.inClass kind h data k = k s := by
  simp only [inClass, hk, hf, Bool.false_eq_true, if_false]

end

/-- Each of the six transactions of a host is performed in its class; one that waits keeps its kind and its data. -/
theorem exec_eq_inClass {q : Nat × List Word × Instr}
    (hq : q ∈ [(0, [], .rd h), (1, data, .wr h data), (2, data, .wrc h data), (3, data, .append h data), (4, [], .flush h), (5, data, .hostTfence h data)])
    (s : State) : ∃ k, exec q.2.2 s = s.inClass q.1 h q.2.1 k := by
  simp only [List.mem_cons, List.not_mem_nil, or_false] at hq
  obtain rfl | rfl | rfl | rfl | rfl | rfl := hq
  · exact ⟨_, show execRd h s = _ from rfl⟩
  · exact ⟨_, show execWr h data s = _ from rfl⟩
  · exact ⟨_, show execWrc h data s = _ from rfl⟩
  · exact ⟨_, show execAppend h data s = _ from rfl⟩
  · exact ⟨_, show execFlush h s = _ from rfl⟩
  · exact ⟨_, show execHostTfence h data s = _ from rfl⟩

/-! ### Statuses (R344, R347, R348, R393) -/

section
variable (hk : kindReserved h = false) (hf : s.behindFence h = false)
include hk hf

/-- A header that breaks its table, or an access to what is shut before READY, answers BADREQ; a posted write logs it. -/
theorem exec_hostAccess_of_bad (hno : ¬ (hdrBad h = false ∧ s.shut h = false)) :
    exec (.rd h) s = .next (s.complete' h (.code 6)) ∧ exec (.wrc h data) s = .next (s.complete' h (.code 6))
      ∧ exec (.wr h data) s = .next (s.logError 6 h.addr.toNat) ∧ exec (.flush h) s = .next (s.complete' h (.code 6)) := by
  have hb : (hdrBad h || s.shut h) = true := eq_true_of_ne_false fun e => hno (Bool.or_eq_false_iff.1 e)
  refine ⟨?rd, ?wrc, ?wr, ?flush⟩
  case rd => exact show execRd h s = _ from (State.inClass_of_first hk hf).trans (if_pos hb)
  case wrc => exact show execWrc h data s = _ from (State.inClass_of_first hk hf).trans (if_pos hb)
  case wr => exact show execWr h data s = _ from (State.inClass_of_first hk hf).trans (if_pos hb)
  case flush =>
    change execFlush h s = _
    refine (State.inClass_of_first hk hf).trans ?_
    rw [if_pos hb]

variable (hok : hdrBad h = false ∧ s.shut h = false)
include hok

theorem exec_flush_of_good : exec (.flush h) s = .next (s.complete' h (.code 0)) := by
  change execFlush h s = _
  refine (State.inClass_of_first hk hf).trans ?_
  simp only [hok, Bool.or_self, Bool.false_eq_true, if_false]

section
variable {s₁ : State} {r : Reply}

theorem exec_rd_of_access (ha : s.access h false none = some (s₁, r)) : exec (.rd h) s = .next (s₁.complete' h r) := by
  change execRd h s = _
  refine (State.inClass_of_first hk hf).trans ?_
  simp only [hok, ha, Bool.or_self, Bool.false_eq_true, if_false]

theorem exec_wrc_of_access (ha : s.access h true (some (txWords h data)) = some (s₁, r)) :
    exec (.wrc h data) s = .next (s₁.complete' h r) := by
  change execWrc h data s = _
  refine (State.inClass_of_first hk hf).trans ?_
  simp only [hok, ha, Bool.or_self, Bool.false_eq_true, if_false]

theorem exec_wr_of_access (ha : s.access h false (some (txWords h data)) = some (s₁, r)) :
    exec (.wr h data) s = .next (if r.status = 0 then s₁ else s₁.logError r.status h.addr.toNat) := by
  change execWr h data s = _
  refine (State.inClass_of_first hk hf).trans ?_
  simp only [hok, ha, Bool.or_self, Bool.false_eq_true, if_false]

end

/-! ### APPEND and TFENCE (R367, R375) -/

section
variable (hc : h.ctx ≠ 4) (hl : h.len = 0)
include hc hl

theorem exec_append_of_good {s₁ : State} {r : Reply} (ha : s.hostAppend h.ctx.toNat h.addr.toNat (word data 0) = (s₁, r)) :
    exec (.append h data) s = .next (s₁.complete' h r) := by
  change execAppend h data s = _
  refine (State.inClass_of_first hk hf).trans ?_
  simp only [hok, hc, hl, ha, bne_self_eq_false, decide_false, Bool.or_false, Bool.false_eq_true, if_false]

theorem exec_hostTfence_of_good (ha : h.addr.toNat % 4096 = 0) (hw : word data 0 % 4096 = 0) :
    exec (.hostTfence h data) s = .next (if (s.ctx h.ctx.toNat).state = 2 then s.complete' h (.code 2)
      else { s with fences := s.fences ++ [⟨h.ctx.toNat, h.addr.toNat, word data 0, [0, 1, 2, 3], none, h.tag.toNat, h.ocls.toNat⟩] }) := by
  change execHostTfence h data s = _
  refine (State.inClass_of_first hk hf).trans ?_
  simp only [hok, hc, hl, ha, hw, bne_self_eq_false, decide_false, Bool.or_false, Bool.false_eq_true, if_false]

end

end

/-! ### Where an access goes (R344, R347, R369, R380) -/

theorem State.access_of_user (hc : h.ctx ≠ 4) (wrc : Bool) (d : Option (List Word)) :
    s.access h wrc d = some (s.virtualAccess h.ctx.toNat h.addr.toNat (h.len.toNat + 1) d) := if_pos (bne_iff_ne.2 hc)

section
variable (hc : h.ctx = 4) (hp : State.placed4 h.addr.toNat (h.len.toNat + 1) = true)
include hc hp

section
variable (hd : inDcb h.addr.toNat = false) (wrc : Bool)
include hd

theorem State.access_of_read : s.access h wrc none = some (s.physicalRead h.addr.toNat (h.len.toNat + 1)) := by
  simp only [access, hc, hp, hd, bne_self_eq_false, Bool.not_true, Bool.false_eq_true, if_false]

theorem State.access_of_write (ws : List Word) : s.access h wrc (some ws) = some (s.physicalWrite h.addr.toNat ws) := by
  simp only [access, hc, hp, hd, bne_self_eq_false, Bool.not_true, Bool.false_eq_true, if_false]

end

section
variable (hd : inDcb h.addr.toNat = true) (wrc : Bool)
include hd

theorem State.access_of_readDcb :
    s.access h wrc none
      = some (s, ⟨0, 0, (List.range (h.len.toNat + 1)).map fun i => BitVec.ofNat 64 (s.readDcb (h.addr.toNat - dcbBase + 8 * i))⟩) := by
  simp only [access, hc, hp, hd, bne_self_eq_false, Bool.not_true, Bool.false_eq_true, if_false, if_true]

variable (ws : List Word)

theorem State.access_of_writeDcb (ho : h.addr.toNat - dcbBase < 0x500 ∨ 0x520 ≤ h.addr.toNat - dcbBase) :
    s.access h wrc (some ws) = some (s.writeDcbs (h.addr.toNat - dcbBase) ws, .code 0) := by
  have hout : (0x500 ≤ h.addr.toNat - dcbBase && h.addr.toNat - dcbBase < 0x520) = false := by simpa using by omega
  simp only [access, hc, hp, hd, hout, bne_self_eq_false, Bool.not_true, Bool.false_eq_true, if_false, if_true]

section
variable (ho : h.addr.toNat - dcbBase = 0x500)
include ho

/-- The command block takes one WRC of its 32 bytes. -/
theorem State.access_of_command (hn : h.len.toNat + 1 = 4) :
    s.access h true (some ws) = some (s.acceptCommand ⟨ws.getD 0 0, ws.getD 1 0, ws.getD 2 0, ws.getD 3 0⟩, .code 0) := by
  have hp : placed4 h.addr.toNat 4 = true := hn ▸ hp
  simp [access, hc, hp, hd, ho, hn]

theorem State.access_of_postedCommand : s.access h false (some ws) = some (s, .code 6) := by
  simp [access, hc, hp, hd, ho]

end

end

end

/-! ### Words that the device has read (R345, R395, R400) -/

section
variable {t x m : Nat} (hq : (s.host.asked.find? fun q => q.1 == h.tag.toNat) = some (t, x, m))
include hq

theorem exec_cpl_of_image (ht : t < 4) (hs : s.boot.bstate = 2) :
    let s' := { s with host := { s.host with asked := s.host.asked.filter fun q => q.1 != t } }
    exec (.cpl h data) s
      = .next (if h.status = 0 then s'.onDie t fun D => { D with image := some (wordsBytes (data.take m)) } else s'.enterRecovery 2) := by
  change execCpl h data s = _
  simp only [execCpl, hq, ht, hs, bne_self_eq_false, Bool.false_eq_true, if_false, if_true]

theorem exec_cpl_of_nonce (ht : 4 ≤ t) :
    let s' := { s with host := { s.host with asked := s.host.asked.filter fun q => q.1 != t } }
    exec (.cpl h data) s
      = .next (if h.status = 0 then { s' with boot := { s'.boot with nonce := wordsBytes (data.take m) } }
        else if s.boot.attst = 1 then s'.attestError else s') := by
  change execCpl h data s = _
  simp only [execCpl, hq, ht.not_gt, if_false]

end

end

/-! ### Modules of the link, and registers without a behaviour of their own (R343, R348, R393, R420) -/

theorem State.raised_replacePart (s : State) {code : Nat} (h : code < 2 ^ 8) : s.raised (s.replacePart code) code := by
  have hcode : (BitVec.ofNat 8 code).toNat = code := Nat.mod_eq_of_lt h
  exact ⟨rfl, by simp only [replacePart, hcode], rfl⟩

section
variable {s : State} {m : Nat}

theorem exec_ucieCrcReplay_of_live (hm : s.host.modules.getLsbD m = true) :
    exec (.ucieCrcReplay m) s = .next { s with host := { s.host with replays := s.host.replays + 1 } } := congrArg Host.Outcome.next (if_pos hm)

theorem exec_ucieModuleFail_of_live (hm : s.host.modules.getLsbD m = true) :
    ∃ v, exec (.ucieModuleFail m) s = .next v ∧ v.host.modules = s.host.modules &&& ~~~(1#16 <<< m) ∧ s.raised v 9 := by
  have hlive : (!s.host.modules.getLsbD m) = false := by rw [hm, Bool.not_true]
  exact ⟨_, congrArg Host.Outcome.next (if_neg (Bool.eq_false_iff.1 hlive)), rfl, State.raised_replacePart _ (by decide)⟩

theorem plim_writeBootBlock (b : Boot) (v : Nat) :
    (State.writeBootBlock b 0x5C0 v).plim = if 1500 ≤ v % 2 ^ 12 ∧ v % 2 ^ 12 ≤ 3000 then BitVec.ofNat 12 v else b.plim := by
  simp only [State.writeBootBlock, apply_ite Boot.plim, Bool.and_eq_true, decide_eq_true_eq]

/-- The fleet's registers are written in READY alone; plim, of the boot block, at any time, with a value in its range. -/
theorem exec_registerWrite_parts (s : State) (v : Word) :
    (s.boot.bstate = 4 → (∃ u, exec (.registerWrite 0x540 v) s = .next u ∧ u.fleet.fsel = v.setWidth 9)
        ∧ exec (.registerWrite 0x550 v) s = .next { s with fleet := { s.fleet with rfirst := v.setWidth 8, rlast := (v >>> 8).setWidth 8 } })
      ∧ ∃ u, exec (.registerWrite 0x5C0 v) s = .next u
        ∧ u.boot.plim = if 1500 ≤ v.toNat % 2 ^ 12 ∧ v.toNat % 2 ^ 12 ≤ 3000 then BitVec.ofNat 12 v.toNat else s.boot.plim := by
  refine ⟨fun hb => ?_, s.writePlain 0x5C0 v, rfl, plim_writeBootBlock s.boot v.toNat⟩
  have hready : (s.boot.bstate != 4) = false := by rw [hb]; rfl
  have h540 : s.writePlain 0x540 v = { s with fleet := { s.fleet with fsel := v.setWidth 9 } } := by simp [State.writePlain, hready]
  have h550 : s.writePlain 0x550 v = { s with fleet := { s.fleet with rfirst := v.setWidth 8, rlast := (v >>> 8).setWidth 8 } } := by
    simp [State.writePlain, hready]
  exact ⟨⟨_, congrArg Host.Outcome.next h540, rfl⟩, congrArg Host.Outcome.next h550⟩

end

/-- Settles O55: what becomes of a transaction by its kind and its class, and, once it is performed, by its header and its address. -/
theorem hostTransactions : Obligations.HostTransactions := by
  intro s h data c a n ws six ok
  refine ⟨fun hk q hq => ?reserved, fun hk hf q hq => ?waits, fun hk hf => ⟨fun hno => ?bad, fun hok => ?flush, fun hok hc s₁ r => ?user,
    fun hok hc hp hd s₁ r => ?physical, fun hok hc hp hd => ?block, fun hok hc hl => ?append⟩, fun t x m hq => ?reply,
    fun m hm => ⟨exec_ucieCrcReplay_of_live hm, exec_ucieModuleFail_of_live hm⟩, exec_registerWrite_parts s⟩
  case reserved =>
    obtain ⟨k, e⟩ := exec_eq_inClass hq s
    exact e.trans (State.inClass_of_reserved hk)
  case waits =>
    obtain ⟨k, e⟩ := exec_eq_inClass hq s
    exact e.trans (State.inClass_of_behindFence hk hf)
  case bad => exact exec_hostAccess_of_bad hk hf hno
  case flush => exact exec_flush_of_good hk hf hok
  case user =>
    refine ⟨fun e => ?_, fun e => ?_⟩
    · exact exec_rd_of_access hk hf hok ((State.access_of_user hc ..).trans (congrArg some e))
    · exact ⟨exec_wrc_of_access hk hf hok ((State.access_of_user hc ..).trans (congrArg some e)),
        exec_wr_of_access hk hf hok ((State.access_of_user hc ..).trans (congrArg some e))⟩
  case physical =>
    refine ⟨fun e => ?_, fun e => ?_⟩
    · exact exec_rd_of_access hk hf hok ((State.access_of_read hc hp hd _).trans (congrArg some e))
    · exact ⟨exec_wrc_of_access hk hf hok ((State.access_of_write hc hp hd ..).trans (congrArg some e)),
        exec_wr_of_access hk hf hok ((State.access_of_write hc hp hd ..).trans (congrArg some e))⟩
  case block =>
    refine ⟨exec_rd_of_access hk hf hok (State.access_of_readDcb hc hp hd _), fun ho => ?_, fun ho hn => ?_⟩
    · exact ⟨exec_wr_of_access hk hf hok (State.access_of_writeDcb hc hp hd _ _ ho),
        exec_wrc_of_access hk hf hok (State.access_of_writeDcb hc hp hd _ _ ho)⟩
    · exact ⟨exec_wr_of_access hk hf hok (State.access_of_postedCommand hc hp hd _ ho),
        exec_wrc_of_access hk hf hok (State.access_of_command hc hp hd _ ho hn)⟩
  case append =>
    refine ⟨fun s₁ r => exec_append_of_good hk hf hok hc hl, fun ha hw => ?_⟩
    have he := exec_hostTfence_of_good hk hf hok hc hl ha hw
    exact ⟨fun h2 => he.trans (congrArg _ (if_pos h2)), fun h2 => he.trans (congrArg _ (if_neg h2))⟩
  case reply =>
    refine ⟨fun ht hs h0 => ?_, fun ht hs h0 => ?_, fun ht h0 => ?_, fun ht h0 hs => ?_⟩
    · exact (exec_cpl_of_image hq ht hs).trans (congrArg _ (if_pos h0))
    · exact (exec_cpl_of_image hq ht hs).trans (congrArg _ (if_neg h0))
    · exact (exec_cpl_of_nonce hq ht).trans (congrArg _ (if_pos h0))
    · exact (exec_cpl_of_nonce hq ht).trans (congrArg _ ((if_neg h0).trans (if_pos hs)))

end Sys2Proof.Machine
end

section
namespace Sys2Proof.Machine

/-! ### Commands: acceptance, and the record commands (R379 to R384) -/

namespace State

section
variable {s : State} {k : CmdWords}

theorem acceptCommand_of_bad (hb : cmdBad k = true) : s.acceptCommand k = s.endCommand k 5 := if_pos hb

theorem acceptCommand_of_inactive (hb : cmdBad k = false) (hs : (s.ctx (cmdCtx k)).state ≠ 1) : s.acceptCommand k = s.endCommand k 2 :=
  (if_neg (Bool.eq_false_iff.1 hb)).trans (if_pos (bne_iff_ne.2 hs))

/-- A context as it stands when the only command that it has queued is taken from the queue. -/
def tookCommand (s : State) (k : CmdWords) : State :=
  (s.onCtx (cmdCtx k) fun C => { C with cmds := C.cmds ++ [k] }).onCtx (cmdCtx k) fun C => { C with cmds := [] }

/-- What a command finds that is performed as soon as it is accepted: its context is ACTIVE, and no other command of it waits or is in
progress (R380). -/
structure Awaits (s : State) (k : CmdWords) : Prop where
  good : cmdBad k = false
  slot : cmdCtx k < s.ctxs.length
  active : (s.ctx (cmdCtx k)).state = 1
  none : (s.ctx (cmdCtx k)).cmds = []
  idle : commanded (s.ctx (cmdCtx k)) = false

theorem slot_tookCommand (h : s.Awaits k) : cmdCtx k < (s.tookCommand k).ctxs.length := by
  simpa [tookCommand, onCtx] using h.slot

theorem ctx_tookCommand (h : s.Awaits k) : (s.tookCommand k).ctx (cmdCtx k) = s.ctx (cmdCtx k) := by
  have hl : cmdCtx k < (s.onCtx (cmdCtx k) fun C => { C with cmds := C.cmds ++ [k] }).ctxs.length := (List.length_modify ..).symm ▸ h.slot
  rw [tookCommand, ctx_onCtx _ _ hl, ctx_onCtx _ _ h.slot, ← h.none]

theorem acceptCommand_of_awaits (h : s.Awaits k) : s.acceptCommand k = (s.tookCommand k).performCommand (cmdCtx k) k := by
  have hq : (s.onCtx (cmdCtx k) fun C => { C with cmds := C.cmds ++ [k] }).ctx (cmdCtx k) = { s.ctx (cmdCtx k) with cmds := [k] } := by
    rw [ctx_onCtx _ _ h.slot, h.none, List.nil_append]
  have hidle : commanded { s.ctx (cmdCtx k) with cmds := [k] } = false := h.idle
  have hactive : ((s.ctx (cmdCtx k)).state != 1) = false := by rw [h.active]; rfl
  simp only [acceptCommand, h.good, hactive, nextCommands, hq, List.length_singleton, runCommands, hidle, Bool.false_eq_true, if_false]
  rfl

/-! #### What each command does to the record that it names (R381) -/

/-- RESUME of a region that keeps the allowance of its task. -/
theorem resumeRegion_of_record {r seq : Nat} {g : Region} {x : LiveRecord} (hx : (g.records.find? fun x => x.seq == seq) = some x) :
    s.resumeRegion r seq g 0 = if x.code = 0x0E then (2, s)
      else (0, ((if x.code = 0x13 then s.onTile x.t Tile.advance else s).thaw r seq).reissueAll r) := by
  simp only [resumeRegion, hx, Nat.zero_le, decide_true, Bool.and_true, decide_eq_true_eq, newAllowance, if_true]

section
variable {c : Nat} (hseq : cmdArg k ≠ 0)
include hseq

section
variable {r : Nat} {g : Region} (hf : s.frozenBy c (cmdArg k) = some (r, g))
include hf

theorem performCommand_resume {x : LiveRecord} (hop : cmdOp k = 1) (hx : (g.records.find? fun x => x.seq == cmdArg k) = some x)
    (ht : cmdTexp k = 0) :
    s.performCommand c k = if x.code = 0x0E then s.endCommand k 2
      else (((if x.code = 0x13 then s.onTile x.t Tile.advance else s).thaw r (cmdArg k)).reissueAll r).endCommand k 0 := by
  simp only [performCommand, recordCommand, hop, hseq, hf, ht, resumeRegion_of_record hx, if_false]
  split <;> rfl

/-- An ABORT of a task that has not become irrevocable drains its region, and ends later (R382). -/
theorem performCommand_abort (hop : cmdOp k = 2) :
    s.performCommand c k = if s.irrevocable g then s.endCommand k 2
      else (s.drain r .abort).onCtx c fun C => { C with acting := some (k, r) } := by
  simp only [performCommand, recordCommand, hop, hseq, hf, if_false]
  split <;> rfl

theorem performCommand_kill (hop : cmdOp k = 3) :
    s.performCommand c k = (s.drain r .kill).onCtx c fun C => { C with acting := some (k, r) } := by
  simp only [performCommand, recordCommand, hop, hseq, hf, if_false]
  rfl

end

variable (hf : s.frozenBy c (cmdArg k) = none)
include hf

theorem performCommand_skip {d e : Nat} (hop : cmdOp k = 4) (he : s.engineBy c (cmdArg k) = some (d, e)) :
    s.performCommand c k = (s.failEngine d e c).endCommand k 0 := by
  simp only [performCommand, recordCommand, hop, hseq, hf, he, if_false]

theorem performCommand_retry {h : Nat} {t : Task} (hop : cmdOp k = 5) (he : s.engineBy c (cmdArg k) = none)
    (hl : s.loaderBy c (cmdArg k) = none) (hs : s.smallestBy c (cmdArg k) = some (h, t)) :
    s.performCommand c k = ((s.newAllowance h (cmdTexp k)).requeue h).endCommand k 0 := by
  simp only [performCommand, recordCommand, hop, hseq, hf, he, hl, hs, if_false]

end

end

end State

/-- The instructions of the record commands are accepted in READY. -/
theorem exec_recordCommand {k : CmdWords} {i : Instr} (s : State)
    (hi : (cmdOp k, i) ∈ [(1, Instr.resume k), (2, .abort k), (3, .kill k), (4, .skip k), (5, .retry k)]) :
    exec i s = .next (s.whenReady fun s => s.acceptCommand k) := by
  simp only [List.mem_cons, Prod.mk.injEq, List.not_mem_nil, or_false] at hi
  obtain ⟨hop, rfl⟩ | ⟨hop, rfl⟩ | ⟨hop, rfl⟩ | ⟨hop, rfl⟩ | ⟨hop, rfl⟩ := hi <;> exact congrArg Host.Outcome.next (if_pos hop)

/-- Settles O50: a command that waits for none is performed at once on the record that it names: a frozen region's, an engine's, or that of a
SMALLEST task. -/
theorem recordCommands : Obligations.RecordCommands := by
  intro s k i hi c seq s₀ acting
  have hexec := exec_recordCommand s (List.contains_iff_mem.1 hi)
  refine ⟨fun hb => ?_, fun hb hbad => ?_, fun hb hbad hs => ?_, fun hb hbad hs hq hc hl hseq => ?_⟩
  · rw [hexec, State.whenReady_of_notReady hb]
  · rw [hexec, State.whenReady_of_ready hb, State.acceptCommand_of_bad hbad]
  · rw [hexec, State.whenReady_of_ready hb, State.acceptCommand_of_inactive hbad hs]
  have hperform : exec i s = .next (s₀.performCommand c k) := by
    rw [hexec, State.whenReady_of_ready hb, State.acceptCommand_of_awaits ⟨hbad, hl, hs, hq, hc⟩]
    rfl
  rw [hperform]
  refine ⟨fun r g hf => ⟨fun x hop hx ht => ⟨fun he => ?_, fun he => ?_⟩, fun hop hirr => ?_, fun hop hirr => ?_, fun hop => ?_⟩,
    fun d e hf he hop => ?_, fun h t hf he hl hsm hop => ?_⟩
  · rw [State.performCommand_resume hseq hf hop hx ht, if_pos he]
  · rw [State.performCommand_resume hseq hf hop hx ht, if_neg he]
  · rw [State.performCommand_abort hseq hf hop, if_pos hirr]
  · rw [State.performCommand_abort hseq hf hop, if_neg (Bool.eq_false_iff.1 hirr)]
  · rw [State.performCommand_kill hseq hf hop]
  · rw [State.performCommand_skip hseq hf hop he]
  · rw [State.performCommand_retry hseq hf hop he hl hsm]

end Sys2Proof.Machine
end

section
namespace Sys2Proof.Machine

/-! ### What drains and the stop wave leave of the regions (R40, R386) -/

namespace State

section
variable {s : State} {r q : Nat} {g : Region}

theorem region?_onRegion_of_ne (f : Region → Region) (h : r ≠ q) : (s.onRegion r f).region? q = s.region? q := by
  unfold onRegion
  split
  · exact region?_setRegion_of_ne h ..
  · rfl

theorem samePlaces_unreserve (s : State) (buf : List HeldStore) : s.SamePlaces (s.unreserve buf) := by
  refine buf.foldlRecOn _ (SamePlaces.refl s) fun t ht x _ => ht.trans ?_
  split
  · split
    · exact samePlaces_mirror ..
    · exact .refl t
  · exact .refl t

theorem region?_discard_of_ne (h : r ≠ q) : (s.discard r).region? q = s.region? q := by
  unfold discard
  split
  · rfl
  next g _ => exact (region?_setRegion_of_ne h ..).trans ((s.samePlaces_unreserve g.buffer).region? q)

theorem region?_discard (h : s.region? r = some g) : ∃ g', (s.discard r).region? r = some g' := by
  simp only [discard, h]
  exact ⟨_, region?_setRegion ..⟩

theorem regions_measureDrain (s : State) : s.measureDrain.regions = s.regions := by
  unfold measureDrain
  split <;> rfl

theorem region?_drained (l : List Nat) (s : State) :
    ((l.foldl (fun s t => s.onTile t Tile.toDrain) s).measureDrain).region? q = s.region? q := by
  rw [region?, regions_measureDrain]
  exact (keepsRegions_foldl (fun _ _ => keepsRegions_onTile ..) l).region? q

theorem region?_drain_of_ne (why : Drain) (h : r ≠ q) : (s.drain r why).region? q = s.region? q := by
  unfold drain
  split
  · rfl
  · exact (region?_onRegion_of_ne _ h).trans ((region?_drained ..).trans (region?_discard_of_ne h))

theorem region?_drain (why : Drain) (h : s.region? r = some g) :
    ∃ g', (s.drain r why).region? r = some g' ∧ g'.drain = some why ∧ g'.stopped = true := by
  obtain ⟨g₁, hg⟩ := region?_discard h
  simp only [drain, h]
  exact ⟨_, region?_onRegion ((region?_drained ..).trans hg) _, rfl, rfl⟩

theorem region?_discardShadow_of_ne (phase : LoadPhase) (due : Nat) (h : r ≠ q) : (s.discardShadow r phase due).region? q = s.region? q := by
  unfold discardShadow
  split
  · rfl
  · exact (region?_setRegion_of_ne h ..).trans ((keepsRegions_onTiles ..).region? q)

theorem region?_discardShadow (phase : LoadPhase) (due : Nat) (h : s.region? r = some g) :
    ∃ g', (s.discardShadow r phase due).region? r = some g' := by
  simp only [discardShadow, h]
  exact ⟨_, region?_setRegion ..⟩

theorem region?_stopWave_of_ne (h : r ≠ q) : (s.stopWave r).region? q = s.region? q := by
  unfold stopWave
  split
  · rfl
  · refine (region?_onRegion_of_ne _ h).trans ?_
    split
    · exact region?_discardShadow_of_ne _ _ h
    · rfl

theorem region?_stopWave (h : s.region? r = some g) : ∃ g', (s.stopWave r).region? r = some g' ∧ g'.frozen = true ∧ g'.stopWave = true := by
  simp only [stopWave, h]
  split
  · obtain ⟨g₁, hg⟩ := region?_discardShadow .idle 0 h
    exact ⟨_, region?_onRegion hg _, rfl, rfl⟩
  · exact ⟨_, region?_onRegion h _, rfl, rfl⟩

theorem sameContexts_onTiles (s : State) (g : Region) (f : Nat → Nat → Tile → Tile) : s.SameContexts (s.onTiles g f) :=
  sameContexts_foldl (fun s _ => sameContexts_foldl (fun s _ => s.sameContexts_onTile _ _) _ s) _ s

theorem sameContexts_discardShadow (s : State) (r : Nat) (phase : LoadPhase) (due : Nat) : s.SameContexts (s.discardShadow r phase due) := by
  unfold discardShadow
  split
  · exact .refl s
  · exact (s.sameContexts_onTiles _ _).trans ⟨rfl, rfl, rfl⟩

theorem sameContexts_stopWave (s : State) (r : Nat) : s.SameContexts (s.stopWave r) := by
  unfold stopWave
  split
  · exact .refl s
  · exact (sameContexts_ite (s.sameContexts_discardShadow r .idle 0) (.refl s)).trans (sameContexts_onRegion ..)

end

/-! #### One region after another -/

section
variable {f : State → Nat → State} {s : State} {q : Nat} {l : List Nat} (hne : ∀ (s : State) r q, r ≠ q → (f s r).region? q = s.region? q)
include hne

theorem region?_foldl_of_not_mem (hq : q ∉ l) : (l.foldl f s).region? q = s.region? q :=
  l.foldlRecOn f (motive := fun v => v.region? q = s.region? q) rfl fun v hv r hr =>
    (hne v r q fun e => hq (e ▸ hr)).trans hv

/-- What an operation brings about in its region, and every other leaves, holds of a region once its turn has come. -/
theorem region?_foldl_of_mem {P : Region → Prop} (hP : ∀ (s : State) r g, s.region? r = some g → ∃ g', (f s r).region? r = some g' ∧ P g')
    (hn : l.Nodup) (hq : q ∈ l) {g : Region} (h : s.region? q = some g) : ∃ g', (l.foldl f s).region? q = some g' ∧ P g' := by
  induction l generalizing s g with
  | nil => cases hq
  | cons r l ih =>
    obtain ⟨hr, hl⟩ := List.nodup_cons.1 hn
    by_cases e : r = q
    · subst e
      obtain ⟨g', hg', hPg⟩ := hP s r g h
      exact ⟨g', (region?_foldl_of_not_mem hne hr).trans hg', hPg⟩
    · exact ih hl ((List.mem_cons.1 hq).resolve_left (Ne.symm e)) ((hne s r q e).trans h)

end

end State

end Sys2Proof.Machine
end

section
namespace Sys2Proof.Machine

/-! ### Pre-emption (R385, R386) -/

theorem tabGet_of_mem {α : Type} {k : Nat} {a : α} {t : Tab α} (hn : (t.map Prod.fst).Nodup) (h : (k, a) ∈ t) : tabGet k t = some a := by
  induction t with
  | nil => cases h
  | cons p t ih =>
    obtain ⟨hp, hn⟩ := List.nodup_cons.1 hn
    obtain rfl | h := List.mem_cons.1 h
    · exact if_pos rfl
    · have hk : p.1 ≠ k := fun e => hp (e ▸ List.mem_map_of_mem (f := Prod.fst) h)
      exact (if_neg hk).trans (ih hn h)

namespace State

section
variable {s : State} {c : Nat} {k : CmdWords}

/-- A region stands in a list of regions that a test picks exactly when the test picks it. -/
theorem mem_picked_iff (hn : (s.regions.map Prod.fst).Nodup) {r : Nat} {g : Region} (h : s.region? r = some g) (p : Nat × Region → Bool) :
    r ∈ (s.regions.filter p).map Prod.fst ↔ p (r, g) = true := by
  refine ⟨fun hr => ?_, fun hp => List.mem_map.2 ⟨(r, g), List.mem_filter.2 ⟨mem_of_tabGet h, hp⟩, rfl⟩⟩
  obtain ⟨⟨r', g'⟩, hm, rfl⟩ := List.mem_map.1 hr
  obtain ⟨hm, hp⟩ := List.mem_filter.1 hm
  rwa [← Option.some.inj ((tabGet_of_mem hn hm).symm.trans h)]

theorem nodup_picked (hn : (s.regions.map Prod.fst).Nodup) (p : Nat × Region → Bool) : ((s.regions.filter p).map Prod.fst).Nodup :=
  hn.sublist ((List.filter_sublist ..).map _)

/-- Issue stops on the dies of a pre-emption, which is in progress. -/
def preempting (s : State) (c : Nat) (k : CmdWords) : State := s.onCtx c fun C => { C with
  stop := C.stop ||| BitVec.ofNat 4 (cmdDies k)
  preempt := some k
  saving := 2 ^ 16
  nsaved := 0 }

/-- The regions that a pre-emption finds on its dies. -/
def preempted (c : Nat) (k : CmdWords) (g : Region) : Bool := g.ctx == c && bit (cmdDies k) g.die && g.drain.isNone

theorem startPreempt_boundary (h : cmdGrade k = 1) : s.startPreempt c k = s.preempting c k := by
  simp only [startPreempt, h]
  rfl

theorem startPreempt_abort (h : cmdGrade k = 2) : s.startPreempt c k
    = ((s.regions.filter fun q => !s.irrevocable q.2 && preempted c k q.2).map Prod.fst).foldl (fun s r => s.drain r .abort)
      (s.preempting c k) := by
  rw [List.foldl_map, ← List.filter_filter]
  simp only [startPreempt, h]
  rfl

theorem startPreempt_freeze (h : cmdGrade k = 3) : s.startPreempt c k
    = ((s.regions.filter fun q => preempted c k q.2).map Prod.fst).foldl stopWave ((s.preempting c k).zeroRange (cmdArea k) (2 ^ 16)) := by
  rw [List.foldl_map]
  simp only [startPreempt, h]
  rfl

/-- What a pre-emption leaves of its context, and of the regions that it does not find on its dies. -/
theorem sameContexts_startPreempt (hg : cmdGrade k = 1 ∨ cmdGrade k = 2 ∨ cmdGrade k = 3) :
    (s.preempting c k).SameContexts (s.startPreempt c k) := by
  obtain h | h | h := hg
  · rw [startPreempt_boundary h]
    exact .refl _
  · rw [startPreempt_abort h]
    exact sameContexts_foldl (fun s r => s.sameContexts_drain r .abort) _ _
  · rw [startPreempt_freeze h]
    have hzero : (s.preempting c k).SameContexts ((s.preempting c k).zeroRange (cmdArea k) (2 ^ 16)) := ⟨rfl, rfl, rfl⟩
    exact hzero.trans (sameContexts_foldl (fun s r => s.sameContexts_stopWave r) _ _)

section
variable (hn : (s.regions.map Prod.fst).Nodup) {r : Nat} {g : Region} (hr : s.region? r = some g)
include hn hr

theorem region?_startPreempt_of_elsewhere (hg : cmdGrade k = 1 ∨ cmdGrade k = 2 ∨ cmdGrade k = 3) (h : preempted c k g = false) :
    (s.startPreempt c k).region? r = some g := by
  obtain hk | hk | hk := hg
  · rwa [startPreempt_boundary hk]
  · rw [startPreempt_abort hk]
    exact (region?_foldl_of_not_mem (fun _ _ _ => region?_drain_of_ne .abort) (by rw [mem_picked_iff hn hr]; simp [h])).trans hr
  · rw [startPreempt_freeze hk]
    exact (region?_foldl_of_not_mem (fun _ _ _ => region?_stopWave_of_ne) (by rw [mem_picked_iff hn hr]; simp [h])).trans hr

theorem region?_startPreempt_of_irrevocable (hk : cmdGrade k = 2) (hi : s.irrevocable g = true) : (s.startPreempt c k).region? r = some g := by
  rw [startPreempt_abort hk]
  exact (region?_foldl_of_not_mem (fun _ _ _ => region?_drain_of_ne .abort) (by rw [mem_picked_iff hn hr]; simp [hi])).trans hr

theorem region?_startPreempt_of_aborted (hk : cmdGrade k = 2) (h : preempted c k g = true) (hi : s.irrevocable g = false) :
    ∃ g', (s.startPreempt c k).region? r = some g' ∧ g'.drain = some .abort ∧ g'.stopped = true := by
  rw [startPreempt_abort hk]
  exact region?_foldl_of_mem (fun _ _ _ => region?_drain_of_ne .abort) (fun _ _ _ => region?_drain .abort) (nodup_picked hn _)
    ((mem_picked_iff hn hr _).2 (by simp [h, hi])) hr

theorem region?_startPreempt_of_frozen (hk : cmdGrade k = 3) (h : preempted c k g = true) :
    ∃ g', (s.startPreempt c k).region? r = some g' ∧ g'.frozen = true ∧ g'.stopWave = true := by
  rw [startPreempt_freeze hk]
  exact region?_foldl_of_mem (fun _ _ _ => region?_stopWave_of_ne) (fun _ _ _ => region?_stopWave) (nodup_picked hn _)
    ((mem_picked_iff hn hr _).2 h) hr

end

end

/-! ### RESUMECTX (R388) -/

section
variable {s : State} {c : Nat} {k : CmdWords}

/-- The restore of a context begins, its directory read as it stands in a state before; the entries are read afterwards. -/
def restoring (s u : State) (c : Nat) (k : CmdWords) : State :=
  let n := if cmdArea k = 0 ∨ s.spoiled (cmdArea k) 65536 = true then 0 else min 4092 (s.memWord (cmdArea k) % 2 ^ 32)
  u.onCtx c fun C => { C with
    restoring := some k
    restore := (List.range n).map fun i => u.memWord (cmdArea k + 64 + 16 * i) % 2 ^ 40
    badsave := s.spoiled (cmdArea k) 65536 }

theorem startRestore_eq (s : State) (c : Nat) (k : CmdWords) : s.startRestore c k = s.restoring
    ((s.regions.filter fun q => q.2.ctx == c && q.2.stopWave && !q.2.moving).foldl (fun s q => s.goOn q.1) s) c k := by
  simp only [startRestore, restoring, Bool.or_eq_true, decide_eq_true_eq]

end

/-! ### The end of a command and of a pre-emption (R382, R385, R387) -/

section
variable {s : State}

theorem sameContexts_finish (s : State) (t op v : Nat) : s.SameContexts (s.finish t op v) := by
  unfold finish
  extract_lets u
  have hu : s.SameContexts u := s.sameContexts_onTile t _
  split
  · split
    · exact hu.trans (sameContexts_ite ⟨rfl, rfl, rfl⟩ (.refl u))
    · exact hu
  · exact hu

theorem sameContexts_wakeArmed (s : State) (pa : Nat) : s.SameContexts (s.wakeArmed pa) := by
  unfold wakeArmed
  extract_lets met
  have hdrop : s.SameContexts { s with armed := s.armed.filter fun a => !met a } := ⟨rfl, rfl, rfl⟩
  exact hdrop.trans (sameContexts_foldl (fun s _ => s.sameContexts_finish ..) _ _)

theorem sameContexts_syncWrite (s : State) (pa width v : Nat) : s.SameContexts (s.syncWrite pa width v) :=
  (s.sameContexts_homeWrite (cellsAt pa (bytesOf (width / 8) v))).trans (sameContexts_wakeArmed _ pa)

theorem sameContexts_endCommand (s : State) (k : CmdWords) (status : Nat) : s.SameContexts (s.endCommand k status) :=
  sameContexts_ite (.refl s) (s.sameContexts_syncWrite ..)

end

section
variable {s : State} {c : Nat} {k : CmdWords}

/-- A slot with a pre-emption in progress is one of the package's. -/
theorem lt_of_preempt (hp : (s.ctx c).preempt = some k) : c < s.ctxs.length := by
  by_contra h
  rw [ctx, List.getD_eq_default _ _ (Nat.not_lt.1 h)] at hp
  cases hp

/-- A pre-emption has ended: the commands behind it follow, or, in a removal, the regions are drained (R385, R392). -/
def finishPreempt (s : State) (c : Nat) (k : CmdWords) (status : Nat) : State :=
  let u := (s.onCtx c fun C => { C with preempt := none }).endCommand k status
  if (u.ctx c).state = 2 then u.drainContext c 0 else u.nextCommands c

theorem finishPreempt_of_active (h1 : (s.ctx c).state = 1) (hp : (s.ctx c).preempt = some k) (status : Nat) :
    s.finishPreempt c k status = ((s.onCtx c fun C => { C with preempt := none }).endCommand k status).nextCommands c := by
  refine if_neg ?_
  rw [(sameContexts_endCommand ..).ctx, ctx_onCtx _ _ (lt_of_preempt hp)]
  exact fun h2 => absurd (h1.symm.trans h2) (by decide)

/-- The regions that a pre-emption waits for. -/
def leftOn (s : State) (c : Nat) (k : CmdWords) : List (Nat × Region) := s.regions.filter fun q => q.2.ctx == c && bit (cmdDies k) q.2.die

end

end State

section
variable {s : State} {c : Nat} {k : CmdWords}

theorem exec_preemptEnd_of_none (hp : (s.ctx c).preempt = none) : exec (.preemptEnd c) s = .next (s.nextCommands c) := by
  change execPreemptEnd c s = _
  simp only [execPreemptEnd, hp]

variable (hp : (s.ctx c).preempt = some k)
include hp

theorem exec_preemptEnd_of_some : exec (.preemptEnd c) s = .next (if cmdGrade k = 3 then
      if (s.leftOn c k).any fun q => q.2.drain.isSome || q.2.moving || s.saveFits c k q.2 then s
      else (s.memSet (cellsAt (cmdArea k) (bytesOf 8 (s.ctx c).nsaved))).finishPreempt c k (if s.leftOn c k = [] then 0 else 3)
    else if s.leftOn c k = [] then s.finishPreempt c k 0 else s) := by
  simp only [← List.isEmpty_iff]
  change execPreemptEnd c s = _
  simp only [execPreemptEnd, hp]
  rfl

/-- A pre-emption that saves nothing waits for the last region on its dies. -/
theorem exec_preemptEnd_of_left (hg : cmdGrade k ≠ 3) (hl : s.leftOn c k ≠ []) : exec (.preemptEnd c) s = .next s := by
  rw [exec_preemptEnd_of_some hp, if_neg hg, if_neg hl]

variable (h1 : (s.ctx c).state = 1)
include h1

theorem exec_preemptEnd_of_released (hg : cmdGrade k ≠ 3) (hl : s.leftOn c k = []) : exec (.preemptEnd c) s
    = .next (((s.onCtx c fun C => { C with preempt := none }).endCommand k 0).nextCommands c) := by
  rw [exec_preemptEnd_of_some hp, if_neg hg, if_pos hl, State.finishPreempt_of_active h1 hp]

/-- A freeze-save ends when none of the regions that are left is drained, moves or fits. -/
theorem exec_preemptEnd_of_saved (hg : cmdGrade k = 3)
    (h : ∀ q ∈ s.leftOn c k, q.2.drain = none ∧ q.2.moving = false ∧ s.saveFits c k q.2 = false) : exec (.preemptEnd c) s
      = .next ((((s.memSet (cellsAt (cmdArea k) (bytesOf 8 (s.ctx c).nsaved))).onCtx c fun C => { C with preempt := none }).endCommand k
        (if s.leftOn c k = [] then 0 else 3)).nextCommands c) := by
  have hnone : ((s.leftOn c k).any fun q => q.2.drain.isSome || q.2.moving || s.saveFits c k q.2) = false :=
    List.any_eq_false.2 fun q hq => by
      obtain ⟨hd, hm, hf⟩ := h q hq
      simp [hd, hm, hf]
  rw [exec_preemptEnd_of_some hp, if_pos hg, if_neg (Bool.eq_false_iff.1 hnone)]
  exact congrArg Host.Outcome.next (State.finishPreempt_of_active (s := s.memSet _) h1 hp _)

end

end Sys2Proof.Machine
end

section
namespace Sys2Proof.Machine

/-! ### The save of a region (R387) -/

theorem Region.length_tiles (g : Region) : g.tiles.length = g.w * g.h := by
  simp [Region.tiles, List.length_flatMap, Nat.mul_comm]

namespace State

section
variable {s : State} {r : Nat} {g : Region}

/-- A region as it is saved: what the scan-out finds in error is zero, the return queues are given up, and results that have come stand in the
registers. -/
def settled (s : State) (r : Nat) (g : Region) : State :=
  g.tiles.foldl (fun v t => v.onTile t settleTile) ((s.scrubRegion r g).takeBack g)

theorem keepsRegions_takeBack (g : Region) : s.keepsRegions (s.takeBack g) :=
  .trans (keepsRegions_foldl (fun _ _ => keepsRegions_onTile ..) _) ⟨rfl, rfl⟩

/-- The scan-out of a region adds to its marks alone. -/
theorem region?_scrubRegion (h : s.region? r = some g) : ∃ ms, (s.scrubRegion r g).region? r = some { g with marks := ms } := by
  refine g.tiles.foldlRecOn _ (motive := fun v : State => ∃ ms, v.region? r = some { g with marks := ms }) ⟨_, h⟩ fun v hv t _ => ?_
  obtain ⟨ms, hv⟩ := hv
  split
  · exact ⟨ms, hv⟩
  · exact ⟨_, region?_onRegion (s := v.onTile t _) hv _⟩

theorem region?_settled (h : s.region? r = some g) : ∃ ms, (s.settled r g).region? r = some { g with marks := ms } := by
  obtain ⟨ms, hs⟩ := region?_scrubRegion h
  have hkept := (keepsRegions_takeBack (s := s.scrubRegion r g) g).trans (keepsRegions_foldl (fun _ t => keepsRegions_onTile t settleTile) g.tiles)
  exact ⟨ms, (hkept.region? r).trans hs⟩

theorem sameContexts_settled (s : State) (r : Nat) (g : Region) : s.SameContexts (s.settled r g) := by
  have hscrub : s.SameContexts (s.scrubRegion r g) := sameContexts_foldl (fun v t => by
    split
    · exact .refl v
    · exact (v.sameContexts_onTile t _).trans (sameContexts_onRegion ..)) _ _
  have hback : (s.scrubRegion r g).SameContexts ((s.scrubRegion r g).takeBack g) :=
    .trans (sameContexts_foldl (fun v e => v.sameContexts_onTile ..) _ _) ⟨rfl, rfl, rfl⟩
  exact (hscrub.trans hback).trans (sameContexts_foldl (fun v t => v.sameContexts_onTile t settleTile) _ _)

theorem SameContexts.of_snd {α : Type} {p : α × State} {a : α} {t : State} (h : s.SameContexts p.2) (e : p = (a, t)) : s.SameContexts t := by
  subst e
  exact h

theorem sameContexts_tileImage (s : State) (scr : Nat) (T : Tile) : s.SameContexts (s.tileImage scr T).2 := by
  unfold tileImage
  extract_lets +onlyGivenNames own
  have hown : ∀ n some' (u : State), s.SameContexts u → s.SameContexts (own n some' u).2 := fun n some' u hu => by
    unfold own
    split
    · exact hu.trans ⟨rfl, rfl, rfl⟩
    · exact hu
  have hheader : s.SameContexts (s.ownBytes 0x100).2 := ⟨rfl, rfl, rfl⟩
  exact hown _ _ _ (hown _ _ _ (hown _ _ _ (hown _ _ _ hheader)))

theorem sameContexts_tileImages (s : State) (scr : Nat) (ts : List Tile) : s.SameContexts (s.tileImages scr ts).2 := by
  induction ts generalizing s with
  | nil => exact .refl s
  | cons T ts ih =>
    unfold tileImages
    split
    next u e =>
      have hu := (s.sameContexts_tileImage scr T).of_snd e
      split
      next w e => exact hu.trans ((ih u).of_snd e)

theorem sameContexts_writeArea (s : State) (g : Region) (base : Nat) : s.SameContexts (s.writeArea g base) := by
  have hsigs : s.SameContexts (s.ownBytes 512).2 := ⟨rfl, rfl, rfl⟩
  exact (hsigs.trans (sameContexts_tileImages _ g.scr _)).trans ⟨rfl, rfl, rfl⟩

theorem region?_releaseRegion (s : State) (r : Nat) : (s.releaseRegion r).region? r = none := by
  unfold releaseRegion
  split
  · assumption
  · exact (tabGet_tabErase ..).trans (if_pos rfl)

theorem mem_foldl_onTile (f : State → Nat → Tile → Tile) (l : List Nat) (s : State) : (l.foldl (fun v t => v.onTile t (f v t)) s).mem = s.mem :=
  l.foldlRecOn _ (motive := fun v : State => v.mem = s.mem) rfl fun _ hv _ _ => hv

theorem mem_releaseRegion (s : State) (r : Nat) : (s.releaseRegion r).mem = s.mem := by
  unfold releaseRegion
  split
  · rfl
  next g _ => exact (mem_foldl_onTile (fun _ _ T => { T with region := none }) ..).trans (mem_foldl_onTile (fun v t T => T.clear (v.gsrOf g t)) ..)

theorem sameContexts_releaseRegion (s : State) (r : Nat) : s.SameContexts (s.releaseRegion r) := by
  unfold releaseRegion
  split
  · exact .refl s
  next g _ =>
    have hcancel : s.SameContexts (s.cancelOps g) := ⟨rfl, rfl, rfl⟩
    have hclear := hcancel.trans (sameContexts_foldl (fun v t => v.sameContexts_onTile t fun T => T.clear (v.gsrOf g t)) g.tiles _)
    exact (hclear.trans (sameContexts_foldl (fun v t => v.sameContexts_onTile t _) _ _)).trans ⟨rfl, rfl, rfl⟩

/-- A task that waits for its restore leaves its queue; regions, memory and contexts stay. -/
theorem unqueue_onTask_frame (s : State) (d h : Nat) (f : Task → Task) :
    ((s.onTask h f).unqueue d h).regions = s.regions ∧ ((s.onTask h f).unqueue d h).mem = s.mem ∧ s.SameContexts ((s.onTask h f).unqueue d h) :=
  ⟨onTask_regions .., onTask_mem .., onTask_ctxs .., onTask_launches .., onTask_saved ..⟩

/-- A saved region is written to its place, leaves the regions, and is kept to be restored; the contexts stay. -/
theorem saveRegion_parts (h : s.region? r = some g) (hm : g.moving = false) (base : Nat) :
    (s.saveRegion r g base).ctxs = s.ctxs ∧ (s.saveRegion r g base).region? r = none
      ∧ (s.saveRegion r g base).mem = ((s.settled r g).writeArea (((s.settled r g).region? r).getD g) base).mem
      ∧ ∃ x, (s.saveRegion r g base).saved = s.saved ++ [x] ∧ x.num = r ∧ x.ctx = g.ctx ∧ x.area = base ∧ x.region.task = g.task
        ∧ x.tiles.length = g.w * g.h := by
  obtain ⟨ms, hg⟩ := region?_settled h
  have hsettled := s.sameContexts_settled r g
  unfold saveRegion
  extract_lets u g' place _ loader kept x w w' d v
  have hg' : g' = { g with marks := ms } := congrArg (Option.getD · g) hg
  have hw : w = u.writeArea g' base := if_neg (by rw [hg']; exact Bool.eq_false_iff.1 hm)
  have hwritten : s.SameContexts w := hw ▸ hsettled.trans (u.sameContexts_writeArea g' base)
  have hreleased : w'.SameContexts v := w'.sameContexts_releaseRegion r
  obtain ⟨hregions, hmem, hsame⟩ := v.unqueue_onTask_frame d g'.task fun k => { k with phase := .saved, reserved := false }
  refine ⟨?_, ?_, ?_, x, ?_, rfl, (congrArg Region.ctx hg').trans rfl, rfl, (congrArg Region.task hg').trans rfl, ?_⟩
  · exact hsame.ctxs.trans (hreleased.ctxs.trans hwritten.ctxs)
  · exact (congrArg (tabGet r) hregions).trans (region?_releaseRegion w' r)
  · exact (hmem.trans (mem_releaseRegion w' r)).trans (hw ▸ rfl)
  · exact hsame.saved.trans (hreleased.saved.trans (congrArg (· ++ [x]) hwritten.saved))
  · exact (List.length_map ..).trans ((Region.length_tiles g').trans (by rw [hg']))

end

end State

section
variable {s : State} {r : Nat} {g : Region} (hr : s.region? r = some g) (hs : s.saveReady g = true)
include hr hs

theorem exec_saveComplete_of_moving (hm : g.moving = true) : exec (.saveComplete r) s = .next (s.saveRegion r g 0) := by
  change execSaveComplete r s = _
  simp only [execSaveComplete, hr, hs, hm, Bool.not_true, Bool.false_eq_true, if_false, if_true]

/-- The only region on the dies of a freeze-save is saved at the next place of the area, with its entry of the directory. -/
theorem exec_saveComplete_of_turn {c : Nat} {k : CmdWords} (hm : g.moving = false) (hc : g.ctx = c) (hp : (s.ctx c).preempt = some k)
    (hg : cmdGrade k = 3) (hd : bit (cmdDies k) g.die = true) (hf : s.saveFits c k g = true) (ho : s.onDies c (cmdDies k) = [(r, g)])
    (h1 : (s.ctx c).state = 1) :
    exec (.saveComplete r) s = .next (((s.saveRegion r g (cmdArea k + (s.ctx c).saving)).memSet
      (cellsAt (cmdArea k + 64 + 16 * (s.ctx c).nsaved) (bytesOf 8 ((s.ctx c).saving + 2 ^ 40 * g.die)
        ++ bytesOf 8 (g.ox + 2 ^ 8 * g.oy + 2 ^ 16 * g.w + 2 ^ 24 * g.h)))).onCtx c fun C => { C with
          saving := (s.ctx c).saving + saveSize g
          nsaved := (s.ctx c).nsaved + 1 }) := by
  have hctxs := (State.saveRegion_parts hr hm (cmdArea k + (s.ctx c).saving)).1
  have hactive : ¬ ((s.saveRegion r g (cmdArea k + (s.ctx c).saving)).ctx c).state = 2 := by
    rw [State.ctx, hctxs]
    exact fun h2 => absurd (h1.symm.trans h2) (by decide)
  change execSaveComplete r s = _
  simp only [execSaveComplete, hr, hs, hm, hc, hp, hg, hd, hf, ho, hactive, List.all_cons, List.all_nil, beq_self_eq_true, bne_self_eq_false,
    Bool.true_or, Bool.and_true, Bool.not_true, Bool.or_false, Bool.false_eq_true, if_false]

end

/-! ### The restore of regions (R388) -/

section
variable {s : State} {c : Nat}

/-- A region that moves off a fenced tile goes on by itself, where there is room (R71). -/
theorem exec_regionRestore_of_moving {x : Saved} {d ox oy : Nat}
    (hx : (s.saved.find? fun x => x.ctx == c && x.region.moving && (s.restorePlace x.region).isSome) = some x)
    (hp : s.restorePlace x.region = some (d, ox, oy)) : exec (.regionRestore c) s = .next (s.restoreRegion x d ox oy) := by
  change execRegionRestore c s = _
  simp only [execRegionRestore, hx, hp]

section
variable {k : CmdWords} (hx : (s.saved.find? fun x => x.ctx == c && x.region.moving && (s.restorePlace x.region).isSome) = none)
  (hk : (s.ctx c).restoring = some k)
include hx hk

theorem exec_regionRestore_of_last (hl : (s.ctx c).restore = []) : exec (.regionRestore c) s = .next (State.nextCommands
    ((s.onCtx c fun C => { C with restoring := none, stop := 0 }).endCommand k (if (s.ctx c).badsave then 4 else 0)) c) := by
  change execRegionRestore c s = _
  simp only [execRegionRestore, hx, hk, hl]

variable {off : Nat} {rest : List Nat} (hl : (s.ctx c).restore = off :: rest)
include hl

/-- An entry that names no good area is passed over, and noted. -/
theorem exec_regionRestore_of_bad (hb : s.savedAt c (cmdArea k + off) = none) :
    exec (.regionRestore c) s = .next (s.onCtx c fun C => { C with restore := rest, badsave := C.badsave || true }) := by
  change execRegionRestore c s = _
  simp only [execRegionRestore, hx, hk, hl, hb]

theorem exec_regionRestore_of_place {x : Saved} {d ox oy : Nat} (hs : s.savedAt c (cmdArea k + off) = some x)
    (hp : s.restorePlace x.region = some (d, ox, oy)) : exec (.regionRestore c) s
      = .next ((s.restoreRegion x d ox oy).onCtx c fun C => { C with restore := rest, badsave := C.badsave || false }) := by
  change execRegionRestore c s = _
  simp only [execRegionRestore, hx, hk, hl, hs, hp]

theorem exec_regionRestore_of_full {x : Saved} (hs : s.savedAt c (cmdArea k + off) = some x) (hp : s.restorePlace x.region = none) :
    exec (.regionRestore c) s = .next (s.reserveRestore x.region) := by
  change execRegionRestore c s = _
  simp only [execRegionRestore, hx, hk, hl, hs, hp]

end

end

/-! ### The instructions of pre-emption and restore -/

section
variable {s : State} {k : CmdWords}

theorem exec_preempt (hb : s.boot.bstate = 4) (hop : cmdOp k = 6) (hw : s.Awaits k) {i : Instr}
    (hi : (cmdGrade k, i) ∈ [(1, Instr.preemptBoundary k), (2, .preemptAbort k), (3, .preemptFreezeSave k)]) :
    exec i s = .next ((s.tookCommand k).startPreempt (cmdCtx k) k) := by
  have hstart : (if cmdOp k = 6 && cmdGrade k == cmdGrade k then s.whenReady fun s => s.acceptCommand k else s)
      = (s.tookCommand k).startPreempt (cmdCtx k) k := by
    rw [if_pos (by simp [hop]), State.whenReady_of_ready hb, State.acceptCommand_of_awaits hw]
    simp only [State.performCommand, hop]
  simp only [List.mem_cons, Prod.mk.injEq, List.not_mem_nil, or_false] at hi
  obtain ⟨hg, rfl⟩ | ⟨hg, rfl⟩ | ⟨hg, rfl⟩ := hi <;>
    exact congrArg Host.Outcome.next (hg ▸ hstart)

theorem exec_resumectx (hb : s.boot.bstate = 4) (hop : cmdOp k = 7) (hw : s.Awaits k) :
    exec (.resumectx k) s = .next ((s.tookCommand k).startRestore (cmdCtx k) k) := by
  refine congrArg Host.Outcome.next ((if_pos hop).trans ?_)
  rw [State.whenReady_of_ready hb, State.acceptCommand_of_awaits hw]
  simp only [State.performCommand, hop]

theorem grade_of_preempt {i : Instr} (hi : (cmdGrade k, i) ∈ [(1, Instr.preemptBoundary k), (2, .preemptAbort k), (3, .preemptFreezeSave k)]) :
    cmdGrade k = 1 ∨ cmdGrade k = 2 ∨ cmdGrade k = 3 := by
  simp only [List.mem_cons, Prod.mk.injEq, List.not_mem_nil, or_false] at hi
  omega

end

/-- Settles O51: a pre-emption by its grade and its turns, a save by what it leaves, and a restore by its directory. -/
theorem preemptAndRestore : Obligations.PreemptAndRestore := by
  intro s c
  refine ⟨fun k i hi hb hop hbad hk hl h1 hq hc hn => ?preempt, fun k hb hop hbad hk hl h1 hq hc => ?restore,
    exec_preemptEnd_of_none,
    fun k h1 hp => ⟨exec_preemptEnd_of_released hp h1, exec_preemptEnd_of_left hp, exec_preemptEnd_of_saved hp h1⟩,
    fun r g hr hs => ⟨exec_saveComplete_of_moving hr hs, fun k hm hc hl hp hg hd hf ho h1 => ?save⟩,
    fun hx k hk => ⟨exec_regionRestore_of_last hx hk, fun off rest x d ox oy hl hs hp => exec_regionRestore_of_place hx hk hl hs hp,
      fun off rest hl => ⟨exec_regionRestore_of_bad hx hk hl, fun x hs hp => exec_regionRestore_of_full hx hk hl hs hp⟩⟩,
    fun x d ox oy hx hp => exec_regionRestore_of_moving hx hp⟩
  case preempt =>
    subst hk
    have hw : s.Awaits k := ⟨hbad, hl, h1, hq, hc⟩
    have hi := List.contains_iff_mem.1 hi
    have hg := grade_of_preempt hi
    have hn : ((s.tookCommand k).regions.map Prod.fst).Nodup := hn
    refine ⟨_, exec_preempt hb hop hw hi, ?_, fun h => ?_, fun r g hr h => ?_,
      fun r g h hr ht => ⟨fun hirr => ?_, fun hirr => ?_⟩, fun r g h hr ht => ?_⟩
    · rw [(State.sameContexts_startPreempt hg).ctx, State.preempting, ctx_onCtx _ _ (State.slot_tookCommand hw), State.ctx_tookCommand hw]
    · rw [State.startPreempt_boundary h]
      exact ⟨rfl, rfl⟩
    · exact State.region?_startPreempt_of_elsewhere hn hr hg h
    · exact State.region?_startPreempt_of_irrevocable hn hr h hirr
    · exact State.region?_startPreempt_of_aborted hn hr h ht hirr
    · exact State.region?_startPreempt_of_frozen hn hr h ht
  case restore =>
    subst hk
    intro left lost n restoring
    have hw : s.Awaits k := ⟨hbad, hl, h1, hq, hc⟩
    have hexec : exec (.resumectx k) s
        = .next ((s.tookCommand k).restoring (left.foldl (fun s q => s.goOn q.1) (s.tookCommand k)) (cmdCtx k) k) := by
      rw [exec_resumectx hb hop hw, State.startRestore_eq]
      rfl
    refine ⟨fun he => ⟨(s.tookCommand k).restoring (s.tookCommand k) (cmdCtx k) k, hexec.trans (by rw [he]; rfl), rfl, ?_⟩,
      fun r g s₀ he hs₀ => ?_⟩
    · change _ = (s.restoring s (cmdCtx k) k).ctx (cmdCtx k)
      rw [State.restoring, State.restoring, ctx_onCtx _ _ (State.slot_tookCommand hw), ctx_onCtx _ _ hl, State.ctx_tookCommand hw]
      rfl
    · rw [hexec, he, hs₀]
      rfl
  case save =>
    intro base out u
    subst hc
    obtain ⟨-, hgone, hmem, hsaved⟩ := State.saveRegion_parts hr hm base
    exact ⟨exec_saveComplete_of_turn hr hs hm rfl hp hg hd hf ho h1, hgone, hmem, hsaved⟩

end Sys2Proof.Machine
end

section
namespace Sys2Proof.Machine

/-! ### Recovery and the ROM stage (R395 to R397) -/

/-- Nothing of the work of the contexts is left: no region, task or launch, and every context FREE (R396). -/
def State.Fresh (v : State) : Prop := v.regions = [] ∧ v.tasks = [] ∧ v.launches = [] ∧ ∀ c ∈ v.ctxs, c.state = 0

section
variable {s t : State}

theorem ctxs_reset_free : ∀ c ∈ State.reset.ctxs, c.state = 0 := by simp [State.reset, Ctx.reset]

theorem State.fresh_wipe (s : State) : s.wipe.Fresh := ⟨rfl, rfl, rfl, ctxs_reset_free⟩

theorem State.fresh_enterRecovery (s : State) (e : Nat) : (s.enterRecovery e).Fresh := s.fresh_wipe

/-- A die is left out of the boot. -/
def State.excludeDie (s : State) (d reason : Nat) : State := (s.onDie d fun D => { D with failed := true }).replacePart reason

theorem State.exclude_eq (s : State) (dies : BitVec 4) (reason : Nat) : s.exclude dies reason
    = ((List.range 4).filter fun d => dies.getLsbD d && !(s.die d).failed).foldl (fun s d => s.excludeDie d reason) s := rfl

/-- What the exclusions of a boot change: the dies that are left out have failed, and no other; the rest of the state but REPLACE and the
host's count of interrupts stays. -/
structure State.Excludes (s t : State) (out : Nat → Bool) : Prop where
  rest : ∃ dies fleet irqs, t = { s with dies := dies, fleet := fleet, host := { s.host with irqs := irqs } }
  count : t.dies.length = s.dies.length
  failed : ∀ d < s.dies.length, (t.die d).failed = ((s.die d).failed || out d)

theorem State.excludes_none (s : State) : s.Excludes s fun _ => false := ⟨⟨_, _, _, rfl⟩, rfl, fun _ _ => (Bool.or_false _).symm⟩

theorem State.excludes_one (s : State) (d reason : Nat) :
    s.Excludes (s.excludeDie d reason) (· == d) := by
  refine ⟨⟨_, _, _, rfl⟩, List.length_modify .., fun x hx => ?_⟩
  by_cases h : x = d
  · subst h
    have hdie := die_onDie s (fun D => { D with failed := true }) hx
    exact (congrArg Die.failed hdie).trans (by simp)
  · have hdie := die_onDie_of_ne s (fun D => { D with failed := true }) h
    exact (congrArg Die.failed hdie).trans (by simp [h])

theorem State.Excludes.trans {u : State} {p q : Nat → Bool} (h : s.Excludes t p) (h' : t.Excludes u q) : s.Excludes u fun d => p d || q d := by
  obtain ⟨⟨_, _, _, rfl⟩, hn, hf⟩ := h
  obtain ⟨⟨_, _, _, rfl⟩, hn', hf'⟩ := h'
  exact ⟨⟨_, _, _, rfl⟩, hn'.trans hn, fun d hd => by rw [hf' d (hn.symm ▸ hd), hf d hd, Bool.or_assoc]⟩

theorem State.excludes_foldl (reason : Nat) (ds : List Nat) (s : State) :
    s.Excludes (ds.foldl (fun s d => s.excludeDie d reason) s) ds.contains := by
  induction ds generalizing s with
  | nil => exact s.excludes_none
  | cons d ds ih =>
    have h := (s.excludes_one d reason).trans (ih _)
    exact ⟨h.rest, h.count, fun x hx => (h.failed x hx).trans (congrArg _ List.contains_cons.symm)⟩

/-- The dies of a mask have failed after their exclusion, and those that had failed before it. -/
theorem State.excludes_exclude (hd : s.dies.length = 4) (dies : BitVec 4) (reason : Nat) : s.Excludes (s.exclude dies reason) dies.getLsbD := by
  obtain ⟨hrest, hcount, hfailed⟩ := State.excludes_foldl reason ((List.range 4).filter fun d => dies.getLsbD d && !(s.die d).failed) s
  rw [State.exclude_eq]
  refine ⟨hrest, hcount, fun d h => (hfailed d h).trans ?_⟩
  have h4 : d < 4 := hd ▸ h
  cases hf : (s.die d).failed with
  | true => rfl
  | false => simp [hf, h4]

/-- With no die in the mask nothing is excluded. -/
theorem State.exclude_zero (s : State) (reason : Nat) : s.exclude 0 reason = s := rfl

theorem forall_getLsbD_iff (b : BitVec 4) : (∀ d < 4, b.getLsbD d = true) ↔ b = 0xF := by
  refine ⟨fun h => BitVec.eq_of_getLsbD_eq fun d hd => (h d hd).trans ?_, fun h d hd => ?_⟩
  · interval_cases d <;> rfl
  · subst h
    interval_cases d <;> rfl

end

/-! #### The stage -/

section
variable {s : State} (hd : s.dies.length = 4) (hf : ∀ d < 4, (s.die d).failed = false)

/-- The state as the ROM stage tests its controllers. -/
def State.testing (s : State) : State := { s with boot := { s.boot with
  bstate := 1
  live := 0
  measured := false
  m0 := extended 0 Config.romDigest
  m1 := 0
  m2 := 0
  m3 := 0 } }

theorem State.romStage_eq (s : State) (failed : BitVec 4) :
    s.romStage failed = if (s.testing.exclude failed 1).controllers.isEmpty then (s.testing.exclude failed 1).enterRecovery 1
      else s.testing.exclude failed 1 := rfl

include hd hf

/-- A controller is left unless every one has failed its self-test. -/
theorem controllers_testing (failed : BitVec 4) : (s.testing.exclude failed 1).controllers.isEmpty = true ↔ failed = 0xF := by
  have hx := State.excludes_exclude (s := s.testing) hd failed 1
  rw [← forall_getLsbD_iff, State.controllers, List.isEmpty_iff, List.filter_eq_nil_iff]
  simp only [List.mem_range, Bool.not_eq_true', Bool.not_eq_false]
  refine forall₂_congr fun d h => ?_
  rw [hx.failed d (hd.symm ▸ h), show (s.testing.die d).failed = false from hf d h, Bool.false_or]

/-- The ROM stage leaves ROM with no error, or RECOVERY with SELFTEST when no controller passes. -/
theorem State.romStage_parts (hfresh : s.Fresh) (failed : BitVec 4) :
    (s.romStage failed).Fresh ∧ (s.romStage failed).boot.live = 0 ∧ (s.romStage failed).boot.minseq = s.boot.minseq
      ∧ (s.romStage failed).boot.plim = s.boot.plim ∧ (s.romStage failed).host.herrV = s.host.herrV
      ∧ (failed ≠ 0xF → (s.romStage failed).boot.bstate = 1 ∧ (s.romStage failed).boot.berr = s.boot.berr)
      ∧ (failed = 0xF → (s.romStage failed).boot.bstate = 5 ∧ (s.romStage failed).boot.berr = 1) := by
  obtain ⟨dies, fleet, irqs, hrest⟩ := (State.excludes_exclude (s := s.testing) hd failed 1).rest
  rw [State.romStage_eq]
  by_cases h : failed = 0xF
  · rw [if_pos ((controllers_testing hd hf failed).2 h), hrest]
    exact ⟨State.fresh_enterRecovery .., rfl, rfl, rfl, rfl, fun hn => absurd h hn, fun _ => ⟨rfl, rfl⟩⟩
  · rw [if_neg (mt (controllers_testing hd hf failed).1 h), hrest]
    exact ⟨hfresh, rfl, rfl, rfl, rfl, fun _ => ⟨rfl, rfl⟩, fun he => absurd he h⟩

end

/-! #### Power-on and reset -/

section
variable {s : State}

/-- A die after a reset: its event counters keep their sources (R396, R417). -/
def Die.restarted (now : Nat) (D : Die) : Die :=
  { Die.reset with halveAt := now + 2 ^ 26, serviced := now, counters := D.counters.map fun c => (c.1, c.2.1, 0) }

/-- The state that a reset brings to the ROM stage. -/
def State.restarted (s : State) : State :=
  { s.wipe with
    tiles := []
    dies := s.wipe.dies.map (Die.restarted s.time)
    host := { s.wipe.host with herrV := false, herrSt := 0, herrAddr := 0 }
    boot := { Boot.reset with
      minseq := s.boot.minseq
      raises := s.boot.raises
      revoked := s.boot.revoked
      tripped := s.boot.tripped
      samples := s.boot.samples
      tjmax := s.boot.tjmax
      pavg := s.boot.pavg
      updateAt := s.time + 1800000 }
    fleet := Fleet.reset }

theorem State.resetTo_eq (s : State) (failed : BitVec 4) : s.resetTo failed = s.restarted.romStage failed := rfl

theorem failed_restarted (d : Nat) : (s.restarted.die d).failed = false := by
  simp only [State.die, State.restarted, List.getD_eq_getElem?_getD, List.getElem?_map]
  cases s.wipe.dies[d]? <;> rfl

theorem State.resetTo_parts (hd : s.dies.length = 4) (failed : BitVec 4) :
    (s.resetTo failed).Fresh ∧ (s.resetTo failed).boot.live = 0 ∧ (s.resetTo failed).boot.minseq = s.boot.minseq
      ∧ (s.resetTo failed).boot.plim = 3000 ∧ (s.resetTo failed).host.herrV = false
      ∧ (failed ≠ 0xF → (s.resetTo failed).boot.bstate = 1 ∧ (s.resetTo failed).boot.berr = 0)
      ∧ (failed = 0xF → (s.resetTo failed).boot.bstate = 5 ∧ (s.resetTo failed).boot.berr = 1) := by
  have hlen : s.restarted.dies.length = 4 := (List.length_map ..).trans ((List.length_map ..).trans hd)
  rw [State.resetTo_eq]
  exact State.romStage_parts hlen (fun d _ => failed_restarted d) s.fresh_wipe failed

end

end Sys2Proof.Machine
end

section
namespace Sys2Proof.Machine

/-! ### The fetch and the check of the image (R393 to R395) -/

section
variable {s : State}

theorem State.goNow_of_held (h : s.boot.tripped = true ∨ (s.boot.bstate ≠ 1 ∧ s.boot.bstate ≠ 5)) : s.goNow = s := by
  have h : (s.boot.tripped || !(decide (s.boot.bstate = 1) || decide (s.boot.bstate = 5))) = true := by simpa using h
  exact if_pos h

theorem controllers_map {f : Die → Die} (hf : ∀ D, (f D).failed = D.failed) (s : State) :
    State.controllers { s with dies := s.dies.map f } = s.controllers := by
  have hdie : ∀ d, ((s.dies.map f).getD d Die.reset).failed = (s.dies.getD d Die.reset).failed := fun d => by
    simp only [List.getD_eq_getElem?_getD, List.getElem?_map]
    cases s.dies[d]? with
    | none => rfl
    | some D => exact hf D
  simp only [State.controllers, State.die, hdie]

/-- The controllers start to read the image, unless the package is in RECOVERY. -/
def State.startFetch (s : State) : State :=
  let u : State := { s with
    dies := s.dies.map fun D => { D with image := none, refetched := false }
    boot := { s.boot with bstate := 2 }
    host := { s.host with asked := [] } }
  if s.boot.bstate = 5 then s else u.fetchImage u.controllers

theorem State.goNow_eq (s : State) : s.goNow = if s.boot.tripped || !(s.boot.bstate = 1 || s.boot.bstate = 5) then s
    else (if s.boot.bstate = 5 then s.draw.2.romStage (s.draw.1.setWidth 4) else s).startFetch := rfl

theorem State.goNow_of_rom (hb : s.boot.bstate = 1) (ht : s.boot.tripped = false) : s.goNow = s.startFetch := by
  rw [State.goNow_eq, if_neg (by simp [hb, ht]), if_neg (by simp [hb])]

/-- From RECOVERY, the ROM stage is made anew. -/
theorem State.goNow_of_recovery (hb : s.boot.bstate = 5) (ht : s.boot.tripped = false) :
    s.goNow = (s.draw.2.romStage (s.draw.1.setWidth 4)).startFetch := by
  rw [State.goNow_eq, if_neg (by simp [hb, ht]), if_pos hb]

theorem State.startFetch_of_rom (hb : s.boot.bstate = 1) : s.startFetch = { s with
    dies := s.dies.map fun D => { D with image := none, refetched := false }
    boot := { s.boot with bstate := 2 }
    host := { s.host with asked := s.controllers.map fun d => (d, s.boot.imgaddr.toNat, s.boot.imglen.toNat / 8) } } := by
  have hlist := controllers_map (f := fun D => { D with image := none, refetched := false }) (fun _ => rfl) s
  rw [← hlist]
  exact if_neg (by simp [hb])

/-! #### The copies of the image -/

theorem mem_insertOn {α : Type} {f : α → Nat} {a b : α} {l : List α} : b ∈ insertOn f a l ↔ b = a ∨ b ∈ l := by
  induction l with
  | nil => simp [insertOn]
  | cons c l ih =>
    unfold insertOn
    split
    · simp
    · simp only [List.mem_cons, ih, or_left_comm]

theorem mem_sortOn {α : Type} {f : α → Nat} {b : α} {l : List α} : b ∈ sortOn f l ↔ b ∈ l := by
  induction l with
  | nil => rfl
  | cons a l ih => simp only [sortOn, mem_insertOn, ih, List.mem_cons]

/-- The controllers' copies of the image. -/
def State.copies (s : State) : List (Nat × List Byte) := s.controllers.map fun d => (d, ((s.die d).image).getD [])

theorem exec_checkComplete_of_reading (hd : ∃ d ∈ s.controllers, (s.die d).image = none) : exec .checkComplete s = .next s := by
  have h : (s.boot.bstate != 2 || s.controllers.any fun d => (s.die d).image.isNone) = true := by simp [hd]
  exact congrArg Host.Outcome.next (if_pos h)

section
variable (hb : s.boot.bstate = 2) (hd : ∀ d ∈ s.controllers, (s.die d).image ≠ none)
include hb hd

theorem exec_checkComplete_of_read : exec .checkComplete s = .next
    (match sortOn id ((s.copies.map fun q => s.imageFailure q.2).filter (· != 0)) with
      | e :: _ => s.enterRecovery e
      | [] => s.compareCopies s.copies) := by
  have h : ¬ (s.boot.bstate != 2 || s.controllers.any fun d => (s.die d).image.isNone) = true := by simpa [hb] using hd
  exact congrArg Host.Outcome.next (if_neg h)

theorem exec_checkComplete_of_good (hq : ∀ q ∈ s.copies, s.imageFailure q.2 = 0) :
    exec .checkComplete s = .next (s.compareCopies s.copies) := by
  have hnone : (s.copies.map fun q => s.imageFailure q.2).filter (· != 0) = [] := by
    refine List.filter_eq_nil_iff.2 fun x hx => ?_
    obtain ⟨q, hm, rfl⟩ := List.mem_map.1 hx
    simp [hq q hm]
  rw [exec_checkComplete_of_read hb hd, hnone]
  rfl

/-- When all copies fail in the same way, that is the berr of RECOVERY. -/
theorem exec_checkComplete_of_failure {e : Nat} (he : e ≠ 0) (hq : ∀ q ∈ s.copies, s.imageFailure q.2 = e) (hn : s.copies ≠ []) :
    exec .checkComplete s = .next (s.enterRecovery e) := by
  have hmem : ∀ x ∈ sortOn id ((s.copies.map fun q => s.imageFailure q.2).filter (· != 0)), x = e := fun x hx => by
    obtain ⟨q, hm, rfl⟩ := List.mem_map.1 (List.mem_filter.1 (mem_sortOn.1 hx)).1
    exact hq q hm
  rw [exec_checkComplete_of_read hb hd]
  split
  next x _ h => rw [hmem x (h ▸ List.mem_cons_self ..)]
  next h =>
    obtain ⟨q, hm⟩ := List.exists_mem_of_ne_nil _ hn
    have hin : e ∈ sortOn id ((s.copies.map fun q => s.imageFailure q.2).filter (· != 0)) :=
      mem_sortOn.2 (List.mem_filter.2 ⟨List.mem_map.2 ⟨q, hm, hq q hm⟩, bne_iff_ne.2 he⟩)
    rw [h] at hin
    cases hin

end

/-- The controllers whose copy differs from the first one's. -/
def State.oddCopies (s : State) : List Nat := (s.copies.filter fun q => sha384 q.2 != sha384 (s.copies.headD (0, [])).2).map Prod.fst

theorem State.compareCopies_of_same (ho : s.oddCopies = []) : s.compareCopies s.copies = s.startInit (s.copies.headD (0, [])).2 :=
  if_pos (List.isEmpty_iff.2 ho)

theorem State.compareCopies_of_refetched (ho : ∃ d ∈ s.oddCopies, (s.die d).refetched = true) : s.compareCopies s.copies = s.enterRecovery 2 := by
  obtain ⟨d, hd, hr⟩ := ho
  have hne : ¬ s.oddCopies.isEmpty = true := fun h => by rw [List.isEmpty_iff.1 h] at hd; cases hd
  exact (if_neg hne).trans (if_pos (List.any_eq_true.2 ⟨d, hd, hr⟩))

theorem State.compareCopies_of_odd (hn : s.oddCopies ≠ []) (ho : ∀ d ∈ s.oddCopies, (s.die d).refetched = false) :
    s.compareCopies s.copies
      = (s.oddCopies.foldl (fun s d => s.onDie d fun D => { D with image := none, refetched := true }) s).fetchImage s.oddCopies := by
  have hany : ¬ (s.oddCopies.any fun d => (s.die d).refetched) = true := by simpa using ho
  exact (if_neg (mt List.isEmpty_iff.1 hn)).trans (if_neg hany)

end

end Sys2Proof.Machine
end

section
namespace Sys2Proof.Machine

/-! ### Initialisation (R395, R397, R418, R420) -/

section
variable {s : State}

theorem length_filter_tabSet_le {α : Type} (p : Nat × α → Bool) (k : Nat) (a : α) (t : Tab α) :
    ((tabSet k a t).filter p).length ≤ (t.filter p).length + 1 := by
  have hone : ∀ (q : Nat × α) (l : List (Nat × α)), (l.filter p).length ≤ ((q :: l).filter p).length ∧
      ((q :: l).filter p).length ≤ (l.filter p).length + 1 := fun q l => by
    rw [List.filter_cons]
    split <;> simp
  induction t with
  | nil => exact (hone ..).2
  | cons q t ih =>
    unfold tabSet
    split
    · exact ((hone ..).2).trans (Nat.succ_le_succ (hone ..).1)
    · split
      · exact (hone ..).2
      · simp only [List.filter_cons]
        split
        · simpa using ih
        · exact ih

theorem fencedTiles_markTile_le (s : State) (t reason d : Nat) : (s.markTile t reason).fencedTiles d ≤ s.fencedTiles d + 1 := by
  unfold State.markTile
  split
  · exact Nat.le_succ _
  · exact length_filter_tabSet_le _ _ _ _

theorem memGet_filter_of_out {p : Nat → Bool} {a : Nat} (ha : p a = false) (m : List Host.Cell) : memGet a (m.filter fun c => p c.1) = 0 := by
  induction m with
  | nil => rfl
  | cons c m ih =>
    obtain ⟨i, b⟩ := c
    rw [List.filter_cons]
    split
    next h =>
      have hi : i ≠ a := fun e => by rw [← e, h] at ha; cases ha
      exact (if_neg hi).trans ih
    · exact ih

/-- The parts that fail their tests at INIT are marked. -/
def State.marked (s : State) (parts : InitParts) : State :=
  parts.channels.foldl (fun s c => s.markChannel (c / 32) (c % 32) 3) (parts.tiles.foldl (fun s t => s.markTile t 2) s)

/-- The dies that fail, or of which too many tiles are fenced, are left out. -/
def State.thinnedOut (s : State) (failed : BitVec 4) : State :=
  s.exclude (failed ||| s.deadDies fun s d => decide (144 < s.fencedTiles d)) 2

/-- The dies that fail, or that have too many parts fenced, are left out. -/
def State.leftOut (s : State) (failed memory : BitVec 4) : State :=
  (s.thinnedOut failed).exclude (memory ||| (s.thinnedOut failed).deadDies State.memoryLost) 3

/-- REPLACE is raised for modules that are down. -/
def State.checkModules (s : State) : State := if s.host.modules = 0xFFFF then s else s.replacePart 9

/-- LIVE as INIT forms it. -/
def State.liveDies (s : State) : BitVec 4 := BitVec.ofNat 4 (packNat 1 ((List.range 4).map fun d => if (s.die d).failed then 0 else 1))

/-- The package as it comes to READY with these dies. -/
def State.readied (s : State) (live : BitVec 4) : State :=
  let raise := bit (s.imageField 24) 2 && s.boot.minseq.toNat < s.boot.fwseq.toNat && s.boot.raises < 255
  { s with
    mem := s.mem.filter fun c => inHost c.1
    pres := []
    tags := []
    bad := []
    zmb := []
    badTags := []
    ctxs := State.reset.ctxs
    dies := s.dies.map fun D => { D with serviced := s.time, sampleAt := s.time + 2 ^ 16 }
    boot := { s.boot with
      bstate := 4
      live := live
      m2 := extended s.boot.m2 (sha384 (bytesOf 8 s.boot.minseq.toNat ++ bytesOf 8 s.boot.revoked.toNat ++ bytesOf 8 live.toNat))
      minseq := if raise then s.boot.fwseq else s.boot.minseq
      raises := if raise then s.boot.raises + 1 else s.boot.raises } }

theorem exec_initComplete_of_init (hb : s.boot.bstate = 3) (failed : BitVec 4) (parts : InitParts) :
    let u := ((s.marked parts).leftOut failed parts.memory).checkModules
    exec (.initComplete failed parts) s = .next (if u.liveDies = 0 then u.enterRecovery 9 else u.readied u.liveDies) :=
  congrArg Host.Outcome.next (if_neg (by simp [hb]))

/-- Contexts are FREE, no presence word is full, and memory that is not the host's reads as zero. -/
theorem State.readied_parts (s : State) (live : BitVec 4) :
    (∀ c ∈ (s.readied live).ctxs, c.state = 0) ∧ (s.readied live).pres = [] ∧ ∀ a, inHost a = false → memGet a (s.readied live).mem = 0 :=
  ⟨ctxs_reset_free, rfl, fun _ ha => memGet_filter_of_out ha s.mem⟩

theorem deadDies_eq_zero {bad : State → Nat → Bool} (h : ∀ d < 4, bad s d = false) : s.deadDies bad = 0 := by
  simp [State.deadDies, List.range_succ, packNat, h]

theorem liveDies_of_working (h : ∀ d < 4, (s.die d).failed = false) : s.liveDies = 0xF := by
  simp [State.liveDies, List.range_succ, packNat, h]

theorem liveDies_of_failed (h : ∀ d < 4, (s.die d).failed = true) : s.liveDies = 0 := by
  simp [State.liveDies, List.range_succ, packNat, h]

theorem die_checkModules (s : State) (d : Nat) : s.checkModules.die d = s.die d := by
  unfold State.checkModules
  split <;> rfl

theorem boot_checkModules (s : State) : s.checkModules.boot = s.boot := by
  unfold State.checkModules
  split <;> rfl

theorem tile_checkModules (s : State) (t : Nat) : s.checkModules.tile t = s.tile t := by
  unfold State.checkModules
  split <;> rfl

theorem repl_checkModules (h : s.fleet.repl = true) : s.checkModules.fleet.repl = true := by
  unfold State.checkModules
  split
  · exact h
  · rfl

/-- The first reason of REPLACE stays (R420). -/
theorem rfirst_checkModules (h : s.fleet.rfirst ≠ 0) : s.checkModules.fleet.rfirst = s.fleet.rfirst := by
  unfold State.checkModules
  split
  · rfl
  · exact if_neg h

theorem fenced_markTile (s : State) (t reason : Nat) : ((s.markTile t reason).tile t).fenced = true := by
  unfold State.markTile
  split
  · assumption
  · exact congrArg Tile.fenced (s.tile_onTile t fun T => { T with fenced := true })

theorem die_markTile (s : State) (t reason d : Nat) : (s.markTile t reason).die d = s.die d := by
  unfold State.markTile
  split <;> rfl

/-- A tile more that is fenced leaves a die of at most 144 sound. -/
theorem sound_markTile (t : Nat) (h : ∀ d < 4, (s.die d).failed = false ∧ s.fencedTiles d < 144 ∧ s.memoryLost d = false) :
    ∀ d < 4, ((s.markTile t 2).die d).failed = false ∧ (s.markTile t 2).fencedTiles d ≤ 144 ∧ (s.markTile t 2).memoryLost d = false := by
  intro d hd
  obtain ⟨hworks, hfew, hkept⟩ := h d hd
  have hdie := die_markTile s t 2 d
  exact ⟨(congrArg Die.failed hdie).trans hworks, (fencedTiles_markTile_le s t 2 d).trans hfew,
    (congrArg (fun D : Die => D.hbmF == BitVec.allOnes 64) hdie).trans hkept⟩

theorem replace_markTile {t : Nat} (h : (s.tile t).fenced = false) :
    (s.markTile t 2).fleet.repl = true ∧ (s.fleet.rfirst = 0 → (s.markTile t 2).fleet.rfirst = 2) := by
  rw [State.markTile, if_neg (Bool.eq_false_iff.1 h)]
  exact ⟨rfl, fun hr => if_pos hr⟩

/-- With its dies sound the package comes to READY with all of them. -/
theorem exec_initComplete_of_sound (hb : s.boot.bstate = 3) {parts : InitParts} (hm : parts.memory = 0)
    (h : ∀ d < 4, ((s.marked parts).die d).failed = false ∧ (s.marked parts).fencedTiles d ≤ 144 ∧ (s.marked parts).memoryLost d = false) :
    exec (.initComplete 0 parts) s = .next ((s.marked parts).checkModules.readied 0xF) := by
  have hout : (s.marked parts).leftOut 0 parts.memory = s.marked parts := by
    have hthin : ((s.marked parts).deadDies fun s d => decide (144 < s.fencedTiles d)) = 0 :=
      deadDies_eq_zero fun d hd => decide_eq_false (h d hd).2.1.not_gt
    have hlost : (s.marked parts).deadDies State.memoryLost = 0 := deadDies_eq_zero fun d hd => (h d hd).2.2
    have hzero : (0 : BitVec 4) ||| 0 = 0 := rfl
    simp only [State.leftOut, State.thinnedOut, hm, hthin, hlost, hzero, State.exclude_zero]
  have hlive : (s.marked parts).checkModules.liveDies = 0xF :=
    liveDies_of_working fun d hd => (congrArg Die.failed (die_checkModules _ d)).trans (h d hd).1
  rw [exec_initComplete_of_init hb, hout, hlive]
  rfl

/-- With no die left the package enters RECOVERY. -/
theorem exec_initComplete_of_allFailed (hb : s.boot.bstate = 3) {parts : InitParts} (hd : (s.marked parts).dies.length = 4) :
    ∃ u : State, exec (.initComplete 0xF parts) s = .next (u.enterRecovery 9) := by
  have hlive : ((s.marked parts).leftOut 0xF parts.memory).checkModules.liveDies = 0 := by
    refine liveDies_of_failed fun d h => (congrArg Die.failed (die_checkModules _ d)).trans ?_
    have hfirst := State.excludes_exclude hd (0xF ||| (s.marked parts).deadDies fun s d => decide (144 < s.fencedTiles d)) 2
    have hlen : ((s.marked parts).thinnedOut 0xF).dies.length = 4 := hfirst.count.trans hd
    have hfailed : (((s.marked parts).thinnedOut 0xF).die d).failed = true := by
      rw [State.thinnedOut, hfirst.failed d (hd ▸ h), BitVec.getLsbD_or, (forall_getLsbD_iff _).2 rfl d h, Bool.true_or, Bool.or_true]
    exact ((State.excludes_exclude hlen _ 3).failed d (hlen.symm ▸ h)).trans (by rw [hfailed, Bool.true_or])
  exact ⟨_, (exec_initComplete_of_init hb ..).trans (congrArg _ (if_pos hlive))⟩

end

/-! ### Attestation (R400) -/

section
variable {s : State}

theorem State.attestNow_of_idle (hb : s.boot.bstate = 4) (ha : s.boot.attst ≠ 1) (op : Nat) : s.attestNow op = { s with
    boot := { s.boot with
      attop := BitVec.ofNat 2 op
      attst := 1
      nonce := [] }
    host := { s.host with asked := s.host.asked ++ [(4, s.boot.nonceaddr.toNat, 6)] } } :=
  if_neg (by simpa [hb] using ha)

theorem exec_attestResponse_of_waiting (h : ∃ q ∈ s.host.asked, q.1 = 4) (ok : Bool) : exec (.attestResponse ok) s = .next s := by
  have h : (s.boot.bstate != 4 || s.boot.attst != 1 || s.host.asked.any fun q => q.1 == 4) = true := by
    simpa using Or.inr h
  exact congrArg Host.Outcome.next (if_pos h)

/-- The response of an attestation is written, and its request done. -/
def State.answered (s : State) (out : List Byte) : State :=
  { s.memSet (cellsAt (hostBase + s.boot.rspaddr.toNat) out) with boot := { s.boot with
    attlen := BitVec.ofNat 32 out.length
    attst := 2 } }

theorem State.mem_answered (s : State) (out : List Byte) :
    (s.answered out).mem = memWrite (cellsAt (hostBase + s.boot.rspaddr.toNat) out) s.mem := rfl

section
variable (hb : s.boot.bstate = 4) (ha : s.boot.attst = 1) (h : ∀ q ∈ s.host.asked, q.1 ≠ 4)
include hb ha h

theorem attestResponse_performed : ¬ (s.boot.bstate != 4 || s.boot.attst != 1 || s.host.asked.any fun q => q.1 == 4) = true := by
  have hnone : (s.host.asked.any fun q => q.1 == 4) = false := List.any_eq_false.2 fun q hq => by simpa using h q hq
  simp [hb, ha, hnone]

theorem exec_attestResponse_of_failure : exec (.attestResponse false) s = .next s.attestError :=
  congrArg Host.Outcome.next (if_neg (attestResponse_performed hb ha h))

theorem exec_attestResponse_of_quote (ho : s.boot.attop = 1) :
    exec (.attestResponse true) s = .next (s.answered (s.quote s.boot.nonce)) := by
  rw [← if_pos (t := s.quote s.boot.nonce) (e := s.certChain) ho]
  exact congrArg Host.Outcome.next (if_neg (attestResponse_performed hb ha h))

theorem exec_attestResponse_of_chain (ho : s.boot.attop = 2) : exec (.attestResponse true) s = .next (s.answered s.certChain) := by
  have ho : ¬ s.boot.attop = 1 := fun e => absurd (ho.symm.trans e) (by decide)
  rw [← if_neg (t := s.quote s.boot.nonce) (e := s.certChain) ho]
  exact congrArg Host.Outcome.next (if_neg (attestResponse_performed hb ha h))

end

end

/-- Settles O52: each stage by what the one before it left, from the ROM stage to READY or RECOVERY, and attestation by what has been read. -/
theorem bootStages : Obligations.BootStages := by
  intro s fresh rom
  refine ⟨fun hd => ⟨fun failed => ?powerOn, ?reset⟩, fun h => congrArg Host.Outcome.next (State.goNow_of_held h), fun hb ht => ?go,
    fun hb ht => ?again, fun hb => ?check, fun hb hd h => ⟨?pass, fun t ht => ?fenced, fun bad hbad => ?dead⟩, fun d hh ht hb => ?watchdog,
    fun hb ha => ⟨?quote, ?chain⟩, fun hb ha h => exec_attestResponse_of_waiting h,
    fun hb ha h => ⟨?error, fun ho => ?quoted, fun ho => ?chained⟩⟩
  case powerOn =>
    obtain ⟨hfresh, hlive, hmin, -, -, hpass, hfail⟩ := State.resetTo_parts (s := { s with
      mem := s.mem.filter fun c => inHost c.1, tags := [], bad := [], zmb := [], badTags := [] }) hd failed
    exact ⟨_, rfl, hfresh, hlive, hmin, hpass, hfail⟩
  case reset =>
    obtain ⟨hfresh, hlive, hmin, hplim, hherr, hpass, hfail⟩ := State.resetTo_parts (s := s.draw.2) hd (s.draw.1.setWidth 4)
    exact ⟨_, rfl, ⟨hfresh, hlive, hmin, hpass, hfail⟩, hplim, hherr⟩
  case go => exact congrArg Host.Outcome.next ((State.goNow_of_rom hb ht).trans (State.startFetch_of_rom hb))
  case again =>
    intro u
    refine ⟨fun h5 => ?_, fun h1 htr => ?_⟩
    · exact congrArg Host.Outcome.next ((State.goNow_of_recovery hb ht).trans (if_pos h5))
    · exact congrArg Host.Outcome.next ((State.goNow_of_recovery hb ht).trans (State.goNow_of_rom h1 htr).symm)
  case check =>
    refine ⟨exec_checkComplete_of_reading, fun hd => ⟨fun hq => ⟨fun ho => ?_, fun ho => ?_, fun hn ho => ?_⟩, fun e he hq hn => ?_⟩⟩
    · exact (exec_checkComplete_of_good hb hd hq).trans (congrArg _ (State.compareCopies_of_same ho))
    · exact ⟨_, (exec_checkComplete_of_good hb hd hq).trans (congrArg _ (State.compareCopies_of_refetched ho)), State.fresh_enterRecovery ..,
        rfl, rfl, rfl⟩
    · obtain ⟨_, _, _, _, _, hdies⟩ :=
        State.accounts_foldl (fun s d => State.accounts_onDie s d fun D => { D with image := none, refetched := true }) s.oddCopies s
      refine ⟨_, (exec_checkComplete_of_good hb hd hq).trans (congrArg _ (State.compareCopies_of_odd hn ho)), ?_⟩
      rw [hdies]
      exact ⟨rfl, rfl⟩
    · exact ⟨_, exec_checkComplete_of_failure hb hd he hq hn, State.fresh_enterRecovery .., rfl, rfl, rfl⟩
  case pass =>
    have hexec := exec_initComplete_of_sound hb (parts := ⟨0, [], []⟩) rfl fun d hd => ⟨(h d hd).1, (h d hd).2.1.le, (h d hd).2.2⟩
    obtain ⟨hfree, hpres, hmem⟩ := s.checkModules.readied_parts 0xF
    have hm2 : (s.checkModules.readied 0xF).boot.m2
        = extended s.boot.m2 (sha384 (bytesOf 8 s.boot.minseq.toNat ++ bytesOf 8 s.boot.revoked.toNat ++ bytesOf 8 0xF)) := by
      rw [← boot_checkModules s]
      rfl
    exact ⟨_, hexec, rfl, rfl, hfree, hpres, hmem, hm2⟩
  case fenced =>
    obtain ⟨hrepl, hfirst⟩ := replace_markTile ht
    refine ⟨_, exec_initComplete_of_sound hb (parts := ⟨0, [t], []⟩) rfl (sound_markTile t h), rfl, rfl,
      (congrArg Tile.fenced (tile_checkModules _ t)).trans (fenced_markTile s t 2), repl_checkModules hrepl, fun hr => ?_⟩
    exact (rfirst_checkModules (s := s.markTile t 2) (by rw [hfirst hr]; decide)).trans (hfirst hr)
  case dead =>
    subst hbad
    obtain ⟨u, hu⟩ := exec_initComplete_of_allFailed hb (parts := ⟨0, [], []⟩) hd
    exact ⟨_, hu, u.fresh_enterRecovery 9, rfl, rfl⟩
  case watchdog =>
    have h : ((s.die d).hung && decide ((s.die d).serviced + 2 ^ 31 ≤ s.time) && s.boot.bstate != 5) = true := by
      rw [hh, decide_eq_true ht, bne_iff_ne.2 hb]
      rfl
    exact ⟨_, congrArg Host.Outcome.next (if_pos h), State.fresh_enterRecovery .., rfl, rfl⟩
  case quote => exact ⟨_, congrArg Host.Outcome.next (State.attestNow_of_idle hb ha 1), rfl, rfl⟩
  case chain => exact ⟨_, congrArg Host.Outcome.next (State.attestNow_of_idle hb ha 2), rfl, rfl⟩
  case error => exact ⟨_, exec_attestResponse_of_failure hb ha h, rfl⟩
  case quoted => exact ⟨_, exec_attestResponse_of_quote hb ha h ho, rfl, s.mem_answered _⟩
  case chained => exact ⟨_, exec_attestResponse_of_chain hb ha h ho, rfl, s.mem_answered _⟩

end Sys2Proof.Machine
end

section
namespace Sys2Proof.Machine

/-! ### Lattice ports: fencing, retries and keep-alives (R408, R413, R418, R422) -/

section
variable {s : State} {p q : Nat}

theorem State.fencePort_of_fenced (h : s.fleet.lst.getD p 0 = 3) : s.fencePort p = s := if_pos h

theorem State.lst_fencePort (h : s.fleet.lst.getD p 0 ≠ 3) : (s.fencePort p).fleet.lst = s.fleet.lst.set p 3 :=
  congrArg (fun v : State => v.fleet.lst) (if_neg h)

theorem State.raised_fencePort (h : s.fleet.lst.getD p 0 ≠ 3) : s.raised (s.fencePort p) 8 := by
  rw [State.fencePort, if_neg h]
  exact State.raised_replacePart _ (by decide)

theorem State.lostPkg_fencePort (s : State) (p : Nat) : (s.fencePort p).fleet.lostPkg = s.fleet.lostPkg := by
  unfold State.fencePort
  split <;> rfl

theorem getD_set_self {l : List Nat} {a b : Nat} (h : p < l.length) : (l.set p a).getD p b = a := by
  simp [h]

theorem getD_set_of_ne {l : List Nat} {a b : Nat} (h : q ≠ p) : (l.set q a).getD p b = l.getD p b := by
  simp [List.getD_eq_getElem?_getD, List.getElem?_set_ne h]

/-- The port is fenced, and REPLACE has been raised. -/
def State.HasFenced (p : Nat) (s : State) : Prop := s.fleet.lst.getD p 0 = 3 ∧ s.fleet.repl = true

theorem State.hasFenced_fencePort (h : s.fleet.lst.getD p 0 ≠ 3) (hp : p < s.fleet.lst.length) : (s.fencePort p).HasFenced p :=
  ⟨by rw [State.lst_fencePort h, getD_set_self hp], (State.raised_fencePort h).1⟩

/-- A fence of one port keeps every other as it is. -/
theorem State.lst_fencePort_of_ne (h : q ≠ p) : (s.fencePort q).fleet.lst.getD p 0 = s.fleet.lst.getD p 0 := by
  by_cases hq : s.fleet.lst.getD q 0 = 3
  · rw [State.fencePort_of_fenced hq]
  · rw [State.lst_fencePort hq, getD_set_of_ne h]

theorem State.length_fencePort (s : State) (q : Nat) : (s.fencePort q).fleet.lst.length = s.fleet.lst.length := by
  by_cases hq : s.fleet.lst.getD q 0 = 3
  · rw [State.fencePort_of_fenced hq]
  · rw [State.lst_fencePort hq, List.length_set]

theorem State.HasFenced.fencePort (h : s.HasFenced p) (q : Nat) : (s.fencePort q).HasFenced p := by
  by_cases hq : s.fleet.lst.getD q 0 = 3
  · rwa [State.fencePort_of_fenced hq]
  · have hqp : q ≠ p := fun e => hq (e ▸ h.1)
    exact ⟨(State.lst_fencePort_of_ne hqp).trans h.1, (State.raised_fencePort hq).1⟩

/-- Of the ports that are fenced together, each is fenced in its turn, and stays so. -/
theorem State.hasFenced_foldl {qs : List Nat} (hm : p ∈ qs) (h : s.fleet.lst.getD p 0 ≠ 3) (hp : p < s.fleet.lst.length) :
    (qs.foldl State.fencePort s).HasFenced p := by
  induction qs generalizing s with
  | nil => cases hm
  | cons q qs ih =>
    by_cases e : q = p
    · subst e
      exact qs.foldlRecOn State.fencePort (State.hasFenced_fencePort h hp) fun _ hv x _ => hv.fencePort x
    · have hm : p ∈ qs := (List.mem_cons.1 hm).resolve_left (Ne.symm e)
      exact ih hm ((State.lst_fencePort_of_ne e).symm ▸ h) ((s.length_fencePort q).symm ▸ hp)

theorem State.lostPkg_foldl_fencePort (qs : List Nat) (s : State) : (qs.foldl State.fencePort s).fleet.lostPkg = s.fleet.lostPkg :=
  qs.foldlRecOn State.fencePort (motive := fun v => v.fleet.lostPkg = s.fleet.lostPkg) rfl fun v hv x _ =>
    (v.lostPkg_fencePort x).trans hv

/-! #### Retries of flits -/

/-- The retries of the last 2^30 clk. -/
def State.recentRetries (s : State) (p : Nat) : List Nat := (s.fleet.retries.getD p []).filter fun x => s.time < x + 2 ^ 30

/-- A retry of a flit has been counted. -/
def State.retried (s : State) (p : Nat) : State :=
  { s.count 0 .linkRetry with fleet := { s.fleet with retries := s.fleet.retries.set p (s.recentRetries p ++ [s.time]) } }

theorem State.retryFlit_eq (s : State) (p : Nat) :
    s.retryFlit p = if 2 ^ 20 ≤ (s.recentRetries p).length + 1 then (s.retried p).fencePort p else s.retried p := rfl

theorem exec_flitCrcRetry_of_up (h : s.fleet.lst.getD p 0 = 2) : exec (.flitCrcRetry p) s = .next (s.retryFlit p) :=
  congrArg Host.Outcome.next (if_pos h)

theorem exec_flitCrcRetry_of_notUp (h : s.fleet.lst.getD p 0 ≠ 2) : exec (.flitCrcRetry p) s = .next s :=
  congrArg Host.Outcome.next (if_neg h)

/-! #### Training and keep-alives -/

/-- A retrain of a port has ended: so many in a row have failed, and the port is in this state. -/
def State.retrained (s : State) (p n l : Nat) : State :=
  State.count { s with fleet := { s.fleet with
    retrain := s.fleet.retrain.set p n
    lst := s.fleet.lst.set p l } } 0 .latticeRetrain

theorem down_or_fenced_false (h : s.fleet.lst.getD p 0 = 1 ∨ s.fleet.lst.getD p 0 = 2) :
    ¬ (decide (s.fleet.lst.getD p 0 = 0) || decide (s.fleet.lst.getD p 0 = 3)) = true := by
  obtain h | h := h <;> simp only [h] <;> decide

theorem exec_portRetrain_of_success (h : s.fleet.lst.getD p 0 = 1 ∨ s.fleet.lst.getD p 0 = 2) :
    exec (.portRetrain p true) s = .next (s.retrained p 0 2) :=
  congrArg Host.Outcome.next (if_neg (down_or_fenced_false h))

theorem exec_portRetrain_of_failure (h : s.fleet.lst.getD p 0 = 1 ∨ s.fleet.lst.getD p 0 = 2) :
    exec (.portRetrain p false) s = .next (if s.fleet.retrain.getD p 0 + 1 = 3
      then (s.retrained p (s.fleet.retrain.getD p 0 + 1) 1).fencePort p else s.retrained p (s.fleet.retrain.getD p 0 + 1) 1) :=
  congrArg Host.Outcome.next (if_neg (down_or_fenced_false h))

/-- So many keep-alives of a port have been missed. -/
def State.missing (s : State) (p n : Nat) : State := { s with fleet := { s.fleet with missed := s.fleet.missed.set p n } }

theorem exec_keepaliveLoss_of_few (h : s.fleet.lst.getD p 0 = 1 ∨ s.fleet.lst.getD p 0 = 2) (hn : s.fleet.missed.getD p 0 < 9) :
    exec (.keepaliveLoss p) s = .next (s.missing p (s.fleet.missed.getD p 0 + 1)) :=
  congrArg Host.Outcome.next ((if_neg (down_or_fenced_false h)).trans (if_pos (show s.fleet.missed.getD p 0 + 1 < 10 by omega)))

/-- The ports in use whose neighbour is a package. -/
def State.portsTo (s : State) (pkg : Nat) : List Nat :=
  (List.range 16).filter fun q => 1 < s.torus.getD (portDir q).1 1 && s.nextPackage (portDir q).1 (portDir q).2 == pkg

/-- The neighbour of a port is lost, and its ports are still to be fenced. -/
def State.losing (s : State) (p : Nat) : State := { s with fleet := { s.fleet with
    missed := s.fleet.missed.set p (s.fleet.missed.getD p 0 + 1)
    lostPkg := setInsert (s.nextPackage (portDir p).1 (portDir p).2) s.fleet.lostPkg } }

theorem exec_keepaliveLoss_of_tenth (h : s.fleet.lst.getD p 0 = 1 ∨ s.fleet.lst.getD p 0 = 2) (hn : 9 ≤ s.fleet.missed.getD p 0) :
    exec (.keepaliveLoss p) s = .next ((s.portsTo (s.nextPackage (portDir p).1 (portDir p).2)).foldl State.fencePort (s.losing p)) :=
  congrArg Host.Outcome.next ((if_neg (down_or_fenced_false h)).trans (if_neg (show ¬ s.fleet.missed.getD p 0 + 1 < 10 by omega)))

theorem mem_portsTo (hp : p < 16) (ht : 1 < s.torus.getD (portDir p).1 1) : p ∈ s.portsTo (s.nextPackage (portDir p).1 (portDir p).2) :=
  List.mem_filter.2 ⟨List.mem_range.2 hp, by rw [decide_eq_true ht, beq_self_eq_true]; rfl⟩

end

/-! ### Flits (R408, R410, R411, R413) -/

section
variable {s : State} {p : Nat} {f : Flit}

/-- A flit has shown that the neighbour is there. -/
def State.heard (s : State) (p : Nat) : State := s.missing p 0

/-- The flits of a port that wait in the buffer of the channel and class of a flit. -/
def State.ahead (s : State) (p : Nat) (f : Flit) : List (Nat × Flit) :=
  s.fleet.rx.filter fun q => q.1 == p && State.creditKey 0 q.2 == State.creditKey 0 f

/-- A flit has been counted as received. -/
def State.counted (s : State) (p : Nat) (f : Flit) : State := (s.heard p).count 0 (.flitReceived (2 * f.ctx.toNat + State.flitClass f))

/-- A flit stays in the receive buffer. -/
def State.stays (s : State) (p : Nat) (f : Flit) : State := { s with fleet := { s.fleet with rx := s.fleet.rx ++ [(p, f)] } }

/-- A flit as it goes on in a dimension: in class 1 over the wraparound link, else in class 0 as it enters the dimension (R410). -/
def State.onward (s : State) (f : Flit) (dim : Nat) (plus : Bool) : Flit :=
  let edge := (s.coordsOf s.fleet.pkg.toNat).getD dim 0 == if plus then s.torus.getD dim 1 - 1 else 0
  { f with
    dim := BitVec.ofNat 2 dim
    cls := if f.ctx = 4 then f.cls else if edge then 1 else if f.dim.toNat = dim then f.cls else 0 }

theorem exec_flitReceive_of_notUp (h : s.fleet.lst.getD p 0 ≠ 2) : exec (.flitReceive p f) s = .next s :=
  congrArg Host.Outcome.next (if_pos (bne_iff_ne.2 h))

theorem exec_flitReceive_of_up (h : s.fleet.lst.getD p 0 = 2) :
    exec (.flitReceive p f) s = .next (if !f.crcOk then s.retryFlit p else if State.flitRoom f ≤ (s.ahead p f).length then s.heard p
      else if f.dest = s.fleet.pkg || !(s.ahead p f).isEmpty then (s.counted p f).stays p f
        else ((s.counted p f).sendFlit f (State.travels p)).getD ((s.counted p f).stays p f)) :=
  congrArg Host.Outcome.next (if_neg (bne_iff_ne.not.2 (not_not.2 h)))

theorem exec_flitReceive_of_bad (h : s.fleet.lst.getD p 0 = 2) (hc : f.crcOk = false) : exec (.flitReceive p f) s = .next (s.retryFlit p) := by
  rw [exec_flitReceive_of_up h, hc]
  rfl

section
variable (h : s.fleet.lst.getD p 0 = 2) (hc : f.crcOk = true)
include h hc

theorem exec_flitReceive_of_full (hn : State.flitRoom f ≤ (s.ahead p f).length) : exec (.flitReceive p f) s = .next (s.heard p) := by
  rw [exec_flitReceive_of_up h, hc, if_pos hn]
  rfl

theorem exec_flitReceive_of_stay (hn : (s.ahead p f).length < State.flitRoom f) (hs : f.dest = s.fleet.pkg ∨ s.ahead p f ≠ []) :
    exec (.flitReceive p f) s = .next ((s.counted p f).stays p f) := by
  have hs : (decide (f.dest = s.fleet.pkg) || !(s.ahead p f).isEmpty) = true := by simpa using hs
  rw [exec_flitReceive_of_up h, hc, if_neg hn.not_ge, if_pos hs]
  rfl

theorem exec_flitReceive_of_through (ha : s.ahead p f = []) (hd : f.dest ≠ s.fleet.pkg) :
    exec (.flitReceive p f) s = .next (((s.counted p f).sendFlit f (State.travels p)).getD ((s.counted p f).stays p f)) := by
  have hroom : ¬ State.flitRoom f ≤ (s.ahead p f).length := by
    rw [ha, State.flitRoom]
    split <;> decide
  have hs : ¬ (decide (f.dest = s.fleet.pkg) || !(s.ahead p f).isEmpty) = true := by simp [ha, hd]
  rw [exec_flitReceive_of_up h, hc, if_neg hroom, if_neg hs]
  rfl

end

theorem State.sendFlit_of_noWay {came : Option (Nat × Bool)} (hr : s.nextHop f.dest.toNat came = none) : s.sendFlit f came = some s := by
  simp only [State.sendFlit, State.route, hr]

section
variable {came : Option (Nat × Bool)} {dim : Nat} {plus : Bool} (hr : s.nextHop f.dest.toNat came = some (dim, plus))
include hr

theorem State.route_of_nextHop : s.route f came = some (dim, plus, s.onward f dim plus) := by
  simp only [State.route, hr]
  rfl

theorem State.sendFlit_of_noCredit (hc : s.creditPorts dim plus (s.onward f dim plus) = []) : s.sendFlit f came = none := by
  simp only [State.sendFlit, State.route_of_nextHop hr, hc]

/-- A flit that finds a credit goes out on one of the ports that hold one, and takes a credit of its buffer there. -/
theorem State.sendFlit_of_credit {o : Nat} {os : List Nat} (hc : s.creditPorts dim plus (s.onward f dim plus) = o :: os) :
    ∃ v x, s.sendFlit f came = some v ∧ x ∈ o :: os ∧ v.fleet = { s.fleet with
      tx := s.fleet.tx ++ [(x, s.onward f dim plus, f)]
      used := tabSet (State.creditKey x (s.onward f dim plus))
        ((tabGet (State.creditKey x (s.onward f dim plus)) s.fleet.used).getD 0 + 1) s.fleet.used } := by
  have hlt : s.fleet.tx.length % (os.length + 1) < (o :: os).length := Nat.mod_lt _ (Nat.succ_pos _)
  refine ⟨_, (o :: os).getD (s.fleet.tx.length % (os.length + 1)) o, by simp only [State.sendFlit, State.route_of_nextHop hr, hc]; rfl, ?_, rfl⟩
  rw [List.getD_eq_getElem _ _ hlt]
  exact List.getElem_mem hlt

end

end

/-! ### PODCFG and MONCTL (R414, R417) -/

section
variable {s : State} {v : Word}

theorem State.writePodcfg_of_refused (h : s.boot.bstate ≠ 4 ∨ ∃ c ∈ s.ctxs, c.state ≠ 0) :
    s.writePodcfg v = s.logError 2 (State.dcbReg 0x520) := by
  have h : (s.boot.bstate != 4 || s.ctxs.any fun c => c.state != 0) = true := by simpa using h
  exact if_pos h

/-- The pod that a write of PODCFG names has the package with its number. -/
def podInside (v : Word) : Prop := bits v.toNat 0 11 < (bits v.toNat 11 4 + 1) * (bits v.toNat 15 4 + 1) * (bits v.toNat 19 3 + 1)

/-- The pod as a write of PODCFG gives it, before its ports train. -/
def State.withPod (s : State) (v : Word) : State := { s with fleet := { s.fleet with
    en := v.getLsbD 22
    dimz := BitVec.ofNat 3 (bits v.toNat 19 3)
    dimy := BitVec.ofNat 4 (bits v.toNat 15 4)
    dimx := BitVec.ofNat 4 (bits v.toNat 11 4)
    pkg := BitVec.ofNat 11 (bits v.toNat 0 11)
    lostPkg := []
    rx := []
    tx := []
    used := [] } }

section
variable (hb : s.boot.bstate = 4) (hc : ∀ c ∈ s.ctxs, c.state = 0)
include hb hc

theorem podcfg_performed : ¬ (s.boot.bstate != 4 || s.ctxs.any fun c => c.state != 0) = true := by simpa [hb] using hc

theorem State.writePodcfg_of_outside (h : ¬ podInside v) : s.writePodcfg v = s :=
  (if_neg (podcfg_performed hb hc)).trans (if_pos (Nat.not_lt.1 h))

theorem State.writePodcfg_of_inside (h : podInside v) : s.writePodcfg v = (s.withPod v).trainPorts :=
  (if_neg (podcfg_performed hb hc)).trans (if_neg (Nat.not_le.2 h))

end

theorem State.lst_trainPorts (s : State) {q : Nat} (hq : q < 16) :
    s.trainPorts.fleet.lst.getD q 0
      = if s.fleet.lst.getD q 0 = 3 then 3 else if s.fleet.en ∧ 1 < s.torus.getD (portDir q).1 1 then 1 else 0 := by
  simp [State.trainPorts, List.getD_eq_getElem?_getD, hq]

/-- A bit outside a field may be set. -/
theorem bits_or_two_pow (x : Nat) {lo n j : Nat} (h : j < lo ∨ lo + n ≤ j) : bits (x ||| 2 ^ j) lo n = bits x lo n := by
  refine Nat.eq_of_testBit_eq fun i => ?_
  simp only [bits, Nat.testBit_mod_two_pow, Nat.testBit_div_two_pow, Nat.testBit_or, Nat.testBit_two_pow]
  by_cases hi : i < n
  · have : j ≠ i + lo := by omega
    simp [this]
  · simp [hi]

theorem counters_setCounter (hd : State.monDie v < s.dies.length) :
    let x := tabGet (State.monCtr v) (s.die (State.monDie v)).counters
    tabGet (State.monCtr v) ((s.setCounter v).die (State.monDie v)).counters
      = some (State.monSrc v, if x.map Prod.fst = some (State.monSrc v) then (x.map Prod.snd).getD 0 else 0) := by
  intro x
  rw [State.setCounter, die_onDie _ _ hd]
  cases hx : x with
  | none =>
    simp only [x] at hx
    simp [hx]
  | some c =>
    simp only [x] at hx
    by_cases hc : c.1 = State.monSrc v
    · simp [hx, ← hc]
    · simp [hx, hc]

theorem counters_clearCounter (hd : State.monDie v < s.dies.length) {y : Nat × Word}
    (hy : tabGet (State.monCtr v) (s.die (State.monDie v)).counters = some y) :
    tabGet (State.monCtr v) ((s.clearCounter v).die (State.monDie v)).counters = some (y.1, 0) := by
  rw [State.clearCounter, die_onDie _ _ hd]
  simp only [hy, tabGet_tabSet_self]

/-- The control bits of MONCTL lie above the fields that name a counter and its source. -/
theorem monFields_or {x : Word} {j : Nat} (hx : x.toNat = 2 ^ j) (hj : 16 ≤ j) :
    State.monDie (v ||| x) = State.monDie v ∧ State.monCtr (v ||| x) = State.monCtr v ∧ State.monSrc (v ||| x) = State.monSrc v := by
  simp only [State.monDie, State.monCtr, State.monSrc, BitVec.toNat_or, hx]
  exact ⟨bits_or_two_pow _ (by omega), bits_or_two_pow _ (by omega), bits_or_two_pow _ (by omega)⟩

/-- MONCTL keeps a value that has been written. -/
def State.withMonctl (s : State) (v : Word) : State := { s with fleet := { s.fleet with monctl := v.setWidth 18 } }

theorem State.writeMonctl_set (hs : State.monSrc v ≤ 0xC7) (h : v.getLsbD 16 = false) :
    s.writeMonctl (v ||| 0x20000) = (s.withMonctl (v ||| 0x20000)).setCounter v := by
  obtain ⟨hdie, hctr, hsrc⟩ := monFields_or (v := v) (x := 0x20000) (j := 17) rfl (by decide)
  have h16 : (v ||| 0x20000).getLsbD 16 = false := by rw [BitVec.getLsbD_or, h]; rfl
  have h17 : (v ||| 0x20000).getLsbD 17 = true := by simp
  simp only [State.writeMonctl, hsrc, hs.not_gt, h16, h17, State.setCounter, hdie, hctr, Bool.false_eq_true, if_false, if_true]
  rfl

theorem State.writeMonctl_clear (hs : State.monSrc v ≤ 0xC7) (h : v.getLsbD 17 = false) :
    s.writeMonctl (v ||| 0x10000) = (s.withMonctl (v ||| 0x10000)).clearCounter v := by
  obtain ⟨hdie, hctr, hsrc⟩ := monFields_or (v := v) (x := 0x10000) (j := 16) rfl (by decide)
  have h16 : (v ||| 0x10000).getLsbD 16 = true := by simp
  have h17 : (v ||| 0x10000).getLsbD 17 = false := by rw [BitVec.getLsbD_or, h]; rfl
  simp only [State.writeMonctl, hsrc, hs.not_gt, h16, h17, State.clearCounter, hdie, hctr, Bool.false_eq_true, if_false, if_true]
  rfl

theorem exec_monctl_of_notReady (hb : s.boot.bstate ≠ 4) : exec (.monctlSet v) s = .next s ∧ exec (.monctlClr v) s = .next s :=
  ⟨congrArg Host.Outcome.next (State.whenReady_of_notReady hb _), congrArg Host.Outcome.next (State.whenReady_of_notReady hb _)⟩

theorem exec_monctlSet_of_ready (hb : s.boot.bstate = 4) (hs : State.monSrc v ≤ 0xC7) (h : v.getLsbD 16 = false) :
    exec (.monctlSet v) s = .next ((s.withMonctl (v ||| 0x20000)).setCounter v) :=
  congrArg Host.Outcome.next ((State.whenReady_of_ready hb _).trans (State.writeMonctl_set hs h))

theorem exec_monctlClr_of_ready (hb : s.boot.bstate = 4) (hs : State.monSrc v ≤ 0xC7) (h : v.getLsbD 17 = false) :
    exec (.monctlClr v) s = .next ((s.withMonctl (v ||| 0x10000)).clearCounter v) :=
  congrArg Host.Outcome.next ((State.whenReady_of_ready hb _).trans (State.writeMonctl_clear hs h))

end

/-- Settles O54: a flit by its buffer, its way and its credit; a port by its state and its counts; PODCFG and MONCTL by the value written. -/
theorem latticePorts : Obligations.LatticePorts := by
  intro s p F lst heard
  refine ⟨fun f h hc => ⟨fun hn => ?full, fun hn hs => ?stays, fun ha hd => ⟨fun hr => ?noWay, fun dim plus hr =>
      ⟨fun hx => ?noCredit, fun o os hx => ?credit⟩⟩⟩,
    fun h => ⟨fun f => exec_flitReceive_of_notUp h, exec_flitCrcRetry_of_notUp h⟩,
    fun h hp hl => ⟨fun f hc => ?bad, fun hn => ?few, fun hn => ?many⟩,
    fun h hp hl => ⟨?trained, fun hn => ?third, fun hn => ?failed⟩, fun h => ?idle, exec_keepaliveLoss_of_few, fun h hn hl hp ht => ?lost,
    fun h => congrArg Host.Outcome.next (if_pos h), fun h => congrArg Host.Outcome.next (if_neg h),
    fun v => ⟨fun h => ?refused, fun hb hc hv => ?outside, fun hb hc hv => ?inside⟩,
    fun v => ⟨fun hb => ?shut, fun hb hs hd => ⟨fun h => ?set, fun y h hy => ?clear⟩⟩⟩
  case full => exact exec_flitReceive_of_full h hc hn
  case stays => exact ⟨_, exec_flitReceive_of_stay h hc hn hs, rfl⟩
  case noWay =>
    rw [exec_flitReceive_of_through h hc ha hd, State.sendFlit_of_noWay (s := s.counted p f) hr]
    exact ⟨_, rfl, rfl⟩
  case noCredit =>
    rw [exec_flitReceive_of_through h hc ha hd, State.sendFlit_of_noCredit (s := s.counted p f) hr hx]
    exact ⟨_, rfl, rfl⟩
  case credit =>
    obtain ⟨v, x, hv, hm, hfleet⟩ := State.sendFlit_of_credit (s := s.counted p f) hr hx
    rw [exec_flitReceive_of_through h hc ha hd, hv]
    exact ⟨v, x, rfl, hm, hfleet⟩
  case bad => rw [exec_flitReceive_of_bad h hc, exec_flitCrcRetry_of_up h]
  case few =>
    rw [exec_flitCrcRetry_of_up h, State.retryFlit_eq, if_neg (show ¬ 2 ^ 20 ≤ (s.recentRetries p).length + 1 from hn.not_ge)]
    exact ⟨_, rfl, rfl⟩
  case many =>
    have hup : (s.retried p).fleet.lst.getD p 0 ≠ 3 := fun e => absurd (h.symm.trans e) (by decide)
    rw [exec_flitCrcRetry_of_up h, State.retryFlit_eq, if_pos (show 2 ^ 20 ≤ (s.recentRetries p).length + 1 from hn)]
    exact ⟨_, rfl, State.lst_fencePort hup, State.raised_fencePort hup⟩
  case trained => exact ⟨_, exec_portRetrain_of_success h, rfl⟩
  case third =>
    have hlive : (s.retrained p 3 1).fleet.lst.getD p 0 ≠ 3 := fun e => absurd ((getD_set_self hl).symm.trans e) (by decide)
    have hlen : p < (s.retrained p 3 1).fleet.lst.length := (List.length_set ..).symm ▸ hl
    rw [exec_portRetrain_of_failure h, hn, if_pos rfl]
    exact ⟨_, rfl, (State.hasFenced_fencePort hlive hlen).1, State.raised_fencePort hlive⟩
  case failed =>
    rw [exec_portRetrain_of_failure h, if_neg (show ¬ F.retrain.getD p 0 + 1 = 3 by omega)]
    exact ⟨_, rfl, rfl⟩
  case idle =>
    have hidle : (decide (lst = 0) || decide (lst = 3)) = true := by simpa using h
    exact ⟨fun ok => congrArg Host.Outcome.next (if_pos hidle), congrArg Host.Outcome.next (if_pos hidle)⟩
  case lost =>
    have hlive : lst ≠ 3 := by omega
    obtain ⟨hlst, hrepl⟩ := State.hasFenced_foldl (s := s.losing p) (mem_portsTo hp ht) hlive (hl.symm ▸ hp)
    exact ⟨_, exec_keepaliveLoss_of_tenth h hn, hlst, hrepl, State.lostPkg_foldl_fencePort ..⟩
  case refused => exact congrArg Host.Outcome.next (State.writePodcfg_of_refused h)
  case outside => exact congrArg Host.Outcome.next (State.writePodcfg_of_outside hb hc hv)
  case inside =>
    exact ⟨_, congrArg Host.Outcome.next (State.writePodcfg_of_inside hb hc hv), rfl, rfl, rfl, rfl, rfl, rfl, fun q => State.lst_trainPorts _⟩
  case shut => exact exec_monctl_of_notReady hb
  case set => exact ⟨_, exec_monctlSet_of_ready hb hs h, rfl, counters_setCounter hd⟩
  case clear => exact ⟨_, exec_monctlClr_of_ready hb hs h, rfl, counters_clearCounter hd hy⟩

end Sys2Proof.Machine
end
